-- ==== Sys2Proof/Word.lean ====
section
/-! DEFINITION. Bytes, the number formats of 00_scope.md (R3 to R9), saturating and wrapping counters, and the
indexed tables in which the state keeps its registers. -/

namespace Sys2Proof

/-- One byte of a message, register image or memory. -/
abbrev Byte := BitVec 8

/-- A message, file or memory extent, lowest address first (R4: little-endian fields). -/
abbrev Bytes := List Byte

/-- Round half up of `x / d` for a positive divisor (R7): `floor (x / d + 1/2)` in integers. -/
def roundDiv (x d : Int) : Int := (2 * x + d) / (2 * d)

/-- Saturation to the bounds of a result format (R9). -/
def clampInt (x lo hi : Int) : Int := if x < lo then lo else if hi < x then hi else x

/-- An unsigned counter of width `w` that saturates. -/
def satAdd (w n k : Nat) : Nat := min (n + k) (2 ^ w - 1)

/-- An unsigned counter of width `w` that wraps. -/
def wrapAdd (w n k : Nat) : Nat := (n + k) % 2 ^ w

/-- The signed value of the low `w` bits of `n` (R5). -/
def signed (w n : Nat) : Int := if n % 2 ^ w < 2 ^ (w - 1) then (n % 2 ^ w : Nat) else (n % 2 ^ w : Nat) - (2 ^ w : Nat)

/-- The two's-complement field of width `w` that holds `x` (R5, R6). -/
def unsigned (w : Nat) (x : Int) : Nat := (x % (2 ^ w : Nat)).toNat

/-- Bits `h` down to `l` of `n` (R3). -/
def bits (n h l : Nat) : Nat := (n / 2 ^ l) % 2 ^ (h + 1 - l)

/-- Bit `k` of `n` (R3). -/
def bit (n k : Nat) : Bool := n / 2 ^ k % 2 == 1

/-- A flag as a field of one bit at place `k`. -/
def flagAt (b : Bool) (k : Nat) : Nat := if b then 2 ^ k else 0

/-- A field of width `w` at place `l`: only the bits that fit are kept. -/
def fieldAt (v w l : Nat) : Nat := v % 2 ^ w * 2 ^ l

/-- A at or after b on the signed 64-bit difference of R521. -/
def atOrAfter (a b : Nat) : Bool := 0 ≤ signed 64 (unsigned 64 ((a : Int) - b))

/-- The signed 32-bit difference of R106. -/
def signalledAt (counter value : Nat) : Bool := 0 ≤ signed 32 (unsigned 32 ((counter : Int) - value))

/-- The signed 16-bit difference of R540 is positive. -/
def seqNewer (a b : Nat) : Bool := 0 < signed 16 (unsigned 16 ((a : Int) - b))

/-- A table of values indexed by number, lowest index first; an index that is not listed reads as the
default of its kind, which the reader supplies. -/
abbrev Tbl (α : Type) := List (Nat × α)

namespace Tbl

/-- The listed value of an index. -/
def find? {α : Type} (k : Nat) : Tbl α → Option α
  | [] => none
  | (k', v) :: r => if k' = k then some v else find? k r

/-- The value of an index, with the default `d` for an index that is not listed. -/
def get {α : Type} (t : Tbl α) (d : α) (k : Nat) : α := (find? k t).getD d

/-- Give an index a value, keeping the indexes in rising order. -/
def set {α : Type} (k : Nat) (v : α) : Tbl α → Tbl α
  | [] => [(k, v)]
  | (k', v') :: r =>
    if k' = k then (k, v) :: r
    else if k < k' then (k, v) :: (k', v') :: r
    else (k', v') :: set k v r

/-- Drop an index. -/
def erase {α : Type} (k : Nat) : Tbl α → Tbl α
  | [] => []
  | (k', v') :: r => if k' = k then erase k r else (k', v') :: erase k r

end Tbl

/-! ### Little-endian fields of a message (R4) -/

/-- Byte `i` of a message, 0 past its end. -/
def u8 (b : Bytes) (i : Nat) : Nat := (b.getD i 0).toNat

/-- The little-endian value of the first `n` bytes. -/
def leValue : Bytes → Nat
  | [] => 0
  | x :: r => x.toNat + 256 * leValue r

/-- The little-endian field of `n` bytes at offset `i`, missing bytes 0. -/
def leAt (b : Bytes) (i n : Nat) : Nat := leValue ((b.drop i).take n)

/-- `n` little-endian bytes of a value. -/
def leBytes : Nat → Nat → Bytes
  | 0, _ => []
  | n + 1, v => BitVec.ofNat 8 v :: leBytes n (v / 256)

/-- Bytes `i` to `i + n - 1` all read 0 (a reserved field, R11). -/
def zeroAt (b : Bytes) (i n : Nat) : Bool := ((b.drop i).take n).all (· == 0)

/-- Pad with zero bytes, or cut, to exactly `n` bytes. -/
def padTo (n : Nat) (b : Bytes) : Bytes := (b ++ List.replicate (n - b.length) 0).take n

/-! ### Checksums -/

/-- One step of a reflected CRC with polynomial `p` in reflected order. -/
def crcStep (p c : Nat) : Nat := if c % 2 = 1 then (c / 2) ^^^ p else c / 2

/-- Eight steps of a reflected CRC. -/
def crcByte (p c : Nat) (b : Byte) : Nat :=
  let c0 := c ^^^ b.toNat
  crcStep p (crcStep p (crcStep p (crcStep p (crcStep p (crcStep p (crcStep p (crcStep p c0)))))))

/-- The register of a reflected 32-bit CRC after `b`, from register `c`. -/
def crcUpdate (p c : Nat) (b : Bytes) : Nat := b.foldl (crcByte p) c

/-- CRC-32C of R173: polynomial 0x1EDC_6F41 reflected, initial value and final exclusive-or 0xFFFF_FFFF. -/
def crc32c (b : Bytes) : Nat := crcUpdate 0x82F63B78 0xFFFFFFFF b ^^^ 0xFFFFFFFF

/-- CRC-32 of R266: polynomial 0x04C1_1DB7 reflected, initial value and final exclusive-or 0xFFFF_FFFF. -/
def crc32 (b : Bytes) : Nat := crcUpdate 0xEDB88320 0xFFFFFFFF b ^^^ 0xFFFFFFFF

/-- Adler-32 of RFC 1950, as the register pair (a, b). -/
def adlerStep (ab : Nat × Nat) (x : Byte) : Nat × Nat :=
  let a := (ab.1 + x.toNat) % 65521
  (a, (ab.2 + a) % 65521)

end Sys2Proof
end

