-- ==== Sys2Proof/Syntax.lean ====
section
/-! DEFINITION. The commands of the 9610: one constructor for every row of spec/opcode_table.json, with the operands
that the row's event brings from outside (the table gives its rows no fields, log 6). What an event observes of the
world outside the digital state (a link frame, a sensor measurement, a reference clock, the progress of a cluster)
is an operand. -/

namespace Sys2Proof

/-- A host port (R447). -/
inductive Port where
  | a | b
  deriving DecidableEq, Repr

/-- The other port. -/
def Port.other : Port → Port
  | .a => .b
  | .b => .a

/-- Port number: 0 A, 1 B. -/
def Port.num : Port → Nat
  | .a => 0
  | .b => 1

/-- The channel a service request comes through (R491). An Ethernet session brings its message with it (R506). -/
inductive Channel where
  | drawer (p : Port) (n : Nat)
  | queue (q : Nat)
  | eth (session : Nat) (msg : Bytes)
  deriving DecidableEq, Repr

/-- What a line boundary shows of one row: values composed so far in the subframe by the slowest lane (D of R140),
uncorrectable plane-cache reads since the last boundary (R132), and a fault of the bound cluster in this very cycle (R152). -/
structure RowObs where
  row : Nat
  composed : Nat
  cacheDed : Nat := 0
  faulted : Bool := false
  deriving DecidableEq, Repr

/-- A read of the geometry store that finds an error while lenslet column u of a line of a tile row is composed (R66, R67): BD
word m as m, the grid entry of node 480·gy + gx as 100 + node. -/
structure GeomRead where
  row : Nat
  line : Nat
  u : Nat
  word : Nat
  /-- A single-bit error, corrected and counted; otherwise uncorrectable. -/
  corrected : Bool := false
  deriving DecidableEq, Repr

/-- What a line event observes. A row that is not listed has filled its output FIFO (R123) and shows no error. -/
structure LineObs where
  /-- The rows' progress (R140). -/
  rows : List RowObs := []
  /-- Channels by 4·site + channel whose DQS drift exceeds the margin (R427). -/
  drifted : List Nat := []
  /-- Reads of the geometry store that find an error (R66, R67). -/
  geomReads : List GeomRead := []
  /-- Blocks 1920·b + a whose base word reads poisoned (R253). -/
  basePoison : List Nat := []
  /-- Residual lines that read poisoned: 64-byte line k of panel row y as 720·y + k (R230, R253). -/
  residPoison : List Nat := []
  /-- Cells 1920·b + a whose stress record reads poisoned (R253). -/
  stressPoison : List Nat := []
  /-- Working words that read poisoned at the flush: copy and entry (R253). -/
  workPoison : List (Nat × Nat) := []
  /-- Slices of the witness picture in progress that its source has completed (R160). -/
  witnessSlices : Nat := 0
  deriving DecidableEq, Repr

/-- What the check bits of a line show at a read: its words that were corrected, and whether one was uncorrectable (R415, R416). -/
structure Ecc where
  corrected : Nat := 0
  uncorrectable : Bool := false
  deriving DecidableEq, Repr, Inhabited

/-- What the H.265 decoding process gives for the picture of one access unit (log 6): its samples, luma first, then Cb and Cr,
both empty for monochrome; its order and output flag; the references that its reference picture set names; and the CTUs that
could not be decoded. The standard itself governs these values. -/
structure AccessUnit where
  luma : List Nat
  cb : List Nat := []
  cr : List Nat := []
  poc : Int := 0
  outputFlag : Bool := true
  /-- POCs that the reference picture set names as short-term and as long-term. -/
  refShort : List Int := []
  refLong : List Int := []
  isRef : Bool := true
  /-- A syntax error was found in slice data (R324). -/
  syntaxError : Bool := false
  /-- CTUs that abandoned slice segments would have covered, or that were not decoded (R324). -/
  missingCtus : List Nat := []
  /-- CTUs with a write outside the buffer (R327). -/
  blockedCtus : List Nat := []
  /-- CTUs predicted from samples of a reference that read poisoned (R332). -/
  refPoison : List Nat := []
  deriving DecidableEq, Repr

/-- A block of reference samples of an inter prediction, in luma samples, its filter taps included, with the CTU it predicts
(R343). -/
structure RefBlock where
  ctu : Nat
  x0 : Nat
  y0 : Nat
  x1 : Nat
  y1 : Nat
  deriving DecidableEq, Repr

/-- What the choices of the H.265 encoder gave for one witness picture (R338, R343 to R347): for each CTU, in raster order, its bits
in the way the rules have it coded, at its row's QP, at one above, and so on (R345); the bytes of the slice data; the reference
blocks used; and the CTUs whose witness samples read poisoned (R353). -/
structure CodedPicture where
  ctuBits : List (List Nat)
  slice : Bytes
  refs : List RefBlock := []
  poisoned : List Nat := []
  deriving DecidableEq, Repr

/-- A PTP message as received (R540): the port, the sender's port identity, sequenceId and the fields a rule reads. `time` is its
time-stamp field and `correction` its correctionField, both in 2^-16 ns; `error` is that of the port's time-stamp of its arrival, in
2^-16 ns (R534). -/
structure PtpMsg where
  port : Nat
  domain : Nat := 0
  source : Nat
  seq : Nat
  requesting : Nat := 0
  twoStep : Bool := false
  time : Nat := 0
  correction : Int := 0
  error : Int := 0
  gm : Nat := 0
  stepsRemoved : Nat := 0
  best : Bool := false
  kind : Nat := 0
  deriving DecidableEq, Repr

/-- A unit of the Wardrobe: a cluster or a decoder core (R612). -/
inductive FaultUnit where
  | cluster (c : Nat)
  | core (c : Nat)
  deriving DecidableEq, Repr

/-- The source of one power-on or warm reset, with the code of LAST (R582). -/
inductive ResetCause where
  | powerOn | porst | cold | warmPin | warm | clock | supply | wardrobe
  deriving DecidableEq, Repr

/-- One PMBus reading of a device-table entry (R574): `none` when the transaction failed after its retry. -/
structure PmbusReading where
  entry : Nat
  value : Option Nat
  deriving DecidableEq, Repr

/-- Restart causes of R497. -/
inductive StopCause where
  | update | lockstep | watchdog | timeout
  deriving DecidableEq, Repr

/-- A geometry file as it is read, and the halves of the geometry store whose written copy does not match when it is read back
(R56). -/
structure GeomInput where
  file : Bytes
  badCopies : List Nat := []
  deriving DecidableEq, Repr

/-- A domain that is ready (R570); for PD15 the banks whose copy in half 1 fails its verification (R62). -/
structure ReadyDomain where
  num : Nat
  badCopies : List Nat := []
  deriving DecidableEq, Repr

/-- The commands: one constructor a row of spec/opcode_table.json. -/
inductive Instr where
  | frameTick
  | lineStart (sub line : Nat) (obs : LineObs)
  | startLatch
  | rasterStart
  | configurationConfirm
  | retrainComplete (channel : Nat) (ok : Bool)
  | spareBind (row : Nat)
  | clusterFault (row : Nat)
  | laneTimeout (row lane : Nat)
  | unboundClusterFault (cluster : Nat)
  | shadowCheck (spare row line : Nat) (mine bound second : Nat)
  | clusterResetComplete (row : Nat)
  | witnessPictureStart
  | witnessPictureComplete (source : Nat)
  | encodeStart
  | encodeComplete (coded : CodedPicture)
  | rtcpSenderReport
  | encoderFault
  | trainFrame (link : Nat) (groups : List Nat)
  | identFrame (link : Nat) (groups : List Nat)
  | statusFrame (link : Nat) (groups : List Nat)
  | cwLockLoss (link : Nat)
  | trainingTimeout (link : Nat)
  | failedRetrain (link : Nat)
  | statusStale (link : Nat)
  | linkSecond
  | decodePictureStart (core : Nat) (au : AccessUnit)
  | rowBudget (core : Nat) (ctus : List Nat)
  | picWatchdog (core : Nat) (ctus : List Nat)
  | pictureComplete (core : Nat)
  | coreFault (core : Nat)
  | corePictureTimeout (core : Nat)
  | contextMoveComplete (core : Nat)
  | conversionStart (ctx : Nat)
  | pairWaitExpiry (ctx : Nat)
  | conversionComplete (ctx : Nat)
  | bltCommandIssue (q : Nat) (hostCmd : Option Bytes)
  | bltCommandEnd (cmd : Nat)
  | bltEngineFault
  | flattenRestart (group : Nat)
  | dflJobStart (q : Nat) (hostDesc : Option Bytes)
  | dflJobEnd (lane : Nat)
  | dflEngineFault
  | dramRead (requester addr len : Nat) (ecc : Ecc)
  | dramWrite (requester addr : Nat) (data : Bytes) (ecc : Ecc)
  | refreshTick (channel : Nat)
  | refreshIssue (channel : Nat) (pairIdle : Bool)
  | mr4Poll (readings : List (Nat × Nat))
  | patrolScrub (line : Nat) (ecc : Ecc)
  | ceHourEval
  | dramErrorSummary
  | selfRefreshEntry (busy : List Nat)
  | selfRefreshRetry (channel : Nat)
  | selfRefreshExit
  | dramInit (answered good : List Nat)
  | migrationChunk (reads : List (Nat × Ecc)) (targetBad : Option Nat)
  | pcieLinkDown (p : Port)
  | perst (p : Port)
  | functionLevelReset (p : Port)
  | d3hotEntry (p : Port)
  | portLinkUp (p : Port) (speed width : Nat)
  | kick (p : Port) (n : Nat) (value : Nat)
  | abort (p : Port) (n : Nat) (value : Nat)
  | ack (p : Port) (n : Nat) (value : Nat)
  | walecTakesRequest (p : Port) (n : Nat)
  | walecResponse (p : Port) (n : Nat)
  | sqDoorbell (p : Port) (q value : Nat)
  | cqDoorbell (p : Port) (q value : Nat)
  | queueEntryFetch (q : Nat) (hostEntry : Option Bytes)
  | coalesceTimeout (q : Nat)
  | renew (p : Port) (value : Nat)
  | claim (p : Port) (value : Nat)
  | release (p : Port) (value : Nat)
  | leaseExpiry (p : Port)
  | bar2Read (p : Port) (off len : Nat) (ecc : List Ecc)
  | bar2Write (p : Port) (off : Nat) (data : Bytes) (ecc : List Ecc)
  | registerWrite (p : Port) (off width value : Nat)
  | capture (p : Port) (value : Nat)
  | warm (p : Port) (value : Nat)
  | cold (p : Port) (value : Nat)
  | switchRef (p : Port) (value : Nat)
  | botRecoveryWrite (p : Port) (value : Nat)
  | serviceQueueRequest (q : Nat) (hostMsg : Option Bytes)
  | serviceQueueCommit (q : Nat) (hostMsg : Option Bytes)
  | serviceQueueFence (q : Nat)
  | deviceStatus (ch : Channel)
  | devicePut (ch : Channel)
  | deviceGet (ch : Channel)
  | queueCreate (ch : Channel)
  | queueReset (ch : Channel)
  | queueDelete (ch : Channel)
  | queueAttach (ch : Channel)
  | deviceDark (ch : Channel)
  | deviceDarkResume (ch : Channel)
  | powerDown (ch : Channel) (storesOk : Bool)
  | modeSet (ch : Channel)
  | benchLoad (ch : Channel) (hostObj : Bytes)
  | modeSchedule (ch : Channel)
  | modePut (ch : Channel)
  | modeGet (ch : Channel)
  | layerCommit (ch : Channel) (hostObj : Bytes)
  | layerResult (ch : Channel)
  | layerQuery (ch : Channel)
  | scenePut (ch : Channel)
  | sceneGet (ch : Channel)
  | streamOpen (ch : Channel)
  | streamClose (ch : Channel)
  | witnessPut (ch : Channel)
  | witnessGet (ch : Channel)
  | mapLoad (ch : Channel) (hostObj : Bytes)
  | mapActivate (ch : Channel)
  | mapPut (ch : Channel)
  | mapGet (ch : Channel)
  | loadGeom (ch : Channel) (hostObj : GeomInput)
  | activateGeom (ch : Channel)
  | loadCurves (ch : Channel) (hostObj : Bytes)
  | activateCurves (ch : Channel)
  | stressReport (ch : Channel)
  | stressResolve (ch : Channel)
  | modelLoad (ch : Channel) (hostObj : Bytes)
  | stressPut (ch : Channel)
  | stressGet (ch : Channel)
  | sigRegion (ch : Channel)
  | sigRelease (ch : Channel)
  | sigQuery (ch : Channel)
  | timePut (ch : Channel)
  | timeGet (ch : Channel)
  | timeEventSet (ch : Channel)
  | timeEventCancel (ch : Channel)
  | timeEventQuery (ch : Channel)
  | thermPut (ch : Channel)
  | thermGet (ch : Channel)
  | thermAck (ch : Channel)
  | migrate (ch : Channel)
  | restoreLink (ch : Channel)
  | sparePut (ch : Channel)
  | spareGet (ch : Channel)
  | spareReport (ch : Channel)
  | logRead (ch : Channel)
  | logFetch (ch : Channel)
  | logStatus (ch : Channel)
  | logClear (ch : Channel)
  | logArchive (ch : Channel)
  | drawerClass (ch : Channel)
  | ethBind (ch : Channel)
  | rightsPut (ch : Channel)
  | rightsGet (ch : Channel)
  | updateStage (ch : Channel) (hostObj : Bytes)
  | updateSwitch (ch : Channel)
  | updateStatus (ch : Channel)
  | ethSessionOpen (port : Nat) (certificate : Bytes)
  | walecStop (cause : StopCause)
  | lockstepMismatch (odd : Option Nat)
  | watchdogExpiry
  | walecReady
  | walecTimeout
  | wardrobeReset
  | tripleExit
  | walecBeat
  | unitSelfTest (u : FaultUnit) (pass : Bool)
  | sramRepair (domain row word : Nat)
  | autoMigrate (sites : List Nat)
  | autoRestore (link : Nat)
  | geomDedReload (file : GeomInput)
  | stressUpdate
  | ledgerPersist
  | outagePersist
  | archiveSegment
  | bureauSecondSummary
  | benchScheduleAction (entry : Nat)
  | scheduleMissed (entry : Nat)
  | benchExitReady
  | benchExitTimeout
  | outageMs
  | servoSample (ptp : Int) (ptm : Int)
  | ptmDialogue (p : Port)
  | ptmResponsed (p : Port) (masterTime propDelay : Nat)
  | eventSlotFire (slot : Nat)
  | sync (m : PtpMsg)
  | followUp (m : PtpMsg)
  | delayResp (m : PtpMsg)
  | pdelayResp (m : PtpMsg)
  | announce (m : PtpMsg)
  | delayReq (m : PtpMsg)
  | announceReceiptTimeout (port : Nat)
  | syncTransmit (port : Nat)
  | frameRelay (port : Nat) (kind : Nat) (frame : Bytes) (residence : Nat) (full : Bool)
  | sensorConversion (n : Nat) (raw : Nat)
  | pairDisagree (n : Nat)
  | stepperEval
  | shutdownNorIdle (waitedUs : Nat) (eraseSuspended : Bool)
  | shutdownNorTimeout
  | shutdownRecordWritten
  | shutdownTripTimeout
  | missingPulse (r : Port)
  | windowTrip (r : Port)
  | refQualified (r : Port)
  | refRestart (gapNs : Nat)
  | holdExpiry
  | pllLockLoss (pll : Nat)
  | powerOnReset (cause : ResetCause)
  | warmReset (cause : ResetCause)
  | supplyExcursion (rail : Nat)
  | supplyRecovered
  | trialConfirm
  | domainSwitchOn (d : Nat)
  | domainReady (d : ReadyDomain)
  | domainSwitchOff (d : Nat)
  | domainFault (d step : Nat)
  | ioutPoll (readings : List PmbusReading)
  | statusPoll (readings : List (Nat × Option (Nat × Nat × Nat)))
  | smbalert (response : Option Nat) (status : List (Nat × Nat))
  | alertStuckPoll (status : List (Nat × Nat))
  | powerGood (row : Nat)
  | pgoodTimeout (row : Nat)
  | tileSupplyOff (row : Nat)
  | supplyRetry (row : Nat)
  | rowShed
  | rowRestored (row : Nat)
  | d3hotExit (p : Port)
  | porstRelease (tileCfg : Nat) (refPri : Port)
  | perstRelease (p : Port)
  | smbalertRelease
  | ethLinkDown (port : Nat)
  | ethLinkUp (port : Nat)
  | ethFrameReceive (port : Nat) (kind : Nat) (frame : Bytes)
  | delayReqTransmit (port : Nat)
  | announceTransmit (port : Nat)
  deriving DecidableEq, Repr

end Sys2Proof
end

