-- ==== Sys2Proof/WellFormed.lean ====
section
/-! DEFINITION. When a command's operands name things the 9610 has (R12 and the chapters' ranges). A command whose
operands lie outside is no event of the manual. -/

namespace Sys2Proof

/-- A channel names a drawer, a queue or a bind slot that exists (R455, R463, R506). -/
def Channel.wf : Channel → Bool
  | .drawer _ n => n < 32
  | .queue q => q < 16384
  | .eth session _ => session < 8

/-- A tile row (R12). -/
def rowOk (r : Nat) : Bool := r < 12
/-- A frame of the return lane: 33 code groups of 10 bits (R261, R271). -/
def groupsOk (gs : List Nat) : Bool := gs.length = 33 && gs.all (· < 1024)

/-- A tile link (R259). -/
def linkOk (n : Nat) : Bool := n < 96
/-- A decoder core (R298). -/
def coreOk (c : Nat) : Bool := c < 2
/-- A decoder context (R302). -/
def ctxOk (n : Nat) : Bool := n < 64
/-- A queue (R463). -/
def queueOk (q : Nat) : Bool := q < 16384
/-- A DRAM channel, 4 times its site plus its number in the site (R402). -/
def chanOk (c : Nat) : Bool := c < 36
/-- A line has 8 words (R415). -/
def eccOk (e : Ecc) : Bool := e.corrected + (if e.uncorrectable then 1 else 0) ≤ 8
/-- A register value (R451). -/
def wordOk (v : Nat) : Bool := v < 2 ^ 64
/-- A drawer of a port (R455). -/
def drawerOk (n : Nat) : Bool := n < 32
/-- An Ethernet port (R535). -/
def ethOk (p : Nat) : Bool := p < 2

/-- A PTP message on a port, with the error of its time-stamp within the wider bound of R534, 7 ns. -/
def ptpOk (m : PtpMsg) : Bool := ethOk m.port && -458752 ≤ m.error && m.error ≤ 458752

/-- Whether the operands of a command lie in the manual's ranges. -/
def WellFormed : Instr → Bool
  | .lineStart sub line o => sub < 2 && line < 1500 && o.rows.all (fun x => rowOk x.row) && o.drifted.all chanOk && o.witnessSlices ≤ 135 &&
      o.geomReads.all fun x => rowOk x.row && x.line < 1440 && x.u < 3072 && x.word < 100 + 129600
  | .retrainComplete c _ => chanOk c
  | .spareBind r => rowOk r
  | .clusterFault r => rowOk r
  | .laneTimeout r l => rowOk r && l < 8
  | .unboundClusterFault c => c < 14
  | .shadowCheck sp r l _ _ _ => sp < 14 && rowOk r && l < 1440
  | .clusterResetComplete r => rowOk r
  | .trainFrame n gs => linkOk n && groupsOk gs
  | .identFrame n gs => linkOk n && groupsOk gs
  | .statusFrame n gs => linkOk n && groupsOk gs
  | .cwLockLoss n => linkOk n
  | .trainingTimeout n => linkOk n
  | .failedRetrain n => linkOk n
  | .statusStale n => linkOk n
  | .decodePictureStart c _ => coreOk c
  | .rowBudget c _ => coreOk c
  | .picWatchdog c _ => coreOk c
  | .pictureComplete c => coreOk c
  | .coreFault c => coreOk c
  | .corePictureTimeout c => coreOk c
  | .contextMoveComplete c => coreOk c
  | .conversionStart n => ctxOk n
  | .pairWaitExpiry n => ctxOk n
  | .conversionComplete n => ctxOk n
  | .bltCommandIssue q _ => q ≤ 16384
  | .flattenRestart g => g < 16
  | .dflJobStart q _ => q ≤ 16384
  | .dflJobEnd l => l < 4
  | .dramRead r a n e => r < 9 && a < 2 ^ 40 && 1 ≤ n && a % 64 + n ≤ 64 && eccOk e
  | .dramWrite r a b e => r < 9 && a < 2 ^ 40 && 1 ≤ b.length && a % 64 + b.length ≤ 64 && eccOk e
  | .patrolScrub _ e => eccOk e
  | .migrationChunk es _ => es.all fun x => eccOk x.2
  | .refreshTick c => chanOk c
  | .refreshIssue c _ => chanOk c
  | .selfRefreshRetry c => chanOk c
  | .portLinkUp _ sp w => 1 ≤ sp && sp ≤ 5 && (w == 1 || w == 2 || w == 4)
  | .kick _ n v => drawerOk n && wordOk v
  | .abort _ n v => drawerOk n && wordOk v
  | .ack _ n v => drawerOk n && wordOk v
  | .walecTakesRequest _ n => drawerOk n
  | .walecResponse _ n => drawerOk n
  | .sqDoorbell _ q v => queueOk q && wordOk v
  | .cqDoorbell _ q v => queueOk q && wordOk v
  | .queueEntryFetch q _ => queueOk q
  | .coalesceTimeout q => queueOk q
  | .renew _ v => wordOk v
  | .claim _ v => wordOk v
  | .release _ v => wordOk v
  | .bar2Read _ o l es => o + l ≤ 2 ^ 30 && es.all eccOk
  | .bar2Write _ o d es => o + d.length ≤ 2 ^ 30 && es.all eccOk
  | .registerWrite _ o w v => o < 2 ^ 25 && (w == 4 || w == 8) && o % w == 0 && v < 256 ^ w
  | .capture _ v => wordOk v
  | .warm _ v => wordOk v
  | .cold _ v => wordOk v
  | .switchRef _ v => wordOk v
  | .botRecoveryWrite _ v => wordOk v
  | .serviceQueueRequest q _ => queueOk q
  | .serviceQueueCommit q _ => queueOk q
  | .serviceQueueFence q => queueOk q
  | .deviceStatus ch => ch.wf
  | .devicePut ch => ch.wf
  | .deviceGet ch => ch.wf
  | .queueCreate ch => ch.wf
  | .queueReset ch => ch.wf
  | .queueDelete ch => ch.wf
  | .queueAttach ch => ch.wf
  | .deviceDark ch => ch.wf
  | .deviceDarkResume ch => ch.wf
  | .powerDown ch _ => ch.wf
  | .modeSet ch => ch.wf
  | .benchLoad ch _ => ch.wf
  | .modeSchedule ch => ch.wf
  | .modePut ch => ch.wf
  | .modeGet ch => ch.wf
  | .layerCommit ch _ => ch.wf
  | .layerResult ch => ch.wf
  | .layerQuery ch => ch.wf
  | .scenePut ch => ch.wf
  | .sceneGet ch => ch.wf
  | .streamOpen ch => ch.wf
  | .streamClose ch => ch.wf
  | .witnessPut ch => ch.wf
  | .witnessGet ch => ch.wf
  | .mapLoad ch _ => ch.wf
  | .mapActivate ch => ch.wf
  | .mapPut ch => ch.wf
  | .mapGet ch => ch.wf
  | .loadGeom ch f => ch.wf && f.badCopies.all (· < 2)
  | .activateGeom ch => ch.wf
  | .loadCurves ch _ => ch.wf
  | .activateCurves ch => ch.wf
  | .stressReport ch => ch.wf
  | .stressResolve ch => ch.wf
  | .modelLoad ch _ => ch.wf
  | .stressPut ch => ch.wf
  | .stressGet ch => ch.wf
  | .sigRegion ch => ch.wf
  | .sigRelease ch => ch.wf
  | .sigQuery ch => ch.wf
  | .timePut ch => ch.wf
  | .timeGet ch => ch.wf
  | .timeEventSet ch => ch.wf
  | .timeEventCancel ch => ch.wf
  | .timeEventQuery ch => ch.wf
  | .thermPut ch => ch.wf
  | .thermGet ch => ch.wf
  | .thermAck ch => ch.wf
  | .migrate ch => ch.wf
  | .restoreLink ch => ch.wf
  | .sparePut ch => ch.wf
  | .spareGet ch => ch.wf
  | .spareReport ch => ch.wf
  | .logRead ch => ch.wf
  | .logFetch ch => ch.wf
  | .logStatus ch => ch.wf
  | .logClear ch => ch.wf
  | .logArchive ch => ch.wf
  | .drawerClass ch => ch.wf
  | .ethBind ch => ch.wf
  | .rightsPut ch => ch.wf
  | .rightsGet ch => ch.wf
  | .updateStage ch _ => ch.wf
  | .updateSwitch ch => ch.wf
  | .updateStatus ch => ch.wf
  | .ethSessionOpen p _ => ethOk p
  | .lockstepMismatch odd => odd.all (· < 3)
  | .unitSelfTest (.cluster c) _ => c < 14
  | .unitSelfTest (.core c) _ => coreOk c
  | .sramRepair d _ _ => d < 44
  | .autoMigrate ls => ls.all (· < 8)
  | .autoRestore n => linkOk n
  | .benchScheduleAction e => e < 16
  | .scheduleMissed e => e < 16
  | .eventSlotFire n => n < 16
  | .servoSample a b => -7 ≤ a && a ≤ 7 && -200 ≤ b && b ≤ 200
  | .sync m => ptpOk m
  | .followUp m => ptpOk m
  | .delayResp m => ptpOk m
  | .pdelayResp m => ptpOk m
  | .announce m => ptpOk m
  | .delayReq m => ptpOk m
  | .announceReceiptTimeout p => ethOk p
  | .syncTransmit p => ethOk p
  | .frameRelay p _ _ _ _ => ethOk p
  | .sensorConversion n _ => n < 24
  | .pairDisagree n => n < 24
  | .pllLockLoss n => n < 24
  | .supplyExcursion n => 1 ≤ n && n < 8
  | .domainSwitchOn d => d < 44
  | .domainReady d => d.num < 44 && d.badCopies.all (· < 2)
  | .domainSwitchOff d => d < 44
  | .domainFault d st => d < 44 && 1 ≤ st && st ≤ 5
  | .powerGood r => rowOk r
  | .pgoodTimeout r => rowOk r
  | .tileSupplyOff r => rowOk r
  | .supplyRetry r => rowOk r
  | .rowRestored r => rowOk r
  | .porstRelease t _ => t < 4
  | .ethLinkDown p => ethOk p
  | .ethLinkUp p => ethOk p
  | .ethFrameReceive p _ _ => ethOk p
  | .delayReqTransmit p => ethOk p
  | .announceTransmit p => ethOk p
  | .witnessPictureComplete c => c < 14 || c == 0xFE
  | .geomDedReload f => f.badCopies.all (· < 2)
  | .rasterStart => true
  | .frameTick | .startLatch | .configurationConfirm | .witnessPictureStart
  | .encodeStart | .encodeComplete _ | .rtcpSenderReport | .encoderFault | .linkSecond
  | .bltCommandEnd _ | .bltEngineFault | .dflEngineFault | .mr4Poll _ | .ceHourEval
  | .dramErrorSummary | .selfRefreshEntry _ | .selfRefreshExit | .dramInit _ _ | .pcieLinkDown _
  | .perst _ | .functionLevelReset _ | .d3hotEntry _ | .leaseExpiry _ | .walecStop _ | .watchdogExpiry | .walecReady
  | .walecTimeout | .wardrobeReset | .tripleExit | .walecBeat | .stressUpdate | .ledgerPersist
  | .outagePersist | .archiveSegment | .bureauSecondSummary | .benchExitReady | .benchExitTimeout | .outageMs
  | .ptmDialogue _ | .ptmResponsed _ _ _ | .stepperEval | .shutdownNorIdle _ _
  | .shutdownNorTimeout | .shutdownRecordWritten | .shutdownTripTimeout | .missingPulse _ | .windowTrip _
  | .refQualified _ | .refRestart _ | .holdExpiry | .powerOnReset _ | .warmReset _
  | .supplyRecovered | .trialConfirm | .ioutPoll _ | .statusPoll _ | .smbalert _ _ | .alertStuckPoll _ | .rowShed
  | .d3hotExit _ | .perstRelease _ | .smbalertRelease => true

end Sys2Proof
end

