-- ==== Sys2Proof/Config.lean ====
section
/-! DEFINITION. What a particular 9610, its panel and the published standards fix, and the values the manual leaves
open. A constant with no body is a FREE VALUE: nothing in Lean can evaluate it, so a theorem holds for every value of it. -/

namespace Sys2Proof

/-- What an installation record names (R194, R235, R403, R409, R503, R573, R605). The manual gives no layout of it (log 14). -/
structure InstallRecord where
  /-- TILE_CFG of the installation (R194). -/
  tileCfg : Nat := 0
  /-- The installation's mode (R195). -/
  mode : Nat := 6
  /-- DRAM data rate code of R442 (R403). -/
  rate : Nat := 0
  /-- Bank masks, when the record holds them (R409). -/
  masks : Option (List Nat) := none
  /-- BRIGHT by colour, when the record holds it (R235). -/
  bright : Option (List Nat) := none
  /-- I_LIMIT in mA, when the record holds it (R235). -/
  iLimit : Option Nat := none
  /-- PMBus at 100 kHz (R572). -/
  slowBus : Bool := false
  /-- PMBus device table as 16-byte entries (R573). -/
  devices : List Bytes := []
  /-- Service parameters that apply at boot: SERVICE, PARAM_ID, INDEX and VALUE (R541, R605). -/
  params : List (Nat × Nat × Nat × Nat) := []
  /-- Classes of the drawers by 32·port + number (R503). -/
  classes : List (Nat × Nat) := []
  /-- Unicast MAC addresses of ETH0 and ETH1 (R535). -/
  macs : List Nat := []
  deriving DecidableEq, Repr, Inhabited

end Sys2Proof

namespace Sys2Proof.Config

/-- FREE VALUE. What the bytes of an installation record name; the manual gives no layout of them (R631; log 14). -/
opaque installRecord : Bytes → InstallRecord

/-- FREE VALUE. The n-th value drawn where the manual gives an effect and not its number (log 2). -/
opaque freeNat : Nat → Nat

/-- FREE VALUE. SHA-384 (FIPS 180-4), which the manual names and does not define (R510, R635, R639; log 3). -/
opaque sha384 : Bytes → Bytes

/-- FREE VALUE. ECDSA P-384 verification with SHA-384 of the signature `sig` over `msg` with `key` (R635, R639; log 3). -/
opaque ecdsaVerify : (key sig msg : Bytes) → Bool

/-- FREE VALUE. The match and code choice of DEFLATE: the bits that follow the type of a coded block, by DEPTH and TABLES, the earlier
input of the stream and the input of the block (R387, R389; log 4). `Machine.codedBlock` takes them only where they are a coding of
the block. -/
opaque deflateBody : (depth tables : Nat) → (history block : Bytes) → List Bool

/-- FREE VALUE. The reading that a table of NTC_TABLE out of the order of R588 gives for a measurement (log 110). -/
opaque tableReading : List (Nat × Int) → Nat → Nat

/-- FREE VALUE. The protected ranges that Walec sets at start-up besides those of the areas the model places: base and size in
units of 64 KiB, and the requesters that may read and write (R419). -/
opaque protectedRanges : List (Nat × Nat × List Nat × List Nat)

/-- FREE VALUE. The zlib stream in which Walec stores bytes in eMMC; many streams carry the same bytes (R251, R513). -/
opaque zlib : Bytes → Bytes

/-- FREE VALUE. Bytes of one pool buffer by MAX_WIDTH, MAX_HEIGHT and MAX_BIT_DEPTH (R309). -/
opaque poolBuffer : Nat → Nat → Nat → Nat

/-- FREE VALUE. The public key of an X.509 certificate (R636). -/
opaque certKey : Bytes → Bytes

/-- FREE VALUE. State in which the scrambler of a forward lane starts (R260; log 89). -/
opaque laneSeed : Nat → Nat

/-- FREE VALUE. Where Walec places the encoder's output buffer in DRAM, and its size in bytes (R350; log 23). -/
opaque encoderBuffer : Nat × Nat

/-- FREE VALUE. The PCI vendor ID assigned to Chagiden (R447). -/
opaque vendorId : Nat

/-- FREE VALUE. The serial number in the fuses of this part (R487). -/
opaque serial : Nat

/-- FREE VALUE. Digest of root key slot `k` in the fuses (R635). -/
opaque rootKey : Nat → Bytes
/-- FREE VALUE. Digest of installation key slot `k` in the fuses (R639). -/
opaque installKey : Nat → Bytes

/-- What R338 fixes of the parameter sets of the witness stream: Main profile and tier, 8-bit 4:2:0, one slice, no tiles and no
wavefronts, P pictures on the previous picture alone. -/
structure StreamParams where
  profile : Nat := 1
  highTier : Bool := false
  /-- general_level_idc. -/
  level : Nat
  width : Nat
  codedHeight : Nat
  /-- conf_win_bottom_offset. -/
  bottomOffset : Nat
  ctu : Nat := 32
  minCu : Nat := 8
  minTu : Nat := 4
  maxTu : Nat := 32
  amp : Bool := false
  tiles : Bool := false
  wavefront : Bool := false
  /-- sps_max_dec_pic_buffering_minus1. -/
  bufferingMinus1 : Nat := 1
  temporalMvp : Bool := false
  constrainedIntra : Bool := true
  deblocking : Bool := true
  sao : Bool := false
  deriving DecidableEq, Repr, Inhabited

/-- What R338 leaves open of the parameter sets and slice headers of the witness stream (log 85). -/
structure StreamOpen where
  /-- general_profile_compatibility_flags beside that of Main. -/
  compat : Nat := 0
  /-- The four source flags of profile_tier_level. -/
  source : Nat := 0
  vpsId : Nat := 0
  spsId : Nat := 0
  ppsId : Nat := 0
  /-- sub_layer_ordering_info_present_flag. -/
  ordering : Bool := false
  /-- max_latency_increase_plus1. -/
  latency : Nat := 0
  /-- num_units_in_tick and time_scale of the VPS. -/
  timing : Option (Nat × Nat) := none
  /-- log2_max_pic_order_cnt_lsb_minus4. -/
  pocBits : Nat := 0
  interDepth : Nat := 0
  intraDepth : Nat := 0
  /-- The reference picture set stands in the SPS and not in each slice header. -/
  shortInSps : Bool := false
  /-- sps_temporal_mvp_enabled_flag; the flag of a slice is 0 (R338). -/
  temporalMvp : Bool := false
  /-- vui_parameters, none where they are no valid ones. -/
  vui : List Bool := []
  /-- init_qp_minus26. -/
  initQp : Int := 0
  qpDepth : Nat := 0
  /-- The loop filter may cross slices: a picture has one. -/
  acrossSlices : Bool := false
  /-- five_minus_max_num_merge_cand. -/
  merge : Nat := 0
  /-- IDR_N_LP in place of IDR_W_RADL. -/
  noLeading : Bool := false
  /-- no_output_of_prior_pics_flag. -/
  noPrior : Bool := false
  deriving DecidableEq, Repr, Inhabited

/-- FREE VALUE. What R338 leaves open of the witness stream of each size (log 85). -/
opaque streamOpen : StreamParams → StreamOpen

/-- FREE VALUE. Payload type, first sequence number and SSRC of the witness stream's RTP packets (R349; log 85). -/
opaque rtpNames : Nat × Nat × Nat

end Sys2Proof.Config
end

