-- ==== Sys2Proof/Machine/State.lean ====
section
/-! DEFINITION. The state of the 9610 as plain data. The default of every field is its value in State.reset: the value
the manual states, or the value the named log entry chooses. A table that lists nothing reads its kind's default at
every index. Each field's docstring gives its name in the manual, its width, its rule and its reset value. -/

namespace Sys2Proof.Machine

/-! ### Stops -/

/-- Why the machine stops with a fault. No command of the 9610 faults: the part reports every error through a status
code, a status bit or FAULT#. The constructor stands for an access outside the address space, and nothing raises it. -/
inductive Fault where
  /-- Raised by nothing: R420 gives every access outside the memory an effect (safe). -/
  | noSuchAddress (addr : Nat)
  deriving DecidableEq, Repr

/-- Why a command has no meaning. -/
inductive Refusal where
  /-- Raised by exec's arm of a command that has no meaning yet (safe). -/
  | notModelled (mnemonic : String)
  deriving DecidableEq, Repr

/-! ### Layers (03_layers_and_composition.md) -/

/-- A buffer descriptor (R72). -/
structure Desc where
  /-- ADDR (64 bits; R72; reset 0). -/
  addr : Nat := 0
  /-- WIDTH (16 bits; R72; reset 0). -/
  width : Nat := 0
  /-- HEIGHT (16 bits; R72; reset 0). -/
  height : Nat := 0
  /-- STRIDE64 (16 bits; R72; reset 0). -/
  stride64 : Nat := 0
  /-- FORMAT (8 bits; R72, R74; reset 0). -/
  format : Nat := 0
  deriving DecidableEq, Repr, Inhabited

/-- A layer-table entry (R71), every field as its raw bits. -/
structure LayerEntry where
  /-- FRONT (128 bits; R71; reset 0: no buffer). -/
  front : Desc := {}
  /-- BACK (128 bits; R71; reset 0: no buffer). -/
  back : Desc := {}
  /-- ORIGIN_X (32 bits, s13.6; R71; reset 0). -/
  originX : Nat := 0
  /-- ORIGIN_Y (32 bits, s13.6; R71; reset 0). -/
  originY : Nat := 0
  /-- SCALE_X (16 bits, u4.12; R71; reset 0). -/
  scaleX : Nat := 0
  /-- SCALE_Y (16 bits, u4.12; R71; reset 0). -/
  scaleY : Nat := 0
  /-- DISPARITY (16 bits, s9.6; R71; reset 0). -/
  disparity : Nat := 0
  /-- LAYER_ALPHA (8 bits; R71; reset 0). -/
  layerAlpha : Nat := 0
  /-- CLASS (8 bits: 0 VIDEO, 1 GRAPHIC, 2 STATIC, 3 SAFETY; R71, R117; reset 0). -/
  cls : Nat := 0
  /-- FLAGS (16 bits; R73; reset 0, ENABLE 0 by R117). -/
  flags : Nat := 0
  /-- FENCE_ID (8 bits; R71; reset 0). -/
  fenceId : Nat := 0
  /-- VIDEO_SOURCE (8 bits; R71; reset 0xFF, none). -/
  videoSource : Nat := 255
  /-- FENCE_VALUE (32 bits; R71; reset 0). -/
  fenceValue : Nat := 0
  /-- OPQ_X0 (16 bits; R71; reset 0). -/
  opqX0 : Nat := 0
  /-- OPQ_Y0 (16 bits; R71; reset 0). -/
  opqY0 : Nat := 0
  /-- OPQ_X1 (16 bits; R71; reset 0). -/
  opqX1 : Nat := 0
  /-- OPQ_Y1 (16 bits; R71; reset 0). -/
  opqY1 : Nat := 0
  deriving DecidableEq, Repr, Inhabited

/-- The operation of a commit member (R102). -/
inductive MemberOp where
  | replace | flip | disable
  deriving DecidableEq, Repr, Inhabited

/-- A commit member (R102). -/
structure Member where
  layer : Nat
  op : MemberOp
  entry : LayerEntry
  deriving DecidableEq, Repr, Inhabited

/-- The origin of a change: ORIGIN_KIND, ORIGIN_ID and CLASS of R508. -/
structure Origin where
  kind : Nat := 4
  id : Nat := 0xFFFF
  cls : Nat := 0
  deriving DecidableEq, Repr, Inhabited

/-- One entry of a signature block (R177). -/
structure SigEntry where
  region : Nat
  kind : Nat
  mode : Nat
  expected : Nat
  deriving DecidableEq, Repr, Inhabited

/-- A signature block (R177). -/
structure SigBlock where
  geomVersion : Nat
  entries : List SigEntry
  deriving DecidableEq, Repr, Inhabited

/-- Where a commit's records go: a drawer request, a COMMIT entry of a SERVICE queue, or a request of a queue or session, whose
channel is its origin (R466, R501). -/
inductive CommitKey where
  | drawer (p : Port) (n tagGen : Nat)
  | queue (q slot gen user : Nat)
  | request (slot tagGen : Nat)
  deriving DecidableEq, Repr, Inhabited

/-- The completion of a commit (R114). -/
structure Completion where
  deferrals : Nat := 0
  late : Bool := false
  partialApply : Bool := false
  frameTaken : Nat := 0
  applied : List Nat := []
  stale : List Nat := []
  superseded : List Nat := []
  deriving DecidableEq, Repr, Inhabited

/-- An accepted commit not yet applied (R103 to R112). -/
structure Commit where
  id : Nat
  members : List Member
  frame : Nat
  deferLimit : Nat
  mustHit : Bool
  late : Bool
  deferrals : Nat := 0
  sigBlock : Option SigBlock := none
  origin : Origin := {}
  key : CommitKey := .request 0 0
  /-- Sideboard groups it changes (R97, R112). -/
  groups : List Nat := []
  /-- Layers whose member is STATIC: the current or new CLASS, as the commits accepted before it leave them (R97, R98). -/
  statics : List Nat := []
  /-- Set at the latch instant: the layers whose members apply at the next tick; the others become stale (R108, R109). -/
  latched : Option (List Nat) := none
  deriving DecidableEq, Repr, Inhabited

/-- A waiting stale member (R110, R113). -/
structure StaleMember where
  member : Member
  commitId : Nat
  origin : Origin := {}
  /-- Its fence was signalled at the latch instant: it applies at the next tick. -/
  ready : Bool := false
  /-- A STATIC member: its FLATTEN is a fence of its own (R97, R98). -/
  isStatic : Bool := false
  sigBlock : Option SigBlock := none
  deriving DecidableEq, Repr, Inhabited

/-- The kept result of an accepted commit (R501). -/
structure CommitResult where
  id : Nat
  key : CommitKey
  origin : Origin := {}
  frame : Nat
  completion : Option Completion := none
  deriving DecidableEq, Repr, Inhabited

/-- The back buffer of a Sideboard group as one accepted commit leaves it (R97, R98). -/
structure GroupBack where
  /-- COMMIT_ID of the commit. -/
  commit : Nat
  width : Nat
  height : Nat
  /-- The members' entries as the commit leaves them, in ascending layer number. -/
  entries : List (Nat × LayerEntry)
  /-- The texel words, row by row, once the FLATTEN has completed (log 12). -/
  image : Option (List Nat) := none
  deriving DecidableEq, Repr, Inhabited

/-- A Sideboard group (R93 to R98). Its buffers are held as their texel words, row by row (log 12). -/
structure Group where
  /-- Member layers of the front buffer, ascending; none until a first image is shown. -/
  members : List Nat := []
  disparity : Nat
  originX : Nat
  originY : Nat
  scaleX : Nat
  scaleY : Nat
  width : Nat := 0
  height : Nat := 0
  image : Option (List Nat) := none
  /-- Back buffers of accepted commits that have not applied, in acceptance order. -/
  backs : List GroupBack := []
  deriving DecidableEq, Repr, Inhabited

/-- CMP_LAYER_STATUS_n and CMP_LAYER_FLIP_TIME_n beside the entry (R117). -/
structure LayerStatus where
  /-- FLIP_FRAME (32 bits; R117; reset 0). -/
  flipFrame : Nat := 0
  /-- CMP_LAYER_FLIP_TIME_n (64 bits; R117; reset 0). -/
  flipTime : Nat := 0
  /-- STALE_FRAMES (16 bits; R117; reset 0). -/
  staleFrames : Nat := 0
  /-- DISCARDED (1 bit, W1C; R117; reset 0). -/
  discarded : Bool := false
  /-- DROPPED (1 bit; R117; reset 0). -/
  dropped : Bool := false
  /-- FLIP_PENDING (1 bit; R117; reset 0). -/
  flipPending : Bool := false
  deriving DecidableEq, Repr, Inhabited

/-- The layer table and the commit unit. -/
structure CmpState where
  /-- Active layer-table entries L0 to L63 (512 bits each; R71; reset every field 0, VIDEO_SOURCE 0xFF, DESIGN CHOICE log 7). -/
  layers : Tbl LayerEntry := []
  /-- CMP_LAYER_STATUS_n and CMP_LAYER_FLIP_TIME_n (64 + 64 bits; R117; reset 0). -/
  status : Tbl LayerStatus := []
  /-- Accepted commits not yet applied, in acceptance order (at most 64; R103, R112; reset none). -/
  commits : List Commit := []
  /-- Waiting stale members by layer (R113; reset none). -/
  stale : Tbl StaleMember := []
  /-- The last 256 accepted commits (R501; reset none). -/
  results : List CommitResult := []
  /-- COMMIT_ID of the last accepted commit (32 bits; R501; reset 0, DESIGN CHOICE log 7). -/
  lastId : Nat := 0
  /-- Sideboard groups (at most 16; R93, R94; reset none). -/
  groups : Tbl Group := []
  /-- CMP_FENCE_n, n = 1 to 255 (32 bits; R106, R673; reset 0). -/
  fences : Tbl Nat := []
  /-- TERM_T16 in effect (16 bits; R89; reset 0). -/
  termT16 : Nat := 0
  /-- CMP_POISON_COUNT (32 bits; R118; reset 0). -/
  poisonCount : Nat := 0
  /-- Poisoned texel reads of the frame in progress (R82, R511; reset 0). -/
  poisonInFrame : Nat := 0
  /-- BACK of the layer holds a complete picture with this presentation time and base (R100; reset none). -/
  backReady : Tbl (Nat × Nat) := []
  deriving DecidableEq, Repr, Inhabited

/-! ### Geometry (02_ray_geometry.md) -/

/-- A calibration grid entry (R46), raw fields. -/
structure GridNode where
  du : Nat := 0
  dv : Nat := 0
  dtx : Nat := 0
  dty : Nat := 0
  deriving DecidableEq, Repr, Inhabited

/-- One bank of the lens grid store (R54 to R63). -/
structure GeomBank where
  /-- VERSION of the bank (32 bits; R54; reset 0, R63). -/
  version : Nat := 0
  /-- PHASE_B_VALID (1 bit; R54; reset 0, R63). -/
  phaseBValid : Bool := false
  /-- BANKn_VALID (1 bit; R69; reset 1). -/
  valid : Bool := true
  /-- BD, 200 entries (2 × 16 bits; R45; reset 0, R63). -/
  bd : Tbl (Nat × Nat) := []
  /-- Calibration grid, 129,600 entries (4 × 16 bits; R46; reset 0, R63). -/
  grid : Tbl GridNode := []
  deriving DecidableEq, Repr, Inhabited

/-- The geometry store and RAY_GEOM_STATUS. -/
structure GeomState where
  /-- Banks 0 and 1 of half 0 (R56; reset the zero set). -/
  banks : Tbl GeomBank := []
  /-- Banks 0 and 1 of half 1 (R56, R62; reset the zero set). -/
  half1 : Tbl GeomBank := []
  /-- ACTIVE_BANK (1 bit; R69; reset 0). -/
  active : Nat := 0
  /-- The frame at whose tick the active set took effect (64 bits; SWAP_FRAME its low 16; R69; reset 0). -/
  swapFrame : Nat := 0
  /-- A load into the inactive bank was made since the active bank became active (R58; reset no). -/
  loadedSince : Bool := false
  /-- DED_COUNT (8 bits; R69; reset 0). -/
  dedCount : Nat := 0
  /-- DED_SEEN (1 bit, W1C; R69; reset 0). -/
  dedSeen : Bool := false
  /-- Uncorrectable reads of the frame in progress (R67, R511; reset 0). -/
  dedInFrame : Nat := 0
  /-- Single-bit errors corrected on reads of grid and BD words (R66; reset 0, DESIGN CHOICE log 7). -/
  corrected : Nat := 0
  /-- Bank copies that are not verified, as 2·half + bank: the rows of that half do not start (R62, R215; reset none). -/
  badCopies : List Nat := []
  /-- PANEL_ID of the attached panel (64 bits; R55, R273; reset not yet known). -/
  panelId : Option Nat := none
  /-- Links report different PANEL_IDs (R294; reset no). -/
  panelMismatch : Bool := false
  /-- PANEL_IDs that differ from the attached panel's (64 bits each; R294; reset none). -/
  otherPanels : List Nat := []
  /-- Sets loaded since the mismatch: 1 geometry, 2 curves, 3 map (R294; reset none). -/
  renewed : List Nat := []
  deriving DecidableEq, Repr, Inhabited

/-! ### Ray engine (04_ray_engine.md) -/

/-- A composed value and its STABLE mark (R88, R174), with the texel fetches that read poisoned (R82) and the 64-byte lines
read through the miss path (R129). -/
structure Composed where
  r : Nat
  g : Nat
  b : Nat
  stable : Bool := false
  /-- Addresses of the texels that read poisoned (R82). -/
  poison : List Nat := []
  miss : Nat := 0
  deriving DecidableEq, Repr, Inhabited

/-- A line slot of the 8 output FIFOs of a row: the composed line of each tile, in raster order (R123). -/
structure FifoLine where
  line : Nat
  tiles : List (List Composed)
  deriving DecidableEq, Repr, Inhabited

/-- A window of the plane cache: image columns x0 to x1 and rows y0 to y1 of a layer or Sideboard group, named by its layer or
its lowest member (R128). -/
structure Window where
  num : Nat
  x0 : Nat
  x1 : Nat
  y0 : Nat
  y1 : Nat
  deriving DecidableEq, Repr, Inhabited

/-- One 2 MiB band buffer of a row's plane-cache slice (R127). -/
structure BandBuffer where
  /-- Band whose windows it holds or receives (R126). -/
  band : Nat := 0
  /-- The windows allocated, in their order of allocation (R128). -/
  windows : List Window := []
  /-- VIDEO layers with the occlusion ranges of the band in which they are neither fetched nor sampled (R134). -/
  skips : List (Nat × Nat) := []
  deriving DecidableEq, Repr, Inhabited

/-- Cluster state codes of R164. -/
inductive ClusterState where
  | off | bound | spare | witness | faulted | resetting | suspect
  deriving DecidableEq, Repr, Inhabited

/-- One tile row and its Trestle. -/
structure Row where
  /-- CLUSTER (4 bits; R162; reset r; 0xF none). -/
  cluster : Nat
  /-- A spare to be bound at a composition boundary (R121, R156; reset none). -/
  toBind : Option Nat := none
  /-- Frame and index of the subframe at whose composition boundary it is bound (64 + 1 bits; R121; reset 0, DESIGN CHOICE log 7). -/
  bindAt : Nat × Nat := (0, 0)
  /-- Line slots of the tiles' output FIFOs in use, oldest first (4 lines × 8 tiles × 3,840 values; R123; reset empty). -/
  fifo : List FifoLine := []
  /-- Composed values of the lenslet row of FLAT-60 in progress, by tile (R53, R136; reset none). -/
  lens : List (List Composed) := []
  /-- Band buffer that serves the band being composed (2 MiB; R127; reset empty, DESIGN CHOICE log 7). -/
  bandBuf : BandBuffer := {}
  /-- Band buffer that receives the next band's windows (2 MiB; R127, R130; reset empty, DESIGN CHOICE log 7). -/
  nextBuf : BandBuffer := {}
  /-- 64-byte lines read through the miss path in the band so far (R129; reset 0, DESIGN CHOICE log 7). -/
  bandMiss : Nat := 0
  /-- The coming subframe is sent as header and ABORT HELD, as decided with its header (R157; reset no). -/
  holdNext : Bool := false
  /-- Cap code of K (2 bits; R162; reset 0b00). -/
  cap : Nat := 0
  /-- Ceiling code (2 bits; R162; reset 0b00). -/
  ceiling : Nat := 0
  /-- Consecutive count of R141 (4 bits; reset 0, DESIGN CHOICE log 7). -/
  consec : Nat := 0
  /-- First line of the last lowering, while it has not been completed (R141 rule 1; reset none). -/
  heldLine : Option Nat := none
  /-- SDEBT was 0 at every boundary of the band so far (R141 rule 5; reset true, DESIGN CHOICE log 7). -/
  quiet : Bool := true
  /-- No lowering in the band so far (R141 rule 5; reset true, DESIGN CHOICE log 7). -/
  noLower : Bool := true
  /-- SDEBT (16 bits; R162; reset 0). -/
  sdebt : Nat := 0
  /-- Values composed so far by the slowest lane, D of R140 (23 bits; reset 0, DESIGN CHOICE log 7). -/
  composed : Nat := 0
  /-- Cap code with which each started line of the subframe was composed (R145; reset none). -/
  lineCaps : Tbl Nat := []
  /-- Cap codes of the frame's subframes A and B (R144; reset none). -/
  capsA : Tbl Nat := []
  /-- Cap codes of phase B (R144; reset none). -/
  capsB : Tbl Nat := []
  /-- CLUSTER_A (8 bits; R144; reset 0xFF, DESIGN CHOICE log 7). -/
  clusterA : Nat := 255
  /-- CLUSTER_B (8 bits; R144; reset 0xFF, DESIGN CHOICE log 7). -/
  clusterB : Nat := 255
  /-- The subframe being sent has been aborted from this line on (R148; reset none). -/
  aborted : Option Nat := none
  /-- A cluster fault aborts the coming subframe at line 0 (R156; reset no). -/
  abortNext : Bool := false
  /-- ABORT_A (1 bit; R144; reset 0). -/
  abortA : Bool := false
  /-- ABORT_B (1 bit; R144; reset 0). -/
  abortB : Bool := false
  /-- BAND (4 bits; R162; reset 0). -/
  band : Nat := 0
  /-- MISS_LINES (8 bits; R162; reset 0). -/
  missLines : Nat := 0
  /-- CACHE_DED (8 bits; R162; reset 0). -/
  cacheDed : Nat := 0
  /-- ABORT_LINE (12 bits; R162; reset 0). -/
  abortLine : Nat := 0
  /-- LAST_CAUSE (1 bit; R162; reset 0). -/
  lastCause : Bool := false
  /-- HELD (1 bit; R162; reset 0). -/
  held : Bool := false
  /-- ABORT_SEEN (1 bit, W1C; R162; reset 0). -/
  abortSeen : Bool := false
  /-- LOWERED_SEEN (1 bit, W1C; R162; reset 0). -/
  loweredSeen : Bool := false
  /-- FAULT_ABORTS (32 bits; R163; reset 0). -/
  faultAborts : Nat := 0
  /-- UNDERRUN_ABORTS (32 bits; R163; reset 0). -/
  underrunAborts : Nat := 0
  /-- Aborts of the current TB0 second after the first (R151; reset none this second). -/
  abortsInSecond : Option Nat := none
  /-- TB0 times of faults that found no spare (R157; reset none). -/
  heldFaults : List Nat := []
  deriving DecidableEq, Repr, Inhabited

/-- A shadow mismatch that awaits its repeat on the same line number in the next subframe of the same phase (R155). -/
structure ShadowRepeat where
  row : Nat
  line : Nat
  frame : Nat
  phase : Nat
  deriving DecidableEq, Repr, Inhabited

/-- The shadow checks of a spare cluster (R155). -/
structure Shadow where
  /-- Row whose turn it is (4 bits; R155; reset 0, DESIGN CHOICE log 7). -/
  row : Nat := 0
  /-- Rotating line index (11 bits; R155; reset 0, DESIGN CHOICE log 7). -/
  line : Nat := 0
  /-- Frame and subframe of its last check (R155; reset none). -/
  last : Option (Nat × Nat) := none
  /-- Mismatches that await their repeat, one for each phase (R155; reset none). -/
  again : List ShadowRepeat := []
  deriving DecidableEq, Repr, Inhabited

/-- A witness picture being rendered or handed to the encoder (R160, R161, R335). -/
structure WitnessPicture where
  /-- 3,840 × 2,160 (R161). -/
  wide : Bool := true
  /-- RATE for the picture (R161). -/
  rate : Nat := 30
  /-- Composed values of the slices rendered so far, row by row (36 bits a pixel; R159, R160). -/
  rows : List (List Composed) := []
  /-- FIRST_FRAME (64 bits; R160). -/
  firstFrame : Nat := 0
  /-- LAST_FRAME (64 bits; R160). -/
  lastFrame : Nat := 0
  /-- TB3 time of FIRST_FRAME's tick, ns (R349). -/
  firstTick : Nat := 0
  deriving DecidableEq, Repr, Inhabited

/-- The ray engine. -/
structure RayState where
  /-- Tile rows 0 to 11 (R162; reset cluster r bound, R120). -/
  rows : Tbl Row := []
  /-- Cluster states C0 to C13 (4 bits each; R164; reset 0 OFF). -/
  clusters : Tbl ClusterState := []
  /-- Order of the spare pool (R120; reset C12, C13). -/
  spares : List Nat := [12, 13]
  /-- Shadow checks of the spare clusters (R155; reset none made). -/
  shadows : Tbl Shadow := []
  /-- PICTURES (32 bits; R165; reset 0). -/
  pictures : Nat := 0
  /-- SOURCE (8 bits; R165; reset 0xFF). -/
  source : Nat := 255
  /-- RATE (8 bits; R165; reset 0). -/
  rate : Nat := 0
  /-- RATE_REQ read back (8 bits; R165; reset 0). -/
  rateReq : Nat := 0
  /-- REDUCED (1 bit; R165; reset 0). -/
  reduced : Bool := false
  /-- FALLBACK (1 bit; R165; reset 0). -/
  fallback : Bool := false
  /-- The witness picture in progress (R160; reset none). -/
  witness : Option WitnessPicture := none
  /-- RECORDS (16 bits; R166; reset 0). -/
  capRecords : Nat := 0
  /-- DRAM address of cap ring slot 0 (40 bits; R166; reset 0). -/
  capBase : Nat := 0
  /-- NEWEST_FRAME (64 bits; R166; reset 0). -/
  newestFrame : Nat := 0
  deriving DecidableEq, Repr, Inhabited

/-! ### Signatures (05_output_signatures.md) -/

/-- A region record (R167). -/
structure RegionRec where
  /-- U0 (16 bits; R167; reset 0). -/
  u0 : Nat := 0
  /-- V0 (16 bits; R167; reset 0). -/
  v0 : Nat := 0
  /-- U1 (16 bits; R167; reset 0). -/
  u1 : Nat := 0
  /-- V1 (16 bits; R167; reset 0). -/
  v1 : Nat := 0
  /-- SUBSET (8 bits; R167; reset 0). -/
  subset : Nat := 0
  /-- ACTION (8 bits; R167; reset 0). -/
  action : Nat := 0
  /-- MISMATCH_LIMIT (8 bits; R167; reset 2, DESIGN CHOICE log 7). -/
  limit : Nat := 2
  /-- SLATE_LAYER (8 bits; R167; reset 0xFF, DESIGN CHOICE log 7). -/
  slateLayer : Nat := 255
  /-- ENABLE (8 bits; R167; reset 0). -/
  enable : Nat := 0
  /-- SLATE_ENTRY (512 bits; R167; reset 0). -/
  slate : LayerEntry := {}
  deriving DecidableEq, Repr, Inhabited

/-- The last result of a region, coded as LAST_RESULT (R187). -/
inductive SigResult where
  | none | matched | mismatch | ineligible | skipped | noExpected | seeded
  deriving DecidableEq, Repr, Inhabited

/-- The expected value of a region (R177 to R180). -/
structure Expected where
  kind : Nat := 0
  mode : Nat := 0
  value : Nat := 0
  geomVersion : Nat := 0
  /-- A stale member of the block's commit still waits: no expected value is in force (R178). -/
  blocked : Bool := false
  reference : Option Nat := none
  deriving DecidableEq, Repr, Inhabited

/-- A region as the checker holds it. -/
structure Region where
  /-- Record in the active region set (640 bits; R167; reset 0). -/
  record : RegionRec := {}
  /-- Expected value in force (R178 to R180; reset OFF). -/
  expected : Expected := {}
  /-- LAST_CRC (32 bits; R187; reset 0). -/
  lastCrc : Nat := 0
  /-- MISMATCHES (16 bits; R187; reset 0). -/
  mismatches : Nat := 0
  /-- CONSEC (4 bits; R187; reset 0). -/
  consec : Nat := 0
  /-- LAST_RESULT (3 bits; R187; reset NONE). -/
  lastResult : SigResult := .none
  /-- SUBSTITUTED (1 bit; R187; reset 0). -/
  substituted : Bool := false
  /-- Expected value of the last MISMATCH (32 bits; R186; reset 0, DESIGN CHOICE log 7). -/
  lastExpected : Nat := 0
  /-- Reference of the substituted evaluation as KIND SELF (R182; reset none). -/
  subRef : Option Nat := none
  /-- A substitution begins at the next tick (R181; reset no). -/
  toSubstitute : Bool := false
  /-- MISMATCH_SEEN (1 bit, W1C; R187; reset 0). -/
  mismatchSeen : Bool := false
  /-- INELIGIBLE_SEEN (1 bit, W1C; R187; reset 0). -/
  ineligibleSeen : Bool := false
  /-- Mismatches of the current TB0 second after the first entry (R186; reset none this second). -/
  inSecond : Option Nat := none
  /-- Checksum stream of the frame so far: 36-bit words in order, by 12·subframe + tile row (R172; reset empty). -/
  stream : Tbl (List Nat) := []
  /-- Every ray so far is STABLE (R174; reset true, DESIGN CHOICE log 7). -/
  stable : Bool := true
  /-- A row-subframe under the region aborted in this frame (R175; reset no). -/
  hitAbort : Bool := false
  deriving DecidableEq, Repr, Inhabited

/-- The region checker. -/
structure SigState where
  /-- Regions 0 to 31 (R167; reset off). -/
  regions : Tbl Region := []
  /-- SIG_EVAL_FRAME (64 bits; R187; reset 0). -/
  evalFrame : Nat := 0
  deriving DecidableEq, Repr, Inhabited

/-! ### Changes that wait for a frame tick (R23 to R25) -/

/-- A level-3 change accepted for a frame tick. -/
inductive Change where
  | geomSwap (version : Nat)
  | curveSwap (version : Nat)
  | mapSwap (version : Nat)
  | stressSwap (f0 : Nat)
  | workBank
  | mode (code : Nat)
  | realign
  | termT16 (v : Nat)
  | lensLead (v : Nat)
  | selBase (v : Nat)
  | region (n : Nat) (r : RegionRec)
  | sigRelease (n : Nat)
  | bandWeights (w : Tbl Nat)
  deriving DecidableEq, Repr, Inhabited

/-- A change with the frame at whose tick it takes effect and its origin. -/
structure Pending where
  frame : Nat
  change : Change
  origin : Origin := {}
  deriving DecidableEq, Repr, Inhabited

/-! ### Modes, timing and Bench (06_modes_timing_bench.md, 16_time_and_network.md) -/

/-- BENCH_STATE (R220). -/
inductive BenchState where
  | off | entering | running | leaving
  deriving DecidableEq, Repr, Inhabited

/-- A Bench schedule entry (R218). -/
structure ScheduleEntry where
  first : Nat
  period : Nat
  action : Nat
  mode : Nat
  base : Nat
  /-- TB0 time of the first refused attempt, while it is retried (R218). -/
  retrySince : Option Nat := none
  deriving DecidableEq, Repr, Inhabited

/-- Servo states of R526. -/
inductive Servo where
  | free | locking | locked | holdover
  deriving DecidableEq, Repr, Inhabited

/-- One time base (R518, R519, R526). -/
structure Base where
  /-- Accumulator in units of 2^-40 ns (104 bits; R518; reset 0, R519). -/
  acc : Nat := 0
  /-- INC_n in units of 2^-40 ns (R518; reset 10 ns, R519). -/
  inc : Nat := 10 * 2 ^ 40
  /-- TBn_STATE (2 bits; R544; reset FREE). -/
  servo : Servo := .free
  /-- Consecutive samples within 200 ns (R526; reset 0, DESIGN CHOICE log 7). -/
  good : Nat := 0
  /-- Consecutive samples beyond 1 µs (R526; reset 0, DESIGN CHOICE log 7). -/
  bad : Nat := 0
  /-- Offset at the last sample, ns (R526, R544; reset 0). -/
  offset : Int := 0
  /-- The source was valid at the last sample (1 bit; R526; reset no). -/
  wasValid : Bool := false
  deriving DecidableEq, Repr, Inhabited

/-- An event slot (R524). -/
structure EventSlot where
  /-- Armed (1 bit; R524; reset no). -/
  armed : Bool := false
  /-- TIME_BASE (2 bits; R524; reset 0, DESIGN CHOICE log 7). -/
  base : Nat := 0
  /-- ACTION (2 bits; R524; reset 0, DESIGN CHOICE log 7). -/
  action : Nat := 0
  /-- COUNT (32 bits; R524; reset 0, DESIGN CHOICE log 7). -/
  count : Nat := 0
  /-- TARGET (64 bits; R524; reset 0). -/
  target : Nat := 0
  /-- PERIOD (64 bits; R524; reset 0, DESIGN CHOICE log 7). -/
  period : Nat := 0
  /-- USER (64 bits; R524; reset 0, DESIGN CHOICE log 7). -/
  user : Nat := 0
  deriving DecidableEq, Repr, Inhabited

/-- A port's capture registers (R520, R543). -/
structure Capture where
  /-- TIM_TB0_CAP to TIM_TB3_CAP (64 bits each; R543; reset 0). -/
  ns : Tbl Nat := []
  /-- Fractions of TIM_TB_CAP_FRAC by base (16 bits each; R543; reset 0). -/
  frac : Tbl Nat := []
  deriving DecidableEq, Repr, Inhabited

/-- The timing block. -/
structure TimState where
  /-- Time bases TB0 to TB3 (R518; reset 0 at nominal rate). -/
  bases : Tbl Base := []
  /-- ACTIVE_MODE (8 bits; R220; reset 0x00). -/
  mode : Nat := 0
  /-- The frame at whose tick the mode took effect (64 bits; R203; reset 0, DESIGN CHOICE log 7). -/
  modeFrame : Nat := 0
  /-- Level-3 changes accepted and not yet in effect, in acceptance order (R24, R25; reset none). -/
  pending : List Pending := []
  /-- LENS_LEAD in effect (8 bits; R220; reset 60). -/
  lensLead : Nat := 60
  /-- LINE (11 bits; R220; reset 0). -/
  line : Nat := 0
  /-- SUBFRAME (1 bit; R220; reset 0). -/
  sub : Nat := 0
  /-- The line event of the current line period has been raised (reset no, DESIGN CHOICE log 7). -/
  lineRaised : Bool := false
  /-- The latch instant, or start latch, of the next tick has passed (R24, R675; reset no). -/
  latched : Bool := false
  /-- TRANS_LEFT (2 bits; R220; reset 0). -/
  transLeft : Nat := 0
  /-- The transition interval changes the subframe rate: MODE carries RETRAIN 1 (R206, R267; reset no). -/
  transRetrain : Bool := false
  /-- First frame of the mode announced by MODE packets (R267; reset 0, DESIGN CHOICE log 7). -/
  transFrame : Nat := 0
  /-- RETRAIN: links whose RATE_READY is still awaited (R220; reset none, RETRAIN 0). -/
  retrainLinks : List Nat := []
  /-- MODE_CHANGED (1 bit, W1C; R220; reset 0). -/
  modeChanged : Bool := false
  /-- TILE_STRAP (2 bits; R220; reset strap, DESIGN CHOICE 0 before the first sampling, log 8). -/
  tileStrap : Nat := 0
  /-- CONFIRMED (1 bit; R220; reset 0). -/
  confirmed : Bool := false
  /-- CONFIG mismatch of R194 (R497; reset no). -/
  configMismatch : Bool := false
  /-- RASTER_RUN (1 bit; R220; reset 0). -/
  rasterRun : Bool := false
  /-- Walec starts the raster in BENCH (R217; reset no). -/
  restartBench : Bool := false
  /-- Mode to which Walec goes after a start in FLAT-60; 0 the installation's (8 bits; R195, R217; reset 0). -/
  restartMode : Nat := 0
  /-- The raster start has been made and its first tick is awaited (R675; reset no). -/
  starting : Bool := false
  /-- BENCH_STATE (2 bits; R220; reset OFF). -/
  bench : BenchState := .off
  /-- Bench bitmap in the retention SRAM (at most 262,144 bytes; R209, R212; reset none, BENCH_VALID 0). -/
  bitmap : Option Bytes := none
  /-- Return mode of the Bench (8 bits; R216; reset 0, DESIGN CHOICE log 7). -/
  benchReturn : Nat := 0
  /-- TB0 time at which the exit from Bench was accepted (R216; reset none). -/
  leaveSince : Option Nat := none
  /-- Origin of the entry or the exit in progress (R219; reset Walec's own, DESIGN CHOICE log 7). -/
  benchOrigin : Origin := {}
  /-- Bench frames by 4·link + band (32 bits each; R254; reset 0). -/
  benchCounts : Tbl Nat := []
  /-- Bench schedule entries 0 to 15 (128 bits each; R218; reset none). -/
  schedule : Tbl ScheduleEntry := []
  /-- TIM_FRAME_COUNT (64 bits; R196; reset 0). -/
  frameCount : Nat := 0
  /-- Next tick time in TB3, units of 2^-16 ns (80 bits; R22; reset 0, DESIGN CHOICE log 7). -/
  nextTick : Nat := 0
  /-- Tick time of the frame in progress, units of 2^-16 ns (80 bits; R22, R191; reset 0, DESIGN CHOICE log 7). -/
  thisTick : Nat := 0
  /-- TIM_FLIP_TB3 with its fraction, units of 2^-16 ns (80 bits; R221; reset 0). -/
  flipTb3 : Nat := 0
  /-- TIM_FLIP_SEL with its fraction, units of 2^-16 ns (80 bits; R221; reset 0). -/
  flipSel : Nat := 0
  /-- SEL_BASE (2 bits; R221; reset 3). -/
  selBase : Nat := 3
  /-- Base of Bureau entries and of the TIME service (2 bits; R200; reset 3). -/
  bureauBase : Nat := 3
  /-- Captures of ports A and B (R520; reset 0). -/
  captures : Tbl Capture := []
  /-- Event slots 0 to 15 (R524; reset disarmed). -/
  slots : Tbl EventSlot := []
  /-- FIRED_n (16 × 1 bit, W1C; R546; reset 0). -/
  fired : List Nat := []
  /-- TB3_SOURCE (2 bits; R544; reset 3). -/
  tb3Source : Nat := 3
  /-- TB3_OFFSET (64 bits signed; R541; reset 0). -/
  tb3Offset : Int := 0
  /-- GENLOCK parameter (1 bit; R541; reset 0). -/
  genlockParam : Nat := 0
  /-- TICK_ORIGIN parameter (64 bits; R541; reset 0). -/
  originParam : Nat := 0
  /-- GENLOCK in effect (1 bit; R544; reset 0). -/
  genlock : Bool := false
  /-- TICK_ORIGIN in effect (64 bits; R531, R541; reset 0). -/
  tickOrigin : Nat := 0
  /-- k of the last tick on the genlock grid (4 bits; R531; reset 0, DESIGN CHOICE log 7). -/
  gridK : Nat := 0
  /-- SLEW_MAX (7 bits; R541; reset 100). -/
  slewMax : Nat := 100
  /-- STEP_LIMIT (10 bits; R541; reset 20). -/
  stepLimit : Nat := 20
  /-- TB2_PORT (2 bits; R541; reset 2 off). -/
  tb2Port : Nat := 2
  /-- PTM_INTERVAL (10 bits; R541; reset 10). -/
  ptmInterval : Nat := 10
  /-- TB2 time-stamp of the PTM Request awaiting its response (R533; reset none). -/
  ptmSent : Option Nat := none
  /-- Round trip of the last PTM dialogue in TB2, ns (R533; reset none). -/
  ptmTrip : Option Nat := none
  /-- Host time at the last request, and its TB2 stamp (R533; reset none). -/
  ptmHost : Option (Nat × Nat) := none
  /-- That host time has not yet been a sample of the TB2 servo (R526, R533; reset no). -/
  ptmNew : Bool := false
  /-- Consecutive failed PTM dialogues (R526; reset 0, DESIGN CHOICE log 7). -/
  ptmFails : Nat := 0
  /-- PTM_VALID (1 bit; R544; reset 0). -/
  ptmValid : Bool := false
  /-- REALIGN_SEEN (1 bit, W1C; R544; reset 0). -/
  realignSeen : Bool := false
  /-- HOLDOVER_SEEN (1 bit, W1C; R544; reset 0). -/
  holdoverSeen : Bool := false
  /-- TB0_GAP_SEEN (1 bit, W1C; R544; reset 0). -/
  tb0GapSeen : Bool := false
  /-- TB0 time of the configuration confirmation (R528; reset none). -/
  confirmedAt : Option Nat := none
  /-- Drive level of PANEL_SYNC (1 bit; R198; reset 0). -/
  panelSync : Bool := false
  /-- Line periods left until PANEL_SYNC falls (R198; reset 0). -/
  syncLeft : Nat := 0
  /-- Drive level of LENS_PH (1 bit; R197; reset 0). -/
  lensPh : Bool := false
  deriving DecidableEq, Repr, Inhabited

/-- One Ethernet port and its PTP port (16_time_and_network.md). -/
structure EthPort where
  /-- ETHn_LINK (1 bit; R545; reset 0). -/
  link : Bool := false
  /-- PORTn_STATE (4 bits; R545; reset 3). -/
  state : Nat := 3
  /-- PTP_TRANSPORT (2 bits; R541; reset 0). -/
  transport : Nat := 0
  /-- PTP_STEP (1 bit; R541; reset 0). -/
  step : Nat := 0
  /-- ING_LAT (signed, 2^-16 ns; R541; reset 0). -/
  ingLat : Int := 0
  /-- EGR_LAT (signed, 2^-16 ns; R541; reset 0). -/
  egrLat : Int := 0
  /-- DELAY_ASYM (signed, 2^-16 ns; R541; reset 0). -/
  delayAsym : Int := 0
  /-- ETH_SPEED in effect (3 bits; R541; reset from NOR, DESIGN CHOICE 0, log 8). -/
  speed : Nat := 0
  /-- ETH_SPEED set, waiting for the link to restart (R541; reset 0, log 8). -/
  speedNext : Nat := 0
  /-- IPV4_ADDR (32 bits; R541; reset from NOR, DESIGN CHOICE 0, log 8). -/
  ipv4 : Nat := 0
  /-- IPV4_MASK (32 bits; R541; reset from NOR, DESIGN CHOICE 0, log 8). -/
  ipv4Mask : Nat := 0
  /-- IPV4_GW (32 bits; R541; reset from NOR, DESIGN CHOICE 0, log 8). -/
  ipv4Gw : Nat := 0
  /-- IPV6_ADDR (128 bits; R541; reset from NOR, DESIGN CHOICE 0, log 8). -/
  ipv6 : Nat := 0
  /-- IPV6_PREFIX (8 bits; R541; reset from NOR, DESIGN CHOICE 0, log 8). -/
  ipv6Prefix : Nat := 0
  /-- VLAN (12 bits; R541; reset from NOR, DESIGN CHOICE 0, log 8). -/
  vlan : Nat := 0
  /-- Last accepted Sync sequenceId (16 bits; R540; reset none). -/
  lastSync : Option Nat := none
  /-- The last accepted Sync was two-step and awaits its Follow_Up: sequenceId, arrival in 2^-16 ns and correction (R540; reset
  none). -/
  twoStep : Option (Nat × Nat × Int) := none
  /-- Departure, arrival and correction of the last complete Sync, in 2^-16 ns (R537; reset none). -/
  syncTimes : Option (Nat × Nat × Int) := none
  /-- Departure of the last Delay_Req in TB1, 2^-16 ns (R537; reset 0, DESIGN CHOICE log 7). -/
  delayReqAt : Nat := 0
  /-- Departure of the last Pdelay_Req in TB1, 2^-16 ns (R537; reset 0, DESIGN CHOICE log 7). -/
  pdelayReqAt : Nat := 0
  /-- sequenceId of the last Delay_Req sent (16 bits; R540; reset none). -/
  delayReqSent : Option Nat := none
  /-- sequenceId of the last Pdelay_Req sent (16 bits; R540; reset none). -/
  pdelayReqSent : Option Nat := none
  /-- A two-step Pdelay_Resp of that sequenceId has been accepted and awaits its Follow_Up: responder, its arrival time-stamp of the
  request, arrival and correction (R537, R540; reset none). -/
  pdelayResp : Option (Nat × Nat × Nat × Int) := none
  /-- Last accepted Announce sequenceId by foreign port identity (R540; reset none). -/
  announces : Tbl Nat := []
  /-- Next sequenceId of Sync (16 bits; R537; reset 0, DESIGN CHOICE log 7). -/
  seqSync : Nat := 0
  /-- Next sequenceId of Delay_Req (16 bits; R537; reset 0, DESIGN CHOICE log 7). -/
  seqDelay : Nat := 0
  /-- Next sequenceId of Announce (16 bits; R537; reset 0, DESIGN CHOICE log 7). -/
  seqAnnounce : Nat := 0
  /-- Next sequenceId of Pdelay_Req (16 bits; R537; reset 0, DESIGN CHOICE log 7). -/
  seqPdelay : Nat := 0
  /-- Unicast MAC address (48 bits; R535; reset from NOR, DESIGN CHOICE 0, log 8). -/
  mac : Nat := 0
  /-- Last measured path delay, 2^-16 ns (R537; reset 0, DESIGN CHOICE log 7). -/
  pathDelay : Int := 0
  deriving DecidableEq, Repr, Inhabited

/-- Ethernet and PTP. -/
structure EthState where
  /-- Ports ETH0 and ETH1 (R535; reset down). -/
  ports : Tbl EthPort := []
  /-- PTP_ROLE (3 bits; R541; reset 0 off). -/
  role : Nat := 0
  /-- PTP_PROFILE (1 bit; R541; reset 0). -/
  profile : Nat := 0
  /-- PTP_DOMAIN (7 bits; R541; reset 0). -/
  domain : Nat := 0
  /-- PRIORITY1 (8 bits; R541; reset 128). -/
  priority1 : Nat := 128
  /-- PRIORITY2 (8 bits; R541; reset 128). -/
  priority2 : Nat := 128
  /-- LOG_SYNC (signed; R541; reset the profile's default, 0 or −3). -/
  logSync : Option Int := none
  /-- LOG_ANNOUNCE (signed; R541; reset the profile's default, 1 or 0). -/
  logAnnounce : Option Int := none
  /-- LOG_MIN_DELAY_REQ (signed; R541; reset the default 0). -/
  logMinDelay : Option Int := none
  /-- The PTP parent: ETH port and port identity (R526, R540; reset none). -/
  parent : Option (Nat × Nat) := none
  /-- The parent is valid (R526; reset no). -/
  parentValid : Bool := false
  /-- TB0 at the last accepted Sync of the parent, or as it became the parent, ns (64 bits; R526; reset 0). -/
  syncAt : Nat := 0
  /-- Last offset of TB1 from the parent, ns (R526; reset none). -/
  tb1Offset : Option Int := none
  /-- Offset of TB1 from the parent that the last Sync gave and no sample has used yet, ns (R526, R537; reset none). -/
  measured : Option Int := none
  /-- Grandmaster identity of the current data set (64 bits; R545; reset none). -/
  gm : Option Nat := none
  /-- STEPS_REMOVED (8 bits; R545; reset 0). -/
  stepsRemoved : Nat := 0
  /-- SEQ_DISCARDS (16 bits; R545; reset 0). -/
  seqDiscards : Nat := 0
  /-- RELAY_DROP_SEEN (1 bit, W1C; R545; reset 0). -/
  relayDropSeen : Bool := false
  /-- SEQ_DISCARD_SEEN (1 bit, W1C; R545; reset 0). -/
  seqDiscardSeen : Bool := false
  /-- GM_CHANGE_SEEN (1 bit, W1C; R545; reset 0). -/
  gmChangeSeen : Bool := false
  /-- Bind slots 0 to 7: class and certificate fingerprint (R506; reset unbound). -/
  binds : Tbl (Nat × Bytes) := []
  /-- Residence times of forwarded two-step Syncs whose Follow_Up has not come, by `relayKey` (sender, port and sequenceId), in
  2^-16 ns (R538; reset none). -/
  residences : Tbl Nat := []
  /-- Open management sessions 0 to 7: ETH port and bind slot (R506; reset none). -/
  sessions : Tbl (Nat × Nat) := []
  deriving DecidableEq, Repr, Inhabited

/-! ### Drive correction and the stress ledger (07_drive_correction_and_stress.md) -/

/-- One bank of drive curves (R223, R224). -/
structure CurveBank where
  /-- VERSION (32 bits; R224; reset 0, R258). -/
  version : Nat := 0
  /-- VALID (1 bit; R224; reset 1). -/
  valid : Bool := true
  /-- Curve values by (band * 3 + channel) * 4096 + input, input 0 to 4095 (16 bits each; R223, R258; reset 16 times the input). -/
  values : Tbl Nat := []
  /-- BAND_T1 (16 bits, s11.4; R224; reset 0). -/
  t1 : Int := 0
  /-- BAND_T2 (16 bits, s11.4; R224; reset 0). -/
  t2 : Int := 0
  /-- BAND_T3 (16 bits, s11.4; R224; reset 0). -/
  t3 : Int := 0
  /-- HYST (16 bits, s11.4; R224; reset 0). -/
  hyst : Int := 0
  deriving DecidableEq, Repr, Inhabited

/-- One bank of the correction maps (R230 to R232). The planes stand in DRAM. -/
structure MapBank where
  /-- VERSION (32 bits; R230; reset 0, R258). -/
  version : Nat := 0
  /-- VALID (1 bit; R232; reset 1). -/
  valid : Bool := true
  /-- Base plane, 16 bits an emitter (R230; reset 16384, R258). -/
  base : Tbl Nat := []
  /-- Residual plane, 4 bits a ray (R231; reset 7, R258). -/
  resid : Tbl Nat := []
  deriving DecidableEq, Repr, Inhabited

/-- One tile of the panel as the drive correction holds it. -/
structure Tile where
  /-- BAND (2 bits; R226, R255; reset 0). -/
  band : Nat := 0
  /-- FALLBACK (1 bit; R228, R255; reset 0). -/
  fallback : Bool := false
  /-- The band that the tile's own temperature of the latch instant gives without hysteresis (R228; reset none). -/
  anew : Option Nat := none
  /-- A band has been selected from a valid temperature (R226; reset no). -/
  first : Bool := false
  /-- h, number of CUT steps (4 bits; R255; reset 0). -/
  cut : Nat := 0
  deriving DecidableEq, Repr, Inhabited

/-- An ageing model (R245). -/
structure AgeModel where
  version : Nat
  doseShift : Nat
  /-- WEIGHT by 3·band + colour, u1.7. -/
  weight : Tbl Nat
  /-- Knots (DOSE, RETAIN) of each colour in order. -/
  knots : Tbl (List (Nat × Nat))
  deriving DecidableEq, Repr, Inhabited

/-- A persisted ledger in an eMMC slot: its 64-byte header, and the bank that its zlib stream holds (R251; log 91). -/
structure LedgerSlot where
  /-- The header (64 bytes; R251). -/
  head : Bytes := []
  /-- The long bank (R251). -/
  bank : Tbl Nat := []
  /-- Order of writing: the newer slot has the higher value (the model's own, log 7). -/
  order : Nat := 0
  deriving DecidableEq, Repr, Inhabited

/-- The output stages, the maps they read and the stress ledger. -/
structure OutState where
  /-- Curve banks 0 and 1 (R223; reset version 0, R258). -/
  curves : Tbl CurveBank := []
  /-- Active curve bank (1 bit; R223; reset 0, DESIGN CHOICE log 7). -/
  curveActive : Nat := 0
  /-- A curve set was loaded into the inactive bank since the active bank became active (R58, R225; reset no). -/
  curveLoaded : Bool := false
  /-- The frame at whose tick the active curve set took effect (64 bits; R58, R225; reset 0). -/
  curveFrame : Nat := 0
  /-- The frame at whose tick the active maps took effect (64 bits; R58, R232; reset 0). -/
  mapFrame : Nat := 0
  /-- Map banks 0 and 1 (R232; reset version 0, R258). -/
  maps : Tbl MapBank := []
  /-- Active map bank (1 bit; R232; reset 0, DESIGN CHOICE log 7). -/
  mapActive : Nat := 0
  /-- A map was loaded into the inactive bank since the active bank became active (R58, R232; reset no). -/
  mapLoaded : Bool := false
  /-- Tiles by 8·row + column (R255; reset band 0). -/
  tiles : Tbl Tile := []
  /-- Tiles as the latch instant chose them for the next frame tick (R226, R233; reset none). -/
  tilesNext : Option (Tbl Tile) := none
  /-- Current references CR in effect by 3·tile + colour (8 bits each; R233; reset 0, DESIGN CHOICE log 7). -/
  cr : Tbl Nat := []
  /-- Current references sampled at the latch instant for the next frame tick (R233; reset none). -/
  crNext : Option (Tbl Nat) := none
  /-- PANEL_BAND (2 bits; R256; reset 0). -/
  panelBand : Nat := 0
  /-- PANEL_INVALID (1 bit; R256; reset 0). -/
  panelInvalid : Bool := false
  /-- BRIGHT in effect by colour (8 bits each; R256; reset 0). -/
  bright : Tbl Nat := []
  /-- BRIGHT as last set, by colour (8 bits each; R233, R235; reset 0, DESIGN CHOICE log 7). -/
  brightSet : Tbl Nat := []
  /-- BRIGHT sampled at the latch instant for the coming tick (R23, R233; reset none). -/
  brightNext : Option (Tbl Nat) := none
  /-- BRIGHT in the installation record by colour (8 bits each; R235; reset record holds none). -/
  brightRecord : Tbl Nat := []
  /-- I_LIMIT in the installation record, mA (R235; reset record holds none). -/
  iLimitRecord : Option Nat := none
  /-- I_LIMIT in effect, mA (R235; reset not set). -/
  iLimit : Option Nat := none
  /-- Current-limit step m (5 bits; R234; reset 16). -/
  m : Nat := 16
  /-- Latch instants since m last changed, or since the stages first acted (R234; reset 0, DESIGN CHOICE log 7). -/
  sinceChange : Nat := 0
  /-- m has changed since reset (R234; reset no). -/
  mChanged : Bool := false
  /-- Consecutive latch instants at which the rise condition held (R234; reset 0, DESIGN CHOICE log 7). -/
  quiet : Nat := 0
  /-- LIMIT_FLOOR (1 bit; R256; reset 0). -/
  limitFloor : Bool := false
  /-- LIMIT_SEEN (1 bit, W1C; R256; reset 0). -/
  limitSeen : Bool := false
  /-- Accumulator A: sums of the cell row in progress by 3·(1920·row + a) + colour (R240; reset 0). -/
  sumA : Tbl Nat := []
  /-- Accumulator B: the same sums taken at the SerDes input (R240; reset 0). -/
  sumB : Tbl Nat := []
  /-- Working banks by 2·copy + bank: 32-bit words by entry (R243; reset 0, R405). -/
  wb : Tbl (Tbl Nat) := []
  /-- Long banks by 2·copy + bank: 64-bit words by entry (R243; reset 0, R405). -/
  lb : Tbl (Tbl Nat) := []
  /-- WORK_BANK (1 bit; R257; reset 0). -/
  workBank : Nat := 0
  /-- Long bank in use by copy (1 bit each; R243; reset 0, DESIGN CHOICE log 7). -/
  lbUse : Tbl Nat := []
  /-- Step of the update in progress (R244; reset none). -/
  updateStep : Option Nat := none
  /-- TB0 time of the last update (R244; reset 0, DESIGN CHOICE log 7). -/
  lastUpdate : Nat := 0
  /-- UPDATE_PERIOD, s (R244; reset 600). -/
  updatePeriod : Nat := 600
  /-- TARGET T, u1.15 (R248; reset 30147). -/
  target : Nat := 30147
  /-- Ageing model (R245; reset none, MODEL 0). -/
  model : Option AgeModel := none
  /-- Band weights in effect by 3·band + colour (8 bits each; R239, R245; reset 128). -/
  weight : Tbl Nat := []
  /-- Stress planes 0 and 1: BASE and TARGET by 6·cell + 2·colour + (0, 1) (R249; reset 32768, R252). -/
  planes : Tbl (Tbl Nat) := []
  /-- Active stress plane (1 bit; R250; reset 0, DESIGN CHOICE log 7). -/
  plane : Nat := 0
  /-- OUT_STRESS_F0 (64 bits; R257; reset 0). -/
  f0 : Nat := 0
  /-- UPDATES (32 bits, wraps; R257; reset 0). -/
  updates : Nat := 0
  /-- WITHHELD (8 bits, saturates; R257; reset 0). -/
  withheld : Nat := 0
  /-- NO_HISTORY (1 bit; R257; reset 0). -/
  noHistory : Bool := false
  /-- DISAGREE (1 bit; R257; reset 0). -/
  disagree : Bool := false
  /-- The copy STRESS.RESOLVE named, awaiting the next update (R247; reset none). -/
  resolved : Option Nat := none
  /-- The update stays withheld until STRESS.RESOLVE (R247; reset no). -/
  unresolved : Bool := false
  /-- POISON_A (1 bit, W1C; R257; reset 0). -/
  poisonA : Bool := false
  /-- POISON_B (1 bit, W1C; R257; reset 0). -/
  poisonB : Bool := false
  /-- SAT_A (1 bit, W1C; R257; reset 0). -/
  satA : Bool := false
  /-- SAT_B (1 bit, W1C; R257; reset 0). -/
  satB : Bool := false
  /-- Working words that read poisoned and wait for restoration: copy and entry (R253; reset none). -/
  toRestore : List (Nat × Nat) := []
  /-- OUT_POISON_COUNT (32 bits, saturates; R258; reset 0). -/
  poisonCount : Nat := 0
  /-- Poisoned reads of R253 in the frame in progress (reset 0). -/
  poisonInFrame : Nat := 0
  /-- LAST_UPDATE_FRAME (64 bits; R501; reset 0, DESIGN CHOICE log 7). -/
  lastUpdateFrame : Nat := 0
  /-- EXHAUSTED of the last update (R248, R501; reset 0, DESIGN CHOICE log 7). -/
  exhausted : Nat := 0
  /-- BEYOND_MODEL of the last update (R246, R501; reset 0, DESIGN CHOICE log 7). -/
  beyond : Nat := 0
  /-- MIN_RETAIN of the last update (R501; reset 0, DESIGN CHOICE log 7). -/
  minRetain : Nat := 0
  /-- MIN_GAIN of the last update (R501; reset 0, DESIGN CHOICE log 7). -/
  minGain : Nat := 0
  /-- FIRST_DISAGREE of the last withheld update (32 bits; R247, R501; reset 0xFFFF_FFFF, none, DESIGN CHOICE log 7). -/
  firstDisagree : Nat := 0xFFFFFFFF
  /-- Persisted ledgers in eMMC slots 0 and 1 (R251; reset none). -/
  slots : Tbl LedgerSlot := []
  /-- Subframes since the persisted ledger (R247; reset 0, DESIGN CHOICE log 7). -/
  sincePersist : Nat := 0
  deriving DecidableEq, Repr, Inhabited

/-! ### Tile links (08_tile_links.md) -/

/-- Link states of R275. -/
inductive LinkState where
  | off | training | aligning | up | failed
  deriving DecidableEq, Repr, Inhabited

/-- A control message that is repeated in each control window up to its tick (R268, R285, R676). -/
structure Control where
  seq : Nat
  opcode : Nat
  frame : Nat
  /-- Control windows in which it is still sent with this SEQ (R268). -/
  left : Nat := 3
  deriving DecidableEq, Repr, Inhabited

/-- One tile link TLn and its lanes. -/
structure Link where
  /-- STATE (4 bits; R295; reset OFF). -/
  state : LinkState := .off
  /-- HALF_RATE (1 bit; R295; reset 0). -/
  half : Bool := false
  /-- The training in progress has been retried once (R277; reset no). -/
  retried : Bool := false
  /-- TB0 time at which the training began (R277; reset 0, DESIGN CHOICE log 7). -/
  trainStart : Nat := 0
  /-- TB0 time at which the link entered FAILED (R275; reset 0, DESIGN CHOICE log 7). -/
  failedAt : Nat := 0
  /-- Pre-cursor tap (signed; R275; reset 0, DESIGN CHOICE log 7). -/
  tapPre : Int := 0
  /-- Main tap (signed; R275; reset 0, DESIGN CHOICE log 7). -/
  tapMain : Int := 0
  /-- Post-cursor tap (signed; R275; reset 0, DESIGN CHOICE log 7). -/
  tapPost : Int := 0
  /-- CW_LOCK reported since ALIGNING began (1 bit; R275; reset no). -/
  cwLock : Bool := false
  /-- TB0 time since which STATUS reports CW_LOCK 0 (R275; reset none). -/
  lossSince : Option Nat := none
  /-- Last STATUS FLAGS (8 bits; R272; reset 0). -/
  flags : Nat := 0
  /-- TEMP (16 bits; R295; reset 0). -/
  temp : Nat := 0
  /-- FAULT (16 bits; R295; reset 0). -/
  fault : Nat := 0
  /-- ACK_SEQ of the last STATUS (8 bits; R272; reset 0, DESIGN CHOICE log 7). -/
  ackSeq : Nat := 0
  /-- LAST_FRAME of the last STATUS (32 bits; R272; reset 0, DESIGN CHOICE log 7). -/
  lastFrame : Nat := 0
  /-- LAST_PHASE of the last STATUS (8 bits; R272; reset 0, DESIGN CHOICE log 7). -/
  lastPhase : Nat := 0
  /-- SF_ERR of the last STATUS (16 bits; R272; reset 0, DESIGN CHOICE log 7). -/
  sfErr : Nat := 0
  /-- HDR_ERR of the last STATUS (16 bits; R272; reset 0, DESIGN CHOICE log 7). -/
  hdrErr : Nat := 0
  /-- FEC_CORR of the last STATUS (32 bits; R272; reset 0, DESIGN CHOICE log 7). -/
  fecCorr : Nat := 0
  /-- STATUS_SEQ of the last STATUS (16 bits; R272; reset 0, DESIGN CHOICE log 7). -/
  statusSeq : Nat := 0
  /-- FEC_UNCORR and LINE_CRC_ERR of the latest STATUS (16 + 16 bits; R272; reset none). -/
  latest : Option (Nat × Nat) := none
  /-- FEC_UNCORR and LINE_CRC_ERR at the base of the second (16 + 16 bits; R284; reset none). -/
  base : Option (Nat × Nat) := none
  /-- TB0 time of the last valid STATUS (R284; reset none). -/
  lastStatus : Option Nat := none
  /-- STATUS_STALE (1 bit; R295; reset 0). -/
  stale : Bool := false
  /-- STATUS_STALE was set at some time in the second (R284; reset no). -/
  staleInSecond : Bool := false
  /-- UNC (8 bits; R295; reset 0). -/
  unc : Nat := 0
  /-- LINE_ERR (8 bits; R295; reset 0). -/
  lineErr : Nat := 0
  /-- Consecutive seconds that met the criterion of R285 (reset 0). -/
  badSeconds : Nat := 0
  /-- UNC_TOTAL (32 bits, saturates; R296; reset 0). -/
  uncTotal : Nat := 0
  /-- LINE_ERR_TOTAL (32 bits, saturates; R296; reset 0). -/
  lineErrTotal : Nat := 0
  /-- IDENT_MISMATCH (1 bit; R295; reset 0). -/
  identMismatch : Bool := false
  /-- DEGRADE_SEEN (1 bit, W1C; R295; reset 0). -/
  degradeSeen : Bool := false
  /-- CRC_ERR_SEEN (1 bit, W1C; R295; reset 0). -/
  crcErrSeen : Bool := false
  /-- DARK_CMD (1 bit; R295; reset 0). -/
  darkCmd : Bool := false
  /-- ENABLED (1 bit; R295; reset 0). -/
  enabled : Bool := false
  /-- REV of the accepted IDENT (8 bits; R273; reset 0, DESIGN CHOICE log 7). -/
  rev : Nat := 0
  /-- PANEL_ID of the last IDENT (64 bits; R273; reset none). -/
  panelId : Option Nat := none
  /-- TILE_SERIAL of the last IDENT (64 bits; R273; reset 0, DESIGN CHOICE log 7). -/
  tileSerial : Nat := 0
  /-- Next CONTROL SEQ (8 bits; R268; reset 0, DESIGN CHOICE log 7). -/
  seq : Nat := 0
  /-- Control messages being sent (R268; reset none). -/
  controls : List Control := []
  /-- A SUBFRAME header was sent for the coming subframe (R269; reset no). -/
  headerNext : Bool := false
  /-- A SUBFRAME header was sent for the subframe in progress (R269; reset no). -/
  headerNow : Bool := false
  /-- The header of the coming subframe was followed at once by ABORT (R156, R157, R287; reset no). -/
  deadNext : Bool := false
  /-- The MODE packet of the last mode change has not been sent to the link (R206, R294; reset no). -/
  modeDue : Bool := false
  /-- RATE_READY has not been reported since the last change of the subframe rate (R278; reset no). -/
  rateWait : Bool := false
  /-- First line of the subframe that was not carried because of an abort (R148; reset none). -/
  aborted : Option Nat := none
  /-- LCRC of the lines carried in the subframe, in line order (32 bits each; R267; reset none). -/
  lcrcs : List Nat := []
  /-- The tile was in half service earlier in the frame (R175, R288; reset no). -/
  halfSeen : Bool := false
  /-- TB0 time since which the link is out of service for R623 (R623; reset none). -/
  halfSince : Option Nat := none
  deriving DecidableEq, Repr, Inhabited

/-- One tile-link group. -/
structure LinkGroup where
  /-- SPREAD in effect (4 bits; R297; reset 0). -/
  spread : Nat := 0
  /-- MOD_RATE in effect (3 bits; R297; reset 0). -/
  modRate : Nat := 0
  /-- SPREAD and MOD_RATE set and not yet in effect (R293; reset none, SSC_PENDING 0). -/
  pending : Option (Nat × Nat) := none
  /-- UNC_LIMIT (8 bits; R297; reset 4). -/
  uncLimit : Nat := 4
  deriving DecidableEq, Repr, Inhabited

/-- The tile-link groups. -/
structure TlkState where
  /-- Links 0 to 95 (R295; reset OFF). -/
  links : Tbl Link := []
  /-- Groups 0 to 11 (R297). -/
  groups : Tbl LinkGroup := []
  /-- The raster has been stopped at some time of the TB0 second (R285; reset true). -/
  stoppedInSecond : Bool := true
  deriving DecidableEq, Repr, Inhabited

/-! ### Video decoding (09_video_decoding.md) -/

/-- Context states of R333. -/
inductive CtxState where
  | closed | idle | decoding | waitBuffer | unsupported | moving
  deriving DecidableEq, Repr, Inhabited

/-- The samples of a picture: the coded size in luma samples, the bit depths, the planes in raster order (luma, then Cb and Cr;
both empty for monochrome), and what the conformance window cuts off at each side (R315). -/
structure Picture where
  width : Nat
  height : Nat
  bitDepth : Nat
  luma : List Nat
  cb : List Nat := []
  cr : List Nat := []
  chromaDepth : Nat := bitDepth
  cropLeft : Nat := 0
  cropRight : Nat := 0
  cropTop : Nat := 0
  cropBottom : Nat := 0
  deriving DecidableEq, Repr

/-- What the rules read of a sequence parameter set (R298 to R300, R315; log 59). -/
structure Sps where
  /-- 0 Main, 1 Main 10, 2 Monochrome, 3 Monochrome 12; any other profile 4. -/
  profile : Nat := 0
  /-- The High tier. -/
  high : Bool := false
  /-- general_level_idc. -/
  level : Nat := 30
  /-- chroma_format_idc. -/
  chroma : Nat := 1
  bitLuma : Nat := 8
  bitChroma : Nat := 8
  fieldSeq : Bool := false
  width : Nat := 16
  height : Nat := 16
  cropLeft : Nat := 0
  cropRight : Nat := 0
  cropTop : Nat := 0
  cropBottom : Nat := 0
  /-- CtbSizeY. -/
  ctb : Nat := 64
  /-- Pictures per second as a fraction, where the timing information gives it. -/
  pictures : Option (Nat × Nat) := none
  /-- Bit rates of NAL and of VCL, where the HRD parameters give them. -/
  nalRates : List Nat := []
  vclRates : List Nat := []
  /-- sps_max_dec_pic_buffering_minus1[HighestTid] + 1. -/
  buffers : Nat := 1
  /-- sps_max_num_reorder_pics[HighestTid] (clause C.5.2). -/
  reorder : Nat := 0
  /-- SpsMaxLatencyPictures[HighestTid], none where the stream sets no limit (clause C.5.2). -/
  latency : Option Nat := none
  deriving DecidableEq, Repr, Inhabited

/-- What the rules need of a picture parameter set (log 59). -/
structure Pps where
  /-- Identifier of the sequence parameter set it refers to. -/
  sps : Nat := 0
  /-- dependent_slice_segments_enabled_flag. -/
  dependent : Bool := false
  deriving DecidableEq, Repr, Inhabited

/-- A pool buffer in use (R309, R310). -/
structure PoolBuffer where
  /-- SHORT_TERM (1 bit; R310; reset clear). -/
  short : Bool := false
  /-- LONG_TERM (1 bit; R310; reset clear). -/
  long : Bool := false
  /-- OUTPUT_PENDING (1 bit; R310; reset clear). -/
  output : Bool := false
  /-- DISPLAY_HELD (1 bit; R310; reset clear). -/
  held : Bool := false
  /-- PTS (64 bits; R305). -/
  pts : Nat := 0
  /-- PicOrderCntVal (32 bits signed; R307). -/
  poc : Int := 0
  /-- POCs for which the buffer stands in (R329; reset none). -/
  aliases : List Int := []
  /-- Clause C.5.2 has given the picture its place in the output order (R314; reset no). -/
  released : Bool := false
  /-- Pictures decoded since, for the latency limit of clause C.5.2 (reset 0). -/
  latency : Nat := 0
  /-- Place in the output order of the context, once released. -/
  order : Nat := 0
  /-- The stored samples (R312). -/
  pic : Picture := { width := 0, height := 0, bitDepth := 8, luma := [] }
  deriving DecidableEq, Repr, Inhabited

/-- A submitted entry (R305). -/
structure DecEntry where
  addr : Nat := 0
  len : Nat := 0
  flags : Nat := 0
  pts : Nat := 0
  user : Nat := 0
  slot : Nat := 0
  gen : Nat := 0
  deriving DecidableEq, Repr, Inhabited

/-- The picture a context is decoding. -/
structure DecPicture where
  /-- The entry as submitted (R305). -/
  entry : DecEntry
  /-- What the decoding process gives. -/
  au : AccessUnit
  /-- The sequence parameter set in use. -/
  sps : Sps := {}
  /-- The picture as decoded, before concealment. -/
  pic : Picture := { width := 0, height := 0, bitDepth := 8, luma := [] }
  /-- A hash SEI is present, and one that differs (R301). -/
  hashSeen : Bool := false
  hashBad : Bool := false
  /-- A syntax error was found (R324). -/
  syntaxError : Bool := false
  /-- Bytes followed the first access unit (R306). -/
  extra : Bool := false
  /-- POCs of the references substituted (R329), for a start from the beginning (R331). -/
  substituted : List Int := []
  /-- FIRST, RASL and rejection of the context before the picture, for a start from the beginning (R331). -/
  before : Bool × Bool × Bool := (true, false, false)
  /-- TB0 time of the decoding start (R326). -/
  start : Nat
  /-- CTUs counted as missing (R324 to R327). -/
  missing : List Nat := []
  /-- WATCHDOG of the completion (1 bit; R326). -/
  stopped : Bool := false
  /-- ROW_BUDGET of the completion (1 bit; R325). -/
  rowBudget : Bool := false
  /-- STATUS of the completion (16 bits; R307). -/
  status : Nat := 0
  /-- Substituted references (R307, R329). -/
  standins : Nat := 0
  deriving DecidableEq, Repr

/-- A conversion of a picture into a BACK buffer (R314, R319, R322). -/
structure Conversion where
  /-- PTS and output order of the colour picture. -/
  order : Nat
  pts : Nat
  /-- Layer whose BACK buffer is written. -/
  layer : Nat
  /-- TB0 time of the selection (R322). -/
  selected : Nat
  /-- The picture is being written; otherwise it waits for its alpha picture. -/
  running : Bool := false
  /-- Buffer of the alpha picture in the pool of the paired context, none: alpha 0 throughout (R322). -/
  partner : Option Nat := none
  deriving DecidableEq, Repr, Inhabited

/-- One decoder context. -/
structure Ctx where
  /-- The descriptor of STREAM.OPEN (32 bytes; R302; reset 0). -/
  desc : Bytes := []
  /-- ROLE (2 bits; R333; reset 0 closed). -/
  role : Nat := 0
  /-- CORE (2 bits; R333; reset 3). -/
  core : Nat := 3
  /-- STATE (3 bits; R333; reset CLOSED). -/
  state : CtxState := .closed
  /-- NO_SINK (1 bit; R333; reset 0). -/
  noSink : Bool := false
  /-- PAIR_MISS_SEEN (1 bit, W1C; R333; reset 0). -/
  pairMiss : Bool := false
  /-- SIZE_MISMATCH (1 bit, W1C; R333; reset 0). -/
  sizeMismatch : Bool := false
  /-- WATCHDOG_SEEN (1 bit, W1C; R333; reset 0). -/
  watchdog : Bool := false
  /-- CONCEAL_SEEN (1 bit, W1C; R333; reset 0). -/
  conceal : Bool := false
  /-- STANDIN_SEEN (1 bit, W1C; R333; reset 0). -/
  standin : Bool := false
  /-- SYNTAX_SEEN (1 bit, W1C; R333; reset 0). -/
  syntaxSeen : Bool := false
  /-- WRITE_BLOCKED_SEEN (1 bit, W1C; R333; reset 0). -/
  writeBlocked : Bool := false
  /-- CONCEALED_PICS (16 bits, saturates; R333; reset 0). -/
  concealedPics : Nat := 0
  /-- STANDINS (8 bits, saturates; R333; reset 0). -/
  standins : Nat := 0
  /-- SKIPPED (8 bits, saturates; R333; reset 0). -/
  skipped : Nat := 0
  /-- POOL_ALLOC (7 bits; R333; reset 0). -/
  poolAlloc : Nat := 0
  /-- Pool buffers in use (R309, R310; reset none). -/
  pool : Tbl PoolBuffer := []
  /-- Pictures output so far, the order number of the next (reset 0, DESIGN CHOICE log 7). -/
  outputs : Nat := 0
  /-- Submission queue of the context (14 bits; R305; reset none). -/
  queue : Option Nat := none
  /-- The picture in decoding (reset none). -/
  current : Option DecPicture := none
  /-- The conversion in progress (R314; reset none). -/
  conversion : Option Conversion := none
  /-- PTS of the last colour picture converted (R322; reset none). -/
  lastConverted : Option Nat := none
  /-- Luma samples decoded in the last TB0 second, with the TB0 time of each picture's end; RATE_EXCEEDED is read from them
  (R308, R333; reset none). -/
  recent : List (Nat × Nat) := []
  /-- The next picture starts decoding or follows a DISCONTINUITY (R329, R330; reset yes). -/
  first : Bool := true
  /-- The sequence parameter set of the stream is rejected (R300; reset no). -/
  rejected : Bool := false
  /-- RASL pictures of the current CRA are discarded (R329; reset no). -/
  dropRasl : Bool := false
  /-- Sequence parameter sets in use by their identifiers (R300, R324; reset none). -/
  sps : Tbl Sps := []
  /-- Picture parameter sets in use by their identifiers (R324; reset none). -/
  pps : Tbl Pps := []
  /-- Misses counted under R322 (reset 0, DESIGN CHOICE log 7). -/
  misses : Nat := 0
  deriving DecidableEq, Repr, Inhabited

/-- Decoder core states of R334. -/
inductive CoreState where
  | off | idle | running | faulted | resetting
  deriving DecidableEq, Repr, Inhabited

/-- One decoder core. -/
structure DecCore where
  /-- PICTURES (32 bits, wraps; R334; reset 0). -/
  pictures : Nat := 0
  /-- STATE (3 bits; R334; reset OFF). -/
  state : CoreState := .off
  /-- FAULT_SEEN (1 bit, W1C; R334; reset 0). -/
  faultSeen : Bool := false
  /-- Context whose picture the core decodes (R308; reset none). -/
  ctx : Option Nat := none
  /-- Context served last, for the turn of R308 (reset 63, DESIGN CHOICE log 7). -/
  last : Nat := 63
  /-- Luma samples decoded in the last TB0 second, with the TB0 time of each picture's end; LOAD is read from them (R334; reset
  none). -/
  recent : List (Nat × Nat) := []
  deriving DecidableEq, Repr, Inhabited

/-- The decoder. -/
structure DecState where
  /-- Contexts 0 to 63 (R302; reset closed). -/
  ctxs : Tbl Ctx := []
  /-- Cores 0 and 1 (R334; reset OFF). -/
  cores : Tbl DecCore := []
  /-- DRAM address of the 8 GiB region of the picture pools, which Walec places at start-up (R309; reset 0, DESIGN CHOICE log 7). -/
  poolBase : Nat := 0
  deriving DecidableEq, Repr, Inhabited

/-! ### Witness encoder (10_witness_encoder.md) -/

/-- Encoder parameters (R352). -/
structure EncParams where
  /-- RATE_REQ (R352; default 30). -/
  rateReq : Nat := 30
  /-- SIZE: 3,840 × 2,160 (R352; default yes). -/
  wide : Bool := true
  /-- RC_MODE: capped VBR (R352; default CBR). -/
  vbr : Bool := false
  /-- BITRATE, bit/s (R352; default 8 Mbit/s). -/
  bitrate : Nat := 8000000
  /-- PEAK, bit/s (R352; default 12 Mbit/s). -/
  peak : Nat := 12000000
  /-- VBR_QP (R352; default 32). -/
  vbrQp : Nat := 32
  /-- PIC_CAP, bytes (R352; default 0). -/
  picCap : Nat := 0
  /-- REFRESH_PICS (R352; default 32). -/
  refreshPics : Nat := 32
  /-- POSTPONE_MAX (R352; default 4). -/
  postponeMax : Nat := 4
  /-- DEST: 0 ETH0, 1 ETH1, 2 RING (R352; default ETH0). -/
  dest : Nat := 0
  /-- MAX_PAYLOAD (R352; default 1,400). -/
  maxPayload : Nat := 1400
  deriving DecidableEq, Repr, Inhabited

/-- The picture that the encoder codes. -/
structure EncPicture where
  source : WitnessPicture
  /-- The picture starts a new sequence (R340). -/
  idr : Bool := false
  /-- The picture starts a refresh cycle (R341, R342). -/
  cycleStart : Bool := false
  /-- T[n] (R344). -/
  target : Int := 0
  /-- B[n] (R344). -/
  budget : Nat := 0
  /-- PIC_CAP of the picture, bytes (R352). -/
  cap : Nat := 0
  /-- Luma samples, row by row (8 bits each; R336). -/
  luma : List (List Int) := []
  /-- Cb samples, row by row (8 bits each; R336). -/
  cb : List (List Int) := []
  /-- Cr samples, row by row (8 bits each; R336). -/
  cr : List (List Int) := []
  /-- QP of the first row (R346). -/
  qpFirst : Nat := 32
  /-- Coded as skip throughout, apart from forced spans (R351). -/
  skipAll : Bool := false
  /-- Rows whose span is forced (R347). -/
  forced : List Nat := []
  deriving DecidableEq, Repr, Inhabited

/-- Encoder states of R354. -/
inductive EncMode where
  | off | waitIdr | running | faulted
  deriving DecidableEq, Repr, Inhabited

/-- The witness encoder. -/
structure EncState where
  /-- Parameters set through WITNESS.PUT (R352; reset the defaults). -/
  params : EncParams := {}
  /-- Parameters in force for the coming picture (R352; reset the defaults). -/
  inForce : EncParams := {}
  /-- The waiting witness picture (R337; reset none). -/
  waiting : Option WitnessPicture := none
  /-- The picture being coded (reset none). -/
  picture : Option EncPicture := none
  /-- Step counters s_r by CTU row (R341; reset 0). -/
  steps : Tbl Nat := []
  /-- k, the picture's index in the cycle (R347; reset 0). -/
  index : Nat := 0
  /-- F[n-1] (R344; reset 0). -/
  carry : Nat := 0
  /-- QP of the previous picture's last row (R346; reset 32, the start value VBR_QP). -/
  qp : Nat := 32
  /-- QP_LAST (6 bits; R354; reset 0). -/
  qpLast : Nat := 0
  /-- The last picture was coded with no skip (R346; reset true, DESIGN CHOICE log 7). -/
  noSkip : Bool := true
  /-- A new sequence is due (R340; reset true). -/
  needIdr : Bool := true
  /-- The next picture is coded as skip (R351; reset no). -/
  skipNext : Bool := false
  /-- Pictures of the coded video sequence so far, which give the order count of the next (R338; reset 0, DESIGN CHOICE log 7). -/
  poc : Nat := 0
  /-- Picture size of the last coded picture (R340; reset none). -/
  lastWide : Option Bool := none
  /-- STATE (3 bits; R354; reset OFF). -/
  mode : EncMode := .off
  /-- FAULT_SEEN (1 bit, W1C; R354; reset 0). -/
  faultSeen : Bool := false
  /-- FORCED_SEEN (1 bit, W1C; R354; reset 0). -/
  forcedSeen : Bool := false
  /-- SKIP_SEEN (1 bit, W1C; R354; reset 0). -/
  skipSeen : Bool := false
  /-- CYCLE_POS (8 bits; R354; reset 0). -/
  cyclePos : Nat := 0
  /-- LAG_MAX (4 bits; R354; reset 0). -/
  lagMax : Nat := 0
  /-- PICTURES (32 bits; R355; reset 0). -/
  pictures : Nat := 0
  /-- DROPPED (16 bits; R355; reset 0). -/
  dropped : Nat := 0
  /-- SKIPPED_PICS (16 bits; R355; reset 0). -/
  skippedPics : Nat := 0
  /-- Random offset of the RTP timestamp, drawn when encoding starts (32 bits; R349; reset none). -/
  rtpOffset : Option Nat := none
  /-- TB0 time of the last sender report, or of the start of encoding (R349; reset none). -/
  lastReport : Option Nat := none
  /-- RTP packets sent (R349, the sender report; reset 0). -/
  rtpPackets : Nat := 0
  /-- RTP payload bytes sent (R349, the sender report; reset 0). -/
  rtpBytes : Nat := 0
  /-- RTP timestamp of the last access unit (32 bits; R349; reset 0, DESIGN CHOICE log 7). -/
  rtpStamp : Nat := 0
  /-- Next write offset in the output buffer of DEST RING (R350; reset 0, DESIGN CHOICE log 7). -/
  ringPos : Nat := 0
  /-- Access units in the output buffer whose completion the host has not consumed: offset and length, oldest first (R351; reset none). -/
  ringHeld : List (Nat × Nat) := []
  /-- Completion ring named for DEST RING (14 bits; R350; reset none). -/
  ringQueue : Option Nat := none
  deriving DecidableEq, Repr, Inhabited

/-! ### 2D engine (11_2d_engine.md) -/

/-- A rectangle of a surface as the scoreboard holds it (R367). -/
structure Rect where
  addr : Nat
  stride64 : Nat
  bpp : Nat
  x : Nat
  y : Nat
  w : Nat
  h : Nat
  deriving DecidableEq, Repr, Inhabited

/-- A scoreboard entry: a command in flight (R360, R367). -/
structure Flight where
  /-- Submission queue, or 0x4000 for the internal queue (R356). -/
  queue : Nat
  /-- Number of its job (the model's own). -/
  job : Nat := 0
  /-- Index of the command in its job (R357). -/
  index : Nat
  /-- The command (64 bytes; R357). -/
  cmd : Bytes
  dst : Rect
  src : Option Rect := none
  /-- The members' buffers that a FLATTEN reads (R95, R367). -/
  members : List Rect := []
  /-- Sideboard group and COMMIT_ID of a FLATTEN (R95, R97). -/
  group : Option (Nat × Nat) := none
  /-- Cancelled under R369: the number of rows it still writes. -/
  cancelled : Option Nat := none
  deriving DecidableEq, Repr, Inhabited

/-- A job that has begun and is not complete (R359, R370). -/
structure BltJob where
  /-- Submission queue (R356). -/
  queue : Nat := 0
  /-- The job entry (32 bytes; R356). -/
  entry : Bytes
  slot : Nat
  gen : Nat
  /-- Next command to issue. -/
  next : Nat := 0
  ended : Nat := 0
  cancelled : Nat := 0
  deriving DecidableEq, Repr, Inhabited

/-- States of the 2D and deflate engines (R377, R400). -/
inductive EngineState where
  | off | idle | running | held | faulted | resetting
  deriving DecidableEq, Repr, Inhabited

/-- The 2D engine. -/
structure BltState where
  /-- Scoreboard by command number (at most 32 entries; R360, R367; reset none). -/
  flight : Tbl Flight := []
  /-- Number given to the next command or job (the model's own; reset 0, log 7). -/
  nextCmd : Nat := 0
  /-- Jobs that have begun, by number (R359; reset none). -/
  jobs : Tbl BltJob := []
  /-- Bound queues (at most 16; R356; reset none). -/
  bound : List Nat := []
  /-- FLATTENs that wait in the internal queue: Sideboard group and COMMIT_ID (R97, R356; reset none). -/
  internal : List (Nat × Nat) := []
  /-- COMMANDS (32 bits, wraps; R377; reset 0). -/
  commands : Nat := 0
  /-- STATE (3 bits; R377; reset OFF). -/
  state : EngineState := .off
  /-- FAULT_SEEN (1 bit, W1C; R377; reset 0). -/
  faultSeen : Bool := false
  /-- POISON_SEEN (1 bit, W1C; R377; reset 0). -/
  poisonSeen : Bool := false
  /-- ERROR_SEEN (1 bit, W1C; R377; reset 0). -/
  errorSeen : Bool := false
  /-- CANCEL_SEEN (1 bit, W1C; R377; reset 0). -/
  cancelSeen : Bool := false
  /-- Commands that wait under R368, by their bound queue (WAITING; R368, R377; reset none). -/
  waiting : Tbl Bytes := []
  /-- Bound queue served last (15 bits; R359; reset 0, DESIGN CHOICE log 7). -/
  last : Nat := 0
  /-- JOBS (32 bits, wraps; R378; reset 0). -/
  jobCount : Nat := 0
  /-- CANCELLED (16 bits, saturates; R378; reset 0). -/
  cancelledCount : Nat := 0
  /-- ERRORS (16 bits, saturates; R378; reset 0). -/
  errorCount : Nat := 0
  /-- DEAD_TIME (16 bits; R378; reset 0). -/
  deadTime : Nat := 0
  deriving DecidableEq, Repr, Inhabited

/-! ### Deflate engine (12_deflate_engine.md) -/

/-- Slot states of R384. -/
inductive SlotState where
  | empty | opened | suspended | failed
  deriving DecidableEq, Repr, Inhabited

/-- A context slot. A stream between jobs is held as the source bytes its jobs have taken and the bytes it has
written: everything R384 lists follows from them (log 13). -/
structure Slot where
  /-- State of R384 (2 bits; reset EMPTY). -/
  state : SlotState := .empty
  /-- OP of the stream (R385; reset 0, DESIGN CHOICE log 7). -/
  op : Nat := 0
  /-- FRAMING of the stream (R385; reset 0, DESIGN CHOICE log 7). -/
  framing : Nat := 0
  /-- Source bytes counted in IN_USED so far (R392; reset empty). -/
  src : Bytes := []
  /-- Destination bytes written so far (R393; reset 0). -/
  written : Nat := 0
  /-- Source positions at which a SYNC_FLUSH ended a block (R388; reset none). -/
  flushes : List Nat := []
  /-- DEPTH and TABLES of the stream's jobs, each with the source position from which they hold (R382; reset none). -/
  settings : List (Nat × Nat × Nat) := []
  /-- The source position up to which full blocks have been ended (R387, R390; reset 0). -/
  sealed : Nat := 0
  /-- The source has ended (STREAM_END; R391; reset no). -/
  ended : Bool := false
  /-- Queue the slot is assigned to; 0x4000 the internal queue (R383; reset none). -/
  owner : Option Nat := none
  deriving DecidableEq, Repr, Inhabited

/-- A running deflate job. -/
structure DflJob where
  /-- Submission queue (R381). -/
  queue : Nat
  /-- The job entry (32 bytes; R381). -/
  entry : Bytes
  /-- The descriptor (64 bytes; R382). -/
  desc : Bytes
  /-- Index of the submission entry and its stamp (R464, R471). -/
  slot : Nat
  gen : Nat
  /-- The first check of R394 that failed before the start: its code, 0 none. -/
  early : Nat := 0
  /-- Order of starting among the running jobs (the model's own, log 7). -/
  order : Nat := 0
  deriving DecidableEq, Repr, Inhabited

/-- The deflate engine. -/
structure DflState where
  /-- Context slots 0 to 255 (R383; reset EMPTY). -/
  slots : Tbl Slot := []
  /-- Jobs running on lanes 0 to 3 (R385; reset none). -/
  lanes : Tbl DflJob := []
  /-- Bound queues (at most 16; R381; reset none). -/
  bound : List Nat := []
  /-- JOBS (32 bits, wraps; R400; reset 0). -/
  jobs : Nat := 0
  /-- STATE (3 bits; R400; reset OFF). -/
  state : EngineState := .off
  /-- FAULT_SEEN (1 bit, W1C; R400; reset 0). -/
  faultSeen : Bool := false
  /-- POISON_SEEN (1 bit, W1C; R400; reset 0). -/
  poisonSeen : Bool := false
  /-- DATA_ERROR_SEEN (1 bit, W1C; R400; reset 0). -/
  dataErrorSeen : Bool := false
  /-- STORED_SEEN (1 bit, W1C; R400; reset 0). -/
  storedSeen : Bool := false
  /-- Slot for which the first job of a bound queue waits, by the queue (WAITING; R386, R400; reset none). -/
  waiting : Tbl Nat := []
  /-- Bound queue served last (15 bits; R396; reset 0, DESIGN CHOICE log 7). -/
  last : Nat := 0
  /-- Address of context slot 0 (36 bits; R383; reset 0, DESIGN CHOICE log 7; Walec places it at start-up). -/
  base : Nat := 0
  /-- Bytes of source read; IN_MIB is this in MiB (32 bits, wraps; R401; reset 0). -/
  inBytes : Nat := 0
  /-- Bytes of destination written; OUT_MIB is this in MiB (32 bits, wraps; R401; reset 0). -/
  outBytes : Nat := 0
  deriving DecidableEq, Repr, Inhabited

/-! ### DRAM (13_dram.md) -/

/-- Site states of R443. -/
inductive SiteState where
  | off | training | active | spare | source | target | retired | failed
  deriving DecidableEq, Repr, Inhabited

/-- One channel of a physical site. -/
structure DramChannel where
  /-- REF_DEBT (R422; reset 0, DESIGN CHOICE log 7). -/
  debt : Nat := 0
  /-- The channel uses the 244 ns interval (R423; reset no). -/
  hot : Bool := false
  /-- Marked for retraining (R427; reset no). -/
  marked : Bool := false
  /-- TB0 time of the last retraining (R428; reset 0, DESIGN CHOICE log 7). -/
  lastTrained : Nat := 0
  /-- Out of service for retraining (R428; reset no). -/
  retraining : Bool := false
  /-- Failed once in succession (R429; reset no). -/
  failedOnce : Bool := false
  /-- The self-refresh entry command has been issued (R430; reset no). -/
  asleep : Bool := false
  /-- TB0 time at which an aborted entry is attempted again (R431; reset none). -/
  retryAt : Option Nat := none
  deriving DecidableEq, Repr, Inhabited

/-- One physical site. -/
structure Site where
  /-- CE_HOUR (16 bits; R443; reset 0). -/
  ceHour : Nat := 0
  /-- Correctable errors of the hour in progress (R433; reset 0). -/
  ceNow : Nat := 0
  /-- UE_COUNT (16 bits, saturates; R443; reset 0). -/
  ueCount : Nat := 0
  /-- STATE (4 bits; R443; reset OFF). -/
  state : SiteState := .off
  /-- HOT as last decided; each channel takes it at its next interval tick (1 bit; R423, R443; reset 0). -/
  hot : Bool := false
  /-- OVERTEMP (1 bit; R443; reset 0). -/
  overtemp : Bool := false
  /-- DEGRADED (1 bit; R443; reset 0). -/
  degraded : Bool := false
  /-- RETRAIN_FAIL (1 bit, W1C; R443; reset 0). -/
  retrainFail : Bool := false
  /-- CH_FAIL (4 bits; R443; reset 0). -/
  chFail : List Nat := []
  /-- UE_SEEN (1 bit, W1C; R443; reset 0). -/
  ueSeen : Bool := false
  /-- CE_SEEN (1 bit, W1C; R443; reset 0). -/
  ceSeen : Bool := false
  /-- POPULATED (1 bit; R443; reset 0). -/
  populated : Bool := false
  /-- Uncorrectable reads of this TB0 second after the first (R421; reset none this second). -/
  ueSecond : Option Nat := none
  deriving DecidableEq, Repr, Inhabited

/-- Controller states of R442. -/
inductive DmcMode where
  | init | running | entering | selfRefresh | exiting | failed
  deriving DecidableEq, Repr, Inhabited

/-- Migration states of R445. -/
inductive MigrateState where
  | idle | preparing | copying | paused | done | stopped
  deriving DecidableEq, Repr, Inhabited

/-- A protected range (R419). -/
structure ProtRange where
  base : Nat
  size : Nat
  /-- Requesters that may read. -/
  reads : List Nat
  /-- Requesters that may write. -/
  writes : List Nat
  deriving DecidableEq, Repr, Inhabited

/-- A request that waits for its channel (R405, R428, R431). -/
structure DramRequest where
  requester : Nat
  addr : Nat
  /-- Length of a read. -/
  len : Nat := 0
  /-- Data of a write; none for a read. -/
  data : Option Bytes := none
  /-- What the check bits of its lines find when it is served (R415); clean where the list ends. -/
  ecc : List Ecc := []
  /-- The port of a read through its BAR2 window (R453). -/
  bar2 : Option Port := none
  deriving DecidableEq, Repr, Inhabited

/-- The DRAM subsystem. -/
structure DmcState where
  /-- Device DRAM (56 GiB of bytes at 0 to 0x0D_FFFF_FFFF; R406; every byte 0 after R405; an unlisted address reads 0). -/
  mem : List Host.Cell := []
  /-- Lines whose poison mark is set, by address div 64 (R408; reset none, R405). -/
  poison : List Nat := []
  /-- Physical site of each logical site (4 bits each; R442; reset 0x7654_3210). -/
  siteMap : List Nat := [0, 1, 2, 3, 4, 5, 6, 7]
  /-- SPARE_SITE (4 bits; R442; reset 8). -/
  spareSite : Nat := 8
  /-- RATE (2 bits; R442; reset 0). -/
  rate : Nat := 0
  /-- STATE (3 bits; R442; reset INIT). -/
  mode : DmcMode := .init
  /-- SPARE_ABSENT (1 bit; R442; reset 0). -/
  spareAbsent : Bool := false
  /-- DRAM_FAIL (1 bit; R442; reset 0). -/
  dramFail : Bool := false
  /-- UE_SEEN (1 bit, W1C; R442; reset 0). -/
  ueSeen : Bool := false
  /-- CE_SEEN (1 bit, W1C; R442; reset 0). -/
  ceSeen : Bool := false
  /-- CMD_ERR_SEEN (1 bit, W1C; R442; reset 0). -/
  cmdErrSeen : Bool := false
  /-- HOT_SEEN (1 bit, W1C; R442; reset 0). -/
  hotSeen : Bool := false
  /-- DEGRADED_SEEN (1 bit, W1C; R442; reset 0). -/
  degradedSeen : Bool := false
  /-- Physical sites 0 to 8 (R443; reset OFF). -/
  sites : Tbl Site := []
  /-- Channels by 4·site + channel (R422 to R432; reset idle). -/
  channels : Tbl DramChannel := []
  /-- DMC_ERR_LAST with VALID 0 (64 bits; R421, R444; reset 0). -/
  errLast : Nat := 0
  /-- DMC_ERR_LAST VALID (1 bit, W1C; R444; reset 0). -/
  errValid : Bool := false
  /-- Progress bitmap, the chunks moved (7,168 bits, retention; R435; reset none). -/
  moved : List Nat := []
  /-- FROM (4 bits; R445; reset 0xF). -/
  migrateFrom : Nat := 15
  /-- TO (4 bits; R445; reset 0xF). -/
  migrateTo : Nat := 15
  /-- LOGICAL (3 bits; R445; reset 0). -/
  migrateLogical : Nat := 0
  /-- MIGRATE_STATE (3 bits; R445; reset IDLE). -/
  migrate : MigrateState := .idle
  /-- RESTARTS (5 bits, saturates; R445; reset 0). -/
  restarts : Nat := 0
  /-- Spare record in NOR: logical site, source, target, and its state, 0 MIGRATING, 1 COMPLETE, 2 SPLIT (R434, R436, R622;
  reset as stored, DESIGN CHOICE none, log 8). -/
  norRecord : Option (Nat × Nat × Nat × Nat) := none
  /-- DMC_BANK_MASK_0 to 3 (40 bits each; R446; reset 0x222200, 0x444400, 0x888800, 0x1111000). -/
  masks : List Nat := [0x222200, 0x444400, 0x888800, 0x1111000]
  /-- CE_LIMIT (16 bits; R433; reset 256). -/
  ceLimit : Nat := 256
  /-- Arbitration weights by requester, 1 for one that is not listed (R411, R496; reset none listed, DESIGN CHOICE log 7). -/
  weights : Tbl Nat := []
  /-- Protected ranges 0 to 15 (R419; reset none). -/
  ranges : List ProtRange := []
  /-- Command errors of this TB0 second after the first, by requester (R421; reset none). -/
  cmdSecond : Tbl Nat := []
  /-- Requests that wait for their channel, oldest first; the reads among them are outstanding (R410, R428, R431; reset none). -/
  held : List DramRequest := []
  /-- MR4 and the board sensors are still to be read after an exit from self-refresh (R432; reset no). -/
  mr4Due : Bool := false
  /-- Areas that Walec places for the ledger copies A and B, the maps, the stress planes, the witness buffers and its own memory, by
  0 to 5: base and size in 64 KiB (R406, R419; reset none). -/
  areas : Tbl (Nat × Nat) := []
  /-- Next line of the patrol scrub (R418; reset 0, DESIGN CHOICE log 7). -/
  scrubLine : Nat := 0
  deriving DecidableEq, Repr, Inhabited

/-! ### Host interface (14_host_interface.md) -/

/-- Drawer states of R460. -/
inductive DrawerState where
  | idle | request | busy | response
  deriving DecidableEq, Repr, Inhabited

/-- A drawer. -/
structure Drawer where
  /-- STATE (3 bits; R460; reset IDLE). -/
  state : DrawerState := .idle
  /-- GEN (4 bits; R460; reset 0). -/
  gen : Nat := 0
  /-- TAG (12 bits; R460; reset 0). -/
  tag : Nat := 0
  /-- ABORTS (8 bits, saturates; R460; reset 0). -/
  aborts : Nat := 0
  /-- REFUSED (16 bits, saturates; R460; reset 0). -/
  refused : Nat := 0
  /-- STALE_RESP (16 bits, saturates; R460; reset 0). -/
  staleResp : Nat := 0
  /-- CLASS (3 bits; R461; reset 0). -/
  cls : Nat := 0
  /-- INT_EN (1 bit; R461; reset 0). -/
  intEn : Bool := false
  /-- VECTOR (11 bits; R461; reset 0). -/
  vector : Nat := 0
  /-- Request area (960 bytes; R455; reset 0). -/
  req : Bytes := []
  /-- Response area (1,024 bytes; R455; reset 0). -/
  resp : Bytes := []
  deriving DecidableEq, Repr, Inhabited

/-- An MSI-X table entry (R482). -/
structure MsixEntry where
  /-- Message address (64 bits; R482; reset 0). -/
  addr : Nat := 0
  /-- Message data (32 bits; R482; reset 0). -/
  data : Nat := 0
  /-- Vector control, bit 0 the mask (32 bits; R482; reset 1, PCI Express Base, PRESUMED log 9). -/
  control : Nat := 1
  deriving DecidableEq, Repr, Inhabited

/-- A host port. -/
structure HostPort where
  /-- SPEED (4 bits; R489; reset 0). -/
  speed : Nat := 0
  /-- WIDTH (4 bits; R489; reset 0). -/
  width : Nat := 0
  /-- LINK_UP (1 bit; R489; reset 0). -/
  linkUp : Bool := false
  /-- BAR2_POISONED (16 bits, saturates; R489; reset 0). -/
  bar2Poisoned : Nat := 0
  /-- LATE_SEEN (1 bit, W1C; R489; reset 0). -/
  lateSeen : Bool := false
  /-- DB_REFUSED_SEEN (1 bit, W1C; R489; reset 0). -/
  dbRefusedSeen : Bool := false
  /-- STALE_RESP_SEEN (1 bit, W1C; R489; reset 0). -/
  staleRespSeen : Bool := false
  /-- BAR2_SEEN (1 bit, W1C; R489; reset 0). -/
  bar2Seen : Bool := false
  /-- RESET_SEEN (1 bit, W1C; R489; reset 0). -/
  resetSeen : Bool := false
  /-- The port is in D3hot (R448; reset no). -/
  d3hot : Bool := false
  /-- Writes to host memory that wait while D3hot stops the port's DMA, oldest first (R448; reset none). -/
  stalled : List (Nat × Bytes) := []
  /-- Bases of BAR0 and BAR2 in configuration space (64 bits each; R448, R449; reset 0, DESIGN CHOICE log 7). -/
  bar0 : Nat := 0
  bar2 : Nat := 0
  /-- AER header log (16 bytes; R447; reset empty, DESIGN CHOICE log 7). -/
  aer : Bytes := []
  /-- PERST# of the port is asserted (R448; reset yes). -/
  perst : Bool := true
  /-- BAR0 is ready: the link has reached L0 since PERST# was released (R666; reset no). -/
  ready : Bool := false
  /-- HIF_BAR2_BASE BASE (20 bits; R490; reset 0). -/
  bar2Base : Nat := 0
  /-- MSI-X table (2,048 entries; R482; reset masked). -/
  msix : Tbl MsixEntry := []
  /-- MSI-X pending bits (2,048 bits; R482; reset 0). -/
  pba : List Nat := []
  /-- HIF_INT_CAUSE (8 bits, W1C; R485; reset 0). -/
  cause : Nat := 0
  /-- HIF_INT_VECTOR EN (8 bits; R485; reset 0xFF). -/
  intEn : Nat := 255
  /-- HIF_INT_VECTOR VECTOR (11 bits; R485; reset 0). -/
  intVector : Nat := 0
  /-- TB0 time at which the lease timer reaches 0, or nanoseconds left while frozen (R474; reset none, not live). -/
  lease : Option Nat := none
  /-- CLAIM_REFUSED (1 bit, W1C; R480; reset 0). -/
  claimRefused : Bool := false
  /-- EXPIRED_SEEN (1 bit, W1C; R480; reset 0). -/
  expiredSeen : Bool := false
  deriving DecidableEq, Repr, Inhabited

/-- Ownership of an exclusive class (R479). -/
structure Owner where
  /-- HOLDER (2 bits; R479; reset none). -/
  holder : Option Port := none
  /-- EXPIRED (1 bit; R479; reset 0). -/
  expired : Bool := false
  /-- AUTO (1 bit; R479; reset 0). -/
  auto : Bool := false
  deriving DecidableEq, Repr, Inhabited

/-- Queue states of R472. -/
inductive QueueState where
  | off | active | held | detached
  deriving DecidableEq, Repr, Inhabited

/-- A fetched submission entry (R470, R471). -/
structure Fetched where
  /-- The 32-byte entry (R463). -/
  bytes : Bytes
  slot : Nat
  gen : Nat
  /-- Completion slots reserved for it (R470). -/
  reserved : Nat := 1
  deriving DecidableEq, Repr, Inhabited

/-- A queue context (R463, R472). -/
structure Queue where
  /-- KIND (R463; reset OFF). -/
  kind : Nat := 0
  /-- CLASS (3 bits; R463, R472; reset 0). -/
  cls : Nat := 0
  /-- PORT (1 bit; R463, R472; reset A). -/
  port : Port := .a
  /-- RING_SPACE HOST (R463; reset DRAM, DESIGN CHOICE log 7). -/
  hostRing : Bool := false
  /-- SQ_ADDR (64 bits; R463; reset 0, DESIGN CHOICE log 7). -/
  sqAddr : Nat := 0
  /-- SQ_SIZE (17 bits; R463; reset 0, DESIGN CHOICE log 7). -/
  sqSize : Nat := 0
  /-- CQ_ADDR (64 bits; R463; reset 0, DESIGN CHOICE log 7). -/
  cqAddr : Nat := 0
  /-- CQ_SIZE (17 bits; R463; reset 0, DESIGN CHOICE log 7). -/
  cqSize : Nat := 0
  /-- VECTOR (11 bits; R463; reset 0, DESIGN CHOICE log 7). -/
  vector : Nat := 0
  /-- COAL_COUNT (8 bits; R463; reset 0, DESIGN CHOICE log 7). -/
  coalCount : Nat := 0
  /-- COAL_US (10 bits; R463; reset 0, DESIGN CHOICE log 7). -/
  coalUs : Nat := 0
  /-- GEN (4 bits; R463, R472; reset 0). -/
  gen : Nat := 0
  /-- STATE (3 bits; R472; reset OFF). -/
  state : QueueState := .off
  /-- DB_REFUSED (8 bits, saturates; R472; reset 0). -/
  dbRefused : Nat := 0
  /-- LATE_CPL (8 bits, saturates; R472; reset 0). -/
  lateCpl : Nat := 0
  /-- SQ_HEAD (16 bits; R472; reset 0). -/
  sqHead : Nat := 0
  /-- SQ_TAIL as last taken (16 bits; R468; reset 0). -/
  sqTail : Nat := 0
  /-- CQ_TAIL (16 bits; R472; reset 0). -/
  cqTail : Nat := 0
  /-- CQ_HEAD as last taken (16 bits; R468; reset 0). -/
  cqHead : Nat := 0
  /-- Completion slots reserved (R470; reset 0). -/
  reserved : Nat := 0
  /-- PHASE bit of the current pass (1 bit; R464; reset 1). -/
  phase : Bool := true
  /-- Completion slots written, modulo 65,536 (16 bits; R464 for RING_ONLY; reset 0). -/
  count : Nat := 0
  /-- TB0 times of the completions neither consumed nor followed by a message, oldest first (R483; reset none). -/
  since : List Nat := []
  /-- Entries fetched and not yet taken by the consumer (R470; reset none). -/
  fetched : List Fetched := []
  deriving DecidableEq, Repr, Inhabited

/-- Walec states of R488. -/
inductive WalecState where
  | booting | running | restarting
  deriving DecidableEq, Repr, Inhabited

/-- The host interface. -/
structure HifState where
  /-- Port A. -/
  portA : HostPort := {}
  /-- Port B. -/
  portB : HostPort := {}
  /-- Drawers by 32·port + number (R455; reset IDLE). -/
  drawers : Tbl Drawer := []
  /-- Queues 0 to 16,383 (R463; reset OFF). -/
  queues : Tbl Queue := []
  /-- HIF_OWN of classes OWNER, OPERATOR, PUBLISHER, SAFETY by 0 to 3 (R479; reset unheld). -/
  own : Tbl Owner := []
  /-- LEASE_MS (16 bits; R479; reset 500). -/
  leaseMs : Nat := 500
  /-- WALEC_BEAT (16 bits, wraps; R488; reset 0). -/
  beat : Nat := 0
  /-- RESTARTS (16 bits, saturates; R488; reset 0). -/
  restarts : Nat := 0
  /-- WALEC_STATE (2 bits; R488; reset BOOTING). -/
  walec : WalecState := .booting
  /-- POWER_DOWN (1 bit; R488; reset 0). -/
  powerDown : Bool := false
  /-- ATTENTION bits last seen, bit k for window k (15 bits; R485, R488; reset 0). -/
  attention : Nat := 0
  deriving DecidableEq, Repr, Inhabited

/-! ### Walec's services and the Bureau (15_walec_services.md) -/

/-- A request as Walec takes it (R456, R491, R492). -/
structure Request where
  ch : Channel
  service : Nat
  verb : Nat
  tagGen : Nat
  body : Bytes
  /-- Class of the channel (R502). -/
  cls : Nat
  /-- Port of the channel; `none` for an Ethernet session. -/
  port : Option Port
  /-- ETH port and bind slot of the session, for an Ethernet channel (R506, R508). -/
  bind : Nat × Nat := (0, 0)
  deriving DecidableEq, Repr

/-- A finished answer of Walec that waits for its delivery (R456, R458). -/
structure Answer where
  ch : Channel
  tagGen : Nat
  status : Nat
  body : Bytes
  deriving DecidableEq, Repr

/-- One Bureau entry (R508). -/
structure Entry where
  /-- SEQ (64 bits). -/
  seq : Nat
  /-- TIME (64 bits). -/
  time : Nat
  /-- TIME_BASE bits 1:0. -/
  base : Nat
  /-- TIME_BASE bit 2, SUMMARY. -/
  summary : Bool := false
  /-- ORIGIN_KIND, ORIGIN_ID and CLASS. -/
  origin : Origin
  /-- SUBJECT (8 bits). -/
  subject : Nat
  /-- EVENT (16 bits). -/
  event : Nat
  /-- FRAME (64 bits). -/
  frame : Nat
  /-- OLD_DIGEST (8 bytes). -/
  oldDigest : Bytes := []
  /-- NEW_DIGEST (8 bytes). -/
  newDigest : Bytes := []
  /-- DETAIL (64 bits). -/
  detail : Nat
  /-- EPOCH (16 bits). -/
  epoch : Nat
  /-- CHAIN (32 bits). -/
  chain : Nat
  deriving DecidableEq, Repr, Inhabited

/-- An archive segment in eMMC (R513). -/
structure Segment where
  number : Nat
  firstSeq : Nat
  epoch : Nat
  count : Nat
  gap : Bool
  prevChain : Nat
  lastChain : Nat
  lost : Nat
  entries : List Entry
  /-- Its checks pass (R513). -/
  good : Bool := true
  deriving DecidableEq, Repr, Inhabited

/-- Refusals of a channel in the TB0 second after its first (R507). -/
structure Refusals where
  ch : Channel
  origin : Origin := {}
  count : Nat
  service : Nat
  verb : Nat
  status : Nat
  deriving DecidableEq, Repr

/-- The Bureau. -/
structure BureauState where
  /-- The entries in the ring, oldest first (at most 65,536 of 64 bytes; R512; reset none). -/
  ring : List Entry := []
  /-- SEQ of the next entry (64 bits; R509; reset 0). -/
  nextSeq : Nat := 0
  /-- EPOCH (16 bits; R508; reset 0). -/
  epoch : Nat := 0
  /-- CHAIN of the last entry (32 bits; R509; reset 0). -/
  chain : Nat := 0
  /-- LOST (64 bits; R508, R512; reset 0). -/
  lost : Nat := 0
  /-- ARCHIVED_SEQ, the first SEQ not archived (64 bits; R508; reset 0). -/
  archivedSeq : Nat := 0
  /-- CHAIN before the oldest entry of the ring (32 bits; R509; reset 0). -/
  chainBefore : Nat := 0
  /-- SEQ of the last entry that was overwritten unarchived (R512, R514; reset none). -/
  lastLost : Option Nat := none
  /-- Unarchived entries were overwritten since the last segment: the next carries GAP (R512; reset no). -/
  gap : Bool := false
  /-- Segments in the archive area (R513; reset none). -/
  segments : List Segment := []
  /-- Number of the next segment (32 bits; R513; reset 0, DESIGN CHOICE log 7). -/
  nextSegment : Nat := 0
  /-- TB0 time of the last archiving (R513; reset 0, DESIGN CHOICE log 7). -/
  lastArchive : Nat := 0
  /-- Refusals of the second by channel (R507; reset none). -/
  refusals : List Refusals := []
  deriving DecidableEq, Repr

/-- What Walec reports through DEVICE: the resources that an exit from Bench lacked, as domains, tile links and whether the DRAM and
the geometry were still missing (R216), or that no Bench bitmap is valid (R217). -/
inductive DeviceCause where
  | benchExit (domains links : List Nat) (dram geometry : Bool)
  | noBitmap
  | slotNotBlank (slots : List Nat)
  deriving DecidableEq, Repr

/-- Walec. -/
structure WalecCtl where
  /-- The cause that Walec reports through DEVICE (R216, R217; reset none). -/
  cause : Option DeviceCause := none
  /-- Requests taken and not yet executed (R491; reset none). -/
  taken : List Request := []
  /-- Answers not yet delivered (R458; reset none). -/
  answers : List Answer := []
  /-- RESTART_CAUSE (8 bits; R497; reset 0). -/
  restartCause : Nat := 0
  /-- TB0 time at which Walec stopped (R34; reset none). -/
  stoppedAt : Option Nat := none
  /-- TB0 time since which WALEC_STATE reads RESTARTING without the timeout of R34 (reset not reported). -/
  timeoutSeen : Bool := false
  /-- A planned power-down has been accepted (R498; reset no). -/
  powerDown : Bool := false
  /-- CLASS records of the drawers in NOR by 32·port + number (R503; reset none). -/
  classRecord : Tbl Nat := []
  /-- Drawer classes that wait for the drawer's next IDLE (R503; reset none). -/
  classNext : Tbl Nat := []
  /-- DEST_ADDR (128 bits; R496; reset 0, DESIGN CHOICE log 7). -/
  destAddr : Nat := 0
  /-- DEST_PORT (16 bits; R496; reset 0, DESIGN CHOICE log 7). -/
  destPort : Nat := 0
  /-- Witness camera P0X, P0Y, PSX, PSY, T0X, T0Y, TSX, TSY by 0 to 7 (R159; reset 0, DESIGN CHOICE log 7). -/
  camera : Tbl Nat := []
  deriving DecidableEq, Repr

/-! ### Clocks, resets and power (17_clocks_resets_power.md) -/

/-- One reference input. -/
structure RefInput where
  /-- QUAL (1 bit; R580; reset 0). -/
  qual : Bool := false
  /-- LOCK (1 bit; R580; reset 0). -/
  lock : Bool := false
  /-- MISS (1 bit, W1C; R580; reset 0). -/
  miss : Bool := false
  /-- WIN (1 bit, W1C; R580; reset 0). -/
  win : Bool := false
  /-- The input has stopped and has not qualified since (R549, R550; reset no). -/
  stopped : Bool := false
  deriving DecidableEq, Repr, Inhabited

/-- Whether the clock domains run (R554 to R557). -/
inductive ClockPhase where
  | running | switching | holding | expired
  deriving DecidableEq, Repr, Inhabited

/-- The clock block. -/
structure ClkState where
  /-- REFCLK_A. -/
  refA : RefInput := {}
  /-- REFCLK_B. -/
  refB : RefInput := {}
  /-- REF_PRI (1 bit strap; R580; reset A before the first sampling, log 8). -/
  refPri : Port := .a
  /-- SELECTED (1 bit; R580; reset the strap). -/
  selected : Port := .a
  /-- The input to which the stop in progress moves (R554, R555; reset A, DESIGN CHOICE log 7). -/
  dest : Port := .a
  /-- An input has been selected since power-on (R552; reset no). -/
  chosen : Bool := false
  /-- Phase of R554 to R557 (reset running, DESIGN CHOICE log 7). -/
  phase : ClockPhase := .running
  /-- The stop in progress included a hold (R579; reset no). -/
  held : Bool := false
  /-- GAP_NS (32 bits, saturates; R580; reset 0). -/
  gapNs : Nat := 0
  /-- FAILOVERS (8 bits, saturates; R580; reset 0). -/
  failovers : Nat := 0
  /-- HOLD_SEEN (1 bit, W1C; R580; reset 0). -/
  holdSeen : Bool := false
  /-- HOLD_EXPIRED (1 bit, W1C; R580; reset 0). -/
  holdExpired : Bool := false
  /-- FAILOVER_SEEN (1 bit, W1C; R580; reset 0). -/
  failoverSeen : Bool := false
  /-- LOCK_LOST_SEEN (1 bit, W1C; R581; reset 0). -/
  lockLostSeen : Bool := false
  /-- Locked system PLLs: DRAM 0 to 8, SerDes 9 to 20, Ethernet 21, ray 22, core 23 (R581; reset none). -/
  locks : List Nat := []
  deriving DecidableEq, Repr, Inhabited

/-- Domain states of R569 to R571. -/
inductive DomainState where
  | off | coming | ready
  deriving DecidableEq, Repr, Inhabited

/-- Supply states of a tile row (R576 to R578). -/
inductive RowSupply where
  | off | waiting | on | goingOff
  deriving DecidableEq, Repr, Inhabited

/-- The supplies of one tile row. -/
structure Supply where
  /-- State of R576 (reset off). -/
  state : RowSupply := .off
  /-- TB0 time of the last OPERATION on, of the DARK of a switch-off (R576; reset 0, DESIGN CHOICE log 7). -/
  since : Nat := 0
  /-- SUPPLY_FAILED (1 bit; R585; reset 0). -/
  failed : Bool := false
  /-- TB0 times of failures (R577; reset none). -/
  failures : List Nat := []
  /-- SHED (1 bit; R585; reset 0). -/
  shed : Bool := false
  /-- TB0 times of shedding (R578; reset none). -/
  sheds : List Nat := []
  /-- Off until the next warm or power-on reset (R577, R578; reset no). -/
  barred : Bool := false
  deriving DecidableEq, Repr, Inhabited

/-- A PMBus device-table entry and what was last read from it (R573, R574). -/
structure PmbusDevice where
  /-- ADDR (8 bits; R573). -/
  addr : Nat := 0
  /-- PAGE (8 bits; R573). -/
  page : Nat := 255
  /-- ROLE (8 bits; R573). -/
  role : Nat := 0
  /-- ROW (8 bits; R573). -/
  row : Nat := 255
  /-- FLAGS bit 0, COUNT_IN_PANEL (1 bit; R573). -/
  counts : Bool := false
  /-- IOUT_MAX (16 bits, 10 mA; R573). -/
  ioutMax : Nat := 0
  /-- PGOOD_MS (16 bits; R573). -/
  pgoodMs : Nat := 0
  /-- Latest valid READ_IOUT, mA, and its TB0 time (R574; reset none). -/
  iout : Option (Nat × Nat) := none
  /-- Latest STATUS_WORD (16 bits; R574; reset 0, DESIGN CHOICE log 7). -/
  statusWord : Nat := 0
  /-- Latest READ_VOUT (16 bits; R574; reset 0, DESIGN CHOICE log 7). -/
  vout : Nat := 0
  /-- Latest READ_TEMPERATURE_1 (16 bits; R574; reset 0, DESIGN CHOICE log 7). -/
  temp : Nat := 0
  deriving DecidableEq, Repr, Inhabited

/-- The power sequencer, the resets and the PMBus controller. -/
structure PwrState where
  /-- Power domains PD0 to PD43 (R569, R584; reset off). -/
  domains : Tbl DomainState := []
  /-- PWR_DOMAIN_FAIL FAILED, the marked domains (44 bits; R571, R584; reset 0). -/
  failedMarks : List Nat := []
  /-- Switch-on and switch-off requests in the order received, with on and domain (R571; reset none). -/
  queue : List (Bool × Nat) := []
  /-- WARM_COUNT (16 bits, saturates; R582; reset 0). -/
  warmCount : Nat := 0
  /-- WATCHDOG_COUNT (16 bits, saturates; R582; reset 0). -/
  watchdogCount : Nat := 0
  /-- LAST (4 bits; R582; reset the cause, 0 POWER_ON). -/
  last : Nat := 0
  /-- Requesting port of R583 for the RESET entry (1 bit; R579; reset 0, DESIGN CHOICE log 7). -/
  lastPort : Nat := 0
  /-- The Wardrobe timer requested the last warm reset (R618; reset no). -/
  lastWardrobe : Bool := false
  /-- SUPPLY_SEEN (1 bit, W1C; R582; reset 0). -/
  supplySeen : Bool := false
  /-- CLOCK_SEEN (1 bit, W1C; R582; reset 0). -/
  clockSeen : Bool := false
  /-- WATCHDOG_SEEN (1 bit, W1C; R582; reset 0). -/
  watchdogSeen : Bool := false
  /-- WARM_SEEN (1 bit, W1C; R582; reset 0). -/
  warmSeen : Bool := false
  /-- A RESET entry is owed when Walec becomes ready (R567; reset no). -/
  resetEntry : Bool := false
  /-- A warm reset runs: its start in TB0 (R566; reset none). -/
  warmAt : Option Nat := none
  /-- A supply excursion holds the warm reset: the rail (R568; reset none). -/
  supplyHold : Option Nat := none
  /-- PORST# is low, power-on reset is held (R564; reset yes). -/
  porst : Bool := true
  /-- PMBus device table, 32 entries of 16 bytes (R573; reset unused). -/
  devices : Tbl PmbusDevice := []
  /-- PMBus clock is 100 kHz (R572, R574; reset no, DESIGN CHOICE log 7). -/
  slowBus : Bool := false
  /-- I_PANEL (32 bits; R585; reset 0). -/
  iPanel : Nat := 0
  /-- Supplies of rows 0 to 11 (R576; reset off). -/
  supplies : Tbl Supply := []
  /-- ALERT_STUCK (1 bit; R585; reset 0). -/
  alertStuck : Bool := false
  /-- STALE (1 bit; R585; reset 0). -/
  stale : Bool := false
  /-- ALERT_SEEN (1 bit, W1C; R585; reset 0). -/
  alertSeen : Bool := false
  /-- SHED_SEEN (1 bit, W1C; R585; reset 0). -/
  shedSeen : Bool := false
  /-- BUS_ERR_SEEN (1 bit, W1C; R585; reset 0). -/
  busErrSeen : Bool := false
  /-- TB0 time since which LIMIT_FLOOR is set (R578; reset none). -/
  floorSince : Option Nat := none
  /-- TB0 time since which I_PANEL exceeds 1.25 I_LIMIT (R578; reset none). -/
  overSince : Option Nat := none
  /-- TB0 time since which I_PANEL is at or below 0.9 I_LIMIT (R578; reset none). -/
  lowSince : Option Nat := none
  /-- TB0 time of the last shedding, while it repeats (R578; reset none). -/
  shedding : Option Nat := none
  /-- PWR_ALERT_LAST STATUS_WORD (16 bits; R586; reset 0). -/
  alertStatus : Nat := 0
  /-- PWR_ALERT_LAST ENTRY (8 bits; R586; reset 0). -/
  alertEntry : Nat := 0
  /-- PWR_ALERT_LAST ADDR (7 bits; R586; reset 0). -/
  alertAddr : Nat := 0
  /-- PWR_ALERT_LAST VALID (1 bit, W1C; R586; reset 0). -/
  alertValid : Bool := false
  /-- SMBALERT# is asserted (R575; reset no, DESIGN CHOICE log 7). -/
  smbalert : Bool := false
  deriving DecidableEq, Repr, Inhabited

/-! ### Thermal management (18_thermal.md) -/

/-- Sensor states of R607. -/
inductive SensorMode where
  | off | valid | failed | held | acked
  deriving DecidableEq, Repr, Inhabited

/-- One temperature sensor. Temperatures are s11.4 °C. -/
structure Sensor where
  /-- READING (16 bits; R607; reset 0). -/
  reading : Int := 0
  /-- VALUE (16 bits; R607; reset 0). -/
  value : Int := 0
  /-- STATE (3 bits; R607; reset OFF). -/
  state : SensorMode := .off
  /-- PARTNER (5 bits; R607; reset as R587). -/
  partner : Option Nat := none
  /-- GROUP (4 bits; R607; reset as R590). -/
  group : Option Nat := none
  /-- DISAGREE (1 bit; R607; reset 0). -/
  disagree : Bool := false
  /-- FAIL_SEEN (1 bit, W1C; R607; reset 0). -/
  failSeen : Bool := false
  /-- Latest valid reading (R589; reset none). -/
  lastValid : Option Int := none
  /-- Consecutive invalid samples (R589; reset 0). -/
  badRun : Nat := 0
  /-- Consecutive valid samples while failed (R589; reset 0). -/
  goodRun : Nat := 0
  /-- TB0 time since which the pair differs by more than PAIR_TOL (R591; reset none). -/
  differSince : Option Nat := none
  /-- SENSOR_MODE (2 bits; R605; reset 0 OFF). -/
  mode : Nat := 0
  /-- IDEALITY (16 bits, u2.14; R605; reset 16515, that is 1.008). -/
  ideality : Nat := 16515
  /-- SERIES_R (R605; reset 0). -/
  seriesR : Nat := 0
  /-- NTC_BIAS (R605; reset 1). -/
  ntcBias : Nat := 1
  /-- NTC_R25 (R605; reset 10,000). -/
  ntcR25 : Nat := 10000
  /-- NTC_BETA (R605; reset 3,950). -/
  ntcBeta : Nat := 3950
  /-- NTC_TABLE points 0 to 15, R and T (48 bits each; R605; reset 0). -/
  table : Tbl (Nat × Int) := []
  deriving DecidableEq, Repr, Inhabited

/-- One thermal group. Temperatures are s11.4 °C. -/
structure TempGroup where
  /-- READING (16 bits; R608; reset 0). -/
  reading : Int := 0
  /-- CUR_STEP (5 bits; R608; reset 16). -/
  curStep : Nat := 16
  /-- CLK_STEP (3 bits; R608; reset 0). -/
  clkStep : Nat := 0
  /-- KIND (2 bits; R608; reset OFF, G0 DEVICE). -/
  kind : Nat := 0
  /-- ROWS (12 bits; R608; reset 0). -/
  rows : Nat := 0
  /-- WARN (1 bit; R608; reset 0). -/
  warn : Bool := false
  /-- INVALID (1 bit; R608; reset 0). -/
  invalid : Bool := false
  /-- WARN_SEEN (1 bit, W1C; R608; reset 0). -/
  warnSeen : Bool := false
  /-- THROTTLE_SEEN (1 bit, W1C; R608; reset 0). -/
  throttleSeen : Bool := false
  /-- WARN threshold set through THERM (R592, R605; reset by kind). -/
  warnAt : Option Int := none
  /-- THROTTLE threshold set through THERM (R592, R605; reset by kind). -/
  throttleAt : Option Int := none
  /-- SHUTDOWN threshold set through THERM (R592, R605; reset by kind). -/
  shutdownAt : Option Int := none
  /-- HYST_WARN (R605; reset 48, 3.0 °C). -/
  hystWarn : Int := 48
  /-- HYST_THROTTLE (R605; reset 48, 3.0 °C). -/
  hystThrottle : Int := 48
  /-- HYST_SHUTDOWN (R605; reset 48, 3.0 °C). -/
  hystShutdown : Int := 48
  /-- DOWN_MS (R605; reset 1,000). -/
  downMs : Nat := 1000
  /-- UP_MS (R605; reset 10,000). -/
  upMs : Nat := 10000
  /-- TB0 time of the last change of a step (R593; reset none). -/
  lastChange : Option Nat := none
  deriving DecidableEq, Repr, Inhabited

/-- A shutdown slot as boot finds it (R603, R604). -/
inductive SlotRecord where
  | empty
  | valid (bytes : Bytes)
  | torn (bytes : Bytes)
  deriving DecidableEq, Repr, Inhabited

/-- Steps of the shutdown sequencer (R601). -/
inductive ShutStep where
  | waitNor | writing | tripped
  deriving DecidableEq, Repr, Inhabited

/-- A shutdown in progress (R600, R601). -/
structure Shutdown where
  step : ShutStep
  /-- TB0 at the origin. -/
  origin : Nat
  cause : Nat
  source : Nat
  sensor : Nat
  flags : Nat
  reading : Int
  waitUs : Nat
  frame : Nat
  tb1 : Nat
  groups : List Nat
  deriving DecidableEq, Repr, Inhabited

/-- The thermal block. -/
structure ThmState where
  /-- Sensors 0 to 23 (R607; reset OFF). -/
  sensors : Tbl Sensor := []
  /-- Groups G0 to G7 (R608). -/
  groups : Tbl TempGroup := []
  /-- LAST_NOR_WAIT_US (16 bits; R609; reset 0). -/
  lastNorWait : Nat := 0
  /-- CLK_IN_EFFECT (3 bits; R609; reset 0). -/
  clkInEffect : Nat := 0
  /-- CLK_PENDING (3 bits; R609; reset 0). -/
  clkPending : Nat := 0
  /-- REC_LAST (2 bits; R609; reset 0). -/
  recLast : Nat := 0
  /-- SLOT0_READY and SLOT1_READY (2 × 1 bit; R609; reset 0). -/
  slotReady : List Nat := []
  /-- POWERUP_HOLD (1 bit; R609; reset 0). -/
  powerupHold : Bool := false
  /-- SENSOR_FAIL_SEEN (1 bit, W1C; R609; reset 0). -/
  sensorFailSeen : Bool := false
  /-- RECORD_SEEN (1 bit, W1C; R609; reset 0). -/
  recordSeen : Bool := false
  /-- PAIR_TOL (R605; reset 128, 8.0 °C). -/
  pairTol : Int := 128
  /-- NOR_PROG_MAX, µs (R605; reset 3,000). -/
  norProgMax : Nat := 3000
  /-- DRAM_SENSOR by physical site (R605; reset 0xFF, none). -/
  dramSensor : Tbl Nat := []
  /-- The shutdown in progress (R600; reset none). -/
  shutdown : Option Shutdown := none
  /-- Shutdown record slots 0 and 1 in NOR (64 bytes each; R603; reset empty, DESIGN CHOICE log 7). -/
  slots : Tbl SlotRecord := []
  /-- Slots that failed their blank check at boot, which Walec reports through DEVICE (R604; reset none). -/
  blankFailed : List Nat := []
  deriving DecidableEq, Repr, Inhabited

/-! ### Redundancy (19_redundancy.md) -/

/-- CPU_MODE (R627). -/
inductive CpuMode where
  | pair | triple | joined
  deriving DecidableEq, Repr, Inhabited

/-- The Wardrobe. -/
structure SprState where
  /-- RETIRED_MASK as the list of its set bits (R613, R627; reset none). -/
  retired : List Nat := []
  /-- TB0 times of the faults of each unit by its bit of RETIRED_MASK (R612; reset none). -/
  faults : Tbl (List Nat) := []
  /-- Units that await their self-test (R612; reset none). -/
  toTest : List Nat := []
  /-- CPU_MODE (2 bits; R629; reset PAIR). -/
  cpu : CpuMode := .pair
  /-- The control processor pair is stopped with its state retained, and the standby processor answers (R214; reset no). -/
  standby : Bool := false
  /-- TB0 time of the last mismatch in TRIPLE or of the entry into it (R616; reset 0, DESIGN CHOICE log 7). -/
  lastMismatch : Nat := 0
  /-- Soft repair tables by domain (at most 64 rows each; R619; reset empty). -/
  repairs : Tbl (List Nat) := []
  /-- Corrections by domain and word address, with their TB0 times (R619; reset none). -/
  corrections : List (Nat × Nat × Nat) := []
  /-- MIGRATE_AUTO (1 bit; R628; reset 1). -/
  migrateAuto : Nat := 1
  /-- RETURN_FAULTED (1 bit; R628; reset 1). -/
  returnFaulted : Nat := 1
  /-- LINK_AUTO_RESTORE (1 bit; R628; reset 0). -/
  linkAutoRestore : Nat := 0
  /-- REPAIR_THRESHOLD (4 bits; R628; reset 3). -/
  repairThreshold : Nat := 3
  /-- TB0 time of the automatic restore of each link (R623; reset none). -/
  autoRestored : Tbl Nat := []
  /-- Links that get no further automatic restore (R623; reset none). -/
  noAuto : List Nat := []
  /-- SPR_OUTAGE_MS (64 bits; R629; reset 0). -/
  outageMs : Nat := 0
  /-- Daily outage counts of the last 365 days, newest first (R627; reset none). -/
  daily : List Nat := []
  /-- Outage milliseconds since the last persisting (R627; reset 0). -/
  outageHour : Nat := 0
  /-- Aborts, realigns and held frames since the last persisting (R627; reset 0). -/
  glitches : Nat := 0
  /-- Their daily counts of the last 365 days, newest first (R627; reset none). -/
  dailyGlitches : List Nat := []
  /-- A planned stop is in progress (R625; reset no: no reset or power-down was asked for). -/
  plannedStop : Bool := false
  /-- Power has returned after a thermal shutdown (R625; reset no). -/
  thermalReturn : Bool := false
  /-- Engine domains that Walec cycles, for a repair, while they are idle (R620; reset none). -/
  toCycle : List Nat := []
  /-- RETIRE_SEEN (1 bit, W1C; R629; reset 0). -/
  retireSeen : Bool := false
  /-- SPARE_USED_SEEN (1 bit, W1C; R629; reset 0). -/
  spareUsedSeen : Bool := false
  /-- OUTAGE_SEEN (1 bit, W1C; R629; reset 0). -/
  outageSeen : Bool := false
  /-- Classes of R610 for which SPARE_EXHAUSTED was written (R611, R629; reset none). -/
  exhausted : List Nat := []
  deriving DecidableEq, Repr, Inhabited

/-! ### Boot and the stores (20_boot_and_nvm.md) -/

/-- A boot header (R632). -/
structure BootHeader where
  seq : Nat
  active : Nat
  trial : Bool
  versionA : Nat
  versionB : Nat
  deriving DecidableEq, Repr, Inhabited

/-- A calibration index entry (R639). -/
structure CalEntry where
  kind : Nat
  flags : Nat
  version : Nat
  lba : Nat
  len : Nat
  digest : Bytes
  deriving DecidableEq, Repr, Inhabited

/-- The governing calibration index (R639). -/
structure CalIndex where
  seq : Nat
  panelId : Nat
  entries : List CalEntry
  deriving DecidableEq, Repr, Inhabited

/-- BOOT_STATE (R644). -/
inductive BootMode where
  | rom | loading | running | recovery | failed
  deriving DecidableEq, Repr, Inhabited

/-- The boot ROM, the fuses, NOR and eMMC. -/
structure BotState where
  /-- RUNNING_VERSION (32 bits; R644; reset 0). -/
  version : Nat := 0
  /-- ROLLBACK, the fuse counter (7 bits; R635, R644; reset fuses, log 8). -/
  rollback : Nat := 0
  /-- KEY_REVOKED (4 bits; R644; reset fuses, log 8). -/
  revoked : List Nat := []
  /-- IKEY_ENROLLED slots with their digests (4 slots; R639, R644; reset fuses, log 8). -/
  ikeys : Tbl Bytes := []
  /-- BOOT_STATE (3 bits; R644; reset ROM). -/
  mode : BootMode := .rom
  /-- IMAGE (1 bit; R644; reset 0). -/
  image : Nat := 0
  /-- TRIAL (1 bit; R644; reset 0). -/
  trial : Bool := false
  /-- EMMC_READY (1 bit; R644; reset 0). -/
  emmcReady : Bool := false
  /-- NOR_OCTAL (1 bit; R644; reset 0). -/
  norOctal : Bool := false
  /-- FALLBACK_SEEN (1 bit, W1C; R644; reset 0). -/
  fallbackSeen : Bool := false
  /-- VERIFY_FAIL_SEEN (1 bit, W1C; R644; reset 0). -/
  verifyFailSeen : Bool := false
  /-- TORN_SEEN (1 bit, W1C; R644; reset 0). -/
  tornSeen : Bool := false
  /-- EMMC_ERR_SEEN (1 bit, W1C; R644; reset 0). -/
  emmcErrSeen : Bool := false
  /-- Boot header copies 0 and 1 in NOR (64 bytes each; R632; reset as stored, DESIGN CHOICE none, log 8). -/
  headers : Tbl BootHeader := []
  /-- Images A and B in NOR (64 MiB each; R634; reset as stored, DESIGN CHOICE none, log 8). -/
  images : Tbl Bytes := []
  /-- TRIAL image attempted since power-on (retention mark; R641; reset none). -/
  attempted : Option Nat := none
  /-- TB0 time at which the TRIAL image started to run (R641; reset none). -/
  trialSince : Option Nat := none
  /-- The image that was staged (R641; reset none). -/
  staged : Option Nat := none
  /-- Governing calibration index in NOR (R639; reset as stored, DESIGN CHOICE none, log 8). -/
  calIndex : Option CalIndex := none
  /-- Calibration files in eMMC by first block (R638; reset as stored, DESIGN CHOICE none, log 8). -/
  files : Tbl Bytes := []
  /-- Installation record in NOR (128 KiB; R631; reset as stored, DESIGN CHOICE none, log 8). -/
  install : Option InstallRecord := none
  /-- DEVICE_CERT (64 KiB; R631; reset as stored, DESIGN CHOICE empty, log 8). -/
  deviceCert : Bytes := []
  /-- Event slot records in NOR, oldest first (14 slots of 64 records; R642; reset none, log 8). -/
  events : List (Nat × Nat) := []
  /-- Last accepted Bench bitmap in eMMC (R638; reset as stored, DESIGN CHOICE none, log 8). -/
  benchFile : Option Bytes := none
  deriving DecidableEq, Repr, Inhabited

/-! ### Pins and the log of what leaves the 9610 -/

/-- Levels of the pins that commands change (R649, R664). True means asserted. -/
structure Pins where
  /-- FAULT# (R649; asserted in power-on reset, R664). -/
  fault : Bool := true
  /-- THERM_TRIP# (R649; not asserted in power-on reset, R664). -/
  thermTrip : Bool := false
  /-- Levels of TILE_CFG[1:0], which the board ties (2 bits; R651; reset 0, DESIGN CHOICE log 7). -/
  tileCfg : Nat := 0
  /-- Level of REF_PRI, which the board ties (R651; reset A, DESIGN CHOICE log 7). -/
  refPri : Port := .a
  deriving DecidableEq, Repr, Inhabited

/-- Body of a packet on a forward lane (R263 to R268). -/
inductive Packet where
  | subframe (mode phase slot flags frame sub : Nat) (cr : List Nat) (band : Nat)
  | line (line frame sub : Nat) (codes : List Nat) (lcrc : Nat)
  | endp (lines frame sub scrc : Nat)
  | abort (line cause frame sub : Nat)
  | mode (mode retrain frame : Nat)
  | dark
  | control (seq opcode frame : Nat)
  | hold
  deriving DecidableEq, Repr

/-- Something that leaves the 9610: the model's own log of outputs. -/
inductive Sent where
  | tile (link : Nat) (p : Packet)
  | idle (link : Nat)
  | prbs31 (link : Nat) (half : Bool)
  | msix (p : Port) (vector : Nat)
  | hostWrite (p : Port) (addr : Nat) (data : Bytes)
  | readReply (requester addr : Nat) (data : Bytes) (poisoned : Bool)
  | rtp (dest addr udp : Nat) (packet : Bytes)
  | rtcp (dest ntp stamp packets bytes : Nat)
  | ethReply (session : Nat) (message : Bytes)
  | ethFrame (port : Nat) (frame : Bytes)
  | ptp (port kind seq time : Nat) (correction : Int)
  | ptm (p : Port)
  | pmbus (entry : Nat) (on : Bool)
  | clearFaults (entry : Nat)
  | alertResponse
  | dramCmd (site channel kind : Nat)
  | deviceCause (ch : Channel) (cause : DeviceCause)
  deriving DecidableEq, Repr

/-- The whole machine. -/
structure State where
  cmp : CmpState := {}
  geom : GeomState := {}
  ray : RayState := {}
  sig : SigState := {}
  tim : TimState := {}
  eth : EthState := {}
  out : OutState := {}
  tlk : TlkState := {}
  dec : DecState := {}
  enc : EncState := {}
  blt : BltState := {}
  dfl : DflState := {}
  dmc : DmcState := {}
  hif : HifState := {}
  walec : WalecCtl := {}
  bureau : BureauState := {}
  clk : ClkState := {}
  pwr : PwrState := {}
  thm : ThmState := {}
  spr : SprState := {}
  bot : BotState := {}
  pins : Pins := {}
  /-- Outputs of the block, oldest first: the model's own field (reset empty, log 11). -/
  sent : List Sent := []
  /-- Free values drawn so far: the model's own field, DESIGN CHOICE (reset 0, log 2). -/
  drawn : Nat := 0
  /-- Commands that wait, first in, first out: the model's own field (reset empty, log 1). -/
  pending : List Instr := []
  deriving DecidableEq, Repr

/-- The machine right after power-on reset asserts: every field at its default. -/
def State.reset : State := {}

end Sys2Proof.Machine
end

