-- ==== Sys2Proof/Machine/Ops.lean ====
section
/-! DEFINITION. The named operations that the commands share: time, the Bureau, interrupts, DRAM, drawers, queues,
fences and the planning of level-3 changes. -/

namespace Sys2Proof.Machine

/-- The answer of a command. -/
abbrev Out := Host.Outcome State Fault Refusal

/-- Status codes of R493. -/
inductive Status where
  | ok | format | range | rights | lease | limit | busy | notReady | late | checksum | mismatch | restarting | unsupported
  | discarded | suspended | fault | unknown
  deriving DecidableEq, Repr

/-- The code of a status (R493). -/
def Status.code : Status → Nat
  | .ok => 0 | .format => 1 | .range => 2 | .rights => 3 | .lease => 4 | .limit => 5 | .busy => 6 | .notReady => 7 | .late => 8
  | .checksum => 9 | .mismatch => 10 | .restarting => 11 | .unsupported => 12 | .discarded => 13 | .suspended => 14
  | .fault => 15 | .unknown => 16

/-- The status of the first check that fails, in the order of a rule's table; ST_OK when none does. -/
def firstStatus : List (Bool × Status) → Status
  | [] => .ok
  | (bad, c) :: r => if bad then c else firstStatus r

/-! ### Time bases (R518 to R523) -/

/-- Time base n. -/
def baseOf (s : State) (n : Nat) : Base := Tbl.get s.tim.bases {} n

/-- Integer nanoseconds of base n (R518). -/
def tbNs (s : State) (n : Nat) : Nat := (baseOf s n).acc / 2 ^ 40 % 2 ^ 64

/-- Visible value of base n in units of 2^-16 ns (R518, R22). -/
def tbU (s : State) (n : Nat) : Nat := (baseOf s n).acc / 2 ^ 24 % 2 ^ 80

/-- TB0 in nanoseconds. -/
def tb0 (s : State) : Nat := tbNs s 0

/-- Set base n. -/
def setBase (n : Nat) (b : Base) (s : State) : State :=
  { s with tim := { s.tim with bases := Tbl.set n b s.tim.bases } }

/-- One base after k CK_AON edges (R518). -/
def Base.after (k : Nat) (b : Base) : Base := { b with acc := (b.acc + k * b.inc) % 2 ^ 104 }

/-- Every base takes k CK_AON edges (R518). -/
def advance (k : Nat) (s : State) : State :=
  setBase 3 ((baseOf s 3).after k) (setBase 2 ((baseOf s 2).after k)
    (setBase 1 ((baseOf s 1).after k) (setBase 0 ((baseOf s 0).after k) s)))

/-- CK_AON runs: PORST# is released, a reference is selected (R552) and no stop of R554 or R555 is in progress. -/
def clocked (s : State) : Bool := !s.pwr.porst && s.clk.chosen && s.clk.phase == .running

/-- One CK_AON edge: each base adds its increment (R518). CK_AON does not run in a stop (R554) or in reset. -/
def clockEdge (s : State) : State := if clocked s then advance 1 s else s

/-- CK_AON edges until base n is at or after `u`, in 2^-16 ns, on the signed difference (R22, R191, R521). -/
def edgesTo (s : State) (n u : Nat) : Nat :=
  let ahead := signed 104 (unsigned 104 ((u : Int) * 2 ^ 24 - (baseOf s n).acc))
  if ahead ≤ 0 then 0 else (ahead.toNat + (baseOf s n).inc - 1) / (baseOf s n).inc

/-- Time goes on to the first CK_AON edge at which base n is at or after `u` (2^-16 ns), if it is still ahead (log 10). -/
def advanceTo (n u : Nat) (s : State) : State := advance (edgesTo s n u) s

/-- Time goes on until TB0 reads at least `t` nanoseconds, if that is still ahead (log 10). -/
def advanceTo0 (t : Nat) (s : State) : State := advanceTo 0 (t * 65536) s

/-- Conversion of a time in base m to base n by one capture (R522). -/
def convert (s : State) (m n x : Nat) : Nat := unsigned 64 ((x : Int) - tbNs s m + tbNs s n)

/-- A target more than 2^62 ns ahead of its base (R521). -/
def tooFar (s : State) (n t : Nat) : Bool := 2 ^ 62 < signed 64 (unsigned 64 ((t : Int) - tbNs s n))

/-! ### Free values and outputs -/

/-- The free value that the step draws now, below `m` (log 2). -/
def freeBelow (s : State) (m : Nat) : Nat := Config.freeNat s.drawn % m

/-- The step has drawn a free value. -/
def drew (s : State) : State := { s with drawn := s.drawn + 1 }

/-- Something leaves the 9610. -/
def send (o : Sent) (s : State) : State := { s with sent := s.sent ++ [o] }

/-- Several things leave the 9610, in order. -/
def sendAll (os : List Sent) (s : State) : State := { s with sent := s.sent ++ os }

/-! ### Modes and the line grid (R189 to R191) -/

/-- Codes of R189. -/
def modeOk (c : Nat) : Bool := (1 ≤ c && c ≤ 6) || c == 0x10

/-- Subframes of a frame (R189). -/
def subframes (c : Nat) : Nat := if c == 1 || c == 2 then 2 else 1

/-- Dense modes: phase A and phase B in a frame (R189). -/
def dense (c : Nat) : Bool := c == 1 || c == 2

/-- Subframes per second (R189). -/
def subframeRate (c : Nat) : Nat :=
  if c == 1 || c == 3 then 120 else if c == 2 || c == 4 then 100 else if c == 5 || c == 6 then 60 else 30

/-- Frame period P in 2^-16 ns (R190). -/
def framePeriod (c : Nat) : Nat :=
  if c == 1 || c == 5 || c == 6 then 16666666 * 65536 + 0xAAAB
  else if c == 2 then 20000000 * 65536
  else if c == 3 then 8333333 * 65536 + 0x5555
  else if c == 4 then 10000000 * 65536
  else 33333333 * 65536 + 0x5555

/-- Ticks in 100 ms (R531). -/
def gridTicks (c : Nat) : Nat :=
  if c == 1 || c == 5 || c == 6 then 6 else if c == 2 then 5 else if c == 3 then 12 else if c == 4 then 10 else 3

/-- Start of line m of subframe sub after the tick, in 2^-16 ns (R191). -/
def lineOffset (c sub m : Nat) : Nat :=
  (roundDiv (((1500 * sub + m) * framePeriod c : Nat) : Int) (1500 * subframes c)).toNat

/-- Line periods of mode c, in 2^-16 ns (R189). -/
def linePeriods (c n : Nat) : Nat := n * framePeriod c / (1500 * subframes c)

/-- Tile rows of the configuration (R193). -/
def configRows (s : State) : Nat := 3 * (s.tim.tileStrap + 1)

/-- Lens phase of subframe `sub` (R189, R197). -/
def phaseOf (c sub : Nat) : Nat := if dense c then sub else 0

/-! ### Planning level-3 changes (R24, R675) -/

/-- The frame at whose tick a change accepted now applies (R24, R675). -/
def nextFrame (s : State) : Nat := s.tim.frameCount + (if s.tim.rasterRun && s.tim.latched then 2 else 1)

/-- Enter a change for the tick of a frame. -/
def plan (f : Nat) (c : Change) (o : Origin) (s : State) : State :=
  { s with tim := { s.tim with pending := s.tim.pending ++ [{ frame := f, change := c, origin := o }] } }

/-- The pending mode change: code and planned frame (R203). -/
def pendingMode (s : State) : Option (Nat × Nat) :=
  s.tim.pending.findSome? fun p => match p.change with
    | .mode c => some (c, p.frame)
    | _ => none

/-- 100 ms in 2^-16 ns. -/
def tenth : Nat := 100000000 * 65536

/-- The grid time at or after a time, both in 2^-16 ns: TICK_ORIGIN + j·100 ms (R531). -/
def gridAfter (origin u : Nat) : Nat :=
  let o := origin * 65536 % tenth
  u + (tenth - (u + tenth - o) % tenth) % tenth

/-- The grid time of R531 nearest to a time, for the tick at k = 0. -/
def gridNear (origin u : Nat) : Nat := gridAfter origin (u - 50000000 * 65536)

/-- A run of ticks of one mode: the time of the first and its place k on the grid (R22, R531). -/
structure Ticks where
  mode : Nat
  first : Nat
  k : Nat
  deriving DecidableEq, Repr

/-- The first tick of the run at k = 0 after its first tick, while GENLOCK is 1 (R531). -/
def Ticks.zero (s : State) (x : Ticks) : Nat :=
  gridNear s.tim.tickOrigin (x.first + (gridTicks x.mode - x.k) * framePeriod x.mode)

/-- Tick j of a run: each tick follows by the frame period, and while GENLOCK is 1 the tick at k = 0 takes its grid time (R22, R531). -/
def Ticks.at (s : State) (x : Ticks) (j : Nat) : Nat :=
  let m := gridTicks x.mode
  if !s.tim.genlock || x.k + j < m then x.first + j * framePeriod x.mode
  else x.zero s + ((x.k + j) / m - 1) * tenth + (x.k + j) % m * framePeriod x.mode

/-- Index of the first tick of a run at or after `u`, on the signed difference (R104, R521). -/
def Ticks.index (s : State) (x : Ticks) (u : Int) : Nat :=
  let m := gridTicks x.mode
  let p := framePeriod x.mode
  let ahead := signed 80 (unsigned 80 (u - x.first))
  let plain := ((ahead + p - 1) / p).toNat
  let w := (ahead - ((x.zero s : Int) - x.first)).toNat
  if !s.tim.genlock || plain < m - x.k then plain
  else m - x.k + w / tenth * m + min m ((w % tenth + p - 1) / p)

/-- The ticks from the next one on, in the mode in effect. -/
def ticksNow (s : State) : Ticks := { mode := s.tim.mode, first := s.tim.nextTick, k := s.tim.gridK }

/-- The ticks from frame g on, at whose tick mode c takes effect: at k = 0 while GENLOCK is 1 (R203, R531). -/
def ticksThen (s : State) (c g : Nat) : Ticks := { mode := c, first := (ticksNow s).at s (g - (s.tim.frameCount + 1)), k := 0 }

/-- The first frame from `f` on whose tick time is at or after `u`, in 2^-16 ns of TB3, by the modes in effect and pending (R22,
R104, R203, R531). The step of a pending realign is not foreseen (log 88). -/
def frameAt (s : State) (f : Nat) (u : Int) : Nat :=
  let k := s.tim.frameCount + 1 + (ticksNow s).index s u
  match pendingMode s with
  | none => max f k
  | some (c, g) => max f (if k ≤ g then k else g + (ticksThen s c g).index s u)

/-- A realign is accepted and not yet begun (R529). -/
def realignPending (s : State) : Bool := s.tim.pending.any fun p => p.change == .realign

/-! ### Interrupts (R482 to R485) -/

/-- A port's state. -/
def portOf (s : State) : Port → HostPort
  | .a => s.hif.portA
  | .b => s.hif.portB

/-- Set a port's state. -/
def setPort (p : Port) (h : HostPort) (s : State) : State :=
  match p with
  | .a => { s with hif := { s.hif with portA := h } }
  | .b => { s with hif := { s.hif with portB := h } }

/-- The port's BARs answer: link up, in D0 (R16, R448). -/
def portOpen (s : State) (p : Port) : Bool := (portOf s p).linkUp && !(portOf s p).d3hot

/-- A message on a vector: sent on an open link when not masked, otherwise its pending bit is set (R482). -/
def message (p : Port) (v : Nat) (s : State) : State :=
  let h := portOf s p
  if portOpen s p && !bit (Tbl.get h.msix {} v).control 0 then send (.msix p v) s
  else setPort p { h with pba := if h.pba.contains v then h.pba else v :: h.pba } s

/-- A write to host memory over a port: sent on an open link, kept while D3hot stops the DMA, lost with the link (R448). -/
def hostSend (p : Port) (a : Nat) (b : Bytes) (s : State) : State :=
  let h := portOf s p
  if portOpen s p then send (.hostWrite p a b) s
  else if h.linkUp then setPort p { h with stalled := h.stalled ++ [(a, b)] } s
  else s

/-- Set a cause of HIF_INT_CAUSE; an enabled cause that changes from 0 to 1 sends a message (R485). -/
def raise (p : Port) (i : Nat) (s : State) : State :=
  let h := portOf s p
  if bit h.cause i then s
  else
    let t := setPort p { h with cause := h.cause + 2 ^ i } s
    if bit h.intEn i then message p h.intVector t else t

/-- Raise a cause on both ports. -/
def raiseBoth (i : Nat) (s : State) : State := raise .b i (raise .a i s)

/-- A cause on every port whose link is up (R35). -/
def raiseUp (i : Nat) (s : State) : State := [Port.a, Port.b].foldl (fun t p => if (portOf t p).linkUp then raise p i t else t) s

/-- Assert FAULT#: cause FAULT on both ports at its assertion (R485). -/
def assertFault (s : State) : State :=
  if s.pins.fault then s else raiseBoth 5 { s with pins := { s.pins with fault := true } }

/-! ### The Bureau (R507 to R513) -/

/-- The origin of an event that block k makes on its own (R508, R511). -/
def hw (k : Nat) : Origin := { kind := 3, id := k, cls := 0 }

/-- The origin of a change that Walec makes on its own (R511). -/
def byWalec : Origin := { kind := 4, id := 0xFFFF, cls := 0 }

/-- The origin of a Bench schedule entry (R511). -/
def bySchedule (i : Nat) : Origin := { kind := 4, id := i, cls := 0 }

/-- The first 8 bytes of SHA-384 (R510). -/
def digest (b : Bytes) : Bytes := padTo 8 (Config.sha384 b)

/-- Bytes 0 to 59 of an entry (R508). -/
def Entry.bytes (e : Entry) : Bytes :=
  leBytes 8 e.seq ++ leBytes 8 e.time ++ leBytes 1 (e.base % 4 + flagAt e.summary 2) ++ leBytes 1 e.origin.kind
  ++ leBytes 2 e.origin.id ++ leBytes 1 e.origin.cls ++ leBytes 1 e.subject ++ leBytes 2 e.event ++ leBytes 8 e.frame
  ++ padTo 8 e.oldDigest ++ padTo 8 e.newDigest ++ leBytes 8 e.detail ++ leBytes 2 e.epoch ++ leBytes 2 0

/-- The 64 bytes of an entry (R508). -/
def Entry.image (e : Entry) : Bytes := e.bytes ++ leBytes 4 e.chain

/-- CHAIN of an entry after the previous entry's CHAIN (R509). -/
def chainAfter (prev : Nat) (e : Entry) : Nat := crc32c (leBytes 4 prev ++ e.bytes)

/-- Unarchived entries (R512). -/
def unarchived (s : State) : Nat := s.bureau.nextSeq - s.bureau.archivedSeq

/-- The ring after one more entry: a full ring loses its oldest, counted in LOST when it was not archived (R512). -/
def BureauState.append (b : BureauState) (e : Entry) : BureauState :=
  let full := 65536 ≤ b.ring.length
  let lostOne := full && b.nextSeq - b.archivedSeq ≥ 65536
  { b with
    ring := (if full then b.ring.drop 1 else b.ring) ++ [e]
    nextSeq := e.seq + 1
    chain := e.chain
    lost := if lostOne then b.lost + 1 else b.lost
    chainBefore := if full then (b.ring.head?.elim b.chainBefore (·.chain)) else b.chainBefore
    lastLost := if lostOne then b.ring.head?.map (·.seq) else b.lastLost
    gap := b.gap || lostOne
    archivedSeq := if lostOne then b.archivedSeq + 1 else b.archivedSeq }

/-- Append an entry to the Bureau with the time of a base and the frame of this moment (R507 to R509). -/
def logIn (base : Nat) (o : Origin) (subject event detail : Nat) (old new : Bytes) (summary : Bool) (s : State) : State :=
  let e : Entry := { seq := s.bureau.nextSeq, time := tbNs s base, base, summary, origin := o,
                     subject := subject % 256, event, frame := s.tim.frameCount, oldDigest := old, newDigest := new,
                     detail := detail % 2 ^ 64, epoch := s.bureau.epoch, chain := 0 }
  { s with bureau := s.bureau.append { e with chain := chainAfter s.bureau.chain e } }

/-- Append an entry to the Bureau in the selected base (R200, R523). -/
def logEntry (o : Origin) (subject event detail : Nat) (old new : Bytes) (summary : Bool) (s : State) : State :=
  logIn s.tim.bureauBase o subject event detail old new summary s

/-- An entry without digests. -/
def log (o : Origin) (subject event detail : Nat) (s : State) : State := logEntry o subject event detail [] [] false s

/-! ### DRAM (R406, R419 to R421) -/

/-- An address of the populated memory map (R406): the interleaved region and the site-local windows end at 56 GiB. -/
def populated (a : Nat) : Bool := a < 56 * 2 ^ 30

/-- Byte of device DRAM at an address: an unlisted address reads 0 (R405). -/
def readByte (m : List Host.Cell) (a : Nat) : Byte :=
  match m with
  | [] => 0
  | (k, v) :: r => if k = a then v else readByte r a

/-- Drop the entry of an address. -/
def dropCell (a : Nat) : List Host.Cell → List Host.Cell
  | [] => []
  | (k, v) :: r => if k = a then dropCell a r else (k, v) :: dropCell a r

/-- Insert a byte at its place in rising order. -/
def insertCell (a : Nat) (b : Byte) : List Host.Cell → List Host.Cell
  | [] => [(a, b)]
  | (k, v) :: r => if a < k then (a, b) :: (k, v) :: r else (k, v) :: insertCell a b r

/-- Write a byte: the value an unlisted address reads as removes the entry. -/
def writeByte (a : Nat) (b : Byte) (m : List Host.Cell) : List Host.Cell :=
  if b = 0 then dropCell a m else insertCell a b (dropCell a m)

/-- Addresses strictly rising from a bound, no entry 0. -/
def Memory.wfFrom : Option Nat → List Host.Cell → Bool
  | _, [] => true
  | lo, (k, v) :: r => lo.all (· < k) && v != 0 && Memory.wfFrom (some k) r

/-- The canonical form of memory: addresses strictly rising, and no entry equal to what an unlisted address reads as. -/
def Memory.wf (m : List Host.Cell) : Bool := Memory.wfFrom none m

/-- Read `n` bytes from an address. -/
def readBytes (m : List Host.Cell) (a : Nat) : Nat → Bytes
  | 0 => []
  | n + 1 => readByte m a :: readBytes m (a + 1) n

/-- Write bytes from an address on. -/
def writeBytes (a : Nat) : Bytes → List Host.Cell → List Host.Cell
  | [], m => m
  | b :: r, m => writeBytes (a + 1) r (writeByte a b m)

/-- The 64-byte lines that a byte extent touches. -/
def linesOf (a n : Nat) : List Nat := if n = 0 then [] else List.range' (a / 64) ((a + n - 1) / 64 + 1 - a / 64)

/-- The lines that a byte extent covers whole. -/
def wholeLines (a n : Nat) : List Nat := (linesOf a n).filter fun l => a ≤ 64 * l && 64 * l + 64 ≤ a + n

/-- A range that does not allow an access to a requester (R419). The controller, requester 8, is exempt. -/
def protectedFrom (s : State) (requester a n : Nat) (write : Bool) : Bool :=
  requester != 8 && s.dmc.ranges.any fun r =>
    r.base < a + n && a < r.base + r.size &&
      !(if write then r.writes.contains requester else r.reads.contains requester)

/-- Whether an extent can be used by a requester at all: inside the map and not protected from it. -/
def extentOk (s : State) (requester a n : Nat) (write : Bool) : Bool :=
  a + n ≤ 56 * 2 ^ 30 && !protectedFrom s requester a n write

/-- Write bytes to DRAM: whole lines lose their poison mark (R417). -/
def store (a : Nat) (b : Bytes) (s : State) : State :=
  { s with dmc := { s.dmc with mem := writeBytes a b s.dmc.mem
                               poison := s.dmc.poison.filter fun l => !(wholeLines a b.length).contains l } }

/-- A unit of the 9610 writes an area whose contents the model holds elsewhere: its lines lose their poison mark (R417). -/
def rewritten (a n : Nat) (s : State) : State :=
  { s with dmc := { s.dmc with poison := s.dmc.poison.filter fun l => !(wholeLines a n).contains l } }

/-- Read bytes from DRAM. -/
def load (s : State) (a n : Nat) : Bytes := readBytes s.dmc.mem a n

/-- A line of the extent carries a poison mark (R416). -/
def poisoned (s : State) (a n : Nat) : Bool := (linesOf a n).any s.dmc.poison.contains

/-- A buffer extent inside populated DRAM that meets no protected range (R103). -/
def bufferOk (s : State) (a n : Nat) : Bool :=
  a + n ≤ 56 * 2 ^ 30 && !s.dmc.ranges.any fun r => r.base < a + n && a < r.base + r.size

/-! ### Fences (R106, R673) -/

/-- Value of a fence. -/
def fenceValue (s : State) (n : Nat) : Nat := Tbl.get s.cmp.fences 0 n

/-- Advance a fence; fence 0 does not exist. -/
def advanceFence (n k : Nat) (s : State) : State :=
  if n = 0 then s
  else { s with cmp := { s.cmp with fences := Tbl.set n (wrapAdd 32 (fenceValue s n) k) s.cmp.fences } }

/-! ### Drawers (R455 to R462) -/

/-- Index of a drawer. -/
def drawerIx (p : Port) (n : Nat) : Nat := 32 * p.num + n

/-- Class of a drawer without a class record (R503). -/
def defaultClass (n : Nat) : Nat := if n < 5 then n + 1 else 6

/-- A drawer. -/
def drawerOf (s : State) (p : Port) (n : Nat) : Drawer := Tbl.get s.hif.drawers {} (drawerIx p n)

/-- Set a drawer. -/
def setDrawer (p : Port) (n : Nat) (d : Drawer) (s : State) : State :=
  { s with hif := { s.hif with drawers := Tbl.set (drawerIx p n) d s.hif.drawers } }

/-- A change of class waits for the drawer's next entry into IDLE (R503). -/
def takeClass (p : Port) (n : Nat) (s : State) : State :=
  match Tbl.find? (drawerIx p n) s.walec.classNext with
  | none => s
  | some c =>
    let d := drawerOf s p n
    setDrawer p n { d with cls := c, gen := (d.gen + 1) % 16 }
      { s with walec := { s.walec with classNext := Tbl.erase (drawerIx p n) s.walec.classNext } }

/-- Response header of a message (R456). -/
def responseHeader (status : Nat) (taken hwBit : Bool) (tagGen len : Nat) : Bytes :=
  leBytes 2 status ++ leBytes 1 (flagAt taken 0 + flagAt hwBit 1) ++ leBytes 1 0 ++ leBytes 2 tagGen ++ leBytes 2 len ++ leBytes 8 0

/-- The drawer enters RESPONSE with a message; an enabled drawer sends on its vector (R458, R484). -/
def respond (p : Port) (n status : Nat) (taken hwBit : Bool) (tagGen : Nat) (body : Bytes) (s : State) : State :=
  let d := drawerOf s p n
  let t := setDrawer p n { d with state := .response
                                  resp := responseHeader status taken hwBit tagGen body.length ++ body.take 1008 } s
  if d.intEn then message p d.vector t else t

/-! ### Queues (R463 to R472, R483) -/

/-- A queue context. -/
def queueOf (s : State) (q : Nat) : Queue := Tbl.get s.hif.queues {} q

/-- Set a queue context. -/
def setQueue (q : Nat) (c : Queue) (s : State) : State :=
  { s with hif := { s.hif with queues := Tbl.set q c s.hif.queues } }

/-- Completions written and not yet consumed (R483). -/
def unconsumed (c : Queue) : Nat := if c.cqSize = 0 then 0 else (c.cqTail + c.cqSize - c.cqHead) % c.cqSize

/-- Completion slots free for reservation (R470). -/
def slotsFree (c : Queue) : Nat := c.cqSize - 1 - unconsumed c - c.reserved

/-- The 64 bytes of a completion slot (R464). -/
def slotImage (body : Bytes) (sqSlot gen record : Nat) (phase : Bool) : Bytes :=
  padTo 48 body ++ leBytes 2 sqSlot ++ leBytes 1 (gen % 16) ++ leBytes 1 record ++ List.replicate 11 0 ++ leBytes 1 (flagAt phase 0)

/-- The queue that an engine serves next: of those with work the first one after the last served, by queue number and round again
(R359, R396). -/
def inTurn (last : Nat) (ready : List Nat) : Option Nat :=
  let least (l : List Nat) : Option Nat := l.foldl (fun m q => some (m.elim q (min q))) none
  (least (ready.filter (last < ·))).orElse fun _ => least ready

/-- A host's answer to a read over the port that owns a queue: none over a port whose link is down (R371, R394). -/
def hostAnswer (s : State) (q : Nat) (host : Option Bytes) : Option Bytes := if portOpen s (queueOf s q).port then host else none

/-- Release reserved slots that an entry does not use (R470). -/
def releaseSlots (q gen k : Nat) (s : State) : State :=
  let c := queueOf s q
  if gen = c.gen then setQueue q { c with reserved := c.reserved - k } s else s

/-! ### Power domains (R569 to R571, R584) -/

/-- State of a power domain. -/
def domainOf (s : State) (d : Nat) : DomainState := Tbl.get s.pwr.domains .off d

/-- A domain is on and ready. -/
def domainOn (s : State) (d : Nat) : Bool := domainOf s d == .ready

/-- Ask the sequencer to switch a domain (R571). -/
def requestDomain (on : Bool) (d : Nat) (s : State) : State :=
  { s with pwr := { s.pwr with queue := s.pwr.queue ++ [(on, d)] } }

/-- Ask for several domains in order. -/
def requestDomains (on : Bool) (ds : List Nat) (s : State) : State :=
  { s with pwr := { s.pwr with queue := s.pwr.queue ++ ds.map fun d => (on, d) } }

/-- A domain is on, or will be, once what the sequencer has been asked for is done. -/
def staysOn (s : State) (d : Nat) : Bool :=
  match (s.pwr.queue.filter (·.2 = d)).getLast? with
  | some q => q.1
  | none => domainOf s d != .off

/-- Core c. -/
def coreOf (s : State) (c : Nat) : DecCore := Tbl.get s.dec.cores {} c

/-- A core that may be powered: neither faulted nor waiting for its self-test nor retired (R331, R612, R613). -/
def coreSound (s : State) (c : Nat) : Bool :=
  (coreOf s c).state != .faulted && !s.spr.toTest.contains (16 + c) && !s.spr.retired.contains (16 + c)

/-- A core that is to be on: core 0 always, core 1 while a context is assigned to it or waits in MOVING for it (R20, R304,
R331). -/
def coreWanted (s : State) (c : Nat) : Bool :=
  coreSound s c && (c = 0 || s.dec.ctxs.any fun x => x.2.role ≠ 0 && (x.2.core = c || (x.2.state == .moving && !coreSound s (1 - c))))

/-! ### Sticky bits and ATTENTION (R674) -/

/-- Row and cluster defaults: Cn starts bound to row n (R120). -/
def rowDefault (r : Nat) : Row := { cluster := r }

/-- Whether block k shows a sticky status bit, W1C field by W1C field of its window (R674). -/
def sticky (s : State) : Nat → Bool
  | 0 => s.geom.dedSeen || s.ray.rows.any fun r => r.2.abortSeen || r.2.loweredSeen
  | 1 => s.out.limitSeen || s.out.poisonA || s.out.poisonB || s.out.satA || s.out.satB
  | 2 => s.tlk.links.any fun l => l.2.degradeSeen || l.2.crcErrSeen
  | 3 => (s.dec.ctxs.any fun c => c.2.pairMiss || c.2.sizeMismatch || c.2.watchdog || c.2.conceal || c.2.standin ||
            c.2.syntaxSeen || c.2.writeBlocked) || s.dec.cores.any fun c => c.2.faultSeen
  | 4 => s.enc.faultSeen || s.enc.forcedSeen || s.enc.skipSeen
  | 5 => s.blt.faultSeen || s.blt.poisonSeen || s.blt.errorSeen || s.blt.cancelSeen
  | 6 => s.dfl.faultSeen || s.dfl.poisonSeen || s.dfl.dataErrorSeen || s.dfl.storedSeen
  | 7 => s.dmc.ueSeen || s.dmc.ceSeen || s.dmc.cmdErrSeen || s.dmc.hotSeen || s.dmc.degradedSeen || s.dmc.errValid ||
           s.dmc.sites.any fun x => x.2.retrainFail || x.2.ueSeen || x.2.ceSeen
  | 8 => s.tim.modeChanged || s.tim.realignSeen || s.tim.holdoverSeen || s.tim.tb0GapSeen || s.eth.relayDropSeen ||
           s.eth.seqDiscardSeen || s.eth.gmChangeSeen || !s.tim.fired.isEmpty
  | 9 => s.clk.refA.miss || s.clk.refA.win || s.clk.refB.miss || s.clk.refB.win || s.clk.holdSeen || s.clk.holdExpired ||
           s.clk.failoverSeen || s.clk.lockLostSeen
  | 10 => s.pwr.supplySeen || s.pwr.clockSeen || s.pwr.watchdogSeen || s.pwr.warmSeen || s.pwr.alertSeen || s.pwr.shedSeen ||
            s.pwr.busErrSeen || s.pwr.alertValid
  | 11 => s.thm.sensorFailSeen || s.thm.recordSeen || (s.thm.sensors.any fun x => x.2.failSeen) ||
            s.thm.groups.any fun x => x.2.warnSeen || x.2.throttleSeen
  | 12 => s.spr.retireSeen || s.spr.spareUsedSeen || s.spr.outageSeen
  | 13 => s.sig.regions.any fun x => x.2.mismatchSeen || x.2.ineligibleSeen
  | 14 => s.cmp.status.any fun x => x.2.discarded
  | _ => false

/-- ATTENTION, bit k for block k (R488, R674). -/
def attentionOf (s : State) : Nat := ((List.range 15).map fun k => flagAt (sticky s k) k).sum

/-- A bit of `new` that is 0 in `old`. -/
def risen (old new : Nat) : Bool := (List.range 15).any fun k => bit new k && !bit old k

/-- ATTENTION follows the sticky bits on the same edge, and a bit that rises raises its cause on both ports (R485, R674). -/
def settle (s : State) : State :=
  let a := attentionOf s
  let t := { s with hif := { s.hif with attention := a } }
  if risen s.hif.attention a then raiseBoth 6 t else t

/-- The answer of a command whose effect is `s`. -/
def done (s : State) : Out := .next (settle s)

/-- An event whose condition does not hold is no event of the manual: nothing changes (log 10). -/
def ifEvent (c : Bool) (t s : State) : State := if c then t else s

end Sys2Proof.Machine
end

