-- ==== Sys2Proof/Machine/Dram.lean ====
section
/-! DEFINITION. The DRAM subsystem (13_dram.md): address map, error responses, refresh, retraining, self-refresh,
initialisation and live migration. -/

namespace Sys2Proof.Machine

/-! ### Address map (R406 to R408) -/

/-- Logical channel 0 to 31 and channel-local line of an address (R407). -/
def channelOf (a : Nat) : Nat × Nat :=
  if a < 54 * 2 ^ 30 then
    let l := a / 64
    (bits l 6 2 ^^^ bits l 11 7 ^^^ bits l 16 12 ^^^ bits l 21 17, l / 128 * 4 + l % 4)
  else
    let w := a - 54 * 2 ^ 30
    let mu := w % 2 ^ 28 / 64
    (4 * (w / 2 ^ 28) + bits mu 3 2, 28311552 + (mu / 16 * 4 + mu % 4))

/-- Parity of the set bits of a 40-bit value. -/
def parity40 (n : Nat) : Nat := ((List.range 40).map fun k => n / 2 ^ k % 2).sum % 2

/-- Row, bank and line slot of a channel-local line under the bank masks (R408). -/
def placeOf (masks : List Nat) (l : Nat) : Nat × Nat × Nat :=
  let n := l / 28
  let lc := n * 32 + l % 28
  let b := (List.range 4).map fun k => ((lc / 2 ^ (5 + k) % 2) ^^^ parity40 (lc &&& masks.getD k 0)) * 2 ^ k
  (n / 16, b.sum, l % 28)

/-- Site of DRAM. -/
def siteOf (s : State) (n : Nat) : Site := Tbl.get s.dmc.sites {} n

/-- Set a site. -/
def setSite (n : Nat) (x : Site) (s : State) : State := { s with dmc := { s.dmc with sites := Tbl.set n x s.dmc.sites } }

/-- Channel of DRAM, 4 times its site plus its number. -/
def dramChannel (s : State) (c : Nat) : DramChannel := Tbl.get s.dmc.channels {} c

/-- Set a channel. -/
def setChannel (c : Nat) (x : DramChannel) (s : State) : State :=
  { s with dmc := { s.dmc with channels := Tbl.set c x s.dmc.channels } }

/-- Physical channel that serves an address: the site map, and the target for a moved chunk (R404, R407, R435). -/
def physChannel (s : State) (a : Nat) : Nat :=
  let (c, l) := channelOf a
  let logical := c / 4
  let moving := s.dmc.migrateLogical == logical && (s.dmc.migrate == .copying || s.dmc.migrate == .paused || s.dmc.migrate == .stopped)
  let site := if moving && s.dmc.moved.contains (l / 4096) then s.dmc.migrateTo else s.dmc.siteMap.getD logical 0
  4 * site + c % 4

/-! ### Errors (R415 to R421, R433, R444) -/

/-- A site becomes degraded (R433). -/
def degradeSite (n : Nat) (s : State) : State :=
  let t := setSite n { siteOf s n with degraded := true } s
  { t with dmc := { t.dmc with degradedSeen := true } }

/-- DMC_ERR_LAST takes an event (R444). -/
def recordErr (a requester kind site channel : Nat) (s : State) : State :=
  { s with dmc := { s.dmc with errLast := fieldAt (a / 64 * 64) 40 24 + fieldAt requester 4 20 + fieldAt kind 4 16 +
                                          fieldAt site 4 12 + fieldAt channel 2 10, errValid := true } }

/-- Correctable errors of a read on a channel (R415). -/
def countCe (c k : Nat) (s : State) : State :=
  if k = 0 then s
  else
    let x := siteOf s (c / 4)
    let t := setSite (c / 4) { x with ceNow := satAdd 16 x.ceNow k, ceSeen := true } s
    { t with dmc := { t.dmc with ceSeen := true } }

/-- The copy stops: moved chunks stay on the target; FAULT# and an entry (R438), and the NOR record reads SPLIT (R622). -/
def migrationStop (s : State) : State :=
  log (hw 7) s.dmc.migrateLogical 0x71 (s.dmc.migrateFrom + 256 * s.dmc.migrateTo + 65536 * s.dmc.moved.length)
    (assertFault { s with dmc := { s.dmc with
      migrate := .stopped, norRecord := s.dmc.norRecord.map fun r => (r.1, r.2.1, r.2.2.1, 2) } })

/-- An uncorrectable read on a channel: counted, recorded, entered at once when it is the site's first of the second,
and the site becomes degraded (R416, R421, R433); one on the target stops a copy (R438). -/
def countUe (a requester c : Nat) (s : State) : State :=
  let t := recordErr a requester 1 (c / 4) (c % 4) s
  let x := siteOf t (c / 4)
  let t := setSite (c / 4) { x with ueCount := satAdd 16 x.ueCount 1, ueSeen := true, ueSecond := some (match x.ueSecond with | none => 0 | some k => k + 1) } t
  let t := { t with dmc := { t.dmc with ueSeen := true } }
  let t := if x.ueSecond.isNone then log (hw 7) (c / 4) 0x70 t.dmc.errLast t else t
  let t := degradeSite (c / 4) t
  if s.dmc.migrate == .copying && c / 4 == s.dmc.migrateTo then migrationStop t else t

/-- A command error of a requester (R420, R421). -/
def commandError (a requester kind : Nat) (s : State) : State :=
  let t := recordErr a requester kind 15 0 s
  let t := { t with dmc := { t.dmc with cmdErrSeen := true } }
  match Tbl.find? requester t.dmc.cmdSecond with
  | none => log (hw 7) (0x80 + requester) 0x70 t.dmc.errLast { t with dmc := { t.dmc with cmdSecond := Tbl.set requester 0 t.dmc.cmdSecond } }
  | some k => { t with dmc := { t.dmc with cmdSecond := Tbl.set requester (k + 1) t.dmc.cmdSecond } }

/-- Kind of command error of an access, none when it is allowed (R406, R419, R420). -/
def accessError (s : State) (requester a n : Nat) (write : Bool) : Option Nat :=
  if !populated a || !populated (a + n - 1) then some 3
  else if protectedFrom s requester a n write then some 4 else none

/-- Set the poison mark of a line (R414, R417, R418). -/
def mark (l : Nat) (s : State) : State :=
  { s with dmc := { s.dmc with poison := if s.dmc.poison.contains l then s.dmc.poison else l :: s.dmc.poison } }

/-- The parts of an extent by 64-byte line: address and length. -/
def linePieces (a n : Nat) : List (Nat × Nat) := (linesOf a n).map fun l => (max a (64 * l), min (a + n) (64 * l + 64) - max a (64 * l))

/-- A read within one line as the controller serves it: the data and whether the response is poisoned (R415, R416, R420). A marked
line counts as POISON_MARK whatever its check bits find uncorrectable; DMC_ERR_LAST records no correctable error (R444; log 93). -/
def readLine (requester a n : Nat) (e : Ecc) (s : State) : State × Bytes × Bool :=
  match accessError s requester a n false with
  | some k => (commandError a requester k s, List.replicate n 0, true)
  | none =>
    let c := physChannel s a
    let t := countCe c e.corrected s
    if poisoned s a n then (recordErr a requester 2 (c / 4) (c % 4) t, load s a n, true)
    else if e.uncorrectable then (countUe a requester c t, load s a n, true)
    else (t, load s a n, false)

/-- A read of an extent, line by line. -/
def readOp (requester a n : Nat) (es : List Ecc) (s : State) : State × Bytes × Bool :=
  (linePieces a n).zipIdx.foldl (fun t p =>
    let r := readLine requester p.1.1 p.1.2 (es.getD p.2 {}) t.1
    (r.1, t.2.1 ++ r.2.1, t.2.2 || r.2.2)) (s, [], false)

/-- Reads of marked lines by a unit of the 9610 are recorded (R416). -/
def noteMarks (requester : Nat) (lines : List Nat) (s : State) : State :=
  (lines.filter s.dmc.poison.contains).foldl (fun t l =>
    recordErr (64 * l) requester 2 (physChannel t (64 * l) / 4) (physChannel t (64 * l) % 4) t) s

/-- A unit reads an extent whose data the model takes at once: a command error, and each marked line, is recorded (R416, R420). -/
def noteRead (requester a n : Nat) (s : State) : State :=
  match accessError s requester a n false with
  | some k => commandError a requester k s
  | none => noteMarks requester (linesOf a n) s

/-- A write within one line as the controller carries it out: a part of a 64-bit word is a read-modify-write, whose uncorrectable
read sets the line's poison mark and counts (R412 to R417, R420). -/
def writeLine (requester a : Nat) (b : Bytes) (e : Ecc) (s : State) : State :=
  match accessError s requester a b.length true with
  | some k => commandError a requester k s
  | none =>
    let c := physChannel s a
    if a % 8 = 0 ∧ (a + b.length) % 8 = 0 then store a b s
    else
      let t := countCe c e.corrected (store a b s)
      if e.uncorrectable then countUe a requester c (mark (a / 64) t) else t

/-- Outstanding reads that a requester may hold (R410); the ray engine's are 320 for each configured row and 256 for the witness
(R133). -/
def readLimit (s : State) (requester : Nat) : Nat :=
  if requester = 1 then 320 * configRows s + 256 else [1024, 4096, 1024, 256, 512, 256, 640, 256, 128].getD requester 0

/-- Outstanding reads of a requester: a read that is served completes at once, one that waits for its channel is outstanding. -/
def outstanding (s : State) (requester : Nat) : Nat :=
  (s.dmc.held.filter fun h => h.requester = requester && h.data.isNone).length

/-- Length of the extent of a request. -/
def DramRequest.size (h : DramRequest) : Nat := h.data.elim h.len List.length

/-- The lines of a request. -/
def DramRequest.lines (h : DramRequest) : List Nat := linesOf h.addr h.size

/-- Whether a request to an address is served at once: the channel is not out of service (R428), and the controller runs, or the
channel's self-refresh entry command is still to come (R405, R431). -/
def serves (s : State) (a : Nat) : Bool :=
  let x := dramChannel s (physChannel s a)
  !x.retraining && (s.dmc.mode == .running || (s.dmc.mode == .entering && !x.asleep))

/-- Every line of a request is served at once. -/
def servesAll (s : State) (h : DramRequest) : Bool := h.lines.all fun l => serves s (64 * l)

/-- A request aborts the self-refresh entry of its channels (R431). -/
def abortEntry (h : DramRequest) (s : State) : State :=
  if s.dmc.mode == .entering then
    h.lines.foldl (fun t l => setChannel (physChannel t (64 * l)) { dramChannel t (physChannel t (64 * l)) with retryAt := some (tb0 s + 10000) } t) s
  else s

/-- A requester whose domain is off (R13, R441). -/
def requesterOff (s : State) (r : Nat) : Bool :=
  if r = 2 then !domainOn s 16 && !domainOn s 17 else 3 ≤ r && r ≤ 5 && !domainOn s (15 + r)

/-- Nothing is returned: a command error of a requester whose domain is off, or a port that no longer answers (R441, R448). -/
def unanswered (s : State) (h : DramRequest) : Bool :=
  (requesterOff s h.requester && (linePieces h.addr h.len).any fun p => (accessError s h.requester p.1 p.2 false).isSome) ||
    h.bar2.any fun p => !portOpen s p

/-- One more access under R454. -/
def countPoisoned (p : Port) (s : State) : State :=
  let h := portOf s p
  setPort p { h with bar2Poisoned := satAdd 16 h.bar2Poisoned 1, bar2Seen := true } s

/-- A request is carried out. A BAR2 read that returns poisoned counts for its port (R454). -/
def serveRequest (h : DramRequest) (s : State) : State :=
  match h.data with
  | some b => writeLine h.requester h.addr b (h.ecc.headD {}) (abortEntry h s)
  | none =>
    let r := readOp h.requester h.addr h.len h.ecc (abortEntry h s)
    let t := if unanswered s h then r.1 else send (.readReply h.requester h.addr r.2.1 r.2.2) r.1
    if r.2.2 then h.bar2.elim t fun p => countPoisoned p t else t

/-- A request reaches the controller: it is served, or waits for its channel; a FAILED controller serves none (R405), and a
requester at its limit issues no further read (R410). -/
def request (h : DramRequest) (s : State) : State :=
  if servesAll s h then serveRequest h s
  else if s.dmc.mode == .failed || (h.data.isNone && readLimit s h.requester ≤ outstanding s h.requester) then s
  else { s with dmc := { s.dmc with held := s.dmc.held ++ [h] } }

/-- The order in which requests that waited are served: RT_OUT before RT_RAY before every other (R411), each class in order of
arrival, and none before an earlier write to one of its lines (R412, R413). -/
def serviceOrder (go : List DramRequest) : List DramRequest :=
  let all := go.zipIdx
  let cls (k : Nat) : List (DramRequest × Nat) := all.filter fun h => min h.1.requester 2 = k
  ((cls 0 ++ cls 1 ++ cls 2).foldl (fun out h =>
    let first := (all.take h.2).filter fun w => w.1.data.isSome && w.1.lines.any h.1.lines.contains
    out ++ (first ++ [h]).filter fun w => !out.contains w) []).map (·.1)

/-- The requests whose channels serve again. -/
def releaseHeld (s : State) : State :=
  (serviceOrder (s.dmc.held.filter (servesAll s))).foldl (fun t h => serveRequest h t)
    { s with dmc := { s.dmc with held := s.dmc.held.filter fun h => !servesAll s h } }

/-- A unit of the 9610 writes an extent through the controller, line by line. -/
def memWrite (requester a : Nat) (b : Bytes) (s : State) : State :=
  (linePieces a b.length).foldl (fun t p => request { requester, addr := p.1, data := some ((b.drop (p.1 - a)).take p.2) } t) s

/-- DRAM_READ (R416). -/
def execDramRead (requester addr len : Nat) (ecc : Ecc) (s : State) : Out := done (request { requester, addr, len, ecc := [ecc] } s)

/-- DRAM_WRITE (R412). -/
def execDramWrite (requester addr : Nat) (data : Bytes) (ecc : Ecc) (s : State) : Out :=
  done (request { requester, addr, data := some data, ecc := [ecc] } s)

/-- PATROL_SCRUB: the controller reads a line; an uncorrectable word sets its poison mark (R418). -/
def execPatrolScrub (line : Nat) (ecc : Ecc) (s : State) : Out :=
  let t := (readLine 8 (64 * line) 64 ecc s).1
  let t := if ecc.uncorrectable then mark line t else t
  done (ifEvent (s.dmc.mode == .running && serves s (64 * line) && populated (64 * line))
    { t with dmc := { t.dmc with scrubLine := line + 1 } } s)

/-- CE_HOUR_EVAL: the hour's count is taken and compared with CE_LIMIT (R433). -/
def execCeHourEval (s : State) : Out :=
  done ((List.range 9).foldl (fun t n =>
    let x := siteOf t n
    let t := setSite n { x with ceHour := x.ceNow, ceNow := 0 } t
    if s.dmc.ceLimit ≤ x.ceNow then degradeSite n t else t) s)

/-- DRAM_ERROR_SUMMARY: one summary entry for each site and requester with later events in the second (R421). -/
def execDramErrorSummary (s : State) : Out :=
  let t := (List.range 9).foldl (fun t n =>
    let x := siteOf t n
    match x.ueSecond with
    | none => t
    | some k =>
      let t := setSite n { x with ueSecond := none } t
      if k = 0 then t else logEntry (hw 7) n 0x70 (k % 2 ^ 32) [] [] true t) s
  let t := (List.range 9).foldl (fun t r =>
    match Tbl.find? r t.dmc.cmdSecond with
    | none => t
    | some k => if k = 0 then t else logEntry (hw 7) (0x80 + r) 0x70 (k % 2 ^ 32) [] [] true t) t
  done { t with dmc := { t.dmc with cmdSecond := [] } }

/-! ### Refresh (R422 to R426) -/

/-- Postponement limit of a channel (R425). -/
def debtLimit (x : DramChannel) : Nat := if x.hot then 4 else 8

/-- A channel at its interval tick: a change of its site's temperature takes effect and recounts the debt (R423, R426;
log 16), otherwise one more REFpb is owed (R422). -/
def DramChannel.tick (hot : Bool) (x : DramChannel) : DramChannel :=
  if hot && !x.hot then { x with hot := true, debt := 2 * x.debt }
  else if !hot && x.hot then { x with hot := false, debt := (x.debt + 1) / 2 }
  else { x with debt := x.debt + 1 }

/-- REFRESH_TICK (R422). A channel in self-refresh refreshes itself (R441), and no refresh decision comes before MR4 and the
sensors are read after an exit (R432). -/
def execRefreshTick (channel : Nat) (s : State) : Out :=
  let x := dramChannel s channel
  done (ifEvent (!x.asleep && !s.dmc.mr4Due && (s.dmc.mode == .running || s.dmc.mode == .entering))
    (setChannel channel (x.tick (siteOf s (channel / 4)).hot) s) s)

/-- REFRESH_ISSUE: a REFpb when no read is pending to the pair, or when the debt exceeds the limit (R425). -/
def execRefreshIssue (channel : Nat) (pairIdle : Bool) (s : State) : Out :=
  let x := dramChannel s channel
  done (ifEvent (!x.asleep && !s.dmc.mr4Due && 0 < x.debt && (pairIdle || debtLimit x < x.debt))
    (send (.dramCmd (channel / 4) (channel % 4) 1) (setChannel channel { x with debt := x.debt - 1 } s)) s)

/-! ### Retraining (R427 to R429) -/

/-- Mark the channels whose drift exceeds their margin: the tracking slot (R427). -/
def trackingSlot (drifted : List Nat) (s : State) : State :=
  drifted.foldl (fun t c => setChannel c { dramChannel t c with marked := true } t) s

/-- The marked channel of a site that has been in service longest without a retraining (R428). -/
def longestMarked (s : State) (site : Nat) : Option Nat :=
  ((List.range 4).filter fun k => (dramChannel s (4 * site + k)).marked && !(dramChannel s (4 * site + k)).retraining).foldl
    (fun best k => match best with
      | none => some k
      | some b => if (dramChannel s (4 * site + k)).lastTrained < (dramChannel s (4 * site + b)).lastTrained then some k else some b) none

/-- A channel's whole refresh debt is served (R428, R430). -/
def serveDebt (c : Nat) (s : State) : State :=
  let x := dramChannel s c
  sendAll (List.replicate x.debt (.dramCmd (c / 4) (c % 4) 1)) (setChannel c { x with debt := 0 } s)

/-- The retraining steps of a window: at most one channel per site, its debt served and taken out of service (R428). -/
def retrainSteps (s : State) : State :=
  (List.range 9).foldl (fun t n =>
    match longestMarked t n with
    | none => t
    | some k => let u := serveDebt (4 * n + k) t; setChannel (4 * n + k) { dramChannel u (4 * n + k) with retraining := true } u) s

/-- RETRAIN_COMPLETE: the settings are taken, or kept and retried; a second failure in succession fails the channel and
degrades its site, and stops a copy to it (R429, R433, R438). The requests that waited for the channel are served (R428). -/
def execRetrainComplete (channel : Nat) (ok : Bool) (s : State) : Out :=
  let x := dramChannel s channel
  let n := channel / 4
  let t :=
    if ok then setChannel channel { x with retraining := false, marked := false, failedOnce := false, lastTrained := tb0 s } s
    else if !x.failedOnce then setChannel channel { x with retraining := false, marked := true, failedOnce := true } s
    else
      let y := siteOf s n
      let t := setChannel channel { x with retraining := false, marked := true } s
      let t := setSite n { y with retrainFail := true, chFail := if y.chFail.contains (channel % 4) then y.chFail else channel % 4 :: y.chFail } t
      let t := degradeSite n t
      if s.dmc.migrate == .copying && n == s.dmc.migrateTo then migrationStop t else t
  done (ifEvent x.retraining (releaseHeld t) s)

/-! ### Self-refresh (R430 to R432) -/

/-- Every channel of the nine sites. -/
def allChannels : List Nat := List.range 36

/-- A channel's debt is served and its entry command issued (R430). -/
def sleepChannel (c : Nat) (s : State) : State :=
  let t := serveDebt c s
  send (.dramCmd (c / 4) (c % 4) 2) (setChannel c { dramChannel t c with asleep := true, retryAt := none } t)

/-- STATE follows the channels: self-refresh once every entry command is issued (R430). A running copy pauses (R441). -/
def settleEntry (s : State) : State :=
  if allChannels.all fun c => (dramChannel s c).asleep then
    { s with dmc := { s.dmc with mode := .selfRefresh, migrate := if s.dmc.migrate == .copying then .paused else s.dmc.migrate } }
  else s

/-- The controller begins to enter self-refresh; the entry commands follow (R430). -/
def beginSelfRefresh (s : State) : State := if s.dmc.mode == .running then { s with dmc := { s.dmc with mode := .entering } } else s

/-- Retraining in progress ends with the settings kept, and what waited for it is served: every accepted write is issued before an
entry (R430; log 93). -/
def endRetraining (s : State) : State :=
  releaseHeld (allChannels.foldl (fun t c => if (dramChannel t c).retraining then setChannel c { dramChannel t c with retraining := false } t else t) s)

/-- The entry of R430, with the channels that a request reaches before their entry command (R431). -/
def enterSelfRefresh (busy : List Nat) (s : State) : State :=
  let t := endRetraining { s with dmc := { s.dmc with mode := .entering } }
  settleEntry (allChannels.foldl (fun t c =>
    if busy.contains c then setChannel c { dramChannel t c with retryAt := some (tb0 s + 10000) } t else sleepChannel c t) t)

/-- A reset, a power-down or an expired hold puts the sites in self-refresh, whatever the controller was doing (R430). -/
def holdSites (s : State) : State :=
  match s.dmc.mode with
  | .running | .entering => enterSelfRefresh [] s
  | .exiting => { s with dmc := { s.dmc with mode := .selfRefresh } }
  | _ => s

/-- SELF_REFRESH_ENTRY (R430): Bench, a warm reset, a planned power-down or an expired hold has asked for it. -/
def execSelfRefreshEntry (busy : List Nat) (s : State) : Out :=
  done (ifEvent (s.dmc.mode == .entering) (enterSelfRefresh busy s) s)

/-- SELF_REFRESH_RETRY: 10 µs without requests have passed (R431). -/
def execSelfRefreshRetry (channel : Nat) (s : State) : Out :=
  match (dramChannel s channel).retryAt with
  | none => done s
  | some t => done (ifEvent (s.dmc.mode == .entering) (settleEntry (sleepChannel channel (advanceTo0 t s))) s)

/-- Every channel exits and is retrained (R432); a paused copy resumes (R441); the requests that waited are served (R431). -/
def exitSelfRefresh (s : State) : State :=
  let t := allChannels.foldl (fun t c =>
    send (.dramCmd (c / 4) (c % 4) 3)
      (setChannel c { dramChannel t c with asleep := false, retryAt := none, marked := false, failedOnce := false, lastTrained := tb0 s } t)) s
  releaseHeld { t with dmc := { t.dmc with
    mode := .running, mr4Due := true, migrate := if t.dmc.migrate == .paused then .copying else t.dmc.migrate } }

/-- A copy to the spare site runs, waits or has stopped half way: both sites are in use (R434 to R438). -/
def copyOpen (s : State) : Bool := match s.dmc.migrate with
  | .preparing | .copying | .paused | .stopped => true
  | _ => false

/-- The domains of the sites in use (R20, R436). -/
def siteDomains (s : State) : List Nat :=
  (List.range' 21 9).filter fun d => s.dmc.siteMap.contains (d - 21) || (copyOpen s && (d = 21 + s.dmc.migrateTo || d = 21 + s.dmc.migrateFrom))

/-- The exit goes on once the PHY domains are on (R432). -/
def settleExit (s : State) : State := if s.dmc.mode == .exiting && (siteDomains s).all (domainOn s) then exitSelfRefresh s else s

/-- SELF_REFRESH_EXIT (R432): once neither Bench nor a power-down needs the self-refresh; a request never causes it (R431). The
controller powers the PHY domains and goes on when they are on. -/
def execSelfRefreshExit (s : State) : Out :=
  done (ifEvent (s.dmc.mode == .selfRefresh && (s.tim.bench == .off || s.tim.bench == .leaving) && !s.hif.powerDown)
    (settleExit (requestDomains true ((siteDomains s).filter fun d => !domainOn s d) { s with dmc := { s.dmc with mode := .exiting } })) s)

/-! ### Initialisation (R402 to R405, R440, R622) -/

/-- The site map, the spare and the copy after initialisation, from the NOR record and the sites that work (R404, R440,
R622). -/
def mapSites (good : List Nat) (d : DmcState) : DmcState :=
  let base : DmcState := { d with siteMap := [0, 1, 2, 3, 4, 5, 6, 7], spareSite := 8, migrate := .idle, moved := [],
                                  migrateFrom := 15, migrateTo := 15, migrateLogical := 0 }
  match d.norRecord with
  | some (l, src, dst, 0) =>
    if good.contains src then
      { base with siteMap := base.siteMap.set l src, spareSite := dst, migrate := .preparing, migrateFrom := src, migrateTo := dst,
                  migrateLogical := l, restarts := satAdd 5 d.restarts 1 }
    else { base with siteMap := base.siteMap.set l dst, spareSite := 15, norRecord := some (l, src, dst, 1),
                     restarts := satAdd 5 d.restarts 1 }
  | some (l, src, dst, 1) => { base with siteMap := (base.siteMap.set l dst), spareSite := if src = dst then 8 else 15 }
  | some (l, src, _, _) => { base with siteMap := base.siteMap.set l src, spareSite := 15 }
  | none =>
    match base.siteMap.find? fun n => !good.contains n with
    | some n => if good.contains 8 then { base with siteMap := base.siteMap.set n 8, spareSite := 15 } else base
    | none => base

/-- State of a site after initialisation (R405, R443, R622). -/
def initState (d : DmcState) (answered good : List Nat) (n : Nat) : SiteState :=
  if !answered.contains n then .off
  else if !good.contains n then .failed
  else if d.migrate == .preparing && n == d.migrateFrom then .source
  else if d.migrate == .preparing && n == d.migrateTo then .target
  else if d.siteMap.contains n then .active
  else if n = d.spareSite then .spare
  else match d.norRecord with
    | some (_, _, dst, 2) => if n = dst then .failed else .off
    | some (_, src, _, 1) => if n = src then .retired else .off
    | _ => .off

/-- The controller after initialisation: sites checked, zeros with valid check bits everywhere, RUNNING; or FAILED with
DRAM_FAIL when eight sites cannot be brought up (R405). The record chooses the data rate of 24 or 48 tiles only (R403); the spare is
none when no site works as one (R402). -/
def initDmc (answered good : List Nat) (rows : Nat) (install : Option InstallRecord) (d0 : DmcState) : DmcState :=
  let d := mapSites good d0
  let d := { d with
    mem := [], poison := [], channels := []
    sites := (List.range 9).map fun n => (n, { Tbl.get d0.sites {} n with state := initState d answered good n, populated := answered.contains n })
    spareAbsent := !answered.contains 8, spareSite := if good.contains d.spareSite then d.spareSite else 15
    rate := match install with | some r => if rows ≤ 6 && r.rate = 1 then 1 else 0 | none => 0
    masks := match install.bind (·.masks) with | some m => m.map (· &&& 0x1FFFE1F) | none => [0x222200, 0x444400, 0x888800, 0x1111000] }
  if d.siteMap.all good.contains then { d with mode := .running } else { d with mode := .failed, dramFail := true, held := [] }

/-- The domains of the sites in use are on once they are trained (R20, R405). -/
def siteDomainsOn (s : State) : State :=
  let on := s.dmc.siteMap ++ if s.dmc.migrate == .preparing then [s.dmc.migrateFrom, s.dmc.migrateTo] else []
  { s with pwr := { s.pwr with domains := on.foldl (fun m n => Tbl.set (21 + n) .ready m) s.pwr.domains }
           clk := { s.clk with locks := s.clk.locks ++ on.filter fun n => !s.clk.locks.contains n } }

/-- DRAM_INIT (R405): after a cold reset, once PORST# is released. -/
def execDramInit (answered good : List Nat) (s : State) : Out :=
  let t := { s with dmc := initDmc answered good (configRows s) s.bot.install s.dmc }
  done (ifEvent (s.dmc.mode == .init && !s.pwr.porst) (if t.dmc.dramFail then assertFault t else releaseHeld (siteDomainsOn t)) s)

/-! ### Migration (R434 to R438) -/

/-- The next chunk to copy: the lowest whose bit is clear (R435). -/
def nextChunk (moved : List Nat) : Nat := ((List.range 7168).find? fun k => !moved.contains k).getD 7168

/-- The copy is complete: the site map names the target, the source is retired and its domain goes off (R436). -/
def migrationComplete (s : State) : State :=
  let d := s.dmc
  let t := setSite d.migrateTo { siteOf s d.migrateTo with state := .active } (setSite d.migrateFrom { siteOf s d.migrateFrom with state := .retired } s)
  let t := { t with dmc := { t.dmc with siteMap := d.siteMap.set d.migrateLogical d.migrateTo, spareSite := 15, migrate := .done,
                                        norRecord := some (d.migrateLogical, d.migrateFrom, d.migrateTo, 1) } }
  log (hw 7) d.migrateLogical 0x71 (d.migrateFrom + 256 * d.migrateTo + 65536 * 7168) (requestDomain false (21 + d.migrateFrom) t)

/-- A line belongs to the chunk that the copy moves (R435). -/
def inChunk (s : State) (l : Nat) : Bool :=
  let c := channelOf (64 * l)
  c.1 / 4 == s.dmc.migrateLogical && c.2 / 4096 == nextChunk s.dmc.moved

/-- A chunk is moved: errors that its reads find count on the source, and lines that read uncorrectable or marked carry their poison
mark (R415 to R417, R435, R437). -/
def moveChunk (reads : List (Nat × Ecc)) (s : State) : State :=
  let t := noteMarks 8 (s.dmc.poison.filter (inChunk s)) s
  let t := (reads.filter fun e => inChunk s e.1).foldl (fun t e =>
    let c := physChannel s (64 * e.1)
    let t := countCe c e.2.corrected t
    if e.2.uncorrectable && !s.dmc.poison.contains e.1 then mark e.1 (countUe (64 * e.1) 8 c t) else t) t
  { t with dmc := { t.dmc with moved := s.dmc.moved ++ [nextChunk s.dmc.moved] } }

/-- MIGRATION_CHUNK (R435). An uncorrectable read on the target counts there and stops the copy (R433, R438). -/
def execMigrationChunk (reads : List (Nat × Ecc)) (targetBad : Option Nat) (s : State) : Out :=
  let t := moveChunk reads s
  done (ifEvent (s.dmc.migrate == .copying && s.dmc.mode == .running && s.dmc.moved.length < 7168)
    (match targetBad with
     | some l => countUe (64 * l) 8 (4 * s.dmc.migrateTo + (channelOf (64 * l)).1 % 4) s
     | none => releaseHeld (if t.dmc.moved.length = 7168 then migrationComplete t else t)) s)

/-! ### Ring writes (R464, R467, R471, R483) -/

/-- Write to a ring, in host memory or as requester 6 in device DRAM (R410, R463). -/
def ringPut (c : Queue) (a : Nat) (b : Bytes) (s : State) : State :=
  if c.hostRing then hostSend c.port a b s else memWrite 6 a b s

/-- Write 64 bytes of a slot to the ring, in two posted writes (R467). -/
def ringWrite (c : Queue) (a : Nat) (b : Bytes) (s : State) : State := ringPut c (a + 56) (b.drop 56) (ringPut c a (b.take 56) s)

/-- The completion of an entry: none for a deleted queue, discarded when its stamp is stale (R471), otherwise written to the next slot, with the
message that coalescing gives (R464, R483). `keep` slots stay reserved for the entry. -/
def complete (q sqSlot gen record : Nat) (body : Bytes) (release : Nat) (s : State) : State :=
  let c := queueOf s q
  if c.state == .off then s
  else if gen ≠ c.gen then
    let h := portOf s c.port
    setPort c.port { h with lateSeen := true } (setQueue q { c with lateCpl := satAdd 8 c.lateCpl 1 } s)
  else
    let wrapped := c.cqTail + 1 = c.cqSize
    let c' := { c with cqTail := if wrapped then 0 else c.cqTail + 1, phase := if wrapped then !c.phase else c.phase,
                       reserved := c.reserved - release, count := (c.count + 1) % 65536,
                       since := c.since ++ [tb0 s] }
    let t := ringWrite c (c.cqAddr + 64 * c.cqTail)
               (slotImage body (if c.kind = 5 then c.count else sqSlot) gen record c.phase) s
    if max c.coalCount 1 ≤ unconsumed c' then message c.port c.vector (setQueue q { c' with since := [] } t)
    else setQueue q c' t

/-- The completion of an entry is written, not dropped with its queue or its stamp (R378, R400, R471). -/
def completes (s : State) (q gen : Nat) : Bool := (queueOf s q).state != .off && gen = (queueOf s q).gen

/-! ### The deflate engine's internal queue (R383, R396, R401) -/

/-- A job of Walec on the deflate engine: maps, the ledger and the archive (R232, R251, R513). It is carried out within the command
that needs it, before any job of a bound queue, and counts as one; while PD20 is off or Bench lasts, no job starts and Walec does
without the engine (R397; log 92). -/
def internalJob (source made : Nat) (s : State) : State :=
  if domainOn s 20 && s.tim.bench == .off then
    { s with dfl := { s.dfl with jobs := wrapAdd 32 s.dfl.jobs 1, inBytes := s.dfl.inBytes + source, outBytes := s.dfl.outBytes + made } }
  else s

end Sys2Proof.Machine
end

