-- ==== Sys2Proof/Machine/Inflate.lean ====
section
/-! DEFINITION. The stream formats of the deflate engine (12_deflate_engine.md R379, R380, R384 to R395): RFC 1951 blocks,
RFC 1950 and RFC 1952 framing, decoded from the first source byte of the stream up to an output limit. -/

namespace Sys2Proof.Machine

/-! ### Bits (RFC 1951: least significant bit first) -/

/-- The bits of bytes, least significant first. -/
def bitsOf : Bytes → List Bool
  | [] => []
  | b :: r => (List.range 8).map (fun k => b.getLsbD k) ++ bitsOf r

/-- A place in the stream: the bits still unread and the number of bits read. -/
structure Cur where
  rest : List Bool
  pos : Nat
  deriving DecidableEq, Repr, Inhabited

/-- What a reading step gives: a value, more source needed, or an error code of R394 with ERR_BIT and the bits read. -/
inductive Got (α : Type) where
  | ok (v : α) (c : Cur)
  | need
  | bad (code bit used : Nat)
  deriving Repr

/-- Go on with the value of a step. -/
def Got.bind {α β : Type} (g : Got α) (f : α → Cur → Got β) : Got β :=
  match g with
  | .ok v c => f v c
  | .need => .need
  | .bad code b u => .bad code b u

/-- Read `n` bits as a number, least significant first. -/
def readBits : Nat → Cur → Got Nat
  | 0, c => .ok 0 c
  | n + 1, c => match c.rest with
    | [] => .need
    | b :: r => match readBits n { rest := r, pos := c.pos + 1 } with
      | .ok v d => .ok ((if b then 1 else 0) + 2 * v) d
      | .need => .need
      | .bad code k u => .bad code k u

/-- Skip to the next byte boundary. -/
def alignByte (c : Cur) : Cur :=
  let k := (8 - c.pos % 8) % 8
  { rest := c.rest.drop k, pos := c.pos + k }

/-! ### Huffman codes -/

/-- A code as its lengths by symbol. -/
abbrev Code := List Nat

/-- Symbols of a length, in order. -/
def symbolsAt (h : Code) (n : Nat) : List Nat := (h.zipIdx.filter (·.1 = n)).map (·.2)

/-- Places left by the lengths, in units of 2^-15: 0 complete, negative over-subscribed. -/
def codeLeft (h : Code) : Int := (2 ^ 15 : Int) - (((h.filter (· ≠ 0)).map fun n => 2 ^ (15 - n)).sum : Nat)

/-- A distance code is complete, empty, or a single code of one bit; every other code is complete (RFC 1951, R394). -/
def codeOk (distance : Bool) (h : Code) : Bool :=
  codeLeft h = 0 || (distance && ((h.filter (· ≠ 0)) = [] || (h.filter (· ≠ 0)) = [1]))

/-- Decode one symbol: the code read so far, the first code and the length are carried along. -/
def decodeFrom (h : Code) (start : Nat) : Nat → Nat → Nat → Nat → Cur → Got Nat
  | 0, _, _, _, c => .bad 16 start c.pos
  | fuel + 1, len, code, first, c => match c.rest with
    | [] => .need
    | b :: r =>
      let code := code + (if b then 1 else 0)
      let ss := symbolsAt h len
      let d : Cur := { rest := r, pos := c.pos + 1 }
      if first ≤ code && code - first < ss.length then .ok (ss.getD (code - first) 0) d
      else decodeFrom h start fuel (len + 1) (2 * code) (2 * (first + ss.length)) d

/-- Decode one symbol of a code of at most 15 bits. -/
def decodeSym (h : Code) (c : Cur) : Got Nat := decodeFrom h c.pos 15 1 0 0 c

/-- The fixed literal/length code. -/
def fixedLit : Code := List.replicate 144 8 ++ List.replicate 112 9 ++ List.replicate 24 7 ++ List.replicate 8 8

/-- The fixed distance code. -/
def fixedDist : Code := List.replicate 32 5

/-- Base length and extra bits of a length symbol. -/
def lengthBase (s : Nat) : Nat × Nat :=
  if s < 265 then (s - 254, 0)
  else if s = 285 then (258, 0)
  else
    let e := (s - 261) / 4
    (3 + 2 ^ (e + 2) + (s - 265) % 4 * 2 ^ e, e)

/-- Base distance and extra bits of a distance symbol. -/
def distBase (s : Nat) : Nat × Nat := if s < 4 then (s + 1, 0) else (1 + (2 + s % 2) * 2 ^ (s / 2 - 1), s / 2 - 1)

/-- Order of the code-length code lengths. -/
def lengthOrder : List Nat := [16, 17, 18, 0, 8, 7, 9, 6, 10, 5, 11, 4, 12, 3, 13, 2, 14, 1, 15]

/-- Read `n` numbers of 3 bits. -/
def read3s : Nat → Cur → Got (List Nat)
  | 0, c => .ok [] c
  | n + 1, c => (readBits 3 c).bind fun v d => (read3s n d).bind fun vs e => .ok (v :: vs) e

/-- The code lengths of the two codes, `want` in all; lengths so far in reverse (R394 codes 16 and 18). -/
def readLengths (h : Code) (want : Nat) : Nat → List Nat → Cur → Got (List Nat)
  | 0, _, _ => .need
  | fuel + 1, acc, c =>
    if want ≤ acc.length then .ok acc.reverse c
    else
      (decodeSym h c).bind fun s d =>
        if s < 16 then readLengths h want fuel (s :: acc) d
        else
          let w := if s = 16 then (2, 3) else if s = 17 then (3, 3) else (7, 11)
          if s = 16 ∧ acc = [] then .bad 16 c.pos d.pos
          else (readBits w.1 d).bind fun k e =>
            let v := if s = 16 then acc.headD 0 else 0
            if want < acc.length + w.2 + k then .bad 18 c.pos e.pos
            else readLengths h want fuel (List.replicate (w.2 + k) v ++ acc) e

/-- The codes of a dynamic block (R394 code 16). -/
def readCodes (c : Cur) : Got (Code × Code) :=
  (readBits 5 c).bind fun hlit c1 =>
  if 286 < hlit + 257 then .bad 16 c.pos c1.pos
  else (readBits 5 c1).bind fun hdist c2 =>
  if 30 < hdist + 1 then .bad 16 c1.pos c2.pos
  else (readBits 4 c2).bind fun hclen c3 =>
  (read3s (hclen + 4) c3).bind fun ls c4 =>
  let cl : Code := (List.range 19).map fun s => ((lengthOrder.take (hclen + 4)).zip ls).lookup s |>.getD 0
  if !codeOk false cl then .bad 16 c3.pos c4.pos
  else (readLengths cl (hlit + hdist + 258) (hlit + hdist + 259) [] c4).bind fun all c5 =>
    let lit := all.take (hlit + 257)
    let dist := all.drop (hlit + 257)
    if !codeOk false lit || !codeOk true dist then .bad 16 c4.pos c5.pos else .ok (lit, dist) c5

/-! ### The stream -/

/-- What the stream is doing. -/
inductive Phase where
  | block
  | stored (left : Nat) (final : Bool)
  | codes (lit dist : Code) (final : Bool)
  | copying (left dist : Nat) (lit distc : Code) (final : Bool)
  | trailer
  deriving Repr

/-- How a run over the source stops. -/
inductive Stop where
  | need | full | ended
  | bad (code bit : Nat)
  deriving DecidableEq, Repr

/-- A run over the source: how it stopped, bits read, output in reverse. -/
structure Run where
  stop : Stop
  pos : Nat
  out : List Byte
  deriving DecidableEq, Repr

/-- Adler-32 of RFC 1950 (R393). -/
def adler32 (b : Bytes) : Nat :=
  let r := b.foldl adlerStep (1, 0)
  r.1 + 65536 * r.2

/-- Check value of the uncompressed stream: Adler-32 for ZLIB, CRC-32 for RAW and GZIP (R393). -/
def checkOf (framing : Nat) (b : Bytes) : Nat := if framing = 1 then adler32 b else crc32 b

/-- The trailer of a framing at a byte boundary (R379, R394 code 22). -/
def runTrailer (framing : Nat) (out : List Byte) (c : Cur) : Run :=
  let c := alignByte c
  let data := out.reverse
  if framing = 0 then { stop := .ended, pos := c.pos, out }
  else if framing = 1 then
    match readBits 32 c with
    | .ok v d =>
      let be := v % 256 * 16777216 + v / 256 % 256 * 65536 + v / 65536 % 256 * 256 + v / 16777216
      { stop := if be = adler32 data then .ended else .bad 22 c.pos, pos := d.pos, out }
    | _ => { stop := .need, pos := c.pos + c.rest.length, out }
  else match readBits 32 c with
    | .ok v d =>
      if v ≠ crc32 data then { stop := .bad 22 c.pos, pos := d.pos, out }
      else match readBits 32 d with
        | .ok w e => { stop := if w = data.length % 2 ^ 32 then .ended else .bad 22 d.pos, pos := e.pos, out }
        | _ => { stop := .need, pos := d.pos + d.rest.length, out }
    | _ => { stop := .need, pos := c.pos + c.rest.length, out }

/-- A block's header (R394 codes 16, 19, 20). -/
def readBlock (c : Cur) : Got Phase :=
  (readBits 1 c).bind fun final c1 =>
  (readBits 2 c1).bind fun ty c2 =>
  if ty = 0 then
    let c3 := alignByte c2
    (readBits 16 c3).bind fun len c4 => (readBits 16 c4).bind fun nlen c5 =>
    if len + nlen ≠ 65535 then .bad 20 c3.pos c5.pos else .ok (.stored len (final = 1)) c5
  else if ty = 1 then .ok (.codes fixedLit fixedDist (final = 1)) c2
  else if ty = 2 then (readCodes c2).bind fun h d => .ok (.codes h.1 h.2 (final = 1)) d
  else .bad 19 c1.pos c2.pos

/-- A length and distance after a length symbol (R394 codes 16 and 17). -/
def readMatch (dist : Code) (made s : Nat) (c : Cur) : Got (Nat × Nat) :=
  (readBits (lengthBase s).2 c).bind fun x c1 =>
  (decodeSym dist c1).bind fun ds c2 =>
  if 30 ≤ ds then .bad 16 c1.pos c2.pos
  else (readBits (distBase ds).2 c2).bind fun y c3 =>
    let d := (distBase ds).1 + y
    if made < d then .bad 17 c1.pos c3.pos else .ok ((lengthBase s).1 + x, d) c3

/-- The phase after a block. -/
def afterBlock (final : Bool) : Phase := if final then .trailer else .block

/-- A step that needs more source stops with every source bit taken (R391). -/
def needMore (c : Cur) (out : List Byte) : Run := { stop := .need, pos := c.pos + c.rest.length, out }

/-- Run the stream: `n` bytes are out, at most `limit` in all. A byte that finds the output full is not taken from the source
(R390). -/
def runStream (framing limit : Nat) : Nat → Phase → Nat → List Byte → Cur → Run
  | 0, _, _, out, c => needMore c out
  | fuel + 1, ph, n, out, c =>
    match ph with
    | .trailer => runTrailer framing out c
    | .block => match readBlock c with
      | .ok p d => runStream framing limit fuel p n out d
      | .need => needMore c out
      | .bad code k u => { stop := .bad code k, pos := u, out }
    | .stored left final =>
      if left = 0 then runStream framing limit fuel (afterBlock final) n out c
      else if limit ≤ n then { stop := .full, pos := c.pos, out }
      else match readBits 8 c with
        | .ok v d => runStream framing limit fuel (.stored (left - 1) final) (n + 1) (BitVec.ofNat 8 v :: out) d
        | _ => needMore c out
    | .codes lit dist final => match decodeSym lit c with
      | .need => needMore c out
      | .bad code k u => { stop := .bad code k, pos := u, out }
      | .ok s d =>
        if s < 256 then
          (if limit ≤ n then { stop := .full, pos := c.pos, out } else runStream framing limit fuel ph (n + 1) (BitVec.ofNat 8 s :: out) d)
        else if s = 256 then runStream framing limit fuel (afterBlock final) n out d
        else if 286 ≤ s then { stop := .bad 16 c.pos, pos := d.pos, out }
        else match readMatch dist n s d with
          | .ok m e => runStream framing limit fuel (.copying m.1 m.2 lit dist final) n out e
          | .need => needMore c out
          | .bad code k u => { stop := .bad code k, pos := u, out }
    | .copying left dist lit distc final =>
      if left = 0 then runStream framing limit fuel (.codes lit distc final) n out c
      else if limit ≤ n then { stop := .full, pos := c.pos, out }
      else runStream framing limit fuel (.copying (left - 1) dist lit distc final) (n + 1) (out.getD (dist - 1) 0 :: out) c

/-! ### Headers (R379, R380) -/

/-- A header: its length in bytes, more source needed, or HEADER_CHECK with ERR_BIT. -/
inductive Header where
  | ok (bytes : Nat)
  | need
  | bad (bit used : Nat)
  deriving DecidableEq, Repr

/-- A zlib header; a byte that is wrong is so before the next one comes (R379, R380, R394). -/
def zlibHeader (b : Bytes) : Header :=
  if b = [] then .need
  else if u8 b 0 % 16 ≠ 8 then .bad 0 8
  else if 7 < u8 b 0 / 16 then .bad 4 8
  else if b.length < 2 then .need
  else if (256 * u8 b 0 + u8 b 1) % 31 ≠ 0 then .bad 8 16
  else if bit (u8 b 1) 5 then .bad 13 16
  else .ok 2

/-- Length of a zero-terminated field from an offset, its terminator included. -/
def textField (b : Bytes) (o : Nat) : Option Nat := ((b.drop o).findIdx? (· == 0)).map (· + 1)

/-- A gzip header of one member; a byte that is wrong is so before the next one comes (R379, R394). -/
def gzipHeader (b : Bytes) : Header :=
  if 1 ≤ b.length ∧ u8 b 0 ≠ 0x1F then .bad 0 8
  else if 2 ≤ b.length ∧ u8 b 1 ≠ 0x8B then .bad 8 16
  else if 3 ≤ b.length ∧ u8 b 2 ≠ 8 then .bad 16 24
  else if 4 ≤ b.length ∧ 32 ≤ u8 b 3 then .bad 29 32
  else if b.length < 10 then .need
  else
    let f := u8 b 3
    let extra : Option Nat := if bit f 2 then (if b.length < 12 then none else some (12 + leAt b 10 2)) else some 10
    match extra.bind fun o => if b.length < o then none else if bit f 3 then (textField b o).map (o + ·) else some o with
    | none => .need
    | some o1 => match (if bit f 4 then (textField b o1).map (o1 + ·) else some o1) with
      | none => .need
      | some o2 =>
        if !bit f 1 then .ok o2
        else if b.length < o2 + 2 then .need
        else if leAt b o2 2 = crc32 (b.take o2) % 65536 then .ok (o2 + 2) else .bad (8 * o2) (8 * o2 + 16)

/-- The header of a framing (R379). -/
def headerOfFraming (framing : Nat) (b : Bytes) : Header := if framing = 1 then zlibHeader b else if framing = 2 then gzipHeader b else .ok 0

/-- Inflate a stream from its first byte: at most `limit` bytes out (R379 to R395). -/
def inflate (framing limit : Nat) (src : Bytes) : Run :=
  match headerOfFraming framing src with
  | .need => { stop := .need, pos := 8 * src.length, out := [] }
  | .bad k u => { stop := .bad 21 k, pos := u, out := [] }
  | .ok n => runStream framing limit (2 * (8 * src.length + limit) + 4) .block 0 [] { rest := bitsOf (src.drop n), pos := 8 * n }

/-- The whole stream, when it ends without an error within its source (R232, R251). -/
def inflateAll (framing limit : Nat) (src : Bytes) : Option Bytes :=
  let r := inflate framing limit src
  if r.stop = .ended then some r.out.reverse else none

end Sys2Proof.Machine
end

