-- ==== Sys2Proof/Machine/Deflate.lean ====
section
/-! DEFINITION. The deflate engine (12_deflate_engine.md): jobs, slots, compression, completion and errors. -/

namespace Sys2Proof.Machine

/-! ### Compression (R387 to R389) -/

/-- FLEVEL of a depth (R387). -/
def flevel (depth : Nat) : Nat := if depth ≤ 1 then 0 else if depth ≤ 4 then 1 else if depth ≤ 16 then 2 else 3

/-- The header that DEFLATE writes (R379). -/
def deflateHeader (framing depth : Nat) : Bytes :=
  if framing = 1 then [0x78, [0x01, 0x5E, 0x9C, 0xDA].getD (flevel depth) 0]
  else if framing = 2 then [0x1F, 0x8B, 8, 0, 0, 0, 0, 0, 0, 255] else []

/-- Bytes of bits, least significant first, the last byte filled with 0. -/
def packBits : Nat → List Bool → Bytes
  | 0, _ => []
  | _, [] => []
  | fuel + 1, l => BitVec.ofNat 8 (((l.take 8).zipIdx.map fun b => flagAt b.1 b.2).sum) :: packBits fuel (l.drop 8)

/-- `n` bits of a number, least significant first. -/
def bitsNat (n v : Nat) : List Bool := (List.range n).map (bit v)

/-- One stored block of at most 65,535 bytes at a bit position (RFC 1951). -/
def storedBlock (final : Bool) (pos : Nat) (b : Bytes) : List Bool :=
  let head := [final, false, false]
  head ++ List.replicate ((8 - (pos + 3) % 8) % 8) false ++ bitsNat 16 b.length ++ bitsNat 16 (65535 - b.length) ++ bitsOf b

/-- A stream of one block after its history, decoded: the block is the input, and all of its bits are read (R387, R389). -/
def codesInput (history b : Bytes) (block : List Bool) : Bool :=
  let h := history.drop (history.length - 32768)
  let l := storedBlock false 0 h ++ block
  let r := inflate 0 (h.length + b.length) (packBits (l.length + 1) l)
  r.stop = .ended && r.out.reverse == h ++ b && (r.pos + 7) / 8 = (l.length + 7) / 8

/-- A code's bits, most significant first (RFC 1951). -/
def codeBits (n v : Nat) : List Bool := (bitsNat n v).reverse

/-- Literals only, with fixed codes, or with a dynamic literal code of 8 bits up to symbol 225 and of 9 bits above, and a distance
code of 4 and 5 bits. -/
def literalBody (tables : Nat) (b : Bytes) : List Bool :=
  if tables = 0 then
    (b.flatMap fun x => if x.toNat < 144 then codeBits 8 (48 + x.toNat) else codeBits 9 (256 + x.toNat)) ++ codeBits 7 0
  else
    let sym (k : Nat) : List Bool := if k < 226 then codeBits 8 k else codeBits 9 (226 + k)
    let len (k : Nat) : List Bool := codeBits 2 (if k = 4 then 0 else if k = 5 then 1 else if k = 8 then 2 else 3)
    let lens := List.replicate 226 8 ++ List.replicate 60 9 ++ List.replicate 2 4 ++ List.replicate 28 5
    bitsNat 5 29 ++ bitsNat 5 29 ++ bitsNat 4 8 ++ ((lengthOrder.take 12).flatMap fun k => bitsNat 3 (if [4, 5, 8, 9].contains k then 2 else 0))
      ++ lens.flatMap len ++ (b.flatMap fun x => sym x.toNat) ++ sym 256

/-- One coded block (R387). The choice of matches and codes is free among the bits that an inflater decodes to the block; where the
free value is no such coding it is one without matches (log 4). -/
def codedBlock (depth tables : Nat) (final : Bool) (history b : Bytes) : List Bool :=
  let body := Config.deflateBody depth tables history b
  [final, tables = 0, tables = 1] ++ if codesInput history b ([true, tables = 0, tables = 1] ++ body) then body else literalBody tables b

/-- A block as written, and whether R388 stored it in place of a coded one. -/
def blockBits (depth tables : Nat) (final : Bool) (pos : Nat) (history b : Bytes) : List Bool × Bool :=
  let st := storedBlock final pos b
  if depth = 0 then (st, false)
  else
    let co := codedBlock depth tables final history b
    if st.length ≤ co.length then (st, true) else (co, false)

/-- What ends a block of the stream (R387, R388). -/
inductive BlockEnd where
  | full | flush | final
  deriving DecidableEq, Repr

/-- The block ends of a stream in order: every 65,535 bytes of it, each SYNC_FLUSH, and the end. A block that is full ends when
the stream goes on, or has ended already, up to `sealed`. -/
def blockEnds (total sealed : Nat) (flushes : List Nat) (ended : Bool) : List (Nat × BlockEnd) :=
  let marks := ((List.range (total / 65535 + 1)).filter fun k =>
    0 < k ∧ (65535 * k < total ∨ 65535 * k ≤ sealed) ∧ !flushes.contains (65535 * k)).map fun k => (65535 * k, BlockEnd.full)
  let all := flushes.foldl (fun l f => l.filter (·.1 ≤ f) ++ [(f, BlockEnd.flush)] ++ l.filter (f < ·.1)) marks
  all ++ (if ended then [(total, BlockEnd.final)] else [])

/-- A piece of the output: source position reached, bits written in all, blocks stored in place of coded ones so far. -/
structure Piece where
  upto : Nat
  bits : List Bool
  stored : Nat
  full : Bool := false
  deriving DecidableEq, Repr

/-- DEPTH and TABLES for a block: those of the job that supplied its last byte, for an empty block of the job that ended it
(R382, R389; log 4). -/
def settingsAt (settings : List (Nat × Nat × Nat)) (start p : Nat) : Nat × Nat :=
  ((settings.filter fun x => x.1 ≤ if p = start then p else p - 1).getLast?.getD (0, 0, 0)).2

/-- The bits of the stream after each block end. -/
def pieces (settings : List (Nat × Nat × Nat)) (src : Bytes) : Nat → List Bool → Nat → List (Nat × BlockEnd) → List Piece
  | _, _, _, [] => []
  | start, acc, stored, (p, k) :: r =>
    let b := (src.drop start).take (p - start)
    let how := settingsAt settings start p
    let w := if p = start ∧ k ≠ .final then ([], false) else blockBits how.1 how.2 (k = .final) acc.length (src.take start) b
    let acc := acc ++ w.1
    let acc := if k = .flush then acc ++ storedBlock false acc.length [] else acc
    let stored := stored + (if w.2 then 1 else 0)
    { upto := p, bits := acc, stored, full := k = .full } :: pieces settings src p acc stored r

/-- The trailer that DEFLATE writes (R379). -/
def deflateTrailer (framing : Nat) (src : Bytes) : Bytes :=
  if framing = 1 then (leBytes 4 (adler32 src)).reverse
  else if framing = 2 then leBytes 4 (crc32 src) ++ leBytes 4 src.length else []

/-- The bytes that are out when a piece is written: whole bytes only, at the end all of them with the trailer. -/
def pieceBytes (framing depth : Nat) (src : Bytes) (ended : Bool) (p : Piece) : Bytes :=
  let body := packBits (p.bits.length + 1) p.bits
  deflateHeader framing depth ++ (if ended then body ++ deflateTrailer framing src else body.take (p.bits.length / 8))

/-! ### Descriptors (R381, R382, R394) -/

/-- A slot. -/
def dflSlot (s : State) (k : Nat) : Slot := Tbl.get s.dfl.slots {} k

/-- Set a slot. -/
def setDflSlot (k : Nat) (x : Slot) (s : State) : State := { s with dfl := { s.dfl with slots := Tbl.set k x s.dfl.slots } }

/-- The entry's own fields are well formed (R381). -/
def dflEntryOk (e : Bytes) : Bool := leAt e 0 8 % 64 = 0 && u8 e 8 ≤ 1 && zeroAt e 10 6 && zeroAt e 24 8

/-- The descriptor's fields are well formed (R382, R394 code 2). RESET_SLOT uses OP and SLOT only. -/
def dflDescOk (d : Bytes) : Bool :=
  let op := u8 d 0
  zeroAt d 6 2 && zeroAt d 32 32 &&
  (op = 3 ||
    ((op = 1 || op = 2) && u8 d 1 ≤ 2 && u8 d 2 < 8 && leAt d 16 4 ≤ 2 ^ 30 && 1 ≤ leAt d 20 4 && leAt d 20 4 ≤ 2 ^ 30 &&
      (if op = 1 then !bit (u8 d 2) 2 && u8 d 4 = 0 && u8 d 5 = 0 else u8 d 4 ≤ 64 && u8 d 5 ≤ 1)))

/-- Two byte extents meet. -/
def extentsMeet (a n b m : Nat) : Bool := 0 < n && 0 < m && a < b + m && b < a + n

/-- The slot can take the job (R384, R385, R394 code 6). -/
def slotReady (x : Slot) (d : Bytes) : Bool :=
  bit (u8 d 2) 0 || ((x.state == .opened || x.state == .suspended) && x.op = u8 d 0 && x.framing = u8 d 1)

/-- The first failing check before the start, 0 when none fails (R394 codes 1 to 6). `d` is none when the descriptor could not
be read. -/
def dflEarly (s : State) (q : Nat) (e : Bytes) (d : Option Bytes) : Nat :=
  match d with
  | none => if u8 e 8 ≤ 1 then 1 else 2
  | some d =>
    if !dflEntryOk e || !dflDescOk d then 2
    else if (dflSlot s (u8 d 3)).owner ≠ some q then 3
    else if u8 d 0 = 3 then 0
    else if !bufferOk s (leAt d 8 8) (leAt d 16 4) || !bufferOk s (leAt d 24 8) (leAt d 20 4) then 4
    else if extentsMeet (leAt d 8 8) (leAt d 16 4) (leAt d 24 8) (leAt d 20 4) then 5
    else if !slotReady (dflSlot s (u8 d 3)) d then 6
    else 0

/-- The descriptor as the engine reads it: from device DRAM unless the read is poisoned, or as the host's memory answers; a reserved
DESC_SPACE names no place. -/
def dflDesc (s : State) (q : Nat) (e : Bytes) (host : Option Bytes) : Option Bytes :=
  if u8 e 8 = 1 then (hostAnswer s q host).map (padTo 64)
  else if u8 e 8 ≠ 0 || !extentOk s 5 (leAt e 0 8) 64 false || poisoned s (leAt e 0 8) 64 then none
  else some (load s (leAt e 0 8) 64)

/-! ### Running a job (R385, R390 to R395) -/

/-- What a job leaves. -/
structure DflResult where
  status : Status
  error : Nat := 0
  flags : Nat := 0
  inUsed : Nat := 0
  out : Bytes := []
  check : Nat := 0
  errBit : Nat := 2 ^ 64 - 1
  /-- Bits of the stream consumed. -/
  pos : Nat := 0
  slot : Slot
  deriving DecidableEq, Repr

/-- The slot with which a job runs: a new stream, or the one it continues (R385), whose later blocks follow the job's own DEPTH and
TABLES (R382). -/
def slotFor (x : Slot) (d : Bytes) : Slot :=
  if bit (u8 d 2) 0 then { state := .opened, op := u8 d 0, framing := u8 d 1, settings := [(0, u8 d 4, u8 d 5)], owner := x.owner }
  else if x.ended then x else { x with settings := x.settings ++ [(x.src.length, u8 d 4, u8 d 5)] }

/-- Source bytes before the first line that reads poisoned (R394 code 32). -/
def cleanPrefix (s : State) (a n : Nat) : Nat := (List.range n).find? (fun k => poisoned s (a + k) 1) |>.getD n

/-- A stream that has ended leaves its slot EMPTY (R385). -/
def emptied (x : Slot) : Slot := { owner := x.owner }

/-- INFLATE (R385, R390 to R395). `clean` is how much of the source reads without poison. -/
def inflateJob (x : Slot) (d src : Bytes) (clean : Nat) : DflResult :=
  let limit := x.written + leAt d 20 4
  let all := x.src ++ src.take clean
  let r := inflate x.framing limit all
  let out := r.out.reverse
  let used := (r.pos + 7) / 8 - x.src.length
  let x' := { x with src := all.take ((r.pos + 7) / 8), written := out.length }
  let res : DflResult := { status := .ok, inUsed := used, out := out.drop x.written, check := checkOf x.framing out, pos := r.pos, slot := x' }
  let fail (st : Status) (code bit : Nat) : DflResult := { res with status := st, error := code, errBit := bit, slot := { x' with state := .failed } }
  match r.stop with
  | .ended => { res with flags := 1 + flagAt (used < src.length) 3, slot := emptied x }
  | .full => { res with status := .suspended, slot := { x' with state := .suspended } }
  | .bad code k => fail .format code k
  | .need =>
    if clean < src.length then fail .fault 32 r.pos
    else if bit (u8 d 2) 1 then fail .format 23 (8 * all.length)
    else { res with flags := 2, slot := { x' with state := .opened } }

/-- DEFLATE (R387 to R391). Source is taken up to the end of the first block whose output does not fit; the header comes before any
source. A source byte that reads poisoned ends the job when it is reached. -/
def deflateJob (x : Slot) (d src : Bytes) (clean : Nat) : DflResult :=
  let src' := if x.ended then [] else src
  let cut := clean < src'.length
  let total := x.src ++ src'.take clean
  let ended := x.ended || (bit (u8 d 2) 1 && !cut)
  let flushes := if bit (u8 d 2) 2 && !x.ended && !cut then x.flushes ++ [total.length] else x.flushes
  let depth := (x.settings.headD (0, 0, 0)).2.1
  let made (sealed : Nat) (src : Bytes) (flushes : List Nat) (ended : Bool) : List Piece :=
    pieces x.settings src 0 [] 0 (blockEnds src.length sealed flushes ended)
  let ps := { upto := 0, bits := [], stored := 0 } :: made x.sealed total flushes ended
  let limit := x.written + leAt d 20 4
  let bytes (k : Nat) : Bytes := (ps[k]?).elim [] (pieceBytes x.framing depth total (ended && k + 1 = ps.length))
  let storedBefore := (made x.sealed x.src x.flushes x.ended).getLast?.elim 0 (·.stored)
  let finish (k upto : Nat) (whole : Bool) : DflResult :=
    let p := (ps[k]?).getD { upto := 0, bits := [], stored := 0 }
    let upto := max upto x.src.length
    let x' := { x with src := total.take upto, written := min limit (bytes k).length, sealed := if p.full then max x.sealed p.upto else x.sealed
                       flushes := if upto = total.length then flushes else x.flushes, ended := ended && upto = total.length }
    { status := if whole then .ok else .suspended
      flags := flagAt (whole && ended) 0 + flagAt (whole && !ended) 1 + flagAt (storedBefore < p.stored) 2
      inUsed := upto - x.src.length, out := ((bytes k).take limit).drop x.written, check := checkOf x.framing (total.take upto), pos := 8 * upto
      slot := if whole && ended then emptied x else { x' with state := if whole then .opened else .suspended } }
  match (List.range ps.length).find? fun k => limit < (bytes k).length with
  | some k => finish k ((ps[k]?).elim total.length (·.upto)) false
  | none =>
    let r := finish (ps.length - 1) total.length true
    if cut then { r with status := .fault, error := 32, flags := r.flags &&& 4, errBit := 8 * total.length, slot := { r.slot with state := .failed } } else r

/-- The check value of a slot's stream so far (R393). -/
def slotCheck (x : Slot) : Nat := checkOf x.framing (if x.op = 1 then (inflate x.framing x.written x.src).out.reverse else x.src)

/-- The status of an early error (R394). -/
def earlyStatus (code : Nat) : Status := if code = 1 then .fault else if code = 3 then .rights else if code = 4 then .range else .format

/-- The context slot reads poisoned: the job fails before it takes a bit (R394 code 32, R395, R398). -/
def slotPoisoned (x : Slot) : DflResult :=
  let r := inflate x.framing x.written x.src
  { status := .fault, error := 32, check := slotCheck x, pos := if x.op = 1 then r.pos else 8 * x.src.length
    errBit := if x.op = 1 then r.pos else 8 * x.src.length, slot := { x with state := .failed } }

/-- First byte of a context slot of 256 KiB (R383). -/
def slotAddr (s : State) (k : Nat) : Nat := s.dfl.base + 262144 * k

/-- Run a job to its end, or over the first `n` source bytes where the engine faults. ERR_BIT of an error before the start is
not stated, a free value (log 2). -/
def runDfl (s : State) (j : DflJob) (n : Nat) : DflResult :=
  let k := u8 j.desc 3
  let x := dflSlot s k
  let d := j.desc
  let check := if 4 ≤ j.early ∧ !bit (u8 d 2) 0 ∧ x.state ≠ .empty then slotCheck x else checkOf (u8 d 1) []
  if j.early ≠ 0 then { status := earlyStatus j.early, error := j.early, check, errBit := freeBelow s (2 ^ 64), slot := x }
  else if u8 d 0 = 3 then { status := .ok, slot := emptied x }
  else if !bit (u8 d 2) 0 && poisoned s (slotAddr s k) 262144 then slotPoisoned x
  else
    let src := load s (leAt d 8 8) (leAt d 16 4)
    let clean := min n (cleanPrefix s (leAt d 8 8) (leAt d 16 4))
    if u8 d 0 = 1 then inflateJob (slotFor x d) d src clean else deflateJob (slotFor x d) d src clean

/-- The completion of a job (R393). -/
def dflBody (r : DflResult) (fence user : Nat) : Bytes :=
  let ok := r.status = .ok && fence ≠ 0
  leBytes 2 r.status.code ++ leBytes 1 r.error ++ leBytes 1 (r.flags + flagAt ok 4) ++ leBytes 4 r.inUsed ++ leBytes 4 r.out.length
    ++ leBytes 4 r.check ++ leBytes 8 r.errBit ++ leBytes 8 user

/-- The first line that a job finds poisoned: of its slot, or of its source (R398). -/
def poisonLine (s : State) (j : DflJob) : List Nat :=
  let d := j.desc
  ((if bit (u8 d 2) 0 then [] else linesOf (slotAddr s (u8 d 3)) 262144) ++ linesOf (leAt d 8 8) (leAt d 16 4)).filter s.dmc.poison.contains |>.take 1

/-- The end of a job: its bytes, its slot, the fence, the counters and the completion (R385, R393, R400, R401). -/
def endDfl (lane : Nat) (j : DflJob) (r : DflResult) (s : State) : State :=
  let fence := u8 j.entry 9
  let d := s.dfl
  let s := if r.out = [] then s else store (leAt j.desc 24 8) r.out s
  let s := if r.error = 32 then noteMarks 5 (poisonLine s j) s else s
  let k := u8 j.desc 3
  let s := if j.early = 0 then rewritten (slotAddr s k) 262144 (setDflSlot k r.slot s) else s
  let s := if r.status = .ok then advanceFence fence 1 s else s
  let s := { s with dfl := { s.dfl with
    lanes := Tbl.erase lane s.dfl.lanes, jobs := if completes s j.queue j.gen then wrapAdd 32 d.jobs 1 else d.jobs
    poisonSeen := d.poisonSeen || r.error = 32, dataErrorSeen := d.dataErrorSeen || (16 ≤ r.error && r.error ≤ 23)
    storedSeen := d.storedSeen || bit r.flags 2, inBytes := d.inBytes + r.inUsed, outBytes := d.outBytes + r.out.length } }
  complete j.queue j.slot j.gen 0 (dflBody r fence (leAt j.entry 16 8)) 1 s

/-! ### Commands -/

/-- The engine may start a job: PD20 on, Walec running, no Bench (R397). -/
def dflRuns (s : State) : Bool := domainOn s 20 && s.hif.walec == .running && s.tim.bench == .off

/-- A running job uses the slot (R386). -/
def slotBusy (s : State) (k : Nat) : Bool := s.dfl.lanes.any fun j => j.2.early = 0 && u8 j.2.desc 3 = k

/-- The first job of a queue waits for its slot (R386). -/
def dflWaits (s : State) (q : Nat) : Bool :=
  (queueOf s q).fetched ≠ [] && (Tbl.find? q s.dfl.waiting).any (slotBusy s)

/-- The bound queues with a job ready (R386, R396). -/
def dflReady (s : State) : List Nat := s.dfl.bound.filter fun q => (queueOf s q).fetched ≠ [] && !dflWaits s q

/-- Start the oldest waiting job of a queue on a lane; a job whose slot is busy waits (R386). -/
def startDfl (q lane : Nat) (f : Fetched) (host : Option Bytes) (s : State) : State :=
  let d := dflDesc s q f.bytes host
  let early := dflEarly s q f.bytes d
  if d.any fun d => (early = 0 || early = 6) && slotBusy s (u8 d 3) then { s with dfl := { s.dfl with waiting := Tbl.set q (d.elim 0 (u8 · 3)) s.dfl.waiting } }
  else
    let j : DflJob := { queue := q, entry := f.bytes, desc := d.getD [], slot := f.slot, gen := f.gen, early
                        order := s.dfl.lanes.foldl (fun m l => max m (l.2.order + 1)) 0 }
    let c := queueOf s q
    let s := if d.isNone && u8 f.bytes 8 = 0 then noteRead 5 (leAt f.bytes 0 8) 64 s else s
    setQueue q { c with fetched := c.fetched.drop 1 } { s with dfl := { s.dfl with lanes := Tbl.set lane j s.dfl.lanes, waiting := Tbl.erase q s.dfl.waiting } }

/-- DFL_JOB_START (R385, R394), the queues in turn (R396). -/
def execDflJobStart (q : Nat) (hostDesc : Option Bytes) (s : State) : Out :=
  match (queueOf s q).fetched.head?, (List.range 4).find? fun l => (Tbl.find? l s.dfl.lanes).isNone with
  | some f, some lane => done (ifEvent (dflRuns s && inTurn s.dfl.last (dflReady s) == some q) (startDfl q lane f hostDesc { s with dfl := { s.dfl with last := q } }) s)
  | _, _ => done s

/-- DFL_JOB_END (R385, R386, R393): the completions of one queue come in submission order. -/
def execDflJobEnd (lane : Nat) (s : State) : Out :=
  match Tbl.find? lane s.dfl.lanes with
  | none => done s
  | some j =>
    done (ifEvent (s.dfl.lanes.all fun l => l.2.queue ≠ j.queue || j.order ≤ l.2.order) (drew (endDfl lane j (runDfl s j (2 ^ 30)) s)) s)

/-- A running job that fails with ENGINE_FAULT: its slot is FAILED (R394 code 33, R399). How far it came is the engine's
progress, a free value (log 2). -/
def faultDfl (s : State) (lj : Nat × DflJob) : State :=
  let j := lj.2
  let r := runDfl s j (freeBelow s (leAt j.desc 16 4 + 1))
  let f : DflResult := { r with status := .fault, error := 33, flags := 0, errBit := r.pos, slot := { r.slot with state := .failed } }
  drew (endDfl lj.1 j (if j.early = 0 then f else r) s)

/-- DFL_ENGINE_FAULT (R399): the lane that the entry names is not stated, a free value (log 2). -/
def execDflEngineFault (s : State) : Out :=
  let jobs := s.dfl.lanes.foldl (fun l j => (l.filter fun k => k.2.order < j.2.order) ++ [j] ++ l.filter fun k => j.2.order ≤ k.2.order) []
  let t := jobs.foldl faultDfl s
  done (ifEvent (domainOn s 20)
    (drew (log (hw 6) 6 0xA0 (freeBelow t 4) { t with dfl := { t.dfl with faultSeen := true } })) s)

end Sys2Proof.Machine
end

