-- ==== Sys2Proof/Machine/Bitstream.lean ====
section
/-! DEFINITION. The syntax of an H.265 access unit that the rules of 09_video_decoding.md read (R298 to R301, R306, R324): NAL
units in the Annex B format, parameter sets, the head of a slice segment and the decoded picture hash. The syntax itself is
that of ITU-T H.265 and PRESUMED from it (log 59). -/

namespace Sys2Proof.Machine

/-! ### NAL units (R298, R301, R306) -/

/-- A NAL unit of an entry: the offset of its first byte and its bytes. -/
structure Nal where
  first : Nat
  bytes : Bytes
  deriving DecidableEq, Repr

/-- A NAL unit from its bytes in reverse order; the zero bytes that trail it belong to the byte stream. -/
def nalOf (first : Nat) (rev : Bytes) : List Nal :=
  let b := (rev.dropWhile (· = 0)).reverse
  if b.length < 2 then [] else [{ first, bytes := b }]

/-- The NAL units of a byte stream: each follows a start code 00 00 01; `cur` is the one in progress, in reverse order. -/
def splitNals : Nat → Option (Nat × Bytes) → Bytes → List Nal
  | o, cur, a :: b :: c :: r =>
    if a = 0 && b = 0 && c = 1 then (cur.elim [] fun x => nalOf x.1 x.2) ++ splitNals (o + 3) (some (o + 3, [])) r
    else splitNals (o + 1) (cur.map fun x => (x.1, a :: x.2)) (b :: c :: r)
  | _, cur, r => cur.elim [] fun x => nalOf x.1 (r.reverse ++ x.2)

/-- nal_unit_type. -/
def Nal.type (x : Nal) : Nat := u8 x.bytes 0 / 2 % 64
/-- nuh_layer_id. -/
def Nal.layer (x : Nal) : Nat := u8 x.bytes 0 % 2 * 32 + u8 x.bytes 1 / 8
/-- A coded slice segment. -/
def Nal.isSlice (x : Nal) : Bool := x.type ≤ 9 || (16 ≤ x.type && x.type ≤ 21)
/-- first_slice_segment_in_pic_flag. -/
def Nal.isFirst (x : Nal) : Bool := bit (u8 x.bytes 2) 7

/-- After the last slice segment of a picture the next access unit begins with one of these (clause 7.4.2.4.4). -/
def Nal.startsUnit (x : Nal) : Bool :=
  (x.isSlice && x.isFirst) || (32 ≤ x.type && x.type ≤ 35) || x.type = 39 || (41 ≤ x.type && x.type ≤ 44) ||
    (48 ≤ x.type && x.type ≤ 55)

/-- The NAL units of the first access unit, and whether more follow (R306). -/
def firstUnit : Bool → List Nal → List Nal × Bool
  | _, [] => ([], false)
  | seen, x :: r =>
    if seen && x.startsUnit then ([], true)
    else
      let y := firstUnit (seen || x.isSlice) r
      (x :: y.1, y.2)

/-- The payload without the emulation prevention bytes; `z` counts the zero bytes before. -/
def rbsp : Nat → Bytes → Bytes
  | _, [] => []
  | z, b :: r => if 2 ≤ z && b = 3 then rbsp 0 r else b :: rbsp (if b = 0 then z + 1 else 0) r

/-- The bits of the first `n` payload bytes, the most significant first. -/
def Nal.bits (x : Nal) (n : Nat) : List Bool :=
  (rbsp 0 ((x.bytes.drop 2).take n)).flatMap fun b => (List.range 8).map fun k => bit b.toNat (7 - k)

/-! ### Reading syntax elements -/

/-- A reader of bits; it fails at the end of the NAL unit or on a value outside its range. -/
abbrev Rd := StateT (List Bool) Option

/-- u(n). -/
def rdU : Nat → Rd Nat
  | 0 => pure 0
  | n + 1 => fun bs => match bs with
    | [] => none
    | b :: r => match rdU n r with
      | none => none
      | some (v, r') => some ((if b then 2 ^ n else 0) + v, r')

/-- Zero bits before the first one bit. -/
def rdZeros : Nat → List Bool → Option (Nat × List Bool)
  | _, [] => none
  | _, true :: r => some (0, r)
  | 0, _ => none
  | n + 1, false :: r => (rdZeros n r).map fun x => (x.1 + 1, x.2)

/-- ue(v). -/
def rdUe : Rd Nat := do
  let z ← rdZeros 32
  let v ← rdU z
  pure (2 ^ z - 1 + v)

/-- se(v). -/
def rdSe : Rd Int := do
  let v ← rdUe
  pure (if v % 2 = 1 then ((v + 1) / 2 : Nat) else -((v / 2 : Nat) : Int))

/-- A flag. -/
def rdFlag : Rd Bool := do
  let v ← rdU 1
  pure (v = 1)

/-- A value within its range. -/
def rdMax (most v : Nat) : Rd Unit := fun bs => if v ≤ most then some ((), bs) else none

/-- Do something n times. -/
def rdTimes : Nat → Rd Unit → Rd Unit
  | 0, _ => pure ()
  | n + 1, x => do
    x
    rdTimes n x

/-- n values in order. -/
def rdList {α : Type} : Nat → Rd α → Rd (List α)
  | 0, _ => pure []
  | n + 1, x => do
    let v ← x
    let r ← rdList n x
    pure (v :: r)

/-- Something when a condition holds. -/
def rdIf (c : Bool) (x : Rd Unit) : Rd Unit := if c then x else pure ()

/-- A value from a to b. -/
def rdWithin (a b v : Int) : Rd Unit := fun bs => if a ≤ v ∧ v ≤ b then some ((), bs) else none

/-- A condition that the values read must meet. -/
def rdNeed (c : Bool) : Rd Unit := fun bs => if c then some ((), bs) else none

/-- rbsp_trailing_bits: a one bit and zero bits to the end. -/
def rdTrailing : Rd Unit := fun bs => match bs with
  | true :: r => if r.all (! ·) then some ((), []) else none
  | _ => none

/-- The extensions of a parameter set: that of the range extensions is read; the data of any other is passed over. -/
def rdExtensions (range : Rd Unit) : Rd Unit := do
  let present ← rdFlag
  let isRange ← if present then rdFlag else pure false
  let others ← if present then rdU 7 else pure 0
  rdIf isRange range
  if others = 0 then rdTrailing else fun _ => some ((), [])

/-! ### The sequence parameter set -/

/-- Profiles by the classes of R298: 0 Main, 1 Main 10, 2 Monochrome, 3 Monochrome 12, 4 any other. `compat` holds
general_profile_compatibility_flag[0] to [31], `flags` the nine constraint flags of the format range extensions. -/
def profileClass (idc compat : Nat) (flags : List Bool) : Nat :=
  if idc = 1 || bit compat 30 then 0
  else if idc = 2 || bit compat 29 then 1
  else if idc = 4 || bit compat 27 then
    (if flags.take 7 = [true, true, true, true, true, true, false] then 2
     else if flags.take 7 = [true, false, false, true, true, true, false] then 3 else 4)
  else 4

/-- profile_tier_level: profile class, tier and level. -/
def rdProfile (subs : Nat) : Rd (Nat × Bool × Nat) := do
  let _ ← rdU 2
  let tier ← rdFlag
  let idc ← rdU 5
  let compat ← rdU 32
  let _ ← rdU 4
  let flags ← rdList 9 rdFlag
  let _ ← rdU 35
  let level ← rdU 8
  let has ← rdList subs (do
    let a ← rdFlag
    let b ← rdFlag
    pure (a, b))
  rdIf (0 < subs) (rdTimes (8 - subs) (do
    let _ ← rdU 2))
  let _ ← has.foldlM (fun (_ : Unit) h => do
    rdIf h.1 (do
      let _ ← rdU 88)
    rdIf h.2 (do
      let _ ← rdU 8)) ()
  pure (profileClass idc compat flags, tier, level)

/-- One list of scaling factors of sizeId k. -/
def rdScalingList (k : Nat) : Rd Unit := do
  let coded ← rdFlag
  if coded then
    rdIf (1 < k) (do
      let dc ← rdSe
      rdWithin (-7) 247 dc)
    rdTimes (min 64 (2 ^ (4 + 2 * k))) (do
      let c ← rdSe
      rdWithin (-128) 127 c)
  else
    let d ← rdUe
    rdMax 5 d

/-- scaling_list_data. -/
def rdScaling : Rd Unit := do
  rdTimes 6 (rdScalingList 0)
  rdTimes 6 (rdScalingList 1)
  rdTimes 6 (rdScalingList 2)
  rdTimes 2 (rdScalingList 3)

/-- A short-term reference picture set: the negative and the positive differences of POC. -/
abbrev Rps := List Int × List Int

/-- A set predicted from another by a difference, with the use flags of its pictures and of the difference itself. -/
def interRps (ref : Rps) (delta : Int) (use : List Bool) : Rps :=
  let neg := ref.1.zipIdx.filterMap fun x => if use.getD x.2 false then some (x.1 + delta) else none
  let pos := ref.2.zipIdx.filterMap fun x => if use.getD (ref.1.length + x.2) false then some (x.1 + delta) else none
  let own := if use.getD (ref.1.length + ref.2.length) false then [delta] else []
  ((pos.reverse ++ own ++ neg).filter (· < 0), (neg.reverse ++ own ++ pos).filter (0 < ·))

/-- Differences of one sign: each step is one more than the value read. -/
def rdSteps : Nat → Nat → Rd (List Int)
  | 0, _ => pure []
  | n + 1, at' => do
    let d ← rdUe
    let _ ← rdU 1
    let r ← rdSteps n (at' + d + 1)
    pure (((at' + d + 1 : Nat) : Int) :: r)

/-- st_ref_pic_set of a sequence parameter set after the sets before it. -/
def rdRps (before : List Rps) : Rd Rps := do
  let inter ← if before.isEmpty then pure false else rdFlag
  if inter then
    let sign ← rdU 1
    let abs ← rdUe
    let ref := before.getLast?.getD ([], [])
    let use ← rdList (ref.1.length + ref.2.length + 1) (do
      let used ← rdFlag
      if used then pure true else rdFlag)
    pure (interRps ref ((1 - 2 * (sign : Int)) * ((abs : Int) + 1)) use)
  else
    let n ← rdUe
    let p ← rdUe
    rdMax 16 n
    rdMax 16 p
    let a ← rdSteps n 0
    let b ← rdSteps p 0
    pure (a.map fun d => -d, b)

/-- The short-term reference picture sets of a sequence parameter set. -/
def rdRpsList : Nat → List Rps → Rd (List Rps)
  | 0, l => pure l
  | n + 1, l => do
    let x ← rdRps l
    rdRpsList n (l ++ [x])

/-- sub_layer_hrd_parameters: the bit rates. -/
def rdSubHrd (count scale : Nat) (subPic : Bool) : Rd (List Nat) := rdList count (do
  let v ← rdUe
  let _ ← rdUe
  rdIf subPic (do
    let _ ← rdUe
    let _ ← rdUe)
  let _ ← rdU 1
  pure ((v + 1) * 2 ^ (6 + scale)))

/-- The part of hrd_parameters that is common to the sub-layers: whether NAL, VCL and sub-picture parameters are there, and
bit_rate_scale. -/
def rdHrdCommon : Rd (Bool × Bool × Bool × Nat) := do
  let nal ← rdFlag
  let vcl ← rdFlag
  let some' := nal || vcl
  let subPic ← if some' then rdFlag else pure false
  rdIf subPic (do
    let _ ← rdU 19)
  let scale ← if some' then rdU 4 else pure 0
  rdIf some' (do
    let _ ← rdU 4)
  rdIf subPic (do
    let _ ← rdU 4)
  rdIf some' (do
    let _ ← rdU 15)
  pure (nal, vcl, subPic, scale)

/-- The sub-layers of hrd_parameters: the bit rates of NAL and of VCL. -/
def rdHrd (subs : Nat) (c : Bool × Bool × Bool × Nat) : Rd (List Nat × List Nat) := do
  let ls ← rdList (subs + 1) (do
    let general ← rdFlag
    let fixed ← if general then pure true else rdFlag
    let low ← if fixed then (do
      let d ← rdUe
      rdMax 2047 d
      pure false) else rdFlag
    let count ← if low then pure 0 else rdUe
    rdMax 31 count
    let a ← if c.1 then rdSubHrd (count + 1) c.2.2.2 c.2.2.1 else pure []
    let b ← if c.2.1 then rdSubHrd (count + 1) c.2.2.2 c.2.2.1 else pure []
    pure (a, b))
  pure (ls.flatMap (·.1), ls.flatMap (·.2))

/-- What the rules read of the VUI: field_seq_flag, the picture rate as a fraction, and the bit rates. -/
structure Vui where
  fieldSeq : Bool := false
  pictures : Option (Nat × Nat) := none
  nalRates : List Nat := []
  vclRates : List Nat := []

/-- bitstream_restriction of the VUI. -/
def rdRestriction : Rd Unit := do
  let _ ← rdU 3
  let seg ← rdUe
  rdMax 4095 seg
  let bytes ← rdUe
  rdMax 16 bytes
  let cuBits ← rdUe
  rdMax 16 cuBits
  let h ← rdUe
  rdMax 15 h
  let v ← rdUe
  rdMax 15 v

/-- The timing of the VUI: the picture rate as a fraction, and the bit rates. -/
def rdTiming (subs : Nat) : Rd (Option (Nat × Nat) × List Nat × List Nat) := do
  let units ← rdU 32
  let scale ← rdU 32
  let poc ← rdFlag
  rdIf poc (do
    let _ ← rdUe)
  let hrd ← rdFlag
  let rates ← if hrd then (do
    let c ← rdHrdCommon
    rdHrd subs c) else pure ([], [])
  pure (some (scale, units), rates.1, rates.2)

/-- vui_parameters. -/
def rdVui (subs : Nat) : Rd Vui := do
  let aspect ← rdFlag
  rdIf aspect (do
    let idc ← rdU 8
    rdIf (idc = 255) (do
      let _ ← rdU 32))
  let scan ← rdFlag
  rdIf scan (do
    let _ ← rdU 1)
  let video ← rdFlag
  rdIf video (do
    let _ ← rdU 4
    let colour ← rdFlag
    rdIf colour (do
      let _ ← rdU 24))
  let loc ← rdFlag
  rdIf loc (do
    let a ← rdUe
    rdMax 5 a
    let b ← rdUe
    rdMax 5 b)
  let _ ← rdU 1
  let fieldSeq ← rdFlag
  let _ ← rdU 1
  let window ← rdFlag
  rdIf window (rdTimes 4 (do
    let _ ← rdUe))
  let timing ← rdFlag
  let t ← if timing then rdTiming subs else pure (none, [], [])
  let restrict ← rdFlag
  rdIf restrict rdRestriction
  pure { fieldSeq, pictures := t.1, nalRates := t.2.1, vclRates := t.2.2 }

/-- The sizes of coding and transform blocks: the logarithms of the smallest coding block and of the CTU. -/
def rdBlocks : Rd (Nat × Nat) := do
  let minCb ← rdUe
  let diff ← rdUe
  let ctb := minCb + 3 + diff
  rdNeed (4 ≤ ctb && ctb ≤ 6)
  let minTb ← rdUe
  let diffTb ← rdUe
  rdNeed (minTb < minCb + 1 && minTb + 2 + diffTb ≤ min ctb 5)
  let inter ← rdUe
  rdMax (ctb - (minTb + 2)) inter
  let intra ← rdUe
  rdMax (ctb - (minTb + 2)) intra
  pure (minCb + 3, ctb)

/-- pcm_enabled_flag and what follows it, for the logarithms of the smallest coding block and of the CTU. -/
def rdPcm (minCb ctb : Nat) : Rd Unit := do
  let pcm ← rdFlag
  rdIf pcm (do
    let _ ← rdU 8
    let least ← rdUe
    let diff ← rdUe
    rdNeed (min minCb 5 ≤ least + 3 && least + 3 + diff ≤ min ctb 5)
    let _ ← rdU 1)

/-- The DPB size, reorder depth and latency of one sub-layer. -/
def rdLayerOrder : Rd (List Nat) := do
  let dpb ← rdUe
  rdMax 15 dpb
  let reorder ← rdUe
  rdMax dpb reorder
  let latency ← rdUe
  pure [dpb, reorder, latency]

/-- seq_parameter_set_rbsp to its last bit: its identifier and what the rules read of it. -/
def rdSps : Rd (Nat × Sps) := do
  let _ ← rdU 4
  let subs ← rdU 3
  rdMax 6 subs
  let _ ← rdU 1
  let ptl ← rdProfile subs
  let id ← rdUe
  rdMax 15 id
  let chroma ← rdUe
  rdMax 3 chroma
  rdIf (chroma = 3) (do
    let _ ← rdU 1)
  let width ← rdUe
  let height ← rdUe
  let window ← rdFlag
  let crop ← if window then rdList 4 rdUe else pure [0, 0, 0, 0]
  let luma ← rdUe
  let chromaDepth ← rdUe
  rdMax 8 luma
  rdMax 8 chromaDepth
  let poc ← rdUe
  rdMax 12 poc
  let all ← rdFlag
  let layers ← rdList (if all then subs + 1 else 1) rdLayerOrder
  let top := layers.getLast?.getD []
  let blocks ← rdBlocks
  let unit := if chroma = 1 || chroma = 2 then 2 else 1
  let unitY := if chroma = 1 then 2 else 1
  rdNeed (0 < width && 0 < height && width % 2 ^ blocks.1 = 0 && height % 2 ^ blocks.1 = 0 &&
    unit * (crop.getD 0 0 + crop.getD 1 0) < width && unitY * (crop.getD 2 0 + crop.getD 3 0) < height)
  let scaling ← rdFlag
  rdIf scaling (do
    let coded ← rdFlag
    rdIf coded rdScaling)
  let _ ← rdU 2
  rdPcm blocks.1 blocks.2
  let sets ← rdUe
  rdMax 64 sets
  let _ ← rdRpsList sets []
  let long ← rdFlag
  rdIf long (do
    let n ← rdUe
    rdMax 32 n
    rdTimes n (do
      let _ ← rdU (poc + 5)))
  let _ ← rdU 2
  let vui ← rdFlag
  let v ← if vui then rdVui subs else pure {}
  rdExtensions (do
    let _ ← rdU 9)
  pure (id, { profile := ptl.1, high := ptl.2.1, level := ptl.2.2, chroma, bitLuma := luma + 8, bitChroma := chromaDepth + 8
              fieldSeq := v.fieldSeq, width, height, buffers := top.getD 0 0 + 1, reorder := top.getD 1 0
              latency := if top.getD 2 0 = 0 then none else some (top.getD 1 0 + top.getD 2 0 - 1), ctb := 2 ^ blocks.2
              pictures := v.pictures, nalRates := v.nalRates, vclRates := v.vclRates, cropLeft := unit * crop.getD 0 0
              cropRight := unit * crop.getD 1 0, cropTop := unitY * crop.getD 2 0, cropBottom := unitY * crop.getD 3 0 })

/-! ### The video parameter set -/

/-- hrd_parameters of a video parameter set in order; one without the common part repeats that of the one before. -/
def rdHrdSets (subs : Nat) : Nat → Bool → Bool × Bool × Bool × Nat → Rd Unit
  | 0, _, _ => pure ()
  | n + 1, first, c => do
    let idx ← rdUe
    rdMax 1023 idx
    let own ← if first then pure true else rdFlag
    let c ← if own then rdHrdCommon else pure c
    let _ ← rdHrd subs c
    rdHrdSets subs n false c

/-- video_parameter_set_rbsp to its last bit: no rule reads a value of it, an error in it is one of R324. -/
def rdVps : Rd Unit := do
  let _ ← rdU 12
  let subs ← rdU 3
  rdMax 6 subs
  let _ ← rdU 1
  let ones ← rdU 16
  rdNeed (ones = 65535)
  let _ ← rdProfile subs
  let all ← rdFlag
  let _ ← rdList (if all then subs + 1 else 1) rdLayerOrder
  let layer ← rdU 6
  rdMax 62 layer
  let sets ← rdUe
  rdMax 1023 sets
  rdTimes sets (do
    let _ ← rdU (layer + 1))
  let timing ← rdFlag
  rdIf timing (do
    let _ ← rdU 64
    let poc ← rdFlag
    rdIf poc (do
      let _ ← rdUe)
    let n ← rdUe
    rdMax (sets + 1) n
    rdHrdSets subs n true (false, false, false, 0))
  let ext ← rdFlag
  if ext then fun _ => some ((), []) else rdTrailing

/-! ### Levels (R298, R299) -/

/-- One level: general_level_idc, the largest luma sample rate, and the largest bit rates of the Main and the High tier in
units of the profile's factor. -/
structure Level where
  idc : Nat
  lumaRate : Nat
  mainRate : Nat
  highRate : Nat

/-- The levels up to 6.1. The High tier begins at level 4. -/
def levels : List Level :=
  [⟨30, 552960, 128, 0⟩, ⟨60, 3686400, 1500, 0⟩, ⟨63, 7372800, 3000, 0⟩, ⟨90, 16588800, 6000, 0⟩, ⟨93, 33177600, 10000, 0⟩] ++
  [⟨120, 66846720, 12000, 30000⟩, ⟨123, 133693440, 20000, 50000⟩, ⟨150, 267386880, 25000, 100000⟩, ⟨153, 534773760, 40000, 160000⟩] ++
  [⟨156, 1069547520, 60000, 240000⟩, ⟨180, 1069547520, 60000, 240000⟩, ⟨183, 2139095040, 120000, 480000⟩]

/-- Bit-rate factors of VCL and NAL by profile class. -/
def rateFactor (profile : Nat) : Nat × Nat := if profile = 2 then (667, 733) else (1000, 1100)

/-- Tier and level are listed in R298, and the sample rate and bit rates that the set gives stay within them (R299). -/
def Sps.inLevel (p : Sps) : Bool :=
  match levels.find? (·.idc = p.level) with
  | none => false
  | some l =>
    let most := if p.high then l.highRate else l.mainRate
    0 < most && (p.pictures.all fun x => p.width * p.height * x.1 ≤ l.lumaRate * x.2) &&
      p.vclRates.all (· ≤ most * (rateFactor p.profile).1) && p.nalRates.all (· ≤ most * (rateFactor p.profile).2)

/-! ### Picture parameter sets and slices -/

/-- The tile structure of a picture parameter set, within the limits of the highest level (20 columns, 22 rows). -/
def rdTiles : Rd Unit := do
  let cols ← rdUe
  rdMax 19 cols
  let rows ← rdUe
  rdMax 21 rows
  let uniform ← rdFlag
  rdIf (!uniform) (rdTimes (cols + rows) (do
    let _ ← rdUe))
  let _ ← rdU 1

/-- The deblocking control of a picture parameter set. -/
def rdDeblock : Rd Unit := do
  let _ ← rdU 1
  let off ← rdFlag
  rdIf (!off) (rdTimes 2 (do
    let v ← rdSe
    rdWithin (-6) 6 v))

/-- pps_range_extension, with transform_skip_enabled_flag. -/
def rdPpsRange (skip : Bool) : Rd Unit := do
  rdIf skip (do
    let size ← rdUe
    rdMax 3 size)
  let _ ← rdU 1
  let list ← rdFlag
  rdIf list (do
    let depth ← rdUe
    rdMax 3 depth
    let n ← rdUe
    rdMax 5 n
    rdTimes (2 * (n + 1)) (do
      let v ← rdSe
      rdWithin (-12) 12 v))
  rdTimes 2 (do
    let v ← rdUe
    rdMax 6 v)

/-- pic_parameter_set_rbsp to its last bit: its identifier, the set it refers to, and whether slice segments may be dependent. -/
def rdPps : Rd (Nat × Pps) := do
  let id ← rdUe
  rdMax 63 id
  let sps ← rdUe
  rdMax 15 sps
  let dep ← rdFlag
  let _ ← rdU 6
  rdTimes 2 (do
    let n ← rdUe
    rdMax 14 n)
  let qp ← rdSe
  rdWithin (-74) 25 qp
  let _ ← rdU 1
  let skip ← rdFlag
  let delta ← rdFlag
  rdIf delta (do
    let depth ← rdUe
    rdMax 3 depth)
  rdTimes 2 (do
    let v ← rdSe
    rdWithin (-12) 12 v)
  let _ ← rdU 4
  let tiles ← rdFlag
  let _ ← rdU 1
  rdIf tiles rdTiles
  let _ ← rdU 1
  let control ← rdFlag
  rdIf control rdDeblock
  let scaling ← rdFlag
  rdIf scaling rdScaling
  let _ ← rdU 1
  let merge ← rdUe
  rdMax 4 merge
  let _ ← rdU 1
  rdExtensions (rdPpsRange skip)
  pure (id, { sps, dependent := dep })

/-- The least n with 2^n at or above a value, up to 32. -/
def ceilLog2 (v : Nat) : Nat := ((List.range 32).find? fun n => v ≤ 2 ^ n).getD 32

/-- CTUs of a picture. -/
def Sps.ctus (p : Sps) : Nat := ((p.width + p.ctb - 1) / p.ctb) * ((p.height + p.ctb - 1) / p.ctb)

/-- The head of a slice segment: the sequence parameter set it refers to, its identifier, and the address of its first CTU. -/
def rdSlice (type : Nat) (pps : Tbl Pps) (sps : Tbl Sps) : Rd (Nat × Sps × Nat) := do
  let first ← rdFlag
  rdIf (16 ≤ type && type ≤ 23) (do
    let _ ← rdU 1)
  let id ← rdUe
  match Tbl.find? id pps with
  | none => failure
  | some q => match Tbl.find? q.sps sps with
    | none => failure
    | some p =>
      if first then pure (q.sps, p, 0)
      else
        rdIf q.dependent (do
          let _ ← rdU 1)
        let a ← rdU (ceilLog2 p.ctus)
        rdMax (p.ctus - 1) a
        pure (q.sps, p, a)

/-! ### The decoded picture hash (R301) -/

/-- An SEI value coded in bytes of 0xFF and a last one. -/
def seiSize : Nat → Bytes → Nat × Bytes
  | v, b :: r => if b = 255 then seiSize (v + 255) r else (v + b.toNat, r)
  | v, [] => (v, [])

/-- The SEI messages of a payload: type and bytes; `fuel` bounds their number. -/
def seiMessages : Nat → Bytes → List (Nat × Bytes)
  | 0, _ => []
  | fuel + 1, b =>
    if b.length < 2 then []
    else
      let t := seiSize 0 b
      let n := seiSize 0 t.2
      (t.1, n.2.take n.1) :: seiMessages fuel (n.2.drop n.1)

/-- Bytes of a sample plane: one a sample up to 8 bits, otherwise two, the low byte first. -/
def planeBytes (depth : Nat) (p : List Nat) : Bytes := p.flatMap fun v => leBytes (if depth ≤ 8 then 1 else 2) v

/-- The shifts of one round of MD5. -/
def md5Shifts : List Nat := [7, 12, 17, 22, 5, 9, 14, 20, 4, 11, 16, 23, 6, 10, 15, 21]

/-- The constants of MD5. -/
def md5Consts : List Nat :=
  [0xd76aa478, 0xe8c7b756, 0x242070db, 0xc1bdceee, 0xf57c0faf, 0x4787c62a, 0xa8304613, 0xfd469501] ++
  [0x698098d8, 0x8b44f7af, 0xffff5bb1, 0x895cd7be, 0x6b901122, 0xfd987193, 0xa679438e, 0x49b40821] ++
  [0xf61e2562, 0xc040b340, 0x265e5a51, 0xe9b6c7aa, 0xd62f105d, 0x02441453, 0xd8a1e681, 0xe7d3fbc8] ++
  [0x21e1cde6, 0xc33707d6, 0xf4d50d87, 0x455a14ed, 0xa9e3e905, 0xfcefa3f8, 0x676f02d9, 0x8d2a4c8a] ++
  [0xfffa3942, 0x8771f681, 0x6d9d6122, 0xfde5380c, 0xa4beea44, 0x4bdecfa9, 0xf6bb4b60, 0xbebfbc70] ++
  [0x289b7ec6, 0xeaa127fa, 0xd4ef3085, 0x04881d05, 0xd9d4d039, 0xe6db99e5, 0x1fa27cf8, 0xc4ac5665] ++
  [0xf4292244, 0x432aff97, 0xab9423a7, 0xfc93a039, 0x655b59c3, 0x8f0ccc92, 0xffeff47d, 0x85845dd1] ++
  [0x6fa87e4f, 0xfe2ce6e0, 0xa3014314, 0x4e0811a1, 0xf7537e82, 0xbd3af235, 0x2ad7d2bb, 0xeb86d391]

/-- One of the 64 operations of MD5 on a block of 64 bytes. -/
def md5Step (m : Bytes) (x : Nat × Nat × Nat × Nat) (i : Nat) : Nat × Nat × Nat × Nat :=
  let (a, b, c, d) := x
  let inv (v : Nat) : Nat := 0xFFFFFFFF - v
  let (f, g) :=
    if i < 16 then ((b &&& c) ||| (inv b &&& d), i)
    else if i < 32 then ((d &&& b) ||| (inv d &&& c), (5 * i + 1) % 16)
    else if i < 48 then (b ^^^ c ^^^ d, (3 * i + 5) % 16)
    else (c ^^^ (b ||| inv d), 7 * i % 16)
  let v := (f + a + md5Consts.getD i 0 + leAt m (4 * g) 4) % 2 ^ 32
  let s := md5Shifts.getD (4 * (i / 16) + i % 4) 0
  (d, (b + (v * 2 ^ s % 2 ^ 32 + v / 2 ^ (32 - s))) % 2 ^ 32, b, c)

/-- The blocks of a padded message. -/
def md5Blocks : Nat → Bytes → Nat × Nat × Nat × Nat → Nat × Nat × Nat × Nat
  | 0, _, x => x
  | n + 1, b, x =>
    let y := (List.range 64).foldl (md5Step (b.take 64)) x
    md5Blocks n (b.drop 64) ((x.1 + y.1) % 2 ^ 32, (x.2.1 + y.2.1) % 2 ^ 32, (x.2.2.1 + y.2.2.1) % 2 ^ 32, (x.2.2.2 + y.2.2.2) % 2 ^ 32)

/-- MD5 of a message. -/
def md5 (b : Bytes) : Bytes :=
  let p := b ++ [0x80#8] ++ leBytes ((119 - b.length % 64) % 64) 0 ++ leBytes 8 (8 * b.length)
  let (a, c, d, e) := md5Blocks (p.length / 64) p (0x67452301, 0xefcdab89, 0x98badcfe, 0x10325476)
  leBytes 4 a ++ leBytes 4 c ++ leBytes 4 d ++ leBytes 4 e

/-- The picture CRC of a plane: polynomial 0x1021 over the sample bytes, with 16 zero bits after them (clause D.3.19). -/
def planeCrc (depth : Nat) (p : List Nat) : Nat :=
  (planeBytes depth p ++ [0, 0]).foldl (fun crc (b : Byte) => (List.range 8).foldl (fun c k =>
    (2 * c + (b.toNat / 2 ^ (7 - k) % 2)) % 65536 ^^^ (if 32768 ≤ c then 0x1021 else 0)) crc) 0xFFFF

/-- The picture checksum of a plane (clause D.3.19). -/
def planeChecksum (depth width : Nat) (p : List Nat) : Nat :=
  p.zipIdx.foldl (fun sum v =>
    let x := v.2 % width
    let y := v.2 / width
    let mask := (x % 256) ^^^ (y % 256) ^^^ (x / 256) ^^^ (y / 256)
    let t := sum + ((v.1 % 256) ^^^ mask)
    (if depth ≤ 8 then t else t + ((v.1 / 256) ^^^ mask)) % 2 ^ 32) 0

/-- A big-endian field. -/
def beAt (b : Bytes) (o n : Nat) : Nat := ((b.drop o).take n).foldl (fun v x => 256 * v + x.toNat) 0

/-- The hash of one plane agrees with the one coded at its place (R301). -/
def planeHashOk (b : Bytes) (k depth width : Nat) (p : List Nat) : Bool :=
  match u8 b 0 with
  | 0 => md5 (planeBytes depth p) == (b.drop (1 + 16 * k)).take 16
  | 1 => planeCrc depth p == beAt b (1 + 2 * k) 2
  | 2 => planeChecksum depth width p == beAt b (1 + 4 * k) 4
  | _ => true

/-- A hash SEI agrees with the decoded picture (R301). -/
def hashOk (p : Picture) (b : Bytes) : Bool :=
  planeHashOk b 0 p.bitDepth p.width p.luma &&
    (p.cb = [] || (planeHashOk b 1 p.chromaDepth (p.width / 2) p.cb && planeHashOk b 2 p.chromaDepth (p.width / 2) p.cr))

/-! ### An access unit -/

/-- A slice segment of the picture: its type, the parameter set it refers to, its first CTU, and whether it is abandoned: its
bytes read poisoned, or its address is not above that of every segment decoded before it (R324, R332). -/
structure Slice where
  type : Nat
  spsId : Nat
  sps : Sps
  address : Nat
  bad : Bool

/-- What the bytes of an entry show: the parameter sets in use after it, the identifiers of the sequence parameter sets it
brings, the slice segments, the hashes, syntax errors, and bytes after the first access unit. -/
structure Unit' where
  sps : Tbl Sps
  pps : Tbl Pps
  brings : List Nat := []
  slices : List Slice := []
  hashes : List Bytes := []
  syntaxError : Bool := false
  extra : Bool := false

/-- One NAL unit; `bad` says that its bytes read poisoned (R332). A damaged parameter set is discarded, and the one before it
with its identifier stays in use (R324). -/
def Unit'.take (bad : Bool) (x : Nal) (u : Unit') : Unit' :=
  let wrong : Unit' := { u with syntaxError := true }
  if x.type = 32 then (if bad || (rdVps (x.bits x.bytes.length)).isNone then wrong else u)
  else if x.type = 33 then
    (match bad, (rdSps (x.bits x.bytes.length)).map (·.1) with
     | false, some (id, p) => { u with sps := Tbl.set id p u.sps, brings := u.brings ++ [id] }
     | _, _ => wrong)
  else if x.type = 34 then
    (match bad, (rdPps (x.bits x.bytes.length)).map (·.1) with
     | false, some (id, p) => { u with pps := Tbl.set id p u.pps }
     | _, _ => wrong)
  else if x.type = 39 || x.type = 40 then
    (if bad then wrong
     else { u with hashes := u.hashes ++ ((seiMessages 16 (rbsp 0 (x.bytes.drop 2))).filter (·.1 = 132)).map (·.2) })
  else if x.isSlice then
    (match (rdSlice x.type u.pps u.sps (x.bits 32)).map (·.1) with
     | some (id, p, a) =>
       let bad := bad || u.slices.any fun z => !z.bad && a ≤ z.address
       { u with slices := u.slices ++ [{ type := x.type, spsId := id, sps := p, address := a, bad }], syntaxError := u.syntaxError || bad }
     | none => wrong)
  else u

/-- The bytes of an entry, read at an address; NAL units of other layers are discarded (R301, R306). -/
def readUnit (s : State) (sps : Tbl Sps) (pps : Tbl Pps) (addr len : Nat) : Unit' :=
  let nals := (splitNals 0 none (load s addr len)).filter (·.layer = 0)
  let (own, extra) := firstUnit false nals
  own.foldl (fun u x => u.take (poisoned s (addr + x.first) x.bytes.length) x) { sps, pps, extra }

/-- The end of what a slice segment would cover: the next address above its own, or the end of the picture. -/
def sliceEnd (total : Nat) (l : List Slice) (x : Slice) : Nat :=
  ((l.map (·.address)).filter (x.address < ·)).foldl min total

/-- The CTUs that the heads of the slice segments show as missing: those before the first one, and those that an abandoned one
would have covered (R324, R332). -/
def badCtus (total : Nat) (l : List Slice) : List Nat :=
  List.range ((l.map (·.address)).foldl min total) ++
    (l.filter (·.bad)).flatMap fun x => List.range' x.address (sliceEnd total l x - x.address)

end Sys2Proof.Machine
end

