-- ==== Sys2Proof/Machine/Lane.lean ====
section
/-! DEFINITION. The lanes of a Rhoed link (08_tile_links.md R260, R261, R263 to R268, R271 to R274): the words of each forward
packet, the coding of the forward lane, the code groups of the return lane and the frames they carry. What R260 and R261 take
from IEEE 802.3 is PRESUMED (log 89). -/

namespace Sys2Proof.Machine

/-! ### Words of the forward packets (R263 to R267) -/

/-- TYPE of a packet (R264). -/
def Packet.type : Packet → Nat
  | .subframe .. => 0x01
  | .line .. => 0x02
  | .endp .. => 0x03
  | .abort .. => 0x04
  | .hold => 0x05
  | .mode .. => 0x06
  | .dark => 0x07
  | .control .. => 0x08

/-- BODY of a header word, bytes 4 to 27 (R265 to R267). -/
def Packet.body : Packet → Bytes
  | .subframe m phase slot flags frame sub cr band =>
    leBytes 1 m ++ leBytes 1 phase ++ leBytes 1 slot ++ leBytes 1 flags ++ leBytes 8 frame ++ leBytes 1 sub
      ++ ((List.range 3).flatMap fun k => leBytes 1 (cr.getD k 0)) ++ leBytes 1 (band % 4) ++ leBytes 7 0
  | .line n frame sub _ _ => leBytes 4 n ++ leBytes 8 frame ++ leBytes 12 sub
  | .endp lines frame sub c => leBytes 4 lines ++ leBytes 8 frame ++ leBytes 4 sub ++ leBytes 4 c ++ leBytes 4 0
  | .abort n cause frame sub => leBytes 2 n ++ leBytes 2 cause ++ leBytes 8 frame ++ leBytes 12 sub
  | .mode m retrain frame => leBytes 1 m ++ leBytes 3 retrain ++ leBytes 8 frame ++ leBytes 12 0
  | .control seq opcode frame => leBytes 1 seq ++ leBytes 3 opcode ++ leBytes 8 frame ++ leBytes 12 0
  | .hold => leBytes 24 0
  | .dark => leBytes 24 0

/-- The header word of a packet on a link: MARK, TYPE, LINK, BODY and HCRC (R263). -/
def Packet.header (link : Nat) (p : Packet) : Bytes :=
  let b := leBytes 2 0x6B1F ++ leBytes 1 p.type ++ leBytes 1 link ++ p.body
  b ++ leBytes 4 (crc32c b)

/-- Codes of the pixels of a line, 30 bits each, as one little-endian bit string (R266). -/
def packPixels : List Nat → Nat
  | [] => 0
  | c :: rest => c % 2 ^ 30 + 2 ^ 30 * packPixels rest

/-- The bytes of a packet: one header word, and for a LINE its 450 payload words and the trailer word (R264, R266). -/
def Packet.bytes (link : Nat) (p : Packet) : Bytes :=
  p.header link ++ match p with
    | .line n _ _ codes c => leBytes 14400 (packPixels codes) ++ leBytes 4 c ++ leBytes 28 n
    | _ => []

/-- The bytes cut into link words of 32 (R260, R263). -/
def linkWords : Nat → Bytes → List Bytes
  | 0, _ => []
  | k + 1, b => b.take 32 :: linkWords k (b.drop 32)

/-- The link words of a packet: 452 for a LINE, one for every other packet (R264). -/
def Packet.words (link : Nat) (p : Packet) : List Bytes := linkWords (match p with
  | .line .. => 452
  | _ => 1) (p.bytes link)

/-! ### Coding of the forward lane (R260) -/

/-- One payload bit through the scrambler 1 + x^39 + x^58; bit k of the state is the scrambled bit k + 1 places before. -/
def scrambleBit (st : Nat) (b : Bool) : Nat × Bool :=
  let o := Bool.xor b (Bool.xor (bit st 38) (bit st 57))
  ((2 * st + (if o then 1 else 0)) % 2 ^ 58, o)

/-- A payload of k bits scrambled, bit 0 first. -/
def scramble : Nat → Nat → Nat → Nat × Nat
  | 0, st, _ => (st, 0)
  | k + 1, st, v =>
    let (st, o) := scrambleBit st (bit v 0)
    let (st, rest) := scramble k st (v / 2)
    (st, (if o then 1 else 0) + 2 * rest)

/-- A link word as one 257-bit block: header bit 1, all data, and its four 64-bit payloads as scrambled; bits 4:0 of the block are then
exclusive-ored with its bits 12:8 (Clause 91). -/
def wordBlock (st : Nat) (w : Bytes) : Nat × Nat :=
  let (st, v) := scramble 256 st (leAt w 0 32)
  let b := 1 + 2 * v
  (st, b ^^^ bits b 12 8)

/-- Product in GF(2^10), reduced by x^10 + x^3 + 1: `k` bits of `b` are taken. -/
def gfMul : Nat → Nat → Nat → Nat
  | 0, _, _ => 0
  | k + 1, a, b =>
    let a2 := if 512 ≤ a then (2 * a) ^^^ 0x409 else 2 * a
    (if b % 2 = 1 then a else 0) ^^^ gfMul k a2 (b / 2)

/-- Multiply a polynomial, highest power first, by x + r. -/
def rsTimes (r : Nat) (g : List Nat) : List Nat := List.zipWith (· ^^^ ·) (g ++ [0]) (0 :: g.map (gfMul 10 · r))

/-- The generator polynomial with the roots 2^0 to 2^13, highest power first. -/
def rsGenerator : List Nat :=
  ((List.range 14).foldl (fun (x : List Nat × Nat) _ => (rsTimes x.2 x.1, gfMul 10 x.2 2)) ([1], 1)).1

/-- One message symbol into the 14 parity symbols. -/
def rsStep (g par : List Nat) (m : Nat) : List Nat :=
  let f := m ^^^ par.getD 0 0
  List.zipWith (· ^^^ ·) (par.drop 1 ++ [0]) (g.map (gfMul 10 f))

/-- The parity of a message of 514 symbols (RS(528,514)). -/
def rsParity (ms : List Nat) : List Nat := ms.foldl (rsStep (rsGenerator.drop 1)) (List.replicate 14 0)

/-- One codeword from twenty 257-bit blocks: 514 message symbols of 10 bits and their parity. -/
def codeword (blocks : List Nat) : List Nat :=
  let v := blocks.foldr (fun b v => b + 2 ^ 257 * v) 0
  let ms := (List.range 514).map fun k => v / 2 ^ (10 * k) % 1024
  ms ++ rsParity ms

/-- The words of a lane as blocks, from a state of the scrambler on. -/
def laneBlocks : Nat → List Bytes → List Nat
  | _, [] => []
  | st, w :: r => (wordBlock st w).2 :: laneBlocks (wordBlock st w).1 r

/-- The codewords of `k` times twenty words of a lane. -/
def laneCodewords : Nat → List Nat → List (List Nat)
  | 0, _ => []
  | k + 1, bs => codeword (bs.take 20) :: laneCodewords k (bs.drop 20)

/-- The words of the packets among some outputs that are sent on a link, oldest first (R263). One HOLD stands for the HOLD words up to
the next packet (log 89). -/
def laneWords (n : Nat) (out : List Sent) : List Bytes :=
  out.flatMap fun o => match o with
    | .tile k p => if k = n then p.words n else []
    | _ => []

/-- The codewords of a forward lane: what the 9610 has sent on it, coded from a state of the scrambler that Clause 49 leaves free
(R260; log 89). -/
def laneStream (s : State) (n : Nat) : List (List Nat) :=
  let ws := laneWords n s.sent
  laneCodewords (ws.length / 20) (laneBlocks (Config.laneSeed n % 2 ^ 58) ws)

/-- Rate of a forward lane in baud (R260). -/
def laneBaud (half : Bool) : Nat := if half then 12890625000 else 25781250000

/-- What a forward lane carries (R275). -/
inductive Forward where
  | electricalIdle | prbs31 | holds | packets
  deriving DecidableEq, Repr

/-- The forward lane by the state of the link (R275). -/
def forwardOf : LinkState → Forward
  | .off | .failed => .electricalIdle
  | .training => .prbs31
  | .aligning => .holds
  | .up => .packets

/-! ### Code groups of the return lane (R261, R271) -/

/-- The six bits of D.x at negative running disparity, first bit as bit 5. -/
def table6 : List Nat :=
  [0x27, 0x1D, 0x2D, 0x31, 0x35, 0x29, 0x19, 0x38, 0x39, 0x25, 0x15, 0x34, 0x0D, 0x2C, 0x1C, 0x17] ++
  [0x1B, 0x23, 0x13, 0x32, 0x0B, 0x2A, 0x1A, 0x3A, 0x33, 0x26, 0x16, 0x36, 0x0E, 0x2E, 0x1E, 0x2B]

/-- The four bits of D.x.y at negative running disparity, first bit as bit 3. -/
def table4 : List Nat := [0xB, 0x9, 0x5, 0xC, 0xD, 0xA, 0x6, 0xE]

/-- Ones among the low k bits. -/
def onesIn (k v : Nat) : Nat := ((List.range k).map fun i => v / 2 ^ i % 2).sum

/-- The six bits of D.x; `neg`: the running disparity is negative. -/
def code6 (neg : Bool) (x : Nat) : Nat :=
  let c := table6.getD x 0
  if neg || (onesIn 6 c = 3 && x ≠ 7) then c else 63 - c

/-- Bits fghj of D.x.7 take their second form in these groups. -/
def alternate7 (neg : Bool) (x : Nat) : Bool := if neg then [17, 18, 20].contains x else [11, 13, 14].contains x

/-- The four bits of D.x.y. -/
def code4 (neg : Bool) (x y : Nat) : Nat :=
  let c := if y = 7 && alternate7 neg x then 0x7 else table4.getD y 0
  if neg || (onesIn 4 c = 2 && y ≠ 3) then c else 15 - c

/-- The running disparity after a sub-block of k bits: an unbalanced one changes it. -/
def disparityAfter (neg : Bool) (k c : Nat) : Bool := if 2 * onesIn k c = k then neg else !neg

/-- The code group of a data byte and the running disparity after it. -/
def encode10 (neg : Bool) (b : Nat) : Nat × Bool :=
  let c := code6 neg (b % 32)
  let n := disparityAfter neg 6 c
  let d := code4 n (b % 32) (b / 32)
  (16 * c + d, disparityAfter n 4 d)

/-- The data byte of a code group at a running disparity, and the disparity after it; none for a code violation. -/
def decode10 (neg : Bool) (g : Nat) : Option (Nat × Bool) :=
  match (List.range 32).find? fun x => code6 neg x = g / 16 with
  | none => none
  | some x =>
    let n := disparityAfter neg 6 (g / 16)
    match (List.range 8).find? fun y => code4 n x y = g % 16 with
    | none => none
    | some y => some (x + 32 * y, disparityAfter n 4 (g % 16))

/-- The data bytes of a run of code groups; none at the first code violation. -/
def decodeGroups : Bool → List Nat → Option Bytes
  | _, [] => some []
  | neg, g :: r =>
    match decode10 neg g with
    | none => none
    | some (b, n) => (decodeGroups n r).map fun l => BitVec.ofNat 8 b :: l

/-- K28.5 at negative and at positive running disparity. -/
def comma (neg : Bool) : Nat := if neg then 0x0FA else 0x305

/-- The 32 bytes of a frame: K28.5, which shows the running disparity, and 32 data code groups (R271). -/
def frameBytes : List Nat → Option Bytes
  | [] => none
  | k :: r =>
    if r.length ≠ 32 then none
    else if k = comma true then decodeGroups false r
    else if k = comma false then decodeGroups true r
    else none

/-- Data bytes as a tile sends them at a running disparity. -/
def encodeGroups : Bool → Bytes → List Nat
  | _, [] => []
  | neg, b :: r => (encode10 neg b.toNat).1 :: encodeGroups (encode10 neg b.toNat).2 r

/-- A frame as a tile sends it: K28.5, bytes 0 to 27 and their CRC-32C (R271). -/
def frameGroups (neg : Bool) (b : Bytes) : List Nat := comma neg :: encodeGroups (!neg) (b ++ leBytes 4 (crc32c b))

/-- A received frame of a TYPE with a good CRC (R271, R284). -/
def goodFrame (type : Nat) (gs : List Nat) : Option Bytes :=
  (frameBytes gs).filter fun b => u8 b 0 = type && leAt b 28 4 = crc32c (b.take 28)

/-! ### Frames of the return lane (R272 to R274) -/

/-- A TRAIN frame (R274). -/
structure TrainFrame where
  reqPre : Nat
  reqMain : Nat
  reqPost : Nat
  ready : Bool
  deriving DecidableEq, Repr

/-- An IDENT frame (R273). -/
structure IdentFrame where
  pos : Nat
  caps : Nat
  rev : Nat
  panelId : Nat
  tileSerial : Nat
  deriving DecidableEq, Repr

/-- A STATUS frame (R272). -/
structure StatusFrame where
  flags : Nat
  ackSeq : Nat
  temp : Nat
  fault : Nat
  lastFrame : Nat
  lastPhase : Nat
  lineCrcErr : Nat
  sfErr : Nat
  hdrErr : Nat
  fecCorr : Nat
  fecUncorr : Nat
  statusSeq : Nat
  deriving DecidableEq, Repr

/-- The fields of a TRAIN frame (R274). -/
def trainOf (b : Bytes) : TrainFrame := { reqPre := u8 b 2, reqMain := u8 b 3, reqPost := u8 b 4, ready := u8 b 5 = 1 }

/-- The fields of an IDENT frame (R273). -/
def identOf (b : Bytes) : IdentFrame := { pos := u8 b 1, caps := u8 b 2, rev := u8 b 3, panelId := leAt b 4 8, tileSerial := leAt b 12 8 }

/-- The fields of a STATUS frame (R272). -/
def statusOf (b : Bytes) : StatusFrame :=
  { flags := u8 b 2, ackSeq := u8 b 3, temp := leAt b 4 2, fault := leAt b 6 2, lastFrame := leAt b 8 4, lastPhase := u8 b 12
    lineCrcErr := leAt b 14 2, sfErr := leAt b 16 2, hdrErr := leAt b 18 2, fecCorr := leAt b 20 4, fecUncorr := leAt b 24 2
    statusSeq := leAt b 26 2 }

end Sys2Proof.Machine
end

