-- ==== Sys2Proof/Machine/Links.lean ====
section
/-! DEFINITION. The tile links (08_tile_links.md): training, return-lane frames, monitoring, half service and control
messages. -/

namespace Sys2Proof.Machine

/-- A tile link. -/
def linkOf (s : State) (n : Nat) : Link := Tbl.get s.tlk.links {} n

/-- Set a link. -/
def setLink (n : Nat) (l : Link) (s : State) : State := { s with tlk := { s.tlk with links := Tbl.set n l s.tlk.links } }

/-- A tile-link group. -/
def groupOf (s : State) (g : Nat) : LinkGroup := Tbl.get s.tlk.groups {} g

/-- Set a group. -/
def setGroup (g : Nat) (x : LinkGroup) (s : State) : State :=
  { s with tlk := { s.tlk with groups := Tbl.set g x s.tlk.groups } }

/-- The link belongs to a configured tile row (R193, R259). -/
def configured (s : State) (n : Nat) : Bool := n / 8 < configRows s

/-! ### Training (R275 to R278, R291 to R293) -/

/-- The spread of a group takes effect when its links next train (R293). -/
def takeSpread (g : Nat) (s : State) : State :=
  let x := groupOf s g
  match x.pending with
  | none => s
  | some (a, b) => setGroup g { x with spread := a, modRate := b, pending := none } s

/-- The link's tile is in half service: UP at half rate in a mode that carries halves (R286, R291). -/
def halfService (s : State) (n : Nat) : Bool :=
  (linkOf s n).state == .up && (linkOf s n).half && (dense s.tim.mode || s.tim.mode == 3 || s.tim.mode == 4)

/-- A link that leaves UP no longer counts for RETRAIN (R220); the frame in which it leaves half service keeps its mark (R175, R288). -/
def leaveUp (n : Nat) (s : State) : State :=
  let t := { s with tim := { s.tim with retrainLinks := s.tim.retrainLinks.filter (· ≠ n) } }
  if halfService s n then setLink n { linkOf s n with halfSeen := true } t else t

/-- Training starts with PRBS31 at full or half rate (R275, R277). The base of the second's differences is taken anew (R284). -/
def startTraining (n : Nat) (half retried : Bool) (s : State) : State :=
  let t := send (.prbs31 n half) (leaveUp n (takeSpread (n / 8) s))
  setLink n { linkOf t n with
    state := .training, half, retried, trainStart := tb0 t, cwLock := false, lossSince := none
    halfSince := if half then some ((linkOf t n).halfSince.getD (tb0 t)) else none
    base := none, latest := none, badSeconds := 0, headerNext := false, headerNow := false, deadNext := false, lcrcs := [], aborted := none } t

/-- The link is marked FAILED: its forward lane is in electrical idle (R273, R275, R277, R289). -/
def failLink (n : Nat) (s : State) : State :=
  let t := leaveUp n s
  send (.idle n) (setLink n { linkOf t n with state := .failed, failedAt := tb0 t, headerNext := false, headerNow := false } t)

/-- The dark command is sent on a link in its next word slot, which only an UP link has (R267, R275, R283). -/
def sendDark (n : Nat) (s : State) : State := if (linkOf s n).state == .up then send (.tile n .dark) s else s

/-- The band of a tile whose link has trained is chosen anew (R228). -/
def freshTile (n : Nat) (m : Tbl Tile) : Tbl Tile := Tbl.set n { Tbl.get m {} n with first := false } m

/-- So is the band that a latch instant before has chosen for the coming tick. -/
def anewTile (n : Nat) (m : Tbl Tile) : Tbl Tile :=
  let x := Tbl.get m {} n
  Tbl.set n { x with band := x.anew.getD x.band, first := x.anew.isSome } m

/-- The link goes UP on an accepted IDENT once the tile has reported codeword lock (R275; log 81); its band is chosen anew at
the next tick (R228), and a tile held dark is told so (R678). -/
def goUp (n : Nat) (s : State) : State :=
  let l := linkOf s n
  if l.state == .aligning && l.cwLock then
    let t := setLink n { l with state := .up, retried := false, lossSince := none } s
    let t := { t with out := { t.out with tiles := freshTile n t.out.tiles, tilesNext := t.out.tilesNext.map (anewTile n) } }
    if l.darkCmd then sendDark n t else t
  else s

/-- A tap moves one step as a TRAIN request asks: 1 increment, 2 decrement; a tap at its limit holds (R274, R275). The
limits are 0 to 16 steps before and 0 to 32 after the main tap (R662). -/
def tapStep (req : Nat) (lo hi x : Int) : Int :=
  if req = 1 then min (x + 1) hi else if req = 2 then max (x - 1) lo else x

/-- A TRAIN frame: its tap requests are applied; READY moves the link to ALIGNING, with a stream of HOLD words (R274, R275). The main tap takes the
remainder of the other two and its step has no bound of its own (R662, log 18). -/
def trainStep (n : Nat) (f : TrainFrame) (s : State) : State :=
  let l := linkOf s n
  let l := { l with tapPre := tapStep f.reqPre (-16) 0 l.tapPre, tapMain := tapStep f.reqMain (-48) 48 l.tapMain,
                    tapPost := tapStep f.reqPost (-32) 0 l.tapPost }
  if f.ready then send (.tile n .hold) (setLink n { l with state := .aligning, cwLock := false } s) else setLink n l s

/-- TRAIN_FRAME (R274). A frame with a code violation, another TYPE or a bad CRC is ignored (R271, R284). -/
def execTrainFrame (link : Nat) (groups : List Nat) (s : State) : Out :=
  match goodFrame 0x03 groups with
  | none => done s
  | some b => done (ifEvent ((linkOf s link).state == .training) (trainStep link (trainOf b) s) s)

/-- The PANEL_ID of an accepted IDENT: the first names the attached panel, a different one is a mismatch (R55, R294). -/
def takePanel (id : Nat) (s : State) : State :=
  match s.geom.panelId with
  | none => { s with geom := { s.geom with panelId := some id } }
  | some k => if k = id || s.geom.otherPanels.contains id then s
      else { s with geom := { s.geom with panelMismatch := true, otherPanels := s.geom.otherPanels ++ [id], renewed := [] } }

/-- An IDENT: accepted when POS is the link's number and both capabilities are 1, otherwise the link fails (R273). -/
def identStep (n : Nat) (f : IdentFrame) (s : State) : State :=
  let l := { linkOf s n with rev := f.rev, panelId := some f.panelId, tileSerial := f.tileSerial }
  if f.pos = n && f.caps % 4 = 3 then
    goUp n (takePanel f.panelId (setLink n { l with identMismatch := false } s))
  else failLink n (setLink n { l with identMismatch := true } s)

/-- IDENT_FRAME (R273). A frame with a code violation, another TYPE or a bad CRC is ignored (R271, R284). -/
def execIdentFrame (link : Nat) (groups : List Nat) (s : State) : Out :=
  match goodFrame 0x02 groups with
  | none => done s
  | some b => done (ifEvent ((linkOf s link).state == .aligning || (linkOf s link).state == .up) (identStep link (identOf b) s) s)

/-- TRAINING_TIMEOUT: one retry at once, then FAILED (R277). -/
def execTrainingTimeout (link : Nat) (s : State) : Out :=
  let l := linkOf s link
  let t := advanceTo0 (l.trainStart + 100000000) s
  done (ifEvent (l.state == .training || l.state == .aligning)
    (if l.retried then failLink link t else startTraining link l.half true t) s)

/-- FAILED_RETRAIN: 60 s after FAILED the link trains at the rate it had (R291). -/
def execFailedRetrain (link : Nat) (s : State) : Out :=
  let l := linkOf s link
  done (ifEvent (l.state == .failed) (startTraining link l.half false (advanceTo0 (l.failedAt + 60000000000) s)) s)

/-- CW_LOCK_LOSS: STATUS has reported CW_LOCK 0 for 1 ms (R275). -/
def execCwLockLoss (link : Nat) (s : State) : Out :=
  let l := linkOf s link
  match l.lossSince with
  | none => done s
  | some t => done (ifEvent (l.state == .up) (startTraining link l.half false (advanceTo0 (t + 1000000) s)) s)

/-! ### STATUS (R272, R284) -/

/-- The fields of a valid STATUS (R272); the first one after a stale time is the new base (R284). -/
def Link.status (now : Nat) (f : StatusFrame) (l : Link) : Link :=
  let counts := (f.fecUncorr, f.lineCrcErr)
  { l with
    flags := f.flags, ackSeq := f.ackSeq, temp := f.temp, fault := f.fault, lastFrame := f.lastFrame, lastPhase := f.lastPhase
    sfErr := f.sfErr, hdrErr := f.hdrErr, fecCorr := f.fecCorr, statusSeq := f.statusSeq
    latest := some counts
    base := if l.stale || l.base.isNone then some counts else l.base
    lastStatus := some now, stale := false
    cwLock := l.cwLock || (l.state == .aligning && bit f.flags 5)
    lossSince := if bit f.flags 5 then none else if l.lossSince.isNone then some now else l.lossSince
    rateWait := l.rateWait && (l.modeDue || !bit f.flags 6) }

/-- A STATUS frame: its fields, and RATE_READY after an announced change of rate (R220, R272, R275, R278). -/
def statusStep (n : Nat) (f : StatusFrame) (s : State) : State :=
  let t := setLink n ((linkOf s n).status (tb0 s) f) s
  if bit f.flags 6 && !(linkOf s n).modeDue then leaveUp n t else t

/-- STATUS_FRAME (R272). A frame with a code violation, another TYPE or a bad CRC is ignored (R271, R284). -/
def execStatusFrame (link : Nat) (groups : List Nat) (s : State) : Out :=
  match goodFrame 0x01 groups with
  | none => done s
  | some b => done (ifEvent ((linkOf s link).state != .off) (statusStep link (statusOf b) s) s)

/-- STATUS_STALE: no valid STATUS for 100 ms (R284). -/
def execStatusStale (link : Nat) (s : State) : Out :=
  let l := linkOf s link
  match l.lastStatus with
  | none => done s
  | some t => done (ifEvent (l.state == .up && !l.stale)
      (log (hw 2) link 0x62 0 (setLink link { l with stale := true, staleInSecond := true } (advanceTo0 (t + 100000000) s))) s)

/-! ### Control messages and planned rates (R268, R285, R676) -/

/-- Control windows left before the next frame tick: a window counts while its first line is still to come (R268). -/
def windowsLeft (s : State) : Nat :=
  if s.tim.rasterRun then (subframes s.tim.mode - 1 - s.tim.sub) + (if s.tim.line < 1442 then 1 else 0) else 0

/-- The mode of frame f, by the mode in effect and the pending one. -/
def modeAt (s : State) (f : Nat) : Nat :=
  match pendingMode s with
  | some (c, g) => if g ≤ f then c else s.tim.mode
  | none => s.tim.mode

/-- The first frame whose tick comes after at least two control windows: each subframe has one (R269, R285, R676). -/
def rateFrame (s : State) : Nat :=
  let w := windowsLeft s
  let f := s.tim.frameCount
  f + (if 2 ≤ w then 1 else if 2 ≤ w + subframes (modeAt s (f + 1)) then 2 else 3)

/-- Queue a control message to a link (R268). -/
def control (n opcode frame : Nat) (s : State) : State :=
  let l := linkOf s n
  setLink n { l with seq := wrapAdd 8 l.seq 1, controls := l.controls ++ [{ seq := l.seq, opcode, frame }] } s

/-- A message has been sent in one more control window. One that is to be sent in every window up to its tick goes on as a
message with a new SEQ after three windows (R268, R285, R676; log 81). -/
def Link.sentControl (l : Link) (c : Control) : Link :=
  if 1 < c.left then { l with controls := l.controls ++ [{ c with left := c.left - 1 }] }
  else { l with seq := wrapAdd 8 l.seq 1, controls := l.controls ++ [{ c with seq := l.seq, left := 3 }] }

/-- A change of rate is requested and not yet at its tick. -/
def Link.has (l : Link) (opcode : Nat) : Bool := l.controls.any fun c => c.opcode == opcode

/-- At a frame tick the messages that name it act: DEGRADE, RESTORE and RETRAIN return the link to TRAINING (R275, R285,
R290); DEGRADE governs where several meet (R290). -/
def controlTick (f n : Nat) (s : State) : State :=
  let l := linkOf s n
  let due := l.controls.filter fun c => 3 ≤ c.opcode && c.frame ≤ f
  let t := setLink n { l with controls := l.controls.filter fun c => !(3 ≤ c.opcode && c.frame ≤ f) } s
  if due.isEmpty || l.state != .up then t
  else startTraining n (if due.any (·.opcode == 3) then true else if due.any (·.opcode == 4) then false else l.half) false t

/-- Every link of every group at a frame tick. -/
def controlTicks (f : Nat) (s : State) : State := (List.range 96).foldl (fun t n => controlTick f n t) s

/-- No tile has been in half service yet in the frame that begins (R175). -/
def freshHalves (s : State) : State := { s with tlk := { s.tlk with links := s.tlk.links.map fun l => (l.1, { l.2 with halfSeen := false }) } }

/-! ### Each second (R284, R285, R289) -/

/-- UNC and LINE_ERR of the second (R284). -/
def Link.second (l : Link) : Nat × Nat :=
  if l.staleInSecond || l.stale then (0, 0)
  else match l.base, l.latest with
    | some b, some x => ((x.1 + 65536 - b.1) % 65536, (x.2 + 65536 - b.2) % 65536)
    | _, _ => (0, 0)

/-- The decision of the group at the end of a second (R285, R289). `old` is UNC of the second before. -/
def judge (n old unc : Nat) (s : State) : State :=
  let l := linkOf s n
  if l.badSeconds < 2 then s
  else
    let d := min old 65535 + 65536 * min unc 65535
    let t := setLink n { l with badSeconds := 0 } s
    if l.half then log (hw 2) n 0x61 d (assertFault (failLink n t))
    else if l.has 3 then t
    else
      let t := control n 3 (rateFrame s) t
      log (hw 2) n 0x60 d (setLink n { linkOf t n with degradeSeen := true } t)

/-- One UP link at the end of a TB0 second (R284, R285). A second in which the raster was stopped does not meet the
criterion. -/
def secondOf (stopped : Bool) (n : Nat) (s : State) : State :=
  let l := linkOf s n
  if l.state != .up then setLink n { l with staleInSecond := l.stale } s
  else
    let (unc, err) := l.second
    let bad := !stopped && (groupOf s (n / 8)).uncLimit ≤ unc
    judge n l.unc unc (setLink n { l with
      unc, lineErr := err, uncTotal := satAdd 32 l.uncTotal unc, lineErrTotal := satAdd 32 l.lineErrTotal err
      crcErrSeen := l.crcErrSeen || 0 < err, base := l.latest, staleInSecond := l.stale
      badSeconds := if bad then l.badSeconds + 1 else 0 } s)

/-- LINK_SECOND (R284). -/
def execLinkSecond (s : State) : Out :=
  let t := (List.range 96).foldl (fun t n => secondOf s.tlk.stoppedInSecond n t) s
  done { t with tlk := { t.tlk with stoppedInSecond := !s.tim.rasterRun } }

/-! ### Dark and the group's domain (R275, R283, R290, R678) -/

/-- DEVICE.DARK holds a link dark: from then on no header, line, END or ABORT (R294, R678). -/
def holdDark (n : Nat) (s : State) : State :=
  if (linkOf s n).darkCmd then s
  else sendDark n (setLink n { linkOf s n with darkCmd := true, headerNext := false, headerNow := false } s)

/-- DARK on every link of a tile row (R215, R576). -/
def darkRow (r : Nat) (s : State) : State := (List.range 8).foldl (fun t c => sendDark (8 * r + c) t) s

/-- A group's domain is ready: its links train at full rate and its counters are clear (R275, R290, R296). ENABLED follows the straps (R295). -/
def groupOn (g : Nat) (s : State) : State :=
  (List.range 8).foldl (fun t c =>
    let n := 8 * g + c
    let l := linkOf t n
    let t := setLink n { l with uncTotal := 0, lineErrTotal := 0, modeDue := false, rateWait := false } t
    if configured s n then startTraining n false false t else t) s

/-- A group's domain is switched off: its links are OFF, their forward lanes in electrical idle (R275). -/
def groupOff (g : Nat) (s : State) : State :=
  (List.range 8).foldl (fun t c =>
    let t := if (linkOf t (8 * g + c)).state == .off then t else send (.idle (8 * g + c)) (leaveUp (8 * g + c) t)
    setLink (8 * g + c) { linkOf t (8 * g + c) with state := .off, half := false, headerNext := false, headerNow := false, controls := [],
                                                    stale := false, lastStatus := none, base := none, latest := none } t) s

/-- Clock domains stopped: every link with a forward signal trains again from TRAINING (R294). -/
def retrainAll (s : State) : State :=
  (List.range 96).foldl (fun t n =>
    let l := linkOf t n
    if l.state == .off || l.state == .failed then t else startTraining n l.half false t) s

/-- A link that carries subframes: UP, its tile's timing ready, not held dark (R269, R278, R678). -/
def carries (s : State) (n : Nat) : Bool :=
  let l := linkOf s n
  forwardOf l.state == .packets && bit l.flags 6 && !l.rateWait && !l.darkCmd

/-! ### Packets (R263 to R267) -/

/-- Codes of the pixels of a line as the payload of a LINE packet: 30 bits a pixel, little-endian (R266). -/
def packCodes : List (Nat × Nat × Nat) → Nat
  | [] => 0
  | (r, g, b) :: rest => r % 1024 + 1024 * (g % 1024) + 1048576 * (b % 1024) + 2 ^ 30 * packCodes rest

/-- The payload of a LINE packet for a tile line of 3,840 pixels (R266). -/
def linePayload (px : List (Nat × Nat × Nat)) : Bytes := leBytes 14400 (packCodes px)

/-- LCRC of a line (R266). -/
def lcrc (px : List (Nat × Nat × Nat)) : Nat := crc32 (linePayload px)

/-- SCRC over the lines carried, in line order (R267). -/
def scrc (ls : List Nat) : Nat := crc32 (ls.flatMap (leBytes 4))

/-- HALF of a header: 0 FULL, 1 EVEN, 2 ODD (R265, R286). -/
def halfOf (half : Bool) (mode frame sub : Nat) : Nat :=
  if !half then 0
  else if dense mode then (if sub = 0 then 1 else 2)
  else if mode = 3 ∨ mode = 4 then (if frame % 2 = 0 then 1 else 2)
  else 0

/-- The service carries a line of the parity (R269, R286). -/
def carriesLine (h line : Nat) : Bool := h == 0 || (h == 1 && line % 2 == 0) || (h == 2 && line % 2 == 1)

end Sys2Proof.Machine
end

