-- ==== Sys2Proof/Machine/Geometry.lean ====
section
/-! DEFINITION. Ray geometry (02_ray_geometry.md): the lens grid store, the interpolation of a lenslet and the sample
position of a ray. Positions are s13.12, tangents s2.14, disparities s9.6. -/

namespace Sys2Proof.Machine

/-- A bank of half 0 (R56). -/
def geomBank (s : State) (b : Nat) : GeomBank := Tbl.get s.geom.banks {} b

/-- The active bank (R56). -/
def activeGeom (s : State) : GeomBank := geomBank s s.geom.active

/-- The bank copy that tile row r reads: half 0 serves rows 0 to 5, half 1 rows 6 to 11 (R56). -/
def rowGeom (s : State) (r : Nat) : GeomBank :=
  if r < 6 then activeGeom s else Tbl.get s.geom.half1 {} s.geom.active

/-- The grid entry of node (gx, gy); a word that read uncorrectable gives 0 in every field (R46, R67). -/
def gridNode (g : GeomBank) (bad : List Nat) (gx gy : Nat) : GridNode :=
  if bad.contains (100 + (480 * gy + gx)) then {} else Tbl.get g.grid {} (480 * gy + gx)

/-- BD[p][j][i]; one BD word holds two entries, and an uncorrectable word gives 0 for both (R45, R67). -/
def baseDir (g : GeomBank) (bad : List Nat) (p j i : Nat) : Int × Int :=
  let k := 100 * p + 10 * j + i
  if bad.contains (k / 2) then (0, 0)
  else let e := Tbl.get g.bd (0, 0) k; (signed 16 e.1, signed 16 e.2)

/-- Grid position and u0.8 weight of a lenslet column or row, with the last node's number (R48). -/
def gridPos (last u : Nat) : Nat × Nat :=
  if 40 * u < 108 then (0, 0)
  else
    let g := 40 * u - 108
    if last * 256 ≤ g then (last, 0) else (g / 256, g % 256)

/-- The blend of four nodes, rounded half up (R49). -/
def blend (wx wy : Nat) (e00 e10 e01 e11 : Int) : Int :=
  let w00 : Int := (256 - wx) * (256 - wy)
  let w10 : Int := wx * (256 - wy)
  let w01 : Int := (256 - wx) * wy
  let w11 : Int := wx * wy
  (w00 * e00 + w10 * e10 + w01 * e01 + w11 * e11 + 32768) / 65536

/-- What the geometry fixes of one ray: its lenslet, the origin offsets and the tangents (R50). -/
structure RayGeom where
  u : Nat
  v : Nat
  du : Int
  dv : Int
  tsx : Int
  tsy : Int
  deriving DecidableEq, Repr

/-- One field of the four nodes around a lenslet, blended (R48, R49). -/
def lensField (g : GeomBank) (bad : List Nat) (u v : Nat) (f : GridNode → Nat) : Int :=
  let x := gridPos 479 u
  let y := gridPos 269 v
  let x1 := min (x.1 + 1) 479
  let y1 := min (y.1 + 1) 269
  let e (gx gy : Nat) : Int := signed 16 (f (gridNode g bad gx gy))
  blend x.2 y.2 (e x.1 y.1) (e x1 y.1) (e x.1 y1) (e x1 y1)

/-- The ray of pixel (x, y) in phase p (R38, R50). -/
def rayOf (g : GeomBank) (bad : List Nat) (p x y : Nat) : RayGeom :=
  let u := x / 10
  let v := y / 10
  let d := baseDir g bad p (y % 10) (x % 10)
  { u, v, du := lensField g bad u v (·.du), dv := lensField g bad u v (·.dv)
    tsx := d.1 + lensField g bad u v (·.dtx), tsy := d.2 + lensField g bad u v (·.dty) }

/-- The sample position (X12, Y12) on a plane of disparity D (R50). -/
def RayGeom.sampleAt (r : RayGeom) (d : Int) : Int × Int :=
  (r.u * 4096 + 2048 + r.du + (d * r.tsx + 128) / 256, r.v * 4096 + 2048 + r.dv + (d * r.tsy + 128) / 256)

/-- R64: whether a geometry set allows a mode. -/
def geomAllows (g : GeomBank) (mode : Nat) : Bool :=
  mode == 6 || mode == 0x10 || (g.version ≠ 0 && (!dense mode || g.phaseBValid))

/-- The bank and frame of an accepted geometry activation that waits (R59, R60). -/
def pendingGeom (s : State) : Option Nat :=
  s.tim.pending.findSome? fun p => match p.change with
    | .geomSwap _ => some p.frame
    | _ => none

/-- The sets that R64 looks at allow a mode: the active one and that of an accepted activation. -/
def geomReady (s : State) (mode : Nat) : Bool :=
  geomAllows (activeGeom s) mode && (pendingGeom s).all fun _ => geomAllows (geomBank s (1 - s.geom.active)) mode

end Sys2Proof.Machine
end

