-- ==== Sys2Proof/Machine/Layers.lean ====
section
/-! DEFINITION. Layers and the composition of one ray (03_layers_and_composition.md R71 to R98): entries, pixel formats,
sampling, depth order, the kept list, accumulation, and the texels of a Sideboard group. -/

namespace Sys2Proof.Machine

/-! ### Entries (R71 to R74) -/

/-- A buffer descriptor of 16 bytes (R72). -/
def descOf (b : Bytes) : Desc := { addr := leAt b 0 8, width := leAt b 8 2, height := leAt b 10 2, stride64 := leAt b 12 2, format := u8 b 14 }

/-- The bytes of a buffer descriptor (R72). -/
def Desc.bytes (d : Desc) : Bytes := leBytes 8 d.addr ++ leBytes 2 d.width ++ leBytes 2 d.height ++ leBytes 2 d.stride64 ++ leBytes 1 d.format ++ leBytes 1 0

/-- No buffer: all 0 (R72). -/
def Desc.isNone (d : Desc) : Bool := d == {}

/-- A layer-table entry of 64 bytes (R71). -/
def layerEntryOf (b : Bytes) : LayerEntry :=
  { front := descOf (b.take 16), back := descOf ((b.drop 16).take 16), originX := leAt b 32 4, originY := leAt b 36 4
    scaleX := leAt b 40 2, scaleY := leAt b 42 2, disparity := leAt b 44 2, layerAlpha := u8 b 46, cls := u8 b 47
    flags := leAt b 48 2, fenceId := u8 b 50, videoSource := u8 b 51, fenceValue := leAt b 52 4
    opqX0 := leAt b 56 2, opqY0 := leAt b 58 2, opqX1 := leAt b 60 2, opqY1 := leAt b 62 2 }

/-- The 64 bytes of an entry (R71). -/
def LayerEntry.bytes (e : LayerEntry) : Bytes :=
  e.front.bytes ++ e.back.bytes ++ leBytes 4 e.originX ++ leBytes 4 e.originY ++ leBytes 2 e.scaleX ++ leBytes 2 e.scaleY
  ++ leBytes 2 e.disparity ++ leBytes 1 e.layerAlpha ++ leBytes 1 e.cls ++ leBytes 2 e.flags ++ leBytes 1 e.fenceId
  ++ leBytes 1 e.videoSource ++ leBytes 4 e.fenceValue ++ leBytes 2 e.opqX0 ++ leBytes 2 e.opqY0 ++ leBytes 2 e.opqX1 ++ leBytes 2 e.opqY1

/-- ENABLE (R73). -/
def LayerEntry.enabled (e : LayerEntry) : Bool := bit e.flags 0
/-- Premultiplied input (ALPHA_MODE, R73). -/
def LayerEntry.premultiplied (e : LayerEntry) : Bool := bit e.flags 1
/-- OPACITY: 0 NONE, 1 RECT, 2 FULL (R73). -/
def LayerEntry.opacity (e : LayerEntry) : Nat := bits e.flags 3 2
/-- STALE_DROP (R73). -/
def LayerEntry.staleDrop (e : LayerEntry) : Bool := bit e.flags 4
/-- SIGNED (R73). -/
def LayerEntry.isSigned (e : LayerEntry) : Bool := bit e.flags 5
/-- The entry with ENABLE as given. -/
def LayerEntry.enable (on : Bool) (e : LayerEntry) : LayerEntry := { e with flags := e.flags / 2 * 2 + (if on then 1 else 0) }
/-- Classes of R71. -/
def LayerEntry.safety (e : LayerEntry) : Bool := e.cls == 3

/-- Bytes of a pixel (R74). -/
def pixelBytes (f : Nat) : Nat := if f = 1 ∨ f = 2 ∨ f = 3 then 2 else if f = 4 then 3 else 4

/-- The formats of R74. -/
def formatOk (f : Nat) : Bool := 1 ≤ f && f ≤ 7

/-- A descriptor that is no buffer or meets the ranges of R72; bits 63:40 of ADDR are reserved. -/
def Desc.ok (d : Desc) : Bool :=
  d.isNone || (formatOk d.format && 1 ≤ d.width && d.width ≤ 16384 && 1 ≤ d.height && d.height ≤ 16384 && 1 ≤ d.stride64 &&
    d.stride64 ≤ 4096 && d.width * pixelBytes d.format ≤ 64 * d.stride64 && d.addr % 64 == 0 && d.addr < 2 ^ 40)

/-- Bytes from the first to the last pixel of a buffer (R73). -/
def Desc.extent (d : Desc) : Nat := if d.isNone then 0 else 64 * d.stride64 * (d.height - 1) + d.width * pixelBytes d.format

/-! ### The active set (R71, R181) -/

/-- Active entry of a layer as commits left it. -/
def layerOf (s : State) (n : Nat) : LayerEntry := Tbl.get s.cmp.layers {} n

/-- Set an active entry. -/
def setLayer (n : Nat) (e : LayerEntry) (s : State) : State := { s with cmp := { s.cmp with layers := Tbl.set n e s.cmp.layers } }

/-- Status of a layer (R117). -/
def layerStatus (s : State) (n : Nat) : LayerStatus := Tbl.get s.cmp.status {} n

/-- Set the status of a layer. -/
def setLayerStatus (n : Nat) (x : LayerStatus) (s : State) : State := { s with cmp := { s.cmp with status := Tbl.set n x s.cmp.status } }

/-- The fallback slate that stands in the active set at a layer (R181). -/
def slateAt (s : State) (n : Nat) : Option LayerEntry :=
  s.sig.regions.findSome? fun r => if r.2.substituted && r.2.record.slateLayer == n then some (r.2.record.slate.enable true) else none

/-- Entry of the active layer set (R71, R181). -/
def activeLayer (s : State) (n : Nat) : LayerEntry := (slateAt s n).getD (layerOf s n)

/-! ### Sampling (R75 to R82) -/

/-- Four channels, colour and alpha. -/
structure Chan where
  r : Nat := 0
  g : Nat := 0
  b : Nat := 0
  a : Nat := 0
  deriving DecidableEq, Repr, Inhabited

/-- Expansion of a field of `w` bits to 12 bits by replication (R75). -/
def expand12 (w v : Nat) : Nat :=
  if w = 1 then 4095 * v else if w = 2 then 1365 * v else if w = 4 then 273 * v
  else if w = 5 then v * 128 + v * 4 + v / 8 else if w = 6 then v * 64 + v
  else if w = 8 then v * 16 + v / 16 else v * 4 + v / 256

/-- Expansion of a pixel word (R74, R75). -/
def expandPixel (f w : Nat) : Chan :=
  if f = 1 then { r := expand12 5 (bits w 15 11), g := expand12 6 (bits w 10 5), b := expand12 5 (bits w 4 0), a := 4095 }
  else if f = 2 then { r := expand12 5 (bits w 14 10), g := expand12 5 (bits w 9 5), b := expand12 5 (bits w 4 0), a := expand12 1 (bits w 15 15) }
  else if f = 3 then { r := expand12 4 (bits w 11 8), g := expand12 4 (bits w 7 4), b := expand12 4 (bits w 3 0), a := expand12 4 (bits w 15 12) }
  else if f = 7 then { r := expand12 10 (bits w 29 20), g := expand12 10 (bits w 19 10), b := expand12 10 (bits w 9 0), a := expand12 2 (bits w 31 30) }
  else { r := expand12 8 (bits w 23 16), g := expand12 8 (bits w 15 8), b := expand12 8 (bits w 7 0)
         a := if f = 5 then expand12 8 (bits w 31 24) else 4095 }

/-- Address of texel (n, m) of a buffer (R73). -/
def Desc.texelAddr (d : Desc) (n m : Nat) : Nat := d.addr + 64 * d.stride64 * m + pixelBytes d.format * n

/-- The fetch of texel (n, m) reads poisoned (R82). -/
def texelPoisoned (s : State) (d : Desc) (n m : Nat) : Bool := poisoned s (d.texelAddr n m) (pixelBytes d.format)

/-- The pixel word of texel (n, m) of a buffer in DRAM; a poisoned fetch gives the word 0 (R73, R82). -/
def texelWord (s : State) (d : Desc) (n m : Nat) : Nat :=
  if texelPoisoned s d n m then 0 else leValue (load s (d.texelAddr n m) (pixelBytes d.format))

/-- The opacity hint covers texel (n, m) (R79). -/
def LayerEntry.hinted (e : LayerEntry) (n m : Nat) : Bool :=
  e.opacity == 2 || (e.opacity == 1 && e.opqX0 ≤ n && n < e.opqX1 && e.opqY0 ≤ m && m < e.opqY1)

/-- A prepared texel (R79). -/
def LayerEntry.prepare (e : LayerEntry) (w n m : Nat) : Chan :=
  let c := expandPixel e.front.format w
  let a := if e.hinted n m then 4095 else c.a
  let f (x : Nat) : Nat := if e.premultiplied then min x a else (2 * x * a + 4095) / 8190
  { r := f c.r, g := f c.g, b := f c.b, a }

/-- Scaling by LAYER_ALPHA (R81). -/
def scaleAlpha (la v : Nat) : Nat := (2 * v * la + 255) / 510

/-- Each channel of a texel by a function. -/
def Chan.map (f : Nat → Nat) (c : Chan) : Chan := { r := f c.r, g := f c.g, b := f c.b, a := f c.a }

/-- A bilinear footprint (R77). -/
structure Footprint where
  n0 : Nat
  n1 : Nat
  m0 : Nat
  m1 : Nat
  fx : Nat
  fy : Nat
  deriving DecidableEq, Repr

/-- qx or qy of R77: the image coordinate less one half, in 1/256 pixel, of a sample position. -/
def imagePos (origin scale : Nat) (p : Int) : Int := ((p - signed 32 origin * 64) * scale - 8388608 + 32768) / 65536

/-- The footprint of a sample position on a layer, none when it lies outside the image (R77, R78). -/
def LayerEntry.footprint (e : LayerEntry) (p : Int × Int) : Option Footprint :=
  let qx := imagePos e.originX e.scaleX p.1
  let qy := imagePos e.originY e.scaleY p.2
  let w : Int := e.front.width
  let h : Int := e.front.height
  let n0 := qx / 256
  let m0 := qy / 256
  if n0 < -1 ∨ w - 1 < n0 ∨ m0 < -1 ∨ h - 1 < m0 then none
  else some { n0 := (clampInt n0 0 (w - 1)).toNat, n1 := (clampInt (n0 + 1) 0 (w - 1)).toNat
              m0 := (clampInt m0 0 (h - 1)).toNat, m1 := (clampInt (m0 + 1) 0 (h - 1)).toNat
              fx := (qx % 256).toNat, fy := (qy % 256).toNat }

/-- The blend of four prepared texels in one channel (R80). -/
def blend4 (fx fy t00 t10 t01 t11 : Nat) : Nat :=
  ((256 - fx) * (256 - fy) * t00 + fx * (256 - fy) * t10 + (256 - fx) * fy * t01 + fx * fy * t11 + 32768) / 65536

/-! ### The depth order (R83, R96) -/

/-- A sheet of the composition: a layer, or a Sideboard group with its image (R96). -/
structure Sheet where
  num : Nat
  entry : LayerEntry
  image : Option (List Nat) := none
  deriving DecidableEq, Repr

/-- The effective entry of a group (R96): its members' placement, ARGB8888, premultiplied, alpha 255, the opacity of its
lowest-numbered opaque member. -/
def Group.entry (s : State) (g : Group) : LayerEntry :=
  let es := g.members.map (activeLayer s)
  let o := es.find? fun e => e.opacity ≠ 0 && e.layerAlpha == 255
  let signedAll := es.all (·.isSigned)
  let rect := o.elim (0, 0, 0, 0) fun e =>
    if e.opacity = 2 then (0, 0, e.front.width, e.front.height) else (e.opqX0, e.opqY0, e.opqX1, e.opqY1)
  { front := { width := g.width, height := g.height, format := 5 }, originX := g.originX, originY := g.originY
    scaleX := g.scaleX, scaleY := g.scaleY, disparity := g.disparity, layerAlpha := 255, cls := 2
    flags := 3 + flagAt o.isSome 2 + flagAt signedAll 5
    opqX0 := rect.1, opqY0 := rect.2.1, opqX1 := rect.2.2.1, opqY1 := rect.2.2.2 }

/-- Nearest first: larger disparity, then the lower layer number (R83). -/
def nearer (a b : Sheet) : Bool :=
  let x := signed 16 a.entry.disparity
  let y := signed 16 b.entry.disparity
  y < x || (x == y && a.num < b.num)

/-- Insert a sheet at its place in the depth order. -/
def insertSheet (a : Sheet) : List Sheet → List Sheet
  | [] => [a]
  | b :: r => if nearer a b then a :: b :: r else b :: insertSheet a r

/-- The sheets of the active set, nearest first (R83): the enabled layers other than STATIC, and the Sideboard groups that
have an image. -/
def sheetsOf (s : State) : List Sheet :=
  let layers := (List.range 64).filterMap fun n =>
    let e := activeLayer s n
    if e.enabled && e.cls ≠ 2 then some { num := n, entry := e : Sheet } else none
  let groups := s.cmp.groups.filterMap fun g =>
    if g.2.image.isSome then some { num := g.2.members.headD 64, entry := g.2.entry s, image := g.2.image : Sheet } else none
  (layers ++ groups).foldl (fun l a => insertSheet a l) []

/-- The pixel word of texel (n, m) of a sheet. -/
def Sheet.word (s : State) (x : Sheet) (n m : Nat) : Nat :=
  match x.image with
  | some im => im.getD (x.entry.front.width * m + n) 0
  | none => texelWord s x.entry.front n m

/-- The sample of a sheet at a footprint (R79 to R81). -/
def Sheet.sample (s : State) (x : Sheet) (f : Footprint) : Chan :=
  let t (n m : Nat) : Chan := x.entry.prepare (x.word s n m) n m
  let c (ch : Chan → Nat) : Nat :=
    scaleAlpha x.entry.layerAlpha
      (blend4 f.fx f.fy (ch (t f.n0 f.m0)) (ch (t f.n1 f.m0)) (ch (t f.n0 f.m1)) (ch (t f.n1 f.m1)))
  { r := c (·.r), g := c (·.g), b := c (·.b), a := c (·.a) }

/-! ### Candidates, kept list and accumulation (R84 to R88) -/

/-- The cap of a code (R144). -/
def capOf (code : Nat) : Nat := if code = 0 then 16 else if code = 1 then 12 else if code = 2 then 8 else 4

/-- Keep every SAFETY candidate and the nearest `k` others, in depth order. -/
def keepNearest {α : Type} (safety : α → Bool) : Nat → List α → List α
  | _, [] => []
  | k, x :: r =>
    if safety x then x :: keepNearest safety k r
    else match k with
      | 0 => keepNearest safety 0 r
      | j + 1 => x :: keepNearest safety j r

/-- The kept list at cap K (R84). -/
def keptList {α : Type} (safety : α → Bool) (k : Nat) (cs : List α) : List α :=
  keepNearest safety (k - (cs.filter safety).length) cs

/-- The accumulator of R86. -/
structure Acc where
  t16 : Nat := 65520
  r : Nat := 0
  g : Nat := 0
  b : Nat := 0
  a16 : Nat := 0
  used : Nat := 0
  terminated : Bool := false
  deriving DecidableEq, Repr, Inhabited

/-- One accumulation step (R86). -/
def Acc.step (x : Chan) (q : Acc) : Acc :=
  let d (c : Nat) : Nat := (2 * q.t16 * c + 4095) / 8190
  { q with r := q.r + d x.r, g := q.g + d x.g, b := q.b + d x.b, a16 := q.a16 + d x.a, t16 := q.t16 - d x.a, used := q.used + 1 }

/-- Front to back until the transmittance is at or below TERM_T16 (R86). -/
def accumulate (term : Nat) : List Chan → Acc → Acc
  | [], q => q
  | x :: r, q => if (q.step x).t16 ≤ term then { q.step x with terminated := true } else accumulate term r (q.step x)

/-- A candidate of a ray. -/
abbrev Candidate := Sheet × Footprint

/-- The candidate list of a ray: the sheets its position meets, nearest first (R78, R84). -/
def candidatesOf (sheets : List Sheet) (place : Int → Int × Int) : List Candidate :=
  sheets.filterMap fun x => (x.entry.footprint (place (signed 16 x.entry.disparity))).map fun f => (x, f)

/-- STABLE (R174): TERMINATED at candidate j ≤ 4, j and the SAFETY candidates beyond it are at most 4, and every candidate up
to it is SIGNED. -/
def stableAt (cs : List Candidate) (num : Nat) : Bool :=
  let j := (cs.takeWhile fun c => c.1.num ≠ num).length + 1
  j ≤ 4 && j + ((cs.drop j).filter fun c => c.1.entry.safety).length ≤ 4 && (cs.take j).all fun c => c.1.entry.isSigned

/-- The four texels of a footprint (R77). -/
def Footprint.texels (f : Footprint) : List (Nat × Nat) := [(f.n0, f.m0), (f.n1, f.m0), (f.n0, f.m1), (f.n1, f.m1)]

/-- Addresses of the texels of a sample that read poisoned (R82). A Sideboard group's words are prepared ones (R95). -/
def poisonOf (s : State) (c : Candidate) : List Nat :=
  if c.1.image.isSome then []
  else (c.2.texels.filter fun t => texelPoisoned s c.1.entry.front t.1 t.2).map fun t => c.1.entry.front.texelAddr t.1 t.2

/-- A ray composed at cap K (R84 to R88); `missed` counts the 64-byte lines that a sample takes through the miss path (R129).
Only the samples taken up to termination are fetched (R86). -/
def composeRay (s : State) (missed : Candidate → Nat) (sheets : List Sheet) (term k : Nat) (place : Int → Int × Int) : Composed :=
  let cs := candidatesOf sheets place
  let kept := keptList (fun c : Candidate => c.1.entry.safety) k cs
  let q := accumulate term (kept.map fun c => c.1.sample s c.2) {}
  let used := kept.take q.used
  { r := (q.r + 8) / 16, g := (q.g + 8) / 16, b := (q.b + 8) / 16
    stable := q.terminated && (kept[q.used - 1]?).any fun c => stableAt cs c.1.num
    poison := used.flatMap (poisonOf s), miss := (used.map missed).sum }

/-! ### Sideboard texels (R95) -/

/-- What a member contributes to group texel (n, m), none outside its image (R95). -/
def memberTexel (s : State) (e : LayerEntry) (n m : Nat) : Option Chan :=
  if n < e.front.width && m < e.front.height then
    some ((e.prepare (texelWord s e.front n m) n m).map (scaleAlpha e.layerAlpha))
  else none

/-- A 12-bit result as stored in 8 bits (R95). -/
def store8 (v : Nat) : Nat := (2 * v * 255 + 4095) / 8190

/-- The ARGB8888 word of group texel (n, m) from its members in ascending layer number (R95). -/
def groupTexel (s : State) (es : List LayerEntry) (n m : Nat) : Nat :=
  let q := accumulate 0 (es.filterMap fun e => memberTexel s e n m) {}
  store8 ((q.b + 8) / 16) + 256 * store8 ((q.g + 8) / 16) + 65536 * store8 ((q.r + 8) / 16) + 16777216 * store8 ((q.a16 + 8) / 16)

/-- The image of a group, row by row (R94, R95). -/
def groupImage (s : State) (w h : Nat) (es : List LayerEntry) : List Nat :=
  (List.range (w * h)).map fun k => groupTexel s es (k % w) (k / w)

/-- Poisoned member texels that a FLATTEN reads (R95). -/
def poisonedTexels (s : State) (es : List LayerEntry) : Nat :=
  (es.map fun e => ((List.range (e.front.width * e.front.height)).filter fun k =>
    texelPoisoned s e.front (k % e.front.width) (k / e.front.width)).length).sum

end Sys2Proof.Machine
end

