-- ==== Sys2Proof/Machine/Cache.lean ====
section
/-! DEFINITION. The plane cache (04_ray_engine.md R126 to R134): the bounds of a geometry set, the windows of a band, the
occlusion ranges, and which samples go through the miss path. -/

namespace Sys2Proof.Machine

/-! ### Bounds of a geometry set (R128, R134) -/

/-- The least and the greatest of some values and 0. A word that reads as 0 under R67 stays within the bounds. -/
def extremes (l : List Int) : Int × Int := (l.foldl min 0, l.foldl max 0)

/-- Offset bounds of the grid and tangent bounds of the directions of a mode. -/
structure GeomBounds where
  du : Int × Int
  dv : Int × Int
  tx : Int × Int
  ty : Int × Int
  deriving DecidableEq, Repr

/-- BD entries of a mode's directions: both phases in a dense mode, the centre direction of FLAT-60, otherwise phase A
(R53). -/
def modeDirs (mode : Nat) : List Nat := if mode = 6 then [55] else List.range (if dense mode then 200 else 100)

/-- The bounds of a geometry set in a mode. -/
def geomBounds (g : GeomBank) (mode : Nat) : GeomBounds :=
  let node (f : GridNode → Nat) : Int × Int := extremes (g.grid.map fun e => signed 16 (f e.2))
  let dir (f : Nat × Nat → Nat) : Int × Int := extremes ((modeDirs mode).map fun k => signed 16 (f (Tbl.get g.bd (0, 0) k)))
  let sum (a b : Int × Int) : Int × Int := (a.1 + b.1, a.2 + b.2)
  { du := node (·.du), dv := node (·.dv), tx := sum (dir (·.1)) (node (·.dtx)), ty := sum (dir (·.2)) (node (·.dty)) }

/-- The least and greatest sample position of lenslets a to b on a plane of disparity d, by R50 (R128). -/
def reach (off tan : Int × Int) (a b : Nat) (d : Int) : Int × Int :=
  (a * 4096 + 2048 + off.1 + (min (d * tan.1) (d * tan.2) + 128) / 256,
   b * 4096 + 2048 + off.2 + (max (d * tan.1) (d * tan.2) + 128) / 256)

/-- The least and greatest n0 and m0 of R77, unclamped, of the rays of lenslet columns u0 to u1 and rows v0 to v1. -/
def LayerEntry.spanOf (e : LayerEntry) (b : GeomBounds) (u0 u1 v0 v1 : Nat) : (Int × Int) × (Int × Int) :=
  let d := signed 16 e.disparity
  let x := reach b.du b.tx u0 u1 d
  let y := reach b.dv b.ty v0 v1 d
  ((imagePos e.originX e.scaleX x.1 / 256, imagePos e.originX e.scaleX x.2 / 256),
   (imagePos e.originY e.scaleY y.1 / 256, imagePos e.originY e.scaleY y.2 / 256))

/-! ### Occlusion ranges (R134) -/

/-- First and last lenslet row of a band of a tile row (R126). -/
def bandRows (r band : Nat) : Nat × Nat := (144 * r + 12 * band, 144 * r + 12 * band + 11)

/-- Entry O covers an occlusion range with opaque texels only: OPACITY RECT or FULL, LAYER_ALPHA 255, and its footprints lie
inside the rectangle without clamping (R134). -/
def LayerEntry.coversRange (e : LayerEntry) (b : GeomBounds) (v0 v1 k : Nat) : Bool :=
  let s := e.spanOf b (16 * k) (16 * k + 15) v0 v1
  let q : Nat × Nat × Nat × Nat := if e.opacity = 2 then (0, 0, e.front.width, e.front.height) else (e.opqX0, e.opqY0, e.opqX1, e.opqY1)
  e.opacity ≠ 0 && e.layerAlpha == 255 &&
  (q.1 : Int) ≤ s.1.1 && s.1.2 + 1 < q.2.2.1 && (q.2.1 : Int) ≤ s.2.1 && s.2.2 + 1 < q.2.2.2

/-- The entries nearer than a layer that stay in the kept list at every cap: SAFETY, or one of the nearest 4 − s others of the
whole depth order (R134). -/
def keptAtAnyCap (sheets : List Sheet) (num : Nat) : List Sheet :=
  let s := (sheets.filter fun x => x.entry.safety).length
  let near := (sheets.filter fun x => !x.entry.safety).take (4 - s)
  (sheets.takeWhile fun x => x.num ≠ num).filter fun x => x.entry.safety || near.contains x

/-- The occlusion ranges 0 to 191 of a band in which a VIDEO layer is neither fetched nor sampled (R91, R134). -/
def skippedRanges (sheets : List Sheet) (b : GeomBounds) (v0 v1 : Nat) (v : Sheet) : List Nat :=
  if v.entry.cls ≠ 0 || v.image.isSome then []
  else (List.range 192).filter fun k => (keptAtAnyCap sheets v.num).any fun o => o.entry.coversRange b v0 v1 k

/-! ### Windows (R127, R128) -/

/-- Bytes of an image row of a sheet: the stride of its buffer (R73, R94). -/
def Sheet.rowBytes (x : Sheet) : Nat :=
  if x.image.isSome then 64 * ((4 * x.entry.front.width + 63) / 64) else 64 * x.entry.front.stride64

/-- The window of a sheet for a band: what any ray of the ranges that are fetched can sample, with one texel of margin, clamped
to the image; none where no ray meets the image (R128). -/
def windowOf (b : GeomBounds) (v0 v1 : Nat) (skips : List Nat) (x : Sheet) : Option Window :=
  let ks := (List.range 192).filter fun k => !skips.contains k
  match ks.head?, ks.getLast? with
  | some k0, some k1 =>
    let s := x.entry.spanOf b (16 * k0) (16 * k1 + 15) v0 v1
    let w : Int := x.entry.front.width
    let h : Int := x.entry.front.height
    if s.1.2 < -1 ∨ w - 1 < s.1.1 ∨ s.2.2 < -1 ∨ h - 1 < s.2.1 then none
    else some { num := x.num, x0 := (clampInt (s.1.1 - 1) 0 (w - 1)).toNat, x1 := (clampInt (s.1.2 + 2) 0 (w - 1)).toNat
                y0 := (clampInt (s.2.1 - 1) 0 (h - 1)).toNat, y1 := (clampInt (s.2.2 + 2) 0 (h - 1)).toNat }
  | _, _ => none

/-- Bytes that a window takes: whole image rows at the buffer's stride (R128). -/
def Window.bytes (w : Window) (x : Sheet) : Nat := (w.y1 + 1 - w.y0) * x.rowBytes

/-- Windows allocated in order while they fit in the space left; one that does not fit is passed over (R128). -/
def allocate : Nat → List (Sheet × Window) → List Window
  | _, [] => []
  | free, c :: r => if c.2.bytes c.1 ≤ free then c.2 :: allocate (free - c.2.bytes c.1) r else allocate free r

/-- The band buffer of a row and band: SAFETY windows first, then the others nearest first, in 2 MiB (R127, R128, R134). -/
def bandBuffer (s : State) (r band : Nat) : BandBuffer :=
  let b := geomBounds (rowGeom s r) s.tim.mode
  let v := bandRows r band
  let sheets := sheetsOf s
  let all := sheets.map fun x => (x, skippedRanges sheets b v.1 v.2 x)
  let wins := all.filterMap fun x => (windowOf b v.1 v.2 x.2 x.1).map fun w => (x.1, w)
  { band, windows := allocate 2097152 (wins.filter (fun c => c.1.entry.safety) ++ wins.filter fun c => !c.1.entry.safety)
    skips := all.flatMap fun x => x.2.map fun k => (x.1.num, k) }

/-! ### The miss path (R129) -/

/-- A texel lies in an allocated window of its sheet. -/
def BandBuffer.holds (b : BandBuffer) (num n m : Nat) : Bool :=
  b.windows.any fun w => w.num == num && w.x0 ≤ n && n ≤ w.x1 && w.y0 ≤ m && m ≤ w.y1

/-- Numbers of the 64-byte lines that hold texel (n, m) of a sheet, counted from the start of its memory. -/
def Sheet.texelLines (x : Sheet) (n m : Nat) : List Nat :=
  let k := if x.image.isSome then 4 else pixelBytes x.entry.front.format
  let a := x.entry.front.addr + x.rowBytes * m + k * n
  [a / 64, (a + k - 1) / 64]

/-- The 64-byte lines of a sample that goes through the miss path: those of its four texels, each once; none when its window
holds them all (R129). -/
def missedLines (b : BandBuffer) (c : Candidate) : Nat :=
  if c.2.texels.all fun t => b.holds c.1.num t.1 t.2 then 0
  else ((c.2.texels.flatMap fun t => c.1.texelLines t.1 t.2).eraseDups).length

/-- The sheets that the rays of lenslet column u sample: without the VIDEO layers skipped in its range (R134). -/
def BandBuffer.sheetsAt (b : BandBuffer) (u : Nat) (sheets : List Sheet) : List Sheet :=
  if b.skips.isEmpty then sheets else sheets.filter fun x => !b.skips.contains (x.num, u / 16)

end Sys2Proof.Machine
end

