-- ==== Sys2Proof/Machine/Thermal.lean ====
section
/-! DEFINITION. Thermal management (18_thermal.md): conversion, validity, groups, stepping, sensor failure and shutdown;
and the MR4 poll of the DRAM (R423, R424), whose OVERTEMP begins a shutdown. Temperatures are s11.4 °C. -/

namespace Sys2Proof.Machine

/-- Reset content of a sensor: an on-die diode is paired with its neighbour and belongs to G0 (R587, R590). -/
def sensorDefault (n : Nat) : Sensor := if n < 16 then { partner := some (n ^^^ 1), group := some 0 } else {}

/-- A sensor. -/
def sensorOf (s : State) (n : Nat) : Sensor := Tbl.get s.thm.sensors (sensorDefault n) n

/-- Set a sensor. -/
def setSensor (n : Nat) (x : Sensor) (s : State) : State := { s with thm := { s.thm with sensors := Tbl.set n x s.thm.sensors } }

/-- Reset content of a group: G0 is DEVICE (R590). -/
def tempGroupDefault (g : Nat) : TempGroup := if g = 0 then { kind := 1 } else {}

/-- A group. -/
def tempGroup (s : State) (g : Nat) : TempGroup := Tbl.get s.thm.groups (tempGroupDefault g) g

/-- Set a group. -/
def setTempGroup (g : Nat) (x : TempGroup) (s : State) : State := { s with thm := { s.thm with groups := Tbl.set g x s.thm.groups } }

/-- Thresholds of a group, by its kind while never set (R592). -/
def TempGroup.warnT (x : TempGroup) : Int := x.warnAt.getD (if x.kind = 2 then 1120 else 1600)
/-- THROTTLE of a group (R592). -/
def TempGroup.throttleT (x : TempGroup) : Int := x.throttleAt.getD (if x.kind = 2 then 1200 else 1680)
/-- SHUTDOWN of a group (R592). -/
def TempGroup.shutdownT (x : TempGroup) : Int := x.shutdownAt.getD (if x.kind = 2 then 1360 else 1840)

/-! ### Conversion (R588) -/

/-- Terms of 2·atanh(y) for y = p/q in units of 2^-80, from term i on. -/
def atanhTerms (p q : Int) : Nat → Nat → Int → Int
  | 0, _, _ => 0
  | n + 1, i, pw => 2 * pw / (2 * i + 1) + atanhTerms p q n (i + 1) (pw * p * p / (q * q))

/-- ln(a/b) in units of 2^-80: the power of two is taken out and the rest is 2·atanh((m - 1)/(m + 1)). -/
def lnRatio (a b : Nat) : Int :=
  let ka := Nat.log2 a
  let kb := Nat.log2 b
  let p : Int := (a * 2 ^ kb : Nat) - (b * 2 ^ ka : Nat)
  let q : Int := (a * 2 ^ kb : Nat) + (b * 2 ^ ka : Nat)
  ((ka : Int) - kb) * 837963523372001241319907 + atanhTerms p q 40 0 (p * 2 ^ 80 / q)

/-- A temperature of num/den kelvin in s11.4 °C (R7, R588: T0 = 273.15 K). -/
def kelvin (num den : Int) : Int := roundDiv (5 * (16 * num) - 21852 * den) (5 * den)

/-- DIODE: ΔV in nV, IDEALITY in u2.14, SERIES_R in 0.1 Ω; ln 16 to 24 digits (R588). -/
def diodeTemp (x : Sensor) (raw : Nat) : Int :=
  kelvin (((raw : Int) - 15000 * x.seriesR) * 16384 * 10 * 10 ^ 24) ((x.ideality : Int) * 861733 * 2772588722239781237668928)

/-- I_BIAS in µA (R605). -/
def biasOf (code : Nat) : Nat := if code = 0 then 10 else if code = 1 then 50 else if code = 2 then 100 else 200

/-- NTC_BETA for the resistance `v` nV over `i` µA (R588): none when the formula gives no positive absolute temperature. -/
def betaTemp (x : Sensor) (v i : Nat) : Option Int :=
  let den := 100 * (x.ntcBeta : Int) * 2 ^ 80 + 29815 * lnRatio v (1000 * i * x.ntcR25)
  if den ≤ 0 then none else some (kelvin (29815 * (x.ntcBeta : Int) * 2 ^ 80) den)

/-- A point of NTC_TABLE. -/
def tablePoint (x : Sensor) (i : Nat) : Nat × Int := Tbl.get x.table (0, 0) i

/-- The points hold strictly decreasing T at strictly increasing R (R588). -/
def tableOrdered (x : Sensor) : Bool :=
  (List.range 15).all fun i => (tablePoint x i).1 < (tablePoint x (i + 1)).1 && (tablePoint x (i + 1)).2 < (tablePoint x i).2

/-- NTC_TABLE: linear in ln R between the points around `v` nV over `i` µA, clamped at the end points (R588). -/
def tableTemp (x : Sensor) (v i : Nat) : Int :=
  if v ≤ 1000 * i * (tablePoint x 0).1 then (tablePoint x 0).2
  else match (List.range 15).find? fun k => v ≤ 1000 * i * (tablePoint x (k + 1)).1 with
    | none => (tablePoint x 15).2
    | some k =>
      let a := tablePoint x k
      let b := tablePoint x (k + 1)
      let d := lnRatio b.1 a.1
      if d ≤ 0 then a.2 else a.2 + roundDiv ((b.2 - a.2) * lnRatio v (1000 * i * a.1)) d

/-- The reading of one conversion and whether its measurement lies in the bounds of R589. An on-die diode gives its
calibrated reading in s11.4; a remote channel gives a voltage in nV (R587, R588; log 5). A table that is not in the order of R588 gives a
free reading (log 110). -/
def convertRaw (n : Nat) (x : Sensor) (raw : Nat) : Option Int × Bool :=
  if n < 16 then (some (signed 16 raw), true)
  else if x.mode = 1 then (some (diodeTemp x raw), 30000000 ≤ raw && raw ≤ 150000000)
  else
    let i := biasOf x.ntcBias
    let unit := 1000 * i
    let inR25 := unit * x.ntcR25 ≤ 100 * raw && raw ≤ 100 * unit * x.ntcR25
    if x.mode = 2 then (if raw = 0 then (none, false) else (betaTemp x raw i, inR25))
    else (some (if tableOrdered x then tableTemp x raw i else signed 16 (Config.tableReading ((List.range 16).map (tablePoint x)) raw)),
          inR25 && unit * (tablePoint x 0).1 ≤ raw && raw ≤ unit * (tablePoint x 15).1)

/-! ### Values and groups (R590 to R592) -/

/-- A sensor is converted (R587, R588). -/
def enabledSensor (n : Nat) (x : Sensor) : Bool := n < 16 || x.mode ≠ 0

/-- What a sensor contributes: its latest valid reading, a held value, or nothing (R591, R598, R599). -/
def contribution (s : State) (n : Nat) : Option Int :=
  let x := sensorOf s n
  if !enabledSensor n x then none
  else if x.state == .valid || x.state == .held then some x.value else none

/-- Members of a group. -/
def membersOf (s : State) (g : Nat) : List Nat := (List.range 24).filter fun n => (sensorOf s n).group == some g

/-- The highest of some temperatures. -/
def hottest (l : List Int) : Option Int := l.foldl (fun m x => match m with | none => some x | some y => some (max x y)) none

/-- What a sensor's pair contributes to the sensor's group: the higher of its valid members (R591, R597). -/
def pairValue (s : State) (n : Nat) : Option Int :=
  hottest ([contribution s n, (sensorOf s n).partner.bind (contribution s)].filterMap id)

/-- The group reading, none when no member is valid or held (R591). -/
def groupReading (s : State) (g : Nat) : Option Int := hottest ((membersOf s g).filterMap (pairValue s))

/-- A member is held without acknowledgement (R593, R598). -/
def holdBlock (s : State) (g : Nat) : Bool := (membersOf s g).any fun n => (sensorOf s n).state == .held

/-- No member of the group, and no partner of one, is converted: it has no valid member whatever is sampled (R591). -/
def memberless (s : State) (g : Nat) : Bool :=
  (membersOf s g).all fun n => !enabledSensor n (sensorOf s n) && (sensorOf s n).partner.all fun k => !enabledSensor k (sensorOf s k)

/-- The evaluation of an enabled group after a conversion: reading, INVALID with FAULT#, and WARN (R591, R592). -/
def evalGroup (g : Nat) (s : State) : State :=
  let x := tempGroup s g
  if x.kind = 0 then s
  else match groupReading s g with
    | none => (if x.invalid then id else assertFault) (setTempGroup g { x with invalid := true } s)
    | some r =>
      let x := { x with reading := r, invalid := false }
      if !x.warn && x.warnT ≤ r then
        log (hw 11) g 0xC0 (unsigned 16 r + 65536) (setTempGroup g { x with warn := true, warnSeen := true } s)
      else if x.warn && r ≤ x.warnT - x.hystWarn then
        log (hw 11) g 0xC0 (unsigned 16 r) (setTempGroup g { x with warn := false } s)
      else setTempGroup g x s

/-! ### Failure and restoration (R589, R597 to R599) -/

/-- The sensor has a valid partner. -/
def partnerValid (s : State) (n : Nat) : Bool :=
  match (sensorOf s n).partner with
  | none => false
  | some k => (sensorOf s k).state == .valid

/-- The last valid reading as the signed DETAIL of an entry, 0 when there is none (R605). -/
def lastField (x : Sensor) : Nat := unsigned 64 (x.lastValid.getD 0)

/-- A sensor fails: its partner stands for the pair, or it is held at its last valid reading plus 5.0 °C; the manual
states no value for a sensor that never had one (R597, R598; log 2). -/
def failSensor (n : Nat) (s : State) : State :=
  let x := { sensorOf s n with failSeen := true }
  let t := { s with thm := { s.thm with sensorFailSeen := true } }
  let t := log (hw 11) n 0xC2 (lastField x) t
  if partnerValid s n then setSensor n { x with state := .failed } t
  else match x.lastValid with
    | some v => log (hw 11) n 0xC3 (lastField x) (setSensor n { x with state := .held, value := v + 80 } t)
    | none => log (hw 11) n 0xC3 (lastField x) (drew (setSensor n { x with state := .held, value := signed 16 (freeBelow t 65536) } t))

/-- A valid sample (R589, R598, R599). -/
def goodSample (n : Nat) (v : Int) (s : State) : State :=
  let x := { sensorOf s n with reading := v, lastValid := some v, badRun := 0 }
  if x.state == .off || x.state == .valid then setSensor n { x with state := .valid, value := v } s
  else if 500 ≤ x.goodRun + 1 then
    log (hw 11) n 0xC5 (lastField x) (setSensor n { x with state := .valid, value := v, goodRun := 0 } s)
  else setSensor n { x with goodRun := x.goodRun + 1, value := if x.state == .held then v + 80 else x.value } s

/-- An invalid sample (R589). -/
def badSample (n : Nat) (v : Option Int) (s : State) : State :=
  let x := sensorOf s n
  let x := { x with reading := v.getD x.reading, badRun := x.badRun + 1, goodRun := 0 }
  let t := setSensor n x s
  if (x.state == .off || x.state == .valid) && 3 ≤ x.badRun then failSensor n t else t

/-- A sample is valid under R589. -/
def sampleValid (x : Sensor) (v : Int) (inBounds : Bool) : Bool :=
  inBounds && -880 ≤ v && v ≤ 2800 && (match x.lastValid with | none => true | some l => -160 ≤ v - l && v - l ≤ 160)

/-- Two valid partners differ by more than PAIR_TOL (R591). -/
def pairDiffers (s : State) (n : Nat) : Bool :=
  match (sensorOf s n).partner with
  | none => false
  | some k => (sensorOf s n).state == .valid && (sensorOf s k).state == .valid &&
      (s.thm.pairTol < (sensorOf s n).value - (sensorOf s k).value || s.thm.pairTol < (sensorOf s k).value - (sensorOf s n).value)

/-- The time since which a pair differs, and DISAGREE ending with the difference (R591). -/
def trackPair (n : Nat) (s : State) : State :=
  match (sensorOf s n).partner with
  | none => s
  | some k =>
    let a := sensorOf s n
    let b := sensorOf s k
    if pairDiffers s n then
      let since := a.differSince.getD (tb0 s)
      setSensor k { b with differSince := some since } (setSensor n { a with differSince := some since } s)
    else setSensor k { b with differSince := none, disagree := false } (setSensor n { a with differSince := none, disagree := false } s)

/-! ### Shutdown (R600 to R603) -/

/-- Group readings as the record holds them: 0x8000 for a group that is OFF or INVALID (R603). -/
def recordGroups (s : State) : List Nat :=
  (List.range 8).map fun g =>
    let x := tempGroup s g
    if x.kind = 0 || x.invalid then 0x8000 else unsigned 16 x.reading

/-- Step 1 of R601: FAULT#, DARK on every UP link, CK_RAY gated off, the NOR passes to the sequencer. -/
def beginShutdown (cause source sensor : Nat) (reading : Int) (s : State) : State :=
  if s.thm.shutdown.isSome then s
  else
    let t := assertFault s
    let t := (List.range 96).foldl (fun t n => if (linkOf t n).state == .up then sendDark n t else t) t
    { t with thm := { t.thm with shutdown := some { step := .waitNor, origin := tb0 s, cause, source, sensor, flags := 0, reading,
                                                    waitUs := 0, frame := s.tim.frameCount, tb1 := tbNs s 1, groups := recordGroups s } } }

/-- The shutdown record (R603). -/
def Shutdown.record (x : Shutdown) : Bytes :=
  let b := leBytes 4 0x52544750 ++ leBytes 1 x.cause ++ leBytes 1 x.source ++ leBytes 1 x.sensor ++ leBytes 1 x.flags
    ++ leBytes 2 (unsigned 16 x.reading) ++ leBytes 2 (min x.waitUs 65535) ++ leBytes 4 0 ++ leBytes 8 x.origin ++ leBytes 8 x.frame
    ++ x.groups.flatMap (leBytes 2) ++ leBytes 8 x.tb1 ++ leBytes 4 0
  b ++ leBytes 4 (crc32c b)

/-- Step 5 of R601: THERM_TRIP# and OPERATION off to every TILE_SUPPLY entry. -/
def trip (s : State) : State :=
  if s.pins.thermTrip then s
  else
    let t := { s with pins := { s.pins with thermTrip := true } }
    let offs := s.pwr.devices.filterMap fun d => if d.2.role = 2 then some (Sent.pmbus d.1 false) else none
    let t := sendAll offs t
    { t with pwr := { t.pwr with supplies := t.pwr.supplies.map fun x => (x.1, { x.2 with state := .off }) } }

/-- The lower-numbered ready slot (R601). -/
def readySlot (s : State) : Option Nat := [0, 1].find? s.thm.slotReady.contains

/-- Step 4 begins: the page program into the slot; with no ready slot the sequencer goes on to step 5 (R601). A slot whose
program has not completed is TORN (R604). -/
def writeRecord (x : Shutdown) (s : State) : State :=
  match readySlot s with
  | none => trip { s with thm := { s.thm with shutdown := some { x with step := .tripped } } }
  | some k => { s with thm := { s.thm with shutdown := some { x with step := .writing }, slots := Tbl.set k (.torn []) s.thm.slots } }

/-- SHUTDOWN_NOR_IDLE: the program completes, or the erase is suspended (R601). -/
def execShutdownNorIdle (waitedUs : Nat) (eraseSuspended : Bool) (s : State) : Out :=
  match s.thm.shutdown with
  | none => done s
  | some x => done (ifEvent (clocked s && x.step == .waitNor && waitedUs ≤ s.thm.norProgMax)
      (writeRecord { x with waitUs := waitedUs, flags := flagAt (0 < waitedUs) 0 + flagAt eraseSuspended 1 }
        (advanceTo0 (x.origin + 1000 * waitedUs) s)) s)

/-- SHUTDOWN_NOR_TIMEOUT: the NOR is reset at NOR_PROG_MAX and the sequencer waits 100 µs (R601). -/
def execShutdownNorTimeout (s : State) : Out :=
  match s.thm.shutdown with
  | none => done s
  | some x => done (ifEvent (clocked s && x.step == .waitNor)
      (writeRecord { x with waitUs := s.thm.norProgMax + 100, flags := 1 + 4 }
        (advanceTo0 (x.origin + 1000 * (s.thm.norProgMax + 100)) s)) s)

/-- SHUTDOWN_RECORD_WRITTEN: the slot holds the record and step 5 follows (R601, R603). -/
def execShutdownRecordWritten (s : State) : Out :=
  match s.thm.shutdown, readySlot s with
  | some x, some k => done (ifEvent (clocked s && x.step == .writing)
      (trip { s with thm := { s.thm with shutdown := some { x with step := .tripped }, slots := Tbl.set k (.valid x.record) s.thm.slots,
                                         slotReady := s.thm.slotReady.filter (· ≠ k) } }) s)
  | _, _ => done s

/-- SHUTDOWN_TRIP_TIMEOUT: 10 ms after the origin (R601). -/
def execShutdownTripTimeout (s : State) : Out :=
  match s.thm.shutdown with
  | none => done s
  | some x => done (ifEvent (clocked s) (trip (advanceTo0 (x.origin + 10000000) s)) s)

/-- The groups to whose reading a sensor's sample counts. -/
def groupsOf (s : State) (n : Nat) : List Nat :=
  (List.range 8).filter fun g => (tempGroup s g).kind ≠ 0 &&
    ((sensorOf s n).group == some g || (sensorOf s n).partner.any fun k => (sensorOf s k).group == some g)

/-- A valid sample that takes a group reading to SHUTDOWN begins a shutdown, of the lowest-numbered such group (R600). -/
def crossing (n : Nat) (s : State) : State :=
  let x := sensorOf s n
  match (groupsOf s n).find? fun g => x.state == .valid && (tempGroup s g).shutdownT ≤ x.value with
  | none => s
  | some g => beginShutdown 0 g n x.value s

/-- A valid group reading at or above SHUTDOWN - HYST_SHUTDOWN keeps the raster stopped after power returns (R602). -/
def tooHot (s : State) : Bool :=
  (List.range 8).any fun g =>
    let x := tempGroup s g
    x.kind ≠ 0 && !x.invalid && x.shutdownT - x.hystShutdown ≤ x.reading

/-- A DEVICE group steps its clock step when the configuration has more than 48 tiles (R594). -/
def stepsClock (s : State) (x : TempGroup) : Bool := x.kind = 1 && 2 ≤ s.tim.tileStrap

/-- POWERUP_HOLD ends: every group at its floor step (R602). -/
def releaseHold (s : State) : State :=
  if s.thm.powerupHold && !tooHot s then
    (List.range 8).foldl (fun t g =>
      let x := tempGroup t g
      if x.kind = 0 then t
      else setTempGroup g (if stepsClock s x then { x with clkStep := 4, lastChange := some (tb0 s) } else { x with curStep := 6, lastChange := some (tb0 s) }) t)
      { s with thm := { s.thm with powerupHold := false } }
  else s

/-- One conversion (R587 to R592, R597, R598, R600). -/
def sampleStep (n raw : Nat) (s : State) : State :=
  let x := sensorOf s n
  let c := convertRaw n x raw
  let t := match c.1 with
    | some v => if sampleValid x v c.2 then goodSample n v s else badSample n (some v) s
    | none => badSample n none s
  let t := trackPair n t
  let t := (List.range 8).foldl (fun t g => if (groupsOf s n).contains g || memberless s g then evalGroup g t else t) t
  let t := match c.1 with
    | some v => if sampleValid x v c.2 then crossing n t else t
    | none => t
  releaseHold t

/-- SENSOR_CONVERSION (R587): sensing stops with CK_AON (R557, R606). -/
def execSensorConversion (n raw : Nat) (s : State) : Out :=
  done (ifEvent (clocked s && enabledSensor n (sensorOf s n)) (sampleStep n raw s) s)

/-- PAIR_DISAGREE: the difference has lasted 1 s (R591). -/
def execPairDisagree (n : Nat) (s : State) : Out :=
  match (sensorOf s n).differSince, (sensorOf s n).partner with
  | some t0, some k =>
    let t := advanceTo0 (t0 + 1000000000) s
    let a := sensorOf s n
    let b := sensorOf s k
    done (ifEvent (pairDiffers s n && !a.disagree)
      (log (hw 11) n 0xC6 (unsigned 16 a.value + 65536 * unsigned 16 b.value)
        (setSensor k { b with disagree := true } (setSensor n { a with disagree := true } t))) s)
  | _, _ => done s

/-! ### Stepping (R593 to R596) -/

/-- Milliseconds passed since a group's last change. -/
def sinceChange (s : State) (x : TempGroup) (ms : Nat) : Bool :=
  match x.lastChange with
  | none => true
  | some t => t + 1000000 * ms ≤ tb0 s

/-- A group after its step: current step and clock step (R593, R594). -/
def TempGroup.stepped (clock lower : Bool) (now : Nat) (x : TempGroup) : TempGroup :=
  let y := { x with lastChange := some now, throttleSeen := x.throttleSeen || lower }
  if clock then { y with clkStep := if lower then x.clkStep + 1 else x.clkStep - 1 }
  else { y with curStep := if lower then x.curStep - 1 else x.curStep + 1 }

/-- DETAIL of THERM_STEP: old and new current step, old and new clock step, a byte each (R605; log 15). -/
def stepDetail (x y : TempGroup) : Nat := x.curStep + 256 * y.curStep + 65536 * x.clkStep + 2 ^ 24 * y.clkStep

/-- One group's stepper (R593). -/
def stepGroup (g : Nat) (s : State) : State :=
  let x := tempGroup s g
  let clock := stepsClock s x
  let floor := if clock then 4 ≤ x.clkStep else x.curStep ≤ 6
  let top := if clock then x.clkStep = 0 else 16 ≤ x.curStep
  if x.kind = 0 || x.invalid || (groupReading s g).isNone then s
  else if x.throttleT ≤ x.reading && !floor && sinceChange s x x.downMs then
    log (hw 11) g 0xC1 (stepDetail x (x.stepped clock true (tb0 s))) (setTempGroup g (x.stepped clock true (tb0 s)) s)
  else if x.reading ≤ x.throttleT - x.hystThrottle && !top && sinceChange s x x.upMs && !holdBlock s g then
    log (hw 11) g 0xC1 (stepDetail x (x.stepped clock false (tb0 s))) (setTempGroup g (x.stepped clock false (tb0 s)) s)
  else s

/-- The lowest clock step of the DEVICE groups, as its code (R596). -/
def clockWanted (s : State) : Nat :=
  (List.range 8).foldl (fun m g => if (tempGroup s g).kind = 1 then max m (tempGroup s g).clkStep else m) 0

/-- STEPPER_EVAL (R593): the clock step then waits for its subframe boundary (R596). Stepping stops with CK_AON (R606). -/
def execStepperEval (s : State) : Out :=
  let t := (List.range 8).foldl (fun t g => stepGroup g t) s
  done (ifEvent (clocked s) { t with thm := { t.thm with clkPending := clockWanted t } } s)

/-- The thermal step h_t of a tile (R595). -/
def thermalStep (s : State) (tile : Nat) : Nat :=
  let byGroups := (List.range 8).foldl (fun m g =>
    let x := tempGroup s g
    if (x.kind = 2 && bit x.rows (tile / 8)) || (x.kind = 1 && s.tim.tileStrap < 2) then min m x.curStep else m) 16
  if bit (linkOf s tile).fault 3 then min byGroups 6 else byGroups

/-- The highest valid reading of the remote channels of PANEL groups (R227, R590). -/
def panelReading (s : State) : Option Int :=
  hottest ((List.range' 16 8).filterMap fun n =>
    let x := sensorOf s n
    if x.mode ≠ 0 && x.state == .valid && x.group.any fun g => (tempGroup s g).kind = 2 then some x.value else none)

/-! ### The MR4 poll (R423, R424, R426) -/

/-- The board sensor of a site: none when none is designated or it is FAILED (R423). -/
def boardSensor (s : State) (site : Nat) : Option Int :=
  let k := Tbl.get s.thm.dramSensor 255 site
  if k < 24 then contribution s k else none

/-- One site at the poll, with the refresh rate MR4 calls for in quarters of the nominal rate (R423, R424). -/
def mr4Site (site rate : Nat) (s : State) : State :=
  let x := siteOf s site
  let b := boardSensor s site
  let hot := 8 ≤ rate || b.any (1360 ≤ ·)
  let cool := rate ≤ 4 && b.all (· ≤ 1312)
  let t := setSite site { x with hot := if hot then true else if cool then false else x.hot, overtemp := 8 < rate } s
  let t := if hot && !x.hot then { t with dmc := { t.dmc with hotSeen := true } } else t
  if 8 < rate && !x.overtemp then drew (beginShutdown 1 site 255 (signed 16 (freeBelow t 65536)) t) else t

/-- MR4_POLL (R423). -/
def execMr4Poll (readings : List (Nat × Nat)) (s : State) : Out :=
  done (ifEvent (s.dmc.mode == .running)
    (readings.foldl (fun t r => mr4Site r.1 r.2 t) { s with dmc := { s.dmc with mr4Due := false } }) s)

end Sys2Proof.Machine
end

