-- ==== Sys2Proof/Machine/Output.lean ====
section
/-! DEFINITION. Drive correction and the stress ledger (07_drive_correction_and_stress.md): the output pipeline, bands,
current references, dose, and the update of the stress gains. -/

namespace Sys2Proof.Machine

/-! ### The pipeline (R222 to R238, R249) -/

/-- BAYER8 by 8·row + column (R236). -/
def bayer8 : List Nat :=
  [0, 32, 8, 40, 2, 34, 10, 42, 48, 16, 56, 24, 50, 18, 58, 26, 12, 44, 4, 36, 14, 46, 6, 38, 60, 28, 52, 20, 62, 30, 54, 22] ++
  [3, 35, 11, 43, 1, 33, 9, 41, 51, 19, 59, 27, 49, 17, 57, 25, 15, 47, 7, 39, 13, 45, 5, 37, 63, 31, 55, 23, 61, 29, 53, 21]

/-- (OX, OY) of a dither sequence (R237). -/
def ditherOffset (t : Nat) : Nat × Nat := if t = 1 then (4, 4) else if t = 2 then (4, 0) else if t = 3 then (0, 4) else (0, 0)

/-- The dither threshold of pixel (x, y) in sequence t (R222, R236, R237). -/
def ditherAt (t x y : Nat) : Nat := bayer8.getD (8 * ((y + (ditherOffset t).2) % 8) + (x + (ditherOffset t).1) % 8) 0

/-- RF[k] (R229). -/
def residFactor (k : Nat) : Nat := (roundDiv (32768 * (385 + 2 * k)) 400).toNat

/-- The drive code of a pixel from its curve value, gains and threshold (R222). -/
def driveCode (v0 blk rf g threshold : Nat) : Nat :=
  let u := min ((blk * rf + 16384) / 32768) 65535
  let v1 := (v0 * u + 8192) / 16384
  let v3 := min ((v1 * g + 16384) / 32768) 65535
  min ((v3 + threshold) / 64) 1023

/-- A curve bank. -/
def curveBank (s : State) (b : Nat) : CurveBank := Tbl.get s.out.curves {} b

/-- CURVE[band][ch][n] of a bank; the reset content is 16·n (R223, R258). -/
def CurveBank.value (c : CurveBank) (band ch n : Nat) : Nat := Tbl.get c.values (16 * n) ((3 * band + ch) * 4096 + n)

/-- The active map bank (R232). -/
def activeMap (s : State) : MapBank := Tbl.get s.out.maps {} s.out.mapActive

/-- BASE of a block and colour, block 1920·b + a (R230, R258). -/
def MapBank.blockGain (m : MapBank) (block ch : Nat) : Nat := Tbl.get m.base 16384 (3 * block + ch)

/-- RESID of a pixel and colour (R231, R258). -/
def MapBank.residual (m : MapBank) (x y ch : Nat) : Nat := Tbl.get m.resid 7 (3 * (30720 * y + x) + ch)

/-- A stress plane. -/
def stressPlane (s : State) (p : Nat) : Tbl Nat := Tbl.get s.out.planes [] p

/-- The applied stress gain of an entry of a plane in frame F (R249). -/
def stressGain (plane : Tbl Nat) (f f0 entry : Nat) : Nat :=
  let base : Int := ((Tbl.get plane 32768 (2 * entry) : Nat) : Int)
  let target : Int := ((Tbl.get plane 32768 (2 * entry + 1) : Nat) : Int)
  let n : Int := min (f - f0) 8192
  (base + clampInt (target - base) (-8 * n) (8 * n)).toNat

/-- Sequence of R238. -/
def ditherSeq (f subs sub : Nat) : Nat := (f * subs + sub) % 4

/-- A tile of the output stage. -/
def tileOf (s : State) (t : Nat) : Tile := Tbl.get s.out.tiles {} t

/-- The drive code of panel pixel (x, y) and colour for a composed value, in subframe index `sub` of R222; poisoned reads
of the line count as 1.0 (R222, R253). -/
def pixelCode (s : State) (obs : LineObs) (sub x y ch comp : Nat) : Nat :=
  let tile := 8 * (y / 1440) + x / 3840
  let block := 1920 * (y / 16) + x / 16
  let m := activeMap s
  let blk := if obs.basePoison.contains block then 16384 else m.blockGain block ch
  let rf := if obs.residPoison.contains (720 * y + (12 * x + 4 * ch) / 512) then 32768 else residFactor (m.residual x y ch)
  let g := if obs.stressPoison.contains block then 32768 else stressGain (stressPlane s s.out.plane) s.tim.frameCount s.out.f0 (3 * block + ch)
  driveCode ((curveBank s s.out.curveActive).value (tileOf s tile).band ch comp) blk rf g
    (ditherAt (ditherSeq s.tim.frameCount (subframes s.tim.mode) sub) x y)

/-- The drive code of a pixel in Bench in a band: unity gains (R213, R262). -/
def benchCode (s : State) (band seq x y ch comp : Nat) : Nat :=
  driveCode ((curveBank s s.out.curveActive).value band ch comp) 16384 32768 32768 (ditherAt seq x y)

/-! ### The latch instant: bands and current references (R226 to R228, R233, R234) -/

/-- The curve bank that will be active at the next frame tick (R226). -/
def nextCurves (s : State) : CurveBank :=
  if s.tim.pending.any fun p => p.frame ≤ s.tim.frameCount + 1 && (match p.change with | .curveSwap _ => true | _ => false)
  then curveBank s (1 - s.out.curveActive) else curveBank s s.out.curveActive

/-- Lower edge of band b (R226). -/
def CurveBank.edge (c : CurveBank) (b : Nat) : Int := if b = 1 then c.t1 else if b = 2 then c.t2 else c.t3

/-- One step of the band rule (R226). -/
def CurveBank.bandStep (c : CurveBank) (theta : Int) (b : Nat) : Nat :=
  if b < 3 && c.edge (b + 1) ≤ theta then b + 1
  else if 0 < b && theta ≤ c.edge b - c.hyst then b - 1 else b

/-- The band that repeated application without hysteresis gives: the edges at or below θ (R228; log 22). -/
def CurveBank.bandOf (c : CurveBank) (theta : Int) : Nat := ([c.t1, c.t2, c.t3].filter (· ≤ theta)).length

/-- The tile's own temperature: a valid STATUS within 100 ms that marks it valid (R227, R272). -/
def tileTemp (s : State) (t : Nat) : Option Int :=
  let l := linkOf s t
  if (l.lastStatus.any fun w => tb0 s ≤ w + 100000000) && !l.stale && bit l.flags 0 then some (signed 16 l.temp) else none

/-- The panel band at this latch instant (R227). -/
def nextPanelBand (s : State) : Nat :=
  let c := nextCurves s
  if c.version = 0 then 0
  else match panelReading s with
    | none => s.out.panelBand
    | some x => if (curveBank s s.out.curveActive).version = 0 then c.bandOf x else c.bandStep x s.out.panelBand

/-- The band of a tile for the next frame tick (R226 to R228). -/
def nextTileBand (s : State) (t : Nat) : Tile :=
  let x := tileOf s t
  let c := nextCurves s
  let fresh := !x.first || (curveBank s s.out.curveActive).version = 0
  let x := { x with anew := none }
  if c.version = 0 then { x with band := 0, fallback := false }
  else match tileTemp s t with
    | some th => { x with band := if fresh then c.bandOf th else c.bandStep th x.band, fallback := false, first := true, anew := some (c.bandOf th) }
    | none => match panelReading s with
      | some _ => { x with band := nextPanelBand s, fallback := true }
      | none => { x with fallback := true }

/-- The limit step m after a latch instant (R234, R235). -/
def limitStep (s : State) : OutState :=
  let o := s.out
  match o.iLimit with
  | none => o
  | some lim =>
    let above := lim < s.pwr.iPanel
    let rise := o.m < 16 && 20 * s.pwr.iPanel * (o.m + 1) ≤ 19 * lim * o.m
    let quiet := if rise then o.quiet + 1 else 0
    let o := { o with limitFloor := o.m = 6 && above, sinceChange := o.sinceChange + 1, quiet }
    if above && 6 < o.m && (!o.mChanged || 8 ≤ o.sinceChange) then
      { o with m := o.m - 1, limitSeen := true, mChanged := true, sinceChange := 0, quiet := 0, limitFloor := false }
    else if rise && 60 ≤ quiet then { o with m := o.m + 1, mChanged := true, sinceChange := 0, quiet := 0 }
    else o

/-- CEIL(t) for the step h (R233). -/
def ceilOf (h : Nat) : Nat := (255 * h + 8) / 16

/-- CR(t, ch) (R233). -/
def crOf (bright h : Nat) : Nat := min ((bright * h + 8) / 16) (ceilOf h)

/-- h of a tile (R233). -/
def stepOf (s : State) (t : Nat) : Nat := min (thermalStep s t) s.out.m

/-- The output stages at a latch instant: m, then the references and bands of the next tick (R226, R233, R234). -/
def outputLatch (s : State) : State :=
  let was := s.out.limitFloor
  let s := { s with out := limitStep s }
  let s := { s with pwr := { s.pwr with floorSince := if !s.out.limitFloor then none else if was then s.pwr.floorSince else some (tb0 s) } }
  let tiles := 8 * configRows s
  { s with out := { s.out with
      panelBand := nextPanelBand s
      panelInvalid := (panelReading s).isNone
      tilesNext := some ((List.range tiles).map fun t => (t, { nextTileBand s t with cut := 16 - stepOf s t }))
      brightNext := some s.out.brightSet
      crNext := some ((List.range (3 * tiles)).map fun k => (k, crOf (Tbl.get s.out.brightSet 0 (k % 3)) (stepOf s (k / 3)))) } }

/-- CR takes effect and the bands change at a frame tick (R226, R233). -/
def outputTick (s : State) : State :=
  { s with out := { s.out with tiles := s.out.tilesNext.getD s.out.tiles, cr := s.out.crNext.getD s.out.cr, bright := s.out.brightNext.getD s.out.bright, tilesNext := none, crNext := none, brightNext := none } }

/-! ### Dose (R239 to R242) -/

/-- The dose of a cell and colour from the sum of its codes (R239). -/
def doseOf (sum cr weight : Nat) : Nat := (sum * cr * weight + 262144) / 524288

/-- WEIGHT of a band and colour in effect (R239). -/
def weightOf (s : State) (band ch : Nat) : Nat := Tbl.get s.out.weight 128 (3 * band + ch)

/-- Dose of the entry of a tile's cell with CR and band in effect (R239). -/
def entryDose (s : State) (tile ch sum : Nat) : Nat :=
  doseOf sum (Tbl.get s.out.cr 0 (3 * tile + ch)) (weightOf s (tileOf s tile).band ch)

/-- Working bank of a copy (R243). -/
def workBankOf (s : State) (copy bank : Nat) : Tbl Nat := Tbl.get s.out.wb [] (2 * copy + bank)

/-- Entry of panel cell column a, tile-row line y and colour: 3·(1920·b + a) + ch (R243). -/
def cellEntry (row line a ch : Nat) : Nat := 3 * (1920 * (90 * row + line / 16) + a) + ch

/-- The codes of one transmitted line of a tile are summed by cell column and colour, each counted `times` (R240, R242). -/
def addCodes (tile line times : Nat) (px : List (Nat × Nat × Nat)) (t : Tbl Nat) : Tbl Nat :=
  (List.range 240).foldl (fun t a =>
    let cell := (px.drop (16 * a)).take 16
    let add (ch : Nat) (f : Nat × Nat × Nat → Nat) (t : Tbl Nat) : Tbl Nat :=
      let e := cellEntry (tile / 8) line (240 * (tile % 8) + a) ch
      Tbl.set e (Tbl.get t 0 e + times * (cell.map f).sum) t
    add 2 (·.2.2) (add 1 (·.2.1) (add 0 (·.1) t))) t

/-- Both accumulators take a line (R240): A at the dither output, B at the input of the SerDes. -/
def sumLine (tile line times : Nat) (px : List (Nat × Nat × Nat)) (s : State) : State :=
  { s with out := { s.out with sumA := addCodes tile line times px s.out.sumA, sumB := addCodes tile line times px s.out.sumB } }

/-- The line of a working word: the copies lie in site-local windows, WB0 and WB1 first (R241, R243, R406; log 12). -/
def workLine (s : State) (copy bank e : Nat) : Option Nat :=
  (Tbl.find? copy s.dmc.areas).map fun a => (65536 * a.1 + 24883200 * bank + 4 * e) / 64

/-- A working word reads poisoned: the line's event says so, or its line is marked (R253, R416). -/
def workBad (poison : List (Nat × Nat)) (s : State) (copy e : Nat) : Bool :=
  poison.contains (copy, e) || (workLine s copy s.out.workBank e).any s.dmc.poison.contains

/-- The read-modify-write of one working word: a saturating addition, or the dose alone on a poisoned read (R241, R253, R416). -/
def flushWord (poison : List (Nat × Nat)) (copy : Nat) (s : State) (es : Nat × Nat) : State :=
  let e := es.1
  let tile := 8 * (e / 3 / 1920 / 90) + e / 3 % 1920 / 240
  let d := entryDose s tile (e % 3) es.2
  let bank := s.out.workBank
  let w := workBankOf s copy bank
  let bad := workBad poison s copy e
  let v := if bad then d else Tbl.get w 0 e + d
  let o := { s.out with wb := Tbl.set (2 * copy + bank) (Tbl.set e (min v (2 ^ 32 - 1)) w) s.out.wb }
  let o := if 2 ^ 32 ≤ v then (if copy = 0 then { o with satA := true } else { o with satB := true }) else o
  let o := if bad then { (if copy = 0 then { o with poisonA := true } else { o with poisonB := true }) with toRestore := o.toRestore ++ [(copy, e)] } else o
  noteMarks 0 (workLine s copy bank e).toList { s with out := o }

/-- The sums of a tile row belong to it (R240). -/
def ofRow (r : Nat) (es : Nat × Nat) : Bool := es.1 / 3 / 1920 / 90 == r

/-- Each accumulator flushes the cell row of a tile row to its own copy (R241). -/
def flushRow (r : Nat) (poison : List (Nat × Nat)) (s : State) : State :=
  let a := s.out.sumA.filter (ofRow r)
  let b := s.out.sumB.filter (ofRow r)
  let t := b.foldl (flushWord poison 1) (a.foldl (flushWord poison 0) s)
  { t with out := { t.out with sumA := t.out.sumA.filter fun x => !ofRow r x, sumB := t.out.sumB.filter fun x => !ofRow r x } }

/-- Poisoned reads of the output stages in a line (R253, R258). -/
def countOutPoison (obs : LineObs) (s : State) : State :=
  let k := obs.basePoison.length + obs.residPoison.length + obs.stressPoison.length
  { s with out := { s.out with poisonCount := satAdd 32 s.out.poisonCount k, poisonInFrame := s.out.poisonInFrame + k } }

/-! ### The ledger (R243, R244, R251) -/

/-- Long bank in use of a copy. -/
def longInUse (s : State) (copy : Nat) : Nat := Tbl.get s.out.lbUse 0 copy

/-- The long bank in use of a copy. -/
def longBank (s : State) (copy : Nat) : Tbl Nat := Tbl.get s.out.lb [] (2 * copy + longInUse s copy)

/-- Entry by entry sum of a long bank and a working bank, 64 bits wide (R243, R244). -/
def addBank (long work : Tbl Nat) : Tbl Nat := work.foldl (fun t e => Tbl.set e.1 ((Tbl.get t 0 e.1 + e.2) % 2 ^ 64) t) long

/-- Lines that are written whole carry no mark any longer (R417). -/
def unmark (ls : List Nat) (s : State) : State :=
  { s with dmc := { s.dmc with poison := s.dmc.poison.filter fun l => !ls.contains l } }

/-- Walec restores the working words that read poisoned from the other copy before the next fold, and their lines carry no mark any
longer (R253). -/
def restoreWords (s : State) : State :=
  s.out.toRestore.foldl (fun t ce =>
    let b := t.out.workBank
    let other (k : Nat) := Tbl.get (workBankOf t (1 - ce.1) k) 0 ce.2
    let put (k : Nat) (o : OutState) : OutState :=
      { o with wb := Tbl.set (2 * ce.1 + k) (Tbl.set ce.2 (other k) (Tbl.get o.wb [] (2 * ce.1 + k))) o.wb }
    unmark ((workLine t ce.1 b ce.2).toList ++ (workLine t ce.1 (1 - b) ce.2).toList) { t with out := put b (put (1 - b) t.out) })
    { s with out := { s.out with toRestore := [] } }

/-- Steps 2 and 3 for bank X of both copies (R244). -/
def foldBank (x : Nat) (s : State) : State :=
  let one (copy : Nat) (s : State) : State :=
    let u := longInUse s copy
    { s with out := { s.out with
        lb := Tbl.set (2 * copy + (1 - u)) (addBank (longBank s copy) (workBankOf s copy x)) s.out.lb
        lbUse := Tbl.set copy (1 - u) s.out.lbUse
        wb := Tbl.set (2 * copy + x) [] s.out.wb } }
  one 1 (one 0 (restoreWords s))

/-- Both working banks are folded (R251, R498). -/
def foldNow (s : State) : State := foldBank 1 (foldBank 0 s)

/-- Number of entries of a bank (R243). -/
def entryCount : Nat := 6220800

/-! ### Retention, agreement and targets (R245 to R248) -/

/-- Retention at d along the knots of a colour, and whether d lies beyond the last knot (R246). -/
def retainAt (d : Nat) : List (Nat × Nat) → Nat × Bool
  | [] => (32768, false)
  | [k] => (k.2, k.1 < d)
  | a :: b :: r =>
    if d < b.1 then
      let delta : Int := (b.1 : Int) - a.1
      ((a.2 + (2 * ((b.2 : Int) - a.2) * ((d : Int) - a.1) + delta) / (2 * delta)).toNat, false)
    else retainAt d (b :: r)

/-- Retention of an entry with the dose LONG (R246). -/
def AgeModel.retain (m : AgeModel) (entry long : Nat) : Nat × Bool :=
  retainAt (min (long / 2 ^ m.doseShift) (2 ^ 32 - 1)) (Tbl.get m.knots [] (entry % 3))

/-- The gain target before the clamp (R248). -/
def gainRaw (t r : Nat) : Nat := (2 * t * 32768 + r) / (2 * r)

/-- The first entry whose retentions differ by more than 32 (R247). -/
def firstDiffer (m : AgeModel) (a b : Tbl Nat) : Option Nat :=
  (List.range entryCount).find? fun e =>
    let x := (m.retain e (Tbl.get a 0 e)).1
    let y := (m.retain e (Tbl.get b 0 e)).1
    x + 32 < y || y + 32 < x

/-- CRC-32C over a bank of 8-byte entries: `k` of them from entry `e` on, whose register so far is `c`. -/
def bankCrcFrom : Nat → Nat → Nat → Tbl Nat → Nat
  | 0, _, c, _ => c
  | k + 1, e, c, [] => bankCrcFrom k (e + 1) (crcUpdate 0x82F63B78 c (leBytes 8 0)) []
  | k + 1, e, c, x :: r =>
    if x.1 = e then bankCrcFrom k (e + 1) (crcUpdate 0x82F63B78 c (leBytes 8 x.2)) r
    else bankCrcFrom k (e + 1) (crcUpdate 0x82F63B78 c (leBytes 8 0)) (x :: r)

/-- Bytes of an uncompressed long bank (R243). -/
def bankBytes : Nat := 8 * entryCount

/-- The bytes of a long bank (R251). -/
def bankImage (b : Tbl Nat) : Bytes := (List.range entryCount).flatMap fun e => leBytes 8 (Tbl.get b 0 e)

/-- CRC-32C of an uncompressed long bank (R251). -/
def bankCrc (b : Tbl Nat) : Nat := bankCrcFrom entryCount 0 0xFFFFFFFF b ^^^ 0xFFFFFFFF

/-- The header of a persisted ledger: MAGIC, VERSION, PANEL_ID, frame number, TB1 time and data CRC, HEADER_CRC over bytes 0 to
59 (R251; log 91). -/
def ledgerHead (version panelId frame tb1 crc : Nat) : Bytes :=
  let b := leBytes 4 0x4C534750 ++ leBytes 4 version ++ leBytes 8 panelId ++ leBytes 8 frame ++ leBytes 8 tb1 ++ leBytes 4 crc ++ leBytes 24 0
  b ++ leBytes 4 (crc32c b)

/-- The header and data checks of a slot pass (R251). -/
def LedgerSlot.passes (x : LedgerSlot) : Bool :=
  leAt x.head 0 4 = 0x4C534750 && leAt x.head 60 4 = crc32c (x.head.take 60) && leAt x.head 32 4 = bankCrc x.bank

/-- The newer persisted ledger whose checks pass (R251). -/
def persisted (s : State) : Option LedgerSlot :=
  let good := [0, 1].filterMap fun k => (Tbl.find? k s.out.slots).bind fun x => if x.passes then some x else none
  good.foldl (fun m x => match m with | none => some x | some y => some (if y.order < x.order then x else y)) none

/-- A copy is implausible against the persisted ledger: below it, or above it by more than the largest dose (R247). -/
def implausible (s : State) (l : Tbl Nat) : Bool :=
  match persisted s with
  | none => false
  | some p => (List.range entryCount).any fun e =>
      let x := Tbl.get l 0 e
      let y := Tbl.get p.bank 0 e
      x < y || y + 32481 * s.out.sincePersist < x

/-- The plausible copy, when exactly one copy is implausible (R247). -/
def plausibleCopy (s : State) : Option Nat :=
  let a := implausible s (longBank s 0)
  let b := implausible s (longBank s 1)
  if a && !b then some 1 else if b && !a then some 0 else none

/-- The copy to keep: the one that STRESS.RESOLVE named; a withheld update waits for it, otherwise copies that differ are tested
(R247). -/
def keepCopy (differ : Option Nat) (s : State) : Option Nat :=
  match s.out.resolved with
  | some k => if s.out.unresolved || differ.isSome then some k else none
  | none => if s.out.unresolved || differ.isNone then none else plausibleCopy s

/-- A copy's long bank is rebuilt from the other (R247). -/
def rebuild (keep : Nat) (s : State) : State :=
  let other := 1 - keep
  { s with out := { s.out with lb := Tbl.set (2 * other + longInUse s other) (longBank s keep) s.out.lb } }

/-- Walec accepts targets only in [16384, 32768] (R250). -/
def targetOf (t r : Nat) : Nat := max 16384 (min 32768 (gainRaw t r))

/-- The inactive plane for a swap at frame F1: BASE is the gain the active plane gives in F1, TARGET the new target (R250). -/
def newPlane (s : State) (f1 : Nat) (m : AgeModel) (long : Tbl Nat) : Tbl Nat :=
  (List.range entryCount).flatMap fun e =>
    [(2 * e, stressGain (stressPlane s s.out.plane) f1 s.out.f0 e), (2 * e + 1, targetOf s.out.target (m.retain e (Tbl.get long 0 e)).1)]

/-- Step 5: targets over every entry, the report, and the swap planned for F1 (R248, R250, R501). -/
def installTargets (m : AgeModel) (s : State) : State :=
  let long := longBank s 0
  let rs := (List.range entryCount).map fun e => m.retain e (Tbl.get long 0 e)
  let f1 := nextFrame s
  let s := { s with out := { s.out with
    planes := Tbl.set (1 - s.out.plane) (newPlane s f1 m long) s.out.planes
    exhausted := (rs.filter fun r => 32768 < gainRaw s.out.target r.1).length
    beyond := (rs.filter (·.2)).length
    minRetain := rs.foldl (fun k r => min k r.1) 65535
    minGain := rs.foldl (fun k r => min k (targetOf s.out.target r.1)) 65535
    withheld := 0, disagree := false, firstDisagree := 0xFFFFFFFF } }
  plan f1 (.stressSwap f1) byWalec s

/-- A disagreement is recorded with its first entry; which copy the entry names is open (R247, R511). -/
def noteDiffer (differ : Option Nat) (s : State) : State :=
  match differ with
  | none => s
  | some e => drew (log byWalec (freeBelow s 2) 0x34 e { s with out := { s.out with disagree := true, firstDisagree := e } })

/-- The copies as compared: they agree and no update is withheld, or one of them is kept, or the update is withheld until
STRESS.RESOLVE (R247). -/
def settleCopies (m : AgeModel) (differ : Option Nat) (s : State) : State :=
  let t := noteDiffer differ s
  let go (u : State) : State := installTargets m { u with out := { u.out with resolved := none, unresolved := false } }
  match keepCopy differ t with
  | some k => go (log byWalec (1 - k) 0x35 (differ.getD t.out.firstDisagree) (rebuild k t))
  | none =>
    if differ.isNone && !t.out.unresolved then go t
    else { t with out := { t.out with withheld := satAdd 8 t.out.withheld 1, unresolved := true } }

/-- Steps 4 and 5 (R244, R247). -/
def compareCopies (s : State) : State :=
  match s.out.model with
  | none => s
  | some m => settleCopies m (firstDiffer m (longBank s 0) (longBank s 1)) s

/-- The update takes its next step: the swap of the working bank is requested first; once the swap has taken effect the
idle bank is folded, the copies are compared and the targets installed (R244). -/
def updateStepOf (s : State) : State :=
  match s.out.updateStep with
  | none =>
    plan (nextFrame s) .workBank byWalec { s with out := { s.out with updateStep := some 1, lastUpdate := tb0 s } }
  | some _ =>
    if s.tim.pending.any (·.change == .workBank) then s
    else
      let t := compareCopies (foldBank (1 - s.out.workBank) s)
      { t with out := { t.out with updateStep := none } }

/-- STRESS_UPDATE (R244): Walec makes it every UPDATE_PERIOD. -/
def execStressUpdate (s : State) : Out :=
  let t := if s.out.updateStep.isNone then advanceTo0 (s.out.lastUpdate + 1000000000 * s.out.updatePeriod) s else s
  done (ifEvent (s.hif.walec == .running && s.tim.bench == .off) (updateStepOf t) s)

/-- The long bank of a copy that agreed is persisted into the older slot (R251). -/
def persistLedger (s : State) : State :=
  let order (k : Nat) : Nat := (Tbl.find? k s.out.slots).elim 0 (·.order)
  let k := if order 0 ≤ order 1 then 0 else 1
  let b := longBank s 0
  let x : LedgerSlot := { head := ledgerHead (s.out.model.elim 0 (·.version)) (s.geom.panelId.getD 0) s.tim.frameCount (tbNs s 1) (bankCrc b)
                          bank := b, order := max (order 0) (order 1) + 1 }
  internalJob bankBytes (Config.zlib (bankImage b)).length { s with out := { s.out with slots := Tbl.set k x s.out.slots, sincePersist := 0 } }

/-- An hour in nanoseconds. -/
def hourNs : Nat := 3600000000000

/-- LEDGER_PERSIST: at an hour of TB0 (R251). While the last update is withheld neither copy agreed, and nothing is persisted. -/
def execLedgerPersist (s : State) : Out :=
  done (ifEvent (s.hif.walec == .running && s.bot.emmcReady && !s.out.disagree && s.tim.bench == .off)
    (persistLedger (advanceTo0 ((tb0 s / hourNs + 1) * hourNs) s)) s)

/-- The working-bank selector changes at a frame tick (R243). -/
def swapWorkBank (s : State) : State := { s with out := { s.out with workBank := 1 - s.out.workBank } }

/-- The stress planes swap with the new F0 (R250, R257, R511). -/
def swapStress (f0 : Nat) (o : Origin) (s : State) : State :=
  log o (1 - s.out.plane) 0x33 f0
    { s with out := { s.out with plane := 1 - s.out.plane, f0, updates := wrapAdd 32 s.out.updates 1, lastUpdateFrame := f0 } }

/-- The curve banks swap (R225, R511). -/
def swapCurves (o : Origin) (s : State) : State :=
  let a := s.out.curveActive
  log o (1 - a) 0x31 ((curveBank s a).version + 2 ^ 32 * (curveBank s (1 - a)).version)
    { s with out := { s.out with curveActive := 1 - a, curveLoaded := false, curveFrame := s.tim.frameCount } }

/-- The map banks swap (R232, R511). -/
def swapMaps (o : Origin) (s : State) : State :=
  let a := s.out.mapActive
  log o (1 - a) 0x32 ((Tbl.get s.out.maps {} a).version + 2 ^ 32 * (Tbl.get s.out.maps {} (1 - a)).version)
    { s with out := { s.out with mapActive := 1 - a, mapLoaded := false, mapFrame := s.tim.frameCount } }

/-! ### The dose of Bench (R254) -/

/-- Four Bench doses and their mean rounded half up, for codes summed by sequence (R254). -/
def meanDose (ds : List Nat) : Nat := (2 * ds.sum + 4) / 8

end Sys2Proof.Machine
end

