-- ==== Sys2Proof/Machine/HostIf.lean ====
section
/-! DEFINITION. The host interface (14_host_interface.md): ports, drawers, doorbells, queues, leases and BAR2. -/

namespace Sys2Proof.Machine

/-! ### Ports (R447, R448, R666) -/

/-- The port can send again: writes that D3hot held go out (R448), then the messages whose pending bit is set and whose vector is not
masked (R482; log 9). -/
def flushPending (p : Port) (s : State) : State :=
  let h := portOf s p
  let go := h.pba.filter fun v => !bit (Tbl.get h.msix {} v).control 0
  if portOpen s p then
    sendAll (h.stalled.map (fun w => .hostWrite p w.1 w.2) ++ go.map (.msix p ·))
      (setPort p { h with stalled := [], pba := h.pba.filter fun v => !go.contains v } s)
  else s

/-- A drawer after a reset of its port: GEN increments, IDLE, areas and counters cleared (R448, R458, R460). -/
def Drawer.portReset (d : Drawer) : Drawer :=
  { d with state := .idle, gen := (d.gen + 1) % 16, req := [], resp := [], aborts := 0, refused := 0, staleResp := 0 }

/-- The drawers of a port after its reset. -/
def resetDrawers (p : Port) (s : State) : State :=
  (List.range 32).foldl (fun t n => takeClass p n (setDrawer p n (drawerOf t p n).portReset t)) s

/-- A queue that is DETACHED: GEN increments and the indices are 0 (R477). -/
def Queue.detach (c : Queue) : Queue :=
  { c with state := .detached, gen := (c.gen + 1) % 16, sqHead := 0, sqTail := 0, cqTail := 0, cqHead := 0, reserved := 0,
           phase := true, since := [] }

/-- The queues of a port with rings in host memory become DETACHED (R448, R477). -/
def detachHostRings (p : Port) (s : State) : State :=
  { s with hif := { s.hif with queues := s.hif.queues.map fun e =>
      if e.2.port = p && e.2.hostRing && e.2.state == .active then (e.1, e.2.detach) else e } }

/-- The reach of a link loss, PERST# or a function level reset: one port (R448). -/
def resetPort (p : Port) (s : State) : State :=
  let t := detachHostRings p (resetDrawers p s)
  setPort p { portOf t p with resetSeen := true, stalled := [] } t

/-- Configuration space and the registers that PERST# and a function level reset also reset (R448). -/
def HostPort.configReset (h : HostPort) : HostPort :=
  { h with msix := [], pba := [], bar2Base := 0, intEn := 255, intVector := 0, bar0 := 0, bar2 := 0, aer := [] }

/-- The link of a port goes down (R448). -/
def linkLoss (p : Port) (s : State) : State :=
  ifEvent (portOf s p).linkUp (resetPort p (setPort p { portOf s p with linkUp := false, speed := 0, width := 0 } s)) s

/-- PCIE_LINK_DOWN (R448). -/
def execPcieLinkDown (p : Port) (s : State) : Out := done (linkLoss p s)

/-- The effect of PERST# asserted (R448). -/
def assertPerst (p : Port) (s : State) : State :=
  resetPort p (setPort p { (portOf s p).configReset with linkUp := false, speed := 0, width := 0, d3hot := false, perst := true, ready := false } s)

/-- PERST (R448). -/
def execPerst (p : Port) (s : State) : Out := done (ifEvent (!(portOf s p).perst) (assertPerst p s) s)

/-- FUNCTION_LEVEL_RESET (R448). -/
def execFunctionLevelReset (p : Port) (s : State) : Out :=
  done (ifEvent (portOf s p).linkUp (resetPort p (setPort p { (portOf s p).configReset with d3hot := false } s)) s)

/-- D3HOT_ENTRY (R448). -/
def execD3hotEntry (p : Port) (s : State) : Out :=
  done (ifEvent (portOf s p).linkUp (setPort p { portOf s p with d3hot := true } s) s)

/-- D3HOT_EXIT (R448). -/
def execD3hotExit (p : Port) (s : State) : Out :=
  done (ifEvent (portOf s p).d3hot (flushPending p (setPort p { portOf s p with d3hot := false } s)) s)

/-- PERST_RELEASE (R666). -/
def execPerstRelease (p : Port) (s : State) : Out := done (setPort p { portOf s p with perst := false } s)

/-- A port's own reference input runs: it has not stopped since it last qualified (R549, R666; log 115). -/
def portRef (s : State) : Port → Bool
  | .a => !s.clk.refA.stopped
  | .b => !s.clk.refB.stopped

/-- PORT_LINK_UP: the link is in L0 and BAR0 is ready, after the end of power-on reset (R552, R666). -/
def execPortLinkUp (p : Port) (speed width : Nat) (s : State) : Out :=
  done (ifEvent (!s.pwr.porst && s.clk.chosen && !(portOf s p).perst && !(portOf s p).linkUp && portRef s p)
    (flushPending p (setPort p { portOf s p with linkUp := true, ready := true, speed, width } s)) s)

/-! ### Drawers (R455 to R461) -/

/-- TAG_GEN of the request in a drawer's request area (R456). -/
def Drawer.tagGen (d : Drawer) : Nat := leAt d.req 4 2

/-- A write that is discarded and counts as refused (R457, R458). -/
def refuseDrawer (p : Port) (n : Nat) (s : State) : State :=
  let d := drawerOf s p n
  setDrawer p n { d with refused := satAdd 16 d.refused 1 } s

/-- An accepted KICK: to Walec, or answered by the host interface while Walec does not run (R458, R459). -/
def acceptKick (p : Port) (n tag : Nat) (s : State) : State :=
  let d := drawerOf s p n
  if s.hif.walec == .running then
    setDrawer p n { d with state := .request, tag, resp := List.replicate 16 0 ++ d.resp.drop 16 } s
  else respond p n 0x000B false true d.tagGen [] (setDrawer p n { d with tag } s)

/-- A write to HIF_DRW_DOORBELL (R457, R458). -/
def drawerDoorbell (p : Port) (n v : Nat) (s : State) : State :=
  let d := drawerOf s p n
  if bits v 18 16 = 1 then
    if (d.state == .idle || d.state == .response) && bits v 15 12 = d.gen && bits v 15 0 = d.tagGen then acceptKick p n (bits v 11 0) s
    else refuseDrawer p n s
  else if bits v 18 16 = 2 then
    takeClass p n (setDrawer p n { d with gen := (d.gen + 1) % 16, state := .idle, aborts := satAdd 8 d.aborts 1 } s)
  else if bits v 18 16 = 4 then
    if d.state == .response && bits v 15 12 = d.gen then takeClass p n (setDrawer p n { d with state := .idle } s)
    else refuseDrawer p n s
  else refuseDrawer p n s

/-- KICK (R458). -/
def execKick (p : Port) (n value : Nat) (s : State) : Out := done (ifEvent (portOpen s p) (drawerDoorbell p n value s) s)

/-- ABORT (R458). -/
def execAbort (p : Port) (n value : Nat) (s : State) : Out := done (ifEvent (portOpen s p) (drawerDoorbell p n value s) s)

/-- ACK (R458). -/
def execAck (p : Port) (n value : Nat) (s : State) : Out := done (ifEvent (portOpen s p) (drawerDoorbell p n value s) s)

/-- A response from Walec: matched by the state, TAG and GEN of the drawer's request, or discarded (R458). -/
def deliver (p : Port) (n : Nat) (a : Answer) (s : State) : State :=
  let d := drawerOf s p n
  if d.state == .busy && a.tagGen = d.gen * 4096 + d.tag then respond p n a.status false false a.tagGen a.body s
  else
    let t := setDrawer p n { d with staleResp := satAdd 16 d.staleResp 1 } s
    setPort p { portOf t p with staleRespSeen := true } t

/-- WALEC_RESPONSE: the oldest answer of the drawer's channel is delivered (R458). -/
def execWalecResponse (p : Port) (n : Nat) (s : State) : Out :=
  match s.walec.answers.find? fun a => a.ch == .drawer p n with
  | none => done s
  | some a => done (deliver p n a { s with walec := { s.walec with answers := s.walec.answers.erase a } })

/-! ### Queues (R463 to R477, R483) -/

/-- A class is exclusive and its index in HIF_OWN (R473, R478). -/
def exclusive (cls : Nat) : Bool := 1 ≤ cls && cls ≤ 4

/-- Ownership of class k of R478. -/
def ownerOf (s : State) (k : Nat) : Owner := Tbl.get s.hif.own {} k

/-- The port holds the class's lease: it is the holder and the lease has not expired (R473, R480; log 17). -/
def holds (s : State) (p : Port) (cls : Nat) : Bool :=
  !exclusive cls || ((ownerOf s (cls - 1)).holder == some p && !(ownerOf s (cls - 1)).expired)

/-- STATE of a queue: HELD while its port does not hold its exclusive class (R472, R473). -/
def queueState (s : State) (q : Nat) : QueueState :=
  let c := queueOf s q
  if c.state == .active && !holds s c.port c.cls then .held else c.state

/-- A doorbell of a queue is accepted (R469). -/
def doorbellOk (s : State) (p : Port) (q v : Nat) : Bool :=
  let c := queueOf s q
  let tail := bits v 15 0
  let head := bits v 31 16
  queueState s q == .active && c.port == p && bits v 63 60 == c.gen &&
  (!bit v 32 || (tail < c.sqSize && (c.sqTail + c.sqSize - c.sqHead) % c.sqSize ≤ (tail + c.sqSize - c.sqHead) % c.sqSize)) &&
  (!bit v 33 || (head < c.cqSize && (head + c.cqSize - c.cqHead) % c.cqSize ≤ unconsumed c))

/-- A write to HIF_QDB_q (R468, R469); the coalescing timer runs from the oldest completion that CQ_HEAD leaves, and ends with the last
(R483). -/
def queueDoorbell (p : Port) (q v : Nat) (s : State) : State :=
  let c := queueOf s q
  if doorbellOk s p q v then
    let c := if bit v 32 then { c with sqTail := bits v 15 0 } else c
    let c := if bit v 33 then { c with cqHead := bits v 31 16 } else c
    setQueue q { c with since := c.since.drop (c.since.length - unconsumed c) } s
  else
    let t := setQueue q { c with dbRefused := satAdd 8 c.dbRefused 1 } s
    setPort p { portOf t p with dbRefusedSeen := true } t

/-- SQ_DOORBELL (R469). -/
def execSqDoorbell (p : Port) (q value : Nat) (s : State) : Out :=
  done (ifEvent (portOpen s p) (queueDoorbell p q value s) s)

/-- CQ_DOORBELL (R469). -/
def execCqDoorbell (p : Port) (q value : Nat) (s : State) : Out :=
  done (ifEvent (portOpen s p) (queueDoorbell p q value s) s)

/-- Body of a COMPLETION record of a SERVICE queue (R466). -/
def completionBody (status len user : Nat) : Bytes := leBytes 2 status ++ leBytes 2 0 ++ leBytes 4 len ++ leBytes 8 user

/-- Body of an ACCEPTANCE record: status, COMMIT_ID (R501), USER and planned frame (R466). -/
def acceptanceBody (status commitId user frame : Nat) : Bytes :=
  leBytes 2 status ++ leBytes 2 0 ++ leBytes 4 commitId ++ leBytes 8 user ++ leBytes 8 frame

/-- The next entry of a queue, from device DRAM or as the owning port's memory returns it; none when the fetch fails (R463, R470,
R486): a poisoned response is a fetch that fails (log 95). -/
def nextEntry (s : State) (c : Queue) (hostEntry : Option Bytes) : Option Bytes × State :=
  if c.hostRing then (hostEntry.map (padTo 32), s)
  else
    let r := readOp 6 (c.sqAddr + 32 * c.sqHead) 32 [] s
    (if r.2.2 then none else some r.2.1, r.1)

/-- Completion slots that an entry reserves (R470). -/
def slotsFor (c : Queue) (entry : Bytes) : Nat := if c.kind = 1 && u8 entry 0 = 2 then 2 else 1

/-- Fetch an entry: stamped with GEN, its slots reserved (R470, R471). While Walec does not run a COMMIT entry of a SERVICE
queue is answered at once with ST_RESTARTING and every other entry waits in its queue (R30, R459). -/
def fetchEntry (q : Nat) (entry : Bytes) (s : State) : State :=
  let c := queueOf s q
  let need := slotsFor c entry
  let t := setQueue q { c with sqHead := (c.sqHead + 1) % c.sqSize, reserved := c.reserved + need } s
  if c.kind = 1 && s.hif.walec != .running && u8 entry 0 = 2 then
    complete q c.sqHead c.gen 1 (acceptanceBody 0x000B 0 (leAt entry 24 8) 0) need t
  else
    setQueue q { queueOf t q with fetched := c.fetched ++ [{ bytes := entry, slot := c.sqHead, gen := c.gen, reserved := need }] } t

/-- A queue can fetch: its port answers, or the controller serves the entry's line (R428, R431, R448; log 95). -/
def fetches (s : State) (c : Queue) (hostEntry : Option Bytes) : Bool :=
  if c.hostRing then hostEntry.isNone || portOpen s c.port else s.dmc.mode == .running && serves s (c.sqAddr + 32 * c.sqHead)

/-- QUEUE_ENTRY_FETCH (R470). A fetch that fails detaches the queue (R486). -/
def execQueueEntryFetch (q : Nat) (hostEntry : Option Bytes) (s : State) : Out :=
  let c := queueOf s q
  let r := nextEntry s c hostEntry
  let t := match r.1 with
    | none => setQueue q c.detach r.2
    | some e => if slotsFor c e ≤ slotsFree c then fetchEntry q e r.2 else s
  done (ifEvent (queueState s q == .active && c.sqHead ≠ c.sqTail && fetches s c hostEntry) t s)

/-- COALESCE_TIMEOUT (R483). -/
def execCoalesceTimeout (q : Nat) (s : State) : Out :=
  let c := queueOf s q
  match c.since with
  | [] => done s
  | t :: _ => done (ifEvent (c.coalUs ≠ 0 && 0 < unconsumed c)
      (message c.port c.vector (setQueue q { c with since := [] } (advanceTo0 (t + 1000 * c.coalUs + 1) s))) s)

/-! ### Leases (R473 to R481) -/

/-- The lease timers are frozen (R474). -/
def frozen (s : State) : Bool := s.hif.walec == .restarting

/-- Start a port's timer at LEASE_MS: its deadline in TB0, or the time left while frozen (R474). -/
def startLease (p : Port) (s : State) : State :=
  setPort p { portOf s p with lease := some ((if frozen s then 0 else tb0 s) + s.hif.leaseMs * 1000000) } s

/-- Set ownership of class k. -/
def setOwner (k : Nat) (o : Owner) (s : State) : State := { s with hif := { s.hif with own := Tbl.set k o s.hif.own } }

/-- Code of a holder (R479). -/
def holderCode : Option Port → Nat
  | none => 0
  | some .a => 1
  | some .b => 2

/-- The LEASE entry of a class: old holder in bits 7:0 and new holder in 15:8 (R481, R511; log 15). Its time is
TB0's (log 99). -/
def logLease (k : Nat) (old new : Option Port) (s : State) : State :=
  logIn 0 (hw 15) (k + 1) 0x80 (holderCode old + 256 * holderCode new) [] [] false s

/-- The queues of a class when it passes from a port to the other (R477). -/
def passQueues (k : Nat) (old : Port) (s : State) : State :=
  { s with hif := { s.hif with queues := s.hif.queues.map fun e =>
      if e.2.cls = k + 1 && e.2.port == old && e.2.state == .active then
        (e.1, if e.2.hostRing then e.2.detach else { e.2 with port := old.other })
      else e } }

/-- A class passes to the other port (R476, R477, R485). -/
def passClass (k : Nat) (old : Port) (s : State) : State :=
  raise old 3 (raise old.other 2 (passQueues k old (logLease k (some old) (some old.other)
    (setOwner k { ownerOf s k with holder := some old.other, expired := false } s))))

/-- The claim of one class (R475). -/
def claimClass (p : Port) (k : Nat) (s : State) : State :=
  let o := ownerOf s k
  if o.holder == some p.other && !o.expired && (portOf s p.other).lease.isSome then
    setPort p { portOf s p with claimRefused := true } s
  else
    let t := startLease p s
    if o.holder == some p.other then passClass k p.other t
    else raise p 2 (logLease k o.holder (some p) (setOwner k { o with holder := some p, expired := false } t))

/-- The release of one class by its holder (R475). -/
def releaseClass (p : Port) (k : Nat) (s : State) : State :=
  let o := ownerOf s k
  if o.holder == some p then logLease k (some p) none (setOwner k { o with holder := none, expired := false } s) else s

/-- A write to HIF_LEASE_CTRL: renewal, then releases, then claims; a write that claims and releases one class is
discarded (R474, R475, R478, R486). -/
def leaseWrite (p : Port) (v : Nat) (s : State) : State :=
  if (List.range 4).any fun k => bit v k && bit v (4 + k) then s
  else
    let t := if bit v 8 then startLease p s else s
    let t := (List.range 4).foldl (fun t k => if bit v (4 + k) then releaseClass p k t else t) t
    (List.range 4).foldl (fun t k => if bit v k then claimClass p k t else t) t

/-- RENEW (R474). -/
def execRenew (p : Port) (value : Nat) (s : State) : Out := done (ifEvent (portOpen s p) (leaseWrite p value s) s)

/-- CLAIM (R475). -/
def execClaim (p : Port) (value : Nat) (s : State) : Out := done (ifEvent (portOpen s p) (leaseWrite p value s) s)

/-- RELEASE (R475). -/
def execRelease (p : Port) (value : Nat) (s : State) : Out := done (ifEvent (portOpen s p) (leaseWrite p value s) s)

/-- The expiry of one class of a port, and its automatic passing (R476, R481). -/
def expireClass (p : Port) (k : Nat) (s : State) : State :=
  let o := ownerOf s k
  if o.holder == some p && !o.expired then
    let t := logLease k (some p) (some p) (setOwner k { o with expired := true } s)
    if o.auto && (portOf s p.other).linkUp && (portOf s p.other).lease.isSome then passClass k p t else t
  else s

/-- A port's timer reaches 0 (R476, R485). -/
def expireLease (p : Port) (s : State) : State :=
  let t := setPort p { portOf s p with lease := none, expiredSeen := true } s
  (List.range 4).foldl (fun t k => expireClass p k t) (raise p.other 4 t)

/-- LEASE_EXPIRY (R476). -/
def execLeaseExpiry (p : Port) (s : State) : Out :=
  match (portOf s p).lease with
  | none => done s
  | some t => done (ifEvent (!frozen s) (expireLease p (advanceTo0 t s)) s)

/-! ### BAR2 (R453, R454) -/

/-- Device address of byte `off` of a port's window (R453). -/
def windowAddr (s : State) (p : Port) (off : Nat) : Nat := (portOf s p).bar2Base * 2 ^ 20 + off

/-- A BAR2 access that the host interface itself completes with EP or discards (R431, R454). -/
def windowBad (s : State) (p : Port) (off len : Nat) : Bool :=
  s.dmc.mode != .running || 2 ^ 40 < windowAddr s p off + len

/-- A read through the window: a request of requester 6, or a poisoned completion that BAR2_POISONED counts (R453, R454). -/
def bar2Read (p : Port) (off len : Nat) (ecc : List Ecc) (s : State) : State :=
  let a := windowAddr s p off
  if windowBad s p off len then countPoisoned p (send (.readReply 6 a [] true) s)
  else request { requester := 6, addr := a, len, ecc, bar2 := some p } s

/-- BAR2_READ (R454). -/
def execBar2Read (p : Port) (off len : Nat) (ecc : List Ecc) (s : State) : Out := done (ifEvent (portOpen s p) (bar2Read p off len ecc s) s)

/-- The writes of an access through the window, one for each line (R412 to R414). -/
def windowWrites (a : Nat) (data : Bytes) (ecc : List Ecc) : List DramRequest :=
  (linePieces a data.length).zipIdx.map fun p =>
    { requester := 6, addr := p.1.1, data := some ((data.drop (p.1.1 - a)).take p.1.2), ecc := [ecc.getD p.2 {}] }

/-- A BAR2 write that R454 discards and counts, whole or in a line: the controller does not run, the window ends, or a command error
(R420, R454). -/
def windowWriteBad (s : State) (p : Port) (off len : Nat) : Bool :=
  windowBad s p off len || (linePieces (windowAddr s p off) len).any fun x => (accessError s 6 x.1 x.2 true).isSome

/-- BAR2_WRITE (R454). -/
def execBar2Write (p : Port) (off : Nat) (data : Bytes) (ecc : List Ecc) (s : State) : Out :=
  let t := if windowBad s p off data.length then s else (windowWrites (windowAddr s p off) data ecc).foldl (fun t h => request h t) s
  done (ifEvent (portOpen s p) (if windowWriteBad s p off data.length then countPoisoned p t else t) s)

/-! ### Walec's beat (R488) -/

/-- WALEC_BEAT (R488). -/
def execWalecBeat (s : State) : Out :=
  done (ifEvent (s.hif.walec == .running) { s with hif := { s.hif with beat := wrapAdd 16 s.hif.beat 1 } } s)

end Sys2Proof.Machine
end

