-- ==== Sys2Proof/Machine/Timing.lean ====
section
/-! DEFINITION. Time bases, servos, event slots, PTM, PTP and the Ethernet ports (16_time_and_network.md). -/

namespace Sys2Proof.Machine

/-! ### Captures (R520, R543) -/

/-- CAPTURE: all four bases into the port's registers on one edge (R520). -/
def captureAll (p : Port) (s : State) : State :=
  let c : Capture := { ns := (List.range 4).map fun n => (n, tbNs s n), frac := (List.range 4).map fun n => (n, tbU s n % 65536) }
  { s with tim := { s.tim with captures := Tbl.set p.num c s.tim.captures } }

/-- CAPTURE (R520). -/
def execCapture (p : Port) (value : Nat) (s : State) : Out :=
  done (ifEvent (portOpen s p && bit value 0) (captureAll p s) s)

/-! ### Event slots (R524, R525) -/

/-- An event slot. -/
def slotOf (s : State) (n : Nat) : EventSlot := Tbl.get s.tim.slots {} n

/-- Set an event slot. -/
def setSlot (n : Nat) (x : EventSlot) (s : State) : State := { s with tim := { s.tim with slots := Tbl.set n x s.tim.slots } }

/-- The next target of a periodic slot: the smallest whole number of periods that puts it after `now` (R525). -/
def nextTarget (target period now : Nat) : Nat :=
  let ahead := signed 64 (unsigned 64 ((now : Int) - target))
  if ahead < 0 then target else (target + (ahead.toNat / period + 1) * period) % 2 ^ 64

/-- A slot fires (R525). -/
def fireSlot (n : Nat) (s : State) : State :=
  let x := slotOf s n
  let y := { x with count := wrapAdd 32 x.count 1 }
  let y := if x.period = 0 then { y with armed := false } else { y with target := nextTarget x.target x.period (tbNs s x.base) }
  let t := setSlot n y s
  let t := { t with tim := { t.tim with fired := if t.tim.fired.contains n then t.tim.fired else n :: t.tim.fired } }
  let t := if bit x.action 0 then raise .a 7 t else t
  if bit x.action 1 then raise .b 7 t else t

/-- Time goes on until base n is at or after an integer time under R521, if it is not yet (R525; log 10). -/
def advanceToNs (n target : Nat) (s : State) : State :=
  if atOrAfter (tbNs s n) target then s else advanceTo n (tbU s n / 65536 * 65536 + unsigned 64 ((target : Int) - tbNs s n) * 65536) s

/-- EVENT_SLOT_FIRE (R525). -/
def execEventSlotFire (slot : Nat) (s : State) : Out :=
  let x := slotOf s slot
  done (ifEvent (x.armed && clocked s) (fireSlot slot (advanceToNs x.base x.target s)) s)

/-! ### Servos (R526 to R530) -/

/-- INC_n at its nominal rate, 10 ns (R519). -/
def nominalInc : Nat := 10 * 2 ^ 40

/-- A rate the manual leaves to the servo, within ±`ppm` of `about` (R519, R527; log 2). -/
def freeRate (s : State) (about ppm : Nat) : Nat :=
  let w := about * ppm / 1000000
  about - w + freeBelow s (2 * w + 1)

/-- A servo after a sample (R526). In LOCKING a source that was never valid does not become invalid. -/
def Base.sample (configured valid : Bool) (offset : Int) (was : Base) : Base :=
  let b := { was with offset, wasValid := configured && valid }
  let far (x : Int) (d : Int) : Bool := d < x || x < -d
  if !configured then { b with servo := .free, good := 0, bad := 0 }
  else match b.servo with
    | .free => { b with servo := .locking, good := 0, bad := 0 }
    | .locking =>
      if was.wasValid && !valid then { b with servo := .holdover, good := 0, bad := 0 }
      else if valid && !far offset 200 then
        (if 16 ≤ b.good + 1 then { b with servo := .locked, good := 0, bad := 0 } else { b with good := b.good + 1 })
      else { b with good := 0 }
    | .locked =>
      if !valid then { b with servo := .holdover, good := 0, bad := 0 }
      else if far offset 1000 then
        (if 4 ≤ b.bad + 1 then { b with servo := .locking, good := 0, bad := 0 } else { b with bad := b.bad + 1 })
      else { b with bad := 0 }
    | .holdover => if valid then { b with servo := .locking, good := 0, bad := 0 } else b

/-- A base goes to HOLDOVER as its source becomes invalid (R526). -/
def toHoldover (n : Nat) (s : State) : State :=
  let b := baseOf s n
  if b.servo == .locking || b.servo == .locked then
    let t := setBase n { b with servo := .holdover, good := 0, bad := 0 } s
    { t with tim := { t.tim with holdoverSeen := true } }
  else s

/-- A time of `w` bits after its base has stepped by -`d`. -/
def shifted (w : Nat) (d : Int) (t : Nat) : Nat := unsigned w ((t : Int) - d)

/-- The time-stamps that a port holds move with TB1. -/
def EthPort.shifted (d : Int) (x : EthPort) : EthPort :=
  let u := Machine.shifted 80 (65536 * d)
  { x with twoStep := x.twoStep.map fun w => (w.1, u w.2.1, w.2.2), syncTimes := x.syncTimes.map fun w => (w.1, u w.2.1, w.2.2)
           delayReqAt := u x.delayReqAt, pdelayReqAt := u x.pdelayReqAt, pdelayResp := x.pdelayResp.map fun w => (w.1, w.2.1, u w.2.2.1, w.2.2.2) }

/-- The time-stamps that Walec holds in a base are carried over its step. -/
def shiftStamps (n : Nat) (d : Int) (s : State) : State :=
  if n = 1 then { s with eth := { s.eth with ports := s.eth.ports.map fun p => (p.1, p.2.shifted d) } }
  else if n = 2 then
    { s with tim := { s.tim with ptmSent := s.tim.ptmSent.map (shifted 64 d), ptmHost := s.tim.ptmHost.map fun h => (h.1, shifted 64 d h.2) } }
  else s

/-- Step a base by -offset nanoseconds on one edge (R519, R528, R529). -/
def stepBase (n : Nat) (offset : Int) (s : State) : State :=
  let b := baseOf s n
  setBase n { b with acc := unsigned 104 ((b.acc : Int) - offset * 2 ^ 40) } s

/-- The sampled servo of TB1 or TB2: state, a step beyond 10 µs, otherwise a new rate (R519, R526). -/
def servo12 (n : Nat) (configured valid : Bool) (offset : Int) (s : State) : State :=
  let b := (baseOf s n).sample configured valid offset
  let t := setBase n b s
  let t := if b.servo == .holdover && (baseOf s n).servo != .holdover then { t with tim := { t.tim with holdoverSeen := true } } else t
  if !(configured && valid) then t
  else if 10000 < offset || offset < -10000 then shiftStamps n offset (stepBase n offset t)
  else drew (setBase n { b with inc := freeRate t nominalInc 3000 } t)

/-- The TB3 source is valid: its base is neither FREE nor in HOLDOVER; TB0 is steered by nothing and always valid (R526). -/
def tb3SourceValid (s : State) : Bool :=
  s.tim.tb3Source == 0 ||
    (s.tim.tb3Source < 3 && (baseOf s s.tim.tb3Source).servo != .free && (baseOf s s.tim.tb3Source).servo != .holdover)

/-- Offset of TB3 (R526). -/
def tb3OffsetNow (s : State) : Int :=
  signed 64 (unsigned 64 ((tbNs s 3 : Int) - (tbNs s s.tim.tb3Source + s.tim.tb3Offset)))

/-- k of the tick of frame f, from the next one on, on the genlock grid (R531). -/
def gridOf (s : State) (f : Nat) : Nat := (s.tim.gridK + (f - (s.tim.frameCount + 1))) % gridTicks s.tim.mode

/-- The first frame at or after f at which a mode change or a realign may take effect (R532). -/
def gridFrame (s : State) (f : Nat) : Nat :=
  if s.tim.genlock then f + (gridTicks s.tim.mode - gridOf s f) % gridTicks s.tim.mode else f

/-- A realign is requested (R529), or merged into the mode change that waits (R530). -/
def requestRealign (s : State) : State :=
  if realignPending s then s
  else match pendingMode s with
    | some (_, f) => plan f .realign byWalec s
    | none => plan (gridFrame s (nextFrame s)) .realign byWalec s

/-- The TB3 servo with the offset of its capture: rate within SLEW_MAX while the raster runs, a realign beyond STEP_LIMIT, steps
while it is stopped (R526 to R529). -/
def servo3 (off : Int) (s : State) : State :=
  let valid := tb3SourceValid s
  let b := (baseOf s 3).sample (s.tim.tb3Source < 3) valid off
  let t := setBase 3 b s
  let t := if b.servo == .holdover && (baseOf s 3).servo != .holdover then { t with tim := { t.tim with holdoverSeen := true } } else t
  let limit : Int := 1000 * s.tim.stepLimit
  if !(s.tim.tb3Source < 3 && valid) then t
  else if s.tim.rasterRun then
    let t := drew (setBase 3 { b with inc := freeRate t (baseOf s s.tim.tb3Source).inc s.tim.slewMax } t)
    if limit < off || off < -limit then requestRealign t else t
  else if 1000 < off || off < -1000 then stepBase 3 off t
  else drew (setBase 3 { b with inc := freeRate t nominalInc 3000 } t)

/-- The PTM source is valid: fewer than 8 failed dialogues, a host time, the link up (R526). -/
def ptmSourceValid (s : State) : Bool :=
  s.tim.ptmFails < 8 && s.tim.ptmHost.isSome && (portOf s (if s.tim.tb2Port = 0 then .a else .b)).linkUp

/-- LOG_SYNC, LOG_ANNOUNCE and LOG_MIN_DELAY_REQ in effect: the profile's default while not set (R541). -/
def logIntervals (e : EthState) : Int × Int × Int :=
  (e.logSync.getD (if e.profile = 1 then -3 else 0), e.logAnnounce.getD (if e.profile = 1 then 0 else 1), e.logMinDelay.getD 0)

/-- A PTP interval of log2 seconds, in nanoseconds (R541). -/
def intervalNs (log : Int) : Nat := if 0 ≤ log then 1000000000 * 2 ^ log.toNat else 1000000000 / 2 ^ (-log).toNat

/-- Three Sync intervals have passed without an accepted Sync of the parent: it is invalid (R526). The interval is the
9610's own LOG_SYNC (DESIGN CHOICE, log 96). -/
def syncOverdue (s : State) : Bool :=
  s.eth.parentValid && 3 * intervalNs (logIntervals s.eth).1 ≤ (tb0 s + 2 ^ 64 - s.eth.syncAt) % 2 ^ 64

/-- One servo at a sample: a valid source that gave no new measurement leaves it as it stands (R526; log 96). -/
def servoStep (n : Nat) (configured valid : Bool) (measured : Option Int) (s : State) : State :=
  if configured && valid && measured.isNone then s
  else servo12 n configured valid (measured.getD (baseOf s n).offset) s

/-- The offset of TB2 from the host time that the last PTM dialogue gave, where no sample has used it (R526, R533). -/
def ptmOffset (s : State) : Option Int :=
  if s.tim.ptmNew then s.tim.ptmHost.map fun h => signed 64 (unsigned 64 ((h.2 : Int) - h.1)) else none

/-- SERVO_SAMPLE (R526): the offsets of TB1 and TB2 are those that PTP and PTM have measured, with their errors `ptp` and `ptm` in ns
(R534; log 96); that of TB3 comes from the same capture. In Bench the TB2 and TB3 servos stop and Ethernet is off (R542). -/
def execServoSample (ptp : Int) (ptm : Int) (s : State) : Out :=
  let inBench := s.tim.bench != .off
  let m1 := s.eth.measured.map (· + ptp)
  let s1 := if syncOverdue s then { s with eth := { s.eth with parentValid := false } } else s
  let t := servoStep 1 (s.eth.role ≠ 0) s1.eth.parentValid m1 s1
  let t := { t with eth := { t.eth with measured := none, tb1Offset := m1.or t.eth.tb1Offset } }
  let t2 := servoStep 2 (s.tim.tb2Port < 2) (ptmSourceValid s) ((ptmOffset s).map (· + ptm)) t
  let t := if inBench then t else { t2 with tim := { t2.tim with ptmNew := false } }
  done (ifEvent (s.hif.walec == .running) (if inBench then t else servo3 (tb3OffsetNow s) t) s)

/-! ### PTM (R533) -/

/-- A failed dialogue: 8 in succession make the source invalid (R526). -/
def ptmFailed (s : State) : State :=
  let t := { s with tim := { s.tim with ptmFails := s.tim.ptmFails + 1, ptmValid := false, ptmSent := none } }
  if 8 ≤ t.tim.ptmFails then toHoldover 2 t else t

/-- PTM_DIALOGUE: a request time-stamped in TB2; one still unanswered has failed (R533). -/
def execPtmDialogue (p : Port) (s : State) : Out :=
  let t := if s.tim.ptmSent.isSome then ptmFailed s else s
  done (ifEvent (s.tim.tb2Port == p.num)
    (if portOpen s p then send (.ptm p) { t with tim := { t.tim with ptmSent := some (tbNs t 2) } } else ptmFailed t) s)

/-- PTM_RESPONSED: the host time at the request is the master time less half of the round trip beyond the propagation
delay, with the round trip of the dialogue before (R533, PCI Express Base). -/
def execPtmResponsed (p : Port) (masterTime propDelay : Nat) (s : State) : Out :=
  match s.tim.ptmSent with
  | none => done s
  | some t1 =>
    let trip := (tbNs s 2 + 2 ^ 64 - t1) % 2 ^ 64
    let used := s.tim.ptmTrip.getD trip
    let host := unsigned 64 ((masterTime : Int) - roundDiv ((used : Int) - propDelay) 2)
    done (ifEvent (s.tim.tb2Port == p.num && portOpen s p)
      { s with tim := { s.tim with ptmSent := none, ptmTrip := some trip, ptmHost := some (host, t1), ptmNew := true, ptmFails := 0, ptmValid := true } } s)

/-! ### PTP (R536 to R540) -/

/-- An Ethernet port. -/
def ethOf (s : State) (p : Nat) : EthPort := Tbl.get s.eth.ports {} p

/-- Set an Ethernet port. -/
def setEth (p : Nat) (x : EthPort) (s : State) : State := { s with eth := { s.eth with ports := Tbl.set p x s.eth.ports } }

/-- PTP_DOMAIN in effect: 0 under IEEE 802.1AS-2020 (R541). -/
def ptpDomain (s : State) : Nat := if s.eth.profile = 1 then 0 else s.eth.domain

/-- PTP_TRANSPORT in effect: Ethernet only under IEEE 802.1AS-2020 (R536). -/
def ptpTransport (s : State) (port : Nat) : Nat := if s.eth.profile = 1 then 0 else (ethOf s port).transport

/-- A port takes part in PTP: a role is set, and in role TC the ordinary clock stands on ETH0 alone (R536). -/
def ptpPort (s : State) (p : Nat) : Bool := s.eth.role ≠ 0 && (s.eth.role ≠ 4 || p = 0)

/-- The PTP messages a port processes: it takes part, its link is up, the domain is PTP_DOMAIN, and Walec, which runs the protocol, is
running (R536). -/
def ptpOn (s : State) (m : PtpMsg) : Bool :=
  ptpPort s m.port && (ethOf s m.port).link && m.domain == ptpDomain s && s.hif.walec == .running

/-- A time-stamp of 2^-16 ns units with a signed latency applied (R537, IEEE 1588-2019: an egress latency is added, an
ingress latency taken off). -/
def stampWith (stamp : Nat) (latency : Int) : Nat := unsigned 80 ((stamp : Int) + latency)

/-- The time of arrival of a message in TB1, with the error of its time-stamp and ING_LAT (R534, R537). -/
def arrivalOf (s : State) (m : PtpMsg) : Nat := stampWith (tbU s 1) (m.error - (ethOf s m.port).ingLat)

/-- The time of departure of a message in TB1, with EGR_LAT (R537; log 116). -/
def departureOf (s : State) (port : Nat) : Nat := stampWith (tbU s 1) (ethOf s port).egrLat

/-- The signed difference of two times of 2^-16 ns (R521). -/
def timeDiff (a b : Nat) : Int := signed 80 (unsigned 80 ((a : Int) - b))

/-- A message that R540 discards. -/
def discardPtp (s : State) : State :=
  { s with eth := { s.eth with seqDiscards := satAdd 16 s.eth.seqDiscards 1, seqDiscardSeen := true } }

/-- The parent becomes invalid (R526, R542). -/
def loseParent (s : State) : State := toHoldover 1 { s with eth := { s.eth with parentValid := false, measured := none } }

/-- No port has a parent: the data set is the 9610's own (R545; IEEE 1588-2019). -/
def dropParent (s : State) : State := loseParent { s with eth := { s.eth with parent := none, stepsRemoved := 0 } }

/-- The offset of TB1 from the parent that a Sync gives: arrival less departure, correction and path delay (R526, R537; IEEE
1588-2019), in ns. -/
def EthPort.offsetOf (x : EthPort) (w : Nat × Nat × Int) : Int := roundDiv (timeDiff w.2.1 w.1 - w.2.2 - x.pathDelay) 65536

/-- A complete Sync is a measurement of the offset of TB1. -/
def takeSync (port : Nat) (w : Nat × Nat × Int) (s : State) : State :=
  let x := ethOf s port
  let t := setEth port { x with syncTimes := some w } s
  { t with eth := { t.eth with measured := some (x.offsetOf w) } }

/-- SYNC (R540). DELAY_ASYM joins its correction (R537; IEEE 1588-2019). -/
def execSync (m : PtpMsg) (s : State) : Out :=
  let x := ethOf s m.port
  let ok := s.eth.parent == some (m.port, m.source) && (match x.lastSync with | none => true | some q => seqNewer m.seq q)
  let c := m.correction + x.delayAsym
  let t := setEth m.port { x with lastSync := some m.seq, twoStep := if m.twoStep then some (m.seq, arrivalOf s m, c) else none } s
  let t := if m.twoStep then t else takeSync m.port (m.time, arrivalOf s m, c) t
  done (ifEvent (ptpOn s m) (if ok then { t with eth := { t.eth with parentValid := true, syncAt := tb0 s } } else discardPtp s) s)

/-- FOLLOW_UP (R540): the departure of its Sync, with the corrections of both. -/
def execFollowUp (m : PtpMsg) (s : State) : Out :=
  let x := ethOf s m.port
  let t := setEth m.port { x with twoStep := none } s
  done (ifEvent (ptpOn s m) (match x.twoStep with
    | some w => if s.eth.parent == some (m.port, m.source) && w.1 == m.seq then takeSync m.port (m.time, w.2.1, w.2.2 + m.correction) t else discardPtp s
    | none => discardPtp s) s)

/-- The mean path delay of IEEE 1588-2019 from the last complete Sync and an accepted Delay_Resp, as it is without a filter (R537;
log 116). -/
def EthPort.meanDelay (x : EthPort) (m : PtpMsg) : Int :=
  x.syncTimes.elim x.pathDelay fun w => roundDiv (timeDiff w.2.1 x.delayReqAt + timeDiff m.time w.1 - w.2.2 - m.correction) 2

/-- DELAY_RESP (R540). This port's identity is written as its number in `requesting`. -/
def execDelayResp (m : PtpMsg) (s : State) : Out :=
  let x := ethOf s m.port
  let ok := m.requesting == m.port && x.delayReqSent == some m.seq
  done (ifEvent (ptpOn s m) (if ok then setEth m.port { x with pathDelay := x.meanDelay m } s else discardPtp s) s)

/-- A port after an accepted Pdelay_Resp: a one-step one gives the link delay, a two-step one waits for its Follow_Up (R537, R540;
IEEE 1588-2019). -/
def EthPort.pdelay (x : EthPort) (m : PtpMsg) (arrival : Nat) : EthPort :=
  let c := m.correction + x.delayAsym
  if m.twoStep then { x with pdelayResp := some (m.source, m.time, arrival, c) }
  else { x with pdelayResp := none, pathDelay := roundDiv (timeDiff arrival x.pdelayReqAt - c) 2 }

/-- A port after the Follow_Up of its Pdelay_Resp. -/
def EthPort.pdelayFollow (x : EthPort) (m : PtpMsg) (w : Nat × Nat × Nat × Int) : EthPort :=
  { x with pdelayResp := none, pathDelay := roundDiv (timeDiff w.2.2.1 x.pdelayReqAt - timeDiff m.time w.2.1 - w.2.2.2 - m.correction) 2 }

/-- PDELAY_RESP: a Pdelay_Resp (message type 3), or its Follow_Up (type 10), which also matches its Pdelay_Resp (R540). -/
def execPdelayResp (m : PtpMsg) (s : State) : Out :=
  let x := ethOf s m.port
  let ok := m.requesting == m.port && x.pdelayReqSent == some m.seq
  let t := if m.kind ≠ 10 then setEth m.port (x.pdelay m (arrivalOf s m)) s
    else match x.pdelayResp with
      | some w => if w.1 = m.source then setEth m.port (x.pdelayFollow m w) s else discardPtp s
      | none => discardPtp s
  done (ifEvent (ptpOn s m) (if ok then t else discardPtp s) s)

/-- The last-accepted values of a port are cleared (R540). -/
def EthPort.cleared (x : EthPort) : EthPort := { x with lastSync := none, twoStep := none, syncTimes := none, announces := [] }

/-- The parent moves to port `p`: the port that had it leaves SLAVE. What the algorithm makes of it is MASTER (6) or PASSIVE (7) in a
master-capable role, a free value, and LISTENING (4) in another (R536, R540, R545; log 116). -/
def leaveParent (p : Nat) (s : State) : State :=
  match s.eth.parent with
  | none => s
  | some w =>
    let free := if freeBelow s 2 = 0 then 6 else 7
    if w.1 = p then s
    else drew (setEth w.1 { (ethOf s w.1).cleared with state := if s.eth.role = 2 || s.eth.role = 3 then free else 4 } s)

/-- The best master clock algorithm names the sender of an Announce as parent: new parent, grandmaster change (R526,
R540, R542). The port is SLAVE (9) (R545). A parent without Syncs does not become valid by its Announces (R526). -/
def takeParent (m : PtpMsg) (s : State) : State :=
  let fresh := s.eth.parent ≠ some (m.port, m.source)
  let x := ethOf s m.port
  let x := { (if fresh then { x.cleared with announces := [(m.source, m.seq)] } else x) with state := 9 }
  let t := setEth m.port x (leaveParent m.port s)
  let gmNew := s.eth.gm.any (· ≠ m.gm)
  let e := t.eth
  let t := { t with eth := { e with parent := some (m.port, m.source), parentValid := fresh || e.parentValid, gm := some m.gm
                                    syncAt := if fresh then tb0 s else e.syncAt, measured := if fresh then none else e.measured
                                    stepsRemoved := min (m.stepsRemoved + 1) 255, gmChangeSeen := e.gmChangeSeen || gmNew } }
  if gmNew then setBase 1 { baseOf t 1 with servo := .locking, good := 0, bad := 0 } t else t

/-- ANNOUNCE (R540): `best` is what the best master clock algorithm of the profile decides (R536). -/
def execAnnounce (m : PtpMsg) (s : State) : Out :=
  let x := ethOf s m.port
  let ok := match Tbl.find? m.source x.announces with | none => true | some q => seqNewer m.seq q
  let t := setEth m.port { x with announces := Tbl.set m.source m.seq x.announces } s
  done (ifEvent (ptpOn s m) (if ok then (if m.best then takeParent m t else t) else discardPtp s) s)

/-- The answer of a master port to a Delay_Req: Delay_Resp (9), which carries its correction back (R540; IEEE 1588-2019). -/
def delayAnswer (m : PtpMsg) (s : State) : State := send (.ptp m.port 9 m.seq (arrivalOf s m) m.correction) s

/-- The answer to a Pdelay_Req: one-step a Pdelay_Resp (3) with the turnaround in its correction, two-step one with the time of
arrival and a Pdelay_Resp_Follow_Up (10) with that of departure, which is a free value (R538, R540; IEEE 1588-2019; log 116). -/
def pdelayAnswer (m : PtpMsg) (s : State) : State :=
  let x := ethOf s m.port
  let t2 := arrivalOf s m
  let t3 := stampWith (departureOf s m.port) (freeBelow s (2 ^ 40))
  drew (if x.step = 0 then send (.ptp m.port 3 m.seq 0 (m.correction + timeDiff t3 t2)) s
    else sendAll [.ptp m.port 3 m.seq t2 0, .ptp m.port 10 m.seq t3 m.correction] s)

/-- DELAY_REQ: answered with its sequenceId, a Delay_Req (1) by a master port of the default profile, a Pdelay_Req (2) by every port
under IEEE 802.1AS-2020 (R536, R540). -/
def execDelayReq (m : PtpMsg) (s : State) : Out :=
  done (ifEvent (ptpOn s m)
    (if m.kind = 2 then ifEvent (s.eth.profile = 1) (pdelayAnswer m s) s
     else ifEvent (s.eth.profile = 0 && (ethOf s m.port).state = 6) (delayAnswer m s) s) s)

/-- ANNOUNCE_RECEIPT_TIMEOUT: the parent is invalid and TB1 holds over; a master-capable role becomes MASTER (6), another
LISTENING (4) with its last-accepted values cleared (R526, R536, R540; IEEE 1588-2019). -/
def execAnnounceReceiptTimeout (port : Nat) (s : State) : Out :=
  let master := s.eth.role = 2 || s.eth.role = 3
  let x := ethOf s port
  let x := if master then { x with state := 6 } else { x.cleared with state := 4 }
  let t := setEth port x s
  done (ifEvent (ptpPort s port && (ethOf s port).link && s.hif.walec == .running)
    (if s.eth.parent.any fun w => w.1 == port then dropParent t else t) s)

/-- The port is master and Walec runs: Sync and Announce transmission stops while Walec restarts (R542). -/
def mastering (s : State) (p : Nat) : Bool := (ethOf s p).link && (ethOf s p).state == 6 && s.hif.walec == .running

/-- SYNC_TRANSMIT: one-step with the departure time, or two-step with a Follow_Up (R537, R538). -/
def execSyncTransmit (port : Nat) (s : State) : Out :=
  let x := ethOf s port
  let out := departureOf s port
  let t := setEth port { x with seqSync := wrapAdd 16 x.seqSync 1 } s
  done (ifEvent (mastering s port)
    (if x.step = 0 then send (.ptp port 0 x.seqSync out 0) t
     else sendAll [.ptp port 0 x.seqSync 0 0, .ptp port 8 x.seqSync out 0] t) s)

/-- ANNOUNCE_TRANSMIT (R537, R542). -/
def execAnnounceTransmit (port : Nat) (s : State) : Out :=
  let x := ethOf s port
  done (ifEvent (mastering s port)
    (send (.ptp port 11 x.seqAnnounce (tbU s 1) 0) (setEth port { x with seqAnnounce := wrapAdd 16 x.seqAnnounce 1 } s)) s)

/-- The port asks for its delay: a slave port with a Delay_Req, every port with a Pdelay_Req under IEEE 802.1AS-2020 (R536, R540). -/
def asksDelay (s : State) (port : Nat) : Bool :=
  ptpPort s port && (ethOf s port).link && s.hif.walec == .running && (s.eth.profile = 1 || s.eth.parent.any fun w => w.1 = port)

/-- DELAY_REQ_TRANSMIT: a Delay_Req, or a Pdelay_Req under IEEE 802.1AS-2020, with the next sequenceId and DELAY_ASYM taken off its
correction (R537, R540; IEEE 1588-2019). -/
def execDelayReqTransmit (port : Nat) (s : State) : Out :=
  let x := ethOf s port
  let at' := departureOf s port
  done (ifEvent (asksDelay s port)
    (if s.eth.profile = 0 then
      send (.ptp port 1 x.seqDelay (tbU s 1) (-x.delayAsym))
        (setEth port { x with seqDelay := wrapAdd 16 x.seqDelay 1, delayReqSent := some x.seqDelay, delayReqAt := at' } s)
     else
      send (.ptp port 2 x.seqPdelay (tbU s 1) (-x.delayAsym))
        (setEth port { x with seqPdelay := wrapAdd 16 x.seqPdelay 1, pdelayReqSent := some x.seqPdelay, pdelayReqAt := at', pdelayResp := none } s)) s)

/-! ### The transparent clock (R538, R539) -/

/-- Big-endian value of bytes. -/
def beValue (b : Bytes) : Nat := leValue b.reverse

/-- Big-endian bytes of a value. -/
def beBytes (n v : Nat) : Bytes := (leBytes n v).reverse

/-- `n` bytes at an offset. -/
def sliceAt (b : Bytes) (i n : Nat) : Bytes := (b.drop i).take n

/-- Replace the bytes at an offset. -/
def patch (b : Bytes) (i : Nat) (v : Bytes) : Bytes := b.take i ++ v ++ b.drop (i + v.length)

/-- One's-complement sum of 16-bit words, folded (RFC 1071). -/
def fold16 (x : Nat) : Nat := let y := x % 65536 + x / 65536; y % 65536 + y / 65536

/-- Sum of the 16-bit words of some bytes. -/
def sum16 : Bytes → Nat
  | [] => 0
  | [a] => 256 * a.toNat
  | a :: b :: r => 256 * a.toNat + b.toNat + sum16 r

/-- The checksum after old bytes are replaced by new ones (RFC 1624, equation 3). -/
def checksumUpdate (c : Nat) (old new : Bytes) : Nat :=
  65535 - fold16 (fold16 ((65535 - c) + ((old.length + 1) / 2 * 65535 - sum16 old) + sum16 new))

/-- Offset of the PTP header in a frame by transport, with a VLAN tag counted (R536, R541). -/
def ptpOffset (transport : Nat) (frame : Bytes) : Nat :=
  (if beValue (sliceAt frame 12 2) = 0x8100 then 18 else 14) + (if transport = 0 then 0 else if transport = 1 then 28 else 48)

/-- Add a residence time to correctionField and update the UDP checksum; an IPv4 checksum of 0 stays 0 (R538). -/
def addResidence (transport residence : Nat) (frame : Bytes) : Bytes :=
  let o := ptpOffset transport frame
  let old := sliceAt frame (o + 8) 8
  let new := beBytes 8 ((beValue old + residence) % 2 ^ 64)
  let f := patch frame (o + 8) new
  if transport = 0 then f
  else
    let c := beValue (sliceAt frame (o - 2) 2)
    let c' := checksumUpdate c old new
    if c = 0 && transport = 1 then f else patch f (o - 2) (beBytes 2 (if c' = 0 then 65535 else c'))

/-- sequenceId of a PTP frame. -/
def ptpSeq (transport : Nat) (frame : Bytes) : Nat := beValue (sliceAt frame (ptpOffset transport frame + 30) 2)

/-- The Sync to which a Follow_Up belongs: sender, port and sequenceId (R538). -/
def relayKey (port transport : Nat) (frame : Bytes) : Nat :=
  131072 * beValue (sliceAt frame (ptpOffset transport frame + 20) 10) + 65536 * port + ptpSeq transport frame

/-- The frame as relayed, by PTP message type: Sync (0) and Delay_Req (1) take the residence time; that of a two-step Sync
goes into its Follow_Up (8) (R538). Other frames pass unchanged. -/
def relay (port kind : Nat) (frame : Bytes) (residence : Nat) (s : State) : State :=
  let tr := ptpTransport s port
  let key := relayKey port tr frame
  let twoStep := bit (u8 frame (ptpOffset tr frame + 6)) 1
  let go (f : Bytes) (t : State) : State := send (.ethFrame (1 - port) f) t
  if kind = 0 && twoStep then go frame { s with eth := { s.eth with residences := Tbl.set key residence s.eth.residences } }
  else if kind = 0 || kind = 1 then go (addResidence tr residence frame) s
  else if kind = 8 then
    match Tbl.find? key s.eth.residences with
    | some r => go (addResidence tr r frame) { s with eth := { s.eth with residences := Tbl.erase key s.eth.residences } }
    | none => go frame s
  else go frame s

/-- The frame is addressed to the port's unicast address alone (R539). -/
def toUs (s : State) (port : Nat) (frame : Bytes) : Bool := beValue (sliceAt frame 0 6) == (ethOf s port).mac

/-- A frame of 64 to 9,216 bytes with its FCS, and no PAUSE or priority flow control frame (R535; log 97). -/
def frameOk (f : Bytes) : Bool :=
  60 ≤ f.length && f.length ≤ 9212 && !(beValue (sliceAt f 0 6) = 0x0180C2000001 && beValue (sliceAt f 12 2) = 0x8808)

/-- FRAME_RELAY (R539): `kind` is the PTP message type, 255 for another frame; `full` when the buffer has no room. A frame to
the 9610's unicast address alone is not relayed. -/
def execFrameRelay (port kind : Nat) (frame : Bytes) (residence : Nat) (full : Bool) (s : State) : Out :=
  done (ifEvent (s.eth.role == 4 && (ethOf s port).link && (ethOf s (1 - port)).link && frameOk frame && !toUs s port frame)
    (if full then { s with eth := { s.eth with relayDropSeen := true } } else relay port kind frame residence s) s)

/-! ### Links and other frames (R535, R542, R545) -/

/-- Link down: a PTP parent on the port is lost and its sessions end (R506, R542). -/
def ethDown (port : Nat) (s : State) : State :=
  let t := setEth port { (ethOf s port).cleared with link := false, state := 3 } s
  let t := { t with eth := { t.eth with sessions := t.eth.sessions.filter fun w => w.2.1 ≠ port } }
  if s.eth.parent.any fun w => w.1 == port then dropParent t else t

/-- ETH_LINK_DOWN (R542). -/
def execEthLinkDown (port : Nat) (s : State) : Out := done (ifEvent (ethOf s port).link (ethDown port s) s)

/-! The port's VLAN (R535, R541): with VLAN 0 frames are untagged; otherwise every frame carries the tag of that VLAN, and a
frame of another is not the port's. -/

/-- A received frame without its tag, where it is of the port's VLAN (R535). -/
def inVlan (x : EthPort) (f : Bytes) : Option Bytes :=
  let tagged := beValue (sliceAt f 12 2) == 0x8100
  if x.vlan = 0 then (if tagged then none else some f)
  else if tagged && beValue (sliceAt f 14 2) % 4096 = x.vlan then some (f.take 12 ++ f.drop 16) else none

/-- A frame as it is sent: tagged where the port has a VLAN (R535). -/
def withTag (x : EthPort) (f : Bytes) : Bytes :=
  if x.vlan = 0 then f else f.take 12 ++ beBytes 2 0x8100 ++ beBytes 2 x.vlan ++ f.drop 12

/-- The multicast groups of PTP: IPv4 addresses of Annex C, or IPv6 addresses of Annex D (R535, R536). -/
def ptpGroups (transport : Nat) : List Nat :=
  if transport = 1 then [0xE0000181, 0xE000006B]
  else [0xFF0E0000000000000000000000000181, 0xFF02000000000000000000000000006B]

/-- Checksum of an ICMPv6 message between two addresses (RFC 4443). -/
def icmp6Checksum (src dst msg : Bytes) : Nat :=
  65535 - fold16 (fold16 (sum16 src + sum16 dst + msg.length + 58 + sum16 msg))

/-- Checksum of RFC 1071 over some bytes. -/
def ipChecksum (b : Bytes) : Nat := 65535 - fold16 (fold16 (sum16 b))

/-- The IGMPv3 report that joins the PTP groups: to 224.0.0.22 with TTL 1 and the router alert, one CHANGE_TO_EXCLUDE record a
group (R535, RFC 3376; PRESUMED, log 97). -/
def igmpJoin (x : EthPort) : Bytes :=
  let records := (ptpGroups 1).flatMap fun g => beBytes 4 0x04000000 ++ beBytes 4 g
  let m0 := beBytes 4 0x22000000 ++ beBytes 4 (ptpGroups 1).length ++ records
  let m := patch m0 2 (beBytes 2 (ipChecksum m0))
  let h0 := beBytes 4 (0x46C00000 + 24 + m.length) ++ beBytes 4 0 ++ beBytes 4 0x01020000 ++ beBytes 4 x.ipv4 ++ beBytes 4 0xE0000016
    ++ beBytes 4 0x94040000
  beBytes 6 0x01005E000016 ++ beBytes 6 x.mac ++ beBytes 2 0x0800 ++ patch h0 10 (beBytes 2 (ipChecksum h0)) ++ m

/-- The MLDv2 report that joins the PTP groups: to FF02::16 with hop limit 1 and the router alert (R535, RFC 3810; PRESUMED,
log 97). -/
def mldJoin (x : EthPort) : Bytes :=
  let records := (ptpGroups 2).flatMap fun g => beBytes 4 0x04000000 ++ beBytes 16 g
  let src := beBytes 16 x.ipv6
  let dst := beBytes 16 0xFF020000000000000000000000000016
  let m0 := beBytes 4 0x8F000000 ++ beBytes 4 (ptpGroups 2).length ++ records
  beBytes 6 0x333300000016 ++ beBytes 6 x.mac ++ beBytes 2 0x86DD ++ beBytes 4 0x60000000 ++ beBytes 2 (8 + m0.length)
    ++ beBytes 2 0x0001 ++ src ++ dst ++ beBytes 8 0x3A00050200000100 ++ patch m0 2 (beBytes 2 (icmp6Checksum src dst m0))

/-- The join that a port sends for the PTP groups of its transport; Ethernet needs none (R535). -/
def joinFrames (s : State) (port : Nat) : List Sent :=
  let x := ethOf s port
  let tr := ptpTransport s port
  if !ptpPort s port || tr = 0 then [] else [.ethFrame port (withTag x (if tr = 1 then igmpJoin x else mldJoin x))]

/-- ETH_LINK_UP: a set ETH_SPEED is in effect; PTP enters LISTENING (4) and its groups are joined (R535, R540, R541, R545). -/
def execEthLinkUp (port : Nat) (s : State) : Out :=
  let x := ethOf s port
  let t := setEth port { x.cleared with link := true, speed := x.speedNext, state := if ptpPort s port then 4 else 3 } s
  done (ifEvent (domainOn s 42 && x.speedNext ≠ 0 && !x.link) (sendAll (joinFrames t port) t) s)

/-- PTP begins anew as its role, profile or domain changes: no parent, and the ports that take part LISTENING (R536, R540, R541; IEEE
1588-2019; log 116). -/
def restartPtp (s : State) : State :=
  (List.range 2).foldl (fun t p => setEth p { (ethOf t p).cleared with state := if ptpPort t p && (ethOf t p).link then 4 else 3 } t) (dropParent s)

/-- PTP begins anew, and the ports whose link is up join its groups (R535). -/
def beginPtp (s : State) : State :=
  let t := restartPtp s
  sendAll ((List.range 2).flatMap fun p => if (ethOf t p).link then joinFrames t p else []) t

/-- The answer to an ARP request for the port's address (RFC 826). -/
def arpReply (x : EthPort) (f : Bytes) : Option Bytes :=
  if beValue (sliceAt f 38 4) ≠ x.ipv4 || beValue (sliceAt f 20 2) ≠ 1 then none
  else some (sliceAt f 6 6 ++ beBytes 6 x.mac ++ sliceAt f 12 8 ++ beBytes 2 2 ++ beBytes 6 x.mac ++ beBytes 4 x.ipv4 ++ sliceAt f 22 10)

/-- The answer to an ICMP echo request to the port's address (RFC 792): addresses exchanged, type 0. -/
def echoReply (x : EthPort) (f : Bytes) : Option Bytes :=
  if beValue (sliceAt f 30 4) ≠ x.ipv4 || u8 f 34 ≠ 8 then none
  else some (sliceAt f 6 6 ++ beBytes 6 x.mac ++ sliceAt f 12 14 ++ sliceAt f 30 4 ++ sliceAt f 26 4 ++ beBytes 1 0 ++ sliceAt f 35 1
    ++ beBytes 2 (checksumUpdate (beValue (sliceAt f 36 2)) (sliceAt f 34 2) (beBytes 1 0 ++ sliceAt f 35 1)) ++ f.drop 38)

/-- The answer to an ICMPv6 echo request to the port's address (RFC 4443). -/
def echo6Reply (x : EthPort) (f : Bytes) : Option Bytes :=
  if beValue (sliceAt f 38 16) ≠ x.ipv6 || u8 f 54 ≠ 128 then none
  else
    let src := sliceAt f 38 16
    let dst := sliceAt f 22 16
    let m0 := beBytes 1 129 ++ sliceAt f 55 1 ++ beBytes 2 0 ++ f.drop 58
    some (sliceAt f 6 6 ++ beBytes 6 x.mac ++ sliceAt f 12 10 ++ src ++ dst ++ patch m0 2 (beBytes 2 (icmp6Checksum src dst m0)))

/-- The answer to a Neighbor Solicitation for the port's address (RFC 4861): solicited, override, target link-layer address. -/
def neighborReply (x : EthPort) (f : Bytes) : Option Bytes :=
  if beValue (sliceAt f 62 16) ≠ x.ipv6 || u8 f 54 ≠ 135 then none
  else
    let src := beBytes 16 x.ipv6
    let dst := sliceAt f 22 16
    let m0 := beBytes 1 136 ++ beBytes 3 0 ++ beBytes 4 0x60000000 ++ src ++ beBytes 2 0x0201 ++ beBytes 6 x.mac
    some (sliceAt f 6 6 ++ beBytes 6 x.mac ++ sliceAt f 12 6 ++ beBytes 2 m0.length ++ beBytes 2 0x3AFF ++ src ++ dst
      ++ patch m0 2 (beBytes 2 (icmp6Checksum src dst m0)))

/-- What the port answers: 1 ARP, 2 Neighbor Discovery, 3 ICMP echo, 4 ICMPv6 echo; every other frame is discarded (R535). -/
def answerFrame (x : EthPort) (kind : Nat) (f : Bytes) : Option Bytes :=
  if kind = 1 then arpReply x f else if kind = 2 then neighborReply x f
  else if kind = 3 then echoReply x f else if kind = 4 then echo6Reply x f else none

/-- ETH_FRAME_RECEIVE (R535). A membership query (5) is answered by the joins again. -/
def execEthFrameReceive (port kind : Nat) (frame : Bytes) (s : State) : Out :=
  let x := ethOf s port
  let answers : List Sent :=
    match inVlan x frame with
    | none => []
    | some f => if kind = 5 then joinFrames s port else ((answerFrame x kind f).map fun r => Sent.ethFrame port (withTag x r)).toList
  done (ifEvent (x.link && frameOk frame) (sendAll answers s) s)

end Sys2Proof.Machine
end

