-- ==== Sys2Proof/Machine/Walec.lean ====
section
/-! DEFINITION. When Walec stops and starts (01_architecture.md R29 to R35, 15 R516, R517, 19 R615 to R617) and the boot
ROM (20 R632 to R637, R641). -/

namespace Sys2Proof.Machine

/-! ### The boot ROM (R632 to R637, R641) -/

/-- The governing boot header: the higher SEQ on the signed 32-bit difference (R632). -/
def governing (s : State) : Option (Nat × BootHeader) :=
  match Tbl.find? 0 s.bot.headers, Tbl.find? 1 s.bot.headers with
  | none, none => none
  | some a, none => some (0, a)
  | none, some b => some (1, b)
  | some a, some b => if signalledAt a.seq b.seq then some (0, a) else some (1, b)

/-- The bytes of an image region. -/
def imageOf (s : State) (k : Nat) : Bytes := Tbl.get s.bot.images [] k

/-- VERSION of an image (R634). -/
def imageVersion (b : Bytes) : Nat := leAt b 4 4

/-- Digest of segment i of an image matches its bytes (R634). -/
def segmentOk (b : Bytes) (i : Nat) : Bool :=
  let e := (b.drop (128 + 56 * i)).take 56
  decide (Config.sha384 ((b.drop (leAt e 0 4)).take (leAt e 4 4)) = e.drop 8)

/-- Every segment's digest matches, 1 to 32 of them, and segment 0 is at most 4 MiB (R634, R635). -/
def segmentsOk (b : Bytes) : Bool :=
  let n := leAt b 12 4
  1 ≤ n && n ≤ 32 && leAt b 132 4 ≤ 2 ^ 22 && (List.range n).all (segmentOk b)

/-- The first check of R635 that an image fails, 0 to 3; none when the ROM accepts it. An image without its MAGIC or with
a reserved KEY_SLOT fails the first, one with a segment that fails under Walec the last (log 113). -/
def imageCheck (s : State) (b : Bytes) : Option Nat :=
  let slot := u8 b 9
  let pub := (b.drop 16).take 97
  if leAt b 0 4 ≠ 0x49574750 || 4 ≤ slot || s.bot.revoked.contains slot || !decide (Config.sha384 pub = Config.rootKey slot) then some 0
  else if !Config.ecdsaVerify pub ((b.drop 1920).take 96) (b.take 1920) then some 1
  else if u8 b 8 < s.bot.rollback then some 2
  else if !segmentsOk b then some 3
  else none

/-- A refused image: the flag and its entry (R637, R643). -/
def verifyFail (k check : Nat) (s : State) : State :=
  log (hw 16) k 0xDB check { s with bot := { s.bot with verifyFailSeen := true } }

/-- The ROM starts an image (R635, R644). -/
def startImage (k : Nat) (trial : Bool) (s : State) : State :=
  { s with bot := { s.bot with mode := .loading, image := k, trial, version := imageVersion (imageOf s k),
                               attempted := if trial then some k else s.bot.attempted, trialSince := none } }

/-- Both images fail: FAILED, FAULT#, and the DRAM is trained (R637). -/
def bootFailed (s : State) : State := assertFault { s with bot := { s.bot with mode := .failed } }

/-- The other image boots in place of a refused one (R637, R643). -/
def fallback (k refused : Nat) (s : State) : State :=
  match imageCheck s (imageOf s k) with
  | some c => bootFailed (verifyFail k c s)
  | none =>
    let t := startImage k false { s with bot := { s.bot with fallbackSeen := true } }
    log (hw 16) k 0xDA refused t

/-- The boot of the ROM (R637): the image that ACTIVE names, except a TRIAL image that was attempted before (R641); the
other image when its verification fails. With no valid header image A is tried first. -/
def romBoot (s : State) : State :=
  let a := (governing s).elim 0 (·.2.active)
  let trial := (governing s).elim false (·.2.trial)
  let v := imageVersion (imageOf s a)
  if trial && s.bot.attempted == some a then fallback (1 - a) v s
  else match imageCheck s (imageOf s a) with
    | none => startImage a trial s
    | some c => fallback (1 - a) v (verifyFail a c s)

/-! ### Stop (R29 to R32, R458, R474, R485, R516, R517) -/

/-- WALEC_STATE changes; the lease timers freeze in RESTARTING and go on from there (R474). -/
def setWalec (w : WalecState) (s : State) : State :=
  let now := tb0 s
  let conv (l : Option Nat) : Option Nat :=
    if s.hif.walec == w then l
    else if w == .restarting then l.map (· - now)
    else if s.hif.walec == .restarting then l.map (· + now) else l
  { s with hif := { s.hif with walec := w, portA := { s.hif.portA with lease := conv s.hif.portA.lease },
                               portB := { s.hif.portB with lease := conv s.hif.portB.lease } } }

/-- A drawer in REQUEST or BUSY is answered by the host interface with ST_RESTARTING, then GEN increments (R458). -/
def stopDrawer (p : Port) (n : Nat) (s : State) : State :=
  let d := drawerOf s p n
  let ans (taken : Bool) : State :=
    let t := respond p n 0x000B taken true d.tagGen [] s
    setDrawer p n { drawerOf t p n with gen := (d.gen + 1) % 16 } t
  match d.state with
  | .request => ans false
  | .busy => ans true
  | _ => s

/-- Every drawer. -/
def stopDrawers (s : State) : State :=
  (List.range 32).foldl (fun t n => stopDrawer .b n (stopDrawer .a n t)) s

/-- A COMMIT entry of a SERVICE queue (R465). -/
def Fetched.isCommit (f : Fetched) : Bool := u8 f.bytes 0 = 2

/-- A SERVICE queue when Walec stops: a REQUEST or FENCE taken and not completed, and every COMMIT not yet applied, is answered
with ST_RESTARTING; the other entries stay (R30, R516). -/
def stopQueue (q : Nat) (s : State) : State :=
  let c := queueOf s q
  let begun := s.walec.taken.any (·.ch == .queue q)
  let cut := if begun then c.fetched.take 1 else []
  let rest := c.fetched.drop cut.length
  let endOne (record : Nat) (body : Bytes) (t : State) (f : Fetched) : State := complete q f.slot f.gen record body f.reserved t
  let t := setQueue q { c with fetched := rest.filter (!·.isCommit) } s
  let t := cut.foldl (fun t f => endOne 0 (completionBody 0x000B 0 (leAt f.bytes 24 8)) t f) t
  if c.kind = 1 then (rest.filter (·.isCommit)).foldl (fun t f => endOne 1 (acceptanceBody 0x000B 0 (leAt f.bytes 24 8) 0) t f) t else s

/-- Every SERVICE queue. -/
def stopQueues (s : State) : State := (s.hif.queues.map (·.1)).foldl (fun t q => stopQueue q t) s

/-- A STAGE that Walec was carrying out leaves its target invalid (R640): the region of the image that does not run, or a calibration
file of the index, which one being a free value; the other kinds go into a copy that is not in use. -/
def cutStage (r : Request) (s : State) : State :=
  let b := s.bot
  if u8 r.body 0 = 1 then { s with bot := { b with images := Tbl.set (1 - b.image) [] b.images, staged := none } }
  else if u8 r.body 0 = 3 then
    match b.calIndex.bind fun x => x.entries[freeBelow s x.entries.length]? with
    | none => s
    | some e => drew { s with bot := { b with files := Tbl.erase e.lba b.files } }
  else s

/-- A load that Walec was carrying out at its stop, of geometry, curves or a map, leaves the bank it was writing invalid (R57, R516),
and a STAGE its target (R640). The request carried out is the oldest one taken; whether its first write had been made is a free value (log 87). -/
def cutLoad (s : State) : State :=
  let g := s.geom
  let o := s.out
  let b := 1 - g.active
  match s.walec.taken.head? with
  | none => s
  | some r =>
    let k := (r.service, r.verb)
    if freeBelow s 2 = 0 then drew s
    else if k = (16, 1) then cutStage r (drew s)
    else if k = (8, 1) && !(s.tim.pending.any fun p => p.change matches .geomSwap _) then
      drew { s with geom := { g with banks := Tbl.set b { (Tbl.get g.banks {} b : GeomBank) with valid := false } g.banks } }
    else if k = (8, 3) && !(s.tim.pending.any fun p => p.change matches .curveSwap _) then
      drew { s with out := { o with curves := Tbl.set (1 - o.curveActive) { (Tbl.get o.curves {} (1 - o.curveActive) : CurveBank) with valid := false } o.curves } }
    else if k = (7, 1) && !(s.tim.pending.any fun p => p.change matches .mapSwap _) then
      drew { s with out := { o with maps := Tbl.set (1 - o.mapActive) { (Tbl.get o.maps {} (1 - o.mapActive) : MapBank) with valid := false } o.maps } }
    else drew s

/-- Walec stops with a cause code of R497: RESTARTING, the entry, WALEC_STOPPED, the drawers, the sessions; requests
taken and answers not yet delivered are lost (R29, R458, R485, R506, R516, R517). -/
def haltWalec (code : Nat) (s : State) : State :=
  let t := stopQueues (setWalec .restarting (cutLoad s))
  let t := { t with hif := { t.hif with restarts := satAdd 16 t.hif.restarts 1 }
                    walec := { t.walec with restartCause := code, stoppedAt := some (tb0 s), timeoutSeen := false, taken := [], answers := [] }
                    eth := { t.eth with sessions := [] } }
  stopDrawers (raiseBoth 1 (log (hw 15) code 0x90 0 t))

/-- Walec stops while it runs, and the ROM boots it again (R29, R637). -/
def stopWalec (code : Nat) (s : State) : State :=
  if s.hif.walec == .running then romBoot (haltWalec code s) else s

/-- Code of a cause (R497). -/
def stopCode : StopCause → Nat
  | .update => 1
  | .lockstep => 2
  | .watchdog => 3
  | .timeout => 4

/-- WALEC_STOP (R29). -/
def execWalecStop (cause : StopCause) (s : State) : Out := done (stopWalec (stopCode cause) s)

/-- The watchdog resets the lockstep pair (R565, R567, R582). -/
def watchdogReset (s : State) : State :=
  let t := { s with pwr := { s.pwr with watchdogCount := satAdd 16 s.pwr.watchdogCount 1, watchdogSeen := true, last := 7 } }
  stopWalec 3 (log (hw 10) 7 0xB3 0 t)

/-- WATCHDOG_EXPIRY (R565). -/
def execWatchdogExpiry (s : State) : Out := done (ifEvent (s.hif.walec == .running) (watchdogReset s) s)

/-- WALEC_TIMEOUT: RESTARTING for 2 s (R34, R497, R511). -/
def execWalecTimeout (s : State) : Out :=
  match s.walec.stoppedAt with
  | none => done s
  | some t0 =>
    let t := advanceTo0 (t0 + 2000000000) s
    let t := { t with walec := { t.walec with restartCause := 4, timeoutSeen := true } }
    done (ifEvent (s.hif.walec == .restarting && !s.walec.timeoutSeen) (log (hw 15) 4 0x92 0 (assertFault t)) s)

/-! ### Control processors (R615 to R617) -/

/-- A class of R610 has no spare left (R611, R628). -/
def exhaust (cls : Nat) (s : State) : State :=
  if s.spr.exhausted.contains cls then s
  else log (hw 12) cls 0xD5 0 { s with spr := { s.spr with exhausted := cls :: s.spr.exhausted } }

/-- A unit is retired: its bit of RETIRED_MASK, RETIRE_SEEN and its entry (R612, R616, R628). -/
def retireUnit (bitNo faults : Nat) (s : State) : State :=
  log (hw 12) bitNo 0xD1 faults
    { s with spr := { s.spr with retired := if s.spr.retired.contains bitNo then s.spr.retired else bitNo :: s.spr.retired, retireSeen := true } }

/-- CPU_MODE changes (R615, R616, R628). -/
def setCpu (m : CpuMode) (code core : Nat) (s : State) : State :=
  log (hw 12) code 0xD2 core { s with spr := { s.spr with cpu := m, lastMismatch := tb0 s } }

/-- A mismatch (R615 to R617): in PAIR and JOINED, and in TRIPLE when all three disagree, Walec restarts. -/
def mismatch (odd : Option Nat) (s : State) : State :=
  match s.spr.cpu, odd with
  | .triple, some k => exhaust 2 (setCpu .joined 2 k (retireUnit (24 + k) 1 s))
  | .triple, none => stopWalec 2 { s with spr := { s.spr with lastMismatch := tb0 s } }
  | .pair, _ => requestDomain true 43 (stopWalec 2 s)
  | .joined, _ => exhaust 2 (stopWalec 2 s)

/-- LOCKSTEP_MISMATCH (R616). -/
def execLockstepMismatch (odd : Option Nat) (s : State) : Out :=
  done (ifEvent (s.hif.walec == .running && !s.spr.standby) (mismatch odd s) s)

/-- TRIPLE_EXIT: 7 days of TB0 without a mismatch (R616). In Bench PD43 stays on (R214). -/
def execTripleExit (s : State) : Out :=
  done (ifEvent (s.spr.cpu == .triple && s.tim.bench == .off)
    (requestDomain false 43 (setCpu .pair 0 0xFF (advanceTo0 (s.spr.lastMismatch + 604800000000000) s))) s)

/-- The spare processor joins the pair when PD43 comes up during a restart after a lockstep mismatch (R615). -/
def joinSpare (s : State) : State :=
  if s.spr.cpu == .pair && s.hif.walec == .restarting && s.walec.restartCause == 2 then
    setCpu .triple 1 0xFF { s with spr := { s.spr with spareUsedSeen := true } }
  else s

end Sys2Proof.Machine
end

