-- ==== Sys2Proof/Machine/Ray.lean ====
section
/-! DEFINITION. The ray engine (04_ray_engine.md): the Trestles' caps, aborts, cap records, clusters and spares, the
witness view; and the checksums of 05_output_signatures.md over composed values. -/

namespace Sys2Proof.Machine

/-! ### Rows and clusters (R119 to R121, R162, R164) -/

/-- A tile row. -/
def rowOf (s : State) (r : Nat) : Row := Tbl.get s.ray.rows (rowDefault r) r

/-- Set a tile row. -/
def setRow (r : Nat) (x : Row) (s : State) : State := { s with ray := { s.ray with rows := Tbl.set r x s.ray.rows } }

/-- State of a cluster. -/
def clusterOf (s : State) (c : Nat) : ClusterState := Tbl.get s.ray.clusters .off c

/-- Set the state of a cluster. -/
def setCluster (c : Nat) (x : ClusterState) (s : State) : State := { s with ray := { s.ray with clusters := Tbl.set c x s.ray.clusters } }

/-- The free spares in the Wardrobe's order: in the pool, on, and neither faulted nor being reset (R120, R156). -/
def freeSpares (s : State) : List Nat :=
  s.ray.spares.filter fun c => clusterOf s c == .spare || clusterOf s c == .witness || clusterOf s c == .suspect

/-- The bound cluster of a row can compose: it is on, neither FAULTED nor RESETTING (R21, R156, R157). -/
def canCompose (s : State) (r : Nat) : Bool :=
  clusterOf s (rowOf s r).cluster == .bound || clusterOf s (rowOf s r).cluster == .suspect

/-- The row's coming subframes are sent as header and ABORT HELD: it has no cluster, its own cluster resets or is off, the plane-cache
half that serves it is off, or the copy of its geometry half has failed (R21, R62, R157, R614). -/
def rowHolds (s : State) (r : Nat) : Bool :=
  (rowOf s r).cluster == 15 || !domainOn s (if r < 6 then 14 else 15) || (s.geom.badCopies.any fun c => c / 2 == (if r < 6 then 0 else 1)) ||
  ((rowOf s r).toBind.isNone && (clusterOf s (rowOf s r).cluster == .resetting || clusterOf s (rowOf s r).cluster == .off))

/-- The ceiling code of a clock step, by its code 0 to 4 (R137). -/
def ceilingOf (clk : Nat) : Nat := min clk 3

/-! ### Subframes and composition boundaries (R121, R125, R150) -/

/-- The raster composes: it is no transition frame and not Bench (R206, R214), and no shutdown has gated CK_RAY off (R601). -/
def composing (s : State) : Bool := s.thm.shutdown.isNone && s.tim.rasterRun && s.tim.transLeft = 0 && s.tim.mode ≠ 0x10 && s.tim.mode ≠ 0

/-- The frame that begins at the next tick starts a transition interval or continues one. -/
def nextTransition (s : State) : Bool :=
  1 < s.tim.transLeft || s.tim.pending.any fun p => p.frame ≤ s.tim.frameCount + 1 && (match p.change with
    | .mode _ => true
    | .realign => true
    | _ => false)

/-- The subframe after the one in progress lies in the same frame. -/
def inFrame (s : State) : Bool := !s.tim.starting && (!s.tim.lineRaised || s.tim.sub + 1 < subframes s.tim.mode)

/-- Frame and index of the subframe whose line 0 comes next. -/
def comingSub (s : State) : Nat × Nat :=
  if inFrame s then (s.tim.frameCount, if s.tim.lineRaised then s.tim.sub + 1 else s.tim.sub) else (s.tim.frameCount + 1, 0)

/-- The subframe after one of the mode in effect. -/
def afterSub (s : State) (p : Nat × Nat) : Nat × Nat := if p.2 + 1 < subframes s.tim.mode then (p.1, p.2 + 1) else (p.1 + 1, 0)

/-- The coming subframe is composed (R206, R214). -/
def comingComposes (s : State) : Bool :=
  if inFrame s then composing s else s.tim.rasterRun && !nextTransition s && s.tim.mode ≠ 0x10 && s.tim.mode ≠ 0

/-- The composition boundary of the coming subframe has passed: line 1,440 before phase B, the latch instant before a
frame's first subframe (R121, R125); after an abort the coming subframe is composed at once (R150). -/
def comingBegun (s : State) (r : Nat) : Bool :=
  if inFrame s then !s.tim.lineRaised || 1440 ≤ s.tim.line || (rowOf s r).aborted.isSome else s.tim.latched

/-- It is the composition boundary of the row's coming subframe, which is p or comes after it (R121). No subframe is coming while the
raster is stopped, nor one that is composed before a transition frame or in Bench. -/
def atBoundary (s : State) (r : Nat) (p : Nat × Nat) : Bool :=
  let c := comingSub s
  s.tim.rasterRun && comingBegun s r && comingComposes s && (p.1 < c.1 || (p.1 == c.1 && p.2 ≤ c.2))

/-- The subframe at whose composition boundary a spare chosen now is bound (R121, R156). -/
def bindPoint (s : State) (r : Nat) : Nat × Nat :=
  if comingBegun s r && comingComposes s then afterSub s (comingSub s) else comingSub s

/-- The plane cache at the composition boundary of a subframe: band 0 in one buffer while the other receives band 1 (R127,
R130). `u` is the state whose layer set and geometry the subframe has. -/
def startBands (u : State) (r : Nat) (s : State) : State :=
  setRow r { rowOf s r with band := 0, bandMiss := 0, bandBuf := bandBuffer u r 0, nextBuf := bandBuffer u r 1 } s

/-! ### The witness view (R158 to R161) -/

/-- The panel point and tangents of witness pixel (a, b) (R159). A camera value set by WITNESS.PUT counts from the next slice on, also
within a picture (DESIGN CHOICE, log 104). -/
def witnessPlace (s : State) (a b : Nat) (d : Int) : Int × Int :=
  let cam (k : Nat) : Nat := Tbl.get s.walec.camera 0 k
  let px := signed 32 (cam 0) + ((a * cam 2 + 8) / 16 : Nat)
  let py := signed 32 (cam 1) + ((b * cam 3 + 8) / 16 : Nat)
  let tx := (signed 32 (cam 4) + a * signed 32 (cam 6) + 128) / 256
  let ty := (signed 32 (cam 5) + b * signed 32 (cam 7) + 128) / 256
  (px + (d * tx + 128) / 256, py + (d * ty + 128) / 256)

/-- A witness pixel: K = 16 and the frame's TERM_T16 (R159). -/
def witnessPixel (s : State) (sheets : List Sheet) (a b : Nat) : Composed :=
  composeRay s (fun _ => 0) sheets s.cmp.termT16 16 (witnessPlace s a b)

/-- Width and height of a witness picture (R161). -/
def witnessSize (wide : Bool) : Nat × Nat := if wide then (3840, 2160) else (1920, 1080)

/-- Poisoned texel reads, by their addresses, are counted (R82, R118), and those of marked lines recorded (R416). -/
def countTexels (as : List Nat) (s : State) : State :=
  noteMarks 1 (as.map (· / 64)) { s with cmp := { s.cmp with
    poisonCount := satAdd 32 s.cmp.poisonCount as.length, poisonInFrame := s.cmp.poisonInFrame + as.length } }

/-- The witness picture is rendered up to a row with the layer set in force (R159, R160). -/
def renderWitness (upTo : Nat) (s : State) : State :=
  match s.ray.witness with
  | none => s
  | some w =>
    let size := witnessSize w.wide
    let sheets := sheetsOf s
    let new := (List.range' w.rows.length (min upTo size.2 - w.rows.length)).map fun b =>
      (List.range size.1).map fun a => witnessPixel s sheets a b
    let first := w.rows.isEmpty
    let w := if new.isEmpty then w else
      { w with rows := w.rows ++ new, lastFrame := s.tim.frameCount
               firstFrame := if first then s.tim.frameCount else w.firstFrame
               firstTick := if first then s.tim.thisTick / 65536 % 2 ^ 64 else w.firstTick }
    countTexels (new.flatMap fun row => row.flatMap (·.poison)) { s with ray := { s.ray with witness := some w } }

/-- Whether a rate fits a source: at most 90 % of the 800 M rays of a spare cluster, or of the blanking slots of the rows
that compose, scaled by the clock step (R161). -/
def witnessFits (s : State) (spare : Bool) (wide : Bool) (rate : Nat) : Bool :=
  let step := 16 - 2 * s.thm.clkInEffect
  let rays := (witnessSize wide).1 * (witnessSize wide).2 * rate
  let rows := ((List.range (configRows s)).filter (canCompose s)).length
  if spare then 10 * 16 * rays ≤ 9 * 800000000 * step
  else 10 * 16 * 1500 * subframes s.tim.mode * rays ≤ 9 * 800000000 * rows * 26 * step

/-- Rate and size of a witness picture: the highest that fits, otherwise 1,920 × 1,080 at 5 (R161). -/
def witnessChoice (s : State) (spare : Bool) : Bool × Nat × Bool :=
  let p := s.enc.params
  let rates := [30, 15, 10, 5].filter (· ≤ p.rateReq)
  match (if p.wide then rates.find? (witnessFits s spare true) else none), rates.find? (witnessFits s spare false) with
  | some r, _ => (true, r, true)
  | none, some r => (false, r, true)
  | none, none => (false, 5, false)

/-- The moment ends slots of the witness view, or a spare renders it: without a spare the slots are line periods 1,444 to 1,469 of a
frame's final subframe (R158). -/
def witnessTurn (s : State) : Bool :=
  s.ray.source ≠ 0xFE ||
    (s.tim.rasterRun && s.tim.lineRaised && 1444 ≤ s.tim.line && s.tim.line ≤ 1469 && subframes s.tim.mode ≤ s.tim.sub + 1)

/-- A witness picture starts (R158, R161, R165). -/
def startWitness (s : State) : State :=
  let src := (freeSpares s).head?
  let c := witnessChoice s src.isSome
  let t := match src with
    | some k => setCluster k .witness s
    | none => s
  { t with ray := { t.ray with
      source := src.getD 0xFE, rate := c.2.1, rateReq := s.enc.params.rateReq
      reduced := !c.2.2 || (s.enc.params.wide && !c.1)
      fallback := !c.2.2 || (s.enc.params.wide && !c.1) || c.2.1 < s.enc.params.rateReq
      witness := some { wide := c.1, rate := c.2.1 } } }

/-- WITNESS_PICTURE_START (R160): while the raster runs outside Bench. -/
def execWitnessPictureStart (s : State) : Out :=
  done (ifEvent (s.tim.rasterRun && s.tim.bench == .off && s.ray.witness.isNone) (startWitness s) s)

/-- The witness view stops (R165). -/
def stopWitness (s : State) : State :=
  let t := { s with ray := { s.ray with witness := none, source := 255, rate := 0, reduced := false, fallback := false } }
  (List.range 14).foldl (fun t c => if clusterOf t c == .witness then setCluster c .spare t else t) t

/-- A cluster that leaves the pool gives up the witness view: its picture is abandoned and started again by the next free
spare or in the blanking slots (R156, R158, R677). -/
def abandonWitness (c : Nat) (s : State) : State :=
  if s.ray.source ≠ c then s
  else if s.ray.witness.isSome then startWitness { s with ray := { s.ray with witness := none } }
  else
    let next := (freeSpares s).find? (· ≠ c)
    next.elim { s with ray := { s.ray with source := 0xFE } } fun k => setCluster k .witness { s with ray := { s.ray with source := k } }

/-! ### Aborts (R148 to R153, R156) -/

/-- The tile rows under a region (R171). -/
def regionRows (x : RegionRec) : List Nat := (List.range 12).filter fun r => x.v0 < 144 * (r + 1) && 144 * r < x.v1

/-- A row-subframe under a region aborted in this frame (R175). -/
def markRegions (r : Nat) (s : State) : State :=
  { s with sig := { s.sig with regions := s.sig.regions.map fun x =>
      (x.1, if (regionRows x.2.record).contains r then { x.2 with hitAbort := true } else x.2) } }

/-- The Bureau's account of an abort: the first of a row in each TB0 second is an entry, later ones are counted (R151). -/
def logAbort (r line cause : Nat) (s : State) : State :=
  let x := rowOf s r
  match x.abortsInSecond with
  | none => log (hw 0) r 0x50 (line + 65536 * cause) (setRow r { x with abortsInSecond := some 0 } s)
  | some k => setRow r { x with abortsInSecond := some (k + 1) } s

/-- Counters and status of an abort, and the cap one step lower for the next subframe (R143, R151, R162, R163). The
consecutive count carries on, and a lowering held before the abort is no longer held (log 27). -/
def countAbort (r line cause : Nat) (s : State) : State :=
  let x := rowOf s r
  let x := if cause = 0 then { x with underrunAborts := satAdd 32 x.underrunAborts 1 } else { x with faultAborts := satAdd 32 x.faultAborts 1 }
  logAbort r line cause
    { setRow r { x with abortSeen := true, abortLine := line, lastCause := cause = 1, cap := min (x.cap + 1) 3
                        loweredSeen := x.loweredSeen || x.cap < 3, heldLine := none, noLower := false } s with
      spr := { s.spr with glitches := satAdd 32 s.spr.glitches 1 } }

/-- ABORT on the links of a row that carry the subframe (R148, R267). The HOLD idles that follow are the packets sent in every
free slot of a link, and one HOLD stands for the run (log 81). -/
def sendAbort (r line cause frame sub : Nat) (s : State) : State :=
  (List.range 8).foldl (fun t c =>
    let l := linkOf t (8 * r + c)
    if l.headerNow && l.aborted.isNone then
      sendAll [.tile (8 * r + c) (.abort line cause frame sub), .tile (8 * r + c) .hold] (setLink (8 * r + c) { l with aborted := some line } t)
    else t) s

/-- The subframe being sent is given up from a line on: its lines carry code 0, its FIFOs are cleared, the codes sent in the
cell row in progress are flushed, and the next subframe of the frame is fetched and composed at once (R145, R148, R150,
R242). A frame's first subframe waits for the latch instant. -/
def abandon (r line : Nat) (s : State) : State :=
  let t := flushRow r [] s
  let x := rowOf t r
  let t := markRegions r (setRow r { x with
    aborted := some line, abortA := x.abortA || s.tim.sub = 0, abortB := x.abortB || s.tim.sub = 1
    fifo := [], bandMiss := 0 } t)
  if inFrame s then startBands s r t else t

/-- An abort of the subframe being sent (R148). -/
def abortRow (r line cause : Nat) (s : State) : State :=
  countAbort r line cause (abandon r line (sendAbort r line cause s.tim.frameCount s.tim.sub s))

/-- The coming subframe aborts at line 0: at once on the links that have its header, otherwise after the header (R156). -/
def abortComing (r : Nat) (s : State) : State :=
  let n := comingSub s
  let t := (List.range 8).foldl (fun t c =>
    if (linkOf t (8 * r + c)).headerNext then sendAll [.tile (8 * r + c) (.abort 0 1 n.1 n.2), .tile (8 * r + c) .hold] t else t) s
  countAbort r 0 1 (setRow r { rowOf t r with abortNext := true } t)

/-- Step 1 of R156: the subframe that the cluster is composing aborts; `line` is the first line of the subframe in progress
that has not been sent. -/
def faultAbort (r line : Nat) (s : State) : State :=
  let x := rowOf s r
  if composing s && s.tim.lineRaised && s.tim.line < 1440 && x.aborted.isNone then
    (if 3840 * 1440 ≤ x.composed then s else abortRow r line 1 s)
  else if s.tim.rasterRun && comingBegun s r && comingComposes s && !x.abortNext && !x.holdNext then abortComing r s
  else s

/-! ### Faults and spares (R154 to R157, R677) -/

/-- A unit has faulted: its time is kept (R612). -/
def faultTime (bitNo : Nat) (s : State) : State :=
  { s with spr := { s.spr with faults := Tbl.set bitNo (tb0 s :: Tbl.get s.spr.faults [] bitNo) s.spr.faults } }

/-- A unit that has faulted awaits its self-test (R612). -/
def noteFault (bitNo : Nat) (s : State) : State :=
  let t := faultTime bitNo s
  { t with spr := { t.spr with toTest := if t.spr.toTest.contains bitNo then t.spr.toTest else t.spr.toTest ++ [bitNo] } }

/-- No spare is left in the class of the clusters (R611). -/
def checkClusters (s : State) : State := if (freeSpares s).isEmpty then exhaust 0 s else s

/-- A cluster is in the pool no longer, and its shadow checks are discarded (R155, R677). -/
def leavePool (c : Nat) (s : State) : State :=
  { s with ray := { s.ray with spares := s.ray.spares.filter (· ≠ c), shadows := Tbl.erase c s.ray.shadows } }

/-- A cluster is FAULTED: it leaves the pool, is reset and its domain is switched off (R156, R677). -/
def faultOff (c : Nat) (s : State) : State := noteFault c (requestDomain false c (setCluster c .faulted (leavePool c s)))

/-- A spare is released from witness and shadow work and kept for a row, to be bound at the composition boundary of a
subframe (R121, R156). -/
def reserveSpare (r k : Nat) (p : Nat × Nat) (s : State) : State :=
  let t := setCluster k .spare (abandonWitness k (leavePool k s))
  setRow r { rowOf t r with toBind := some k, bindAt := p } t

/-- Steps 4 and 5 of R156: the faulted cluster c of row r is switched off, and the entry records the row and both clusters. -/
def faultedOut (r c k : Nat) (s : State) : State := log (hw 0) r 0x52 (c + 256 * k) (requestDomain false c s)

/-- Step 2 of R156: the cluster is FAULTED, and a spare is kept for the row, the one that R620 has chosen already or the first
free one. Its binding at the composition boundary of subframe p is step 3, and steps 4 and 5 follow it. -/
def spareFault (r k : Nat) (p : Nat × Nat) (s : State) : State :=
  let c := (rowOf s r).cluster
  checkClusters (reserveSpare r k p (noteFault c (setCluster c .faulted (leavePool c s))))

/-- A fault that finds no spare free: the row resets its own cluster, which stays bound; at the third within 10 s it is unbound and
switched off (R157). -/
def loneFault (r : Nat) (s : State) : State :=
  let x := rowOf s r
  let c := x.cluster
  let recent := tb0 s :: x.heldFaults.filter fun w => tb0 s < w + 10000000000
  if 3 ≤ recent.length then
    assertFault (noteFault c (faultedOut r c 0xFF (setCluster c .faulted (setRow r { x with heldFaults := [], held := true, cluster := 15 } s))))
  else
    checkClusters (faultTime c (log (hw 0) r 0x52 (c + 256 * 0xFF) (setCluster c .resetting (setRow r { x with heldFaults := recent } s))))

/-- The bound cluster of a row is faulted (R156, R157). The spare is bound for the subframe whose composition had not begun at the
fault: after an abort that is the one composed at once (R150). -/
def clusterFault (r line : Nat) (s : State) : State :=
  let t := faultAbort r line s
  match (rowOf t r).toBind, (freeSpares t).head? with
  | some k, _ => spareFault r k (bindPoint s r) t
  | none, some k => spareFault r k (bindPoint s r) t
  | none, none => loneFault r t

/-- A row whose cluster can fault: it is bound, sound and not being reset. -/
def hasCluster (s : State) (r : Nat) : Bool := r < configRows s && canCompose s r

/-- CLUSTER_FAULT (R156): the line in progress has been sent. -/
def execClusterFault (row : Nat) (s : State) : Out := done (ifEvent (hasCluster s row) (clusterFault row (s.tim.line + 1) s) s)

/-- LANE_TIMEOUT (R154): the lane has not finished a line 4 line periods after starting it. -/
def execLaneTimeout (row _lane : Nat) (s : State) : Out := done (ifEvent (hasCluster s row) (clusterFault row (s.tim.line + 1) s) s)

/-- A spare kept for a row has faulted: the next free spare takes its place. With none left the row keeps its own cluster
while that is sound, and is otherwise without one; a faulted cluster that it loses is switched off (log 30). -/
def replaceReserved (c : Nat) (s : State) : State :=
  (List.range (configRows s)).foldl (fun t r =>
    let x := rowOf t r
    if x.toBind ≠ some c then t
    else match (freeSpares t).head? with
      | some k => reserveSpare r k x.bindAt t
      | none =>
        if canCompose t r then setRow r { x with toBind := none } t
        else faultedOut r x.cluster 0xFF (setRow r { x with toBind := none, cluster := 15 } t)) s

/-- UNBOUND_CLUSTER_FAULT (R677): a cluster of the pool, or one kept for a row and not yet bound. -/
def execUnboundClusterFault (cluster : Nat) (s : State) : Out :=
  let t := faultOff cluster (abandonWitness cluster (leavePool cluster s))
  let kept := (List.range (configRows s)).any fun r => (rowOf s r).toBind == some cluster
  done (ifEvent ((freeSpares s).contains cluster || kept)
    (checkClusters (log (hw 0) 0xFF 0x52 (cluster + 256 * 0xFF) (replaceReserved cluster t))) s)

/-- The cluster that a spare k replaces: a sound one has its domain cycled and returns to the pool (R620), a faulted one is switched
off and recorded (R156). -/
def unbind (r k : Nat) (s : State) : State :=
  let old := (rowOf s r).cluster
  if canCompose s r then
    requestDomains true [old] (requestDomain false old (setCluster old .off { s with ray := { s.ray with spares := s.ray.spares ++ [old] } }))
  else if clusterOf s old == .faulted then faultedOut r old k s
  else s

/-- A spare is bound to a row (R121, R156). -/
def bindSpare (r k : Nat) (s : State) : State :=
  let t := leavePool k { s with spr := { s.spr with spareUsedSeen := true } }
  let t := setCluster k .bound (abandonWitness k t)
  unbind r k (setRow r { rowOf t r with toBind := none } t) |> fun u => setRow r { rowOf u r with cluster := k } u

/-- The row has no cluster, and Walec may bind one at this composition boundary (R157). -/
def walecBinds (s : State) (r : Nat) : Bool :=
  (rowOf s r).cluster == 15 && r < configRows s && s.hif.walec == .running && atBoundary s r (comingSub s)

/-- SPARE_BIND (R121): at its composition boundary, the spare that R156 or R620 chose; for a row without a cluster, the first
free one (R157). -/
def execSpareBind (row : Nat) (s : State) : Out :=
  match (rowOf s row).toBind, (freeSpares s).head? with
  | some k, _ => done (ifEvent (atBoundary s row (rowOf s row).bindAt) (bindSpare row k s) s)
  | none, some k => done (ifEvent (walecBinds s row) (bindSpare row k s) s)
  | none, none => done s

/-! ### Shadow checks (R155) -/

/-- Shadow checks of a spare. -/
def shadowOf (s : State) (k : Nat) : Shadow := Tbl.get s.ray.shadows {} k
/-- Set the shadow checks of a spare. -/
def setShadow (k : Nat) (x : Shadow) (s : State) : State := { s with ray := { s.ray with shadows := Tbl.set k x s.ray.shadows } }

/-- The spare makes a check in this subframe: it is free, does not render the witness view and has made none yet. -/
def shadows (s : State) (k : Nat) : Bool :=
  composing s && (freeSpares s).contains k && s.ray.source ≠ k && (shadowOf s k).last ≠ some (s.tim.frameCount, s.tim.sub)

/-- The mismatch that the spare repeats in this subframe: the next one of the same phase. -/
def shadowDue (s : State) (k : Nat) : Option ShadowRepeat :=
  (shadowOf s k).again.find? fun a => a.frame + 1 == s.tim.frameCount && a.phase == s.tim.sub

/-- The row to shadow: from the one whose turn it is, the first that has a cluster. -/
def shadowRow (s : State) (k : Nat) : Option Nat :=
  ((List.range (configRows s)).map fun i => ((shadowOf s k).row + i) % configRows s).find? (hasCluster s)

/-- The spare's record after a check: no second one in this subframe, and the repeats still to come. -/
def shadowMade (s : State) (k : Nat) : Shadow :=
  let x := shadowOf s k
  { x with last := some (s.tim.frameCount, s.tim.sub)
           again := x.again.filter fun a => s.tim.frameCount ≤ a.frame || (a.frame + 1 == s.tim.frameCount && s.tim.sub < a.phase) }

/-- A matching check: neither cluster is SUSPECT any longer (log 30). -/
def clearSuspects (k c : Nat) (s : State) : State :=
  let sound (k : Nat) (x : ClusterState) (t : State) : State := if clusterOf t k == .suspect then setCluster k x t else t
  sound k .spare (sound c .bound s)

/-- The repeat of a mismatch on a row (R155). -/
def repeatCheck (spare row mine bound second : Nat) (s : State) : State :=
  let c := (rowOf s row).cluster
  if !hasCluster s row then s
  else if mine = bound then clearSuspects spare c s
  else if ((freeSpares s).any (· ≠ spare)) then (if second = mine then clusterFault row (s.tim.line + 1) s else s)
  else setCluster spare .suspect (setCluster c .suspect s)

/-- SHADOW_CHECK (R155), of the row and line whose turn it is: CRC-32C of the line by the spare, by the bound cluster, and by the second free spare where one is
asked. A first mismatch is repeated; a repeat that mismatches with a second spare's agreement faults the bound cluster;
without a second spare both are SUSPECT. -/
def execShadowCheck (spare row line mine bound second : Nat) (s : State) : Out :=
  let t := setShadow spare (shadowMade s spare) s
  match shadowDue s spare, shadowRow s spare with
  | some a, _ => done (ifEvent (shadows s spare && a.row = row && a.line = line) (repeatCheck spare row mine bound second t) s)
  | none, none => done s
  | none, some r =>
    let x := shadowMade s spare
    let y := { x with row := (r + 1) % configRows s, line := (x.line + 1) % 1440 }
    done (ifEvent (shadows s spare && r = row && x.line = line)
      (if mine = bound then clearSuspects spare (rowOf s r).cluster (setShadow spare y s)
       else setShadow spare { y with again := y.again ++ [{ row := r, line := x.line, frame := s.tim.frameCount, phase := s.tim.sub }] } s) s)

/-- CLUSTER_RESET_COMPLETE (R157): the row resumes at its next subframe. -/
def execClusterResetComplete (row : Nat) (s : State) : Out :=
  let c := (rowOf s row).cluster
  done (ifEvent (clusterOf s c == .resetting && row < configRows s) (setCluster c .bound s) s)

/-! ### Caps (R140 to R143) -/

/-- What a boundary n observes of a row. D never falls, and the FIFOs hold at most the lines up to n + 3 (R123); a cluster that
cannot compose adds nothing. A row that is not listed has filled its FIFOs. -/
def rowObs (s : State) (obs : LineObs) (r n : Nat) : RowObs :=
  let full := 3840 * min 1440 (n + 4)
  let o := (obs.rows.find? fun o => o.row == r).getD { row := r, composed := full }
  let d := (rowOf s r).composed
  { o with composed := if canCompose s r then max d (min o.composed full) else d }

/-- The lines started before an edge at which `d` values are composed take the cap in force; in FLAT-60 a line takes the
cap of its lenslet row's first line (R122, R142, R145). -/
def takeCaps (flat : Bool) (d : Nat) (x : Row) : Row :=
  { x with lineCaps := (List.range 1440).foldl (fun t i =>
      if 3840 * i < d && (Tbl.find? i t).isNone then
        Tbl.set i (if flat && i % 10 ≠ 0 then Tbl.get t x.cap (i / 10 * 10) else x.cap) t
      else t) x.lineCaps }

/-- K lowers one step; the first line started with it is held (R141). -/
def Row.lower (x : Row) : Row :=
  { x with cap := x.cap + 1, consec := 0, heldLine := some ((x.composed + 3839) / 3840), noLower := false, loweredSeen := true }

/-- SDEBT at boundary n, for the values composed so far in the subframe (R140). -/
def Row.debt (n : Nat) (x : Row) : Nat := 3840 * (n + 3) - x.composed

/-- SDEBT as RAY_ROW_STATUS shows it (R140, R162). -/
def Row.noteDebt (n : Nat) (x : Row) : Row := { x with sdebt := min (x.debt n) 65535 }

/-- The rules of R141 at boundary n. -/
def Row.boundary (n : Nat) (x : Row) : Row :=
  let debt := x.debt n
  let held := x.heldLine.any fun l => x.composed < 3840 * (l + 1)
  let count := if debt = 0 then 0 else if debt ≤ 3840 then min (x.consec + 1) 15 else x.consec
  let x := { x with
    heldLine := if held then x.heldLine else none
    quiet := (n % 120 == 0 || x.quiet) && debt == 0, noLower := n % 120 == 0 || x.noLower }
  let y :=
    if held then { x with consec := count }
    else if 3840 < debt then (if x.cap < 3 then x.lower else x)
    else if 0 < debt then (if 8 ≤ count && x.cap < 3 then x.lower else { x with consec := count })
    else { x with consec := 0 }
  if n % 120 = 119 && y.quiet && y.noLower && y.ceiling < y.cap then { y with cap := y.cap - 1 } else y

/-- Line n is not complete in the row's FIFOs (R124). -/
def underruns (n : Nat) (o : RowObs) : Bool := o.composed < 3840 * (n + 1)

/-! ### Composed lines (R52, R53, R90, R123, R127, R147) -/

/-- The composed pixels of one line of a tile (R147): the ray of each pixel at the line's cap, in FLAT-60 the centre ray of
its lenslet, computed once (R136); a tile in half service has phase A throughout (R53, R288). -/
def tileLine (s : State) (sheets : List Sheet) (obs : LineObs) (buf : BandBuffer) (r c line : Nat) : List Composed :=
  let flat := s.tim.mode == 6
  let g := rowGeom s r
  let p := if halfService s (8 * r + c) then 0 else phaseOf s.tim.mode s.tim.sub
  let y := 1440 * r + line
  let k := capOf (Tbl.get (rowOf s r).lineCaps 0 line)
  let reads := obs.geomReads.filter fun e => e.row == r && e.line == line && !e.corrected
  (List.range 3840).map fun xt =>
    let x := 3840 * c + xt
    let bad := (reads.filter (·.u == x / 10)).map (·.word)
    let ray := if flat then rayOf g bad 0 (x / 10 * 10 + 5) (y / 10 * 10 + 5) else rayOf g bad p x y
    let v := composeRay s (missedLines buf) (buf.sheetsAt (x / 10) sheets) s.cmp.termT16 k ray.sampleAt
    if flat && x % 10 ≠ 0 then { v with poison := [], miss := 0 } else v

/-- A copy of a composed value reads nothing (R136). -/
def Composed.copy (v : Composed) : Composed := { v with poison := [], miss := 0 }

/-- The tiles' lines as a row composes them: in FLAT-60 the first line of a lenslet row is composed, and the other nine are copies of
it (R53, R136). -/
def rowTiles (s : State) (sheets : List Sheet) (obs : LineObs) (r line : Nat) : List (List Composed) :=
  if s.tim.mode == 6 && line % 10 ≠ 0 then (rowOf s r).lens.map (·.map Composed.copy)
  else (List.range 8).map fun c => tileLine s sheets obs (rowOf s r).bandBuf r c line

/-- MISS_LINES takes the lines of a completed band, in units of 256 (R129, R162). -/
def Row.endBand (x : Row) : Row := { x with missLines := min 255 (x.bandMiss / 256), bandMiss := 0 }

/-- The cluster starts the first line of band b: the band buffers exchange roles, and the other receives the windows of band
b + 1 (R127, R130). -/
def nextBand (r b : Nat) (s : State) : State :=
  let x := (rowOf s r).endBand
  setRow r { x with band := b, bandBuf := if x.nextBuf.band = b then x.nextBuf else bandBuffer s r b, nextBuf := if b < 11 then bandBuffer s r (b + 1) else {} } s

/-- A line is composed into the FIFOs of the row's tiles (R122, R123). -/
def composeLine (obs : LineObs) (sheets : List Sheet) (r line : Nat) (s : State) : State :=
  let x := rowOf s r
  let tiles := rowTiles s sheets obs r line
  let px := tiles.flatten
  countTexels (px.flatMap (·.poison))
    (setRow r { x with lens := if s.tim.mode == 6 then tiles else [], fifo := x.fifo ++ [{ line, tiles }], bandMiss := x.bandMiss + (px.map (·.miss)).sum } s)

/-- The row's composition goes on until `d` values of the subframe are composed (R122, R123, R126). -/
def composeTo (obs : LineObs) (r d : Nat) (s : State) : State :=
  let was := (rowOf s r).composed
  let sheets := sheetsOf s
  let s := setRow r (takeCaps (s.tim.mode == 6) d (rowOf s r)) s
  let t := (List.range' (was / 3840) ((d + 3839) / 3840 - was / 3840)).foldl (fun t i =>
    let t := if i % 120 = 0 && 0 < i && was ≤ 3840 * i then nextBand r (i / 120) t else t
    if i < d / 3840 then composeLine obs sheets r i t else t) s
  let x := { rowOf t r with composed := d }
  setRow r (if 3840 * 1440 ≤ d && was < 3840 * 1440 then x.endBand else x) t

/-- A row at the start of an active line (R124, R132, R140, R141, R152): what its cluster has composed, CACHE_DED and SDEBT; then
the abort of a cluster fault in this cycle, of an underrun, or the rules of the cap. A word taken again through the miss path
counts as one line. -/
def rowLineStart (obs : LineObs) (n r : Nat) (s : State) : State :=
  let o := rowObs s obs r n
  let x := rowOf s r
  let s := setRow r { x with cacheDed := satAdd 8 x.cacheDed o.cacheDed, bandMiss := x.bandMiss + o.cacheDed } s
  if x.aborted.isSome then setRow r ((rowOf s r).noteDebt n) s
  else
    let t := composeTo obs r o.composed s
    let t := setRow r ((rowOf t r).noteDebt n) t
    if o.faulted && hasCluster t r then clusterFault r n t
    else if underruns n o then abortRow r n 0 t
    else setRow r ((rowOf t r).boundary n) t

/-- The codes of a subframe at its end: 0 from the first line not sent on (R145). -/
def Row.subCodes (x : Row) : Tbl Nat := x.lineCaps.filter fun e => x.aborted.all (e.1 < ·)

/-! ### Cap records (R144 to R146, R207) -/

/-- A byte of four line codes (R144). -/
def codeByte (t : Tbl Nat) (k : Nat) : Byte :=
  BitVec.ofNat 8 (Tbl.get t 0 (4 * k) + 4 * Tbl.get t 0 (4 * k + 1) + 16 * Tbl.get t 0 (4 * k + 2) + 64 * Tbl.get t 0 (4 * k + 3))

/-- The byte of a band: codes of its largest and smallest cap (R144). -/
def bandByte (t : Tbl Nat) (b : Nat) : Byte :=
  let cs := (List.range 120).map fun i => Tbl.get t 0 (120 * b + i)
  BitVec.ofNat 8 (cs.foldl min 3 + 4 * cs.foldl max 0)

/-- The 768 bytes of a cap record (R144, R146). -/
def capRecord (s : State) (f r : Nat) : Bytes :=
  let x := rowOf s r
  let conf := r < configRows s
  let two := dense s.tim.mode
  let trans := 0 < s.tim.transLeft
  let a := if trans then [] else x.capsA
  let b := if trans then [] else x.capsB
  let body := if conf then
      leBytes 8 f ++ leBytes 1 r ++ leBytes 1 s.tim.mode
        ++ leBytes 1 (flagAt x.abortA 0 + flagAt x.abortB 1 + flagAt two 2 + flagAt (s.tim.mode == 6) 3)
        ++ leBytes 1 (if trans then 255 else x.clusterA) ++ leBytes 1 (if trans || !two then 255 else x.clusterB) ++ leBytes 3 0
        ++ (List.range 12).map (bandByte a) ++ (if two then (List.range 12).map (bandByte b) else List.replicate 12 0)
        ++ (List.range 360).map (codeByte a) ++ (if two then (List.range 360).map (codeByte b) else List.replicate 360 0) ++ leBytes 4 0
    else leBytes 8 f ++ leBytes 1 255 ++ List.replicate 755 0
  body ++ leBytes 4 (crc32c body)

/-- The records of a frame are written to the cap ring (R146, R207). In Bench the ray engine and the DRAM are off (R214); the
records of the transition frames into Bench are written all the same (log 28). -/
def writeCaps (s : State) : State :=
  let f := s.tim.frameCount
  if (s.tim.mode = 0x10 && s.tim.transLeft = 0) || s.tim.mode = 0 || s.ray.capRecords = 0 then s
  else
    let base := s.ray.capBase + 9216 * (f % s.ray.capRecords)
    let t := (List.range 12).foldl (fun t r => memWrite 1 (base + 768 * r) (capRecord s f r) t) s
    { t with ray := { t.ray with newestFrame := f } }

end Sys2Proof.Machine
end

