-- ==== Sys2Proof/Machine/Sig.lean ====
section
/-! DEFINITION. Output signatures (05_output_signatures.md): the checksum stream, the decision of each frame, and what
changes at a frame tick. -/

namespace Sys2Proof.Machine

/-- A region. -/
def regionOf (s : State) (n : Nat) : Region := Tbl.get s.sig.regions {} n

/-- Set a region. -/
def setRegion (n : Nat) (x : Region) (s : State) : State := { s with sig := { s.sig with regions := Tbl.set n x s.sig.regions } }

/-! ### The stream (R170 to R173) -/

/-- The 36-bit word of a ray (R172). -/
def rayWord (c : Composed) : Nat := c.r + 4096 * c.g + 16777216 * c.b

/-- The byte stream of the words, least significant bit first; the last 4 bits of an odd count are 0 (R172). -/
def packWords : List Nat → Bytes
  | [] => []
  | [w] => leBytes 5 w
  | v :: w :: r => leBytes 9 (v + 2 ^ 36 * w) ++ packWords r

/-- The rays of a region's set in one composed line of a tile row: all pixels under its lenslets, or the centre pixels of
the phase-A subframe (R171). `row` holds the 30,720 composed pixels of panel row y. -/
def raySet (x : RegionRec) (sub y : Nat) (row : List Composed) : List Composed :=
  if y / 10 < x.v0 || x.v1 ≤ y / 10 then []
  else if x.subset = 1 then
    (if y % 10 = 5 && sub = 0 then (List.range' x.u0 (x.u1 - x.u0)).map fun u => row.getD (10 * u + 5) { r := 0, g := 0, b := 0 } else [])
  else (row.drop (10 * x.u0)).take (10 * (x.u1 - x.u0))

/-- The tap takes a composed line of a tile row for every enabled region (R170). -/
def tapLine (r line sub : Nat) (row : List Composed) (s : State) : State :=
  { s with sig := { s.sig with regions := s.sig.regions.map fun e =>
      let x := e.2
      if x.record.enable ≠ 1 then e
      else
        let rays := raySet x.record sub (1440 * r + line) row
        let k := 12 * sub + r
        (e.1, { x with stream := Tbl.set k (Tbl.get x.stream [] k ++ rays.map rayWord) x.stream, stable := x.stable && rays.all (·.stable) }) } }

/-- A region that an enabled SLATE rule of its own protects (R181). -/
def RegionRec.armed (x : RegionRec) : Bool := x.action == 1

/-! ### Decision (R175 to R182, R186) -/

/-- A MISMATCH is counted; the first after another result is an entry, further ones are counted for the second's summary
(R175, R186, R187). -/
def sigMismatch (n expected crc : Nat) (s : State) : State :=
  let x := regionOf s n
  let first := x.lastResult != .mismatch
  let consec := min (x.consec + 1) 15
  let y := { x with
    consec, mismatches := satAdd 16 x.mismatches 1, lastResult := .mismatch, mismatchSeen := true, lastCrc := crc, lastExpected := expected
    toSubstitute := x.toSubstitute || (x.record.armed && !x.substituted && x.record.limit ≤ consec)
    inSecond := if first then x.inSecond else some (x.inSecond.getD 0 + 1) }
  if first then log (hw 13) n 0x40 (expected + 2 ^ 32 * crc) (setRegion n y s) else setRegion n y s

/-- A comparison with a value or reference (R175 orders 5 and 6). -/
def sigCompare (n expected crc : Nat) (s : State) : State :=
  let x := regionOf s n
  if crc = expected then setRegion n { x with consec := 0, lastResult := .matched, lastCrc := crc } s
  else sigMismatch n expected crc s

/-- KIND SELF: the first signature becomes the reference (R175 order 4, R180, R182). -/
def sigSelf (n crc : Nat) (s : State) : State :=
  let x := regionOf s n
  match (if x.substituted then x.subRef else x.expected.reference) with
  | some v => sigCompare n v crc s
  | none =>
    let y := { x with consec := 0, lastResult := .seeded, lastCrc := crc }
    setRegion n (if x.substituted then { y with subRef := some crc } else { y with expected := { y.expected with reference := some crc } }) s

/-- The signature of a region's frame (R173). -/
def Region.crc (x : Region) : Nat := crc32c (packWords ((List.range 24).flatMap fun k => Tbl.get x.stream [] k))

/-- A tile under the region is in half service, or was earlier in the frame: the row-subframe counts as aborted (R288). -/
def degradedUnder (s : State) (x : RegionRec) : Bool :=
  (regionRows x).any fun r => (List.range 8).any fun c =>
    (halfService s (8 * r + c) || (linkOf s (8 * r + c)).halfSeen) && x.u0 < 384 * (c + 1) && 384 * c < x.u1

/-- Kind in force for a region: SELF while it is substituted (R182), SUPPLIED only in frames of its geometry version and mode (R179). -/
def Region.kindNow (s : State) (x : Region) : Nat :=
  if x.substituted then 2
  else if x.expected.kind = 1 && !(x.expected.geomVersion = (activeGeom s).version && x.expected.mode = s.tim.mode) then 0
  else x.expected.kind

/-- The result of one enabled region for the frame (R175). -/
def judgeRegion (n : Nat) (s : State) : State :=
  let x := regionOf s n
  if x.record.enable ≠ 1 then s
  else if s.tim.mode = 0x10 || 0 < s.tim.transLeft || x.hitAbort || degradedUnder s x.record then setRegion n { x with lastResult := .skipped } s
  else if !x.stable then setRegion n { x with lastResult := .ineligible, ineligibleSeen := true } s
  else if x.kindNow s = 1 then sigCompare n x.expected.value x.crc s
  else if x.kindNow s = 2 then sigSelf n x.crc s
  else setRegion n { x with lastResult := .noExpected, lastCrc := x.crc } s

/-- The results of the frame are decided by line 1,445 of its final subframe (R176). DESIGN CHOICE (log 90): a Bench or
transition frame, whose regions read SKIPPED (R175), also counts as the last frame evaluated. -/
def evaluateRegions (s : State) : State :=
  let t := (List.range 32).foldl (fun t n => judgeRegion n t) s
  { t with sig := { t.sig with evalFrame := s.tim.frameCount } }

/-- A new frame begins: streams empty (R172). -/
def clearStreams (s : State) : State :=
  { s with sig := { s.sig with regions := s.sig.regions.map fun x => (x.1, { x.2 with stream := [], stable := true, hitAbort := false }) } }

/-! ### At a frame tick (R167, R178 to R184) -/

/-- A substitution in force or about to begin ends, and the count is 0 (R183, R184). -/
def endSubstitution (x : Region) : Region :=
  if x.substituted || x.toSubstitute then { x with substituted := false, toSubstitute := false, consec := 0, subRef := none } else x

/-- A signature block takes effect (R178, R180, R183, R184). DESIGN CHOICE (log 105): the block of a commit whose stale members apply late
takes effect then, over one that a later commit brought meanwhile. -/
def applyBlock (b : SigBlock) (s : State) : State :=
  b.entries.foldl (fun t e =>
    setRegion e.region { endSubstitution (regionOf t e.region) with
      expected := { kind := e.kind, mode := e.mode, value := e.expected, geomVersion := b.geomVersion } } t) s

/-- A block whose commit applied with PARTIAL: its regions have no expected value in force (R178). -/
def suspendBlock (b : SigBlock) (s : State) : State :=
  b.entries.foldl (fun t e => setRegion e.region { regionOf t e.region with expected := { blocked := true } } t) s

/-- A changed record: mismatch count and SELF reference restart, a substitution ends (R167, R180, R183). DESIGN CHOICE (log 105): a
record that is written counts as changed, also with the contents it had. -/
def changeRegion (n : Nat) (r : RegionRec) (s : State) : State :=
  let x := endSubstitution (regionOf s n)
  setRegion n { x with record := r, consec := 0, mismatches := 0, expected := { x.expected with reference := none } } s

/-- SIG.RELEASE at its tick, with the origin of its request; without a substitution it has no effect (R183, R186, R511).
DESIGN CHOICE (log 90): the entry pairs the value expected at the last MISMATCH with the latest computed signature; R186 does not say
which frame's values it carries. -/
def releaseRegion (n : Nat) (o : Origin) (s : State) : State :=
  let x := regionOf s n
  if x.substituted || x.toSubstitute then
    log o n 0x42 (x.lastExpected + 2 ^ 32 * x.lastCrc) (setRegion n (endSubstitution x) s)
  else s

/-- The regions whose substitution begins at this tick (R181). -/
def substituting (s : State) : List Nat := (List.range 32).filter fun n => (regionOf s n).toSubstitute

/-- SIG_SUBSTITUTE entries of the substitutions that begin once the tick's changes have been made, as `u` has them (R181, R509, R511). -/
def noteSubstitutions (u s : State) : State :=
  (substituting u).foldl (fun t n => log (hw 13) n 0x41 ((regionOf u n).lastExpected + 2 ^ 32 * (regionOf u n).lastCrc) t) s

/-- Substitutions begin at a tick (R181). -/
def beginSubstitutions (s : State) : State :=
  (substituting s).foldl (fun t n =>
    setRegion n { regionOf t n with toSubstitute := false, substituted := true, subRef := none } t) s

/-- A geometry swap or mode change leaves every SELF entry without a reference (R180). -/
def forgetReferences (s : State) : State :=
  { s with sig := { s.sig with regions := s.sig.regions.map fun x =>
      (x.1, { x.2 with subRef := none, expected := { x.2.expected with reference := none } }) } }

end Sys2Proof.Machine
end

