-- ==== Sys2Proof/Machine/Commit.lean ====
section
/-! DEFINITION. Commits (03_layers_and_composition.md R93 to R114): their checks, the Sideboard groups, the latch
instant, deferral and stale members, and what applies at a frame tick. -/

namespace Sys2Proof.Machine

/-! ### Targets (R104, R105, R203) -/

/-- A target of a commit or a mode change (R102). -/
structure Target where
  kind : Nat
  base : Nat
  value : Nat
  mustHit : Bool := false
  deriving DecidableEq, Repr

/-- TARGET more than 2^62 frames or nanoseconds ahead (R103). -/
def Target.tooFar (s : State) (t : Target) : Bool :=
  (t.kind == 1 && s.tim.frameCount + 2 ^ 62 < t.value) || (t.kind == 2 && Machine.tooFar s t.base t.value)

/-- A TIME target in 2^-16 ns of TB3, by a capture now (R104, R522). -/
def Target.ticks (s : State) (t : Target) : Int :=
  ((tbNs s 3 : Int) + signed 64 (unsigned 64 ((t.value : Int) - tbNs s t.base))) * 65536

/-- Tick time of the frame before the earliest one that R24 allows. -/
def lastTickGone (s : State) : Nat := if s.tim.rasterRun && s.tim.latched then s.tim.nextTick else s.tim.thisTick

/-- The target lies before the earliest frame that R24 allows (R103, R105). -/
def Target.late (s : State) (t : Target) : Bool :=
  (t.kind == 1 && t.value < nextFrame s) || (t.kind == 2 && s.tim.rasterRun && signed 80 (unsigned 80 (t.ticks s - lastTickGone s)) ≤ 0)

/-- The planned frame of a target (R104, R105). -/
def Target.frame (s : State) (t : Target) : Nat :=
  if t.kind = 1 then max t.value (nextFrame s)
  else if t.kind = 2 then frameAt s (nextFrame s) (t.ticks s)
  else nextFrame s

/-! ### The descriptor (R102, R103, R177) -/

/-- The target of a descriptor's header (R102). -/
def commitTarget (d : Bytes) : Target := { kind := u8 d 2, base := u8 d 3, value := leAt d 8 8, mustHit := bit (u8 d 5) 0 }

/-- Operation code of a member (R102). -/
def memberOpOf : Nat → Option MemberOp
  | 0 => some .replace
  | 1 => some .flip
  | 2 => some .disable
  | _ => none

/-- The bytes of member k (R102). -/
def memberBytes (d : Bytes) (k : Nat) : Bytes := (d.drop (32 + 72 * k)).take 72

/-- Member k (R102). -/
def memberOf (d : Bytes) (k : Nat) : Member :=
  { layer := u8 (memberBytes d k) 0, op := (memberOpOf (u8 (memberBytes d k) 1)).getD .disable
    entry := layerEntryOf ((memberBytes d k).drop 8) }

/-- The members in descriptor order (R102). -/
def commitMembers (d : Bytes) : List Member := (List.range (leAt d 0 2)).map (memberOf d)

/-- ORIGIN_X or ORIGIN_Y is sign-extended from bit 19 (R103). -/
def originOk (v : Nat) : Bool := bits v 31 20 = if bit v 19 then 4095 else 0

/-- An entry passes the ST_FORMAT checks of R103 (R71 to R74). -/
def entryOk (b : Bytes) : Bool :=
  let e := layerEntryOf b
  zeroAt b 15 1 && zeroAt b 31 1 && e.front.ok && e.back.ok && e.cls ≤ 3 && e.flags < 64 && e.opacity ≠ 3 &&
  (!e.enabled || !e.front.isNone) && originOk e.originX && originOk e.originY && e.scaleX ≠ 0 && e.scaleY ≠ 0 &&
  (e.opacity ≠ 1 || (e.opqX0 < e.opqX1 && e.opqY0 < e.opqY1 && e.opqX1 ≤ e.front.width && e.opqY1 ≤ e.front.height)) &&
  (e.videoSource = 255 || (e.cls = 0 && e.videoSource < 64))

/-- The new entry of a member on the current one (R102). -/
def Member.result (m : Member) (e : LayerEntry) : LayerEntry :=
  match m.op with
  | .replace => m.entry
  | .flip => { e with front := e.back, back := e.front }
  | .disable => e.enable false

/-- The entry a stale member works on: a layer disabled by DROP counts as enabled (R110). -/
def undropped (s : State) (n : Nat) : LayerEntry := if (layerStatus s n).dropped then (layerOf s n).enable true else layerOf s n

/-- A layer's entry as the accepted commits leave it, from an entry on (R97). -/
def commitsOn (s : State) (n : Nat) (e : LayerEntry) : LayerEntry :=
  (s.cmp.commits.flatMap (·.members)).foldl (fun e m => if m.layer = n then m.result e else e) e

/-- A layer's entry as the waiting stale member leaves it. -/
def staleEntry (s : State) (n : Nat) : LayerEntry :=
  match Tbl.find? n s.cmp.stale with
  | none => layerOf s n
  | some w => w.member.result (undropped s n)

/-- A layer's entry as the waiting stale member and the accepted commits leave it (R97). -/
def projectedLayer (s : State) (n : Nat) : LayerEntry := commitsOn s n (staleEntry s n)

/-- A member that no fence delays: always signalled, and without a FLATTEN (R97, R106). -/
def Commit.steady (c : Commit) (m : Member) : Bool := (m.op == .disable || m.entry.fenceId = 0) && !c.statics.contains m.layer

/-- The entries that a member can leave, from those before it: one that a fence can delay may also leave the entry as it is, or
disabled by DROP (R109, R110). -/
def Commit.entriesAfter (c : Commit) (m : Member) (es : List LayerEntry) : List LayerEntry :=
  let new := es.map m.result
  if c.steady m then new
  else new ++ es ++ if m.op == .replace && m.entry.staleDrop then es.map (·.enable false) else []

/-- The entries that a layer can have once the accepted commits have applied, with or without its waiting stale member (R103, R113;
log 35). -/
def entryChoices (s : State) (n : Nat) : List LayerEntry :=
  s.cmp.commits.foldl (fun es c => (c.members.filter (·.layer = n)).foldl (fun es m => (c.entriesAfter m es).eraseDups) es)
    [layerOf s n, staleEntry s n].eraseDups

/-- A FLIP can leave an entry with ENABLE 1 and a FRONT descriptor of all 0 (R103; log 35). -/
def flipBlank (s : State) (n : Nat) : Bool := (entryChoices s n).any fun e => e.enabled && e.back.isNone

/-- A member passes the ST_FORMAT checks of R103. -/
def memberFormatOk (s : State) (d : Bytes) (k : Nat) : Bool :=
  let b := memberBytes d k
  let m := memberOf d k
  m.layer < 64 && (memberOpOf (u8 b 1)).isSome && zeroAt b 2 6 && (m.op != .replace || entryOk (b.drop 8)) &&
  (m.op != .flip || !flipBlank s m.layer)

/-- No value appears twice. -/
def distinct {α : Type} [DecidableEq α] : List α → Bool
  | [] => true
  | x :: r => !r.contains x && distinct r

/-- The header and members pass the ST_FORMAT checks of R103. -/
def descriptorOk (s : State) (d : Bytes) : Bool :=
  let n := leAt d 0 2
  32 ≤ d.length && 1 ≤ n && n ≤ 64 && 32 + 72 * n ≤ d.length && u8 d 2 ≤ 2 && u8 d 3 ≤ 3 && (u8 d 4 ≤ 15 || u8 d 4 = 255) &&
  u8 d 5 < 4 && zeroAt d 6 2 && zeroAt d 24 8 && (bit (u8 d 5) 1 || zeroAt d 16 8) &&
  (List.range n).all (memberFormatOk s d) && distinct ((commitMembers d).map (·.layer))

/-- The buffers of a member lie in populated DRAM, outside protected ranges (R103). -/
def memberRangeOk (s : State) (m : Member) : Bool :=
  m.op != .replace ||
    ((m.entry.front.isNone || bufferOk s m.entry.front.addr m.entry.front.extent) &&
     (m.entry.back.isNone || bufferOk s m.entry.back.addr m.entry.back.extent))

/-- The block lies in populated DRAM, outside protected ranges (R103). -/
def sigRangeOk (s : State) (a : Nat) : Bool := bufferOk s a 16 && bufferOk s a (16 + 16 * u8 (load s a 1) 0)

/-- Entry k of a block (R177). -/
def sigEntryOf (b : Bytes) (k : Nat) : SigEntry :=
  let e := (b.drop (16 + 16 * k)).take 16
  { region := u8 e 0, kind := u8 e 1, mode := u8 e 2, expected := leAt e 4 4 }

/-- The block as Walec copies it at acceptance (R177). -/
def sigBlockAt (s : State) (a : Nat) : SigBlock :=
  let b := load s a (16 + 16 * u8 (load s a 1) 0)
  { geomVersion := leAt b 4 4, entries := (List.range (u8 b 0)).map (sigEntryOf b) }

/-- The block passes the checks of R177. DESIGN CHOICE (log 105): a region is disabled as its active record says; a SIG.REGION that
waits for its tick does not count, as for the layer that R169 reserves. -/
def sigFormatOk (s : State) (a : Nat) : Bool :=
  let b := load s a (16 + 16 * u8 (load s a 1) 0)
  let es := (sigBlockAt s a).entries
  1 ≤ u8 b 0 && u8 b 0 ≤ 32 && zeroAt b 1 3 && zeroAt b 8 8 &&
  ((List.range (u8 b 0)).all fun k => zeroAt b (16 + 16 * k + 3) 1 && zeroAt b (16 + 16 * k + 8) 8) &&
  (es.all fun e => e.region < 32 && e.kind ≤ 2 && (e.kind = 1 || e.expected = 0) && (regionOf s e.region).record.enable = 1) &&
  distinct (es.map (·.region))

/-! ### Rights and limits of the members (R85, R94, R169, R502) -/

/-- The record of region n in frame f, the changes accepted for its tick among them (R24, R167). -/
def recordAt (s : State) (f n : Nat) : RegionRec :=
  (s.tim.pending.filterMap fun p => match p.change with
    | .region k x => if k = n && p.frame ≤ f then some x else none
    | _ => none).getLast?.getD (regionOf s n).record

/-- The record reserves its slate layer (R169). -/
def RegionRec.slates (x : RegionRec) : Bool := x.enable = 1 && x.action = 1

/-- The slate layers configured in frame f (R85). -/
def slatesAt (s : State) (f : Nat) : List Nat :=
  (List.range 32).filterMap fun n => if (recordAt s f n).slates then some (recordAt s f n).slateLayer else none

/-- An enabled region with ACTION SLATE reserves a layer (R169). -/
def slateLayers (s : State) : List Nat :=
  s.sig.regions.filterMap fun r => if r.2.record.slates then some r.2.record.slateLayer else none

/-- The current or new CLASS of a member is SAFETY (R502). -/
def Member.safety (s : State) (m : Member) : Bool := (layerOf s m.layer).safety || (m.op == .replace && m.entry.safety)

/-- A member is allowed to a class: classes of R478 as 1 OWNER to 6 OBSERVER (R169, R502). -/
def memberAllowed (s : State) (cls : Nat) (m : Member) : Bool :=
  !(slateLayers s).contains m.layer && (if m.safety s then cls = 4 else cls = 2 || cls = 3)

/-- All members have one kind of class, so that no class mixes them (R502). -/
def membersAllowed (s : State) (cls : Nat) (ms : List Member) : Bool := ms.all (memberAllowed s cls)

/-- All 64 layers as accepted changes leave them. -/
def projected (s : State) : List LayerEntry := (List.range 64).map (projectedLayer s)

/-- The layers after further members. -/
def afterMembers (l : List LayerEntry) (ms : List Member) : List LayerEntry :=
  ms.foldl (fun l m => l.set m.layer (m.result (l.getD m.layer {}))) l

/-- The layers whose member of a commit is STATIC, from the entries before it (R97, R98). -/
def staticsOf (l : List LayerEntry) (ms : List Member) : List Nat :=
  (ms.filter fun m => (l.getD m.layer {}).cls = 2 || (m.result (l.getD m.layer {})).cls = 2).map (·.layer)

/-- A commit in the order in which accepted commits can apply: the frame it applies at if no fence delays it, and whether none
can (R108, R112). -/
structure Ahead where
  frame : Nat
  sure : Bool
  commit : Commit
  deriving DecidableEq, Repr

/-- Two commits share a layer or a group (R112). -/
def Commit.meets (c d : Commit) : Bool := (c.members.any fun m => d.members.any (·.layer = m.layer)) || c.groups.any d.groups.contains

/-- A commit after those accepted before it: it does not apply before one it shares with (R112). -/
def aheadOf (before : List Ahead) (c : Commit) : Ahead :=
  let shared := before.filter (c.meets ·.commit)
  { frame := (shared.map (·.frame)).foldl max c.frame, sure := c.members.all c.steady && shared.all (·.sure), commit := c }

/-- Insert by frame, after equal ones. -/
def insertAhead (x : Ahead) : List Ahead → List Ahead
  | [] => [x]
  | y :: r => if x.frame < y.frame then x :: y :: r else y :: insertAhead x r

/-- Commits in acceptance order put into the order of their frames. -/
def inFrameOrder (cs : List Commit) : List Ahead :=
  (cs.foldl (fun l c => l ++ [aheadOf l c]) []).foldl (fun l x => insertAhead x l) []

/-- A layer made SAFETY and enabled, or not, in a set of layers as a bit mask. -/
def safetyBit (w n : Nat) (on : Bool) : Nat := if on == bit w n then w else if on then w + 2 ^ n else w - 2 ^ n

/-- What a member makes of its layer in that set. -/
def Member.safetyOn (m : Member) (w : Nat) : Nat :=
  match m.op with
  | .replace => safetyBit w m.layer (m.entry.enabled && m.entry.safety)
  | .flip => w
  | .disable => safetyBit w m.layer false

/-- The largest set once a commit has applied: a member that can become stale adds its layer and removes none (R109, R110). -/
def Commit.safetyOn (c : Commit) (w : Nat) : Nat :=
  c.members.foldl (fun w m => if c.steady m then m.safetyOn w else w ||| m.safetyOn w) w

/-- The enabled SAFETY layers of the active set, with those that a waiting stale member may add. -/
def safetyNow (s : State) : Nat :=
  ((List.range 64).map fun n => flagAt ([layerOf s n, staleEntry s n].any fun e => e.enabled && e.safety) n).sum

/-- SAFETY layers of a set, the given slate layers counted as though substituted (R85). -/
def safetyCount (slates : List Nat) (w : Nat) : Nat := ((List.range 64).filter fun n => slates.contains n || bit w n).length

/-- The frames from f on, before the next commit that is sure to apply, in which the slate layers are to be counted. -/
def slateFrames (s : State) (f : Nat) (later : List Ahead) : List Nat :=
  (f :: (s.tim.pending.map (·.frame)).filter (f < ·)).filter fun g => ((later.find? (·.sure)).map (·.frame)).all (g < ·)

/-- The most SAFETY layers of some sets, from frame f on until the next commit (R85). -/
def safetyFrom (s : State) (f : Nat) (later : List Ahead) (ws : List Nat) : Nat :=
  ((slateFrames s f later).flatMap fun g => ws.map (safetyCount (slatesAt s g))).foldl max 0

/-- The most SAFETY layers in any frame as the commits apply: one that can be delayed may still be waiting when a later one
applies (R85, R108 to R112; log 88). -/
def safetyPeak (s : State) : List Ahead → List Nat → Nat
  | [], _ => 0
  | x :: r, ws =>
    let after := (ws.map x.commit.safetyOn).eraseDups
    max (safetyFrom s x.frame r after) (safetyPeak s r (if x.sure then after else (ws ++ after).eraseDups))

/-- The most SAFETY layers from the frame that runs on, slates counted as though substituted (R85). -/
def safetyMost (s : State) (order : List Ahead) : Nat :=
  max (safetyFrom s s.tim.frameCount order [safetyNow s]) (safetyPeak s order [safetyNow s])

/-- Placement that makes STATIC layers one Sideboard group (R93). -/
def LayerEntry.placement (e : LayerEntry) : List Nat := [e.disparity, e.originX, e.originY, e.scaleX, e.scaleY]

/-- The enabled STATIC layers of a layer list with their entries (R93). -/
def staticMembers (l : List LayerEntry) : List (Nat × LayerEntry) :=
  (List.range 64).filterMap fun n => let e := l.getD n {}
    if e.enabled && e.cls = 2 then some (n, e) else none

/-- The placements of a layer list's groups, in order of their lowest layer (R93). -/
def placements (l : List LayerEntry) : List (List Nat) := ((staticMembers l).map (·.2.placement)).eraseDups

/-- The members of one placement. -/
def membersAt (l : List LayerEntry) (p : List Nat) : List (Nat × LayerEntry) := (staticMembers l).filter (·.2.placement == p)

/-- Largest width and height of the members (R94). -/
def groupSize (ms : List (Nat × LayerEntry)) : Nat × Nat :=
  (ms.foldl (fun w m => max w m.2.front.width) 0, ms.foldl (fun h m => max h m.2.front.height) 0)

/-- Bytes of a group's two buffers (R94). -/
def groupBytes (ms : List (Nat × LayerEntry)) : Nat := 2 * (64 * ((4 * (groupSize ms).1 + 63) / 64) * (groupSize ms).2)

/-- R94 is exceeded by a layer list. -/
def groupsExceeded (l : List LayerEntry) : Bool :=
  16 < (placements l).length || 2 ^ 30 < ((placements l).map fun p => groupBytes (membersAt l p)).sum

/-- The fences that can delay a member, as FENCE_ID and FENCE_VALUE, or 0 and the COMMIT_ID for the FLATTENs of its commit (R97, R106). -/
def Member.fences (id : Nat) (isStatic : Bool) (m : Member) : List (Nat × Nat) :=
  (if m.op == .disable || m.entry.fenceId = 0 then [] else [(m.entry.fenceId, m.entry.fenceValue)]) ++ if isStatic then [(0, id)] else []

/-- All sublists. -/
def choices {α : Type} : List α → List (List α)
  | [] => [[]]
  | x :: r => choices r ++ (choices r).map (x :: ·)

/-- The layer lists that a commit can leave when it applies: its STATIC members with an unsignalled fence keep their entries (R98,
R109). Members of other classes need no group. -/
def Commit.layersAfter (c : Commit) (l : List LayerEntry) : List (List LayerEntry) :=
  let fences (m : Member) : List (Nat × Nat) := if c.statics.contains m.layer then m.fences c.id true else []
  ((choices (c.members.flatMap fences).eraseDups).map fun held =>
    afterMembers l (c.members.filter fun m => !(fences m).any held.contains)).eraseDups

/-- The layer lists that the waiting STATIC members can give. -/
def staleChoices (s : State) : List (List LayerEntry) :=
  let fences (n : Nat) : List (Nat × Nat) := match Tbl.find? n s.cmp.stale with
    | some w => if w.isStatic then w.member.fences w.commitId true else []
    | none => []
  ((choices ((List.range 64).flatMap fences).eraseDups).map fun held =>
    (List.range 64).map fun n => if (fences n).any held.contains then layerOf s n else staleEntry s n).eraseDups

/-- One course of events: the commits that have not applied in it, and the layers. -/
structure Course where
  waiting : List Commit := []
  layers : List LayerEntry
  deriving DecidableEq, Repr

/-- A commit in a course: it applies unless one that it shares with still waits, and one that can be delayed may wait (R108, R112). -/
def Course.next (x : Ahead) (c : Course) : List Course :=
  let stays := { c with waiting := c.waiting ++ [x.commit] }
  if c.waiting.any x.commit.meets then [stays]
  else ((x.commit.layersAfter c.layers).map fun l => { c with layers := l }) ++ if x.sure then [] else [stays]

/-- R94 is exceeded in a frame that the accepted commits can give (log 88). -/
def groupsEver : List Ahead → List Course → Bool
  | [], _ => false
  | x :: r, cs =>
    let after := (cs.flatMap (·.next x)).eraseDups
    (after.any fun c => groupsExceeded c.layers) || groupsEver r after

/-- R85 or R94 would be exceeded with a further commit (R103). -/
def limitExceeded (s : State) (c : Commit) : Bool :=
  let order := inFrameOrder (s.cmp.commits ++ [c])
  4 < safetyMost s order || groupsEver order ((staleChoices s).map fun l => { layers := l })

/-! ### Acceptance (R103, R104) -/

/-- A descriptor as a commit, but for its number and its groups (R102, R104, R105). -/
def proposed (s : State) (d : Bytes) : Commit :=
  let t := commitTarget d
  let ms := commitMembers d
  { id := wrapAdd 32 s.cmp.lastId 1, members := ms, frame := t.frame s, mustHit := t.mustHit, late := t.late s
    deferLimit := if t.mustHit then 0 else if u8 d 4 = 255 then 3 else u8 d 4
    sigBlock := if bit (u8 d 5) 1 then some (sigBlockAt s (leAt d 16 8)) else none
    statics := staticsOf (projected s) ms }

/-- The status of a commit (R103). -/
def commitStatus (s : State) (cls : Nat) (d : Bytes) : Status :=
  let t := commitTarget d
  let ms := commitMembers d
  let sig := bit (u8 d 5) 1
  let a := leAt d 16 8
  firstStatus [
    (!descriptorOk s d, .format),
    (!ms.all (memberRangeOk s) || (sig && !sigRangeOk s a) || t.tooFar s, .range),
    (sig && poisoned s a (16 + 16 * u8 (load s a 1) 0), .fault),
    (sig && !sigFormatOk s a, .format),
    (t.kind = 2 && !s.tim.rasterRun, .notReady),
    (!membersAllowed s cls ms, .rights),
    (limitExceeded s (proposed s d), .limit),
    (t.mustHit && t.late s, .late),
    (64 ≤ s.cmp.commits.length, .busy)]

/-- A group's placement. -/
def Group.placement (g : Group) : List Nat := [g.disparity, g.originX, g.originY, g.scaleX, g.scaleY]

/-- Index of the group of a placement, or the lowest free index. -/
def groupIx (t : Tbl Group) (p : List Nat) : Nat :=
  match List.find? (fun g : Nat × Group => g.2.placement == p) t with
  | some g => g.1
  | none => ((List.range (t.length + 1)).find? fun k => (Tbl.find? k t).isNone).getD 0

/-- A new group of a placement. -/
def newGroup (p : List Nat) : Group :=
  { disparity := p.getD 0 0, originX := p.getD 1 0, originY := p.getD 2 0, scaleX := p.getD 3 0, scaleY := p.getD 4 0 }

/-- The placements that a commit changes: members changed, or which layers form the group changed (R97). -/
def changedPlacements (old new : List LayerEntry) (ms : List Member) : List (List Nat) :=
  (placements old ++ placements new).eraseDups.filter fun p =>
    let f (l : List LayerEntry) := (membersAt l p).map (·.1)
    f old != f new || (f new).any fun n => ms.any (·.layer == n)

/-- The back buffers of one commit that are due: the placements and the members' entries (R97). -/
abbrev BacksDue := Nat × List (List Nat × List (Nat × LayerEntry))

/-- The back buffers of commits that have applied but for STATIC members: those begun, their members as the commit leaves them. -/
def staleBacks (s : State) : List BacksDue :=
  ((s.cmp.stale.filter (·.2.isStatic)).map (·.2.commitId)).eraseDups.map fun id =>
    let waits (n : Nat) : Bool := (Tbl.find? n s.cmp.stale).any fun w => w.isStatic && w.commitId = id
    let old := (List.range 64).map (layerOf s)
    let new := (List.range 64).map fun n => if waits n then staleEntry s n else layerOf s n
    let begun := (s.cmp.groups.filter fun g => g.2.backs.any (·.commit = id)).map (·.2.placement)
    let changed := changedPlacements old new ((s.cmp.stale.filter fun w => waits w.1).map (·.2.member))
    (id, (begun ++ changed).eraseDups.map fun p => (p, membersAt new p))

/-- The back buffers of accepted commits, each upon those before it (R97, R112). -/
def commitBacks : List Commit → List LayerEntry → List BacksDue
  | [], _ => []
  | c :: r, old =>
    let new := afterMembers old c.members
    (c.id, (changedPlacements old new c.members).map fun p => (p, membersAt new p)) :: commitBacks r new

/-- All back buffers that are due. A stale member that waits counts in those of its own commit only: until it applies, the other
commits leave its layer as it is (R98, R110). -/
def backsDue (s : State) : List BacksDue := staleBacks s ++ commitBacks s.cmp.commits ((List.range 64).map (layerOf s))

/-- The FLATTEN of one back buffer starts; a placement left without members has nothing to compose (R97). One that already
composes or has composed the same entries is kept. -/
def startFlatten (id : Nat) (p : List Nat) (ms : List (Nat × LayerEntry)) (s : State) : State :=
  let k := groupIx s.cmp.groups p
  let g := (Tbl.find? k s.cmp.groups).getD (newGroup p)
  if g.backs.any fun b => b.commit = id && b.entries == ms then s
  else
    let b : GroupBack := { commit := id, width := (groupSize ms).1, height := (groupSize ms).2, entries := ms
                           image := if ms.isEmpty then some [] else none }
    let others := s.blt.internal.filter (· ≠ (k, id))
    { s with cmp := { s.cmp with groups := Tbl.set k { g with backs := g.backs.filter (·.commit ≠ id) ++ [b] } s.cmp.groups }
             blt := { s.blt with internal := if ms.isEmpty then others else others ++ [(k, id)]
                                 flight := s.blt.flight.filter fun c => c.2.group ≠ some (k, id) } }

/-- Back buffers that nothing calls for any more are dropped. -/
def dropBacks (due : List BacksDue) (s : State) : State :=
  let wanted (p : List Nat) (id : Nat) : Bool := due.any fun d => d.1 = id && d.2.any (·.1 == p)
  { s with cmp := { s.cmp with groups := s.cmp.groups.map fun g =>
    (g.1, { g.2 with backs := g.2.backs.filter fun b => wanted g.2.placement b.commit }) } }

/-- The back buffers follow the entries: a FLATTEN starts for each one that is due and does not show the members as its commit leaves
them, and the commits know their groups (R97, R112). DEDUCED (log 88): where a stale member or a later commit changes what an
earlier FLATTEN read, the FLATTEN is made again. -/
def refreshBacks (s : State) : State :=
  let due := backsDue s
  let t := due.foldl (fun t d => d.2.foldl (fun t x => startFlatten d.1 x.1 x.2 t) t) (dropBacks due s)
  let groups (id : Nat) : List Nat := (due.filter (·.1 = id)).flatMap fun d => d.2.map fun x => groupIx t.cmp.groups x.1
  { t with cmp := { t.cmp with commits := t.cmp.commits.map fun c => { c with groups := groups c.id } } }

/-- Accept a commit: its number, its planned frame and its FLATTENs (R97, R104, R105, R501). -/
def acceptCommit (d : Bytes) (o : Origin) (key : CommitKey) (s : State) : State :=
  let p := proposed s d
  let rs := s.cmp.results ++ [{ id := p.id, key, origin := o, frame := p.frame }]
  refreshBacks { s with cmp := { s.cmp with commits := s.cmp.commits ++ [{ p with origin := o, key }], lastId := p.id
                                            results := rs.drop (rs.length - 256) } }

/-- A commit submitted with its descriptor: status, COMMIT_ID, planned frame and the state after (R103, R104). -/
def submitCommit (cls : Nat) (d : Bytes) (o : Origin) (key : CommitKey) (s : State) : Status × Nat × Nat × State :=
  match commitStatus s cls d with
  | .ok => let t := acceptCommit d o key s
           (.ok, t.cmp.lastId, (commitTarget d).frame s, t)
  | c => (c, 0, 0, s)

/-! ### The latch instant (R100, R106 to R112) -/

/-- Every FLATTEN of a commit has completed: the implicit fence of its STATIC members (R97). -/
def flattened (s : State) (id : Nat) : Bool := s.cmp.groups.all fun g => g.2.backs.all fun b => b.commit ≠ id || b.image.isSome

/-- A member's fences are signalled: its own (R106), and for a STATIC member its FLATTENs (R97). -/
def memberReady (s : State) (id : Nat) (isStatic : Bool) (m : Member) : Bool :=
  (m.op == .disable || m.entry.fenceId = 0 || signalledAt (fenceValue s m.entry.fenceId) m.entry.fenceValue) &&
  (!isStatic || flattened s id)

/-- The members of a commit whose fences are signalled (R106, R107). -/
def Commit.ready (c : Commit) (s : State) : List Member := c.members.filter fun m => memberReady s c.id (c.statics.contains m.layer) m

/-- The layers whose member of a latched commit becomes stale at the next tick (R109). -/
def Commit.unready (c : Commit) : List Nat :=
  match c.latched with
  | none => []
  | some go => (c.members.map (·.layer)).filter fun n => !go.contains n

/-- One commit at the latch instant for frame f; `blocked` says that an earlier commit that does not apply shares a layer
or group with it (R108, R109, R112). -/
def latchCommit (s : State) (f : Nat) (blocked : Bool) (c : Commit) : Commit :=
  let ready := c.ready s
  if c.latched.isSome ∨ f < c.frame ∨ blocked then c
  else if ready.length = c.members.length then { c with latched := some (c.members.map (·.layer)) }
  else if c.deferrals < c.deferLimit then { c with deferrals := c.deferrals + 1 }
  else { c with latched := some (ready.map (·.layer)) }

/-- The layers and groups of a commit that does not apply block later ones (R112). -/
def Commit.shares (c : Commit) (layers groups : List Nat) : Bool :=
  (c.members.any fun m => layers.contains m.layer) || c.groups.any groups.contains

/-- The STATIC layers whose member of a latched commit becomes stale. -/
def Commit.heldStatics (c : Commit) : List Nat := c.unready.filter c.statics.contains

/-- The accepted commits in acceptance order at the latch instant for frame f (R108 to R112). A commit with a STATIC member that
becomes stale also holds back those that share its groups: their FLATTENs have read that member as applied (R97, R98; log 88). -/
def latchCommits (s : State) (f : Nat) : List Nat → List Nat → List Commit → List Commit
  | _, _, [] => []
  | ls, gs, c :: r =>
    let c' := latchCommit s f (c.shares ls gs) c
    if c'.latched.isNone then c' :: latchCommits s f (c.members.map (·.layer) ++ ls) (c.groups ++ gs) r
    else if c'.heldStatics.isEmpty then c' :: latchCommits s f ls gs r
    else c' :: latchCommits s f (c'.heldStatics ++ ls) (c.groups ++ gs) r

/-- The groups with a back buffer of a commit. -/
def groupsBehind (s : State) (id : Nat) : List Nat := (s.cmp.groups.filter fun g => g.2.backs.any (·.commit = id)).map (·.1)

/-- Commits accepted after one, by their numbers. -/
def Commit.age (s : State) (id : Nat) : Nat := (s.cmp.lastId + 2 ^ 32 - id) % 2 ^ 32

/-- A waiting stale member's fences are signalled (R110). -/
def StaleMember.signalled (s : State) (w : StaleMember) : Bool := memberReady s w.commitId w.isStatic w.member

/-- Of signalled stale members whose FLATTENs are of one group, those of the earliest commit apply; the others are composed again
upon them first (R97, R112; log 88). -/
def StaleMember.goes (s : State) (w : StaleMember) : Bool :=
  w.signalled s && (!w.isStatic || s.cmp.stale.all fun v =>
    !(v.2.isStatic && v.2.signalled s && Commit.age s w.commitId < Commit.age s v.2.commitId &&
      (groupsBehind s v.2.commitId).any (groupsBehind s w.commitId).contains))

/-- The groups whose stale STATIC members apply at the next tick. -/
def goingGroups (s : State) : List Nat := (s.cmp.stale.filter fun w => w.2.isStatic && w.2.goes s).flatMap fun w => groupsBehind s w.2.commitId

/-- A video flip is taken for layer n at the next tick (R32, R100). -/
def flipDue (s : State) (n : Nat) : Bool :=
  s.hif.walec == .running && (layerOf s n).cls = 0 &&
  match Tbl.find? n s.cmp.backReady with
  | none => false
  | some (pts, b) => atOrAfter (convert s 3 b (s.tim.nextTick / 65536)) pts

/-- The STALE_FRAMES of members that became stale at this latch instant starts from 0 (R109, R113, R117). -/
def newlyStale (before : List Commit) (s : State) : State :=
  let old := before.flatMap Commit.unready
  ((s.cmp.commits.flatMap Commit.unready).filter fun n => !old.contains n).foldl
    (fun t n => setLayerStatus n { layerStatus t n with staleFrames := 0 } t) s

/-- What the commit unit samples at the latch instant (R100, R107 to R112). -/
def commitLatch (s : State) : State :=
  let t := newlyStale s.cmp.commits { s with cmp := { s.cmp with
    commits := latchCommits s (s.tim.frameCount + 1) [] (goingGroups s) s.cmp.commits
    stale := s.cmp.stale.map fun w => (w.1, { w.2 with ready := w.2.goes s }) } }
  (List.range 64).foldl (fun t n => if flipDue s n then setLayerStatus n { layerStatus t n with flipPending := true } t else t) t

/-! ### The frame tick (R109 to R114) -/

/-- An active entry changes at the tick of the frame that begins: FLIP_FRAME and the flip time follow FRONT, and a picture
stays in BACK only while BACK is kept (R99, R101, R117). -/
def applyEntry (n : Nat) (e : LayerEntry) (s : State) : State :=
  let old := layerOf s n
  let x := layerStatus s n
  let x := if e.front = old.front then x
    else { x with flipFrame := s.tim.frameCount % 2 ^ 32, flipTime := s.tim.thisTick / 65536 % 2 ^ 64 }
  let t := setLayerStatus n x (setLayer n e s)
  if e.back = old.back then t
  else { t with cmp := { t.cmp with backReady := Tbl.erase n t.cmp.backReady }
                dec := { t.dec with ctxs := t.dec.ctxs.map fun x =>
                  if x.2.conversion.any (·.layer == n) then (x.1, { x.2 with conversion := none }) else x } }

/-- A group shows the back buffer of a commit (R97); one that it leaves without members shows nothing (R93). -/
def Group.swap (id : Nat) (g : Group) : Group :=
  match List.find? (fun b : GroupBack => b.commit = id && b.image.isSome) g.backs with
  | none => g
  | some b => { g with members := b.entries.map (·.1), width := b.width, height := b.height
                       image := if b.entries.isEmpty then none else b.image
                       backs := g.backs.filter fun x => x.commit ≠ id }

/-- The groups of a commit whose STATIC members have applied show their back buffers (R97). -/
def swapGroups (id : Nat) (s : State) : State :=
  { s with cmp := { s.cmp with groups := s.cmp.groups.map fun g => (g.1, g.2.swap id) } }

/-- A stale STATIC member of a commit still waits (R98). -/
def staticWaits (s : State) (id : Nat) : Bool := s.cmp.stale.any fun w => w.2.commitId = id && w.2.isStatic

/-- A signalled stale member applies (R110, R511); with the last one of its commit the signature block takes effect (R178). -/
def applyStale (n : Nat) (w : StaleMember) (s : State) : State :=
  let e := w.member.result (undropped s n)
  let t := logEntry w.origin n 0x11 w.commitId (digest (layerOf s n).bytes) (digest e.bytes) false s
  let t := applyEntry n e t
  let t := setLayerStatus n { layerStatus t n with dropped := false } t
  let t := { t with cmp := { t.cmp with stale := Tbl.erase n t.cmp.stale } }
  let t := if staticWaits t w.commitId then t else swapGroups w.commitId t
  match w.sigBlock with
  | some b => if t.cmp.stale.any (·.2.commitId = w.commitId) then t else applyBlock b t
  | none => t

/-- The groups of a commit whose last waiting STATIC member is discarded swap where the active entries are those composed (R97, R113). -/
def swapSettled (id : Nat) (s : State) : State :=
  let l := (List.range 64).map (layerOf s)
  let settled (g : Group) : Bool := g.backs.any fun b => b.commit = id && b.entries == membersAt l g.placement
  if staticWaits s id then s
  else { s with cmp := { s.cmp with groups := s.cmp.groups.map fun g => (g.1, if settled g.2 then g.2.swap id else g.2) } }

/-- Discard the waiting stale member of a layer, and the block of its commit with it (R113, R178). The entry carries the origin
and the COMMIT_ID of the discarded member's commit (log 88). -/
def discardStale (n : Nat) (s : State) : State :=
  match Tbl.find? n s.cmp.stale with
  | none => s
  | some w =>
    let t := logEntry w.origin n 0x12 w.commitId (digest (layerOf s n).bytes) (digest (w.member.result (undropped s n)).bytes) false s
    let t := setLayerStatus n { layerStatus t n with discarded := true } t
    swapSettled w.commitId { t with cmp := { t.cmp with stale := (Tbl.erase n t.cmp.stale).map fun x =>
        if x.2.commitId = w.commitId then (x.1, { x.2 with sigBlock := none }) else x } }

/-- A member becomes stale: HOLD, or DROP where its policy says so and no class forbids it (R98, R109 to R111). -/
def becomeStale (c : Commit) (m : Member) (s : State) : State :=
  let e := layerOf s m.layer
  let policy := (if m.op == .replace then m.entry else e).staleDrop
  let isStatic := c.statics.contains m.layer
  let drop := policy && !m.safety s && !isStatic && e.enabled
  let x := layerStatus s m.layer
  let t := setLayerStatus m.layer { x with dropped := x.dropped || drop } (if drop then setLayer m.layer (e.enable false) s else s)
  { t with cmp := { t.cmp with stale := Tbl.set m.layer { member := m, commitId := c.id, origin := c.origin, isStatic, sigBlock := c.sigBlock } t.cmp.stale } }

/-- A member takes effect at the tick, after the members of earlier commits of that tick that it supersedes (R112; log 88). A
FLIP leaves a layer that DROP disabled as it is. -/
def applyMember (before : List Member) (m : Member) (s : State) : State :=
  let chain := before.filter (·.layer = m.layer) ++ [m]
  let t := applyEntry m.layer (chain.foldl (fun e x => x.result e) (layerOf s m.layer)) s
  let x := layerStatus t m.layer
  setLayerStatus m.layer { x with dropped := x.dropped && chain.all (·.op == .flip) } t

/-- The digest of the entries of some layers; 0 when there are none (R510, R511). -/
def entriesDigest (s : State) (ns : List Nat) : Bytes := if ns.isEmpty then [] else digest (ns.flatMap fun n => (layerOf s n).bytes)

/-- Bit mask of a list of layers. -/
def layerMask (l : List Nat) : Nat := (l.map fun n => 2 ^ n).sum

/-- The 40 bytes of a completion (R114). -/
def Completion.bytes (c : Completion) : Bytes :=
  leBytes 2 0 ++ leBytes 1 c.deferrals ++ leBytes 1 (flagAt c.late 0 + flagAt c.partialApply 1) ++ leBytes 4 0
  ++ leBytes 8 c.frameTaken ++ leBytes 8 (layerMask c.applied) ++ leBytes 8 (layerMask c.stale) ++ leBytes 8 (layerMask c.superseded)

/-- The completion is kept, and a commit entry of a queue gets its APPLICATION record (R114, R466, R501). -/
def completeCommit (c : Commit) (x : Completion) (s : State) : State :=
  let t := { s with cmp := { s.cmp with results := s.cmp.results.map fun r => if r.id = c.id then { r with completion := some x } else r } }
  match c.key with
  | .queue q slot gen _ => complete q slot gen 2 x.bytes 1 t
  | _ => t

/-- The members of a latched commit in ascending layer order. -/
def Commit.ordered (c : Commit) : List Member := (List.range 64).filterMap fun n => c.members.find? (·.layer = n)

/-- A latched commit applies at the tick of the frame that begins; `later` lists the layers that a later commit of the same
tick applies, `before` the members of earlier ones that they supersede (R109 to R114, R178). -/
def applyCommit (c : Commit) (go later : List Nat) (before : List Member) (s : State) : State :=
  let applied := (c.ordered.filter fun m => go.contains m.layer && !later.contains m.layer)
  let stale := c.ordered.filter fun m => !go.contains m.layer
  let x : Completion := { deferrals := c.deferrals, late := c.late, partialApply := !stale.isEmpty, frameTaken := s.tim.frameCount
                          applied := applied.map (·.layer), stale := stale.map (·.layer)
                          superseded := (c.ordered.map (·.layer)).filter fun n => go.contains n && later.contains n }
  let t := c.ordered.foldl (fun t m => discardStale m.layer t) s
  let old := entriesDigest t x.applied
  let t := applied.foldl (fun t m => applyMember before m t) t
  let new := entriesDigest t x.applied
  let t := stale.foldl (fun t m => becomeStale c m t) t
  let t := logEntry c.origin applied.length 0x10 (layerMask x.applied) old new false t
  let t := if staticWaits t c.id then t else swapGroups c.id t
  let t := match c.sigBlock with
    | none => t
    | some b => if stale.isEmpty then applyBlock b t else suspendBlock b t
  completeCommit c x t

/-- The latched commits of a tick in acceptance order. -/
def applyCommits : List Member → List Commit → State → State
  | _, [], s => s
  | before, c :: r, s =>
    match c.latched with
    | none => applyCommits before r s
    | some go => applyCommits (before ++ c.members.filter fun m => go.contains m.layer) r
        (applyCommit c go (r.flatMap fun d => d.latched.getD []) before s)

/-- Video flips that no member of the tick replaces (R100, R101). -/
def applyFlips (touched : List Nat) (s : State) : State :=
  (List.range 64).foldl (fun t n =>
    let x := layerStatus t n
    if x.flipPending then
      let e := layerOf t n
      let u := setLayerStatus n { x with flipPending := false } t
      if touched.contains n then u
      else
        let v := applyEntry n { e with front := e.back, back := e.front } u
        { v with cmp := { v.cmp with backReady := Tbl.erase n v.cmp.backReady } }
    else t) s

/-- Groups that no enabled STATIC layer needs any more and no commit fills are gone (R93). -/
def pruneGroups (s : State) : State :=
  let ps := placements ((List.range 64).map (layerOf s))
  { s with cmp := { s.cmp with groups := s.cmp.groups.filter fun g => ps.contains g.2.placement || !g.2.backs.isEmpty } }

/-- Each frame shown while a stale member waits counts, from its beginning (R110, R117; log 88). -/
def countStale (s : State) : State :=
  s.cmp.stale.foldl (fun t w => let x := layerStatus t w.1
                                setLayerStatus w.1 { x with staleFrames := satAdd 16 x.staleFrames 1 } t) s

/-- The sink of a context: the lowest-numbered enabled entry of the active set that names it (R313). -/
def sinkOf (s : State) (ctx : Nat) : Option Nat :=
  (List.range 64).find? fun n => (activeLayer s n).enabled && (activeLayer s n).videoSource == ctx

/-- A conversion whose sink has changed is abandoned; the picture is converted again (R319). -/
def abandonConversions (s : State) : State :=
  let keep (n : Nat) (x : Ctx) : Ctx := if x.conversion.any fun v => sinkOf s n ≠ some v.layer then { x with conversion := none } else x
  { s with dec := { s.dec with ctxs := s.dec.ctxs.map fun x => (x.1, keep x.1 x.2) } }

/-- What the commit unit applies at the tick of the frame that begins (R100, R109 to R114). DESIGN CHOICE (log 90): between a
commit's PARTIAL and its stale members a later commit's block for the same region is in force, and the older block replaces it when
those members apply; of two blocks completed by stale members of one tick, that of the higher layer takes effect last. -/
def commitTick (s : State) : State :=
  let ready := s.cmp.stale.filter (·.2.ready)
  let go := s.cmp.commits.filter (·.latched.isSome)
  let t := ready.foldl (fun t w => applyStale w.1 w.2 t) s
  let t := { t with cmp := { t.cmp with commits := t.cmp.commits.filter (·.latched.isNone) } }
  let t := applyCommits [] go t
  let t := applyFlips (ready.map (·.1) ++ go.flatMap fun c => c.latched.getD []) t
  countStale (pruneGroups (refreshBacks (abandonConversions t)))

end Sys2Proof.Machine
end

