-- ==== Sys2Proof/Machine/Blit.lean ====
section
/-! DEFINITION. The 2D engine (11_2d_engine.md): jobs and commands, opcodes, scoreboard, cancellation, completion. A command
in flight takes its effect at its end: R367 and R368 keep every other command of the engine away from what it reads and
writes. -/

namespace Sys2Proof.Machine

/-! ### Commands (R356 to R358) -/

/-- The destination surface of a command (R357). -/
def cmdDst (c : Bytes) : Desc := descOf ((c.drop 32).take 16)
/-- The source surface of a command (R357). -/
def cmdSrc (c : Bytes) : Desc := descOf ((c.drop 48).take 16)

/-- Bytes of a pixel; 0 stands for the mask format A1 (R358). -/
def surfaceBytes (f : Nat) : Nat := if f = 0x10 then 0 else pixelBytes f

/-- The destination rectangle (R357). -/
def dstRect (c : Bytes) : Rect :=
  let d := cmdDst c
  { addr := d.addr, stride64 := d.stride64, bpp := surfaceBytes d.format, x := leAt c 8 2, y := leAt c 10 2, w := leAt c 4 2, h := leAt c 6 2 }

/-- The source rectangle; FILL has none (R357). -/
def srcRect (c : Bytes) : Option Rect :=
  let d := cmdSrc c
  if u8 c 0 = 1 then none
  else some { addr := d.addr, stride64 := d.stride64, bpp := surfaceBytes d.format, x := leAt c 12 2, y := leAt c 14 2, w := leAt c 4 2, h := leAt c 6 2 }

/-- Byte of pixel (n, m) of a surface (R73, R358). -/
def pixelAddr (addr stride64 bpp n m : Nat) : Nat := addr + 64 * stride64 * m + (if bpp = 0 then n / 8 else bpp * n)

/-- First byte of a rectangle (R366). -/
def Rect.first (r : Rect) : Nat := pixelAddr r.addr r.stride64 r.bpp r.x r.y
/-- The byte after the last one of a rectangle (R366). -/
def Rect.stop (r : Rect) : Nat := pixelAddr r.addr r.stride64 r.bpp (r.x + r.w - 1) (r.y + r.h - 1) + max r.bpp 1

/-- The same surface (R365). -/
def Rect.same (a b : Rect) : Bool := a.addr == b.addr && a.stride64 == b.stride64 && a.bpp == b.bpp

/-- Byte extents intersect (R366). -/
def Rect.meets (a b : Rect) : Bool := a.first < b.stop && b.first < a.stop

/-- Two rectangles overlap (R367). An empty rectangle overlaps nothing. -/
def Rect.overlaps (a b : Rect) : Bool :=
  a.w ≠ 0 && b.w ≠ 0 &&
  (if a.same b then a.x < b.x + b.w && b.x < a.x + a.w && a.y < b.y + b.h && b.y < a.y + a.h else a.meets b)

/-- `a` lies wholly inside `b` on the same surface (R369). -/
def Rect.inside (a b : Rect) : Bool := a.same b && b.x ≤ a.x && a.x + a.w ≤ b.x + b.w && b.y ≤ a.y && a.y + a.h ≤ b.y + b.h

/-! ### Checks (R371) -/

/-- A surface descriptor meets R72, or R358 for a mask. -/
def surfaceOk (b : Bytes) (mask : Bool) : Bool :=
  let d := descOf b
  if mask then
    zeroAt b 15 1 && d.format = 0x10 && 1 ≤ d.width && d.width ≤ 16384 && 1 ≤ d.height && d.height ≤ 16384 && d.stride64 ≤ 4096 &&
      (d.width + 511) / 512 ≤ d.stride64 && d.addr % 64 == 0 && d.addr < 2 ^ 40
  else zeroAt b 15 1 && !d.isNone && d.ok

/-- A COLOUR field's reserved bits are 0 (R357). -/
def colourOk (c : Bytes) (o : Nat) : Bool := (List.range 4).all fun k => leAt c (o + 2 * k) 2 < 4096

/-- BAD_FIELD does not apply (R371 code 3). A rectangle wider or higher than 16,384 lies in no surface: code 4. -/
def cmdFieldsOk (c : Bytes) : Bool :=
  let op := u8 c 0
  u8 c 1 < 32 && zeroAt c 3 1 && 1 ≤ leAt c 4 2 && 1 ≤ leAt c 6 2 && colourOk c 16 && colourOk c 24 &&
  surfaceOk ((c.drop 32).take 16) false &&
  (if op = 1 then zeroAt c 48 16 else surfaceOk ((c.drop 48).take 16) (op = 5)) && (op ≠ 2 || (cmdSrc c).format = (cmdDst c).format)

/-- A rectangle lies in its surface (R371 code 4). -/
def rectIn (d : Desc) (r : Rect) : Bool := r.x + r.w ≤ d.width && r.y + r.h ≤ d.height

/-- Bytes of a whole surface. -/
def surfaceExtent (d : Desc) : Nat := if d.format = 0x10 then 64 * d.stride64 * (d.height - 1) + (d.width + 7) / 8 else d.extent

/-- The first failing check of a command, 0 when none fails (R371 codes 1 to 6). -/
def cmdError (s : State) (c : Bytes) : Nat :=
  let d := cmdDst c
  let r := dstRect c
  if u8 c 0 = 0 || 6 < u8 c 0 then 1
  else if u8 c 0 = 6 then 2
  else if !cmdFieldsOk c then 3
  else if !rectIn d r || !(srcRect c).all (rectIn (cmdSrc c)) then 4
  else if !bufferOk s d.addr (surfaceExtent d) || ((srcRect c).isSome && !bufferOk s (cmdSrc c).addr (surfaceExtent (cmdSrc c))) then 5
  else if (srcRect c).any fun q => !q.same r && q.meets r then 6
  else 0

/-- Status of an error code (R371). -/
def bltStatus (code : Nat) : Status := if code = 0 then .ok else if code = 2 then .rights else if code = 5 || code = 4 then .range else if 7 ≤ code then .fault else .format

/-! ### Opcodes (R361 to R364) -/

/-- A 12-bit value in a field of n bits (R361). -/
def storeField (n v : Nat) : Nat := (2 * v * (2 ^ n - 1) + 4095) / 8190

/-- A pixel word of a format from 12-bit channels (R74, R361). -/
def packPixel (f : Nat) (c : Chan) : Nat :=
  if f = 1 then storeField 5 c.r * 2048 + storeField 6 c.g * 32 + storeField 5 c.b
  else if f = 2 then storeField 1 c.a * 32768 + storeField 5 c.r * 1024 + storeField 5 c.g * 32 + storeField 5 c.b
  else if f = 3 then storeField 4 c.a * 4096 + storeField 4 c.r * 256 + storeField 4 c.g * 16 + storeField 4 c.b
  else if f = 7 then storeField 2 c.a * 2 ^ 30 + storeField 10 c.r * 2 ^ 20 + storeField 10 c.g * 1024 + storeField 10 c.b
  else (if f = 5 then storeField 8 c.a * 2 ^ 24 else 0) + storeField 8 c.r * 65536 + storeField 8 c.g * 256 + storeField 8 c.b

/-- Premultiplication of a colour (R79, R363). -/
def premul (v a : Nat) : Nat := (2 * v * a + 4095) / 8190

/-- Un-premultiplication (R364). -/
def unpremul (v a : Nat) : Nat := if a = 0 then 0 else min 4095 ((2 * v * 4095 + a) / (2 * a))

/-- The colours of a value by a function of colour and alpha. -/
def Chan.colours (f : Nat → Nat → Nat) (c : Chan) : Chan := { c with r := f c.r c.a, g := f c.g c.a, b := f c.b c.a }

/-- CONVERT (R362). -/
def convertPixel (flags : Nat) (c : Chan) : Chan :=
  if !bit flags 1 && bit flags 2 then c.colours premul
  else if bit flags 1 && !bit flags 2 then c.colours unpremul else c

/-- BLEND (R363). -/
def blendPixel (flags ca : Nat) (src dst : Chan) : Chan :=
  let s := if bit flags 3 then { src with a := 4095 } else src
  let s := s.colours (if bit flags 1 then min else premul)
  let s := s.map (scaleAlpha ca)
  let d := dst.colours (if bit flags 2 then min else premul)
  let o (x y : Nat) : Nat := x + premul y (4095 - s.a)
  let r : Chan := { r := o s.r d.r, g := o s.g d.g, b := o s.b d.b, a := o s.a d.a }
  if bit flags 2 then r else r.colours unpremul

/-- A COLOUR field (R357). -/
def colourAt (c : Bytes) (o : Nat) : Chan := { a := leAt c o 2, r := leAt c (o + 2) 2, g := leAt c (o + 4) 2, b := leAt c (o + 6) 2 }

/-- A mask bit (R358). -/
def maskBit (s : State) (d : Desc) (n m : Nat) : Bool := bit (leValue (load s (pixelAddr d.addr d.stride64 0 n m) 1)) (n % 8)

/-- The pixel word as it stands in DRAM. -/
def rawPixel (s : State) (d : Desc) (n m : Nat) : Nat :=
  leValue (load s (pixelAddr d.addr d.stride64 (pixelBytes d.format) n m) (pixelBytes d.format))

/-- The bytes written to destination pixel (a, b) of the rectangle, none where it is left unwritten (R362). -/
def pixelResult (s : State) (c : Bytes) (a b : Nat) : Option Bytes :=
  let op := u8 c 0
  let d := cmdDst c
  let q := cmdSrc c
  let sx := leAt c 12 2 + a
  let sy := leAt c 14 2 + b
  let dx := leAt c 8 2 + a
  let dy := leAt c 10 2 + b
  let out (x : Chan) : Option Bytes := some (leBytes (pixelBytes d.format) (packPixel d.format x))
  let src : Chan := expandPixel q.format (rawPixel s q sx sy)
  if op = 1 then out (colourAt c 16)
  else if op = 2 then some (leBytes (pixelBytes d.format) (rawPixel s q sx sy))
  else if op = 3 then out (blendPixel (u8 c 1) (u8 c 2) src (expandPixel d.format (rawPixel s d dx dy)))
  else if op = 4 then out (convertPixel (u8 c 1) src)
  else if maskBit s q sx sy then out (colourAt c 16)
  else if bit (u8 c 1) 4 then none else out (colourAt c 24)

/-- A read for destination pixel (a, b) is poisoned (R371 code 8). -/
def pixelPoisoned (s : State) (c : Bytes) (a b : Nat) : Bool :=
  let op := u8 c 0
  let d := cmdDst c
  let q := cmdSrc c
  let at' (d : Desc) (n m : Nat) : Bool := poisoned s (pixelAddr d.addr d.stride64 (surfaceBytes d.format) n m) (max (surfaceBytes d.format) 1)
  (op ≠ 1 && at' q (leAt c 12 2 + a) (leAt c 14 2 + b)) || (op = 3 && at' d (leAt c 8 2 + a) (leAt c 10 2 + b))

/-! ### Execution (R365, R369, R371) -/

/-- The rows of the rectangle in the order in which they are written (R365). DESIGN CHOICE (log 92): top-down where the two
surfaces differ, which matters for a command cut short only. -/
def rowOrder (c : Bytes) : List Nat :=
  let r := dstRect c
  let rows := List.range r.h
  if (srcRect c).any fun q => q.same r && q.y < r.y then rows.reverse else rows

/-- The writes of row b of the rectangle: address and bytes. Affected pixels of a poisoned row are 0 in every channel. -/
def rowWrites (s : State) (c : Bytes) (b : Nat) : List (Nat × Bytes) :=
  let d := cmdDst c
  let r := dstRect c
  (List.range r.w).filterMap fun a =>
    let v := if pixelPoisoned s c a b then some (List.replicate (pixelBytes d.format) 0) else pixelResult s c a b
    v.map fun v => (pixelAddr d.addr d.stride64 r.bpp (r.x + a) (r.y + b), v)

/-- A row reads poisoned data. -/
def rowPoisoned (s : State) (c : Bytes) (b : Nat) : Bool := (List.range (dstRect c).w).any fun a => pixelPoisoned s c a b

/-- The rows up to and with the first poisoned one. -/
def rowsUntilPoison (s : State) (c : Bytes) : List Nat → List Nat
  | [] => []
  | b :: r => if rowPoisoned s c b then [b] else b :: rowsUntilPoison s c r

/-- The lines that a row of the rectangle reads (R362). -/
def rowLines (c : Bytes) (b : Nat) : List Nat :=
  let d := cmdDst c
  let q := cmdSrc c
  let row (d : Desc) (x y : Nat) : List Nat :=
    let r : Rect := { addr := d.addr, stride64 := d.stride64, bpp := surfaceBytes d.format, x, y, w := leAt c 4 2, h := 1 }
    linesOf r.first (r.stop - r.first)
  (if u8 c 0 = 1 then [] else row q (leAt c 12 2) (leAt c 14 2 + b)) ++ if u8 c 0 = 3 then row d (leAt c 8 2) (leAt c 10 2 + b) else []

/-- Execute at most `n` rows of a command: the state after, the rows written, and whether a read was poisoned. Every source
pixel is read before any is written (R365); reads of marked lines are recorded (R416). -/
def runCommand (s : State) (c : Bytes) (n : Nat) : State × Nat × Bool :=
  let rows := rowsUntilPoison s c ((rowOrder c).take n)
  let t := (rows.flatMap (rowWrites s c)).foldl (fun t w => store w.1 w.2 t) (noteMarks 4 (rows.flatMap (rowLines c)).eraseDups s)
  (t, rows.length, rows.any (rowPoisoned s c))

/-! ### Jobs (R356, R359, R370) -/

/-- The job entry's own fields are well formed (R356). -/
def bltEntryOk (e : Bytes) : Bool := leAt e 0 8 % 64 = 0 && 1 ≤ leAt e 8 2 && leAt e 8 2 ≤ 4096 && u8 e 10 ≤ 1 && zeroAt e 12 4 && zeroAt e 24 8

/-- COUNT of a job (R356). -/
def BltJob.count (j : BltJob) : Nat := leAt j.entry 8 2

/-- The completion of a job (R370): `fail` gives the error code, the index and the rows. -/
def completeJob (id : Nat) (j : BltJob) (fail : Option (Nat × Nat × Nat)) (s : State) : State :=
  let fence := u8 j.entry 11
  let code := fail.elim 0 (·.1)
  let ok := code = 0
  let t := if ok then advanceFence fence 1 s else s
  let b := s.blt
  let t := { t with blt := { b with
    jobs := Tbl.erase id b.jobs, waiting := if j.next = j.count then b.waiting else Tbl.erase j.queue b.waiting, jobCount := if completes s j.queue j.gen then wrapAdd 32 b.jobCount 1 else b.jobCount
    errorCount := if ok then b.errorCount else satAdd 16 b.errorCount 1, errorSeen := b.errorSeen || !ok } }
  let body := leBytes 2 (bltStatus code).code ++ leBytes 1 code ++ leBytes 1 (flagAt (ok && fence ≠ 0) 0) ++ leBytes 2 j.ended ++ leBytes 2 j.cancelled
    ++ leBytes 2 (fail.elim 0xFFFF (·.2.1)) ++ leBytes 2 (fail.elim 0 (·.2.2)) ++ leBytes 4 0 ++ leBytes 8 (leAt j.entry 16 8) ++ leBytes 8 0
  complete j.queue j.slot j.gen 0 body 1 t

/-- The engine may issue commands: PD19 on, Walec running, no Bench (R376). -/
def bltRuns (s : State) : Bool := domainOn s 19 && s.hif.walec == .running && s.tim.bench == .off

/-- The job of a queue that still has commands to issue. -/
def issuingJob (s : State) (q : Nat) : Option (Nat × BltJob) := List.find? (fun j : Nat × BltJob => j.2.queue = q && j.2.next < j.2.count) s.blt.jobs

/-- The next entry of a queue becomes a job. -/
def beginJob (q : Nat) (s : State) : State :=
  let c := queueOf s q
  match c.fetched with
  | [] => s
  | f :: r => setQueue q { c with fetched := r } { s with blt := { s.blt with
      nextCmd := s.blt.nextCmd + 1, jobs := Tbl.set s.blt.nextCmd { queue := q, entry := f.bytes, slot := f.slot, gen := f.gen } s.blt.jobs } }

/-- Command i of a job as the engine reads it (R356, R371 code 7). -/
def fetchCommand (s : State) (j : BltJob) (host : Option Bytes) : Option Bytes :=
  let a := leAt j.entry 0 8 + 64 * j.next
  if u8 j.entry 10 = 1 then (hostAnswer s j.queue host).map (padTo 64)
  else if !extentOk s 4 a 64 false || poisoned s a 64 then none else some (load s a 64)

/-- The rectangles that a command in flight reads (R95, R367). -/
def Flight.sources (f : Flight) : List Rect := f.src.toList ++ f.members

/-- The commands in flight that hold back a new one (R368). -/
def conflicts (s : State) (dst : Rect) (srcs : List Rect) : Bool :=
  s.blt.flight.any fun f => f.2.dst.overlaps dst || f.2.sources.any (·.overlaps dst) || srcs.any (·.overlaps f.2.dst)

/-- A command must wait (R368). -/
def mustWait (s : State) (c : Bytes) : Bool := 32 ≤ s.blt.flight.length || conflicts s (dstRect c) (srcRect c).toList

/-- A queue's next command waits under R368. -/
def bltWaits (s : State) (q : Nat) : Bool :=
  (issuingJob s q).isSome && (Tbl.find? q s.blt.waiting).any (mustWait s)

/-- The bound queues that have a command ready (R359): one that waits holds back the rest of its list. -/
def bltReady (s : State) : List Nat :=
  s.blt.bound.filter fun q => ((issuingJob s q).isSome || (queueOf s q).fetched ≠ []) && !bltWaits s q

/-- An older command in flight that SUPERSEDE cancels (R369). -/
def superseded (q : Nat) (dst : Rect) (src : Option Rect) (f : Flight) : Bool :=
  f.queue = q && f.group.isNone && f.cancelled.isNone && f.dst.inside dst && !src.any (·.overlaps f.dst)

/-- Cancel the commands that a command with SUPERSEDE meets: each stops at its next row boundary, which one is its progress, a
free value (R369; log 2). -/
def supersede (q : Nat) (c : Bytes) (s : State) : State :=
  let dst := dstRect c
  let src := srcRect c
  s.blt.flight.foldl (fun t f =>
    if superseded q dst src f.2 then
      drew { t with blt := { t.blt with cancelSeen := true, flight := Tbl.set f.1 { f.2 with cancelled := some (freeBelow t f.2.dst.h + 1) } t.blt.flight } }
    else t) s

/-- Issue a checked command, or let it wait (R368, R369). -/
def issueCommand (id : Nat) (j : BltJob) (c : Bytes) (s : State) : State :=
  let t := if bit (u8 c 1) 0 then supersede j.queue c s else s
  if mustWait t c then { t with blt := { t.blt with waiting := Tbl.set j.queue c t.blt.waiting } }
  else
    let f : Flight := { queue := j.queue, job := id, index := j.next, cmd := c, dst := dstRect c, src := srcRect c }
    { t with blt := { t.blt with
      waiting := Tbl.erase j.queue t.blt.waiting, nextCmd := t.blt.nextCmd + 1, flight := Tbl.set t.blt.nextCmd f t.blt.flight
      jobs := Tbl.set id { j with next := j.next + 1 } t.blt.jobs } }

/-- What the read of a command records in the DRAM controller (R416, R420). -/
def noteFetch (j : BltJob) (s : State) : State :=
  if u8 j.entry 10 = 1 then s else noteRead 4 (leAt j.entry 0 8 + 64 * j.next) 64 s

/-- The next command of a bound queue (R359, R371): the one that waits, or the next of the list. An entry whose own fields are
wrong ends with BAD_FIELD and no index (log 92). -/
def nextCommand (q : Nat) (host : Option Bytes) (s : State) : State :=
  let t := if (issuingJob s q).isNone then beginJob q s else s
  match issuingJob t q, List.find? (fun j : Nat × BltJob => j.2.queue = q && !bltEntryOk j.2.entry) t.blt.jobs with
  | _, some (id, j) => completeJob id j (some (3, 0xFFFF, 0)) t
  | none, none => t
  | some (id, j), none => match (Tbl.find? q t.blt.waiting).orElse fun _ => fetchCommand t j host with
    | none => completeJob id j (some (7, j.next, 0)) (noteFetch j t)
    | some c =>
      let e := cmdError t c
      if e ≠ 0 then completeJob id j (some (e, j.next, 0)) t else issueCommand id j c t

/-- The entry of a FLATTEN (R95, R97, R367): it writes the group's back buffer, whose place no software names (log 12), and reads
the members' buffers. -/
def flattenFlight (s : State) (g : Nat × Nat) : Flight :=
  let b := (((Tbl.find? g.1 s.cmp.groups).elim [] (·.backs)).find? (·.commit = g.2)).getD { commit := g.2, width := 0, height := 0, entries := [] }
  let whole (d : Desc) : Rect := { addr := d.addr, stride64 := d.stride64, bpp := surfaceBytes d.format, x := 0, y := 0, w := d.width, h := d.height }
  { queue := 16384, index := 0, cmd := [6], group := some g, members := b.entries.map fun e => whole e.2.front
    dst := { addr := 2 ^ 40 * (g.1 + 1), stride64 := (4 * b.width + 63) / 64, bpp := 4, x := 0, y := 0, w := b.width, h := b.height } }

/-- The first FLATTEN of the internal queue waits (R368). -/
def flattenWaits (s : State) : Bool :=
  s.blt.internal.head?.any fun g => 32 ≤ s.blt.flight.length || conflicts s (flattenFlight s g).dst (flattenFlight s g).members

/-- The internal queue has a command ready (R359). -/
def flattenReady (s : State) : Bool := !s.blt.internal.isEmpty && !flattenWaits s

/-- The next FLATTEN of the internal queue is issued, or waits (R95, R97, R368). -/
def nextFlatten (s : State) : State :=
  match s.blt.internal with
  | [] => s
  | g :: r =>
    if flattenWaits s then s
    else { s with blt := { s.blt with
      internal := r, nextCmd := s.blt.nextCmd + 1, flight := Tbl.set s.blt.nextCmd (flattenFlight s g) s.blt.flight } }

/-- BLT_COMMAND_ISSUE: the internal queue comes first, then the bound queues in turn (R359, R368, R376). -/
def execBltCommandIssue (q : Nat) (hostCmd : Option Bytes) (s : State) : Out :=
  if q = 16384 then done (ifEvent (bltRuns s) (nextFlatten s) s)
  else done (ifEvent (bltRuns s && !flattenReady s && inTurn s.blt.last (bltReady s) == some q)
    (nextCommand q hostCmd { s with blt := { s.blt with last := q } }) s)

/-- A command leaves the scoreboard and counts (R377). -/
def releaseFlight (id : Nat) (s : State) : State :=
  { s with blt := { s.blt with flight := Tbl.erase id s.blt.flight, commands := wrapAdd 32 s.blt.commands 1 } }

/-- A command of a job has ended, cancelled or not; the last one completes the job (R370). -/
def endOfCommand (f : Flight) (s : State) : State :=
  let s := if f.cancelled.isSome then { s with blt := { s.blt with cancelledCount := satAdd 16 s.blt.cancelledCount 1 } } else s
  match Tbl.find? f.job s.blt.jobs with
  | none => s
  | some j =>
    let j := { j with ended := j.ended + 1, cancelled := j.cancelled + (if f.cancelled.isSome then 1 else 0) }
    let t := { s with blt := { s.blt with jobs := Tbl.set f.job j s.blt.jobs } }
    if j.ended = j.count then completeJob f.job j none t else t

/-- A command of a job fails while it runs (R371). -/
def failOfCommand (f : Flight) (code rows : Nat) (s : State) : State :=
  match Tbl.find? f.job s.blt.jobs with
  | none => s
  | some j => completeJob f.job j (some (code, f.index, rows)) s

/-- The back buffer of a group for a commit takes its image (R95, R97). -/
def fillBack (g id : Nat) (s : State) : State :=
  let x := (Tbl.find? g s.cmp.groups).getD (newGroup [])
  match List.find? (fun b : GroupBack => b.commit = id) x.backs with
  | none => s
  | some b =>
    let es := b.entries.map (·.2)
    let im := groupImage s b.width b.height es
    let n := poisonedTexels s es
    let lines := (es.flatMap fun e => (List.range e.front.height).flatMap fun m =>
      linesOf (e.front.texelAddr 0 m) (e.front.width * pixelBytes e.front.format)).eraseDups
    let backs := x.backs.map fun c => if c.commit = id then { c with image := some im } else c
    let t := { s with cmp := { s.cmp with groups := Tbl.set g { x with backs } s.cmp.groups, poisonCount := satAdd 32 s.cmp.poisonCount n } }
    let t := noteMarks 4 lines t
    if n = 0 then t else log (hw 14) 14 0x37 n t

/-- The end of a command: its effect, then its job's account (R360, R369 to R371). -/
def endCommand (id : Nat) (f : Flight) (s : State) : State :=
  match f.group with
  | some g => releaseFlight id (fillBack g.1 g.2 s)
  | none =>
    let r := runCommand s f.cmd (f.cancelled.getD f.dst.h)
    let t := releaseFlight id r.1
    if r.2.2 then failOfCommand f 8 r.2.1 { t with blt := { t.blt with poisonSeen := true } } else endOfCommand f t

/-- BLT_COMMAND_END (R360). -/
def execBltCommandEnd (cmd : Nat) (s : State) : Out :=
  match Tbl.find? cmd s.blt.flight with
  | none => done s
  | some f => done (ifEvent (domainOn s 19) (endCommand cmd f s) s)

/-- A command in flight that fails with ENGINE_FAULT: the rows it had written are its progress, a free value (R371; log 2). A
FLATTEN is started again later (R97). -/
def faultCommand (s : State) (x : Nat × Flight) : State :=
  match x.2.group with
  | some _ => releaseFlight x.1 s
  | none =>
    let r := runCommand s x.2.cmd (freeBelow s (x.2.dst.h + 1))
    drew (failOfCommand x.2 9 r.2.1 (releaseFlight x.1 r.1))

/-- BLT_ENGINE_FAULT (R371). -/
def execBltEngineFault (s : State) : Out :=
  let t := s.blt.flight.foldl faultCommand s
  done (ifEvent (domainOn s 19) (log (hw 5) 5 0xA0 0 { t with blt := { t.blt with faultSeen := true, waiting := [] } }) s)

/-- The FLATTENs of a group that are neither done, queued nor in flight (R97). -/
def lostFlattens (s : State) (g : Nat) : List (Nat × Nat) :=
  ((Tbl.find? g s.cmp.groups).elim [] (·.backs)).filterMap fun b =>
    if b.image.isNone && !s.blt.internal.contains (g, b.commit) && !s.blt.flight.any (·.2.group == some (g, b.commit)) then some (g, b.commit) else none

/-- FLATTEN_RESTART (R97). -/
def execFlattenRestart (group : Nat) (s : State) : Out :=
  done (ifEvent (bltRuns s) { s with blt := { s.blt with internal := s.blt.internal ++ lostFlattens s group } } s)

end Sys2Proof.Machine
end

