-- ==== Sys2Proof/Machine/Decoder.lean ====
section
/-! DEFINITION. Video decoding (09_video_decoding.md): contexts and cores, the picture pool with the marks of R310 and the
output order of H.265 clause C.5.2, concealment, the display-output path with its colour conversion and alpha pairing, and
core faults. What the standard's decoding process computes from slice data comes with the command (log 6, 59). -/

namespace Sys2Proof.Machine

/-! ### Contexts and cores -/

/-- Context n. -/
def ctxOf (s : State) (n : Nat) : Ctx := Tbl.get s.dec.ctxs {} n
/-- Set context n. -/
def setCtx (n : Nat) (x : Ctx) (s : State) : State := { s with dec := { s.dec with ctxs := Tbl.set n x s.dec.ctxs } }
/-- Set core c. -/
def setCore (c : Nat) (x : DecCore) (s : State) : State := { s with dec := { s.dec with cores := Tbl.set c x s.dec.cores } }

/-- The fields of R302. -/
def Ctx.alpha (x : Ctx) : Nat := u8 x.desc 3
/-- MAX_WIDTH. -/
def Ctx.maxWidth (x : Ctx) : Nat := leAt x.desc 4 2
/-- MAX_HEIGHT. -/
def Ctx.maxHeight (x : Ctx) : Nat := leAt x.desc 6 2
/-- MAX_BIT_DEPTH. -/
def Ctx.maxDepth (x : Ctx) : Nat := u8 x.desc 8
/-- MATRIX is BT.2020. -/
def Ctx.bt2020 (x : Ctx) : Bool := u8 x.desc 10 == 1
/-- RANGE is full. -/
def Ctx.full (x : Ctx) : Bool := u8 x.desc 11 == 1
/-- TIME_BASE. -/
def Ctx.base (x : Ctx) : Nat := u8 x.desc 12
/-- FENCE_ID. -/
def Ctx.fence (x : Ctx) : Nat := u8 x.desc 13
/-- DECLARED_RATE. -/
def Ctx.rate (x : Ctx) : Nat := leAt x.desc 16 8
/-- PIC_WATCHDOG in ms, 0 selecting 100. -/
def Ctx.watchdogMs (x : Ctx) : Nat := if leAt x.desc 28 2 = 0 then 100 else leAt x.desc 28 2
/-- PAIR_WAIT in ms, 0xFFFF selecting 20. -/
def Ctx.pairMs (x : Ctx) : Nat := if leAt x.desc 30 2 = 65535 then 20 else leAt x.desc 30 2

/-- Luma samples decoded since one TB0 second before `t` (R308). -/
def usedLuma (t : Nat) (x : Ctx) : Nat := ((x.recent.filter fun u => t < u.1 + 1000000000).map (·.2)).sum

/-- RATE_EXCEEDED of a context (R308, R333). -/
def rateExceeded (s : State) (x : Ctx) : Bool := x.role != 0 && x.rate < usedLuma (tb0 s) x

/-- LOAD of a core (R334). -/
def coreLoad (s : State) (c : Nat) : Nat :=
  min 100 ((((coreOf s c).recent.filter fun u => tb0 s < u.1 + 1000000000).map (·.2)).sum * 100 / 4000000000)

/-- The state of a context that a core is not working on (R300, R333). -/
def Ctx.restState (x : Ctx) : CtxState := if x.rejected then .unsupported else .idle

/-- The entry at the head of a context's queue (R305). -/
def headEntry (s : State) (x : Ctx) : Option Fetched := x.queue.bind fun q => (queueOf s q).fetched.head?

/-! ### The picture pool (R309 to R311, R329) -/

/-- A buffer is free when all four marks are clear (R310). -/
def PoolBuffer.isFree (b : PoolBuffer) : Bool := !b.short && !b.long && !b.output && !b.held
/-- A reference mark is set. -/
def PoolBuffer.isRef (b : PoolBuffer) : Bool := b.short || b.long
/-- The POCs by which a reference picture set can name the buffer (R329). -/
def PoolBuffer.named (b : PoolBuffer) (l : List Int) : Bool := l.contains b.poc || b.aliases.any l.contains

/-- Change every buffer of the pool; a buffer whose marks are clear is free and leaves the list. -/
def Ctx.onPool (f : Nat → PoolBuffer → PoolBuffer) (x : Ctx) : Ctx :=
  { x with pool := (x.pool.map fun b => (b.1, f b.1 b.2)).filter fun b => !b.2.isFree }

/-- The first free buffer of a context (R309). -/
def Ctx.freeBuffer (x : Ctx) : Option Nat := (List.range x.poolAlloc).find? fun k => (Tbl.find? k x.pool).isNone

/-- Pictures that wait for clause C.5.2 to place them in the output order. -/
def Ctx.unreleased (x : Ctx) : List (Nat × PoolBuffer) := x.pool.filter fun b => b.2.output && !b.2.released

/-- The picture of least POC among those. -/
def Ctx.nextOut (x : Ctx) : Option (Nat × PoolBuffer) :=
  x.unreleased.foldl (fun m b => match m with
    | none => some b
    | some c => if b.2.poc < c.2.poc then some b else some c) none

/-- One step of "bumping": the picture of least POC takes its place in the output order. -/
def Ctx.bump (x : Ctx) : Ctx :=
  match x.nextOut with
  | none => x
  | some (k, b) => { x with pool := Tbl.set k { b with released := true, order := x.outputs } x.pool, outputs := x.outputs + 1 }

/-- Bump while the condition holds, at most n times. -/
def Ctx.bumpWhile (c : Ctx → Bool) : Nat → Ctx → Ctx
  | 0, x => x
  | n + 1, x => if c x && !x.unreleased.isEmpty then Ctx.bumpWhile c n x.bump else x

/-- Every waiting picture takes its place (R330). -/
def Ctx.releaseAll (x : Ctx) : Ctx := x.bumpWhile (fun _ => true) x.pool.length

/-- The reorder and latency conditions of clause C.5.2.2. -/
def overReorder (p : Sps) (x : Ctx) : Bool :=
  p.reorder < x.unreleased.length || p.latency.any fun l => x.unreleased.any fun b => l ≤ b.2.latency

/-- Bumping for want of a free buffer (R311): until a picture without a reference mark has been placed. -/
def Ctx.bumpForRoom (x : Ctx) : Ctx :=
  x.bumpWhile (fun y => y.freeBuffer.isNone && !(y.pool.any fun b => b.2.released && !b.2.isRef)) x.pool.length

/-- All reference marks are cleared (R330). -/
def Ctx.clearRefs (x : Ctx) : Ctx := x.onPool fun _ b => { b with short := false, long := false, aliases := [] }

/-- The stand-in of a missing reference: the marked picture of nearest POC, a tie going to the lower (R329). -/
def Ctx.standIn (x : Ctx) (m : Int) : Option (Nat × PoolBuffer) :=
  x.pool.foldl (fun best b =>
    if !b.2.isRef then best
    else match best with
      | none => some b
      | some c =>
        let d := (b.2.poc - m).natAbs
        let e := (c.2.poc - m).natAbs
        if d < e || (d = e && b.2.poc < c.2.poc) then some b else some c) none

/-- The references that the reference picture set names and the pool does not hold (R329). -/
def Ctx.missingRefs (x : Ctx) (names : List Int) : List Int :=
  names.filter fun m => !x.pool.any fun b => b.2.isRef && b.2.named [m]

/-- The stand-ins take their second names. -/
def Ctx.substitute (x : Ctx) (ms : List Int) : Ctx :=
  ms.foldl (fun y m => (x.standIn m).elim y fun k =>
    { y with pool := Tbl.set k.1 { Tbl.get y.pool {} k.1 with aliases := (Tbl.get y.pool {} k.1).aliases ++ [m] } y.pool }) x

/-- The reference picture set sets the marks (R310): a buffer that it names as long-term is LONG_TERM, one that it names keeps its
mark while either name is in it (R329), and one that it does not name loses its marks. -/
def Ctx.applyRps (short long : List Int) (x : Ctx) : Ctx :=
  x.onPool fun _ b =>
    if b.isRef then { b with long := b.named long || (b.long && b.named short), short := b.short && b.named short && !b.named long
                             aliases := b.aliases.filter fun a => short.contains a || long.contains a }
    else b

/-- The second names that a picture gave are taken back (R331). -/
def Ctx.unalias (ms : List Int) (x : Ctx) : Ctx := x.onPool fun _ b => { b with aliases := b.aliases.filter fun a => !ms.contains a }

/-! ### Starting a picture (R300, R305, R306, R308, R329, R330) -/

/-- A sequence parameter set that R300 accepts in a context. -/
def spsOk (x : Ctx) (p : Sps) : Bool :=
  p.profile ≤ 3 && p.inLevel && !p.fieldSeq && p.chroma == (if p.profile ≤ 1 then 1 else 0) &&
    8 ≤ p.bitLuma && 8 ≤ p.bitChroma && max p.bitLuma p.bitChroma ≤ (if p.profile = 1 then 10 else if p.profile = 3 then 12 else 8) &&
    16 ≤ p.width && p.width ≤ 8192 && 16 ≤ p.height && p.height ≤ 8192 && p.width * p.height ≤ 35651584 &&
    p.width ≤ x.maxWidth && p.height ≤ x.maxHeight && max p.bitLuma p.bitChroma ≤ x.maxDepth && p.buffers + 2 ≤ x.poolAlloc

/-- nal_unit_type of an IDR picture. -/
def isIdr (type : Nat) : Bool := 19 ≤ type && type ≤ 20
/-- nal_unit_type of a CRA picture. -/
def isCra (type : Nat) : Bool := type == 21
/-- nal_unit_type of a BLA picture. -/
def isBla (type : Nat) : Bool := 16 ≤ type && type ≤ 18
/-- nal_unit_type of a RASL picture. -/
def isRasl (type : Nat) : Bool := 8 ≤ type && type ≤ 9
/-- nal_unit_type of an IRAP picture. -/
def isIrap (type : Nat) : Bool := isIdr type || isCra type || isBla type

/-- The picture starts a coded video sequence with the process of a first picture: its references are cleared. -/
def startsSequence (x : Ctx) (type : Nat) : Bool := isIdr type || isBla type || (isCra type && x.first)

/-- The entry cannot be read: its extent leaves the map or a protected range, or LEN is out of range (R305, R332). -/
def entryUnreadable (s : State) (e : Bytes) : Bool :=
  leAt e 8 4 = 0 || 16777216 < leAt e 8 4 || !extentOk s 2 (leAt e 0 8) (leAt e 8 4) false

/-- The access unit of an entry, read with the parameter sets in use; nothing of one that cannot be read. -/
def unitOf (s : State) (x : Ctx) (e : Bytes) : Unit' :=
  if entryUnreadable s e then { sps := x.sps, pps := x.pps, syntaxError := true } else readUnit s x.sps x.pps (leAt e 0 8) (leAt e 8 4)

/-- STATUS of the completion (R307): no decodable slice, a rejected sequence parameter set, or a picture. -/
def pictureStatus (x : Ctx) (u : Unit') : Status :=
  match u.slices.head? with
  | none => .discarded
  | some z =>
    firstStatus [(!spsOk x z.sps, .unsupported), (x.rejected && !(u.brings.contains z.spsId && isIrap z.type), .unsupported),
      (isRasl z.type && x.dropRasl, .discarded)]

/-- DISCONTINUITY acts as an end of sequence before the entry (R330). -/
def Ctx.discontinue (x : Ctx) : Ctx := { x.releaseAll.clearRefs with first := true, dropRasl := false }

/-- The pool as the picture's reference picture set and clause C.5.2.2 leave it before decoding, and the references missing. -/
def Ctx.prepare (x : Ctx) (type : Nat) (p : Sps) (au : AccessUnit) : Ctx × List Int :=
  let starts := startsSequence x type
  let y := if starts then x.releaseAll.clearRefs else x
  let ms := y.missingRefs (au.refShort ++ au.refLong)
  let y := (y.substitute ms).applyRps au.refShort au.refLong
  let y := y.bumpWhile (fun z => overReorder p z || p.buffers ≤ (z.pool.filter fun b => b.2.isRef || (b.2.output && !b.2.released)).length) y.pool.length
  ({ y with first := false, dropRasl := if starts then !isIdr type else y.dropRasl && !isCra type }, ms)

/-- An entry taken from the queue. -/
def decEntry (f : Fetched) : DecEntry :=
  { addr := leAt f.bytes 0 8, len := leAt f.bytes 8 4, flags := u8 f.bytes 12, pts := leAt f.bytes 16 8, user := leAt f.bytes 24 8
    slot := f.slot, gen := f.gen }

/-- The decoded picture with the size, depths and window of its sequence parameter set. -/
def pictureFrom (p : Sps) (au : AccessUnit) : Picture :=
  { width := p.width, height := p.height, bitDepth := p.bitLuma, chromaDepth := p.bitChroma, luma := au.luma, cb := au.cb, cr := au.cr
    cropLeft := p.cropLeft, cropRight := p.cropRight, cropTop := p.cropTop, cropBottom := p.cropBottom }

/-- What the read of an entry's bytes records in the DRAM controller (R416, R420). -/
def noteEntryRead (e : Bytes) (s : State) : State :=
  if leAt e 8 4 = 0 || 16777216 < leAt e 8 4 then s else noteRead 2 (leAt e 0 8) (leAt e 8 4) s

/-- A core starts the entry of context n. -/
def startPicture (c n : Nat) (f : Fetched) (au : AccessUnit) (s : State) : State :=
  let x₀ := ctxOf s n
  let x := if bit (u8 f.bytes 12) 0 then x₀.discontinue else x₀
  let u := unitOf s x f.bytes
  let st := pictureStatus x u
  let z := u.slices.head?
  let p := z.elim {} (·.sps)
  let pic := pictureFrom p au
  let (y, ms) := if st = .ok then ({ x with rejected := false } : Ctx).prepare (z.elim 0 (·.type)) p au
    else ({ x with rejected := x.rejected || st = .unsupported }, [])
  let d : DecPicture :=
    { entry := decEntry f, au, sps := p, pic, start := tb0 s, status := st.code, standins := ms.length, substituted := ms
      missing := badCtus p.ctus u.slices, hashSeen := !u.hashes.isEmpty, hashBad := u.hashes.any fun h => !hashOk pic h
      syntaxError := u.syntaxError || au.syntaxError, extra := u.extra, before := (x₀.first, x₀.dropRasl, x₀.rejected) }
  let q := x.queue.getD 0
  let t := setQueue q { queueOf s q with fetched := (queueOf s q).fetched.drop 1 } (noteEntryRead f.bytes s)
  setCore c { coreOf t c with state := .running, ctx := some n, last := n } (setCtx n { y with state := if y.rejected then .unsupported else .decoding, current := some d, sps := u.sps, pps := u.pps } t)

/-- A context of a core with a submitted entry; whether it has room is a second matter (R308, R311). -/
def wantsCore (s : State) (c n : Nat) : Bool :=
  let x := ctxOf s n
  x.role != 0 && x.core == c && x.state != .moving && x.current.isNone && (headEntry s x).isSome

/-- Contexts without a free buffer bump, and wait when that gives none (R311). -/
def makeRoom (c : Nat) (s : State) : State :=
  (List.range 64).foldl (fun t n =>
    let x := ctxOf t n
    if wantsCore t c n && x.freeBuffer.isNone then
      let y := x.bumpForRoom
      setCtx n { y with state := if y.rejected then .unsupported else .waitBuffer } t
    else if wantsCore t c n && x.state == .waitBuffer then setCtx n { x with state := x.restState } t
    else t) s

/-- The next context in turn, one within its declared rate before one beyond it (R308). -/
def nextContext (s : State) (c : Nat) : Option Nat :=
  let turn := (List.range 64).map fun k => ((coreOf s c).last + 1 + k) % 64
  let ready := turn.filter fun n => wantsCore s c n && (ctxOf s n).freeBuffer.isSome
  match ready.find? fun n => !rateExceeded s (ctxOf s n) with
  | some n => some n
  | none => ready.head?

/-- Decoding is stopped while Walec restarts and in Bench (R32, R332). -/
def decodes (s : State) : Bool := s.hif.walec == .running && s.tim.bench == .off

/-- DECODE_PICTURE_START (R308). -/
def execDecodePictureStart (core : Nat) (au : AccessUnit) (s : State) : Out :=
  let t := makeRoom core s
  let go := match nextContext t core with
    | none => t
    | some n => (headEntry t (ctxOf t n)).elim t fun f => startPicture core n f au t
  done (ifEvent (decodes s && domainOn s (16 + core) && (coreOf s core).state == .idle) go s)

/-! ### The end of a picture (R307, R324 to R328) -/

/-- The picture of a core. -/
def pictureOf (s : State) (c : Nat) : Option (Nat × DecPicture) :=
  (coreOf s c).ctx.bind fun n => (ctxOf s n).current.map fun p => (n, p)

/-- Change the picture of a core. -/
def setPicture (n : Nat) (p : DecPicture) (s : State) : State := setCtx n { ctxOf s n with current := some p } s

/-- ROW_BUDGET (R325): the CTUs of the row that were not decoded count as missing. -/
def execRowBudget (core : Nat) (ctus : List Nat) (s : State) : Out :=
  match pictureOf s core with
  | none => done s
  | some (n, p) => done (setPicture n { p with missing := p.missing ++ ctus, rowBudget := true } s)

/-- The DISPLAY_HELD picture whose output came last (R328). -/
def Ctx.lastHeld (x : Ctx) : Option (Nat × PoolBuffer) :=
  (x.pool.filter (·.2.held)).foldl (fun m b => match m with
    | none => some b
    | some c => if c.2.order < b.2.order then some b else some c) none

/-- CTU of sample (a, b) of a plane whose CTUs are w × h samples in a picture of n CTU columns. -/
def ctuOf (n size a b : Nat) : Nat := b / size * n + a / size

/-- Fill the missing CTUs of one plane from the plane `old`, or with the value `grey`. -/
def fillPlane (cols size width grey : Nat) (missing : List Nat) (old : Option (List Nat)) (plane : List Nat) : List Nat :=
  if missing = [] then plane
  else (List.range plane.length).map fun i =>
    if missing.contains (ctuOf cols size (i % width) (i / width)) then old.elim grey fun o => o.getD i grey else plane.getD i grey

/-- Concealment (R328). -/
def concealed (p : Picture) (ctb : Nat) (missing : List Nat) (held : Option Picture) : Picture :=
  let cols := (p.width + ctb - 1) / ctb
  let old := held.filter fun h => h.width == p.width && h.height == p.height
  let chroma (get : Picture → List Nat) := fillPlane cols (ctb / 2) (p.width / 2) (2 ^ (p.chromaDepth - 1)) missing (old.map get) (get p)
  { p with luma := fillPlane cols ctb p.width (2 ^ (p.bitDepth - 1)) missing (old.map (·.luma)) p.luma, cb := chroma (·.cb), cr := chroma (·.cr) }

/-- A completion (R307). -/
def decBody (n : Nat) (p : DecPicture) (flags concealed : Nat) : Bytes :=
  let poc := if p.status = 0 then unsigned 32 p.au.poc else 0
  leBytes 2 p.status ++ leBytes 1 n ++ leBytes 1 flags ++ leBytes 4 poc ++ leBytes 8 p.entry.pts ++ leBytes 8 p.entry.user
    ++ leBytes 4 concealed ++ leBytes 1 (min p.standins 255) ++ leBytes 3 0

/-- The CTUs that count as missing (R324 to R327, R332). -/
def DecPicture.allMissing (p : DecPicture) : List Nat := (p.au.missingCtus ++ p.au.blockedCtus ++ p.au.refPoison ++ p.missing).eraseDups

/-- FLAGS of a completion (R307). -/
def DecPicture.flags (p : DecPicture) : Nat :=
  let ok := p.status = 0
  flagAt (ok && !p.allMissing.isEmpty) 0 + flagAt (0 < p.standins) 1 + flagAt p.stopped 2 + flagAt p.rowBudget 3
    + flagAt (ok && p.hashSeen) 4 + flagAt (ok && p.hashBad) 5 + flagAt p.syntaxError 6 + flagAt (ok && !p.au.blockedCtus.isEmpty) 7

/-- The decoded picture takes its buffer with its marks (R310), and the additional bumping of clause C.5.2.3 follows. -/
def Ctx.keepPicture (p : DecPicture) (x : Ctx) : Ctx :=
  let pic := concealed p.pic p.sps.ctb p.allMissing (x.lastHeld.map (·.2.pic))
  let b : PoolBuffer := { short := p.au.isRef, output := p.au.outputFlag, pts := p.entry.pts, poc := p.au.poc, pic := pic }
  let x := x.onPool fun _ b => if b.output && !b.released && p.au.outputFlag then { b with latency := b.latency + 1 } else b
  let x := match x.freeBuffer with
    | some k => if b.isFree then x else { x with pool := Tbl.set k b x.pool }
    | none => x
  x.bumpWhile (overReorder p.sps) x.pool.length

/-- The context at the end of its picture. -/
def Ctx.endPicture (now : Nat) (p : DecPicture) (x : Ctx) : Ctx :=
  let ok := p.status = 0
  let concealed := ok && !p.allMissing.isEmpty
  let x := if ok then x.keepPicture p else x
  let x := if bit p.entry.flags 1 then x.releaseAll else x
  { x with
    current := none
    state := x.restState
    syntaxSeen := x.syntaxSeen || p.syntaxError || p.extra, writeBlocked := x.writeBlocked || bit p.flags 7
    conceal := x.conceal || concealed, standin := x.standin || 0 < p.standins
    concealedPics := satAdd 16 x.concealedPics (if concealed then 1 else 0), standins := satAdd 8 x.standins p.standins
    recent := if ok then (x.recent.filter fun u => now < u.1 + 1000000000) ++ [(now, p.pic.width * p.pic.height)] else x.recent }

/-- The decoder finishes with an entry (R307). -/
def finishPicture (c n : Nat) (p : DecPicture) (s : State) : State :=
  let ok := p.status = 0
  let t := setCtx n ((ctxOf s n).endPicture (tb0 s) p) s
  let k := coreOf t c
  let used := (k.recent.filter fun u => tb0 t < u.1 + 1000000000) ++ (if ok then [(tb0 t, p.pic.width * p.pic.height)] else [])
  let t := setCore c { k with state := .idle, ctx := none, pictures := wrapAdd 32 k.pictures (if ok then 1 else 0), recent := used } t
  match (ctxOf t n).queue with
  | none => t
  | some q => complete q p.entry.slot p.entry.gen 0 (decBody n p p.flags (if ok then p.allMissing.length else 0)) 1 t

/-- PICTURE_COMPLETE (R307). -/
def execPictureComplete (core : Nat) (s : State) : Out :=
  match pictureOf s core with
  | none => done s
  | some (n, p) => done (finishPicture core n p s)

/-- PIC_WATCHDOG: the picture is stopped, every CTU not yet decoded counts as missing, and it is finished under R328 (R326). -/
def execPicWatchdog (core : Nat) (ctus : List Nat) (s : State) : Out :=
  match pictureOf s core with
  | none => done s
  | some (n, p) =>
    let t := advanceTo0 (p.start + 1000000 * (ctxOf s n).watchdogMs) s
    done (finishPicture core n { p with missing := p.missing ++ ctus, stopped := true } (setCtx n { ctxOf t n with watchdog := true } t))

/-! ### Core faults (R331) -/

/-- A core can take work. -/
def coreUsable (s : State) (c : Nat) : Bool := (coreOf s c).state == .idle || (coreOf s c).state == .running

/-- The abandoned picture's entry is not completed and is taken again from its start, with the context as it was before (R331). -/
def abandonPicture (n : Nat) (s : State) : State :=
  let x := ctxOf s n
  match x.current, x.queue with
  | some p, some q =>
    let e := leBytes 8 p.entry.addr ++ leBytes 4 p.entry.len ++ leBytes 1 p.entry.flags ++ leBytes 3 0 ++ leBytes 8 p.entry.pts ++ leBytes 8 p.entry.user
    let c := queueOf s q
    setQueue q { c with fetched := { bytes := e, slot := p.entry.slot, gen := p.entry.gen } :: c.fetched } 
      (setCtx n { x.unalias p.substituted with current := none, first := p.before.1, dropRasl := p.before.2.1, rejected := p.before.2.2 } s)
  | _, _ => s

/-- Walec switches a core on that is wanted and off, but not while Bench keeps the domain off (R20, R214, R304, R331). -/
def powerCore (c : Nat) (s : State) : State :=
  if coreWanted s c && s.tim.bench == .off && !staysOn s (16 + c) then requestDomain true (16 + c) s else s

/-- A core that has passed its self-test, or is unretired, can work again (R612, R613). -/
def readyCore (c : Nat) (s : State) : State :=
  powerCore c (setCore c { coreOf s c with state := if domainOn s (16 + c) then .idle else .off } s)

/-- A core is in its self-test: Walec has switched its domain off after the fault (R612). -/
def coreInTest (s : State) (c : Nat) : Bool := s.spr.toTest.contains (16 + c) && domainOf s (16 + c) == .off

/-- A core in its self-test takes the contexts of one that faults, and the test is abandoned (R624). -/
def abandonTest (c : Nat) (s : State) : State :=
  if coreInTest s c then
    setCore c { coreOf s c with state := .off } { s with spr := { s.spr with toTest := s.spr.toTest.filter (· ≠ 16 + c) } }
  else s

/-- A core is faulted: its contexts wait in MOVING, Walec powers the other core when there are any, and a fault of the last
working core asserts FAULT# (R20, R331, R332). -/
def faultCore (c : Nat) (s : State) : State :=
  let other := 1 - c
  let t := match (coreOf s c).ctx with
    | none => s
    | some n => abandonPicture n s
  let t := setCore c { coreOf t c with state := .faulted, faultSeen := true, ctx := none } t
  let t := (List.range 64).foldl (fun t n => if (ctxOf t n).role ≠ 0 && (ctxOf t n).core = c then setCtx n { ctxOf t n with state := .moving } t else t) t
  let t := log (hw 3) 3 0xA0 c (exhaust 3 (noteFault (16 + c) (requestDomain false (16 + c) t)))
  let t := abandonTest other t
  if !coreSound t other then assertFault t
  else powerCore other { t with spr := { t.spr with spareUsedSeen := true } }

/-- CORE_FAULT (R331). -/
def execCoreFault (core : Nat) (s : State) : Out := done (ifEvent (coreUsable s core && domainOn s (16 + core)) (faultCore core s) s)

/-- CORE_PICTURE_TIMEOUT (R331). -/
def execCorePictureTimeout (core : Nat) (s : State) : Out :=
  match pictureOf s core with
  | none => done s
  | some (n, p) => done (faultCore core (advanceTo0 (p.start + 2000000 * (ctxOf s n).watchdogMs) s))

/-- CONTEXT_MOVE_COMPLETE (R331): the contexts of a core leave MOVING for a core that works. -/
def execContextMoveComplete (core : Nat) (s : State) : Out :=
  match [1 - core, core].find? fun c => coreUsable s c && domainOn s (16 + c) with
  | none => done s
  | some c =>
    done ((List.range 64).foldl (fun t n =>
      let x := ctxOf t n
      if x.state == .moving && x.core == core then setCtx n { x with state := x.restState, core := c } t else t) s)

/-! ### Output of pictures (R310, R313, R314, R322) -/

/-- Buffers of context n that the display-output path reads: its own conversion, or the alpha partner of another's. -/
def beingRead (s : State) (n k : Nat) : Bool :=
  s.dec.ctxs.any fun x => x.2.conversion.any fun v =>
    (x.1 = n && (Tbl.find? k x.2.pool).any fun b => b.order = v.order && b.released) || (x.2.alpha = n && v.partner = some k && x.2.role = 1)

/-- DISPLAY_HELD stays on the most recent output and on what the path still reads (R310). -/
def pruneHeld (n : Nat) (s : State) : State :=
  let x := ctxOf s n
  let last := x.lastHeld.map (·.1)
  setCtx n (x.onPool fun k b => { b with held := b.held && (last = some k || beingRead s n k) }) s

/-- A picture is output: OUTPUT_PENDING gives way to DISPLAY_HELD (R310). -/
def outputPicture (n k : Nat) (s : State) : State :=
  let x := ctxOf s n
  pruneHeld n (setCtx n { x with pool := Tbl.set k { Tbl.get x.pool {} k with output := false, held := true } x.pool } s)

/-- The OUTPUT_PENDING pictures of a context in output order. -/
def Ctx.waiting (x : Ctx) : List (Nat × PoolBuffer) :=
  (x.pool.filter fun b => b.2.output && b.2.released).foldl
    (fun l b => (l.filter fun c => c.2.order < b.2.order) ++ [b] ++ l.filter fun c => b.2.order ≤ c.2.order) []

/-- A picture is output without conversion and counted (R313 to R315). -/
def skipPicture (n k : Nat) (s : State) : State :=
  let t := outputPicture n k s
  setCtx n { ctxOf t n with skipped := satAdd 8 (ctxOf t n).skipped 1, lastConverted := (Tbl.find? k (ctxOf s n).pool).map (·.pts) } t

/-- The pictures that R314 discards: those whose successor's PTS is at or before the tick time `u`. -/
def stalePictures (u : Nat) : List (Nat × PoolBuffer) → List Nat
  | a :: b :: r => (if atOrAfter u b.2.pts then [a.1] else []) ++ stalePictures u (b :: r)
  | _ => []

/-- The alpha context outputs its pictures up to PTS `p`: the last of them is the one that a colour picture pairs with (R322). -/
def pullAlpha (a p : Nat) (s : State) : State :=
  ((ctxOf s a).waiting.filter fun b => atOrAfter p b.2.pts).foldl (fun t b => outputPicture a b.1 t) s

/-- The pair of a colour context (R321). -/
def pairOf (s : State) (n : Nat) : Option Nat :=
  let x := ctxOf s n
  if x.role = 1 && x.alpha < 64 && (ctxOf s x.alpha).role = 2 then some x.alpha else none

/-- The colour context of an ALPHA context (R321). -/
def colourOf (s : State) (a : Nat) : Option Nat := (List.range 64).find? fun n => pairOf s n == some a

/-- A waiting conversion starts once its alpha picture has been output (R322). -/
def tryPair (n : Nat) (s : State) : State :=
  match (ctxOf s n).conversion, pairOf s n with
  | some v, some a =>
    if v.running then s
    else
      let t := pullAlpha a v.pts s
      match (ctxOf t a).lastHeld with
      | some (k, b) => if b.pts = v.pts then setCtx n { ctxOf t n with conversion := some { v with running := true, partner := some k } } t else t
      | none => t
  | some v, none => setCtx n { ctxOf s n with conversion := some { v with running := true } } s
  | none, _ => s

/-- BACK of the sink suits the picture (R315). -/
def suits (d : Desc) (p : Picture) : Bool :=
  (d.format == 5 || d.format == 7) && d.width + p.cropLeft + p.cropRight == p.width && d.height + p.cropTop + p.cropBottom == p.height

/-- The alpha pictures that an earliest picture without a conversion would have used are output without use (R313, R315, R322). -/
def skipPair (n k : Nat) (b : PoolBuffer) (s : State) : State :=
  let t := skipPicture n k s
  (pairOf t n).elim t fun a => pullAlpha a b.pts t

/-- The earliest picture goes to the sink of its context (R313 to R315). -/
def beginConversion (n k : Nat) (b : PoolBuffer) (s : State) : State :=
  let x := ctxOf s n
  match sinkOf s n with
  | none => skipPair n k b (setCtx n { x with noSink := true } s)
  | some l =>
    if (Tbl.find? l s.cmp.backReady).isSome then setCtx n { x with noSink := false } s
    else if suits (activeLayer s l).back b.pic then
      tryPair n (setCtx n { x with noSink := false, conversion := some { order := b.order, pts := b.pts, layer := l, selected := tb0 s } } s)
    else skipPair n k b (setCtx n { x with noSink := false, sizeMismatch := true } s)

/-- The waiting pictures of an ALPHA context that are output without use: all of an unpaired one (R332), and of a paired one those
below a colour picture already converted (R322). -/
def uselessAlpha (s : State) (a : Nat) : List (Nat × PoolBuffer) :=
  match colourOf s a with
  | none => (ctxOf s a).waiting
  | some n => match (ctxOf s n).lastConverted with
    | none => []
    | some p => (ctxOf s a).waiting.filter fun b => b.2.pts ≠ p && atOrAfter p b.2.pts

/-- The display-output path takes the next picture of a COLOUR context (R314), or outputs those of an ALPHA context that are of no
use. -/
def displayNext (n : Nat) (s : State) : State :=
  let x := ctxOf s n
  if x.role = 2 then (uselessAlpha s n).foldl (fun t b => outputPicture n b.1 t) s
  else if x.role ≠ 1 then s
  else if x.conversion.isSome then tryPair n s
  else
    let t := (stalePictures (convert s 3 x.base (s.tim.nextTick / 65536)) x.waiting).foldl (fun t k => skipPicture n k t) s
    match (ctxOf t n).waiting.head? with
    | none => t
    | some (k, b) => beginConversion n k b t

/-- CONVERSION_START (R314). No conversion starts while Walec restarts or in Bench (R332). -/
def execConversionStart (ctx : Nat) (s : State) : Out := done (ifEvent (decodes s) (displayNext ctx s) s)

/-- PAIR_WAIT_EXPIRY (R322): an alpha picture with the PTS that has come is used; otherwise the most recent output one below it, or
alpha 0, and a miss counts. -/
def expirePair (n a : Nat) (v : Conversion) (s : State) : State :=
  let t := pullAlpha a v.pts (advanceTo0 (v.selected + 1000000 * (ctxOf s n).pairMs) s)
  let held := (ctxOf t a).lastHeld
  let hit := held.any fun b => b.2.pts = v.pts
  let k := (held.filter fun b => hit || atOrAfter v.pts b.2.pts).map (·.1)
  let x := ctxOf t n
  setCtx n { x with pairMiss := x.pairMiss || !hit, misses := x.misses + (if hit then 0 else 1), conversion := some { v with running := true, partner := k } } t

/-- PAIR_WAIT_EXPIRY (R322). -/
def execPairWaitExpiry (ctx : Nat) (s : State) : Out :=
  match (ctxOf s ctx).conversion, pairOf s ctx with
  | some v, some a => done (ifEvent (decodes s && !v.running) (expirePair ctx a v s) s)
  | _, _ => done s

/-! ### Colour conversion (R316 to R318, R323) -/

/-- A sample of `d` bits as 12 bits: by replication with RANGE full, shifted with RANGE limited (R316). -/
def expandSample (full : Bool) (d v : Nat) : Nat := if full then v * 2 ^ (12 - d) + v / 2 ^ (2 * d - 12) else v * 2 ^ (12 - d)

/-- The coefficients KY, KRV, KGU, KGV, KBU of R317. -/
def coefficients (bt2020 full : Bool) : Int × Int × Int × Int × Int :=
  match bt2020, full with
  | false, true => (4096, 6450, 767, 1917, 7601)
  | false, false => (4787, 7370, 877, 2191, 8684)
  | true, true => (4096, 6040, 674, 2340, 7706)
  | true, false => (4787, 6901, 770, 2674, 8805)

/-- A 12-bit value after the arithmetic shift of R317. -/
def fixed12 (v : Int) : Nat := (clampInt (Int.fdiv (v + 2048) 4096) 0 4095).toNat

/-- The conversion of R317. -/
def toRgb (bt2020 full : Bool) (y cb cr : Nat) : Nat × Nat × Nat :=
  let (ky, krv, kgu, kgv, kbu) := coefficients bt2020 full
  let yd : Int := y - (if full then 0 else 256)
  let u : Int := cb - 2048
  let v : Int := cr - 2048
  (fixed12 (ky * yd + krv * v), fixed12 (ky * yd - kgu * u - kgv * v), fixed12 (ky * yd + kbu * u))

/-- The alpha sample of R323. -/
def alphaSample (full : Bool) (d v : Nat) : Nat :=
  let a := expandSample full d v
  if full then a else fixed12 (((a : Int) - 256) * 4787)

/-- Sample i of a plane. -/
def lumaAt (p : Picture) (a b : Nat) : Nat := p.luma.getD (b * p.width + a) 0

/-- The pixel of the cropped picture at (a, b), with the alpha value given (R316 to R318). -/
def convertPixelAt (x : Ctx) (p : Picture) (a b alpha : Nat) : Chan :=
  let m := a + p.cropLeft
  let n := b + p.cropTop
  let c (plane : List Nat) : Nat := if p.cb = [] then 2048 else expandSample x.full p.chromaDepth (plane.getD (n / 2 * (p.width / 2) + m / 2) 0)
  let (r, g, bl) := toRgb x.bt2020 x.full (expandSample x.full p.bitDepth (lumaAt p m n)) (c p.cb) (c p.cr)
  { r := r, g := g, b := bl, a := alpha }

/-- Where a conversion takes its alpha from: no partner context, no picture, a picture of another size, or a picture with
the RANGE of its context (R318, R322, R323). -/
inductive AlphaSource where
  | opaque12
  | nothing
  | plane (full : Bool) (p : Picture)

/-- The source of a conversion's alpha. -/
def alphaSource (s : State) (n : Nat) (v : Conversion) : AlphaSource :=
  match pairOf s n, v.partner with
  | none, _ => .opaque12
  | some _, none => .nothing
  | some a, some k => .plane (ctxOf s a).full (Tbl.get (ctxOf s a).pool {} k).pic

/-- The cropped sizes of colour and alpha picture are equal (R323). -/
def sameSize (p q : Picture) : Bool :=
  p.width - p.cropLeft - p.cropRight == q.width - q.cropLeft - q.cropRight &&
    p.height - p.cropTop - p.cropBottom == q.height - q.cropTop - q.cropBottom

/-- The alpha value at (a, b) of the cropped picture `p`. -/
def AlphaSource.at' (z : AlphaSource) (p : Picture) (a b : Nat) : Nat :=
  match z with
  | .opaque12 => 4095
  | .nothing => 0
  | .plane full q => if sameSize p q then alphaSample full q.bitDepth (lumaAt q (a + q.cropLeft) (b + q.cropTop)) else 4095

/-- The alpha picture's size differs (R323). -/
def AlphaSource.differs (z : AlphaSource) (p : Picture) : Bool :=
  match z with
  | .plane _ q => !sameSize p q
  | _ => false

/-- One row of the converted picture. -/
def convertedRow (x : Ctx) (z : AlphaSource) (p : Picture) (d : Desc) (b : Nat) : Bytes :=
  (List.range d.width).flatMap fun a => leBytes 4 (packPixel d.format (convertPixelAt x p a b (z.at' p a b)))

/-- The conversion is written into BACK; a write that is refused is not made (R327, R420). -/
def writeBack (x : Ctx) (z : AlphaSource) (p : Picture) (d : Desc) (s : State) : State × Bool :=
  (List.range d.height).foldl (fun t b =>
    let a := d.addr + 64 * d.stride64 * b
    (memWrite 2 a (convertedRow x z p d b) t.1, t.2 || (accessError t.1 2 a (4 * d.width) true).isSome)) (s, false)

/-- CONVERSION_COMPLETE (R320): BACK holds a complete picture, the fence advances, and the picture is output. -/
def finishConversion (n : Nat) (v : Conversion) (k : Nat) (b : PoolBuffer) (s : State) : State :=
  let x := ctxOf s n
  let z := alphaSource s n v
  let (t, blocked) := writeBack x z b.pic (activeLayer s v.layer).back s
  let t := { t with cmp := { t.cmp with backReady := Tbl.set v.layer (v.pts, x.base) t.cmp.backReady } }
  let t := setCtx n { x with conversion := none, lastConverted := some v.pts, writeBlocked := x.writeBlocked || blocked
                             sizeMismatch := x.sizeMismatch || z.differs b.pic } t
  let t := outputPicture n k (advanceFence x.fence 1 t)
  (pairOf t n).elim t fun a => pruneHeld a t

/-- CONVERSION_COMPLETE (R320). A conversion in progress completes while Walec restarts (R332). -/
def execConversionComplete (ctx : Nat) (s : State) : Out :=
  match (ctxOf s ctx).conversion with
  | none => done s
  | some v =>
    match (ctxOf s ctx).waiting.find? fun b => b.2.order = v.order with
    | none => done s
    | some (k, b) => done (ifEvent v.running (finishConversion ctx v k b s) s)

end Sys2Proof.Machine
end

