-- ==== Sys2Proof/Machine/Encoder.lean ====
section
/-! DEFINITION. The witness encoder (10_witness_encoder.md): taking pictures, gradual refresh, rate control, delivery by RTP
or into the output ring, and faults. What coding a picture produces comes with the command (log 6). -/

namespace Sys2Proof.Machine

/-! ### Source and conversion (R335 to R337) -/

/-- Luma of a composed value (R336). -/
def witnessY (r g b : Nat) : Int := clampInt (Int.fdiv (745 * r + 2507 * g + 253 * b + 1081344) 65536) 16 235
/-- The mean of four values (R336). -/
def mean4 (a b c d : Nat) : Nat := (a + b + c + d + 2) / 4
/-- Cb of a mean value (R336). -/
def witnessCb (r g b : Nat) : Int := clampInt (Int.fdiv (-411 * (r : Int) - 1382 * g + 1793 * b + 8421376) 65536) 16 240
/-- Cr of a mean value (R336). -/
def witnessCr (r g b : Nat) : Int := clampInt (Int.fdiv (1792 * (r : Int) - 1628 * g - 164 * b + 8421376) 65536) 16 240

/-- The luma plane of a picture (R336). -/
def lumaPlane (rows : List (List Composed)) : List (List Int) := rows.map fun r => r.map fun p => witnessY p.r p.g p.b

/-- A chroma plane: a sample for each 2 × 2 pixels, from their mean (R336). -/
def chromaPlane (f : Nat → Nat → Nat → Int) : List (List Composed) → List (List Int)
  | x :: y :: rest =>
    let px (r : List Composed) (a : Nat) : Composed := r.getD a { r := 0, g := 0, b := 0 }
    let mean (a : Nat) (ch : Composed → Nat) : Nat := mean4 (ch (px x (2 * a))) (ch (px x (2 * a + 1))) (ch (px y (2 * a))) (ch (px y (2 * a + 1)))
    ((List.range (x.length / 2)).map fun a => f (mean a (·.r)) (mean a (·.g)) (mean a (·.b))) :: chromaPlane f rest
  | _ => []

/-- WITNESS_PICTURE_COMPLETE (R159, R160, R335, R337): the remaining slices are rendered and the picture goes to the encoder,
without a spare in the blanking slots (R158). A source that no longer renders the view completes nothing. -/
def execWitnessPictureComplete (source : Nat) (s : State) : Out :=
  match s.ray.witness with
  | none => done s
  | some w =>
    let t := renderWitness (witnessSize w.wide).2 s
    let e := t.enc
    done (ifEvent (s.ray.source = source && witnessTurn s) { t with
      ray := { t.ray with witness := none, pictures := wrapAdd 32 t.ray.pictures 1 }
      enc := { e with waiting := t.ray.witness, dropped := satAdd 16 e.dropped (if e.waiting.isSome then 1 else 0) } } s)

/-! ### Gradual refresh (R341 to R343, R347) -/

/-- CTU columns C and rows (R338). -/
def ctuCols (wide : Bool) : Nat := if wide then 120 else 60
/-- CTU rows. -/
def ctuRows (wide : Bool) : Nat := if wide then 68 else 34

/-- REFRESH_PICS in force, at most C (R352). -/
def refreshN (e : EncState) (wide : Bool) : Nat := min e.inForce.refreshPics (ctuCols wide)

/-- s_r. -/
def refreshStep (e : EncState) (r : Nat) : Nat := Tbl.get e.steps 0 r

/-- First CTU column that step s refreshes (R341); the columns below it are the row's refreshed spans. -/
def spanStart (n c sr : Nat) : Nat := min c (sr * c / n)

/-- CTUs that a row refreshes at its step (R341). -/
def spanOf (n c sr : Nat) : Nat := if n ≤ sr then 0 else spanStart n c (sr + 1) - spanStart n c sr

/-- CTU column col lies in the span that a row refreshes at its step (R341). -/
def inSpan (n c sr col : Nat) : Bool := sr < n && spanStart n c sr ≤ col && col < spanStart n c (sr + 1)

/-- Every row of the picture has reached N (R341). -/
def cycleOver (e : EncState) (wide : Bool) : Bool := (List.range (ctuRows wide)).all fun r => refreshN e wide ≤ refreshStep e r

/-- Rows whose span is forced in the picture of index k (R347). -/
def forcedRows (e : EncState) (wide : Bool) (k : Nat) : List Nat :=
  (List.range (ctuRows wide)).filter fun r => refreshStep e r < refreshN e wide && e.inForce.postponeMax + refreshStep e r ≤ k

/-- The largest k − s_r after a picture of index k, over the rows that have not reached N (R354, and R347's worked example). -/
def lagAfter (e : EncState) (wide : Bool) (k : Nat) : Nat :=
  (List.range (ctuRows wide)).foldl (fun m r => if refreshStep e r < refreshN e wide then max m (k + 1 - refreshStep e r) else m) 0

/-! ### Rate control (R344 to R346, R352) -/

/-- PIC_CAP in bytes, 0 selecting min(4·BITRATE/(8·RATE), 1,048,576) (R352). -/
def picCap (p : EncParams) (rate : Nat) : Nat := if p.picCap = 0 then min (4 * p.bitrate / (8 * rate)) 1048576 else p.picCap

/-- RATE_BITS (R344). -/
def rateBits (p : EncParams) : Nat := if p.vbr then p.peak else p.bitrate

/-- B[n] (R344). -/
def skipThreshold (t : Int) (cap reserve : Nat) : Nat := (max 0 (min t (8 * cap - 16384) - reserve)).toNat

/-- Parameters that a picture takes into force: some only at a cycle start, DEST only at an IDR (R352). -/
def takeParams (old set : EncParams) (cycle idr : Bool) : EncParams :=
  { set with
    refreshPics := if cycle then set.refreshPics else old.refreshPics
    postponeMax := if cycle then set.postponeMax else old.postponeMax
    dest := if idr then set.dest else old.dest }

/-- The encoder takes the waiting picture (R340, R341, R344). -/
def startEncode (w : WitnessPicture) (s : State) : State :=
  let e := s.enc
  let idr := e.needIdr || e.lastWide != some w.wide
  let cycle := idr || cycleOver e w.wide
  let e := { e with inForce := takeParams e.inForce e.params cycle idr, waiting := none, carry := if idr then 0 else e.carry }
  let n := refreshN e w.wide
  let k := if cycle then 0 else e.index + 1
  let steps := if cycle then (List.range (ctuRows w.wide)).map fun r => (r, if idr then n else 0) else e.steps
  let e := { e with steps, index := k }
  let reserve := 32 * ((List.range (ctuRows w.wide)).map fun r => spanOf n (ctuCols w.wide) (refreshStep e r)).sum
  let t : Int := (rateBits e.inForce / w.rate : Nat) - e.carry
  let cap := picCap e.inForce w.rate
  let p : EncPicture := { source := w, idr, cycleStart := cycle, target := t, budget := skipThreshold t cap reserve, cap
                          luma := lumaPlane w.rows, cb := chromaPlane witnessCb w.rows, cr := chromaPlane witnessCr w.rows
                          qpFirst := if e.lastWide.isNone || (e.inForce.vbr && e.noSkip) then e.inForce.vbrQp else e.qp
                          skipAll := e.skipNext && !idr, forced := forcedRows e w.wide k }
  let e := { e with picture := some p, mode := .running }
  if e.rtpOffset.isSome then { s with enc := e }
  else drew { s with enc := { e with rtpOffset := some (freeBelow s (2 ^ 32)), lastReport := some (tb0 s) } }

/-- ENCODE_START (R344). -/
def execEncodeStart (s : State) : Out :=
  match s.enc.waiting with
  | none => done s
  | some w => done (ifEvent (domainOn s 18 && s.enc.picture.isNone && 0 < w.rate) (startEncode w s) s)

/-! ### The clean area (R343) -/

/-- CTU columns of a row that are clean in the reference picture of the picture in progress: the spans refreshed in the cycle
so far; all of them when that picture belongs to a completed cycle. -/
def cleanCols (e : EncState) (wide : Bool) (r : Nat) : Nat :=
  if e.index = 0 then ctuCols wide else spanStart (refreshN e wide) (ctuCols wide) (refreshStep e r)

/-- A CTU is clean in the picture in progress once the spans of its row up to this one are refreshed; a row that is postponed has not
refreshed its span. -/
def cleanCtu (e : EncState) (wide : Bool) (postponed : List Nat) (i : Nat) : Bool :=
  let c := ctuCols wide
  let r := i / c
  i % c < spanStart (refreshN e wide) c (refreshStep e r + if postponed.contains r then 0 else 1)

/-- A reference block of a clean CTU lies in the clean area and, but at the edges of the picture, at least 8 luma samples from
its edge; with 4:2:0 that is 4 chroma samples (R343). -/
def refClean (e : EncState) (wide : Bool) (postponed : List Nat) (b : RefBlock) : Bool :=
  let w := 32 * ctuCols wide
  let h := 32 * ctuRows wide
  !cleanCtu e wide postponed b.ctu ||
    (List.range' ((b.y0 - 8) / 32) ((min (b.y1 + 8) (h - 1)) / 32 + 1 - (b.y0 - 8) / 32)).all fun r =>
      min (b.x1 + 8) (w - 1) / 32 < cleanCols e wide r

/-- A reference block with its filter taps, 3 before and 4 after, lies within ±64 and ±32 luma samples of its CTU (R338). -/
def refInRange (wide : Bool) (b : RefBlock) : Bool :=
  let x := 32 * (b.ctu % ctuCols wide)
  let y := 32 * (b.ctu / ctuCols wide)
  x ≤ b.x0 + 67 && b.x1 ≤ x + 99 && y ≤ b.y0 + 35 && b.y1 ≤ y + 67

/-! ### Coding the CTUs (R345 to R347) -/

/-- How a CTU is coded: as skip, freely, intra as a refresh span, or with DC prediction, no residual and QP 51. -/
inductive CtuMode where
  | skip | inter | intra | flat
  deriving DecidableEq, Repr, Inhabited

/-- The coding of a picture as it goes on. -/
structure CtuRun where
  /-- Bits used so far. -/
  used : Nat
  /-- QP of the row in progress. -/
  qp : Nat
  /-- R345 has applied: the bits reached B. -/
  full : Bool := false
  /-- A CTU was coded as skip. -/
  skips : Bool := false
  /-- Rows whose span was coded as skip. -/
  postponed : List Nat := []
  deriving DecidableEq, Repr, Inhabited

/-- How a CTU of row r and column c is coded (R341, R345, R347, R351, R353). An IDR picture has no skip but for poisoned CTUs, so that
its CTUs beyond B are coded flat (log 85). -/
def ctuMode (e : EncState) (p : EncPicture) (poisoned full : Bool) (r c : Nat) : CtuMode :=
  let wide := p.source.wide
  let refresh := !p.idr && inSpan (refreshN e wide) (ctuCols wide) (refreshStep e r) c
  if poisoned then .skip
  else if refresh && p.forced.contains r then (if full then .flat else .intra)
  else if full || p.skipAll then (if p.idr then .flat else .skip)
  else if refresh || p.idr then .intra else .inter

/-- The QP of the next row by the cumulative allowance B·(r + 1)/ROWS, within 22 to 51 (R346). -/
def nextQp (budget rows r used qp : Nat) : Nat :=
  if 102 * (budget * (r + 1)) < 100 * (used * rows) then min 51 (qp + 1)
  else if 100 * (used * rows) < 98 * (budget * (r + 1)) then max 22 (qp - 1) else qp

/-- Bits of a CTU: its QP is raised until it takes at most 16,384 (R345). -/
def fitBits (l : List Nat) : Nat := (l.find? (· ≤ 16384)).getD (min 16384 (l.getLast?.getD 0))

/-- One CTU of the picture (R345): at most 16,384 bits, at most the 32 bits of its reserve when it is coded flat (R344), and beyond B
at most what the picture's 8·PIC_CAP bits have left. A row is postponed when its span is coded as skip, or when one of its CTUs
reads poisoned (R347, R353). -/
def codeCtu (e : EncState) (p : EncPicture) (c : CodedPicture) (q : CtuRun) (i : Nat) : CtuRun :=
  let wide := p.source.wide
  let r := i / ctuCols wide
  let col := i % ctuCols wide
  let full := p.budget ≤ q.used
  let bad := c.poisoned.contains i
  let m := ctuMode e p bad full r col
  let bits := min (fitBits (c.ctuBits.getD i [])) (if m == .flat then 32 else 16384)
  let used := q.used + if full then min bits (8 * p.cap - q.used) else bits
  let span := !p.idr && inSpan (refreshN e wide) (ctuCols wide) (refreshStep e r) col
  { used, full := q.full || (full && !(span && p.forced.contains r)), skips := q.skips || m == .skip
    postponed := if ((span && m == .skip) || bad) && !q.postponed.contains r then q.postponed ++ [r] else q.postponed
    qp := if col + 1 = ctuCols wide && r + 1 < ctuRows wide then nextQp p.budget (ctuRows wide) r used q.qp else q.qp }

/-! ### The access unit (R338, R339, R342) -/

/-- What R338 fixes of the stream's parameter sets. -/
def streamParams (wide : Bool) : Config.StreamParams :=
  { level := if wide then 150 else 123, width := if wide then 3840 else 1920, codedHeight := if wide then 2176 else 1088
    bottomOffset := if wide then 8 else 4 }

/-- Emulation prevention of H.265 (clause 7.4.2): 3 goes in before a byte up to 3 that follows two zeros. -/
def escape : Nat → Bytes → Bytes
  | _, [] => []
  | z, b :: r =>
    if 2 ≤ z && b.toNat ≤ 3 then 3 :: b :: escape (if b = 0 then 1 else 0) r
    else b :: escape (if b = 0 then z + 1 else 0) r

/-- The bytes of a bit string, most significant bit first. -/
def bitBytes (l : List Bool) : Bytes :=
  (List.range (l.length / 8)).map fun k => BitVec.ofNat 8 (((l.drop (8 * k)).take 8).foldl (fun v b => 2 * v + b.toNat) 0)

/-- ue(v) of H.265 (clause 9.2). -/
def ueBits (v : Nat) : List Bool :=
  let n := Nat.log2 (v + 1)
  List.replicate n false ++ (List.range (n + 1)).map fun k => bit (v + 1) (n - k)

/-- A prefix SEI NAL unit of one message (H.265 clause 7.3.5). -/
def seiNal (kind : Nat) (payload : Bytes) : Bytes :=
  [0x4E, 0x01] ++ escape 0 (leBytes 1 kind ++ leBytes 1 payload.length ++ payload ++ [0x80])

/-- u(n) of H.265. -/
def uBits (n v : Nat) : List Bool := (List.range n).map fun k => bit v (n - 1 - k)

/-- se(v) of H.265 (clause 9.2.2). -/
def seBits (v : Int) : List Bool := ueBits (if 0 < v then 2 * v.toNat - 1 else 2 * v.natAbs)

/-- The payload of a NAL unit: its bits with rbsp_trailing_bits, which are also those of byte_alignment. -/
def rbspBytes (bits : List Bool) : Bytes :=
  let b := bits ++ [true]
  bitBytes (b ++ List.replicate ((8 - b.length % 8) % 8) false)

/-- A NAL unit of layer 0 with its payload bits. -/
def nalUnit (type : Nat) (bits : List Bool) : Bytes := [BitVec.ofNat 8 (2 * type), 0x01] ++ escape 0 (rbspBytes bits)

/-- profile_tier_level (R338). -/
def profileBits (p : Config.StreamParams) (o : Config.StreamOpen) : List Bool :=
  uBits 2 0 ++ [p.highTier] ++ uBits 5 p.profile ++ uBits 32 (o.compat ||| 2 ^ 30) ++ uBits 4 o.source ++ uBits 44 0 ++ uBits 8 p.level

/-- The DPB size, no reordering, and the latency of the one sub-layer (R338). -/
def orderBits (p : Config.StreamParams) (o : Config.StreamOpen) : List Bool :=
  [o.ordering] ++ ueBits p.bufferingMinus1 ++ ueBits 0 ++ ueBits o.latency

/-- The video parameter set (R338). -/
def vpsNal (p : Config.StreamParams) (o : Config.StreamOpen) : Bytes :=
  nalUnit 32 (uBits 4 o.vpsId ++ [true, true] ++ uBits 6 0 ++ uBits 3 0 ++ [true] ++ uBits 16 65535 ++ profileBits p o ++ orderBits p o
    ++ uBits 6 0 ++ ueBits 0 ++ (o.timing.elim [false] fun t => [true] ++ uBits 32 t.1 ++ uBits 32 t.2 ++ [false] ++ ueBits 0) ++ [false])

/-- The reference picture set of a P picture: the previous picture alone (R338). -/
def shortBits : List Bool := ueBits 1 ++ ueBits 0 ++ ueBits 0 ++ [true]

/-- vui_parameters that are valid, or none. -/
def vuiBits (o : Config.StreamOpen) : List Bool := if ((rdVui 0 o.vui).map (·.2)) = some [] then [true] ++ o.vui else [false]

/-- The sequence parameter set (R338): 8-bit 4:2:0, and of the tools only those that R338 names. -/
def spsNal (p : Config.StreamParams) (o : Config.StreamOpen) : Bytes :=
  let log (v : Nat) := Nat.log2 v
  nalUnit 33 (uBits 4 o.vpsId ++ uBits 3 0 ++ [true] ++ profileBits p o ++ ueBits (o.spsId % 16) ++ ueBits 1 ++ ueBits p.width ++ ueBits p.codedHeight
    ++ [true] ++ ueBits 0 ++ ueBits 0 ++ ueBits 0 ++ ueBits p.bottomOffset ++ ueBits 0 ++ ueBits 0 ++ ueBits (min o.pocBits 12) ++ orderBits p o
    ++ ueBits (log p.minCu - 3) ++ ueBits (log p.ctu - log p.minCu) ++ ueBits (log p.minTu - 2) ++ ueBits (log p.maxTu - log p.minTu)
    ++ ueBits (min o.interDepth 3) ++ ueBits (min o.intraDepth 3) ++ [false, p.amp, p.sao, false]
    ++ (if o.shortInSps then ueBits 1 ++ shortBits else ueBits 0) ++ [false, o.temporalMvp, false] ++ vuiBits o ++ [false])

/-- init_qp_minus26 within its range. -/
def openQp (o : Config.StreamOpen) : Int := clampInt o.initQp (-26) 25

/-- The picture parameter set (R338). The QP of a row differs from the slice's, so cu_qp_delta_enabled_flag is 1 (R346). -/
def ppsNal (p : Config.StreamParams) (o : Config.StreamOpen) : Bytes :=
  nalUnit 34 (ueBits (o.ppsId % 64) ++ ueBits (o.spsId % 16) ++ uBits 7 0 ++ ueBits 0 ++ ueBits 0 ++ seBits (openQp o)
    ++ [p.constrainedIntra, false, true] ++ ueBits (min o.qpDepth 2) ++ seBits 0 ++ seBits 0
    ++ [false, false, false, false, p.tiles, p.wavefront, o.acrossSlices] ++ (if p.deblocking then [false] else [true, false, true])
    ++ [false, false] ++ ueBits 0 ++ [false, false])

/-- The head of the slice segment NAL unit (R338): the one slice of an IDR or a P picture. -/
def sliceHead (p : Config.StreamParams) (o : Config.StreamOpen) (idr : Bool) (poc qp : Nat) : Bytes :=
  nalUnit (if idr then (if o.noLeading then 20 else 19) else 1) ([true] ++ (if idr then [o.noPrior] else []) ++ ueBits (o.ppsId % 64)
    ++ ueBits (if idr then 2 else 1)
    ++ (if idr then [] else uBits (min o.pocBits 12 + 4) poc ++ [o.shortInSps] ++ (if o.shortInSps then [] else shortBits)
          ++ (if o.temporalMvp then [p.temporalMvp] else []) ++ [false] ++ ueBits (min o.merge 4))
    ++ seBits (qp - (26 + openQp o)) ++ (if o.acrossSlices then [true] else []))

/-- The user data unregistered SEI of a picture: "PG9610WITNESS-01", FIRST_FRAME and LAST_FRAME (R339). -/
def userDataSei (w : WitnessPicture) : Bytes :=
  seiNal 5 ([0x50, 0x47, 0x39, 0x36, 0x31, 0x30, 0x57, 0x49, 0x54, 0x4E, 0x45, 0x53, 0x53, 0x2D, 0x30, 0x31]
    ++ leBytes 8 w.firstFrame ++ leBytes 8 w.lastFrame)

/-- The recovery point SEI of a cycle's first picture: recovery_poc_cnt N − 1 + POSTPONE_MAX as se(v), exact_match_flag 1,
broken_link_flag 0 (R342). -/
def recoverySei (e : EncState) (wide : Bool) : Bytes :=
  let k := refreshN e wide - 1 + e.inForce.postponeMax
  let bits := ueBits (2 * k - 1) ++ [true, false]
  let pad := (8 - bits.length % 8) % 8
  seiNal 6 (bitBytes (bits ++ if pad = 0 then [] else true :: List.replicate (pad - 1) false))

/-- The parameter sets of the stream of a size (R338). -/
def parameterSets (wide : Bool) : List Bytes :=
  let p := streamParams wide
  let o := Config.streamOpen p
  [vpsNal p o, spsNal p o, ppsNal p o]

/-- The NAL units before the slice: parameter sets and recovery point in a cycle's first picture, and the user data of every
picture (R338, R339, R342). -/
def leadNals (e : EncState) (p : EncPicture) : List Bytes :=
  (if p.cycleStart then parameterSets p.source.wide ++ [recoverySei e p.source.wide] else []) ++ [userDataSei p.source]

/-- The head of the picture's slice (R338). -/
def headOf (e : EncState) (p : EncPicture) : Bytes :=
  let q := streamParams p.source.wide
  sliceHead q (Config.streamOpen q) p.idr e.poc p.qpFirst

/-- The picture's NAL units in the byte stream format: a zero byte stands before the first start code (H.265 Annex B). -/
def annexB (nals : List Bytes) : Bytes := 0 :: nals.flatMap fun n => [0, 0, 1] ++ n

/-- Bytes of the access unit before the slice data. -/
def headBytes (e : EncState) (p : EncPicture) : Nat := (annexB (leadNals e p)).length + 3 + (headOf e p).length

/-- The coding of the picture from its lead NAL units and slice header on, CTU by CTU in raster order (R344, R345). -/
def codeCtus (e : EncState) (p : EncPicture) (c : CodedPicture) : CtuRun :=
  let start : CtuRun := { used := 8 * headBytes e p, qp := p.qpFirst }
  (List.range (ctuCols p.source.wide * ctuRows p.source.wide)).foldl (codeCtu e p c) start

/-- The reference blocks that the encoder may use: within the search range, and those of clean CTUs within the clean area (R338,
R343). -/
def refsOk (e : EncState) (p : EncPicture) (c : CodedPicture) : Bool :=
  let postponed := (codeCtus e p c).postponed
  c.refs.all fun b => refInRange p.source.wide b && refClean e p.source.wide postponed b

/-- The NAL units of the access unit; the slice data takes the bytes of its CTUs. -/
def pictureNals (e : EncState) (p : EncPicture) (c : CodedPicture) : List Bytes :=
  leadNals e p ++ [headOf e p ++ padTo (((codeCtus e p c).used - 8 * headBytes e p + 7) / 8) c.slice]

/-! ### Delivery (R348 to R351) -/

/-- The filler data NAL unit of `n` bytes with its start code (R348). -/
def fillerNal (n : Nat) : Bytes :=
  if n = 0 then [] else padTo n ([0, 0, 1, 0x4C, 0x01] ++ List.replicate (n - 6) 0xFF ++ [0x80])

/-- Bytes of filler: in CBR a picture of fewer bits than T is brought to min(floor(T/8), PIC_CAP) bytes (R348). -/
def fillerOf (p : EncPicture) (vbr : Bool) (len : Nat) : Nat :=
  if vbr || p.target ≤ 8 * len then 0 else min (p.target.toNat / 8) p.cap - len

/-- The fragments of a NAL unit's payload, with S set in the first and E in the last (RFC 7798, section 4.4.3). -/
def fuPayloads (size : Nat) (head : Bytes) (type : Nat) : Nat → Bool → Bytes → List Bytes
  | 0, _, _ => []
  | fuel + 1, first, b =>
    let last := b.length ≤ size
    (head ++ leBytes 1 (flagAt first 7 + flagAt last 6 + type) ++ b.take size) ::
      (if last then [] else fuPayloads size head type fuel false (b.drop size))

/-- RTP payloads of a NAL unit: a single NAL unit packet, or fragmentation units with type 49 (RFC 7798; R349). -/
def rtpPayloads (maxPayload : Nat) (nal : Bytes) : List Bytes :=
  if nal.length ≤ maxPayload then [nal]
  else
    let head := leBytes 1 (u8 nal 0 / 128 * 128 + 2 * 49 + u8 nal 0 % 2) ++ (nal.drop 1).take 1
    fuPayloads (maxPayload - 3) head (u8 nal 0 / 2 % 64) nal.length true (nal.drop 2)

/-- The RTP packet of a payload: version 2, the marker in an access unit's last one, payload type, sequence number, timestamp and SSRC
(RFC 3550, section 5.1; R349). -/
def rtpPacket (marker : Bool) (seq stamp : Nat) (payload : Bytes) : Bytes :=
  [0x80] ++ leBytes 1 (flagAt marker 7 + Config.rtpNames.1 % 128) ++ beBytes 2 (Config.rtpNames.2.1 + seq) ++ beBytes 4 stamp
    ++ beBytes 4 Config.rtpNames.2.2 ++ payload

/-- The RTP timestamp: the TB3 time of FIRST_FRAME's tick at 90 kHz plus the offset (R349). -/
def rtpStampOf (e : EncState) (w : WitnessPicture) : Nat := (w.firstTick * 9 / 100000 + e.rtpOffset.getD 0) % 2 ^ 32

/-- The access unit goes out as RTP packets to DEST_ADDR and DEST_PORT, the marker in the last one; with the link down they are
discarded and counted (R349). -/
def deliverRtp (p : EncPicture) (nals : List Bytes) (s : State) : State :=
  let e := s.enc
  let dest := e.inForce.dest
  let ps := nals.flatMap (rtpPayloads e.inForce.maxPayload)
  let stamp := rtpStampOf e p.source
  let packets := ps.zipIdx.map fun x => Sent.rtp dest s.walec.destAddr s.walec.destPort (rtpPacket (x.2 + 1 = ps.length) (e.rtpPackets + x.2) stamp x.1)
  if (ethOf s dest).link then
    sendAll packets { s with enc := { e with rtpPackets := wrapAdd 32 e.rtpPackets ps.length, rtpBytes := wrapAdd 32 e.rtpBytes (ps.map (·.length)).sum
                                             rtpStamp := stamp } }
  else { s with enc := { e with dropped := satAdd 16 e.dropped ps.length, rtpStamp := stamp } }

/-- Access units whose completion the host has not consumed: the last ones, as many as unconsumed slots (R351). -/
def heldUnits (s : State) : List (Nat × Nat) :=
  let k := s.enc.ringQueue.elim 0 fun q => unconsumed (queueOf s q)
  s.enc.ringHeld.drop (s.enc.ringHeld.length - k)

/-- Place in the output buffer for an access unit: after the last one, or at its start when it does not fit there (R351). -/
def ringPlace (s : State) (len : Nat) : Option Nat :=
  let size := Config.encoderBuffer.2
  let at0 := if size < s.enc.ringPos + len then 0 else s.enc.ringPos
  let slotOk := s.enc.ringQueue.any fun q => 0 < slotsFree (queueOf s q)
  if len ≤ size && slotOk && (heldUnits s).all fun h => at0 + len ≤ h.1 || h.1 + h.2 ≤ at0 then some at0 else none

/-- The completion of R350. -/
def ringBody (e : EncState) (p : EncPicture) (q : CtuRun) (addr len : Nat) : Bytes :=
  leBytes 8 addr ++ leBytes 4 len ++ leBytes 1 (flagAt p.idr 0 + flagAt p.cycleStart 1 + flagAt q.full 2 + flagAt (!p.forced.isEmpty) 3)
    ++ leBytes 1 (lagAfter e p.source.wide e.index) ++ leBytes 2 q.qp ++ leBytes 8 p.source.firstFrame ++ leBytes 8 p.source.lastFrame

/-- The access unit goes to the output buffer with its completion (R350). -/
def deliverRing (p : EncPicture) (c : CtuRun) (data : Bytes) (at0 : Nat) (s : State) : State :=
  let e := s.enc
  let addr := Config.encoderBuffer.1 + at0
  let t := memWrite 3 addr data { s with enc := { e with ringPos := at0 + data.length, ringHeld := heldUnits s ++ [(at0, data.length)] } }
  match e.ringQueue with
  | none => t
  | some q => complete q 0 (queueOf t q).gen 0 (ringBody e p c addr data.length) 0 t

/-- The refresh steps and the counters after a coded picture (R341, R344, R347, R354, R355). -/
def coded (p : EncPicture) (c : CtuRun) (bits : Nat) (e : EncState) : EncState :=
  let n := refreshN e p.source.wide
  let steps := (List.range (ctuRows p.source.wide)).map fun r =>
    (r, let sr := refreshStep e r
        if p.idr then (if c.postponed.contains r then 0 else n) else if n ≤ sr || c.postponed.contains r then sr else sr + 1)
  let e := { e with steps, poc := if p.idr then 1 else e.poc + 1 }
  { e with
    picture := none, needIdr := false, skipNext := false, lastWide := some p.source.wide
    carry := if p.idr then 0 else ((bits : Int) - p.target).toNat
    qp := c.qp, qpLast := c.qp, noSkip := !c.skips
    cyclePos := e.index % 256, lagMax := min 15 (lagAfter e p.source.wide e.index)
    pictures := wrapAdd 32 e.pictures 1, skippedPics := satAdd 16 e.skippedPics (if c.full then 1 else 0)
    skipSeen := e.skipSeen || c.full, forcedSeen := e.forcedSeen || !p.forced.isEmpty }

/-- The picture is discarded for want of room, an IDR too: the next one is coded as skip throughout, apart from forced spans (R351). -/
def discardCoded (p : EncPicture) (s : State) : State :=
  let e := s.enc
  { s with enc := { e with picture := none, dropped := satAdd 16 e.dropped 1, skipNext := true, needIdr := e.needIdr && !p.idr
                           lastWide := some p.source.wide, poc := if p.idr then 1 else e.poc } }

/-- The access unit with its filler (R338, R348). -/
def accessUnit (e : EncState) (p : EncPicture) (c : CodedPicture) : Bytes :=
  let data := annexB (pictureNals e p c)
  data ++ fillerNal (fillerOf p e.inForce.vbr data.length)

/-- A coded picture is delivered (R348 to R351). -/
def finishEncode (p : EncPicture) (c : CodedPicture) (s : State) : State :=
  let nals := pictureNals s.enc p c
  let data := accessUnit s.enc p c
  let fill := data.drop (annexB nals).length
  let q := codeCtus s.enc p c
  let e := coded p q (8 * data.length) s.enc
  if s.enc.inForce.dest = 2 then
    match ringPlace s data.length with
    | none => discardCoded p s
    | some k => deliverRing p q data k { s with enc := e }
  else deliverRtp p (nals ++ if fill = [] then [] else [fill.drop 3]) { s with enc := e }

/-- ENCODE_COMPLETE (R338, R343, R350): the encoder's choice of reference blocks keeps to the search range and the clean area. -/
def execEncodeComplete (c : CodedPicture) (s : State) : Out :=
  match s.enc.picture with
  | none => done s
  | some p => done (ifEvent (refsOk s.enc p c) (finishEncode p c s) s)

/-- RTCP_SENDER_REPORT (R349): every 5 s while the stream goes to an Ethernet port. -/
def execRtcpSenderReport (s : State) : Out :=
  match s.enc.lastReport with
  | none => done s
  | some t0 =>
    let t := advanceTo0 (t0 + 5000000000) s
    let e := t.enc
    let u := { t with enc := { e with lastReport := some (t0 + 5000000000) } }
    done (ifEvent (s.enc.inForce.dest < 2 && s.enc.mode == .running)
      (if (ethOf s e.inForce.dest).link then send (.rtcp e.inForce.dest (tbNs t 1) e.rtpStamp e.rtpPackets e.rtpBytes) u else u) s)

/-- ENCODER_FAULT (R353): the picture is abandoned, the encoder resets and the next picture is an IDR. -/
def execEncoderFault (s : State) : Out :=
  let e := s.enc
  let t := { s with enc := { e with picture := none, dropped := satAdd 16 e.dropped (if e.picture.isSome then 1 else 0), needIdr := true
                                    carry := 0, skipNext := false, mode := .waitIdr, faultSeen := true, lastWide := none } }
  done (ifEvent (domainOn s 18) (log (hw 4) 4 0xA0 0 t) s)

end Sys2Proof.Machine
end

