-- ==== Sys2Proof/Machine/Modes.lean ====
section
/-! DEFINITION. The raster (06_modes_timing_bench.md): the line grid, the latch instant, the frame tick, mode changes and
Bench; with what every block does at these boundaries. -/

namespace Sys2Proof.Machine

/-! ### The Bench bitmap (R209 to R213) -/

/-- FIRST_ROW of a bitmap (R209). -/
def bmpFirst (b : Bytes) : Nat := u8 b 5
/-- ROWS of a bitmap (R209). -/
def bmpRows (b : Bytes) : Nat := u8 b 6
/-- CURRENT of a bitmap (R209). -/
def bmpCurrent (b : Bytes) : Nat := u8 b 7

/-- Tile rows of the strip; none without a valid bitmap. -/
def stripRows (s : State) : List Nat := s.tim.bitmap.elim [] fun b => List.range' (bmpFirst b) (bmpRows b)

/-- The palette index at lenslet u of the runs that start at a word (R211). -/
def runIndex (d : Bytes) : Nat → Nat → Nat → Nat
  | 0, _, _ => 0
  | fuel + 1, o, u =>
    let w := leAt d o 2
    if u < bits w 11 0 + 1 then bits w 15 13 else runIndex d fuel (o + 2) (u - (bits w 11 0 + 1))

/-- Palette index of lenslet column u in strip row b (R210, R211). -/
def bmpIndex (b : Bytes) (row u : Nat) : Nat :=
  let d := b.drop 32
  if u8 b 4 = 0 then leAt d (1152 * row + 3 * u / 8) 2 / 2 ^ (3 * u % 8) % 8 else runIndex d 3072 (leAt d (4 * row) 4) u

/-- The composed value of Bench at lenslet (u, v): 273 times the palette fields, channel 0 red (R213). -/
def bmpValue (b : Bytes) (u v ch : Nat) : Nat :=
  let w := leAt b (8 + 2 * bmpIndex b (v - 144 * bmpFirst b) u) 2
  273 * (if ch = 0 then bits w 11 8 else if ch = 1 then bits w 7 4 else bits w 3 0)

/-- The Bench code of a panel pixel (R213). -/
def bmpCode (s : State) (b : Bytes) (band seq x y ch : Nat) : Nat := benchCode s band seq x y ch (bmpValue b (x / 10) (y / 10) ch)

/-! ### Lines (R191, R197, R198) -/

/-- The line after the one in progress, none at the end of the frame. -/
def nextLine (s : State) : Option (Nat × Nat) :=
  if s.tim.line < 1499 then some (s.tim.sub, s.tim.line + 1)
  else if s.tim.sub + 1 < subframes s.tim.mode then some (s.tim.sub + 1, 0) else none

/-- The line event is the next one of the grid. -/
def lineDue (s : State) (sub line : Nat) : Bool :=
  s.tim.rasterRun && !s.tim.starting &&
    (if s.tim.lineRaised then nextLine s == some (sub, line) else (s.tim.sub, s.tim.line) == (sub, line))

/-- PANEL_SYNC rises with line 0 for 8 or 4 line periods; LENS_PH takes the coming phase LENS_LEAD lines ahead (R197, R198). -/
def outputsAt (sub line : Nat) (s : State) : State :=
  let t := s.tim
  let coming := if sub + 1 < subframes t.mode then phaseOf t.mode (sub + 1) else 0
  let lens := if line = 0 then phaseOf t.mode sub == 1 else if line + t.lensLead = 1500 then coming == 1 else t.lensPh
  { s with tim := { t with
      lensPh := lens
      panelSync := line = 0 || (t.panelSync && 1 < t.syncLeft)
      syncLeft := if line = 0 then (if sub = 0 then 8 else 4) else t.syncLeft - 1 } }

/-- The rows whose links carry subframes in the mode in effect: every configured row, in Bench the strip (R262). -/
def shownRows (s : State) : List Nat := if s.tim.mode = 0x10 then stripRows s else List.range (configRows s)

/-- The links of the shown rows. -/
def shownLinks (s : State) : List Nat := (shownRows s).flatMap fun r => List.range' (8 * r) 8

/-! ### Line 0 (R121, R137, R143, R144, R156, R157, R287) -/

/-- A row begins a subframe: a spare whose boundary has passed is bound at the latest, the ceiling takes effect, the cluster
goes into the cap record, and the aborts that came with the header leave no line. A subframe that is held has no cluster, and its
record reads 0xFF there (DESIGN CHOICE, log 103). -/
def rowSubStart (sub r : Nat) (s : State) : State :=
  let s := match (rowOf s r).toBind with
    | some k =>
      let p := (rowOf s r).bindAt
      if p.1 < s.tim.frameCount || (p.1 == s.tim.frameCount && p.2 ≤ sub) then bindSpare r k s else s
    | none => s
  let x := rowOf s r
  let ceil := ceilingOf s.thm.clkInEffect
  let dead := x.holdNext || x.abortNext
  let c := if x.holdNext then 255 else x.cluster
  setRow r { x with
    ceiling := ceil, cap := max x.cap ceil, loweredSeen := x.loweredSeen || x.cap < ceil, composed := 0, fifo := [], abortNext := false, held := x.holdNext
    aborted := if dead then some 0 else none
    abortA := x.abortA || (dead && sub = 0), abortB := x.abortB || (dead && sub = 1)
    clusterA := if sub = 0 then c else x.clusterA, clusterB := if sub = 1 then c else x.clusterB } (if dead then markRegions r s else s)

/-- A link begins a subframe whose header it has been sent; an abort that followed the header leaves no line (R148, R287). -/
def linkSubStart (n : Nat) (s : State) : State :=
  let l := linkOf s n
  let dead := l.deadNext || (rowOf s (n / 8)).abortNext
  setLink n { l with headerNow := l.headerNext, headerNext := false, deadNext := false, lcrcs := [], aborted := if dead then some 0 else none } s

/-- Line 0 of a subframe (R121, R137, R208, R247). -/
def subframeStart (sub : Nat) (s : State) : State :=
  let s := { s with out := { s.out with sincePersist := s.out.sincePersist + 1 } }
  let s := if s.tim.transLeft = 0 then { s with thm := { s.thm with clkInEffect := s.thm.clkPending } } else s
  let s := (List.range (8 * configRows s)).foldl (fun t n => linkSubStart n t) s
  if composing s then (List.range (configRows s)).foldl (fun t r => rowSubStart sub r t) s
  else (List.range (configRows s)).foldl (fun t r => setRow r { rowOf t r with abortNext := false, aborted := none } t) s

/-! ### Active lines (R90, R147, R170, R240, R266) -/

/-- The link carries this line (R148, R269, R286). -/
def linkCarries (s : State) (sub line n : Nat) : Bool :=
  let l := linkOf s n
  forwardOf l.state == .packets && l.headerNow && l.aborted.isNone && carriesLine (halfOf l.half s.tim.mode s.tim.frameCount sub) line

/-- A LINE packet of a link; its codes count in both accumulators outside Bench (R240, R262, R266, R288). -/
def sendLine (n sub line times : Nat) (px : List (Nat × Nat × Nat)) (s : State) : State :=
  let l := linkOf s n
  let c := lcrc px
  let t := setLink n { l with lcrcs := l.lcrcs ++ [c] } s
  let t := if times = 0 then t else sumLine n line times px t
  send (.tile n (.line line s.tim.frameCount sub (px.map fun p => p.1 + 1024 * p.2.1 + 1048576 * p.2.2) c)) t

/-- The drive codes of one composed line of a tile (R222, R288). -/
def tileCodes (s : State) (obs : LineObs) (px : List Composed) (r c sub line : Nat) : List (Nat × Nat × Nat) :=
  let seq := if halfService s (8 * r + c) then 0 else sub
  let y := 1440 * r + line
  px.zipIdx.map fun p =>
    let x := 3840 * c + p.2
    (pixelCode s obs seq x y 0 p.1.r, pixelCode s obs seq x y 1 p.1.g, pixelCode s obs seq x y 2 p.1.b)

/-- An enabled region lies over a line of a tile row. -/
def regionOver (s : State) (r line : Nat) : Bool :=
  s.sig.regions.any fun x => x.2.record.enable = 1 && x.2.record.v0 ≤ (1440 * r + line) / 10 && (1440 * r + line) / 10 < x.2.record.v1

/-- The output stage takes the oldest line of the row's FIFOs: it goes to the signature tap and to the links, and its slots are
free again (R123, R124, R147, R170). -/
def rowTransmit (obs : LineObs) (sub line r : Nat) (s : State) : State :=
  match (rowOf s r).aborted, (rowOf s r).fifo with
  | some _, _ => s
  | none, [] => s
  | none, x :: rest =>
    let t := setRow r { rowOf s r with fifo := rest } s
    let t := if regionOver s r line then tapLine r line sub x.tiles.flatten t else t
    let t := (List.range 8).foldl (fun t c =>
      if linkCarries s sub line (8 * r + c) then
        sendLine (8 * r + c) sub line (if halfService s (8 * r + c) then 2 else 1) (tileCodes s obs (x.tiles.getD c []) r c sub line) t
      else t) t
    if line % 16 = 15 then flushRow r obs.workPoison t else t

/-- Errors of the geometry store and of the output stages that a line met: corrected reads are counted, uncorrectable ones set
DED_SEEN (R66, R67, R253). -/
def countReads (obs : LineObs) (s : State) : State :=
  let good := obs.geomReads.filter (·.corrected)
  let d := (obs.geomReads.filter fun e => !e.corrected).length
  countOutPoison obs { s with
    geom := { s.geom with dedCount := satAdd 8 s.geom.dedCount d, dedSeen := s.geom.dedSeen || 0 < d, dedInFrame := s.geom.dedInFrame + d
                          corrected := s.geom.corrected + good.length } }

/-- One active line of every configured row (R124, R140, R147). -/
def activeLine (obs : LineObs) (sub line : Nat) (s : State) : State :=
  (List.range (configRows s)).foldl (fun t r => rowTransmit obs sub line r (rowLineStart obs line r t)) (countReads obs s)

/-- One line of the Bench strip: the codes of the renderer (R213, R262). -/
def benchLine (sub line : Nat) (s : State) : State :=
  match s.tim.bitmap with
  | none => s
  | some b => (shownLinks s).foldl (fun t n =>
      if linkCarries s sub line n then
        let y := 1440 * (n / 8) + line
        let f (xt ch : Nat) : Nat := bmpCode s b (tileOf s n).band (ditherSeq s.tim.frameCount 1 0) (3840 * (n % 8) + xt) y ch
        sendLine n sub line 0 ((List.range 3840).map fun xt => (f xt 0, f xt 1, f xt 2)) t
      else t) s

/-! ### Blanking lines (R144, R264 to R269, R427, R428) -/

/-- Line 1,440: the cap codes of the subframe are kept, a lowering held to its end is no longer held (log 27), and the composition
of the phase-B subframe of the frame begins, where it has not begun at an abort (R125, R130, R144, R145). -/
def rowSubEnd (sub r : Nat) (s : State) : State :=
  let x := rowOf s r
  let t := setRow r { x with
    capsA := if sub = 0 then x.subCodes else x.capsA, capsB := if sub = 1 then x.subCodes else x.capsB
    lineCaps := [], composed := 0, fifo := [], heldLine := none } s
  if inFrame s && x.aborted.isNone then startBands s r t else t

/-- END of a link (R267, R269). -/
def sendEnd (sub n : Nat) (s : State) : State :=
  let l := linkOf s n
  if l.state == .up && l.headerNow && l.aborted.isNone then
    send (.tile n (.endp (if halfOf l.half s.tim.mode s.tim.frameCount sub = 0 then 1440 else 720) s.tim.frameCount sub (scrc l.lcrcs))) s
  else s

/-- MODE goes to the link in the control windows of a transition interval, and to one that was not UP then in its first window
(R206, R269, R278, R294). -/
def sendMode (n : Nat) (s : State) : State :=
  let l := linkOf s n
  if 0 < s.tim.transLeft || l.modeDue then
    send (.tile n (.mode s.tim.mode (if s.tim.transRetrain then 1 else 0) s.tim.transFrame)) (setLink n { l with modeDue := false } s)
  else s

/-- The control window of a link: MODE, then up to 8 CONTROL packets (R206, R268, R269). -/
def controlWindow (n : Nat) (s : State) : State :=
  let l := linkOf s n
  let now := l.controls.take 8
  if l.state != .up then s
  else
    let t := sendAll (now.map fun c => .tile n (.control c.seq c.opcode c.frame)) (sendMode n s)
    let x := now.foldl Link.sentControl { linkOf t n with controls := [] }
    setLink n { x with controls := x.controls ++ l.controls.drop 8 } t

/-- Current reference of a link's tile and colour in the coming subframe (R213, R233). -/
def headerCr (s : State) (newFrame : Bool) (n ch : Nat) : Nat :=
  if s.tim.mode = 0x10 then
    let tile := Tbl.get (if newFrame then s.out.tilesNext.getD s.out.tiles else s.out.tiles) {} n
    min (s.tim.bitmap.elim 0 bmpCurrent) (ceilOf (16 - tile.cut))
  else Tbl.get (if newFrame then s.out.crNext.getD s.out.cr else s.out.cr) 0 (3 * n + ch)

/-- The SUBFRAME header of a link for a coming subframe (R265). -/
def headerOf (s : State) (f sub n : Nat) : Packet :=
  let l := linkOf s n
  let new := sub = 0
  let slot := phaseOf s.tim.mode sub
  let tile := Tbl.get (if new then s.out.tilesNext.getD s.out.tiles else s.out.tiles) {} n
  .subframe s.tim.mode (if halfService s n then 0 else slot) slot (flagAt (decide new) 0 + 2 * halfOf l.half s.tim.mode f sub) f sub
    ((List.range 3).map (headerCr s (decide new) n)) tile.band

/-- The EVEN half that the subframe in progress carries on a link is whole (R287). -/
def evenWhole (s : State) (n : Nat) : Bool :=
  let l := linkOf s n
  l.headerNow && l.aborted.isNone && halfOf l.half s.tim.mode s.tim.frameCount s.tim.sub == 1

/-- Cause of the ABORT that follows a link's header at once, if any: no ODD half goes without its EVEN half (R156, R157, R287). -/
def headerAbort (s : State) (f sub n : Nat) : Option Nat :=
  let r := n / 8
  if s.tim.mode = 0x10 then none
  else if (rowOf s r).holdNext then some 2
  else if (rowOf s r).abortNext then some 1
  else if halfOf (linkOf s n).half s.tim.mode f sub = 2 && !evenWhole s n then some 3
  else none

/-- Which rows send the coming subframe as header and ABORT HELD is decided with its header (R157). -/
def decideHolds (s : State) : State :=
  (List.range (configRows s)).foldl (fun t r => setRow r { rowOf t r with holdNext := rowHolds t r } t) s

/-- The headers of the coming subframe (R264, R269). -/
def sendHeaders (f sub : Nat) (s : State) : State :=
  (shownLinks s).foldl (fun t n =>
    if carries t n then
      let cause := headerAbort t f sub n
      let t := send (.tile n (headerOf t f sub n)) (setLink n { linkOf t n with headerNext := true, deadNext := cause.isSome } t)
      match cause with
      | none => t
      | some k => sendAll [.tile n (.abort 0 k f sub), .tile n .hold] t
    else t) (decideHolds s)

/-- Headers at line 1,480: none before a transition frame (R206, R269). -/
def headerLine (sub : Nat) (s : State) : State :=
  let last := subframes s.tim.mode ≤ sub + 1
  if last then (if nextTransition s then s else sendHeaders (s.tim.frameCount + 1) 0 s)
  else if 0 < s.tim.transLeft then s
  else sendHeaders s.tim.frameCount (sub + 1) s

/-! ### Bench entry and exit (R214 to R217, R219, R254) -/

/-- Entries of the device table with ROLE TILE_SUPPLY for a row (R573). -/
def rowDevices (s : State) (r : Nat) : List (Nat × PmbusDevice) := s.pwr.devices.filter fun d => d.2.role = 2 && d.2.row = r

/-- Supply of a row. -/
def supplyOf (s : State) (r : Nat) : Supply := Tbl.get s.pwr.supplies {} r
/-- Set the supply of a row. -/
def setSupply (r : Nat) (x : Supply) (s : State) : State := { s with pwr := { s.pwr with supplies := Tbl.set r x s.pwr.supplies } }

/-- Bench runs or is being entered (R214). -/
def inBench (s : State) : Bool := s.tim.bench == .entering || s.tim.bench == .running

/-- A row's supply may be on: in Bench only that of a strip row (R214). -/
def rowWanted (s : State) (r : Nat) : Bool := !inBench s || (stripRows s).contains r

/-- The domains that Bench switches off: all but the strip's link groups and PD43 (R214). -/
def benchOff (s : State) : List Nat :=
  ((List.range 30) ++ (List.range' 30 12).filter (fun d => !(stripRows s).contains (d - 30)) ++ [42]).filter (fun d => domainOf s d != DomainState.off)

/-- The domains that the exit brings up: clusters of the configured rows and the spares, the geometry halves, decoders,
encoder, engines, DRAM, link groups and Ethernet (R215, R570). -/
def runDomains (s : State) : List Nat :=
  let rows := configRows s
  (List.range 14).filter (fun c => !s.spr.retired.contains c && (s.ray.spares.contains c ||
      (List.range rows).any fun r => (rowOf s r).cluster = c || (rowOf s r).toBind = some c)) ++ [14] ++ (if 6 < rows then [15] else [])
    ++ ([16, 17].filter fun d => coreWanted s (d - 16)) ++ [18, 19, 20] 
    ++ siteDomains s
    ++ ((List.range rows).filter fun r => (supplyOf s r).state == .on).map (30 + ·) ++ [42]

/-- A row's supply is to be switched off after the dark command (R215, R576). -/
def supplyOff (r : Nat) (s : State) : State :=
  let x := supplyOf s r
  if x.state == .off || x.state == .goingOff then s else setSupply r { x with state := .goingOff, since := tb0 s } s

/-- OPERATION on goes to every TILE_SUPPLY of a row at `since`, and power good is awaited (R576). -/
def supplyOnAt (since r : Nat) (s : State) : State :=
  let x := supplyOf s r
  if x.state == .off && !x.barred then
    sendAll ((rowDevices s r).map fun d => .pmbus d.1 true) (setSupply r { x with state := .waiting, since := since, failed := false } s)
  else s

/-- The supply of a row is switched on, 20 ms after the row before it (R576). -/
def supplyOn (r : Nat) (s : State) : State :=
  let last := s.pwr.supplies.foldl (fun m x => if x.2.state == .waiting then max m (x.2.since + 20000000) else m) 0
  supplyOnAt (max (tb0 s) last) r s

/-- Rows outside the strip go dark (R215). -/
def darkOthers (s : State) : State :=
  ((List.range (configRows s)).filter fun r => !(stripRows s).contains r).foldl (fun t r => supplyOff r (darkRow r t)) s

/-- The subject and detail of a Bench entry or exit: first strip row; strip rows and return mode (R219, R511). -/
def logBench (event : Nat) (o : Origin) (s : State) : State :=
  log o (s.tim.bitmap.elim 0 bmpFirst) event (s.tim.bitmap.elim 0 bmpRows + 256 * s.tim.benchReturn) s

/-- The control processors in Bench: TRIPLE ends; the spare processor stands by on PD43 while the pair is stopped, but in JOINED the
pair itself stands by and stays in lockstep (R214, R617). -/
def benchCpu (s : State) : State :=
  let t := if s.spr.cpu == .triple then setCpu .pair 0 0xFF s else s
  let joined := t.spr.cpu == .joined
  let t := { t with spr := { t.spr with standby := !joined } }
  if joined then t else requestDomain true 43 t

/-- Bench takes effect at a tick (R214, R215). -/
def enterBench (old : Nat) (o : Origin) (s : State) : State :=
  let t := { s with tim := { s.tim with bench := .entering, benchReturn := old, benchOrigin := o, benchCounts := [], leaveSince := none } }
  let t := darkOthers (stopWitness t)
  let t := beginSelfRefresh (benchCpu t)
  logBench 0x21 o (requestDomains false (benchOff t) t)

/-- Codes of a cell of the strip under one dither sequence, summed (R254). -/
def benchSum (s : State) (b : Bytes) (band seq cell row ch : Nat) : Nat :=
  ((List.range 256).map fun k => bmpCode s b band seq (16 * cell + k % 16) (16 * row + k / 16) ch).sum

/-- The Bench dose of a cell and colour for one tile and band (R254). -/
def benchDose (s : State) (b : Bytes) (n band cell row ch : Nat) : Nat :=
  let cr := min (bmpCurrent b) (ceilOf (16 - (tileOf s n).cut))
  meanDose ((List.range 4).map fun seq => doseOf (benchSum s b band seq cell row ch) cr (weightOf s band ch))

/-- Both copies take the dose of the Bench frames of one tile (R254). -/
def addBenchDose (b : Bytes) (n : Nat) (s : State) : State :=
  let cells := (List.range 90).flatMap fun y => (List.range 240).map fun a => (240 * (n % 8) + a, 90 * (n / 8) + y)
  let extra := cells.flatMap fun c => (List.range 3).map fun ch =>
    (3 * (1920 * c.2 + c.1) + ch, ((List.range 4).map fun band =>
      Tbl.get s.tim.benchCounts 0 (4 * n + band) * benchDose s b n band c.1 c.2 ch).sum)
  let put (copy : Nat) (lb : Tbl (Tbl Nat)) : Tbl (Tbl Nat) :=
    let k := 2 * copy + longInUse s copy
    Tbl.set k (addBank (Tbl.get lb [] k) extra) lb
  if (List.range 4).all fun band => Tbl.get s.tim.benchCounts 0 (4 * n + band) = 0 then s
  else { s with out := { s.out with lb := put 1 (put 0 s.out.lb) } }

/-- The dose of the Bench frames goes into the ledger, and their counts are 0 (R254). -/
def takeBenchDose (s : State) : State :=
  let t := match s.tim.bitmap with
    | none => s
    | some b => ((stripRows s).flatMap fun r => List.range' (8 * r) 8).foldl (fun t n => addBenchDose b n t) s
  { t with tim := { t.tim with benchCounts := [] } }

/-- Bench ends at the tick of the exit's mode change (R216, R219, R254). -/
def exitBench (o : Origin) (s : State) : State :=
  let t := logBench 0x22 o (takeBenchDose s)
  { t with tim := { t.tim with bench := .off, leaveSince := none }, walec := { t.walec with cause := none } }

/-- One Bench frame of every strip tile in its band (R254). -/
def countBench (s : State) : State :=
  if s.tim.mode = 0x10 && s.tim.transLeft = 0 then
    (shownLinks s).foldl (fun t n =>
      let k := 4 * n + (tileOf t n).band
      { t with tim := { t.tim with benchCounts := Tbl.set k (wrapAdd 32 (Tbl.get t.tim.benchCounts 0 k) 1) t.tim.benchCounts } }) s
  else s

/-! ### The frame tick (R22 to R25, R196, R200, R203 to R207, R529 to R532) -/

/-- STORE_ERROR entries of the frame that ends: one for each block with errors, in the order of the blocks, and the counts start over
(R67, R82, R253, R509). -/
def storeErrors (s : State) : State :=
  let e (k n : Nat) (t : State) : State := if n = 0 then t else log (hw k) k 0x37 n t
  let t := e 14 s.cmp.poisonInFrame (e 1 s.out.poisonInFrame (e 0 s.geom.dedInFrame s))
  { t with out := { t.out with poisonInFrame := 0 }, cmp := { t.cmp with poisonInFrame := 0 }, geom := { t.geom with dedInFrame := 0 } }

/-- The selected base of the coming tick: a change of it that takes effect at the tick holds for its registers too (R200). -/
def tickBase (s : State) : Nat :=
  (s.tim.pending.filter (·.frame ≤ s.tim.frameCount + 1)).foldl (fun b p => match p.change with
    | .selBase v => v
    | _ => b) s.tim.bureauBase

/-- The flip registers of R200: the tick time, and the same instant in the selected base by a capture on this edge. At the tick of a
realign both are read on the scale before TB3 steps (DEDUCED, log 56). -/
def flipStamp (s : State) : State :=
  let base := tickBase s
  let sel := unsigned 80 ((s.tim.nextTick : Int) - tbU s 3 + tbU s base)
  { s with tim := { s.tim with flipTb3 := s.tim.nextTick % 2 ^ 80, flipSel := sel, selBase := base } }

/-- The configured links that are UP (R220). -/
def upLinks (s : State) : List Nat := (List.range (8 * configRows s)).filter fun n => (linkOf s n).state == .up

/-- K takes the ceiling at the first tick of a new mode (R143); the consecutive count is 0 and no lowering is held (log 27). -/
def capsToCeiling (s : State) : State :=
  { s with ray := { s.ray with rows := (List.range 12).map fun r =>
      let x := rowOf s r
      (r, { x with cap := ceilingOf s.thm.clkInEffect, ceiling := ceilingOf s.thm.clkInEffect, consec := 0, heldLine := none
                   loweredSeen := x.loweredSeen || x.cap < ceilingOf s.thm.clkInEffect }) } }

/-- GENLOCK and TICK_ORIGIN as set take effect: at a mode change, a realign and the start of the raster (R541). -/
def takeGenlock (s : State) : State := { s with tim := { s.tim with genlock := s.tim.genlockParam = 1, tickOrigin := s.tim.originParam } }

/-- A mode change takes effect (R143, R203, R205, R220, R541). -/
def changeMode (f code : Nat) (o : Origin) (s : State) : State :=
  let old := s.tim.mode
  let re := subframeRate old ≠ subframeRate code
  let t := { s with tim := { s.tim with
    mode := code, modeFrame := f, modeChanged := true, transLeft := if re then 2 else 1, transRetrain := re, transFrame := f } }
  let t := { t with tim := { t.tim with retrainLinks := if re then upLinks t else [] }
                    tlk := { t.tlk with links := (List.range 96).map fun n => (n, { linkOf t n with modeDue := true, rateWait := re || (linkOf t n).rateWait }) } }
  let t := log o code 0x20 (old + 256 * code) (forgetReferences (capsToCeiling (takeGenlock t)))
  if code = 0x10 then enterBench old o t else if old = 0x10 then exitBench o t else t

/-- The geometry banks swap (R59, R69, R70). The swap of a reload under R68 clears DED_SEEN. While PD14 is off no bank holds its
set: the one that comes in is loaded when the domain is on, the other one is no longer valid (DESIGN CHOICE, log 102). -/
def swapGeom (f : Nat) (o : Origin) (s : State) : State :=
  let a := s.geom.active
  let lost := s.geom.badCopies.contains a
  log o (1 - a) 0x30 ((geomBank s a).version + 2 ^ 32 * (geomBank s (1 - a)).version)
    (forgetReferences { s with geom := { s.geom with
      active := 1 - a, swapFrame := f, loadedSince := false, dedCount := 0, dedSeen := s.geom.dedSeen && o.kind ≠ 4
      banks := if lost then Tbl.set a { geomBank s a with valid := false } s.geom.banks else s.geom.banks
      badCopies := if lost then s.geom.badCopies.filter (· ≠ a) ++ [1 - a] else s.geom.badCopies } })

/-- A realign begins: TB3 steps by -offset; on its own it is a transition interval of one frame (R529, R530). -/
def beginRealign (f : Nat) (withMode : Bool) (o : Origin) (s : State) : State :=
  let off := tb3OffsetNow s
  let move (u : Nat) : Nat := unsigned 80 ((u : Int) - off * 65536)
  let t := takeGenlock (stepBase 3 off s)
  let t := { t with tim := { t.tim with thisTick := move t.tim.thisTick, realignSeen := true }
                    spr := { t.spr with glitches := satAdd 32 t.spr.glitches 1 } }
  if withMode then t
  else log o t.tim.mode 0x20 (t.tim.mode + 256 * t.tim.mode)
    { t with tim := { t.tim with transLeft := 1, transRetrain := false, transFrame := f } }

/-- One waiting change takes effect at the tick of frame f (R23). -/
def applyChange (f : Nat) (withMode : Bool) (s : State) (p : Pending) : State :=
  match p.change with
  | .geomSwap _ => swapGeom f p.origin s
  | .curveSwap _ => swapCurves p.origin s
  | .mapSwap _ => swapMaps p.origin s
  | .stressSwap f0 => swapStress f0 p.origin s
  | .workBank => swapWorkBank s
  | .mode code => changeMode f code p.origin s
  | .realign => beginRealign f withMode p.origin s
  | .termT16 v => { s with cmp := { s.cmp with termT16 := v } }
  | .lensLead v => { s with tim := { s.tim with lensLead := v } }
  | .selBase v => { s with tim := { s.tim with bureauBase := v } }
  | .region n r => changeRegion n r s
  | .sigRelease n => releaseRegion n p.origin s
  | .bandWeights w => { s with out := { s.out with weight := w } }

/-- The changes planned for frame f or before take effect in acceptance order (R24, R25). -/
def applyChanges (f : Nat) (s : State) : State :=
  let due := s.tim.pending.filter (·.frame ≤ f)
  let withMode := due.any fun p => match p.change with
    | .mode _ => true
    | _ => false
  due.foldl (applyChange f withMode) { s with tim := { s.tim with pending := s.tim.pending.filter fun p => f < p.frame } }

/-- A transition interval that runs has one frame less; Bench runs once its interval has ended (R205, R214). -/
def transitionStep (s : State) : State :=
  let left := s.tim.transLeft - 1
  { s with tim := { s.tim with transLeft := left
                               bench := if left = 0 && s.tim.bench == .entering then .running else s.tim.bench } }

/-- First grid tick of a mode at or after a time, with its k (R529, R531). -/
def gridTickAfter (origin mode u : Nat) : Nat × Nat :=
  let p := 100000000 * 65536
  let start := gridAfter origin u - p
  match (List.range (gridTicks mode)).find? fun k => u ≤ start + k * framePeriod mode with
  | some k => (start + k * framePeriod mode, k)
  | none => (start + p, 0)

/-- The next tick time after the changes of a tick (R22, R529, R531). TB3 counts modulo 2^64 ns (R518). -/
def planTick (realigned : Bool) (s : State) : State :=
  let sum := s.tim.thisTick + framePeriod s.tim.mode
  let k := (s.tim.gridK + 1) % gridTicks s.tim.mode
  let g := gridTickAfter s.tim.tickOrigin s.tim.mode sum
  let at' (u : Nat) : Nat := u % 2 ^ 80
  if !s.tim.genlock then { s with tim := { s.tim with nextTick := at' sum } }
  else if realigned then { s with tim := { s.tim with nextTick := at' g.1, gridK := g.2 } }
  else { s with tim := { s.tim with nextTick := at' (if k = 0 then gridNear s.tim.tickOrigin sum else sum), gridK := k } }

/-- The row states of the frame that begins (R144); a frame with a held row counts as a glitch (R627). -/
def rowsTick (s : State) : State :=
  let on := composing s
  let t := { s with ray := { s.ray with rows := (List.range 12).map fun r =>
      (r, { rowOf s r with abortA := false, abortB := false, capsA := [], capsB := [] }) } }
  if on && (List.range (configRows s)).any (rowHolds s) then { t with spr := { t.spr with glitches := satAdd 32 t.spr.glitches 1 } } else t

/-- The tick time of the frame that begins (R22, R196). -/
def beginFrame (s : State) : State :=
  let t := flipStamp (advanceTo 3 s.tim.nextTick s)
  { t with tim := { t.tim with frameCount := (t.tim.frameCount + 1) % 2 ^ 64, thisTick := t.tim.nextTick, line := 0, sub := 0, lineRaised := false, latched := false, starting := false } }

/-- A frame tick (R22 to R25). The hardware's entries of the tick come before those of Walec, which writes the changes' (R509). The
slice of the witness picture in progress starts again with the new set (R160). -/
def frameStep (s : State) : State :=
  let t := if s.tim.starting then s else storeErrors (writeCaps s)
  let t := transitionStep (beginFrame t)
  let f := t.tim.frameCount
  let realigned := t.tim.pending.any fun p => p.frame ≤ f && p.change == .realign
  let t := commitTick (applyChanges f (noteSubstitutions (commitTick (applyChanges f t)) t))
  let realigned := realigned || t.tim.genlock != s.tim.genlock || t.tim.tickOrigin != s.tim.tickOrigin
  let t := outputTick (clearStreams (beginSubstitutions t))
  countBench (rowsTick (planTick realigned (freshHalves (controlTicks f t))))

/-- FRAME_TICK (R22). -/
def execFrameTick (s : State) : Out :=
  let ended := s.tim.rasterRun && (if s.tim.starting then s.tim.latched
    else s.tim.lineRaised && s.tim.line = 1499 && subframes s.tim.mode ≤ s.tim.sub + 1)
  done (ifEvent ended (frameStep s) s)

/-! ### Requests for a mode (R203, R204, R216, R218) -/

/-- The strip lies in the configuration (R204). -/
def stripOk (s : State) : Bool := s.tim.bitmap.all fun b => bmpFirst b + bmpRows b ≤ configRows s

/-- The frame at whose tick a mode change takes effect (R203, R532). -/
def modeFrameOf (s : State) (t : Target) : Nat := gridFrame s (t.frame s)

/-- The status of a MODE.SET whose fields are well formed and whose class is allowed (R203, R204). `code` 0 names the return
mode of Bench (R216). -/
def modeStatus (s : State) (allowed : Bool) (code : Nat) (t : Target) : Status :=
  let bench := s.tim.mode = 0x10
  let want := if bench && code = 0 then s.tim.benchReturn else code
  firstStatus [
    (!(modeOk code || (code = 0 && bench)) || 2 < t.kind || 3 < t.base, .format),
    ((code = 0x10 && !stripOk s) || t.tooFar s || (s.tim.genlock && t.mustHit && t.kind = 1 && modeFrameOf s t ≠ t.frame s), .range),
    (!allowed, .rights),
    (!s.tim.rasterRun || !geomReady s want || (code = 0x10 && s.tim.bitmap.isNone), .notReady),
    ((pendingMode s).isSome || 0 < s.tim.transLeft || s.tim.bench == .leaving || (code = 0x10 && !bench && !s.cmp.commits.isEmpty), .busy),
    (t.mustHit && t.late s, .late)]

/-- The exit from Bench is accepted: everything is switched on again (R215, R216). -/
def beginExit (code : Nat) (o : Origin) (s : State) : State :=
  let ret := if code = 0 then s.tim.benchReturn else code
  let t := { s with tim := { s.tim with bench := .leaving, benchReturn := ret, benchOrigin := o, leaveSince := some (tb0 s) }
                    spr := { s.spr with standby := false } }
  let t := requestDomains true (runDomains t) t
  (List.range (configRows t)).foldl (fun t r => supplyOn r t) t

/-- An accepted MODE.SET: the planned frame and the state after (R203, R216). An exit's planned frame is known when its
resources are up; until then it is the earliest one. -/
def modeAccept (code : Nat) (t : Target) (o : Origin) (s : State) : Nat × State :=
  if code = s.tim.mode && (pendingMode s).isNone then (s.tim.modeFrame, s)
  else if s.tim.mode = 0x10 then (nextFrame s, beginExit code o s)
  else (modeFrameOf s t, plan (modeFrameOf s t) (.mode code) o s)

/-- A mode request with its status. -/
def modeRequest (allowed : Bool) (code : Nat) (t : Target) (o : Origin) (s : State) : Status × Nat × State :=
  let c := modeStatus s allowed code t
  if c = .ok || (c != .format && c != .range && c != .rights && code = s.tim.mode && (pendingMode s).isNone && s.tim.rasterRun && s.tim.bench != .leaving)
  then let r := modeAccept code t o s; (.ok, r.1, r.2)
  else (c, 0, s)

/-- Everything an exit needs is up: domains ready, DRAM running, every configured link settled, every switched supply on
(R215, R216). -/
def exitReady (s : State) : Bool :=
  (runDomains s).all (domainOn s) && s.geom.badCopies.isEmpty && s.dmc.mode == .running && s.hif.walec == .running &&
  (List.range (8 * configRows s)).all fun n => (linkOf s n).state == .up || (linkOf s n).state == .failed

/-- BENCH_EXIT_READY: the change to the return mode is accepted, at a Bench latch instant (R215, R216). -/
def execBenchExitReady (s : State) : Out :=
  done (ifEvent (s.tim.bench == .leaving && exitReady s && (pendingMode s).isNone && s.tim.latched)
    (plan (gridFrame s (nextFrame s)) (.mode s.tim.benchReturn) s.tim.benchOrigin s) s)

/-- The 9610 stays in Bench after an exit that failed: what the exit switched on is switched off again (R214 to R216). -/
def stayInBench (s : State) : State :=
  let t := darkOthers (benchCpu { s with tim := { s.tim with bench := .running, leaveSince := none } })
  requestDomains false (benchOff t) (beginSelfRefresh t)

/-- What an exit from Bench still lacks (R215, R216). -/
def exitLacks (s : State) : DeviceCause :=
  .benchExit ((runDomains s).filter fun d => !domainOn s d)
    ((List.range (8 * configRows s)).filter fun n => (linkOf s n).state != .up && (linkOf s n).state != .failed)
    (s.dmc.mode != .running) (!s.geom.badCopies.isEmpty)

/-- BENCH_EXIT_TIMEOUT: 1.5 s after the acceptance the 9610 stays in Bench (R216). Its Bureau entry is a BENCH_EXIT, and Walec
reports through DEVICE what was missing (log 84). -/
def execBenchExitTimeout (s : State) : Out :=
  match s.tim.leaveSince with
  | none => done s
  | some w =>
    let t := advanceTo0 (w + 1500000000) s
    done (ifEvent (s.tim.bench == .leaving && (pendingMode s).isNone)
      (stayInBench (assertFault (logBench 0x22 byWalec { t with walec := { t.walec with cause := some (exitLacks t) } }))) s)

/-! ### The Bench schedule (R218) -/

/-- A schedule entry, when it is set. -/
def scheduleOf (s : State) (i : Nat) : Option ScheduleEntry := Tbl.find? i s.tim.schedule

/-- The entry after it has acted: the next time, or none when it acts once. -/
def rescheduled (i : Nat) (e : ScheduleEntry) (s : State) : State :=
  let again : ScheduleEntry := { e with first := (e.first + e.period * 1000000000) % 2 ^ 64, retrySince := none }
  let l := if e.period = 0 then Tbl.erase i s.tim.schedule else Tbl.set i again s.tim.schedule
  { s with tim := { s.tim with schedule := l } }

/-- The mode request of an entry (R218). -/
def scheduleRequest (i : Nat) (e : ScheduleEntry) (s : State) : Status × Nat × State :=
  modeRequest true (if e.action = 0 then 0x10 else e.mode) { kind := 2, base := e.base, value := e.first } (bySchedule i) s

/-- A missed action is recorded (R218, R511). -/
def missed (i : Nat) (e : ScheduleEntry) (s : State) : State := rescheduled i e (log (bySchedule i) i 0x23 e.action s)

/-- The entry acts as a MODE.SET: accepted it is scheduled again, refused with ST_BUSY it waits for the next latch instant, otherwise it is
missed (R218). -/
def scheduleAct (i : Nat) (e : ScheduleEntry) (s : State) : State :=
  let r := scheduleRequest i e s
  if r.1 = .ok then rescheduled i e r.2.2
  else if r.1 = .busy then { s with tim := { s.tim with schedule := Tbl.set i { e with retrySince := some (e.retrySince.getD (tb0 s)) } s.tim.schedule } }
  else missed i e s

/-- BENCH_SCHEDULE_ACTION: the time of an entry has come (R218). -/
def execBenchScheduleAction (entry : Nat) (s : State) : Out :=
  match scheduleOf s entry with
  | none => done s
  | some e => done (ifEvent (s.hif.walec == .running && e.retrySince.isNone) (scheduleAct entry e (advanceToNs e.base e.first s)) s)

/-- At a latch instant the entries that were refused with ST_BUSY are tried again, for 10 s (R218). -/
def retrySchedule (s : State) : State :=
  if s.hif.walec != .running then s
  else (List.range 16).foldl (fun t i => match scheduleOf t i with
    | none => t
    | some e => if e.retrySince.any fun w => tb0 t < w + 10000000000 then scheduleAct i e t else t) s

/-- SCHEDULE_MISSED: retried for 10 s (R218). -/
def execScheduleMissed (entry : Nat) (s : State) : Out :=
  match scheduleOf s entry with
  | none => done s
  | some e => match e.retrySince with
    | none => done s
    | some w => done (missed entry e (advanceTo0 (w + 10000000000) s))

/-! ### The latch instant (R24, R100, R107, R226, R233, R675) -/

/-- The state that the coming tick will show in its layer set and its geometry (R24, R125). -/
def comingState (s : State) : State :=
  let t := beginFrame s
  beginSubstitutions (commitTick (applyChanges t.tim.frameCount t))

/-- The Trestles fetch band 0 of the coming frame from the latch instant on (R125, R130, R675). -/
def fetchFirstBands (s : State) : State :=
  if comingComposes s then
    let u := comingState s
    (List.range (configRows s)).foldl (fun t r => startBands u r t) s
  else s

/-- What is decided at a latch instant or a start latch on behalf of the following tick; then the schedule's refused actions are tried
again (R218). -/
def latchInstant (s : State) : State :=
  let t := outputLatch (commitLatch s)
  retrySchedule (fetchFirstBands { t with tim := { t.tim with latched := true } })

/-- What a line event beside line 0 does by its number. -/
def lineWork (obs : LineObs) (sub line : Nat) (s : State) : State :=
  let last := subframes s.tim.mode ≤ sub + 1
  if line < 1440 then (if composing s then activeLine obs sub line s else if s.tim.mode = 0x10 && s.tim.transLeft = 0 then benchLine sub line s else s)
  else if line = 1440 then
    let t := if composing s then (List.range (configRows s)).foldl (fun t r => rowSubEnd sub r t) s else s
    let t := if t.dmc.mode == .running then trackingSlot obs.drifted t else t
    if last && t.dmc.mode == .running then retrainSteps t else t
  else if line = 1441 then (List.range (8 * configRows s)).foldl (fun t n => sendEnd sub n t) s
  else if line = 1442 then (shownLinks s).foldl (fun t n => controlWindow n t) s
  else if line = 1445 then (if last then evaluateRegions s else s)
  else if line = 1470 then (if last then latchInstant s else s)
  else if line = 1480 then headerLine sub s
  else s

/-- A line event (R191). The slices of the witness picture completed by then are rendered with the set in force (R160). -/
def lineStep (sub line : Nat) (obs : LineObs) (s : State) : State :=
  let s := if witnessTurn s then renderWitness (16 * obs.witnessSlices) s else s
  let t := advanceTo 3 (s.tim.thisTick + lineOffset s.tim.mode sub line) s
  let t := outputsAt sub line { t with tim := { t.tim with sub, line, lineRaised := true } }
  lineWork obs sub line (if line = 0 then subframeStart sub t else t)

/-- LINE_START (R191). -/
def execLineStart (sub line : Nat) (obs : LineObs) (s : State) : Out := done (ifEvent (lineDue s sub line) (lineStep sub line obs s) s)

/-- START_LATCH: the start latch 30 line periods of the starting mode before the first tick, and the first headers 10 line
periods later, 20 before it (R269, R675; log 81). -/
def execStartLatch (s : State) : Out :=
  let at' (k : Nat) (t : State) : State := advanceTo 3 ((t.tim.nextTick + 2 ^ 80 - linePeriods t.tim.mode k) % 2 ^ 80) t
  done (ifEvent (s.tim.rasterRun && s.tim.starting && !s.tim.latched)
    (let u := at' 20 (latchInstant (at' 30 s))
     if nextTransition u then u else sendHeaders (u.tim.frameCount + 1) 0 u) s)

end Sys2Proof.Machine
end

