-- ==== Sys2Proof/Machine/Store.lean ====
section
/-! DEFINITION. Calibration files and their banks: geometry sets (R54 to R60, R68), curve sets (R224, R225), uniformity maps
(R230 to R232) and ageing models (R245), against the signed calibration index (R639). -/

namespace Sys2Proof.Machine

/-! ### The calibration index and the panel (R55, R294, R639) -/

/-- The digest of a file stands in an entry of the governing index (R55, R639). -/
def listed (s : State) (file : Bytes) : Bool :=
  s.bot.calIndex.any fun x => x.entries.any fun e => padTo 48 e.digest == padTo 48 (Config.sha384 file)

/-- The panel checks of R55. While the IDENT frames disagree a set for any of the panels reported passes (R294, log 86). -/
def panelStatus (s : State) (id : Nat) : Status :=
  match s.geom.panelId with
  | none => .notReady
  | some p => if p = id || s.geom.otherPanels.contains id then .ok else .mismatch

/-- A set of a kind is loaded: once geometry, curves and map are renewed, the mismatch of R294 is over and the panel of the
last set is the attached one (log 86). -/
def renewSet (kind panel : Nat) (s : State) : State :=
  let l := if s.geom.renewed.contains kind then s.geom.renewed else kind :: s.geom.renewed
  if !s.geom.panelMismatch then s
  else if [1, 2, 3].all l.contains then
    { s with geom := { s.geom with panelMismatch := false, otherPanels := [], renewed := [], panelId := some panel } }
  else { s with geom := { s.geom with renewed := l } }

/-- A file as one load verb checks it: the order of R55. `want` is the VERSION of the object reference, 0 for any (R494). -/
def fileStatus (s : State) (file : Bytes) (header sums last : Bool) (panel : Option Nat) (want : Nat) : Status :=
  let p := panel.elim Status.ok (panelStatus s)
  firstStatus [(!header, .format), (want ≠ 0 && want ≠ leAt file 4 4, .mismatch), (!sums, .checksum), (!listed s file, .rights),
    (p != .ok, p), (!last, .format)]

/-! ### Geometry sets (R47, R54 to R58) -/

/-- The header checks of R55. -/
def geomHeaderOk (f : Bytes) : Bool :=
  f.length = 1037664 && leAt f 0 4 = 0x53474750 && leAt f 4 4 ≠ 0 && leAt f 8 2 = 480 && leAt f 10 2 = 270 && leAt f 12 2 = 200
    && leAt f 14 2 ≤ 1 && leAt f 32 4 = 64 && leAt f 36 4 = 864 && leAt f 40 4 = 1037600 && zeroAt f 48 12

/-- HEADER_CRC and PAYLOAD_CRC. -/
def geomSumsOk (f : Bytes) : Bool := crc32c (f.take 60) = leAt f 60 4 && crc32c (f.drop 64) = leAt f 44 4

/-- A field whose upper two bits agree (R47). -/
def wellSigned (v : Nat) : Bool := bit v 15 == bit v 14

/-- No entry is malformed (R47). -/
def geomEntriesOk (f : Bytes) : Bool :=
  (List.range 129600).all fun k => wellSigned (leAt f (864 + 8 * k + 4) 2) && wellSigned (leAt f (864 + 8 * k + 6) 2)

/-- Status of a geometry file (R55). -/
def geomFileStatus (s : State) (f : Bytes) (want : Nat) : Status :=
  fileStatus s f (geomHeaderOk f) (geomSumsOk f) (geomEntriesOk f) (some (leAt f 16 8)) want

/-- The bank that a geometry file gives (R45, R46, R54). -/
def geomOfFile (f : Bytes) : GeomBank :=
  { version := leAt f 4 4, phaseBValid := bit (leAt f 14 2) 0, valid := true
    bd := (List.range 200).map fun k => (k, leAt f (64 + 4 * k) 2, leAt f (66 + 4 * k) 2)
    grid := (List.range 129600).map fun k =>
      let o := 864 + 8 * k
      (k, { du := leAt f o 2, dv := leAt f (o + 2) 2, dtx := leAt f (o + 4) 2, dty := leAt f (o + 6) 2 }) }

/-- A copy that the load writes does not match PAYLOAD_CRC when it is read back: half 0, and half 1 with PD15 on (R56). -/
def copyFails (bad : List Nat) (s : State) : Bool := bad.contains 0 || (domainOn s 15 && bad.contains 1)

/-- A load writes the bank that is not active, in half 0 and, with PD15 on, in half 1. The first write clears its valid mark, and
it is valid again only when every copy written matches (R56, R57). -/
def loadGeomFile (f : Bytes) (bad : List Nat) (s : State) : State :=
  let b := 1 - s.geom.active
  let ok := !copyFails bad s
  let g := { geomOfFile f with valid := ok }
  let t := { s with geom := { s.geom with
    banks := Tbl.set b g s.geom.banks, half1 := if domainOn s 15 then Tbl.set b g s.geom.half1 else s.geom.half1
    loadedSince := ok, badCopies := if ok then s.geom.badCopies.filter (· % 2 ≠ b) else s.geom.badCopies } }
  if ok then renewSet 1 (leAt f 16 8) t else t

/-! ### The copies of the geometry store after a switch-on (R62, R215) -/

/-- The file of a kind and VERSION that the governing index names in eMMC (R639). -/
def calFile (s : State) (kind version : Nat) : Option Bytes :=
  s.bot.calIndex.bind fun x => (x.entries.find? fun e => e.kind = kind && e.version = version).bind fun e => Tbl.find? e.lba s.bot.files

/-- A bank copy can be loaded again: the zero set, or a file in eMMC that passes R55. -/
def reloadable (s : State) (version : Nat) : Bool :=
  version = 0 || (calFile s 1 version).any fun f => geomFileStatus s f version == .ok

/-- PD14 is off: no bank holds its set; that of the active bank is to be loaded again (R215). -/
def geomDown0 (s : State) : State :=
  let b := 1 - s.geom.active
  { s with geom := { s.geom with banks := Tbl.set b { geomBank s b with valid := false, bd := [], grid := [] } s.geom.banks
                                 badCopies := s.geom.badCopies.filter (2 ≤ ·) ++ [s.geom.active] } }

/-- The set of a VERSION: the zero set, or the one that a file of the governing index in eMMC gives (R63, R639). -/
def geomOfVersion (s : State) (version : Nat) : GeomBank := if version = 0 then {} else (calFile s 1 version).elim {} geomOfFile

/-- PD14 is on after Bench: the active set is loaded from eMMC and verified as R62 states; a copy that fails is loaded again. -/
def geomUp0 (s : State) : State :=
  let v := (activeGeom s).version
  if s.geom.badCopies.contains s.geom.active && reloadable s v then
    { s with geom := { s.geom with banks := Tbl.set s.geom.active (geomOfVersion s v) s.geom.banks, badCopies := s.geom.badCopies.filter (2 ≤ ·) } }
  else s

/-- PD15 is on: the active bank, and the other one when it is valid, are copied into half 1. Copies that fail their verification
are loaded from eMMC; one that cannot be loaded keeps rows 6 to 11 from starting (R62). -/
def geomUp1 (bad : List Nat) (s : State) : State :=
  let copied := s.geom.banks.filter fun b => b.1 = s.geom.active || b.2.valid
  let lost := (bad.filter fun b => b < 2 && (b = s.geom.active || (geomBank s b).valid) && !reloadable s (geomBank s b).version)
  { s with geom := { s.geom with half1 := copied, badCopies := s.geom.badCopies.filter (· < 2) ++ lost.map (2 + ·) } }

/-! ### Curve sets (R224, R225) -/

/-- The header checks of R55 and R225. -/
def curveHeaderOk (f : Bytes) : Bool :=
  let t1 := signed 16 (leAt f 8 2)
  let t2 := signed 16 (leAt f 10 2)
  let t3 := signed 16 (leAt f 12 2)
  let h : Int := leAt f 14 2
  f.length = 98368 && leAt f 0 4 = 0x43444750 && leAt f 4 4 ≠ 0 && zeroAt f 24 32 && t1 < t2 && t2 < t3 && h < t2 - t1 && h < t3 - t2 && h ≤ 160

/-- HEADER_CRC and PAYLOAD_CRC. -/
def curveSumsOk (f : Bytes) : Bool := crc32c (f.take 60) = leAt f 60 4 && crc32c (f.drop 64) = leAt f 56 4

/-- Entry [b][ch][n] by its index. -/
def curveEntry (f : Bytes) (k : Nat) : Nat := leAt f (64 + 2 * k) 2

/-- Every curve starts at 0 and does not decrease (R225). -/
def curveEntriesOk (f : Bytes) : Bool :=
  (List.range 49152).all fun k => if k % 4096 = 0 then curveEntry f k = 0 else curveEntry f (k - 1) ≤ curveEntry f k

/-- Status of a curve file (R225). -/
def curveFileStatus (s : State) (f : Bytes) (want : Nat) : Status :=
  fileStatus s f (curveHeaderOk f) (curveSumsOk f) (curveEntriesOk f) (some (leAt f 16 8)) want

/-- The bank that a curve file gives. -/
def curvesOfFile (f : Bytes) : CurveBank :=
  { version := leAt f 4 4, valid := true, values := (List.range 49152).map fun k => (k, curveEntry f k)
    t1 := signed 16 (leAt f 8 2), t2 := signed 16 (leAt f 10 2), t3 := signed 16 (leAt f 12 2), hyst := leAt f 14 2 }

/-- A load into the curve bank that is not active. -/
def loadCurveFile (f : Bytes) (s : State) : State :=
  renewSet 2 (leAt f 16 8)
    { s with out := { s.out with curves := Tbl.set (1 - s.out.curveActive) (curvesOfFile f) s.out.curves, curveLoaded := true } }

/-! ### Uniformity maps (R230 to R232) -/

/-- The header checks of R55 for a map. -/
def mapHeaderOk (f : Bytes) : Bool :=
  64 ≤ f.length && leAt f 0 4 = 0x4D554750 && leAt f 4 4 ≠ 0 && zeroAt f 40 20 && f.length = 64 + leAt f 16 8 + leAt f 24 8

/-- The inflated planes of a map file (R231); none where a stream does not inflate to the plane's length. -/
def mapPlanes (f : Bytes) : Option (Bytes × Bytes) :=
  match inflateAll 1 16588801 ((f.drop 64).take (leAt f 16 8)), inflateAll 1 796262401 (f.drop (64 + leAt f 16 8)) with
  | some b, some r => if b.length = 16588800 && r.length = 796262400 then some (b, r) else none
  | _, _ => none

/-- Status of a map file (R232): header, signature and panel by R55, then the planes. -/
def mapFileStatus (s : State) (f : Bytes) (want : Nat) : Status :=
  let c := fileStatus s f (mapHeaderOk f) (crc32c (f.take 60) = leAt f 60 4) true (some (leAt f 8 8)) want
  if c != .ok then c
  else match mapPlanes f with
    | none => .format
    | some (b, r) => if crc32c b = leAt f 32 4 && crc32c r = leAt f 36 4 then .ok else .checksum

/-- The bank that a map file gives (R230). -/
def mapOfFile (f : Bytes) : MapBank :=
  let (b, r) := (mapPlanes f).getD ([], [])
  { version := leAt f 4 4, valid := true
    base := (List.range (3 * 2073600)).map fun k => (k, leAt b (8 * (k / 3) + 2 * (k % 3)) 2)
    resid := (List.range (3 * 30720 * 17280)).map fun k =>
      (k, let q := 12 * (k / 3 % 30720) + 4 * (k % 3); u8 r (46080 * (k / 3 / 30720) + q / 8) / 2 ^ (q % 8) % 16) }

/-- A load into the map bank that is not active. A plane that fails leaves the bank invalid (R57, R232). -/
def loadMapFile (f : Bytes) (s : State) : State :=
  internalJob (leAt f 24 8) 796262400 <| internalJob (leAt f 16 8) 16588800 <| renewSet 3 (leAt f 8 8)
    { s with out := { s.out with maps := Tbl.set (1 - s.out.mapActive) (mapOfFile f) s.out.maps, mapLoaded := true } }

/-! ### Ageing models (R245) -/

/-- KNOTS of a model file. -/
def modelKnots (f : Bytes) : Nat := u8 f 8

/-- The knots of colour ch. -/
def knotsOf (f : Bytes) (ch : Nat) : List (Nat × Nat) :=
  (List.range (modelKnots f)).map fun k => let o := 64 + 8 * (modelKnots f * ch + k); (leAt f o 4, leAt f (o + 4) 2)

/-- DOSE rises strictly, RETAIN never rises and stays above 0 (R245). -/
def knotsRise : List (Nat × Nat) → Bool
  | a :: b :: r => a.1 < b.1 && b.2 ≤ a.2 && 0 < b.2 && knotsRise (b :: r)
  | _ => true

/-- The header checks of a model. -/
def modelHeaderOk (f : Bytes) : Bool :=
  f.length = 64 + 24 * modelKnots f && leAt f 0 4 = 0x4D414750 && leAt f 4 4 ≠ 0 && 2 ≤ modelKnots f && modelKnots f ≤ 64 && u8 f 9 ≤ 40
    && zeroAt f 10 2 && zeroAt f 24 32 && (List.range 12).all fun k => 1 ≤ u8 f (12 + k)

/-- Status of a model file (R55, R245). A model names no panel. -/
def modelFileStatus (s : State) (f : Bytes) (want : Nat) : Status :=
  let knots := (List.range 3).all fun ch => (knotsOf f ch).head? == some (0, 32768) && knotsRise (knotsOf f ch)
  let reserved := (List.range (3 * modelKnots f)).all fun k => zeroAt f (64 + 8 * k + 6) 2
  fileStatus s f (modelHeaderOk f) (crc32c (f.take 60) = leAt f 60 4 && crc32c (f.drop 64) = leAt f 56 4) (knots && reserved) none want

/-- The model that a file gives. -/
def modelOfFile (f : Bytes) : AgeModel :=
  { version := leAt f 4 4, doseShift := u8 f 9, weight := (List.range 12).map fun k => (k, u8 f (12 + k)), knots := (List.range 3).map fun ch => (ch, knotsOf f ch) }

/-- A new model changes WEIGHT at a frame tick and is first used at the next update (R245). -/
def takeModel (f : Bytes) (o : Origin) (s : State) : State :=
  let m := modelOfFile f
  plan (nextFrame s) (.bandWeights m.weight) o { s with out := { s.out with model := some m } }

/-! ### Activation (R58 to R60, R65, R225, R232) -/

/-- The two banks of one kind of set, as an activation sees them. -/
structure BankPair where
  activeVersion : Nat
  valid : Bool
  version : Nat
  loadedSince : Bool
  /-- The frame at whose tick the active set took effect (R58). -/
  frame : Nat
  /-- A swap is pending (R60). -/
  pending : Bool
  deriving DecidableEq, Repr

/-- The geometry banks. -/
def geomPair (s : State) : BankPair :=
  let b := geomBank s (1 - s.geom.active)
  { activeVersion := (activeGeom s).version, valid := b.valid, version := b.version, loadedSince := s.geom.loadedSince
    frame := s.geom.swapFrame, pending := (pendingGeom s).isSome }

/-- A curve swap is pending. -/
def curvePending (s : State) : Bool := s.tim.pending.any fun p => match p.change with
  | .curveSwap _ => true
  | _ => false

/-- A map swap is pending. -/
def mapPending (s : State) : Bool := s.tim.pending.any fun p => match p.change with
  | .mapSwap _ => true
  | _ => false

/-- The curve banks. -/
def curvePair (s : State) : BankPair :=
  let b := curveBank s (1 - s.out.curveActive)
  { activeVersion := (curveBank s s.out.curveActive).version, valid := b.valid, version := b.version, loadedSince := s.out.curveLoaded
    frame := s.out.curveFrame, pending := curvePending s }

/-- The map banks. -/
def mapPair (s : State) : BankPair :=
  let b : MapBank := Tbl.get s.out.maps {} (1 - s.out.mapActive)
  { activeVersion := (activeMap s).version, valid := b.valid, version := b.version, loadedSince := s.out.mapLoaded
    frame := s.out.mapFrame, pending := mapPending s }

/-- What an activation decides (R58, R60): busy, nothing to do, a swap, or not ready. -/
inductive Activation where
  | busy | nothing | swap | notReady
  deriving DecidableEq, Repr

/-- R58 and R60. -/
def BankPair.decide (b : BankPair) (version : Nat) : Activation :=
  if b.pending then .busy
  else if version = b.activeVersion then (if b.valid && b.version = version && b.loadedSince then .swap else .nothing)
  else if b.valid && b.version = version then .swap else .notReady

/-- R65: the set that comes in is allowed in the mode in effect and in the mode of an accepted change. -/
def geomFits (s : State) : Bool :=
  let g := geomBank s (1 - s.geom.active)
  (s.tim.mode = 0 || geomAllows g s.tim.mode) && (pendingMode s).all fun m => geomAllows g m.1

/-- The active version as eMMC returns it goes into the inactive bank, and a swap to it is planned when every copy matches. A
file that fails a check of R55 changes nothing but EMMC_ERR_SEEN: no swap is planned and DED_SEEN stays set (log 87). -/
def reloadGeom (file : Bytes) (bad : List Nat) (s : State) : State :=
  if geomFileStatus s file (activeGeom s).version == .ok && leAt file 4 4 = (activeGeom s).version then
    let t := loadGeomFile file bad s
    if copyFails bad s then t else plan (nextFrame s) (.geomSwap (leAt file 4 4)) byWalec t
  else { s with bot := { s.bot with emmcErrSeen := true } }

/-- A copy in half 1 that failed its verification is loaded again from the file of its VERSION (R62). -/
def repairBank (file : Bytes) (bad : List Nat) (b : Nat) (s : State) : State :=
  let v := (geomBank s b).version
  if s.geom.badCopies.contains (2 + b) && geomFileStatus s file v == .ok && leAt file 4 4 = v && !bad.contains 1 then
    { s with geom := { s.geom with half1 := Tbl.set b (geomOfFile file) s.geom.half1, badCopies := s.geom.badCopies.filter (· ≠ 2 + b) } }
  else s

/-- Both banks of half 1. -/
def repairCopy (file : Bytes) (bad : List Nat) (s : State) : State := repairBank file bad 1 (repairBank file bad 0 s)

/-- GEOM_DED_RELOAD (R68): `file` is a set as eMMC returns it, for the reload that of the active version. A failed copy of that version
in half 1 is repaired with it (R62). -/
def execGeomDedReload (file : GeomInput) (s : State) : Out :=
  let ready := s.hif.walec == .running && s.bot.emmcReady
  let t := repairCopy file.file file.badCopies s
  let repaired := t.geom.badCopies != s.geom.badCopies
  done (ifEvent ready
    (if s.geom.dedSeen && (pendingGeom s).isNone && (!repaired || leAt file.file 4 4 = (activeGeom s).version) then reloadGeom file.file file.badCopies t else t) s)

end Sys2Proof.Machine
end

