-- ==== Sys2Proof/Machine/Power.lean ====
section
/-! DEFINITION. Power domains and the PMBus controller (17_clocks_resets_power.md, R569 to R578, R584 to R586). -/

namespace Sys2Proof.Machine

/-! ### Power domains (R62, R275, R569 to R571) -/

/-- Set the state of a domain. -/
def setDomain (d : Nat) (x : DomainState) (s : State) : State := { s with pwr := { s.pwr with domains := Tbl.set d x s.pwr.domains } }

/-- The index in CLK_PLL_STATUS of the PLL that a domain's bring-up locks (R548, R570, R581). -/
def pllOf (d : Nat) : Option Nat := if 21 ≤ d && d ≤ 29 then some (d - 21) else if 30 ≤ d && d ≤ 41 then some (d - 21) else if d = 42 then some 21 else none

/-- Set or clear a lock (R581). -/
def setLock (on : Bool) (d : Nat) (s : State) : State :=
  match pllOf d with
  | none => s
  | some k => { s with clk := { s.clk with locks := (s.clk.locks.filter (· ≠ k)) ++ if on then [k] else [] } }

/-- The cluster of a domain that has come up: bound to a row, or a spare of the pool (R120, R164, R613). -/
def clusterUp (c : Nat) (s : State) : State :=
  if (List.range 12).any fun r => r < configRows s && (rowOf s r).cluster = c then setCluster c .bound s
  else if s.spr.retired.contains c || s.spr.toTest.contains c then s
  else setCluster c .spare { s with ray := { s.ray with spares := if s.ray.spares.contains c then s.ray.spares else s.ray.spares ++ [c] } }

/-- The copy starts (R434, R440). -/
def startCopy (s : State) : State :=
  setSite s.dmc.migrateTo { siteOf s s.dmc.migrateTo with state := .target } { s with dmc := { s.dmc with migrate := .copying } }

/-- The bring-up of a domain (R62, R215, R275, R434, R570); `bad` names the geometry banks whose copy fails its verification. -/
def domainUp (d : Nat) (bad : List Nat) (s : State) : State :=
  let s := setLock true d s
  if d < 14 then clusterUp d s
  else if d = 14 then geomUp0 s
  else if d = 15 then geomUp1 bad s
  else if d = 16 || d = 17 then (if (coreOf s (d - 16)).state == .faulted then s else setCore (d - 16) { coreOf s (d - 16) with state := .idle } s)
  else if d = 18 then { s with enc := { s.enc with mode := .waitIdr, needIdr := true } }
  else if d = 19 then { s with blt := { s.blt with state := .idle } }
  else if d = 20 then { s with dfl := { s.dfl with state := .idle } }
  else if 21 ≤ d && d ≤ 29 then
    settleExit (if s.dmc.migrate == .preparing && d = 21 + s.dmc.migrateTo && (siteOf s (d - 21)).state == .training then startCopy s else s)
  else if 30 ≤ d && d ≤ 41 then
    let n := 8 * (d - 30)
    groupOn (d - 30) { s with spr := { s.spr with noAuto := s.spr.noAuto.filter (fun l => l / 8 ≠ d - 30)
                                                  autoRestored := s.spr.autoRestored.filter fun l => l.1 < n || n + 8 ≤ l.1 } }
  else if d = 43 then joinSpare s
  else s

/-- What a domain leaves when it is off; a FAULTED cluster or core still reads so (R157, R164, R215, R677; R275, R334, R354, R377, R400). -/
def domainDown (d : Nat) (s : State) : State :=
  if d < 14 then (if clusterOf s d == .faulted then s else setCluster d .off s)
  else if d = 14 then geomDown0 s
  else if d = 15 then { s with geom := { s.geom with half1 := [], badCopies := s.geom.badCopies.filter (· < 2) } }
  else if d = 16 || d = 17 then setCore (d - 16) { coreOf s (d - 16) with state := if (coreOf s (d - 16)).state == .faulted then .faulted else .off, ctx := none } s
  else if d = 18 then { s with enc := { s.enc with mode := .off, needIdr := true, picture := none, waiting := none } }
  else if d = 19 then { s with blt := { s.blt with state := .off } }
  else if d = 20 then { s with dfl := { s.dfl with state := .off } }
  else if 30 ≤ d && d ≤ 41 then groupOff (d - 30) s
  else if d = 42 then ethDown 1 (ethDown 0 s)
  else s

/-- The block of a domain is idle (R21, R569); a site's domain waits for its self-refresh entry (R430). -/
def blockIdle (s : State) (d : Nat) : Bool :=
  if d = 16 || d = 17 then (coreOf s (d - 16)).ctx.isNone
  else if d = 18 then s.enc.picture.isNone
  else if d = 19 then s.blt.flight.isEmpty
  else if d = 20 then s.dfl.lanes.isEmpty
  else if 21 ≤ d && d ≤ 29 then s.dmc.mode != .entering || (List.range 4).all fun k => (dramChannel s (4 * (d - 21) + k)).asleep
  else true

/-- The request at the head of the sequencer's queue, while no domain is coming up (R571). -/
def sequencerHead (s : State) : Option (Bool × Nat) :=
  if s.pwr.domains.any fun d => d.2 == .coming then none else s.pwr.queue.head?

/-- Drop the head. -/
def popSequencer (s : State) : State := { s with pwr := { s.pwr with queue := s.pwr.queue.drop 1 } }

/-- DOMAIN_SWITCH_ON (R569): a retired unit stays off (R613). -/
def execDomainSwitchOn (d : Nat) (s : State) : Out :=
  let retired := (d < 14 || d = 16 || d = 17) && s.spr.retired.contains d
  done (ifEvent (sequencerHead s == some (true, d))
    (if retired || domainOn s d then popSequencer s else setDomain d .coming (popSequencer s)) s)

/-- DOMAIN_READY (R570, R571): a switch-on that succeeds clears the mark. -/
def execDomainReady (d : ReadyDomain) (s : State) : Out :=
  done (ifEvent (domainOf s d.num == .coming)
    (domainUp d.num d.badCopies
      (setDomain d.num .ready { s with pwr := { s.pwr with failedMarks := s.pwr.failedMarks.filter (· ≠ d.num) } })) s)

/-- DOMAIN_SWITCH_OFF (R569): once the block is idle. -/
def execDomainSwitchOff (d : Nat) (s : State) : Out :=
  done (ifEvent (sequencerHead s == some (false, d) && blockIdle s d)
    (setLock false d (domainDown d (setDomain d .off (popSequencer s)))) s)

/-- Redundancy governs the block of a domain that has failed (R571; log 114): a cluster and a core await their self-test as after a
fault, a spare takes the place of a bound cluster or of one kept for a row, and without the spare processor its class is exhausted. -/
def blockFailed (d : Nat) (s : State) : State :=
  if d < 14 then
    let t := noteFault d (setCluster d .faulted (leavePool d s))
    match (List.range (configRows s)).find? fun r => (rowOf s r).cluster = d && (rowOf s r).toBind.isNone with
    | none => checkClusters (replaceReserved d t)
    | some r => (freeSpares t).head?.elim (checkClusters t) fun k => checkClusters (reserveSpare r k (bindPoint s r) t)
  else if d = 16 || d = 17 then faultCore (d - 16) s
  else if d = 43 then exhaust 2 s
  else s

/-- DOMAIN_FAULT (R571, R579): the domain is switched off and marked. -/
def execDomainFault (d step : Nat) (s : State) : Out :=
  done (ifEvent (domainOf s d == .coming)
    (blockFailed d (log (hw 10) d 0xB8 step
      (domainDown d (setDomain d .off { s with pwr := { s.pwr with failedMarks := d :: s.pwr.failedMarks.filter (· ≠ d) } })))) s)

/-! ### Panel current (R574) -/

/-- Entry n of the device table. -/
def deviceOf (s : State) (n : Nat) : PmbusDevice := Tbl.get s.pwr.devices {} n
/-- Set entry n. -/
def setDevice (n : Nat) (x : PmbusDevice) (s : State) : State := { s with pwr := { s.pwr with devices := Tbl.set n x s.pwr.devices } }

/-- An entry has had no valid READ_IOUT for 100 ms. -/
def staleIout (s : State) (d : PmbusDevice) : Bool := d.iout.all fun v => v.2 + 100000000 ≤ tb0 s

/-- What an entry contributes to I_PANEL, mA (R574). -/
def panelShare (s : State) (d : PmbusDevice) : Nat := if staleIout s d then 10 * d.ioutMax else d.iout.elim 0 (·.1)

/-- I_LIMIT in force, mA. -/
def limitOf (s : State) : Nat := s.out.iLimit.getD 1000000

/-- A condition's starting time. -/
def since (was : Option Nat) (now : Nat) (c : Bool) : Option Nat := if c then some (was.getD now) else none

/-- The end of a round of reads: I_PANEL, STALE and the conditions of R578. -/
def endRound (s : State) : State :=
  let ds := s.pwr.devices.filter fun d => d.2.counts && d.2.role ≠ 0
  let i := (ds.map fun d => panelShare s d.2).sum
  let now := tb0 s
  let p := s.pwr
  { s with pwr := { p with
    iPanel := i % 2 ^ 32, stale := ds.any fun d => staleIout s d.2
    overSince := since p.overSince now (5 * limitOf s < 4 * i), lowSince := since p.lowSince now (10 * i ≤ 9 * limitOf s)
    shedding := if i ≤ limitOf s then none else p.shedding } }

/-- One READ_IOUT; a transaction that has failed after its retry sets BUS_ERR_SEEN (R574, R585). -/
def readIout (s : State) (r : PmbusReading) : State :=
  match r.value with
  | some v => setDevice r.entry { deviceOf s r.entry with iout := some (v, tb0 s) } s
  | none => { s with pwr := { s.pwr with busErrSeen := true } }

/-- IOUT_POLL (R574): polling stops with CK_AON (R557). -/
def execIoutPoll (readings : List PmbusReading) (s : State) : Out := done (ifEvent (clocked s) (endRound (readings.foldl readIout s)) s)

/-- One entry's STATUS_WORD, READ_VOUT and READ_TEMPERATURE_1; a transaction that has failed after its retry sets BUS_ERR_SEEN
(R574, R585). -/
def readStatus (s : State) (r : Nat × Option (Nat × Nat × Nat)) : State :=
  match r.2 with
  | some v => setDevice r.1 { deviceOf s r.1 with statusWord := v.1 % 65536, vout := v.2.1 % 65536, temp := v.2.2 % 65536 } s
  | none => { s with pwr := { s.pwr with busErrSeen := true } }

/-- STATUS_POLL (R574): polling stops with CK_AON (R557). -/
def execStatusPoll (readings : List (Nat × Option (Nat × Nat × Nat))) (s : State) : Out :=
  done (ifEvent (clocked s) (readings.foldl readStatus s) s)

/-! ### Row supplies (R575 to R578) -/

/-- A row is switched off under R576: DARK, then the wait. -/
def rowOff (r : Nat) (s : State) : State := supplyOff r (darkRow r s)

/-- A TILE_SUPPLY of a row fails: off, SUPPLY_FAILED, FAULT#; a second failure within 10 minutes keeps it off (R577). -/
def failRow (r : Nat) (s : State) : State :=
  let x := supplyOf s r
  if x.state == .off || x.state == .goingOff then s
  else
    let now := tb0 s
    let again := x.failures.any fun t => now < t + 600000000000
    let t := setSupply r { x with failed := true, failures := now :: x.failures, barred := x.barred || again } s
    log (hw 10) r 0xB5 t.pwr.iPanel (assertFault (rowOff r t))

/-- STATUS_WORD shows a failure of R575: unexpected OFF, over-voltage, over-current, over-temperature or an output voltage
fault (bits 6, 5, 4, 2 and 15 of PMBus Part II; log 20). -/
def statusFails (w : Nat) : Bool := bit w 6 || bit w 5 || bit w 4 || bit w 2 || bit w 15

/-- A read STATUS_WORD is kept, and a TILE_SUPPLY that shows a failure fails (R575). -/
def takeStatus (s : State) (e : Nat × Nat) : State :=
  let d := deviceOf s e.1
  let t := setDevice e.1 { d with statusWord := e.2 % 65536 } s
  if d.role = 2 && statusFails e.2 then failRow d.row t else t

/-- The status of an entry at the responding address (R575, R586). -/
def takeAlert (s : State) (e : Nat × Nat) : State :=
  let t := { s with pwr := { s.pwr with alertStatus := e.2 % 65536, alertEntry := e.1, alertAddr := (deviceOf s e.1).addr % 128, alertValid := true } }
  takeStatus (log (hw 10) e.1 0xB4 (e.2 % 65536) (send (.clearFaults e.1) t)) e

/-- SMBALERT (R575): `response` is the address that answers the Alert Response Address. -/
def execSmbalert (response : Option Nat) (status : List (Nat × Nat)) (s : State) : Out :=
  let t := send .alertResponse { s with pwr := { s.pwr with smbalert := true, alertSeen := true } }
  done (ifEvent (!s.pwr.porst) (match response with
    | none => { t with pwr := { t.pwr with alertStuck := true } }
    | some a => (status.filter fun e => (deviceOf s e.1).addr = a && (deviceOf s e.1).role ≠ 0).foldl takeAlert t) s)

/-- ALERT_STUCK_POLL (R575). -/
def execAlertStuckPoll (status : List (Nat × Nat)) (s : State) : Out := done (ifEvent s.pwr.alertStuck (status.foldl takeStatus s) s)

/-- SMBALERT_RELEASE (R575). -/
def execSmbalertRelease (s : State) : Out := done { s with pwr := { s.pwr with smbalert := false, alertStuck := false } }

/-- POWER_GOOD (R576): the row's link group is switched on. -/
def execPowerGood (row : Nat) (s : State) : Out :=
  let x := supplyOf s row
  done (ifEvent (x.state == .waiting && rowWanted s row) (requestDomain true (30 + row) (setSupply row { x with state := .on } s)) s)

/-- PGOOD_TIMEOUT (R577): the shortest PGOOD_MS of the row's entries has run out. -/
def execPgoodTimeout (row : Nat) (s : State) : Out :=
  let x := supplyOf s row
  let ms := (rowDevices s row).foldl (fun m d => min m d.2.pgoodMs) 500
  done (ifEvent (x.state == .waiting) (failRow row (advanceTo0 (x.since + 1000000 * ms) s)) s)

/-- The links of a row, its group's domain and its supplies go off (R576). -/
def supplyGone (row : Nat) (s : State) : State :=
  let t := requestDomain false (30 + row) (groupOff row (setSupply row { supplyOf s row with state := .off } s))
  sendAll ((rowDevices s row).map fun d => .pmbus d.1 false) t

/-- TILE_SUPPLY_OFF (R576): 40 ms after DARK the links, the group's domain and the supplies go off. -/
def execTileSupplyOff (row : Nat) (s : State) : Out :=
  let x := supplyOf s row
  done (ifEvent (x.state == .goingOff) (supplyGone row (advanceTo0 (x.since + 40000000) s)) s)

/-- SUPPLY_RETRY (R577): once, 1 s after the failure. -/
def execSupplyRetry (row : Nat) (s : State) : Out :=
  let x := supplyOf s row
  let t := advanceTo0 (x.failures.headD 0 + 1000000000) s
  done (ifEvent (x.failed && x.state == .off && !x.barred && rowWanted s row) (supplyOnAt (tb0 t) row t) s)

/-- The summed current of a row's supplies, mA (R578). -/
def rowCurrent (s : State) (r : Nat) : Nat := ((rowDevices s r).map fun d => d.2.iout.elim 0 (·.1)).sum

/-- The configured row in service with the highest current, the lowest-numbered of equals (R578). -/
def heaviestRow (s : State) : Option Nat :=
  ((List.range (configRows s)).filter fun r => (supplyOf s r).state == .on).foldl (fun m r => match m with
    | none => some r
    | some k => if rowCurrent s k < rowCurrent s r then some r else some k) none

/-- When the next row is to be shed: 10 s of LIMIT_FLOOR, 100 ms beyond 1.25 I_LIMIT, or 1 s after the last one (R578). -/
def shedTime (s : State) : Option Nat :=
  match s.pwr.shedding with
  | some t => some (t + 1000000000)
  | none =>
    match s.pwr.floorSince.map (· + 10000000000), s.pwr.overSince.map (· + 100000000) with
    | some a, some b => some (min a b)
    | some a, none => some a
    | none, b => b

/-- A row is shed (R578). -/
def shedRow (r : Nat) (s : State) : State :=
  let x := supplyOf s r
  let now := tb0 s
  let again := x.sheds.any fun t => now < t + 600000000000
  let t := setSupply r { x with shed := true, sheds := now :: x.sheds, barred := x.barred || again } s
  let t := { t with pwr := { t.pwr with shedSeen := true, shedding := some now } }
  log (hw 10) r 0xB6 t.pwr.iPanel (rowOff r t)

/-- ROW_SHED (R578). -/
def execRowShed (s : State) : Out :=
  match shedTime s with
  | none => done s
  | some u =>
    let t := advanceTo0 u s
    done ((heaviestRow t).elim t fun r => shedRow r t)

/-- ROW_RESTORED (R578): 60 s after shedding, with I_PANEL low for the preceding 10 s. -/
def execRowRestored (row : Nat) (s : State) : Out :=
  let x := supplyOf s row
  match s.pwr.lowSince with
  | none => done s
  | some low =>
    let t := advanceTo0 (max (x.sheds.headD 0 + 60000000000) (low + 10000000000)) s
    done (ifEvent (x.shed && x.state == .off && !x.barred && rowWanted s row)
      (log (hw 10) row 0xB7 t.pwr.iPanel (supplyOnAt (tb0 t) row (setSupply row { x with shed := false } t))) s)

end Sys2Proof.Machine
end

