-- ==== Sys2Proof/Machine/Resets.lean ====
section
/-! DEFINITION. Reference selection, stops and holds, and the resets (17_clocks_resets_power.md R547 to R568, R581 to R583;
02 R63, 04 R120, 06 R217, 19 R618). -/

namespace Sys2Proof.Machine

/-! ### The log after a cold reset (R509, R513) -/

/-- The newest segment in the archive area (R513). -/
def newestSegment (s : State) : Option Segment :=
  (s.bureau.segments.filter (·.good)).foldl (fun m x => match m with
    | none => some x
    | some y => if y.number < x.number then some x else some y) none

/-- The log opens: at SEQ S + 65,537 of the newest segment's epoch, or at 0 without one; its first entry is COLD_START with the
first SEQ that may be missing, and its ring holds nothing before it (R509, R511, R513). -/
def openLog (s : State) : State :=
  match newestSegment s with
  | none => log byWalec 0 0xF2 0 { s with bureau := { s.bureau with ring := [], nextSeq := 0, archivedSeq := 0, epoch := 0, chain := 0, chainBefore := 0 } }
  | some x =>
    let last := x.firstSeq + x.count - 1
    let b := s.bureau
    log byWalec 0 0xF2 (last + 1)
      { s with bureau := { b with ring := [], nextSeq := last + 65537, archivedSeq := last + 65537, epoch := x.epoch, chain := x.lastChain,
                                  chainBefore := x.lastChain, nextSegment := x.number + 1 } }

/-! ### Power-on reset (R120, R564, R582, R664) -/

/-- LAST codes of R582. -/
def lastCode : ResetCause → Nat
  | .powerOn => 0
  | .porst => 1
  | .cold => 2
  | .warmPin => 3
  | .warm => 4
  | .clock => 5
  | .supply => 6
  | .wardrobe => 4

/-- The straps are sampled at the rising edge of PORST#, and at the end of a power-on reset that does not come from it (R193,
R651). They say which links the configuration enables (R295), and the clusters without a row are spares after C12 and C13 (R120). -/
def sampleStraps (s : State) : State :=
  let rows := 3 * (s.pins.tileCfg + 1)
  { s with
    tim := { s.tim with tileStrap := s.pins.tileCfg }
    clk := { s.clk with refPri := s.pins.refPri, selected := s.pins.refPri }
    tlk := { s.tlk with links := (List.range 96).map fun n => (n, { linkOf s n with enabled := decide (n / 8 < rows) }) }
    ray := { s.ray with spares := [12, 13] ++ List.range' rows (12 - rows) } }

/-- Everything is reset but what NOR, eMMC, fuses and pins hold (R564). The queue of commands, the record of outputs and the
count of free values are the model's own. -/
def coldBase (cause : ResetCause) (s : State) : State :=
  let r := State.reset
  { r with
    pending := s.pending, sent := s.sent, drawn := s.drawn
    hif := { r.hif with portA := { r.hif.portA with perst := s.hif.portA.perst }, portB := { r.hif.portB with perst := s.hif.portB.perst } }
    walec := { r.walec with classRecord := s.walec.classRecord }
    bureau := { r.bureau with segments := s.bureau.segments }
    dmc := { r.dmc with norRecord := s.dmc.norRecord }
    out := { r.out with slots := s.out.slots, brightRecord := s.out.brightRecord, iLimitRecord := s.out.iLimitRecord }
    thm := { r.thm with slots := s.thm.slots }
    spr := { r.spr with retired := s.spr.retired, repairs := s.spr.repairs, daily := s.spr.daily, dailyGlitches := s.spr.dailyGlitches
                        plannedStop := s.spr.plannedStop || s.walec.powerDown || cause == .cold
                        thermalReturn := s.thm.slots.any fun x => x.2 != .empty }
    bot := { s.bot with version := 0, mode := .rom, image := 0, trial := false, emmcReady := false, norOctal := false, fallbackSeen := false
                        verifyFailSeen := false, tornSeen := false, emmcErrSeen := false, attempted := none, trialSince := none, staged := none }
    tim := { r.tim with tileStrap := s.tim.tileStrap }
    clk := { r.clk with refPri := s.clk.refPri, selected := s.clk.refPri }
    pwr := { r.pwr with last := lastCode cause, lastPort := s.pwr.lastPort, resetEntry := true, porst := cause != .cold }
    pins := { r.pins with tileCfg := s.pins.tileCfg, refPri := s.pins.refPri } }

/-- A power-on reset begins. One that does not come from PORST# samples the straps at its end, which COLD reaches at once (R564, R583,
R651). -/
def coldState (cause : ResetCause) (s : State) : State := if cause == .cold then sampleStraps (coldBase cause s) else coldBase cause s

/-- The power-on reset ends: the reference is selected, the core and ray PLLs lock, FAULT# is released, the log opens and the
ROM boots (R513, R548, R552, R637, R664). -/
def endPowerOn (p : Port) (s : State) : State :=
  let t := { s with clk := { s.clk with selected := p, dest := p, chosen := true, phase := .running, locks := [22, 23] }
                    pins := { s.pins with fault := false } }
  romBoot (openLog t)

/-- POWER_ON_RESET (R564). -/
def execPowerOnReset (cause : ResetCause) (s : State) : Out := done (coldState cause s)

/-- PORST_RELEASE (R193, R552, R651): the straps are sampled, and a preferred input that is already qualified is selected. -/
def execPorstRelease (tileCfg : Nat) (refPri : Port) (s : State) : Out :=
  let t := sampleStraps { s with pins := { s.pins with tileCfg := tileCfg % 4, refPri }, pwr := { s.pwr with porst := false } }
  let q := match refPri with
    | .a => s.clk.refA.qual
    | .b => s.clk.refB.qual
  done (ifEvent s.pwr.porst (if q then endPowerOn refPri t else t) s)

/-! ### Warm reset (R63, R120, R143, R163, R217, R234, R252, R564, R566) -/

/-- The ray engine after a reset: Cn bound to row n, every other cluster a spare with C12 and C13 first, caps at their
ceiling, FAULT_ABORTS and UNDERRUN_ABORTS clear; status that BAR0 shows stays (R120, R143, R163, R564). -/
def resetRay (s : State) : State :=
  let n := configRows s
  let fresh (r : Nat) : Row :=
    let x := rowOf s r
    { rowDefault r with ceiling := x.ceiling, cap := x.ceiling, sdebt := x.sdebt, band := x.band, abortSeen := x.abortSeen, loweredSeen := x.loweredSeen
                        abortLine := x.abortLine, lastCause := x.lastCause, missLines := x.missLines, cacheDed := x.cacheDed }
  { s with ray := { s.ray with
    rows := (List.range 12).map fun r => (r, fresh r)
    clusters := [], spares := [12, 13] ++ List.range' n (12 - n), shadows := [], witness := none, source := 255, rate := 0, reduced := false, fallback := false } }

/-- How the raster starts again (R217). -/
def restartOf (s : State) : Bool × Nat :=
  if s.tim.bench == .entering || s.tim.bench == .running then (true, 0)
  else if s.tim.bench == .leaving then (false, s.tim.benchReturn)
  else if s.tim.rasterRun then (false, s.tim.mode) else (s.tim.restartBench, s.tim.restartMode)

/-- The raster stops and the changes that a reset drops are gone (R63, R199, R217). -/
def stopRaster (s : State) : State :=
  let keep (p : Pending) : Bool := match p.change with
    | .mode _ | .realign | .geomSwap _ | .curveSwap _ => false
    | _ => true
  let (b, m) := restartOf s
  { s with
    tim := { s.tim with rasterRun := false, starting := false, latched := false, lineRaised := false, transLeft := 0, retrainLinks := [],
                        bench := .off, restartBench := b, restartMode := m, leaveSince := none, pending := s.tim.pending.filter keep
                        panelSync := false, syncLeft := 0, lensPh := false }
    spr := { s.spr with standby := false }
    tlk := { s.tlk with stoppedInSecond := true }
    cmp := { s.cmp with commits := s.cmp.commits.map (fun c => { c with latched := none }), stale := s.cmp.stale.map fun w => (w.1, { w.2 with ready := false })
                        status := s.cmp.status.map fun x => (x.1, { x.2 with flipPending := false }) } }

/-- The geometry banks hold the zero set, the output stages their reset content (R63, R234, R252, R258). -/
def resetSets (s : State) : State :=
  { s with
    geom := { s.geom with banks := [], half1 := [], active := 0, swapFrame := 0, loadedSince := false, dedCount := 0, dedInFrame := 0 }
    out := { s.out with curves := [], curveActive := 0, curveLoaded := false, curveFrame := 0, panelBand := 0
                        tiles := s.out.tiles.map fun x => (x.1, { cut := 16 - min (thermalStep s x.1) 16 }), tilesNext := none, crNext := none, brightNext := none
                        m := 16, mChanged := false, sinceChange := 0, quiet := 0, limitFloor := false, sumA := [], sumB := [], planes := [] } }

/-- The engines stop: pictures are taken again from their entries, 2D commands and deflate jobs in progress are gone. -/
def stopEngines (s : State) : State :=
  let t := (List.range 64).foldl (fun t n => abandonPicture n t) s
  let t := { t with dec := { t.dec with cores := t.dec.cores.map fun (c : Nat × DecCore) => (c.1, { c.2 with state := if c.2.state == CoreState.faulted then .faulted else .off, ctx := none }) } }
  let t := { t with dec := { t.dec with ctxs := t.dec.ctxs.map fun (x : Nat × Ctx) => (x.1, { x.2 with conversion := none, state := if x.2.role = 0 then .closed else if x.2.state == CtxState.moving then .moving else x.2.restState }) } }
  { t with
    enc := { t.enc with picture := none, waiting := none, needIdr := true, mode := .off }
    blt := { t.blt with flight := [], internal := [], jobs := [], state := .off, waiting := [] }
    dfl := { t.dfl with lanes := [], state := .off, waiting := [] } }

/-- Every switched domain is reset and switched off; a row's links stop sending (R564, R566). -/
def dropDomains (s : State) : State :=
  let t := (List.range 12).foldl (fun t g => groupOff g t) s
  let t := ethDown 1 (ethDown 0 t)
  { t with
    tlk := { t.tlk with links := t.tlk.links.map fun l => (l.1, { l.2 with darkCmd := false }) }
    pwr := { t.pwr with domains := [], queue := []
                        supplies := t.pwr.supplies.map fun x => (x.1, { x.2 with barred := false, failed := false, shed := false }) } }

/-- The domains and supplies that a warm reset asks for again (R217, R566, R576). -/
def askDomains (s : State) : State :=
  if !s.tim.confirmed then s
  else if s.tim.restartBench then
    let rows := stripRows s
    let t := requestDomains true ([43] ++ (rows.filter fun r => (supplyOf s r).state == .on).map (30 + ·)) s
    let t := ((List.range 12).filter fun r => !rows.contains r).foldl (fun t r => supplyOff r t) t
    rows.foldl (fun t r => supplyOn r t) t
  else
    let t := requestDomains true (runDomains s ++ if s.spr.cpu == .pair then [] else [43]) s
    (List.range (configRows s)).foldl (fun t r => supplyOn r t) t

/-- PWR_RESET_CAUSE after a warm reset (R582, R618). -/
def noteWarm (cause : ResetCause) (s : State) : State :=
  let p := s.pwr
  { s with pwr := { p with warmCount := satAdd 16 p.warmCount 1, warmSeen := true, last := lastCode cause, lastWardrobe := cause == .wardrobe
                           supplySeen := p.supplySeen || cause == .supply, clockSeen := p.clockSeen || cause == .clock
                           resetEntry := true, warmAt := some (tb0 s) } }

/-- The release of a warm reset: the ROM boots, and the domains are asked for (R459, R566, R637). -/
def releaseWarm (s : State) : State := askDomains (romBoot (setWalec .booting { s with pwr := { s.pwr with supplyHold := none } }))

/-- A copy that the reset interrupts is counted: it is restarted from its bitmap (R439, R445). -/
def countRestart (s : State) : State :=
  if s.dmc.migrate == .paused then { s with dmc := { s.dmc with restarts := satAdd 5 s.dmc.restarts 1 } } else s

/-- A warm reset (R566). While a supply holds it (R568), it is released by the supply's recovery. -/
def warmReset (cause : ResetCause) (s : State) : State :=
  let t := if s.hif.walec == .restarting then s else haltWalec (if cause == .wardrobe then 4 else 0) s
  let t := noteWarm cause t
  let t := { t with
    spr := { t.spr with plannedStop := t.spr.plannedStop || cause == .warm || t.walec.powerDown }
    walec := { t.walec with powerDown := false }
    hif := { t.hif with powerDown := false } }
  let t := dropDomains (stopEngines (resetSets (resetRay (stopRaster t))))
  let t := countRestart (holdSites t)
  if t.pwr.supplyHold.isSome then t else releaseWarm t

/-- WARM_RESET (R564): not while power-on reset is held (R667). -/
def execWarmReset (cause : ResetCause) (s : State) : Out := done (ifEvent (!s.pwr.porst && s.clk.chosen) (warmReset cause s) s)

/-- WARDROBE_RESET (R618): RESTARTING for 10 s. -/
def execWardrobeReset (s : State) : Out :=
  match s.walec.stoppedAt with
  | none => done s
  | some t0 =>
    done (ifEvent (s.hif.walec == .restarting && s.pwr.supplyHold.isNone)
      (warmReset .wardrobe (log (hw 12) 0 0xD6 10000 (advanceTo0 (t0 + 10000000000) s))) s)

/-- SUPPLY_EXCURSION (R568): a rail other than the core rail. -/
def execSupplyExcursion (rail : Nat) (s : State) : Out :=
  done (ifEvent (!s.pwr.porst && s.clk.chosen) (warmReset .supply (assertFault { s with pwr := { s.pwr with supplyHold := some rail } })) s)

/-- SUPPLY_RECOVERED (R568). -/
def execSupplyRecovered (s : State) : Out := done (ifEvent s.pwr.supplyHold.isSome (releaseWarm s) s)

/-! ### Reference inputs (R550 to R559, R579 to R581) -/

/-- An input. -/
def refOf (s : State) : Port → RefInput
  | .a => s.clk.refA
  | .b => s.clk.refB

/-- Set an input. -/
def setRef (r : Port) (x : RefInput) (s : State) : State :=
  match r with
  | .a => { s with clk := { s.clk with refA := x } }
  | .b => { s with clk := { s.clk with refB := x } }

/-- A stop begins, toward input r (R554); held when r is not qualified (R555). -/
def beginStop (r : Port) (s : State) : State :=
  if (refOf s r).qual then { s with clk := { s.clk with phase := .switching, dest := r } }
  else { s with clk := { s.clk with phase := .holding, dest := r, held := true, holdSeen := true } }

/-- A trip disqualifies its input; a trip of the selected input stops the clocks, one of the destination makes a hold
(R551, R553 to R555). -/
def tripRef (r : Port) (x : RefInput) (s : State) : State :=
  let was := (refOf s r).qual
  let t := setRef r { x with qual := false } s
  let t := if was && s.clk.chosen then log (hw 9) r.num 0xB1 (flagAt x.miss 8 + flagAt x.win 9) t else t
  if !s.clk.chosen then t
  else match s.clk.phase with
    | .running => if s.clk.selected = r then beginStop r.other t else t
    | .switching => if s.clk.dest = r then { t with clk := { t.clk with phase := .holding, held := true, holdSeen := true } } else t
    | _ => t

/-- MISSING_PULSE (R549, R550): the RPLL has nothing to lock to, and the port of that input loses its link. -/
def execMissingPulse (r : Port) (s : State) : Out :=
  done (linkLoss r (tripRef r { refOf s r with miss := true, lock := false, stopped := true } s))

/-- WINDOW_TRIP (R550). -/
def execWindowTrip (r : Port) (s : State) : Out := done (tripRef r { refOf s r with win := true } s)

/-- An input qualifies after an expired hold: it is selected, and a warm reset follows (R558). The bases have lost the time of the
stop, whose measured length is a free value (R542, R580; log 2). -/
def recoverClocks (r : Port) (s : State) : State :=
  let c := s.clk
  let moved := c.selected != r
  warmReset .clock (log (hw 9) r.num 0xB2 0 (drew { s with
    clk := { c with phase := .running, selected := r, dest := r, held := false, gapNs := freeBelow s (2 ^ 32)
                    failovers := satAdd 8 c.failovers (if moved then 1 else 0), failoverSeen := c.failoverSeen || moved }
    tim := { s.tim with tb0GapSeen := true }
    spr := { s.spr with spareUsedSeen := s.spr.spareUsedSeen || moved } }))

/-- REF_QUALIFIED (R551, R552, R555, R558). -/
def execRefQualified (r : Port) (s : State) : Out :=
  let x := refOf s r
  let t := setRef r { x with qual := true, lock := true, stopped := false } s
  let t := if s.clk.chosen then log (hw 9) r.num 0xB1 1 t else t
  let u := if !s.clk.chosen then (if !s.pwr.porst && s.clk.refPri = r then endPowerOn r t else t)
    else match s.clk.phase with
      | .holding => { t with clk := { t.clk with phase := .switching, dest := r } }
      | .expired => recoverClocks r t
      | _ => t
  done (ifEvent (!x.qual) u s)

/-- The clocks restart on the new reference (R554, R559, R542). -/
def restartClocks (gapNs : Nat) (s : State) : State :=
  let c := s.clk
  let moved := c.dest != c.selected
  let t := { s with
    clk := { c with selected := c.dest, phase := .running, gapNs := min gapNs (2 ^ 32 - 1), held := false
                    failovers := satAdd 8 c.failovers (if moved then 1 else 0), failoverSeen := c.failoverSeen || moved }
    tim := { s.tim with tb0GapSeen := true }
    spr := { s.spr with spareUsedSeen := s.spr.spareUsedSeen || moved } }
  let t := ethDown 1 (ethDown 0 (retrainAll t))
  if moved then log (hw 9) c.dest.num 0xB0 (min gapNs (2 ^ 32 - 1) + flagAt c.held 63) t else t

/-- REF_RESTART (R554). -/
def execRefRestart (gapNs : Nat) (s : State) : Out := done (ifEvent (s.clk.phase == .switching) (restartClocks gapNs s) s)

/-- HOLD_EXPIRY (R557): the sites enter self-refresh, the DRAM PLLs stop, HOLD_EXPIRED and FAULT# are set. -/
def execHoldExpiry (s : State) : Out :=
  let t := if s.dmc.mode == .running then holdSites s else s
  done (ifEvent (s.clk.phase == .holding) (assertFault { t with clk := { t.clk with phase := .expired, holdExpired := true, locks := t.clk.locks.filter (8 < ·) } }) s)

/-- PLL_LOCK_LOSS (R581): outside a stop. -/
def execPllLockLoss (pll : Nat) (s : State) : Out :=
  done (ifEvent (s.clk.phase == .running && s.clk.locks.contains pll)
    { s with clk := { s.clk with locks := s.clk.locks.filter (· ≠ pll), lockLostSeen := true } } s)

/-- The selected input moves to the other one when that is qualified (R553). -/
def switchReference (s : State) : State :=
  if s.clk.phase == .running && s.clk.chosen && (refOf s s.clk.selected.other).qual then beginStop s.clk.selected.other s else s

/-- 10 ms after power-on reset without the preferred input: whichever is qualified is selected (R552). -/
def lateSelection (s : State) : State :=
  if s.pwr.porst || s.clk.chosen then s
  else if (refOf s s.clk.refPri).qual then endPowerOn s.clk.refPri s
  else if (refOf s s.clk.refPri.other).qual then endPowerOn s.clk.refPri.other s
  else s

end Sys2Proof.Machine
end

