-- ==== Sys2Proof/Machine/Redundancy.lean ====
section
/-! DEFINITION. The Wardrobe: self-tests, SRAM repair, automatic moves and the outage count (19_redundancy.md). -/

namespace Sys2Proof.Machine

/-- Seven days of TB0 in nanoseconds (R612, R616). -/
def week : Nat := 604800000000000

/-! ### Self-test (R612, R613) -/

/-- Bit of RETIRED_MASK of a unit (R627). -/
def unitBit : FaultUnit → Nat
  | .cluster c => c
  | .core c => 16 + c

/-- Faults of a unit in the last 7 days of TB0 (R612). -/
def recentFaults (s : State) (k : Nat) : Nat := ((Tbl.get s.spr.faults [] k).filter fun t => tb0 s ≤ t + week).length

/-- A class of R610 has a spare again. -/
def replenish (cls : Nat) (s : State) : State := { s with spr := { s.spr with exhausted := s.spr.exhausted.filter (· ≠ cls) } }

/-- A cluster returns to service, and its domain comes on again, in Bench at the exit (R20, R214, R612): to the pool, after the spares
that are there, or to the row that a reset bound it to (R120, R624). -/
def returnCluster (c : Nat) (s : State) : State :=
  let bound := (List.range (configRows s)).any fun r => (rowOf s r).cluster = c
  let t := setCluster c .off { s with ray := { s.ray with spares := if bound || s.ray.spares.contains c then s.ray.spares else s.ray.spares ++ [c] } }
  let t := if bound then t else replenish 0 t
  if inBench s then t else requestDomain true c t

/-- A unit returns to service (R612, R628). -/
def returnUnit (u : FaultUnit) (s : State) : State :=
  let t := match u with
    | .cluster c => returnCluster c s
    | .core c => replenish 3 (readyCore c s)
  log (hw 12) (unitBit u) 0xD0 (recentFaults s (unitBit u)) t

/-- A unit that does not return is retired (R612); its class may have no spare left. A retired cluster reads as its domain's state
gives (R613). -/
def retire (u : FaultUnit) (s : State) : State :=
  let t := retireUnit (unitBit u) (recentFaults s (unitBit u)) s
  match u with
  | .cluster c => checkClusters (setCluster c (if domainOn t c then .spare else .off) t)
  | .core _ => exhaust 3 t

/-- A cluster that is still bound to a row of a running raster is not tested: its spare has first to take its place (R121, R156).
While the raster is stopped, as after a warm reset, it is (R624). A core is tested once its domain has been switched off (R331, R612). -/
def testable (s : State) : FaultUnit → Bool
  | .cluster c => !s.tim.rasterRun || (List.range (configRows s)).all fun r => (rowOf s r).cluster ≠ c
  | .core c => domainOf s (16 + c) == .off

/-- UNIT_SELF_TEST (R612): the test has ended and the domain is off again. -/
def execUnitSelfTest (u : FaultUnit) (pass : Bool) (s : State) : Out :=
  let k := unitBit u
  let t := { s with spr := { s.spr with toTest := s.spr.toTest.filter (· ≠ k) } }
  done (ifEvent (s.spr.toTest.contains k && testable s u && s.hif.walec == .running && s.tim.bench == .off)
    (if pass && s.spr.returnFaulted = 1 && recentFaults s k < 2 then returnUnit u t else retire u t) s)

/-! ### SRAM repair (R619, R620) -/

/-- Rows in the soft repair table of a domain. -/
def repairsOf (s : State) (d : Nat) : List Nat := Tbl.get s.spr.repairs [] d

/-- Jobs wait for the engine of a domain (R620): queues of its kind with entries fetched, or not yet fetched. -/
def jobsQueued (s : State) (d : Nat) : Bool :=
  let kind := if d = 16 || d = 17 then 2 else if d = 19 then 3 else if d = 20 then 4 else 0
  s.hif.queues.any fun q => kind ≠ 0 && q.2.kind = kind && (!q.2.fetched.isEmpty || q.2.sqHead ≠ q.2.sqTail)

/-- The domains that wait and whose engine is idle with no job queued are cycled (R620). -/
def cycleDomains (s : State) : State :=
  let ready (d : Nat) : Bool := domainOn s d && blockIdle s d && !jobsQueued s d
  let t := { s with spr := { s.spr with toCycle := s.spr.toCycle.filter fun d => !ready d } }
  (s.spr.toCycle.filter ready).foldl (fun t d => requestDomain true d (requestDomain false d t)) t

/-- The row that a cluster is bound to. -/
def rowOfCluster (s : State) (c : Nat) : Option Nat := (List.range (configRows s)).find? fun r => (rowOf s r).cluster = c && (rowOf s r).toBind.isNone

/-- A repair is brought into service (R620): the spare of a bound cluster is bound at the next composition boundary. -/
def applyRepair (d : Nat) (s : State) : State :=
  if d < 14 then
    match rowOfCluster s d, (freeSpares s).head? with
    | some r, some k =>
      reserveSpare r k (bindPoint s r) s
    | _, _ => s
  else if 16 ≤ d && d ≤ 20 then
    cycleDomains { s with spr := { s.spr with toCycle := if s.spr.toCycle.contains d then s.spr.toCycle else s.spr.toCycle ++ [d] } }
  else s

/-- A row enters its domain's table of 64 rows (R619, R628). -/
def addRepair (d row : Nat) (s : State) : State :=
  let l := repairsOf s d
  if 64 ≤ l.length || l.contains row then s
  else applyRepair d (log byWalec d 0xD3 row { s with spr := { s.spr with repairs := Tbl.set d (l ++ [row]) s.spr.repairs } })

/-- SRAM_REPAIR: one correction of a word; at REPAIR_THRESHOLD within an hour of TB0 its row is added (R619). -/
def execSramRepair (domain row word : Nat) (s : State) : Out :=
  let now := tb0 s
  let cs := (domain, word, now) :: s.spr.corrections.filter fun c => now < c.2.2 + 3600000000000
  let n := (cs.filter fun c => c.1 = domain && c.2.1 = word).length
  let t := { s with spr := { s.spr with corrections := cs } }
  done (ifEvent (domain < 44)
    (if s.spr.repairThreshold ≤ n && s.hif.walec == .running then
      addRepair domain row { s with spr := { s.spr with corrections := cs.filter fun c => c.1 ≠ domain || c.2.1 ≠ word } }
     else t) s)

/-! ### Automatic moves and restores (R434, R621, R623) -/

/-- A spare site is present (R434, R441). -/
def spareSitePresent (s : State) : Bool := s.dmc.spareSite ≤ 8 && !s.dmc.spareAbsent && (siteOf s s.dmc.spareSite).state == .spare

/-- A migration is running (R434): from its acceptance to the end or the stop of its copy. -/
def migrationRuns (s : State) : Bool := match s.dmc.migrate with
  | .preparing | .copying | .paused => true
  | _ => false

/-- An accepted SPARE.MIGRATE: the record in NOR, the domain and training of the spare (R434). -/
def startMigration (l : Nat) (o : Origin) (s : State) : State :=
  let src := s.dmc.siteMap.getD l 15
  let dst := s.dmc.spareSite
  let t := { s with
    dmc := { s.dmc with migrate := .preparing, moved := [], migrateFrom := src, migrateTo := dst, migrateLogical := l, norRecord := some (l, src, dst, 0) }
    spr := { s.spr with spareUsedSeen := true } }
  let t := setSite dst { siteOf t dst with state := .training } (setSite src { siteOf t src with state := .source } t)
  let t := log o l 0x71 (src + 256 * dst) t
  exhaust 1 (if domainOn t (21 + dst) then startCopy t else requestDomain true (21 + dst) t)

/-- AUTO_MIGRATE (R621): of the logical sites that degraded together the lowest is moved. -/
def execAutoMigrate (sites : List Nat) (s : State) : Out :=
  match (List.range 8).find? fun l => sites.contains l && (siteOf s (s.dmc.siteMap.getD l 15)).degraded with
  | none => done s
  | some l =>
    done (ifEvent (s.spr.migrateAuto = 1 && s.hif.walec == .running && s.tim.bench == .off && spareSitePresent s && !migrationRuns s && s.dmc.mode == .running)
      (startMigration l byWalec (log byWalec l 0xD4 0 s)) s)

/-- A RESTORE of a link is requested (R290, R676). -/
def restoreAt (n frame : Nat) (s : State) : State := control n 4 frame s

/-- AUTO_RESTORE: 24 h of TB0 after the link degraded, once; not for a link that degraded again within 24 h of such a
restore (R623). -/
def execAutoRestore (link : Nat) (s : State) : Out :=
  let l := linkOf s link
  match l.halfSince with
  | none => done s
  | some t0 =>
    let day := 86400000000000
    let t := advanceTo0 (t0 + day) s
    let before := Tbl.find? link s.spr.autoRestored
    let again := before.any fun a => a ≤ t0 && t0 < a + day
    let once := before.any fun a => t0 < a
    let ask := restoreAt link (rateFrame t) (log byWalec link 0xD4 1 { t with spr := { t.spr with autoRestored := Tbl.set link (tb0 t) t.spr.autoRestored } })
    done (ifEvent (s.spr.linkAutoRestore = 1 && s.hif.walec == .running && configured s link && l.half && l.state == .up && s.tim.rasterRun &&
        !l.has 4 && !once && !s.spr.noAuto.contains link)
      (if again then { t with spr := { t.spr with noAuto := link :: t.spr.noAuto } } else ask) s)

/-! ### Exhausted classes (R610, R611, R628, R629) -/

/-- The links of the configured rows. -/
def configuredLinks (s : State) : List Nat := List.range (8 * configRows s)

/-- The other image does not verify (R644). -/
def otherImageBad (s : State) : Bool := (imageCheck s (imageOf s (1 - s.bot.image))).isSome

/-- A class, in the order of R610, has no spare left (R611): a lane at half service, a failed sensor or a full table leaves the
spares of the others. -/
def classEmpty (s : State) : Nat → Bool
  | 0 => s.ray.spares.isEmpty
  | 1 => !spareSitePresent s
  | 2 => s.spr.cpu == .joined
  | 3 => (List.range 2).any fun c => (coreOf s c).state == .faulted || s.spr.retired.contains (16 + c) || s.spr.toTest.contains (16 + c)
  | 4 => ((List.range 24).filter fun n => enabledSensor n (sensorOf s n)).all fun n => !partnerValid s n
  | 5 => (List.range 44).all fun d => 64 ≤ (repairsOf s d).length
  | 6 => otherImageBad s
  | 7 => !(s.hif.portA.linkUp && s.hif.portB.linkUp)
  | 8 => !(refOf s s.clk.selected.other).qual
  | 9 => (configuredLinks s).all fun n => (linkOf s n).half
  | _ => false

/-- The Wardrobe watches the classes: a class that has become empty writes its entry (R628). -/
def watchClasses (s : State) : State :=
  (List.range 10).foldl (fun t c => if classEmpty s c then exhaust c t else replenish c t) s

/-! ### Availability (R625 to R627) -/

/-- A link counts for the outage: its row is neither shed nor off under R577, and DEVICE.DARK does not hold it (R625). -/
def linkCounts (s : State) (n : Nat) : Bool :=
  configured s n && !(supplyOf s (n / 8)).shed && !(supplyOf s (n / 8)).failed && !(linkOf s n).darkCmd

/-- A link is OFF or FAILED, or reports TILE_DARK (R625). -/
def linkOut (s : State) (n : Nat) : Bool :=
  (linkOf s n).state == .off || (linkOf s n).state == .failed || bit (linkOf s n).flags 3

/-- A planned stop (R625). -/
def planned (s : State) : Bool := s.spr.plannedStop || s.thm.powerupHold || (s.spr.thermalReturn && tb0 s < 60000000000)

/-- A millisecond that ends now is an outage millisecond (R625). -/
def outage (s : State) : Bool :=
  !s.pwr.porst && s.tim.confirmed && s.tim.bench == .off && !planned s &&
  (!s.tim.rasterRun || (List.range 96).any fun n => linkCounts s n && linkOut s n)

/-- OUTAGE_MS: the next millisecond of TB0 ends (R625). -/
def execOutageMs (s : State) : Out :=
  let t := advanceTo0 ((tb0 s / 1000000 + 1) * 1000000) s
  let t := if outage t then
      { t with spr := { t.spr with outageMs := wrapAdd 64 t.spr.outageMs 1, outageHour := t.spr.outageHour + 1, outageSeen := true } }
    else t
  done (ifEvent (clocked s) (if t.tim.confirmed && t.hif.walec == .running then watchClasses t else t) s)

/-- A count joins the days of the last 365: the newest day's count rises, and at a day's end a new day begins. -/
def addDay (n : Nat) (dayOver : Bool) (l : List Nat) : List Nat :=
  let l := match l with
    | [] => [n]
    | d :: r => (d + n) :: r
  (if dayOver then 0 :: l else l).take 365

/-- Walec persists the counts of the hour (R627). -/
def persistCounts (dayOver : Bool) (s : State) : State :=
  let x := s.spr
  { s with spr := { x with daily := addDay x.outageHour dayOver x.daily, outageHour := 0,
                           dailyGlitches := addDay x.glitches dayOver x.dailyGlitches, glitches := 0 } }

/-- OUTAGE_PERSIST: every hour of TB0 (R627). -/
def execOutagePersist (s : State) : Out :=
  let hour := tb0 s / 3600000000000 + 1
  done (ifEvent (clocked s && s.hif.walec == .running) (persistCounts (hour % 24 = 0) (advanceTo0 (hour * 3600000000000) s)) s)

end Sys2Proof.Machine
end

