-- ==== Sys2Proof/Machine/Registers.lean ====
section
/-! DEFINITION. The registers of BAR0 (22_register_map.md R668 to R673; layouts of their own chapters): what a read returns,
and what a write does. -/

namespace Sys2Proof.Machine

/-- A register from its fields: value, width and lowest bit of each. -/
def fields (l : List (Nat × Nat × Nat)) : Nat := (l.map fun f => fieldAt f.1 f.2.1 f.2.2).sum

/-- A flag as a field's value. -/
def flagOf (b : Bool) : Nat := flagAt b 0

/-- A signed value in its field. -/
def signedField (w : Nat) (x : Int) : Nat := unsigned w x

/-- Bits of a table of flags: bit k is set where `f k`. -/
def maskOf (n : Nat) (f : Nat → Bool) : Nat := ((List.range n).map fun k => flagAt (f k) k).sum

/-! ### Identity, health and ports (R487 to R490, R479, R480, R485) -/

/-- HIF_ID (R487). -/
def regHifId (p : Port) : Nat := fields [(0x9610, 16, 48), (0xB0, 8, 40), (2, 8, 32), (p.num, 1, 0)]

/-- HIF_HEALTH (R488). -/
def regHealth (s : State) (p : Port) : Nat :=
  fields [(s.hif.beat, 16, 48), (s.hif.attention, 16, 32), (s.hif.restarts, 16, 16), (s.hif.walec.ctorIdx, 2, 14), (flagOf (s.pins.fault && s.clk.chosen), 1, 13),
    (flagOf s.tim.rasterRun, 1, 12), (flagOf (s.tim.bench != .off), 1, 11), (flagOf (s.dmc.mode == .running), 1, 10),
    (flagOf (portOf s p.other).linkUp, 1, 9), (flagOf s.hif.powerDown, 1, 8)]

/-- HIF_PORT_STATUS (R489). -/
def regPortStatus (h : HostPort) : Nat :=
  fields [(h.speed, 4, 60), (h.width, 4, 56), (h.bar2Poisoned, 16, 16), (flagOf h.lateSeen, 1, 5), (flagOf h.dbRefusedSeen, 1, 4),
    (flagOf h.staleRespSeen, 1, 3), (flagOf h.bar2Seen, 1, 2), (flagOf h.resetSeen, 1, 1), (flagOf h.linkUp, 1, 0)]

/-- HIF_BAR2_BASE (R490). -/
def regBar2Base (h : HostPort) : Nat := fields [(h.bar2Base, 20, 20)]

/-- HIF_OWN (R479). -/
def regOwn (s : State) : Nat :=
  fields ((s.hif.leaseMs, 16, 32) :: (List.range 4).flatMap fun k =>
    let o := ownerOf s k
    [(flagOf o.auto, 1, 8 * k + 3), (flagOf o.expired, 1, 8 * k + 2), (holderCode o.holder, 2, 8 * k)])

/-- Milliseconds left on a port's timer, a part counted whole (R474, R480). -/
def leftMs (s : State) (h : HostPort) : Nat :=
  match h.lease with
  | none => 0
  | some t => ((if frozen s then t else t - tb0 s) + 999999) / 1000000

/-- HIF_LEASE_STATUS (R480). -/
def regLeaseStatus (s : State) (p : Port) : Nat :=
  let h := portOf s p
  fields [(leftMs s h, 32, 32), (flagOf (frozen s), 1, 7), (flagOf (portOf s p.other).lease.isSome, 1, 6), (flagOf h.claimRefused, 1, 5),
    (flagOf h.expiredSeen, 1, 4), (maskOf 4 fun k => holds s p (k + 1), 4, 0)]

/-- HIF_INT_VECTOR (R485). -/
def regIntVector (h : HostPort) : Nat := fields [(h.intVector, 11, 16), (h.intEn, 8, 0)]

/-- HIF_DRW_STATE (R460). -/
def regDrawerState (d : Drawer) : Nat :=
  fields [(d.staleResp, 16, 48), (d.refused, 16, 32), (d.tag, 12, 20), (d.gen, 4, 16), (d.aborts, 8, 8), (d.state.ctorIdx, 3, 0)]

/-- HIF_DRW_CONFIG (R461). -/
def regDrawerConfig (d : Drawer) : Nat := fields [(d.cls, 3, 13), (flagOf d.intEn, 1, 12), (d.vector, 11, 0)]

/-- HIF_QSTAT_q (R472). -/
def regQueueStatus (s : State) (q : Nat) : Nat :=
  let c := queueOf s q
  fields [(c.gen, 4, 60), ((queueState s q).ctorIdx, 3, 57), (c.port.num, 1, 56), (c.cls, 3, 53), (c.dbRefused, 8, 40), (c.lateCpl, 8, 32),
    (c.cqTail, 16, 16), (c.sqHead, 16, 0)]

/-! ### RAY and OUT (R69, R162 to R166, R255 to R258) -/

/-- RAY_GEOM_STATUS (R69). -/
def regGeom (s : State) : Nat :=
  let g := s.geom
  fields [((activeGeom s).version, 32, 32), (g.swapFrame, 16, 16), (min g.dedCount 255, 8, 8), (flagOf g.dedSeen, 1, 4),
    (flagOf (pendingGeom s).isSome, 1, 3), (g.active, 1, 2), (flagOf (geomBank s 1).valid, 1, 1), (flagOf (geomBank s 0).valid, 1, 0)]

/-- RAY_CLUSTER_STATE (R164). -/
def regClusters (s : State) : Nat := fields ((List.range 14).map fun c => ((clusterOf s c).ctorIdx, 4, 4 * c))

/-- RAY_WITNESS_STATUS (R165). -/
def regWitness (s : State) : Nat :=
  let r := s.ray
  fields [(r.pictures, 32, 32), (r.source, 8, 24), (r.rate, 8, 16), (r.rateReq, 8, 8), (flagOf r.reduced, 1, 1), (flagOf r.fallback, 1, 0)]

/-- RAY_CAP_RING_BASE (R166). -/
def regCapBase (s : State) : Nat := fields [(s.ray.capRecords, 16, 48), (s.ray.capBase, 40, 0)]

/-- RAY_ROW_STATUS_r (R162). -/
def regRow (s : State) (r : Nat) : Nat :=
  let x := rowOf s r
  fields [(min x.sdebt 65535, 16, 48), (x.abortLine, 12, 36), (x.cluster, 4, 32), (x.cap, 2, 30), (x.ceiling, 2, 28), (x.band, 4, 24),
    (x.missLines, 8, 16), (x.cacheDed, 8, 8), (flagOf x.lastCause, 1, 5), (flagOf x.held, 1, 4), (flagOf x.abortSeen, 1, 3),
    (flagOf x.loweredSeen, 1, 2), (flagOf (composing s && r < configRows s && !x.held && canCompose s r), 1, 0)]

/-- RAY_ABORT_COUNT_r (R163). -/
def regAborts (x : Row) : Nat := fields [(x.faultAborts, 32, 32), (x.underrunAborts, 32, 0)]

/-- OUT_TILE_STATE_r (R255). -/
def regTiles (s : State) (r : Nat) : Nat :=
  fields ((List.range 8).flatMap fun c =>
    let t := tileOf s (8 * r + c)
    [(t.cut, 4, 8 * c + 4), (flagOf t.fallback, 1, 8 * c + 2), (t.band, 2, 8 * c)])

/-- OUT_CURRENT_STATUS (R256). -/
def regCurrent (s : State) : Nat :=
  let o := s.out
  let b (k : Nat) : Nat := Tbl.get o.bright 0 k
  fields [(b 0, 8, 56), (b 1, 8, 48), (b 2, 8, 40), (o.m, 5, 35), (if (curveBank s o.curveActive).version = 0 then 0 else o.panelBand, 2, 33), (flagOf o.limitFloor, 1, 2), (flagOf o.limitSeen, 1, 1),
    (flagOf o.panelInvalid, 1, 0)]

/-- F − F0 is below 8,192: the gains are moving (R257). -/
def slewing (s : State) : Bool := 0 < s.out.updates && s.tim.frameCount < s.out.f0 + 8192

/-- OUT_STRESS_STATUS (R257). -/
def regStress (s : State) : Nat :=
  let o := s.out
  fields [(o.updates, 32, 32), (min o.withheld 255, 8, 24), (flagOf o.noHistory, 1, 8), (flagOf o.disagree, 1, 7), (flagOf o.poisonB, 1, 6),
    (flagOf o.poisonA, 1, 5), (flagOf o.satB, 1, 4), (flagOf o.satA, 1, 3), (flagOf (slewing s), 1, 2), (o.workBank, 1, 1), (flagOf o.model.isSome, 1, 0)]

/-- OUT_MAP_VERSIONS (R258). -/
def regMapVersions (s : State) : Nat := fields [((activeMap s).version, 32, 32), ((curveBank s s.out.curveActive).version, 32, 0)]

/-! ### TLK (R295 to R297) -/

/-- TLK_LINK_STATUS_n (R295). -/
def regLink (s : State) (n : Nat) : Nat :=
  let l := linkOf s n
  fields [(l.temp, 16, 48), (l.fault, 16, 32), (min l.unc 255, 8, 24), (min l.lineErr 255, 8, 16), (l.state.ctorIdx, 4, 12), (flagOf l.half, 1, 11),
    (flagOf (bit l.flags 3), 1, 10), (flagOf l.stale, 1, 9), (flagOf l.identMismatch, 1, 8), (flagOf l.degradeSeen, 1, 7), (flagOf l.crcErrSeen, 1, 6),
    (flagOf (bit l.flags 0), 1, 5), (flagOf (bit l.flags 1), 1, 4), (flagOf (bit l.flags 2), 1, 3), (flagOf (bit l.flags 6), 1, 2),
    (flagOf l.darkCmd, 1, 1), (flagOf l.enabled, 1, 0)]

/-- TLK_LINK_COUNT_n (R296). -/
def regLinkCount (l : Link) : Nat := fields [(l.uncTotal, 32, 32), (l.lineErrTotal, 32, 0)]

/-- TLK_GROUP_STATUS_g (R297). -/
def regLinkGroup (s : State) (g : Nat) : Nat :=
  let x := groupOf s g
  let l (c : Nat) : Link := linkOf s (8 * g + c)
  fields [(x.spread, 4, 60), (x.modRate, 3, 57), (x.uncLimit, 8, 49), (maskOf 8 fun c => (l c).state == .up, 8, 41), (maskOf 8 fun c => (l c).half, 8, 33),
    (maskOf 8 fun c => (l c).state == .failed, 8, 25), (flagOf x.pending.isSome, 1, 2), (flagOf (s.clk.locks.contains (9 + g)), 1, 1),
    (flagOf (domainOn s (30 + g)), 1, 0)]

/-! ### DEC, ENC, BLT, DFL (R333, R334, R354, R355, R377, R378, R400, R401) -/

/-- DEC_CTX_STATUS_n (R333). -/
def regCtx (s : State) (n : Nat) : Nat :=
  let x := ctxOf s n
  fields [(min x.concealedPics 65535, 16, 48), (min x.standins 255, 8, 40), (min x.skipped 255, 8, 32), (x.poolAlloc, 7, 25),
    (x.poolAlloc - x.pool.length, 7, 18), (x.role, 2, 16), (x.core, 2, 14), (x.state.ctorIdx, 3, 11), (flagOf x.noSink, 1, 10),
    (flagOf (rateExceeded s x), 1, 9), (flagOf x.pairMiss, 1, 8), (flagOf x.sizeMismatch, 1, 7), (flagOf x.watchdog, 1, 6), (flagOf x.conceal, 1, 5),
    (flagOf x.standin, 1, 4), (flagOf x.syntaxSeen, 1, 3), (flagOf x.writeBlocked, 1, 2)]

/-- Contexts assigned to a core. -/
def contextsOn (s : State) (c : Nat) : Nat := (s.dec.ctxs.filter fun x => x.2.role ≠ 0 && x.2.core = c).length

/-- DEC_CORE_STATUS_c (R334). -/
def regCore (s : State) (c : Nat) : Nat :=
  let x := coreOf s c
  fields [(x.pictures, 32, 32), (contextsOn s c, 8, 24), (min (coreLoad s c) 100, 8, 16), (x.state.ctorIdx, 3, 5), (flagOf x.faultSeen, 1, 4)]

/-- ENC_STATUS (R354). -/
def regEnc (s : State) : Nat :=
  let e := s.enc
  fields [(e.cyclePos, 8, 56), (min e.lagMax 15, 4, 52), (e.qpLast, 6, 46), (min e.carry (2 ^ 24 - 1), 24, 8), (e.mode.ctorIdx, 3, 5), (e.inForce.dest, 2, 3),
    (flagOf e.faultSeen, 1, 2), (flagOf e.forcedSeen, 1, 1), (flagOf e.skipSeen, 1, 0)]

/-- ENC_COUNT (R355). -/
def regEncCount (s : State) : Nat := fields [(s.enc.pictures, 32, 32), (min s.enc.dropped 65535, 16, 16), (min s.enc.skippedPics 65535, 16, 0)]

/-- STATE of an engine whose commands wait out a restart of Walec or Bench reads HELD (R376, R377, R397, R400). -/
def engineCode (s : State) (x : EngineState) (work : Bool) : Nat :=
  if (x == .idle || x == .running) && (s.hif.walec != .running || s.tim.bench != .off) then 3
  else if x == .idle && work then 2 else x.ctorIdx

/-- BLT_STATUS (R377). -/
def regBlt (s : State) : Nat :=
  let b := s.blt
  fields [(b.commands, 32, 32), (b.flight.length, 6, 26), (b.bound.length, 5, 21), (engineCode s b.state (!b.flight.isEmpty), 3, 18), (flagOf b.faultSeen, 1, 4),
    (flagOf b.poisonSeen, 1, 3), (flagOf b.errorSeen, 1, 2), (flagOf b.cancelSeen, 1, 1), (flagOf (b.bound.any (bltWaits s) || flattenWaits s), 1, 0)]

/-- BLT_COUNT (R378). -/
def regBltCount (s : State) : Nat := fields [(s.blt.jobCount, 32, 32), (min s.blt.cancelledCount 65535, 16, 16), (min s.blt.errorCount 65535, 16, 0)]

/-- DFL_STATUS (R400). -/
def regDfl (s : State) : Nat :=
  let d := s.dfl
  let live := (d.slots.filter fun x => x.2.state == .opened || x.2.state == .suspended).length
  fields [(d.jobs, 32, 32), (d.lanes.length, 3, 29), (d.bound.length, 5, 24), (engineCode s d.state (!d.lanes.isEmpty), 3, 21), (live, 9, 12),
    (flagOf d.faultSeen, 1, 4), (flagOf d.poisonSeen, 1, 3), (flagOf d.dataErrorSeen, 1, 2), (flagOf d.storedSeen, 1, 1), (flagOf (d.bound.any (dflWaits s)), 1, 0)]

/-- DFL_COUNT (R401). -/
def regDflCount (s : State) : Nat := fields [(s.dfl.inBytes / 2 ^ 20, 32, 32), (s.dfl.outBytes / 2 ^ 20, 32, 0)]

/-! ### DMC (R442 to R446) -/

/-- DMC_STATUS (R442). -/
def regDmc (s : State) : Nat :=
  let d := s.dmc
  let moving := match d.migrate with
    | .preparing | .copying | .paused => true
    | _ => false
  fields ([(d.spareSite, 4, 28), (d.rate, 2, 26), (d.mode.ctorIdx, 3, 23), (flagOf moving, 1, 11), (flagOf d.spareAbsent, 1, 10), (flagOf d.dramFail, 1, 9),
    (flagOf d.ueSeen, 1, 8), (flagOf d.ceSeen, 1, 7), (flagOf d.cmdErrSeen, 1, 6), (flagOf d.hotSeen, 1, 5), (flagOf d.degradedSeen, 1, 4)] ++
    (List.range 8).map fun l => (d.siteMap.getD l 15, 4, 32 + 4 * l))

/-- DMC_SITE_STATUS_n (R443): before the initialisation no site has a logical site, and HOT is the interval in use. -/
def regSite (s : State) (n : Nat) : Nat :=
  let x := siteOf s n
  let debt := ((List.range 4).map fun k => (dramChannel s (4 * n + k)).debt).foldl max 0
  let logical := if s.dmc.mode == .init then 15 else (s.dmc.siteMap.findIdx? (· = n)).getD 15
  fields [(x.ceHour, 16, 48), (x.ueCount, 16, 32), (x.state.ctorIdx, 4, 28), (logical, 4, 24), (min debt 31, 5, 19), (flagOf ((List.range 4).any fun k => (dramChannel s (4 * n + k)).hot), 1, 11),
    (flagOf x.overtemp, 1, 10), (flagOf x.degraded, 1, 9), (flagOf x.retrainFail, 1, 8), (maskOf 4 x.chFail.contains, 4, 4), (flagOf x.ueSeen, 1, 3),
    (flagOf x.ceSeen, 1, 2), (flagOf x.populated, 1, 0)]

/-- DMC_ERR_LAST (R444). -/
def regErrLast (s : State) : Nat := fields [(s.dmc.errLast / 2, 63, 1), (flagOf s.dmc.errValid, 1, 0)]

/-- DMC_MIGRATE_STATUS (R445). -/
def regMigrate (s : State) : Nat :=
  let d := s.dmc
  fields [(d.moved.length, 13, 51), (d.migrateFrom, 4, 47), (d.migrateTo, 4, 43), (d.migrateLogical, 3, 40), (d.migrate.ctorIdx, 3, 37), (d.restarts, 5, 32)]

/-! ### TIM (R220, R221, R543 to R546) -/

/-- The strip of the Bench bitmap as its first row and its rows (R220). -/
def benchStrip (s : State) : Nat × Nat :=
  match s.tim.bitmap with
  | none => (0, 0)
  | some b => (bmpFirst b, bmpRows b)

/-- TIM_MODE_STATUS (R220). -/
def regMode (s : State) : Nat :=
  let t := s.tim
  fields [(t.mode, 8, 56), ((pendingMode s).elim 0 (·.1), 8, 48), (t.lensLead, 8, 40), (t.line, 11, 29), (t.sub, 1, 28), (phaseOf t.mode t.sub, 1, 27),
    (t.transLeft, 2, 25), (t.bench.ctorIdx, 2, 23), ((benchStrip s).1, 4, 19), ((benchStrip s).2, 2, 17), (t.tileStrap, 2, 6), (flagOf t.bitmap.isSome, 1, 5),
    (flagOf (!t.retrainLinks.isEmpty), 1, 4), (flagOf t.modeChanged, 1, 3), (flagOf t.confirmed, 1, 1), (flagOf t.rasterRun, 1, 0)]

/-- TIM_FLIP_FRAC (R221). -/
def regFlipFrac (s : State) : Nat := fields [(s.tim.selBase, 2, 32), (s.tim.flipSel % 65536, 16, 16), (s.tim.flipTb3 % 65536, 16, 0)]

/-- TIM_SYNC_STATUS (R544). -/
def regSync (s : State) : Nat :=
  let t := s.tim
  fields [(signedField 32 (clampInt (baseOf s 3).offset (-(2 ^ 31)) (2 ^ 31 - 1)), 32, 32), ((baseOf s 3).servo.ctorIdx, 2, 22),
    ((baseOf s 2).servo.ctorIdx, 2, 20), ((baseOf s 1).servo.ctorIdx, 2, 18), (t.tb3Source, 2, 16), (flagOf t.genlock, 1, 6), (flagOf (realignPending s), 1, 5),
    (flagOf t.realignSeen, 1, 4), (flagOf t.holdoverSeen, 1, 3), (flagOf t.tb0GapSeen, 1, 2), (flagOf t.ptmValid, 1, 1)]

/-- TIM_PTP_STATUS (R545). -/
def regPtp (s : State) : Nat :=
  let e := s.eth
  fields [(e.seqDiscards, 16, 48), ((ethOf s 1).state, 4, 28), ((ethOf s 0).state, 4, 24), (min e.stepsRemoved 255, 8, 16), (flagOf e.relayDropSeen, 1, 7),
    (flagOf e.seqDiscardSeen, 1, 6), (flagOf e.gmChangeSeen, 1, 5), (flagOf (ethOf s 1).link, 1, 1), (flagOf (ethOf s 0).link, 1, 0)]

/-- TIM_EVENT_STATUS (R546). -/
def regEvents (s : State) : Nat := maskOf 16 s.tim.fired.contains

/-- A port's capture registers (R543). -/
def captureOf (s : State) (p : Port) : Capture := Tbl.get s.tim.captures {} p.num

/-- TIM_TB_CAP_FRAC (R543). -/
def regCapFrac (c : Capture) : Nat := fields ((List.range 4).map fun n => (Tbl.get c.frac 0 n, 16, 16 * n))

/-! ### CLK and PWR (R580 to R586) -/

/-- CLK_STATUS (R580). -/
def regClk (s : State) : Nat :=
  let c := s.clk
  fields [(c.gapNs, 32, 32), (c.failovers, 8, 24), (c.refPri.num, 1, 16), (c.selected.num, 1, 15), (flagOf c.refA.qual, 1, 14), (flagOf c.refB.qual, 1, 13),
    (flagOf c.refA.lock, 1, 12), (flagOf c.refB.lock, 1, 11), (flagOf c.refA.miss, 1, 10), (flagOf c.refB.miss, 1, 9), (flagOf c.refA.win, 1, 8),
    (flagOf c.refB.win, 1, 7), (flagOf c.holdSeen, 1, 6), (flagOf c.holdExpired, 1, 5), (flagOf c.failoverSeen, 1, 4)]

/-- CLK_PLL_STATUS (R581). -/
def regPll (s : State) : Nat :=
  let l := s.clk.locks.contains
  fields [(maskOf 9 l, 9, 23), (maskOf 12 fun g => l (9 + g), 12, 11), (flagOf (l 21), 1, 10), (flagOf (l 22), 1, 9), (flagOf (l 23), 1, 8),
    (flagOf s.clk.lockLostSeen, 1, 1)]

/-- PWR_RESET_CAUSE (R582). -/
def regResetCause (s : State) : Nat :=
  let p := s.pwr
  fields [(p.warmCount, 16, 48), (p.watchdogCount, 16, 32), (p.last, 4, 4), (flagOf p.supplySeen, 1, 3), (flagOf p.clockSeen, 1, 2),
    (flagOf p.watchdogSeen, 1, 1), (flagOf p.warmSeen, 1, 0)]

/-- PWR_DOMAIN_STATUS (R584). -/
def regDomains (s : State) : Nat := maskOf 44 (domainOn s)

/-- PWR_DOMAIN_FAIL (R584). -/
def regDomainFail (s : State) : Nat := maskOf 44 s.pwr.failedMarks.contains

/-- PWR_PMBUS_STATUS (R585). -/
def regPmbus (s : State) : Nat :=
  let p := s.pwr
  fields [(p.iPanel, 32, 32), (maskOf 12 fun r => (supplyOf s r).shed, 12, 20), (maskOf 12 fun r => (supplyOf s r).failed, 12, 8), (flagOf p.alertStuck, 1, 4),
    (flagOf p.stale, 1, 3), (flagOf p.alertSeen, 1, 2), (flagOf p.shedSeen, 1, 1), (flagOf p.busErrSeen, 1, 0)]

/-- PWR_ALERT_LAST (R586). -/
def regAlert (s : State) : Nat :=
  let p := s.pwr
  fields [(p.alertStatus, 16, 48), (p.alertEntry, 8, 40), (p.alertAddr, 7, 33), (flagOf p.alertValid, 1, 0)]

/-! ### THM and SPR (R607 to R609, R629) -/

/-- THM_SENSOR_n (R607). -/
def regSensor (s : State) (n : Nat) : Nat :=
  let x := sensorOf s n
  fields [(signedField 16 x.reading, 16, 48), (signedField 16 x.value, 16, 32), (x.state.ctorIdx, 3, 29), (x.partner.getD 31, 5, 24), (x.group.getD 15, 4, 20),
    (flagOf x.disagree, 1, 2), (flagOf x.failSeen, 1, 1)]

/-- THM_GROUP_STATUS_g (R608). -/
def regThermGroup (s : State) (g : Nat) : Nat :=
  let x := tempGroup s g
  fields [(signedField 16 x.reading, 16, 48), (x.curStep, 5, 43), (x.clkStep, 3, 40), (x.kind, 2, 38), (x.rows, 12, 26), (flagOf (holdBlock s g), 1, 6),
    (flagOf x.warn, 1, 5), (flagOf (x.curStep < 16 || 0 < x.clkStep), 1, 4), (flagOf x.invalid, 1, 3), (flagOf x.warnSeen, 1, 2), (flagOf x.throttleSeen, 1, 1),
    (flagOf (x.kind ≠ 0), 1, 0)]

/-- THM_STATUS (R609). -/
def regTherm (s : State) : Nat :=
  let t := s.thm
  fields [(t.lastNorWait, 16, 48), (t.clkInEffect, 3, 37), (t.clkPending, 3, 34), (t.recLast, 2, 7), (flagOf (t.slotReady.contains 1), 1, 6),
    (flagOf (t.slotReady.contains 0), 1, 5), (flagOf t.powerupHold, 1, 4), (flagOf ((List.range 24).any fun n => (sensorOf s n).state == .held), 1, 3),
    (flagOf t.sensorFailSeen, 1, 2), (flagOf t.recordSeen, 1, 1)]

/-- Clusters in the pool, not retired (R627). -/
def clustersFree (s : State) : Nat := (s.ray.spares.filter fun c => !s.spr.retired.contains c).length

/-- Retired clusters (R627). -/
def clustersRetired (s : State) : Nat := (s.spr.retired.filter (· < 14)).length

/-- DRAM_SPARE (R627); 0 until the sites have been initialised (R629). -/
def dramSpare (s : State) : Nat :=
  if s.dmc.mode == .init then 0
  else if migrationRuns s then 1
  else if s.dmc.migrate == .stopped || s.dmc.norRecord.any (fun r => r.2.2.2 = 2) then 4
  else if spareSitePresent s then 0
  else if s.dmc.spareAbsent then 3 else 2

/-- SPR_STATUS (R629). EXHAUSTED is 0, its reset value, until the configuration is confirmed (log 112). -/
def regSpr (s : State) : Nat :=
  let x := s.spr
  fields [(clustersFree s, 4, 60), (clustersRetired s, 4, 56), (x.cpu.ctorIdx, 2, 54), (dramSpare s, 3, 51), (flagOf (!classEmpty s 3), 1, 50),
    (flagOf x.retireSeen, 1, 4), (flagOf x.spareUsedSeen, 1, 3), (flagOf x.outageSeen, 1, 2), (flagOf (s.tim.confirmed && (List.range 10).any (classEmpty s)), 1, 1)]

/-! ### SIG, CMP and BOT (R117, R118, R187, R644, R673) -/

/-- SIG_REGION_STATUS_n (R187). -/
def regRegion (s : State) (n : Nat) : Nat :=
  let x := regionOf s n
  fields [(x.lastCrc, 32, 32), (min x.mismatches 65535, 16, 16), (x.consec, 4, 12), (x.lastResult.ctorIdx, 3, 9), (x.kindNow s, 2, 7),
    (flagOf x.substituted, 1, 6), (flagOf x.mismatchSeen, 1, 5), (flagOf x.ineligibleSeen, 1, 4), (flagOf x.record.armed, 1, 1), (flagOf (x.record.enable = 1), 1, 0)]

/-- CMP_LAYER_STATUS_n (R117). -/
def regLayer (s : State) (n : Nat) : Nat :=
  let x := layerStatus s n
  let e := activeLayer s n
  fields [(x.flipFrame, 32, 32), (min x.staleFrames 65535, 16, 16), (flagOf x.discarded, 1, 7), (flagOf ((Tbl.find? n s.cmp.stale).isSome || s.cmp.commits.any (·.unready.contains n)), 1, 6), (flagOf x.dropped, 1, 5),
    (flagOf (e.enabled && e.cls = 2 && s.cmp.groups.any fun g => g.2.members.contains n), 1, 4), (e.cls, 2, 2), (flagOf x.flipPending, 1, 1), (flagOf e.enabled, 1, 0)]

/-- BOT_STATUS (R644). The images and headers count once the ROM has read them (R637). -/
def regBoot (s : State) : Nat :=
  let b := s.bot
  let read := b.mode != .rom
  fields [(b.version, 32, 32), (b.rollback, 7, 25), (maskOf 4 b.revoked.contains, 4, 21), (maskOf 4 fun k => (Tbl.find? k b.ikeys).isSome, 4, 17), (b.mode.ctorIdx, 3, 14),
    (b.image, 1, 13), (flagOf b.trial, 1, 12), (flagOf (read && !otherImageBad s), 1, 11), (flagOf (read && (Tbl.find? 0 b.headers).isSome), 1, 10),
    (flagOf (read && (Tbl.find? 1 b.headers).isSome), 1, 9), (flagOf b.emmcReady, 1, 8), (flagOf b.norOctal, 1, 7), (flagOf b.fallbackSeen, 1, 6),
    (flagOf b.verifyFailSeen, 1, 5), (flagOf b.tornSeen, 1, 4), (flagOf b.emmcErrSeen, 1, 3)]

/-! ### The map of reads (R450, R668, R669) -/

/-- Register i of a row of registers of eight bytes that begins at `base`. -/
def slotIn (base n off : Nat) : Option Nat := if base ≤ off && off < base + 8 * n && off % 8 = 0 then some ((off - base) / 8) else none

/-- The register at an offset of a block's window (R669); none where the offset is reserved. -/
def windowRead (s : State) (p : Port) : Nat → Nat → Option Nat
  | 0, 0x00 => some (regGeom s)
  | 0, 0x08 => some (regClusters s)
  | 0, 0x10 => some (regWitness s)
  | 0, 0x18 => some (regCapBase s)
  | 0, 0x20 => some s.ray.newestFrame
  | 0, o => (slotIn 0x100 12 o).map (regRow s) <|> (slotIn 0x180 12 o).map fun r => regAborts (rowOf s r)
  | 1, 0x00 => some (regCurrent s)
  | 1, 0x08 => some (regStress s)
  | 1, 0x10 => some s.out.f0
  | 1, 0x18 => some (regMapVersions s)
  | 1, 0x20 => some s.out.poisonCount
  | 1, o => (slotIn 0x100 12 o).map (regTiles s)
  | 2, o => (slotIn 0 96 o).map (regLink s) <|> (slotIn 0x400 96 o).map (fun n => regLinkCount (linkOf s n)) <|> (slotIn 0x800 12 o).map (regLinkGroup s)
  | 3, o => (slotIn 0 64 o).map (regCtx s) <|> (slotIn 0x200 2 o).map (regCore s)
  | 4, 0x00 => some (regEnc s)
  | 4, 0x08 => some (regEncCount s)
  | 5, 0x00 => some (regBlt s)
  | 5, 0x08 => some (regBltCount s)
  | 5, 0x10 => some (s.blt.deadTime % 65536)
  | 6, 0x00 => some (regDfl s)
  | 6, 0x08 => some (regDflCount s)
  | 7, 0x00 => some (regDmc s)
  | 7, 0x08 => some (regErrLast s)
  | 7, 0x10 => some (regMigrate s)
  | 7, o => (slotIn 0x20 4 o).map (fun k => s.dmc.masks.getD k 0 % 2 ^ 40) <|> (slotIn 0x100 9 o).map (regSite s)
  | 8, 0x00 => some (regMode s)
  | 8, 0x08 => some s.tim.frameCount
  | 8, 0x10 => some (s.tim.flipTb3 / 65536)
  | 8, 0x18 => some (s.tim.flipSel / 65536)
  | 8, 0x20 => some (regFlipFrac s)
  | 8, 0x28 => some (regSync s)
  | 8, 0x30 => some (regPtp s)
  | 8, 0x38 => some (regEvents s)
  | 8, 0x60 => some 0
  | 8, 0x68 => some (regCapFrac (captureOf s p))
  | 8, o => (slotIn 0x40 4 o).map (tbNs s) <|> (slotIn 0x70 4 o).map fun n => Tbl.get (captureOf s p).ns 0 n
  | 9, 0x00 => some (regClk s)
  | 9, 0x08 => some (regPll s)
  | 10, 0x00 => some (regResetCause s)
  | 10, 0x08 => some 0
  | 10, 0x10 => some (regDomains s)
  | 10, 0x18 => some (regDomainFail s)
  | 10, 0x20 => some (regPmbus s)
  | 10, 0x28 => some (regAlert s)
  | 11, 0x00 => some (regTherm s)
  | 11, o => (slotIn 0x100 8 o).map (regThermGroup s) <|> (slotIn 0x200 24 o).map (regSensor s)
  | 12, 0x00 => some (regSpr s)
  | 12, 0x08 => some (s.spr.outageMs % 2 ^ 64)
  | 13, 0x00 => some s.sig.evalFrame
  | 13, o => (slotIn 0x100 32 o).map (regRegion s)
  | 14, 0x00 => some s.cmp.poisonCount
  | 14, o => (slotIn 0x200 64 o).map (regLayer s) <|> (slotIn 0x400 64 o).map (fun n => (layerStatus s n).flipTime) <|> (slotIn 0x808 255 o).map fun k => fenceValue s (k + 1)
  | 16, 0x00 => some (regBoot s)
  | 16, 0x08 => some 0
  | _, _ => none

/-- Where an offset of BAR0 lies (R450). -/
inductive Place where
  | port (off : Nat)
  | drawer (n off : Nat)
  | window (k off : Nat)
  | qdb (q : Nat)
  | qstat (q : Nat)
  | msix (off : Nat)
  | pba (word : Nat)
  | reserved
  deriving DecidableEq, Repr

/-- The place of the register that holds an offset (R450, R668). -/
def placeOfReg (off : Nat) : Place :=
  let o := off / 8 * 8
  if o < 0x2000 then .port o
  else if 0x10000 ≤ o && o < 0x20000 then .drawer ((o - 0x10000) / 0x800) (o % 0x800)
  else if 0x100000 ≤ o && o < 0x111000 then .window ((o - 0x100000) / 0x1000) (o % 0x1000)
  else if 0x200000 ≤ o && o < 0x220000 then .qdb ((o - 0x200000) / 8)
  else if 0x220000 ≤ o && o < 0x240000 then .qstat ((o - 0x220000) / 8)
  else if 0x300000 ≤ o && o < 0x308000 then .msix (o - 0x300000)
  else if 0x308000 ≤ o && o < 0x308100 then .pba ((o - 0x308000) / 8)
  else .reserved

/-- An entry of a port's MSI-X table. -/
def msixOf (h : HostPort) (v : Nat) : MsixEntry := Tbl.get h.msix {} v

/-- The value of the register at an offset of a port's BAR0, 0 where the offset is reserved (R450, R451). -/
def readRegister (s : State) (p : Port) (off : Nat) : Nat :=
  let h := portOf s p
  match placeOfReg off with
  | .port 0x00 => regHifId p
  | .port 0x08 => Config.serial % 2 ^ 64
  | .port 0x10 => regHealth s p
  | .port 0x1000 => regPortStatus h
  | .port 0x1008 => regBar2Base h
  | .port 0x1010 => regOwn s
  | .port 0x1020 => regLeaseStatus s p
  | .port 0x1028 => h.cause
  | .port 0x1030 => regIntVector h
  | .port _ => 0
  | .drawer n o =>
    let d := drawerOf s p n
    if o = 8 then regDrawerState d
    else if o = 0x10 then regDrawerConfig d
    else if 0x400 ≤ o then leAt d.resp (o - 0x400) 8
    else if 0x40 ≤ o then leAt d.req (o - 0x40) 8
    else 0
  | .window k o => (windowRead s p k o).getD 0
  | .qdb _ => 0
  | .qstat q => regQueueStatus s q
  | .msix o =>
    let e := msixOf h (o / 16)
    if o % 16 = 0 then e.addr else fields [(e.control, 32, 32), (e.data, 32, 0)]
  | .pba w => maskOf 64 fun k => h.pba.contains (64 * w + k)
  | .reserved => 0

/-- The bytes of a port's BAR0 from an offset on (R451). -/
def bar0Bytes (s : State) (p : Port) (off n : Nat) : Bytes :=
  (List.range n).map fun i => BitVec.ofNat 8 (readRegister s p (off + i) / 2 ^ (8 * ((off + i) % 8)))

/-- A range lies in the request area or in the response area of one drawer (R451, R455). -/
def inArea (off n : Nat) : Bool :=
  match placeOfReg off, placeOfReg (off + n - 1) with
  | .drawer a x, .drawer b y => a == b && ((0x40 ≤ x && y < 0x400) || 0x400 ≤ x)
  | _, _ => false

/-- What a read of BAR0 completes with (R451). -/
inductive BarAnswer where
  | data (b : Bytes)
  | unsupported
  deriving DecidableEq, Repr

/-- A read of n bytes of BAR0 through a port, answered in every power state while its link is up and its function is in D0 (R16,
R448): within a register, or up to 512 bytes of a drawer's area; any other is an Unsupported Request (R451). -/
def answerRead (s : State) (p : Port) (off n : Nat) : Option BarAnswer :=
  if !portOpen s p then none
  else if off % 8 + n ≤ 8 || (n ≤ 512 && inArea off n) then some (.data (bar0Bytes s p off n))
  else some .unsupported

/-! ### Configuration space (R447, R449) -/

/-- A BAR of a port (R449). -/
structure Bar where
  index : Nat
  size : Nat
  prefetchable : Bool
  base : Nat
  deriving DecidableEq, Repr

/-- What a port's configuration space shows (R447, R449); `absent` lists the features it advertises as absent. -/
structure ConfigSpace where
  classCode : Nat := 0x038000
  deviceId : Nat := 0x9610
  vendorId : Nat := Config.vendorId
  /-- The 64-bit BARs; no other is implemented. -/
  bars : List Bar
  maxPayload : Nat := 512
  tags : Nat := 768
  vectors : Nat := 2048
  aerLog : Bytes
  d3hot : Bool
  absent : List String := ["INTx", "MSI", "ASPM", "L1 PM substates", "SR-IOV", "ATS", "PRI", "PASID", "TPH", "LTR", "Resizable BAR",
    "AtomicOps", "expansion ROM", "ECRC"]
  deriving DecidableEq, Repr

/-- The configuration space of a port (R447 to R449). -/
def configSpace (h : HostPort) : ConfigSpace :=
  { bars := [{ index := 0, size := 2 ^ 25, prefetchable := false, base := h.bar0 }, { index := 2, size := 2 ^ 30, prefetchable := true, base := h.bar2 }]
    aerLog := h.aer, d3hot := h.d3hot }

/-! ### Writes (R10, R11, R451, R455, R461, R485, R490) -/

/-- The written bits that clear a flag (R10). -/
def w1c (v k : Nat) (b : Bool) : Bool := b && !bit v k

/-- W1C fields of a decoder context (R333). -/
def Ctx.clear (v : Nat) (x : Ctx) : Ctx :=
  { x with pairMiss := w1c v 8 x.pairMiss, sizeMismatch := w1c v 7 x.sizeMismatch, watchdog := w1c v 6 x.watchdog, conceal := w1c v 5 x.conceal,
           standin := w1c v 4 x.standin, syntaxSeen := w1c v 3 x.syntaxSeen, writeBlocked := w1c v 2 x.writeBlocked }

/-- W1C fields of a site (R443). -/
def Site.clear (v : Nat) (x : Site) : Site :=
  { x with retrainFail := w1c v 8 x.retrainFail, ueSeen := w1c v 3 x.ueSeen, ceSeen := w1c v 2 x.ceSeen }

/-- W1C fields of the controller (R442). -/
def DmcState.clear (v : Nat) (d : DmcState) : DmcState :=
  { d with ueSeen := w1c v 8 d.ueSeen, ceSeen := w1c v 7 d.ceSeen, cmdErrSeen := w1c v 6 d.cmdErrSeen, hotSeen := w1c v 5 d.hotSeen,
           degradedSeen := w1c v 4 d.degradedSeen }

/-- W1C fields of the reference selector (R580). -/
def ClkState.clear (v : Nat) (c : ClkState) : ClkState :=
  { c with refA := { c.refA with miss := w1c v 10 c.refA.miss, win := w1c v 8 c.refA.win }
           refB := { c.refB with miss := w1c v 9 c.refB.miss, win := w1c v 7 c.refB.win }
           holdSeen := w1c v 6 c.holdSeen, holdExpired := w1c v 5 c.holdExpired, failoverSeen := w1c v 4 c.failoverSeen }

/-- A write of ones to a register of a block's window clears its W1C fields; every other field keeps its value (R10, R669). -/
def clearWindow (k o v : Nat) (s : State) : State :=
  match k, o with
  | 0, 0x00 => { s with geom := { s.geom with dedSeen := w1c v 4 s.geom.dedSeen } }
  | 0, o => match slotIn 0x100 12 o with
    | some r => setRow r { rowOf s r with abortSeen := w1c v 3 (rowOf s r).abortSeen, loweredSeen := w1c v 2 (rowOf s r).loweredSeen } s
    | none => s
  | 1, 0x00 => { s with out := { s.out with limitSeen := w1c v 1 s.out.limitSeen } }
  | 1, 0x08 => { s with out := { s.out with poisonB := w1c v 6 s.out.poisonB, poisonA := w1c v 5 s.out.poisonA, satB := w1c v 4 s.out.satB, satA := w1c v 3 s.out.satA } }
  | 2, o => match slotIn 0 96 o with
    | some n => setLink n { linkOf s n with degradeSeen := w1c v 7 (linkOf s n).degradeSeen, crcErrSeen := w1c v 6 (linkOf s n).crcErrSeen } s
    | none => s
  | 3, o => match slotIn 0 64 o, slotIn 0x200 2 o with
    | some n, _ => setCtx n ((ctxOf s n).clear v) s
    | none, some c => setCore c { coreOf s c with faultSeen := w1c v 4 (coreOf s c).faultSeen } s
    | none, none => s
  | 4, 0x00 => { s with enc := { s.enc with faultSeen := w1c v 2 s.enc.faultSeen, forcedSeen := w1c v 1 s.enc.forcedSeen, skipSeen := w1c v 0 s.enc.skipSeen } }
  | 5, 0x00 => { s with blt := { s.blt with faultSeen := w1c v 4 s.blt.faultSeen, poisonSeen := w1c v 3 s.blt.poisonSeen, errorSeen := w1c v 2 s.blt.errorSeen,
                                            cancelSeen := w1c v 1 s.blt.cancelSeen } }
  | 6, 0x00 => { s with dfl := { s.dfl with faultSeen := w1c v 4 s.dfl.faultSeen, poisonSeen := w1c v 3 s.dfl.poisonSeen, dataErrorSeen := w1c v 2 s.dfl.dataErrorSeen,
                                            storedSeen := w1c v 1 s.dfl.storedSeen } }
  | 7, 0x00 => { s with dmc := s.dmc.clear v }
  | 7, 0x08 => { s with dmc := { s.dmc with errValid := w1c v 0 s.dmc.errValid } }
  | 7, o => match slotIn 0x100 9 o with
    | some n => setSite n ((siteOf s n).clear v) s
    | none => s
  | 8, 0x00 => { s with tim := { s.tim with modeChanged := w1c v 3 s.tim.modeChanged } }
  | 8, 0x28 => { s with tim := { s.tim with realignSeen := w1c v 4 s.tim.realignSeen, holdoverSeen := w1c v 3 s.tim.holdoverSeen, tb0GapSeen := w1c v 2 s.tim.tb0GapSeen } }
  | 8, 0x30 => { s with eth := { s.eth with relayDropSeen := w1c v 7 s.eth.relayDropSeen, seqDiscardSeen := w1c v 6 s.eth.seqDiscardSeen, gmChangeSeen := w1c v 5 s.eth.gmChangeSeen } }
  | 8, 0x38 => { s with tim := { s.tim with fired := s.tim.fired.filter fun n => !bit v n } }
  | 9, 0x00 => { s with clk := s.clk.clear v }
  | 9, 0x08 => { s with clk := { s.clk with lockLostSeen := w1c v 1 s.clk.lockLostSeen } }
  | 10, 0x00 => { s with pwr := { s.pwr with supplySeen := w1c v 3 s.pwr.supplySeen, clockSeen := w1c v 2 s.pwr.clockSeen, watchdogSeen := w1c v 1 s.pwr.watchdogSeen,
                                             warmSeen := w1c v 0 s.pwr.warmSeen } }
  | 10, 0x20 => { s with pwr := { s.pwr with alertSeen := w1c v 2 s.pwr.alertSeen, shedSeen := w1c v 1 s.pwr.shedSeen, busErrSeen := w1c v 0 s.pwr.busErrSeen } }
  | 10, 0x28 => { s with pwr := { s.pwr with alertValid := w1c v 0 s.pwr.alertValid } }
  | 11, 0x00 => { s with thm := { s.thm with sensorFailSeen := w1c v 2 s.thm.sensorFailSeen, recordSeen := w1c v 1 s.thm.recordSeen } }
  | 11, o => match slotIn 0x100 8 o, slotIn 0x200 24 o with
    | some g, _ => setTempGroup g { tempGroup s g with warnSeen := w1c v 2 (tempGroup s g).warnSeen, throttleSeen := w1c v 1 (tempGroup s g).throttleSeen } s
    | none, some n => setSensor n { sensorOf s n with failSeen := w1c v 1 (sensorOf s n).failSeen } s
    | none, none => s
  | 12, 0x00 => { s with spr := { s.spr with retireSeen := w1c v 4 s.spr.retireSeen, spareUsedSeen := w1c v 3 s.spr.spareUsedSeen, outageSeen := w1c v 2 s.spr.outageSeen } }
  | 13, o => match slotIn 0x100 32 o with
    | some n => setRegion n { regionOf s n with mismatchSeen := w1c v 5 (regionOf s n).mismatchSeen, ineligibleSeen := w1c v 4 (regionOf s n).ineligibleSeen } s
    | none => s
  | 14, o => match slotIn 0x200 64 o with
    | some n => setLayerStatus n { layerStatus s n with discarded := w1c v 7 (layerStatus s n).discarded } s
    | none => s
  | 16, 0x00 => { s with bot := { s.bot with fallbackSeen := w1c v 6 s.bot.fallbackSeen, verifyFailSeen := w1c v 5 s.bot.verifyFailSeen, tornSeen := w1c v 4 s.bot.tornSeen,
                                             emmcErrSeen := w1c v 3 s.bot.emmcErrSeen } }
  | _, _ => s

/-- The register value after a write of `width` bytes at `off`: the other half of a register keeps its bits (R451). -/
def mergeHalf (old off width v : Nat) : Nat :=
  if width = 8 then v else if off % 8 = 0 then old / 2 ^ 32 * 2 ^ 32 + v % 2 ^ 32 else old % 2 ^ 32 + v % 2 ^ 32 * 2 ^ 32

/-- The bits of a write at their places in the register, 0 in the half that is not written. -/
def placed (off width v : Nat) : Nat := mergeHalf 0 off width v

/-- `n` bytes of a message from offset `i` are replaced. -/
def patchBytes (b : Bytes) (i : Nat) (v : Bytes) : Bytes :=
  let b := padTo (max b.length (i + v.length)) b
  b.take i ++ v ++ b.drop (i + v.length)

/-- A write to the request area: in IDLE and RESPONSE; discarded and counted in REQUEST and BUSY (R455, R458). -/
def writeRequest (p : Port) (n i width v : Nat) (s : State) : State :=
  let d := drawerOf s p n
  if d.state == .idle || d.state == .response then setDrawer p n { d with req := patchBytes d.req i (leBytes width v) } s
  else refuseDrawer p n s

/-- A write in a drawer window (R455, R461). The doorbell takes 64-bit writes alone (R451). -/
def writeDrawer (p : Port) (n o off width v : Nat) (s : State) : State :=
  let d := drawerOf s p n
  if o = 0 then if width = 8 then drawerDoorbell p n v s else refuseDrawer p n s
  else if o = 0x10 then
    let w := mergeHalf (regDrawerConfig d) off width v
    setDrawer p n { d with intEn := bit w 12, vector := bits w 10 0 } s
  else if 0x40 ≤ o && o < 0x400 then writeRequest p n (off % 0x800 - 0x40) width v s
  else s

/-- A doorbell write narrower than 64 bits (R451). -/
def refuseQueue (p : Port) (q : Nat) (s : State) : State :=
  let c := queueOf s q
  let t := setQueue q { c with dbRefused := satAdd 8 c.dbRefused 1 } s
  setPort p { portOf t p with dbRefusedSeen := true } t

/-- A vector that is unmasked while its pending bit is set sends its message (R482). -/
def unmask (p : Port) (v : Nat) (s : State) : State :=
  let h := portOf s p
  if h.pba.contains v && !bit (msixOf h v).control 0 && portOpen s p then
    send (.msix p v) (setPort p { h with pba := h.pba.filter (· ≠ v) } s)
  else s

/-- A write to the MSI-X table (R450, R482). DESIGN CHOICE (log 100): an entry keeps all of its 128 bits as they are written; PCI Express
Base has reserved ones among them. -/
def writeMsix (p : Port) (o off width v : Nat) (s : State) : State :=
  let h := portOf s p
  let e := msixOf h (o / 16)
  let e :=
    if o % 16 = 0 then { e with addr := mergeHalf e.addr off width v }
    else
      let w := mergeHalf (fields [(e.control, 32, 32), (e.data, 32, 0)]) off width v
      { e with data := w % 2 ^ 32, control := w / 2 ^ 32 % 2 ^ 32 }
  unmask p (o / 16) (setPort p { h with msix := Tbl.set (o / 16) e h.msix } s)

/-- W1C and RW registers below 0x2000 (R480, R485, R489, R490). -/
def writePort (p : Port) (o off width v : Nat) (s : State) : State :=
  let h := portOf s p
  let w := placed off width v
  if o = 0x1000 then
    setPort p { h with lateSeen := w1c w 5 h.lateSeen, dbRefusedSeen := w1c w 4 h.dbRefusedSeen, staleRespSeen := w1c w 3 h.staleRespSeen,
                       bar2Seen := w1c w 2 h.bar2Seen, resetSeen := w1c w 1 h.resetSeen } s
  else if o = 0x1008 then setPort p { h with bar2Base := bits (mergeHalf (regBar2Base h) off width v) 39 20 } s
  else if o = 0x1018 then leaseWrite p w s
  else if o = 0x1020 then setPort p { h with claimRefused := w1c w 5 h.claimRefused, expiredSeen := w1c w 4 h.expiredSeen } s
  else if o = 0x1028 then setPort p { h with cause := maskOf 8 fun k => bit h.cause k && !bit w k } s
  else if o = 0x1030 then
    let x := mergeHalf (regIntVector h) off width v
    setPort p { h with intEn := bits x 7 0, intVector := bits x 26 16 } s
  else s

/-! ### Reset requests (R553, R583) -/

/-- The 9610 acts on a write of PWR_RESET_CTRL: its key, exactly one action bit, and OWNER held with a live lease (R583). -/
def resetAction (s : State) (p : Port) (v action : Nat) : Bool := bits v 15 8 = 0xA5 && bits v 2 0 = 2 ^ action && holds s p 1

/-- WARM (R583). -/
def requestWarm (p : Port) (s : State) : State := warmReset .warm { s with pwr := { s.pwr with lastPort := p.num } }

/-- COLD (R583): a power-on reset that ends at once. -/
def requestCold (p : Port) (s : State) : State :=
  let t := coldState .cold { s with pwr := { s.pwr with lastPort := p.num } }
  { t with pwr := { t.pwr with porst := false } }

/-- A write of PWR_RESET_CTRL (R583). -/
def writeReset (p : Port) (v : Nat) (s : State) : State :=
  if resetAction s p v 0 then requestWarm p s
  else if resetAction s p v 1 then requestCold p s
  else if resetAction s p v 2 then switchReference s
  else s

/-- WARM (R583). -/
def execWarm (p : Port) (value : Nat) (s : State) : Out := done (ifEvent (portOpen s p && resetAction s p value 0) (requestWarm p s) s)

/-- COLD (R583). -/
def execCold (p : Port) (value : Nat) (s : State) : Out := done (ifEvent (portOpen s p && resetAction s p value 1) (requestCold p s) s)

/-- SWITCH_REF (R553, R583). -/
def execSwitchRef (p : Port) (value : Nat) (s : State) : Out := done (ifEvent (portOpen s p && resetAction s p value 2) (switchReference s) s)

/-! ### The recovery image (R635, R637) -/

/-- The classes of the drawers (R503); a record that names no class of R463 leaves the default. -/
def bootClasses (s : State) : State :=
  let named := s.bot.install.elim [] (·.classes)
  let known (n c : Nat) : Nat := if c ≤ 6 then c else defaultClass n
  (List.range 32).foldl (fun t n => [Port.a, Port.b].foldl (fun t p =>
    setDrawer p n { drawerOf t p n with cls := known n (Tbl.get t.walec.classRecord (Tbl.get named (defaultClass n) (drawerIx p n)) (drawerIx p n)) } t) t) s

/-- The ROM verifies the image that the host has written at device address 0 and runs it: RECOVERY, Walec RUNNING with the raster
stopped (R459, R637); the drawers have their classes (R503), and RESTART_COMPLETE is raised (R35). An image that does not verify
leaves the ROM in FAILED. -/
def recover (len : Nat) (s : State) : State :=
  let b := load s 0 len
  match imageCheck s b with
  | some c => verifyFail 2 c s
  | none =>
    raiseUp 0 (bootClasses (setWalec .running { s with bot := { s.bot with mode := .recovery, version := imageVersion b, trial := false } }))

/-- BOT_RECOVERY_WRITE (R637, R644): port A alone. -/
def execBotRecoveryWrite (p : Port) (value : Nat) (s : State) : Out :=
  done (ifEvent (portOpen s p && p == .a && s.bot.mode == .failed) (recover (bits value 31 0) s) s)

/-! ### REGISTER_WRITE -/

/-- A write to a register of a window: the action of a WO register, or the W1C fields (R543, R583, R644). -/
def writeWindow (p : Port) (k o w : Nat) (s : State) : State :=
  if k = 8 && o = 0x60 then if bit w 0 then captureAll p s else s
  else if k = 10 && o = 0x08 then writeReset p w s
  else if k = 16 && o = 0x08 then if p == .a && s.bot.mode == .failed then recover (bits w 31 0) s else s
  else clearWindow k o w s

/-- A write of `width` bytes at an offset of BAR0 (R450, R451). -/
def writeRegister (p : Port) (off width v : Nat) (s : State) : State :=
  match placeOfReg off with
  | .port o => writePort p o off width v s
  | .drawer n o => writeDrawer p n o off width v s
  | .window k o => writeWindow p k o (placed off width v) s
  | .qdb q => if width = 8 then queueDoorbell p q v s else refuseQueue p q s
  | .msix o => writeMsix p o off width v s
  | .qstat _ => s
  | .pba _ => s
  | .reserved => s

/-- REGISTER_WRITE (R10). -/
def execRegisterWrite (p : Port) (off width value : Nat) (s : State) : Out :=
  done (ifEvent (portOpen s p) (writeRegister p off width value s) s)

end Sys2Proof.Machine
end

