-- ==== Sys2Proof/Machine/Params.lean ====
section
/-! DEFINITION. The parameters of PUT and GET (15_walec_services.md R496; 16 R541; 18 R605; 19 R628; 10 R352). -/

namespace Sys2Proof.Machine

/-- A parameter at one INDEX: its value in effect, the value that waits for its boundary, the values in range, and what a PUT of a
value does. VALUE is 16 bytes, a signed value in two's complement (R6, R496, R541). -/
structure Param where
  value : Nat
  waits : Option Nat := none
  /-- Nothing has been set: any value changes it. -/
  unset : Bool := false
  ok : Nat → Bool
  put : Nat → Origin → State → State

/-- VALUE of a signed parameter (R541). -/
def valueOf (x : Int) : Nat := unsigned 128 x

/-- The signed value of VALUE (R541). -/
def ofValue (v : Nat) : Int := signed 128 v

/-- Within bounds. -/
def within (lo hi v : Nat) : Bool := lo ≤ v && v ≤ hi

/-- A signed value within bounds. -/
def withinInt (lo hi : Int) (v : Nat) : Bool := lo ≤ ofValue v && ofValue v ≤ hi

/-- The value last set. -/
def Param.set (p : Param) : Nat := p.waits.getD p.value

/-- A value that is set and not yet in effect. -/
def waiting (effect set : Nat) : Option Nat := if set = effect then none else some set

/-- The last value of a pending change that `f` reads. -/
def lastPending (s : State) (f : Change → Option Nat) : Option Nat := (s.tim.pending.filterMap fun p => f p.change).getLast?

/-- A change at the next frame tick that R24 allows. -/
def atTick (c : Change) (o : Origin) (s : State) : State := plan (nextFrame s) c o s

/-! ### DEVICE (R285, R292, R293, R374, R411) -/

/-- RETRAIN of every link of a group, at the first frame that two control windows allow (R268, R293). -/
def retrainGroup (g : Nat) (s : State) : State :=
  (List.range 8).foldl (fun t c => if (linkOf t (8 * g + c)).state == .up then control (8 * g + c) 5 (rateFrame t) t else t) s

/-- The spread setting of a group waits for training (R293). -/
def setSpread (g spread rate : Nat) (s : State) : State :=
  let x := groupOf s g
  setGroup g { x with pending := if spread = x.spread && rate = x.modRate then none else some (spread, rate) } s

/-- DEVICE parameters. -/
def deviceParam (s : State) (id ix : Nat) : Option Param :=
  let x := groupOf s ix
  let set := x.pending.getD (x.spread, x.modRate)
  match id with
  | 1 => if ix < 12 then some { value := x.uncLimit, ok := within 1 255, put := fun v _ t => setGroup ix { groupOf t ix with uncLimit := v } t } else none
  | 2 => if ix < 12 then some { value := x.spread, waits := waiting x.spread set.1, ok := within 0 10, put := fun v _ => setSpread ix v set.2 } else none
  | 3 => if ix < 12 then some { value := x.modRate, waits := waiting x.modRate set.2, ok := within 0 6, put := fun v _ => setSpread ix set.1 v } else none
  | 4 => if ix < 12 then some { value := 0, ok := within 1 1, put := fun _ _ => retrainGroup ix } else none
  | 5 => if ix = 0 then some { value := s.blt.deadTime, ok := within 0 65535, put := fun v _ t => { t with blt := { t.blt with deadTime := v } } } else none
  | 6 => if within 2 8 ix then some { value := Tbl.get s.dmc.weights 1 ix, ok := within 1 16,
                                      put := fun v _ t => { t with dmc := { t.dmc with weights := Tbl.set ix v t.dmc.weights } } } else none
  | _ => none

/-! ### MODE, SCENE, MAP, STRESS (R197, R89, R233, R235, R244, R248) -/

/-- MODE parameters. -/
def modeParam (s : State) (id ix : Nat) : Option Param :=
  match id, ix with
  | 1, 0 => some {
      value := s.tim.lensLead, ok := within 0 60, put := fun v => atTick (.lensLead v)
      waits := lastPending s fun c => match c with
        | .lensLead v => some v
        | _ => none }
  | _, _ => none

/-- SCENE parameters. -/
def sceneParam (s : State) (id ix : Nat) : Option Param :=
  match id, ix with
  | 1, 0 => some {
      value := s.cmp.termT16, ok := within 0 65535, put := fun v => atTick (.termT16 v)
      waits := lastPending s fun c => match c with
        | .termT16 v => some v
        | _ => none }
  | _, _ => none

/-- BRIGHT of a colour is set, and kept in the installation record (R233, R235). -/
def setBright (ch v : Nat) (s : State) : State :=
  { s with out := { s.out with brightSet := Tbl.set ch v s.out.brightSet, brightRecord := Tbl.set ch v s.out.brightRecord } }

/-- MAP parameters. -/
def mapParam (s : State) (id ix : Nat) : Option Param :=
  let now := Tbl.get s.out.bright 0 ix
  if id = 1 && ix < 3 then some { value := now, waits := waiting now (Tbl.get s.out.brightSet 0 ix), ok := within 0 255, put := fun v _ => setBright ix v } else none

/-- STRESS parameters. -/
def stressParam (s : State) (id ix : Nat) : Option Param :=
  match id, ix with
  | 1, 0 => some { value := s.out.updatePeriod, ok := within 60 600, put := fun v _ t => { t with out := { t.out with updatePeriod := v } } }
  | 2, 0 => some { value := s.out.target, ok := within 16384 32768, put := fun v _ t => { t with out := { t.out with target := v } } }
  | _, _ => none

/-! ### WITNESS (R159, R349, R350, R352) -/

/-- Change the encoder's parameters as set. -/
def setEnc (f : EncParams → EncParams) (s : State) : State := { s with enc := { s.enc with params := f s.enc.params } }

/-- A parameter of R352 with its value in effect and as set. -/
def encParam (s : State) (get : EncParams → Nat) (ok : Nat → Bool) (set : Nat → EncParams → EncParams) : Option Param :=
  some { value := get s.enc.inForce, waits := waiting (get s.enc.inForce) (get s.enc.params), ok, put := fun v _ => setEnc (set v) }

/-- Largest bit rate in kbit/s at a size (R352). -/
def rateMax (p : EncParams) : Nat := if p.wide then 25000 else 20000

/-- Width and signedness of a camera parameter: P0X and P0Y s13.12, PSX and PSY u4.16, the tangents s2.22 (R159). -/
def cameraOk (k v : Nat) : Bool :=
  if k < 2 then withinInt (-(2 ^ 25)) (2 ^ 25 - 1) v else if k < 4 then v < 2 ^ 20 else withinInt (-(2 ^ 24)) (2 ^ 24 - 1) v

/-- WITNESS parameters. -/
def witnessParam (s : State) (id ix : Nat) : Option Param :=
  let p := s.enc.params
  if ix ≠ 0 then none else
  match id with
  | 0x01 => encParam s (·.rateReq) (fun v => [30, 15, 10, 5].contains v) fun v p => { p with rateReq := v }
  | 0x02 => encParam s (fun p => flagOf (!p.wide)) (within 0 1) fun v p => { p with wide := v = 0 }
  | 0x03 => encParam s (fun p => flagOf p.vbr) (within 0 1) fun v p => { p with vbr := v = 1 }
  | 0x04 => encParam s (·.bitrate / 1000) (fun v => within 1000 (rateMax p) v && 1000 * v ≤ p.peak) fun v p => { p with bitrate := 1000 * v }
  | 0x05 => encParam s (·.peak / 1000) (fun v => within 1000 (rateMax p) v && p.bitrate ≤ 1000 * v) fun v p => { p with peak := 1000 * v }
  | 0x06 => encParam s (·.vbrQp) (within 22 51) fun v p => { p with vbrQp := v }
  | 0x07 => encParam s (·.picCap) (fun v => v = 0 || within 32768 1048576 v) fun v p => { p with picCap := v }
  | 0x08 => encParam s (·.refreshPics) (within 8 (ctuCols p.wide)) fun v p => { p with refreshPics := v }
  | 0x09 => encParam s (·.postponeMax) (within 1 15) fun v p => { p with postponeMax := v }
  | 0x0A => encParam s (·.dest) (within 0 2) fun v p => { p with dest := v }
  | 0x0B => encParam s (·.maxPayload) (within 1100 8900) fun v p => { p with maxPayload := v }
  | 0x0C => some { value := s.walec.destAddr, ok := fun _ => true, put := fun v _ t => { t with walec := { t.walec with destAddr := v } } }
  | 0x0D => some { value := s.walec.destPort, ok := within 1 65535, put := fun v _ t => { t with walec := { t.walec with destPort := v } } }
  | 0x0E => some { value := s.enc.ringQueue.getD 0, unset := s.enc.ringQueue.isNone, ok := fun v => v < 16384 && (queueOf s v).kind = 5,
                   put := fun v _ t => { t with enc := { t.enc with ringQueue := some v } } }
  | _ =>
    if within 0x10 0x17 id then
      let k := id - 0x10
      let now := Tbl.get s.walec.camera 0 k
      some { value := if k = 2 || k = 3 then now else valueOf (signed 32 now), ok := cameraOk k,
             put := fun v _ t => { t with walec := { t.walec with camera := Tbl.set k (v % 2 ^ 32) t.walec.camera } } }
    else none

/-! ### TIME (R200, R541) -/

/-- SELECT_BASE: at the next tick while the raster runs, at once while it is stopped (R200). -/
def setSelBase (v : Nat) (o : Origin) (s : State) : State :=
  if s.tim.rasterRun then atTick (.selBase v) o s else { s with tim := { s.tim with bureauBase := v } }

/-- A parameter of the timing block. -/
def timParam (value : Nat) (ok : Nat → Bool) (put : Nat → TimState → TimState) : Option Param :=
  some { value, ok, put := fun v _ t => { t with tim := put v t.tim } }

/-- A parameter of PTP. -/
def ptpParam (value : Nat) (ok : Nat → Bool) (put : Nat → EthState → EthState) : Option Param :=
  some { value, ok, put := fun v _ t => { t with eth := put v t.eth } }

/-- A parameter with whose change PTP begins anew; a port with a role joins its groups (R535, R541). -/
def ptpAnew (value : Nat) (ok : Nat → Bool) (put : Nat → EthState → EthState) : Option Param :=
  some { value, ok, put := fun v _ t => beginPtp { t with eth := put v t.eth } }

/-- A parameter of an Ethernet port. -/
def portParam (ix value : Nat) (ok : Nat → Bool) (put : Nat → EthPort → EthPort) : Option Param :=
  if ix < 2 then some { value, ok, put := fun v _ t => setEth ix (put v (ethOf t ix)) t } else none

/-- The bound of ING_LAT, EGR_LAT and DELAY_ASYM: 100 µs in units of 2^-16 ns (R541). -/
def latOk (v : Nat) : Bool := withinInt (-6553600000) 6553600000 v

/-- TIME parameters of a port. -/
def timePortParam (s : State) (id ix : Nat) : Option Param :=
  let x := ethOf s ix
  match id with
  | 0x23 => portParam ix x.transport (within 0 2) fun v x => { x with transport := v }
  | 0x24 => portParam ix x.step (within 0 1) fun v x => { x with step := v }
  | 0x2A => portParam ix (valueOf x.ingLat) latOk fun v x => { x with ingLat := ofValue v }
  | 0x2B => portParam ix (valueOf x.egrLat) latOk fun v x => { x with egrLat := ofValue v }
  | 0x2C => portParam ix (valueOf x.delayAsym) latOk fun v x => { x with delayAsym := ofValue v }
  | 0x30 => (portParam ix x.speed (within 0 4) fun v x => { x with speedNext := v }).map fun p => { p with waits := waiting x.speed x.speedNext }
  | 0x31 => portParam ix x.ipv4 (within 0 (2 ^ 32 - 1)) fun v x => { x with ipv4 := v }
  | 0x32 => portParam ix x.ipv4Mask (within 0 (2 ^ 32 - 1)) fun v x => { x with ipv4Mask := v }
  | 0x33 => portParam ix x.ipv4Gw (within 0 (2 ^ 32 - 1)) fun v x => { x with ipv4Gw := v }
  | 0x34 => portParam ix x.ipv6 (fun _ => true) fun v x => { x with ipv6 := v }
  | 0x35 => portParam ix x.ipv6Prefix (within 0 128) fun v x => { x with ipv6Prefix := v }
  | 0x36 => portParam ix x.vlan (within 0 4094) fun v x => { x with vlan := v }
  | _ => none

/-- TIME parameters. -/
def timeParam (s : State) (id ix : Nat) : Option Param :=
  let t := s.tim
  let e := s.eth
  if ix ≠ 0 then timePortParam s id ix else
  match id with
  | 0x01 => some {
      value := t.bureauBase, ok := within 0 3, put := setSelBase
      waits := lastPending s fun c => match c with
        | .selBase v => some v
        | _ => none }
  | 0x10 => timParam t.tb3Source (within 0 3) fun v t => { t with tb3Source := v }
  | 0x11 => timParam (valueOf t.tb3Offset) (withinInt (-(2 ^ 62) + 1) (2 ^ 62 - 1)) fun v t => { t with tb3Offset := ofValue v }
  | 0x12 => (timParam (flagOf t.genlock) (within 0 1) fun v t => { t with genlockParam := v }).map fun p => { p with waits := waiting (flagOf t.genlock) t.genlockParam }
  | 0x13 => (timParam t.tickOrigin (within 0 (2 ^ 64 - 1)) fun v t => { t with originParam := v }).map fun p => { p with waits := waiting t.tickOrigin t.originParam }
  | 0x14 => timParam t.slewMax (within 1 100) fun v t => { t with slewMax := v }
  | 0x15 => timParam t.stepLimit (within 1 1000) fun v t => { t with stepLimit := v }
  | 0x16 => timParam t.tb2Port (within 0 2) fun v t => { t with tb2Port := v, ptmSent := none, ptmTrip := none, ptmHost := none, ptmNew := false, ptmFails := 0 }
  | 0x17 => timParam t.ptmInterval (within 1 1000) fun v t => { t with ptmInterval := v }
  | 0x20 => ptpAnew e.role (within 0 4) fun v e => { e with role := v }
  | 0x21 => ptpAnew e.profile (within 0 1) fun v e => { e with profile := v }
  | 0x22 => ptpAnew (ptpDomain s) (within 0 (if e.profile = 1 then 0 else 127)) fun v e => { e with domain := v }
  | 0x25 => ptpParam e.priority1 (within 0 255) fun v e => { e with priority1 := v }
  | 0x26 => ptpParam e.priority2 (within 0 255) fun v e => { e with priority2 := v }
  | 0x27 => ptpParam (valueOf (logIntervals e).1) (withinInt (-7) 1) fun v e => { e with logSync := some (ofValue v) }
  | 0x28 => ptpParam (valueOf (logIntervals e).2.1) (withinInt (-3) 4) fun v e => { e with logAnnounce := some (ofValue v) }
  | 0x29 => ptpParam (valueOf (logIntervals e).2.2) (withinInt (-7) 5) fun v e => { e with logMinDelay := some (ofValue v) }
  | _ => timePortParam s id ix

/-- The transparent clock is not available under IEEE 802.1AS-2020 (R536). -/
def ptpUnavailable (s : State) (id v : Nat) : Bool := (id = 0x20 && v = 4 && s.eth.profile = 1) || (id = 0x21 && v = 1 && s.eth.role = 4)

/-! ### THERM (R234, R423, R588, R590, R592, R605) -/

/-- Thresholds in order, every hysteresis smaller than the gap below its threshold, and a DEVICE SHUTDOWN of at most 120.0 °C
(R592, R605). -/
def TempGroup.valid (x : TempGroup) : Bool :=
  x.warnT < x.throttleT && x.throttleT < x.shutdownT && x.hystThrottle < x.throttleT - x.warnT && x.hystShutdown < x.shutdownT - x.throttleT &&
  (x.kind ≠ 1 || x.shutdownT ≤ 1920)

/-- A parameter of a sensor. -/
def sensorParam (n value : Nat) (ok : Nat → Bool) (put : Nat → Sensor → Sensor) : Option Param :=
  if within 16 23 n then some { value, ok, put := fun v _ t => setSensor n (put v (sensorOf t n)) t } else none

/-- A parameter of a group: the group it makes must be valid (R605). -/
def groupParam (s : State) (g value : Nat) (ok : Nat → Bool) (put : Nat → TempGroup → TempGroup) : Option Param :=
  if g < 8 then some { value, ok := fun v => ok v && (put v (tempGroup s g)).valid, put := fun v _ t => setTempGroup g (put v (tempGroup t g)) t } else none

/-- Two members of a pair lie in one group: a pair across two groups would put its sensors in both (R590, R605). -/
def groupsAgree (a b : Option Nat) : Bool := match a, b with
  | some x, some y => x = y
  | _, _ => true

/-- The partner of a sensor is cleared on both members. -/
def unpair (n : Nat) (s : State) : State :=
  match (sensorOf s n).partner with
  | none => s
  | some m => setSensor n { sensorOf s n with partner := none } (setSensor m { sensorOf s m with partner := none } s)

/-- PARTNER is set on both members (R605). -/
def setPartner (n v : Nat) (s : State) : State :=
  if v < 24 then
    let t := unpair v (unpair n s)
    setSensor v { sensorOf t v with partner := some n } (setSensor n { sensorOf t n with partner := some v } t)
  else unpair n s

/-- PARTNER is in range (R605). -/
def partnerOk (s : State) (n v : Nat) : Bool := v = 0xFF || (v < 24 && v ≠ n && groupsAgree (sensorOf s n).group (sensorOf s v).group)

/-- GROUP is in range (R590, R605). -/
def groupOk (s : State) (n v : Nat) : Bool :=
  v = 0xFF || (v < 8 && match (sensorOf s n).partner with
    | some m => groupsAgree (some v) (sensorOf s m).group
    | none => true)

/-- A point of NTC_TABLE in VALUE (R605). -/
def pointValue (p : Nat × Int) : Nat := fields [(unsigned 16 p.2, 16, 32), (p.1, 32, 0)]

/-- THERM parameters of a group. -/
def thermGroupParam (s : State) (id g : Nat) : Option Param :=
  let x := tempGroup s g
  let temp := withinInt (-32768) 32767
  match id with
  | 0x20 => groupParam s g x.kind (within 0 2) fun v x => { x with kind := v }
  | 0x21 => groupParam s g x.rows (within 0 4095) fun v x => { x with rows := v }
  | 0x22 => groupParam s g (valueOf x.warnT) temp fun v x => { x with warnAt := some (ofValue v) }
  | 0x23 => groupParam s g (valueOf x.throttleT) temp fun v x => { x with throttleAt := some (ofValue v) }
  | 0x24 => groupParam s g (valueOf x.shutdownT) temp fun v x => { x with shutdownAt := some (ofValue v) }
  | 0x25 => groupParam s g (valueOf x.hystWarn) (within 8 160) fun v x => { x with hystWarn := v }
  | 0x26 => groupParam s g (valueOf x.hystThrottle) (within 8 160) fun v x => { x with hystThrottle := v }
  | 0x27 => groupParam s g (valueOf x.hystShutdown) (within 8 160) fun v x => { x with hystShutdown := v }
  | 0x28 => groupParam s g x.downMs (within 250 10000) fun v x => { x with downMs := v }
  | 0x29 => groupParam s g x.upMs (within 1000 600000) fun v x => { x with upMs := v }
  | _ => none

/-- I_LIMIT, kept in the installation record (R234, R235). -/
def setLimit (v : Nat) (s : State) : State := { s with out := { s.out with iLimit := some v, iLimitRecord := some v } }

/-- THERM parameters. -/
def thermParam (s : State) (id ix : Nat) : Option Param :=
  let x := sensorOf s ix
  match id with
  | 0x01 => if ix = 0 then some { value := limitOf s, ok := within 1 1000000, put := fun v _ => setLimit v } else none
  | 0x10 => sensorParam ix x.mode (within 0 3) fun v x => { x with mode := v, state := if v = 0 then .off else x.state }
  | 0x11 => sensorParam ix x.ideality (within 15565 18022) fun v x => { x with ideality := v }
  | 0x12 => sensorParam ix x.seriesR (within 0 1000) fun v x => { x with seriesR := v }
  | 0x13 => sensorParam ix x.ntcBias (within 0 3) fun v x => { x with ntcBias := v }
  | 0x14 => sensorParam ix x.ntcR25 (within 100 1000000) fun v x => { x with ntcR25 := v }
  | 0x15 => sensorParam ix x.ntcBeta (within 1000 10000) fun v x => { x with ntcBeta := v }
  | 0x16 =>
    let n := 16 + ix / 16
    if ix < 128 then some { value := pointValue (tablePoint (sensorOf s n) (ix % 16)), ok := within 0 (2 ^ 48 - 1)
                            put := fun v _ t => setSensor n { sensorOf t n with table := Tbl.set (ix % 16) (v % 2 ^ 32, signed 16 (v / 2 ^ 32)) (sensorOf t n).table } t }
    else none
  | 0x17 => if ix < 24 then some { value := x.partner.getD 0xFF, ok := partnerOk s ix, put := fun v _ => setPartner ix v } else none
  | 0x18 => if ix < 24 then some { value := x.group.getD 0xFF, ok := groupOk s ix,
                                   put := fun v _ t => setSensor ix { sensorOf t ix with group := if v < 8 then some v else none } t } else none
  | 0x2A => if ix = 0 then some { value := valueOf s.thm.pairTol, ok := within 16 320, put := fun v _ t => { t with thm := { t.thm with pairTol := v } } } else none
  | 0x2B => if ix = 0 then some { value := s.thm.norProgMax, ok := within 500 5000, put := fun v _ t => { t with thm := { t.thm with norProgMax := v } } } else none
  | 0x2C => if ix < 9 then some { value := Tbl.get s.thm.dramSensor 0xFF ix, ok := fun v => v = 0xFF || within 16 23 v
                                  put := fun v _ t => { t with thm := { t.thm with dramSensor := Tbl.set ix v t.thm.dramSensor } } } else none
  | _ => thermGroupParam s id ix

/-! ### SPARE and RIGHTS (R433, R474, R476, R613, R628) -/

/-- A bit of RETIRED_MASK that names a unit (R627). -/
def unitIndex (k : Nat) : Bool := k < 14 || k = 16 || k = 17 || within 24 26 k || within 32 40 k

/-- A bit of RETIRED_MASK is set (R627): a site is retired by its state. -/
def retiredUnit (s : State) (k : Nat) : Bool := if 32 ≤ k then (siteOf s (k - 32)).state == .retired else s.spr.retired.contains k

/-- UNRETIRE: the unit may be switched on again; a cluster is a spare again (R613, R628). -/
def unretire (k : Nat) (o : Origin) (s : State) : State :=
  let t := { s with spr := { s.spr with retired := s.spr.retired.filter (· ≠ k), faults := Tbl.erase k s.spr.faults } }
  let t :=
    if k < 14 then returnCluster k t
    else if k < 18 then replenish 3 (readyCore (k - 16) t)
    else if k < 32 then t
    else setSite (k - 32) { siteOf t (k - 32) with state := .off } t
  log (hw 12) k 0xD7 o.cls t

/-- SPARE parameters. -/
def spareParam (s : State) (id ix : Nat) : Option Param :=
  let one (value : Nat) (ok : Nat → Bool) (put : Nat → SprState → SprState) : Option Param :=
    if ix = 0 then some { value, ok, put := fun v _ t => { t with spr := put v t.spr } } else none
  match id with
  | 1 => if ix = 0 then some { value := s.dmc.ceLimit, ok := within 1 65535, put := fun v _ t => { t with dmc := { t.dmc with ceLimit := v } } } else none
  | 2 => one s.spr.migrateAuto (within 0 1) fun v x => { x with migrateAuto := v }
  | 3 => one s.spr.returnFaulted (within 0 1) fun v x => { x with returnFaulted := v }
  | 4 => one s.spr.linkAutoRestore (within 0 1) fun v x => { x with linkAutoRestore := v }
  | 5 => one s.spr.repairThreshold (within 1 15) fun v x => { x with repairThreshold := v }
  | 6 => if unitIndex ix then some { value := flagOf (!retiredUnit s ix), ok := within 1 1, put := fun _ => unretire ix } else none
  | _ => none

/-- RIGHTS parameters. -/
def rightsParam (s : State) (id ix : Nat) : Option Param :=
  match id with
  | 1 => if ix = 0 then some { value := s.hif.leaseMs, ok := within 50 60000, put := fun v _ t => { t with hif := { t.hif with leaseMs := v } } } else none
  | 2 => if ix < 4 then some { value := flagOf (ownerOf s ix).auto, ok := within 0 1, put := fun v _ t => setOwner ix { ownerOf t ix with auto := v = 1 } t } else none
  | _ => none

/-! ### PUT and GET (R496, R507, R511) -/

/-- The parameter that a service, PARAM_ID and INDEX name; none where they name none (R496). -/
def paramOf (s : State) (service id ix : Nat) : Option Param :=
  match service with
  | 0x01 => deviceParam s id ix
  | 0x02 => modeParam s id ix
  | 0x04 => sceneParam s id ix
  | 0x06 => witnessParam s id ix
  | 0x07 => mapParam s id ix
  | 0x09 => stressParam s id ix
  | 0x0B => timeParam s id ix
  | 0x0C => thermParam s id ix
  | 0x0D => spareParam s id ix
  | 0x0F => rightsParam s id ix
  | _ => none

/-- SERVICE_WRITE: the index, the digests of the old and new object, and what was written (R511). -/
def serviceWrite (o : Origin) (service verb id ix : Nat) (old new : Bytes) (s : State) : State :=
  let d (b : Bytes) : Bytes := if b.isEmpty then [] else digest b
  logEntry o ix 0x0001 (service + verb * 2 ^ 16 + id * 2 ^ 32 + ix % 65536 * 2 ^ 48) (d old) (d new) false s

/-- A PUT of a value (R496): a PUT that changes nothing writes no entry. -/
def putParam (service verb id ix v : Nat) (o : Origin) (s : State) : Status × State :=
  match paramOf s service id ix with
  | none => (.format, s)
  | some p =>
    if service = 0x0B && ptpUnavailable s id v then (.format, s)
    else if !p.ok v then (.range, s)
    else if !p.unset && v = p.set then (.ok, s)
    else (.ok, serviceWrite o service verb id ix (leBytes 16 p.set) (leBytes 16 v) (p.put v o s))

/-- The response of a GET (R496). PENDING is 0 while no value waits. -/
def getParam (s : State) (service id ix : Nat) : Status × Bytes :=
  match paramOf s service id ix with
  | none => (.format, [])
  | some p => (.ok, leBytes 16 p.value ++ leBytes 16 (p.waits.getD 0) ++ leBytes 1 (flagOf p.waits.isSome))

end Sys2Proof.Machine
end

