-- ==== Sys2Proof/Machine/Start.lean ====
section
/-! DEFINITION. How Walec brings the 9610 up: configuration, readiness, the start of the raster and the trial of an image
(06_modes_timing_bench.md R194, R195, R217; 01 R35; 07 R235; 08 R251; 18 R602, R604; 19 R614; 20 R633, R641, R642). -/

namespace Sys2Proof.Machine

/-! ### Configuration (R194, R573) -/

/-- An entry of the device table (R573). -/
def deviceEntry (b : Bytes) : PmbusDevice :=
  { addr := u8 b 0 % 128, page := u8 b 1, role := u8 b 2, row := u8 b 3, counts := bit (u8 b 4) 0, ioutMax := leAt b 6 2, pgoodMs := leAt b 8 2 }

/-- The device table is loaded into the controller (R572, R573). -/
def loadDevices (r : InstallRecord) (s : State) : State :=
  { s with pwr := { s.pwr with slowBus := r.slowBus, devices := (r.devices.take 32).zipIdx.map fun e => (e.2, deviceEntry e.1) } }

/-- The configuration is confirmed: the domains and the row supplies are asked for (R194, R570, R576). -/
def confirmWith (r : InstallRecord) (s : State) : State :=
  let t := loadDevices r { s with tim := { s.tim with confirmed := true, configMismatch := false, confirmedAt := some (tb0 s) } }
  (List.range (configRows t)).foldl (fun t r => supplyOn r t) (requestDomains true (runDomains t) t)

/-- Walec runs its image: it boots or is ready (R637). -/
def walecWorks (s : State) : Bool := s.bot.mode == .loading || s.bot.mode == .running

/-- CONFIGURATION_CONFIRM (R194). Without an installation record nothing is confirmed. -/
def execConfigurationConfirm (s : State) : Out :=
  match s.bot.install with
  | none => done s
  | some r =>
    done (ifEvent (walecWorks s && clocked s && !s.tim.confirmed)
      (if r.tileCfg = s.tim.tileStrap then confirmWith r s else assertFault { s with tim := { s.tim with configMismatch := true } }) s)

/-! ### The Bench bitmap (R209 to R212) -/

/-- The runs of a row from word offset `o` cover exactly `left` lenslets within the data (R211). -/
def runsOk (d : Bytes) : Nat → Nat → Nat → Bool
  | 0, _, _ => false
  | fuel + 1, o, left =>
    let w := leAt d o 2
    let n := bits w 11 0 + 1
    o + 2 ≤ d.length && !bit w 12 && n ≤ left && (n = left || runsOk d fuel (o + 2) (left - n))

/-- The data of a bitmap are well formed (R210, R211). -/
def bmpDataOk (b : Bytes) : Bool :=
  let d := b.drop 32
  if u8 b 4 = 0 then d.length = 165888
  else 576 * bmpRows b ≤ d.length && (List.range (144 * bmpRows b)).all fun r => runsOk d 3072 (leAt d (4 * r) 4) 3072

/-- The format checks of R212. DESIGN CHOICE (log 107): a FIRST_ROW above 11, ROWS outside 1 to 3 and an object whose length is not
that of header and data fail here. -/
def bmpFormatOk (b : Bytes) : Bool :=
  32 ≤ b.length && leAt b 0 4 = 0x4D424750 && u8 b 4 ≤ 1 && bmpFirst b ≤ 11 && 1 ≤ bmpRows b && bmpRows b ≤ 3 &&
  (u8 b 4 = 1 || bmpRows b = 1) && ((List.range 8).all fun k => leAt b (8 + 2 * k) 2 < 4096) && b.length = 32 + leAt b 24 4 && bmpDataOk b

/-- Status of a bitmap (R212). -/
def bitmapStatus (s : State) (b : Bytes) : Status :=
  firstStatus [(!bmpFormatOk b, .format), (configRows s < bmpFirst b + bmpRows b, .range), (262144 < b.length, .limit),
    (crc32c (b.take 28 ++ b.drop 32) ≠ leAt b 28 4, .checksum)]

/-- The bitmap that Bench restarts on: the retained one, or the one in eMMC when the retained one fails (R217). -/
def validBitmap (s : State) : Option Bytes :=
  [s.tim.bitmap, s.bot.benchFile].findSome? fun b => b.filter fun b => bitmapStatus s b == .ok

/-! ### Calibration files at boot (R63, R65, R639) -/

/-- The BOOT_DEFAULT file of a kind with its VERSION in the governing index. -/
def bootFile (s : State) (kind : Nat) : Option (Nat × Bytes) :=
  s.bot.calIndex.bind fun x => (x.entries.find? fun e => e.kind = kind && bit e.flags 0).bind fun e =>
    (Tbl.find? e.lba s.bot.files).map fun f => (e.version, f)

/-- One kind of set is loaded and activated, unless that version is active already. DESIGN CHOICE (log 101): a file that is refused is
left out for this start, with no entry and no second attempt. -/
def bootSet (kind : Nat) (status : State → Bytes → Nat → Status) (active : State → Nat) (take : Nat → Bytes → State → State) (s : State) : State :=
  match bootFile s kind with
  | none => s
  | some (v, f) => if active s ≠ v && status s f v == .ok then take v f s else s

/-- The geometry set of a boot is loaded as R56 says: with a copy that does not match when it is read back the bank stays invalid and
no swap is planned. -/
def bootGeom (bad : List Nat) (v : Nat) (f : Bytes) (s : State) : State :=
  let t := loadGeomFile f bad s
  if copyFails bad s then t else plan (nextFrame t) (.geomSwap v) byWalec t

/-- Geometry and curves at every start; the map and the ageing model, which a warm reset keeps, where none is active. `bad` names the
halves of the geometry store whose written copy does not match (R56). -/
def bootSets (bad : List Nat) (s : State) : State :=
  let swap (c : Change) (s : State) : State := plan (nextFrame s) c byWalec s
  let t := bootSet 1 geomFileStatus (fun s => (activeGeom s).version) (bootGeom bad) s
  let t := bootSet 2 curveFileStatus (fun s => (curveBank s s.out.curveActive).version) (fun v f s => swap (.curveSwap v) (loadCurveFile f s)) t
  let t := if t.dmc.mode == .running && (activeMap t).version = 0 then
      bootSet 3 mapFileStatus (fun s => (activeMap s).version) (fun v f s => swap (.mapSwap v) (loadMapFile f s)) t else t
  if t.out.model.isNone then bootSet 4 modelFileStatus (fun _ => 0) (fun _ f s => takeModel f byWalec s) t else t

/-! ### The start of the raster (R195, R217, R235, R528, R532, R602, R614) -/

/-- The clusters of the configured rows are up or known not to come up (R62, R566). -/
def clustersSettled (s : State) : Bool :=
  !(s.pwr.queue.any fun q => q.1 && q.2 < 16) && !(s.pwr.domains.any fun d => d.1 < 16 && d.2 == .coming)

/-- A retired cluster bound by a reset is replaced at the row's first composition boundary; without a spare the row is held (R614). -/
def replaceRetired (r : Nat) (s : State) : State :=
  let x := rowOf s r
  if !s.spr.retired.contains x.cluster then s
  else match (freeSpares s).head? with
    | some k => reserveSpare r k (s.tim.frameCount + 1, 0) s
    | none => assertFault (setRow r { x with cluster := 15, held := true } s)

/-- BRIGHT and I_LIMIT as the installation record holds them (R235). -/
def restoreBrightness (s : State) : State :=
  let bright (ch : Nat) : Nat := (Tbl.find? ch s.out.brightRecord).getD ((s.bot.install.bind (·.bright)).elim 255 fun l => l.getD ch 255)
  let limit := s.out.iLimitRecord.getD ((s.bot.install.bind (·.iLimit)).getD 1000000)
  { s with out := { s.out with brightSet := (List.range 3).map fun ch => (ch, bright ch), iLimit := some limit } }

/-- The first tick: at a moment that the manual leaves open, at least 30 line periods on, and with GENLOCK at k = 0 (R532, R675). -/
def firstTick (mode : Nat) (s : State) : Nat :=
  let soon := tbU s 3 + linePeriods mode 30 + 1 + freeBelow s (2 ^ 40)
  (if s.tim.genlock then gridAfter s.tim.tickOrigin soon else soon) % 2 ^ 80

/-- The raster starts in a mode (R195, R675). DESIGN CHOICE (log 106): a SELF reference stays over a warm reset; the mode that the
raster starts in is no change of mode, and a set that comes in takes the references away (R180). -/
def startRaster (bad : List Nat) (mode : Nat) (s : State) : State :=
  let t := if mode = 0x10 || s.tim.benchCounts.isEmpty then s else takeBenchDose s
  let t := replaceAll (restoreBrightness (bootSets bad (takeGenlock t)))
  let t := capsToCeiling { t with
    tim := { t.tim with rasterRun := true, starting := true, latched := false, lineRaised := false, line := 0, sub := 0, transLeft := 0, mode,
                        modeFrame := t.tim.frameCount + 1, nextTick := firstTick mode t, gridK := 0,
                        bench := if mode = 0x10 then .running else .off }
    spr := { t.spr with plannedStop := false, standby := false }
    walec := { t.walec with cause := none } }
  log byWalec mode 0x20 (256 * mode) (drew (if mode = 0x10 then benchCpu t else t))
where
  replaceAll (s : State) : State := (List.range (configRows s)).foldl (fun t r => replaceRetired r t) s

/-- The ordinary mode change that follows a start in FLAT-60, to the mode of R217 or of the installation, when the set that
comes in allows it (R64, R195). -/
def returnMode (s : State) : State :=
  let want := if s.tim.restartMode ≠ 0 then s.tim.restartMode else s.bot.install.elim 6 (·.mode)
  let g := if (pendingGeom s).isSome then geomBank s (1 - s.geom.active) else activeGeom s
  if want ≠ 6 && modeOk want && geomAllows g want && (want ≠ 0x10 || s.tim.bitmap.isSome) then
    plan (gridFrame s (s.tim.frameCount + 2)) (.mode want) byWalec s
  else s

/-- A copy that a cold reset left to restart begins with the raster (R440). -/
def resumeCopy (s : State) : State :=
  if s.dmc.migrate == .preparing && (siteOf s s.dmc.migrateTo).state == .target then startCopy s else s

/-- The raster starts in FLAT-60, or in BENCH after a warm reset that met Bench; without a valid bitmap it stays stopped and Walec
reports the cause through DEVICE (R195, R217; log 84). -/
def rasterStart (bad : List Nat) (s : State) : State :=
  if !s.tim.restartBench then resumeCopy (returnMode (startRaster bad 6 s))
  else match validBitmap s with
    | none => assertFault { s with walec := { s.walec with cause := some .noBitmap } }
    | some b => startRaster bad 0x10 { s with tim := { s.tim with bitmap := some b } }

/-- While a source is named and TB3 is not LOCKED, the start waits until 10 s after the confirmation (R528). -/
def waitTb3 (s : State) : State :=
  if s.tim.tb3Source < 3 && (baseOf s 3).servo != .locked then advanceTo0 (s.tim.confirmedAt.getD 0 + 10000000000) s else s

/-- The DRAM that a start needs: it runs, or Bench keeps it in self-refresh; the raster of a part whose DRAM has failed stays stopped
(R195, R217, R405). -/
def dramForStart (s : State) : Bool := s.dmc.mode == .running || (s.tim.restartBench && s.dmc.mode != .init && s.dmc.mode != .failed)

/-- The halves of the geometry store whose copy of the boot set does not match when it is read back: which, if any, is a free value
(R56; log 2). -/
def bootCopies (s : State) : List Nat := (List.range 2).filter (bit (freeBelow s 4))

/-- RASTER_START (R195). POWERUP_HOLD keeps the raster stopped after power returns (R602). -/
def execRasterStart (s : State) : Out :=
  let go := s.hif.walec == .running && s.bot.mode == .running && s.tim.confirmed && !s.tim.rasterRun && !s.walec.powerDown && clocked s
    && clustersSettled s && dramForStart s
  done (ifEvent go
    (if s.tim.frameCount = 0 && tooHot s then { s with thm := { s.thm with powerupHold := true } } else rasterStart (bootCopies s) (drew (waitTb3 s))) s)

/-! ### The work of a boot (R251, R419, R503, R535, R604, R605, R642) -/

/-- Walec erases a slot and blank-checks it; whether the check passes is a free value. A slot that fails it is not ready, and Walec
reports that through DEVICE (R604; log 2). -/
def eraseSlot (k : Nat) (s : State) : State :=
  let blank := freeBelow s 2 = 0
  let ready := s.thm.slotReady.filter (· ≠ k)
  drew { s with thm := { s.thm with slots := Tbl.set k (if blank then .empty else .torn []) s.thm.slots
                                    slotReady := if blank then k :: ready else ready
                                    blankFailed := if blank then s.thm.blankFailed else s.thm.blankFailed ++ [k] } }

/-- The record that boot finds in slot k: THERMAL_SHUTDOWN with bytes 4 to 11, RECORD_SEEN, and the record of THM_STATUS, of the
higher slot where both hold one (R604, R605, R609; log 111). -/
def foundRecord (k : Nat) (b : Bytes) (torn : Bool) (s : State) : State :=
  log (hw 11) k 0xC7 (leAt b 4 8 % 2 ^ 63 + flagAt torn 63)
    { s with thm := { s.thm with recordSeen := true, recLast := if torn then 2 else 1, lastNorWait := leAt b 10 2 } }

/-- A shutdown slot at boot (R604, R605); a torn record also writes STORE_TORN (R642, R643; log 15). What an interrupted page program
leaves in it is a free value (log 111). -/
def bootSlot (k : Nat) (s : State) : State :=
  eraseSlot k (match Tbl.get s.thm.slots .empty k with
    | .empty => s
    | .valid b => foundRecord k b false s
    | .torn _ => foundRecord k (leBytes 64 (freeBelow s (2 ^ 512))) true
        (drew (log (hw 16) 7 0xDC (4096 * k) { s with bot := { s.bot with tornSeen := true } })))

/-- The events of NOR are copied to the Bureau and their slots erased (R642). -/
def bootEvents (s : State) : State :=
  s.bot.events.foldl (fun t e => log (hw (if e.1 = 0xB3 then 10 else 15)) (e.2 % 256) e.1 (e.2 / 256) t) { s with bot := { s.bot with events := [] } }

/-- A RESET or WALEC_TIMEOUT entry that the ring might lose is kept in an event slot: SUBJECT and DETAIL in one number (R642). -/
def keepEvent (code v : Nat) (s : State) : State :=
  if 64512 ≤ unarchived s && s.bot.events.length < 896 then { s with bot := { s.bot with events := s.bot.events ++ [(code, v)] } } else s

/-- The ledgers at boot: the newer slot that passes goes into both copies, working banks zero; without one NO_HISTORY (R251). -/
def bootLedger (s : State) : State :=
  let t := { s with out := { s.out with wb := [], workBank := 0, lbUse := [] } }
  match persisted s with
  | some x => internalJob (Config.zlib (bankImage x.bank)).length bankBytes { t with out := { t.out with lb := [(0, x.bank), (2, x.bank)] } }
  | none => log byWalec 0 0x36 0 { t with out := { t.out with lb := [], noHistory := true } }

/-- A parameter of the installation record applies at boot, without an entry (R541, R605). -/
def bootParam (s : State) (e : Nat × Nat × Nat × Nat) : State :=
  match paramOf s e.1 e.2.1 e.2.2.1 with
  | none => s
  | some p => if p.ok e.2.2.2 then p.put e.2.2.2 byWalec s else s

/-- Parameters and MAC addresses of the installation record. -/
def bootInstall (s : State) : State :=
  match s.bot.install with
  | none => s
  | some r => r.macs.zipIdx.foldl (fun t m => setEth m.2 { ethOf t m.2 with mac := m.1 } t) (r.params.foldl bootParam s)

/-- A drawn place of an area in the interleaved region, in units of 64 KiB; it ends within the region (R406). -/
def drawPlace (size : Nat) (s : State) : Nat × State := (freeBelow s (884737 - size), drew s)

/-- Walec places area k of R419 at a drawn address. -/
def placeArea (k size : Nat) (s : State) : State :=
  let p := drawPlace size s
  { p.2 with dmc := { p.2.dmc with areas := Tbl.set k (p.1, size) p.2.dmc.areas } }

/-- A ledger copy: 149,299,200 bytes in the site-local window of a logical site (R241, R243, R406). -/
def placeLedger (copy site : Nat) (s : State) : State :=
  { drew s with dmc := { s.dmc with areas := Tbl.set copy (884736 + 4096 * site + freeBelow s (4097 - 2279), 2279) s.dmc.areas } }

/-- The two ledger copies lie on different sites (R241, R406). -/
def placeLedgers (s : State) : State :=
  let a := freeBelow s 8
  let t := placeLedger 0 a (drew s)
  placeLedger 1 ((a + 1 + freeBelow t 7) % 8) (drew t)

/-- Bytes of the areas that Walec places besides, in units of 64 KiB: two banks of maps (R230, R231), two stress planes (R249), the
witness buffers and its own memory (R335, R419); the sizes of the last two are free values. -/
def placeAreas (s : State) : State :=
  let t := placeArea 3 1013 (placeArea 2 24807 (placeLedgers s))
  let u := placeArea 4 (1 + freeBelow t 65536) (drew t)
  placeArea 5 (1 + freeBelow u 65536) (drew u)

/-- Requesters that may use the areas 0 to 5 (R410): the output stages, the ray engine and the encoder, and the control processors. -/
def areaUsers : Nat → List Nat
  | 4 => [1, 3, 7]
  | 5 => [7]
  | 2 => [0, 5, 7]
  | _ => [0, 7]

/-- The protected ranges of the areas that Walec places: the picture pools, the context slots, against writes the cap ring, and the
areas of `placeAreas` (R419). Only the units that hold an area and the control processors may use it (log 94). -/
def placedRanges (s : State) : List (Nat × Nat × List Nat × List Nat) :=
  [(s.dec.poolBase / 65536, 131072, [2, 7], [2, 7]), (s.dfl.base / 65536, 1024, [5, 7], [5, 7]),
   (s.ray.capBase / 65536, 36, List.range 9, [1, 7])]
    ++ s.dmc.areas.map fun a => (a.2.1, a.2.2, areaUsers a.1, areaUsers a.1)

/-- Slots 240 to 255 of the deflate engine belong to its internal queue (R383). -/
def internalSlots (d : DflState) : DflState :=
  { d with slots := (List.range' 240 16).foldl (fun t k => Tbl.set k { Tbl.get t {} k with owner := some 0x4000 } t) d.slots }

/-- Where Walec places the cap ring, the picture pools, the context slots and the other areas, and the protected ranges (R146, R309,
R383, R419). -/
def bootPlaces (s : State) : State :=
  let t := drew { s with ray := { s.ray with capRecords := 256, capBase := 65536 * freeBelow s (851968) } }
  let u := drew { t with dec := { t.dec with poolBase := 65536 * freeBelow t (753665) } }
  let v := placeAreas (drew { u with dfl := internalSlots { u.dfl with base := 65536 * freeBelow u (851968) } })
  { v with dmc := { v.dmc with ranges := placedRanges v ++ Config.protectedRanges.take 7 |>.map fun r =>
    { base := 65536 * r.1, size := 65536 * r.2.1, reads := r.2.2.1, writes := r.2.2.2 } } }

/-- The work of a boot after a cold reset. -/
def coldBoot (s : State) : State :=
  let t := bootLedger (bootEvents (bootSlot 1 (bootSlot 0 s)))
  let t := bootPlaces (bootInstall (bootClasses t))
  drew { t with tim := { t.tim with bitmap := t.bot.benchFile }, bot := { t.bot with emmcReady := true, norOctal := freeBelow t 2 = 1 } }

/-- A cold reset is the one Walec boots after (R404, R582). -/
def bootIsCold (s : State) : Bool := s.pwr.resetEntry && s.pwr.last ≤ 2

/-- The RESET entry of a power-on or warm reset (R579, R582, R618). -/
def resetEntry (s : State) : State :=
  let d := s.pwr.lastPort % 2 + flagAt s.pwr.lastWardrobe 1
  if s.pwr.resetEntry then keepEvent 0xB3 (s.pwr.last + 256 * d) (log (hw 10) s.pwr.last 0xB3 d { s with pwr := { s.pwr with resetEntry := false } }) else s

/-- Walec is ready: WALEC_READY, then RESTART_COMPLETE on every port whose link is up (R35, R517). -/
def declareReady (s : State) : State :=
  let t := setWalec .running { s with bot := { s.bot with mode := .running, trialSince := if s.bot.trial then some (tb0 s) else none } }
  let t := if s.walec.timeoutSeen then keepEvent 0x92 4 t else t
  let ms := s.walec.stoppedAt.elim 0 fun w => (tb0 s - w) / 1000000
  let t := log byWalec t.walec.restartCause 0x91 ms { t with walec := { t.walec with stoppedAt := none, timeoutSeen := false } }
  raiseUp 0 t

/-- WALEC_READY (R35): a boot after a cold reset brings up the stores, one after a warm reset folds the working banks (R251). -/
def execWalecReady (s : State) : Out :=
  let t := if bootIsCold s then coldBoot s else if s.pwr.resetEntry then foldNow s else s
  done (ifEvent (s.bot.mode == .loading && s.hif.walec != .running && clocked s) (declareReady (resetEntry t)) s)

/-! ### Boot headers and the trial (R632, R633, R641) -/

/-- A new boot header, into the copy that does not govern (R633). -/
def writeHeader (image : Nat) (trial : Bool) (s : State) : State :=
  let k := (governing s).elim 0 fun g => 1 - g.1
  let h : BootHeader := { seq := ((governing s).elim 0 (·.2.seq) + 1) % 2 ^ 32, active := image, trial
                          versionA := imageVersion (imageOf s 0), versionB := imageVersion (imageOf s 1) }
  { s with bot := { s.bot with headers := Tbl.set k h s.bot.headers } }

/-- ADVANCE burns the fuses up to the image's ROLLBACK (R635, R641, R643). -/
def advanceRollback (s : State) : State :=
  let b := imageOf s s.bot.image
  if bit (leAt b 10 2) 0 && s.bot.rollback < u8 b 8 then log (hw 16) 0 0xDD (u8 b 8) { s with bot := { s.bot with rollback := u8 b 8 } } else s

/-- TRIAL_CONFIRM: the image has run for 600 s (R641). -/
def execTrialConfirm (s : State) : Out :=
  match s.bot.trialSince with
  | none => done s
  | some w =>
    let t := writeHeader s.bot.image false (advanceTo0 (w + 600000000000) s)
    let t := log (hw 16) t.bot.image 0xD9 t.bot.version { t with bot := { t.bot with trial := false, trialSince := none, attempted := none } }
    done (ifEvent (s.bot.trial && s.bot.mode == .running && s.hif.walec == .running) (advanceRollback t) s)

end Sys2Proof.Machine
end

