-- ==== Sys2Proof/Machine/Request.lean ====
section
/-! DEFINITION. How Walec takes, checks, executes and answers service requests (15_walec_services.md R491 to R494, R497, R502,
R505 to R507; 14 R456, R462, R466). -/

namespace Sys2Proof.Machine

/-! ### Channels (R491, R502, R506, R508) -/

/-- A channel without the message that an Ethernet session carries. -/
def chanKey : Channel → Channel
  | .eth k _ => .eth k []
  | c => c

/-- Class and certificate digest of bind slot k; class 0 when it is unbound (R506). -/
def bindOf (s : State) (k : Nat) : Nat × Bytes := Tbl.get s.eth.binds (0, []) k

/-- ETH port and bind slot of a channel's session (R506). -/
def chanBind (s : State) : Channel → Nat × Nat
  | .eth k _ => Tbl.get s.eth.sessions (0, 0) k
  | _ => (0, 0)

/-- The class of a channel (R502 to R504, R506). -/
def chanClass (s : State) : Channel → Nat
  | .drawer p n => (drawerOf s p n).cls
  | .queue q => (queueOf s q).cls
  | .eth k m => (bindOf s (chanBind s (.eth k m)).2).1

/-- The port of a channel; none for an Ethernet session. -/
def chanPort (s : State) : Channel → Option Port
  | .drawer p _ => some p
  | .queue q => some (queueOf s q).port
  | .eth _ _ => none

/-- The origin of a request (R508). -/
def reqOrigin (r : Request) : Origin := match r.ch with
  | .drawer p n => { kind := 0, id := 32768 * p.num + n, cls := r.cls }
  | .queue q => { kind := 1, id := q, cls := r.cls }
  | .eth _ _ => { kind := 2, id := 32768 * r.bind.1 + r.bind.2, cls := r.cls }

/-! ### Messages (R456) -/

/-- A request message as its header gives it. -/
structure Message where
  service : Nat
  verb : Nat
  tagGen : Nat
  len : Nat
  /-- The reserved header field is 0. -/
  clear : Bool
  body : Bytes
  deriving DecidableEq, Repr

/-- The message in bytes (R456). -/
def messageOf (b : Bytes) : Message :=
  { service := leAt b 0 2, verb := leAt b 2 2, tagGen := leAt b 4 2, len := leAt b 6 2, clear := zeroAt b 8 8, body := padTo (leAt b 6 2) (b.drop 16) }

/-- The message of R456 in the bytes that a session sends: a 4-byte length, then the message (R506). DEDUCED (log 108): one whose
length does not agree with its header is malformed. -/
def ethMessage (b : Bytes) : Message :=
  let m := messageOf (b.drop 4)
  { m with clear := m.clear && leAt b 0 4 = 16 + m.len && b.length = 20 + m.len }

/-- The request of a message on a channel. -/
def requestOf (s : State) (ch : Channel) (m : Message) : Request :=
  { ch := chanKey ch, service := m.service, verb := m.verb, tagGen := m.tagGen, body := m.body, cls := chanClass s ch, port := chanPort s ch
    bind := chanBind s ch }

/-! ### Verbs (R492, R495) -/

/-- What an execution brings from outside: the object in host memory, and whether the stores of a power-down succeed (log 6). -/
structure Outside where
  obj : Bytes := []
  /-- Halves of the geometry store whose copy does not match when it is read back (R56). -/
  badCopies : List Nat := []
  storesOk : Bool := true

/-- The answer of a verb: status, response body and the state after. -/
abbrev Reply := Status × Bytes × State

/-- One verb of the catalogue (R495): its LENGTH, the classes of R502 that may send it, whether it changes state (R512), whether
Bench refuses it before its own checks (R212, R214, R640), and its own checks and effect. -/
structure Verb where
  len : Nat
  rights : Request → State → Bool
  changes : Request → Bool := fun _ => true
  bench : Bool := false
  run : Outside → Request → State → Reply

/-- The classes that a row of R502 allows. -/
def classes (l : List Nat) (r : Request) (_ : State) : Bool := l.contains r.cls

/-- A refusal: nothing changes. -/
def refuse (c : Status) (s : State) : Reply := (c, [], s)

/-- The first status that applies refuses; otherwise the effect (R492). -/
def checked (l : List (Bool × Status)) (go s : State) (body : Bytes := []) : Reply :=
  match firstStatus l with
  | .ok => (.ok, body, go)
  | c => refuse c s

/-! ### The general checks (R462, R492, R502, R512) -/

/-- Requests that a planned power-down, RECOVERY or Bench refuses (R214, R459, R498). -/
def notReadyNow (v : Verb) (r : Request) (s : State) : Bool :=
  let status := r.service = 0x01 && r.verb = 0x01
  (s.hif.powerDown && !status) || (s.bot.mode == .recovery && !(status || r.service = 0x10)) || (v.bench && s.tim.bench != .off)

/-- The log still takes this request: fewer than 64,512 unarchived entries (R512). -/
def logTakes (v : Verb) (r : Request) (s : State) : Bool := !v.changes r || unarchived s < 64512

/-- Checks 1 to 5 of R492, then R512; `v` is the catalogue's verb. -/
def generalStatus (v : Option Verb) (m : Message) (r : Request) (s : State) : Status :=
  match v with
  | none => .unknown
  | some v => firstStatus [
      (m.len ≠ v.len || 944 < m.len || !m.clear, .format),
      (r.cls = 0 || !v.rights r s, .rights),
      (match r.port with
        | some p => !holds s p r.cls
        | none => exclusive r.cls, .lease),
      (notReadyNow v r s, .notReady),
      (!logTakes v r s, .busy)]

/-! ### Refusals in the Bureau (R507, R511) -/

/-- DETAIL of a REFUSED entry. -/
def refusedDetail (service verb count : Nat) : Nat := service % 65536 + verb % 65536 * 65536 + count * 2 ^ 32

/-- A refusal with ST_RIGHTS or ST_LEASE: the first of the channel in the second is written at once, later ones are counted. -/
def noteRefusal (r : Request) (c : Status) (s : State) : State :=
  if c != .rights && c != .lease then s
  else match s.bureau.refusals.find? (·.ch == r.ch) with
    | none =>
      let t := log (reqOrigin r) c.code 0x0002 (refusedDetail r.service r.verb 1) s
      { t with bureau := { t.bureau with refusals := t.bureau.refusals ++ [{ ch := r.ch, origin := reqOrigin r, count := 0, service := r.service, verb := r.verb, status := c.code }] } }
    | some _ =>
      { s with bureau := { s.bureau with refusals := s.bureau.refusals.map fun x =>
          if x.ch == r.ch then { x with count := x.count + 1, service := r.service, verb := r.verb, status := c.code } else x } }

/-! ### Answers (R456, R458, R466, R506) -/

/-- Write the response over the request that a queue entry names (R466). -/
def writeMessage (c : Queue) (e : Bytes) (resp : Bytes) (s : State) : State :=
  let a := leAt e 8 8
  if u8 e 1 = 1 then hostSend c.port a resp s else memWrite 7 a resp s

/-- The answer of a SERVICE queue's first entry: the response, then the COMPLETION record (R466). -/
def answerQueue (q tagGen : Nat) (c : Status) (body : Bytes) (s : State) : State :=
  let x := queueOf s q
  match x.fetched with
  | [] => s
  | f :: rest =>
    let resp := (responseHeader c.code false false tagGen body.length ++ body).take (leAt f.bytes 16 4)
    let t := writeMessage x f.bytes resp (setQueue q { x with fetched := rest } s)
    complete q f.slot f.gen 0 (completionBody c.code resp.length (leAt f.bytes 24 8)) f.reserved t

/-- Answer a request on its channel with the response of R456; on a session its length comes first (R506). -/
def answer (r : Request) (c : Status) (body : Bytes) (s : State) : State :=
  match r.ch with
  | .drawer _ _ => { s with walec := { s.walec with answers := s.walec.answers ++ [{ ch := r.ch, tagGen := r.tagGen, status := c.code, body }] } }
  | .queue q => answerQueue q r.tagGen c body s
  | .eth k _ =>
    if Tbl.find? k s.eth.sessions = some r.bind then
      send (.ethReply k (leBytes 4 (16 + body.length) ++ responseHeader c.code false false r.tagGen body.length ++ body)) s
    else s

/-- While a mismatch of R194 or R294 is reported, DEVICE verbs return ST_MISMATCH in place of ST_OK (R497). -/
def shownStatus (r : Request) (c : Status) (s : State) : Status :=
  if r.service = 0x01 && c == .ok && (s.tim.configMismatch || s.geom.panelMismatch) then .mismatch else c

/-- An image switch stops Walec after its answer (R641). -/
def afterAnswer (r : Request) (c : Status) (s : State) : State :=
  if r.service = 0x10 && r.verb = 0x02 && c == .ok then
    let t := match r.ch, s.walec.answers.getLast? with
      | .drawer p n, some a => deliver p n a { s with walec := { s.walec with answers := s.walec.answers.dropLast } }
      | _, _ => s
    stopWalec 1 t
  else s

/-- The reply of a verb is sent (R456, R497, R507). -/
def finish (r : Request) (x : Reply) : State :=
  let c := shownStatus r x.1 x.2.2
  afterAnswer r x.1 (answer r c x.2.1 (noteRefusal r x.1 x.2.2))

/-! ### Running a request (R491, R506) -/

/-- The numbers of verbs of the services 1 to 16; verbs are numbered from 1 (R495). -/
def verbCounts : List Nat := [9, 5, 3, 2, 2, 2, 4, 4, 5, 3, 3, 3, 5, 5, 4, 3]

/-- SERVICE and VERB are in the catalogue (R495). -/
def known (service verb : Nat) : Bool := 1 ≤ service && 1 ≤ verb && verb ≤ verbCounts.getD (service - 1) 0

/-- The general checks, then the verb. -/
def runVerb (v : Verb) (x : Outside) (m : Message) (r : Request) (s : State) : State :=
  match generalStatus (some v) m r s with
  | .ok => finish r (v.run x r s)
  | c => finish r (c, [], s)

/-- The oldest request that Walec has taken runs, if it is the channel's and names this verb (R491); after a planned power-down or a
Bench entry since then it is refused like any other (R492, R498). -/
def serveTaken (service verb : Nat) (v : Verb) (x : Outside) (ch : Channel) (s : State) : State :=
  match s.walec.taken with
  | [] => s
  | r :: rest =>
    let t := { s with walec := { s.walec with taken := rest } }
    if r.ch == ch && r.service = service && r.verb = verb && s.hif.walec == .running then
      finish r (if notReadyNow v r t then refuse .notReady t else v.run x r t)
    else s

/-- A message arrives on an open session (R506): a second request before the response closes the session; a request that finds
earlier ones taken waits for its turn (R491). -/
def serveEth (service verb : Nat) (v : Verb) (x : Outside) (k : Nat) (msg : Bytes) (s : State) : State :=
  let m := ethMessage msg
  let r := requestOf s (.eth k msg) m
  if !((Tbl.find? k s.eth.sessions).isSome && s.hif.walec == .running) then s
  else if !(m.service = service && m.verb = verb) && known m.service m.verb then s
  else if s.walec.taken.any (·.ch == .eth k []) then { s with eth := { s.eth with sessions := Tbl.erase k s.eth.sessions } }
  else if !known m.service m.verb then finish r (.unknown, [], s)
  else if s.walec.taken.isEmpty then runVerb v x m r s
  else match generalStatus (some v) m r s with
    | .ok => { s with walec := { s.walec with taken := s.walec.taken ++ [r] } }
    | c => finish r (c, [], s)

/-- The row of one verb. A drawer's or a queue's request was checked when Walec took it (R462), and runs when it is the oldest
one taken (R491). An Ethernet session brings its message with it; without a message its waiting request runs (R506). -/
def serve (service verb : Nat) (v : Verb) (x : Outside) (ch : Channel) (s : State) : State :=
  match ch with
  | .eth k (b :: msg) => serveEth service verb v x k (b :: msg) s
  | _ => serveTaken service verb v x ch s

/-! ### Parameters (R496) -/

/-- A PUT. -/
def runPut (_ : Outside) (r : Request) (s : State) : Reply :=
  if !zeroAt r.body 4 4 then refuse .format s
  else
    let x := putParam r.service r.verb (leAt r.body 0 2) (leAt r.body 2 2) (leAt r.body 8 16) (reqOrigin r) s
    (x.1, [], x.2)

/-- A GET. -/
def runGet (_ : Outside) (r : Request) (s : State) : Reply :=
  let x := getParam s r.service (leAt r.body 0 2) (leAt r.body 2 2)
  (x.1, x.2, s)

/-- Every class may read (R502). -/
def everyone : Request → State → Bool := classes [1, 2, 3, 4, 5, 6]

/-- A PUT verb for some classes. -/
def putVerb (l : List Nat) : Verb := { len := 24, rights := classes l, run := runPut }

/-- A GET verb. -/
def getVerb : Verb := { len := 4, rights := everyone, changes := fun _ => false, run := runGet }

/-! ### Object references (R494) -/

/-- The bytes that an object reference names, and the VERSION it asks for. A controller that does not run cannot be read
(log 25). -/
def objectOf (x : Outside) (r : Request) (b : Bytes) (s : State) : Status × Bytes × Nat :=
  let n := leAt b 4 4
  let a := leAt b 8 8
  let v := leAt b 16 4
  if 2 < u8 b 0 || !zeroAt b 1 3 || !zeroAt b 20 4 || (u8 b 0 = 1 && r.port.isNone) then (.format, [], v)
  else if u8 b 0 = 0 then
    (if !extentOk s 7 a n false then (.range, [], v)
     else if s.dmc.mode != .running then (.notReady, [], v)
     else if poisoned s a n then (.fault, [], v) else (.ok, load s a n, v))
  else if u8 b 0 = 1 then (if r.port.all (portOpen s) then (.ok, padTo n x.obj, v) else (.fault, [], v))
  else match s.bot.calIndex.bind fun i => i.entries[a]? with
    | none => (.range, [], v)
    | some e => match Tbl.find? e.lba s.bot.files with
      | none => (.fault, [], v)
      | some f => (if s.bot.emmcReady then .ok else .fault, f.take n, v)

/-- A refusal by the object: a poisoned read is recorded (R416, R494). -/
def refuseObject (b : Bytes) (c : Status) (s : State) : Reply :=
  refuse c (if c == .fault && u8 b 0 = 0 then noteMarks 7 (linesOf (leAt b 8 8) (leAt b 4 4)) s else s)

/-- A verb on an object that carries no VERSION of its own: a VERSION asked for differs (R494). -/
def plainObject (x : Outside) (r : Request) (b : Bytes) (s : State) : Status × Bytes :=
  match objectOf x r b s with
  | (.ok, f, v) => if v = 0 then (.ok, f) else (.mismatch, [])
  | (c, _, _) => (c, [])

end Sys2Proof.Machine
end

