-- ==== Sys2Proof/Machine/Bureau.lean ====
section
/-! DEFINITION. The Bureau's archive and the LOG verbs (15_walec_services.md R507 to R515). -/

namespace Sys2Proof.Machine

/-! ### Archive segments (R513) -/

/-- The entries of a segment as the zlib stream holds them. -/
def Segment.plain (x : Segment) : Bytes := x.entries.flatMap Entry.image

/-- The zlib stream of a segment. -/
def Segment.stream (x : Segment) : Bytes := Config.zlib x.plain

/-- Bytes 0 to 59 of the header. -/
def Segment.head (x : Segment) : Bytes :=
  leBytes 4 0x41424750 ++ leBytes 4 x.number ++ leBytes 8 x.firstSeq ++ leBytes 2 x.epoch ++ leBytes 2 x.count
  ++ leBytes 2 (flagOf x.gap) ++ leBytes 2 0 ++ leBytes 4 x.prevChain ++ leBytes 4 x.lastChain ++ leBytes 4 x.stream.length
  ++ leBytes 4 (crc32c x.plain) ++ leBytes 4 x.lost ++ List.replicate 16 0

/-- A segment as stored: header, then stream. -/
def Segment.bytes (x : Segment) : Bytes := x.head ++ leBytes 4 (crc32c x.head) ++ x.stream

/-- Bytes in use in the archive area. -/
def archiveUse (l : List Segment) : Nat := (l.map fun x => 64 + x.stream.length).sum

/-- Overwrite the oldest segments until `need` bytes are free in the 4 GiB of the area (R513, R638). -/
def makeSpace (need : Nat) : List Segment → State → State
  | [], s => { s with bureau := { s.bureau with segments := [] } }
  | x :: l, s =>
    if archiveUse (x :: l) + need ≤ 2 ^ 32 then { s with bureau := { s.bureau with segments := x :: l } }
    else log byWalec 0 0xF1 (x.firstSeq + x.count - 1) (makeSpace need l s)

/-- The first unarchived entries, at most 4,096. -/
def waitingEntries (s : State) : List Entry := (s.bureau.ring.filter fun e => s.bureau.archivedSeq ≤ e.seq).take 4096

/-- CHAIN of the entry before SEQ n. -/
def chainOf (b : BureauState) (n : Nat) : Nat := match (b.ring.filter fun e => e.seq < n).getLast? with
  | some e => e.chain
  | none => b.chainBefore

/-- The next segment. -/
def nextSegmentOf (s : State) (e : Entry) (es : List Entry) : Segment :=
  { number := s.bureau.nextSegment, firstSeq := e.seq, epoch := s.bureau.epoch, count := es.length, gap := s.bureau.gap
    prevChain := chainOf s.bureau e.seq, lastChain := (es.getLast?.elim 0 (·.chain)), lost := s.bureau.lost, entries := es }

/-- Write one segment. -/
def archiveOne (s : State) : State :=
  match waitingEntries s with
  | [] => s
  | e :: l =>
    let es := e :: l
    let x := nextSegmentOf s e es
    let t := internalJob x.plain.length x.stream.length (makeSpace (64 + x.stream.length) s.bureau.segments s)
    { t with bureau := { t.bureau with segments := t.bureau.segments ++ [x], nextSegment := wrapAdd 32 t.bureau.nextSegment 1,
                                       archivedSeq := e.seq + es.length, gap := false } }

/-- Write every unarchived entry, 4,096 to a segment. -/
def archiveAll (s : State) : State :=
  let t := (List.range ((unarchived s + 4095) / 4096)).foldl (fun t _ => archiveOne t) s
  { t with bureau := { t.bureau with lastArchive := tb0 s } }

/-- ARCHIVE_SEGMENT: at once when 4,096 entries wait, otherwise 10 minutes of TB0 after the last archiving (R513). -/
def execArchiveSegment (s : State) : Out :=
  let go (s : State) : State := ifEvent (s.hif.walec == .running && s.bot.emmcReady && !s.hif.powerDown) (archiveAll s) s
  done (if 4096 ≤ unarchived s then go s else go (advanceTo0 (s.bureau.lastArchive + 600000000000) s))

/-! ### The end of a TB0 second (R151, R186, R507, R623) -/

/-- ABORT_SUMMARY of a row. -/
def abortSummary (s : State) (r : Nat) : State :=
  match (rowOf s r).abortsInSecond with
  | none => s
  | some n =>
    let t := setRow r { rowOf s r with abortsInSecond := none } s
    if n = 0 then t else logEntry (hw 0) r 0x51 n [] [] true t

/-- SIG_SUMMARY of a region. -/
def sigSummary (s : State) (n : Nat) : State :=
  match (regionOf s n).inSecond with
  | none => s
  | some k =>
    let t := setRegion n { regionOf s n with inSecond := none } s
    if k = 0 then t else logEntry (hw 13) n 0x43 k [] [] true t

/-- The summary of a channel's refusals. -/
def refusedSummary (s : State) (x : Refusals) : State :=
  if x.count = 0 then s
  else logEntry x.origin x.status 0x0002 (refusedDetail x.service x.verb x.count) [] [] true s

/-- Every summary of the second, hardware's first (R509). -/
def secondSummaries (s : State) : State :=
  let t := (List.range 12).foldl abortSummary s
  let t := (List.range 32).foldl sigSummary t
  let t := t.bureau.refusals.foldl refusedSummary t
  { t with bureau := { t.bureau with refusals := [] } }

/-- BUREAU_SECOND_SUMMARY at the next second of TB0. -/
def execBureauSecondSummary (s : State) : Out :=
  let t := secondSummaries (advanceTo0 ((tb0 s / 1000000000 + 1) * 1000000000) s)
  done (if t.hif.walec == .running then cycleDomains t else t)

/-! ### The LOG verbs (R508, R514, R515) -/

/-- SEQ of the oldest entry in the ring. -/
def oldestSeq (s : State) : Nat := s.bureau.ring.head?.elim s.bureau.nextSeq (·.seq)

/-- Entries that one READ may name: 15 in a message of a drawer or a session, 1,023 through a queue. -/
def readMax : Channel → Nat
  | .queue _ => 1023
  | _ => 15

/-- Entries immediately before this one are missing (R514). -/
def gapBefore (s : State) (e : Entry) : Bool :=
  (0 < e.seq && s.bureau.lastLost == some (e.seq - 1)) || (e.event = 0xF2 && 0 < e.seq)

/-- LOG.READ. -/
def runLogRead (_ : Outside) (r : Request) (s : State) : Reply :=
  let count := leAt r.body 2 2
  let seq := leAt r.body 8 8
  let es := (s.bureau.ring.filter fun e => seq ≤ e.seq).take count
  checked [(!zeroAt r.body 4 4, .format), (count = 0 || readMax r.ch < count, .range), (leAt r.body 0 2 ≠ s.bureau.epoch, .mismatch),
      (seq < oldestSeq s, .range)] s s
    (leBytes 8 (es.head?.elim seq (·.seq)) ++ leBytes 2 es.length ++ leBytes 2 (flagOf (es.head?.any (gapBefore s))) ++ leBytes 4 0
      ++ es.flatMap Entry.image)

/-- LOG.READ as a verb. -/
def logReadVerb : Verb := { len := 16, rights := everyone, changes := fun _ => false, run := runLogRead }

/-- LOG_READ. -/
def execLogRead (ch : Channel) (s : State) : Out := done (serve 0x0E 0x01 logReadVerb {} ch s)

/-- LOG.FETCH: the segment as stored, to device DRAM. -/
def runLogFetch (_ : Outside) (r : Request) (s : State) : Reply :=
  let b := r.body.drop 8
  let a := leAt b 8 8
  match s.bureau.segments.find? fun x => x.number = leAt r.body 0 4 && x.good with
  | none => checked [(!zeroAt r.body 4 4 || u8 b 0 ≠ 0 || !zeroAt b 1 3 || !zeroAt b 20 4, .format)] s s |> fun x =>
      if x.1 = .ok then refuse .range s else x
  | some x =>
    checked [(!zeroAt r.body 4 4 || u8 b 0 ≠ 0 || !zeroAt b 1 3 || !zeroAt b 20 4, .format),
        (leAt b 4 4 < x.bytes.length || !extentOk s 7 a (leAt b 4 4) true, .range), (s.dmc.mode != .running, .notReady)]
      (memWrite 7 a x.bytes s) s

/-- LOG.FETCH as a verb. -/
def logFetchVerb : Verb := { len := 32, rights := everyone, changes := fun _ => false, run := runLogFetch }

/-- LOG_FETCH. -/
def execLogFetch (ch : Channel) (s : State) : Out := done (serve 0x0E 0x02 logFetchVerb {} ch s)

/-- The LOG.STATUS response. -/
def logStatusBody (s : State) : Bytes :=
  let b := s.bureau
  leBytes 8 b.nextSeq ++ leBytes 8 (oldestSeq s) ++ leBytes 8 b.archivedSeq ++ leBytes 8 b.lost ++ leBytes 2 b.epoch ++ leBytes 2 0
  ++ leBytes 4 (b.segments.head?.elim 0 (·.number)) ++ leBytes 4 (b.segments.getLast?.elim 0 (·.number))

/-- LOG.STATUS as a verb. -/
def logStatusVerb : Verb := { len := 0, rights := everyone, changes := fun _ => false, run := fun _ _ s => (.ok, logStatusBody s, s) }

/-- LOG_STATUS. -/
def execLogStatus (ch : Channel) (s : State) : Out := done (serve 0x0E 0x03 logStatusVerb {} ch s)

/-- The archive area and the ring are erased, and LOG_CLEARED opens the next epoch with the old log's chain (R515). -/
def clearLog (o : Origin) (s : State) : State :=
  let b := s.bureau
  log o 0 0xF0 (b.nextSeq - 1)
    { s with bureau := { b with ring := [], segments := [], nextSeq := 0, archivedSeq := 0, epoch := wrapAdd 16 b.epoch 1,
                                chainBefore := b.chain, lastLost := none, gap := false } }

/-- LOG.CLEAR: the unarchived entries are archived first (R513). -/
def runLogClear (_ : Outside) (r : Request) (s : State) : Reply :=
  checked [(!zeroAt r.body 2 6, .format), (leAt r.body 0 2 ≠ s.bureau.epoch || leAt r.body 8 8 + 1 ≠ s.bureau.nextSeq, .mismatch),
      (!s.bot.emmcReady, .fault)] (clearLog (reqOrigin r) (archiveAll s)) s

/-- LOG.CLEAR as a verb. -/
def logClearVerb : Verb := { len := 16, rights := classes [1], run := runLogClear }

/-- LOG_CLEAR. -/
def execLogClear (ch : Channel) (s : State) : Out := done (serve 0x0E 0x04 logClearVerb {} ch s)

/-- LOG.ARCHIVE as a verb: it has no Bureau entry, so it is no change of state in the sense of R507 and R512 (log 24). -/
def logArchiveVerb : Verb :=
  { len := 0, rights := classes [1, 5], changes := fun _ => false, run := fun _ _ s => checked [(!s.bot.emmcReady, .fault)] (archiveAll s) s }

/-- LOG_ARCHIVE. -/
def execLogArchive (ch : Channel) (s : State) : Out := done (serve 0x0E 0x05 logArchiveVerb {} ch s)

end Sys2Proof.Machine
end

