-- ==== Sys2Proof/Machine/Device.lean ====
section
/-! DEFINITION. The DEVICE service (15_walec_services.md R495 to R500, R504; 14 R463 to R477; 08 R678). -/

namespace Sys2Proof.Machine

/-- A change that has no Bureau entry of its own is recorded as SERVICE_WRITE (R507, R511). -/
def recorded (r : Request) (ix : Nat) (old new : Bytes) (s : State) : State := serviceWrite (reqOrigin r) r.service r.verb 0 ix old new s

/-! ### STATUS (R497) -/

/-- The DEVICE.STATUS response. -/
def deviceStatusBody (s : State) : Bytes :=
  leBytes 4 s.bot.version ++ leBytes 1 s.bot.image ++ leBytes 1 s.walec.restartCause
  ++ leBytes 1 (if s.tim.configMismatch then 2 else if s.tim.confirmed then 1 else 0)
  ++ leBytes 1 (flagAt s.geom.panelMismatch 0 + flagAt s.dmc.dramFail 1)
  ++ leBytes 8 s.bureau.nextSeq ++ leBytes 2 s.bureau.epoch ++ leBytes 2 s.hif.restarts ++ leBytes 4 0 ++ leBytes 8 s.tim.frameCount

/-- The causes that Walec reports through DEVICE (R216, R217, R604; log 84). -/
def deviceCauses (s : State) : List DeviceCause :=
  s.walec.cause.toList ++ (if s.thm.blankFailed.isEmpty then [] else [.slotNotBlank s.thm.blankFailed])

/-- DEVICE.STATUS as a verb. The cause that R216 and R217 have Walec report goes out with the answer, whose body has no field for it
(log 84). -/
def deviceStatusVerb : Verb := { len := 0, rights := everyone, changes := fun _ => false, run := fun _ r s => (.ok, deviceStatusBody s, sendAll ((deviceCauses s).map (.deviceCause r.ch)) s) }

/-- DEVICE_STATUS. -/
def execDeviceStatus (ch : Channel) (s : State) : Out := done (serve 0x01 0x01 deviceStatusVerb {} ch s)

/-! ### PUT and GET (R496) -/

/-- DEVICE.PUT as a verb. -/
def devicePutVerb : Verb := putVerb [1, 5]

/-- DEVICE_PUT. -/
def execDevicePut (ch : Channel) (s : State) : Out := done (serve 0x01 0x02 devicePutVerb {} ch s)

/-- DEVICE_GET. -/
def execDeviceGet (ch : Channel) (s : State) : Out := done (serve 0x01 0x03 getVerb {} ch s)

/-! ### Queues (R463, R467, R471, R477, R500, R504) -/

/-- The port of a code. -/
def portCode (n : Nat) : Port := if n = 1 then .b else .a

/-- The context that a 40-byte body gives (R500). -/
def queueOfBody (b : Bytes) : Queue :=
  { kind := u8 b 2, cls := u8 b 3, port := portCode (u8 b 4), hostRing := u8 b 5 = 1, vector := leAt b 6 2, sqAddr := leAt b 8 8
    cqAddr := leAt b 16 8, sqSize := leAt b 24 4, cqSize := leAt b 28 4, coalCount := u8 b 32, coalUs := leAt b 34 2, state := .active }

/-- A context in the layout of R500, for its digest (R510). -/
def Queue.bytes (q : Nat) (c : Queue) : Bytes :=
  leBytes 2 q ++ leBytes 1 c.kind ++ leBytes 1 c.cls ++ leBytes 1 c.port.num ++ leBytes 1 (flagOf c.hostRing) ++ leBytes 2 c.vector
  ++ leBytes 8 c.sqAddr ++ leBytes 8 c.cqAddr ++ leBytes 4 c.sqSize ++ leBytes 4 c.cqSize ++ leBytes 1 c.coalCount ++ leBytes 1 0
  ++ leBytes 2 c.coalUs ++ leBytes 4 0

/-- A ring size: a power of two, 16 to 65,536 (R463). -/
def ringSizeOk (n : Nat) : Bool := ((List.range' 4 13).map (2 ^ ·)).contains n

/-- Sizes and alignments of R463; RING_ONLY has no submission ring. -/
def ringsOk (c : Queue) : Bool :=
  c.sqAddr % 4096 = 0 && c.cqAddr % 4096 = 0 && ringSizeOk c.cqSize && (if c.kind = 5 then c.sqSize = 0 else ringSizeOk c.sqSize)

/-- Classes of a kind (R504). -/
def kindAllows (kind cls : Nat) : Bool := if kind = 3 || kind = 4 then within 2 5 cls else within 1 6 cls

/-- Rings in DRAM lie in populated, unprotected memory (R500). -/
def ringsPlaced (s : State) (c : Queue) : Bool :=
  c.hostRing || (bufferOk s c.sqAddr (32 * c.sqSize) && bufferOk s c.cqAddr (64 * c.cqSize))

/-- Queues bound to an engine: 16 for each (R356, R379). -/
def boundFull (s : State) (kind : Nat) : Bool := (kind = 3 && 16 ≤ s.blt.bound.length) || (kind = 4 && 16 ≤ s.dfl.bound.length)

/-- The deflate slots that a body names (R383). -/
def bodySlots (b : Bytes) : List Nat := List.range' (leAt b 36 2) (leAt b 38 2)

/-- Write 0 to every PHASE byte of the completion ring (R467). -/
def zeroPhases (c : Queue) (s : State) : State :=
  (List.range c.cqSize).foldl (fun t k => ringPut c (c.cqAddr + 64 * k + 63) [0] t) s

/-- The queue is bound to its engine with its slots (R356, R379, R383). -/
def bindQueue (q : Nat) (kind : Nat) (slots : List Nat) (s : State) : State :=
  if kind = 3 then { s with blt := { s.blt with bound := s.blt.bound ++ [q] } }
  else if kind = 4 then slots.foldl (fun t k => setDflSlot k { dflSlot t k with owner := some q } t) { s with dfl := { s.dfl with bound := s.dfl.bound ++ [q] } }
  else s

/-- Create queue q with the next GEN (R467, R500). -/
def createQueue (q : Nat) (c : Queue) (slots : List Nat) (s : State) : State :=
  let c := { c with gen := ((queueOf s q).gen + 1) % 16 }
  zeroPhases c (bindQueue q c.kind slots (setQueue q c s))

/-- DEVICE.QUEUE_CREATE. -/
def runQueueCreate (_ : Outside) (r : Request) (s : State) : Reply :=
  let b := r.body
  let q := leAt b 0 2
  let c := queueOfBody b
  let slots := bodySlots b
  checked [
      (c.kind = 0 || c.kind = 2 || 5 < c.kind || 6 < c.cls || 1 < u8 b 4 || 1 < u8 b 5 || u8 b 33 ≠ 0 || !ringsOk c
        || (c.kind ≠ 4 && !zeroAt b 36 4), .format),
      (!kindAllows c.kind c.cls, .rights),
      ((queueOf s q).state != .off || slots.any (fun k => (dflSlot s k).owner.isSome), .busy),
      (boundFull s c.kind, .limit),
      (16383 < q || 2047 < c.vector || 1023 < c.coalUs || slots.any (256 ≤ ·) || !ringsPlaced s c, .range)]
    (recorded r q [] (c.bytes q) (createQueue q c slots s)) s (leBytes 2 q ++ leBytes 1 (((queueOf s q).gen + 1) % 16))

/-- DEVICE.QUEUE_CREATE as a verb. -/
def queueCreateVerb : Verb := { len := 40, rights := classes [1], run := runQueueCreate }

/-- QUEUE_CREATE. -/
def execQueueCreate (ch : Channel) (s : State) : Out := done (serve 0x01 0x04 queueCreateVerb {} ch s)

/-- A reset queue: GEN increments, the indices and counters start again (R467, R471, R472). -/
def Queue.reset (c : Queue) : Queue :=
  { c with gen := (c.gen + 1) % 16, sqHead := 0, sqTail := 0, cqTail := 0, cqHead := 0, reserved := 0, phase := true, count := 0, since := []
           dbRefused := 0, lateCpl := 0 }

/-- OWNER, or the queue's own class (R502). -/
def queueRights (r : Request) (s : State) : Bool := r.cls = 1 || (within 2 5 r.cls && (queueOf s (leAt r.body 0 2)).cls = r.cls)

/-- DEVICE.QUEUE_RESET. -/
def runQueueReset (_ : Outside) (r : Request) (s : State) : Reply :=
  let q := leAt r.body 0 2
  let c := queueOf s q
  checked [(16383 < q, .range), (c.state == .off || c.state == .detached, .notReady)]
    (recorded r q (c.bytes q) (c.reset.bytes q) (zeroPhases c.reset (setQueue q c.reset s))) s (leBytes 1 ((c.gen + 1) % 16))

/-- DEVICE.QUEUE_RESET as a verb. -/
def queueResetVerb : Verb := { len := 2, rights := queueRights, run := runQueueReset }

/-- QUEUE_RESET. -/
def execQueueReset (ch : Channel) (s : State) : Out := done (serve 0x01 0x05 queueResetVerb {} ch s)

/-- The queue is OFF, keeps its GEN, and its engine and its slots are free of it. DESIGN CHOICE (log 92): the commands that a 2D
job of it has not issued are dropped; those in flight end. -/
def deleteQueue (q : Nat) (s : State) : State :=
  let t := setQueue q { gen := (queueOf s q).gen } s
  let free (e : Nat × Slot) : Nat × Slot := if e.2.owner = some q then (e.1, { e.2 with owner := none }) else e
  { t with blt := { t.blt with bound := t.blt.bound.filter (· ≠ q), waiting := Tbl.erase q t.blt.waiting
                               jobs := t.blt.jobs.filter fun j => j.2.queue ≠ q || j.2.next = j.2.count }
           dfl := { t.dfl with bound := t.dfl.bound.filter (· ≠ q), slots := t.dfl.slots.map free } }

/-- DEVICE.QUEUE_DELETE; a DECODE queue ends with its context only (R302, R500). -/
def runQueueDelete (_ : Outside) (r : Request) (s : State) : Reply :=
  let q := leAt r.body 0 2
  let c := queueOf s q
  checked [(16383 < q, .range), (c.state == .off, .notReady), (c.kind = 2, .busy)] (recorded r q (c.bytes q) [] (deleteQueue q s)) s

/-- DEVICE.QUEUE_DELETE as a verb. -/
def queueDeleteVerb : Verb := { len := 2, rights := classes [1], run := runQueueDelete }

/-- QUEUE_DELETE. -/
def execQueueDelete (ch : Channel) (s : State) : Out := done (serve 0x01 0x06 queueDeleteVerb {} ch s)

/-- A DETACHED queue with its new rings, on the requesting port. -/
def Queue.attach (p : Port) (b : Bytes) (c : Queue) : Queue :=
  { c with port := p, sqAddr := leAt b 8 8, cqAddr := leAt b 16 8, sqSize := leAt b 24 4, cqSize := leAt b 28 4, state := .active }

/-- DEVICE.QUEUE_ATTACH (R477). -/
def runQueueAttach (_ : Outside) (r : Request) (s : State) : Reply :=
  let b := r.body
  let q := leAt b 0 2
  let c := queueOf s q
  match r.port with
  | none => refuse .format s
  | some p =>
    let c' := c.attach p b
    checked [(!zeroAt b 2 6 || !zeroAt b 32 8 || !ringsOk c', .format), (c.state != .detached, .notReady), (16383 < q || !ringsPlaced s c', .range)]
      (recorded r q (c.bytes q) (c'.bytes q) (zeroPhases c' (setQueue q c' s))) s (leBytes 1 c.gen)

/-- DEVICE.QUEUE_ATTACH as a verb. -/
def queueAttachVerb : Verb := { len := 40, rights := queueRights, run := runQueueAttach }

/-- QUEUE_ATTACH. -/
def execQueueAttach (ch : Channel) (s : State) : Out := done (serve 0x01 0x07 queueAttachVerb {} ch s)

/-! ### DARK (R495, R678) -/

/-- The link leaves the dark state: its next header comes at line 1,480. -/
def resumeLink (n : Nat) (s : State) : State := setLink n { linkOf s n with darkCmd := false } s

/-- DEVICE.DARK with one ACTION. -/
def runDark (_ : Outside) (r : Request) (s : State) : Reply :=
  let n := u8 r.body 0
  let a := u8 r.body 1
  checked [(1 < a, .format), (96 ≤ n || !configured s n, .range)]
    (if (linkOf s n).darkCmd == (a = 0) then s
     else recorded r n (leBytes 1 (flagOf (a = 1))) (leBytes 1 (flagOf (a = 0))) (if a = 0 then holdDark n s else resumeLink n s)) s

/-- DEVICE.DARK as a verb. -/
def deviceDarkVerb : Verb := { len := 2, rights := classes [1, 5], run := runDark }

/-- The oldest request taken, or the session's message, names this ACTION; a reserved one goes with DARK. -/
def asksResume (ch : Channel) (s : State) : Bool := match ch with
  | .eth _ (b :: msg) => u8 (ethMessage (b :: msg)).body 1 = 1
  | _ => s.walec.taken.head?.any fun r => u8 r.body 1 = 1

/-- DEVICE_DARK. -/
def execDeviceDark (ch : Channel) (s : State) : Out := done (ifEvent (!asksResume ch s) (serve 0x01 0x08 deviceDarkVerb {} ch s) s)

/-- DEVICE_DARK_RESUME. -/
def execDeviceDarkResume (ch : Channel) (s : State) : Out := done (ifEvent (asksResume ch s) (serve 0x01 0x08 deviceDarkVerb {} ch s) s)

/-! ### POWER_DOWN (R498) -/

/-- Steps 1 and 2: the entry, DARK on every UP link, and the raster stopped. -/
def beginPowerDown (o : Origin) (s : State) : State :=
  let t := log o 0 0x0004 (tb0 s) s
  let t := { t with walec := { t.walec with powerDown := true }, spr := { t.spr with plannedStop := true } }
  stopWitness (stopRaster (((List.range 96).filter fun n => (linkOf t n).state == .up).foldl (fun t n => sendDark n t) t))

/-- Steps 3 and 4: the doses are folded, those of a Bench in progress too (R251, R254), and the stress ledger and the Bureau go to their
stores where these take them. -/
def storeAll (storesOk : Bool) (s : State) : State :=
  let t := if s.dmc.mode == .init || s.dmc.mode == .failed then s else foldNow (takeBenchDose s)
  let t := if storesOk && !s.out.disagree then persistLedger t else t
  if storesOk then archiveAll t else t

/-- Steps 5 and 6: the tile supplies go off 40 ms after DARK, the DRAM goes into self-refresh, and POWER_DOWN is set in HIF_HEALTH. -/
def endPowerDown (s : State) : State :=
  let t := (List.range 12).foldl (fun t r => supplyOff r t) s
  let going := (List.range 12).filter fun r => (supplyOf t r).state == .goingOff
  let t := going.foldl (fun t r => supplyGone r t) (if going.isEmpty then t else advanceTo0 (tb0 s + 40000000) t)
  let t := holdSites t
  { t with hif := { t.hif with powerDown := true } }

/-- DEVICE.POWER_DOWN: a failed store write does not stop the sequence. -/
def runPowerDown (x : Outside) (r : Request) (s : State) : Reply :=
  let ok := x.storesOk && s.bot.emmcReady
  let t := beginPowerDown (reqOrigin r) s
  (if ok then .ok else .fault, [], endPowerDown (storeAll ok t))

/-- DEVICE.POWER_DOWN as a verb. -/
def powerDownVerb : Verb := { len := 0, rights := classes [1, 5], run := runPowerDown }

/-- POWER_DOWN. -/
def execPowerDown (ch : Channel) (storesOk : Bool) (s : State) : Out := done (serve 0x01 0x09 powerDownVerb { storesOk } ch s)

end Sys2Proof.Machine
end

