-- ==== Sys2Proof/Machine/Admin.lean ====
section
/-! DEFINITION. The RIGHTS and UPDATE services and Ethernet management sessions (15_walec_services.md R495, R502, R503, R506;
20 R632 to R641). -/

namespace Sys2Proof.Machine

/-! ### RIGHTS -/

/-- The class a drawer has or is about to take (R503). -/
def classAhead (s : State) (p : Port) (n : Nat) : Nat := (Tbl.find? (drawerIx p n) s.walec.classNext).getD (drawerOf s p n).cls

/-- An OWNER drawer is left on some port after a change. -/
def ownerLeft (s : State) (p : Port) (n cls : Nat) : Bool :=
  [Port.a, .b].any fun q => (List.range 32).any fun k => (if q = p && k = n then cls else classAhead s q k) = 1

/-- The class of a drawer changes in the record, and at once when the drawer is IDLE (R503). -/
def changeClass (p : Port) (n cls : Nat) (s : State) : State :=
  let k := drawerIx p n
  let t := { s with walec := { s.walec with classRecord := Tbl.set k cls s.walec.classRecord, classNext := Tbl.set k cls s.walec.classNext } }
  if (drawerOf s p n).state == .idle then takeClass p n t else t

/-- RIGHTS.DRAWER_CLASS. -/
def runDrawerClass (_ : Outside) (r : Request) (s : State) : Reply :=
  let p := portCode (u8 r.body 0)
  let n := u8 r.body 1
  let c := u8 r.body 2
  checked [(1 < u8 r.body 0 || 6 < c, .format), (31 < n, .range), (!ownerLeft s p n c, .limit)]
    (if classAhead s p n = c then s
     else logEntry (reqOrigin r) n 0x81 p.num (digest (leBytes 1 (classAhead s p n))) (digest (leBytes 1 c)) false (changeClass p n c s)) s

/-- RIGHTS.DRAWER_CLASS as a verb. -/
def drawerClassVerb : Verb := { len := 3, rights := classes [1], run := runDrawerClass }

/-- DRAWER_CLASS. -/
def execDrawerClass (ch : Channel) (s : State) : Out := done (serve 0x0F 0x01 drawerClassVerb {} ch s)

/-- A bind slot in the layout of R506. -/
def bindBytes (k : Nat) (b : Nat × Bytes) : Bytes := leBytes 1 k ++ leBytes 1 b.1 ++ List.replicate 14 0 ++ padTo 48 b.2

/-- A slot is written; a session whose certificate no longer matches it is closed. -/
def writeBind (k : Nat) (b : Nat × Bytes) (s : State) : State :=
  let drop := bindOf s k ≠ b
  { s with eth := { s.eth with binds := Tbl.set k b s.eth.binds, sessions := if drop then s.eth.sessions.filter (·.2.2 ≠ k) else s.eth.sessions } }

/-- RIGHTS.ETH_BIND. -/
def runEthBind (_ : Outside) (r : Request) (s : State) : Reply :=
  let k := u8 r.body 0
  let c := u8 r.body 1
  let b : Nat × Bytes := if c = 0 then (0, []) else (c, r.body.drop 16)
  checked [(!([0, 5, 6].contains c) || !zeroAt r.body 2 14, .format), (7 < k, .range)]
    (recorded r k (bindBytes k (bindOf s k)) (bindBytes k b) (writeBind k b s)) s

/-- RIGHTS.ETH_BIND as a verb. -/
def ethBindVerb : Verb := { len := 64, rights := classes [1], run := runEthBind }

/-- ETH_BIND. -/
def execEthBind (ch : Channel) (s : State) : Out := done (serve 0x0F 0x02 ethBindVerb {} ch s)

/-- RIGHTS.PUT as a verb. -/
def rightsPutVerb : Verb := putVerb [1]

/-- RIGHTS_PUT. -/
def execRightsPut (ch : Channel) (s : State) : Out := done (serve 0x0F 0x03 rightsPutVerb {} ch s)

/-- RIGHTS_GET. -/
def execRightsGet (ch : Channel) (s : State) : Out := done (serve 0x0F 0x04 getVerb {} ch s)

/-- A session takes the lowest free number: the model's own (log 108). -/
def openSession (port slot : Nat) (s : State) : State :=
  match (List.range 8).find? fun n => (Tbl.find? n s.eth.sessions).isNone with
  | none => s
  | some n => { s with eth := { s.eth with sessions := Tbl.set n (port, slot) s.eth.sessions } }

/-- ETH_SESSION_OPEN: the client's certificate matches a bind slot, and fewer than 8 sessions are open (R506). -/
def execEthSessionOpen (port : Nat) (certificate : Bytes) (s : State) : Out :=
  match (List.range 8).find? fun k => (bindOf s k).1 ≠ 0 && padTo 48 (bindOf s k).2 == padTo 48 (Config.sha384 certificate) with
  | none => done s
  | some k =>
    done (ifEvent (port < 2 && (ethOf s port).link && s.hif.walec == .running && s.tim.bench == .off && s.eth.sessions.length < 8)
      (openSession port k s) s)

/-! ### UPDATE.STAGE (R633, R636, R639, R640) -/

/-- Entry k of a calibration index (R639). -/
def calEntryOf (b : Bytes) (k : Nat) : CalEntry :=
  let e := b.drop (128 + 80 * k)
  { kind := u8 e 0, flags := u8 e 1, version := leAt e 4 4, lba := leAt e 8 4, len := leAt e 12 4, digest := (e.drop 16).take 48 }

/-- A calibration index. -/
def calIndexOf (b : Bytes) : CalIndex := { seq := leAt b 4 4, panelId := leAt b 8 8, entries := (List.range (leAt b 16 2)).map (calEntryOf b) }

/-- The index is well formed (R639). -/
def calIndexOk (b : Bytes) : Bool :=
  let n := leAt b 16 2
  leAt b 0 4 = 0x49434750 && within 1 256 n && u8 b 18 ≤ 3 && zeroAt b 116 12 && b.length = 128 + 80 * n + 96 &&
  (List.range n).all fun k =>
    let e := b.drop (128 + 80 * k)
    within 1 4 (u8 e 0) && u8 e 1 ≤ 1 && zeroAt e 2 2 && zeroAt e 64 16

/-- An enrolled installation key signs the index (R639). -/
def calIndexSigned (s : State) (b : Bytes) : Bool :=
  let key := (b.drop 19).take 97
  (Tbl.find? (u8 b 18) s.bot.ikeys).any (fun d => padTo 48 d == padTo 48 (Config.sha384 key))
    && Config.ecdsaVerify key (b.drop (b.length - 96)) (b.take (b.length - 96))

/-- The index governs when its INDEX_SEQ is higher (R632, R639). -/
def indexGoverns (s : State) (x : CalIndex) : Bool :=
  s.bot.calIndex.all fun y => 0 < signed 32 (unsigned 32 ((x.seq : Int) - y.seq))

/-- STAGE of an image: it goes into the region of the image that does not run. -/
def stageImage (r : Request) (f : Bytes) (s : State) : Reply :=
  let k := 1 - s.bot.image
  checked [((imageCheck s f).isSome, .rights), (2 ^ 26 < f.length, .limit)]
    (log (reqOrigin r) k 0x0003 (imageVersion f) { s with bot := { s.bot with images := Tbl.set k f s.bot.images, staged := some k } }) s

/-- STAGE of a calibration index. -/
def stageIndex (r : Request) (f : Bytes) (s : State) : Reply :=
  let x := calIndexOf f
  checked [(!calIndexOk f, .format), (!calIndexSigned s f, .rights)]
    (recorded r 2 [] f (if indexGoverns s x then { s with bot := { s.bot with calIndex := some x } } else s)) s

/-- STAGE of a calibration file, to the block that the governing index gives. -/
def stageFile (r : Request) (f : Bytes) (s : State) : Reply :=
  match s.bot.calIndex.bind fun x => x.entries.find? fun e => padTo 48 e.digest == padTo 48 (Config.sha384 f) with
  | none => refuse .rights s
  | some e => checked [(!s.bot.emmcReady, .fault)] (recorded r 3 [] f { s with bot := { s.bot with files := Tbl.set e.lba f s.bot.files } }) s

/-- STAGE of an installation record: its values stand for those that services had written (log 14). -/
def stageInstall (r : Request) (f : Bytes) (s : State) : Reply :=
  checked [(2 ^ 17 < f.length, .limit)]
    (recorded r 4 [] f { s with bot := { s.bot with install := some (Config.installRecord f) }
                                out := { s.out with brightRecord := [], iLimitRecord := none }
                                walec := { s.walec with classRecord := [] } }) s

/-- STAGE of a device certificate: only one for the same public key (R636). -/
def stageCert (r : Request) (f : Bytes) (s : State) : Reply :=
  checked [(2 ^ 16 < f.length, .limit), (!decide (Config.certKey f = Config.certKey s.bot.deviceCert), .mismatch)]
    (recorded r 5 s.bot.deviceCert f { s with bot := { s.bot with deviceCert := f } }) s

/-- STAGE of an installation key, into the lowest fuse slot that is not written (R639, R643). -/
def stageKey (f : Bytes) (s : State) : Reply :=
  match (List.range 4).find? fun k => (Tbl.find? k s.bot.ikeys).isNone with
  | none => refuse .limit s
  | some k =>
    let d := padTo 48 (Config.sha384 f)
    checked [(f.length ≠ 97, .format)] (log (hw 16) k 0xDE (leAt d 0 8) { s with bot := { s.bot with ikeys := Tbl.set k d s.bot.ikeys } }) s

/-- UPDATE.STAGE. -/
def runStage (x : Outside) (r : Request) (s : State) : Reply :=
  let kind := u8 r.body 0
  if !within 1 6 kind || !zeroAt r.body 1 7 then refuse .format s
  else match objectOf x r (r.body.drop 8) s with
    | (.ok, f, v) =>
      let own := if kind = 1 || kind = 3 then leAt f 4 4 else 0
      if v ≠ 0 && v ≠ own then refuse .mismatch s
      else if kind = 1 then stageImage r f s
      else if kind = 2 then stageIndex r f s
      else if kind = 3 then stageFile r f s
      else if kind = 4 then stageInstall r f s
      else if kind = 5 then stageCert r f s
      else stageKey f s
    | (c, _, _) => refuseObject (r.body.drop 8) c s

/-- UPDATE.STAGE as a verb. -/
def updateStageVerb : Verb := { len := 32, rights := classes [1, 5], bench := true, run := runStage }

/-- UPDATE_STAGE. -/
def execUpdateStage (ch : Channel) (hostObj : Bytes) (s : State) : Out := done (serve 0x10 0x01 updateStageVerb { obj := hostObj } ch s)

/-! ### UPDATE.SWITCH and UPDATE.STATUS (R641) -/

/-- The header that names the new image on trial; Walec stops after its answer. -/
def switchImage (k : Nat) (s : State) : State :=
  let t := writeHeader k true { s with bot := { s.bot with staged := none, attempted := none } }
  log (hw 16) k 0xD8 (imageVersion (imageOf s k)) t

/-- UPDATE.SWITCH. -/
def runSwitch (_ : Outside) (r : Request) (s : State) : Reply :=
  let k := u8 r.body 0
  checked [(1 < k, .format), (s.bot.staged ≠ some k, .mismatch), (s.bot.trial, .busy)] (switchImage k s) s

/-- UPDATE.SWITCH as a verb. -/
def updateSwitchVerb : Verb := { len := 1, rights := classes [1], bench := true, run := runSwitch }

/-- UPDATE_SWITCH. -/
def execUpdateSwitch (ch : Channel) (s : State) : Out := done (serve 0x10 0x02 updateSwitchVerb {} ch s)

/-- The UPDATE.STATUS response. -/
def updateStatusBody (s : State) : Bytes :=
  let h := (governing s).elim { seq := 0, active := 0, trial := false, versionA := 0, versionB := 0 } (·.2)
  leBytes 4 h.versionA ++ leBytes 4 h.versionB ++ leBytes 1 h.active ++ leBytes 1 (flagAt s.bot.trial 0 + flagAt (!otherImageBad s) 1)
  ++ leBytes 1 s.bot.rollback

/-- UPDATE.STATUS as a verb. -/
def updateStatusVerb : Verb :=
  { len := 0, rights := everyone, changes := fun _ => false, bench := true, run := fun _ _ s => (.ok, updateStatusBody s, s) }

/-- UPDATE_STATUS. -/
def execUpdateStatus (ch : Channel) (s : State) : Out := done (serve 0x10 0x03 updateStatusVerb {} ch s)

end Sys2Proof.Machine
end

