-- ==== Sys2Proof/Machine/Media.lean ====
section
/-! DEFINITION. The MODE, LAYER, SCENE, STREAM and WITNESS services (15_walec_services.md R494 to R502; 06 R203, R212, R218;
03 R102 to R104; 09 R302 to R304, R319, R332). -/

namespace Sys2Proof.Machine

/-! ### MODE -/

/-- MODE.SET (R203, R204, R499). -/
def runModeSet (_ : Outside) (r : Request) (s : State) : Reply :=
  let b := r.body
  if 1 < u8 b 3 || !zeroAt b 4 4 then refuse .format s
  else
    let x := modeRequest true (u8 b 0) { kind := u8 b 1, base := u8 b 2, value := leAt b 8 8, mustHit := bit (u8 b 3) 0 } (reqOrigin r) s
    if x.1 = .ok then (.ok, leBytes 8 x.2.1, x.2.2) else refuse x.1 s

/-- MODE.SET as a verb. -/
def modeSetVerb : Verb := { len := 16, rights := classes [1, 2], run := runModeSet }

/-- MODE_SET. -/
def execModeSet (ch : Channel) (s : State) : Out := done (serve 0x02 0x01 modeSetVerb {} ch s)

/-- MODE.BENCH_LOAD: a bitmap that a check refuses leaves no valid bitmap (R212). -/
def runBenchLoad (x : Outside) (r : Request) (s : State) : Reply :=
  match plainObject x r r.body s with
  | (.ok, f) => match bitmapStatus s f with
    | .ok => (.ok, [], log (reqOrigin r) 0 0x0003 0 { s with tim := { s.tim with bitmap := some f }, bot := { s.bot with benchFile := some f } })
    | c => (c, [], { s with tim := { s.tim with bitmap := none } })
  | (c, _) => refuseObject r.body c s

/-- MODE.BENCH_LOAD as a verb. -/
def benchLoadVerb : Verb := { len := 24, rights := classes [1, 2], bench := true, run := runBenchLoad }

/-- BENCH_LOAD. -/
def execBenchLoad (ch : Channel) (hostObj : Bytes) (s : State) : Out := done (serve 0x02 0x02 benchLoadVerb { obj := hostObj } ch s)

/-- A schedule entry from its 16 bytes (R218). -/
def scheduleEntryOf (b : Bytes) : ScheduleEntry :=
  { first := leAt b 0 8, period := leAt b 8 4, action := u8 b 12, mode := u8 b 13, base := u8 b 14 }

/-- The 16 bytes of an entry. -/
def ScheduleEntry.bytes (e : ScheduleEntry) : Bytes :=
  leBytes 8 e.first ++ leBytes 4 e.period ++ leBytes 1 e.action ++ leBytes 1 e.mode ++ leBytes 1 e.base ++ leBytes 1 0

/-- MODE.SCHEDULE. -/
def runModeSchedule (_ : Outside) (r : Request) (s : State) : Reply :=
  let i := u8 r.body 0
  let e := scheduleEntryOf (r.body.drop 8)
  checked [(!zeroAt r.body 1 7 || u8 r.body 23 ≠ 0 || 1 < e.action || 3 < e.base || !(e.mode = 0 || modeOk e.mode), .format),
      (15 < i || 604800 < e.period, .range)]
    (recorded r i ((scheduleOf s i).elim [] ScheduleEntry.bytes) e.bytes { s with tim := { s.tim with schedule := Tbl.set i e s.tim.schedule } }) s

/-- MODE.SCHEDULE as a verb. -/
def modeScheduleVerb : Verb := { len := 24, rights := classes [1, 2], run := runModeSchedule }

/-- MODE_SCHEDULE. -/
def execModeSchedule (ch : Channel) (s : State) : Out := done (serve 0x02 0x03 modeScheduleVerb {} ch s)

/-- MODE.PUT as a verb. -/
def modePutVerb : Verb := putVerb [1, 2]

/-- MODE_PUT. -/
def execModePut (ch : Channel) (s : State) : Out := done (serve 0x02 0x04 modePutVerb {} ch s)

/-- MODE_GET. -/
def execModeGet (ch : Channel) (s : State) : Out := done (serve 0x02 0x05 getVerb {} ch s)

/-! ### LAYER -/

/-- The key of a commit that a request submits (R501). -/
def requestKey (s : State) (r : Request) : CommitKey := match r.ch with
  | .drawer p n => .drawer p n r.tagGen
  | .queue q => .request ((queueOf s q).fetched.head?.elim 0 (·.slot)) r.tagGen
  | .eth _ _ => .request 0 r.tagGen

/-- LAYER.COMMIT (R102 to R104). -/
def runLayerCommit (x : Outside) (r : Request) (s : State) : Reply :=
  match plainObject x r r.body s with
  | (.ok, d) =>
    let (c, id, frame, t) := submitCommit r.cls d (reqOrigin r) (requestKey s r) s
    if c = .ok then (.ok, leBytes 4 id ++ leBytes 4 0 ++ leBytes 8 frame, t) else refuse c s
  | (c, _) => refuseObject r.body c s

/-- LAYER.COMMIT as a verb. -/
def layerCommitVerb : Verb := { len := 24, rights := classes [2, 3, 4], bench := true, run := runLayerCommit }

/-- LAYER_COMMIT. -/
def execLayerCommit (ch : Channel) (hostObj : Bytes) (s : State) : Out := done (serve 0x03 0x01 layerCommitVerb { obj := hostObj } ch s)

/-- The commit that a RESULT request names, the newest for a drawer and TAG_GEN (R501). -/
def findResult (s : State) (b : Bytes) : Option CommitResult :=
  let key := CommitKey.drawer (portCode (u8 b 1 / 128)) (u8 b 1 % 32) (leAt b 2 2)
  (s.cmp.results.filter fun x => if u8 b 0 = 0 then x.id = leAt b 4 4 else x.key == key).getLast?

/-- The RESULT response (R501). -/
def resultBody : Option CommitResult → Bytes
  | none => List.replicate 56 0
  | some x => leBytes 4 x.id ++ leBytes 1 (if x.completion.isSome then 2 else 1) ++ leBytes 3 0 ++ leBytes 8 x.frame
              ++ x.completion.elim (List.replicate 40 0) Completion.bytes

/-- LAYER.RESULT. -/
def runLayerResult (_ : Outside) (r : Request) (s : State) : Reply :=
  checked [(1 < u8 r.body 0 || u8 r.body 1 / 32 % 4 ≠ 0, .format)] s s (resultBody (findResult s r.body))

/-- LAYER.RESULT as a verb. -/
def layerResultVerb : Verb := { len := 8, rights := everyone, changes := fun _ => false, run := runLayerResult }

/-- LAYER_RESULT. -/
def execLayerResult (ch : Channel) (s : State) : Out := done (serve 0x03 0x02 layerResultVerb {} ch s)

/-- LAYER.QUERY: the active entry, then CMP_LAYER_STATUS_n. -/
def runLayerQuery (_ : Outside) (r : Request) (s : State) : Reply :=
  let n := u8 r.body 0
  checked [(63 < n, .range)] s s ((activeLayer s n).bytes ++ leBytes 8 (regLayer s n))

/-- LAYER.QUERY as a verb. -/
def layerQueryVerb : Verb := { len := 1, rights := everyone, changes := fun _ => false, run := runLayerQuery }

/-- LAYER_QUERY. -/
def execLayerQuery (ch : Channel) (s : State) : Out := done (serve 0x03 0x03 layerQueryVerb {} ch s)

/-! ### SCENE and WITNESS -/

/-- SCENE.PUT as a verb. -/
def scenePutVerb : Verb := putVerb [2]

/-- SCENE_PUT. -/
def execScenePut (ch : Channel) (s : State) : Out := done (serve 0x04 0x01 scenePutVerb {} ch s)

/-- SCENE_GET. -/
def execSceneGet (ch : Channel) (s : State) : Out := done (serve 0x04 0x02 getVerb {} ch s)

/-- WITNESS.PUT as a verb. -/
def witnessPutVerb : Verb := putVerb [1, 2]

/-- WITNESS_PUT. -/
def execWitnessPut (ch : Channel) (s : State) : Out := done (serve 0x06 0x01 witnessPutVerb {} ch s)

/-- WITNESS_GET. -/
def execWitnessGet (ch : Channel) (s : State) : Out := done (serve 0x06 0x02 getVerb {} ch s)

/-! ### STREAM (R302 to R304, R319, R332) -/

/-- Contexts that are open. -/
def openContexts (s : State) : List Nat := (List.range 64).filter fun n => (ctxOf s n).role ≠ 0

/-- The alpha context of a descriptor is one that may be paired (R303). -/
def alphaOk (s : State) (b : Bytes) : Bool :=
  let a := u8 b 3
  if u8 b 1 = 2 then a = 255
  else a = 255 || (a < 64 && a ≠ u8 b 0 && (ctxOf s a).role = 2 && (colourOf s a).isNone)

/-- The fields of the descriptor are in range (R302, R303). -/
def streamOk (s : State) (b : Bytes) : Bool :=
  let limit := leAt b 24 4
  u8 b 0 < 64 && within 1 2 (u8 b 1) && (u8 b 2 ≤ 1 || u8 b 2 = 255) && alphaOk s b && within 16 8192 (leAt b 4 2) && within 16 8192 (leAt b 6 2)
  && [8, 10, 12].contains (u8 b 8) && within 3 64 (u8 b 9) && u8 b 10 ≤ 1 && u8 b 11 ≤ 1 && u8 b 12 ≤ 3 && zeroAt b 14 2 && 1 ≤ leAt b 16 8
  && (limit = 0 || within 1024 1048576 limit) && leAt b 28 2 ≤ 1000 && (leAt b 30 2 ≤ 1000 || leAt b 30 2 = 65535)

/-- Bytes of the pool of a descriptor (R309). -/
def poolBytes (b : Bytes) : Nat := u8 b 9 * Config.poolBuffer (leAt b 4 2) (leAt b 6 2) (u8 b 8)

/-- Admission by rate, buffers and pool (R304, R309). -/
def admitted (s : State) (b : Bytes) : Bool :=
  let l := openContexts s
  (l.map fun n => (ctxOf s n).rate).sum + leAt b 16 8 ≤ 4000000000 && (l.map fun n => (ctxOf s n).poolAlloc).sum + u8 b 9 ≤ 512
  && (l.map fun n => poolBytes (ctxOf s n).desc).sum + poolBytes b ≤ 2 ^ 33

/-- The core of a new context: core 0 unless CORE names 1, the other core where that one is retired (R304, R613). -/
def coreFor (s : State) (b : Bytes) : Nat :=
  let c := if u8 b 2 = 1 then 1 else 0
  if s.spr.retired.contains (16 + c) then 1 - c else c

/-- The queues that are OFF. -/
def freeQueues (s : State) : List Nat := (List.range 16384).filter fun q => (queueOf s q).state == .off

/-- 4 KiB pages at which a ring of any size still ends inside populated DRAM. -/
def ringPages : Nat := 14 * 2 ^ 20 - 1024

/-- The DECODE queue that Walec makes for a context: its number, rings and sizes are Walec's own choice (R305, R500, R504; log 2). -/
def decodeQueue (r : Request) (s : State) : Nat × Queue × State :=
  let l := freeQueues s
  let q := l.getD (freeBelow s l.length) 0
  let t := drew s
  let a := freeBelow t ringPages
  let u := drew t
  let c := freeBelow u ringPages
  let v := drew u
  (q, { kind := 2, cls := r.cls, port := r.port.getD .a, sqAddr := 4096 * a, cqAddr := 4096 * c, sqSize := 2 ^ (4 + freeBelow v 13)
        cqSize := 2 ^ (4 + freeBelow (drew v) 13), state := .active }, drew (drew v))

/-- An open context; its core is switched on where it is not, and a context of a faulted core waits in MOVING (R20, R214, R304,
R331; log 109). -/
def openContext (n q : Nat) (b : Bytes) (s : State) : State :=
  let x := ctxOf s n
  let c := coreFor s b
  let t := setCtx n { x with desc := b, role := u8 b 1, core := c, state := if coreSound s c then .idle else .moving, concealedPics := 0
                             standins := 0, skipped := 0, poolAlloc := u8 b 9, pool := [], outputs := 0, queue := some q, current := none
                             conversion := none, lastConverted := none, recent := [], first := true, rejected := false, dropRasl := false
                             sps := [], pps := [], misses := 0, noSink := false } s
  powerCore 1 (powerCore 0 t)

/-- STREAM.OPEN. -/
def runStreamOpen (_ : Outside) (r : Request) (s : State) : Reply :=
  let b := r.body
  let n := u8 b 0
  let (q, c, t) := decodeQueue r s
  checked [(!streamOk s b, .format), ((ctxOf s n).role ≠ 0, .busy), (!admitted s b || (freeQueues s).isEmpty, .limit)]
    (recorded r n [] b (openContext n q b (createQueue q c [] t))) s (leBytes 2 q ++ leBytes 2 q)

/-- STREAM.OPEN as a verb. -/
def streamOpenVerb : Verb := { len := 32, rights := classes [2, 3], run := runStreamOpen }

/-- STREAM_OPEN. -/
def execStreamOpen (ch : Channel) (s : State) : Out := done (serve 0x05 0x01 streamOpenVerb {} ch s)

/-- A context ends: its picture and its conversion are abandoned, its queue is deleted, and core 1 goes off when it has none left
(R20, R302, R319, R332). -/
def closeContext (n : Nat) (s : State) : State :=
  let x := ctxOf s n
  let c := x.core
  let t := if (coreOf s c).ctx = some n then setCore c { coreOf s c with ctx := none, state := if (coreOf s c).state == .running then .idle else (coreOf s c).state } s else s
  let t := x.queue.elim t fun q => deleteQueue q t
  let t := setCtx n { x with desc := [], role := 0, core := 3, state := .closed, noSink := false, poolAlloc := 0, pool := [], queue := none
                             current := none, conversion := none, recent := [] } t
  if !coreWanted t 1 && staysOn t 17 then requestDomain false 17 t else t

/-- STREAM.CLOSE. -/
def runStreamClose (_ : Outside) (r : Request) (s : State) : Reply :=
  let n := u8 r.body 0
  checked [(63 < n, .range), ((ctxOf s n).role = 0, .notReady), ((ctxOf s n).role = 2 && (colourOf s n).isSome, .busy)]
    (recorded r n (ctxOf s n).desc [] (closeContext n s)) s

/-- STREAM.CLOSE as a verb. -/
def streamCloseVerb : Verb := { len := 1, rights := classes [2, 3], run := runStreamClose }

/-- STREAM_CLOSE. -/
def execStreamClose (ch : Channel) (s : State) : Out := done (serve 0x05 0x02 streamCloseVerb {} ch s)

end Sys2Proof.Machine
end

