-- ==== Sys2Proof/Machine/Sets.lean ====
section
/-! DEFINITION. The MAP, CAL, STRESS and SIG services (15_walec_services.md R494 to R502; 02 R55 to R65; 05 R167 to R169, R183;
07 R225, R232, R245, R247). -/

namespace Sys2Proof.Machine

/-! ### Loads and activations -/

/-- A load into the bank that is not active: a pending swap refuses it before the file is read (R56, R60). -/
def runLoad (busy : State → Bool) (status : Outside → State → Bytes → Nat → Status) (bank : State → Nat) (take : Bytes → State → State)
    (spoil : State → Bytes → Nat → State) (x : Outside) (r : Request) (s : State) : Reply :=
  if busy s then refuse .busy s
  else match objectOf x r r.body s with
    | (.ok, f, v) => match status x s f v with
      | .ok => (.ok, [], log (reqOrigin r) (bank s) 0x0003 (leAt f 4 4) (take f s))
      | c => (c, [], spoil s f v)
    | (c, _, _) => refuseObject r.body c s

/-- The earliest frame that R24 allows, or the later frame that the body names (R59, R499). -/
def activationFrame (s : State) (b : Bytes) : Nat := if u8 b 4 = 1 then max (nextFrame s) (leAt b 8 8) else nextFrame s

/-- An activation (R58 to R60, R65). While the reported panels disagree it is refused, with the status that R55 gives for
another panel (R294, log 86). -/
def runActivate (pair : State → BankPair) (fits : State → Bool) (change : Nat → Change) (_ : Outside) (r : Request) (s : State) : Reply :=
  let b := r.body
  let v := leAt b 0 4
  match (pair s).decide v, firstStatus [(1 < u8 b 4 || !zeroAt b 5 3, .format), (u8 b 4 = 1 && s.tim.frameCount + 2 ^ 62 < leAt b 8 8, .range)] with
  | .busy, _ => refuse .busy s
  | .nothing, .ok => (.ok, leBytes 8 (pair s).frame, s)
  | .swap, .ok =>
    if s.geom.panelMismatch then refuse .mismatch s
    else if fits s then (.ok, leBytes 8 (activationFrame s b), plan (activationFrame s b) (change v) (reqOrigin r) s) else refuse .notReady s
  | .notReady, .ok => refuse .notReady s
  | _, c => refuse c s

/-! ### MAP -/

/-- A refused plane leaves the inactive bank invalid (R57, R232). -/
def spoilMap (s : State) (f : Bytes) (v : Nat) : State :=
  if fileStatus s f (mapHeaderOk f) (crc32c (f.take 60) = leAt f 60 4) true (some (leAt f 8 8)) v = .ok && s.dmc.mode == .running then
    let b := 1 - s.out.mapActive
    { s with out := { s.out with maps := Tbl.set b { (Tbl.get s.out.maps {} b : MapBank) with valid := false } s.out.maps } }
  else s

/-- MAP.LOAD as a verb; the banks lie in DRAM. -/
def mapLoadVerb : Verb :=
  { len := 24, rights := classes [1, 5]
    run := runLoad mapPending (fun _ s f v => if s.dmc.mode == .running then mapFileStatus s f v else .notReady) (fun s => 1 - s.out.mapActive) loadMapFile spoilMap }

/-- MAP_LOAD. -/
def execMapLoad (ch : Channel) (hostObj : Bytes) (s : State) : Out := done (serve 0x07 0x01 mapLoadVerb { obj := hostObj } ch s)

/-- MAP.ACTIVATE as a verb. -/
def mapActivateVerb : Verb := { len := 16, rights := classes [1, 5], run := runActivate mapPair (fun _ => true) .mapSwap }

/-- MAP_ACTIVATE. -/
def execMapActivate (ch : Channel) (s : State) : Out := done (serve 0x07 0x02 mapActivateVerb {} ch s)

/-- MAP.PUT as a verb. -/
def mapPutVerb : Verb := putVerb [2, 5]

/-- MAP_PUT. -/
def execMapPut (ch : Channel) (s : State) : Out := done (serve 0x07 0x03 mapPutVerb {} ch s)

/-- MAP_GET. -/
def execMapGet (ch : Channel) (s : State) : Out := done (serve 0x07 0x04 getVerb {} ch s)

/-! ### CAL -/

/-- Status of a geometry load: the checks of the file, then those of the copies written (R55, R56). -/
def loadGeomStatus (x : Outside) (s : State) (f : Bytes) (v : Nat) : Status :=
  if geomFileStatus s f v = .ok && copyFails x.badCopies s then .checksum else geomFileStatus s f v

/-- A load that wrote the inactive bank and failed leaves it invalid (R56, R57). -/
def spoilGeom (s : State) (f : Bytes) (v : Nat) : State := if geomFileStatus s f v = .ok then loadGeomFile f [0] s else s

/-- CAL.LOAD_GEOM as a verb; Bench refuses it (R214). -/
def loadGeomVerb : Verb :=
  { len := 24, rights := classes [1, 5], bench := true
    run := runLoad (fun s => (pendingGeom s).isSome) loadGeomStatus (fun s => 1 - s.geom.active) (loadGeomFile · []) spoilGeom }

/-- LOAD_GEOM (R56). A load that a stop of Walec
cuts short leaves what such a load leaves (R516, log 87). -/
def execLoadGeom (ch : Channel) (hostObj : GeomInput) (s : State) : Out :=
  done (serve 0x08 0x01 loadGeomVerb { obj := hostObj.file, badCopies := hostObj.badCopies } ch s)

/-- CAL.ACTIVATE_GEOM as a verb. -/
def activateGeomVerb : Verb := { len := 16, rights := classes [1, 5], bench := true, run := runActivate geomPair geomFits .geomSwap }

/-- ACTIVATE_GEOM. -/
def execActivateGeom (ch : Channel) (s : State) : Out := done (serve 0x08 0x02 activateGeomVerb {} ch s)

/-- CAL.LOAD_CURVES as a verb. -/
def loadCurvesVerb : Verb :=
  { len := 24, rights := classes [1, 5], run := runLoad curvePending (fun _ => curveFileStatus) (fun s => 1 - s.out.curveActive) loadCurveFile fun s _ _ => s }

/-- LOAD_CURVES. -/
def execLoadCurves (ch : Channel) (hostObj : Bytes) (s : State) : Out := done (serve 0x08 0x03 loadCurvesVerb { obj := hostObj } ch s)

/-- CAL.ACTIVATE_CURVES as a verb. -/
def activateCurvesVerb : Verb := { len := 16, rights := classes [1, 5], run := runActivate curvePair (fun _ => true) .curveSwap }

/-- ACTIVATE_CURVES. -/
def execActivateCurves (ch : Channel) (s : State) : Out := done (serve 0x08 0x04 activateCurvesVerb {} ch s)

/-! ### STRESS -/

/-- The STRESS.REPORT response (R501). -/
def stressReportBody (s : State) : Bytes :=
  let o := s.out
  leBytes 8 o.lastUpdateFrame ++ leBytes 4 o.exhausted ++ leBytes 4 o.beyond ++ leBytes 2 o.minRetain ++ leBytes 2 o.minGain ++ leBytes 1 o.withheld
  ++ leBytes 1 (flagAt o.disagree 0 + flagAt o.noHistory 1 + flagAt o.model.isSome 2) ++ leBytes 2 0 ++ leBytes 4 o.firstDisagree

/-- STRESS.REPORT as a verb. -/
def stressReportVerb : Verb := { len := 0, rights := everyone, changes := fun _ => false, run := fun _ _ s => (.ok, stressReportBody s, s) }

/-- STRESS_REPORT. -/
def execStressReport (ch : Channel) (s : State) : Out := done (serve 0x09 0x01 stressReportVerb {} ch s)

/-- STRESS.RESOLVE: the copy to keep at the next update (R247). -/
def runStressResolve (_ : Outside) (r : Request) (s : State) : Reply :=
  let k := u8 r.body 0
  checked [(1 < k, .format), (!s.out.disagree, .notReady)] (recorded r k [] (leBytes 1 k) { s with out := { s.out with resolved := some k } }) s

/-- STRESS.RESOLVE as a verb. -/
def stressResolveVerb : Verb := { len := 1, rights := classes [5], run := runStressResolve }

/-- STRESS_RESOLVE. -/
def execStressResolve (ch : Channel) (s : State) : Out := done (serve 0x09 0x02 stressResolveVerb {} ch s)

/-- STRESS.MODEL_LOAD (R245). -/
def runModelLoad (x : Outside) (r : Request) (s : State) : Reply :=
  runLoad (fun _ => false) (fun _ => modelFileStatus) (fun _ => 0) (fun f t => takeModel f (reqOrigin r) t) (fun t _ _ => t) x r s

/-- STRESS.MODEL_LOAD as a verb. -/
def modelLoadVerb : Verb := { len := 24, rights := classes [1, 5], run := runModelLoad }

/-- MODEL_LOAD. -/
def execModelLoad (ch : Channel) (hostObj : Bytes) (s : State) : Out := done (serve 0x09 0x03 modelLoadVerb { obj := hostObj } ch s)

/-- STRESS.PUT as a verb. -/
def stressPutVerb : Verb := putVerb [1, 5]

/-- STRESS_PUT. -/
def execStressPut (ch : Channel) (s : State) : Out := done (serve 0x09 0x04 stressPutVerb {} ch s)

/-- STRESS_GET. -/
def execStressGet (ch : Channel) (s : State) : Out := done (serve 0x09 0x05 getVerb {} ch s)

/-! ### SIG (R167 to R169, R183) -/

/-- A record from its 80 bytes; a limit of 0xFF becomes 2 (R167). -/
def regionRecOf (b : Bytes) : RegionRec :=
  { u0 := leAt b 0 2, v0 := leAt b 2 2, u1 := leAt b 4 2, v1 := leAt b 6 2, subset := u8 b 8, action := u8 b 9
    limit := if u8 b 10 = 255 then 2 else u8 b 10, slateLayer := u8 b 11, enable := u8 b 12, slate := layerEntryOf (b.drop 16) }

/-- The 80 bytes of a record. -/
def RegionRec.bytes (x : RegionRec) : Bytes :=
  leBytes 2 x.u0 ++ leBytes 2 x.v0 ++ leBytes 2 x.u1 ++ leBytes 2 x.v1 ++ leBytes 1 x.subset ++ leBytes 1 x.action ++ leBytes 1 x.limit
  ++ leBytes 1 x.slateLayer ++ leBytes 1 x.enable ++ leBytes 3 0 ++ x.slate.bytes

/-- The record that region n will have when every accepted change has taken effect. -/
def recordAhead (s : State) (n : Nat) : RegionRec :=
  (s.tim.pending.filterMap fun p => match p.change with
    | .region k x => if k = n then some x else none
    | _ => none).getLast?.getD (regionOf s n).record

/-- The records of the other regions. -/
def otherRecords (s : State) (n : Nat) : List RegionRec := ((List.range 32).filter (· ≠ n)).map (recordAhead s)

/-- ST_FORMAT checks of R168 and R169. -/
def regionFormatOk (s : State) (n : Nat) (b : Bytes) : Bool :=
  let x := regionRecOf b
  x.u0 < x.u1 && x.v0 < x.v1 && x.subset ≤ 1 && x.action ≤ 1 && within 1 15 x.limit && x.enable ≤ 1 && zeroAt b 13 3 &&
  (x.action = 0 || (x.slateLayer < 64 && entryOk (b.drop 16) && x.slate.safety)) &&
  (!x.slates || (otherRecords s n).all fun y => !y.slates || y.slateLayer ≠ x.slateLayer || y.slate == x.slate)

/-- A buffer lies in populated DRAM; R168, unlike R103, does not test protected ranges. -/
def Desc.inDram (x : Desc) : Bool := x.isNone || x.addr + x.extent ≤ 56 * 2 ^ 30

/-- ST_RANGE checks of R168. -/
def regionRangeOk (s : State) (x : RegionRec) : Bool :=
  x.u1 ≤ 3072 && x.v1 ≤ 144 * configRows s && (x.action = 0 || (x.slate.front.inDram && x.slate.back.inDram))

/-- The slate would break the limit of four SAFETY layers, every configured slate counted as though substituted (R85, R168). -/
def slateLimit (s : State) (n : Nat) (x : RegionRec) : Bool :=
  4 < safetyMost (plan (nextFrame s) (.region n x) {} s) (inFrameOrder s.cmp.commits)

/-- Content holds the slate layer: in the active set, or by an accepted commit not yet applied (R168). DESIGN CHOICE (log 105): a
stale member that waits counts as named by a commit not yet applied, though its commit has applied with PARTIAL. -/
def slateBusy (s : State) (k : Nat) : Bool :=
  (layerOf s k).enabled || s.cmp.commits.any (fun c => c.members.any (·.layer = k)) || s.cmp.stale.any (·.1 = k)

/-- SIG.REGION. -/
def runSigRegion (_ : Outside) (r : Request) (s : State) : Reply :=
  let n := u8 r.body 0
  let b := r.body.drop 16
  let x := regionRecOf b
  checked [(!zeroAt r.body 1 15 || !regionFormatOk s n b, .format), (31 < n || !regionRangeOk s x, .range),
      (x.slates && slateLimit s n x, .limit), (x.slates && slateBusy s x.slateLayer, .busy)]
    (recorded r n (recordAhead s n).bytes x.bytes (plan (nextFrame s) (.region n x) (reqOrigin r) s)) s

/-- SIG.REGION as a verb. -/
def sigRegionVerb : Verb := { len := 96, rights := classes [1, 4], run := runSigRegion }

/-- SIG_REGION. -/
def execSigRegion (ch : Channel) (s : State) : Out := done (serve 0x0A 0x01 sigRegionVerb {} ch s)

/-- SIG.RELEASE: accepted whatever the state of the region (R183). -/
def runSigRelease (_ : Outside) (r : Request) (s : State) : Reply :=
  let n := u8 r.body 0
  checked [(31 < n, .range)] (plan (nextFrame s) (.sigRelease n) (reqOrigin r) s) s

/-- SIG.RELEASE as a verb. -/
def sigReleaseVerb : Verb := { len := 1, rights := classes [2, 4, 5], run := runSigRelease }

/-- SIG_RELEASE. -/
def execSigRelease (ch : Channel) (s : State) : Out := done (serve 0x0A 0x02 sigReleaseVerb {} ch s)

/-- SIG.QUERY: the record and SIG_REGION_STATUS_n. -/
def runSigQuery (_ : Outside) (r : Request) (s : State) : Reply :=
  let n := u8 r.body 0
  checked [(31 < n, .range)] s s ((regionOf s n).record.bytes ++ leBytes 8 (regRegion s n))

/-- SIG.QUERY as a verb. -/
def sigQueryVerb : Verb := { len := 1, rights := everyone, changes := fun _ => false, run := runSigQuery }

/-- SIG_QUERY. -/
def execSigQuery (ch : Channel) (s : State) : Out := done (serve 0x0A 0x03 sigQueryVerb {} ch s)

end Sys2Proof.Machine
end

