-- ==== Sys2Proof/Machine/Upkeep.lean ====
section
/-! DEFINITION. The TIME, THERM and SPARE services (15_walec_services.md R495, R502; 16 R524; 18 R599; 19 R627; 13 R434;
08 R676). -/

namespace Sys2Proof.Machine

/-! ### TIME -/

/-- TIME.PUT as a verb. -/
def timePutVerb : Verb := putVerb [1, 5]

/-- TIME_PUT. -/
def execTimePut (ch : Channel) (s : State) : Out := done (serve 0x0B 0x01 timePutVerb {} ch s)

/-- TIME_GET. -/
def execTimeGet (ch : Channel) (s : State) : Out := done (serve 0x0B 0x02 getVerb {} ch s)

/-- A slot in the layout of R524. -/
def EventSlot.bytes (n op : Nat) (x : EventSlot) : Bytes :=
  leBytes 1 n ++ leBytes 1 op ++ leBytes 1 x.base ++ leBytes 1 x.action ++ leBytes 4 x.count ++ leBytes 8 (if x.armed then x.target else 0)
  ++ leBytes 8 x.period ++ leBytes 8 x.user

/-- The slot that a SET arms. -/
def eventSlotOf (b : Bytes) : EventSlot :=
  { armed := true, base := u8 b 2, action := u8 b 3, target := leAt b 8 8, period := leAt b 16 8, user := leAt b 24 8 }

/-- TIME.EVENT (R524). -/
def runTimeEvent (_ : Outside) (r : Request) (s : State) : Reply :=
  let b := r.body
  let n := u8 b 0
  let op := u8 b 1
  let x := eventSlotOf b
  let old := slotOf s n
  let new : EventSlot := if op = 0 then x else if op = 1 then { old with armed := false } else old
  let go := if op = 0 || (op = 1 && old.armed) then recorded r n (old.bytes n op) (new.bytes n op) (setSlot n new s) else s
  checked [(15 < n || 2 < op || 3 < x.base || 3 < x.action, .format),
      (op = 0 && (!(x.period = 0 || within 1000000 (2 ^ 62) x.period) || tooFar s x.base x.target), .range)] go s (new.bytes n op)

/-- TIME.EVENT as a verb; a QUERY changes nothing. -/
def timeEventVerb : Verb := { len := 32, rights := classes [1, 2, 3, 4, 5], changes := fun r => u8 r.body 1 ≠ 2, run := runTimeEvent }

/-- OP of the oldest request taken, or of the session's message. -/
def eventOp (ch : Channel) (s : State) : Nat := match ch with
  | .eth _ (b :: msg) => u8 (ethMessage (b :: msg)).body 1
  | _ => s.walec.taken.head?.elim 0 fun r => u8 r.body 1

/-- TIME_EVENT_SET; a reserved OP is refused here too. -/
def execTimeEventSet (ch : Channel) (s : State) : Out :=
  done (ifEvent (eventOp ch s ≠ 1 && eventOp ch s ≠ 2) (serve 0x0B 0x03 timeEventVerb {} ch s) s)

/-- TIME_EVENT_CANCEL. -/
def execTimeEventCancel (ch : Channel) (s : State) : Out := done (ifEvent (eventOp ch s = 1) (serve 0x0B 0x03 timeEventVerb {} ch s) s)

/-- TIME_EVENT_QUERY. -/
def execTimeEventQuery (ch : Channel) (s : State) : Out := done (ifEvent (eventOp ch s = 2) (serve 0x0B 0x03 timeEventVerb {} ch s) s)

/-! ### THERM -/

/-- THERM.PUT as a verb. -/
def thermPutVerb : Verb := putVerb [1, 5]

/-- THERM_PUT. -/
def execThermPut (ch : Channel) (s : State) : Out := done (serve 0x0C 0x01 thermPutVerb {} ch s)

/-- THERM_GET. -/
def execThermGet (ch : Channel) (s : State) : Out := done (serve 0x0C 0x02 getVerb {} ch s)

/-- THERM.ACK (R599, R605). -/
def runThermAck (_ : Outside) (r : Request) (s : State) : Reply :=
  let n := u8 r.body 0
  let x := sensorOf s n
  checked [(23 < n, .range), (x.state != .held, .notReady)] (log (hw 11) n 0xC4 (lastField x) (setSensor n { x with state := .acked } s)) s

/-- THERM.ACK as a verb. -/
def thermAckVerb : Verb := { len := 1, rights := classes [2, 4, 5], run := runThermAck }

/-- THERM_ACK. -/
def execThermAck (ch : Channel) (s : State) : Out := done (serve 0x0C 0x03 thermAckVerb {} ch s)

/-! ### SPARE -/

/-- SPARE.MIGRATE (R434). -/
def runMigrate (_ : Outside) (r : Request) (s : State) : Reply :=
  let l := u8 r.body 0
  checked [(7 < l, .range), (migrationRuns s, .busy), (!spareSitePresent s || s.dmc.mode != .running || s.tim.bench != .off, .notReady)]
    (startMigration l (reqOrigin r) s) s

/-- SPARE.MIGRATE as a verb. -/
def migrateVerb : Verb := { len := 1, rights := classes [1, 5], run := runMigrate }

/-- MIGRATE. -/
def execMigrate (ch : Channel) (s : State) : Out := done (serve 0x0D 0x01 migrateVerb {} ch s)

/-- SPARE.RESTORE_LINK (R676). -/
def runRestoreLink (_ : Outside) (r : Request) (s : State) : Reply :=
  let b := r.body
  let n := u8 b 0
  let l := linkOf s n
  let f := if u8 b 4 = 1 then max (rateFrame s) (leAt b 8 8) else rateFrame s
  checked [(!zeroAt b 1 3 || 1 < u8 b 4 || !zeroAt b 5 3, .format), (95 < n || !configured s n, .range),
      (!s.tim.rasterRun || l.state != .up || !l.half, .notReady), (l.has 4, .busy)]
    (recorded r n [] (leBytes 8 f) (restoreAt n f s)) s (leBytes 8 f)

/-- SPARE.RESTORE_LINK as a verb. -/
def restoreLinkVerb : Verb := { len := 16, rights := classes [1, 5], run := runRestoreLink }

/-- RESTORE_LINK. -/
def execRestoreLink (ch : Channel) (s : State) : Out := done (serve 0x0D 0x02 restoreLinkVerb {} ch s)

/-- SPARE.PUT as a verb. -/
def sparePutVerb : Verb := putVerb [1, 5]

/-- SPARE_PUT. -/
def execSparePut (ch : Channel) (s : State) : Out := done (serve 0x0D 0x03 sparePutVerb {} ch s)

/-- SPARE_GET. -/
def execSpareGet (ch : Channel) (s : State) : Out := done (serve 0x0D 0x04 getVerb {} ch s)

/-- RETIRED_MASK (R627). -/
def retiredMask (s : State) : Nat := maskOf 41 (retiredUnit s)

/-- The SPARE.REPORT response (R627). -/
def spareReportBody (s : State) : Bytes :=
  let links (f : Link → Bool) : Nat := ((configuredLinks s).filter fun n => f (linkOf s n)).length
  let used := (List.range 44).map fun d => (repairsOf s d).length
  leBytes 8 s.tim.frameCount ++ leBytes 1 (clustersFree s) ++ leBytes 1 (clustersRetired s)
  ++ leBytes 1 (2 - (s.spr.retired.filter fun k => k = 16 || k = 17).length) ++ leBytes 1 s.spr.cpu.ctorIdx ++ leBytes 1 (dramSpare s)
  ++ leBytes 1 (flagAt (refOf s s.clk.selected.other).qual 0 + flagAt (s.hif.portA.linkUp && s.hif.portB.linkUp) 1 + flagAt (!otherImageBad s) 2)
  ++ leBytes 2 (links (·.half)) ++ leBytes 2 (links (·.state == .failed))
  ++ leBytes 2 ((List.range 24).filter fun n => (sensorOf s n).state == .failed || (sensorOf s n).state == .held).length
  ++ leBytes 2 used.sum ++ leBytes 2 (used.filter (64 ≤ ·)).length
  ++ leBytes 4 (s.spr.daily.sum + s.spr.outageHour) ++ leBytes 4 (s.spr.dailyGlitches.sum + s.spr.glitches)
  ++ leBytes 8 (retiredMask s) ++ List.replicate 24 0

/-- SPARE.REPORT as a verb. -/
def spareReportVerb : Verb := { len := 0, rights := everyone, changes := fun _ => false, run := fun _ _ s => (.ok, spareReportBody s, s) }

/-- SPARE_REPORT. -/
def execSpareReport (ch : Channel) (s : State) : Out := done (serve 0x0D 0x05 spareReportVerb {} ch s)

end Sys2Proof.Machine
end

