-- ==== Sys2Proof/Machine/Services.lean ====
section
/-! DEFINITION. The catalogue of verbs, and how Walec takes requests from drawers and SERVICE queues (15_walec_services.md R491,
R492, R495; 14 R462, R465, R466). -/

namespace Sys2Proof.Machine

/-- The catalogue by service, in verb order (R495). -/
def catalogue : List (List Verb) := [
  [deviceStatusVerb, devicePutVerb, getVerb, queueCreateVerb, queueResetVerb, queueDeleteVerb, queueAttachVerb, deviceDarkVerb, powerDownVerb],
  [modeSetVerb, benchLoadVerb, modeScheduleVerb, modePutVerb, getVerb],
  [layerCommitVerb, layerResultVerb, layerQueryVerb],
  [scenePutVerb, getVerb],
  [streamOpenVerb, streamCloseVerb],
  [witnessPutVerb, getVerb],
  [mapLoadVerb, mapActivateVerb, mapPutVerb, getVerb],
  [loadGeomVerb, activateGeomVerb, loadCurvesVerb, activateCurvesVerb],
  [stressReportVerb, stressResolveVerb, modelLoadVerb, stressPutVerb, getVerb],
  [sigRegionVerb, sigReleaseVerb, sigQueryVerb],
  [timePutVerb, getVerb, timeEventVerb],
  [thermPutVerb, getVerb, thermAckVerb],
  [migrateVerb, restoreLinkVerb, sparePutVerb, getVerb, spareReportVerb],
  [logReadVerb, logFetchVerb, logStatusVerb, logClearVerb, logArchiveVerb],
  [drawerClassVerb, ethBindVerb, rightsPutVerb, getVerb],
  [updateStageVerb, updateSwitchVerb, updateStatusVerb]]

/-- The verb of a SERVICE and VERB code. -/
def verbOf (service verb : Nat) : Option Verb := if known service verb then (catalogue.getD (service - 1) [])[verb - 1]? else none

/-- Walec takes a drawer's request: a refusal is answered at once, anything else waits its turn (R462, R491, R492). -/
def takeRequest (p : Port) (n : Nat) (s : State) : State :=
  let d := drawerOf s p n
  let m := messageOf d.req
  let r := requestOf s (.drawer p n) m
  let t := setDrawer p n { d with state := .busy } s
  match generalStatus (verbOf m.service m.verb) m r s with
  | .ok => { t with walec := { t.walec with taken := t.walec.taken ++ [r] } }
  | c => finish r (c, [], t)

/-- WALEC_TAKES_REQUEST. -/
def execWalecTakesRequest (p : Port) (n : Nat) (s : State) : Out :=
  done (ifEvent (s.hif.walec == .running && (drawerOf s p n).state == .request) (takeRequest p n s) s)

/-! ### SERVICE queues (R465, R466) -/

/-- The next entry of a SERVICE queue that Walec may take: every request taken before it has ended (R466, R491). -/
def nextService (s : State) (q : Nat) : Option Fetched :=
  if s.hif.walec == .running && (queueOf s q).kind = 1 && s.walec.taken.isEmpty then (queueOf s q).fetched.head? else none

/-- Drop the entry that was taken. -/
def dropEntry (q : Nat) (s : State) : State := setQueue q { queueOf s q with fetched := (queueOf s q).fetched.drop 1 } s

/-- The bytes at ADDR: an unreadable message, or one outside populated memory, is refused (R465). -/
def entryMessage (s : State) (q : Nat) (e : Bytes) (host : Option Bytes) : Status × Bytes :=
  let a := leAt e 8 8
  let n := leAt e 16 4
  if 1 < u8 e 1 || a % 64 ≠ 0 || n < 16 || 65536 < n || !zeroAt e 6 2 || !zeroAt e 22 2 then (.format, [])
  else if u8 e 1 = 0 then
    (if !extentOk s 7 a n false then (.range, []) else if s.dmc.mode != .running then (.notReady, [])
     else if poisoned s a n then (.fault, []) else (.ok, load s a n))
  else match host with
    | some b => if portOpen s (queueOf s q).port then (.ok, padTo n b) else (.fault, [])
    | none => (.fault, [])

/-- A poisoned message is recorded (R416). -/
def noteEntry (e : Bytes) (c : Status) (s : State) : State :=
  if c == .fault && u8 e 1 = 0 then noteMarks 7 (linesOf (leAt e 8 8) (leAt e 16 4)) s else s

/-- An entry whose message cannot be read, or does not agree with it, gets its COMPLETION record alone. -/
def refuseEntry (q : Nat) (f : Fetched) (c : Status) (s : State) : State :=
  complete q f.slot f.gen 0 (completionBody c.code 0 (leAt f.bytes 24 8)) f.reserved (dropEntry q s)

/-- The verbs whose execution reads memory of the port or depends on the stores: the row of the verb brings what they read
(log 6). -/
def needsOutside (r : Request) : Bool :=
  let at1 := [(2, 2), (3, 1), (7, 1), (8, 1), (8, 3), (9, 3)]
  (r.service = 1 && r.verb = 9) || (at1.contains (r.service, r.verb) && u8 r.body 0 = 1) || (r.service = 16 && r.verb = 1 && u8 r.body 8 = 1)

/-- A REQUEST entry is executed in its order (R466, R504). -/
def queueRequest (q : Nat) (f : Fetched) (host : Option Bytes) (s : State) : State :=
  let e := f.bytes
  match if u8 e 0 ≠ 1 then (.format, []) else entryMessage s q e host with
  | (.ok, b) =>
    let m := messageOf b
    if leAt e 2 2 ≠ m.service || leAt e 4 2 ≠ m.verb || leAt e 16 4 < 16 + m.len then refuseEntry q f .format s
    else
      let r := requestOf s (.queue q) m
      match generalStatus (verbOf m.service m.verb) m r s, verbOf m.service m.verb with
      | .ok, some v => if needsOutside r then { s with walec := { s.walec with taken := [r] } } else finish r (v.run {} r s)
      | c, _ => finish r (c, [], s)
  | (c, _) => refuseEntry q f c (noteEntry e c s)

/-- SERVICE_QUEUE_REQUEST; an entry with a reserved OP is refused here. -/
def execServiceQueueRequest (q : Nat) (hostMsg : Option Bytes) (s : State) : Out :=
  match nextService s q with
  | none => done s
  | some f => done (ifEvent (u8 f.bytes 0 ≠ 2 && u8 f.bytes 0 ≠ 3) (queueRequest q f hostMsg s) s)

/-- A COMMIT entry as the request LAYER.COMMIT that the checks of R492 see. -/
def commitRequest (s : State) (q : Nat) : Request := { ch := .queue q, service := 0x03, verb := 0x01, tagGen := 0, body := [], cls := (queueOf s q).cls, port := some (queueOf s q).port }

/-- The status of R492 for a COMMIT entry. -/
def commitChecks (s : State) (q : Nat) : Status :=
  let r := commitRequest s q
  generalStatus (some layerCommitVerb) { service := 3, verb := 1, tagGen := 0, len := 24, clear := true, body := [] } r s

/-- The ACCEPTANCE record; a refused commit gives up the slot of its APPLICATION record (R466, R470). -/
def acceptRecord (q : Nat) (f : Fetched) (c : Status) (id frame : Nat) (s : State) : State :=
  complete q f.slot f.gen 1 (acceptanceBody c.code id (leAt f.bytes 24 8) frame) (if c = .ok then 1 else f.reserved) (dropEntry q s)

/-- A COMMIT entry (R466). -/
def queueCommit (q : Nat) (f : Fetched) (host : Option Bytes) (s : State) : State :=
  let e := f.bytes
  let r := commitRequest s q
  match commitChecks s q, entryMessage s q e host with
  | .ok, (.ok, d) =>
    let (c, id, frame, t) := submitCommit r.cls d (reqOrigin r) (.queue q f.slot f.gen (leAt e 24 8)) s
    acceptRecord q f c id frame (if c = .ok then t else noteRefusal r c s)
  | .ok, (c, _) => acceptRecord q f c 0 0 (noteEntry e c s)
  | c, _ => acceptRecord q f c 0 0 (noteRefusal r c s)

/-- SERVICE_QUEUE_COMMIT. -/
def execServiceQueueCommit (q : Nat) (hostMsg : Option Bytes) (s : State) : Out :=
  match nextService s q with
  | none => done s
  | some f => done (ifEvent (u8 f.bytes 0 = 2) (queueCommit q f hostMsg s) s)

/-- The status of a FENCE entry. -/
def fenceStatus (s : State) (q : Nat) (e : Bytes) : Status :=
  let c := queueOf s q
  firstStatus [(1 < u8 e 1 || !zeroAt e 6 14 || u8 e 20 = 0 || u8 e 21 = 0 || !zeroAt e 22 2, .format), (c.cls = 0, .rights),
    (!holds s c.port c.cls, .lease), (s.hif.powerDown || s.bot.mode == .recovery, .notReady)]

/-- A FENCE entry as the request that a refusal of it reports: no service and no verb (R507, log 108). -/
def fenceRequest (s : State) (q : Nat) : Request := { ch := .queue q, service := 0, verb := 0, tagGen := 0, body := [], cls := (queueOf s q).cls, port := some (queueOf s q).port }

/-- A FENCE entry: every earlier entry of the queue has ended (R466). -/
def queueFence (q : Nat) (f : Fetched) (s : State) : State :=
  let c := fenceStatus s q f.bytes
  refuseEntry q f c (if c = .ok then advanceFence (u8 f.bytes 20) (u8 f.bytes 21) s else noteRefusal (fenceRequest s q) c s)

/-- SERVICE_QUEUE_FENCE. -/
def execServiceQueueFence (q : Nat) (s : State) : Out :=
  match nextService s q with
  | none => done s
  | some f => done (ifEvent (u8 f.bytes 0 = 3) (queueFence q f s) s)

end Sys2Proof.Machine
end

