-- ==== Sys2Proof/Machine/Dispatch.lean ====
section
/-! DEFINITION. What each command does to the state, its queue apart: one arm per row of spec/opcode_table.json. -/

namespace Sys2Proof.Machine

open Sys2Proof

/-- The effect of one command (15_walec_services.md R491; every chapter's own rules). -/
def exec (i : Instr) (s : State) : Host.Outcome State Fault Refusal :=
  match i with
  | .frameTick => Sys2Proof.Machine.execFrameTick s
  | .lineStart sub line obs => Sys2Proof.Machine.execLineStart sub line obs s
  | .startLatch => Sys2Proof.Machine.execStartLatch s
  | .rasterStart => Sys2Proof.Machine.execRasterStart s
  | .configurationConfirm => Sys2Proof.Machine.execConfigurationConfirm s
  | .retrainComplete channel ok => Sys2Proof.Machine.execRetrainComplete channel ok s
  | .spareBind row => Sys2Proof.Machine.execSpareBind row s
  | .clusterFault row => Sys2Proof.Machine.execClusterFault row s
  | .laneTimeout row lane => Sys2Proof.Machine.execLaneTimeout row lane s
  | .unboundClusterFault cluster => Sys2Proof.Machine.execUnboundClusterFault cluster s
  | .shadowCheck spare row line mine bound second => Sys2Proof.Machine.execShadowCheck spare row line mine bound second s
  | .clusterResetComplete row => Sys2Proof.Machine.execClusterResetComplete row s
  | .witnessPictureStart => Sys2Proof.Machine.execWitnessPictureStart s
  | .witnessPictureComplete source => Sys2Proof.Machine.execWitnessPictureComplete source s
  | .encodeStart => Sys2Proof.Machine.execEncodeStart s
  | .encodeComplete coded => Sys2Proof.Machine.execEncodeComplete coded s
  | .rtcpSenderReport => Sys2Proof.Machine.execRtcpSenderReport s
  | .encoderFault => Sys2Proof.Machine.execEncoderFault s
  | .trainFrame link groups => Sys2Proof.Machine.execTrainFrame link groups s
  | .identFrame link groups => Sys2Proof.Machine.execIdentFrame link groups s
  | .statusFrame link groups => Sys2Proof.Machine.execStatusFrame link groups s
  | .cwLockLoss link => Sys2Proof.Machine.execCwLockLoss link s
  | .trainingTimeout link => Sys2Proof.Machine.execTrainingTimeout link s
  | .failedRetrain link => Sys2Proof.Machine.execFailedRetrain link s
  | .statusStale link => Sys2Proof.Machine.execStatusStale link s
  | .linkSecond => Sys2Proof.Machine.execLinkSecond s
  | .decodePictureStart core au => Sys2Proof.Machine.execDecodePictureStart core au s
  | .rowBudget core ctus => Sys2Proof.Machine.execRowBudget core ctus s
  | .picWatchdog core ctus => Sys2Proof.Machine.execPicWatchdog core ctus s
  | .pictureComplete core => Sys2Proof.Machine.execPictureComplete core s
  | .coreFault core => Sys2Proof.Machine.execCoreFault core s
  | .corePictureTimeout core => Sys2Proof.Machine.execCorePictureTimeout core s
  | .contextMoveComplete core => Sys2Proof.Machine.execContextMoveComplete core s
  | .conversionStart ctx => Sys2Proof.Machine.execConversionStart ctx s
  | .pairWaitExpiry ctx => Sys2Proof.Machine.execPairWaitExpiry ctx s
  | .conversionComplete ctx => Sys2Proof.Machine.execConversionComplete ctx s
  | .bltCommandIssue q hostCmd => Sys2Proof.Machine.execBltCommandIssue q hostCmd s
  | .bltCommandEnd cmd => Sys2Proof.Machine.execBltCommandEnd cmd s
  | .bltEngineFault => Sys2Proof.Machine.execBltEngineFault s
  | .flattenRestart group => Sys2Proof.Machine.execFlattenRestart group s
  | .dflJobStart q hostDesc => Sys2Proof.Machine.execDflJobStart q hostDesc s
  | .dflJobEnd lane => Sys2Proof.Machine.execDflJobEnd lane s
  | .dflEngineFault => Sys2Proof.Machine.execDflEngineFault s
  | .dramRead requester addr len ecc => Sys2Proof.Machine.execDramRead requester addr len ecc s
  | .dramWrite requester addr data ecc => Sys2Proof.Machine.execDramWrite requester addr data ecc s
  | .refreshTick channel => Sys2Proof.Machine.execRefreshTick channel s
  | .refreshIssue channel pairIdle => Sys2Proof.Machine.execRefreshIssue channel pairIdle s
  | .mr4Poll readings => Sys2Proof.Machine.execMr4Poll readings s
  | .patrolScrub line ecc => Sys2Proof.Machine.execPatrolScrub line ecc s
  | .ceHourEval => Sys2Proof.Machine.execCeHourEval s
  | .dramErrorSummary => Sys2Proof.Machine.execDramErrorSummary s
  | .selfRefreshEntry busy => Sys2Proof.Machine.execSelfRefreshEntry busy s
  | .selfRefreshRetry channel => Sys2Proof.Machine.execSelfRefreshRetry channel s
  | .selfRefreshExit => Sys2Proof.Machine.execSelfRefreshExit s
  | .dramInit answered good => Sys2Proof.Machine.execDramInit answered good s
  | .migrationChunk badLines targetError => Sys2Proof.Machine.execMigrationChunk badLines targetError s
  | .pcieLinkDown p => Sys2Proof.Machine.execPcieLinkDown p s
  | .perst p => Sys2Proof.Machine.execPerst p s
  | .functionLevelReset p => Sys2Proof.Machine.execFunctionLevelReset p s
  | .d3hotEntry p => Sys2Proof.Machine.execD3hotEntry p s
  | .portLinkUp p speed width => Sys2Proof.Machine.execPortLinkUp p speed width s
  | .kick p n value => Sys2Proof.Machine.execKick p n value s
  | .abort p n value => Sys2Proof.Machine.execAbort p n value s
  | .ack p n value => Sys2Proof.Machine.execAck p n value s
  | .walecTakesRequest p n => Sys2Proof.Machine.execWalecTakesRequest p n s
  | .walecResponse p n => Sys2Proof.Machine.execWalecResponse p n s
  | .sqDoorbell p q value => Sys2Proof.Machine.execSqDoorbell p q value s
  | .cqDoorbell p q value => Sys2Proof.Machine.execCqDoorbell p q value s
  | .queueEntryFetch q hostEntry => Sys2Proof.Machine.execQueueEntryFetch q hostEntry s
  | .coalesceTimeout q => Sys2Proof.Machine.execCoalesceTimeout q s
  | .renew p value => Sys2Proof.Machine.execRenew p value s
  | .claim p value => Sys2Proof.Machine.execClaim p value s
  | .release p value => Sys2Proof.Machine.execRelease p value s
  | .leaseExpiry p => Sys2Proof.Machine.execLeaseExpiry p s
  | .bar2Read p off len ecc => Sys2Proof.Machine.execBar2Read p off len ecc s
  | .bar2Write p off data ecc => Sys2Proof.Machine.execBar2Write p off data ecc s
  | .registerWrite p off width value => Sys2Proof.Machine.execRegisterWrite p off width value s
  | .capture p value => Sys2Proof.Machine.execCapture p value s
  | .warm p value => Sys2Proof.Machine.execWarm p value s
  | .cold p value => Sys2Proof.Machine.execCold p value s
  | .switchRef p value => Sys2Proof.Machine.execSwitchRef p value s
  | .botRecoveryWrite p value => Sys2Proof.Machine.execBotRecoveryWrite p value s
  | .serviceQueueRequest q hostMsg => Sys2Proof.Machine.execServiceQueueRequest q hostMsg s
  | .serviceQueueCommit q hostMsg => Sys2Proof.Machine.execServiceQueueCommit q hostMsg s
  | .serviceQueueFence q => Sys2Proof.Machine.execServiceQueueFence q s
  | .deviceStatus ch => Sys2Proof.Machine.execDeviceStatus ch s
  | .devicePut ch => Sys2Proof.Machine.execDevicePut ch s
  | .deviceGet ch => Sys2Proof.Machine.execDeviceGet ch s
  | .queueCreate ch => Sys2Proof.Machine.execQueueCreate ch s
  | .queueReset ch => Sys2Proof.Machine.execQueueReset ch s
  | .queueDelete ch => Sys2Proof.Machine.execQueueDelete ch s
  | .queueAttach ch => Sys2Proof.Machine.execQueueAttach ch s
  | .deviceDark ch => Sys2Proof.Machine.execDeviceDark ch s
  | .deviceDarkResume ch => Sys2Proof.Machine.execDeviceDarkResume ch s
  | .powerDown ch storesOk => Sys2Proof.Machine.execPowerDown ch storesOk s
  | .modeSet ch => Sys2Proof.Machine.execModeSet ch s
  | .benchLoad ch hostObj => Sys2Proof.Machine.execBenchLoad ch hostObj s
  | .modeSchedule ch => Sys2Proof.Machine.execModeSchedule ch s
  | .modePut ch => Sys2Proof.Machine.execModePut ch s
  | .modeGet ch => Sys2Proof.Machine.execModeGet ch s
  | .layerCommit ch hostObj => Sys2Proof.Machine.execLayerCommit ch hostObj s
  | .layerResult ch => Sys2Proof.Machine.execLayerResult ch s
  | .layerQuery ch => Sys2Proof.Machine.execLayerQuery ch s
  | .scenePut ch => Sys2Proof.Machine.execScenePut ch s
  | .sceneGet ch => Sys2Proof.Machine.execSceneGet ch s
  | .streamOpen ch => Sys2Proof.Machine.execStreamOpen ch s
  | .streamClose ch => Sys2Proof.Machine.execStreamClose ch s
  | .witnessPut ch => Sys2Proof.Machine.execWitnessPut ch s
  | .witnessGet ch => Sys2Proof.Machine.execWitnessGet ch s
  | .mapLoad ch hostObj => Sys2Proof.Machine.execMapLoad ch hostObj s
  | .mapActivate ch => Sys2Proof.Machine.execMapActivate ch s
  | .mapPut ch => Sys2Proof.Machine.execMapPut ch s
  | .mapGet ch => Sys2Proof.Machine.execMapGet ch s
  | .loadGeom ch hostObj => Sys2Proof.Machine.execLoadGeom ch hostObj s
  | .activateGeom ch => Sys2Proof.Machine.execActivateGeom ch s
  | .loadCurves ch hostObj => Sys2Proof.Machine.execLoadCurves ch hostObj s
  | .activateCurves ch => Sys2Proof.Machine.execActivateCurves ch s
  | .stressReport ch => Sys2Proof.Machine.execStressReport ch s
  | .stressResolve ch => Sys2Proof.Machine.execStressResolve ch s
  | .modelLoad ch hostObj => Sys2Proof.Machine.execModelLoad ch hostObj s
  | .stressPut ch => Sys2Proof.Machine.execStressPut ch s
  | .stressGet ch => Sys2Proof.Machine.execStressGet ch s
  | .sigRegion ch => Sys2Proof.Machine.execSigRegion ch s
  | .sigRelease ch => Sys2Proof.Machine.execSigRelease ch s
  | .sigQuery ch => Sys2Proof.Machine.execSigQuery ch s
  | .timePut ch => Sys2Proof.Machine.execTimePut ch s
  | .timeGet ch => Sys2Proof.Machine.execTimeGet ch s
  | .timeEventSet ch => Sys2Proof.Machine.execTimeEventSet ch s
  | .timeEventCancel ch => Sys2Proof.Machine.execTimeEventCancel ch s
  | .timeEventQuery ch => Sys2Proof.Machine.execTimeEventQuery ch s
  | .thermPut ch => Sys2Proof.Machine.execThermPut ch s
  | .thermGet ch => Sys2Proof.Machine.execThermGet ch s
  | .thermAck ch => Sys2Proof.Machine.execThermAck ch s
  | .migrate ch => Sys2Proof.Machine.execMigrate ch s
  | .restoreLink ch => Sys2Proof.Machine.execRestoreLink ch s
  | .sparePut ch => Sys2Proof.Machine.execSparePut ch s
  | .spareGet ch => Sys2Proof.Machine.execSpareGet ch s
  | .spareReport ch => Sys2Proof.Machine.execSpareReport ch s
  | .logRead ch => Sys2Proof.Machine.execLogRead ch s
  | .logFetch ch => Sys2Proof.Machine.execLogFetch ch s
  | .logStatus ch => Sys2Proof.Machine.execLogStatus ch s
  | .logClear ch => Sys2Proof.Machine.execLogClear ch s
  | .logArchive ch => Sys2Proof.Machine.execLogArchive ch s
  | .drawerClass ch => Sys2Proof.Machine.execDrawerClass ch s
  | .ethBind ch => Sys2Proof.Machine.execEthBind ch s
  | .rightsPut ch => Sys2Proof.Machine.execRightsPut ch s
  | .rightsGet ch => Sys2Proof.Machine.execRightsGet ch s
  | .updateStage ch hostObj => Sys2Proof.Machine.execUpdateStage ch hostObj s
  | .updateSwitch ch => Sys2Proof.Machine.execUpdateSwitch ch s
  | .updateStatus ch => Sys2Proof.Machine.execUpdateStatus ch s
  | .ethSessionOpen port certificate => Sys2Proof.Machine.execEthSessionOpen port certificate s
  | .walecStop cause => Sys2Proof.Machine.execWalecStop cause s
  | .lockstepMismatch odd => Sys2Proof.Machine.execLockstepMismatch odd s
  | .watchdogExpiry => Sys2Proof.Machine.execWatchdogExpiry s
  | .walecReady => Sys2Proof.Machine.execWalecReady s
  | .walecTimeout => Sys2Proof.Machine.execWalecTimeout s
  | .wardrobeReset => Sys2Proof.Machine.execWardrobeReset s
  | .tripleExit => Sys2Proof.Machine.execTripleExit s
  | .walecBeat => Sys2Proof.Machine.execWalecBeat s
  | .unitSelfTest u pass => Sys2Proof.Machine.execUnitSelfTest u pass s
  | .sramRepair domain row word => Sys2Proof.Machine.execSramRepair domain row word s
  | .autoMigrate sites => Sys2Proof.Machine.execAutoMigrate sites s
  | .autoRestore link => Sys2Proof.Machine.execAutoRestore link s
  | .geomDedReload file => Sys2Proof.Machine.execGeomDedReload file s
  | .stressUpdate => Sys2Proof.Machine.execStressUpdate s
  | .ledgerPersist => Sys2Proof.Machine.execLedgerPersist s
  | .outagePersist => Sys2Proof.Machine.execOutagePersist s
  | .archiveSegment => Sys2Proof.Machine.execArchiveSegment s
  | .bureauSecondSummary => Sys2Proof.Machine.execBureauSecondSummary s
  | .benchScheduleAction entry => Sys2Proof.Machine.execBenchScheduleAction entry s
  | .scheduleMissed entry => Sys2Proof.Machine.execScheduleMissed entry s
  | .benchExitReady => Sys2Proof.Machine.execBenchExitReady s
  | .benchExitTimeout => Sys2Proof.Machine.execBenchExitTimeout s
  | .outageMs => Sys2Proof.Machine.execOutageMs s
  | .servoSample ptp ptm => Sys2Proof.Machine.execServoSample ptp ptm s
  | .ptmDialogue p => Sys2Proof.Machine.execPtmDialogue p s
  | .ptmResponsed p masterTime propDelay => Sys2Proof.Machine.execPtmResponsed p masterTime propDelay s
  | .eventSlotFire slot => Sys2Proof.Machine.execEventSlotFire slot s
  | .sync m => Sys2Proof.Machine.execSync m s
  | .followUp m => Sys2Proof.Machine.execFollowUp m s
  | .delayResp m => Sys2Proof.Machine.execDelayResp m s
  | .pdelayResp m => Sys2Proof.Machine.execPdelayResp m s
  | .announce m => Sys2Proof.Machine.execAnnounce m s
  | .delayReq m => Sys2Proof.Machine.execDelayReq m s
  | .announceReceiptTimeout port => Sys2Proof.Machine.execAnnounceReceiptTimeout port s
  | .syncTransmit port => Sys2Proof.Machine.execSyncTransmit port s
  | .frameRelay port kind frame residence full => Sys2Proof.Machine.execFrameRelay port kind frame residence full s
  | .sensorConversion n raw => Sys2Proof.Machine.execSensorConversion n raw s
  | .pairDisagree n => Sys2Proof.Machine.execPairDisagree n s
  | .stepperEval => Sys2Proof.Machine.execStepperEval s
  | .shutdownNorIdle waitedUs eraseSuspended => Sys2Proof.Machine.execShutdownNorIdle waitedUs eraseSuspended s
  | .shutdownNorTimeout => Sys2Proof.Machine.execShutdownNorTimeout s
  | .shutdownRecordWritten => Sys2Proof.Machine.execShutdownRecordWritten s
  | .shutdownTripTimeout => Sys2Proof.Machine.execShutdownTripTimeout s
  | .missingPulse r => Sys2Proof.Machine.execMissingPulse r s
  | .windowTrip r => Sys2Proof.Machine.execWindowTrip r s
  | .refQualified r => Sys2Proof.Machine.execRefQualified r s
  | .refRestart gapNs => Sys2Proof.Machine.execRefRestart gapNs s
  | .holdExpiry => Sys2Proof.Machine.execHoldExpiry s
  | .pllLockLoss pll => Sys2Proof.Machine.execPllLockLoss pll s
  | .powerOnReset cause => Sys2Proof.Machine.execPowerOnReset cause s
  | .warmReset cause => Sys2Proof.Machine.execWarmReset cause s
  | .supplyExcursion rail => Sys2Proof.Machine.execSupplyExcursion rail s
  | .supplyRecovered => Sys2Proof.Machine.execSupplyRecovered s
  | .trialConfirm => Sys2Proof.Machine.execTrialConfirm s
  | .domainSwitchOn d => Sys2Proof.Machine.execDomainSwitchOn d s
  | .domainReady d => Sys2Proof.Machine.execDomainReady d s
  | .domainSwitchOff d => Sys2Proof.Machine.execDomainSwitchOff d s
  | .domainFault d step => Sys2Proof.Machine.execDomainFault d step s
  | .ioutPoll readings => Sys2Proof.Machine.execIoutPoll readings s
  | .statusPoll readings => Sys2Proof.Machine.execStatusPoll readings s
  | .smbalert response status => Sys2Proof.Machine.execSmbalert response status s
  | .alertStuckPoll status => Sys2Proof.Machine.execAlertStuckPoll status s
  | .powerGood row => Sys2Proof.Machine.execPowerGood row s
  | .pgoodTimeout row => Sys2Proof.Machine.execPgoodTimeout row s
  | .tileSupplyOff row => Sys2Proof.Machine.execTileSupplyOff row s
  | .supplyRetry row => Sys2Proof.Machine.execSupplyRetry row s
  | .rowShed => Sys2Proof.Machine.execRowShed s
  | .rowRestored row => Sys2Proof.Machine.execRowRestored row s
  | .d3hotExit p => Sys2Proof.Machine.execD3hotExit p s
  | .porstRelease tileCfg refPri => Sys2Proof.Machine.execPorstRelease tileCfg refPri s
  | .perstRelease p => Sys2Proof.Machine.execPerstRelease p s
  | .smbalertRelease => Sys2Proof.Machine.execSmbalertRelease s
  | .ethLinkDown port => Sys2Proof.Machine.execEthLinkDown port s
  | .ethLinkUp port => Sys2Proof.Machine.execEthLinkUp port s
  | .ethFrameReceive port kind frame => Sys2Proof.Machine.execEthFrameReceive port kind frame s
  | .delayReqTransmit port => Sys2Proof.Machine.execDelayReqTransmit port s
  | .announceTransmit port => Sys2Proof.Machine.execAnnounceTransmit port s

end Sys2Proof.Machine
end

