-- ==== Sys2Proof/Machine/Step.lean ====
section
/-! DEFINITION. One step: the command at the front of the queue, or one CK_AON edge when none waits (log 1). -/

namespace Sys2Proof.Machine

/-- Take the command at the front and run it. With no command waiting the time bases advance by one CK_AON edge, and a reset
that ended without a reference takes one that has qualified since (R552). -/
def step (s : State) : Host.Outcome State Fault Refusal :=
  match s.pending with
  | [] => done (lateSelection (clockEdge s))
  | c :: r => exec c { s with pending := r }

/-- `s` with the command that a word spells put at the front of its queue. -/
def State.withFetchWord (s : State) (nbits w : Nat) : State :=
  match decodeTableWord nbits w with
  | none => s
  | some c => { s with pending := c :: s.pending }

end Sys2Proof.Machine
end

