-- ==== Sys2Proof/Safety.lean ====
section
/-! DEFINITION. The terms in which claims about the 9610 are stated: what it is for a command to lead to a state, the
invariants of the machine, and the parts of the state that a command may leave alone. -/

namespace Sys2Proof.Machine

/-- The command answers a next state, and that state has the property. -/
def Leads (c : Instr) (s : State) (q : State → Prop) : Prop := ∃ t, exec c s = .next t ∧ q t

/-! ### Invariants -/

/-- ATTENTION shows exactly the blocks that have a sticky bit set (R674). -/
abbrev AttentionTrue (s : State) : Prop := s.hif.attention = attentionOf s

/-- Device DRAM is in its canonical form: addresses rising, no entry equal to what an unlisted address reads as (R405). -/
abbrev DramCanonical (s : State) : Prop := Memory.wf s.dmc.mem = true

/-- After `prev`, the entry `e` takes the next SEQ and the CHAIN over `prev`'s CHAIN (R509); a COLD_START opens a log (R513). -/
def Entry.precedes (prev e : Entry) : Bool := e.event == 0xF2 || (e.seq == prev.seq + 1 && e.chain == chainAfter prev.chain e)

/-- Each entry of the list follows the one before it. -/
def linkedEntries : Entry → List Entry → Bool
  | _, [] => true
  | p, e :: r => p.precedes e && linkedEntries e r

/-- The ring is one chain, and the Bureau holds the SEQ and CHAIN that its next entry takes (R509). -/
def BureauState.chained (b : BureauState) : Bool :=
  match b.ring with
  | [] => b.chain == b.chainBefore
  | e :: r => (e.event == 0xF2 || e.chain == chainAfter b.chainBefore e) && linkedEntries e r
      && (b.ring.getLast?.all fun l => b.nextSeq == l.seq + 1 && b.chain == l.chain)

/-- No entry of the Bureau's ring is lost, reordered or altered (R509). -/
abbrev BureauChained (s : State) : Prop := s.bureau.chained = true

/-! ### Device DRAM -/

/-- Every byte of device DRAM reads as before. -/
def SameDram (s t : State) : Prop := ∀ a, readByte t.dmc.mem a = readByte s.dmc.mem a

/-- Every byte of device DRAM outside the `n` bytes at `b` reads as before. -/
def SameDramBut (b n : Nat) (s t : State) : Prop := ∀ a, a < b ∨ b + n ≤ a → readByte t.dmc.mem a = readByte s.dmc.mem a

/-! ### The parts of the state -/

/-- A part of the state. The time bases stand apart from the timing block, device DRAM from its controller, and the host
interface is five parts: its ports with ATTENTION, its drawers, its queues, the leases, and HIF_HEALTH. -/
inductive Part where
  | cmp | geom | ray | sig | tim | bases | eth | out | tlk | dec | enc | blt | dfl | dmc | dram | ports | drawers | queues | owners
  | health | walec | bureau | clk | pwr | thm | spr | bot | pins | sent | drawn
  deriving DecidableEq, Repr

/-- The part is the same in both states. -/
def Part.same (s t : State) : Part → Prop
  | .cmp => t.cmp = s.cmp
  | .geom => t.geom = s.geom
  | .ray => t.ray = s.ray
  | .sig => t.sig = s.sig
  | .tim => { t.tim with bases := [] } = { s.tim with bases := [] }
  | .bases => t.tim.bases = s.tim.bases
  | .eth => t.eth = s.eth
  | .out => t.out = s.out
  | .tlk => t.tlk = s.tlk
  | .dec => t.dec = s.dec
  | .enc => t.enc = s.enc
  | .blt => t.blt = s.blt
  | .dfl => t.dfl = s.dfl
  | .dmc => { t.dmc with mem := [], poison := [] } = { s.dmc with mem := [], poison := [] }
  | .dram => t.dmc.mem = s.dmc.mem ∧ t.dmc.poison = s.dmc.poison
  | .ports => t.hif.portA = s.hif.portA ∧ t.hif.portB = s.hif.portB ∧ t.hif.attention = s.hif.attention
  | .drawers => t.hif.drawers = s.hif.drawers
  | .queues => t.hif.queues = s.hif.queues
  | .owners => t.hif.own = s.hif.own ∧ t.hif.leaseMs = s.hif.leaseMs
  | .health => t.hif.beat = s.hif.beat ∧ t.hif.restarts = s.hif.restarts ∧ t.hif.walec = s.hif.walec ∧ t.hif.powerDown = s.hif.powerDown
  | .walec => t.walec = s.walec
  | .bureau => t.bureau = s.bureau
  | .clk => t.clk = s.clk
  | .pwr => t.pwr = s.pwr
  | .thm => t.thm = s.thm
  | .spr => t.spr = s.spr
  | .bot => t.bot = s.bot
  | .pins => t.pins = s.pins
  | .sent => t.sent = s.sent
  | .drawn => t.drawn = s.drawn

/-- Every part but the listed ones is the same. -/
def SameBut (l : List Part) (s t : State) : Prop := ∀ p, p ∉ l → p.same s t

/-! ### Service requests -/

/-- The request that the row of a verb runs next on a channel, and the state from which the verb's own checks begin: the oldest
request taken (R491), which is not refused for Bench or a planned power-down that came since (R492, R498), or the message that an open
Ethernet session brings while no request waits, past the checks 1 to 5 of R492 (R506). A session's request that had to wait is taken as
the others are: its channel then names no message. -/
def Due (v : Verb) (service verb : Nat) (ch : Channel) (r : Request) (s u : State) : Prop :=
  s.hif.walec = .running ∧ r.service = service ∧ r.verb = verb ∧
  match ch with
  | .eth k (b :: msg') =>
    let msg := b :: msg'
    (Tbl.find? k s.eth.sessions).isSome = true ∧ s.walec.taken = [] ∧ r = requestOf s ch (ethMessage msg) ∧
      generalStatus (some v) (ethMessage msg) r s = .ok ∧ u = s
  | _ => r.ch = ch ∧ ∃ rest, s.walec.taken = r :: rest ∧ u = { s with walec := { s.walec with taken := rest } } ∧ notReadyNow v r u = false

/-- The answer of a request is on its way on its channel: for a drawer it waits for its delivery (R458), to a session that is still open it
is sent (R506), and a SERVICE queue is past the entry (R466). `w` is the state as the verb left it. -/
def Answered (r : Request) (c : Status) (body : Bytes) (w t : State) : Prop :=
  match r.ch with
  | .drawer _ _ => ({ ch := r.ch, tagGen := r.tagGen, status := c.code, body } : Answer) ∈ t.walec.answers
  | .eth k _ => Tbl.find? k w.eth.sessions = some r.bind →
      .ethReply k (leBytes 4 (16 + body.length) ++ responseHeader c.code false false r.tagGen body.length ++ body) ∈ t.sent
  | .queue q => (queueOf t q).fetched = (queueOf w q).fetched.drop 1

/-- What sending an answer may change: a queue's answer goes to memory through its rings. -/
def answerParts : Channel → List Part
  | .drawer _ _ => [.walec, .ports, .sent]
  | .eth _ _ => [.ports, .sent]
  | .queue _ => [.queues, .dmc, .dram, .ports, .bureau, .pins, .sent]

/-- The command runs a request's verb: the verb leaves a state with the property `q`, and the next state is that one but for the answer with its
status and body. -/
def Runs (c : Instr) (r : Request) (s : State) (status : Status) (body : Bytes) (q : State → Prop) : Prop :=
  Leads c s fun t => ∃ w, q w ∧ SameBut (answerParts r.ch) w t ∧ Answered r (shownStatus r status w) body w t

/-- The PUT rows with their SERVICE, VERB and verb (R495, R496). -/
def putRows (ch : Channel) : List (Instr × Nat × Nat × Verb) :=
  [(.devicePut ch, 0x01, 0x02, devicePutVerb), (.modePut ch, 0x02, 0x04, modePutVerb), (.scenePut ch, 0x04, 0x01, scenePutVerb),
   (.witnessPut ch, 0x06, 0x01, witnessPutVerb), (.mapPut ch, 0x07, 0x03, mapPutVerb), (.stressPut ch, 0x09, 0x04, stressPutVerb),
   (.timePut ch, 0x0B, 0x01, timePutVerb), (.thermPut ch, 0x0C, 0x01, thermPutVerb), (.sparePut ch, 0x0D, 0x03, sparePutVerb),
   (.rightsPut ch, 0x0F, 0x03, rightsPutVerb)]

/-- The GET rows with their SERVICE and VERB (R495, R496). -/
def getRows (ch : Channel) : List (Instr × Nat × Nat) :=
  [(.deviceGet ch, 0x01, 0x03), (.modeGet ch, 0x02, 0x05), (.sceneGet ch, 0x04, 0x02), (.witnessGet ch, 0x06, 0x02), (.mapGet ch, 0x07, 0x04),
   (.stressGet ch, 0x09, 0x05), (.timeGet ch, 0x0B, 0x02), (.thermGet ch, 0x0C, 0x02), (.spareGet ch, 0x0D, 0x04), (.rightsGet ch, 0x0F, 0x04)]

/-! ### What each command may write -/

/-- The parts that each command may write. Every command may also end with outputs sent (log 11) and ATTENTION set. -/
def mayWrite : Instr → List Part
  | .d3hotEntry .. | .portLinkUp .. | .d3hotExit .. | .perstRelease .. | .ethFrameReceive .. =>
    [.ports, .sent]
  | .clusterResetComplete .. | .witnessPictureStart =>
    [.ray, .ports, .sent]
  | .capture .. | .benchExitReady | .ptmResponsed .. =>
    [.tim, .ports, .sent]
  | .ethSessionOpen .. | .sync .. | .followUp .. | .syncTransmit .. | .frameRelay .. | .ethLinkUp .. | .delayReqTransmit ..
  | .announceTransmit .. =>
    [.eth, .ports, .sent]
  | .trainFrame .. =>
    [.tlk, .ports, .sent]
  | .rowBudget .. | .contextMoveComplete .. | .conversionStart .. =>
    [.dec, .ports, .sent]
  | .flattenRestart .. =>
    [.blt, .ports, .sent]
  | .refreshTick .. | .refreshIssue .. | .ceHourEval =>
    [.dmc, .ports, .sent]
  | .sqDoorbell .. | .cqDoorbell .. =>
    [.ports, .queues, .sent]
  | .walecBeat =>
    [.ports, .health, .sent]
  | .switchRef .. | .pllLockLoss .. =>
    [.ports, .clk, .sent]
  | .domainSwitchOn .. | .ioutPoll .. | .statusPoll .. | .powerGood .. | .smbalertRelease =>
    [.ports, .pwr, .sent]
  | .delayReq .. =>
    [.ports, .sent, .drawn]
  | .ptmDialogue .. | .eventSlotFire .. =>
    [.tim, .bases, .ports, .sent]
  | .statusFrame .. =>
    [.tim, .tlk, .ports, .sent]
  | .pairWaitExpiry .. =>
    [.bases, .dec, .ports, .sent]
  | .rtcpSenderReport =>
    [.bases, .enc, .ports, .sent]
  | .selfRefreshRetry .. =>
    [.bases, .dmc, .ports, .sent]
  | .coalesceTimeout .. =>
    [.bases, .ports, .queues, .sent]
  | .supplyRetry .. =>
    [.bases, .ports, .pwr, .sent]
  | .outagePersist =>
    [.bases, .ports, .spr, .sent]
  | .delayResp .. | .pdelayResp .. =>
    [.eth, .ports, .sent, .drawn]
  | .encoderFault =>
    [.enc, .ports, .bureau, .sent]
  | .encodeStart =>
    [.enc, .ports, .sent, .drawn]
  | .dramErrorSummary =>
    [.dmc, .ports, .bureau, .sent]
  | .kick .. | .abort .. | .ack .. | .walecResponse .. =>
    [.ports, .drawers, .walec, .sent]
  | .windowTrip .. =>
    [.ports, .bureau, .clk, .sent]
  | .stepperEval =>
    [.ports, .bureau, .thm, .sent]
  | .geomDedReload .. =>
    [.geom, .tim, .ports, .bot, .sent]
  | .announceReceiptTimeout .. | .ethLinkDown .. =>
    [.tim, .bases, .eth, .ports, .sent]
  | .cwLockLoss .. | .trainingTimeout .. | .failedRetrain .. =>
    [.tim, .bases, .tlk, .ports, .sent]
  | .scheduleMissed .. =>
    [.tim, .bases, .ports, .bureau, .sent]
  | .announce .. =>
    [.bases, .eth, .ports, .sent, .drawn]
  | .ledgerPersist =>
    [.bases, .out, .dfl, .ports, .sent]
  | .statusStale .. =>
    [.bases, .tlk, .ports, .bureau, .sent]
  | .archiveSegment =>
    [.bases, .dfl, .ports, .bureau, .sent]
  | .rowShed | .rowRestored .. =>
    [.bases, .ports, .bureau, .pwr, .sent]
  | .pairDisagree .. =>
    [.bases, .ports, .bureau, .thm, .sent]
  | .outageMs =>
    [.bases, .ports, .bureau, .spr, .sent]
  | .trialConfirm =>
    [.bases, .ports, .bureau, .bot, .sent]
  | .shutdownTripTimeout =>
    [.bases, .ports, .pwr, .pins, .sent]
  | .pcieLinkDown .. | .perst .. | .functionLevelReset .. =>
    [.ports, .drawers, .queues, .walec, .sent]
  | .renew .. | .claim .. | .release .. =>
    [.ports, .queues, .owners, .bureau, .sent]
  | .smbalert .. | .alertStuckPoll .. =>
    [.ports, .bureau, .pwr, .pins, .sent]
  | .shutdownRecordWritten =>
    [.ports, .pwr, .thm, .pins, .sent]
  | .witnessPictureComplete .. =>
    [.cmp, .ray, .enc, .dmc, .ports, .sent]
  | .identFrame .. =>
    [.geom, .tim, .out, .tlk, .ports, .sent]
  | .spareBind .. | .unboundClusterFault .. | .sramRepair .. =>
    [.ray, .ports, .bureau, .pwr, .spr, .sent]
  | .servoSample .. =>
    [.tim, .bases, .eth, .ports, .sent, .drawn]
  | .tileSupplyOff .. =>
    [.tim, .bases, .tlk, .ports, .pwr, .sent]
  | .linkSecond =>
    [.tim, .tlk, .ports, .bureau, .pins, .sent]
  | .autoRestore .. =>
    [.bases, .tlk, .ports, .bureau, .spr, .sent]
  | .leaseExpiry .. =>
    [.bases, .ports, .queues, .owners, .bureau, .sent]
  | .walecTimeout =>
    [.bases, .ports, .walec, .bureau, .pins, .sent]
  | .tripleExit =>
    [.bases, .ports, .bureau, .pwr, .spr, .sent]
  | .pgoodTimeout .. =>
    [.bases, .ports, .bureau, .pwr, .pins, .sent]
  | .shutdownNorIdle .. | .shutdownNorTimeout =>
    [.bases, .ports, .pwr, .thm, .pins, .sent]
  | .decodePictureStart .. =>
    [.dec, .dmc, .ports, .queues, .bureau, .sent]
  | .dflJobStart .. =>
    [.dfl, .dmc, .ports, .queues, .bureau, .sent]
  | .retrainComplete .. | .dramRead .. | .dramWrite .. | .patrolScrub .. | .selfRefreshEntry .. | .bar2Read .. | .bar2Write .. =>
    [.dmc, .dram, .ports, .bureau, .pins, .sent]
  | .autoMigrate .. =>
    [.dmc, .ports, .bureau, .pwr, .spr, .sent]
  | .mr4Poll .. =>
    [.dmc, .ports, .thm, .pins, .sent, .drawn]
  | .botRecoveryWrite .. =>
    [.ports, .drawers, .health, .bureau, .bot, .sent]
  | .sensorConversion .. =>
    [.ports, .bureau, .thm, .pins, .sent, .drawn]
  | .unitSelfTest .. =>
    [.ray, .dec, .ports, .bureau, .pwr, .spr, .sent]
  | .benchScheduleAction .. =>
    [.tim, .bases, .ports, .bureau, .pwr, .spr, .sent]
  | .queueEntryFetch .. =>
    [.dmc, .dram, .ports, .queues, .bureau, .pins, .sent]
  | .holdExpiry =>
    [.dmc, .dram, .ports, .bureau, .clk, .pins, .sent]
  | .selfRefreshExit | .migrationChunk .. =>
    [.dmc, .dram, .ports, .bureau, .pwr, .pins, .sent]
  | .missingPulse .. =>
    [.ports, .drawers, .queues, .walec, .bureau, .clk, .sent]
  | .supplyRecovered =>
    [.ports, .health, .bureau, .pwr, .bot, .pins, .sent]
  | .conversionComplete .. =>
    [.cmp, .dec, .dmc, .dram, .ports, .bureau, .pins, .sent]
  | .serviceQueueFence .. =>
    [.cmp, .dmc, .dram, .ports, .queues, .bureau, .pins, .sent]
  | .bureauSecondSummary =>
    [.ray, .sig, .bases, .ports, .bureau, .pwr, .spr, .sent]
  | .stressUpdate =>
    [.tim, .bases, .out, .dram, .ports, .bureau, .sent, .drawn]
  | .pictureComplete .. =>
    [.dec, .dmc, .dram, .ports, .queues, .bureau, .pins, .sent]
  | .coreFault .. =>
    [.dec, .ports, .queues, .bureau, .pwr, .spr, .pins, .sent]
  | .encodeComplete .. =>
    [.enc, .dmc, .dram, .ports, .queues, .bureau, .pins, .sent]
  | .dramInit .. =>
    [.dmc, .dram, .ports, .bureau, .clk, .pwr, .pins, .sent]
  | .bltCommandEnd .. | .serviceQueueCommit .. =>
    [.cmp, .blt, .dmc, .dram, .ports, .queues, .bureau, .pins, .sent]
  | .refRestart .. =>
    [.tim, .bases, .eth, .tlk, .ports, .bureau, .clk, .spr, .sent]
  | .picWatchdog .. =>
    [.bases, .dec, .dmc, .dram, .ports, .queues, .bureau, .pins, .sent]
  | .corePictureTimeout .. =>
    [.bases, .dec, .ports, .queues, .bureau, .pwr, .spr, .pins, .sent]
  | .deviceStatus .. | .deviceGet .. | .queueReset .. | .queueAttach .. | .modeGet .. | .layerResult .. | .layerQuery ..
  | .sceneGet .. | .witnessGet .. | .mapGet .. | .stressReport .. | .stressGet .. | .sigQuery .. | .timeGet .. | .thermGet ..
  | .spareGet .. | .spareReport .. | .logRead .. | .logFetch .. | .logStatus .. | .ethBind .. | .rightsGet .. | .updateStatus .. =>
    [.eth, .dmc, .dram, .ports, .queues, .walec, .bureau, .pins, .sent]
  | .bltCommandIssue .. | .bltEngineFault =>
    [.cmp, .blt, .dmc, .dram, .ports, .queues, .bureau, .pins, .sent, .drawn]
  | .dflJobEnd .. | .dflEngineFault =>
    [.cmp, .dfl, .dmc, .dram, .ports, .queues, .bureau, .pins, .sent, .drawn]
  | .loadGeom .. =>
    [.geom, .eth, .dmc, .dram, .ports, .queues, .walec, .bureau, .pins, .sent]
  | .porstRelease .. =>
    [.ray, .tim, .tlk, .ports, .bureau, .clk, .pwr, .bot, .pins, .sent]
  | .benchExitTimeout =>
    [.tim, .bases, .dmc, .ports, .walec, .bureau, .pwr, .spr, .pins, .sent]
  | .modeSchedule .. | .modePut .. | .scenePut .. | .mapActivate .. | .activateGeom .. | .activateCurves .. | .sigRegion ..
  | .sigRelease .. | .timeEventSet .. | .timeEventCancel .. | .timeEventQuery .. =>
    [.tim, .eth, .dmc, .dram, .ports, .queues, .walec, .bureau, .pins, .sent]
  | .mapPut .. | .stressResolve .. | .stressPut .. =>
    [.eth, .out, .dmc, .dram, .ports, .queues, .walec, .bureau, .pins, .sent]
  | .deviceDark .. | .deviceDarkResume .. | .restoreLink .. =>
    [.eth, .tlk, .dmc, .dram, .ports, .queues, .walec, .bureau, .pins, .sent]
  | .witnessPut .. =>
    [.eth, .enc, .dmc, .dram, .ports, .queues, .walec, .bureau, .pins, .sent]
  | .logClear .. | .logArchive .. =>
    [.eth, .dfl, .dmc, .dram, .ports, .queues, .walec, .bureau, .pins, .sent]
  | .drawerClass .. =>
    [.eth, .dmc, .dram, .ports, .drawers, .queues, .walec, .bureau, .pins, .sent]
  | .rightsPut .. =>
    [.eth, .dmc, .dram, .ports, .queues, .owners, .walec, .bureau, .pins, .sent]
  | .thermAck .. =>
    [.eth, .dmc, .dram, .ports, .queues, .walec, .bureau, .thm, .pins, .sent]
  | .layerCommit .. =>
    [.cmp, .eth, .blt, .dmc, .dram, .ports, .queues, .walec, .bureau, .pins, .sent]
  | .loadCurves .. =>
    [.geom, .eth, .out, .dmc, .dram, .ports, .queues, .walec, .bureau, .pins, .sent]
  | .clusterFault .. | .laneTimeout .. | .shadowCheck .. =>
    [.ray, .sig, .out, .tlk, .dmc, .ports, .bureau, .pwr, .spr, .pins, .sent]
  | .timePut .. =>
    [.tim, .bases, .eth, .dmc, .dram, .ports, .queues, .walec, .bureau, .pins, .sent]
  | .modelLoad .. =>
    [.tim, .eth, .out, .dmc, .dram, .ports, .queues, .walec, .bureau, .pins, .sent]
  | .benchLoad .. =>
    [.tim, .eth, .dmc, .dram, .ports, .queues, .walec, .bureau, .bot, .pins, .sent]
  | .thermPut .. =>
    [.eth, .out, .dmc, .dram, .ports, .queues, .walec, .bureau, .thm, .pins, .sent]
  | .updateStage .. =>
    [.eth, .out, .dmc, .dram, .ports, .queues, .walec, .bureau, .bot, .pins, .sent]
  | .devicePut .. =>
    [.eth, .tlk, .blt, .dmc, .dram, .ports, .queues, .walec, .bureau, .pins, .sent]
  | .queueCreate .. | .queueDelete .. =>
    [.eth, .blt, .dfl, .dmc, .dram, .ports, .queues, .walec, .bureau, .pins, .sent]
  | .migrate .. =>
    [.eth, .dmc, .dram, .ports, .queues, .walec, .bureau, .pwr, .spr, .pins, .sent]
  | .mapLoad .. =>
    [.geom, .eth, .out, .dfl, .dmc, .dram, .ports, .queues, .walec, .bureau, .pins, .sent]
  | .modeSet .. =>
    [.tim, .eth, .dmc, .dram, .ports, .queues, .walec, .bureau, .pwr, .spr, .pins, .sent]
  | .sparePut .. =>
    [.ray, .eth, .dec, .dmc, .dram, .ports, .queues, .walec, .bureau, .pwr, .spr, .pins, .sent]
  | .streamClose .. =>
    [.eth, .dec, .blt, .dfl, .dmc, .dram, .ports, .queues, .walec, .bureau, .pwr, .pins, .sent]
  | .domainSwitchOff .. =>
    [.geom, .ray, .tim, .bases, .eth, .tlk, .dec, .enc, .blt, .dfl, .ports, .clk, .pwr, .sent]
  | .streamOpen .. =>
    [.eth, .dec, .blt, .dfl, .dmc, .dram, .ports, .queues, .walec, .bureau, .pwr, .pins, .sent, .drawn]
  | .walecTakesRequest .. | .updateSwitch .. | .walecStop .. =>
    [.geom, .eth, .out, .dmc, .dram, .ports, .drawers, .queues, .health, .walec, .bureau, .bot, .pins, .sent, .drawn]
  | .rasterStart =>
    [.geom, .ray, .tim, .bases, .out, .dfl, .dmc, .ports, .walec, .bureau, .pwr, .thm, .spr, .pins, .sent, .drawn]
  | .watchdogExpiry =>
    [.geom, .eth, .out, .dmc, .dram, .ports, .drawers, .queues, .health, .walec, .bureau, .pwr, .bot, .pins, .sent, .drawn]
  | .domainFault .. =>
    [.geom, .ray, .tim, .bases, .eth, .tlk, .dec, .enc, .blt, .dfl, .ports, .queues, .bureau, .pwr, .spr, .pins, .sent]
  | .domainReady .. =>
    [.geom, .ray, .tim, .tlk, .dec, .enc, .blt, .dfl, .dmc, .dram, .ports, .bureau, .clk, .pwr, .spr, .pins, .sent]
  | .lockstepMismatch .. =>
    [.geom, .eth, .out, .dmc, .dram, .ports, .drawers, .queues, .health, .walec, .bureau, .pwr, .spr, .bot, .pins, .sent, .drawn]
  | .configurationConfirm =>
    [.ray, .tim, .eth, .out, .tlk, .dec, .enc, .blt, .dmc, .ports, .owners, .walec, .bureau, .pwr, .thm, .spr, .pins, .sent]
  | .powerDown .. =>
    [.cmp, .ray, .tim, .bases, .eth, .out, .tlk, .dfl, .dmc, .dram, .ports, .queues, .health, .walec, .bureau, .pwr, .spr, .pins, .sent]
  | .frameTick | .startLatch =>
    [.cmp, .geom, .ray, .sig, .tim, .bases, .out, .tlk, .dec, .blt, .dmc, .dram, .ports, .queues, .walec, .bureau, .pwr, .spr, .pins, .sent]
  | .lineStart .. =>
    [.cmp, .geom, .ray, .sig, .tim, .bases, .out, .tlk, .dec, .blt, .dmc, .dram, .ports, .queues, .walec, .bureau, .pwr, .thm, .spr, .pins,
     .sent]
  | .walecReady =>
    [.ray, .tim, .bases, .eth, .out, .tlk, .dec, .enc, .blt, .dfl, .dmc, .dram, .ports, .drawers, .owners, .health, .walec, .bureau, .pwr,
     .thm, .spr, .bot, .sent, .drawn]
  | .warm .. | .wardrobeReset | .warmReset .. | .supplyExcursion .. =>
    [.cmp, .geom, .ray, .tim, .bases, .eth, .out, .tlk, .dec, .enc, .blt, .dfl, .dmc, .dram, .ports, .drawers, .queues, .health, .walec,
     .bureau, .pwr, .spr, .bot, .pins, .sent, .drawn]
  | .refQualified .. =>
    [.cmp, .geom, .ray, .tim, .bases, .eth, .out, .tlk, .dec, .enc, .blt, .dfl, .dmc, .dram, .ports, .drawers, .queues, .health, .walec,
     .bureau, .clk, .pwr, .spr, .bot, .pins, .sent, .drawn]
  | .serviceQueueRequest .. =>
    [.cmp, .geom, .ray, .tim, .bases, .eth, .out, .tlk, .dec, .enc, .blt, .dfl, .dmc, .dram, .ports, .drawers, .queues, .owners, .health,
     .walec, .bureau, .pwr, .thm, .spr, .bot, .pins, .sent, .drawn]
  | .registerWrite .. | .cold .. | .powerOnReset .. =>
    [.cmp, .geom, .ray, .sig, .tim, .bases, .eth, .out, .tlk, .dec, .enc, .blt, .dfl, .dmc, .dram, .ports, .drawers, .queues, .owners,
     .health, .walec, .bureau, .clk, .pwr, .thm, .spr, .bot, .pins, .sent, .drawn]

end Sys2Proof.Machine
end

