-- ==== Sys2Proof/Certificates/Slice0/Obligations.lean ====
section
/-! DEFINITION. The statements for the provers: the rules of spec/ family by family, what each command changes and what it
leaves alone, where each command completes, and the invariants that every step keeps. -/

open Sys2Proof Sys2Proof.Machine

/-! ### The machine -/

/-- A step takes the command at the front of the queue. -/
def Obligations.StepRunsFrontCommand : Prop :=
  ∀ (c : Instr) (r : List Instr) (s : State), step { s with pending := c :: r } = exec c { s with pending := r }

/-- With no command waiting, a step is one CK_AON edge and the late selection of a reference (R518, R552; the model's choice, log 1). -/
def Obligations.IdleStepIsOneClockEdge : Prop :=
  ∀ s : State, s.pending = [] → AttentionTrue s → s.clk.chosen = true →
    ∃ t, step s = .next t ∧ SameBut [.bases] s t ∧
      ∀ n < 4, baseOf t n = if clocked s then (baseOf s n).after 1 else baseOf s n

/-- Every command answers a next state, whatever the state, and leaves the queue to the step. -/
def Obligations.EveryCommandAnswers : Prop :=
  ∀ (c : Instr) (s : State), Leads c s fun t => t.pending = s.pending

/-- After every step, ATTENTION shows exactly the blocks that have a W1C bit set (R674). -/
def Obligations.StepKeepsAttention : Prop :=
  ∀ s t : State, step s = .next t → AttentionTrue t

/-- Every step keeps device DRAM in its canonical form. -/
def Obligations.StepKeepsDramCanonical : Prop :=
  ∀ s t : State, DramCanonical s → step s = .next t → DramCanonical t

/-- Every step keeps the Bureau's ring one chain of consecutive entries (R509). -/
def Obligations.StepKeepsBureauChain : Prop :=
  ∀ s t : State, BureauChained s → step s = .next t → BureauChained t

/-- The three invariants hold at reset. -/
def Obligations.ResetMeetsInvariants : Prop :=
  AttentionTrue State.reset ∧ DramCanonical State.reset ∧ BureauChained State.reset

/-- What no command writes but those of its list stays as it was: the frame of all 228 commands. -/
def Obligations.FrameOfEveryCommand : Prop :=
  ∀ (c : Instr) (s t : State), exec c s = .next t → SameBut (mayWrite c) s t

/-! ### Shared operations -/

/-- An entry of the Bureau takes the next SEQ, the time and frame of the moment and the CHAIN over its predecessor's (R508, R509). -/
def Obligations.BureauEntry : Prop :=
  ∀ (o : Origin) (subject event detail : Nat) (s : State), s.bureau.ring.length < 65536 →
    ∃ e : Entry, (log o subject event detail s).bureau.ring = s.bureau.ring ++ [e] ∧
      e.seq = s.bureau.nextSeq ∧ e.time = tbNs s s.tim.bureauBase ∧ e.base = s.tim.bureauBase ∧ e.origin = o ∧ e.subject = subject % 256 ∧
      e.event = event ∧ e.frame = s.tim.frameCount ∧ e.detail = detail % 2 ^ 64 ∧ e.epoch = s.bureau.epoch ∧
      e.chain = crc32c (leBytes 4 s.bureau.chain ++ e.bytes) ∧
      (log o subject event detail s).bureau.nextSeq = s.bureau.nextSeq + 1 ∧ (log o subject event detail s).bureau.chain = e.chain ∧
      (log o subject event detail s).bureau.lost = s.bureau.lost

/-- A message goes out on an open port when its vector is not masked; otherwise its pending bit is set (R482). -/
def Obligations.MessageOrPendingBit : Prop :=
  ∀ (p : Port) (v : Nat) (s : State),
    (portOpen s p ∧ bit (Tbl.get (portOf s p).msix {} v).control 0 = false → message p v s = { s with sent := s.sent ++ [.msix p v] }) ∧
    (¬(portOpen s p ∧ bit (Tbl.get (portOf s p).msix {} v).control 0 = false) →
      v ∈ (portOf (message p v s) p).pba ∧ (message p v s).sent = s.sent)

/-- A completion goes to the slot at the tail of the ring, 64 bytes and no others, and the tail moves on; PHASE inverts with
each pass (R464). A stale stamp discards it and counts it (R471).
Where the rules leave a reading open, the model's own: log 26. -/
def Obligations.CompletionSlot : Prop :=
  ∀ (q slot gen record : Nat) (body : Bytes) (release : Nat) (s : State), (queueOf s q).state ≠ .off →
    (gen = (queueOf s q).gen →
      SameDramBut ((queueOf s q).cqAddr + 64 * (queueOf s q).cqTail) 64 s (complete q slot gen record body release s) ∧
      (queueOf (complete q slot gen record body release s) q).cqTail =
        (if (queueOf s q).cqTail + 1 = (queueOf s q).cqSize then 0 else (queueOf s q).cqTail + 1) ∧
      (queueOf (complete q slot gen record body release s) q).phase =
        (if (queueOf s q).cqTail + 1 = (queueOf s q).cqSize then !(queueOf s q).phase else (queueOf s q).phase) ∧
      ((queueOf s q).hostRing = false → extentOk s 6 ((queueOf s q).cqAddr + 64 * (queueOf s q).cqTail) 64 true = true →
        s.dmc.mode = .running → (∀ c, (dramChannel s c).retraining = false) →
        load (complete q slot gen record body release s) ((queueOf s q).cqAddr + 64 * (queueOf s q).cqTail) 64 =
          slotImage body (if (queueOf s q).kind = 5 then (queueOf s q).count else slot) gen record
            (queueOf s q).phase)) ∧
    (gen ≠ (queueOf s q).gen →
      SameDram s (complete q slot gen record body release s) ∧
      (queueOf (complete q slot gen record body release s) q).lateCpl = satAdd 8 (queueOf s q).lateCpl 1 ∧
      (queueOf (complete q slot gen record body release s) q).cqTail = (queueOf s q).cqTail)

/-! ### Host interface -/

/-- The port events of R448 and R666, each where its event can happen: the link's loss, PERST#, a function level reset, D3hot,
the release of PERST# and the link's coming up. The reach of a loss of the link, PERST# and a function level reset (R448): the port's drawers become IDLE with GEN increased
and both areas 0, its queues with rings in host memory become DETACHED, and the other port's drawers, the other queues and the leases stay.
Where the rules leave a reading open, the model's own: log 9, 115. -/
def Obligations.PortEvents : Prop :=
  (∀ p s, (portOf s p).linkUp → Leads (.pcieLinkDown p) s fun t =>
    (portOf t p).linkUp = false ∧ (portOf t p).resetSeen ∧ (portOf t p).bar2Base = (portOf s p).bar2Base ∧
    (portOf t p).msix = (portOf s p).msix ∧ (portOf t p).intVector = (portOf s p).intVector ∧ (portOf t p).lease = (portOf s p).lease) ∧
  (∀ p s, (portOf s p).perst = false → Leads (.perst p) s fun t =>
    (portOf t p).linkUp = false ∧ (portOf t p).perst ∧ (portOf t p).resetSeen ∧ (portOf t p).bar2Base = 0 ∧ (portOf t p).msix = [] ∧
    (portOf t p).intVector = 0 ∧ (portOf t p).lease = (portOf s p).lease) ∧
  (∀ p s, (portOf s p).linkUp → Leads (.functionLevelReset p) s fun t =>
    (portOf t p).linkUp ∧ (portOf t p).resetSeen ∧ (portOf t p).bar2Base = 0 ∧ (portOf t p).msix = [] ∧ (portOf t p).intVector = 0 ∧
    (portOf t p).lease = (portOf s p).lease) ∧
  (∀ p s, (portOf s p).linkUp → Leads (.d3hotEntry p) s fun t => (portOf t p).d3hot ∧ portOpen t p = false) ∧
  (∀ p s, (portOf s p).d3hot → Leads (.d3hotExit p) s fun t => (portOf t p).d3hot = false ∧ (portOf t p).linkUp = (portOf s p).linkUp) ∧
  (∀ p s, Leads (.perstRelease p) s fun t => (portOf t p).perst = false ∧ (portOf t p).linkUp = (portOf s p).linkUp) ∧
  (∀ p speed width s, s.pwr.porst = false → s.clk.chosen = true → portRef s p = true → (portOf s p).perst = false → (portOf s p).linkUp = false →
    Leads (.portLinkUp p speed width) s fun t => (portOf t p).linkUp ∧ (portOf t p).ready ∧ (portOf t p).speed = speed ∧ (portOf t p).width = width) ∧
  (∀ (p : Port) (c : Instr) (s : State), s.walec.classNext = [] →
    (c = .pcieLinkDown p ∧ (portOf s p).linkUp ∨ c = .perst p ∧ (portOf s p).perst = false ∨ c = .functionLevelReset p ∧ (portOf s p).linkUp) →
    Leads c s fun t =>
      (∀ n < 32, drawerOf t p n = { drawerOf s p n with state := .idle, gen := ((drawerOf s p n).gen + 1) % 16, req := [], resp := [],
                                                          aborts := 0, refused := 0, staleResp := 0 }) ∧
      (∀ n < 32, drawerOf t p.other n = drawerOf s p.other n) ∧
      (∀ q, queueOf t q = if (queueOf s q).port = p ∧ (queueOf s q).hostRing ∧ (queueOf s q).state = .active then (queueOf s q).detach
        else queueOf s q) ∧
      t.hif.own = s.hif.own ∧ (∀ r, (portOf t r).lease = (portOf s r).lease))

/-- What R458 makes of KICK, ABORT and ACK on an open port: each accepted, or discarded and counted. Walec takes a request, and its answer is delivered only to the request it answers; any other response is discarded and counted (R458). -/
def Obligations.Drawers : Prop :=
  (∀ (p : Port) (n v : Nat) (s : State), portOpen s p → n < 32 →
    (bits v 18 16 = 1 → (drawerOf s p n).state = .idle ∨ (drawerOf s p n).state = .response → bits v 15 12 = (drawerOf s p n).gen →
      bits v 15 0 = (drawerOf s p n).tagGen →
      (s.hif.walec = .running → Leads (.kick p n v) s fun t =>
        (drawerOf t p n).state = .request ∧ (drawerOf t p n).tag = bits v 11 0 ∧ (drawerOf t p n).gen = (drawerOf s p n).gen ∧
        (drawerOf t p n).req = (drawerOf s p n).req ∧ (drawerOf t p n).resp.take 16 = List.replicate 16 0) ∧
      (s.hif.walec ≠ .running → Leads (.kick p n v) s fun t =>
        (drawerOf t p n).state = .response ∧ (drawerOf t p n).resp = responseHeader 0x000B false true (drawerOf s p n).tagGen 0)) ∧
    (bits v 18 16 = 1 → ¬(((drawerOf s p n).state = .idle ∨ (drawerOf s p n).state = .response) ∧ bits v 15 12 = (drawerOf s p n).gen ∧
        bits v 15 0 = (drawerOf s p n).tagGen) →
      Leads (.kick p n v) s fun t => drawerOf t p n = { drawerOf s p n with refused := satAdd 16 (drawerOf s p n).refused 1 }) ∧
    (bits v 18 16 = 2 → s.walec.classNext = [] →
      Leads (.abort p n v) s fun t => drawerOf t p n =
        { drawerOf s p n with gen := ((drawerOf s p n).gen + 1) % 16, state := .idle, aborts := satAdd 8 (drawerOf s p n).aborts 1 }) ∧
    (bits v 18 16 = 4 → (drawerOf s p n).state = .response → bits v 15 12 = (drawerOf s p n).gen → s.walec.classNext = [] →
      Leads (.ack p n v) s fun t => drawerOf t p n = { drawerOf s p n with state := .idle }) ∧
    (bits v 18 16 = 4 → ¬((drawerOf s p n).state = .response ∧ bits v 15 12 = (drawerOf s p n).gen) →
      Leads (.ack p n v) s fun t => drawerOf t p n = { drawerOf s p n with refused := satAdd 16 (drawerOf s p n).refused 1 })) ∧
  (∀ p n s, s.hif.walec = .running → (drawerOf s p n).state = .request →
    Leads (.walecTakesRequest p n) s fun t => (drawerOf t p n).state = .busy ∧
      (generalStatus (verbOf (messageOf (drawerOf s p n).req).service (messageOf (drawerOf s p n).req).verb) (messageOf (drawerOf s p n).req)
          (requestOf s (.drawer p n) (messageOf (drawerOf s p n).req)) s = .ok →
        t.walec.taken = s.walec.taken ++ [requestOf s (.drawer p n) (messageOf (drawerOf s p n).req)])) ∧
  (∀ p n a s, (s.walec.answers.find? fun a => a.ch == .drawer p n) = some a →
    ((drawerOf s p n).state = .busy ∧ a.tagGen = (drawerOf s p n).gen * 4096 + (drawerOf s p n).tag →
      Leads (.walecResponse p n) s fun t => (drawerOf t p n).state = .response ∧
        (drawerOf t p n).resp = responseHeader a.status false false a.tagGen a.body.length ++ a.body.take 1008 ∧
        t.walec.answers = s.walec.answers.erase a) ∧
    (¬((drawerOf s p n).state = .busy ∧ a.tagGen = (drawerOf s p n).gen * 4096 + (drawerOf s p n).tag) →
      Leads (.walecResponse p n) s fun t =>
        drawerOf t p n = { drawerOf s p n with staleResp := satAdd 16 (drawerOf s p n).staleResp 1 } ∧ (portOf t p).staleRespSeen))

/-- A queue doorbell takes each field marked valid when R469 accepts it, and otherwise changes nothing but DB_REFUSED (R469). A doorbell that R469 names is refused: OFF, HELD or DETACHED, the other port, another GEN, an index not below the ring size,
SQ_TAIL backward past entries not yet fetched, CQ_HEAD past CQ_TAIL; and no other doorbell (R469). -/
def Obligations.QueueDoorbells : Prop :=
  (∀ (p : Port) (q v : Nat) (s : State) (c : Instr), portOpen s p → (c = .sqDoorbell p q v ∨ c = .cqDoorbell p q v) →
    (doorbellOk s p q v = true → Leads c s fun t =>
      (queueOf t q).sqTail = (if bit v 32 then bits v 15 0 else (queueOf s q).sqTail) ∧
      (queueOf t q).cqHead = (if bit v 33 then bits v 31 16 else (queueOf s q).cqHead) ∧
      (queueOf t q).dbRefused = (queueOf s q).dbRefused ∧ (queueOf t q).gen = (queueOf s q).gen ∧ (queueOf t q).fetched = (queueOf s q).fetched) ∧
    (doorbellOk s p q v = false → Leads c s fun t =>
      queueOf t q = { queueOf s q with dbRefused := satAdd 8 (queueOf s q).dbRefused 1 } ∧ (portOf t p).dbRefusedSeen)) ∧
  (∀ (p : Port) (q v : Nat) (s : State),
    doorbellOk s p q v = false ↔
      (queueState s q ≠ .active ∨ (queueOf s q).port ≠ p ∨ bits v 63 60 ≠ (queueOf s q).gen ∨
        (bit v 32 = true ∧ (queueOf s q).sqSize ≤ bits v 15 0) ∨ (bit v 33 = true ∧ (queueOf s q).cqSize ≤ bits v 31 16) ∨
        (bit v 32 = true ∧ (bits v 15 0 + (queueOf s q).sqSize - (queueOf s q).sqHead) % (queueOf s q).sqSize <
          ((queueOf s q).sqTail + (queueOf s q).sqSize - (queueOf s q).sqHead) % (queueOf s q).sqSize) ∨
        (bit v 33 = true ∧ unconsumed (queueOf s q) <
          (bits v 31 16 + (queueOf s q).cqSize - (queueOf s q).cqHead) % (queueOf s q).cqSize)))

/-- Entries are fetched in ring order, stamped with GEN, with their completion slots reserved, and only when those are free (R470,
R471). A fetch that fails detaches the queue: a host fetch without its data, or an entry in device DRAM that reads poisoned (R486). The coalescing timer sends the queue's message and is over (R483).
Where the rules leave a reading open, the model's own: log 10, 95. -/
def Obligations.QueueEntries : Prop :=
  (∀ (q : Nat) (s : State), queueState s q = .active → (queueOf s q).sqHead ≠ (queueOf s q).sqTail →
    (∀ h e, (nextEntry s (queueOf s q) h).1 = some e → ((queueOf s q).hostRing = true → portOpen s (queueOf s q).port) →
      ((queueOf s q).hostRing = false → s.dmc.mode = .running ∧ ∀ c, (dramChannel s c).retraining = false) →
      ((queueOf s q).kind ≠ 1 ∨ s.hif.walec = .running) → slotsFor (queueOf s q) e ≤ slotsFree (queueOf s q) →
      Leads (.queueEntryFetch q h) s fun t => queueOf t q = { queueOf s q with
        sqHead := ((queueOf s q).sqHead + 1) % (queueOf s q).sqSize, reserved := (queueOf s q).reserved + slotsFor (queueOf s q) e,
        fetched := (queueOf s q).fetched ++ [{ bytes := e, slot := (queueOf s q).sqHead, gen := (queueOf s q).gen,
                                               reserved := slotsFor (queueOf s q) e }] } ∧ SameDram s t) ∧
    (∀ h e, (nextEntry s (queueOf s q) h).1 = some e → slotsFree (queueOf s q) < slotsFor (queueOf s q) e →
      Leads (.queueEntryFetch q h) s fun t => queueOf t q = queueOf s q ∧ SameDram s t) ∧
    ((queueOf s q).hostRing = true → Leads (.queueEntryFetch q none) s fun t => queueOf t q = (queueOf s q).detach ∧ SameDram s t) ∧
    (∀ h, (queueOf s q).hostRing = false → s.dmc.mode = .running → (∀ c, (dramChannel s c).retraining = false) → (nextEntry s (queueOf s q) h).1 = none →
      Leads (.queueEntryFetch q h) s fun t => queueOf t q = (queueOf s q).detach ∧ SameDram s t)) ∧
  (∀ (q t0 : Nat) (s : State), (queueOf s q).since.head? = some t0 → (queueOf s q).coalUs ≠ 0 → 0 < unconsumed (queueOf s q) →
    Leads (.coalesceTimeout q) s fun t => (queueOf t q).since = [] ∧ (queueOf t q).cqTail = (queueOf s q).cqTail ∧ SameDram s t ∧
      (portOpen s (queueOf s q).port → bit (Tbl.get (portOf s (queueOf s q).port).msix {} (queueOf s q).vector).control 0 = false →
        .msix (queueOf s q).port (queueOf s q).vector ∈ t.sent))

/-- Leases: a renewal starts the port's timer at LEASE_MS, a claim of a class that nobody holds gives it to the port, a claim of a class
whose holder's lease runs is refused, a release gives the class up, and an expiry ends the timer and is shown (R473 to R476).
Where the rules leave a reading open, the model's own: log 10, 17, 43, 48, 95, 99. -/
def Obligations.LeaseCommands : Prop :=
  (∀ p v s, portOpen s p → bit v 8 = true → bits v 7 0 = 0 → s.hif.walec = .running →
    Leads (.renew p v) s fun t => (portOf t p).lease = some (tb0 s + s.hif.leaseMs * 1000000) ∧ t.hif.own = s.hif.own) ∧
  (∀ p k s, portOpen s p → k < 4 → (ownerOf s k).holder = none → s.hif.walec = .running →
    Leads (.claim p (2 ^ k)) s fun t => ownerOf t k = { ownerOf s k with holder := some p, expired := false } ∧
      (portOf t p).lease = some (tb0 s + s.hif.leaseMs * 1000000) ∧ (∀ j, j ≠ k → ownerOf t j = ownerOf s j)) ∧
  (∀ p k s, portOpen s p → k < 4 → (ownerOf s k).holder = some p.other → (ownerOf s k).expired = false → (portOf s p.other).lease.isSome →
    Leads (.claim p (2 ^ k)) s fun t => t.hif.own = s.hif.own ∧ (portOf t p).claimRefused ∧ t.hif.queues = s.hif.queues) ∧
  (∀ p k s, portOpen s p → k < 4 → (ownerOf s k).holder = some p →
    Leads (.release p (2 ^ (4 + k))) s fun t => ownerOf t k = { ownerOf s k with holder := none, expired := false } ∧
      (∀ j, j ≠ k → ownerOf t j = ownerOf s j)) ∧
  (∀ p u s, (portOf s p).lease = some u → s.hif.walec ≠ .restarting →
    Leads (.leaseExpiry p) s fun t => (portOf t p).lease = none ∧ (portOf t p).expiredSeen)

/-- With every channel in service, a BAR2 write puts its bytes at the window's address and nowhere else, and a read of the window returns them; an access that R454 discards or poisons
is counted (R453, R454). -/
def Obligations.Bar2Window : Prop :=
  (∀ p off data s, portOpen s p → (∀ c, (dramChannel s c).retraining = false) → windowWriteBad s p off data.length = false →
    Leads (.bar2Write p off data []) s fun t => load t (windowAddr s p off) data.length = data ∧
      SameDramBut (windowAddr s p off) data.length s t ∧ (portOf t p).bar2Poisoned = (portOf s p).bar2Poisoned) ∧
  (∀ p off data e s, portOpen s p → windowWriteBad s p off data.length = true →
    Leads (.bar2Write p off data e) s fun t => (portOf t p).bar2Poisoned = satAdd 16 (portOf s p).bar2Poisoned 1 ∧ (portOf t p).bar2Seen) ∧
  (∀ p off len s, portOpen s p → (∀ c, (dramChannel s c).retraining = false) → windowBad s p off len = false →
    accessError s 6 (windowAddr s p off) len false = none → poisoned s (windowAddr s p off) len = false → 0 < len →
    Leads (.bar2Read p off len []) s fun t => SameDram s t ∧ (portOf t p).bar2Poisoned = (portOf s p).bar2Poisoned ∧
      .readReply 6 (windowAddr s p off) (load s (windowAddr s p off) len) false ∈ t.sent) ∧
  (∀ p off len e s, portOpen s p → windowBad s p off len = true →
    Leads (.bar2Read p off len e) s fun t => SameDram s t ∧ (portOf t p).bar2Poisoned = satAdd 16 (portOf s p).bar2Poisoned 1 ∧
      .readReply 6 (windowAddr s p off) [] true ∈ t.sent)

/-- While Walec runs, its beat increments BEAT, modulo 65,536, and does nothing else (R488). -/
def Obligations.WalecBeat : Prop :=
  ∀ s : State, s.hif.walec = .running → AttentionTrue s →
    exec .walecBeat s = .next { s with hif := { s.hif with beat := wrapAdd 16 s.hif.beat 1 } }

/-! ### Device DRAM -/

/-- With the controller RUNNING and every channel in service, DRAM_WRITE puts its bytes at its address and leaves every other byte and every register (R412); DRAM_READ of an extent with no poison mark
returns the bytes and changes nothing (R416). An access of one line outside populated memory, or into a protected range whose record does not allow the requester, stores nothing, sets CMD_ERR_SEEN and puts its line,
requester and kind into DMC_ERR_LAST, and a read of that kind returns zeros, poisoned, to a requester whose domain is on (R406, R419, R420, R441, R444). A read of a marked line returns poisoned (R416). While its channel
is out of service a read waits, within the requester's limit (R410, R428). The access checks of R419 and R420: an extent outside populated memory is error 3, one that meets a protected range whose record does
not allow the requester is error 4, and the controller itself meets none.
Where the rules leave a reading open, the model's own: log 46, 47, 93. -/
def Obligations.DramAccesses : Prop :=
  (∀ r a data s, s.dmc.mode = .running → (∀ c, (dramChannel s c).retraining = false) → accessError s r a data.length true = none →
    Leads (.dramWrite r a data {}) s fun t => load t a data.length = data ∧ SameDramBut a data.length s t ∧ SameBut [.dram, .ports, .sent] s t) ∧
  (∀ r a len s, s.dmc.mode = .running → (∀ c, (dramChannel s c).retraining = false) → accessError s r a len false = none → poisoned s a len = false →
    Leads (.dramRead r a len {}) s fun t => .readReply r a (load s a len) false ∈ t.sent ∧ SameBut [.ports, .sent] s t) ∧
  (∀ r a data e k s, s.dmc.mode = .running → (∀ c, (dramChannel s c).retraining = false) → accessError s r a data.length true = some k →
    Leads (.dramWrite r a data e) s fun t => SameDram s t ∧ t.dmc.cmdErrSeen ∧ t.dmc.errValid ∧
      t.dmc.errLast = fieldAt (a / 64 * 64) 40 24 + fieldAt r 4 20 + fieldAt k 4 16 + fieldAt 15 4 12 + fieldAt 0 2 10) ∧
  (∀ r a len e k s, s.dmc.mode = .running → (∀ c, (dramChannel s c).retraining = false) → 0 < len → a % 64 + len ≤ 64 → accessError s r a len false = some k →
    requesterOff s r = false →
    Leads (.dramRead r a len e) s fun t => SameDram s t ∧ t.dmc.cmdErrSeen ∧ t.dmc.errValid ∧ .readReply r a (List.replicate len 0) true ∈ t.sent ∧
      t.dmc.errLast = fieldAt (a / 64 * 64) 40 24 + fieldAt r 4 20 + fieldAt k 4 16 + fieldAt 15 4 12 + fieldAt 0 2 10) ∧
  (∀ r a len s, s.dmc.mode = .running → (∀ c, (dramChannel s c).retraining = false) → 0 < len → a % 64 + len ≤ 64 → accessError s r a len false = none →
    poisoned s a len = true →
    Leads (.dramRead r a len {}) s fun t => SameDram s t ∧ .readReply r a (load s a len) true ∈ t.sent ∧ t.dmc.errValid) ∧
  (∀ r a len e s, s.dmc.mode = .running → 0 < len → a % 64 + len ≤ 64 → (dramChannel s (physChannel s (64 * (a / 64)))).retraining = true → outstanding s r < readLimit s r →
    Leads (.dramRead r a len e) s fun t => t.dmc.held = s.dmc.held ++ [{ requester := r, addr := a, len, ecc := [e] }] ∧ SameDram s t) ∧
  (∀ (s : State) (r a n : Nat) (w : Bool),
    (56 * 2 ^ 30 ≤ a ∨ 56 * 2 ^ 30 ≤ a + n - 1 → accessError s r a n w = some 3) ∧
    (a < 56 * 2 ^ 30 → a + n - 1 < 56 * 2 ^ 30 → r ≠ 8 →
      (∃ x ∈ s.dmc.ranges, x.base < a + n ∧ a < x.base + x.size ∧ r ∉ (if w then x.writes else x.reads)) → accessError s r a n w = some 4) ∧
    (a < 56 * 2 ^ 30 → a + n - 1 < 56 * 2 ^ 30 → r = 8 → accessError s r a n w = none))

/-- REFRESH_TICK: at an interval a channel that is awake owes one more REFpb (R422); one whose site has become hot takes double its debt, and one whose site is cool again half of it, rounded up
(R426). REFRESH_ISSUE: the channel issues one REFpb when its pair is idle or its debt passes the limit (R425). PATROL_SCRUB moves to the next line (R418), CE_HOUR_EVAL takes the hour's count and compares it with CE_LIMIT (R433), DRAM_ERROR_SUMMARY forgets the second (R421), MR4_POLL marks a site hot,
cool and over temperature by MR4 and its board sensor (R423, R424), and RETRAIN_COMPLETE takes the settings, tries once more, or fails the channel and degrades its site (R429, R433).
Where the rules leave a reading open, the model's own: log 10, 16, 49. -/
def Obligations.DramRefreshAndUpkeep : Prop :=
  (∀ c s, (dramChannel s c).asleep = false → s.dmc.mr4Due = false → s.dmc.mode = .running → (siteOf s (c / 4)).hot = (dramChannel s c).hot →
    Leads (.refreshTick c) s fun t => dramChannel t c = { dramChannel s c with debt := (dramChannel s c).debt + 1 } ∧ ∀ k, k ≠ c → dramChannel t k = dramChannel s k) ∧
  (∀ c s, (dramChannel s c).asleep = false → s.dmc.mr4Due = false → s.dmc.mode = .running → (siteOf s (c / 4)).hot = true → (dramChannel s c).hot = false →
    Leads (.refreshTick c) s fun t => dramChannel t c = { dramChannel s c with hot := true, debt := 2 * (dramChannel s c).debt }) ∧
  (∀ c s, (dramChannel s c).asleep = false → s.dmc.mr4Due = false → s.dmc.mode = .running → (siteOf s (c / 4)).hot = false → (dramChannel s c).hot = true →
    Leads (.refreshTick c) s fun t => dramChannel t c = { dramChannel s c with hot := false, debt := ((dramChannel s c).debt + 1) / 2 }) ∧
  (∀ c idle s, (dramChannel s c).asleep = false → s.dmc.mr4Due = false → 0 < (dramChannel s c).debt → (idle = true ∨ debtLimit (dramChannel s c) < (dramChannel s c).debt) →
    Leads (.refreshIssue c idle) s fun t => dramChannel t c = { dramChannel s c with debt := (dramChannel s c).debt - 1 } ∧
      .dramCmd (c / 4) (c % 4) 1 ∈ t.sent ∧ SameDram s t) ∧
  (∀ line s, s.dmc.mode = .running → (∀ c, (dramChannel s c).retraining = false) → 64 * line < 56 * 2 ^ 30 → poisoned s (64 * line) 64 = false →
    Leads (.patrolScrub line {}) s fun t => t.dmc.scrubLine = line + 1 ∧ SameDram s t ∧ t.dmc.poison = s.dmc.poison) ∧
  (∀ s, Leads .ceHourEval s fun t => ∀ n < 9, (siteOf t n).ceHour = (siteOf s n).ceNow ∧ (siteOf t n).ceNow = 0 ∧
    (siteOf t n).degraded = ((siteOf s n).degraded || decide (s.dmc.ceLimit ≤ (siteOf s n).ceNow))) ∧
  (∀ s, Leads .dramErrorSummary s fun t => t.dmc.cmdSecond = [] ∧ ∀ n < 9, (siteOf t n).ueSecond = none) ∧
  (∀ n rate s, s.dmc.mode = .running → Leads (.mr4Poll [(n, rate)]) s fun t => t.dmc.mr4Due = false ∧ SameDram s t ∧ (siteOf t n).overtemp = decide (8 < rate) ∧
    (siteOf t n).hot = if 8 ≤ rate ∨ (boardSensor s n).any (1360 ≤ ·) = true then true
      else if rate ≤ 4 ∧ (boardSensor s n).all (· ≤ 1312) = true then false else (siteOf s n).hot) ∧
  (∀ c s, s.dmc.mode = .running → (dramChannel s c).retraining = true → Leads (.retrainComplete c true) s fun t =>
    dramChannel t c = { dramChannel s c with retraining := false, marked := false, failedOnce := false, lastTrained := tb0 s }) ∧
  (∀ c s, s.dmc.mode = .running → (dramChannel s c).retraining = true → (dramChannel s c).failedOnce = false → Leads (.retrainComplete c false) s fun t =>
    dramChannel t c = { dramChannel s c with retraining := false, marked := true, failedOnce := true }) ∧
  (∀ c s, s.dmc.mode = .running → (dramChannel s c).retraining = true → (dramChannel s c).failedOnce = true → Leads (.retrainComplete c false) s fun t =>
    dramChannel t c = { dramChannel s c with retraining := false, marked := true } ∧ (siteOf t (c / 4)).retrainFail ∧ c % 4 ∈ (siteOf t (c / 4)).chFail ∧
    (siteOf t (c / 4)).degraded)

/-- SELF_REFRESH_ENTRY with no channel busy and no request waiting puts every channel and the controller into self-refresh with memory kept; a channel that was busy follows with SELF_REFRESH_RETRY;
SELF_REFRESH_EXIT brings all back at once where the sites' domains are on, and otherwise waits in EXITING for them (R430 to R432). DRAM_INIT leaves every byte zero and the controller RUNNING, or FAILED with DRAM_FAIL
and FAULT# where one of the eight sites in use does not work (R405). MIGRATION_CHUNK moves the lowest chunk that is not yet moved (R435), and an uncorrectable error of the target stops the copy (R438).
Where the rules leave a reading open, the model's own: log 10, 16, 79. -/
def Obligations.DramModes : Prop :=
  (∀ s, s.dmc.mode = .entering → s.dmc.held = [] → Leads (.selfRefreshEntry []) s fun t =>
    t.dmc.mode = .selfRefresh ∧ (∀ c < 36, (dramChannel t c).asleep = true ∧ (dramChannel t c).debt = 0) ∧ SameDram s t) ∧
  (∀ c u s, s.dmc.mode = .entering → (dramChannel s c).retryAt = some u → Leads (.selfRefreshRetry c) s fun t =>
    (dramChannel t c).asleep = true ∧ (dramChannel t c).debt = 0 ∧ (dramChannel t c).retryAt = none ∧ SameDram s t) ∧
  (∀ s, s.dmc.mode = .selfRefresh → (s.tim.bench = .off ∨ s.tim.bench = .leaving) → s.hif.powerDown = false → s.dmc.held = [] →
    (∀ d ∈ siteDomains s, domainOn s d = true) → Leads .selfRefreshExit s fun t =>
    t.dmc.mode = .running ∧ t.dmc.mr4Due ∧ (∀ c < 36, (dramChannel t c).asleep = false) ∧ SameDram s t) ∧
  (∀ d s, s.dmc.mode = .selfRefresh → (s.tim.bench = .off ∨ s.tim.bench = .leaving) → s.hif.powerDown = false → d ∈ siteDomains s → domainOn s d = false →
    Leads .selfRefreshExit s fun t => t.dmc.mode = .exiting ∧ (true, d) ∈ t.pwr.queue ∧ SameDram s t) ∧
  (∀ answered good s, s.dmc.mode = .init → s.pwr.porst = false → s.dmc.held = [] → Leads (.dramInit answered good) s fun t =>
    (∀ a, readByte t.dmc.mem a = 0) ∧ t.dmc.poison = [] ∧
    if t.dmc.siteMap.all good.contains then t.dmc.mode = .running else t.dmc.mode = .failed ∧ t.dmc.dramFail ∧ t.pins.fault) ∧
  (∀ s, s.dmc.migrate = .copying → s.dmc.mode = .running → s.dmc.held = [] → s.dmc.moved.length < 7167 → Leads (.migrationChunk [] none) s fun t =>
    t.dmc.migrate = .copying ∧ t.dmc.moved = s.dmc.moved ++ [nextChunk s.dmc.moved] ∧ SameDram s t ∧ t.dmc.siteMap = s.dmc.siteMap) ∧
  (∀ l s, s.dmc.migrate = .copying → s.dmc.mode = .running → s.dmc.moved.length < 7168 → Leads (.migrationChunk [] (some l)) s fun t =>
    t.dmc.migrate = .stopped ∧ t.dmc.moved = s.dmc.moved ∧ t.pins.fault)

/-! ### Tile links -/

/-- A TRAIN frame with a good CRC on a link in TRAINING moves the taps by one step within their limits as its requests ask, and READY moves the link to ALIGNING (R274, R275); no other link changes. An IDENT frame with a good CRC brings an ALIGNING link that has codeword lock UP when its position and capabilities are right, and fails it otherwise (R273). Training that runs out of time is tried once
more and then FAILED (R277); 60 s later the link trains again at its rate (R291); codeword lock lost for 1 ms sends an UP link back to TRAINING (R275). A STATUS frame with a good CRC leaves its fields in the link
(R272); no STATUS for 100 ms is entered once (R284); and each second is closed, with the errors of a link that is UP added to its totals (R284).
Where the rules leave a reading open, the model's own: log 10, 18, 50, 81, 89. -/
def Obligations.TileLinks : Prop :=
  (∀ (n : Nat) (gs : List Nat) (b : Bytes) (f : TrainFrame) (s : State), goodFrame 0x03 gs = some b → f = trainOf b → (linkOf s n).state = .training →
    Leads (.trainFrame n gs) s fun t =>
      (linkOf t n).state = (if f.ready then .aligning else .training) ∧
      (linkOf t n).tapPre = (if f.reqPre = 1 then min ((linkOf s n).tapPre + 1) 0 else if f.reqPre = 2 then max ((linkOf s n).tapPre - 1) (-16) else (linkOf s n).tapPre) ∧
      (linkOf t n).tapMain = (if f.reqMain = 1 then min ((linkOf s n).tapMain + 1) 48 else if f.reqMain = 2 then max ((linkOf s n).tapMain - 1) (-48) else (linkOf s n).tapMain) ∧
      (linkOf t n).tapPost = (if f.reqPost = 1 then min ((linkOf s n).tapPost + 1) 0 else if f.reqPost = 2 then max ((linkOf s n).tapPost - 1) (-32) else (linkOf s n).tapPost) ∧
      (∀ k, k ≠ n → linkOf t k = linkOf s k)) ∧
  (∀ n gs b f s, goodFrame 0x02 gs = some b → f = identOf b → (linkOf s n).state = .aligning → f.pos = n → f.caps % 4 = 3 → (linkOf s n).cwLock = true →
    Leads (.identFrame n gs) s fun t => (linkOf t n).state = .up ∧ (linkOf t n).identMismatch = false ∧ (linkOf t n).tileSerial = f.tileSerial) ∧
  (∀ n gs b f s, goodFrame 0x02 gs = some b → f = identOf b → (linkOf s n).state = .aligning → ¬(f.pos = n ∧ f.caps % 4 = 3) →
    Leads (.identFrame n gs) s fun t => (linkOf t n).state = .failed ∧ (linkOf t n).identMismatch = true) ∧
  (∀ n s, (linkOf s n).state = .training ∨ (linkOf s n).state = .aligning → Leads (.trainingTimeout n) s fun t =>
    (linkOf t n).state = (if (linkOf s n).retried then .failed else .training) ∧ ((linkOf s n).retried = false → (linkOf t n).retried = true)) ∧
  (∀ n s, (linkOf s n).state = .failed → Leads (.failedRetrain n) s fun t => (linkOf t n).state = .training ∧ (linkOf t n).half = (linkOf s n).half) ∧
  (∀ n u s, (linkOf s n).state = .up → (linkOf s n).lossSince = some u → Leads (.cwLockLoss n) s fun t =>
    (linkOf t n).state = .training ∧ (linkOf t n).half = (linkOf s n).half ∧ (linkOf t n).lossSince = none) ∧
  (∀ n gs b f s, goodFrame 0x01 gs = some b → f = statusOf b → (linkOf s n).state = .up → Leads (.statusFrame n gs) s fun t =>
    (linkOf t n).temp = f.temp ∧ (linkOf t n).fault = f.fault ∧ (linkOf t n).flags = f.flags ∧ (linkOf t n).stale = false ∧
    (linkOf t n).lastStatus = some (tb0 s) ∧ (linkOf t n).state = .up) ∧
  (∀ n u s, (linkOf s n).lastStatus = some u → (linkOf s n).state = .up → (linkOf s n).stale = false → Leads (.statusStale n) s fun t =>
    (linkOf t n).stale = true ∧ t.bureau.nextSeq = s.bureau.nextSeq + 1) ∧
  (∀ s, Leads .linkSecond s fun t => t.tlk.stoppedInSecond = !s.tim.rasterRun ∧ ∀ n < 96, (linkOf s n).state = .up →
    (linkOf t n).unc = (linkOf s n).second.1 ∧ (linkOf t n).lineErr = (linkOf s n).second.2 ∧ (linkOf t n).uncTotal = satAdd 32 (linkOf s n).uncTotal (linkOf s n).second.1 ∧
    (linkOf t n).base = (linkOf s n).latest)

/-! ### Time and network -/

/-- TIM_TBn reads the integer nanoseconds of base n. A write of 1 to CAPTURE takes all four bases on one edge: their integer nanoseconds into
TIM_TBn_CAP and their fractions into TIM_TB_CAP_FRAC of the port that writes, while the other port's capture registers stay (R520). -/
def Obligations.CaptureTakesAllBases : Prop :=
  (∀ (s : State) (p : Port) (n : Nat), n < 4 → readRegister s p (0x108040 + 8 * n) = tbNs s n) ∧
  (∀ (p : Port) (v : Nat) (s : State), portOpen s p → bit v 0 = true → Leads (.capture p v) s fun t =>
    (∀ n < 4, readRegister t p (0x108070 + 8 * n) = tbNs s n ∧ bits (readRegister t p 0x108068) (16 * n + 15) (16 * n) = tbU s n % 65536) ∧
    (∀ n < 4, readRegister t p.other (0x108070 + 8 * n) = readRegister s p.other (0x108070 + 8 * n)) ∧
    readRegister t p.other 0x108068 = readRegister s p.other 0x108068)

/-- An armed slot that fires sets FIRED_n and counts; a slot with PERIOD 0 then disarms, and a periodic one stays armed (R525). The first multiple of the period after `now`, counted from the target, is the next target: later than `now`, by no more than one period (R525).
Where the rules leave a reading open, the model's own: log 10. -/
def Obligations.EventSlots : Prop :=
  (∀ (n : Nat) (s : State), (slotOf s n).armed = true → clocked s = true →
    Leads (.eventSlotFire n) s fun t => n ∈ t.tim.fired ∧ (slotOf t n).count = wrapAdd 32 (slotOf s n).count 1 ∧
      (slotOf t n).armed = decide ((slotOf s n).period ≠ 0) ∧ (slotOf t n).user = (slotOf s n).user ∧ (∀ k, k ≠ n → slotOf t k = slotOf s k)) ∧
  (∀ target period now : Nat, 0 < period → target ≤ now → now + period < 2 ^ 63 →
    now < nextTarget target period now ∧ nextTarget target period now ≤ now + period ∧ (nextTarget target period now - target) % period = 0)

/-- The state of a base's servo after a sample (R526): FREE without a source; a source gives LOCKING; the sixteenth consecutive sample within 200 ns gives LOCKED;
the fourth consecutive one beyond 1 µs gives LOCKING again; a source that becomes invalid gives HOLDOVER, and a valid one ends it.
Where the rules leave a reading open, the model's own: log 51, 96. -/
def Obligations.ServoStates : Prop :=
  ∀ (b : Base) (valid : Bool) (o : Int),
    (b.sample false valid o).servo = .free ∧
    (b.servo = .free → (b.sample true valid o).servo = .locking) ∧
    (b.servo = .locking → (b.sample true valid o).servo = if b.wasValid = true ∧ valid = false then .holdover
      else if valid ∧ -200 ≤ o ∧ o ≤ 200 ∧ 15 ≤ b.good then .locked else .locking) ∧
    (b.servo = .locked → (b.sample true valid o).servo =
      if valid = false then .holdover else if (o < -1000 ∨ 1000 < o) ∧ 3 ≤ b.bad then .locking else .locked) ∧
    (b.servo = .holdover → (b.sample true valid o).servo = if valid then .locking else .holdover)

/-- SERVO_SAMPLE: a measured offset of TB1 from its valid parent is a sample of its servo; without one a valid parent leaves TB1 as it stands; and a parent whose Sync is overdue becomes invalid (R526; the
Sync interval and the sample without a measurement are the model's, log 96). PTM_DIALOGUE sends a request time-stamped in TB2, or fails where the port is closed, and PTM_RESPONSED ends it (R533).
Where the rules leave a reading open, the model's own: log 10, 51, 96, 116. -/
def Obligations.TimeSources : Prop :=
  (∀ a b x s, s.hif.walec = .running → s.eth.role ≠ 0 → s.eth.parentValid = true → syncOverdue s = false → s.eth.measured = some x → Leads (.servoSample a b) s fun t =>
    (baseOf t 1).servo = ((baseOf s 1).sample true true (x + a)).servo ∧ t.eth.tb1Offset = some (x + a) ∧ t.eth.measured = none ∧ baseOf t 0 = baseOf s 0) ∧
  (∀ a b s, s.hif.walec = .running → s.eth.role ≠ 0 → s.eth.parentValid = true → syncOverdue s = false → s.eth.measured = none → Leads (.servoSample a b) s fun t =>
    baseOf t 1 = baseOf s 1 ∧ baseOf t 0 = baseOf s 0) ∧
  (∀ a b s, s.hif.walec = .running → s.eth.role ≠ 0 → syncOverdue s = true → Leads (.servoSample a b) s fun t =>
    t.eth.parentValid = false ∧ ((baseOf s 1).servo = .locked → (baseOf t 1).servo = .holdover)) ∧
  (∀ p s, s.tim.tb2Port = p.num → portOpen s p → Leads (.ptmDialogue p) s fun t =>
    t.tim.ptmSent = some (tbNs s 2) ∧ .ptm p ∈ t.sent ∧ t.tim.ptmFails = s.tim.ptmFails + (if s.tim.ptmSent.isSome then 1 else 0)) ∧
  (∀ p s, s.tim.tb2Port = p.num → portOpen s p = false → s.tim.ptmSent = none → Leads (.ptmDialogue p) s fun t =>
    t.tim.ptmSent = none ∧ t.tim.ptmValid = false ∧ t.tim.ptmFails = s.tim.ptmFails + 1) ∧
  (∀ p m d u s, s.tim.ptmSent = some u → s.tim.tb2Port = p.num → portOpen s p → Leads (.ptmResponsed p m d) s fun t =>
    t.tim.ptmSent = none ∧ t.tim.ptmValid ∧ t.tim.ptmNew ∧ t.tim.ptmFails = 0 ∧ t.tim.ptmTrip = some ((tbNs s 2 + 2 ^ 64 - u) % 2 ^ 64))

/-- The PTP messages on a port that takes part: a role set, its link up, the message of the domain in effect, Walec running. A Sync, Follow_Up, Delay_Resp, Pdelay_Resp or Announce that passes its check of R540 is accepted and
changes its port as said, and the rest of the ports stays (but the port that the parent leaves); one that does not is discarded and counted, and no port changes; a Delay_Req of a master port, or a Pdelay_Req under IEEE
802.1AS-2020, is answered with its sequenceId (R538, R540). What the accepted times give as offset and path delay is the model's reading of IEEE 1588-2019.
Where the rules leave a reading open, the model's own: log 96, 116. -/
def Obligations.PtpChecks : Prop :=
  ∀ (m : PtpMsg) (s : State), ptpOn s m = true →
    (s.eth.parent = some (m.port, m.source) → (∀ q, (ethOf s m.port).lastSync = some q → seqNewer m.seq q = true) → m.twoStep = true →
      Leads (.sync m) s fun t => ethOf t m.port = { ethOf s m.port with
          lastSync := some m.seq, twoStep := some (m.seq, arrivalOf s m, m.correction + (ethOf s m.port).delayAsym) } ∧
        (∀ p, p ≠ m.port → ethOf t p = ethOf s p) ∧ t.eth.parentValid = true ∧ t.eth.syncAt = tb0 s ∧ t.eth.seqDiscards = s.eth.seqDiscards) ∧
    (s.eth.parent = some (m.port, m.source) → (∀ q, (ethOf s m.port).lastSync = some q → seqNewer m.seq q = true) → m.twoStep = false →
      Leads (.sync m) s fun t => ethOf t m.port = { ethOf s m.port with
          lastSync := some m.seq, twoStep := none, syncTimes := some (m.time, arrivalOf s m, m.correction + (ethOf s m.port).delayAsym) } ∧
        t.eth.measured = some (roundDiv (timeDiff (arrivalOf s m) m.time - (m.correction + (ethOf s m.port).delayAsym) - (ethOf s m.port).pathDelay) 65536) ∧
        (∀ p, p ≠ m.port → ethOf t p = ethOf s p) ∧ t.eth.parentValid = true ∧ t.eth.syncAt = tb0 s ∧ t.eth.seqDiscards = s.eth.seqDiscards) ∧
    (¬(s.eth.parent = some (m.port, m.source) ∧ (∀ q, (ethOf s m.port).lastSync = some q → seqNewer m.seq q = true)) →
      Leads (.sync m) s fun t => t.eth.ports = s.eth.ports ∧ t.eth.seqDiscards = satAdd 16 s.eth.seqDiscards 1 ∧ t.eth.seqDiscardSeen = true) ∧
    (∀ a c, s.eth.parent = some (m.port, m.source) → (ethOf s m.port).twoStep = some (m.seq, a, c) →
      Leads (.followUp m) s fun t => ethOf t m.port = { ethOf s m.port with twoStep := none, syncTimes := some (m.time, a, c + m.correction) } ∧
        t.eth.measured = some (roundDiv (timeDiff a m.time - (c + m.correction) - (ethOf s m.port).pathDelay) 65536) ∧
        (∀ p, p ≠ m.port → ethOf t p = ethOf s p) ∧ t.eth.seqDiscards = s.eth.seqDiscards) ∧
    ((∀ w, ¬(s.eth.parent = some (m.port, m.source) ∧ (ethOf s m.port).twoStep = some w ∧ w.1 = m.seq)) →
      Leads (.followUp m) s fun t => t.eth.ports = s.eth.ports ∧ t.eth.seqDiscards = satAdd 16 s.eth.seqDiscards 1) ∧
    (m.requesting = m.port → (ethOf s m.port).delayReqSent = some m.seq →
      Leads (.delayResp m) s fun t => (∃ d, ethOf t m.port = { ethOf s m.port with pathDelay := d } ∧ ∀ w, (ethOf s m.port).syncTimes = some w →
          d = roundDiv (timeDiff w.2.1 (ethOf s m.port).delayReqAt + timeDiff m.time w.1 - w.2.2 - m.correction) 2) ∧
        (∀ p, p ≠ m.port → ethOf t p = ethOf s p) ∧ t.eth.seqDiscards = s.eth.seqDiscards) ∧
    (¬(m.requesting = m.port ∧ (ethOf s m.port).delayReqSent = some m.seq) →
      Leads (.delayResp m) s fun t => t.eth.ports = s.eth.ports ∧ t.eth.seqDiscards = satAdd 16 s.eth.seqDiscards 1) ∧
    (m.requesting = m.port → (ethOf s m.port).pdelayReqSent = some m.seq → m.kind ≠ 10 → m.twoStep = true →
      Leads (.pdelayResp m) s fun t => ethOf t m.port =
          { ethOf s m.port with pdelayResp := some (m.source, m.time, arrivalOf s m, m.correction + (ethOf s m.port).delayAsym) } ∧
        (∀ p, p ≠ m.port → ethOf t p = ethOf s p) ∧ t.eth.seqDiscards = s.eth.seqDiscards) ∧
    (m.requesting = m.port → (ethOf s m.port).pdelayReqSent = some m.seq → m.kind ≠ 10 → m.twoStep = false →
      Leads (.pdelayResp m) s fun t => ethOf t m.port = { ethOf s m.port with
          pdelayResp := none, pathDelay := roundDiv (timeDiff (arrivalOf s m) (ethOf s m.port).pdelayReqAt - (m.correction + (ethOf s m.port).delayAsym)) 2 } ∧
        (∀ p, p ≠ m.port → ethOf t p = ethOf s p) ∧ t.eth.seqDiscards = s.eth.seqDiscards) ∧
    (∀ t2 t4 c, m.requesting = m.port → (ethOf s m.port).pdelayReqSent = some m.seq → m.kind = 10 → (ethOf s m.port).pdelayResp = some (m.source, t2, t4, c) →
      Leads (.pdelayResp m) s fun t => ethOf t m.port = { ethOf s m.port with
          pdelayResp := none, pathDelay := roundDiv (timeDiff t4 (ethOf s m.port).pdelayReqAt - timeDiff m.time t2 - c - m.correction) 2 } ∧
        (∀ p, p ≠ m.port → ethOf t p = ethOf s p) ∧ t.eth.seqDiscards = s.eth.seqDiscards) ∧
    (¬(m.requesting = m.port ∧ (ethOf s m.port).pdelayReqSent = some m.seq ∧ (m.kind = 10 → ∃ w, (ethOf s m.port).pdelayResp = some (m.source, w))) →
      Leads (.pdelayResp m) s fun t => t.eth.ports = s.eth.ports ∧ t.eth.seqDiscards = satAdd 16 s.eth.seqDiscards 1) ∧
    ((∀ q, Tbl.find? m.source (ethOf s m.port).announces = some q → seqNewer m.seq q = true) →
      Leads (.announce m) s fun t => t.eth.seqDiscards = s.eth.seqDiscards ∧ Tbl.find? m.source (ethOf t m.port).announces = some m.seq ∧
        (∀ p, p ≠ m.port → (m.best = true → ∀ w, s.eth.parent = some w → w.1 ≠ p) → ethOf t p = ethOf s p) ∧
        (if m.best = true
          then t.eth.parent = some (m.port, m.source) ∧ t.eth.gm = some m.gm ∧ (ethOf t m.port).state = 9 ∧
            (s.eth.parent ≠ some (m.port, m.source) → t.eth.parentValid = true ∧ t.eth.measured = none)
          else t.eth.parent = s.eth.parent ∧ t.eth.gm = s.eth.gm)) ∧
    (∀ q, Tbl.find? m.source (ethOf s m.port).announces = some q → seqNewer m.seq q = false →
      Leads (.announce m) s fun t => t.eth.ports = s.eth.ports ∧ t.eth.seqDiscards = satAdd 16 s.eth.seqDiscards 1) ∧
    (m.kind ≠ 2 → s.eth.profile = 0 → (ethOf s m.port).state = 6 →
      Leads (.delayReq m) s fun t => .ptp m.port 9 m.seq (arrivalOf s m) m.correction ∈ t.sent ∧ t.eth = s.eth) ∧
    (m.kind = 2 → s.eth.profile = 1 → (ethOf s m.port).step = 0 → Leads (.delayReq m) s fun t => (∃ c, .ptp m.port 3 m.seq 0 c ∈ t.sent) ∧ t.eth = s.eth) ∧
    (m.kind = 2 → s.eth.profile = 1 → (ethOf s m.port).step ≠ 0 → Leads (.delayReq m) s fun t =>
      .ptp m.port 3 m.seq (arrivalOf s m) 0 ∈ t.sent ∧ (∃ u, .ptp m.port 10 m.seq u m.correction ∈ t.sent) ∧ t.eth = s.eth) ∧
    ((if m.kind = 2 then s.eth.profile ≠ 1 else ¬(s.eth.profile = 0 ∧ (ethOf s m.port).state = 6)) → Leads (.delayReq m) s fun t =>
      (∀ k q u c, .ptp m.port k q u c ∈ t.sent → .ptp m.port k q u c ∈ s.sent) ∧ t.eth = s.eth)

/-- SYNC_TRANSMIT and ANNOUNCE_TRANSMIT of a master port and DELAY_REQ_TRANSMIT send the port's messages with their next sequenceId (R537, R538); FRAME_RELAY passes a Delay_Req on with its residence time, or drops a frame
for want of room (R538, R539); ANNOUNCE_RECEIPT_TIMEOUT, ETH_LINK_DOWN and ETH_LINK_UP change the port's state (R540, R542, R545); and ETH_FRAME_RECEIVE sends the answer to an ARP, echo or solicitation frame (R535).
Where the rules leave a reading open, the model's own: log 10, 97, 116. -/
def Obligations.EthernetPorts : Prop :=
  (∀ p s, mastering s p = true → Leads (.syncTransmit p) s fun t => (ethOf t p).seqSync = wrapAdd 16 (ethOf s p).seqSync 1 ∧
    ((ethOf s p).step = 0 → .ptp p 0 (ethOf s p).seqSync (departureOf s p) 0 ∈ t.sent) ∧
    ((ethOf s p).step ≠ 0 → .ptp p 0 (ethOf s p).seqSync 0 0 ∈ t.sent ∧ .ptp p 8 (ethOf s p).seqSync (departureOf s p) 0 ∈ t.sent)) ∧
  (∀ p s, mastering s p = true → Leads (.announceTransmit p) s fun t => (ethOf t p).seqAnnounce = wrapAdd 16 (ethOf s p).seqAnnounce 1 ∧
    .ptp p 11 (ethOf s p).seqAnnounce (tbU s 1) 0 ∈ t.sent) ∧
  (∀ p s, asksDelay s p = true → Leads (.delayReqTransmit p) s fun t =>
    (s.eth.profile = 0 → (ethOf t p).delayReqSent = some (ethOf s p).seqDelay ∧ (ethOf t p).seqDelay = wrapAdd 16 (ethOf s p).seqDelay 1 ∧
      (ethOf t p).delayReqAt = departureOf s p) ∧
    (s.eth.profile ≠ 0 → (ethOf t p).pdelayReqSent = some (ethOf s p).seqPdelay ∧ (ethOf t p).pdelayResp = none ∧ (ethOf t p).pdelayReqAt = departureOf s p)) ∧
  (∀ p k f r s, s.eth.role = 4 → (ethOf s p).link → (ethOf s (1 - p)).link → frameOk f → toUs s p f = false → Leads (.frameRelay p k f r true) s fun t =>
    t.eth.relayDropSeen ∧ t.eth.ports = s.eth.ports) ∧
  (∀ p f r s, s.eth.role = 4 → (ethOf s p).link → (ethOf s (1 - p)).link → frameOk f → toUs s p f = false → Leads (.frameRelay p 1 f r false) s fun t =>
    .ethFrame (1 - p) (addResidence (ptpTransport s p) r f) ∈ t.sent ∧ t.eth = s.eth) ∧
  (∀ p s, ptpPort s p → (ethOf s p).link → s.hif.walec = .running → Leads (.announceReceiptTimeout p) s fun t =>
    (ethOf t p).state = (if s.eth.role = 2 ∨ s.eth.role = 3 then 6 else 4) ∧ (∀ x, s.eth.parent = some (p, x) → t.eth.parent = none)) ∧
  (∀ p s, (ethOf s p).link → Leads (.ethLinkDown p) s fun t => (ethOf t p).link = false ∧ (ethOf t p).lastSync = none ∧
    t.eth.sessions = s.eth.sessions.filter fun w => w.2.1 ≠ p) ∧
  (∀ p s, domainOn s 42 → (ethOf s p).speedNext ≠ 0 → (ethOf s p).link = false → Leads (.ethLinkUp p) s fun t =>
    (ethOf t p).link ∧ (ethOf t p).speed = (ethOf s p).speedNext) ∧
  (∀ p k f b r s, k ≠ 5 → inVlan (ethOf s p) f = some b → answerFrame (ethOf s p) k b = some r → (ethOf s p).link → frameOk f →
    Leads (.ethFrameReceive p k f) s fun t => .ethFrame p (withTag (ethOf s p) r) ∈ t.sent ∧ t.eth = s.eth)

/-! ### Ray engine and redundancy -/

/-- While an accepted activation waits for its tick, every further load and activation of a geometry set is answered ST_BUSY, whatever else the request
holds and whatever its file, and leaves everything as it was (R60). Every reset that resets the ray engine, that is a power-on reset or a warm reset whatever asks
for it, leaves both banks of both halves with the zero set, version 0, bank 0 active, and BANK0_VALID and BANK1_VALID 1 (R63). -/
def Obligations.GeometrySets : Prop :=
  (∀ ch h bad r s u, pendingGeom u ≠ none → Due loadGeomVerb 0x08 0x01 ch r s u → Runs (.loadGeom ch ⟨h, bad⟩) r s .busy [] fun w => w = u) ∧
  (∀ ch r s u, pendingGeom u ≠ none → Due activateGeomVerb 0x08 0x02 ch r s u → Runs (.activateGeom ch) r s .busy [] fun w => w = u) ∧
  (∀ (c : Instr) (s : State),
    ((∃ k, c = .powerOnReset k) ∨ (∃ k, c = .warmReset k) ∧ s.pwr.porst = false ∧ s.clk.chosen = true ∨
      (∃ n, c = .supplyExcursion n) ∧ s.pwr.porst = false ∧ s.clk.chosen = true ∨
      c = .wardrobeReset ∧ s.walec.stoppedAt.isSome = true ∧ s.hif.walec = .restarting ∧ s.pwr.supplyHold = none ∨
      (∃ p v, c = .warm p v ∧ portOpen s p = true ∧ resetAction s p v 0 = true) ∨ (∃ p v, c = .cold p v ∧ portOpen s p = true ∧ resetAction s p v 1 = true) ∨
      (∃ r, c = .refQualified r ∧ (refOf s r).qual = false) ∧ s.clk.chosen = true ∧ s.clk.phase = .expired) →
    Leads c s fun t => t.geom.active = 0 ∧ bits (regGeom t) 1 0 = 3 ∧ ∀ b < 2, ∀ g ∈ [geomBank t b, Tbl.get t.geom.half1 {} b],
      g.version = 0 ∧ g.phaseBValid = false ∧ g.valid = true ∧ (∀ k, Tbl.get g.bd (0, 0) k = (0, 0)) ∧
      ∀ k, (Tbl.get g.grid {} k).du = 0 ∧ (Tbl.get g.grid {} k).dv = 0 ∧ (Tbl.get g.grid {} k).dtx = 0 ∧ (Tbl.get g.grid {} k).dty = 0)

/-- CLUSTER_FAULT, and LANE_TIMEOUT as such a fault (R154): the spare that R620 has chosen already, or the first free one, is kept for the row, to be bound at the composition boundary that the fault names, and the cluster is
FAULTED (R156); without a spare the cluster is RESETTING and stays the row's, and the third such fault within 10 s leaves the row without a cluster and sets FAULT# (R157).
Where the rules leave a reading open, the model's own: log 28, 29, 30. -/
def Obligations.ClusterFaults : Prop :=
  ∀ (r l : Nat) (s : State), hasCluster s r = true → ∀ c ∈ [Instr.clusterFault r, .laneTimeout r l],
    (∀ k, (rowOf s r).toBind = some k ∨ (rowOf s r).toBind = none ∧ (freeSpares s).head? = some k → k ≠ (rowOf s r).cluster → Leads c s fun t =>
      (rowOf t r).toBind = some k ∧ (rowOf t r).bindAt = bindPoint s r ∧ (rowOf t r).cluster = (rowOf s r).cluster ∧ clusterOf t k = .spare ∧
      k ∉ t.ray.spares ∧ clusterOf t (rowOf s r).cluster = .faulted ∧ (rowOf s r).cluster ∈ t.spr.toTest) ∧
    ((rowOf s r).toBind = none → freeSpares s = [] → ((rowOf s r).heldFaults.filter fun w => tb0 s < w + 10000000000).length < 2 → Leads c s fun t =>
      clusterOf t (rowOf s r).cluster = .resetting ∧ (rowOf t r).cluster = (rowOf s r).cluster ∧
      (rowOf t r).heldFaults = tb0 s :: (rowOf s r).heldFaults.filter fun w => tb0 s < w + 10000000000) ∧
    ((rowOf s r).toBind = none → freeSpares s = [] → 2 ≤ ((rowOf s r).heldFaults.filter fun w => tb0 s < w + 10000000000).length → Leads c s fun t =>
      (rowOf t r).cluster = 15 ∧ (rowOf t r).held ∧ clusterOf t (rowOf s r).cluster = .faulted ∧ (rowOf s r).cluster ∈ t.spr.toTest ∧ t.pins.fault)

/-- UNBOUND_CLUSTER_FAULT: a free cluster that faults leaves the pool, is FAULTED and awaits its self-test (R677). SPARE_BIND: at its composition boundary the spare kept for a row is the row's cluster (R121, R156), and at one of a row without a
cluster Walec binds the first free spare (R157). SHADOW_CHECK: where no mismatch waits for its repeat, equal checksums go on to the next row and line, and different ones wait for the repeat; a repeat that
differs again while another spare is free and agrees faults the bound cluster, and with no other spare leaves both SUSPECT (R155). CLUSTER_RESET_COMPLETE: a cluster that was reset is the row's again (R157). WITNESS_PICTURE_START: a picture begins on the first free spare, or in the blanking slots (R158, R161); WITNESS_PICTURE_COMPLETE, of a spare or in the slots, renders its remaining rows, counts it and hands it to the encoder, where
one that still waits is dropped (R160, R335).
Where the rules leave a reading open, the model's own: log 30, 82. -/
def Obligations.SpareClustersAndWitness : Prop :=
  (∀ c s, (freeSpares s).contains c = true → Leads (.unboundClusterFault c) s fun t =>
    clusterOf t c = .faulted ∧ c ∉ t.ray.spares ∧ Tbl.find? c t.ray.shadows = none ∧ c ∈ t.spr.toTest) ∧
  (∀ r k s, (rowOf s r).toBind = some k → k ≠ (rowOf s r).cluster → atBoundary s r (rowOf s r).bindAt = true → Leads (.spareBind r) s fun t =>
    (rowOf t r).cluster = k ∧ (rowOf t r).toBind = none ∧ clusterOf t k = .bound ∧ k ∉ t.ray.spares ∧ t.spr.spareUsedSeen) ∧
  (∀ r k s, (rowOf s r).toBind = none → (freeSpares s).head? = some k → (rowOf s r).cluster = 15 → k ≠ 15 → r < configRows s → s.hif.walec = .running →
    atBoundary s r (comingSub s) = true →
    Leads (.spareBind r) s fun t => (rowOf t r).cluster = k ∧ clusterOf t k = .bound ∧ k ∉ t.ray.spares ∧ t.spr.spareUsedSeen) ∧
  (∀ k r v w x s, shadows s k = true → shadowDue s k = none → shadowRow s k = some r → Leads (.shadowCheck k r (shadowOf s k).line v w x) s fun t =>
    (shadowOf t k).row = (r + 1) % configRows s ∧ (shadowOf t k).line = ((shadowOf s k).line + 1) % 1440 ∧ t.ray.rows = s.ray.rows ∧ t.ray.spares = s.ray.spares ∧
    (v ≠ w → t.ray.clusters = s.ray.clusters ∧ (shadowOf t k).again = (shadowMade s k).again ++
      [{ row := r, line := (shadowOf s k).line, frame := s.tim.frameCount, phase := s.tim.sub }])) ∧
  (∀ k a v w s, shadows s k = true → shadowDue s k = some a → hasCluster s a.row = true → v ≠ w → (freeSpares s).any (· ≠ k) = true →
    exec (.shadowCheck k a.row a.line v w v) s = exec (.clusterFault a.row) (setShadow k (shadowMade s k) s)) ∧
  (∀ k a v w x s, shadows s k = true → shadowDue s k = some a → hasCluster s a.row = true → v ≠ w → (freeSpares s).any (· ≠ k) = false →
    Leads (.shadowCheck k a.row a.line v w x) s fun t => clusterOf t k = .suspect ∧ clusterOf t (rowOf s a.row).cluster = .suspect ∧ t.ray.rows = s.ray.rows) ∧
  (∀ r s, r < configRows s → clusterOf s (rowOf s r).cluster = .resetting → Leads (.clusterResetComplete r) s fun t =>
    clusterOf t (rowOf s r).cluster = .bound ∧ t.ray.rows = s.ray.rows) ∧
  (∀ s, s.tim.rasterRun = true → s.tim.bench = .off → s.ray.witness = none → Leads .witnessPictureStart s fun t =>
    t.ray.witness = some { wide := (witnessChoice s (freeSpares s).head?.isSome).1, rate := (witnessChoice s (freeSpares s).head?.isSome).2.1 } ∧
    t.ray.source = (freeSpares s).head?.getD 0xFE ∧ (∀ k, (freeSpares s).head? = some k → clusterOf t k = .witness) ∧ t.ray.pictures = s.ray.pictures) ∧
  (∀ w s, s.ray.witness = some w → witnessTurn s = true → w.rows.length ≤ (witnessSize w.wide).2 → Leads (.witnessPictureComplete s.ray.source) s fun t =>
    t.ray.witness = none ∧ t.ray.pictures = wrapAdd 32 s.ray.pictures 1 ∧
    (∃ p, t.enc.waiting = some p ∧ p.rows.length = (witnessSize w.wide).2 ∧ p.rows.take w.rows.length = w.rows) ∧
    t.enc.dropped = satAdd 16 s.enc.dropped (if s.enc.waiting.isSome then 1 else 0))

/-- UNIT_SELF_TEST: a unit that passes returns to service where RETURN_FAULTED allows it and it had not a second fault in a week, and any other is retired (R612). SRAM_REPAIR keeps a correction (R619), and at a threshold of 1 puts the row into its domain's table.
AUTO_MIGRATE starts the move of the lowest degraded site (R621), AUTO_RESTORE asks once for full rate (R623), OUTAGE_MS counts an outage millisecond (R625), and OUTAGE_PERSIST persists and clears the hour's counts (R627).
Where the rules leave a reading open, the model's own: log 10, 30, 66, 67. -/
def Obligations.Redundancy : Prop :=
  (∀ u pass s, s.spr.toTest.contains (unitBit u) = true → testable s u = true → s.hif.walec = .running → s.tim.bench = .off → Leads (.unitSelfTest u pass) s fun t =>
    unitBit u ∉ t.spr.toTest ∧
    (pass = true → s.spr.returnFaulted = 1 → recentFaults s (unitBit u) < 2 → t.spr.retired = s.spr.retired ∧
      (∀ c, u = .cluster c → clusterOf t c = .off ∧ ((∀ r < configRows s, (rowOf s r).cluster ≠ c) → c ∈ t.ray.spares)) ∧ (∀ c, u = .core c → (coreOf t c).state = .off)) ∧
    (pass = false ∨ s.spr.returnFaulted ≠ 1 ∨ 2 ≤ recentFaults s (unitBit u) → unitBit u ∈ t.spr.retired ∧ t.spr.retireSeen)) ∧
  (∀ d row w s, d < 44 → s.spr.repairThreshold ≤ 1 → s.hif.walec = .running → (repairsOf s d).length < 64 → Leads (.sramRepair d row w) s fun t =>
    row ∈ repairsOf t d) ∧
  (∀ d row w s, d < 44 → s.hif.walec ≠ .running → Leads (.sramRepair d row w) s fun t =>
    t.spr.repairs = s.spr.repairs ∧ (d, w, tb0 s) ∈ t.spr.corrections) ∧
  (∀ sites l s, ((List.range 8).find? fun l => sites.contains l && (siteOf s (s.dmc.siteMap.getD l 15)).degraded) = some l →
    s.spr.migrateAuto = 1 → s.hif.walec = .running → s.tim.bench = .off → spareSitePresent s = true → migrationRuns s = false → s.dmc.mode = .running →
    Leads (.autoMigrate sites) s fun t => t.dmc.migrateLogical = l ∧ t.dmc.migrateTo = s.dmc.spareSite ∧ t.spr.spareUsedSeen) ∧
  (∀ n t0 s, (linkOf s n).halfSince = some t0 → s.spr.linkAutoRestore = 1 → s.hif.walec = .running → configured s n = true → (linkOf s n).half = true →
    (linkOf s n).state = .up → s.tim.rasterRun = true → (linkOf s n).has 4 = false → Tbl.find? n s.spr.autoRestored = none → s.spr.noAuto.contains n = false →
    Leads (.autoRestore n) s fun t => (linkOf t n).has 4 = true ∧ Tbl.find? n t.spr.autoRestored = some (tb0 t)) ∧
  (∀ s, clocked s = true → Leads .outageMs s fun t =>
    t.spr.outageMs = if outage (advanceTo0 ((tb0 s / 1000000 + 1) * 1000000) s) then wrapAdd 64 s.spr.outageMs 1 else s.spr.outageMs) ∧
  (∀ s, clocked s = true → s.hif.walec = .running → Leads .outagePersist s fun t =>
    t.spr.outageHour = 0 ∧ t.spr.glitches = 0 ∧ t.spr.outageMs = s.spr.outageMs)

/-! ### Walec, resets and clocks -/

/-- WALEC_STOP of a running Walec (R29, R485, R497, R516, R517): RESTARTING with its cause, one more restart, requests and answers lost, sessions closed. WATCHDOG_EXPIRY
does the same and is counted (R565). WALEC_TIMEOUT, once 2 s of RESTARTING have passed, sets FAULT# and the cause 4 (R34, R497). LOCKSTEP_MISMATCH while Walec runs on the lockstep pair (R615 to R617): outvoted in TRIPLE, the core is retired and the other two are JOINED; in PAIR and JOINED, and in TRIPLE with no
majority, Walec restarts with cause 2. TRIPLE_EXIT ends TRIPLE and asks for the spare's domain to be switched off (R616).
Where the rules leave a reading open, the model's own: log 10, 52. -/
def Obligations.WalecStopsAndLockstep : Prop :=
  (∀ c s, s.hif.walec = .running → Leads (.walecStop c) s fun t =>
    t.hif.walec = .restarting ∧ t.hif.restarts = satAdd 16 s.hif.restarts 1 ∧ t.walec.restartCause = stopCode c ∧
    t.walec.stoppedAt = some (tb0 s) ∧ t.walec.taken = [] ∧ t.walec.answers = [] ∧ t.eth.sessions = []) ∧
  (∀ s, s.hif.walec = .running → Leads .watchdogExpiry s fun t =>
    t.hif.walec = .restarting ∧ t.walec.restartCause = 3 ∧ t.pwr.watchdogCount = satAdd 16 s.pwr.watchdogCount 1 ∧ t.pwr.watchdogSeen) ∧
  (∀ u s, s.hif.walec = .restarting → s.walec.stoppedAt = some u → s.walec.timeoutSeen = false → Leads .walecTimeout s fun t =>
    t.hif.walec = .restarting ∧ t.walec.timeoutSeen ∧ t.walec.restartCause = 4 ∧ t.pins.fault) ∧
  (∀ k s, s.hif.walec = .running → s.spr.standby = false → s.spr.cpu = .triple → Leads (.lockstepMismatch (some k)) s fun t =>
    t.hif.walec = .running ∧ t.spr.cpu = .joined ∧ 24 + k ∈ t.spr.retired ∧ t.spr.retireSeen) ∧
  (∀ s, s.hif.walec = .running → s.spr.standby = false → s.spr.cpu = .triple → Leads (.lockstepMismatch none) s fun t =>
    t.hif.walec = .restarting ∧ t.walec.restartCause = 2 ∧ t.spr.lastMismatch = tb0 s) ∧
  (∀ o s, s.hif.walec = .running → s.spr.standby = false → s.spr.cpu = .pair → Leads (.lockstepMismatch o) s fun t =>
    t.hif.walec = .restarting ∧ t.walec.restartCause = 2 ∧ (true, 43) ∈ t.pwr.queue) ∧
  (∀ o s, s.hif.walec = .running → s.spr.standby = false → s.spr.cpu = .joined → Leads (.lockstepMismatch o) s fun t =>
    t.hif.walec = .restarting ∧ t.walec.restartCause = 2 ∧ 2 ∈ t.spr.exhausted) ∧
  (∀ s, s.spr.cpu = .triple → s.tim.bench = .off → Leads .tripleExit s fun t => t.spr.cpu = .pair ∧ (false, 43) ∈ t.pwr.queue)

/-- POWER_ON_RESET returns the blocks named in the statement to their reset content, and keeps what NOR, eMMC and fuses hold of those named (R564). PORST_RELEASE samples the straps, and selects the preferred reference where it is
qualified (R193, R552, R651); a power-on reset that COLD asks for samples them at once. The straps say which links are enabled (R295) and which clusters have no row and are spares after C12 and C13 (R120). WARM_RESET stops the raster, switches every cluster off, ends the witness view, is counted and has Walec boot, or stay in RESTARTING while a supply holds it (R120, R566, R568, R582). SUPPLY_EXCURSION is one that its supply holds
until SUPPLY_RECOVERED (R568), and WARDROBE_RESET one after 10 s of RESTARTING (R618).
Where the rules leave a reading open, the model's own: log 7, 8, 21, 40, 63. -/
def Obligations.PowerOnAndWarmReset : Prop :=
  (∀ c s, Leads (.powerOnReset c) s fun t =>
    t.cmp = State.reset.cmp ∧ t.geom = State.reset.geom ∧ t.sig = State.reset.sig ∧
    t.dec = State.reset.dec ∧ t.enc = State.reset.enc ∧ t.blt = State.reset.blt ∧ t.dfl = State.reset.dfl ∧ SameDram State.reset t ∧
    t.bureau.ring = [] ∧ t.bureau.segments = s.bureau.segments ∧ t.spr.retired = s.spr.retired ∧ t.spr.repairs = s.spr.repairs ∧
    t.pwr.last = lastCode c ∧ t.clk.chosen = false ∧
    (c ≠ .cold → t.ray = State.reset.ray ∧ t.tlk = State.reset.tlk ∧ t.pwr.porst = true) ∧
    (c = .cold → t.pwr.porst = false ∧ t.tim.tileStrap = s.pins.tileCfg ∧
      t.ray = { State.reset.ray with spares := [12, 13] ++ List.range' (3 * (s.pins.tileCfg + 1)) (12 - 3 * (s.pins.tileCfg + 1)) })) ∧
  (∀ n p s, s.pwr.porst = true → Leads (.porstRelease n p) s fun t =>
    t.pwr.porst = false ∧ t.tim.tileStrap = n % 4 ∧ t.clk.refPri = p ∧ t.clk.selected = p ∧ ((refOf s p).qual = true → t.clk.chosen) ∧
    t.ray.spares = [12, 13] ++ List.range' (3 * (n % 4 + 1)) (12 - 3 * (n % 4 + 1)) ∧
    ∀ k < 96, (linkOf t k).enabled = decide (k / 8 < 3 * (n % 4 + 1))) ∧
  (∀ c s, s.pwr.porst = false → s.clk.chosen = true → Leads (.warmReset c) s fun t =>
    t.tim.rasterRun = false ∧ t.ray.clusters = [] ∧ t.ray.source = 255 ∧ t.pwr.warmCount = satAdd 16 s.pwr.warmCount 1 ∧ t.pwr.warmSeen ∧
    t.pwr.last = lastCode c ∧ t.hif.walec = (if s.pwr.supplyHold.isSome then .restarting else .booting) ∧ t.hif.powerDown = false) ∧
  (∀ n s, s.pwr.porst = false → s.clk.chosen = true → Leads (.supplyExcursion n) s fun t =>
    t.pwr.supplyHold = some n ∧ t.pins.fault ∧ t.hif.walec = .restarting ∧ t.pwr.supplySeen ∧ t.tim.rasterRun = false) ∧
  (∀ n s, s.pwr.supplyHold = some n → Leads .supplyRecovered s fun t => t.pwr.supplyHold = none ∧ t.hif.walec = .booting) ∧
  (∀ u s, s.walec.stoppedAt = some u → s.hif.walec = .restarting → s.pwr.supplyHold = none → Leads .wardrobeReset s fun t =>
    t.pwr.lastWardrobe ∧ t.pwr.warmCount = satAdd 16 s.pwr.warmCount 1 ∧ t.hif.walec = .booting)

/-- MISSING_PULSE and WINDOW_TRIP disqualify their input (R550, R551), MISSING_PULSE with the loss of its port's link (R549), and, on the selected one, begin a stop toward the other or a hold (R554, R555); REF_QUALIFIED qualifies an input and ends a hold (R551, R555); REF_RESTART ends the stop on the new
reference (R554, R579); HOLD_EXPIRY sets HOLD_EXPIRED and FAULT# with the sites in self-refresh (R557); PLL_LOCK_LOSS outside a stop is shown (R581).
Where the rules leave a reading open, the model's own: log 2, 10, 19. -/
def Obligations.ReferenceInputs : Prop :=
  (∀ r s, Leads (.missingPulse r) s fun t => (refOf t r).miss ∧ (refOf t r).qual = false ∧ (refOf t r).lock = false ∧ refOf t r.other = refOf s r.other ∧
    (portOf t r).linkUp = false) ∧
  (∀ r s, Leads (.windowTrip r) s fun t => (refOf t r).win ∧ (refOf t r).qual = false ∧ refOf t r.other = refOf s r.other) ∧
  (∀ r c s, (c = .missingPulse r ∨ c = .windowTrip r) → s.clk.chosen = true → s.clk.phase = .running → s.clk.selected = r → Leads c s fun t =>
    t.clk.dest = r.other ∧ t.clk.phase = (if (refOf s r.other).qual then .switching else .holding) ∧
    ((refOf s r.other).qual = false → t.clk.holdSeen)) ∧
  (∀ r s, (refOf s r).qual = false → s.clk.chosen = true → s.clk.phase ≠ .expired → Leads (.refQualified r) s fun t =>
    (refOf t r).qual ∧ (refOf t r).lock ∧ (s.clk.phase = .holding → t.clk.phase = .switching ∧ t.clk.dest = r)) ∧
  (∀ g s, s.clk.phase = .switching → Leads (.refRestart g) s fun t => t.clk.phase = .running ∧ t.clk.selected = s.clk.dest ∧
    t.clk.gapNs = min g (2 ^ 32 - 1) ∧ t.tim.tb0GapSeen ∧ (s.clk.dest ≠ s.clk.selected → t.clk.failoverSeen ∧ t.clk.failovers = satAdd 8 s.clk.failovers 1)) ∧
  (∀ s, s.clk.phase = .holding → Leads .holdExpiry s fun t => t.clk.phase = .expired ∧ t.clk.holdExpired ∧ t.pins.fault ∧ (∀ k ∈ t.clk.locks, 8 < k) ∧
    (s.dmc.mode = .running → t.dmc.mode = .selfRefresh)) ∧
  (∀ k s, s.clk.phase = .running → s.clk.locks.contains k = true → Leads (.pllLockLoss k) s fun t => k ∉ t.clk.locks ∧ t.clk.lockLostSeen)

/-! ### Registers -/

/-- A write to a register of BAR0 (R450, R451, R455, R458, R480, R482, R485): fields that take a value take it, W1C bits clear where 1 is written, reserved
and read-only places change nothing, a narrow doorbell is refused, and the request area is written only while no request is there. The write-only registers act as their commands do: CAPTURE (R520, R543), the actions of PWR_RESET_CTRL (R583) and BOT_RECOVERY (R637).
Where the rules leave a reading open, the model's own: log 48, 68. -/
def Obligations.Registers : Prop :=
  (∀ (p : Port) (v : Nat) (s : State), portOpen s p = true →
    (Leads (.registerWrite p 0x1008 8 v) s fun t => (portOf t p).bar2Base = bits v 39 20 ∧ SameBut [.ports, .sent] s t) ∧
    (Leads (.registerWrite p 0x1000 8 v) s fun t => (portOf t p).lateSeen = w1c v 5 (portOf s p).lateSeen ∧
      (portOf t p).dbRefusedSeen = w1c v 4 (portOf s p).dbRefusedSeen ∧ (portOf t p).staleRespSeen = w1c v 3 (portOf s p).staleRespSeen ∧
      (portOf t p).bar2Seen = w1c v 2 (portOf s p).bar2Seen ∧ (portOf t p).resetSeen = w1c v 1 (portOf s p).resetSeen) ∧
    (Leads (.registerWrite p 0x1030 8 v) s fun t => (portOf t p).intEn = bits v 7 0 ∧ (portOf t p).intVector = bits v 26 16) ∧
    (Leads (.registerWrite p 0x110000 8 v) s fun t => t.bot.fallbackSeen = w1c v 6 s.bot.fallbackSeen ∧
      t.bot.verifyFailSeen = w1c v 5 s.bot.verifyFailSeen ∧ t.bot.tornSeen = w1c v 4 s.bot.tornSeen ∧ t.bot.emmcErrSeen = w1c v 3 s.bot.emmcErrSeen ∧
      t.bot.mode = s.bot.mode) ∧
    (∀ off w, placeOfReg off = .reserved ∨ (∃ q, placeOfReg off = .qstat q) ∨ (∃ k, placeOfReg off = .pba k) →
      Leads (.registerWrite p off w v) s fun t => SameBut [.ports, .sent] s t ∧ portOf t p.other = portOf (settle s) p.other) ∧
    (∀ off q, placeOfReg off = .qdb q → Leads (.registerWrite p off 4 v) s fun t =>
      queueOf t q = { queueOf s q with dbRefused := satAdd 8 (queueOf s q).dbRefused 1 } ∧ (portOf t p).dbRefusedSeen) ∧
    (∀ off q, placeOfReg off = .qdb q → exec (.registerWrite p off 8 v) s = exec (.sqDoorbell p q v) s) ∧
    (∀ n i w, n < 32 → 0x40 ≤ i → i < 0x400 → w = 4 ∨ w = 8 → i % w = 0 → ((drawerOf s p n).state = .idle ∨ (drawerOf s p n).state = .response) →
      Leads (.registerWrite p (0x10000 + 0x800 * n + i) w v) s fun t =>
        (drawerOf t p n).req = patchBytes (drawerOf s p n).req (i - 0x40) (leBytes w v) ∧ (drawerOf t p n).state = (drawerOf s p n).state) ∧
    (∀ n i w, n < 32 → 0x40 ≤ i → i < 0x400 → w = 4 ∨ w = 8 → i % w = 0 → ((drawerOf s p n).state = .request ∨ (drawerOf s p n).state = .busy) →
      Leads (.registerWrite p (0x10000 + 0x800 * n + i) w v) s fun t =>
        drawerOf t p n = { drawerOf s p n with refused := satAdd 16 (drawerOf s p n).refused 1 })) ∧
  (∀ (p : Port) (v : Nat) (s : State), portOpen s p = true →
    exec (.registerWrite p 0x108060 8 v) s = exec (.capture p v) s ∧
    (resetAction s p v 0 = true → exec (.registerWrite p 0x10A008 8 v) s = exec (.warm p v) s) ∧
    (resetAction s p v 1 = true → exec (.registerWrite p 0x10A008 8 v) s = exec (.cold p v) s) ∧
    (resetAction s p v 2 = true → exec (.registerWrite p 0x10A008 8 v) s = exec (.switchRef p v) s) ∧
    exec (.registerWrite p 0x110008 8 v) s = exec (.botRecoveryWrite p v) s)

/-- The reset requests of a port that holds OWNER with a live lease (R553, R583): WARM, COLD and SWITCH_REF. With both images refused, port A's write of BOT_RECOVERY has the ROM verify the image in device DRAM (R635, R637): one that passes
runs as RECOVERY, one that does not leaves the ROM in FAILED.
Where the rules leave a reading open, the model's own: log 7, 63. -/
def Obligations.ResetRequestsAndRecovery : Prop :=
  (∀ (p : Port) (v : Nat) (s : State), portOpen s p = true →
    (resetAction s p v 0 = true → Leads (.warm p v) s fun t =>
      t.pwr.last = lastCode .warm ∧ t.pwr.lastPort = p.num ∧ t.pwr.warmSeen ∧ t.spr.plannedStop ∧ t.tim.rasterRun = false) ∧
    (resetAction s p v 1 = true → Leads (.cold p v) s fun t =>
      t.pwr.last = lastCode .cold ∧ t.pwr.lastPort = p.num ∧ t.pwr.porst = false ∧ t.spr.plannedStop ∧ t.clk.chosen = false ∧
      SameDram State.reset t ∧ t.sig = State.reset.sig ∧ t.cmp = State.reset.cmp ∧ t.tim.tileStrap = s.pins.tileCfg ∧ t.spr.retired = s.spr.retired) ∧
    (resetAction s p v 2 = true → s.clk.phase = .running → s.clk.chosen = true → (refOf s s.clk.selected.other).qual = true →
      Leads (.switchRef p v) s fun t => t.clk.phase = .switching ∧ t.clk.dest = s.clk.selected.other ∧ t.clk.selected = s.clk.selected)) ∧
  (∀ (v : Nat) (s : State), portOpen s .a = true → s.bot.mode = .failed →
    (imageCheck s (load s 0 (bits v 31 0)) = none → Leads (.botRecoveryWrite .a v) s fun t =>
      t.bot.mode = .recovery ∧ t.hif.walec = .running ∧ t.bot.version = imageVersion (load s 0 (bits v 31 0)) ∧ t.tim = s.tim) ∧
    (∀ c, imageCheck s (load s 0 (bits v 31 0)) = some c → Leads (.botRecoveryWrite .a v) s fun t =>
      t.bot.mode = .failed ∧ t.bot.verifyFailSeen ∧ t.hif.walec = s.hif.walec ∧ t.bureau.nextSeq = s.bureau.nextSeq + 1))

/-! ### Start, raster and modes -/

/-- CONFIGURATION_CONFIRM: the configuration is confirmed or refused by the tile strap (R194). WALEC_READY: the booting image declares itself ready (R35, R517). RASTER_START, under the conditions named: the raster starts in FLAT-60 or, after a reset that
met Bench, in Bench with a valid bitmap; without one it stays stopped with FAULT# and its cause (R195, R217); one whose DRAM has failed stays stopped (R405), and a machine too hot at its first start stays stopped with POWERUP_HOLD (R602). TRIAL_CONFIRM ends the trial (R641).
Where the rules leave a reading open, the model's own: log 41, 65, 84, 101, 106, 112. -/
def Obligations.StartOfTheMachine : Prop :=
  (∀ r s, s.bot.install = some r → walecWorks s = true → clocked s = true → s.tim.confirmed = false → r.tileCfg = s.tim.tileStrap →
    Leads .configurationConfirm s fun t => t.tim.confirmed ∧ t.tim.configMismatch = false ∧ t.tim.confirmedAt = some (tb0 s)) ∧
  (∀ r s, s.bot.install = some r → walecWorks s = true → clocked s = true → s.tim.confirmed = false → r.tileCfg ≠ s.tim.tileStrap →
    Leads .configurationConfirm s fun t => t.tim.confirmed = false ∧ t.tim.configMismatch ∧ t.pins.fault) ∧
  (∀ s, s.bot.mode = .loading → s.hif.walec ≠ .running → clocked s = true → Leads .walecReady s fun t =>
    t.hif.walec = .running ∧ t.bot.mode = .running ∧ t.walec.stoppedAt = none ∧ t.walec.timeoutSeen = false ∧ t.pwr.resetEntry = false) ∧
  (∀ s, s.hif.walec = .running → s.bot.mode = .running → s.tim.confirmed = true → s.tim.rasterRun = false → s.walec.powerDown = false → clocked s = true →
    clustersSettled s = true → dramForStart s = true → (s.tim.frameCount = 0 ∧ tooHot s = true → Leads .rasterStart s fun t => t.tim.rasterRun = false ∧ t.thm.powerupHold) ∧
      (¬(s.tim.frameCount = 0 ∧ tooHot s = true) → s.tim.restartBench = false → Leads .rasterStart s fun t =>
        t.tim.rasterRun ∧ t.tim.starting ∧ t.tim.latched = false ∧ t.tim.mode = 6 ∧ t.tim.bench = .off ∧ t.spr.plannedStop = false) ∧
      (∀ b, ¬(s.tim.frameCount = 0 ∧ tooHot s = true) → s.tim.restartBench = true → validBitmap (waitTb3 s) = some b → Leads .rasterStart s fun t =>
        t.tim.rasterRun ∧ t.tim.starting ∧ t.tim.mode = 0x10 ∧ t.tim.bench = .running ∧ t.tim.bitmap = some b) ∧
      (¬(s.tim.frameCount = 0 ∧ tooHot s = true) → s.tim.restartBench = true → validBitmap (waitTb3 s) = none → Leads .rasterStart s fun t =>
        t.tim.rasterRun = false ∧ t.pins.fault ∧ t.walec.cause = some .noBitmap)) ∧
  (∀ s, s.dmc.mode = .failed → s.tim.rasterRun = false → Leads .rasterStart s fun t => t.tim.rasterRun = false) ∧
  (∀ u s, s.bot.trialSince = some u → s.bot.trial = true → s.bot.mode = .running → s.hif.walec = .running → Leads .trialConfirm s fun t =>
    t.bot.trial = false ∧ t.bot.trialSince = none ∧ t.bot.attempted = none ∧ t.bot.image = s.bot.image)

/-- LINE_START: the line that is due on the grid of R191 becomes the line in progress; PANEL_SYNC is high in the 8 line periods from line 0 of subframe A and in the 4 from line 0 of subframe B, and LENS_PH takes the phase at line 0 and the coming
subframe's phase LENS_LEAD lines before it (R197, R198). START_LATCH is the latch instant before the first tick (R675). FRAME_TICK, after the last line or at the start, begins the next frame: the count, line 0 and TIM_FLIP_TB3 (R22, R196, R200).
Where the rules leave a reading open, the model's own: log 41, 80, 81. -/
def Obligations.Raster : Prop :=
  (∀ sub line obs s, lineDue s sub line = true → Leads (.lineStart sub line obs) s fun t =>
    t.tim.line = line ∧ t.tim.sub = sub ∧ t.tim.lineRaised ∧ t.tim.frameCount = s.tim.frameCount ∧ t.tim.mode = s.tim.mode ∧ t.tim.rasterRun = s.tim.rasterRun ∧
    (line = 0 → t.tim.panelSync ∧ t.tim.syncLeft = (if sub = 0 then 8 else 4) ∧ t.tim.lensPh = (phaseOf s.tim.mode sub == 1)) ∧
    (line ≠ 0 → t.tim.panelSync = (s.tim.panelSync && decide (1 < s.tim.syncLeft)) ∧ t.tim.lensPh =
      (if line + s.tim.lensLead = 1500 then (if sub + 1 < subframes s.tim.mode then phaseOf s.tim.mode (sub + 1) else 0) == 1 else s.tim.lensPh))) ∧
  (∀ s, s.tim.rasterRun = true → s.tim.starting = true → s.tim.latched = false → Leads .startLatch s fun t =>
    t.tim.latched ∧ t.tim.starting ∧ t.tim.rasterRun ∧ t.tim.frameCount = s.tim.frameCount ∧ t.tim.mode = s.tim.mode) ∧
  (∀ s, s.tim.rasterRun = true → (s.tim.starting = true ∧ s.tim.latched = true ∨
      s.tim.starting = false ∧ s.tim.lineRaised = true ∧ s.tim.line = 1499 ∧ subframes s.tim.mode ≤ s.tim.sub + 1) →
    Leads .frameTick s fun t => t.tim.frameCount = (s.tim.frameCount + 1) % 2 ^ 64 ∧ t.tim.line = 0 ∧ t.tim.sub = 0 ∧ t.tim.lineRaised = false ∧
      t.tim.latched = false ∧ t.tim.starting = false ∧ t.tim.flipTb3 = s.tim.nextTick % 2 ^ 80 ∧ t.tim.rasterRun)

/-- BENCH_EXIT_READY: at a latch instant, once everything an exit needs is up, the change to the return mode is entered (R215, R216); BENCH_EXIT_TIMEOUT: after 1.5 s the 9610 stays in Bench, FAULT# is set and the cause is kept for DEVICE (R216).
BENCH_SCHEDULE_ACTION, at the time of an entry, acts as a MODE.SET: the entry waits to be tried again when that answers ST_BUSY and is missed when it answers another error, and SCHEDULE_MISSED gives it up (R218).
Where the rules leave a reading open, the model's own: log 10, 54, 84. -/
def Obligations.BenchAndSchedule : Prop :=
  (∀ s, s.tim.bench = .leaving → exitReady s = true → pendingMode s = none → s.tim.latched = true → Leads .benchExitReady s fun t =>
    t.tim.pending = s.tim.pending ++ [{ frame := gridFrame s (nextFrame s), change := .mode s.tim.benchReturn, origin := s.tim.benchOrigin }]) ∧
  (∀ u s, s.tim.leaveSince = some u → s.tim.bench = .leaving → pendingMode s = none → Leads .benchExitTimeout s fun t =>
    t.tim.bench = .running ∧ t.tim.leaveSince = none ∧ t.tim.pending = s.tim.pending ∧ t.pins.fault ∧ t.walec.cause = some (exitLacks (advanceTo0 (u + 1500000000) s))) ∧
  (∀ i e s u r, s.hif.walec = .running → scheduleOf s i = some e → e.retrySince = none → u = advanceToNs e.base e.first s → r = scheduleRequest i e u →
    (r.1 = .ok → Leads (.benchScheduleAction i) s fun t => scheduleOf t i =
      if e.period = 0 then none else some { e with first := (e.first + e.period * 1000000000) % 2 ^ 64, retrySince := none }) ∧
    (r.1 = .busy → Leads (.benchScheduleAction i) s fun t => scheduleOf t i = some { e with retrySince := some (tb0 u) } ∧ t.tim.pending = u.tim.pending) ∧
    (r.1 ≠ .ok → r.1 ≠ .busy → Leads (.benchScheduleAction i) s fun t => t.bureau.nextSeq = s.bureau.nextSeq + 1 ∧ t.tim.pending = u.tim.pending)) ∧
  (∀ i e w s, scheduleOf s i = some e → e.retrySince = some w → Leads (.scheduleMissed i) s fun t => t.bureau.nextSeq = s.bureau.nextSeq + 1 ∧
    scheduleOf t i = if e.period = 0 then none else some { e with first := (e.first + e.period * 1000000000) % 2 ^ 64, retrySince := none })

/-! ### Power -/

/-- DOMAIN_SWITCH_ON: the request at the sequencer's head starts the domain, but for a retired unit or a domain that is on (R569, R571, R613). DOMAIN_READY: the domain is ready and loses its mark, and the block named in the clause is idle, but for a FAULTED core (R331, R570, R571).
DOMAIN_SWITCH_OFF completes a switch-off once the block is idle; a FAULTED cluster reads so still (R569, R164). DOMAIN_FAULT: a domain that fails goes off and is marked and makes its entry, and a cluster whose domain fails is FAULTED (R571; log 114). While CK_AON runs IOUT_POLL leaves I_PANEL as the sum over the entries that count, keeps a reading and sets BUS_ERR_SEEN for a read that fails (R574), and STATUS_POLL keeps the status of an entry or sets BUS_ERR_SEEN (R574). SMBALERT keeps the status of the entry at the
address that answers, or is stuck where none does; ALERT_STUCK_POLL takes the status of an entry and SMBALERT_RELEASE ends the alert (R575).
Where the rules leave a reading open, the model's own: log 62, 66, 114. -/
def Obligations.PowerDomainsAndPmbus : Prop :=
  (∀ d s, sequencerHead s = some (true, d) → Leads (.domainSwitchOn d) s fun t => t.pwr.queue = s.pwr.queue.drop 1 ∧
    domainOf t d = (if ((d < 14 ∨ d = 16 ∨ d = 17) ∧ s.spr.retired.contains d = true) ∨ domainOn s d = true then domainOf s d else .coming) ∧
    ∀ k, k ≠ d → domainOf t k = domainOf s k) ∧
  (∀ d bad s, domainOf s d = .coming → Leads (.domainReady ⟨d, bad⟩) s fun t => domainOf t d = .ready ∧ d ∉ t.pwr.failedMarks ∧ t.pwr.queue = s.pwr.queue ∧
    (16 ≤ d → d ≤ 17 → (coreOf t (d - 16)).state = if (coreOf s (d - 16)).state = .faulted then .faulted else .idle) ∧ (d = 19 → t.blt.state = .idle) ∧ (d = 20 → t.dfl.state = .idle) ∧
    (∀ r < configRows s, d < 14 → (rowOf s r).cluster = d → clusterOf t d = .bound)) ∧
  (∀ d s, sequencerHead s = some (false, d) → blockIdle s d = true → Leads (.domainSwitchOff d) s fun t =>
    domainOf t d = .off ∧ t.pwr.queue = s.pwr.queue.drop 1 ∧ (∀ k, pllOf d = some k → k ∉ t.clk.locks) ∧
    (d < 14 → clusterOf t d = if clusterOf s d = .faulted then .faulted else .off)) ∧
  (∀ d k s, domainOf s d = .coming → Leads (.domainFault d k) s fun t => domainOf t d = .off ∧ d ∈ t.pwr.failedMarks ∧
    (d < 14 → clusterOf t d = .faulted) ∧
    (14 ≤ d → d ≠ 16 → d ≠ 17 → d ≠ 43 → t.bureau.nextSeq = s.bureau.nextSeq + 1 ∧ t.pwr.queue = s.pwr.queue)) ∧
  (∀ rs s, clocked s = true → Leads (.ioutPoll rs) s fun t => t.pwr.iPanel =
    ((t.pwr.devices.filter fun d => d.2.counts && d.2.role ≠ 0).map fun d => panelShare t d.2).sum % 2 ^ 32) ∧
  (∀ n v s, clocked s = true → Leads (.ioutPoll [{ entry := n, value := some v }]) s fun t => (deviceOf t n).iout = some (v, tb0 s)) ∧
  (∀ n s, clocked s = true → Leads (.ioutPoll [{ entry := n, value := none }]) s fun t => t.pwr.busErrSeen ∧ t.pwr.devices = s.pwr.devices) ∧
  (∀ n w v k s, clocked s = true → Leads (.statusPoll [(n, some (w, v, k))]) s fun t => (deviceOf t n).statusWord = w % 65536 ∧
    (deviceOf t n).vout = v % 65536 ∧ (deviceOf t n).temp = k % 65536 ∧ (deviceOf t n).iout = (deviceOf s n).iout) ∧
  (∀ n s, clocked s = true → Leads (.statusPoll [(n, none)]) s fun t => t.pwr.busErrSeen ∧ t.pwr.devices = s.pwr.devices) ∧
  (∀ st s, s.pwr.porst = false → Leads (.smbalert none st) s fun t => t.pwr.alertStuck ∧ t.pwr.alertSeen ∧ t.pwr.smbalert ∧ .alertResponse ∈ t.sent) ∧
  (∀ n w s, s.pwr.porst = false → (deviceOf s n).role ≠ 0 → Leads (.smbalert (some (deviceOf s n).addr) [(n, w)]) s fun t =>
    t.pwr.alertStatus = w % 65536 ∧ t.pwr.alertEntry = n ∧ t.pwr.alertValid ∧ t.pwr.alertSeen ∧ (deviceOf t n).statusWord = w % 65536) ∧
  (∀ n w s, s.pwr.alertStuck = true → Leads (.alertStuckPoll [(n, w)]) s fun t => (deviceOf t n).statusWord = w % 65536 ∧ t.pwr.alertStuck) ∧
  (∀ s, Leads .smbalertRelease s fun t => t.pwr.smbalert = false ∧ t.pwr.alertStuck = false ∧ t.pwr.devices = s.pwr.devices)

/-- Of a row that Bench does not keep off, POWER_GOOD asks for the link domain (R214, R576); PGOOD_TIMEOUT fails the row, which goes off (R577); TILE_SUPPLY_OFF ends the switch-off 40 ms after DARK and switches the link domain off (R576); SUPPLY_RETRY switches a failed row on once more (R577);
ROW_SHED sheds the heaviest row and ROW_RESTORED switches a shed row on again (R578).
Where the rules leave a reading open, the model's own: log 10, 62. -/
def Obligations.RowSupplies : Prop :=
  (∀ r s, (supplyOf s r).state = .waiting → rowWanted s r = true → Leads (.powerGood r) s fun t => (supplyOf t r).state = .on ∧ (true, 30 + r) ∈ t.pwr.queue) ∧
  (∀ r s, (supplyOf s r).state = .waiting → Leads (.pgoodTimeout r) s fun t => (supplyOf t r).state = .goingOff ∧ (supplyOf t r).failed ∧ t.pins.fault ∧
    (supplyOf t r).failures = tb0 t :: (supplyOf s r).failures) ∧
  (∀ r s, (supplyOf s r).state = .goingOff → Leads (.tileSupplyOff r) s fun t => (supplyOf t r).state = .off ∧ (false, 30 + r) ∈ t.pwr.queue ∧
    (supplyOf t r).failed = (supplyOf s r).failed) ∧
  (∀ r s, (supplyOf s r).failed = true → (supplyOf s r).state = .off → (supplyOf s r).barred = false → rowWanted s r = true → Leads (.supplyRetry r) s fun t =>
    (supplyOf t r).state = .waiting ∧ (supplyOf t r).failed = false ∧ (supplyOf t r).failures = (supplyOf s r).failures) ∧
  (∀ u r s, shedTime s = some u → heaviestRow (advanceTo0 u s) = some r → Leads .rowShed s fun t =>
    (supplyOf t r).shed ∧ ((supplyOf t r).state = .goingOff ∨ (supplyOf t r).state = .off) ∧ t.pwr.shedSeen ∧ t.pwr.shedding = some (tb0 t)) ∧
  (∀ r u s, s.pwr.lowSince = some u → (supplyOf s r).shed = true → (supplyOf s r).state = .off → (supplyOf s r).barred = false → rowWanted s r = true →
    Leads (.rowRestored r) s fun t => (supplyOf t r).shed = false ∧ (supplyOf t r).state = .waiting)

/-! ### Thermal management -/

/-- SENSOR_CONVERSION of an enabled sensor while CK_AON runs: a valid sample is the reading and clears the run of invalid ones; an invalid one counts, and the third in a row fails the sensor, whose
valid partner stands for it or which is held (R587 to R589, R597, R598). PAIR_DISAGREE marks both partners and makes an entry (R591). STEPPER_EVAL while CK_AON runs: a PANEL group at THROTTLE or above goes down one current step, one at THROTTLE - HYST_THROTTLE or below goes up one, each after its time and within its
limits, one between stays, and the clock step that waits is the lowest of the DEVICE groups (R593, R596).
Where the rules leave a reading open, the model's own: log 5, 10, 53. -/
def Obligations.SensorsAndStepper : Prop :=
  (∀ n raw v b s, clocked s = true → enabledSensor n (sensorOf s n) = true → convertRaw n (sensorOf s n) raw = (some v, b) → sampleValid (sensorOf s n) v b = true →
    Leads (.sensorConversion n raw) s fun t => (sensorOf t n).reading = v ∧ (sensorOf t n).lastValid = some v ∧ (sensorOf t n).badRun = 0 ∧
      ((sensorOf s n).state = .valid → (sensorOf t n).state = .valid ∧ (sensorOf t n).value = v)) ∧
  (∀ n raw v b s, clocked s = true → enabledSensor n (sensorOf s n) = true → convertRaw n (sensorOf s n) raw = (some v, b) → sampleValid (sensorOf s n) v b = false →
    Leads (.sensorConversion n raw) s fun t => (sensorOf t n).badRun = (sensorOf s n).badRun + 1 ∧ (sensorOf t n).lastValid = (sensorOf s n).lastValid ∧
      ((sensorOf s n).state = .valid → (sensorOf s n).badRun < 2 → (sensorOf t n).state = .valid ∧ (sensorOf t n).value = (sensorOf s n).value) ∧
      ((sensorOf s n).state = .valid → 2 ≤ (sensorOf s n).badRun → (sensorOf t n).failSeen ∧ t.thm.sensorFailSeen ∧
        (sensorOf t n).state = if partnerValid s n then .failed else .held)) ∧
  (∀ n k u s, (sensorOf s n).differSince = some u → (sensorOf s n).partner = some k → pairDiffers s n = true → (sensorOf s n).disagree = false →
    Leads (.pairDisagree n) s fun t => (sensorOf t n).disagree ∧ (sensorOf t k).disagree ∧ t.bureau.nextSeq = s.bureau.nextSeq + 1) ∧
  (∀ s : State, clocked s = true → Leads .stepperEval s fun t => t.thm.clkPending = clockWanted t ∧
    ∀ g x, g < 8 → x = tempGroup s g → x.kind = 2 → x.invalid = false → (groupReading s g).isSome = true →
      (x.throttleT ≤ x.reading → 6 < x.curStep → sinceChange s x x.downMs = true →
        (tempGroup t g).curStep = x.curStep - 1 ∧ (tempGroup t g).throttleSeen ∧ (tempGroup t g).lastChange = some (tb0 s)) ∧
      (x.reading < x.throttleT → x.reading ≤ x.throttleT - x.hystThrottle → x.curStep < 16 → sinceChange s x x.upMs = true → holdBlock s g = false →
        (tempGroup t g).curStep = x.curStep + 1 ∧ (tempGroup t g).lastChange = some (tb0 s)) ∧
      (x.throttleT - x.hystThrottle < x.reading → x.reading < x.throttleT → tempGroup t g = x))

/-- The shutdown sequence while CK_AON runs (R601): SHUTDOWN_NOR_IDLE and SHUTDOWN_NOR_TIMEOUT begin the record in the ready slot, or go on to THERM_TRIP# where no slot is ready; SHUTDOWN_RECORD_WRITTEN leaves the record in the slot and asserts THERM_TRIP#
(R603); and SHUTDOWN_TRIP_TIMEOUT asserts it 10 ms after the origin in any case.
Where the rules leave a reading open, the model's own: log 10, 98. -/
def Obligations.ThermalShutdown : Prop :=
  (∀ us e x k s, s.thm.shutdown = some x → clocked s = true → x.step = .waitNor → us ≤ s.thm.norProgMax → readySlot s = some k → Leads (.shutdownNorIdle us e) s fun t =>
    (∃ y, t.thm.shutdown = some y ∧ y.step = .writing ∧ y.waitUs = us ∧ y.cause = x.cause ∧ y.origin = x.origin) ∧ Tbl.get t.thm.slots .empty k = .torn [] ∧
    t.pins.thermTrip = s.pins.thermTrip) ∧
  (∀ us e x s, s.thm.shutdown = some x → clocked s = true → x.step = .waitNor → us ≤ s.thm.norProgMax → readySlot s = none → Leads (.shutdownNorIdle us e) s fun t =>
    t.pins.thermTrip ∧ t.thm.slots = s.thm.slots ∧ t.thm.shutdown.isSome) ∧
  (∀ x k s, s.thm.shutdown = some x → clocked s = true → x.step = .waitNor → readySlot s = some k → Leads .shutdownNorTimeout s fun t =>
    (∃ y, t.thm.shutdown = some y ∧ y.step = .writing ∧ y.waitUs = s.thm.norProgMax + 100) ∧ Tbl.get t.thm.slots .empty k = .torn []) ∧
  (∀ x k s, s.thm.shutdown = some x → clocked s = true → x.step = .writing → readySlot s = some k → Leads .shutdownRecordWritten s fun t =>
    t.pins.thermTrip ∧ Tbl.get t.thm.slots .empty k = .valid x.record ∧ k ∉ t.thm.slotReady) ∧
  (∀ x s, s.thm.shutdown = some x → clocked s = true → Leads .shutdownTripTimeout s fun t => t.pins.thermTrip ∧ t.thm.shutdown = some x)

/-! ### Output stages -/

/-- STRESS_UPDATE first asks for the swap of the working bank at the next frame tick, and once that has been done folds the idle bank, which is then zero, and ends (R243, R244; without an ageing model no target is installed). LEDGER_PERSIST writes the long bank
with its header into a slot (R251). GEOM_DED_RELOAD with a file that passes its checks and copies that match plans the swap of R68; with a file that fails them it sets EMMC_ERR_SEEN and plans none (the model's choice, log 87);
a failed copy in half 1 is loaded again from the file of its version (R62).
Where the rules leave a reading open, the model's own: log 10, 55, 87, 91. -/
def Obligations.StressLedger : Prop :=
  (∀ s, s.hif.walec = .running → s.tim.bench = .off → s.out.updateStep = none → Leads .stressUpdate s fun t => t.out.updateStep = some 1 ∧ t.out.workBank = s.out.workBank ∧
    t.tim.pending = s.tim.pending ++ [{ frame := nextFrame s, change := .workBank, origin := byWalec }]) ∧
  (∀ k s, s.hif.walec = .running → s.tim.bench = .off → s.out.updateStep = some k → (s.tim.pending.any (·.change == .workBank)) = false →
    Leads .stressUpdate s fun t => t.out.updateStep = none ∧
      (s.out.model = none → t.tim = s.tim ∧ t.out.planes = s.out.planes ∧ t.out.workBank = s.out.workBank ∧
        ∀ copy < 2, Tbl.get t.out.wb [] (2 * copy + (1 - s.out.workBank)) = [])) ∧
  (∀ s, s.hif.walec = .running → s.bot.emmcReady = true → s.out.disagree = false → s.tim.bench = .off → Leads .ledgerPersist s fun t =>
    t.out.sincePersist = 0 ∧ t.out.lb = s.out.lb ∧ ∃ k x, k < 2 ∧ Tbl.find? k t.out.slots = some x ∧ x.bank = longBank s 0 ∧
      x.head = ledgerHead (s.out.model.elim 0 (·.version)) (s.geom.panelId.getD 0) s.tim.frameCount (tbNs t 1) (bankCrc (longBank s 0))) ∧
  (∀ f s, s.geom.dedSeen = true → s.hif.walec = .running → pendingGeom s = none → s.bot.emmcReady = true → (∀ b < 2, s.geom.badCopies.contains (2 + b) = false) →
    (geomFileStatus s f (activeGeom s).version = .ok → leAt f 4 4 = (activeGeom s).version → Leads (.geomDedReload ⟨f, []⟩) s fun t =>
      t.tim.pending = s.tim.pending ++ [{ frame := nextFrame s, change := .geomSwap (leAt f 4 4), origin := byWalec }] ∧ t.geom.active = s.geom.active) ∧
    (∀ bad, geomFileStatus s f (activeGeom s).version ≠ .ok → Leads (.geomDedReload ⟨f, bad⟩) s fun t =>
      t.bot.emmcErrSeen ∧ t.tim.pending = s.tim.pending ∧ t.geom = s.geom)) ∧
  (∀ f b s, b < 2 → s.hif.walec = .running → s.bot.emmcReady = true → s.geom.dedSeen = false → s.geom.badCopies.contains (2 + b) = true →
    geomFileStatus s f (geomBank s b).version = .ok → leAt f 4 4 = (geomBank s b).version → Leads (.geomDedReload ⟨f, []⟩) s fun t =>
      t.geom.badCopies.contains (2 + b) = false ∧ Tbl.find? b t.geom.half1 = some (geomOfFile f) ∧ t.tim.pending = s.tim.pending)

/-! ### 2D engine -/

/-- BLT_COMMAND_ISSUE of the internal queue puts the next FLATTEN into flight (R95), or leaves it waiting while it meets a conflict or no entry is free (R368). Of the queue in turn, while the internal queue has none ready (R359, log 92), with a command taken from its list: one that passes its checks and meets no conflict goes into flight, one that must wait is kept and
holds nothing else back (R368), and one that fails its checks ends its job with the error (R371, R376). A command that ends leaves the scoreboard and counts (R360, R377). One of a job that goes on, whose rows read no poison, writes the pixels of its rows and no other byte of DRAM. A fault of the 2D engine ends every command in flight and is shown and entered (R371), and a lost FLATTEN is queued again (R97).
Where the rules leave a reading open, the model's own: log 34, 45, 92. -/
def Obligations.Blitter : Prop :=
  (∀ h g r s, bltRuns s = true → s.blt.internal = g :: r → flattenWaits s = false → Leads (.bltCommandIssue 16384 h) s fun t =>
    t.blt.internal = r ∧ (∃ f, Tbl.find? s.blt.nextCmd t.blt.flight = some f ∧ f.group = some g) ∧ t.blt.nextCmd = s.blt.nextCmd + 1 ∧ SameDram s t) ∧
  (∀ h s, flattenWaits s = true → Leads (.bltCommandIssue 16384 h) s fun t => t.blt = s.blt ∧ SameDram s t) ∧
  (∀ q h id j c s, q ≠ 16384 → bltRuns s = true → flattenReady s = false → inTurn s.blt.last (bltReady s) = some q → issuingJob s q = some (id, j) →
    (s.blt.jobs.any fun j => j.2.queue == q && !bltEntryOk j.2.entry) = false → Tbl.find? q s.blt.waiting = none → fetchCommand s j h = some c →
    (cmdError s c = 0 → bit (u8 c 1) 0 = false → s.blt.flight.length < 32 → conflicts s (dstRect c) (srcRect c).toList = false → Leads (.bltCommandIssue q h) s fun t =>
      Tbl.find? s.blt.nextCmd t.blt.flight = some { queue := j.queue, job := id, index := j.next, cmd := c, dst := dstRect c, src := srcRect c } ∧
      Tbl.find? id t.blt.jobs = some { j with next := j.next + 1 } ∧ t.blt.last = q ∧ SameDram s t) ∧
    (cmdError s c = 0 → bit (u8 c 1) 0 = false → 32 ≤ s.blt.flight.length ∨ conflicts s (dstRect c) (srcRect c).toList = true → Leads (.bltCommandIssue q h) s fun t =>
      Tbl.find? j.queue t.blt.waiting = some c ∧ t.blt.flight = s.blt.flight ∧ t.blt.jobs = s.blt.jobs ∧ SameDram s t) ∧
    (cmdError s c ≠ 0 → Leads (.bltCommandIssue q h) s fun t => Tbl.find? id t.blt.jobs = none ∧ t.blt.flight = s.blt.flight ∧ t.blt.errorSeen ∧
      t.blt.jobCount = (if completes s j.queue j.gen then wrapAdd 32 s.blt.jobCount 1 else s.blt.jobCount) ∧ t.blt.errorCount = satAdd 16 s.blt.errorCount 1 ∧ t.cmp.fences = s.cmp.fences)) ∧
  (∀ (k : Nat) (f : Flight) (s : State), Tbl.find? k s.blt.flight = some f → domainOn s 19 = true →
    (Leads (.bltCommandEnd k) s fun t => Tbl.find? k t.blt.flight = none ∧ t.blt.commands = wrapAdd 32 s.blt.commands 1) ∧
    (∀ j, f.group = none → Tbl.find? f.job s.blt.jobs = some j → j.ended + 1 ≠ j.count → f.cancelled = none → f.dst = dstRect f.cmd →
      (∀ b < f.dst.h, rowPoisoned s f.cmd b = false) → Leads (.bltCommandEnd k) s fun t =>
        (∀ a, (∀ b < f.dst.h, ∀ w ∈ rowWrites s f.cmd b, a < w.1 ∨ w.1 + w.2.length ≤ a) → readByte t.dmc.mem a = readByte s.dmc.mem a) ∧
        Tbl.find? f.job t.blt.jobs = some { j with ended := j.ended + 1 } ∧ t.hif.queues = s.hif.queues)) ∧
  (∀ s, domainOn s 19 = true → Leads .bltEngineFault s fun t => t.blt.faultSeen ∧ t.blt.waiting = [] ∧ ∀ k, Tbl.find? k t.blt.flight = none) ∧
  (∀ g s, bltRuns s = true → Leads (.flattenRestart g) s fun t => t.blt.internal = s.blt.internal ++ lostFlattens s g ∧ t.blt.flight = s.blt.flight ∧ SameDram s t)

/-! ### Deflate engine -/

/-- DFL_JOB_START of the queue in turn on a free lane: the job starts, or waits while a running job uses its slot (R385, R386, R396). DFL_JOB_END frees the lane, counts, leaves the slot's new context (R400), and writes the job's output and its completion and no other byte of DRAM (R385,
R393). DFL_ENGINE_FAULT ends every job and is shown (R399). A job that fails one of the checks 1 to 6 of R394 leaves its slot and the output buffer as they are, with the code of the check.
Where the rules leave a reading open, the model's own: log 4, 13, 92. -/
def Obligations.Deflate : Prop :=
  (∀ q h f lane s, (queueOf s q).fetched.head? = some f → ((List.range 4).find? fun l => (Tbl.find? l s.dfl.lanes).isNone) = some lane → dflRuns s = true →
    inTurn s.dfl.last (dflReady s) = some q →
    (∀ d, dflDesc s q f.bytes h = some d → (dflEarly s q f.bytes (some d) = 0 ∨ dflEarly s q f.bytes (some d) = 6) → slotBusy s (u8 d 3) = true →
      Leads (.dflJobStart q h) s fun t => Tbl.find? q t.dfl.waiting = some (u8 d 3) ∧ t.dfl.lanes = s.dfl.lanes ∧ queueOf t q = queueOf s q) ∧
    (∀ d, dflDesc s q f.bytes h = some d → slotBusy s (u8 d 3) = false → Leads (.dflJobStart q h) s fun t =>
      (∃ j, Tbl.find? lane t.dfl.lanes = some j ∧ j.queue = q ∧ j.desc = d ∧ j.early = dflEarly s q f.bytes (some d)) ∧
      (queueOf t q).fetched = (queueOf s q).fetched.drop 1 ∧ SameDram s t)) ∧
  (∀ lane j r s, Tbl.find? lane s.dfl.lanes = some j → (s.dfl.lanes.all fun l => l.2.queue ≠ j.queue || j.order ≤ l.2.order) = true → r = runDfl s j (2 ^ 30) →
    completes s j.queue j.gen = true → Leads (.dflJobEnd lane) s fun t =>
      Tbl.find? lane t.dfl.lanes = none ∧ t.dfl.jobs = wrapAdd 32 s.dfl.jobs 1 ∧ t.dfl.inBytes = s.dfl.inBytes + r.inUsed ∧ t.dfl.outBytes = s.dfl.outBytes + r.out.length ∧
      (j.early = 0 → dflSlot t (u8 j.desc 3) = r.slot) ∧
      (∀ a, (a < leAt j.desc 24 8 ∨ leAt j.desc 24 8 + r.out.length ≤ a) →
        (a < (queueOf s j.queue).cqAddr + 64 * (queueOf s j.queue).cqTail ∨ (queueOf s j.queue).cqAddr + 64 * (queueOf s j.queue).cqTail + 64 ≤ a) →
        readByte t.dmc.mem a = readByte s.dmc.mem a)) ∧
  (∀ s, domainOn s 20 = true → Leads .dflEngineFault s fun t => t.dfl.faultSeen ∧ ∀ k, Tbl.find? k t.dfl.lanes = none) ∧
  (∀ (s : State) (j : DflJob) (n : Nat), j.early ≠ 0 → (runDfl s j n).error = j.early ∧ (runDfl s j n).out = [] ∧ (runDfl s j n).inUsed = 0 ∧
    (runDfl s j n).slot = dflSlot s (u8 j.desc 3) ∧ (runDfl s j n).status ≠ .ok)

/-! ### Decoder -/

/-- DECODE_PICTURE_START: an idle core takes the head entry of the context whose turn it is (R308). ROW_BUDGET adds the row's CTUs to the missing ones of the picture in progress (R325). PIC_WATCHDOG marks the context and finishes the picture, and PICTURE_COMPLETE
finishes it: no picture is in progress and the core is IDLE and counts a decoded picture (R307, R326). CORE_FAULT of a working core, and CORE_PICTURE_TIMEOUT of one with a picture: the core is FAULTED and switched off and its contexts are MOVING (R331). CONTEXT_MOVE_COMPLETE: they leave MOVING for a core that works.
Where the rules leave a reading open, the model's own: log 57, 58, 59, 64, 92. -/
def Obligations.Decoder : Prop :=
  (∀ c au n f u s, decodes s = true → domainOn s (16 + c) = true → (coreOf s c).state = .idle → u = makeRoom c s → nextContext u c = some n →
    headEntry u (ctxOf u n) = some f → Leads (.decodePictureStart c au) s fun t => (coreOf t c).state = .running ∧ (coreOf t c).ctx = some n ∧
      (coreOf t c).last = n ∧ (ctxOf t n).state = (if (ctxOf t n).rejected then .unsupported else .decoding) ∧ (ctxOf t n).current.isSome ∧
      ∀ q, (ctxOf u n).queue = some q → (queueOf t q).fetched = (queueOf u q).fetched.drop 1) ∧
  (∀ c ctus n p s, pictureOf s c = some (n, p) → Leads (.rowBudget c ctus) s fun t =>
    (ctxOf t n).current = some { p with missing := p.missing ++ ctus, rowBudget := true }) ∧
  (∀ c ctus n p s, pictureOf s c = some (n, p) → Leads (.picWatchdog c ctus) s fun t => (ctxOf t n).watchdog ∧ (ctxOf t n).current = none ∧
    (coreOf t c).state = .idle ∧ (coreOf t c).ctx = none) ∧
  (∀ c n p s, pictureOf s c = some (n, p) → Leads (.pictureComplete c) s fun t => (ctxOf t n).current = none ∧ (ctxOf t n).state = (ctxOf s n).restState ∧
    (coreOf t c).state = .idle ∧ (coreOf t c).ctx = none ∧ (coreOf t c).pictures = wrapAdd 32 (coreOf s c).pictures (if p.status = 0 then 1 else 0)) ∧
  (∀ c s, coreUsable s c = true → domainOn s (16 + c) = true → Leads (.coreFault c) s fun t => (coreOf t c).state = .faulted ∧ (coreOf t c).ctx = none ∧
    (coreOf t c).faultSeen ∧ (false, 16 + c) ∈ t.pwr.queue ∧ 16 + c ∈ t.spr.toTest ∧
    ∀ n < 64, (ctxOf s n).role ≠ 0 → (ctxOf s n).core = c → (ctxOf t n).state = .moving) ∧
  (∀ c n p s, pictureOf s c = some (n, p) → Leads (.corePictureTimeout c) s fun t => (coreOf t c).state = .faulted ∧ (coreOf t c).ctx = none ∧ (coreOf t c).faultSeen) ∧
  (∀ c k s, ([1 - c, c].find? fun c => coreUsable s c && domainOn s (16 + c)) = some k → Leads (.contextMoveComplete c) s fun t =>
    ∀ n < 64, (ctxOf s n).state = .moving → (ctxOf s n).core = c → (ctxOf t n).core = k ∧ (ctxOf t n).state = (ctxOf s n).restState)

/-- CONVERSION_START of a COLOUR context whose next picture is the earliest one: without a partner it begins to go into the sink's BACK buffer that suits it (R313 to R315), and without a sink it is skipped and counted (R313). PAIR_WAIT_EXPIRY starts the conversion that waits, and is a miss
where no alpha picture of its PTS has come (R322). CONVERSION_COMPLETE leaves BACK ready with the picture's PTS (R320).
Where the rules leave a reading open, the model's own: log 57. -/
def Obligations.DisplayOutput : Prop :=
  (∀ n k b l r s, decodes s = true → (ctxOf s n).role = 1 → (ctxOf s n).conversion = none → (ctxOf s n).waiting = (k, b) :: r →
    stalePictures (convert s 3 (ctxOf s n).base (s.tim.nextTick / 65536)) (ctxOf s n).waiting = [] → pairOf s n = none → sinkOf s n = some l →
    Tbl.find? l s.cmp.backReady = none → suits (activeLayer s l).back b.pic = true → Leads (.conversionStart n) s fun t =>
      (∃ v, (ctxOf t n).conversion = some v ∧ v.order = b.order ∧ v.pts = b.pts ∧ v.layer = l ∧ v.running) ∧ (ctxOf t n).noSink = false) ∧
  (∀ n k b r s, decodes s = true → (ctxOf s n).role = 1 → (ctxOf s n).conversion = none → (ctxOf s n).waiting = (k, b) :: r →
    stalePictures (convert s 3 (ctxOf s n).base (s.tim.nextTick / 65536)) (ctxOf s n).waiting = [] → sinkOf s n = none → Leads (.conversionStart n) s fun t =>
      (ctxOf t n).noSink ∧ (ctxOf t n).conversion = none ∧ (ctxOf t n).skipped = satAdd 8 (ctxOf s n).skipped 1) ∧
  (∀ n v a s, (ctxOf s n).conversion = some v → pairOf s n = some a → decodes s = true → v.running = false → Leads (.pairWaitExpiry n) s fun t =>
    (∃ w, (ctxOf t n).conversion = some w ∧ w.running ∧ w.order = v.order ∧ w.pts = v.pts) ∧
    ((∀ b ∈ (ctxOf s a).pool, b.2.pts ≠ v.pts) → (ctxOf t n).pairMiss ∧ (ctxOf t n).misses = (ctxOf s n).misses + 1)) ∧
  (∀ n v k b s, (ctxOf s n).conversion = some v → v.running = true → ((ctxOf s n).waiting.find? fun b => b.2.order = v.order) = some (k, b) →
    Leads (.conversionComplete n) s fun t => (ctxOf t n).conversion = none ∧ (ctxOf t n).lastConverted = some v.pts ∧
      Tbl.find? v.layer t.cmp.backReady = some (v.pts, (ctxOf s n).base))

/-! ### Encoder and Bureau -/

/-- ENCODE_START: the encoder takes the waiting picture, as an IDR where one is needed or the size changes (R340). ENCODE_COMPLETE, with reference blocks within the search range and the clean area (R338, R343): the access unit leaves the encoder for an Ethernet port, or goes into the output buffer, where it is discarded for want of room and the next picture is skipped throughout
(R350, R351). RTCP_SENDER_REPORT sends the report that is due (R349). ENCODER_FAULT abandons the picture and makes the next one an IDR (R353).
Where the rules leave a reading open, the model's own: log 23, 60, 85. -/
def Obligations.EncoderPictures : Prop :=
  (∀ w s, s.enc.waiting = some w → domainOn s 18 = true → s.enc.picture = none → 0 < w.rate → Leads .encodeStart s fun t => t.enc.waiting = none ∧ t.enc.mode = .running ∧
    ∃ p, t.enc.picture = some p ∧ p.source = w ∧ p.idr = (s.enc.needIdr || s.enc.lastWide != some w.wide)) ∧
  (∀ c p s, s.enc.picture = some p → refsOk s.enc p c = true → s.enc.inForce.dest ≠ 2 → Leads (.encodeComplete c) s fun t => t.enc.picture = none ∧ t.enc.needIdr = false ∧
    t.enc.pictures = wrapAdd 32 s.enc.pictures 1 ∧ t.enc.qp = (codeCtus s.enc p c).qp ∧ SameDram s t) ∧
  (∀ c p n s, s.enc.picture = some p → refsOk s.enc p c = true → s.enc.inForce.dest = 2 → n = (accessUnit s.enc p c).length →
    (ringPlace s n = none → Leads (.encodeComplete c) s fun t => t.enc.picture = none ∧ t.enc.dropped = satAdd 16 s.enc.dropped 1 ∧ t.enc.pictures = s.enc.pictures ∧
      t.enc.skipNext ∧ SameDram s t) ∧
    (∀ k, ringPlace s n = some k → Leads (.encodeComplete c) s fun t => t.enc.picture = none ∧ t.enc.pictures = wrapAdd 32 s.enc.pictures 1 ∧ t.enc.ringPos = k + n)) ∧
  (∀ u s, s.enc.lastReport = some u → s.enc.inForce.dest < 2 → s.enc.mode = .running → Leads .rtcpSenderReport s fun t => t.enc.lastReport = some (u + 5000000000) ∧
    ((ethOf s s.enc.inForce.dest).link = true → .rtcp s.enc.inForce.dest (tbNs t 1) s.enc.rtpStamp s.enc.rtpPackets s.enc.rtpBytes ∈ t.sent)) ∧
  (∀ s, domainOn s 18 = true → Leads .encoderFault s fun t => t.enc.picture = none ∧ t.enc.needIdr ∧ t.enc.faultSeen ∧ t.enc.mode = .waitIdr ∧
    t.enc.dropped = satAdd 16 s.enc.dropped (if s.enc.picture.isSome then 1 else 0) ∧ t.bureau.nextSeq = s.bureau.nextSeq + 1)

/-- ARCHIVE_SEGMENT: the waiting entries become the next segment, while it fits (R513). BUREAU_SECOND_SUMMARY starts the counts of the second over: refusals, aborts of each row and results of each region (R151, R186, R507).
Where the rules leave a reading open, the model's own: log 10. -/
def Obligations.BureauArchive : Prop :=
  (∀ u e l s, u = (if 4096 ≤ unarchived s then s else advanceTo0 (s.bureau.lastArchive + 600000000000) s) → s.hif.walec = .running → s.bot.emmcReady = true →
    s.hif.powerDown = false → waitingEntries u = e :: l → 1 ≤ unarchived u → unarchived u ≤ 4096 →
    archiveUse s.bureau.segments + (64 + (nextSegmentOf u e (e :: l)).stream.length) ≤ 2 ^ 32 → Leads .archiveSegment s fun t =>
      t.bureau.segments = s.bureau.segments ++ [nextSegmentOf u e (e :: l)] ∧ t.bureau.archivedSeq = e.seq + (l.length + 1) ∧ t.bureau.ring = s.bureau.ring ∧
      t.bureau.gap = false ∧ t.bureau.lastArchive = tb0 t) ∧
  (∀ s, Leads .bureauSecondSummary s fun t => t.bureau.refusals = [] ∧ (∀ r < 12, (rowOf t r).abortsInSecond = none) ∧ (∀ n < 32, (regionOf t n).inSecond = none))

/-! ### Service requests -/

/-- The DEVICE verbs STATUS, QUEUE_CREATE, QUEUE_RESET, QUEUE_DELETE and QUEUE_ATTACH on a request that passes their checks (R463, R467, R477, R497, R500). DEVICE.DARK holds a link dark, with a DARK word on one that is UP, and lets it go on (R678); DEVICE.POWER_DOWN ends with the raster stopped, the DRAM asleep and POWER_DOWN set, whether its stores succeed or not (R498).
Where the rules leave a reading open, the model's own: log 24, 70, 72, 73, 78, 84, 92. -/
def Obligations.DeviceVerbs : Prop :=
  (∀ ch r s u, Due deviceStatusVerb 0x01 0x01 ch r s u → Runs (.deviceStatus ch) r s .ok (deviceStatusBody u) fun w =>
    w = u.walec.cause.elim u fun c => send (.deviceCause r.ch c) u) ∧
  (∀ ch r s u q c, Due queueCreateVerb 0x01 0x04 ch r s u → q = leAt r.body 0 2 → c = queueOfBody r.body → c.kind ∈ [1, 3, 4, 5] → c.cls ≤ 6 → u8 r.body 4 ≤ 1 →
    u8 r.body 5 ≤ 1 → u8 r.body 33 = 0 → ringsOk c = true → (c.kind ≠ 4 → zeroAt r.body 36 4 = true) → kindAllows c.kind c.cls = true → (queueOf u q).state = .off →
    (∀ k ∈ bodySlots r.body, k < 240 ∧ (dflSlot u k).owner = none) → boundFull u c.kind = false → q ≤ 16383 → c.vector ≤ 2047 → c.coalUs ≤ 1023 → ringsPlaced u c = true →
    Runs (.queueCreate ch) r s .ok (leBytes 2 q ++ leBytes 1 (((queueOf u q).gen + 1) % 16)) fun w =>
      queueOf w q = { c with gen := ((queueOf u q).gen + 1) % 16 } ∧ (c.kind = 3 → q ∈ w.blt.bound) ∧
      (c.kind = 4 → q ∈ w.dfl.bound ∧ ∀ k ∈ bodySlots r.body, (dflSlot w k).owner = some q) ∧ w.bureau.nextSeq = u.bureau.nextSeq + 1) ∧
  (∀ ch r s u q, Due queueResetVerb 0x01 0x05 ch r s u → q = leAt r.body 0 2 → q ≤ 16383 → (queueOf u q).state ≠ .off → (queueOf u q).state ≠ .detached →
    Runs (.queueReset ch) r s .ok (leBytes 1 (((queueOf u q).gen + 1) % 16)) fun w => queueOf w q = (queueOf u q).reset ∧ w.bureau.nextSeq = u.bureau.nextSeq + 1) ∧
  (∀ ch r s u q, Due queueDeleteVerb 0x01 0x06 ch r s u → q = leAt r.body 0 2 → q ≤ 16383 → (queueOf u q).state ≠ .off → (queueOf u q).kind ≠ 2 →
    Runs (.queueDelete ch) r s .ok [] fun w => queueOf w q = { gen := (queueOf u q).gen } ∧ q ∉ w.blt.bound ∧ q ∉ w.dfl.bound ∧ w.bureau.nextSeq = u.bureau.nextSeq + 1) ∧
  (∀ ch r s u q p, Due queueAttachVerb 0x01 0x07 ch r s u → q = leAt r.body 0 2 → r.port = some p → zeroAt r.body 2 6 = true → zeroAt r.body 32 8 = true →
    ringsOk ((queueOf u q).attach p r.body) = true → (queueOf u q).state = .detached → q ≤ 16383 →
    ringsPlaced u ((queueOf u q).attach p r.body) = true → Runs (.queueAttach ch) r s .ok (leBytes 1 (queueOf u q).gen) fun w =>
      queueOf w q = (queueOf u q).attach p r.body ∧ w.bureau.nextSeq = u.bureau.nextSeq + 1) ∧
  (∀ ch r s u n, Due deviceDarkVerb 0x01 0x08 ch r s u → n = u8 r.body 0 → asksResume ch s = false → u8 r.body 1 = 0 → n < 96 → configured u n = true →
    Runs (.deviceDark ch) r s .ok [] fun w => (linkOf w n).darkCmd ∧ ((linkOf u n).darkCmd = false → (linkOf u n).state = .up → .tile n .dark ∈ w.sent) ∧ ((linkOf u n).darkCmd = true → w = u)) ∧
  (∀ ch r s u n, Due deviceDarkVerb 0x01 0x08 ch r s u → n = u8 r.body 0 → asksResume ch s = true → u8 r.body 1 = 1 → n < 96 → configured u n = true →
    Runs (.deviceDarkResume ch) r s .ok [] fun w => (linkOf w n).darkCmd = false ∧ ((linkOf u n).darkCmd = false → w = u)) ∧
  (∀ ch k r s u, Due powerDownVerb 0x01 0x09 ch r s u → Runs (.powerDown ch k) r s (if k && u.bot.emmcReady then .ok else .fault) [] fun w =>
    w.hif.powerDown ∧ w.walec.powerDown ∧ w.tim.rasterRun = false ∧ w.dmc.mode ≠ .running ∧ u.bureau.nextSeq < w.bureau.nextSeq ∧
    (k = true → u.bot.emmcReady = true → u.out.disagree = false → w.out.sincePersist = 0))

/-- Every PUT (DEVICE, MODE, SCENE, WITNESS, MAP, STRESS, TIME, THERM, SPARE and RIGHTS) puts the value of a known parameter and records it, and one that changes nothing writes no entry; every GET of those
services answers with VALUE, PENDING and the flag, and changes nothing (R496).
Where the rules leave a reading open, the model's own: log 24, 69, 73. -/
def Obligations.PutAndGet : Prop :=
  (∀ ch c service verb v p r s u, (c, service, verb, v) ∈ putRows ch → Due v service verb ch r s u → zeroAt r.body 4 4 = true →
    paramOf u service (leAt r.body 0 2) (leAt r.body 2 2) = some p → (service = 0x0B → ptpUnavailable u (leAt r.body 0 2) (leAt r.body 8 16) = false) →
    p.ok (leAt r.body 8 16) = true → Runs c r s .ok [] fun w => if p.unset = false ∧ leAt r.body 8 16 = p.set then w = u
      else SameBut [.bureau] (p.put (leAt r.body 8 16) (reqOrigin r) u) w ∧
        w.bureau.nextSeq = (p.put (leAt r.body 8 16) (reqOrigin r) u).bureau.nextSeq + 1 ∧
        ∃ e, w.bureau.ring.getLast? = some e ∧ e.event = 0x0001 ∧ e.subject = leAt r.body 2 2 % 256 ∧ e.origin = reqOrigin r) ∧
  (∀ ch c service verb p r s u, (c, service, verb) ∈ getRows ch → Due getVerb service verb ch r s u →
    paramOf u service (leAt r.body 0 2) (leAt r.body 2 2) = some p →
    Runs c r s .ok (leBytes 16 p.value ++ leBytes 16 (p.waits.getD 0) ++ leBytes 1 (flagOf p.waits.isSome)) fun w => w = u) ∧
  (∀ ch c service verb r s u, (c, service, verb) ∈ getRows ch → Due getVerb service verb ch r s u → paramOf u service (leAt r.body 0 2) (leAt r.body 2 2) = none →
    Runs c r s .format [] fun w => w = u)

/-- MODE.SET enters the change for its frame (R203), MODE.BENCH_LOAD takes a bitmap that passes its checks (R212), and MODE.SCHEDULE takes an entry (R218). LAYER.COMMIT accepts a commit under the next COMMIT_ID (R103 to R105), RESULT answers with what became of it (R501), and QUERY with the active entry and the layer's status.
Where the rules leave a reading open, the model's own: log 24, 35, 54, 61, 73, 75, 88, 107. -/
def Obligations.ModeAndLayerVerbs : Prop :=
  (∀ ch r s u m t, Due modeSetVerb 0x02 0x01 ch r s u → m = u8 r.body 0 →
    t = { kind := u8 r.body 1, base := u8 r.body 2, value := leAt r.body 8 8, mustHit := bit (u8 r.body 3) 0 } → u8 r.body 3 ≤ 1 → zeroAt r.body 4 4 = true →
    modeStatus u true m t = .ok → m ≠ u.tim.mode → u.tim.mode ≠ 0x10 → Runs (.modeSet ch) r s .ok (leBytes 8 (modeFrameOf u t)) fun w =>
      w.tim.pending = u.tim.pending ++ [{ frame := modeFrameOf u t, change := .mode m, origin := reqOrigin r }] ∧ w.tim.mode = u.tim.mode) ∧
  (∀ ch h r s u f, Due benchLoadVerb 0x02 0x02 ch r s u → plainObject { obj := h } r r.body u = (.ok, f) → bitmapStatus u f = .ok → Runs (.benchLoad ch h) r s .ok [] fun w =>
    w.tim.bitmap = some f ∧ w.bot.benchFile = some f ∧ w.bureau.nextSeq = u.bureau.nextSeq + 1) ∧
  (∀ ch h r s u f, Due benchLoadVerb 0x02 0x02 ch r s u → plainObject { obj := h } r r.body u = (.ok, f) → bitmapStatus u f ≠ .ok →
    Runs (.benchLoad ch h) r s (bitmapStatus u f) [] fun w => w.tim.bitmap = none ∧ w.bot.benchFile = u.bot.benchFile) ∧
  (∀ ch r s u e, Due modeScheduleVerb 0x02 0x03 ch r s u → e = scheduleEntryOf (r.body.drop 8) → zeroAt r.body 1 7 = true → u8 r.body 23 = 0 → e.action ≤ 1 → e.base ≤ 3 →
    e.mode = 0 ∨ modeOk e.mode = true → u8 r.body 0 ≤ 15 → e.period ≤ 604800 → Runs (.modeSchedule ch) r s .ok [] fun w =>
      scheduleOf w (u8 r.body 0) = some e ∧ (∀ k, k ≠ u8 r.body 0 → scheduleOf w k = scheduleOf u k) ∧ w.bureau.nextSeq = u.bureau.nextSeq + 1) ∧
  (∀ ch h r s u d, Due layerCommitVerb 0x03 0x01 ch r s u → plainObject { obj := h } r r.body u = (.ok, d) → commitStatus u r.cls d = .ok →
    Runs (.layerCommit ch h) r s .ok (leBytes 4 (wrapAdd 32 u.cmp.lastId 1) ++ leBytes 4 0 ++ leBytes 8 ((commitTarget d).frame u)) fun w =>
      w.cmp.lastId = wrapAdd 32 u.cmp.lastId 1 ∧ w.bureau = u.bureau ∧
      ∃ c, (w.cmp.commits.map fun x => { x with groups := [] }) = (u.cmp.commits.map fun x => { x with groups := [] }) ++ [c] ∧ c.id = w.cmp.lastId ∧ c.members = commitMembers d ∧ c.frame = (commitTarget d).frame u ∧ c.latched = none) ∧
  (∀ ch r s u, Due layerResultVerb 0x03 0x02 ch r s u → u8 r.body 0 ≤ 1 → u8 r.body 1 / 32 % 4 = 0 →
    Runs (.layerResult ch) r s .ok (resultBody (findResult u r.body)) fun w => w = u) ∧
  (∀ ch r s u, Due layerQueryVerb 0x03 0x03 ch r s u → u8 r.body 0 ≤ 63 →
    Runs (.layerQuery ch) r s .ok ((activeLayer u (u8 r.body 0)).bytes ++ leBytes 8 (regLayer u (u8 r.body 0))) fun w => w = u)

/-- STREAM.OPEN opens a context with its DECODE queue (R302 to R305), and STREAM.CLOSE closes it (R319). A file that passes its checks is loaded into the bank that is not active, and an activation enters the swap for its frame or does nothing (R55 to R60, R225, R230, R232).
Where the rules leave a reading open, the model's own: log 24, 61, 73, 76, 86, 109. -/
def Obligations.StreamAndCalibrationVerbs : Prop :=
  (∀ ch r s u n, Due streamOpenVerb 0x05 0x01 ch r s u → n = u8 r.body 0 → streamOk u r.body = true → (ctxOf u n).role = 0 → admitted u r.body = true → freeQueues u ≠ [] →
    ∃ q, q ∈ freeQueues u ∧ Runs (.streamOpen ch) r s .ok (leBytes 2 q ++ leBytes 2 q) fun w =>
      (ctxOf w n).role = u8 r.body 1 ∧ (ctxOf w n).desc = r.body ∧ (ctxOf w n).state = (if coreSound u (coreFor u r.body) then .idle else .moving) ∧ (ctxOf w n).queue = some q ∧ (ctxOf w n).core = coreFor u r.body ∧
      (queueOf w q).kind = 2 ∧ (queueOf w q).cls = r.cls ∧ (queueOf w q).state = .active) ∧
  (∀ ch r s u n, Due streamCloseVerb 0x05 0x02 ch r s u → n = u8 r.body 0 → n ≤ 63 → (ctxOf u n).role ≠ 0 → ((ctxOf u n).role = 2 → colourOf u n = none) →
    Runs (.streamClose ch) r s .ok [] fun w => (ctxOf w n).role = 0 ∧ (ctxOf w n).state = .closed ∧ (ctxOf w n).queue = none ∧
      ∀ q, (ctxOf u n).queue = some q → (queueOf w q).state = .off) ∧
  (∀ ch h r s u f v, Due mapLoadVerb 0x07 0x01 ch r s u → mapPending u = false → objectOf { obj := h } r r.body u = (.ok, f, v) → u.dmc.mode = .running →
    mapFileStatus u f v = .ok → Runs (.mapLoad ch h) r s .ok [] fun w =>
      Tbl.get w.out.maps {} (1 - u.out.mapActive) = mapOfFile f ∧ w.out.mapActive = u.out.mapActive ∧ w.bureau.nextSeq = u.bureau.nextSeq + 1) ∧
  (∀ ch h r s u f v, Due loadGeomVerb 0x08 0x01 ch r s u → pendingGeom u = none → objectOf { obj := h } r r.body u = (.ok, f, v) → geomFileStatus u f v = .ok →
    Runs (.loadGeom ch ⟨h, []⟩) r s .ok [] fun w => geomBank w (1 - u.geom.active) = geomOfFile f ∧ w.geom.active = u.geom.active ∧ w.bureau.nextSeq = u.bureau.nextSeq + 1) ∧
  (∀ ch h r s u f v, Due loadCurvesVerb 0x08 0x03 ch r s u → curvePending u = false → objectOf { obj := h } r r.body u = (.ok, f, v) → curveFileStatus u f v = .ok →
    Runs (.loadCurves ch h) r s .ok [] fun w =>
      curveBank w (1 - u.out.curveActive) = curvesOfFile f ∧ w.out.curveActive = u.out.curveActive ∧ w.bureau.nextSeq = u.bureau.nextSeq + 1) ∧
  (∀ ch c v verb r s u (pair : BankPair) fits change, (c, v, verb, pair, fits, change) ∈
      [(Instr.mapActivate ch, mapActivateVerb, 0x0702, mapPair u, true, Change.mapSwap (leAt r.body 0 4)),
       (.activateGeom ch, activateGeomVerb, 0x0802, geomPair u, geomFits u, .geomSwap (leAt r.body 0 4)),
       (.activateCurves ch, activateCurvesVerb, 0x0804, curvePair u, true, .curveSwap (leAt r.body 0 4))] →
    Due v (verb / 256) (verb % 256) ch r s u → u8 r.body 4 ≤ 1 → zeroAt r.body 5 3 = true → (u8 r.body 4 = 1 → leAt r.body 8 8 ≤ u.tim.frameCount + 2 ^ 62) →
    (pair.decide (leAt r.body 0 4) = .swap → u.geom.panelMismatch = false → fits = true → Runs c r s .ok (leBytes 8 (activationFrame u r.body)) fun w =>
      w = plan (activationFrame u r.body) change (reqOrigin r) u) ∧
    (pair.decide (leAt r.body 0 4) = .nothing → Runs c r s .ok (leBytes 8 pair.frame) fun w => w = u) ∧
    (pair.decide (leAt r.body 0 4) = .notReady → Runs c r s .notReady [] fun w => w = u))

/-- STRESS.REPORT, STRESS.RESOLVE and STRESS.MODEL_LOAD (R245, R247, R501). SIG.REGION and SIG.RELEASE enter their change for the next frame, and SIG.QUERY answers with the record and the region's status (R167 to R169, R183).
Where the rules leave a reading open, the model's own: log 24, 32, 61, 73, 75, 105. -/
def Obligations.StressAndSignatureVerbs : Prop :=
  (∀ ch r s u, Due stressReportVerb 0x09 0x01 ch r s u → Runs (.stressReport ch) r s .ok (stressReportBody u) fun w => w = u) ∧
  (∀ ch r s u, Due stressResolveVerb 0x09 0x02 ch r s u → u8 r.body 0 ≤ 1 → u.out.disagree = true → Runs (.stressResolve ch) r s .ok [] fun w =>
    w.out = { u.out with resolved := some (u8 r.body 0) } ∧ w.bureau.nextSeq = u.bureau.nextSeq + 1) ∧
  (∀ ch h r s u f v, Due modelLoadVerb 0x09 0x03 ch r s u → objectOf { obj := h } r r.body u = (.ok, f, v) → modelFileStatus u f v = .ok →
    Runs (.modelLoad ch h) r s .ok [] fun w => w.out = { u.out with model := some (modelOfFile f) } ∧
      w.tim.pending = u.tim.pending ++ [{ frame := nextFrame u, change := .bandWeights (modelOfFile f).weight, origin := reqOrigin r }] ∧
      w.bureau.nextSeq = u.bureau.nextSeq + 1) ∧
  (∀ ch r s u n x, Due sigRegionVerb 0x0A 0x01 ch r s u → n = u8 r.body 0 → x = regionRecOf (r.body.drop 16) → zeroAt r.body 1 15 = true →
    regionFormatOk u n (r.body.drop 16) = true → n ≤ 31 → regionRangeOk u x = true → (x.slates = true → slateLimit u n x = false ∧ slateBusy u x.slateLayer = false) →
    Runs (.sigRegion ch) r s .ok [] fun w => w.tim.pending = u.tim.pending ++ [{ frame := nextFrame u, change := .region n x, origin := reqOrigin r }] ∧
      w.bureau.nextSeq = u.bureau.nextSeq + 1) ∧
  (∀ ch r s u, Due sigReleaseVerb 0x0A 0x02 ch r s u → u8 r.body 0 ≤ 31 →
    Runs (.sigRelease ch) r s .ok [] fun w => w = plan (nextFrame u) (.sigRelease (u8 r.body 0)) (reqOrigin r) u) ∧
  (∀ ch r s u n, Due sigQueryVerb 0x0A 0x03 ch r s u → n = u8 r.body 0 → n ≤ 31 →
    Runs (.sigQuery ch) r s .ok ((regionOf u n).record.bytes ++ leBytes 8 (regRegion u n)) fun w => w = u)

/-- TIME.EVENT sets, cancels and reads an event slot (R524). THERM.ACK acknowledges a held sensor (R599, R605), SPARE.MIGRATE starts a migration (R434), SPARE.RESTORE_LINK asks for full rate (R676), and SPARE.REPORT answers (R627).
Where the rules leave a reading open, the model's own: log 24, 53, 73, 79. -/
def Obligations.TimeAndSpareVerbs : Prop :=
  (∀ ch r s u n x, Due timeEventVerb 0x0B 0x03 ch r s u → n = u8 r.body 0 → x = eventSlotOf r.body → eventOp ch s = 0 → u8 r.body 1 = 0 → n ≤ 15 → x.base ≤ 3 → x.action ≤ 3 →
    x.period = 0 ∨ within 1000000 (2 ^ 62) x.period = true → tooFar u x.base x.target = false →
    Runs (.timeEventSet ch) r s .ok (x.bytes n 0) fun w => slotOf w n = x ∧ w.bureau.nextSeq = u.bureau.nextSeq + 1) ∧
  (∀ ch r s u n, Due timeEventVerb 0x0B 0x03 ch r s u → n = u8 r.body 0 → eventOp ch s = 1 → u8 r.body 1 = 1 → n ≤ 15 → u8 r.body 2 ≤ 3 → u8 r.body 3 ≤ 3 →
    Runs (.timeEventCancel ch) r s .ok (EventSlot.bytes n 1 { slotOf u n with armed := false }) fun w =>
      (slotOf w n).armed = false ∧ ((slotOf u n).armed = false → w = u)) ∧
  (∀ ch r s u n, Due timeEventVerb 0x0B 0x03 ch r s u → n = u8 r.body 0 → eventOp ch s = 2 → u8 r.body 1 = 2 → n ≤ 15 → u8 r.body 2 ≤ 3 → u8 r.body 3 ≤ 3 →
    Runs (.timeEventQuery ch) r s .ok ((slotOf u n).bytes n 2) fun w => w = u) ∧
  (∀ ch r s u n, Due thermAckVerb 0x0C 0x03 ch r s u → n = u8 r.body 0 → n ≤ 23 → (sensorOf u n).state = .held → Runs (.thermAck ch) r s .ok [] fun w =>
    sensorOf w n = { sensorOf u n with state := .acked } ∧ w.bureau.nextSeq = u.bureau.nextSeq + 1) ∧
  (∀ ch r s u l, Due migrateVerb 0x0D 0x01 ch r s u → l = u8 r.body 0 → l ≤ 7 → migrationRuns u = false → spareSitePresent u = true → u.dmc.mode = .running → u.tim.bench = .off →
    Runs (.migrate ch) r s .ok [] fun w => w.dmc.migrateFrom = u.dmc.siteMap.getD l 15 ∧ w.dmc.migrateTo = u.dmc.spareSite ∧ w.dmc.migrateLogical = l ∧
      w.dmc.norRecord = some (l, u.dmc.siteMap.getD l 15, u.dmc.spareSite, 0) ∧ w.spr.spareUsedSeen ∧ u.bureau.nextSeq < w.bureau.nextSeq) ∧
  (∀ ch r s u n f, Due restoreLinkVerb 0x0D 0x02 ch r s u → n = u8 r.body 0 → f = (if u8 r.body 4 = 1 then max (rateFrame u) (leAt r.body 8 8) else rateFrame u) →
    zeroAt r.body 1 3 = true → u8 r.body 4 ≤ 1 → zeroAt r.body 5 3 = true → n ≤ 95 → configured u n = true → u.tim.rasterRun = true → (linkOf u n).state = .up →
    (linkOf u n).half = true → (linkOf u n).has 4 = false → Runs (.restoreLink ch) r s .ok (leBytes 8 f) fun w =>
      (linkOf w n).controls = (linkOf u n).controls ++ [{ seq := (linkOf u n).seq, opcode := 4, frame := f }] ∧ w.bureau.nextSeq = u.bureau.nextSeq + 1) ∧
  (∀ ch r s u, Due spareReportVerb 0x0D 0x05 ch r s u → Runs (.spareReport ch) r s .ok (spareReportBody u) fun w => w = u)

/-- LOG.READ and LOG.STATUS read the ring, LOG.FETCH a stored segment, LOG.ARCHIVE archives the waiting entries, and LOG.CLEAR opens the next epoch with one entry (R513 to R515). RIGHTS.DRAWER_CLASS changes a drawer's class, at once when it is IDLE (R503), RIGHTS.ETH_BIND a bind slot, and a session opens on a slot that its certificate matches (R506).
Where the rules leave a reading open, the model's own: log 24, 71, 73, 108. -/
def Obligations.LogAndRightsVerbs : Prop :=
  (∀ ch r s u es, Due logReadVerb 0x0E 0x01 ch r s u → es = (u.bureau.ring.filter fun e => leAt r.body 8 8 ≤ e.seq).take (leAt r.body 2 2) → zeroAt r.body 4 4 = true →
    0 < leAt r.body 2 2 → leAt r.body 2 2 ≤ readMax r.ch → leAt r.body 0 2 = u.bureau.epoch → oldestSeq u ≤ leAt r.body 8 8 →
    Runs (.logRead ch) r s .ok (leBytes 8 (es.head?.elim (leAt r.body 8 8) (·.seq)) ++ leBytes 2 es.length ++ leBytes 2 (flagOf (es.head?.any (gapBefore u))) ++ leBytes 4 0
      ++ es.flatMap Entry.image) fun w => w = u) ∧
  (∀ ch r s u x a, Due logFetchVerb 0x0E 0x02 ch r s u → (u.bureau.segments.find? fun x => x.number = leAt r.body 0 4 && x.good) = some x → zeroAt r.body 4 4 = true → u8 r.body 8 = 0 →
    zeroAt r.body 9 3 = true → zeroAt r.body 28 4 = true → a = leAt r.body 16 8 → x.bytes.length ≤ leAt r.body 12 4 → extentOk u 7 a (leAt r.body 12 4) true = true →
    u.dmc.mode = .running → (∀ c, (dramChannel u c).retraining = false) → Runs (.logFetch ch) r s .ok [] fun w => w.dmc.mem = writeBytes a x.bytes u.dmc.mem ∧ SameBut [.dram] u w) ∧
  (∀ ch r s u, Due logStatusVerb 0x0E 0x03 ch r s u → Runs (.logStatus ch) r s .ok (logStatusBody u) fun w => w = u) ∧
  (∀ ch r s u, Due logClearVerb 0x0E 0x04 ch r s u → zeroAt r.body 2 6 = true → leAt r.body 0 2 = u.bureau.epoch → leAt r.body 8 8 + 1 = u.bureau.nextSeq →
    u.bot.emmcReady = true → Runs (.logClear ch) r s .ok [] fun w => w.bureau.segments = [] ∧ w.bureau.epoch = wrapAdd 16 u.bureau.epoch 1 ∧ w.bureau.nextSeq = 1 ∧
      ∃ e, w.bureau.ring = [e] ∧ e.event = 0xF0 ∧ e.seq = 0 ∧ e.origin = reqOrigin r) ∧
  (∀ ch r s u, Due logArchiveVerb 0x0E 0x05 ch r s u → u.bot.emmcReady = true → Runs (.logArchive ch) r s .ok [] fun w => w = archiveAll u) ∧
  (∀ ch r s u p n c, Due drawerClassVerb 0x0F 0x01 ch r s u → p = portCode (u8 r.body 0) → n = u8 r.body 1 → c = u8 r.body 2 → u8 r.body 0 ≤ 1 → c ≤ 6 → n ≤ 31 →
    ownerLeft u p n c = true → Runs (.drawerClass ch) r s .ok [] fun w => classAhead w p n = c ∧ (classAhead u p n = c → w = u) ∧
      (classAhead u p n ≠ c → Tbl.find? (drawerIx p n) w.walec.classRecord = some c ∧ w.bureau.nextSeq = u.bureau.nextSeq + 1 ∧
        ((drawerOf u p n).state = .idle → (drawerOf w p n).cls = c ∧ (drawerOf w p n).gen = ((drawerOf u p n).gen + 1) % 16))) ∧
  (∀ ch r s u k c, Due ethBindVerb 0x0F 0x02 ch r s u → k = u8 r.body 0 → c = u8 r.body 1 → c ∈ [0, 5, 6] → zeroAt r.body 2 14 = true → k ≤ 7 →
    Runs (.ethBind ch) r s .ok [] fun w => bindOf w k = (if c = 0 then (0, []) else (c, r.body.drop 16)) ∧ (∀ j, j ≠ k → bindOf w j = bindOf u j) ∧
      (bindOf w k ≠ bindOf u k → ∀ x ∈ w.eth.sessions, x.2.2 ≠ k) ∧ w.bureau.nextSeq = u.bureau.nextSeq + 1) ∧
  (∀ p cert k s, ((List.range 8).find? fun k => (bindOf s k).1 ≠ 0 && padTo 48 (bindOf s k).2 == padTo 48 (Config.sha384 cert)) = some k → p < 2 → (ethOf s p).link = true →
    s.hif.walec = .running → s.tim.bench = .off → s.eth.sessions.length < 8 →
    Leads (.ethSessionOpen p cert) s fun t => ∃ n < 8, Tbl.find? n s.eth.sessions = none ∧ t.eth = { s.eth with sessions := Tbl.set n (p, k) s.eth.sessions })

/-- UPDATE.STAGE puts each kind of object in its place (R633, R636, R639, R640), UPDATE.SWITCH names the staged image on trial and restarts Walec (R641), and UPDATE.STATUS answers.
Where the rules leave a reading open, the model's own: log 24, 61, 73, 74. -/
def Obligations.UpdateVerbs : Prop :=
  (∀ ch h r s u f v, Due updateStageVerb 0x10 0x01 ch r s u → zeroAt r.body 1 7 = true → objectOf { obj := h } r (r.body.drop 8) u = (.ok, f, v) →
    (u8 r.body 0 = 1 → v = 0 ∨ v = leAt f 4 4 → imageCheck u f = none → f.length ≤ 2 ^ 26 → Runs (.updateStage ch h) r s .ok [] fun w =>
      imageOf w (1 - u.bot.image) = f ∧ w.bot.staged = some (1 - u.bot.image)) ∧
    (u8 r.body 0 = 2 → v = 0 → calIndexOk f = true → calIndexSigned u f = true → Runs (.updateStage ch h) r s .ok [] fun w =>
      w.bot.calIndex = if indexGoverns u (calIndexOf f) then some (calIndexOf f) else u.bot.calIndex) ∧
    (u8 r.body 0 = 3 → v = 0 ∨ v = leAt f 4 4 → u.bot.emmcReady = true →
      ∀ e, (u.bot.calIndex.bind fun x => x.entries.find? fun e => padTo 48 e.digest == padTo 48 (Config.sha384 f)) = some e →
        Runs (.updateStage ch h) r s .ok [] fun w => Tbl.find? e.lba w.bot.files = some f) ∧
    (u8 r.body 0 = 4 → v = 0 → f.length ≤ 2 ^ 17 → Runs (.updateStage ch h) r s .ok [] fun w => w.bot.install = some (Config.installRecord f)) ∧
    (u8 r.body 0 = 5 → v = 0 → f.length ≤ 2 ^ 16 → Config.certKey f = Config.certKey u.bot.deviceCert →
      Runs (.updateStage ch h) r s .ok [] fun w => w.bot.deviceCert = f) ∧
    (u8 r.body 0 = 6 → v = 0 → f.length = 97 → ∀ k, ((List.range 4).find? fun k => (Tbl.find? k u.bot.ikeys).isNone) = some k →
      Runs (.updateStage ch h) r s .ok [] fun w => Tbl.find? k w.bot.ikeys = some (padTo 48 (Config.sha384 f)))) ∧
  (∀ ch r s u k, Due updateSwitchVerb 0x10 0x02 ch r s u → k = u8 r.body 0 → k ≤ 1 → u.bot.staged = some k → u.bot.trial = false → Leads (.updateSwitch ch) s fun t =>
    t.hif.walec = .restarting ∧ t.walec.restartCause = 1 ∧ t.bot.staged = none ∧ ∃ j h, Tbl.find? j t.bot.headers = some h ∧ h.active = k ∧ h.trial) ∧
  (∀ ch r s u, Due updateStatusVerb 0x10 0x03 ch r s u → Runs (.updateStatus ch) r s .ok (updateStatusBody u) fun w => w = u)

/-- Walec takes the entries of a SERVICE queue in their order (R466): a REQUEST runs its verb, or waits for the row of a verb that reads host memory, a COMMIT is accepted, and a FENCE advances its fence.
Where the rules leave a reading open, the model's own: log 25, 77. -/
def Obligations.ServiceQueueEntries : Prop :=
  (∀ q h f b m v r s, nextService s q = some f → u8 f.bytes 0 = 1 → entryMessage s q f.bytes h = (.ok, b) → m = messageOf b → leAt f.bytes 2 2 = m.service →
    leAt f.bytes 4 2 = m.verb → 16 + m.len ≤ leAt f.bytes 16 4 → r = requestOf s (.queue q) m → verbOf m.service m.verb = some v → generalStatus (some v) m r s = .ok →
    (needsOutside r = true → Leads (.serviceQueueRequest q h) s fun t => t.walec = { s.walec with taken := [r] } ∧ SameBut [.walec, .ports, .sent] s t) ∧
    (∀ body u, needsOutside r = false → (r.service ≠ 0x10 ∨ r.verb ≠ 0x02) → v.run {} r s = (.ok, body, u) → Runs (.serviceQueueRequest q h) r s .ok body fun w => w = u)) ∧
  (∀ q h f d id frame u s, nextService s q = some f → u8 f.bytes 0 = 2 → commitChecks s q = .ok → entryMessage s q f.bytes h = (.ok, d) →
    submitCommit (commitRequest s q).cls d (reqOrigin (commitRequest s q)) (.queue q f.slot f.gen (leAt f.bytes 24 8)) s = (.ok, id, frame, u) →
    Leads (.serviceQueueCommit q h) s fun t => t.cmp = u.cmp ∧ t.blt = u.blt ∧ t.bureau = s.bureau ∧ (queueOf t q).fetched = (queueOf s q).fetched.drop 1 ∧
      ((queueOf s q).state ≠ .off → f.gen = (queueOf s q).gen → (queueOf t q).reserved = (queueOf s q).reserved - 1)) ∧
  (∀ q f n k s, nextService s q = some f → u8 f.bytes 0 = 3 → fenceStatus s q f.bytes = .ok → n = u8 f.bytes 20 → k = u8 f.bytes 21 →
    Leads (.serviceQueueFence q) s fun t => fenceValue t n = wrapAdd 32 (fenceValue s n) k ∧ (∀ j, j ≠ n → fenceValue t j = fenceValue s j) ∧
      { t.cmp with fences := [] } = { s.cmp with fences := [] } ∧ (queueOf t q).fetched = (queueOf s q).fetched.drop 1)
end

