-- ==== Sys2Proof/Laws/Exec.lean ====
section
/-! SUPPORT. Every command answers a next state, settled. -/

namespace Sys2Proof.Machine

/-- Whatever the command and the state, the answer is a next state that has been settled. -/
theorem exec_done (c : Instr) (s : State) : ∃ u, exec c s = done u := by
  cases c
  all_goals first
    | exact ⟨_, rfl⟩
    | (simp only [exec]
       first
         | unfold execConfigurationConfirm | unfold execSpareBind | unfold execShadowCheck | unfold execWitnessPictureComplete
         | unfold execEncodeStart | unfold execEncodeComplete | unfold execRtcpSenderReport | unfold execCwLockLoss | unfold execStatusStale
         | unfold execRowBudget | unfold execPicWatchdog | unfold execPictureComplete | unfold execCorePictureTimeout
         | unfold execContextMoveComplete | unfold execPairWaitExpiry | unfold execConversionComplete | unfold execBltCommandIssue
         | unfold execBltCommandEnd | unfold execDflJobStart | unfold execDflJobEnd | unfold execSelfRefreshRetry | unfold execWalecResponse
         | unfold execCoalesceTimeout | unfold execLeaseExpiry | unfold execServiceQueueRequest | unfold execServiceQueueCommit
         | unfold execServiceQueueFence | unfold execEthSessionOpen | unfold execWalecTimeout | unfold execWardrobeReset | unfold execAutoMigrate
         | unfold execAutoRestore | unfold execBenchScheduleAction | unfold execScheduleMissed | unfold execBenchExitTimeout
         | unfold execPtmResponsed | unfold execPairDisagree | unfold execShutdownNorIdle | unfold execShutdownNorTimeout
         | unfold execShutdownRecordWritten | unfold execShutdownTripTimeout | unfold execTrialConfirm | unfold execRowShed | unfold execRowRestored
         | unfold execEthFrameReceive | unfold execTrainFrame | unfold execIdentFrame | unfold execStatusFrame
       try dsimp only
       repeat' split
       all_goals exact ⟨_, rfl⟩)

end Sys2Proof.Machine
end

