-- ==== Sys2Proof/Laws/Memory.lean ====
section
/-! SUPPORT. The memory keeps its canonical form, and a byte reads back what was written. -/

namespace Sys2Proof.Machine

/-! ### Writing one byte -/

theorem wfFrom_weaken {lo hi : Option Nat} {m : List Host.Cell} (h : ∀ k, (hi.all (· < k)) → lo.all (· < k)) :
    Memory.wfFrom hi m → Memory.wfFrom lo m := by
  cases m with
  | nil => simp [Memory.wfFrom]
  | cons e r => simp only [Memory.wfFrom, Bool.and_eq_true]; exact fun ⟨⟨a, b⟩, c⟩ => ⟨⟨h _ a, b⟩, c⟩

theorem wfFrom_some_le {k j : Nat} {m : List Host.Cell} (h : k ≤ j) : Memory.wfFrom (some j) m → Memory.wfFrom (some k) m :=
  wfFrom_weaken fun n hn => by simp_all; omega

theorem wfFrom_drop (a : Nat) : ∀ (m : List Host.Cell) (lo : Option Nat), Memory.wfFrom lo m → Memory.wfFrom lo (dropCell a m)
  | [], lo, _ => by simp [dropCell, Memory.wfFrom]
  | (k, v) :: r, lo, h => by
    simp only [Memory.wfFrom, Bool.and_eq_true] at h
    obtain ⟨⟨h1, h2⟩, h3⟩ := h
    have ih := wfFrom_drop a r (some k) h3
    simp only [dropCell]
    split
    · refine wfFrom_weaken (fun n hn => ?_) ih
      cases lo <;> simp_all
      omega
    · simp_all [Memory.wfFrom]

/-- No entry of the list is at address a. -/
def Absent (a : Nat) (m : List Host.Cell) : Prop := ∀ e ∈ m, e.1 ≠ a

theorem absent_drop (a : Nat) : ∀ m : List Host.Cell, Absent a (dropCell a m)
  | [] => by simp [Absent, dropCell]
  | (k, v) :: r => by
    have ih := absent_drop a r
    simp only [dropCell]
    split
    · exact ih
    · intro e he
      rcases List.mem_cons.1 he with rfl | h
      · assumption
      · exact ih e h

theorem wfFrom_insert {a : Nat} {b : Byte} (hb : b ≠ 0) : ∀ (m : List Host.Cell) (lo : Option Nat), lo.all (· < a) → Absent a m →
    Memory.wfFrom lo m → Memory.wfFrom lo (insertCell a b m)
  | [], lo, hlo, _, _ => by simp_all [insertCell, Memory.wfFrom]
  | (k, v) :: r, lo, hlo, ha, h => by
    have hk : k ≠ a := ha (k, v) (by simp)
    simp only [Memory.wfFrom, Bool.and_eq_true] at h
    obtain ⟨⟨h1, h2⟩, h3⟩ := h
    simp only [insertCell]
    split
    · rename_i hlt
      simp_all [Memory.wfFrom]
    · rename_i hlt
      have ih := wfFrom_insert hb r (some k) (by simp; omega) (fun e he => ha e (by simp [he])) h3
      simp_all [Memory.wfFrom]

/-- Writing a byte keeps the canonical form. -/
theorem wf_writeByte (a : Nat) (b : Byte) {m : List Host.Cell} (h : Memory.wf m) : Memory.wf (writeByte a b m) := by
  unfold Memory.wf writeByte at *
  split
  · exact wfFrom_drop a m none h
  · exact wfFrom_insert ‹_› _ none (by simp) (absent_drop a m) (wfFrom_drop a m none h)

/-- Writing bytes keeps the canonical form. -/
theorem wf_writeBytes : ∀ (b : Bytes) (a : Nat) (m : List Host.Cell), Memory.wf m → Memory.wf (writeBytes a b m)
  | [], _, _, h => h
  | x :: r, a, m, h => wf_writeBytes r (a + 1) (writeByte a x m) (wf_writeByte a x h)

/-- A store keeps the canonical form. -/
theorem wf_store (a : Nat) (b : Bytes) (s : State) (h : Memory.wf s.dmc.mem) : Memory.wf (store a b s).dmc.mem := wf_writeBytes b a _ h

/-! ### Reading back -/

theorem readByte_drop_self (a : Nat) : ∀ m : List Host.Cell, readByte (dropCell a m) a = 0
  | [] => rfl
  | (k, v) :: r => by
    have ih := readByte_drop_self a r
    simp only [dropCell]
    split <;> simp_all [readByte]

theorem readByte_drop_ne {a c : Nat} (h : c ≠ a) : ∀ m : List Host.Cell, readByte (dropCell a m) c = readByte m c
  | [] => rfl
  | (k, v) :: r => by
    have ih := readByte_drop_ne h r
    simp only [dropCell]
    split
    · subst_vars; simp [readByte, ih, h.symm]
    · simp [readByte, ih]

theorem readByte_insert {a : Nat} {b : Byte} (c : Nat) : ∀ m : List Host.Cell, Absent a m →
    readByte (insertCell a b m) c = if c = a then b else readByte m c
  | [], _ => by simp [insertCell, readByte, eq_comm]
  | (k, v) :: r, ha => by
    have hk : k ≠ a := ha (k, v) (by simp)
    have ih := readByte_insert (a := a) (b := b) c r fun e he => ha e (by simp [he])
    simp only [insertCell]
    split
    · by_cases hc : c = a
      · subst hc; simp [readByte]
      · simp [readByte, hc, Ne.symm hc]
    · simp only [readByte, ih]
      split <;> split <;> simp_all

/-- A byte reads what was last written to it; every other byte is as it was. -/
theorem readByte_writeByte (a c : Nat) (b : Byte) (m : List Host.Cell) : readByte (writeByte a b m) c = if c = a then b else readByte m c := by
  unfold writeByte
  split
  · split
    · subst_vars; simp [readByte_drop_self]
    · exact readByte_drop_ne ‹_› m
  · rw [readByte_insert c _ (absent_drop a m)]
    split
    · rfl
    · exact readByte_drop_ne ‹_› m

/-- Writing bytes changes no byte outside them. -/
theorem readByte_writeBytes_outside : ∀ (b : Bytes) (a c : Nat) (m : List Host.Cell), (c < a ∨ a + b.length ≤ c) →
    readByte (writeBytes a b m) c = readByte m c
  | [], _, _, _, _ => rfl
  | x :: r, a, c, m, h => by
    simp only [List.length_cons] at h
    rw [writeBytes, readByte_writeBytes_outside r (a + 1) c _ (by omega), readByte_writeByte, if_neg (by omega)]

/-- Bytes read back as written. -/
theorem readBytes_writeBytes : ∀ (b : Bytes) (a : Nat) (m : List Host.Cell), readBytes (writeBytes a b m) a b.length = b
  | [], _, _ => rfl
  | x :: r, a, m => by
    simp only [List.length_cons, readBytes, writeBytes]
    rw [readByte_writeBytes_outside r (a + 1) a _ (by omega), readByte_writeByte, if_pos rfl, readBytes_writeBytes r (a + 1)]

/-- A store is read back, and changes no byte outside it. -/
theorem load_store (a : Nat) (b : Bytes) (s : State) : load (store a b s) a b.length = b := readBytes_writeBytes b a _

theorem readByte_store_outside {a c : Nat} {b : Bytes} (s : State) (h : c < a ∨ a + b.length ≤ c) :
    readByte (store a b s).dmc.mem c = readByte s.dmc.mem c := readByte_writeBytes_outside b a c _ h

end Sys2Proof.Machine
end

