-- ==== Sys2Proof/Laws/Keeps.lean ====
section
/-! SUPPORT. What an operation keeps: the parts of the state that it does not write, the canonical form of device DRAM, the
Bureau's chain, and the queue of commands. One rule for each way in which operations are put together. -/

namespace Sys2Proof.Machine

/-- From `s` to `t` only the listed parts may differ, and the invariants stay. -/
structure Keeps (l : List Part) (s t : State) : Prop where
  same : SameBut l s t
  dram : DramCanonical s → DramCanonical t
  chain : BureauChained s → BureauChained t
  queue : t.pending = s.pending

theorem Part.same_refl (s : State) (p : Part) : p.same s s := by cases p <;> simp [Part.same]

theorem Part.same_trans {s t u : State} {p : Part} (h : p.same s t) (k : p.same t u) : p.same s u := by
  cases p <;> simp only [Part.same] at * <;> first | exact k.trans h | simp only [h, k, and_self]

theorem Keeps.refl (l : List Part) (s : State) : Keeps l s s := ⟨fun p _ => p.same_refl s, id, id, rfl⟩

/-- Every part of the first list is in the second. -/
def Part.among (m l : List Part) : Bool := m.all fun p => decide (p ∈ l)

theorem Keeps.after {l m : List Part} {s t u : State} (k : Keeps m t u) (hm : Part.among m l = true) (h : Keeps l s t) : Keeps l s u where
  same p hp := Part.same_trans (h.same p hp) (k.same p fun hm' => hp (of_decide_eq_true (List.all_eq_true.1 hm p hm')))
  dram := k.dram ∘ h.dram
  chain := k.chain ∘ h.chain
  queue := k.queue.trans h.queue

theorem Keeps.trans {l : List Part} {s t u : State} (h : Keeps l s t) (k : Keeps l t u) : Keeps l s u :=
  Keeps.after k (by simp [Part.among]) h

theorem Keeps.cut {l : List Part} {s t u : State} (h : Keeps l s t) (k : Keeps l s t → Keeps l s u) : Keeps l s u := k h

theorem Keeps.ite {l : List Part} {s a b : State} {c : Prop} [Decidable c] (h : Keeps l s a) (k : Keeps l s b) : Keeps l s (if c then a else b) := by
  split <;> assumption

theorem Keeps.ifEvent {l : List Part} {s a b : State} {c : Bool} (h : Keeps l s a) (k : Keeps l s b) : Keeps l s (Machine.ifEvent c a b) := by
  unfold Machine.ifEvent; exact Keeps.ite h k

theorem Keeps.foldl {α : Type} {l : List Part} {s : State} {g : State → α → State} {xs : List α} (hg : ∀ t x, Keeps l t (g t x)) :
    ∀ {t : State}, Keeps l s t → Keeps l s (xs.foldl g t) := by
  induction xs with
  | nil => exact id
  | cons x xs ih => intro t h; exact ih (Keeps.after (hg t x) (by simp [Part.among]) h)

theorem Keeps.foldlFst {α β : Type} {l : List Part} {s : State} {g : State × β → α → State × β} {xs : List α} (hg : ∀ t x, Keeps l t.1 (g t x).1) :
    ∀ {t : State × β}, Keeps l s t.1 → Keeps l s (xs.foldl g t).1 := by
  induction xs with
  | nil => exact id
  | cons x xs ih => intro t h; exact ih (Keeps.after (hg t x) (by simp [Part.among]) h)

theorem Keeps.elim {α : Type} {l : List Part} {s d : State} {g : α → State} {o : Option α} (h : Keeps l s d) (k : ∀ a, Keeps l s (g a)) :
    Keeps l s (o.elim d g) := by cases o <;> simp_all

/-- A state with some fields of `x` replaced. -/
theorem Keeps.upd {l : List Part} {s x : State} {cmp} {geom} {ray} {sig} {tim} {eth} {out} {tlk} {dec} {enc} {blt} {dfl} {dmc} {hif} {walec} {bureau} {clk} {pwr} {thm} {spr} {bot} {pins} {sent} {drawn} {pending}
    (hcmp : Part.cmp ∈ l ∨ cmp = x.cmp) (hgeom : Part.geom ∈ l ∨ geom = x.geom) (hray : Part.ray ∈ l ∨ ray = x.ray)
    (hsig : Part.sig ∈ l ∨ sig = x.sig) (heth : Part.eth ∈ l ∨ eth = x.eth) (hout : Part.out ∈ l ∨ out = x.out)
    (htlk : Part.tlk ∈ l ∨ tlk = x.tlk) (hdec : Part.dec ∈ l ∨ dec = x.dec) (henc : Part.enc ∈ l ∨ enc = x.enc)
    (hblt : Part.blt ∈ l ∨ blt = x.blt) (hdfl : Part.dfl ∈ l ∨ dfl = x.dfl) (hwalec : Part.walec ∈ l ∨ walec = x.walec)
    (hclk : Part.clk ∈ l ∨ clk = x.clk) (hpwr : Part.pwr ∈ l ∨ pwr = x.pwr) (hthm : Part.thm ∈ l ∨ thm = x.thm)
    (hspr : Part.spr ∈ l ∨ spr = x.spr) (hbot : Part.bot ∈ l ∨ bot = x.bot) (hpins : Part.pins ∈ l ∨ pins = x.pins)
    (hsent : Part.sent ∈ l ∨ sent = x.sent) (hdrawn : Part.drawn ∈ l ∨ drawn = x.drawn)
    (htim : Part.tim ∈ l ∨ { tim with bases := [] } = { x.tim with bases := [] })
    (hbases : Part.bases ∈ l ∨ tim.bases = x.tim.bases)
    (hdmc : Part.dmc ∈ l ∨ { dmc with mem := [], poison := [] } = { x.dmc with mem := [], poison := [] })
    (hdram : dmc.mem = x.dmc.mem ∧ dmc.poison = x.dmc.poison)
    (hports : Part.ports ∈ l ∨ (hif.portA = x.hif.portA ∧ hif.portB = x.hif.portB ∧ hif.attention = x.hif.attention))
    (hdrawers : Part.drawers ∈ l ∨ hif.drawers = x.hif.drawers) (hqueues : Part.queues ∈ l ∨ hif.queues = x.hif.queues)
    (howners : Part.owners ∈ l ∨ (hif.own = x.hif.own ∧ hif.leaseMs = x.hif.leaseMs))
    (hhealth : Part.health ∈ l ∨ (hif.beat = x.hif.beat ∧ hif.restarts = x.hif.restarts ∧ hif.walec = x.hif.walec ∧ hif.powerDown = x.hif.powerDown))
    (hbureau : bureau = x.bureau) (hpending : pending = x.pending)
    (h : Keeps l s x) : Keeps l s (State.mk cmp geom ray sig tim eth out tlk dec enc blt dfl dmc hif walec bureau clk pwr thm spr bot pins sent drawn pending) := by
  refine Keeps.after (m := l) (t := x) ⟨fun p hp => ?_, fun hs => ?_, fun hs => ?_, hpending⟩ (by simp [Part.among]) h
  · cases p <;> simp_all [Part.same]
  · simpa [DramCanonical, hdram.1] using hs
  · simpa [BureauChained, hbureau] using hs

/-! ### One field replaced -/

/-- Only one part differs, and none that an invariant rests on. -/
theorem Keeps.part {K : List Part} {s₀ s t : State} (q : Part) (hq : SameBut [q] s t) (hm : t.dmc.mem = s.dmc.mem) (hb : t.bureau = s.bureau)
    (hp : t.pending = s.pending) (hm₀ : Part.among [q] K = true) (h₀ : Keeps K s₀ s) : Keeps K s₀ t :=
  Keeps.after (t := s) ⟨hq, fun h => by rw [DramCanonical, hm]; exact h, fun h => by rw [BureauChained, hb]; exact h, hp⟩ hm₀ h₀

theorem Keeps.cmp_set {K : List Part} {s₀ s : State} (x : CmpState) (hm₀ : Part.among [.cmp] K = true) (h₀ : Keeps K s₀ s) :
    Keeps K s₀ { s with cmp := x } :=
  Keeps.part (s := s) .cmp (fun p hp => by cases p <;> first | exact absurd (by decide) hp | exact rfl | exact ⟨rfl, rfl⟩ | exact ⟨rfl, rfl, rfl⟩ | exact ⟨rfl, rfl, rfl, rfl⟩) rfl rfl rfl hm₀ h₀

theorem Keeps.geom_set {K : List Part} {s₀ s : State} (x : GeomState) (hm₀ : Part.among [.geom] K = true) (h₀ : Keeps K s₀ s) :
    Keeps K s₀ { s with geom := x } :=
  Keeps.part (s := s) .geom (fun p hp => by cases p <;> first | exact absurd (by decide) hp | exact rfl | exact ⟨rfl, rfl⟩ | exact ⟨rfl, rfl, rfl⟩ | exact ⟨rfl, rfl, rfl, rfl⟩) rfl rfl rfl hm₀ h₀

theorem Keeps.ray_set {K : List Part} {s₀ s : State} (x : RayState) (hm₀ : Part.among [.ray] K = true) (h₀ : Keeps K s₀ s) :
    Keeps K s₀ { s with ray := x } :=
  Keeps.part (s := s) .ray (fun p hp => by cases p <;> first | exact absurd (by decide) hp | exact rfl | exact ⟨rfl, rfl⟩ | exact ⟨rfl, rfl, rfl⟩ | exact ⟨rfl, rfl, rfl, rfl⟩) rfl rfl rfl hm₀ h₀

theorem Keeps.sig_set {K : List Part} {s₀ s : State} (x : SigState) (hm₀ : Part.among [.sig] K = true) (h₀ : Keeps K s₀ s) :
    Keeps K s₀ { s with sig := x } :=
  Keeps.part (s := s) .sig (fun p hp => by cases p <;> first | exact absurd (by decide) hp | exact rfl | exact ⟨rfl, rfl⟩ | exact ⟨rfl, rfl, rfl⟩ | exact ⟨rfl, rfl, rfl, rfl⟩) rfl rfl rfl hm₀ h₀

theorem Keeps.eth_set {K : List Part} {s₀ s : State} (x : EthState) (hm₀ : Part.among [.eth] K = true) (h₀ : Keeps K s₀ s) :
    Keeps K s₀ { s with eth := x } :=
  Keeps.part (s := s) .eth (fun p hp => by cases p <;> first | exact absurd (by decide) hp | exact rfl | exact ⟨rfl, rfl⟩ | exact ⟨rfl, rfl, rfl⟩ | exact ⟨rfl, rfl, rfl, rfl⟩) rfl rfl rfl hm₀ h₀

theorem Keeps.out_set {K : List Part} {s₀ s : State} (x : OutState) (hm₀ : Part.among [.out] K = true) (h₀ : Keeps K s₀ s) :
    Keeps K s₀ { s with out := x } :=
  Keeps.part (s := s) .out (fun p hp => by cases p <;> first | exact absurd (by decide) hp | exact rfl | exact ⟨rfl, rfl⟩ | exact ⟨rfl, rfl, rfl⟩ | exact ⟨rfl, rfl, rfl, rfl⟩) rfl rfl rfl hm₀ h₀

theorem Keeps.tlk_set {K : List Part} {s₀ s : State} (x : TlkState) (hm₀ : Part.among [.tlk] K = true) (h₀ : Keeps K s₀ s) :
    Keeps K s₀ { s with tlk := x } :=
  Keeps.part (s := s) .tlk (fun p hp => by cases p <;> first | exact absurd (by decide) hp | exact rfl | exact ⟨rfl, rfl⟩ | exact ⟨rfl, rfl, rfl⟩ | exact ⟨rfl, rfl, rfl, rfl⟩) rfl rfl rfl hm₀ h₀

theorem Keeps.dec_set {K : List Part} {s₀ s : State} (x : DecState) (hm₀ : Part.among [.dec] K = true) (h₀ : Keeps K s₀ s) :
    Keeps K s₀ { s with dec := x } :=
  Keeps.part (s := s) .dec (fun p hp => by cases p <;> first | exact absurd (by decide) hp | exact rfl | exact ⟨rfl, rfl⟩ | exact ⟨rfl, rfl, rfl⟩ | exact ⟨rfl, rfl, rfl, rfl⟩) rfl rfl rfl hm₀ h₀

theorem Keeps.enc_set {K : List Part} {s₀ s : State} (x : EncState) (hm₀ : Part.among [.enc] K = true) (h₀ : Keeps K s₀ s) :
    Keeps K s₀ { s with enc := x } :=
  Keeps.part (s := s) .enc (fun p hp => by cases p <;> first | exact absurd (by decide) hp | exact rfl | exact ⟨rfl, rfl⟩ | exact ⟨rfl, rfl, rfl⟩ | exact ⟨rfl, rfl, rfl, rfl⟩) rfl rfl rfl hm₀ h₀

theorem Keeps.blt_set {K : List Part} {s₀ s : State} (x : BltState) (hm₀ : Part.among [.blt] K = true) (h₀ : Keeps K s₀ s) :
    Keeps K s₀ { s with blt := x } :=
  Keeps.part (s := s) .blt (fun p hp => by cases p <;> first | exact absurd (by decide) hp | exact rfl | exact ⟨rfl, rfl⟩ | exact ⟨rfl, rfl, rfl⟩ | exact ⟨rfl, rfl, rfl, rfl⟩) rfl rfl rfl hm₀ h₀

theorem Keeps.dfl_set {K : List Part} {s₀ s : State} (x : DflState) (hm₀ : Part.among [.dfl] K = true) (h₀ : Keeps K s₀ s) :
    Keeps K s₀ { s with dfl := x } :=
  Keeps.part (s := s) .dfl (fun p hp => by cases p <;> first | exact absurd (by decide) hp | exact rfl | exact ⟨rfl, rfl⟩ | exact ⟨rfl, rfl, rfl⟩ | exact ⟨rfl, rfl, rfl, rfl⟩) rfl rfl rfl hm₀ h₀

theorem Keeps.walec_set {K : List Part} {s₀ s : State} (x : WalecCtl) (hm₀ : Part.among [.walec] K = true) (h₀ : Keeps K s₀ s) :
    Keeps K s₀ { s with walec := x } :=
  Keeps.part (s := s) .walec (fun p hp => by cases p <;> first | exact absurd (by decide) hp | exact rfl | exact ⟨rfl, rfl⟩ | exact ⟨rfl, rfl, rfl⟩ | exact ⟨rfl, rfl, rfl, rfl⟩) rfl rfl rfl hm₀ h₀

theorem Keeps.clk_set {K : List Part} {s₀ s : State} (x : ClkState) (hm₀ : Part.among [.clk] K = true) (h₀ : Keeps K s₀ s) :
    Keeps K s₀ { s with clk := x } :=
  Keeps.part (s := s) .clk (fun p hp => by cases p <;> first | exact absurd (by decide) hp | exact rfl | exact ⟨rfl, rfl⟩ | exact ⟨rfl, rfl, rfl⟩ | exact ⟨rfl, rfl, rfl, rfl⟩) rfl rfl rfl hm₀ h₀

theorem Keeps.pwr_set {K : List Part} {s₀ s : State} (x : PwrState) (hm₀ : Part.among [.pwr] K = true) (h₀ : Keeps K s₀ s) :
    Keeps K s₀ { s with pwr := x } :=
  Keeps.part (s := s) .pwr (fun p hp => by cases p <;> first | exact absurd (by decide) hp | exact rfl | exact ⟨rfl, rfl⟩ | exact ⟨rfl, rfl, rfl⟩ | exact ⟨rfl, rfl, rfl, rfl⟩) rfl rfl rfl hm₀ h₀

theorem Keeps.thm_set {K : List Part} {s₀ s : State} (x : ThmState) (hm₀ : Part.among [.thm] K = true) (h₀ : Keeps K s₀ s) :
    Keeps K s₀ { s with thm := x } :=
  Keeps.part (s := s) .thm (fun p hp => by cases p <;> first | exact absurd (by decide) hp | exact rfl | exact ⟨rfl, rfl⟩ | exact ⟨rfl, rfl, rfl⟩ | exact ⟨rfl, rfl, rfl, rfl⟩) rfl rfl rfl hm₀ h₀

theorem Keeps.spr_set {K : List Part} {s₀ s : State} (x : SprState) (hm₀ : Part.among [.spr] K = true) (h₀ : Keeps K s₀ s) :
    Keeps K s₀ { s with spr := x } :=
  Keeps.part (s := s) .spr (fun p hp => by cases p <;> first | exact absurd (by decide) hp | exact rfl | exact ⟨rfl, rfl⟩ | exact ⟨rfl, rfl, rfl⟩ | exact ⟨rfl, rfl, rfl, rfl⟩) rfl rfl rfl hm₀ h₀

theorem Keeps.bot_set {K : List Part} {s₀ s : State} (x : BotState) (hm₀ : Part.among [.bot] K = true) (h₀ : Keeps K s₀ s) :
    Keeps K s₀ { s with bot := x } :=
  Keeps.part (s := s) .bot (fun p hp => by cases p <;> first | exact absurd (by decide) hp | exact rfl | exact ⟨rfl, rfl⟩ | exact ⟨rfl, rfl, rfl⟩ | exact ⟨rfl, rfl, rfl, rfl⟩) rfl rfl rfl hm₀ h₀

theorem Keeps.pins_set {K : List Part} {s₀ s : State} (x : Pins) (hm₀ : Part.among [.pins] K = true) (h₀ : Keeps K s₀ s) :
    Keeps K s₀ { s with pins := x } :=
  Keeps.part (s := s) .pins (fun p hp => by cases p <;> first | exact absurd (by decide) hp | exact rfl | exact ⟨rfl, rfl⟩ | exact ⟨rfl, rfl, rfl⟩ | exact ⟨rfl, rfl, rfl, rfl⟩) rfl rfl rfl hm₀ h₀

theorem Keeps.sent_set {K : List Part} {s₀ s : State} (x : List Sent) (hm₀ : Part.among [.sent] K = true) (h₀ : Keeps K s₀ s) :
    Keeps K s₀ { s with sent := x } :=
  Keeps.part (s := s) .sent (fun p hp => by cases p <;> first | exact absurd (by decide) hp | exact rfl | exact ⟨rfl, rfl⟩ | exact ⟨rfl, rfl, rfl⟩ | exact ⟨rfl, rfl, rfl, rfl⟩) rfl rfl rfl hm₀ h₀

theorem Keeps.drawn_set {K : List Part} {s₀ s : State} (x : Nat) (hm₀ : Part.among [.drawn] K = true) (h₀ : Keeps K s₀ s) :
    Keeps K s₀ { s with drawn := x } :=
  Keeps.part (s := s) .drawn (fun p hp => by cases p <;> first | exact absurd (by decide) hp | exact rfl | exact ⟨rfl, rfl⟩ | exact ⟨rfl, rfl, rfl⟩ | exact ⟨rfl, rfl, rfl, rfl⟩) rfl rfl rfl hm₀ h₀

theorem Keeps.tim_set {K : List Part} {s₀ s : State} (x : TimState) (hx : x.bases = s.tim.bases) (hm₀ : Part.among [.tim] K = true) (h₀ : Keeps K s₀ s) :
    Keeps K s₀ { s with tim := x } :=
  Keeps.part (s := s) .tim (fun p hp => by cases p <;> first | exact absurd (by decide) hp | exact hx | exact rfl | exact ⟨rfl, rfl⟩ | exact ⟨rfl, rfl, rfl⟩ | exact ⟨rfl, rfl, rfl, rfl⟩)
    rfl rfl rfl hm₀ h₀

theorem Keeps.dmc_set {K : List Part} {s₀ s : State} (x : DmcState) (hx : x.mem = s.dmc.mem) (hy : x.poison = s.dmc.poison)
    (hm₀ : Part.among [.dmc] K = true) (h₀ : Keeps K s₀ s) : Keeps K s₀ { s with dmc := x } :=
  Keeps.part (s := s) .dmc (fun p hp => by cases p <;> first | exact absurd (by decide) hp | exact ⟨hx, hy⟩ | exact rfl | exact ⟨rfl, rfl⟩ | exact ⟨rfl, rfl, rfl⟩ | exact ⟨rfl, rfl, rfl, rfl⟩)
    hx rfl rfl hm₀ h₀

/-! ### The Bureau and device DRAM -/

/-- The chain goes on with an entry that follows the last one. -/
theorem linkedEntries_append (e : Entry) : ∀ (r : List Entry) (p : Entry), linkedEntries p r = true →
    ((p :: r).getLast (by simp)).precedes e = true → linkedEntries p (r ++ [e]) = true
  | [], p, _, h => by simpa [linkedEntries] using h
  | x :: r, p, hl, h => by
    simp only [linkedEntries, Bool.and_eq_true, List.cons_append] at hl ⊢
    exact ⟨hl.1, linkedEntries_append e r x hl.2 (by simpa using h)⟩

/-- The chain of a ring that ends with entry `x`. -/
theorem chained_of_last {b : BureauState} {e x : Entry} {r : List Entry} (hr : b.ring = e :: r) (h1 : e.event = 0xF2 ∨ e.chain = chainAfter b.chainBefore e)
    (h2 : linkedEntries e r = true) (hl : (e :: r).getLast (by simp) = x) (h3 : b.nextSeq = x.seq + 1) (h4 : b.chain = x.chain) : b.chained = true := by
  have : (e :: r).getLast? = some x := by rw [List.getLast?_eq_getLast_of_ne_nil (by simp), hl]
  simp [BureauState.chained, hr, h1, h2, this, h3, h4]

theorem chained_append (b : BureauState) (e : Entry) (h : b.chained = true) (hs : e.seq = b.nextSeq) (hc : e.chain = chainAfter b.chain e) :
    (b.append e).chained = true := by
  rcases hr : b.ring with _ | ⟨x, r⟩
  · have hb : b.chain = b.chainBefore := by simpa [BureauState.chained, hr] using h
    refine chained_of_last (e := e) (r := []) (x := e) (by simp [BureauState.append, hr]) (.inr ?_) rfl rfl rfl rfl
    simp [BureauState.append, hr, hc, hb]
  · simp only [BureauState.chained, hr, Bool.and_eq_true, Bool.or_eq_true, beq_iff_eq] at h
    obtain ⟨⟨h1, h2⟩, h3⟩ := h
    rw [List.getLast?_eq_getLast_of_ne_nil (by simp)] at h3
    simp only [Option.all_some, Bool.and_eq_true, beq_iff_eq] at h3
    have hf : ((x :: r).getLast (by simp)).precedes e = true := by
      simp only [Entry.precedes, Bool.or_eq_true, Bool.and_eq_true, beq_iff_eq]; exact .inr ⟨hs.trans h3.1, h3.2 ▸ hc⟩
    have hl := linkedEntries_append e r x h2 hf
    by_cases full : 65536 ≤ b.ring.length
    · have hf1 : (b.append e).ring = b.ring.drop 1 ++ [e] := by simp [BureauState.append, full]
      have hf2 : (b.append e).chainBefore = x.chain := by simp [BureauState.append, full]; simp [hr]
      rcases r with _ | ⟨y, r⟩
      · simp [hr] at full
      · simp only [linkedEntries, List.cons_append, Bool.and_eq_true] at hl
        refine chained_of_last (e := y) (r := r ++ [e]) (x := e) (by rw [hf1, hr]; rfl) ?_ hl.2 (by simp) rfl rfl
        rw [hf2]
        have := hl.1
        simp only [Entry.precedes, Bool.or_eq_true, Bool.and_eq_true, beq_iff_eq] at this
        exact this.imp id And.right
    · have hf1 : (b.append e).ring = b.ring ++ [e] := by simp [BureauState.append, full]
      have hf2 : (b.append e).chainBefore = b.chainBefore := by simp [BureauState.append, full]
      refine chained_of_last (e := x) (r := r ++ [e]) (x := e) (by rw [hf1, hr]; rfl) ?_ hl (by simp) rfl rfl
      rw [hf2]; exact h1

/-- What the chain rests on: the ring, and the SEQ and CHAIN of the next entry. -/
def BureauState.core (b : BureauState) : List Entry × Nat × Nat × Nat := (b.ring, b.nextSeq, b.chain, b.chainBefore)

theorem BureauState.chained_congr {b c : BureauState} (h : c.core = b.core) (k : b.chained = true) : c.chained = true := by
  simp only [BureauState.core, Prod.mk.injEq] at h
  obtain ⟨h1, h2, h3, h4⟩ := h
  simpa [BureauState.chained, h1, h2, h3, h4] using k

/-- The Bureau's state is replaced by one with the same chain. -/
theorem Keeps.bureau {K : List Part} {s₀ : State} (b : BureauState) (s : State) (hb : b.core = s.bureau.core)
    (hm₀ : Part.among [.bureau] K = true) (h₀ : Keeps K s₀ s) : Keeps K s₀ { s with bureau := b } := by
  refine Keeps.after (t := s) ⟨fun p hp => ?_, id, BureauState.chained_congr hb, rfl⟩ hm₀ h₀
  cases p <;> first | exact absurd (by decide) hp | rfl | exact ⟨rfl, rfl⟩ | exact ⟨rfl, rfl, rfl⟩ | exact ⟨rfl, rfl, rfl, rfl⟩

theorem logIn_keeps {K : List Part} {s₀ : State} (base : Nat) (o : Origin) (subject event detail : Nat) (old new : Bytes) (summary : Bool) (s : State)
    (hm₀ : Part.among [.bureau] K = true) (h₀ : Keeps K s₀ s) : Keeps K s₀ (logIn base o subject event detail old new summary s) := by
  refine Keeps.after (t := s) ⟨fun p hp => ?_, id, fun h => chained_append _ _ h rfl rfl, rfl⟩ hm₀ h₀
  cases p <;> first | exact absurd (by decide) hp | simp [Part.same, logIn]

theorem logEntry_keeps {K : List Part} {s₀ : State} (o : Origin) (subject event detail : Nat) (old new : Bytes) (summary : Bool) (s : State)
    (hm₀ : Part.among [.bureau] K = true) (h₀ : Keeps K s₀ s) : Keeps K s₀ (logEntry o subject event detail old new summary s) :=
  logIn_keeps _ o subject event detail old new summary s hm₀ h₀

theorem store_keeps {K : List Part} {s₀ : State} (a : Nat) (b : Bytes) (s : State)
    (hm₀ : Part.among [.dram] K = true) (h₀ : Keeps K s₀ s) : Keeps K s₀ (store a b s) := by
  refine Keeps.after (t := s) ⟨fun p hp => ?_, fun h => ?_, id, rfl⟩ hm₀ h₀
  · cases p <;> first | exact absurd (by decide) hp | simp [Part.same, store]
  · exact wf_writeBytes b a _ h

theorem rewritten_keeps {K : List Part} {s₀ : State} (a n : Nat) (s : State)
    (hm₀ : Part.among [.dram] K = true) (h₀ : Keeps K s₀ s) : Keeps K s₀ (rewritten a n s) := by
  refine Keeps.after (t := s) ⟨fun p hp => ?_, id, id, rfl⟩ hm₀ h₀
  cases p <;> first | exact absurd (by decide) hp | simp [Part.same, rewritten]

/-! ### Replies of verbs -/

theorem checked_keeps {K : List Part} {s₀ go s : State} {l : List (Bool × Status)} {body : Bytes} (hgo : Keeps K s₀ go) (hs : Keeps K s₀ s) :
    Keeps K s₀ (checked l go s body).2.2 := by
  unfold checked
  split
  · exact hgo
  · exact hs

theorem refuse_keeps {K : List Part} {s₀ s : State} {c : Status} (hs : Keeps K s₀ s) : Keeps K s₀ (refuse c s).2.2 := hs

end Sys2Proof.Machine
end

