-- ==== Sys2Proof/Laws/State.lean ====
section
/-! SUPPORT. What each update of the state leaves as it was: one lemma per update, one clause per field. -/

namespace Sys2Proof.Machine

variable (s : State)

@[simp] theorem send_frame (o : Sent) :
    (send o s).cmp = s.cmp ∧ (send o s).geom = s.geom ∧ (send o s).ray = s.ray ∧ (send o s).sig = s.sig ∧ (send o s).tim = s.tim ∧
    (send o s).eth = s.eth ∧ (send o s).out = s.out ∧ (send o s).tlk = s.tlk ∧ (send o s).dec = s.dec ∧ (send o s).enc = s.enc ∧
    (send o s).blt = s.blt ∧ (send o s).dfl = s.dfl ∧ (send o s).dmc = s.dmc ∧ (send o s).hif = s.hif ∧ (send o s).walec = s.walec ∧
    (send o s).bureau = s.bureau ∧ (send o s).clk = s.clk ∧ (send o s).pwr = s.pwr ∧ (send o s).thm = s.thm ∧ (send o s).spr = s.spr ∧
    (send o s).bot = s.bot ∧ (send o s).pins = s.pins ∧ (send o s).drawn = s.drawn ∧ (send o s).pending = s.pending :=
  ⟨rfl, rfl, rfl, rfl, rfl, rfl, rfl, rfl, rfl, rfl, rfl, rfl, rfl, rfl, rfl, rfl, rfl, rfl, rfl, rfl, rfl, rfl, rfl, rfl⟩

@[simp] theorem sendAll_frame (os : List Sent) :
    (sendAll os s).cmp = s.cmp ∧ (sendAll os s).geom = s.geom ∧ (sendAll os s).ray = s.ray ∧ (sendAll os s).sig = s.sig ∧
    (sendAll os s).tim = s.tim ∧ (sendAll os s).eth = s.eth ∧ (sendAll os s).out = s.out ∧ (sendAll os s).tlk = s.tlk ∧ (sendAll os s).dec = s.dec ∧
    (sendAll os s).enc = s.enc ∧ (sendAll os s).blt = s.blt ∧ (sendAll os s).dfl = s.dfl ∧ (sendAll os s).dmc = s.dmc ∧ (sendAll os s).hif = s.hif ∧
    (sendAll os s).walec = s.walec ∧ (sendAll os s).bureau = s.bureau ∧ (sendAll os s).clk = s.clk ∧ (sendAll os s).pwr = s.pwr ∧
    (sendAll os s).thm = s.thm ∧ (sendAll os s).spr = s.spr ∧ (sendAll os s).bot = s.bot ∧ (sendAll os s).pins = s.pins ∧
    (sendAll os s).drawn = s.drawn ∧ (sendAll os s).pending = s.pending :=
  ⟨rfl, rfl, rfl, rfl, rfl, rfl, rfl, rfl, rfl, rfl, rfl, rfl, rfl, rfl, rfl, rfl, rfl, rfl, rfl, rfl, rfl, rfl, rfl, rfl⟩

@[simp] theorem drew_frame :
    (drew s).cmp = s.cmp ∧ (drew s).geom = s.geom ∧ (drew s).ray = s.ray ∧ (drew s).sig = s.sig ∧ (drew s).tim = s.tim ∧ (drew s).eth = s.eth ∧
    (drew s).out = s.out ∧ (drew s).tlk = s.tlk ∧ (drew s).dec = s.dec ∧ (drew s).enc = s.enc ∧ (drew s).blt = s.blt ∧ (drew s).dfl = s.dfl ∧
    (drew s).dmc = s.dmc ∧ (drew s).hif = s.hif ∧ (drew s).walec = s.walec ∧ (drew s).bureau = s.bureau ∧ (drew s).clk = s.clk ∧
    (drew s).pwr = s.pwr ∧ (drew s).thm = s.thm ∧ (drew s).spr = s.spr ∧ (drew s).bot = s.bot ∧ (drew s).pins = s.pins ∧ (drew s).sent = s.sent ∧
    (drew s).pending = s.pending :=
  ⟨rfl, rfl, rfl, rfl, rfl, rfl, rfl, rfl, rfl, rfl, rfl, rfl, rfl, rfl, rfl, rfl, rfl, rfl, rfl, rfl, rfl, rfl, rfl, rfl⟩

@[simp] theorem setBase_frame (n : Nat) (b : Base) :
    (setBase n b s).cmp = s.cmp ∧ (setBase n b s).geom = s.geom ∧ (setBase n b s).ray = s.ray ∧ (setBase n b s).sig = s.sig ∧
    (setBase n b s).eth = s.eth ∧ (setBase n b s).out = s.out ∧ (setBase n b s).tlk = s.tlk ∧ (setBase n b s).dec = s.dec ∧
    (setBase n b s).enc = s.enc ∧ (setBase n b s).blt = s.blt ∧ (setBase n b s).dfl = s.dfl ∧ (setBase n b s).dmc = s.dmc ∧
    (setBase n b s).hif = s.hif ∧ (setBase n b s).walec = s.walec ∧ (setBase n b s).bureau = s.bureau ∧ (setBase n b s).clk = s.clk ∧
    (setBase n b s).pwr = s.pwr ∧ (setBase n b s).thm = s.thm ∧ (setBase n b s).spr = s.spr ∧ (setBase n b s).bot = s.bot ∧
    (setBase n b s).pins = s.pins ∧ (setBase n b s).sent = s.sent ∧ (setBase n b s).drawn = s.drawn ∧ (setBase n b s).pending = s.pending :=
  ⟨rfl, rfl, rfl, rfl, rfl, rfl, rfl, rfl, rfl, rfl, rfl, rfl, rfl, rfl, rfl, rfl, rfl, rfl, rfl, rfl, rfl, rfl, rfl, rfl⟩

@[simp] theorem advance_frame (k : Nat) :
    (advance k s).cmp = s.cmp ∧ (advance k s).geom = s.geom ∧ (advance k s).ray = s.ray ∧ (advance k s).sig = s.sig ∧ (advance k s).eth = s.eth ∧
    (advance k s).out = s.out ∧ (advance k s).tlk = s.tlk ∧ (advance k s).dec = s.dec ∧ (advance k s).enc = s.enc ∧ (advance k s).blt = s.blt ∧
    (advance k s).dfl = s.dfl ∧ (advance k s).dmc = s.dmc ∧ (advance k s).hif = s.hif ∧ (advance k s).walec = s.walec ∧
    (advance k s).bureau = s.bureau ∧ (advance k s).clk = s.clk ∧ (advance k s).pwr = s.pwr ∧ (advance k s).thm = s.thm ∧ (advance k s).spr = s.spr ∧
    (advance k s).bot = s.bot ∧ (advance k s).pins = s.pins ∧ (advance k s).sent = s.sent ∧ (advance k s).drawn = s.drawn ∧
    (advance k s).pending = s.pending :=
  ⟨rfl, rfl, rfl, rfl, rfl, rfl, rfl, rfl, rfl, rfl, rfl, rfl, rfl, rfl, rfl, rfl, rfl, rfl, rfl, rfl, rfl, rfl, rfl, rfl⟩

@[simp] theorem clockEdge_frame :
    (clockEdge s).cmp = s.cmp ∧ (clockEdge s).geom = s.geom ∧ (clockEdge s).ray = s.ray ∧ (clockEdge s).sig = s.sig ∧ (clockEdge s).eth = s.eth ∧
    (clockEdge s).out = s.out ∧ (clockEdge s).tlk = s.tlk ∧ (clockEdge s).dec = s.dec ∧ (clockEdge s).enc = s.enc ∧ (clockEdge s).blt = s.blt ∧
    (clockEdge s).dfl = s.dfl ∧ (clockEdge s).dmc = s.dmc ∧ (clockEdge s).hif = s.hif ∧ (clockEdge s).walec = s.walec ∧
    (clockEdge s).bureau = s.bureau ∧ (clockEdge s).clk = s.clk ∧ (clockEdge s).pwr = s.pwr ∧ (clockEdge s).thm = s.thm ∧ (clockEdge s).spr = s.spr ∧
    (clockEdge s).bot = s.bot ∧ (clockEdge s).pins = s.pins ∧ (clockEdge s).sent = s.sent ∧ (clockEdge s).drawn = s.drawn ∧
    (clockEdge s).pending = s.pending := by
  unfold clockEdge
  try dsimp only
  repeat' split
  all_goals simp

@[simp] theorem advanceTo_frame (n u : Nat) :
    (advanceTo n u s).cmp = s.cmp ∧ (advanceTo n u s).geom = s.geom ∧ (advanceTo n u s).ray = s.ray ∧ (advanceTo n u s).sig = s.sig ∧
    (advanceTo n u s).eth = s.eth ∧ (advanceTo n u s).out = s.out ∧ (advanceTo n u s).tlk = s.tlk ∧ (advanceTo n u s).dec = s.dec ∧
    (advanceTo n u s).enc = s.enc ∧ (advanceTo n u s).blt = s.blt ∧ (advanceTo n u s).dfl = s.dfl ∧ (advanceTo n u s).dmc = s.dmc ∧
    (advanceTo n u s).hif = s.hif ∧ (advanceTo n u s).walec = s.walec ∧ (advanceTo n u s).bureau = s.bureau ∧ (advanceTo n u s).clk = s.clk ∧
    (advanceTo n u s).pwr = s.pwr ∧ (advanceTo n u s).thm = s.thm ∧ (advanceTo n u s).spr = s.spr ∧ (advanceTo n u s).bot = s.bot ∧
    (advanceTo n u s).pins = s.pins ∧ (advanceTo n u s).sent = s.sent ∧ (advanceTo n u s).drawn = s.drawn ∧ (advanceTo n u s).pending = s.pending :=
  ⟨rfl, rfl, rfl, rfl, rfl, rfl, rfl, rfl, rfl, rfl, rfl, rfl, rfl, rfl, rfl, rfl, rfl, rfl, rfl, rfl, rfl, rfl, rfl, rfl⟩

@[simp] theorem advanceTo0_frame (t : Nat) :
    (advanceTo0 t s).cmp = s.cmp ∧ (advanceTo0 t s).geom = s.geom ∧ (advanceTo0 t s).ray = s.ray ∧ (advanceTo0 t s).sig = s.sig ∧
    (advanceTo0 t s).eth = s.eth ∧ (advanceTo0 t s).out = s.out ∧ (advanceTo0 t s).tlk = s.tlk ∧ (advanceTo0 t s).dec = s.dec ∧
    (advanceTo0 t s).enc = s.enc ∧ (advanceTo0 t s).blt = s.blt ∧ (advanceTo0 t s).dfl = s.dfl ∧ (advanceTo0 t s).dmc = s.dmc ∧
    (advanceTo0 t s).hif = s.hif ∧ (advanceTo0 t s).walec = s.walec ∧ (advanceTo0 t s).bureau = s.bureau ∧ (advanceTo0 t s).clk = s.clk ∧
    (advanceTo0 t s).pwr = s.pwr ∧ (advanceTo0 t s).thm = s.thm ∧ (advanceTo0 t s).spr = s.spr ∧ (advanceTo0 t s).bot = s.bot ∧
    (advanceTo0 t s).pins = s.pins ∧ (advanceTo0 t s).sent = s.sent ∧ (advanceTo0 t s).drawn = s.drawn ∧ (advanceTo0 t s).pending = s.pending :=
  ⟨rfl, rfl, rfl, rfl, rfl, rfl, rfl, rfl, rfl, rfl, rfl, rfl, rfl, rfl, rfl, rfl, rfl, rfl, rfl, rfl, rfl, rfl, rfl, rfl⟩

@[simp] theorem plan_frame (f : Nat) (c : Change) (o : Origin) :
    (plan f c o s).cmp = s.cmp ∧ (plan f c o s).geom = s.geom ∧ (plan f c o s).ray = s.ray ∧ (plan f c o s).sig = s.sig ∧
    (plan f c o s).eth = s.eth ∧ (plan f c o s).out = s.out ∧ (plan f c o s).tlk = s.tlk ∧ (plan f c o s).dec = s.dec ∧ (plan f c o s).enc = s.enc ∧
    (plan f c o s).blt = s.blt ∧ (plan f c o s).dfl = s.dfl ∧ (plan f c o s).dmc = s.dmc ∧ (plan f c o s).hif = s.hif ∧
    (plan f c o s).walec = s.walec ∧ (plan f c o s).bureau = s.bureau ∧ (plan f c o s).clk = s.clk ∧ (plan f c o s).pwr = s.pwr ∧
    (plan f c o s).thm = s.thm ∧ (plan f c o s).spr = s.spr ∧ (plan f c o s).bot = s.bot ∧ (plan f c o s).pins = s.pins ∧
    (plan f c o s).sent = s.sent ∧ (plan f c o s).drawn = s.drawn ∧ (plan f c o s).pending = s.pending :=
  ⟨rfl, rfl, rfl, rfl, rfl, rfl, rfl, rfl, rfl, rfl, rfl, rfl, rfl, rfl, rfl, rfl, rfl, rfl, rfl, rfl, rfl, rfl, rfl, rfl⟩

@[simp] theorem setSlot_frame (n : Nat) (x : EventSlot) :
    (setSlot n x s).cmp = s.cmp ∧ (setSlot n x s).geom = s.geom ∧ (setSlot n x s).ray = s.ray ∧ (setSlot n x s).sig = s.sig ∧
    (setSlot n x s).eth = s.eth ∧ (setSlot n x s).out = s.out ∧ (setSlot n x s).tlk = s.tlk ∧ (setSlot n x s).dec = s.dec ∧
    (setSlot n x s).enc = s.enc ∧ (setSlot n x s).blt = s.blt ∧ (setSlot n x s).dfl = s.dfl ∧ (setSlot n x s).dmc = s.dmc ∧
    (setSlot n x s).hif = s.hif ∧ (setSlot n x s).walec = s.walec ∧ (setSlot n x s).bureau = s.bureau ∧ (setSlot n x s).clk = s.clk ∧
    (setSlot n x s).pwr = s.pwr ∧ (setSlot n x s).thm = s.thm ∧ (setSlot n x s).spr = s.spr ∧ (setSlot n x s).bot = s.bot ∧
    (setSlot n x s).pins = s.pins ∧ (setSlot n x s).sent = s.sent ∧ (setSlot n x s).drawn = s.drawn ∧ (setSlot n x s).pending = s.pending :=
  ⟨rfl, rfl, rfl, rfl, rfl, rfl, rfl, rfl, rfl, rfl, rfl, rfl, rfl, rfl, rfl, rfl, rfl, rfl, rfl, rfl, rfl, rfl, rfl, rfl⟩

@[simp] theorem setPort_frame (p : Port) (h : HostPort) :
    (setPort p h s).cmp = s.cmp ∧ (setPort p h s).geom = s.geom ∧ (setPort p h s).ray = s.ray ∧ (setPort p h s).sig = s.sig ∧
    (setPort p h s).tim = s.tim ∧ (setPort p h s).eth = s.eth ∧ (setPort p h s).out = s.out ∧ (setPort p h s).tlk = s.tlk ∧
    (setPort p h s).dec = s.dec ∧ (setPort p h s).enc = s.enc ∧ (setPort p h s).blt = s.blt ∧ (setPort p h s).dfl = s.dfl ∧
    (setPort p h s).dmc = s.dmc ∧ (setPort p h s).walec = s.walec ∧ (setPort p h s).bureau = s.bureau ∧ (setPort p h s).clk = s.clk ∧
    (setPort p h s).pwr = s.pwr ∧ (setPort p h s).thm = s.thm ∧ (setPort p h s).spr = s.spr ∧ (setPort p h s).bot = s.bot ∧
    (setPort p h s).pins = s.pins ∧ (setPort p h s).sent = s.sent ∧ (setPort p h s).drawn = s.drawn ∧ (setPort p h s).pending = s.pending :=
  by cases p <;> simp [setPort]

@[simp] theorem setDrawer_frame (p : Port) (n : Nat) (d : Drawer) :
    (setDrawer p n d s).cmp = s.cmp ∧ (setDrawer p n d s).geom = s.geom ∧ (setDrawer p n d s).ray = s.ray ∧ (setDrawer p n d s).sig = s.sig ∧
    (setDrawer p n d s).tim = s.tim ∧ (setDrawer p n d s).eth = s.eth ∧ (setDrawer p n d s).out = s.out ∧ (setDrawer p n d s).tlk = s.tlk ∧
    (setDrawer p n d s).dec = s.dec ∧ (setDrawer p n d s).enc = s.enc ∧ (setDrawer p n d s).blt = s.blt ∧ (setDrawer p n d s).dfl = s.dfl ∧
    (setDrawer p n d s).dmc = s.dmc ∧ (setDrawer p n d s).walec = s.walec ∧ (setDrawer p n d s).bureau = s.bureau ∧ (setDrawer p n d s).clk = s.clk ∧
    (setDrawer p n d s).pwr = s.pwr ∧ (setDrawer p n d s).thm = s.thm ∧ (setDrawer p n d s).spr = s.spr ∧ (setDrawer p n d s).bot = s.bot ∧
    (setDrawer p n d s).pins = s.pins ∧ (setDrawer p n d s).sent = s.sent ∧ (setDrawer p n d s).drawn = s.drawn ∧
    (setDrawer p n d s).pending = s.pending :=
  ⟨rfl, rfl, rfl, rfl, rfl, rfl, rfl, rfl, rfl, rfl, rfl, rfl, rfl, rfl, rfl, rfl, rfl, rfl, rfl, rfl, rfl, rfl, rfl, rfl⟩

@[simp] theorem setQueue_frame (q : Nat) (c : Queue) :
    (setQueue q c s).cmp = s.cmp ∧ (setQueue q c s).geom = s.geom ∧ (setQueue q c s).ray = s.ray ∧ (setQueue q c s).sig = s.sig ∧
    (setQueue q c s).tim = s.tim ∧ (setQueue q c s).eth = s.eth ∧ (setQueue q c s).out = s.out ∧ (setQueue q c s).tlk = s.tlk ∧
    (setQueue q c s).dec = s.dec ∧ (setQueue q c s).enc = s.enc ∧ (setQueue q c s).blt = s.blt ∧ (setQueue q c s).dfl = s.dfl ∧
    (setQueue q c s).dmc = s.dmc ∧ (setQueue q c s).walec = s.walec ∧ (setQueue q c s).bureau = s.bureau ∧ (setQueue q c s).clk = s.clk ∧
    (setQueue q c s).pwr = s.pwr ∧ (setQueue q c s).thm = s.thm ∧ (setQueue q c s).spr = s.spr ∧ (setQueue q c s).bot = s.bot ∧
    (setQueue q c s).pins = s.pins ∧ (setQueue q c s).sent = s.sent ∧ (setQueue q c s).drawn = s.drawn ∧ (setQueue q c s).pending = s.pending :=
  ⟨rfl, rfl, rfl, rfl, rfl, rfl, rfl, rfl, rfl, rfl, rfl, rfl, rfl, rfl, rfl, rfl, rfl, rfl, rfl, rfl, rfl, rfl, rfl, rfl⟩

@[simp] theorem setOwner_frame (k : Nat) (o : Owner) :
    (setOwner k o s).cmp = s.cmp ∧ (setOwner k o s).geom = s.geom ∧ (setOwner k o s).ray = s.ray ∧ (setOwner k o s).sig = s.sig ∧
    (setOwner k o s).tim = s.tim ∧ (setOwner k o s).eth = s.eth ∧ (setOwner k o s).out = s.out ∧ (setOwner k o s).tlk = s.tlk ∧
    (setOwner k o s).dec = s.dec ∧ (setOwner k o s).enc = s.enc ∧ (setOwner k o s).blt = s.blt ∧ (setOwner k o s).dfl = s.dfl ∧
    (setOwner k o s).dmc = s.dmc ∧ (setOwner k o s).walec = s.walec ∧ (setOwner k o s).bureau = s.bureau ∧ (setOwner k o s).clk = s.clk ∧
    (setOwner k o s).pwr = s.pwr ∧ (setOwner k o s).thm = s.thm ∧ (setOwner k o s).spr = s.spr ∧ (setOwner k o s).bot = s.bot ∧
    (setOwner k o s).pins = s.pins ∧ (setOwner k o s).sent = s.sent ∧ (setOwner k o s).drawn = s.drawn ∧ (setOwner k o s).pending = s.pending :=
  ⟨rfl, rfl, rfl, rfl, rfl, rfl, rfl, rfl, rfl, rfl, rfl, rfl, rfl, rfl, rfl, rfl, rfl, rfl, rfl, rfl, rfl, rfl, rfl, rfl⟩

@[simp] theorem message_frame (p : Port) (v : Nat) :
    (message p v s).cmp = s.cmp ∧ (message p v s).geom = s.geom ∧ (message p v s).ray = s.ray ∧ (message p v s).sig = s.sig ∧
    (message p v s).tim = s.tim ∧ (message p v s).eth = s.eth ∧ (message p v s).out = s.out ∧ (message p v s).tlk = s.tlk ∧
    (message p v s).dec = s.dec ∧ (message p v s).enc = s.enc ∧ (message p v s).blt = s.blt ∧ (message p v s).dfl = s.dfl ∧
    (message p v s).dmc = s.dmc ∧ (message p v s).walec = s.walec ∧ (message p v s).bureau = s.bureau ∧ (message p v s).clk = s.clk ∧
    (message p v s).pwr = s.pwr ∧ (message p v s).thm = s.thm ∧ (message p v s).spr = s.spr ∧ (message p v s).bot = s.bot ∧
    (message p v s).pins = s.pins ∧ (message p v s).drawn = s.drawn ∧ (message p v s).pending = s.pending := by
  unfold message
  try dsimp only
  repeat' split
  all_goals simp

@[simp] theorem raise_frame (p : Port) (i : Nat) :
    (raise p i s).cmp = s.cmp ∧ (raise p i s).geom = s.geom ∧ (raise p i s).ray = s.ray ∧ (raise p i s).sig = s.sig ∧ (raise p i s).tim = s.tim ∧
    (raise p i s).eth = s.eth ∧ (raise p i s).out = s.out ∧ (raise p i s).tlk = s.tlk ∧ (raise p i s).dec = s.dec ∧ (raise p i s).enc = s.enc ∧
    (raise p i s).blt = s.blt ∧ (raise p i s).dfl = s.dfl ∧ (raise p i s).dmc = s.dmc ∧ (raise p i s).walec = s.walec ∧
    (raise p i s).bureau = s.bureau ∧ (raise p i s).clk = s.clk ∧ (raise p i s).pwr = s.pwr ∧ (raise p i s).thm = s.thm ∧ (raise p i s).spr = s.spr ∧
    (raise p i s).bot = s.bot ∧ (raise p i s).pins = s.pins ∧ (raise p i s).drawn = s.drawn ∧ (raise p i s).pending = s.pending := by
  unfold raise
  try dsimp only
  repeat' split
  all_goals simp

@[simp] theorem raiseBoth_frame (i : Nat) :
    (raiseBoth i s).cmp = s.cmp ∧ (raiseBoth i s).geom = s.geom ∧ (raiseBoth i s).ray = s.ray ∧ (raiseBoth i s).sig = s.sig ∧
    (raiseBoth i s).tim = s.tim ∧ (raiseBoth i s).eth = s.eth ∧ (raiseBoth i s).out = s.out ∧ (raiseBoth i s).tlk = s.tlk ∧
    (raiseBoth i s).dec = s.dec ∧ (raiseBoth i s).enc = s.enc ∧ (raiseBoth i s).blt = s.blt ∧ (raiseBoth i s).dfl = s.dfl ∧
    (raiseBoth i s).dmc = s.dmc ∧ (raiseBoth i s).walec = s.walec ∧ (raiseBoth i s).bureau = s.bureau ∧ (raiseBoth i s).clk = s.clk ∧
    (raiseBoth i s).pwr = s.pwr ∧ (raiseBoth i s).thm = s.thm ∧ (raiseBoth i s).spr = s.spr ∧ (raiseBoth i s).bot = s.bot ∧
    (raiseBoth i s).pins = s.pins ∧ (raiseBoth i s).drawn = s.drawn ∧ (raiseBoth i s).pending = s.pending :=
  by simp [raiseBoth]

@[simp] theorem assertFault_frame :
    (assertFault s).cmp = s.cmp ∧ (assertFault s).geom = s.geom ∧ (assertFault s).ray = s.ray ∧ (assertFault s).sig = s.sig ∧
    (assertFault s).tim = s.tim ∧ (assertFault s).eth = s.eth ∧ (assertFault s).out = s.out ∧ (assertFault s).tlk = s.tlk ∧
    (assertFault s).dec = s.dec ∧ (assertFault s).enc = s.enc ∧ (assertFault s).blt = s.blt ∧ (assertFault s).dfl = s.dfl ∧
    (assertFault s).dmc = s.dmc ∧ (assertFault s).walec = s.walec ∧ (assertFault s).bureau = s.bureau ∧ (assertFault s).clk = s.clk ∧
    (assertFault s).pwr = s.pwr ∧ (assertFault s).thm = s.thm ∧ (assertFault s).spr = s.spr ∧ (assertFault s).bot = s.bot ∧
    (assertFault s).drawn = s.drawn ∧ (assertFault s).pending = s.pending := by
  unfold assertFault
  try dsimp only
  repeat' split
  all_goals simp

@[simp] theorem respond_frame (p : Port) (n status : Nat) (taken hwBit : Bool) (tagGen : Nat) (body : Bytes) :
    (respond p n status taken hwBit tagGen body s).cmp = s.cmp ∧ (respond p n status taken hwBit tagGen body s).geom = s.geom ∧
    (respond p n status taken hwBit tagGen body s).ray = s.ray ∧ (respond p n status taken hwBit tagGen body s).sig = s.sig ∧
    (respond p n status taken hwBit tagGen body s).tim = s.tim ∧ (respond p n status taken hwBit tagGen body s).eth = s.eth ∧
    (respond p n status taken hwBit tagGen body s).out = s.out ∧ (respond p n status taken hwBit tagGen body s).tlk = s.tlk ∧
    (respond p n status taken hwBit tagGen body s).dec = s.dec ∧ (respond p n status taken hwBit tagGen body s).enc = s.enc ∧
    (respond p n status taken hwBit tagGen body s).blt = s.blt ∧ (respond p n status taken hwBit tagGen body s).dfl = s.dfl ∧
    (respond p n status taken hwBit tagGen body s).dmc = s.dmc ∧ (respond p n status taken hwBit tagGen body s).walec = s.walec ∧
    (respond p n status taken hwBit tagGen body s).bureau = s.bureau ∧ (respond p n status taken hwBit tagGen body s).clk = s.clk ∧
    (respond p n status taken hwBit tagGen body s).pwr = s.pwr ∧ (respond p n status taken hwBit tagGen body s).thm = s.thm ∧
    (respond p n status taken hwBit tagGen body s).spr = s.spr ∧ (respond p n status taken hwBit tagGen body s).bot = s.bot ∧
    (respond p n status taken hwBit tagGen body s).pins = s.pins ∧ (respond p n status taken hwBit tagGen body s).drawn = s.drawn ∧
    (respond p n status taken hwBit tagGen body s).pending = s.pending := by
  unfold respond
  try dsimp only
  repeat' split
  all_goals simp

@[simp] theorem takeClass_frame (p : Port) (n : Nat) :
    (takeClass p n s).cmp = s.cmp ∧ (takeClass p n s).geom = s.geom ∧ (takeClass p n s).ray = s.ray ∧ (takeClass p n s).sig = s.sig ∧
    (takeClass p n s).tim = s.tim ∧ (takeClass p n s).eth = s.eth ∧ (takeClass p n s).out = s.out ∧ (takeClass p n s).tlk = s.tlk ∧
    (takeClass p n s).dec = s.dec ∧ (takeClass p n s).enc = s.enc ∧ (takeClass p n s).blt = s.blt ∧ (takeClass p n s).dfl = s.dfl ∧
    (takeClass p n s).dmc = s.dmc ∧ (takeClass p n s).bureau = s.bureau ∧ (takeClass p n s).clk = s.clk ∧ (takeClass p n s).pwr = s.pwr ∧
    (takeClass p n s).thm = s.thm ∧ (takeClass p n s).spr = s.spr ∧ (takeClass p n s).bot = s.bot ∧ (takeClass p n s).pins = s.pins ∧
    (takeClass p n s).sent = s.sent ∧ (takeClass p n s).drawn = s.drawn ∧ (takeClass p n s).pending = s.pending := by
  unfold takeClass
  try dsimp only
  repeat' split
  all_goals simp

@[simp] theorem logEntry_frame (o : Origin) (subject event detail : Nat) (old new : Bytes) (summary : Bool) :
    (logEntry o subject event detail old new summary s).cmp = s.cmp ∧ (logEntry o subject event detail old new summary s).geom = s.geom ∧
    (logEntry o subject event detail old new summary s).ray = s.ray ∧ (logEntry o subject event detail old new summary s).sig = s.sig ∧
    (logEntry o subject event detail old new summary s).tim = s.tim ∧ (logEntry o subject event detail old new summary s).eth = s.eth ∧
    (logEntry o subject event detail old new summary s).out = s.out ∧ (logEntry o subject event detail old new summary s).tlk = s.tlk ∧
    (logEntry o subject event detail old new summary s).dec = s.dec ∧ (logEntry o subject event detail old new summary s).enc = s.enc ∧
    (logEntry o subject event detail old new summary s).blt = s.blt ∧ (logEntry o subject event detail old new summary s).dfl = s.dfl ∧
    (logEntry o subject event detail old new summary s).dmc = s.dmc ∧ (logEntry o subject event detail old new summary s).hif = s.hif ∧
    (logEntry o subject event detail old new summary s).walec = s.walec ∧ (logEntry o subject event detail old new summary s).clk = s.clk ∧
    (logEntry o subject event detail old new summary s).pwr = s.pwr ∧ (logEntry o subject event detail old new summary s).thm = s.thm ∧
    (logEntry o subject event detail old new summary s).spr = s.spr ∧ (logEntry o subject event detail old new summary s).bot = s.bot ∧
    (logEntry o subject event detail old new summary s).pins = s.pins ∧ (logEntry o subject event detail old new summary s).sent = s.sent ∧
    (logEntry o subject event detail old new summary s).drawn = s.drawn ∧ (logEntry o subject event detail old new summary s).pending = s.pending :=
  ⟨rfl, rfl, rfl, rfl, rfl, rfl, rfl, rfl, rfl, rfl, rfl, rfl, rfl, rfl, rfl, rfl, rfl, rfl, rfl, rfl, rfl, rfl, rfl, rfl⟩

@[simp] theorem log_frame (o : Origin) (subject event detail : Nat) :
    (log o subject event detail s).cmp = s.cmp ∧ (log o subject event detail s).geom = s.geom ∧ (log o subject event detail s).ray = s.ray ∧
    (log o subject event detail s).sig = s.sig ∧ (log o subject event detail s).tim = s.tim ∧ (log o subject event detail s).eth = s.eth ∧
    (log o subject event detail s).out = s.out ∧ (log o subject event detail s).tlk = s.tlk ∧ (log o subject event detail s).dec = s.dec ∧
    (log o subject event detail s).enc = s.enc ∧ (log o subject event detail s).blt = s.blt ∧ (log o subject event detail s).dfl = s.dfl ∧
    (log o subject event detail s).dmc = s.dmc ∧ (log o subject event detail s).hif = s.hif ∧ (log o subject event detail s).walec = s.walec ∧
    (log o subject event detail s).clk = s.clk ∧ (log o subject event detail s).pwr = s.pwr ∧ (log o subject event detail s).thm = s.thm ∧
    (log o subject event detail s).spr = s.spr ∧ (log o subject event detail s).bot = s.bot ∧ (log o subject event detail s).pins = s.pins ∧
    (log o subject event detail s).sent = s.sent ∧ (log o subject event detail s).drawn = s.drawn ∧ (log o subject event detail s).pending = s.pending :=
  ⟨rfl, rfl, rfl, rfl, rfl, rfl, rfl, rfl, rfl, rfl, rfl, rfl, rfl, rfl, rfl, rfl, rfl, rfl, rfl, rfl, rfl, rfl, rfl, rfl⟩

@[simp] theorem store_frame (a : Nat) (b : Bytes) :
    (store a b s).cmp = s.cmp ∧ (store a b s).geom = s.geom ∧ (store a b s).ray = s.ray ∧ (store a b s).sig = s.sig ∧ (store a b s).tim = s.tim ∧
    (store a b s).eth = s.eth ∧ (store a b s).out = s.out ∧ (store a b s).tlk = s.tlk ∧ (store a b s).dec = s.dec ∧ (store a b s).enc = s.enc ∧
    (store a b s).blt = s.blt ∧ (store a b s).dfl = s.dfl ∧ (store a b s).hif = s.hif ∧ (store a b s).walec = s.walec ∧
    (store a b s).bureau = s.bureau ∧ (store a b s).clk = s.clk ∧ (store a b s).pwr = s.pwr ∧ (store a b s).thm = s.thm ∧ (store a b s).spr = s.spr ∧
    (store a b s).bot = s.bot ∧ (store a b s).pins = s.pins ∧ (store a b s).sent = s.sent ∧ (store a b s).drawn = s.drawn ∧
    (store a b s).pending = s.pending :=
  ⟨rfl, rfl, rfl, rfl, rfl, rfl, rfl, rfl, rfl, rfl, rfl, rfl, rfl, rfl, rfl, rfl, rfl, rfl, rfl, rfl, rfl, rfl, rfl, rfl⟩

@[simp] theorem advanceFence_frame (n k : Nat) :
    (advanceFence n k s).geom = s.geom ∧ (advanceFence n k s).ray = s.ray ∧ (advanceFence n k s).sig = s.sig ∧ (advanceFence n k s).tim = s.tim ∧
    (advanceFence n k s).eth = s.eth ∧ (advanceFence n k s).out = s.out ∧ (advanceFence n k s).tlk = s.tlk ∧ (advanceFence n k s).dec = s.dec ∧
    (advanceFence n k s).enc = s.enc ∧ (advanceFence n k s).blt = s.blt ∧ (advanceFence n k s).dfl = s.dfl ∧ (advanceFence n k s).dmc = s.dmc ∧
    (advanceFence n k s).hif = s.hif ∧ (advanceFence n k s).walec = s.walec ∧ (advanceFence n k s).bureau = s.bureau ∧
    (advanceFence n k s).clk = s.clk ∧ (advanceFence n k s).pwr = s.pwr ∧ (advanceFence n k s).thm = s.thm ∧ (advanceFence n k s).spr = s.spr ∧
    (advanceFence n k s).bot = s.bot ∧ (advanceFence n k s).pins = s.pins ∧ (advanceFence n k s).sent = s.sent ∧
    (advanceFence n k s).drawn = s.drawn ∧ (advanceFence n k s).pending = s.pending := by
  unfold advanceFence
  try dsimp only
  repeat' split
  all_goals simp

@[simp] theorem releaseSlots_frame (q gen k : Nat) :
    (releaseSlots q gen k s).cmp = s.cmp ∧ (releaseSlots q gen k s).geom = s.geom ∧ (releaseSlots q gen k s).ray = s.ray ∧
    (releaseSlots q gen k s).sig = s.sig ∧ (releaseSlots q gen k s).tim = s.tim ∧ (releaseSlots q gen k s).eth = s.eth ∧
    (releaseSlots q gen k s).out = s.out ∧ (releaseSlots q gen k s).tlk = s.tlk ∧ (releaseSlots q gen k s).dec = s.dec ∧
    (releaseSlots q gen k s).enc = s.enc ∧ (releaseSlots q gen k s).blt = s.blt ∧ (releaseSlots q gen k s).dfl = s.dfl ∧
    (releaseSlots q gen k s).dmc = s.dmc ∧ (releaseSlots q gen k s).walec = s.walec ∧ (releaseSlots q gen k s).bureau = s.bureau ∧
    (releaseSlots q gen k s).clk = s.clk ∧ (releaseSlots q gen k s).pwr = s.pwr ∧ (releaseSlots q gen k s).thm = s.thm ∧
    (releaseSlots q gen k s).spr = s.spr ∧ (releaseSlots q gen k s).bot = s.bot ∧ (releaseSlots q gen k s).pins = s.pins ∧
    (releaseSlots q gen k s).sent = s.sent ∧ (releaseSlots q gen k s).drawn = s.drawn ∧ (releaseSlots q gen k s).pending = s.pending := by
  unfold releaseSlots
  try dsimp only
  repeat' split
  all_goals simp

@[simp] theorem requestDomain_frame (on : Bool) (d : Nat) :
    (requestDomain on d s).cmp = s.cmp ∧ (requestDomain on d s).geom = s.geom ∧ (requestDomain on d s).ray = s.ray ∧
    (requestDomain on d s).sig = s.sig ∧ (requestDomain on d s).tim = s.tim ∧ (requestDomain on d s).eth = s.eth ∧
    (requestDomain on d s).out = s.out ∧ (requestDomain on d s).tlk = s.tlk ∧ (requestDomain on d s).dec = s.dec ∧
    (requestDomain on d s).enc = s.enc ∧ (requestDomain on d s).blt = s.blt ∧ (requestDomain on d s).dfl = s.dfl ∧
    (requestDomain on d s).dmc = s.dmc ∧ (requestDomain on d s).hif = s.hif ∧ (requestDomain on d s).walec = s.walec ∧
    (requestDomain on d s).bureau = s.bureau ∧ (requestDomain on d s).clk = s.clk ∧ (requestDomain on d s).thm = s.thm ∧
    (requestDomain on d s).spr = s.spr ∧ (requestDomain on d s).bot = s.bot ∧ (requestDomain on d s).pins = s.pins ∧
    (requestDomain on d s).sent = s.sent ∧ (requestDomain on d s).drawn = s.drawn ∧ (requestDomain on d s).pending = s.pending :=
  ⟨rfl, rfl, rfl, rfl, rfl, rfl, rfl, rfl, rfl, rfl, rfl, rfl, rfl, rfl, rfl, rfl, rfl, rfl, rfl, rfl, rfl, rfl, rfl, rfl⟩

@[simp] theorem requestDomains_frame (on : Bool) (ds : List Nat) :
    (requestDomains on ds s).cmp = s.cmp ∧ (requestDomains on ds s).geom = s.geom ∧ (requestDomains on ds s).ray = s.ray ∧
    (requestDomains on ds s).sig = s.sig ∧ (requestDomains on ds s).tim = s.tim ∧ (requestDomains on ds s).eth = s.eth ∧
    (requestDomains on ds s).out = s.out ∧ (requestDomains on ds s).tlk = s.tlk ∧ (requestDomains on ds s).dec = s.dec ∧
    (requestDomains on ds s).enc = s.enc ∧ (requestDomains on ds s).blt = s.blt ∧ (requestDomains on ds s).dfl = s.dfl ∧
    (requestDomains on ds s).dmc = s.dmc ∧ (requestDomains on ds s).hif = s.hif ∧ (requestDomains on ds s).walec = s.walec ∧
    (requestDomains on ds s).bureau = s.bureau ∧ (requestDomains on ds s).clk = s.clk ∧ (requestDomains on ds s).thm = s.thm ∧
    (requestDomains on ds s).spr = s.spr ∧ (requestDomains on ds s).bot = s.bot ∧ (requestDomains on ds s).pins = s.pins ∧
    (requestDomains on ds s).sent = s.sent ∧ (requestDomains on ds s).drawn = s.drawn ∧ (requestDomains on ds s).pending = s.pending :=
  ⟨rfl, rfl, rfl, rfl, rfl, rfl, rfl, rfl, rfl, rfl, rfl, rfl, rfl, rfl, rfl, rfl, rfl, rfl, rfl, rfl, rfl, rfl, rfl, rfl⟩

@[simp] theorem settle_frame :
    (settle s).cmp = s.cmp ∧ (settle s).geom = s.geom ∧ (settle s).ray = s.ray ∧ (settle s).sig = s.sig ∧ (settle s).tim = s.tim ∧
    (settle s).eth = s.eth ∧ (settle s).out = s.out ∧ (settle s).tlk = s.tlk ∧ (settle s).dec = s.dec ∧ (settle s).enc = s.enc ∧
    (settle s).blt = s.blt ∧ (settle s).dfl = s.dfl ∧ (settle s).dmc = s.dmc ∧ (settle s).walec = s.walec ∧ (settle s).bureau = s.bureau ∧
    (settle s).clk = s.clk ∧ (settle s).pwr = s.pwr ∧ (settle s).thm = s.thm ∧ (settle s).spr = s.spr ∧ (settle s).bot = s.bot ∧
    (settle s).pins = s.pins ∧ (settle s).drawn = s.drawn ∧ (settle s).pending = s.pending := by
  unfold settle
  try dsimp only
  repeat' split
  all_goals simp

@[simp] theorem setSite_frame (n : Nat) (x : Site) :
    (setSite n x s).cmp = s.cmp ∧ (setSite n x s).geom = s.geom ∧ (setSite n x s).ray = s.ray ∧ (setSite n x s).sig = s.sig ∧
    (setSite n x s).tim = s.tim ∧ (setSite n x s).eth = s.eth ∧ (setSite n x s).out = s.out ∧ (setSite n x s).tlk = s.tlk ∧
    (setSite n x s).dec = s.dec ∧ (setSite n x s).enc = s.enc ∧ (setSite n x s).blt = s.blt ∧ (setSite n x s).dfl = s.dfl ∧
    (setSite n x s).hif = s.hif ∧ (setSite n x s).walec = s.walec ∧ (setSite n x s).bureau = s.bureau ∧ (setSite n x s).clk = s.clk ∧
    (setSite n x s).pwr = s.pwr ∧ (setSite n x s).thm = s.thm ∧ (setSite n x s).spr = s.spr ∧ (setSite n x s).bot = s.bot ∧
    (setSite n x s).pins = s.pins ∧ (setSite n x s).sent = s.sent ∧ (setSite n x s).drawn = s.drawn ∧ (setSite n x s).pending = s.pending :=
  ⟨rfl, rfl, rfl, rfl, rfl, rfl, rfl, rfl, rfl, rfl, rfl, rfl, rfl, rfl, rfl, rfl, rfl, rfl, rfl, rfl, rfl, rfl, rfl, rfl⟩

@[simp] theorem setChannel_frame (c : Nat) (x : DramChannel) :
    (setChannel c x s).cmp = s.cmp ∧ (setChannel c x s).geom = s.geom ∧ (setChannel c x s).ray = s.ray ∧ (setChannel c x s).sig = s.sig ∧
    (setChannel c x s).tim = s.tim ∧ (setChannel c x s).eth = s.eth ∧ (setChannel c x s).out = s.out ∧ (setChannel c x s).tlk = s.tlk ∧
    (setChannel c x s).dec = s.dec ∧ (setChannel c x s).enc = s.enc ∧ (setChannel c x s).blt = s.blt ∧ (setChannel c x s).dfl = s.dfl ∧
    (setChannel c x s).hif = s.hif ∧ (setChannel c x s).walec = s.walec ∧ (setChannel c x s).bureau = s.bureau ∧ (setChannel c x s).clk = s.clk ∧
    (setChannel c x s).pwr = s.pwr ∧ (setChannel c x s).thm = s.thm ∧ (setChannel c x s).spr = s.spr ∧ (setChannel c x s).bot = s.bot ∧
    (setChannel c x s).pins = s.pins ∧ (setChannel c x s).sent = s.sent ∧ (setChannel c x s).drawn = s.drawn ∧ (setChannel c x s).pending = s.pending :=
  ⟨rfl, rfl, rfl, rfl, rfl, rfl, rfl, rfl, rfl, rfl, rfl, rfl, rfl, rfl, rfl, rfl, rfl, rfl, rfl, rfl, rfl, rfl, rfl, rfl⟩

@[simp] theorem setLink_frame (n : Nat) (l : Link) :
    (setLink n l s).cmp = s.cmp ∧ (setLink n l s).geom = s.geom ∧ (setLink n l s).ray = s.ray ∧ (setLink n l s).sig = s.sig ∧
    (setLink n l s).tim = s.tim ∧ (setLink n l s).eth = s.eth ∧ (setLink n l s).out = s.out ∧ (setLink n l s).dec = s.dec ∧
    (setLink n l s).enc = s.enc ∧ (setLink n l s).blt = s.blt ∧ (setLink n l s).dfl = s.dfl ∧ (setLink n l s).dmc = s.dmc ∧
    (setLink n l s).hif = s.hif ∧ (setLink n l s).walec = s.walec ∧ (setLink n l s).bureau = s.bureau ∧ (setLink n l s).clk = s.clk ∧
    (setLink n l s).pwr = s.pwr ∧ (setLink n l s).thm = s.thm ∧ (setLink n l s).spr = s.spr ∧ (setLink n l s).bot = s.bot ∧
    (setLink n l s).pins = s.pins ∧ (setLink n l s).sent = s.sent ∧ (setLink n l s).drawn = s.drawn ∧ (setLink n l s).pending = s.pending :=
  ⟨rfl, rfl, rfl, rfl, rfl, rfl, rfl, rfl, rfl, rfl, rfl, rfl, rfl, rfl, rfl, rfl, rfl, rfl, rfl, rfl, rfl, rfl, rfl, rfl⟩

@[simp] theorem setGroup_frame (g : Nat) (x : LinkGroup) :
    (setGroup g x s).cmp = s.cmp ∧ (setGroup g x s).geom = s.geom ∧ (setGroup g x s).ray = s.ray ∧ (setGroup g x s).sig = s.sig ∧
    (setGroup g x s).tim = s.tim ∧ (setGroup g x s).eth = s.eth ∧ (setGroup g x s).out = s.out ∧ (setGroup g x s).dec = s.dec ∧
    (setGroup g x s).enc = s.enc ∧ (setGroup g x s).blt = s.blt ∧ (setGroup g x s).dfl = s.dfl ∧ (setGroup g x s).dmc = s.dmc ∧
    (setGroup g x s).hif = s.hif ∧ (setGroup g x s).walec = s.walec ∧ (setGroup g x s).bureau = s.bureau ∧ (setGroup g x s).clk = s.clk ∧
    (setGroup g x s).pwr = s.pwr ∧ (setGroup g x s).thm = s.thm ∧ (setGroup g x s).spr = s.spr ∧ (setGroup g x s).bot = s.bot ∧
    (setGroup g x s).pins = s.pins ∧ (setGroup g x s).sent = s.sent ∧ (setGroup g x s).drawn = s.drawn ∧ (setGroup g x s).pending = s.pending :=
  ⟨rfl, rfl, rfl, rfl, rfl, rfl, rfl, rfl, rfl, rfl, rfl, rfl, rfl, rfl, rfl, rfl, rfl, rfl, rfl, rfl, rfl, rfl, rfl, rfl⟩

@[simp] theorem setLayer_frame (n : Nat) (e : LayerEntry) :
    (setLayer n e s).geom = s.geom ∧ (setLayer n e s).ray = s.ray ∧ (setLayer n e s).sig = s.sig ∧ (setLayer n e s).tim = s.tim ∧
    (setLayer n e s).eth = s.eth ∧ (setLayer n e s).out = s.out ∧ (setLayer n e s).tlk = s.tlk ∧ (setLayer n e s).dec = s.dec ∧
    (setLayer n e s).enc = s.enc ∧ (setLayer n e s).blt = s.blt ∧ (setLayer n e s).dfl = s.dfl ∧ (setLayer n e s).dmc = s.dmc ∧
    (setLayer n e s).hif = s.hif ∧ (setLayer n e s).walec = s.walec ∧ (setLayer n e s).bureau = s.bureau ∧ (setLayer n e s).clk = s.clk ∧
    (setLayer n e s).pwr = s.pwr ∧ (setLayer n e s).thm = s.thm ∧ (setLayer n e s).spr = s.spr ∧ (setLayer n e s).bot = s.bot ∧
    (setLayer n e s).pins = s.pins ∧ (setLayer n e s).sent = s.sent ∧ (setLayer n e s).drawn = s.drawn ∧ (setLayer n e s).pending = s.pending :=
  ⟨rfl, rfl, rfl, rfl, rfl, rfl, rfl, rfl, rfl, rfl, rfl, rfl, rfl, rfl, rfl, rfl, rfl, rfl, rfl, rfl, rfl, rfl, rfl, rfl⟩

@[simp] theorem setLayerStatus_frame (n : Nat) (x : LayerStatus) :
    (setLayerStatus n x s).geom = s.geom ∧ (setLayerStatus n x s).ray = s.ray ∧ (setLayerStatus n x s).sig = s.sig ∧
    (setLayerStatus n x s).tim = s.tim ∧ (setLayerStatus n x s).eth = s.eth ∧ (setLayerStatus n x s).out = s.out ∧
    (setLayerStatus n x s).tlk = s.tlk ∧ (setLayerStatus n x s).dec = s.dec ∧ (setLayerStatus n x s).enc = s.enc ∧
    (setLayerStatus n x s).blt = s.blt ∧ (setLayerStatus n x s).dfl = s.dfl ∧ (setLayerStatus n x s).dmc = s.dmc ∧
    (setLayerStatus n x s).hif = s.hif ∧ (setLayerStatus n x s).walec = s.walec ∧ (setLayerStatus n x s).bureau = s.bureau ∧
    (setLayerStatus n x s).clk = s.clk ∧ (setLayerStatus n x s).pwr = s.pwr ∧ (setLayerStatus n x s).thm = s.thm ∧
    (setLayerStatus n x s).spr = s.spr ∧ (setLayerStatus n x s).bot = s.bot ∧ (setLayerStatus n x s).pins = s.pins ∧
    (setLayerStatus n x s).sent = s.sent ∧ (setLayerStatus n x s).drawn = s.drawn ∧ (setLayerStatus n x s).pending = s.pending :=
  ⟨rfl, rfl, rfl, rfl, rfl, rfl, rfl, rfl, rfl, rfl, rfl, rfl, rfl, rfl, rfl, rfl, rfl, rfl, rfl, rfl, rfl, rfl, rfl, rfl⟩

@[simp] theorem setCtx_frame (n : Nat) (x : Ctx) :
    (setCtx n x s).cmp = s.cmp ∧ (setCtx n x s).geom = s.geom ∧ (setCtx n x s).ray = s.ray ∧ (setCtx n x s).sig = s.sig ∧
    (setCtx n x s).tim = s.tim ∧ (setCtx n x s).eth = s.eth ∧ (setCtx n x s).out = s.out ∧ (setCtx n x s).tlk = s.tlk ∧ (setCtx n x s).enc = s.enc ∧
    (setCtx n x s).blt = s.blt ∧ (setCtx n x s).dfl = s.dfl ∧ (setCtx n x s).dmc = s.dmc ∧ (setCtx n x s).hif = s.hif ∧
    (setCtx n x s).walec = s.walec ∧ (setCtx n x s).bureau = s.bureau ∧ (setCtx n x s).clk = s.clk ∧ (setCtx n x s).pwr = s.pwr ∧
    (setCtx n x s).thm = s.thm ∧ (setCtx n x s).spr = s.spr ∧ (setCtx n x s).bot = s.bot ∧ (setCtx n x s).pins = s.pins ∧
    (setCtx n x s).sent = s.sent ∧ (setCtx n x s).drawn = s.drawn ∧ (setCtx n x s).pending = s.pending :=
  ⟨rfl, rfl, rfl, rfl, rfl, rfl, rfl, rfl, rfl, rfl, rfl, rfl, rfl, rfl, rfl, rfl, rfl, rfl, rfl, rfl, rfl, rfl, rfl, rfl⟩

@[simp] theorem setCore_frame (c : Nat) (x : DecCore) :
    (setCore c x s).cmp = s.cmp ∧ (setCore c x s).geom = s.geom ∧ (setCore c x s).ray = s.ray ∧ (setCore c x s).sig = s.sig ∧
    (setCore c x s).tim = s.tim ∧ (setCore c x s).eth = s.eth ∧ (setCore c x s).out = s.out ∧ (setCore c x s).tlk = s.tlk ∧
    (setCore c x s).enc = s.enc ∧ (setCore c x s).blt = s.blt ∧ (setCore c x s).dfl = s.dfl ∧ (setCore c x s).dmc = s.dmc ∧
    (setCore c x s).hif = s.hif ∧ (setCore c x s).walec = s.walec ∧ (setCore c x s).bureau = s.bureau ∧ (setCore c x s).clk = s.clk ∧
    (setCore c x s).pwr = s.pwr ∧ (setCore c x s).thm = s.thm ∧ (setCore c x s).spr = s.spr ∧ (setCore c x s).bot = s.bot ∧
    (setCore c x s).pins = s.pins ∧ (setCore c x s).sent = s.sent ∧ (setCore c x s).drawn = s.drawn ∧ (setCore c x s).pending = s.pending :=
  ⟨rfl, rfl, rfl, rfl, rfl, rfl, rfl, rfl, rfl, rfl, rfl, rfl, rfl, rfl, rfl, rfl, rfl, rfl, rfl, rfl, rfl, rfl, rfl, rfl⟩

@[simp] theorem setRow_frame (r : Nat) (x : Row) :
    (setRow r x s).cmp = s.cmp ∧ (setRow r x s).geom = s.geom ∧ (setRow r x s).sig = s.sig ∧ (setRow r x s).tim = s.tim ∧
    (setRow r x s).eth = s.eth ∧ (setRow r x s).out = s.out ∧ (setRow r x s).tlk = s.tlk ∧ (setRow r x s).dec = s.dec ∧ (setRow r x s).enc = s.enc ∧
    (setRow r x s).blt = s.blt ∧ (setRow r x s).dfl = s.dfl ∧ (setRow r x s).dmc = s.dmc ∧ (setRow r x s).hif = s.hif ∧
    (setRow r x s).walec = s.walec ∧ (setRow r x s).bureau = s.bureau ∧ (setRow r x s).clk = s.clk ∧ (setRow r x s).pwr = s.pwr ∧
    (setRow r x s).thm = s.thm ∧ (setRow r x s).spr = s.spr ∧ (setRow r x s).bot = s.bot ∧ (setRow r x s).pins = s.pins ∧
    (setRow r x s).sent = s.sent ∧ (setRow r x s).drawn = s.drawn ∧ (setRow r x s).pending = s.pending :=
  ⟨rfl, rfl, rfl, rfl, rfl, rfl, rfl, rfl, rfl, rfl, rfl, rfl, rfl, rfl, rfl, rfl, rfl, rfl, rfl, rfl, rfl, rfl, rfl, rfl⟩

@[simp] theorem setCluster_frame (c : Nat) (x : ClusterState) :
    (setCluster c x s).cmp = s.cmp ∧ (setCluster c x s).geom = s.geom ∧ (setCluster c x s).sig = s.sig ∧ (setCluster c x s).tim = s.tim ∧
    (setCluster c x s).eth = s.eth ∧ (setCluster c x s).out = s.out ∧ (setCluster c x s).tlk = s.tlk ∧ (setCluster c x s).dec = s.dec ∧
    (setCluster c x s).enc = s.enc ∧ (setCluster c x s).blt = s.blt ∧ (setCluster c x s).dfl = s.dfl ∧ (setCluster c x s).dmc = s.dmc ∧
    (setCluster c x s).hif = s.hif ∧ (setCluster c x s).walec = s.walec ∧ (setCluster c x s).bureau = s.bureau ∧ (setCluster c x s).clk = s.clk ∧
    (setCluster c x s).pwr = s.pwr ∧ (setCluster c x s).thm = s.thm ∧ (setCluster c x s).spr = s.spr ∧ (setCluster c x s).bot = s.bot ∧
    (setCluster c x s).pins = s.pins ∧ (setCluster c x s).sent = s.sent ∧ (setCluster c x s).drawn = s.drawn ∧ (setCluster c x s).pending = s.pending :=
  ⟨rfl, rfl, rfl, rfl, rfl, rfl, rfl, rfl, rfl, rfl, rfl, rfl, rfl, rfl, rfl, rfl, rfl, rfl, rfl, rfl, rfl, rfl, rfl, rfl⟩

@[simp] theorem setRegion_frame (n : Nat) (x : Region) :
    (setRegion n x s).cmp = s.cmp ∧ (setRegion n x s).geom = s.geom ∧ (setRegion n x s).ray = s.ray ∧ (setRegion n x s).tim = s.tim ∧
    (setRegion n x s).eth = s.eth ∧ (setRegion n x s).out = s.out ∧ (setRegion n x s).tlk = s.tlk ∧ (setRegion n x s).dec = s.dec ∧
    (setRegion n x s).enc = s.enc ∧ (setRegion n x s).blt = s.blt ∧ (setRegion n x s).dfl = s.dfl ∧ (setRegion n x s).dmc = s.dmc ∧
    (setRegion n x s).hif = s.hif ∧ (setRegion n x s).walec = s.walec ∧ (setRegion n x s).bureau = s.bureau ∧ (setRegion n x s).clk = s.clk ∧
    (setRegion n x s).pwr = s.pwr ∧ (setRegion n x s).thm = s.thm ∧ (setRegion n x s).spr = s.spr ∧ (setRegion n x s).bot = s.bot ∧
    (setRegion n x s).pins = s.pins ∧ (setRegion n x s).sent = s.sent ∧ (setRegion n x s).drawn = s.drawn ∧ (setRegion n x s).pending = s.pending :=
  ⟨rfl, rfl, rfl, rfl, rfl, rfl, rfl, rfl, rfl, rfl, rfl, rfl, rfl, rfl, rfl, rfl, rfl, rfl, rfl, rfl, rfl, rfl, rfl, rfl⟩

@[simp] theorem setSensor_frame (n : Nat) (x : Sensor) :
    (setSensor n x s).cmp = s.cmp ∧ (setSensor n x s).geom = s.geom ∧ (setSensor n x s).ray = s.ray ∧ (setSensor n x s).sig = s.sig ∧
    (setSensor n x s).tim = s.tim ∧ (setSensor n x s).eth = s.eth ∧ (setSensor n x s).out = s.out ∧ (setSensor n x s).tlk = s.tlk ∧
    (setSensor n x s).dec = s.dec ∧ (setSensor n x s).enc = s.enc ∧ (setSensor n x s).blt = s.blt ∧ (setSensor n x s).dfl = s.dfl ∧
    (setSensor n x s).dmc = s.dmc ∧ (setSensor n x s).hif = s.hif ∧ (setSensor n x s).walec = s.walec ∧ (setSensor n x s).bureau = s.bureau ∧
    (setSensor n x s).clk = s.clk ∧ (setSensor n x s).pwr = s.pwr ∧ (setSensor n x s).spr = s.spr ∧ (setSensor n x s).bot = s.bot ∧
    (setSensor n x s).pins = s.pins ∧ (setSensor n x s).sent = s.sent ∧ (setSensor n x s).drawn = s.drawn ∧ (setSensor n x s).pending = s.pending :=
  ⟨rfl, rfl, rfl, rfl, rfl, rfl, rfl, rfl, rfl, rfl, rfl, rfl, rfl, rfl, rfl, rfl, rfl, rfl, rfl, rfl, rfl, rfl, rfl, rfl⟩

@[simp] theorem setTempGroup_frame (g : Nat) (x : TempGroup) :
    (setTempGroup g x s).cmp = s.cmp ∧ (setTempGroup g x s).geom = s.geom ∧ (setTempGroup g x s).ray = s.ray ∧ (setTempGroup g x s).sig = s.sig ∧
    (setTempGroup g x s).tim = s.tim ∧ (setTempGroup g x s).eth = s.eth ∧ (setTempGroup g x s).out = s.out ∧ (setTempGroup g x s).tlk = s.tlk ∧
    (setTempGroup g x s).dec = s.dec ∧ (setTempGroup g x s).enc = s.enc ∧ (setTempGroup g x s).blt = s.blt ∧ (setTempGroup g x s).dfl = s.dfl ∧
    (setTempGroup g x s).dmc = s.dmc ∧ (setTempGroup g x s).hif = s.hif ∧ (setTempGroup g x s).walec = s.walec ∧
    (setTempGroup g x s).bureau = s.bureau ∧ (setTempGroup g x s).clk = s.clk ∧ (setTempGroup g x s).pwr = s.pwr ∧ (setTempGroup g x s).spr = s.spr ∧
    (setTempGroup g x s).bot = s.bot ∧ (setTempGroup g x s).pins = s.pins ∧ (setTempGroup g x s).sent = s.sent ∧
    (setTempGroup g x s).drawn = s.drawn ∧ (setTempGroup g x s).pending = s.pending :=
  ⟨rfl, rfl, rfl, rfl, rfl, rfl, rfl, rfl, rfl, rfl, rfl, rfl, rfl, rfl, rfl, rfl, rfl, rfl, rfl, rfl, rfl, rfl, rfl, rfl⟩

@[simp] theorem setEth_frame (p : Nat) (x : EthPort) :
    (setEth p x s).cmp = s.cmp ∧ (setEth p x s).geom = s.geom ∧ (setEth p x s).ray = s.ray ∧ (setEth p x s).sig = s.sig ∧
    (setEth p x s).tim = s.tim ∧ (setEth p x s).out = s.out ∧ (setEth p x s).tlk = s.tlk ∧ (setEth p x s).dec = s.dec ∧ (setEth p x s).enc = s.enc ∧
    (setEth p x s).blt = s.blt ∧ (setEth p x s).dfl = s.dfl ∧ (setEth p x s).dmc = s.dmc ∧ (setEth p x s).hif = s.hif ∧
    (setEth p x s).walec = s.walec ∧ (setEth p x s).bureau = s.bureau ∧ (setEth p x s).clk = s.clk ∧ (setEth p x s).pwr = s.pwr ∧
    (setEth p x s).thm = s.thm ∧ (setEth p x s).spr = s.spr ∧ (setEth p x s).bot = s.bot ∧ (setEth p x s).pins = s.pins ∧
    (setEth p x s).sent = s.sent ∧ (setEth p x s).drawn = s.drawn ∧ (setEth p x s).pending = s.pending :=
  ⟨rfl, rfl, rfl, rfl, rfl, rfl, rfl, rfl, rfl, rfl, rfl, rfl, rfl, rfl, rfl, rfl, rfl, rfl, rfl, rfl, rfl, rfl, rfl, rfl⟩

@[simp] theorem setDflSlot_frame (k : Nat) (x : Slot) :
    (setDflSlot k x s).cmp = s.cmp ∧ (setDflSlot k x s).geom = s.geom ∧ (setDflSlot k x s).ray = s.ray ∧ (setDflSlot k x s).sig = s.sig ∧
    (setDflSlot k x s).tim = s.tim ∧ (setDflSlot k x s).eth = s.eth ∧ (setDflSlot k x s).out = s.out ∧ (setDflSlot k x s).tlk = s.tlk ∧
    (setDflSlot k x s).dec = s.dec ∧ (setDflSlot k x s).enc = s.enc ∧ (setDflSlot k x s).blt = s.blt ∧ (setDflSlot k x s).dmc = s.dmc ∧
    (setDflSlot k x s).hif = s.hif ∧ (setDflSlot k x s).walec = s.walec ∧ (setDflSlot k x s).bureau = s.bureau ∧ (setDflSlot k x s).clk = s.clk ∧
    (setDflSlot k x s).pwr = s.pwr ∧ (setDflSlot k x s).thm = s.thm ∧ (setDflSlot k x s).spr = s.spr ∧ (setDflSlot k x s).bot = s.bot ∧
    (setDflSlot k x s).pins = s.pins ∧ (setDflSlot k x s).sent = s.sent ∧ (setDflSlot k x s).drawn = s.drawn ∧ (setDflSlot k x s).pending = s.pending :=
  ⟨rfl, rfl, rfl, rfl, rfl, rfl, rfl, rfl, rfl, rfl, rfl, rfl, rfl, rfl, rfl, rfl, rfl, rfl, rfl, rfl, rfl, rfl, rfl, rfl⟩

@[simp] theorem setDomain_frame (d : Nat) (x : DomainState) :
    (setDomain d x s).cmp = s.cmp ∧ (setDomain d x s).geom = s.geom ∧ (setDomain d x s).ray = s.ray ∧ (setDomain d x s).sig = s.sig ∧
    (setDomain d x s).tim = s.tim ∧ (setDomain d x s).eth = s.eth ∧ (setDomain d x s).out = s.out ∧ (setDomain d x s).tlk = s.tlk ∧
    (setDomain d x s).dec = s.dec ∧ (setDomain d x s).enc = s.enc ∧ (setDomain d x s).blt = s.blt ∧ (setDomain d x s).dfl = s.dfl ∧
    (setDomain d x s).dmc = s.dmc ∧ (setDomain d x s).hif = s.hif ∧ (setDomain d x s).walec = s.walec ∧ (setDomain d x s).bureau = s.bureau ∧
    (setDomain d x s).clk = s.clk ∧ (setDomain d x s).thm = s.thm ∧ (setDomain d x s).spr = s.spr ∧ (setDomain d x s).bot = s.bot ∧
    (setDomain d x s).pins = s.pins ∧ (setDomain d x s).sent = s.sent ∧ (setDomain d x s).drawn = s.drawn ∧ (setDomain d x s).pending = s.pending :=
  ⟨rfl, rfl, rfl, rfl, rfl, rfl, rfl, rfl, rfl, rfl, rfl, rfl, rfl, rfl, rfl, rfl, rfl, rfl, rfl, rfl, rfl, rfl, rfl, rfl⟩

@[simp] theorem setDevice_frame (n : Nat) (x : PmbusDevice) :
    (setDevice n x s).cmp = s.cmp ∧ (setDevice n x s).geom = s.geom ∧ (setDevice n x s).ray = s.ray ∧ (setDevice n x s).sig = s.sig ∧
    (setDevice n x s).tim = s.tim ∧ (setDevice n x s).eth = s.eth ∧ (setDevice n x s).out = s.out ∧ (setDevice n x s).tlk = s.tlk ∧
    (setDevice n x s).dec = s.dec ∧ (setDevice n x s).enc = s.enc ∧ (setDevice n x s).blt = s.blt ∧ (setDevice n x s).dfl = s.dfl ∧
    (setDevice n x s).dmc = s.dmc ∧ (setDevice n x s).hif = s.hif ∧ (setDevice n x s).walec = s.walec ∧ (setDevice n x s).bureau = s.bureau ∧
    (setDevice n x s).clk = s.clk ∧ (setDevice n x s).thm = s.thm ∧ (setDevice n x s).spr = s.spr ∧ (setDevice n x s).bot = s.bot ∧
    (setDevice n x s).pins = s.pins ∧ (setDevice n x s).sent = s.sent ∧ (setDevice n x s).drawn = s.drawn ∧ (setDevice n x s).pending = s.pending :=
  ⟨rfl, rfl, rfl, rfl, rfl, rfl, rfl, rfl, rfl, rfl, rfl, rfl, rfl, rfl, rfl, rfl, rfl, rfl, rfl, rfl, rfl, rfl, rfl, rfl⟩

@[simp] theorem setSupply_frame (r : Nat) (x : Supply) :
    (setSupply r x s).cmp = s.cmp ∧ (setSupply r x s).geom = s.geom ∧ (setSupply r x s).ray = s.ray ∧ (setSupply r x s).sig = s.sig ∧
    (setSupply r x s).tim = s.tim ∧ (setSupply r x s).eth = s.eth ∧ (setSupply r x s).out = s.out ∧ (setSupply r x s).tlk = s.tlk ∧
    (setSupply r x s).dec = s.dec ∧ (setSupply r x s).enc = s.enc ∧ (setSupply r x s).blt = s.blt ∧ (setSupply r x s).dfl = s.dfl ∧
    (setSupply r x s).dmc = s.dmc ∧ (setSupply r x s).hif = s.hif ∧ (setSupply r x s).walec = s.walec ∧ (setSupply r x s).bureau = s.bureau ∧
    (setSupply r x s).clk = s.clk ∧ (setSupply r x s).thm = s.thm ∧ (setSupply r x s).spr = s.spr ∧ (setSupply r x s).bot = s.bot ∧
    (setSupply r x s).pins = s.pins ∧ (setSupply r x s).sent = s.sent ∧ (setSupply r x s).drawn = s.drawn ∧ (setSupply r x s).pending = s.pending :=
  ⟨rfl, rfl, rfl, rfl, rfl, rfl, rfl, rfl, rfl, rfl, rfl, rfl, rfl, rfl, rfl, rfl, rfl, rfl, rfl, rfl, rfl, rfl, rfl, rfl⟩

@[simp] theorem setRef_frame (r : Port) (x : RefInput) :
    (setRef r x s).cmp = s.cmp ∧ (setRef r x s).geom = s.geom ∧ (setRef r x s).ray = s.ray ∧ (setRef r x s).sig = s.sig ∧
    (setRef r x s).tim = s.tim ∧ (setRef r x s).eth = s.eth ∧ (setRef r x s).out = s.out ∧ (setRef r x s).tlk = s.tlk ∧ (setRef r x s).dec = s.dec ∧
    (setRef r x s).enc = s.enc ∧ (setRef r x s).blt = s.blt ∧ (setRef r x s).dfl = s.dfl ∧ (setRef r x s).dmc = s.dmc ∧ (setRef r x s).hif = s.hif ∧
    (setRef r x s).walec = s.walec ∧ (setRef r x s).bureau = s.bureau ∧ (setRef r x s).pwr = s.pwr ∧ (setRef r x s).thm = s.thm ∧
    (setRef r x s).spr = s.spr ∧ (setRef r x s).bot = s.bot ∧ (setRef r x s).pins = s.pins ∧ (setRef r x s).sent = s.sent ∧
    (setRef r x s).drawn = s.drawn ∧ (setRef r x s).pending = s.pending :=
  by cases r <;> simp [setRef]

end Sys2Proof.Machine
end

