-- ==== Sys2Proof/Laws/Tbl.lean ====
section
/-! SUPPORT. Tables read back what was set. -/

namespace Sys2Proof.Tbl

variable {α : Type}

@[simp] theorem find?_set_self (k : Nat) (v : α) (t : Tbl α) : find? k (set k v t) = some v := by
  induction t with
  | nil => simp [set, find?]
  | cons e r ih =>
    simp only [set]
    repeat' split
    all_goals simp_all [find?]

theorem find?_set_ne {j k : Nat} (h : j ≠ k) (v : α) (t : Tbl α) : find? j (set k v t) = find? j t := by
  induction t with
  | nil => simp [set, find?, h.symm]
  | cons e r ih =>
    simp only [set]
    split
    · subst_vars; simp [find?, h.symm]
    · split
      · simp [find?, h.symm]
      · simp [find?, ih]

@[simp] theorem get_set_self (k : Nat) (v d : α) (t : Tbl α) : get (set k v t) d k = v := by simp [get]

theorem get_set_ne {j k : Nat} (h : j ≠ k) (v d : α) (t : Tbl α) : get (set k v t) d j = get t d j := by simp [get, find?_set_ne h]

@[simp] theorem find?_erase_self (k : Nat) (t : Tbl α) : find? k (erase k t) = none := by
  induction t with
  | nil => rfl
  | cons e r ih =>
    simp only [erase]
    split
    · exact ih
    · rename_i h; simp [find?, h, ih]

end Sys2Proof.Tbl
end

