-- ==== Sys2Proof/Laws/Ops.lean ====
section
/-! SUPPORT. What the shared operations do: messages, interrupt causes, ATTENTION, the Bureau, and reading back what was set. -/

namespace Sys2Proof.Machine

variable (s : State)

/-! ### Ports -/

@[simp] theorem portOf_setPort (p q : Port) (h : HostPort) : portOf (setPort p h s) q = if q = p then h else portOf s q := by
  cases p <;> cases q <;> simp [setPort, portOf]

@[simp] theorem setPort_hif (p : Port) (h : HostPort) :
    (setPort p h s).hif.drawers = s.hif.drawers ∧ (setPort p h s).hif.queues = s.hif.queues ∧ (setPort p h s).hif.own = s.hif.own ∧
    (setPort p h s).hif.leaseMs = s.hif.leaseMs ∧ (setPort p h s).hif.beat = s.hif.beat ∧ (setPort p h s).hif.restarts = s.hif.restarts ∧
    (setPort p h s).hif.walec = s.hif.walec ∧ (setPort p h s).hif.powerDown = s.hif.powerDown ∧ (setPort p h s).hif.attention = s.hif.attention := by
  cases p <;> simp [setPort]

theorem portOf_of_hif {t : State} (h : t.hif = s.hif) (q : Port) : portOf t q = portOf s q := by cases q <;> simp [portOf, h]

@[simp] theorem portOf_send (o : Sent) (q : Port) : portOf (send o s) q = portOf s q := portOf_of_hif s rfl q

@[simp] theorem portOf_sendAll (os : List Sent) (q : Port) : portOf (sendAll os s) q = portOf s q := portOf_of_hif s rfl q

@[simp] theorem message_hif (p : Port) (v : Nat) :
    (message p v s).hif.drawers = s.hif.drawers ∧ (message p v s).hif.queues = s.hif.queues ∧ (message p v s).hif.own = s.hif.own ∧
    (message p v s).hif.leaseMs = s.hif.leaseMs ∧ (message p v s).hif.beat = s.hif.beat ∧ (message p v s).hif.restarts = s.hif.restarts ∧
    (message p v s).hif.walec = s.hif.walec ∧ (message p v s).hif.powerDown = s.hif.powerDown ∧ (message p v s).hif.attention = s.hif.attention := by
  unfold message
  dsimp only
  split
  · simp
  · simp
    try split

@[simp] theorem message_port (p : Port) (v : Nat) (q : Port) :
    (portOf (message p v s) q).speed = (portOf s q).speed ∧ (portOf (message p v s) q).width = (portOf s q).width ∧
    (portOf (message p v s) q).linkUp = (portOf s q).linkUp ∧ (portOf (message p v s) q).bar2Poisoned = (portOf s q).bar2Poisoned ∧
    (portOf (message p v s) q).lateSeen = (portOf s q).lateSeen ∧ (portOf (message p v s) q).dbRefusedSeen = (portOf s q).dbRefusedSeen ∧
    (portOf (message p v s) q).staleRespSeen = (portOf s q).staleRespSeen ∧ (portOf (message p v s) q).bar2Seen = (portOf s q).bar2Seen ∧
    (portOf (message p v s) q).resetSeen = (portOf s q).resetSeen ∧ (portOf (message p v s) q).d3hot = (portOf s q).d3hot ∧
    (portOf (message p v s) q).perst = (portOf s q).perst ∧ (portOf (message p v s) q).ready = (portOf s q).ready ∧
    (portOf (message p v s) q).bar2Base = (portOf s q).bar2Base ∧ (portOf (message p v s) q).msix = (portOf s q).msix ∧
    (portOf (message p v s) q).cause = (portOf s q).cause ∧ (portOf (message p v s) q).intEn = (portOf s q).intEn ∧
    (portOf (message p v s) q).intVector = (portOf s q).intVector ∧ (portOf (message p v s) q).lease = (portOf s q).lease ∧
    (portOf (message p v s) q).claimRefused = (portOf s q).claimRefused ∧ (portOf (message p v s) q).expiredSeen = (portOf s q).expiredSeen := by
  unfold message
  dsimp only
  split
  · simp
  · simp
    try split
    all_goals simp_all

@[simp] theorem raise_hif (p : Port) (i : Nat) :
    (raise p i s).hif.drawers = s.hif.drawers ∧ (raise p i s).hif.queues = s.hif.queues ∧ (raise p i s).hif.own = s.hif.own ∧
    (raise p i s).hif.leaseMs = s.hif.leaseMs ∧ (raise p i s).hif.beat = s.hif.beat ∧ (raise p i s).hif.restarts = s.hif.restarts ∧
    (raise p i s).hif.walec = s.hif.walec ∧ (raise p i s).hif.powerDown = s.hif.powerDown ∧ (raise p i s).hif.attention = s.hif.attention := by
  unfold raise
  dsimp only
  repeat' split
  all_goals simp

@[simp] theorem raise_port (p : Port) (i : Nat) (q : Port) :
    (portOf (raise p i s) q).speed = (portOf s q).speed ∧ (portOf (raise p i s) q).width = (portOf s q).width ∧
    (portOf (raise p i s) q).linkUp = (portOf s q).linkUp ∧ (portOf (raise p i s) q).bar2Poisoned = (portOf s q).bar2Poisoned ∧
    (portOf (raise p i s) q).lateSeen = (portOf s q).lateSeen ∧ (portOf (raise p i s) q).dbRefusedSeen = (portOf s q).dbRefusedSeen ∧
    (portOf (raise p i s) q).staleRespSeen = (portOf s q).staleRespSeen ∧ (portOf (raise p i s) q).bar2Seen = (portOf s q).bar2Seen ∧
    (portOf (raise p i s) q).resetSeen = (portOf s q).resetSeen ∧ (portOf (raise p i s) q).d3hot = (portOf s q).d3hot ∧
    (portOf (raise p i s) q).perst = (portOf s q).perst ∧ (portOf (raise p i s) q).ready = (portOf s q).ready ∧
    (portOf (raise p i s) q).bar2Base = (portOf s q).bar2Base ∧ (portOf (raise p i s) q).msix = (portOf s q).msix ∧
    (portOf (raise p i s) q).intEn = (portOf s q).intEn ∧ (portOf (raise p i s) q).intVector = (portOf s q).intVector ∧
    (portOf (raise p i s) q).lease = (portOf s q).lease ∧ (portOf (raise p i s) q).claimRefused = (portOf s q).claimRefused ∧
    (portOf (raise p i s) q).expiredSeen = (portOf s q).expiredSeen := by
  unfold raise
  dsimp only
  repeat' split
  all_goals simp
  all_goals try split
  all_goals simp_all

@[simp] theorem raiseBoth_hif (i : Nat) :
    (raiseBoth i s).hif.drawers = s.hif.drawers ∧ (raiseBoth i s).hif.queues = s.hif.queues ∧ (raiseBoth i s).hif.own = s.hif.own ∧
    (raiseBoth i s).hif.leaseMs = s.hif.leaseMs ∧ (raiseBoth i s).hif.beat = s.hif.beat ∧ (raiseBoth i s).hif.restarts = s.hif.restarts ∧
    (raiseBoth i s).hif.walec = s.hif.walec ∧ (raiseBoth i s).hif.powerDown = s.hif.powerDown ∧ (raiseBoth i s).hif.attention = s.hif.attention := by
  simp [raiseBoth]

@[simp] theorem raiseBoth_port (i : Nat) (q : Port) :
    (portOf (raiseBoth i s) q).speed = (portOf s q).speed ∧ (portOf (raiseBoth i s) q).width = (portOf s q).width ∧
    (portOf (raiseBoth i s) q).linkUp = (portOf s q).linkUp ∧ (portOf (raiseBoth i s) q).bar2Poisoned = (portOf s q).bar2Poisoned ∧
    (portOf (raiseBoth i s) q).lateSeen = (portOf s q).lateSeen ∧ (portOf (raiseBoth i s) q).dbRefusedSeen = (portOf s q).dbRefusedSeen ∧
    (portOf (raiseBoth i s) q).staleRespSeen = (portOf s q).staleRespSeen ∧ (portOf (raiseBoth i s) q).bar2Seen = (portOf s q).bar2Seen ∧
    (portOf (raiseBoth i s) q).resetSeen = (portOf s q).resetSeen ∧ (portOf (raiseBoth i s) q).d3hot = (portOf s q).d3hot ∧
    (portOf (raiseBoth i s) q).perst = (portOf s q).perst ∧ (portOf (raiseBoth i s) q).ready = (portOf s q).ready ∧
    (portOf (raiseBoth i s) q).bar2Base = (portOf s q).bar2Base ∧ (portOf (raiseBoth i s) q).msix = (portOf s q).msix ∧
    (portOf (raiseBoth i s) q).intEn = (portOf s q).intEn ∧ (portOf (raiseBoth i s) q).intVector = (portOf s q).intVector ∧
    (portOf (raiseBoth i s) q).lease = (portOf s q).lease ∧ (portOf (raiseBoth i s) q).claimRefused = (portOf s q).claimRefused ∧
    (portOf (raiseBoth i s) q).expiredSeen = (portOf s q).expiredSeen := by
  simp [raiseBoth]

/-! ### Drawers and queues -/

@[simp] theorem drawerOf_setDrawer_self (p : Port) (n : Nat) (d : Drawer) : drawerOf (setDrawer p n d s) p n = d := by
  simp [drawerOf, setDrawer]

theorem drawerOf_setDrawer_ne {p q : Port} {n m : Nat} (h : drawerIx p n ≠ drawerIx q m) (d : Drawer) :
    drawerOf (setDrawer q m d s) p n = drawerOf s p n := by
  simp [drawerOf, setDrawer, Tbl.get_set_ne h]

@[simp] theorem queueOf_setQueue_self (q : Nat) (c : Queue) : queueOf (setQueue q c s) q = c := by simp [queueOf, setQueue]

theorem queueOf_setQueue_ne {q r : Nat} (h : r ≠ q) (c : Queue) : queueOf (setQueue q c s) r = queueOf s r := by
  simp [queueOf, setQueue, Tbl.get_set_ne h]

@[simp] theorem portOf_setDrawer (p q : Port) (n : Nat) (d : Drawer) : portOf (setDrawer p n d s) q = portOf s q := by cases q <;> rfl

@[simp] theorem portOf_setQueue (q : Nat) (c : Queue) (p : Port) : portOf (setQueue q c s) p = portOf s p := by cases p <;> rfl

@[simp] theorem drawerOf_message (p : Port) (v : Nat) (q : Port) (n : Nat) : drawerOf (message p v s) q n = drawerOf s q n := by
  unfold drawerOf; simp

@[simp] theorem queueOf_message (p : Port) (v q : Nat) : queueOf (message p v s) q = queueOf s q := by unfold queueOf; simp

@[simp] theorem respond_drawer (p : Port) (n status : Nat) (taken hwBit : Bool) (tagGen : Nat) (body : Bytes) :
    drawerOf (respond p n status taken hwBit tagGen body s) p n =
      { drawerOf s p n with state := .response, resp := responseHeader status taken hwBit tagGen body.length ++ body.take 1008 } := by
  unfold respond
  dsimp only
  split <;> simp

@[simp] theorem respond_walec (p : Port) (n status : Nat) (taken hwBit : Bool) (tagGen : Nat) (body : Bytes) :
    (respond p n status taken hwBit tagGen body s).walec = s.walec := by
  unfold respond
  dsimp only
  split <;> simp [setDrawer]

/-! ### ATTENTION (R674) -/

@[simp] theorem settle_hif :
    (settle s).hif.drawers = s.hif.drawers ∧ (settle s).hif.queues = s.hif.queues ∧ (settle s).hif.own = s.hif.own ∧
    (settle s).hif.leaseMs = s.hif.leaseMs ∧ (settle s).hif.beat = s.hif.beat ∧ (settle s).hif.restarts = s.hif.restarts ∧
    (settle s).hif.walec = s.hif.walec ∧ (settle s).hif.powerDown = s.hif.powerDown ∧ (settle s).hif.attention = attentionOf s := by
  unfold settle
  dsimp only
  split <;> simp

@[simp] theorem settle_port (q : Port) :
    (portOf (settle s) q).speed = (portOf s q).speed ∧ (portOf (settle s) q).width = (portOf s q).width ∧
    (portOf (settle s) q).linkUp = (portOf s q).linkUp ∧ (portOf (settle s) q).bar2Poisoned = (portOf s q).bar2Poisoned ∧
    (portOf (settle s) q).lateSeen = (portOf s q).lateSeen ∧ (portOf (settle s) q).dbRefusedSeen = (portOf s q).dbRefusedSeen ∧
    (portOf (settle s) q).staleRespSeen = (portOf s q).staleRespSeen ∧ (portOf (settle s) q).bar2Seen = (portOf s q).bar2Seen ∧
    (portOf (settle s) q).resetSeen = (portOf s q).resetSeen ∧ (portOf (settle s) q).d3hot = (portOf s q).d3hot ∧
    (portOf (settle s) q).perst = (portOf s q).perst ∧ (portOf (settle s) q).ready = (portOf s q).ready ∧
    (portOf (settle s) q).bar2Base = (portOf s q).bar2Base ∧ (portOf (settle s) q).msix = (portOf s q).msix ∧
    (portOf (settle s) q).intEn = (portOf s q).intEn ∧ (portOf (settle s) q).intVector = (portOf s q).intVector ∧
    (portOf (settle s) q).lease = (portOf s q).lease ∧ (portOf (settle s) q).claimRefused = (portOf s q).claimRefused ∧
    (portOf (settle s) q).expiredSeen = (portOf s q).expiredSeen := by
  have h : ∀ a, portOf { s with hif := { s.hif with attention := a } } q = portOf s q := fun a => by cases q <;> rfl
  unfold settle
  dsimp only
  split <;> simp [h]

@[simp] theorem drawerOf_settle (p : Port) (n : Nat) : drawerOf (settle s) p n = drawerOf s p n := by unfold drawerOf; simp

@[simp] theorem queueOf_settle (q : Nat) : queueOf (settle s) q = queueOf s q := by unfold queueOf; simp

/-! ### What has been sent stays sent (log 11) -/

theorem message_sent {o : Sent} (p : Port) (v : Nat) (h : o ∈ s.sent) : o ∈ (message p v s).sent := by
  unfold message
  dsimp only
  split
  · simp [send, h]
  · cases p <;> exact h

theorem raise_sent {o : Sent} (p : Port) (i : Nat) (h : o ∈ s.sent) : o ∈ (raise p i s).sent := by
  unfold raise
  dsimp only
  split
  · exact h
  · split
    · exact message_sent _ _ _ (by cases p <;> exact h)
    · cases p <;> exact h

theorem settle_sent {o : Sent} (h : o ∈ s.sent) : o ∈ (settle s).sent := by
  unfold settle
  dsimp only
  split
  · exact raise_sent _ _ _ (raise_sent _ _ _ h)
  · exact h

end Sys2Proof.Machine
end

