-- ==== Sys2Proof/Laws/Fields.lean ====
section
/-! SUPPORT. Reading a frame part by part, and reading back what was set in the tables of a block. -/

namespace Sys2Proof.Machine

/-! ### Reading a frame -/

theorem SameBut.cmp_eq {l : List Part} {s t : State} (h : SameBut l s t) (hp : Part.cmp ∉ l) : t.cmp = s.cmp := h .cmp hp

theorem SameBut.geom_eq {l : List Part} {s t : State} (h : SameBut l s t) (hp : Part.geom ∉ l) : t.geom = s.geom := h .geom hp

theorem SameBut.ray_eq {l : List Part} {s t : State} (h : SameBut l s t) (hp : Part.ray ∉ l) : t.ray = s.ray := h .ray hp

theorem SameBut.sig_eq {l : List Part} {s t : State} (h : SameBut l s t) (hp : Part.sig ∉ l) : t.sig = s.sig := h .sig hp

theorem SameBut.eth_eq {l : List Part} {s t : State} (h : SameBut l s t) (hp : Part.eth ∉ l) : t.eth = s.eth := h .eth hp

theorem SameBut.out_eq {l : List Part} {s t : State} (h : SameBut l s t) (hp : Part.out ∉ l) : t.out = s.out := h .out hp

theorem SameBut.tlk_eq {l : List Part} {s t : State} (h : SameBut l s t) (hp : Part.tlk ∉ l) : t.tlk = s.tlk := h .tlk hp

theorem SameBut.dec_eq {l : List Part} {s t : State} (h : SameBut l s t) (hp : Part.dec ∉ l) : t.dec = s.dec := h .dec hp

theorem SameBut.enc_eq {l : List Part} {s t : State} (h : SameBut l s t) (hp : Part.enc ∉ l) : t.enc = s.enc := h .enc hp

theorem SameBut.blt_eq {l : List Part} {s t : State} (h : SameBut l s t) (hp : Part.blt ∉ l) : t.blt = s.blt := h .blt hp

theorem SameBut.dfl_eq {l : List Part} {s t : State} (h : SameBut l s t) (hp : Part.dfl ∉ l) : t.dfl = s.dfl := h .dfl hp

theorem SameBut.walec_eq {l : List Part} {s t : State} (h : SameBut l s t) (hp : Part.walec ∉ l) : t.walec = s.walec := h .walec hp

theorem SameBut.bureau_eq {l : List Part} {s t : State} (h : SameBut l s t) (hp : Part.bureau ∉ l) : t.bureau = s.bureau := h .bureau hp

theorem SameBut.clk_eq {l : List Part} {s t : State} (h : SameBut l s t) (hp : Part.clk ∉ l) : t.clk = s.clk := h .clk hp

theorem SameBut.pwr_eq {l : List Part} {s t : State} (h : SameBut l s t) (hp : Part.pwr ∉ l) : t.pwr = s.pwr := h .pwr hp

theorem SameBut.thm_eq {l : List Part} {s t : State} (h : SameBut l s t) (hp : Part.thm ∉ l) : t.thm = s.thm := h .thm hp

theorem SameBut.spr_eq {l : List Part} {s t : State} (h : SameBut l s t) (hp : Part.spr ∉ l) : t.spr = s.spr := h .spr hp

theorem SameBut.bot_eq {l : List Part} {s t : State} (h : SameBut l s t) (hp : Part.bot ∉ l) : t.bot = s.bot := h .bot hp

theorem SameBut.pins_eq {l : List Part} {s t : State} (h : SameBut l s t) (hp : Part.pins ∉ l) : t.pins = s.pins := h .pins hp

theorem SameBut.sent_eq {l : List Part} {s t : State} (h : SameBut l s t) (hp : Part.sent ∉ l) : t.sent = s.sent := h .sent hp

theorem SameBut.drawn_eq {l : List Part} {s t : State} (h : SameBut l s t) (hp : Part.drawn ∉ l) : t.drawn = s.drawn := h .drawn hp

theorem SameBut.bases_eq {l : List Part} {s t : State} (h : SameBut l s t) (hp : Part.bases ∉ l) : t.tim.bases = s.tim.bases := h .bases hp

theorem SameBut.queues_eq {l : List Part} {s t : State} (h : SameBut l s t) (hp : Part.queues ∉ l) : t.hif.queues = s.hif.queues := h .queues hp

theorem SameBut.drawers_eq {l : List Part} {s t : State} (h : SameBut l s t) (hp : Part.drawers ∉ l) : t.hif.drawers = s.hif.drawers := h .drawers hp

theorem SameBut.tim_eq {l : List Part} {s t : State} (h : SameBut l s t) (hp : Part.tim ∉ l) (hb : Part.bases ∉ l) : t.tim = s.tim := by
  have h1 := h .tim hp
  have h2 := h .bases hb
  simp only [Part.same] at h1 h2
  cases ht : t.tim; cases hs : s.tim
  simp_all

/-- Any field of the timing block but the time bases. -/
theorem SameBut.tim_field {α : Type} {l : List Part} {s t : State} (h : SameBut l s t) (hp : Part.tim ∉ l) (f : TimState → α)
    (hf : ∀ x : TimState, f { x with bases := [] } = f x) : f t.tim = f s.tim := by rw [← hf, ← hf s.tim, show _ = _ from h .tim hp]

theorem SameBut.dmc_eq {l : List Part} {s t : State} (h : SameBut l s t) (hp : Part.dmc ∉ l) (hb : Part.dram ∉ l) : t.dmc = s.dmc := by
  have h1 := h .dmc hp
  have h2 := h .dram hb
  simp only [Part.same] at h1 h2
  cases ht : t.dmc; cases hs : s.dmc
  simp_all

/-- Any field of the memory controller but memory and its poison marks. -/
theorem SameBut.dmc_field {α : Type} {l : List Part} {s t : State} (h : SameBut l s t) (hp : Part.dmc ∉ l) (f : DmcState → α)
    (hf : ∀ x : DmcState, f { x with mem := [], poison := [] } = f x) : f t.dmc = f s.dmc := by rw [← hf, ← hf s.dmc, show _ = _ from h .dmc hp]

/-! ### An answer -/

/-- A command that answers the settled state `u` leads to whatever holds of it. -/
theorem leads_done {c : Instr} {s u : State} {q : State → Prop} (h : exec c s = done u) (hq : q (settle u)) : Leads c s q := ⟨_, h, hq⟩

/-- Setting ATTENTION touches the ports and what is sent, nothing else. -/
theorem sameBut_settle (s : State) : SameBut [.ports, .sent] s (settle s) := by
  intro p hp
  cases p <;> simp_all [Part.same]

/-- Where ATTENTION is true already, settling changes nothing. -/
theorem settle_eq {s : State} (h : AttentionTrue s) : settle s = s := by
  have hr : ∀ a, risen a a = false := fun a => by simp [risen]
  unfold settle
  dsimp only
  rw [← show s.hif.attention = attentionOf s from h, hr]
  rfl

theorem SameBut.settle {l : List Part} {s t : State} (h : SameBut l s t) (h1 : Part.ports ∈ l) (h2 : Part.sent ∈ l) : SameBut l s (settle t) := by
  intro p hp
  refine Part.same_trans (h p hp) (sameBut_settle _ p ?_)
  simp only [List.mem_cons, List.not_mem_nil, or_false]
  rintro (rfl | rfl) <;> contradiction

/-! ### Fields of a message after its first bytes -/

theorem u8_drop (b : Bytes) (k i : Nat) : u8 (b.drop k) i = u8 b (k + i) := by simp [u8, List.getD_eq_getElem?_getD]

theorem leAt_drop (b : Bytes) (k i n : Nat) : leAt (b.drop k) i n = leAt b (k + i) n := by simp [leAt, List.drop_drop]

theorem zeroAt_drop (b : Bytes) (k i n : Nat) : zeroAt (b.drop k) i n = zeroAt b (k + i) n := by simp [zeroAt, List.drop_drop]

/-! ### Conditions in order (R492) -/

/-- No condition holds: nothing is refused. -/
theorem firstStatus_ok (l : List (Bool × Status)) (h : ∀ x ∈ l, x.1 = false) : firstStatus l = .ok := by
  induction l with
  | nil => rfl
  | cons a l ih =>
    obtain ⟨b, c⟩ := a
    have hb : b = false := h (b, c) (List.mem_cons_self ..)
    subst hb
    exact ih fun x hx => h x (List.mem_cons_of_mem _ hx)

theorem checked_ok {l : List (Bool × Status)} {go s : State} {body : Bytes} (h : ∀ x ∈ l, x.1 = false) : checked l go s body = (.ok, body, go) := by
  simp [checked, firstStatus_ok l h]

/-! ### One entry of a table -/

@[simp] theorem ctxOf_setCtx (n : Nat) (x : Ctx) (s : State) : ctxOf (setCtx n x s) n = x := by simp [ctxOf, setCtx]
theorem ctxOf_setCtx_ne {n m : Nat} (h : m ≠ n) (x : Ctx) (s : State) : ctxOf (setCtx n x s) m = ctxOf s m := by simp [ctxOf, setCtx, Tbl.get_set_ne h]
theorem ctxOf_of {s t : State} (h : t.dec = s.dec) (n : Nat) : ctxOf t n = ctxOf s n := by simp [ctxOf, h]
@[simp] theorem ctxOf_settle (n : Nat) (s : State) : ctxOf (settle s) n = ctxOf s n := by simp [ctxOf]

@[simp] theorem coreOf_setCore (n : Nat) (x : DecCore) (s : State) : coreOf (setCore n x s) n = x := by simp [coreOf, setCore]
theorem coreOf_setCore_ne {n m : Nat} (h : m ≠ n) (x : DecCore) (s : State) : coreOf (setCore n x s) m = coreOf s m := by simp [coreOf, setCore, Tbl.get_set_ne h]
theorem coreOf_of {s t : State} (h : t.dec = s.dec) (n : Nat) : coreOf t n = coreOf s n := by simp [coreOf, h]
@[simp] theorem coreOf_settle (n : Nat) (s : State) : coreOf (settle s) n = coreOf s n := by simp [coreOf]

@[simp] theorem dflSlot_setDflSlot (n : Nat) (x : Slot) (s : State) : dflSlot (setDflSlot n x s) n = x := by simp [dflSlot, setDflSlot]
theorem dflSlot_setDflSlot_ne {n m : Nat} (h : m ≠ n) (x : Slot) (s : State) : dflSlot (setDflSlot n x s) m = dflSlot s m := by simp [dflSlot, setDflSlot, Tbl.get_set_ne h]
theorem dflSlot_of {s t : State} (h : t.dfl = s.dfl) (n : Nat) : dflSlot t n = dflSlot s n := by simp [dflSlot, h]
@[simp] theorem dflSlot_settle (n : Nat) (s : State) : dflSlot (settle s) n = dflSlot s n := by simp [dflSlot]

@[simp] theorem siteOf_setSite (n : Nat) (x : Site) (s : State) : siteOf (setSite n x s) n = x := by simp [siteOf, setSite]
theorem siteOf_setSite_ne {n m : Nat} (h : m ≠ n) (x : Site) (s : State) : siteOf (setSite n x s) m = siteOf s m := by simp [siteOf, setSite, Tbl.get_set_ne h]
theorem siteOf_of {s t : State} (h : t.dmc = s.dmc) (n : Nat) : siteOf t n = siteOf s n := by simp [siteOf, h]
@[simp] theorem siteOf_settle (n : Nat) (s : State) : siteOf (settle s) n = siteOf s n := by simp [siteOf]

@[simp] theorem dramChannel_setChannel (n : Nat) (x : DramChannel) (s : State) : dramChannel (setChannel n x s) n = x := by simp [dramChannel, setChannel]
theorem dramChannel_setChannel_ne {n m : Nat} (h : m ≠ n) (x : DramChannel) (s : State) : dramChannel (setChannel n x s) m = dramChannel s m := by simp [dramChannel, setChannel, Tbl.get_set_ne h]
theorem dramChannel_of {s t : State} (h : t.dmc = s.dmc) (n : Nat) : dramChannel t n = dramChannel s n := by simp [dramChannel, h]
@[simp] theorem dramChannel_settle (n : Nat) (s : State) : dramChannel (settle s) n = dramChannel s n := by simp [dramChannel]

@[simp] theorem ownerOf_setOwner (n : Nat) (x : Owner) (s : State) : ownerOf (setOwner n x s) n = x := by simp [ownerOf, setOwner]
theorem ownerOf_setOwner_ne {n m : Nat} (h : m ≠ n) (x : Owner) (s : State) : ownerOf (setOwner n x s) m = ownerOf s m := by simp [ownerOf, setOwner, Tbl.get_set_ne h]
@[simp] theorem ownerOf_settle (n : Nat) (s : State) : ownerOf (settle s) n = ownerOf s n := by simp [ownerOf]

@[simp] theorem layerOf_setLayer (n : Nat) (x : LayerEntry) (s : State) : layerOf (setLayer n x s) n = x := by simp [layerOf, setLayer]
theorem layerOf_setLayer_ne {n m : Nat} (h : m ≠ n) (x : LayerEntry) (s : State) : layerOf (setLayer n x s) m = layerOf s m := by simp [layerOf, setLayer, Tbl.get_set_ne h]
theorem layerOf_of {s t : State} (h : t.cmp = s.cmp) (n : Nat) : layerOf t n = layerOf s n := by simp [layerOf, h]
@[simp] theorem layerOf_settle (n : Nat) (s : State) : layerOf (settle s) n = layerOf s n := by simp [layerOf]

@[simp] theorem layerStatus_setLayerStatus (n : Nat) (x : LayerStatus) (s : State) : layerStatus (setLayerStatus n x s) n = x := by simp [layerStatus, setLayerStatus]
theorem layerStatus_setLayerStatus_ne {n m : Nat} (h : m ≠ n) (x : LayerStatus) (s : State) : layerStatus (setLayerStatus n x s) m = layerStatus s m := by simp [layerStatus, setLayerStatus, Tbl.get_set_ne h]
theorem layerStatus_of {s t : State} (h : t.cmp = s.cmp) (n : Nat) : layerStatus t n = layerStatus s n := by simp [layerStatus, h]
@[simp] theorem layerStatus_settle (n : Nat) (s : State) : layerStatus (settle s) n = layerStatus s n := by simp [layerStatus]

@[simp] theorem linkOf_setLink (n : Nat) (x : Link) (s : State) : linkOf (setLink n x s) n = x := by simp [linkOf, setLink]
theorem linkOf_setLink_ne {n m : Nat} (h : m ≠ n) (x : Link) (s : State) : linkOf (setLink n x s) m = linkOf s m := by simp [linkOf, setLink, Tbl.get_set_ne h]
theorem linkOf_of {s t : State} (h : t.tlk = s.tlk) (n : Nat) : linkOf t n = linkOf s n := by simp [linkOf, h]
@[simp] theorem linkOf_settle (n : Nat) (s : State) : linkOf (settle s) n = linkOf s n := by simp [linkOf]

@[simp] theorem groupOf_setGroup (n : Nat) (x : LinkGroup) (s : State) : groupOf (setGroup n x s) n = x := by simp [groupOf, setGroup]
theorem groupOf_setGroup_ne {n m : Nat} (h : m ≠ n) (x : LinkGroup) (s : State) : groupOf (setGroup n x s) m = groupOf s m := by simp [groupOf, setGroup, Tbl.get_set_ne h]
theorem groupOf_of {s t : State} (h : t.tlk = s.tlk) (n : Nat) : groupOf t n = groupOf s n := by simp [groupOf, h]
@[simp] theorem groupOf_settle (n : Nat) (s : State) : groupOf (settle s) n = groupOf s n := by simp [groupOf]

@[simp] theorem supplyOf_setSupply (n : Nat) (x : Supply) (s : State) : supplyOf (setSupply n x s) n = x := by simp [supplyOf, setSupply]
theorem supplyOf_setSupply_ne {n m : Nat} (h : m ≠ n) (x : Supply) (s : State) : supplyOf (setSupply n x s) m = supplyOf s m := by simp [supplyOf, setSupply, Tbl.get_set_ne h]
theorem supplyOf_of {s t : State} (h : t.pwr = s.pwr) (n : Nat) : supplyOf t n = supplyOf s n := by simp [supplyOf, h]
@[simp] theorem supplyOf_settle (n : Nat) (s : State) : supplyOf (settle s) n = supplyOf s n := by simp [supplyOf]

@[simp] theorem domainOf_setDomain (n : Nat) (x : DomainState) (s : State) : domainOf (setDomain n x s) n = x := by simp [domainOf, setDomain]
theorem domainOf_setDomain_ne {n m : Nat} (h : m ≠ n) (x : DomainState) (s : State) : domainOf (setDomain n x s) m = domainOf s m := by simp [domainOf, setDomain, Tbl.get_set_ne h]
theorem domainOf_of {s t : State} (h : t.pwr = s.pwr) (n : Nat) : domainOf t n = domainOf s n := by simp [domainOf, h]
@[simp] theorem domainOf_settle (n : Nat) (s : State) : domainOf (settle s) n = domainOf s n := by simp [domainOf]

@[simp] theorem deviceOf_setDevice (n : Nat) (x : PmbusDevice) (s : State) : deviceOf (setDevice n x s) n = x := by simp [deviceOf, setDevice]
theorem deviceOf_setDevice_ne {n m : Nat} (h : m ≠ n) (x : PmbusDevice) (s : State) : deviceOf (setDevice n x s) m = deviceOf s m := by simp [deviceOf, setDevice, Tbl.get_set_ne h]
theorem deviceOf_of {s t : State} (h : t.pwr = s.pwr) (n : Nat) : deviceOf t n = deviceOf s n := by simp [deviceOf, h]
@[simp] theorem deviceOf_settle (n : Nat) (s : State) : deviceOf (settle s) n = deviceOf s n := by simp [deviceOf]

@[simp] theorem rowOf_setRow (n : Nat) (x : Row) (s : State) : rowOf (setRow n x s) n = x := by simp [rowOf, setRow]
theorem rowOf_setRow_ne {n m : Nat} (h : m ≠ n) (x : Row) (s : State) : rowOf (setRow n x s) m = rowOf s m := by simp [rowOf, setRow, Tbl.get_set_ne h]
theorem rowOf_of {s t : State} (h : t.ray = s.ray) (n : Nat) : rowOf t n = rowOf s n := by simp [rowOf, h]
@[simp] theorem rowOf_settle (n : Nat) (s : State) : rowOf (settle s) n = rowOf s n := by simp [rowOf]

@[simp] theorem clusterOf_setCluster (n : Nat) (x : ClusterState) (s : State) : clusterOf (setCluster n x s) n = x := by simp [clusterOf, setCluster]
theorem clusterOf_setCluster_ne {n m : Nat} (h : m ≠ n) (x : ClusterState) (s : State) : clusterOf (setCluster n x s) m = clusterOf s m := by simp [clusterOf, setCluster, Tbl.get_set_ne h]
theorem clusterOf_of {s t : State} (h : t.ray = s.ray) (n : Nat) : clusterOf t n = clusterOf s n := by simp [clusterOf, h]
@[simp] theorem clusterOf_settle (n : Nat) (s : State) : clusterOf (settle s) n = clusterOf s n := by simp [clusterOf]

@[simp] theorem regionOf_setRegion (n : Nat) (x : Region) (s : State) : regionOf (setRegion n x s) n = x := by simp [regionOf, setRegion]
theorem regionOf_setRegion_ne {n m : Nat} (h : m ≠ n) (x : Region) (s : State) : regionOf (setRegion n x s) m = regionOf s m := by simp [regionOf, setRegion, Tbl.get_set_ne h]
theorem regionOf_of {s t : State} (h : t.sig = s.sig) (n : Nat) : regionOf t n = regionOf s n := by simp [regionOf, h]
@[simp] theorem regionOf_settle (n : Nat) (s : State) : regionOf (settle s) n = regionOf s n := by simp [regionOf]

@[simp] theorem sensorOf_setSensor (n : Nat) (x : Sensor) (s : State) : sensorOf (setSensor n x s) n = x := by simp [sensorOf, setSensor]
theorem sensorOf_setSensor_ne {n m : Nat} (h : m ≠ n) (x : Sensor) (s : State) : sensorOf (setSensor n x s) m = sensorOf s m := by simp [sensorOf, setSensor, Tbl.get_set_ne h]
theorem sensorOf_of {s t : State} (h : t.thm = s.thm) (n : Nat) : sensorOf t n = sensorOf s n := by simp [sensorOf, h]
@[simp] theorem sensorOf_settle (n : Nat) (s : State) : sensorOf (settle s) n = sensorOf s n := by simp [sensorOf]

@[simp] theorem tempGroup_setTempGroup (n : Nat) (x : TempGroup) (s : State) : tempGroup (setTempGroup n x s) n = x := by simp [tempGroup, setTempGroup]
theorem tempGroup_setTempGroup_ne {n m : Nat} (h : m ≠ n) (x : TempGroup) (s : State) : tempGroup (setTempGroup n x s) m = tempGroup s m := by simp [tempGroup, setTempGroup, Tbl.get_set_ne h]
theorem tempGroup_of {s t : State} (h : t.thm = s.thm) (n : Nat) : tempGroup t n = tempGroup s n := by simp [tempGroup, h]
@[simp] theorem tempGroup_settle (n : Nat) (s : State) : tempGroup (settle s) n = tempGroup s n := by simp [tempGroup]

@[simp] theorem slotOf_setSlot (n : Nat) (x : EventSlot) (s : State) : slotOf (setSlot n x s) n = x := by simp [slotOf, setSlot]
theorem slotOf_setSlot_ne {n m : Nat} (h : m ≠ n) (x : EventSlot) (s : State) : slotOf (setSlot n x s) m = slotOf s m := by simp [slotOf, setSlot, Tbl.get_set_ne h]
theorem slotOf_of {s t : State} (h : t.tim = s.tim) (n : Nat) : slotOf t n = slotOf s n := by simp [slotOf, h]
@[simp] theorem slotOf_settle (n : Nat) (s : State) : slotOf (settle s) n = slotOf s n := by simp [slotOf]

@[simp] theorem ethOf_setEth (n : Nat) (x : EthPort) (s : State) : ethOf (setEth n x s) n = x := by simp [ethOf, setEth]
theorem ethOf_setEth_ne {n m : Nat} (h : m ≠ n) (x : EthPort) (s : State) : ethOf (setEth n x s) m = ethOf s m := by simp [ethOf, setEth, Tbl.get_set_ne h]
theorem ethOf_of {s t : State} (h : t.eth = s.eth) (n : Nat) : ethOf t n = ethOf s n := by simp [ethOf, h]
@[simp] theorem ethOf_settle (n : Nat) (s : State) : ethOf (settle s) n = ethOf s n := by simp [ethOf]

@[simp] theorem baseOf_setBase (n : Nat) (x : Base) (s : State) : baseOf (setBase n x s) n = x := by simp [baseOf, setBase]
theorem baseOf_setBase_ne {n m : Nat} (h : m ≠ n) (x : Base) (s : State) : baseOf (setBase n x s) m = baseOf s m := by simp [baseOf, setBase, Tbl.get_set_ne h]
theorem baseOf_of {s t : State} (h : t.tim = s.tim) (n : Nat) : baseOf t n = baseOf s n := by simp [baseOf, h]
@[simp] theorem baseOf_settle (n : Nat) (s : State) : baseOf (settle s) n = baseOf s n := by simp [baseOf]

theorem queueOf_of {s t : State} (h : t.hif.queues = s.hif.queues) (q : Nat) : queueOf t q = queueOf s q := by simp [queueOf, h]
theorem queueOf_setPort (p : Port) (h : HostPort) (s : State) (q : Nat) : queueOf (setPort p h s) q = queueOf s q := queueOf_of (by simp) q

end Sys2Proof.Machine
end

