-- ==== Sys2Proof/Laws/KeepsOps.lean ====
section
/-! SUPPORT. What the operations of Machine/Ops.lean may change: one lemma each, which says that the
parts it does not name, the form of the DRAM, the Bureau's chain and the queue are kept. -/

open Host

set_option linter.unusedTactic false
set_option linter.unreachableTactic false
set_option linter.tactic.unusedName false

namespace Sys2Proof.Machine

variable {K : List Part} {s₀ : State}

theorem send_keeps (o : Sent) (s : State) (hm₀ : Part.among [.sent] K = true) (h₀ : Keeps K s₀ s) :
    Keeps K s₀ (send o s) := by
  refine Keeps.after ?_ hm₀ h₀
  clear hm₀ h₀
  unfold send
  repeat' first
    | with_reducible exact Keeps.refl _ _
    | (with_reducible apply Keeps.upd
       all_goals with_reducible first | exact Or.inl (by decide) | exact Or.inr rfl | exact rfl | exact ⟨rfl, rfl⟩ | exact Or.inr ⟨rfl, rfl, rfl⟩ | exact Or.inr ⟨rfl, rfl⟩ | exact Or.inr ⟨rfl, rfl, rfl, rfl⟩ | skip)

theorem setPort_keeps (p : Port) (h : HostPort) (s : State) (hm₀ : Part.among [.ports] K = true) (h₀ : Keeps K s₀ s) :
    Keeps K s₀ (setPort p h s) := by
  refine Keeps.after ?_ hm₀ h₀
  clear hm₀ h₀
  unfold setPort
  repeat' first
    | with_reducible exact Keeps.refl _ _
    | split
    | (with_reducible apply Keeps.upd
       all_goals with_reducible first | exact Or.inl (by decide) | exact Or.inr rfl | exact rfl | exact ⟨rfl, rfl⟩ | exact Or.inr ⟨rfl, rfl, rfl⟩ | exact Or.inr ⟨rfl, rfl⟩ | exact Or.inr ⟨rfl, rfl, rfl, rfl⟩ | skip)

theorem hostSend_keeps (p : Port) (a : ℕ) (b : Bytes) (s : State) (hm₀ : Part.among [.ports, .sent] K = true) (h₀ : Keeps K s₀ s) :
    Keeps K s₀ (hostSend p a b s) := by
  refine Keeps.after ?_ hm₀ h₀
  clear hm₀ h₀
  unfold hostSend
  repeat' first
    | (extract_lets +onlyGivenNames t
       first
         | (refine Keeps.cut (t := t) ?_ (fun ht => ?_)
            on_goal 2 => clear_value t
            subst t)
         | skip)
    | with_reducible exact Keeps.refl _ _
    | with_reducible assumption
    | with_reducible refine Keeps.ite ?_ ?_
    | with_reducible refine Keeps.ifEvent ?_ ?_
    | (with_reducible apply setPort_keeps; decide)
    | (with_reducible apply send_keeps; decide)
    | split
    | (with_reducible apply Keeps.upd
       all_goals with_reducible first | exact Or.inl (by decide) | exact Or.inr rfl | exact rfl | exact ⟨rfl, rfl⟩ | exact Or.inr ⟨rfl, rfl, rfl⟩ | exact Or.inr ⟨rfl, rfl⟩ | exact Or.inr ⟨rfl, rfl, rfl, rfl⟩ | skip)

theorem message_keeps (p : Port) (v : ℕ) (s : State) (hm₀ : Part.among [.ports, .sent] K = true) (h₀ : Keeps K s₀ s) :
    Keeps K s₀ (message p v s) := by
  refine Keeps.after ?_ hm₀ h₀
  clear hm₀ h₀
  unfold message
  repeat' first
    | (extract_lets +onlyGivenNames t
       first
         | (refine Keeps.cut (t := t) ?_ (fun ht => ?_)
            on_goal 2 => clear_value t
            subst t)
         | skip)
    | with_reducible exact Keeps.refl _ _
    | with_reducible assumption
    | with_reducible refine Keeps.ite ?_ ?_
    | (with_reducible apply send_keeps; decide)
    | (with_reducible apply setPort_keeps; decide)
    | split
    | (with_reducible apply Keeps.upd
       all_goals with_reducible first | exact Or.inl (by decide) | exact Or.inr rfl | exact rfl | exact ⟨rfl, rfl⟩ | exact Or.inr ⟨rfl, rfl, rfl⟩ | exact Or.inr ⟨rfl, rfl⟩ | exact Or.inr ⟨rfl, rfl, rfl, rfl⟩ | skip)

theorem raise_keeps (p : Port) (i : ℕ) (s : State) (hm₀ : Part.among [.ports, .sent] K = true) (h₀ : Keeps K s₀ s) :
    Keeps K s₀ (raise p i s) := by
  refine Keeps.after ?_ hm₀ h₀
  clear hm₀ h₀
  unfold raise
  repeat' first
    | (extract_lets +onlyGivenNames t
       first
         | (refine Keeps.cut (t := t) ?_ (fun ht => ?_)
            on_goal 2 => clear_value t
            subst t)
         | skip)
    | with_reducible exact Keeps.refl _ _
    | with_reducible assumption
    | with_reducible refine Keeps.ite ?_ ?_
    | (with_reducible apply setPort_keeps; decide)
    | (with_reducible apply message_keeps; decide)
    | split
    | (with_reducible apply Keeps.upd
       all_goals with_reducible first | exact Or.inl (by decide) | exact Or.inr rfl | exact rfl | exact ⟨rfl, rfl⟩ | exact Or.inr ⟨rfl, rfl, rfl⟩ | exact Or.inr ⟨rfl, rfl⟩ | exact Or.inr ⟨rfl, rfl, rfl, rfl⟩ | skip)

theorem raiseUp_keeps (i : ℕ) (s : State) (hm₀ : Part.among [.ports, .sent] K = true) (h₀ : Keeps K s₀ s) :
    Keeps K s₀ (raiseUp i s) := by
  refine Keeps.after ?_ hm₀ h₀
  clear hm₀ h₀
  unfold raiseUp
  repeat' first
    | with_reducible exact Keeps.refl _ _
    | with_reducible assumption
    | with_reducible refine Keeps.ite ?_ ?_
    | with_reducible refine Keeps.ifEvent ?_ ?_
    | with_reducible refine Keeps.foldl (fun t x => ?_) ?_
    | (with_reducible apply raise_keeps; decide)
    | split
    | (with_reducible apply Keeps.upd
       all_goals with_reducible first | exact Or.inl (by decide) | exact Or.inr rfl | exact rfl | exact ⟨rfl, rfl⟩ | exact Or.inr ⟨rfl, rfl, rfl⟩ | exact Or.inr ⟨rfl, rfl⟩ | exact Or.inr ⟨rfl, rfl, rfl, rfl⟩ | skip)

theorem setQueue_keeps (q : ℕ) (c : Queue) (s : State) (hm₀ : Part.among [.queues] K = true) (h₀ : Keeps K s₀ s) :
    Keeps K s₀ (setQueue q c s) := by
  refine Keeps.after ?_ hm₀ h₀
  clear hm₀ h₀
  unfold setQueue
  repeat' first
    | with_reducible exact Keeps.refl _ _
    | (with_reducible apply Keeps.upd
       all_goals with_reducible first | exact Or.inl (by decide) | exact Or.inr rfl | exact rfl | exact ⟨rfl, rfl⟩ | exact Or.inr ⟨rfl, rfl, rfl⟩ | exact Or.inr ⟨rfl, rfl⟩ | exact Or.inr ⟨rfl, rfl, rfl, rfl⟩ | skip)

theorem sendAll_keeps (os : List Sent) (s : State) (hm₀ : Part.among [.sent] K = true) (h₀ : Keeps K s₀ s) :
    Keeps K s₀ (sendAll os s) := by
  refine Keeps.after ?_ hm₀ h₀
  clear hm₀ h₀
  unfold sendAll
  repeat' first
    | with_reducible exact Keeps.refl _ _
    | (with_reducible apply Keeps.upd
       all_goals with_reducible first | exact Or.inl (by decide) | exact Or.inr rfl | exact rfl | exact ⟨rfl, rfl⟩ | exact Or.inr ⟨rfl, rfl, rfl⟩ | exact Or.inr ⟨rfl, rfl⟩ | exact Or.inr ⟨rfl, rfl, rfl, rfl⟩ | skip)

theorem log_keeps (o : Origin) (subject : ℕ) (event : ℕ) (detail : ℕ) (s : State) (hm₀ : Part.among [.bureau] K = true) (h₀ : Keeps K s₀ s) :
    Keeps K s₀ (log o subject event detail s) := by
  refine Keeps.after ?_ hm₀ h₀
  clear hm₀ h₀
  unfold log
  repeat' first
    | with_reducible exact Keeps.refl _ _
    | (with_reducible apply logEntry_keeps; decide)

theorem setDrawer_keeps (p : Port) (n : ℕ) (d : Drawer) (s : State) (hm₀ : Part.among [.drawers] K = true) (h₀ : Keeps K s₀ s) :
    Keeps K s₀ (setDrawer p n d s) := by
  refine Keeps.after ?_ hm₀ h₀
  clear hm₀ h₀
  unfold setDrawer
  repeat' first
    | with_reducible exact Keeps.refl _ _
    | (with_reducible apply Keeps.upd
       all_goals with_reducible first | exact Or.inl (by decide) | exact Or.inr rfl | exact rfl | exact ⟨rfl, rfl⟩ | exact Or.inr ⟨rfl, rfl, rfl⟩ | exact Or.inr ⟨rfl, rfl⟩ | exact Or.inr ⟨rfl, rfl, rfl, rfl⟩ | skip)

theorem respond_keeps (p : Port) (n : ℕ) (status : ℕ) (taken : Bool) (hwBit : Bool) (tagGen : ℕ) (body : Bytes) (s : State) (hm₀ : Part.among [.ports, .drawers, .sent] K = true) (h₀ : Keeps K s₀ s) :
    Keeps K s₀ (respond p n status taken hwBit tagGen body s) := by
  refine Keeps.after ?_ hm₀ h₀
  clear hm₀ h₀
  unfold respond
  repeat' first
    | (extract_lets +onlyGivenNames t
       first
         | (refine Keeps.cut (t := t) ?_ (fun ht => ?_)
            on_goal 2 => clear_value t
            subst t)
         | skip)
    | with_reducible exact Keeps.refl _ _
    | with_reducible assumption
    | with_reducible refine Keeps.ite ?_ ?_
    | (with_reducible apply setDrawer_keeps; decide)
    | (with_reducible apply message_keeps; decide)
    | split
    | (with_reducible apply Keeps.upd
       all_goals with_reducible first | exact Or.inl (by decide) | exact Or.inr rfl | exact rfl | exact ⟨rfl, rfl⟩ | exact Or.inr ⟨rfl, rfl, rfl⟩ | exact Or.inr ⟨rfl, rfl⟩ | exact Or.inr ⟨rfl, rfl, rfl, rfl⟩ | skip)

theorem requestDomain_keeps (on : Bool) (d : ℕ) (s : State) (hm₀ : Part.among [.pwr] K = true) (h₀ : Keeps K s₀ s) :
    Keeps K s₀ (requestDomain on d s) := by
  refine Keeps.after ?_ hm₀ h₀
  clear hm₀ h₀
  unfold requestDomain
  repeat' first
    | with_reducible exact Keeps.refl _ _
    | (with_reducible apply Keeps.upd
       all_goals with_reducible first | exact Or.inl (by decide) | exact Or.inr rfl | exact rfl | exact ⟨rfl, rfl⟩ | exact Or.inr ⟨rfl, rfl, rfl⟩ | exact Or.inr ⟨rfl, rfl⟩ | exact Or.inr ⟨rfl, rfl, rfl, rfl⟩ | skip)

theorem raiseBoth_keeps (i : ℕ) (s : State) (hm₀ : Part.among [.ports, .sent] K = true) (h₀ : Keeps K s₀ s) :
    Keeps K s₀ (raiseBoth i s) := by
  refine Keeps.after ?_ hm₀ h₀
  clear hm₀ h₀
  unfold raiseBoth
  repeat' first
    | with_reducible exact Keeps.refl _ _
    | (with_reducible apply raise_keeps; decide)

theorem assertFault_keeps (s : State) (hm₀ : Part.among [.ports, .pins, .sent] K = true) (h₀ : Keeps K s₀ s) :
    Keeps K s₀ (assertFault s) := by
  refine Keeps.after ?_ hm₀ h₀
  clear hm₀ h₀
  unfold assertFault
  repeat' first
    | with_reducible exact Keeps.refl _ _
    | with_reducible refine Keeps.ite ?_ ?_
    | (with_reducible apply raiseBoth_keeps; decide)
    | split
    | (with_reducible apply Keeps.upd
       all_goals with_reducible first | exact Or.inl (by decide) | exact Or.inr rfl | exact rfl | exact ⟨rfl, rfl⟩ | exact Or.inr ⟨rfl, rfl, rfl⟩ | exact Or.inr ⟨rfl, rfl⟩ | exact Or.inr ⟨rfl, rfl, rfl, rfl⟩ | skip)

theorem setBase_keeps (n : ℕ) (b : Base) (s : State) (hm₀ : Part.among [.bases] K = true) (h₀ : Keeps K s₀ s) :
    Keeps K s₀ (setBase n b s) := by
  refine Keeps.after ?_ hm₀ h₀
  clear hm₀ h₀
  unfold setBase
  repeat' first
    | with_reducible exact Keeps.refl _ _
    | (with_reducible apply Keeps.upd
       all_goals with_reducible first | exact Or.inl (by decide) | exact Or.inr rfl | exact rfl | exact ⟨rfl, rfl⟩ | exact Or.inr ⟨rfl, rfl, rfl⟩ | exact Or.inr ⟨rfl, rfl⟩ | exact Or.inr ⟨rfl, rfl, rfl, rfl⟩ | skip)

theorem advance_keeps (k : ℕ) (s : State) (hm₀ : Part.among [.bases] K = true) (h₀ : Keeps K s₀ s) :
    Keeps K s₀ (advance k s) := by
  refine Keeps.after ?_ hm₀ h₀
  clear hm₀ h₀
  unfold advance
  repeat' first
    | with_reducible exact Keeps.refl _ _
    | (with_reducible apply setBase_keeps; decide)

theorem advanceFence_keeps (n : ℕ) (k : ℕ) (s : State) (hm₀ : Part.among [.cmp] K = true) (h₀ : Keeps K s₀ s) :
    Keeps K s₀ (advanceFence n k s) := by
  refine Keeps.after ?_ hm₀ h₀
  clear hm₀ h₀
  unfold advanceFence
  repeat' first
    | with_reducible exact Keeps.refl _ _
    | with_reducible refine Keeps.ite ?_ ?_
    | split
    | (with_reducible apply Keeps.upd
       all_goals with_reducible first | exact Or.inl (by decide) | exact Or.inr rfl | exact rfl | exact ⟨rfl, rfl⟩ | exact Or.inr ⟨rfl, rfl, rfl⟩ | exact Or.inr ⟨rfl, rfl⟩ | exact Or.inr ⟨rfl, rfl, rfl, rfl⟩ | skip)

theorem advanceTo_keeps (n : ℕ) (u : ℕ) (s : State) (hm₀ : Part.among [.bases] K = true) (h₀ : Keeps K s₀ s) :
    Keeps K s₀ (advanceTo n u s) := by
  refine Keeps.after ?_ hm₀ h₀
  clear hm₀ h₀
  unfold advanceTo
  repeat' first
    | with_reducible exact Keeps.refl _ _
    | (with_reducible apply advance_keeps; decide)

theorem advanceTo0_keeps (t : ℕ) (s : State) (hm₀ : Part.among [.bases] K = true) (h₀ : Keeps K s₀ s) :
    Keeps K s₀ (advanceTo0 t s) := by
  refine Keeps.after ?_ hm₀ h₀
  clear hm₀ h₀
  unfold advanceTo0
  repeat' first
    | with_reducible exact Keeps.refl _ _
    | (with_reducible apply advanceTo_keeps; decide)

theorem requestDomains_keeps (on : Bool) (ds : List ℕ) (s : State) (hm₀ : Part.among [.pwr] K = true) (h₀ : Keeps K s₀ s) :
    Keeps K s₀ (requestDomains on ds s) := by
  refine Keeps.after ?_ hm₀ h₀
  clear hm₀ h₀
  unfold requestDomains
  repeat' first
    | with_reducible exact Keeps.refl _ _
    | (with_reducible apply Keeps.upd
       all_goals with_reducible first | exact Or.inl (by decide) | exact Or.inr rfl | exact rfl | exact ⟨rfl, rfl⟩ | exact Or.inr ⟨rfl, rfl, rfl⟩ | exact Or.inr ⟨rfl, rfl⟩ | exact Or.inr ⟨rfl, rfl, rfl, rfl⟩ | skip)

theorem takeClass_keeps (p : Port) (n : ℕ) (s : State) (hm₀ : Part.among [.drawers, .walec] K = true) (h₀ : Keeps K s₀ s) :
    Keeps K s₀ (takeClass p n s) := by
  refine Keeps.after ?_ hm₀ h₀
  clear hm₀ h₀
  unfold takeClass
  repeat' first
    | (extract_lets +onlyGivenNames t
       first
         | (refine Keeps.cut (t := t) ?_ (fun ht => ?_)
            on_goal 2 => clear_value t
            subst t)
         | skip)
    | with_reducible exact Keeps.refl _ _
    | with_reducible assumption
    | (with_reducible apply setDrawer_keeps; decide)
    | split
    | (with_reducible apply Keeps.upd
       all_goals with_reducible first | exact Or.inl (by decide) | exact Or.inr rfl | exact rfl | exact ⟨rfl, rfl⟩ | exact Or.inr ⟨rfl, rfl, rfl⟩ | exact Or.inr ⟨rfl, rfl⟩ | exact Or.inr ⟨rfl, rfl, rfl, rfl⟩ | skip)

theorem plan_keeps (f : ℕ) (c : Change) (o : Origin) (s : State) (hm₀ : Part.among [.tim] K = true) (h₀ : Keeps K s₀ s) :
    Keeps K s₀ (plan f c o s) := by
  refine Keeps.after ?_ hm₀ h₀
  clear hm₀ h₀
  unfold plan
  repeat' first
    | with_reducible exact Keeps.refl _ _
    | (with_reducible apply Keeps.upd
       all_goals with_reducible first | exact Or.inl (by decide) | exact Or.inr rfl | exact rfl | exact ⟨rfl, rfl⟩ | exact Or.inr ⟨rfl, rfl, rfl⟩ | exact Or.inr ⟨rfl, rfl⟩ | exact Or.inr ⟨rfl, rfl, rfl, rfl⟩ | skip)

theorem drew_keeps (s : State) (hm₀ : Part.among [.drawn] K = true) (h₀ : Keeps K s₀ s) :
    Keeps K s₀ (drew s) := by
  refine Keeps.after ?_ hm₀ h₀
  clear hm₀ h₀
  unfold drew
  repeat' first
    | with_reducible exact Keeps.refl _ _
    | (with_reducible apply Keeps.upd
       all_goals with_reducible first | exact Or.inl (by decide) | exact Or.inr rfl | exact rfl | exact ⟨rfl, rfl⟩ | exact Or.inr ⟨rfl, rfl, rfl⟩ | exact Or.inr ⟨rfl, rfl⟩ | exact Or.inr ⟨rfl, rfl, rfl, rfl⟩ | skip)

theorem clockEdge_keeps (s : State) (hm₀ : Part.among [.bases] K = true) (h₀ : Keeps K s₀ s) :
    Keeps K s₀ (clockEdge s) := by
  refine Keeps.after ?_ hm₀ h₀
  clear hm₀ h₀
  unfold clockEdge
  repeat' first
    | with_reducible exact Keeps.refl _ _
    | with_reducible refine Keeps.ite ?_ ?_
    | (with_reducible apply advance_keeps; decide)
    | split

theorem releaseSlots_keeps (q : ℕ) (gen : ℕ) (k : ℕ) (s : State) (hm₀ : Part.among [.queues] K = true) (h₀ : Keeps K s₀ s) :
    Keeps K s₀ (releaseSlots q gen k s) := by
  refine Keeps.after ?_ hm₀ h₀
  clear hm₀ h₀
  unfold releaseSlots
  repeat' first
    | (extract_lets +onlyGivenNames t
       first
         | (refine Keeps.cut (t := t) ?_ (fun ht => ?_)
            on_goal 2 => clear_value t
            subst t)
         | skip)
    | with_reducible exact Keeps.refl _ _
    | with_reducible assumption
    | with_reducible refine Keeps.ite ?_ ?_
    | (with_reducible apply setQueue_keeps; decide)
    | split
    | (with_reducible apply Keeps.upd
       all_goals with_reducible first | exact Or.inl (by decide) | exact Or.inr rfl | exact rfl | exact ⟨rfl, rfl⟩ | exact Or.inr ⟨rfl, rfl, rfl⟩ | exact Or.inr ⟨rfl, rfl⟩ | exact Or.inr ⟨rfl, rfl, rfl, rfl⟩ | skip)

theorem settle_keeps (s : State) (hm₀ : Part.among [.ports, .sent] K = true) (h₀ : Keeps K s₀ s) :
    Keeps K s₀ (settle s) := by
  refine Keeps.after ?_ hm₀ h₀
  clear hm₀ h₀
  unfold settle
  repeat' first
    | (extract_lets +onlyGivenNames t
       first
         | (refine Keeps.cut (t := t) ?_ (fun ht => ?_)
            on_goal 2 => clear_value t
            subst t)
         | skip)
    | with_reducible exact Keeps.refl _ _
    | with_reducible assumption
    | with_reducible refine Keeps.ite ?_ ?_
    | (with_reducible apply raiseBoth_keeps; decide)
    | split
    | (with_reducible apply Keeps.upd
       all_goals with_reducible first | exact Or.inl (by decide) | exact Or.inr rfl | exact rfl | exact ⟨rfl, rfl⟩ | exact Or.inr ⟨rfl, rfl, rfl⟩ | exact Or.inr ⟨rfl, rfl⟩ | exact Or.inr ⟨rfl, rfl, rfl, rfl⟩ | skip)

/-- Whatever the command answers keeps everything but these parts. -/
def Out.Keeps (l : List Part) (s : State) (o : Out) : Prop := ∀ t, o = .next t → Machine.Keeps l s t

theorem Out.Keeps.done {l : List Part} {s u : State} (hm : Part.among [.ports, .sent] l = true) (h : Machine.Keeps l s u) : Out.Keeps l s (Machine.done u) := by
  intro t ht
  cases ht
  exact settle_keeps _ hm h

theorem Out.Keeps.cut {l : List Part} {s t : State} {o : Out} (h : Machine.Keeps l s t) (k : Machine.Keeps l s t → Out.Keeps l s o) : Out.Keeps l s o := k h

/-- The frame of a command that answers. -/
theorem Out.Keeps.frame {l : List Part} {s t : State} {o : Out} (h : Out.Keeps l s o) (ht : o = .next t) : SameBut l s t :=
  (h t ht).same

end Sys2Proof.Machine
end

