-- ==== Sys2Proof/Laws/KeepsDram.lean ====
section
/-! SUPPORT. What the operations of Machine/Dram.lean may change: one lemma each, which says that the
parts it does not name, the form of the DRAM, the Bureau's chain and the queue are kept. -/

open Host

set_option linter.unusedTactic false
set_option linter.unreachableTactic false
set_option linter.tactic.unusedName false

namespace Sys2Proof.Machine

variable {K : List Part} {s₀ : State}

theorem setChannel_keeps (c : ℕ) (x : DramChannel) (s : State) (hm₀ : Part.among [.dmc] K = true) (h₀ : Keeps K s₀ s) :
    Keeps K s₀ (setChannel c x s) := by
  refine Keeps.after ?_ hm₀ h₀
  clear hm₀ h₀
  unfold setChannel
  repeat' first
    | with_reducible exact Keeps.refl _ _
    | (with_reducible apply Keeps.upd
       all_goals with_reducible first | exact Or.inl (by decide) | exact Or.inr rfl | exact rfl | exact ⟨rfl, rfl⟩ | exact Or.inr ⟨rfl, rfl, rfl⟩ | exact Or.inr ⟨rfl, rfl⟩ | exact Or.inr ⟨rfl, rfl, rfl, rfl⟩ | skip)

theorem recordErr_keeps (a : ℕ) (requester : ℕ) (kind : ℕ) (site : ℕ) (channel : ℕ) (s : State) (hm₀ : Part.among [.dmc] K = true) (h₀ : Keeps K s₀ s) :
    Keeps K s₀ (recordErr a requester kind site channel s) := by
  refine Keeps.after ?_ hm₀ h₀
  clear hm₀ h₀
  unfold recordErr
  repeat' first
    | with_reducible exact Keeps.refl _ _
    | (with_reducible apply Keeps.upd
       all_goals with_reducible first | exact Or.inl (by decide) | exact Or.inr rfl | exact rfl | exact ⟨rfl, rfl⟩ | exact Or.inr ⟨rfl, rfl, rfl⟩ | exact Or.inr ⟨rfl, rfl⟩ | exact Or.inr ⟨rfl, rfl, rfl, rfl⟩ | skip)

theorem commandError_keeps (a : ℕ) (requester : ℕ) (kind : ℕ) (s : State) (hm₀ : Part.among [.dmc, .bureau] K = true) (h₀ : Keeps K s₀ s) :
    Keeps K s₀ (commandError a requester kind s) := by
  refine Keeps.after ?_ hm₀ h₀
  clear hm₀ h₀
  unfold commandError
  repeat' first
    | (extract_lets +onlyGivenNames t
       first
         | (refine Keeps.cut (t := t) ?_ (fun ht => ?_)
            on_goal 2 => clear_value t
            subst t)
         | skip)
    | with_reducible exact Keeps.refl _ _
    | with_reducible assumption
    | (with_reducible apply recordErr_keeps; decide)
    | (with_reducible apply log_keeps; decide)
    | split
    | (with_reducible apply Keeps.upd
       all_goals with_reducible first | exact Or.inl (by decide) | exact Or.inr rfl | exact rfl | exact ⟨rfl, rfl⟩ | exact Or.inr ⟨rfl, rfl, rfl⟩ | exact Or.inr ⟨rfl, rfl⟩ | exact Or.inr ⟨rfl, rfl, rfl, rfl⟩ | skip)

theorem setSite_keeps (n : ℕ) (x : Site) (s : State) (hm₀ : Part.among [.dmc] K = true) (h₀ : Keeps K s₀ s) :
    Keeps K s₀ (setSite n x s) := by
  refine Keeps.after ?_ hm₀ h₀
  clear hm₀ h₀
  unfold setSite
  repeat' first
    | with_reducible exact Keeps.refl _ _
    | (with_reducible apply Keeps.upd
       all_goals with_reducible first | exact Or.inl (by decide) | exact Or.inr rfl | exact rfl | exact ⟨rfl, rfl⟩ | exact Or.inr ⟨rfl, rfl, rfl⟩ | exact Or.inr ⟨rfl, rfl⟩ | exact Or.inr ⟨rfl, rfl, rfl, rfl⟩ | skip)

theorem countCe_keeps (c : ℕ) (k : ℕ) (s : State) (hm₀ : Part.among [.dmc] K = true) (h₀ : Keeps K s₀ s) :
    Keeps K s₀ (countCe c k s) := by
  refine Keeps.after ?_ hm₀ h₀
  clear hm₀ h₀
  unfold countCe
  repeat' first
    | (extract_lets +onlyGivenNames t
       first
         | (refine Keeps.cut (t := t) ?_ (fun ht => ?_)
            on_goal 2 => clear_value t
            subst t)
         | skip)
    | with_reducible exact Keeps.refl _ _
    | with_reducible assumption
    | with_reducible refine Keeps.ite ?_ ?_
    | with_reducible refine Keeps.ifEvent ?_ ?_
    | (with_reducible apply setSite_keeps; decide)
    | split
    | (with_reducible apply Keeps.upd
       all_goals with_reducible first | exact Or.inl (by decide) | exact Or.inr rfl | exact rfl | exact ⟨rfl, rfl⟩ | exact Or.inr ⟨rfl, rfl, rfl⟩ | exact Or.inr ⟨rfl, rfl⟩ | exact Or.inr ⟨rfl, rfl, rfl, rfl⟩ | skip)

theorem degradeSite_keeps (n : ℕ) (s : State) (hm₀ : Part.among [.dmc] K = true) (h₀ : Keeps K s₀ s) :
    Keeps K s₀ (degradeSite n s) := by
  refine Keeps.after ?_ hm₀ h₀
  clear hm₀ h₀
  unfold degradeSite
  repeat' first
    | (extract_lets +onlyGivenNames t
       first
         | (refine Keeps.cut (t := t) ?_ (fun ht => ?_)
            on_goal 2 => clear_value t
            subst t)
         | skip)
    | with_reducible exact Keeps.refl _ _
    | with_reducible assumption
    | (with_reducible apply setSite_keeps; decide)
    | (with_reducible apply Keeps.upd
       all_goals with_reducible first | exact Or.inl (by decide) | exact Or.inr rfl | exact rfl | exact ⟨rfl, rfl⟩ | exact Or.inr ⟨rfl, rfl, rfl⟩ | exact Or.inr ⟨rfl, rfl⟩ | exact Or.inr ⟨rfl, rfl, rfl, rfl⟩ | skip)

theorem migrationStop_keeps (s : State) (hm₀ : Part.among [.dmc, .ports, .bureau, .pins, .sent] K = true) (h₀ : Keeps K s₀ s) :
    Keeps K s₀ (migrationStop s) := by
  refine Keeps.after ?_ hm₀ h₀
  clear hm₀ h₀
  unfold migrationStop
  repeat' first
    | with_reducible exact Keeps.refl _ _
    | (with_reducible apply log_keeps; decide)
    | (with_reducible apply assertFault_keeps; decide)
    | (with_reducible apply Keeps.upd
       all_goals with_reducible first | exact Or.inl (by decide) | exact Or.inr rfl | exact rfl | exact ⟨rfl, rfl⟩ | exact Or.inr ⟨rfl, rfl, rfl⟩ | exact Or.inr ⟨rfl, rfl⟩ | exact Or.inr ⟨rfl, rfl, rfl, rfl⟩ | skip)

theorem countUe_keeps (a : ℕ) (requester : ℕ) (c : ℕ) (s : State) (hm₀ : Part.among [.dmc, .ports, .bureau, .pins, .sent] K = true) (h₀ : Keeps K s₀ s) :
    Keeps K s₀ (countUe a requester c s) := by
  refine Keeps.after ?_ hm₀ h₀
  clear hm₀ h₀
  unfold countUe
  repeat' first
    | (extract_lets +onlyGivenNames t
       first
         | (refine Keeps.cut (t := t) ?_ (fun ht => ?_)
            on_goal 2 => clear_value t
            subst t)
         | skip)
    | with_reducible exact Keeps.refl _ _
    | with_reducible assumption
    | with_reducible refine Keeps.ite ?_ ?_
    | (with_reducible apply recordErr_keeps; decide)
    | (with_reducible apply setSite_keeps; decide)
    | (with_reducible apply log_keeps; decide)
    | (with_reducible apply degradeSite_keeps; decide)
    | (with_reducible apply migrationStop_keeps; decide)
    | split
    | (with_reducible apply Keeps.upd
       all_goals with_reducible first | exact Or.inl (by decide) | exact Or.inr rfl | exact rfl | exact ⟨rfl, rfl⟩ | exact Or.inr ⟨rfl, rfl, rfl⟩ | exact Or.inr ⟨rfl, rfl⟩ | exact Or.inr ⟨rfl, rfl, rfl, rfl⟩ | skip)

theorem readLine_keeps (requester : ℕ) (a : ℕ) (n : ℕ) (e : Ecc) (s : State) (hm₀ : Part.among [.dmc, .ports, .bureau, .pins, .sent] K = true) (h₀ : Keeps K s₀ s) :
    Keeps K s₀ (readLine requester a n e s).1 := by
  refine Keeps.after ?_ hm₀ h₀
  clear hm₀ h₀
  unfold readLine
  repeat' first
    | (extract_lets +onlyGivenNames t
       first
         | (refine Keeps.cut (t := t) ?_ (fun ht => ?_)
            on_goal 2 => clear_value t
            subst t)
         | skip)
    | with_reducible exact Keeps.refl _ _
    | with_reducible assumption
    | with_reducible refine Keeps.ite ?_ ?_
    | with_reducible refine Keeps.ifEvent ?_ ?_
    | (with_reducible apply commandError_keeps; decide)
    | (with_reducible apply countUe_keeps; decide)
    | (with_reducible apply countCe_keeps; decide)
    | (with_reducible apply recordErr_keeps; decide)
    | split
    | (with_reducible apply Keeps.upd
       all_goals with_reducible first | exact Or.inl (by decide) | exact Or.inr rfl | exact rfl | exact ⟨rfl, rfl⟩ | exact Or.inr ⟨rfl, rfl, rfl⟩ | exact Or.inr ⟨rfl, rfl⟩ | exact Or.inr ⟨rfl, rfl, rfl, rfl⟩ | skip)

theorem noteMarks_keeps (requester : ℕ) (lines : List ℕ) (s : State) (hm₀ : Part.among [.dmc] K = true) (h₀ : Keeps K s₀ s) :
    Keeps K s₀ (noteMarks requester lines s) := by
  refine Keeps.after ?_ hm₀ h₀
  clear hm₀ h₀
  unfold noteMarks
  repeat' first
    | with_reducible exact Keeps.refl _ _
    | with_reducible assumption
    | with_reducible refine Keeps.ite ?_ ?_
    | with_reducible refine Keeps.ifEvent ?_ ?_
    | with_reducible refine Keeps.foldl (fun t x => ?_) ?_
    | (with_reducible apply recordErr_keeps; decide)
    | split
    | (with_reducible apply Keeps.upd
       all_goals with_reducible first | exact Or.inl (by decide) | exact Or.inr rfl | exact rfl | exact ⟨rfl, rfl⟩ | exact Or.inr ⟨rfl, rfl, rfl⟩ | exact Or.inr ⟨rfl, rfl⟩ | exact Or.inr ⟨rfl, rfl, rfl, rfl⟩ | skip)

theorem noteRead_keeps (requester : ℕ) (a : ℕ) (n : ℕ) (s : State) (hm₀ : Part.among [.dmc, .bureau] K = true) (h₀ : Keeps K s₀ s) :
    Keeps K s₀ (noteRead requester a n s) := by
  refine Keeps.after ?_ hm₀ h₀
  clear hm₀ h₀
  unfold noteRead
  repeat' first
    | with_reducible exact Keeps.refl _ _
    | with_reducible assumption
    | with_reducible refine Keeps.ite ?_ ?_
    | with_reducible refine Keeps.ifEvent ?_ ?_
    | (with_reducible apply noteMarks_keeps; decide)
    | (with_reducible apply commandError_keeps; decide)
    | split
    | (with_reducible apply Keeps.upd
       all_goals with_reducible first | exact Or.inl (by decide) | exact Or.inr rfl | exact rfl | exact ⟨rfl, rfl⟩ | exact Or.inr ⟨rfl, rfl, rfl⟩ | exact Or.inr ⟨rfl, rfl⟩ | exact Or.inr ⟨rfl, rfl, rfl, rfl⟩ | skip)

theorem mark_keeps (l : Nat) (s : State) (hm₀ : Part.among [.dram] K = true) (h₀ : Keeps K s₀ s) : Keeps K s₀ (mark l s) := by
  refine Keeps.after (t := s) ⟨fun p hp => ?_, id, id, rfl⟩ hm₀ h₀
  cases p <;> first | exact absurd (by decide) hp | rfl | exact ⟨rfl, rfl⟩ | exact ⟨rfl, rfl, rfl⟩ | exact ⟨rfl, rfl, rfl, rfl⟩

theorem writeLine_keeps (requester : ℕ) (a : ℕ) (b : Bytes) (e : Ecc) (s : State) (hm₀ : Part.among [.dmc, .dram, .ports, .bureau, .pins, .sent] K = true) (h₀ : Keeps K s₀ s) :
    Keeps K s₀ (writeLine requester a b e s) := by
  refine Keeps.after ?_ hm₀ h₀
  clear hm₀ h₀
  unfold writeLine
  repeat' first
    | (extract_lets +onlyGivenNames t
       first
         | (refine Keeps.cut (t := t) ?_ (fun ht => ?_)
            on_goal 2 => clear_value t
            subst t)
         | skip)
    | with_reducible exact Keeps.refl _ _
    | with_reducible assumption
    | with_reducible refine Keeps.ite ?_ ?_
    | with_reducible refine Keeps.ifEvent ?_ ?_
    | (with_reducible apply mark_keeps; decide)
    | (with_reducible apply commandError_keeps; decide)
    | (with_reducible apply countUe_keeps; decide)
    | (with_reducible apply countCe_keeps; decide)
    | (with_reducible apply store_keeps; decide)
    | split
    | (with_reducible apply Keeps.upd
       all_goals with_reducible first | exact Or.inl (by decide) | exact Or.inr rfl | exact rfl | exact ⟨rfl, rfl⟩ | exact Or.inr ⟨rfl, rfl, rfl⟩ | exact Or.inr ⟨rfl, rfl⟩ | exact Or.inr ⟨rfl, rfl, rfl, rfl⟩ | skip)

theorem abortEntry_keeps (h : DramRequest) (s : State) (hm₀ : Part.among [.dmc] K = true) (h₀ : Keeps K s₀ s) :
    Keeps K s₀ (abortEntry h s) := by
  refine Keeps.after ?_ hm₀ h₀
  clear hm₀ h₀
  unfold abortEntry
  repeat' first
    | with_reducible exact Keeps.refl _ _
    | with_reducible assumption
    | with_reducible refine Keeps.ite ?_ ?_
    | with_reducible refine Keeps.ifEvent ?_ ?_
    | with_reducible refine Keeps.foldl (fun t x => ?_) ?_
    | (with_reducible apply setChannel_keeps; decide)
    | split
    | (with_reducible apply Keeps.upd
       all_goals with_reducible first | exact Or.inl (by decide) | exact Or.inr rfl | exact rfl | exact ⟨rfl, rfl⟩ | exact Or.inr ⟨rfl, rfl, rfl⟩ | exact Or.inr ⟨rfl, rfl⟩ | exact Or.inr ⟨rfl, rfl, rfl, rfl⟩ | skip)

theorem countPoisoned_keeps (p : Port) (s : State) (hm₀ : Part.among [.ports] K = true) (h₀ : Keeps K s₀ s) :
    Keeps K s₀ (countPoisoned p s) := by
  refine Keeps.after ?_ hm₀ h₀
  clear hm₀ h₀
  unfold countPoisoned
  repeat' first
    | (extract_lets +onlyGivenNames t
       first
         | (refine Keeps.cut (t := t) ?_ (fun ht => ?_)
            on_goal 2 => clear_value t
            subst t)
         | skip)
    | with_reducible exact Keeps.refl _ _
    | with_reducible assumption
    | (with_reducible apply setPort_keeps; decide)
    | (with_reducible apply Keeps.upd
       all_goals with_reducible first | exact Or.inl (by decide) | exact Or.inr rfl | exact rfl | exact ⟨rfl, rfl⟩ | exact Or.inr ⟨rfl, rfl, rfl⟩ | exact Or.inr ⟨rfl, rfl⟩ | exact Or.inr ⟨rfl, rfl, rfl, rfl⟩ | skip)

theorem readOp_keeps (requester : ℕ) (a : ℕ) (n : ℕ) (es : List Ecc) (s : State) (hm₀ : Part.among [.dmc, .ports, .bureau, .pins, .sent] K = true) (h₀ : Keeps K s₀ s) :
    Keeps K s₀ (readOp requester a n es s).1 := by
  unfold readOp
  refine Keeps.foldlFst (t := (s, [], false)) (fun t x => ?_) h₀
  exact readLine_keeps _ _ _ _ _ hm₀ (Keeps.refl _ _)

theorem serveRequest_keeps (h : DramRequest) (s : State) (hm₀ : Part.among [.dmc, .dram, .ports, .bureau, .pins, .sent] K = true) (h₀ : Keeps K s₀ s) :
    Keeps K s₀ (serveRequest h s) := by
  refine Keeps.after ?_ hm₀ h₀
  clear hm₀ h₀
  unfold serveRequest
  repeat' first
    | (extract_lets +onlyGivenNames t
       first
         | (refine Keeps.cut (t := t) ?_ (fun ht => ?_)
            on_goal 2 => clear_value t
            subst t)
         | skip)
    | with_reducible exact Keeps.refl _ _
    | with_reducible assumption
    | with_reducible refine Keeps.ite ?_ ?_
    | with_reducible refine Keeps.ifEvent ?_ ?_
    | with_reducible refine Keeps.elim ?_ (fun a => ?_)
    | (with_reducible apply countPoisoned_keeps; decide)
    | (with_reducible apply abortEntry_keeps; decide)
    | (with_reducible apply writeLine_keeps; decide)
    | (with_reducible apply readOp_keeps; decide)
    | (with_reducible apply send_keeps; decide)
    | split
    | (with_reducible apply Keeps.upd
       all_goals with_reducible first | exact Or.inl (by decide) | exact Or.inr rfl | exact rfl | exact ⟨rfl, rfl⟩ | exact Or.inr ⟨rfl, rfl, rfl⟩ | exact Or.inr ⟨rfl, rfl⟩ | exact Or.inr ⟨rfl, rfl, rfl, rfl⟩ | skip)

theorem request_keeps (h : DramRequest) (s : State) (hm₀ : Part.among [.dmc, .dram, .ports, .bureau, .pins, .sent] K = true) (h₀ : Keeps K s₀ s) :
    Keeps K s₀ (request h s) := by
  refine Keeps.after ?_ hm₀ h₀
  clear hm₀ h₀
  unfold request
  repeat' first
    | with_reducible exact Keeps.refl _ _
    | with_reducible assumption
    | with_reducible refine Keeps.ite ?_ ?_
    | with_reducible refine Keeps.ifEvent ?_ ?_
    | (with_reducible apply serveRequest_keeps; decide)
    | split
    | (with_reducible apply Keeps.upd
       all_goals with_reducible first | exact Or.inl (by decide) | exact Or.inr rfl | exact rfl | exact ⟨rfl, rfl⟩ | exact Or.inr ⟨rfl, rfl, rfl⟩ | exact Or.inr ⟨rfl, rfl⟩ | exact Or.inr ⟨rfl, rfl, rfl, rfl⟩ | skip)

theorem memWrite_keeps (requester : ℕ) (a : ℕ) (b : Bytes) (s : State) (hm₀ : Part.among [.dmc, .dram, .ports, .bureau, .pins, .sent] K = true) (h₀ : Keeps K s₀ s) :
    Keeps K s₀ (memWrite requester a b s) := by
  refine Keeps.after ?_ hm₀ h₀
  clear hm₀ h₀
  unfold memWrite
  repeat' first
    | with_reducible exact Keeps.refl _ _
    | with_reducible assumption
    | with_reducible refine Keeps.ite ?_ ?_
    | with_reducible refine Keeps.ifEvent ?_ ?_
    | with_reducible refine Keeps.foldl (fun t x => ?_) ?_
    | (with_reducible apply request_keeps; decide)
    | split
    | (with_reducible apply Keeps.upd
       all_goals with_reducible first | exact Or.inl (by decide) | exact Or.inr rfl | exact rfl | exact ⟨rfl, rfl⟩ | exact Or.inr ⟨rfl, rfl, rfl⟩ | exact Or.inr ⟨rfl, rfl⟩ | exact Or.inr ⟨rfl, rfl, rfl, rfl⟩ | skip)

theorem serveDebt_keeps (c : ℕ) (s : State) (hm₀ : Part.among [.dmc, .sent] K = true) (h₀ : Keeps K s₀ s) :
    Keeps K s₀ (serveDebt c s) := by
  refine Keeps.after ?_ hm₀ h₀
  clear hm₀ h₀
  unfold serveDebt
  repeat' first
    | (extract_lets +onlyGivenNames t
       first
         | (refine Keeps.cut (t := t) ?_ (fun ht => ?_)
            on_goal 2 => clear_value t
            subst t)
         | skip)
    | with_reducible exact Keeps.refl _ _
    | with_reducible assumption
    | with_reducible refine Keeps.ite ?_ ?_
    | with_reducible refine Keeps.ifEvent ?_ ?_
    | (with_reducible apply setChannel_keeps; decide)
    | (with_reducible apply sendAll_keeps; decide)
    | split
    | (with_reducible apply Keeps.upd
       all_goals with_reducible first | exact Or.inl (by decide) | exact Or.inr rfl | exact rfl | exact ⟨rfl, rfl⟩ | exact Or.inr ⟨rfl, rfl, rfl⟩ | exact Or.inr ⟨rfl, rfl⟩ | exact Or.inr ⟨rfl, rfl, rfl, rfl⟩ | skip)

theorem beginSelfRefresh_keeps (s : State) (hm₀ : Part.among [.dmc] K = true) (h₀ : Keeps K s₀ s) :
    Keeps K s₀ (beginSelfRefresh s) := by
  refine Keeps.after ?_ hm₀ h₀
  clear hm₀ h₀
  unfold beginSelfRefresh
  repeat' first
    | with_reducible exact Keeps.refl _ _
    | with_reducible refine Keeps.ite ?_ ?_
    | split
    | (with_reducible apply Keeps.upd
       all_goals with_reducible first | exact Or.inl (by decide) | exact Or.inr rfl | exact rfl | exact ⟨rfl, rfl⟩ | exact Or.inr ⟨rfl, rfl, rfl⟩ | exact Or.inr ⟨rfl, rfl⟩ | exact Or.inr ⟨rfl, rfl, rfl, rfl⟩ | skip)

theorem settleEntry_keeps (s : State) (hm₀ : Part.among [.dmc] K = true) (h₀ : Keeps K s₀ s) :
    Keeps K s₀ (settleEntry s) := by
  refine Keeps.after ?_ hm₀ h₀
  clear hm₀ h₀
  unfold settleEntry
  repeat' first
    | with_reducible exact Keeps.refl _ _
    | with_reducible refine Keeps.ite ?_ ?_
    | split
    | (with_reducible apply Keeps.upd
       all_goals with_reducible first | exact Or.inl (by decide) | exact Or.inr rfl | exact rfl | exact ⟨rfl, rfl⟩ | exact Or.inr ⟨rfl, rfl, rfl⟩ | exact Or.inr ⟨rfl, rfl⟩ | exact Or.inr ⟨rfl, rfl, rfl, rfl⟩ | skip)

theorem sleepChannel_keeps (c : ℕ) (s : State) (hm₀ : Part.among [.dmc, .sent] K = true) (h₀ : Keeps K s₀ s) :
    Keeps K s₀ (sleepChannel c s) := by
  refine Keeps.after ?_ hm₀ h₀
  clear hm₀ h₀
  unfold sleepChannel
  repeat' first
    | (extract_lets +onlyGivenNames t
       first
         | (refine Keeps.cut (t := t) ?_ (fun ht => ?_)
            on_goal 2 => clear_value t
            subst t)
         | skip)
    | with_reducible exact Keeps.refl _ _
    | with_reducible assumption
    | with_reducible refine Keeps.ite ?_ ?_
    | with_reducible refine Keeps.ifEvent ?_ ?_
    | (with_reducible apply serveDebt_keeps; decide)
    | (with_reducible apply setChannel_keeps; decide)
    | (with_reducible apply send_keeps; decide)
    | split
    | (with_reducible apply Keeps.upd
       all_goals with_reducible first | exact Or.inl (by decide) | exact Or.inr rfl | exact rfl | exact ⟨rfl, rfl⟩ | exact Or.inr ⟨rfl, rfl, rfl⟩ | exact Or.inr ⟨rfl, rfl⟩ | exact Or.inr ⟨rfl, rfl, rfl, rfl⟩ | skip)

theorem releaseHeld_keeps (s : State) (hm₀ : Part.among [.dmc, .dram, .ports, .bureau, .pins, .sent] K = true) (h₀ : Keeps K s₀ s) :
    Keeps K s₀ (releaseHeld s) := by
  refine Keeps.after ?_ hm₀ h₀
  clear hm₀ h₀
  unfold releaseHeld
  repeat' first
    | with_reducible exact Keeps.refl _ _
    | with_reducible assumption
    | with_reducible refine Keeps.ite ?_ ?_
    | with_reducible refine Keeps.ifEvent ?_ ?_
    | with_reducible refine Keeps.foldl (fun t x => ?_) ?_
    | (with_reducible apply serveRequest_keeps; decide)
    | split
    | (with_reducible apply Keeps.upd
       all_goals with_reducible first | exact Or.inl (by decide) | exact Or.inr rfl | exact rfl | exact ⟨rfl, rfl⟩ | exact Or.inr ⟨rfl, rfl, rfl⟩ | exact Or.inr ⟨rfl, rfl⟩ | exact Or.inr ⟨rfl, rfl, rfl, rfl⟩ | skip)

theorem endRetraining_keeps (s : State) (hm₀ : Part.among [.dmc, .dram, .ports, .bureau, .pins, .sent] K = true) (h₀ : Keeps K s₀ s) :
    Keeps K s₀ (endRetraining s) := by
  refine Keeps.after ?_ hm₀ h₀
  clear hm₀ h₀
  unfold endRetraining
  repeat' first
    | with_reducible exact Keeps.refl _ _
    | with_reducible assumption
    | with_reducible refine Keeps.ite ?_ ?_
    | with_reducible refine Keeps.ifEvent ?_ ?_
    | with_reducible refine Keeps.foldl (fun t x => ?_) ?_
    | (with_reducible apply releaseHeld_keeps; decide)
    | (with_reducible apply setChannel_keeps; decide)
    | split
    | (with_reducible apply Keeps.upd
       all_goals with_reducible first | exact Or.inl (by decide) | exact Or.inr rfl | exact rfl | exact ⟨rfl, rfl⟩ | exact Or.inr ⟨rfl, rfl, rfl⟩ | exact Or.inr ⟨rfl, rfl⟩ | exact Or.inr ⟨rfl, rfl, rfl, rfl⟩ | skip)

theorem enterSelfRefresh_keeps (busy : List ℕ) (s : State) (hm₀ : Part.among [.dmc, .dram, .ports, .bureau, .pins, .sent] K = true) (h₀ : Keeps K s₀ s) :
    Keeps K s₀ (enterSelfRefresh busy s) := by
  refine Keeps.after ?_ hm₀ h₀
  clear hm₀ h₀
  unfold enterSelfRefresh
  repeat' first
    | (extract_lets +onlyGivenNames t
       first
         | (refine Keeps.cut (t := t) ?_ (fun ht => ?_)
            on_goal 2 => clear_value t
            subst t)
         | skip)
    | with_reducible exact Keeps.refl _ _
    | with_reducible assumption
    | with_reducible refine Keeps.ite ?_ ?_
    | with_reducible refine Keeps.ifEvent ?_ ?_
    | with_reducible refine Keeps.foldl (fun t x => ?_) ?_
    | (with_reducible apply endRetraining_keeps; decide)
    | (with_reducible apply settleEntry_keeps; decide)
    | (with_reducible apply sleepChannel_keeps; decide)
    | (with_reducible apply setChannel_keeps; decide)
    | split
    | (with_reducible apply Keeps.upd
       all_goals with_reducible first | exact Or.inl (by decide) | exact Or.inr rfl | exact rfl | exact ⟨rfl, rfl⟩ | exact Or.inr ⟨rfl, rfl, rfl⟩ | exact Or.inr ⟨rfl, rfl⟩ | exact Or.inr ⟨rfl, rfl, rfl, rfl⟩ | skip)

theorem holdSites_keeps (s : State) (hm₀ : Part.among [.dmc, .dram, .ports, .bureau, .pins, .sent] K = true) (h₀ : Keeps K s₀ s) :
    Keeps K s₀ (holdSites s) := by
  refine Keeps.after ?_ hm₀ h₀
  clear hm₀ h₀
  unfold holdSites
  repeat' first
    | with_reducible exact Keeps.refl _ _
    | with_reducible assumption
    | with_reducible refine Keeps.ite ?_ ?_
    | with_reducible refine Keeps.ifEvent ?_ ?_
    | (with_reducible apply enterSelfRefresh_keeps; decide)
    | split
    | (with_reducible apply Keeps.upd
       all_goals with_reducible first | exact Or.inl (by decide) | exact Or.inr rfl | exact rfl | exact ⟨rfl, rfl⟩ | exact Or.inr ⟨rfl, rfl, rfl⟩ | exact Or.inr ⟨rfl, rfl⟩ | exact Or.inr ⟨rfl, rfl, rfl, rfl⟩ | skip)

theorem exitSelfRefresh_keeps (s : State) (hm₀ : Part.among [.dmc, .dram, .ports, .bureau, .pins, .sent] K = true) (h₀ : Keeps K s₀ s) :
    Keeps K s₀ (exitSelfRefresh s) := by
  refine Keeps.after ?_ hm₀ h₀
  clear hm₀ h₀
  unfold exitSelfRefresh
  repeat' first
    | (extract_lets +onlyGivenNames t
       first
         | (refine Keeps.cut (t := t) ?_ (fun ht => ?_)
            on_goal 2 => clear_value t
            subst t)
         | skip)
    | with_reducible exact Keeps.refl _ _
    | with_reducible assumption
    | with_reducible refine Keeps.ite ?_ ?_
    | with_reducible refine Keeps.ifEvent ?_ ?_
    | with_reducible refine Keeps.foldl (fun t x => ?_) ?_
    | (with_reducible apply releaseHeld_keeps; decide)
    | (with_reducible apply setChannel_keeps; decide)
    | (with_reducible apply send_keeps; decide)
    | split
    | (with_reducible apply Keeps.upd
       all_goals with_reducible first | exact Or.inl (by decide) | exact Or.inr rfl | exact rfl | exact ⟨rfl, rfl⟩ | exact Or.inr ⟨rfl, rfl, rfl⟩ | exact Or.inr ⟨rfl, rfl⟩ | exact Or.inr ⟨rfl, rfl, rfl, rfl⟩ | skip)

theorem trackingSlot_keeps (drifted : List ℕ) (s : State) (hm₀ : Part.among [.dmc] K = true) (h₀ : Keeps K s₀ s) :
    Keeps K s₀ (trackingSlot drifted s) := by
  refine Keeps.after ?_ hm₀ h₀
  clear hm₀ h₀
  unfold trackingSlot
  repeat' first
    | with_reducible exact Keeps.refl _ _
    | with_reducible refine Keeps.foldl (fun t x => ?_) ?_
    | (with_reducible apply setChannel_keeps; decide)
    | (with_reducible apply Keeps.upd
       all_goals with_reducible first | exact Or.inl (by decide) | exact Or.inr rfl | exact rfl | exact ⟨rfl, rfl⟩ | exact Or.inr ⟨rfl, rfl, rfl⟩ | exact Or.inr ⟨rfl, rfl⟩ | exact Or.inr ⟨rfl, rfl, rfl, rfl⟩ | skip)

theorem retrainSteps_keeps (s : State) (hm₀ : Part.among [.dmc, .sent] K = true) (h₀ : Keeps K s₀ s) :
    Keeps K s₀ (retrainSteps s) := by
  refine Keeps.after ?_ hm₀ h₀
  clear hm₀ h₀
  unfold retrainSteps
  repeat' first
    | (extract_lets +onlyGivenNames t
       first
         | (refine Keeps.cut (t := t) ?_ (fun ht => ?_)
            on_goal 2 => clear_value t
            subst t)
         | skip)
    | with_reducible exact Keeps.refl _ _
    | with_reducible assumption
    | with_reducible refine Keeps.ite ?_ ?_
    | with_reducible refine Keeps.ifEvent ?_ ?_
    | with_reducible refine Keeps.foldl (fun t x => ?_) ?_
    | (with_reducible apply serveDebt_keeps; decide)
    | (with_reducible apply setChannel_keeps; decide)
    | split
    | (with_reducible apply Keeps.upd
       all_goals with_reducible first | exact Or.inl (by decide) | exact Or.inr rfl | exact rfl | exact ⟨rfl, rfl⟩ | exact Or.inr ⟨rfl, rfl, rfl⟩ | exact Or.inr ⟨rfl, rfl⟩ | exact Or.inr ⟨rfl, rfl, rfl, rfl⟩ | skip)

theorem settleExit_keeps (s : State) (hm₀ : Part.among [.dmc, .dram, .ports, .bureau, .pins, .sent] K = true) (h₀ : Keeps K s₀ s) :
    Keeps K s₀ (settleExit s) := by
  refine Keeps.after ?_ hm₀ h₀
  clear hm₀ h₀
  unfold settleExit
  repeat' first
    | with_reducible exact Keeps.refl _ _
    | with_reducible assumption
    | with_reducible refine Keeps.ite ?_ ?_
    | with_reducible refine Keeps.ifEvent ?_ ?_
    | (with_reducible apply exitSelfRefresh_keeps; decide)
    | split
    | (with_reducible apply Keeps.upd
       all_goals with_reducible first | exact Or.inl (by decide) | exact Or.inr rfl | exact rfl | exact ⟨rfl, rfl⟩ | exact Or.inr ⟨rfl, rfl, rfl⟩ | exact Or.inr ⟨rfl, rfl⟩ | exact Or.inr ⟨rfl, rfl, rfl, rfl⟩ | skip)

theorem migrationComplete_keeps (s : State) (hm₀ : Part.among [.dmc, .bureau, .pwr] K = true) (h₀ : Keeps K s₀ s) :
    Keeps K s₀ (migrationComplete s) := by
  refine Keeps.after ?_ hm₀ h₀
  clear hm₀ h₀
  unfold migrationComplete
  repeat' first
    | (extract_lets +onlyGivenNames t
       first
         | (refine Keeps.cut (t := t) ?_ (fun ht => ?_)
            on_goal 2 => clear_value t
            subst t)
         | skip)
    | with_reducible exact Keeps.refl _ _
    | with_reducible assumption
    | (with_reducible apply setSite_keeps; decide)
    | (with_reducible apply log_keeps; decide)
    | (with_reducible apply requestDomain_keeps; decide)
    | (with_reducible apply Keeps.upd
       all_goals with_reducible first | exact Or.inl (by decide) | exact Or.inr rfl | exact rfl | exact ⟨rfl, rfl⟩ | exact Or.inr ⟨rfl, rfl, rfl⟩ | exact Or.inr ⟨rfl, rfl⟩ | exact Or.inr ⟨rfl, rfl, rfl, rfl⟩ | skip)

theorem moveChunk_keeps (reads : List (ℕ × Ecc)) (s : State) (hm₀ : Part.among [.dmc, .dram, .ports, .bureau, .pins, .sent] K = true) (h₀ : Keeps K s₀ s) :
    Keeps K s₀ (moveChunk reads s) := by
  refine Keeps.after ?_ hm₀ h₀
  clear hm₀ h₀
  unfold moveChunk
  repeat' first
    | (extract_lets +onlyGivenNames t
       first
         | (refine Keeps.cut (t := t) ?_ (fun ht => ?_)
            on_goal 2 => clear_value t
            subst t)
         | skip)
    | with_reducible exact Keeps.refl _ _
    | with_reducible assumption
    | with_reducible refine Keeps.ite ?_ ?_
    | with_reducible refine Keeps.ifEvent ?_ ?_
    | with_reducible refine Keeps.foldl (fun t x => ?_) ?_
    | (with_reducible apply noteMarks_keeps; decide)
    | (with_reducible apply mark_keeps; decide)
    | (with_reducible apply countUe_keeps; decide)
    | (with_reducible apply countCe_keeps; decide)
    | split
    | (with_reducible apply Keeps.upd
       all_goals with_reducible first | exact Or.inl (by decide) | exact Or.inr rfl | exact rfl | exact ⟨rfl, rfl⟩ | exact Or.inr ⟨rfl, rfl, rfl⟩ | exact Or.inr ⟨rfl, rfl⟩ | exact Or.inr ⟨rfl, rfl, rfl, rfl⟩ | skip)

theorem siteDomainsOn_keeps (s : State) (hm₀ : Part.among [.clk, .pwr] K = true) (h₀ : Keeps K s₀ s) :
    Keeps K s₀ (siteDomainsOn s) := by
  refine Keeps.after ?_ hm₀ h₀
  clear hm₀ h₀
  unfold siteDomainsOn
  repeat' first
    | (extract_lets +onlyGivenNames t
       first
         | (refine Keeps.cut (t := t) ?_ (fun ht => ?_)
            on_goal 2 => clear_value t
            subst t)
         | skip)
    | with_reducible exact Keeps.refl _ _
    | with_reducible assumption
    | with_reducible refine Keeps.ite ?_ ?_
    | with_reducible refine Keeps.foldl (fun t x => ?_) ?_
    | split
    | (with_reducible apply Keeps.upd
       all_goals with_reducible first | exact Or.inl (by decide) | exact Or.inr rfl | exact rfl | exact ⟨rfl, rfl⟩ | exact Or.inr ⟨rfl, rfl, rfl⟩ | exact Or.inr ⟨rfl, rfl⟩ | exact Or.inr ⟨rfl, rfl, rfl, rfl⟩ | skip)

theorem ringPut_keeps (c : Queue) (a : ℕ) (b : Bytes) (s : State) (hm₀ : Part.among [.dmc, .dram, .ports, .bureau, .pins, .sent] K = true) (h₀ : Keeps K s₀ s) :
    Keeps K s₀ (ringPut c a b s) := by
  refine Keeps.after ?_ hm₀ h₀
  clear hm₀ h₀
  unfold ringPut
  repeat' first
    | with_reducible exact Keeps.refl _ _
    | with_reducible assumption
    | with_reducible refine Keeps.ite ?_ ?_
    | with_reducible refine Keeps.ifEvent ?_ ?_
    | (with_reducible apply memWrite_keeps; decide)
    | (with_reducible apply hostSend_keeps; decide)
    | split
    | (with_reducible apply Keeps.upd
       all_goals with_reducible first | exact Or.inl (by decide) | exact Or.inr rfl | exact rfl | exact ⟨rfl, rfl⟩ | exact Or.inr ⟨rfl, rfl, rfl⟩ | exact Or.inr ⟨rfl, rfl⟩ | exact Or.inr ⟨rfl, rfl, rfl, rfl⟩ | skip)

theorem ringWrite_keeps (c : Queue) (a : ℕ) (b : Bytes) (s : State) (hm₀ : Part.among [.dmc, .dram, .ports, .bureau, .pins, .sent] K = true) (h₀ : Keeps K s₀ s) :
    Keeps K s₀ (ringWrite c a b s) := by
  refine Keeps.after ?_ hm₀ h₀
  clear hm₀ h₀
  unfold ringWrite
  repeat' first
    | with_reducible exact Keeps.refl _ _
    | with_reducible assumption
    | with_reducible refine Keeps.ite ?_ ?_
    | with_reducible refine Keeps.ifEvent ?_ ?_
    | (with_reducible apply ringPut_keeps; decide)
    | split
    | (with_reducible apply Keeps.upd
       all_goals with_reducible first | exact Or.inl (by decide) | exact Or.inr rfl | exact rfl | exact ⟨rfl, rfl⟩ | exact Or.inr ⟨rfl, rfl, rfl⟩ | exact Or.inr ⟨rfl, rfl⟩ | exact Or.inr ⟨rfl, rfl, rfl, rfl⟩ | skip)

theorem complete_keeps (q : ℕ) (sqSlot : ℕ) (gen : ℕ) (record : ℕ) (body : Bytes) (release : ℕ) (s : State) (hm₀ : Part.among [.dmc, .dram, .ports, .queues, .bureau, .pins, .sent] K = true) (h₀ : Keeps K s₀ s) :
    Keeps K s₀ (complete q sqSlot gen record body release s) := by
  refine Keeps.after ?_ hm₀ h₀
  clear hm₀ h₀
  unfold complete
  repeat' first
    | (extract_lets +onlyGivenNames t
       first
         | (refine Keeps.cut (t := t) ?_ (fun ht => ?_)
            on_goal 2 => clear_value t
            subst t)
         | skip)
    | with_reducible exact Keeps.refl _ _
    | with_reducible assumption
    | with_reducible refine Keeps.ite ?_ ?_
    | with_reducible refine Keeps.ifEvent ?_ ?_
    | (with_reducible apply ringWrite_keeps; decide)
    | (with_reducible apply setQueue_keeps; decide)
    | (with_reducible apply message_keeps; decide)
    | (with_reducible apply setPort_keeps; decide)
    | split
    | (with_reducible apply Keeps.upd
       all_goals with_reducible first | exact Or.inl (by decide) | exact Or.inr rfl | exact rfl | exact ⟨rfl, rfl⟩ | exact Or.inr ⟨rfl, rfl, rfl⟩ | exact Or.inr ⟨rfl, rfl⟩ | exact Or.inr ⟨rfl, rfl, rfl, rfl⟩ | skip)

theorem internalJob_keeps (source : ℕ) (made : ℕ) (s : State) (hm₀ : Part.among [.dfl] K = true) (h₀ : Keeps K s₀ s) :
    Keeps K s₀ (internalJob source made s) := by
  refine Keeps.after ?_ hm₀ h₀
  clear hm₀ h₀
  unfold internalJob
  repeat' first
    | with_reducible exact Keeps.refl _ _
    | with_reducible assumption
    | with_reducible refine Keeps.ite ?_ ?_
    | with_reducible refine Keeps.ifEvent ?_ ?_
    | split
    | (with_reducible apply Keeps.upd
       all_goals with_reducible first | exact Or.inl (by decide) | exact Or.inr rfl | exact rfl | exact ⟨rfl, rfl⟩ | exact Or.inr ⟨rfl, rfl, rfl⟩ | exact Or.inr ⟨rfl, rfl⟩ | exact Or.inr ⟨rfl, rfl, rfl, rfl⟩ | skip)

/-! ### Commands -/

theorem execCeHourEval_keeps (s : State) : Out.Keeps [.dmc, .ports, .sent] s (execCeHourEval s) := by
  unfold execCeHourEval
  repeat' first
    | (extract_lets +onlyGivenNames t
       first
         | (refine Out.Keeps.cut (t := t) ?_ (fun ht => ?_)
            on_goal 2 => clear_value t
            subst t)
         | (refine Keeps.cut (t := t) ?_ (fun ht => ?_)
            on_goal 2 => clear_value t
            subst t)
         | skip)
    | with_reducible exact Keeps.refl _ _
    | with_reducible assumption
    | with_reducible refine Out.Keeps.done (by decide) ?_
    | with_reducible refine Keeps.ite ?_ ?_
    | with_reducible refine Keeps.ifEvent ?_ ?_
    | with_reducible refine Keeps.foldl (fun t x => ?_) ?_
    | with_reducible refine Keeps.elim ?_ (fun a => ?_)
    | (with_reducible apply setSite_keeps; decide)
    | (with_reducible apply degradeSite_keeps; decide)
    | split
    | (with_reducible apply Keeps.upd
       all_goals with_reducible first | exact Or.inl (by decide) | exact Or.inr rfl | exact rfl | exact ⟨rfl, rfl⟩ | exact Or.inr ⟨rfl, rfl, rfl⟩ | exact Or.inr ⟨rfl, rfl⟩ | exact Or.inr ⟨rfl, rfl, rfl, rfl⟩ | skip)

theorem execDramErrorSummary_keeps (s : State) : Out.Keeps [.dmc, .ports, .bureau, .sent] s (execDramErrorSummary s) := by
  unfold execDramErrorSummary
  repeat' first
    | (extract_lets +onlyGivenNames t
       first
         | (refine Out.Keeps.cut (t := t) ?_ (fun ht => ?_)
            on_goal 2 => clear_value t
            subst t)
         | (refine Keeps.cut (t := t) ?_ (fun ht => ?_)
            on_goal 2 => clear_value t
            subst t)
         | skip)
    | with_reducible exact Keeps.refl _ _
    | with_reducible assumption
    | with_reducible refine Out.Keeps.done (by decide) ?_
    | with_reducible refine Keeps.ite ?_ ?_
    | with_reducible refine Keeps.ifEvent ?_ ?_
    | with_reducible refine Keeps.foldl (fun t x => ?_) ?_
    | with_reducible refine Keeps.elim ?_ (fun a => ?_)
    | (with_reducible apply setSite_keeps; decide)
    | (with_reducible apply logEntry_keeps; decide)
    | split
    | (with_reducible apply Keeps.upd
       all_goals with_reducible first | exact Or.inl (by decide) | exact Or.inr rfl | exact rfl | exact ⟨rfl, rfl⟩ | exact Or.inr ⟨rfl, rfl, rfl⟩ | exact Or.inr ⟨rfl, rfl⟩ | exact Or.inr ⟨rfl, rfl, rfl, rfl⟩ | skip)

theorem execDramInit_keeps (answered : List ℕ) (good : List ℕ) (s : State) : Out.Keeps [.dmc, .dram, .ports, .bureau, .clk, .pwr, .pins, .sent] s (execDramInit answered good s) := by
  unfold execDramInit
  extract_lets t
  refine Out.Keeps.done (by decide) ?_
  have hm : t.dmc.mem = [] := by
    simp only [t, initDmc]
    split <;> rfl
  have ht : Keeps [.dmc, .dram, .ports, .bureau, .clk, .pwr, .pins, .sent] s t := ⟨fun p hp => by cases p <;> first | exact absurd (by decide) hp | simp [Part.same, t], fun _ => by show Memory.wf t.dmc.mem = true; rw [hm]; rfl, fun h => h, rfl⟩
  clear_value t
  refine Keeps.ifEvent (Keeps.ite ?_ ?_) (Keeps.refl _ _)
  · exact assertFault_keeps _ (by decide) ht
  · exact releaseHeld_keeps _ (by decide) (siteDomainsOn_keeps _ (by decide) ht)

theorem execDramRead_keeps (requester : ℕ) (addr : ℕ) (len : ℕ) (ecc : Ecc) (s : State) : Out.Keeps [.dmc, .dram, .ports, .bureau, .pins, .sent] s (execDramRead requester addr len ecc s) := by
  unfold execDramRead
  repeat' first
    | (extract_lets +onlyGivenNames t
       first
         | (refine Out.Keeps.cut (t := t) ?_ (fun ht => ?_)
            on_goal 2 => clear_value t
            subst t)
         | (refine Keeps.cut (t := t) ?_ (fun ht => ?_)
            on_goal 2 => clear_value t
            subst t)
         | skip)
    | with_reducible exact Keeps.refl _ _
    | with_reducible assumption
    | with_reducible refine Out.Keeps.done (by decide) ?_
    | with_reducible refine Keeps.ite ?_ ?_
    | with_reducible refine Keeps.ifEvent ?_ ?_
    | with_reducible refine Keeps.foldl (fun t x => ?_) ?_
    | with_reducible refine Keeps.elim ?_ (fun a => ?_)
    | (with_reducible apply request_keeps; decide)
    | split
    | (with_reducible apply Keeps.upd
       all_goals with_reducible first | exact Or.inl (by decide) | exact Or.inr rfl | exact rfl | exact ⟨rfl, rfl⟩ | exact Or.inr ⟨rfl, rfl, rfl⟩ | exact Or.inr ⟨rfl, rfl⟩ | exact Or.inr ⟨rfl, rfl, rfl, rfl⟩ | skip)

theorem execDramWrite_keeps (requester : ℕ) (addr : ℕ) (data : Bytes) (ecc : Ecc) (s : State) : Out.Keeps [.dmc, .dram, .ports, .bureau, .pins, .sent] s (execDramWrite requester addr data ecc s) := by
  unfold execDramWrite
  repeat' first
    | (extract_lets +onlyGivenNames t
       first
         | (refine Out.Keeps.cut (t := t) ?_ (fun ht => ?_)
            on_goal 2 => clear_value t
            subst t)
         | (refine Keeps.cut (t := t) ?_ (fun ht => ?_)
            on_goal 2 => clear_value t
            subst t)
         | skip)
    | with_reducible exact Keeps.refl _ _
    | with_reducible assumption
    | with_reducible refine Out.Keeps.done (by decide) ?_
    | with_reducible refine Keeps.ite ?_ ?_
    | with_reducible refine Keeps.ifEvent ?_ ?_
    | with_reducible refine Keeps.foldl (fun t x => ?_) ?_
    | with_reducible refine Keeps.elim ?_ (fun a => ?_)
    | (with_reducible apply request_keeps; decide)
    | split
    | (with_reducible apply Keeps.upd
       all_goals with_reducible first | exact Or.inl (by decide) | exact Or.inr rfl | exact rfl | exact ⟨rfl, rfl⟩ | exact Or.inr ⟨rfl, rfl, rfl⟩ | exact Or.inr ⟨rfl, rfl⟩ | exact Or.inr ⟨rfl, rfl, rfl, rfl⟩ | skip)

theorem execMigrationChunk_keeps (reads : List (ℕ × Ecc)) (targetBad : Option ℕ) (s : State) : Out.Keeps [.dmc, .dram, .ports, .bureau, .pwr, .pins, .sent] s (execMigrationChunk reads targetBad s) := by
  unfold execMigrationChunk
  repeat' first
    | (extract_lets +onlyGivenNames t
       first
         | (refine Out.Keeps.cut (t := t) ?_ (fun ht => ?_)
            on_goal 2 => clear_value t
            subst t)
         | (refine Keeps.cut (t := t) ?_ (fun ht => ?_)
            on_goal 2 => clear_value t
            subst t)
         | skip)
    | with_reducible exact Keeps.refl _ _
    | with_reducible assumption
    | with_reducible refine Out.Keeps.done (by decide) ?_
    | with_reducible refine Keeps.ite ?_ ?_
    | with_reducible refine Keeps.ifEvent ?_ ?_
    | with_reducible refine Keeps.foldl (fun t x => ?_) ?_
    | with_reducible refine Keeps.elim ?_ (fun a => ?_)
    | (with_reducible apply moveChunk_keeps; decide)
    | (with_reducible apply migrationComplete_keeps; decide)
    | (with_reducible apply releaseHeld_keeps; decide)
    | (with_reducible apply countUe_keeps; decide)
    | split
    | (with_reducible apply Keeps.upd
       all_goals with_reducible first | exact Or.inl (by decide) | exact Or.inr rfl | exact rfl | exact ⟨rfl, rfl⟩ | exact Or.inr ⟨rfl, rfl, rfl⟩ | exact Or.inr ⟨rfl, rfl⟩ | exact Or.inr ⟨rfl, rfl, rfl, rfl⟩ | skip)

theorem execPatrolScrub_keeps (line : ℕ) (ecc : Ecc) (s : State) : Out.Keeps [.dmc, .dram, .ports, .bureau, .pins, .sent] s (execPatrolScrub line ecc s) := by
  unfold execPatrolScrub
  repeat' first
    | (extract_lets +onlyGivenNames t
       first
         | (refine Out.Keeps.cut (t := t) ?_ (fun ht => ?_)
            on_goal 2 => clear_value t
            subst t)
         | (refine Keeps.cut (t := t) ?_ (fun ht => ?_)
            on_goal 2 => clear_value t
            subst t)
         | skip)
    | with_reducible exact Keeps.refl _ _
    | with_reducible assumption
    | with_reducible refine Out.Keeps.done (by decide) ?_
    | with_reducible refine Keeps.ite ?_ ?_
    | with_reducible refine Keeps.ifEvent ?_ ?_
    | with_reducible refine Keeps.foldl (fun t x => ?_) ?_
    | with_reducible refine Keeps.elim ?_ (fun a => ?_)
    | (with_reducible apply readLine_keeps; decide)
    | (with_reducible apply mark_keeps; decide)
    | split
    | (with_reducible apply Keeps.upd
       all_goals with_reducible first | exact Or.inl (by decide) | exact Or.inr rfl | exact rfl | exact ⟨rfl, rfl⟩ | exact Or.inr ⟨rfl, rfl, rfl⟩ | exact Or.inr ⟨rfl, rfl⟩ | exact Or.inr ⟨rfl, rfl, rfl, rfl⟩ | skip)

theorem execRefreshIssue_keeps (channel : ℕ) (pairIdle : Bool) (s : State) : Out.Keeps [.dmc, .ports, .sent] s (execRefreshIssue channel pairIdle s) := by
  unfold execRefreshIssue
  repeat' first
    | (extract_lets +onlyGivenNames t
       first
         | (refine Out.Keeps.cut (t := t) ?_ (fun ht => ?_)
            on_goal 2 => clear_value t
            subst t)
         | (refine Keeps.cut (t := t) ?_ (fun ht => ?_)
            on_goal 2 => clear_value t
            subst t)
         | skip)
    | with_reducible exact Keeps.refl _ _
    | with_reducible assumption
    | with_reducible refine Out.Keeps.done (by decide) ?_
    | with_reducible refine Keeps.ite ?_ ?_
    | with_reducible refine Keeps.ifEvent ?_ ?_
    | with_reducible refine Keeps.foldl (fun t x => ?_) ?_
    | with_reducible refine Keeps.elim ?_ (fun a => ?_)
    | (with_reducible apply send_keeps; decide)
    | (with_reducible apply setChannel_keeps; decide)
    | split
    | (with_reducible apply Keeps.upd
       all_goals with_reducible first | exact Or.inl (by decide) | exact Or.inr rfl | exact rfl | exact ⟨rfl, rfl⟩ | exact Or.inr ⟨rfl, rfl, rfl⟩ | exact Or.inr ⟨rfl, rfl⟩ | exact Or.inr ⟨rfl, rfl, rfl, rfl⟩ | skip)

theorem execRefreshTick_keeps (channel : ℕ) (s : State) : Out.Keeps [.dmc, .ports, .sent] s (execRefreshTick channel s) := by
  unfold execRefreshTick
  repeat' first
    | (extract_lets +onlyGivenNames t
       first
         | (refine Out.Keeps.cut (t := t) ?_ (fun ht => ?_)
            on_goal 2 => clear_value t
            subst t)
         | (refine Keeps.cut (t := t) ?_ (fun ht => ?_)
            on_goal 2 => clear_value t
            subst t)
         | skip)
    | with_reducible exact Keeps.refl _ _
    | with_reducible assumption
    | with_reducible refine Out.Keeps.done (by decide) ?_
    | with_reducible refine Keeps.ite ?_ ?_
    | with_reducible refine Keeps.ifEvent ?_ ?_
    | with_reducible refine Keeps.foldl (fun t x => ?_) ?_
    | with_reducible refine Keeps.elim ?_ (fun a => ?_)
    | (with_reducible apply setChannel_keeps; decide)
    | split
    | (with_reducible apply Keeps.upd
       all_goals with_reducible first | exact Or.inl (by decide) | exact Or.inr rfl | exact rfl | exact ⟨rfl, rfl⟩ | exact Or.inr ⟨rfl, rfl, rfl⟩ | exact Or.inr ⟨rfl, rfl⟩ | exact Or.inr ⟨rfl, rfl, rfl, rfl⟩ | skip)

theorem execRetrainComplete_keeps (channel : ℕ) (ok : Bool) (s : State) : Out.Keeps [.dmc, .dram, .ports, .bureau, .pins, .sent] s (execRetrainComplete channel ok s) := by
  unfold execRetrainComplete
  repeat' first
    | (extract_lets +onlyGivenNames t
       first
         | (refine Out.Keeps.cut (t := t) ?_ (fun ht => ?_)
            on_goal 2 => clear_value t
            subst t)
         | (refine Keeps.cut (t := t) ?_ (fun ht => ?_)
            on_goal 2 => clear_value t
            subst t)
         | skip)
    | with_reducible exact Keeps.refl _ _
    | with_reducible assumption
    | with_reducible refine Out.Keeps.done (by decide) ?_
    | with_reducible refine Keeps.ite ?_ ?_
    | with_reducible refine Keeps.ifEvent ?_ ?_
    | with_reducible refine Keeps.foldl (fun t x => ?_) ?_
    | with_reducible refine Keeps.elim ?_ (fun a => ?_)
    | (with_reducible apply setChannel_keeps; decide)
    | (with_reducible apply setSite_keeps; decide)
    | (with_reducible apply degradeSite_keeps; decide)
    | (with_reducible apply migrationStop_keeps; decide)
    | (with_reducible apply releaseHeld_keeps; decide)
    | split
    | (with_reducible apply Keeps.upd
       all_goals with_reducible first | exact Or.inl (by decide) | exact Or.inr rfl | exact rfl | exact ⟨rfl, rfl⟩ | exact Or.inr ⟨rfl, rfl, rfl⟩ | exact Or.inr ⟨rfl, rfl⟩ | exact Or.inr ⟨rfl, rfl, rfl, rfl⟩ | skip)

theorem execSelfRefreshEntry_keeps (busy : List ℕ) (s : State) : Out.Keeps [.dmc, .dram, .ports, .bureau, .pins, .sent] s (execSelfRefreshEntry busy s) := by
  unfold execSelfRefreshEntry
  repeat' first
    | (extract_lets +onlyGivenNames t
       first
         | (refine Out.Keeps.cut (t := t) ?_ (fun ht => ?_)
            on_goal 2 => clear_value t
            subst t)
         | (refine Keeps.cut (t := t) ?_ (fun ht => ?_)
            on_goal 2 => clear_value t
            subst t)
         | skip)
    | with_reducible exact Keeps.refl _ _
    | with_reducible assumption
    | with_reducible refine Out.Keeps.done (by decide) ?_
    | with_reducible refine Keeps.ite ?_ ?_
    | with_reducible refine Keeps.ifEvent ?_ ?_
    | with_reducible refine Keeps.foldl (fun t x => ?_) ?_
    | with_reducible refine Keeps.elim ?_ (fun a => ?_)
    | (with_reducible apply enterSelfRefresh_keeps; decide)
    | split
    | (with_reducible apply Keeps.upd
       all_goals with_reducible first | exact Or.inl (by decide) | exact Or.inr rfl | exact rfl | exact ⟨rfl, rfl⟩ | exact Or.inr ⟨rfl, rfl, rfl⟩ | exact Or.inr ⟨rfl, rfl⟩ | exact Or.inr ⟨rfl, rfl, rfl, rfl⟩ | skip)

theorem execSelfRefreshExit_keeps (s : State) : Out.Keeps [.dmc, .dram, .ports, .bureau, .pwr, .pins, .sent] s (execSelfRefreshExit s) := by
  unfold execSelfRefreshExit
  repeat' first
    | (extract_lets +onlyGivenNames t
       first
         | (refine Out.Keeps.cut (t := t) ?_ (fun ht => ?_)
            on_goal 2 => clear_value t
            subst t)
         | (refine Keeps.cut (t := t) ?_ (fun ht => ?_)
            on_goal 2 => clear_value t
            subst t)
         | skip)
    | with_reducible exact Keeps.refl _ _
    | with_reducible assumption
    | with_reducible refine Out.Keeps.done (by decide) ?_
    | with_reducible refine Keeps.ite ?_ ?_
    | with_reducible refine Keeps.ifEvent ?_ ?_
    | with_reducible refine Keeps.foldl (fun t x => ?_) ?_
    | with_reducible refine Keeps.elim ?_ (fun a => ?_)
    | (with_reducible apply settleExit_keeps; decide)
    | (with_reducible apply requestDomains_keeps; decide)
    | split
    | (with_reducible apply Keeps.upd
       all_goals with_reducible first | exact Or.inl (by decide) | exact Or.inr rfl | exact rfl | exact ⟨rfl, rfl⟩ | exact Or.inr ⟨rfl, rfl, rfl⟩ | exact Or.inr ⟨rfl, rfl⟩ | exact Or.inr ⟨rfl, rfl, rfl, rfl⟩ | skip)

theorem execSelfRefreshRetry_keeps (channel : ℕ) (s : State) : Out.Keeps [.bases, .dmc, .ports, .sent] s (execSelfRefreshRetry channel s) := by
  unfold execSelfRefreshRetry
  repeat' first
    | (extract_lets +onlyGivenNames t
       first
         | (refine Out.Keeps.cut (t := t) ?_ (fun ht => ?_)
            on_goal 2 => clear_value t
            subst t)
         | (refine Keeps.cut (t := t) ?_ (fun ht => ?_)
            on_goal 2 => clear_value t
            subst t)
         | skip)
    | with_reducible exact Keeps.refl _ _
    | with_reducible assumption
    | with_reducible refine Out.Keeps.done (by decide) ?_
    | with_reducible refine Keeps.ite ?_ ?_
    | with_reducible refine Keeps.ifEvent ?_ ?_
    | with_reducible refine Keeps.foldl (fun t x => ?_) ?_
    | with_reducible refine Keeps.elim ?_ (fun a => ?_)
    | (with_reducible apply settleEntry_keeps; decide)
    | (with_reducible apply sleepChannel_keeps; decide)
    | (with_reducible apply advanceTo0_keeps; decide)
    | split
    | (with_reducible apply Keeps.upd
       all_goals with_reducible first | exact Or.inl (by decide) | exact Or.inr rfl | exact rfl | exact ⟨rfl, rfl⟩ | exact Or.inr ⟨rfl, rfl, rfl⟩ | exact Or.inr ⟨rfl, rfl⟩ | exact Or.inr ⟨rfl, rfl, rfl, rfl⟩ | skip)

end Sys2Proof.Machine
end

