-- ==== Sys2Proof/Laws/KeepsDeflate.lean ====
section
/-! SUPPORT. What the operations of Machine/Deflate.lean may change: one lemma each, which says that the
parts it does not name, the form of the DRAM, the Bureau's chain and the queue are kept. -/

open Host

set_option linter.unusedTactic false
set_option linter.unreachableTactic false
set_option linter.tactic.unusedName false

namespace Sys2Proof.Machine

variable {K : List Part} {s₀ : State}

theorem setDflSlot_keeps (k : ℕ) (x : Slot) (s : State) (hm₀ : Part.among [.dfl] K = true) (h₀ : Keeps K s₀ s) :
    Keeps K s₀ (setDflSlot k x s) := by
  refine Keeps.after ?_ hm₀ h₀
  clear hm₀ h₀
  unfold setDflSlot
  repeat' first
    | with_reducible exact Keeps.refl _ _
    | (with_reducible apply Keeps.upd
       all_goals with_reducible first | exact Or.inl (by decide) | exact Or.inr rfl | exact rfl | exact ⟨rfl, rfl⟩ | exact Or.inr ⟨rfl, rfl, rfl⟩ | exact Or.inr ⟨rfl, rfl⟩ | exact Or.inr ⟨rfl, rfl, rfl, rfl⟩ | skip)

theorem endDfl_keeps (lane : ℕ) (j : DflJob) (r : DflResult) (s : State) (hm₀ : Part.among [.cmp, .dfl, .dmc, .dram, .ports, .queues, .bureau, .pins, .sent] K = true) (h₀ : Keeps K s₀ s) :
    Keeps K s₀ (endDfl lane j r s) := by
  refine Keeps.after ?_ hm₀ h₀
  clear hm₀ h₀
  unfold endDfl
  repeat' first
    | (extract_lets +onlyGivenNames t
       first
         | (refine Keeps.cut (t := t) ?_ (fun ht => ?_)
            on_goal 2 => clear_value t
            subst t)
         | skip)
    | with_reducible exact Keeps.refl _ _
    | with_reducible assumption
    | with_reducible refine Keeps.ite ?_ ?_
    | with_reducible refine Keeps.ifEvent ?_ ?_
    | (with_reducible apply setDflSlot_keeps; decide)
    | (with_reducible apply complete_keeps; decide)
    | (with_reducible apply noteMarks_keeps; decide)
    | (with_reducible apply advanceFence_keeps; decide)
    | (with_reducible apply rewritten_keeps; decide)
    | (with_reducible apply store_keeps; decide)
    | split
    | (with_reducible apply Keeps.upd
       all_goals with_reducible first | exact Or.inl (by decide) | exact Or.inr rfl | exact rfl | exact ⟨rfl, rfl⟩ | exact Or.inr ⟨rfl, rfl, rfl⟩ | exact Or.inr ⟨rfl, rfl⟩ | exact Or.inr ⟨rfl, rfl, rfl, rfl⟩ | skip)

theorem faultDfl_keeps (s : State) (lj : ℕ × DflJob) (hm₀ : Part.among [.cmp, .dfl, .dmc, .dram, .ports, .queues, .bureau, .pins, .sent, .drawn] K = true) (h₀ : Keeps K s₀ s) :
    Keeps K s₀ (faultDfl s lj) := by
  refine Keeps.after ?_ hm₀ h₀
  clear hm₀ h₀
  unfold faultDfl
  repeat' first
    | (extract_lets +onlyGivenNames t
       first
         | (refine Keeps.cut (t := t) ?_ (fun ht => ?_)
            on_goal 2 => clear_value t
            subst t)
         | skip)
    | with_reducible exact Keeps.refl _ _
    | with_reducible assumption
    | with_reducible refine Keeps.ite ?_ ?_
    | with_reducible refine Keeps.ifEvent ?_ ?_
    | (with_reducible apply endDfl_keeps; decide)
    | (with_reducible apply drew_keeps; decide)
    | split
    | (with_reducible apply Keeps.upd
       all_goals with_reducible first | exact Or.inl (by decide) | exact Or.inr rfl | exact rfl | exact ⟨rfl, rfl⟩ | exact Or.inr ⟨rfl, rfl, rfl⟩ | exact Or.inr ⟨rfl, rfl⟩ | exact Or.inr ⟨rfl, rfl, rfl, rfl⟩ | skip)

theorem startDfl_keeps (q : ℕ) (lane : ℕ) (f : Fetched) (host : Option Bytes) (s : State) (hm₀ : Part.among [.dfl, .dmc, .queues, .bureau] K = true) (h₀ : Keeps K s₀ s) :
    Keeps K s₀ (startDfl q lane f host s) := by
  refine Keeps.after ?_ hm₀ h₀
  clear hm₀ h₀
  unfold startDfl
  repeat' first
    | (extract_lets +onlyGivenNames t
       first
         | (refine Keeps.cut (t := t) ?_ (fun ht => ?_)
            on_goal 2 => clear_value t
            subst t)
         | skip)
    | with_reducible exact Keeps.refl _ _
    | with_reducible assumption
    | with_reducible refine Keeps.ite ?_ ?_
    | with_reducible refine Keeps.ifEvent ?_ ?_
    | with_reducible refine Keeps.foldl (fun t x => ?_) ?_
    | with_reducible refine Keeps.elim ?_ (fun a => ?_)
    | (with_reducible apply noteRead_keeps; decide)
    | (with_reducible apply setQueue_keeps; decide)
    | split
    | (with_reducible apply Keeps.upd
       all_goals with_reducible first | exact Or.inl (by decide) | exact Or.inr rfl | exact rfl | exact ⟨rfl, rfl⟩ | exact Or.inr ⟨rfl, rfl, rfl⟩ | exact Or.inr ⟨rfl, rfl⟩ | exact Or.inr ⟨rfl, rfl, rfl, rfl⟩ | skip)

/-! ### Commands -/

theorem execDflEngineFault_keeps (s : State) : Out.Keeps [.cmp, .dfl, .dmc, .dram, .ports, .queues, .bureau, .pins, .sent, .drawn] s (execDflEngineFault s) := by
  unfold execDflEngineFault
  repeat' first
    | (extract_lets +onlyGivenNames t
       first
         | (refine Out.Keeps.cut (t := t) ?_ (fun ht => ?_)
            on_goal 2 => clear_value t
            subst t)
         | (refine Keeps.cut (t := t) ?_ (fun ht => ?_)
            on_goal 2 => clear_value t
            subst t)
         | skip)
    | with_reducible exact Keeps.refl _ _
    | with_reducible assumption
    | with_reducible refine Out.Keeps.done (by decide) ?_
    | with_reducible refine Keeps.ite ?_ ?_
    | with_reducible refine Keeps.ifEvent ?_ ?_
    | with_reducible refine Keeps.foldl (fun t x => ?_) ?_
    | with_reducible refine Keeps.elim ?_ (fun a => ?_)
    | (with_reducible apply faultDfl_keeps; decide)
    | (with_reducible apply log_keeps; decide)
    | (with_reducible apply drew_keeps; decide)
    | split
    | (with_reducible apply Keeps.upd
       all_goals with_reducible first | exact Or.inl (by decide) | exact Or.inr rfl | exact rfl | exact ⟨rfl, rfl⟩ | exact Or.inr ⟨rfl, rfl, rfl⟩ | exact Or.inr ⟨rfl, rfl⟩ | exact Or.inr ⟨rfl, rfl, rfl, rfl⟩ | skip)

theorem execDflJobEnd_keeps (lane : ℕ) (s : State) : Out.Keeps [.cmp, .dfl, .dmc, .dram, .ports, .queues, .bureau, .pins, .sent, .drawn] s (execDflJobEnd lane s) := by
  unfold execDflJobEnd
  repeat' first
    | (extract_lets +onlyGivenNames t
       first
         | (refine Out.Keeps.cut (t := t) ?_ (fun ht => ?_)
            on_goal 2 => clear_value t
            subst t)
         | (refine Keeps.cut (t := t) ?_ (fun ht => ?_)
            on_goal 2 => clear_value t
            subst t)
         | skip)
    | with_reducible exact Keeps.refl _ _
    | with_reducible assumption
    | with_reducible refine Out.Keeps.done (by decide) ?_
    | with_reducible refine Keeps.ite ?_ ?_
    | with_reducible refine Keeps.ifEvent ?_ ?_
    | with_reducible refine Keeps.foldl (fun t x => ?_) ?_
    | with_reducible refine Keeps.elim ?_ (fun a => ?_)
    | (with_reducible apply endDfl_keeps; decide)
    | (with_reducible apply drew_keeps; decide)
    | split
    | (with_reducible apply Keeps.upd
       all_goals with_reducible first | exact Or.inl (by decide) | exact Or.inr rfl | exact rfl | exact ⟨rfl, rfl⟩ | exact Or.inr ⟨rfl, rfl, rfl⟩ | exact Or.inr ⟨rfl, rfl⟩ | exact Or.inr ⟨rfl, rfl, rfl, rfl⟩ | skip)

theorem execDflJobStart_keeps (q : ℕ) (hostDesc : Option Bytes) (s : State) : Out.Keeps [.dfl, .dmc, .ports, .queues, .bureau, .sent] s (execDflJobStart q hostDesc s) := by
  unfold execDflJobStart
  repeat' first
    | (extract_lets +onlyGivenNames t
       first
         | (refine Out.Keeps.cut (t := t) ?_ (fun ht => ?_)
            on_goal 2 => clear_value t
            subst t)
         | (refine Keeps.cut (t := t) ?_ (fun ht => ?_)
            on_goal 2 => clear_value t
            subst t)
         | skip)
    | with_reducible exact Keeps.refl _ _
    | with_reducible assumption
    | with_reducible refine Out.Keeps.done (by decide) ?_
    | with_reducible refine Keeps.ite ?_ ?_
    | with_reducible refine Keeps.ifEvent ?_ ?_
    | with_reducible refine Keeps.foldl (fun t x => ?_) ?_
    | with_reducible refine Keeps.elim ?_ (fun a => ?_)
    | (with_reducible apply startDfl_keeps; decide)
    | split
    | (with_reducible apply Keeps.upd
       all_goals with_reducible first | exact Or.inl (by decide) | exact Or.inr rfl | exact rfl | exact ⟨rfl, rfl⟩ | exact Or.inr ⟨rfl, rfl, rfl⟩ | exact Or.inr ⟨rfl, rfl⟩ | exact Or.inr ⟨rfl, rfl, rfl, rfl⟩ | skip)

end Sys2Proof.Machine
end

