-- ==== Sys2Proof/Laws/KeepsLinks.lean ====
section
/-! SUPPORT. What the operations of Machine/Links.lean may change: one lemma each, which says that the
parts it does not name, the form of the DRAM, the Bureau's chain and the queue are kept. -/

open Host

set_option linter.unusedTactic false
set_option linter.unreachableTactic false
set_option linter.tactic.unusedName false

namespace Sys2Proof.Machine

variable {K : List Part} {s₀ : State}

theorem setLink_keeps (n : ℕ) (l : Link) (s : State) (hm₀ : Part.among [.tlk] K = true) (h₀ : Keeps K s₀ s) :
    Keeps K s₀ (setLink n l s) := by
  refine Keeps.after ?_ hm₀ h₀
  clear hm₀ h₀
  unfold setLink
  repeat' first
    | with_reducible exact Keeps.refl _ _
    | (with_reducible apply Keeps.upd
       all_goals with_reducible first | exact Or.inl (by decide) | exact Or.inr rfl | exact rfl | exact ⟨rfl, rfl⟩ | exact Or.inr ⟨rfl, rfl, rfl⟩ | exact Or.inr ⟨rfl, rfl⟩ | exact Or.inr ⟨rfl, rfl, rfl, rfl⟩ | skip)

theorem sendDark_keeps (n : ℕ) (s : State) (hm₀ : Part.among [.sent] K = true) (h₀ : Keeps K s₀ s) :
    Keeps K s₀ (sendDark n s) := by
  refine Keeps.after ?_ hm₀ h₀
  clear hm₀ h₀
  unfold sendDark
  repeat' first
    | with_reducible exact Keeps.refl _ _
    | with_reducible assumption
    | with_reducible refine Keeps.ite ?_ ?_
    | with_reducible refine Keeps.ifEvent ?_ ?_
    | (with_reducible apply send_keeps; decide)
    | split
    | (with_reducible apply Keeps.upd
       all_goals with_reducible first | exact Or.inl (by decide) | exact Or.inr rfl | exact rfl | exact ⟨rfl, rfl⟩ | exact Or.inr ⟨rfl, rfl, rfl⟩ | exact Or.inr ⟨rfl, rfl⟩ | exact Or.inr ⟨rfl, rfl, rfl, rfl⟩ | skip)

theorem freshHalves_keeps (s : State) (hm₀ : Part.among [.tlk] K = true) (h₀ : Keeps K s₀ s) :
    Keeps K s₀ (freshHalves s) := by
  refine Keeps.after ?_ hm₀ h₀
  clear hm₀ h₀
  unfold freshHalves
  repeat' first
    | with_reducible exact Keeps.refl _ _
    | with_reducible assumption
    | with_reducible refine Keeps.ite ?_ ?_
    | with_reducible refine Keeps.ifEvent ?_ ?_
    | split
    | (with_reducible apply Keeps.upd
       all_goals with_reducible first | exact Or.inl (by decide) | exact Or.inr rfl | exact rfl | exact ⟨rfl, rfl⟩ | exact Or.inr ⟨rfl, rfl, rfl⟩ | exact Or.inr ⟨rfl, rfl⟩ | exact Or.inr ⟨rfl, rfl, rfl, rfl⟩ | skip)

theorem darkRow_keeps (r : ℕ) (s : State) (hm₀ : Part.among [.sent] K = true) (h₀ : Keeps K s₀ s) :
    Keeps K s₀ (darkRow r s) := by
  refine Keeps.after ?_ hm₀ h₀
  clear hm₀ h₀
  unfold darkRow
  repeat' first
    | with_reducible exact Keeps.refl _ _
    | with_reducible refine Keeps.foldl (fun t x => ?_) ?_
    | (with_reducible apply sendDark_keeps; decide)

theorem control_keeps (n : ℕ) (opcode : ℕ) (frame : ℕ) (s : State) (hm₀ : Part.among [.tlk] K = true) (h₀ : Keeps K s₀ s) :
    Keeps K s₀ (control n opcode frame s) := by
  refine Keeps.after ?_ hm₀ h₀
  clear hm₀ h₀
  unfold control
  repeat' first
    | (extract_lets +onlyGivenNames t
       first
         | (refine Keeps.cut (t := t) ?_ (fun ht => ?_)
            on_goal 2 => clear_value t
            subst t)
         | skip)
    | with_reducible exact Keeps.refl _ _
    | with_reducible assumption
    | (with_reducible apply setLink_keeps; decide)
    | (with_reducible apply Keeps.upd
       all_goals with_reducible first | exact Or.inl (by decide) | exact Or.inr rfl | exact rfl | exact ⟨rfl, rfl⟩ | exact Or.inr ⟨rfl, rfl, rfl⟩ | exact Or.inr ⟨rfl, rfl⟩ | exact Or.inr ⟨rfl, rfl, rfl, rfl⟩ | skip)

theorem leaveUp_keeps (n : ℕ) (s : State) (hm₀ : Part.among [.tim, .tlk] K = true) (h₀ : Keeps K s₀ s) :
    Keeps K s₀ (leaveUp n s) := by
  refine Keeps.after ?_ hm₀ h₀
  clear hm₀ h₀
  unfold leaveUp
  repeat' first
    | (extract_lets +onlyGivenNames t
       first
         | (refine Keeps.cut (t := t) ?_ (fun ht => ?_)
            on_goal 2 => clear_value t
            subst t)
         | skip)
    | with_reducible exact Keeps.refl _ _
    | with_reducible assumption
    | with_reducible refine Keeps.ite ?_ ?_
    | with_reducible refine Keeps.ifEvent ?_ ?_
    | (with_reducible apply setLink_keeps; decide)
    | split
    | (with_reducible apply Keeps.upd
       all_goals with_reducible first | exact Or.inl (by decide) | exact Or.inr rfl | exact rfl | exact ⟨rfl, rfl⟩ | exact Or.inr ⟨rfl, rfl, rfl⟩ | exact Or.inr ⟨rfl, rfl⟩ | exact Or.inr ⟨rfl, rfl, rfl, rfl⟩ | skip)

theorem setGroup_keeps (g : ℕ) (x : LinkGroup) (s : State) (hm₀ : Part.among [.tlk] K = true) (h₀ : Keeps K s₀ s) :
    Keeps K s₀ (setGroup g x s) := by
  refine Keeps.after ?_ hm₀ h₀
  clear hm₀ h₀
  unfold setGroup
  repeat' first
    | with_reducible exact Keeps.refl _ _
    | (with_reducible apply Keeps.upd
       all_goals with_reducible first | exact Or.inl (by decide) | exact Or.inr rfl | exact rfl | exact ⟨rfl, rfl⟩ | exact Or.inr ⟨rfl, rfl, rfl⟩ | exact Or.inr ⟨rfl, rfl⟩ | exact Or.inr ⟨rfl, rfl, rfl, rfl⟩ | skip)

theorem takeSpread_keeps (g : ℕ) (s : State) (hm₀ : Part.among [.tlk] K = true) (h₀ : Keeps K s₀ s) :
    Keeps K s₀ (takeSpread g s) := by
  refine Keeps.after ?_ hm₀ h₀
  clear hm₀ h₀
  unfold takeSpread
  repeat' first
    | (extract_lets +onlyGivenNames t
       first
         | (refine Keeps.cut (t := t) ?_ (fun ht => ?_)
            on_goal 2 => clear_value t
            subst t)
         | skip)
    | with_reducible exact Keeps.refl _ _
    | with_reducible assumption
    | (with_reducible apply setGroup_keeps; decide)
    | split
    | (with_reducible apply Keeps.upd
       all_goals with_reducible first | exact Or.inl (by decide) | exact Or.inr rfl | exact rfl | exact ⟨rfl, rfl⟩ | exact Or.inr ⟨rfl, rfl, rfl⟩ | exact Or.inr ⟨rfl, rfl⟩ | exact Or.inr ⟨rfl, rfl, rfl, rfl⟩ | skip)

theorem startTraining_keeps (n : ℕ) (half : Bool) (retried : Bool) (s : State) (hm₀ : Part.among [.tim, .tlk, .sent] K = true) (h₀ : Keeps K s₀ s) :
    Keeps K s₀ (startTraining n half retried s) := by
  refine Keeps.after ?_ hm₀ h₀
  clear hm₀ h₀
  unfold startTraining
  repeat' first
    | (extract_lets +onlyGivenNames t
       first
         | (refine Keeps.cut (t := t) ?_ (fun ht => ?_)
            on_goal 2 => clear_value t
            subst t)
         | skip)
    | with_reducible exact Keeps.refl _ _
    | with_reducible assumption
    | with_reducible refine Keeps.ite ?_ ?_
    | (with_reducible apply send_keeps; decide)
    | (with_reducible apply leaveUp_keeps; decide)
    | (with_reducible apply takeSpread_keeps; decide)
    | (with_reducible apply setLink_keeps; decide)
    | split
    | (with_reducible apply Keeps.upd
       all_goals with_reducible first | exact Or.inl (by decide) | exact Or.inr rfl | exact rfl | exact ⟨rfl, rfl⟩ | exact Or.inr ⟨rfl, rfl, rfl⟩ | exact Or.inr ⟨rfl, rfl⟩ | exact Or.inr ⟨rfl, rfl, rfl, rfl⟩ | skip)

theorem controlTick_keeps (f : ℕ) (n : ℕ) (s : State) (hm₀ : Part.among [.tim, .tlk, .sent] K = true) (h₀ : Keeps K s₀ s) :
    Keeps K s₀ (controlTick f n s) := by
  refine Keeps.after ?_ hm₀ h₀
  clear hm₀ h₀
  unfold controlTick
  repeat' first
    | (extract_lets +onlyGivenNames t
       first
         | (refine Keeps.cut (t := t) ?_ (fun ht => ?_)
            on_goal 2 => clear_value t
            subst t)
         | skip)
    | with_reducible exact Keeps.refl _ _
    | with_reducible assumption
    | with_reducible refine Keeps.ite ?_ ?_
    | (with_reducible apply setLink_keeps; decide)
    | (with_reducible apply startTraining_keeps; decide)
    | split
    | (with_reducible apply Keeps.upd
       all_goals with_reducible first | exact Or.inl (by decide) | exact Or.inr rfl | exact rfl | exact ⟨rfl, rfl⟩ | exact Or.inr ⟨rfl, rfl, rfl⟩ | exact Or.inr ⟨rfl, rfl⟩ | exact Or.inr ⟨rfl, rfl, rfl, rfl⟩ | skip)

theorem controlTicks_keeps (f : ℕ) (s : State) (hm₀ : Part.among [.tim, .tlk, .sent] K = true) (h₀ : Keeps K s₀ s) :
    Keeps K s₀ (controlTicks f s) := by
  refine Keeps.after ?_ hm₀ h₀
  clear hm₀ h₀
  unfold controlTicks
  repeat' first
    | with_reducible exact Keeps.refl _ _
    | with_reducible refine Keeps.foldl (fun t x => ?_) ?_
    | (with_reducible apply controlTick_keeps; decide)

theorem groupOff_keeps (g : ℕ) (s : State) (hm₀ : Part.among [.tim, .tlk, .sent] K = true) (h₀ : Keeps K s₀ s) :
    Keeps K s₀ (groupOff g s) := by
  refine Keeps.after ?_ hm₀ h₀
  clear hm₀ h₀
  unfold groupOff
  repeat' first
    | (extract_lets +onlyGivenNames t
       first
         | (refine Keeps.cut (t := t) ?_ (fun ht => ?_)
            on_goal 2 => clear_value t
            subst t)
         | skip)
    | with_reducible exact Keeps.refl _ _
    | with_reducible assumption
    | with_reducible refine Keeps.ite ?_ ?_
    | with_reducible refine Keeps.foldl (fun t x => ?_) ?_
    | (with_reducible apply send_keeps; decide)
    | (with_reducible apply leaveUp_keeps; decide)
    | (with_reducible apply setLink_keeps; decide)
    | split
    | (with_reducible apply Keeps.upd
       all_goals with_reducible first | exact Or.inl (by decide) | exact Or.inr rfl | exact rfl | exact ⟨rfl, rfl⟩ | exact Or.inr ⟨rfl, rfl, rfl⟩ | exact Or.inr ⟨rfl, rfl⟩ | exact Or.inr ⟨rfl, rfl, rfl, rfl⟩ | skip)

theorem groupOn_keeps (g : ℕ) (s : State) (hm₀ : Part.among [.tim, .tlk, .sent] K = true) (h₀ : Keeps K s₀ s) :
    Keeps K s₀ (groupOn g s) := by
  refine Keeps.after ?_ hm₀ h₀
  clear hm₀ h₀
  unfold groupOn
  repeat' first
    | (extract_lets +onlyGivenNames t
       first
         | (refine Keeps.cut (t := t) ?_ (fun ht => ?_)
            on_goal 2 => clear_value t
            subst t)
         | skip)
    | with_reducible exact Keeps.refl _ _
    | with_reducible assumption
    | with_reducible refine Keeps.ite ?_ ?_
    | with_reducible refine Keeps.ifEvent ?_ ?_
    | with_reducible refine Keeps.foldl (fun t x => ?_) ?_
    | (with_reducible apply startTraining_keeps; decide)
    | (with_reducible apply setLink_keeps; decide)
    | split
    | (with_reducible apply Keeps.upd
       all_goals with_reducible first | exact Or.inl (by decide) | exact Or.inr rfl | exact rfl | exact ⟨rfl, rfl⟩ | exact Or.inr ⟨rfl, rfl, rfl⟩ | exact Or.inr ⟨rfl, rfl⟩ | exact Or.inr ⟨rfl, rfl, rfl, rfl⟩ | skip)

theorem failLink_keeps (n : ℕ) (s : State) (hm₀ : Part.among [.tim, .tlk, .sent] K = true) (h₀ : Keeps K s₀ s) :
    Keeps K s₀ (failLink n s) := by
  refine Keeps.after ?_ hm₀ h₀
  clear hm₀ h₀
  unfold failLink
  repeat' first
    | (extract_lets +onlyGivenNames t
       first
         | (refine Keeps.cut (t := t) ?_ (fun ht => ?_)
            on_goal 2 => clear_value t
            subst t)
         | skip)
    | with_reducible exact Keeps.refl _ _
    | with_reducible assumption
    | with_reducible refine Keeps.ite ?_ ?_
    | with_reducible refine Keeps.ifEvent ?_ ?_
    | (with_reducible apply leaveUp_keeps; decide)
    | (with_reducible apply setLink_keeps; decide)
    | (with_reducible apply send_keeps; decide)
    | split
    | (with_reducible apply Keeps.upd
       all_goals with_reducible first | exact Or.inl (by decide) | exact Or.inr rfl | exact rfl | exact ⟨rfl, rfl⟩ | exact Or.inr ⟨rfl, rfl, rfl⟩ | exact Or.inr ⟨rfl, rfl⟩ | exact Or.inr ⟨rfl, rfl, rfl, rfl⟩ | skip)

theorem goUp_keeps (n : ℕ) (s : State) (hm₀ : Part.among [.out, .tlk, .sent] K = true) (h₀ : Keeps K s₀ s) :
    Keeps K s₀ (goUp n s) := by
  refine Keeps.after ?_ hm₀ h₀
  clear hm₀ h₀
  unfold goUp
  repeat' first
    | (extract_lets +onlyGivenNames t
       first
         | (refine Keeps.cut (t := t) ?_ (fun ht => ?_)
            on_goal 2 => clear_value t
            subst t)
         | skip)
    | with_reducible exact Keeps.refl _ _
    | with_reducible assumption
    | with_reducible refine Keeps.ite ?_ ?_
    | with_reducible refine Keeps.ifEvent ?_ ?_
    | (with_reducible apply sendDark_keeps; decide)
    | (with_reducible apply setLink_keeps; decide)
    | split
    | (with_reducible apply Keeps.upd
       all_goals with_reducible first | exact Or.inl (by decide) | exact Or.inr rfl | exact rfl | exact ⟨rfl, rfl⟩ | exact Or.inr ⟨rfl, rfl, rfl⟩ | exact Or.inr ⟨rfl, rfl⟩ | exact Or.inr ⟨rfl, rfl, rfl, rfl⟩ | skip)

theorem holdDark_keeps (n : ℕ) (s : State) (hm₀ : Part.among [.tlk, .sent] K = true) (h₀ : Keeps K s₀ s) :
    Keeps K s₀ (holdDark n s) := by
  refine Keeps.after ?_ hm₀ h₀
  clear hm₀ h₀
  unfold holdDark
  repeat' first
    | with_reducible exact Keeps.refl _ _
    | with_reducible refine Keeps.ite ?_ ?_
    | (with_reducible apply sendDark_keeps; decide)
    | (with_reducible apply setLink_keeps; decide)
    | split
    | (with_reducible apply Keeps.upd
       all_goals with_reducible first | exact Or.inl (by decide) | exact Or.inr rfl | exact rfl | exact ⟨rfl, rfl⟩ | exact Or.inr ⟨rfl, rfl, rfl⟩ | exact Or.inr ⟨rfl, rfl⟩ | exact Or.inr ⟨rfl, rfl, rfl, rfl⟩ | skip)

theorem takePanel_keeps (id : ℕ) (s : State) (hm₀ : Part.among [.geom] K = true) (h₀ : Keeps K s₀ s) :
    Keeps K s₀ (takePanel id s) := by
  refine Keeps.after ?_ hm₀ h₀
  clear hm₀ h₀
  unfold takePanel
  repeat' first
    | with_reducible exact Keeps.refl _ _
    | with_reducible refine Keeps.ite ?_ ?_
    | split
    | (with_reducible apply Keeps.upd
       all_goals with_reducible first | exact Or.inl (by decide) | exact Or.inr rfl | exact rfl | exact ⟨rfl, rfl⟩ | exact Or.inr ⟨rfl, rfl, rfl⟩ | exact Or.inr ⟨rfl, rfl⟩ | exact Or.inr ⟨rfl, rfl, rfl, rfl⟩ | skip)

theorem identStep_keeps (n : ℕ) (f : IdentFrame) (s : State) (hm₀ : Part.among [.geom, .tim, .out, .tlk, .sent] K = true) (h₀ : Keeps K s₀ s) :
    Keeps K s₀ (identStep n f s) := by
  refine Keeps.after ?_ hm₀ h₀
  clear hm₀ h₀
  unfold identStep
  repeat' first
    | (extract_lets +onlyGivenNames t
       first
         | (refine Keeps.cut (t := t) ?_ (fun ht => ?_)
            on_goal 2 => clear_value t
            subst t)
         | skip)
    | with_reducible exact Keeps.refl _ _
    | with_reducible assumption
    | with_reducible refine Keeps.ite ?_ ?_
    | (with_reducible apply goUp_keeps; decide)
    | (with_reducible apply takePanel_keeps; decide)
    | (with_reducible apply setLink_keeps; decide)
    | (with_reducible apply failLink_keeps; decide)
    | split
    | (with_reducible apply Keeps.upd
       all_goals with_reducible first | exact Or.inl (by decide) | exact Or.inr rfl | exact rfl | exact ⟨rfl, rfl⟩ | exact Or.inr ⟨rfl, rfl, rfl⟩ | exact Or.inr ⟨rfl, rfl⟩ | exact Or.inr ⟨rfl, rfl, rfl, rfl⟩ | skip)

theorem judge_keeps (n : ℕ) (old : ℕ) (unc : ℕ) (s : State) (hm₀ : Part.among [.tim, .tlk, .ports, .bureau, .pins, .sent] K = true) (h₀ : Keeps K s₀ s) :
    Keeps K s₀ (judge n old unc s) := by
  refine Keeps.after ?_ hm₀ h₀
  clear hm₀ h₀
  unfold judge
  repeat' first
    | (extract_lets +onlyGivenNames t
       first
         | (refine Keeps.cut (t := t) ?_ (fun ht => ?_)
            on_goal 2 => clear_value t
            subst t)
         | skip)
    | with_reducible exact Keeps.refl _ _
    | with_reducible assumption
    | with_reducible refine Keeps.ite ?_ ?_
    | (with_reducible apply setLink_keeps; decide)
    | (with_reducible apply log_keeps; decide)
    | (with_reducible apply assertFault_keeps; decide)
    | (with_reducible apply failLink_keeps; decide)
    | (with_reducible apply control_keeps; decide)
    | split
    | (with_reducible apply Keeps.upd
       all_goals with_reducible first | exact Or.inl (by decide) | exact Or.inr rfl | exact rfl | exact ⟨rfl, rfl⟩ | exact Or.inr ⟨rfl, rfl, rfl⟩ | exact Or.inr ⟨rfl, rfl⟩ | exact Or.inr ⟨rfl, rfl, rfl, rfl⟩ | skip)

theorem retrainAll_keeps (s : State) (hm₀ : Part.among [.tim, .tlk, .sent] K = true) (h₀ : Keeps K s₀ s) :
    Keeps K s₀ (retrainAll s) := by
  refine Keeps.after ?_ hm₀ h₀
  clear hm₀ h₀
  unfold retrainAll
  repeat' first
    | (extract_lets +onlyGivenNames t
       first
         | (refine Keeps.cut (t := t) ?_ (fun ht => ?_)
            on_goal 2 => clear_value t
            subst t)
         | skip)
    | with_reducible exact Keeps.refl _ _
    | with_reducible assumption
    | with_reducible refine Keeps.ite ?_ ?_
    | with_reducible refine Keeps.foldl (fun t x => ?_) ?_
    | (with_reducible apply startTraining_keeps; decide)
    | split

theorem secondOf_keeps (stopped : Bool) (n : ℕ) (s : State) (hm₀ : Part.among [.tim, .tlk, .ports, .bureau, .pins, .sent] K = true) (h₀ : Keeps K s₀ s) :
    Keeps K s₀ (secondOf stopped n s) := by
  refine Keeps.after ?_ hm₀ h₀
  clear hm₀ h₀
  unfold secondOf
  repeat' first
    | (extract_lets +onlyGivenNames t
       first
         | (refine Keeps.cut (t := t) ?_ (fun ht => ?_)
            on_goal 2 => clear_value t
            subst t)
         | skip)
    | with_reducible exact Keeps.refl _ _
    | with_reducible assumption
    | with_reducible refine Keeps.ite ?_ ?_
    | (with_reducible apply setLink_keeps; decide)
    | (with_reducible apply judge_keeps; decide)
    | split
    | (with_reducible apply Keeps.upd
       all_goals with_reducible first | exact Or.inl (by decide) | exact Or.inr rfl | exact rfl | exact ⟨rfl, rfl⟩ | exact Or.inr ⟨rfl, rfl, rfl⟩ | exact Or.inr ⟨rfl, rfl⟩ | exact Or.inr ⟨rfl, rfl, rfl, rfl⟩ | skip)

theorem statusStep_keeps (n : ℕ) (f : StatusFrame) (s : State) (hm₀ : Part.among [.tim, .tlk] K = true) (h₀ : Keeps K s₀ s) :
    Keeps K s₀ (statusStep n f s) := by
  refine Keeps.after ?_ hm₀ h₀
  clear hm₀ h₀
  unfold statusStep
  repeat' first
    | (extract_lets +onlyGivenNames t
       first
         | (refine Keeps.cut (t := t) ?_ (fun ht => ?_)
            on_goal 2 => clear_value t
            subst t)
         | skip)
    | with_reducible exact Keeps.refl _ _
    | with_reducible assumption
    | with_reducible refine Keeps.ite ?_ ?_
    | (with_reducible apply setLink_keeps; decide)
    | (with_reducible apply leaveUp_keeps; decide)
    | split

theorem trainStep_keeps (n : ℕ) (f : TrainFrame) (s : State) (hm₀ : Part.among [.tlk, .sent] K = true) (h₀ : Keeps K s₀ s) :
    Keeps K s₀ (trainStep n f s) := by
  refine Keeps.after ?_ hm₀ h₀
  clear hm₀ h₀
  unfold trainStep
  repeat' first
    | (extract_lets +onlyGivenNames t
       first
         | (refine Keeps.cut (t := t) ?_ (fun ht => ?_)
            on_goal 2 => clear_value t
            subst t)
         | skip)
    | with_reducible exact Keeps.refl _ _
    | with_reducible assumption
    | with_reducible refine Keeps.ite ?_ ?_
    | (with_reducible apply send_keeps; decide)
    | (with_reducible apply setLink_keeps; decide)
    | split
    | (with_reducible apply Keeps.upd
       all_goals with_reducible first | exact Or.inl (by decide) | exact Or.inr rfl | exact rfl | exact ⟨rfl, rfl⟩ | exact Or.inr ⟨rfl, rfl, rfl⟩ | exact Or.inr ⟨rfl, rfl⟩ | exact Or.inr ⟨rfl, rfl, rfl, rfl⟩ | skip)

/-! ### Commands -/

theorem execCwLockLoss_keeps (link : ℕ) (s : State) : Out.Keeps [.tim, .bases, .tlk, .ports, .sent] s (execCwLockLoss link s) := by
  unfold execCwLockLoss
  repeat' first
    | (extract_lets +onlyGivenNames t
       first
         | (refine Out.Keeps.cut (t := t) ?_ (fun ht => ?_)
            on_goal 2 => clear_value t
            subst t)
         | (refine Keeps.cut (t := t) ?_ (fun ht => ?_)
            on_goal 2 => clear_value t
            subst t)
         | skip)
    | with_reducible exact Keeps.refl _ _
    | with_reducible assumption
    | with_reducible refine Out.Keeps.done (by decide) ?_
    | with_reducible refine Keeps.ite ?_ ?_
    | with_reducible refine Keeps.ifEvent ?_ ?_
    | with_reducible refine Keeps.foldl (fun t x => ?_) ?_
    | with_reducible refine Keeps.elim ?_ (fun a => ?_)
    | (with_reducible apply startTraining_keeps; decide)
    | (with_reducible apply advanceTo0_keeps; decide)
    | split
    | (with_reducible apply Keeps.upd
       all_goals with_reducible first | exact Or.inl (by decide) | exact Or.inr rfl | exact rfl | exact ⟨rfl, rfl⟩ | exact Or.inr ⟨rfl, rfl, rfl⟩ | exact Or.inr ⟨rfl, rfl⟩ | exact Or.inr ⟨rfl, rfl, rfl, rfl⟩ | skip)

theorem execFailedRetrain_keeps (link : ℕ) (s : State) : Out.Keeps [.tim, .bases, .tlk, .ports, .sent] s (execFailedRetrain link s) := by
  unfold execFailedRetrain
  repeat' first
    | (extract_lets +onlyGivenNames t
       first
         | (refine Out.Keeps.cut (t := t) ?_ (fun ht => ?_)
            on_goal 2 => clear_value t
            subst t)
         | (refine Keeps.cut (t := t) ?_ (fun ht => ?_)
            on_goal 2 => clear_value t
            subst t)
         | skip)
    | with_reducible exact Keeps.refl _ _
    | with_reducible assumption
    | with_reducible refine Out.Keeps.done (by decide) ?_
    | with_reducible refine Keeps.ite ?_ ?_
    | with_reducible refine Keeps.ifEvent ?_ ?_
    | with_reducible refine Keeps.foldl (fun t x => ?_) ?_
    | with_reducible refine Keeps.elim ?_ (fun a => ?_)
    | (with_reducible apply startTraining_keeps; decide)
    | (with_reducible apply advanceTo0_keeps; decide)
    | split
    | (with_reducible apply Keeps.upd
       all_goals with_reducible first | exact Or.inl (by decide) | exact Or.inr rfl | exact rfl | exact ⟨rfl, rfl⟩ | exact Or.inr ⟨rfl, rfl, rfl⟩ | exact Or.inr ⟨rfl, rfl⟩ | exact Or.inr ⟨rfl, rfl, rfl, rfl⟩ | skip)

theorem execIdentFrame_keeps (link : ℕ) (groups : List ℕ) (s : State) : Out.Keeps [.geom, .tim, .out, .tlk, .ports, .sent] s (execIdentFrame link groups s) := by
  unfold execIdentFrame
  repeat' first
    | (extract_lets +onlyGivenNames t
       first
         | (refine Out.Keeps.cut (t := t) ?_ (fun ht => ?_)
            on_goal 2 => clear_value t
            subst t)
         | (refine Keeps.cut (t := t) ?_ (fun ht => ?_)
            on_goal 2 => clear_value t
            subst t)
         | skip)
    | with_reducible exact Keeps.refl _ _
    | with_reducible assumption
    | with_reducible refine Out.Keeps.done (by decide) ?_
    | with_reducible refine Keeps.ite ?_ ?_
    | with_reducible refine Keeps.ifEvent ?_ ?_
    | with_reducible refine Keeps.foldl (fun t x => ?_) ?_
    | with_reducible refine Keeps.elim ?_ (fun a => ?_)
    | (with_reducible apply identStep_keeps; decide)
    | split
    | (with_reducible apply Keeps.upd
       all_goals with_reducible first | exact Or.inl (by decide) | exact Or.inr rfl | exact rfl | exact ⟨rfl, rfl⟩ | exact Or.inr ⟨rfl, rfl, rfl⟩ | exact Or.inr ⟨rfl, rfl⟩ | exact Or.inr ⟨rfl, rfl, rfl, rfl⟩ | skip)

theorem execLinkSecond_keeps (s : State) : Out.Keeps [.tim, .tlk, .ports, .bureau, .pins, .sent] s (execLinkSecond s) := by
  unfold execLinkSecond
  repeat' first
    | (extract_lets +onlyGivenNames t
       first
         | (refine Out.Keeps.cut (t := t) ?_ (fun ht => ?_)
            on_goal 2 => clear_value t
            subst t)
         | (refine Keeps.cut (t := t) ?_ (fun ht => ?_)
            on_goal 2 => clear_value t
            subst t)
         | skip)
    | with_reducible exact Keeps.refl _ _
    | with_reducible assumption
    | with_reducible refine Out.Keeps.done (by decide) ?_
    | with_reducible refine Keeps.ite ?_ ?_
    | with_reducible refine Keeps.ifEvent ?_ ?_
    | with_reducible refine Keeps.foldl (fun t x => ?_) ?_
    | with_reducible refine Keeps.elim ?_ (fun a => ?_)
    | (with_reducible apply secondOf_keeps; decide)
    | split
    | (with_reducible apply Keeps.upd
       all_goals with_reducible first | exact Or.inl (by decide) | exact Or.inr rfl | exact rfl | exact ⟨rfl, rfl⟩ | exact Or.inr ⟨rfl, rfl, rfl⟩ | exact Or.inr ⟨rfl, rfl⟩ | exact Or.inr ⟨rfl, rfl, rfl, rfl⟩ | skip)

theorem execStatusFrame_keeps (link : ℕ) (groups : List ℕ) (s : State) : Out.Keeps [.tim, .tlk, .ports, .sent] s (execStatusFrame link groups s) := by
  unfold execStatusFrame
  repeat' first
    | (extract_lets +onlyGivenNames t
       first
         | (refine Out.Keeps.cut (t := t) ?_ (fun ht => ?_)
            on_goal 2 => clear_value t
            subst t)
         | (refine Keeps.cut (t := t) ?_ (fun ht => ?_)
            on_goal 2 => clear_value t
            subst t)
         | skip)
    | with_reducible exact Keeps.refl _ _
    | with_reducible assumption
    | with_reducible refine Out.Keeps.done (by decide) ?_
    | with_reducible refine Keeps.ite ?_ ?_
    | with_reducible refine Keeps.ifEvent ?_ ?_
    | with_reducible refine Keeps.foldl (fun t x => ?_) ?_
    | with_reducible refine Keeps.elim ?_ (fun a => ?_)
    | (with_reducible apply statusStep_keeps; decide)
    | split
    | (with_reducible apply Keeps.upd
       all_goals with_reducible first | exact Or.inl (by decide) | exact Or.inr rfl | exact rfl | exact ⟨rfl, rfl⟩ | exact Or.inr ⟨rfl, rfl, rfl⟩ | exact Or.inr ⟨rfl, rfl⟩ | exact Or.inr ⟨rfl, rfl, rfl, rfl⟩ | skip)

theorem execStatusStale_keeps (link : ℕ) (s : State) : Out.Keeps [.bases, .tlk, .ports, .bureau, .sent] s (execStatusStale link s) := by
  unfold execStatusStale
  repeat' first
    | (extract_lets +onlyGivenNames t
       first
         | (refine Out.Keeps.cut (t := t) ?_ (fun ht => ?_)
            on_goal 2 => clear_value t
            subst t)
         | (refine Keeps.cut (t := t) ?_ (fun ht => ?_)
            on_goal 2 => clear_value t
            subst t)
         | skip)
    | with_reducible exact Keeps.refl _ _
    | with_reducible assumption
    | with_reducible refine Out.Keeps.done (by decide) ?_
    | with_reducible refine Keeps.ite ?_ ?_
    | with_reducible refine Keeps.ifEvent ?_ ?_
    | with_reducible refine Keeps.foldl (fun t x => ?_) ?_
    | with_reducible refine Keeps.elim ?_ (fun a => ?_)
    | (with_reducible apply log_keeps; decide)
    | (with_reducible apply setLink_keeps; decide)
    | (with_reducible apply advanceTo0_keeps; decide)
    | split
    | (with_reducible apply Keeps.upd
       all_goals with_reducible first | exact Or.inl (by decide) | exact Or.inr rfl | exact rfl | exact ⟨rfl, rfl⟩ | exact Or.inr ⟨rfl, rfl, rfl⟩ | exact Or.inr ⟨rfl, rfl⟩ | exact Or.inr ⟨rfl, rfl, rfl, rfl⟩ | skip)

theorem execTrainFrame_keeps (link : ℕ) (groups : List ℕ) (s : State) : Out.Keeps [.tlk, .ports, .sent] s (execTrainFrame link groups s) := by
  unfold execTrainFrame
  repeat' first
    | (extract_lets +onlyGivenNames t
       first
         | (refine Out.Keeps.cut (t := t) ?_ (fun ht => ?_)
            on_goal 2 => clear_value t
            subst t)
         | (refine Keeps.cut (t := t) ?_ (fun ht => ?_)
            on_goal 2 => clear_value t
            subst t)
         | skip)
    | with_reducible exact Keeps.refl _ _
    | with_reducible assumption
    | with_reducible refine Out.Keeps.done (by decide) ?_
    | with_reducible refine Keeps.ite ?_ ?_
    | with_reducible refine Keeps.ifEvent ?_ ?_
    | with_reducible refine Keeps.foldl (fun t x => ?_) ?_
    | with_reducible refine Keeps.elim ?_ (fun a => ?_)
    | (with_reducible apply trainStep_keeps; decide)
    | split
    | (with_reducible apply Keeps.upd
       all_goals with_reducible first | exact Or.inl (by decide) | exact Or.inr rfl | exact rfl | exact ⟨rfl, rfl⟩ | exact Or.inr ⟨rfl, rfl, rfl⟩ | exact Or.inr ⟨rfl, rfl⟩ | exact Or.inr ⟨rfl, rfl, rfl, rfl⟩ | skip)

theorem execTrainingTimeout_keeps (link : ℕ) (s : State) : Out.Keeps [.tim, .bases, .tlk, .ports, .sent] s (execTrainingTimeout link s) := by
  unfold execTrainingTimeout
  repeat' first
    | (extract_lets +onlyGivenNames t
       first
         | (refine Out.Keeps.cut (t := t) ?_ (fun ht => ?_)
            on_goal 2 => clear_value t
            subst t)
         | (refine Keeps.cut (t := t) ?_ (fun ht => ?_)
            on_goal 2 => clear_value t
            subst t)
         | skip)
    | with_reducible exact Keeps.refl _ _
    | with_reducible assumption
    | with_reducible refine Out.Keeps.done (by decide) ?_
    | with_reducible refine Keeps.ite ?_ ?_
    | with_reducible refine Keeps.ifEvent ?_ ?_
    | with_reducible refine Keeps.foldl (fun t x => ?_) ?_
    | with_reducible refine Keeps.elim ?_ (fun a => ?_)
    | (with_reducible apply advanceTo0_keeps; decide)
    | (with_reducible apply failLink_keeps; decide)
    | (with_reducible apply startTraining_keeps; decide)
    | split
    | (with_reducible apply Keeps.upd
       all_goals with_reducible first | exact Or.inl (by decide) | exact Or.inr rfl | exact rfl | exact ⟨rfl, rfl⟩ | exact Or.inr ⟨rfl, rfl, rfl⟩ | exact Or.inr ⟨rfl, rfl⟩ | exact Or.inr ⟨rfl, rfl, rfl, rfl⟩ | skip)

end Sys2Proof.Machine
end

