-- ==== Sys2Proof/Laws/KeepsLayers.lean ====
section
/-! SUPPORT. What the operations of Machine/Layers.lean may change: one lemma each, which says that the
parts it does not name, the form of the DRAM, the Bureau's chain and the queue are kept. -/

open Host

set_option linter.unusedTactic false
set_option linter.unreachableTactic false
set_option linter.tactic.unusedName false

namespace Sys2Proof.Machine

variable {K : List Part} {s₀ : State}

theorem setLayerStatus_keeps (n : ℕ) (x : LayerStatus) (s : State) (hm₀ : Part.among [.cmp] K = true) (h₀ : Keeps K s₀ s) :
    Keeps K s₀ (setLayerStatus n x s) := by
  refine Keeps.after ?_ hm₀ h₀
  clear hm₀ h₀
  unfold setLayerStatus
  repeat' first
    | with_reducible exact Keeps.refl _ _
    | (with_reducible apply Keeps.upd
       all_goals with_reducible first | exact Or.inl (by decide) | exact Or.inr rfl | exact rfl | exact ⟨rfl, rfl⟩ | exact Or.inr ⟨rfl, rfl, rfl⟩ | exact Or.inr ⟨rfl, rfl⟩ | exact Or.inr ⟨rfl, rfl, rfl, rfl⟩ | skip)

theorem setLayer_keeps (n : ℕ) (e : LayerEntry) (s : State) (hm₀ : Part.among [.cmp] K = true) (h₀ : Keeps K s₀ s) :
    Keeps K s₀ (setLayer n e s) := by
  refine Keeps.after ?_ hm₀ h₀
  clear hm₀ h₀
  unfold setLayer
  repeat' first
    | with_reducible exact Keeps.refl _ _
    | (with_reducible apply Keeps.upd
       all_goals with_reducible first | exact Or.inl (by decide) | exact Or.inr rfl | exact rfl | exact ⟨rfl, rfl⟩ | exact Or.inr ⟨rfl, rfl, rfl⟩ | exact Or.inr ⟨rfl, rfl⟩ | exact Or.inr ⟨rfl, rfl, rfl, rfl⟩ | skip)

end Sys2Proof.Machine
end

