-- ==== Sys2Proof/Laws/KeepsThermal.lean ====
section
/-! SUPPORT. What the operations of Machine/Thermal.lean may change: one lemma each, which says that the
parts it does not name, the form of the DRAM, the Bureau's chain and the queue are kept. -/

open Host

set_option linter.unusedTactic false
set_option linter.unreachableTactic false
set_option linter.tactic.unusedName false

namespace Sys2Proof.Machine

variable {K : List Part} {s₀ : State}

theorem setSensor_keeps (n : ℕ) (x : Sensor) (s : State) (hm₀ : Part.among [.thm] K = true) (h₀ : Keeps K s₀ s) :
    Keeps K s₀ (setSensor n x s) := by
  refine Keeps.after ?_ hm₀ h₀
  clear hm₀ h₀
  unfold setSensor
  repeat' first
    | with_reducible exact Keeps.refl _ _
    | (with_reducible apply Keeps.upd
       all_goals with_reducible first | exact Or.inl (by decide) | exact Or.inr rfl | exact rfl | exact ⟨rfl, rfl⟩ | exact Or.inr ⟨rfl, rfl, rfl⟩ | exact Or.inr ⟨rfl, rfl⟩ | exact Or.inr ⟨rfl, rfl, rfl, rfl⟩ | skip)

theorem failSensor_keeps (n : ℕ) (s : State) (hm₀ : Part.among [.bureau, .thm, .drawn] K = true) (h₀ : Keeps K s₀ s) :
    Keeps K s₀ (failSensor n s) := by
  refine Keeps.after ?_ hm₀ h₀
  clear hm₀ h₀
  unfold failSensor
  repeat' first
    | (extract_lets +onlyGivenNames t
       first
         | (refine Keeps.cut (t := t) ?_ (fun ht => ?_)
            on_goal 2 => clear_value t
            subst t)
         | skip)
    | with_reducible exact Keeps.refl _ _
    | with_reducible assumption
    | with_reducible refine Keeps.ite ?_ ?_
    | (with_reducible apply log_keeps; decide)
    | (with_reducible apply setSensor_keeps; decide)
    | (with_reducible apply drew_keeps; decide)
    | split
    | (with_reducible apply Keeps.upd
       all_goals with_reducible first | exact Or.inl (by decide) | exact Or.inr rfl | exact rfl | exact ⟨rfl, rfl⟩ | exact Or.inr ⟨rfl, rfl, rfl⟩ | exact Or.inr ⟨rfl, rfl⟩ | exact Or.inr ⟨rfl, rfl, rfl, rfl⟩ | skip)

theorem badSample_keeps (n : ℕ) (v : Option ℤ) (s : State) (hm₀ : Part.among [.bureau, .thm, .drawn] K = true) (h₀ : Keeps K s₀ s) :
    Keeps K s₀ (badSample n v s) := by
  refine Keeps.after ?_ hm₀ h₀
  clear hm₀ h₀
  unfold badSample
  repeat' first
    | (extract_lets +onlyGivenNames t
       first
         | (refine Keeps.cut (t := t) ?_ (fun ht => ?_)
            on_goal 2 => clear_value t
            subst t)
         | skip)
    | with_reducible exact Keeps.refl _ _
    | with_reducible assumption
    | with_reducible refine Keeps.ite ?_ ?_
    | (with_reducible apply setSensor_keeps; decide)
    | (with_reducible apply failSensor_keeps; decide)
    | split
    | (with_reducible apply Keeps.upd
       all_goals with_reducible first | exact Or.inl (by decide) | exact Or.inr rfl | exact rfl | exact ⟨rfl, rfl⟩ | exact Or.inr ⟨rfl, rfl, rfl⟩ | exact Or.inr ⟨rfl, rfl⟩ | exact Or.inr ⟨rfl, rfl, rfl, rfl⟩ | skip)

theorem beginShutdown_keeps (cause : ℕ) (source : ℕ) (sensor : ℕ) (reading : ℤ) (s : State) (hm₀ : Part.among [.ports, .thm, .pins, .sent] K = true) (h₀ : Keeps K s₀ s) :
    Keeps K s₀ (beginShutdown cause source sensor reading s) := by
  refine Keeps.after ?_ hm₀ h₀
  clear hm₀ h₀
  unfold beginShutdown
  repeat' first
    | (extract_lets +onlyGivenNames t
       first
         | (refine Keeps.cut (t := t) ?_ (fun ht => ?_)
            on_goal 2 => clear_value t
            subst t)
         | skip)
    | with_reducible exact Keeps.refl _ _
    | with_reducible assumption
    | with_reducible refine Keeps.ite ?_ ?_
    | with_reducible refine Keeps.foldl (fun t x => ?_) ?_
    | (with_reducible apply assertFault_keeps; decide)
    | (with_reducible apply sendDark_keeps; decide)
    | split
    | (with_reducible apply Keeps.upd
       all_goals with_reducible first | exact Or.inl (by decide) | exact Or.inr rfl | exact rfl | exact ⟨rfl, rfl⟩ | exact Or.inr ⟨rfl, rfl, rfl⟩ | exact Or.inr ⟨rfl, rfl⟩ | exact Or.inr ⟨rfl, rfl, rfl, rfl⟩ | skip)

theorem setTempGroup_keeps (g : ℕ) (x : TempGroup) (s : State) (hm₀ : Part.among [.thm] K = true) (h₀ : Keeps K s₀ s) :
    Keeps K s₀ (setTempGroup g x s) := by
  refine Keeps.after ?_ hm₀ h₀
  clear hm₀ h₀
  unfold setTempGroup
  repeat' first
    | with_reducible exact Keeps.refl _ _
    | (with_reducible apply Keeps.upd
       all_goals with_reducible first | exact Or.inl (by decide) | exact Or.inr rfl | exact rfl | exact ⟨rfl, rfl⟩ | exact Or.inr ⟨rfl, rfl, rfl⟩ | exact Or.inr ⟨rfl, rfl⟩ | exact Or.inr ⟨rfl, rfl, rfl, rfl⟩ | skip)

theorem crossing_keeps (n : ℕ) (s : State) (hm₀ : Part.among [.ports, .thm, .pins, .sent] K = true) (h₀ : Keeps K s₀ s) :
    Keeps K s₀ (crossing n s) := by
  refine Keeps.after ?_ hm₀ h₀
  clear hm₀ h₀
  unfold crossing
  repeat' first
    | (extract_lets +onlyGivenNames t
       first
         | (refine Keeps.cut (t := t) ?_ (fun ht => ?_)
            on_goal 2 => clear_value t
            subst t)
         | skip)
    | with_reducible exact Keeps.refl _ _
    | with_reducible assumption
    | (with_reducible apply beginShutdown_keeps; decide)
    | split
    | (with_reducible apply Keeps.upd
       all_goals with_reducible first | exact Or.inl (by decide) | exact Or.inr rfl | exact rfl | exact ⟨rfl, rfl⟩ | exact Or.inr ⟨rfl, rfl, rfl⟩ | exact Or.inr ⟨rfl, rfl⟩ | exact Or.inr ⟨rfl, rfl, rfl, rfl⟩ | skip)

theorem evalGroup_keeps (g : Nat) (s : State) (hm₀ : Part.among [.ports, .bureau, .thm, .pins, .sent] K = true) (h₀ : Keeps K s₀ s) : Keeps K s₀ (evalGroup g s) := by
  refine Keeps.after ?_ hm₀ h₀
  clear hm₀ h₀
  unfold evalGroup
  extract_lets x
  have hs (y : TempGroup) : Keeps [.ports, .bureau, .thm, .pins, .sent] s (setTempGroup g y s) := setTempGroup_keeps _ _ _ (by decide) (Keeps.refl _ _)
  refine Keeps.ite (Keeps.refl _ _) ?_
  split
  · split
    · exact hs _
    · exact assertFault_keeps _ (by decide) (hs _)
  · extract_lets y
    refine Keeps.ite ?_ (Keeps.ite ?_ (hs _))
    · exact log_keeps _ _ _ _ _ (by decide) (hs _)
    · exact log_keeps _ _ _ _ _ (by decide) (hs _)

theorem goodSample_keeps (n : ℕ) (v : ℤ) (s : State) (hm₀ : Part.among [.bureau, .thm] K = true) (h₀ : Keeps K s₀ s) :
    Keeps K s₀ (goodSample n v s) := by
  refine Keeps.after ?_ hm₀ h₀
  clear hm₀ h₀
  unfold goodSample
  repeat' first
    | (extract_lets +onlyGivenNames t
       first
         | (refine Keeps.cut (t := t) ?_ (fun ht => ?_)
            on_goal 2 => clear_value t
            subst t)
         | skip)
    | with_reducible exact Keeps.refl _ _
    | with_reducible assumption
    | with_reducible refine Keeps.ite ?_ ?_
    | (with_reducible apply setSensor_keeps; decide)
    | (with_reducible apply log_keeps; decide)
    | split
    | (with_reducible apply Keeps.upd
       all_goals with_reducible first | exact Or.inl (by decide) | exact Or.inr rfl | exact rfl | exact ⟨rfl, rfl⟩ | exact Or.inr ⟨rfl, rfl, rfl⟩ | exact Or.inr ⟨rfl, rfl⟩ | exact Or.inr ⟨rfl, rfl, rfl, rfl⟩ | skip)

theorem mr4Site_keeps (site : ℕ) (rate : ℕ) (s : State) (hm₀ : Part.among [.dmc, .ports, .thm, .pins, .sent, .drawn] K = true) (h₀ : Keeps K s₀ s) :
    Keeps K s₀ (mr4Site site rate s) := by
  refine Keeps.after ?_ hm₀ h₀
  clear hm₀ h₀
  unfold mr4Site
  repeat' first
    | (extract_lets +onlyGivenNames t
       first
         | (refine Keeps.cut (t := t) ?_ (fun ht => ?_)
            on_goal 2 => clear_value t
            subst t)
         | skip)
    | with_reducible exact Keeps.refl _ _
    | with_reducible assumption
    | with_reducible refine Keeps.ite ?_ ?_
    | (with_reducible apply setSite_keeps; decide)
    | (with_reducible apply drew_keeps; decide)
    | (with_reducible apply beginShutdown_keeps; decide)
    | split
    | (with_reducible apply Keeps.upd
       all_goals with_reducible first | exact Or.inl (by decide) | exact Or.inr rfl | exact rfl | exact ⟨rfl, rfl⟩ | exact Or.inr ⟨rfl, rfl, rfl⟩ | exact Or.inr ⟨rfl, rfl⟩ | exact Or.inr ⟨rfl, rfl, rfl, rfl⟩ | skip)

theorem releaseHold_keeps (s : State) (hm₀ : Part.among [.thm] K = true) (h₀ : Keeps K s₀ s) :
    Keeps K s₀ (releaseHold s) := by
  refine Keeps.after ?_ hm₀ h₀
  clear hm₀ h₀
  unfold releaseHold
  repeat' first
    | (extract_lets +onlyGivenNames t
       first
         | (refine Keeps.cut (t := t) ?_ (fun ht => ?_)
            on_goal 2 => clear_value t
            subst t)
         | skip)
    | with_reducible exact Keeps.refl _ _
    | with_reducible assumption
    | with_reducible refine Keeps.ite ?_ ?_
    | with_reducible refine Keeps.foldl (fun t x => ?_) ?_
    | (with_reducible apply setTempGroup_keeps; decide)
    | split
    | (with_reducible apply Keeps.upd
       all_goals with_reducible first | exact Or.inl (by decide) | exact Or.inr rfl | exact rfl | exact ⟨rfl, rfl⟩ | exact Or.inr ⟨rfl, rfl, rfl⟩ | exact Or.inr ⟨rfl, rfl⟩ | exact Or.inr ⟨rfl, rfl, rfl, rfl⟩ | skip)

theorem trackPair_keeps (n : ℕ) (s : State) (hm₀ : Part.among [.thm] K = true) (h₀ : Keeps K s₀ s) :
    Keeps K s₀ (trackPair n s) := by
  refine Keeps.after ?_ hm₀ h₀
  clear hm₀ h₀
  unfold trackPair
  repeat' first
    | (extract_lets +onlyGivenNames t
       first
         | (refine Keeps.cut (t := t) ?_ (fun ht => ?_)
            on_goal 2 => clear_value t
            subst t)
         | skip)
    | with_reducible exact Keeps.refl _ _
    | with_reducible assumption
    | with_reducible refine Keeps.ite ?_ ?_
    | (with_reducible apply setSensor_keeps; decide)
    | split
    | (with_reducible apply Keeps.upd
       all_goals with_reducible first | exact Or.inl (by decide) | exact Or.inr rfl | exact rfl | exact ⟨rfl, rfl⟩ | exact Or.inr ⟨rfl, rfl, rfl⟩ | exact Or.inr ⟨rfl, rfl⟩ | exact Or.inr ⟨rfl, rfl, rfl, rfl⟩ | skip)

theorem sampleStep_keeps (n : ℕ) (raw : ℕ) (s : State) (hm₀ : Part.among [.ports, .bureau, .thm, .pins, .sent, .drawn] K = true) (h₀ : Keeps K s₀ s) :
    Keeps K s₀ (sampleStep n raw s) := by
  refine Keeps.after ?_ hm₀ h₀
  clear hm₀ h₀
  unfold sampleStep
  repeat' first
    | (extract_lets +onlyGivenNames t
       first
         | (refine Keeps.cut (t := t) ?_ (fun ht => ?_)
            on_goal 2 => clear_value t
            subst t)
         | skip)
    | with_reducible exact Keeps.refl _ _
    | with_reducible assumption
    | with_reducible refine Keeps.ite ?_ ?_
    | with_reducible refine Keeps.ifEvent ?_ ?_
    | with_reducible refine Keeps.foldl (fun t x => ?_) ?_
    | (with_reducible apply releaseHold_keeps; decide)
    | (with_reducible apply crossing_keeps; decide)
    | (with_reducible apply trackPair_keeps; decide)
    | (with_reducible apply badSample_keeps; decide)
    | (with_reducible apply goodSample_keeps; decide)
    | (with_reducible apply evalGroup_keeps; decide)
    | split
    | (with_reducible apply Keeps.upd
       all_goals with_reducible first | exact Or.inl (by decide) | exact Or.inr rfl | exact rfl | exact ⟨rfl, rfl⟩ | exact Or.inr ⟨rfl, rfl, rfl⟩ | exact Or.inr ⟨rfl, rfl⟩ | exact Or.inr ⟨rfl, rfl, rfl, rfl⟩ | skip)

theorem stepGroup_keeps (g : ℕ) (s : State) (hm₀ : Part.among [.bureau, .thm] K = true) (h₀ : Keeps K s₀ s) :
    Keeps K s₀ (stepGroup g s) := by
  refine Keeps.after ?_ hm₀ h₀
  clear hm₀ h₀
  unfold stepGroup
  repeat' first
    | (extract_lets +onlyGivenNames t
       first
         | (refine Keeps.cut (t := t) ?_ (fun ht => ?_)
            on_goal 2 => clear_value t
            subst t)
         | skip)
    | with_reducible exact Keeps.refl _ _
    | with_reducible assumption
    | with_reducible refine Keeps.ite ?_ ?_
    | (with_reducible apply log_keeps; decide)
    | (with_reducible apply setTempGroup_keeps; decide)
    | split

theorem trip_keeps (s : State) (hm₀ : Part.among [.pwr, .pins, .sent] K = true) (h₀ : Keeps K s₀ s) :
    Keeps K s₀ (trip s) := by
  refine Keeps.after ?_ hm₀ h₀
  clear hm₀ h₀
  unfold trip
  repeat' first
    | (extract_lets +onlyGivenNames t
       first
         | (refine Keeps.cut (t := t) ?_ (fun ht => ?_)
            on_goal 2 => clear_value t
            subst t)
         | skip)
    | with_reducible exact Keeps.refl _ _
    | with_reducible assumption
    | with_reducible refine Keeps.ite ?_ ?_
    | (with_reducible apply sendAll_keeps; decide)
    | split
    | (with_reducible apply Keeps.upd
       all_goals with_reducible first | exact Or.inl (by decide) | exact Or.inr rfl | exact rfl | exact ⟨rfl, rfl⟩ | exact Or.inr ⟨rfl, rfl, rfl⟩ | exact Or.inr ⟨rfl, rfl⟩ | exact Or.inr ⟨rfl, rfl, rfl, rfl⟩ | skip)

theorem writeRecord_keeps (x : Shutdown) (s : State) (hm₀ : Part.among [.pwr, .thm, .pins, .sent] K = true) (h₀ : Keeps K s₀ s) :
    Keeps K s₀ (writeRecord x s) := by
  refine Keeps.after ?_ hm₀ h₀
  clear hm₀ h₀
  unfold writeRecord
  repeat' first
    | with_reducible exact Keeps.refl _ _
    | (with_reducible apply trip_keeps; decide)
    | split
    | (with_reducible apply Keeps.upd
       all_goals with_reducible first | exact Or.inl (by decide) | exact Or.inr rfl | exact rfl | exact ⟨rfl, rfl⟩ | exact Or.inr ⟨rfl, rfl, rfl⟩ | exact Or.inr ⟨rfl, rfl⟩ | exact Or.inr ⟨rfl, rfl, rfl, rfl⟩ | skip)

/-! ### Commands -/

theorem execMr4Poll_keeps (readings : List (ℕ × ℕ)) (s : State) : Out.Keeps [.dmc, .ports, .thm, .pins, .sent, .drawn] s (execMr4Poll readings s) := by
  unfold execMr4Poll
  repeat' first
    | (extract_lets +onlyGivenNames t
       first
         | (refine Out.Keeps.cut (t := t) ?_ (fun ht => ?_)
            on_goal 2 => clear_value t
            subst t)
         | (refine Keeps.cut (t := t) ?_ (fun ht => ?_)
            on_goal 2 => clear_value t
            subst t)
         | skip)
    | with_reducible exact Keeps.refl _ _
    | with_reducible assumption
    | with_reducible refine Out.Keeps.done (by decide) ?_
    | with_reducible refine Keeps.ite ?_ ?_
    | with_reducible refine Keeps.ifEvent ?_ ?_
    | with_reducible refine Keeps.foldl (fun t x => ?_) ?_
    | with_reducible refine Keeps.elim ?_ (fun a => ?_)
    | (with_reducible apply mr4Site_keeps; decide)
    | split
    | (with_reducible apply Keeps.upd
       all_goals with_reducible first | exact Or.inl (by decide) | exact Or.inr rfl | exact rfl | exact ⟨rfl, rfl⟩ | exact Or.inr ⟨rfl, rfl, rfl⟩ | exact Or.inr ⟨rfl, rfl⟩ | exact Or.inr ⟨rfl, rfl, rfl, rfl⟩ | skip)

theorem execPairDisagree_keeps (n : ℕ) (s : State) : Out.Keeps [.bases, .ports, .bureau, .thm, .sent] s (execPairDisagree n s) := by
  unfold execPairDisagree
  repeat' first
    | (extract_lets +onlyGivenNames t
       first
         | (refine Out.Keeps.cut (t := t) ?_ (fun ht => ?_)
            on_goal 2 => clear_value t
            subst t)
         | (refine Keeps.cut (t := t) ?_ (fun ht => ?_)
            on_goal 2 => clear_value t
            subst t)
         | skip)
    | with_reducible exact Keeps.refl _ _
    | with_reducible assumption
    | with_reducible refine Out.Keeps.done (by decide) ?_
    | with_reducible refine Keeps.ite ?_ ?_
    | with_reducible refine Keeps.ifEvent ?_ ?_
    | with_reducible refine Keeps.foldl (fun t x => ?_) ?_
    | with_reducible refine Keeps.elim ?_ (fun a => ?_)
    | (with_reducible apply advanceTo0_keeps; decide)
    | (with_reducible apply log_keeps; decide)
    | (with_reducible apply setSensor_keeps; decide)
    | split
    | (with_reducible apply Keeps.upd
       all_goals with_reducible first | exact Or.inl (by decide) | exact Or.inr rfl | exact rfl | exact ⟨rfl, rfl⟩ | exact Or.inr ⟨rfl, rfl, rfl⟩ | exact Or.inr ⟨rfl, rfl⟩ | exact Or.inr ⟨rfl, rfl, rfl, rfl⟩ | skip)

theorem execSensorConversion_keeps (n : ℕ) (raw : ℕ) (s : State) : Out.Keeps [.ports, .bureau, .thm, .pins, .sent, .drawn] s (execSensorConversion n raw s) := by
  unfold execSensorConversion
  repeat' first
    | (extract_lets +onlyGivenNames t
       first
         | (refine Out.Keeps.cut (t := t) ?_ (fun ht => ?_)
            on_goal 2 => clear_value t
            subst t)
         | (refine Keeps.cut (t := t) ?_ (fun ht => ?_)
            on_goal 2 => clear_value t
            subst t)
         | skip)
    | with_reducible exact Keeps.refl _ _
    | with_reducible assumption
    | with_reducible refine Out.Keeps.done (by decide) ?_
    | with_reducible refine Keeps.ite ?_ ?_
    | with_reducible refine Keeps.ifEvent ?_ ?_
    | with_reducible refine Keeps.foldl (fun t x => ?_) ?_
    | with_reducible refine Keeps.elim ?_ (fun a => ?_)
    | (with_reducible apply sampleStep_keeps; decide)
    | split
    | (with_reducible apply Keeps.upd
       all_goals with_reducible first | exact Or.inl (by decide) | exact Or.inr rfl | exact rfl | exact ⟨rfl, rfl⟩ | exact Or.inr ⟨rfl, rfl, rfl⟩ | exact Or.inr ⟨rfl, rfl⟩ | exact Or.inr ⟨rfl, rfl, rfl, rfl⟩ | skip)

theorem execShutdownNorIdle_keeps (waitedUs : ℕ) (eraseSuspended : Bool) (s : State) : Out.Keeps [.bases, .ports, .pwr, .thm, .pins, .sent] s (execShutdownNorIdle waitedUs eraseSuspended s) := by
  unfold execShutdownNorIdle
  repeat' first
    | (extract_lets +onlyGivenNames t
       first
         | (refine Out.Keeps.cut (t := t) ?_ (fun ht => ?_)
            on_goal 2 => clear_value t
            subst t)
         | (refine Keeps.cut (t := t) ?_ (fun ht => ?_)
            on_goal 2 => clear_value t
            subst t)
         | skip)
    | with_reducible exact Keeps.refl _ _
    | with_reducible assumption
    | with_reducible refine Out.Keeps.done (by decide) ?_
    | with_reducible refine Keeps.ite ?_ ?_
    | with_reducible refine Keeps.ifEvent ?_ ?_
    | with_reducible refine Keeps.foldl (fun t x => ?_) ?_
    | with_reducible refine Keeps.elim ?_ (fun a => ?_)
    | (with_reducible apply writeRecord_keeps; decide)
    | (with_reducible apply advanceTo0_keeps; decide)
    | split
    | (with_reducible apply Keeps.upd
       all_goals with_reducible first | exact Or.inl (by decide) | exact Or.inr rfl | exact rfl | exact ⟨rfl, rfl⟩ | exact Or.inr ⟨rfl, rfl, rfl⟩ | exact Or.inr ⟨rfl, rfl⟩ | exact Or.inr ⟨rfl, rfl, rfl, rfl⟩ | skip)

theorem execShutdownNorTimeout_keeps (s : State) : Out.Keeps [.bases, .ports, .pwr, .thm, .pins, .sent] s (execShutdownNorTimeout s) := by
  unfold execShutdownNorTimeout
  repeat' first
    | (extract_lets +onlyGivenNames t
       first
         | (refine Out.Keeps.cut (t := t) ?_ (fun ht => ?_)
            on_goal 2 => clear_value t
            subst t)
         | (refine Keeps.cut (t := t) ?_ (fun ht => ?_)
            on_goal 2 => clear_value t
            subst t)
         | skip)
    | with_reducible exact Keeps.refl _ _
    | with_reducible assumption
    | with_reducible refine Out.Keeps.done (by decide) ?_
    | with_reducible refine Keeps.ite ?_ ?_
    | with_reducible refine Keeps.ifEvent ?_ ?_
    | with_reducible refine Keeps.foldl (fun t x => ?_) ?_
    | with_reducible refine Keeps.elim ?_ (fun a => ?_)
    | (with_reducible apply writeRecord_keeps; decide)
    | (with_reducible apply advanceTo0_keeps; decide)
    | split
    | (with_reducible apply Keeps.upd
       all_goals with_reducible first | exact Or.inl (by decide) | exact Or.inr rfl | exact rfl | exact ⟨rfl, rfl⟩ | exact Or.inr ⟨rfl, rfl, rfl⟩ | exact Or.inr ⟨rfl, rfl⟩ | exact Or.inr ⟨rfl, rfl, rfl, rfl⟩ | skip)

theorem execShutdownRecordWritten_keeps (s : State) : Out.Keeps [.ports, .pwr, .thm, .pins, .sent] s (execShutdownRecordWritten s) := by
  unfold execShutdownRecordWritten
  repeat' first
    | (extract_lets +onlyGivenNames t
       first
         | (refine Out.Keeps.cut (t := t) ?_ (fun ht => ?_)
            on_goal 2 => clear_value t
            subst t)
         | (refine Keeps.cut (t := t) ?_ (fun ht => ?_)
            on_goal 2 => clear_value t
            subst t)
         | skip)
    | with_reducible exact Keeps.refl _ _
    | with_reducible assumption
    | with_reducible refine Out.Keeps.done (by decide) ?_
    | with_reducible refine Keeps.ite ?_ ?_
    | with_reducible refine Keeps.ifEvent ?_ ?_
    | with_reducible refine Keeps.foldl (fun t x => ?_) ?_
    | with_reducible refine Keeps.elim ?_ (fun a => ?_)
    | (with_reducible apply trip_keeps; decide)
    | split
    | (with_reducible apply Keeps.upd
       all_goals with_reducible first | exact Or.inl (by decide) | exact Or.inr rfl | exact rfl | exact ⟨rfl, rfl⟩ | exact Or.inr ⟨rfl, rfl, rfl⟩ | exact Or.inr ⟨rfl, rfl⟩ | exact Or.inr ⟨rfl, rfl, rfl, rfl⟩ | skip)

theorem execShutdownTripTimeout_keeps (s : State) : Out.Keeps [.bases, .ports, .pwr, .pins, .sent] s (execShutdownTripTimeout s) := by
  unfold execShutdownTripTimeout
  repeat' first
    | (extract_lets +onlyGivenNames t
       first
         | (refine Out.Keeps.cut (t := t) ?_ (fun ht => ?_)
            on_goal 2 => clear_value t
            subst t)
         | (refine Keeps.cut (t := t) ?_ (fun ht => ?_)
            on_goal 2 => clear_value t
            subst t)
         | skip)
    | with_reducible exact Keeps.refl _ _
    | with_reducible assumption
    | with_reducible refine Out.Keeps.done (by decide) ?_
    | with_reducible refine Keeps.ite ?_ ?_
    | with_reducible refine Keeps.ifEvent ?_ ?_
    | with_reducible refine Keeps.foldl (fun t x => ?_) ?_
    | with_reducible refine Keeps.elim ?_ (fun a => ?_)
    | (with_reducible apply trip_keeps; decide)
    | (with_reducible apply advanceTo0_keeps; decide)
    | split
    | (with_reducible apply Keeps.upd
       all_goals with_reducible first | exact Or.inl (by decide) | exact Or.inr rfl | exact rfl | exact ⟨rfl, rfl⟩ | exact Or.inr ⟨rfl, rfl, rfl⟩ | exact Or.inr ⟨rfl, rfl⟩ | exact Or.inr ⟨rfl, rfl, rfl, rfl⟩ | skip)

theorem execStepperEval_keeps (s : State) : Out.Keeps [.ports, .bureau, .thm, .sent] s (execStepperEval s) := by
  unfold execStepperEval
  repeat' first
    | (extract_lets +onlyGivenNames t
       first
         | (refine Out.Keeps.cut (t := t) ?_ (fun ht => ?_)
            on_goal 2 => clear_value t
            subst t)
         | (refine Keeps.cut (t := t) ?_ (fun ht => ?_)
            on_goal 2 => clear_value t
            subst t)
         | skip)
    | with_reducible exact Keeps.refl _ _
    | with_reducible assumption
    | with_reducible refine Out.Keeps.done (by decide) ?_
    | with_reducible refine Keeps.ite ?_ ?_
    | with_reducible refine Keeps.ifEvent ?_ ?_
    | with_reducible refine Keeps.foldl (fun t x => ?_) ?_
    | with_reducible refine Keeps.elim ?_ (fun a => ?_)
    | (with_reducible apply stepGroup_keeps; decide)
    | split
    | (with_reducible apply Keeps.upd
       all_goals with_reducible first | exact Or.inl (by decide) | exact Or.inr rfl | exact rfl | exact ⟨rfl, rfl⟩ | exact Or.inr ⟨rfl, rfl, rfl⟩ | exact Or.inr ⟨rfl, rfl⟩ | exact Or.inr ⟨rfl, rfl, rfl, rfl⟩ | skip)

end Sys2Proof.Machine
end

