-- ==== Sys2Proof/Laws/KeepsOutput.lean ====
section
/-! SUPPORT. What the operations of Machine/Output.lean may change: one lemma each, which says that the
parts it does not name, the form of the DRAM, the Bureau's chain and the queue are kept. -/

open Host

set_option linter.unusedTactic false
set_option linter.unreachableTactic false
set_option linter.tactic.unusedName false

namespace Sys2Proof.Machine

variable {K : List Part} {s₀ : State}

theorem flushWord_keeps (poison : List (ℕ × ℕ)) (copy : ℕ) (s : State) (es : ℕ × ℕ) (hm₀ : Part.among [.out, .dmc] K = true) (h₀ : Keeps K s₀ s) :
    Keeps K s₀ (flushWord poison copy s es) := by
  refine Keeps.after ?_ hm₀ h₀
  clear hm₀ h₀
  unfold flushWord
  repeat' first
    | (extract_lets +onlyGivenNames t
       first
         | (refine Keeps.cut (t := t) ?_ (fun ht => ?_)
            on_goal 2 => clear_value t
            subst t)
         | skip)
    | with_reducible exact Keeps.refl _ _
    | with_reducible assumption
    | with_reducible refine Keeps.ite ?_ ?_
    | with_reducible refine Keeps.ifEvent ?_ ?_
    | (with_reducible apply noteMarks_keeps; decide)
    | split
    | (with_reducible apply Keeps.upd
       all_goals with_reducible first | exact Or.inl (by decide) | exact Or.inr rfl | exact rfl | exact ⟨rfl, rfl⟩ | exact Or.inr ⟨rfl, rfl, rfl⟩ | exact Or.inr ⟨rfl, rfl⟩ | exact Or.inr ⟨rfl, rfl, rfl, rfl⟩ | skip)

theorem flushRow_keeps (r : ℕ) (poison : List (ℕ × ℕ)) (s : State) (hm₀ : Part.among [.out, .dmc] K = true) (h₀ : Keeps K s₀ s) :
    Keeps K s₀ (flushRow r poison s) := by
  refine Keeps.after ?_ hm₀ h₀
  clear hm₀ h₀
  unfold flushRow
  repeat' first
    | (extract_lets +onlyGivenNames t
       first
         | (refine Keeps.cut (t := t) ?_ (fun ht => ?_)
            on_goal 2 => clear_value t
            subst t)
         | skip)
    | with_reducible exact Keeps.refl _ _
    | with_reducible assumption
    | with_reducible refine Keeps.ite ?_ ?_
    | with_reducible refine Keeps.ifEvent ?_ ?_
    | with_reducible refine Keeps.foldl (fun t x => ?_) ?_
    | (with_reducible apply flushWord_keeps; decide)
    | split
    | (with_reducible apply Keeps.upd
       all_goals with_reducible first | exact Or.inl (by decide) | exact Or.inr rfl | exact rfl | exact ⟨rfl, rfl⟩ | exact Or.inr ⟨rfl, rfl, rfl⟩ | exact Or.inr ⟨rfl, rfl⟩ | exact Or.inr ⟨rfl, rfl, rfl, rfl⟩ | skip)

theorem sumLine_keeps (tile : ℕ) (line : ℕ) (times : ℕ) (px : List (ℕ × ℕ × ℕ)) (s : State) (hm₀ : Part.among [.out] K = true) (h₀ : Keeps K s₀ s) :
    Keeps K s₀ (sumLine tile line times px s) := by
  refine Keeps.after ?_ hm₀ h₀
  clear hm₀ h₀
  unfold sumLine
  repeat' first
    | with_reducible exact Keeps.refl _ _
    | (with_reducible apply Keeps.upd
       all_goals with_reducible first | exact Or.inl (by decide) | exact Or.inr rfl | exact rfl | exact ⟨rfl, rfl⟩ | exact Or.inr ⟨rfl, rfl, rfl⟩ | exact Or.inr ⟨rfl, rfl⟩ | exact Or.inr ⟨rfl, rfl, rfl, rfl⟩ | skip)

theorem countOutPoison_keeps (obs : LineObs) (s : State) (hm₀ : Part.among [.out] K = true) (h₀ : Keeps K s₀ s) :
    Keeps K s₀ (countOutPoison obs s) := by
  refine Keeps.after ?_ hm₀ h₀
  clear hm₀ h₀
  unfold countOutPoison
  repeat' first
    | (extract_lets +onlyGivenNames t
       first
         | (refine Keeps.cut (t := t) ?_ (fun ht => ?_)
            on_goal 2 => clear_value t
            subst t)
         | skip)
    | with_reducible exact Keeps.refl _ _
    | with_reducible assumption
    | (with_reducible apply Keeps.upd
       all_goals with_reducible first | exact Or.inl (by decide) | exact Or.inr rfl | exact rfl | exact ⟨rfl, rfl⟩ | exact Or.inr ⟨rfl, rfl, rfl⟩ | exact Or.inr ⟨rfl, rfl⟩ | exact Or.inr ⟨rfl, rfl, rfl, rfl⟩ | skip)

theorem swapCurves_keeps (o : Origin) (s : State) (hm₀ : Part.among [.out, .bureau] K = true) (h₀ : Keeps K s₀ s) :
    Keeps K s₀ (swapCurves o s) := by
  refine Keeps.after ?_ hm₀ h₀
  clear hm₀ h₀
  unfold swapCurves
  repeat' first
    | (extract_lets +onlyGivenNames t
       first
         | (refine Keeps.cut (t := t) ?_ (fun ht => ?_)
            on_goal 2 => clear_value t
            subst t)
         | skip)
    | with_reducible exact Keeps.refl _ _
    | with_reducible assumption
    | (with_reducible apply log_keeps; decide)
    | (with_reducible apply Keeps.upd
       all_goals with_reducible first | exact Or.inl (by decide) | exact Or.inr rfl | exact rfl | exact ⟨rfl, rfl⟩ | exact Or.inr ⟨rfl, rfl, rfl⟩ | exact Or.inr ⟨rfl, rfl⟩ | exact Or.inr ⟨rfl, rfl, rfl, rfl⟩ | skip)

theorem swapMaps_keeps (o : Origin) (s : State) (hm₀ : Part.among [.out, .bureau] K = true) (h₀ : Keeps K s₀ s) :
    Keeps K s₀ (swapMaps o s) := by
  refine Keeps.after ?_ hm₀ h₀
  clear hm₀ h₀
  unfold swapMaps
  repeat' first
    | (extract_lets +onlyGivenNames t
       first
         | (refine Keeps.cut (t := t) ?_ (fun ht => ?_)
            on_goal 2 => clear_value t
            subst t)
         | skip)
    | with_reducible exact Keeps.refl _ _
    | with_reducible assumption
    | (with_reducible apply log_keeps; decide)
    | (with_reducible apply Keeps.upd
       all_goals with_reducible first | exact Or.inl (by decide) | exact Or.inr rfl | exact rfl | exact ⟨rfl, rfl⟩ | exact Or.inr ⟨rfl, rfl, rfl⟩ | exact Or.inr ⟨rfl, rfl⟩ | exact Or.inr ⟨rfl, rfl, rfl, rfl⟩ | skip)

theorem swapStress_keeps (f0 : ℕ) (o : Origin) (s : State) (hm₀ : Part.among [.out, .bureau] K = true) (h₀ : Keeps K s₀ s) :
    Keeps K s₀ (swapStress f0 o s) := by
  refine Keeps.after ?_ hm₀ h₀
  clear hm₀ h₀
  unfold swapStress
  repeat' first
    | with_reducible exact Keeps.refl _ _
    | (with_reducible apply log_keeps; decide)
    | (with_reducible apply Keeps.upd
       all_goals with_reducible first | exact Or.inl (by decide) | exact Or.inr rfl | exact rfl | exact ⟨rfl, rfl⟩ | exact Or.inr ⟨rfl, rfl, rfl⟩ | exact Or.inr ⟨rfl, rfl⟩ | exact Or.inr ⟨rfl, rfl, rfl, rfl⟩ | skip)

theorem swapWorkBank_keeps (s : State) (hm₀ : Part.among [.out] K = true) (h₀ : Keeps K s₀ s) :
    Keeps K s₀ (swapWorkBank s) := by
  refine Keeps.after ?_ hm₀ h₀
  clear hm₀ h₀
  unfold swapWorkBank
  repeat' first
    | with_reducible exact Keeps.refl _ _
    | (with_reducible apply Keeps.upd
       all_goals with_reducible first | exact Or.inl (by decide) | exact Or.inr rfl | exact rfl | exact ⟨rfl, rfl⟩ | exact Or.inr ⟨rfl, rfl, rfl⟩ | exact Or.inr ⟨rfl, rfl⟩ | exact Or.inr ⟨rfl, rfl, rfl, rfl⟩ | skip)

theorem noteDiffer_keeps (differ : Option ℕ) (s : State) (hm₀ : Part.among [.out, .bureau, .drawn] K = true) (h₀ : Keeps K s₀ s) :
    Keeps K s₀ (noteDiffer differ s) := by
  refine Keeps.after ?_ hm₀ h₀
  clear hm₀ h₀
  unfold noteDiffer
  repeat' first
    | with_reducible exact Keeps.refl _ _
    | (with_reducible apply drew_keeps; decide)
    | (with_reducible apply log_keeps; decide)
    | split
    | (with_reducible apply Keeps.upd
       all_goals with_reducible first | exact Or.inl (by decide) | exact Or.inr rfl | exact rfl | exact ⟨rfl, rfl⟩ | exact Or.inr ⟨rfl, rfl, rfl⟩ | exact Or.inr ⟨rfl, rfl⟩ | exact Or.inr ⟨rfl, rfl, rfl, rfl⟩ | skip)

theorem installTargets_keeps (m : AgeModel) (s : State) (hm₀ : Part.among [.tim, .out] K = true) (h₀ : Keeps K s₀ s) :
    Keeps K s₀ (installTargets m s) := by
  refine Keeps.after ?_ hm₀ h₀
  clear hm₀ h₀
  unfold installTargets
  repeat' first
    | (extract_lets +onlyGivenNames t
       first
         | (refine Keeps.cut (t := t) ?_ (fun ht => ?_)
            on_goal 2 => clear_value t
            subst t)
         | skip)
    | with_reducible exact Keeps.refl _ _
    | with_reducible assumption
    | with_reducible refine Keeps.foldl (fun t x => ?_) ?_
    | (with_reducible apply plan_keeps; decide)
    | (with_reducible apply Keeps.upd
       all_goals with_reducible first | exact Or.inl (by decide) | exact Or.inr rfl | exact rfl | exact ⟨rfl, rfl⟩ | exact Or.inr ⟨rfl, rfl, rfl⟩ | exact Or.inr ⟨rfl, rfl⟩ | exact Or.inr ⟨rfl, rfl, rfl, rfl⟩ | skip)

theorem rebuild_keeps (keep : ℕ) (s : State) (hm₀ : Part.among [.out] K = true) (h₀ : Keeps K s₀ s) :
    Keeps K s₀ (rebuild keep s) := by
  refine Keeps.after ?_ hm₀ h₀
  clear hm₀ h₀
  unfold rebuild
  repeat' first
    | (extract_lets +onlyGivenNames t
       first
         | (refine Keeps.cut (t := t) ?_ (fun ht => ?_)
            on_goal 2 => clear_value t
            subst t)
         | skip)
    | with_reducible exact Keeps.refl _ _
    | with_reducible assumption
    | (with_reducible apply Keeps.upd
       all_goals with_reducible first | exact Or.inl (by decide) | exact Or.inr rfl | exact rfl | exact ⟨rfl, rfl⟩ | exact Or.inr ⟨rfl, rfl, rfl⟩ | exact Or.inr ⟨rfl, rfl⟩ | exact Or.inr ⟨rfl, rfl, rfl, rfl⟩ | skip)

theorem settleCopies_keeps (m : AgeModel) (differ : Option ℕ) (s : State) (hm₀ : Part.among [.tim, .out, .bureau, .drawn] K = true) (h₀ : Keeps K s₀ s) :
    Keeps K s₀ (settleCopies m differ s) := by
  refine Keeps.after ?_ hm₀ h₀
  clear hm₀ h₀
  unfold settleCopies
  repeat' first
    | (extract_lets +onlyGivenNames t
       first
         | (refine Keeps.cut (t := t) ?_ (fun ht => ?_)
            on_goal 2 => clear_value t
            subst t)
         | skip)
    | with_reducible exact Keeps.refl _ _
    | with_reducible assumption
    | with_reducible refine Keeps.ite ?_ ?_
    | (with_reducible apply noteDiffer_keeps; decide)
    | (with_reducible apply installTargets_keeps; decide)
    | (with_reducible apply log_keeps; decide)
    | (with_reducible apply rebuild_keeps; decide)
    | split
    | (with_reducible apply Keeps.upd
       all_goals with_reducible first | exact Or.inl (by decide) | exact Or.inr rfl | exact rfl | exact ⟨rfl, rfl⟩ | exact Or.inr ⟨rfl, rfl, rfl⟩ | exact Or.inr ⟨rfl, rfl⟩ | exact Or.inr ⟨rfl, rfl, rfl, rfl⟩ | skip)

theorem compareCopies_keeps (s : State) (hm₀ : Part.among [.tim, .out, .bureau, .drawn] K = true) (h₀ : Keeps K s₀ s) :
    Keeps K s₀ (compareCopies s) := by
  refine Keeps.after ?_ hm₀ h₀
  clear hm₀ h₀
  unfold compareCopies
  repeat' first
    | with_reducible exact Keeps.refl _ _
    | (with_reducible apply settleCopies_keeps; decide)
    | split
    | (with_reducible apply Keeps.upd
       all_goals with_reducible first | exact Or.inl (by decide) | exact Or.inr rfl | exact rfl | exact ⟨rfl, rfl⟩ | exact Or.inr ⟨rfl, rfl, rfl⟩ | exact Or.inr ⟨rfl, rfl⟩ | exact Or.inr ⟨rfl, rfl, rfl, rfl⟩ | skip)

theorem unmark_keeps (ls : List Nat) (s : State) (hm₀ : Part.among [.dram] K = true) (h₀ : Keeps K s₀ s) : Keeps K s₀ (unmark ls s) := by
  refine Keeps.after (t := s) ⟨fun p hp => ?_, id, id, rfl⟩ hm₀ h₀
  cases p <;> first | exact absurd (by decide) hp | simp [Part.same, unmark]

theorem restoreWords_keeps (s : State) (hm₀ : Part.among [.out, .dram] K = true) (h₀ : Keeps K s₀ s) :
    Keeps K s₀ (restoreWords s) := by
  refine Keeps.after ?_ hm₀ h₀
  clear hm₀ h₀
  unfold restoreWords
  repeat' first
    | (extract_lets +onlyGivenNames t
       first
         | (refine Keeps.cut (t := t) ?_ (fun ht => ?_)
            on_goal 2 => clear_value t
            subst t)
         | skip)
    | with_reducible exact Keeps.refl _ _
    | with_reducible assumption
    | with_reducible refine Keeps.ite ?_ ?_
    | with_reducible refine Keeps.ifEvent ?_ ?_
    | with_reducible refine Keeps.foldl (fun t x => ?_) ?_
    | (with_reducible apply unmark_keeps; decide)
    | split
    | (with_reducible apply Keeps.upd
       all_goals with_reducible first | exact Or.inl (by decide) | exact Or.inr rfl | exact rfl | exact ⟨rfl, rfl⟩ | exact Or.inr ⟨rfl, rfl, rfl⟩ | exact Or.inr ⟨rfl, rfl⟩ | exact Or.inr ⟨rfl, rfl, rfl, rfl⟩ | skip)

theorem foldBank_keeps (x : ℕ) (s : State) (hm₀ : Part.among [.out, .dram] K = true) (h₀ : Keeps K s₀ s) :
    Keeps K s₀ (foldBank x s) := by
  refine Keeps.after ?_ hm₀ h₀
  clear hm₀ h₀
  unfold foldBank
  repeat' first
    | (extract_lets +onlyGivenNames t
       first
         | (refine Keeps.cut (t := t) ?_ (fun ht => ?_)
            on_goal 2 => clear_value t
            subst t)
         | skip)
    | with_reducible exact Keeps.refl _ _
    | with_reducible assumption
    | with_reducible refine Keeps.ite ?_ ?_
    | with_reducible refine Keeps.ifEvent ?_ ?_
    | with_reducible refine Keeps.foldl (fun t x => ?_) ?_
    | (with_reducible apply restoreWords_keeps; decide)
    | split
    | (with_reducible apply Keeps.upd
       all_goals with_reducible first | exact Or.inl (by decide) | exact Or.inr rfl | exact rfl | exact ⟨rfl, rfl⟩ | exact Or.inr ⟨rfl, rfl, rfl⟩ | exact Or.inr ⟨rfl, rfl⟩ | exact Or.inr ⟨rfl, rfl, rfl, rfl⟩ | skip)

theorem foldNow_keeps (s : State) (hm₀ : Part.among [.out, .dram] K = true) (h₀ : Keeps K s₀ s) :
    Keeps K s₀ (foldNow s) := by
  refine Keeps.after ?_ hm₀ h₀
  clear hm₀ h₀
  unfold foldNow
  repeat' first
    | with_reducible exact Keeps.refl _ _
    | with_reducible assumption
    | with_reducible refine Keeps.ite ?_ ?_
    | with_reducible refine Keeps.ifEvent ?_ ?_
    | with_reducible refine Keeps.foldl (fun t x => ?_) ?_
    | (with_reducible apply foldBank_keeps; decide)
    | split
    | (with_reducible apply Keeps.upd
       all_goals with_reducible first | exact Or.inl (by decide) | exact Or.inr rfl | exact rfl | exact ⟨rfl, rfl⟩ | exact Or.inr ⟨rfl, rfl, rfl⟩ | exact Or.inr ⟨rfl, rfl⟩ | exact Or.inr ⟨rfl, rfl, rfl, rfl⟩ | skip)

theorem outputTick_keeps (s : State) (hm₀ : Part.among [.out] K = true) (h₀ : Keeps K s₀ s) :
    Keeps K s₀ (outputTick s) := by
  refine Keeps.after ?_ hm₀ h₀
  clear hm₀ h₀
  unfold outputTick
  repeat' first
    | with_reducible exact Keeps.refl _ _
    | (with_reducible apply Keeps.upd
       all_goals with_reducible first | exact Or.inl (by decide) | exact Or.inr rfl | exact rfl | exact ⟨rfl, rfl⟩ | exact Or.inr ⟨rfl, rfl, rfl⟩ | exact Or.inr ⟨rfl, rfl⟩ | exact Or.inr ⟨rfl, rfl, rfl, rfl⟩ | skip)

theorem outputLatch_keeps (s : State) (hm₀ : Part.among [.out, .pwr] K = true) (h₀ : Keeps K s₀ s) :
    Keeps K s₀ (outputLatch s) := by
  refine Keeps.after ?_ hm₀ h₀
  clear hm₀ h₀
  unfold outputLatch
  repeat' first
    | (extract_lets +onlyGivenNames t
       first
         | (refine Keeps.cut (t := t) ?_ (fun ht => ?_)
            on_goal 2 => clear_value t
            subst t)
         | skip)
    | with_reducible exact Keeps.refl _ _
    | with_reducible assumption
    | with_reducible refine Keeps.ite ?_ ?_
    | split
    | (with_reducible apply Keeps.upd
       all_goals with_reducible first | exact Or.inl (by decide) | exact Or.inr rfl | exact rfl | exact ⟨rfl, rfl⟩ | exact Or.inr ⟨rfl, rfl, rfl⟩ | exact Or.inr ⟨rfl, rfl⟩ | exact Or.inr ⟨rfl, rfl, rfl, rfl⟩ | skip)

theorem persistLedger_keeps (s : State) (hm₀ : Part.among [.out, .dfl] K = true) (h₀ : Keeps K s₀ s) :
    Keeps K s₀ (persistLedger s) := by
  refine Keeps.after ?_ hm₀ h₀
  clear hm₀ h₀
  unfold persistLedger
  repeat' first
    | (extract_lets +onlyGivenNames t
       first
         | (refine Keeps.cut (t := t) ?_ (fun ht => ?_)
            on_goal 2 => clear_value t
            subst t)
         | skip)
    | with_reducible exact Keeps.refl _ _
    | with_reducible assumption
    | with_reducible refine Keeps.ite ?_ ?_
    | with_reducible refine Keeps.ifEvent ?_ ?_
    | with_reducible refine Keeps.elim ?_ (fun a => ?_)
    | (with_reducible apply internalJob_keeps; decide)
    | split
    | (with_reducible apply Keeps.upd
       all_goals with_reducible first | exact Or.inl (by decide) | exact Or.inr rfl | exact rfl | exact ⟨rfl, rfl⟩ | exact Or.inr ⟨rfl, rfl, rfl⟩ | exact Or.inr ⟨rfl, rfl⟩ | exact Or.inr ⟨rfl, rfl, rfl, rfl⟩ | skip)

theorem updateStepOf_keeps (s : State) (hm₀ : Part.among [.tim, .out, .dram, .bureau, .drawn] K = true) (h₀ : Keeps K s₀ s) :
    Keeps K s₀ (updateStepOf s) := by
  refine Keeps.after ?_ hm₀ h₀
  clear hm₀ h₀
  unfold updateStepOf
  repeat' first
    | (extract_lets +onlyGivenNames t
       first
         | (refine Keeps.cut (t := t) ?_ (fun ht => ?_)
            on_goal 2 => clear_value t
            subst t)
         | skip)
    | with_reducible exact Keeps.refl _ _
    | with_reducible assumption
    | with_reducible refine Keeps.ite ?_ ?_
    | with_reducible refine Keeps.ifEvent ?_ ?_
    | with_reducible refine Keeps.foldl (fun t x => ?_) ?_
    | (with_reducible apply compareCopies_keeps; decide)
    | (with_reducible apply foldBank_keeps; decide)
    | (with_reducible apply plan_keeps; decide)
    | split
    | (with_reducible apply Keeps.upd
       all_goals with_reducible first | exact Or.inl (by decide) | exact Or.inr rfl | exact rfl | exact ⟨rfl, rfl⟩ | exact Or.inr ⟨rfl, rfl, rfl⟩ | exact Or.inr ⟨rfl, rfl⟩ | exact Or.inr ⟨rfl, rfl, rfl, rfl⟩ | skip)

/-! ### Commands -/

theorem execLedgerPersist_keeps (s : State) : Out.Keeps [.bases, .out, .dfl, .ports, .sent] s (execLedgerPersist s) := by
  unfold execLedgerPersist
  repeat' first
    | (extract_lets +onlyGivenNames t
       first
         | (refine Out.Keeps.cut (t := t) ?_ (fun ht => ?_)
            on_goal 2 => clear_value t
            subst t)
         | (refine Keeps.cut (t := t) ?_ (fun ht => ?_)
            on_goal 2 => clear_value t
            subst t)
         | skip)
    | with_reducible exact Keeps.refl _ _
    | with_reducible assumption
    | with_reducible refine Out.Keeps.done (by decide) ?_
    | with_reducible refine Keeps.ite ?_ ?_
    | with_reducible refine Keeps.ifEvent ?_ ?_
    | with_reducible refine Keeps.foldl (fun t x => ?_) ?_
    | with_reducible refine Keeps.elim ?_ (fun a => ?_)
    | (with_reducible apply persistLedger_keeps; decide)
    | (with_reducible apply advanceTo0_keeps; decide)
    | split
    | (with_reducible apply Keeps.upd
       all_goals with_reducible first | exact Or.inl (by decide) | exact Or.inr rfl | exact rfl | exact ⟨rfl, rfl⟩ | exact Or.inr ⟨rfl, rfl, rfl⟩ | exact Or.inr ⟨rfl, rfl⟩ | exact Or.inr ⟨rfl, rfl, rfl, rfl⟩ | skip)

theorem execStressUpdate_keeps (s : State) : Out.Keeps [.tim, .bases, .out, .dram, .ports, .bureau, .sent, .drawn] s (execStressUpdate s) := by
  unfold execStressUpdate
  repeat' first
    | (extract_lets +onlyGivenNames t
       first
         | (refine Out.Keeps.cut (t := t) ?_ (fun ht => ?_)
            on_goal 2 => clear_value t
            subst t)
         | (refine Keeps.cut (t := t) ?_ (fun ht => ?_)
            on_goal 2 => clear_value t
            subst t)
         | skip)
    | with_reducible exact Keeps.refl _ _
    | with_reducible assumption
    | with_reducible refine Out.Keeps.done (by decide) ?_
    | with_reducible refine Keeps.ite ?_ ?_
    | with_reducible refine Keeps.ifEvent ?_ ?_
    | with_reducible refine Keeps.foldl (fun t x => ?_) ?_
    | with_reducible refine Keeps.elim ?_ (fun a => ?_)
    | (with_reducible apply updateStepOf_keeps; decide)
    | (with_reducible apply advanceTo0_keeps; decide)
    | split
    | (with_reducible apply Keeps.upd
       all_goals with_reducible first | exact Or.inl (by decide) | exact Or.inr rfl | exact rfl | exact ⟨rfl, rfl⟩ | exact Or.inr ⟨rfl, rfl, rfl⟩ | exact Or.inr ⟨rfl, rfl⟩ | exact Or.inr ⟨rfl, rfl, rfl, rfl⟩ | skip)

end Sys2Proof.Machine
end

