-- ==== Sys2Proof/Laws/KeepsWalec.lean ====
section
/-! SUPPORT. What the operations of Machine/Walec.lean may change: one lemma each, which says that the
parts it does not name, the form of the DRAM, the Bureau's chain and the queue are kept. -/

open Host

set_option linter.unusedTactic false
set_option linter.unreachableTactic false
set_option linter.tactic.unusedName false

namespace Sys2Proof.Machine

variable {K : List Part} {s₀ : State}

theorem cutStage_keeps (r : Request) (s : State) (hm₀ : Part.among [.bot, .drawn] K = true) (h₀ : Keeps K s₀ s) :
    Keeps K s₀ (cutStage r s) := by
  refine Keeps.after ?_ hm₀ h₀
  clear hm₀ h₀
  unfold cutStage
  repeat' first
    | (extract_lets +onlyGivenNames t
       first
         | (refine Keeps.cut (t := t) ?_ (fun ht => ?_)
            on_goal 2 => clear_value t
            subst t)
         | skip)
    | with_reducible exact Keeps.refl _ _
    | with_reducible assumption
    | with_reducible refine Keeps.ite ?_ ?_
    | with_reducible refine Keeps.ifEvent ?_ ?_
    | (with_reducible apply drew_keeps; decide)
    | split
    | (with_reducible apply Keeps.upd
       all_goals with_reducible first | exact Or.inl (by decide) | exact Or.inr rfl | exact rfl | exact ⟨rfl, rfl⟩ | exact Or.inr ⟨rfl, rfl, rfl⟩ | exact Or.inr ⟨rfl, rfl⟩ | exact Or.inr ⟨rfl, rfl, rfl, rfl⟩ | skip)

theorem cutLoad_keeps (s : State) (hm₀ : Part.among [.geom, .out, .bot, .drawn] K = true) (h₀ : Keeps K s₀ s) :
    Keeps K s₀ (cutLoad s) := by
  refine Keeps.after ?_ hm₀ h₀
  clear hm₀ h₀
  unfold cutLoad
  repeat' first
    | (extract_lets +onlyGivenNames t
       first
         | (refine Keeps.cut (t := t) ?_ (fun ht => ?_)
            on_goal 2 => clear_value t
            subst t)
         | skip)
    | with_reducible exact Keeps.refl _ _
    | with_reducible assumption
    | with_reducible refine Keeps.ite ?_ ?_
    | with_reducible refine Keeps.ifEvent ?_ ?_
    | (with_reducible apply cutStage_keeps; decide)
    | (with_reducible apply drew_keeps; decide)
    | split
    | (with_reducible apply Keeps.upd
       all_goals with_reducible first | exact Or.inl (by decide) | exact Or.inr rfl | exact rfl | exact ⟨rfl, rfl⟩ | exact Or.inr ⟨rfl, rfl, rfl⟩ | exact Or.inr ⟨rfl, rfl⟩ | exact Or.inr ⟨rfl, rfl, rfl, rfl⟩ | skip)

theorem exhaust_keeps (cls : ℕ) (s : State) (hm₀ : Part.among [.bureau, .spr] K = true) (h₀ : Keeps K s₀ s) :
    Keeps K s₀ (exhaust cls s) := by
  refine Keeps.after ?_ hm₀ h₀
  clear hm₀ h₀
  unfold exhaust
  repeat' first
    | with_reducible exact Keeps.refl _ _
    | with_reducible refine Keeps.ite ?_ ?_
    | (with_reducible apply log_keeps; decide)
    | split
    | (with_reducible apply Keeps.upd
       all_goals with_reducible first | exact Or.inl (by decide) | exact Or.inr rfl | exact rfl | exact ⟨rfl, rfl⟩ | exact Or.inr ⟨rfl, rfl, rfl⟩ | exact Or.inr ⟨rfl, rfl⟩ | exact Or.inr ⟨rfl, rfl, rfl, rfl⟩ | skip)

theorem bootFailed_keeps (s : State) (hm₀ : Part.among [.ports, .bot, .pins, .sent] K = true) (h₀ : Keeps K s₀ s) :
    Keeps K s₀ (bootFailed s) := by
  refine Keeps.after ?_ hm₀ h₀
  clear hm₀ h₀
  unfold bootFailed
  repeat' first
    | with_reducible exact Keeps.refl _ _
    | (with_reducible apply assertFault_keeps; decide)
    | (with_reducible apply Keeps.upd
       all_goals with_reducible first | exact Or.inl (by decide) | exact Or.inr rfl | exact rfl | exact ⟨rfl, rfl⟩ | exact Or.inr ⟨rfl, rfl, rfl⟩ | exact Or.inr ⟨rfl, rfl⟩ | exact Or.inr ⟨rfl, rfl, rfl, rfl⟩ | skip)

theorem verifyFail_keeps (k : ℕ) (check : ℕ) (s : State) (hm₀ : Part.among [.bureau, .bot] K = true) (h₀ : Keeps K s₀ s) :
    Keeps K s₀ (verifyFail k check s) := by
  refine Keeps.after ?_ hm₀ h₀
  clear hm₀ h₀
  unfold verifyFail
  repeat' first
    | with_reducible exact Keeps.refl _ _
    | (with_reducible apply log_keeps; decide)
    | (with_reducible apply Keeps.upd
       all_goals with_reducible first | exact Or.inl (by decide) | exact Or.inr rfl | exact rfl | exact ⟨rfl, rfl⟩ | exact Or.inr ⟨rfl, rfl, rfl⟩ | exact Or.inr ⟨rfl, rfl⟩ | exact Or.inr ⟨rfl, rfl, rfl, rfl⟩ | skip)

theorem startImage_keeps (k : ℕ) (trial : Bool) (s : State) (hm₀ : Part.among [.bot] K = true) (h₀ : Keeps K s₀ s) :
    Keeps K s₀ (startImage k trial s) := by
  refine Keeps.after ?_ hm₀ h₀
  clear hm₀ h₀
  unfold startImage
  repeat' first
    | with_reducible exact Keeps.refl _ _
    | with_reducible refine Keeps.ite ?_ ?_
    | split
    | (with_reducible apply Keeps.upd
       all_goals with_reducible first | exact Or.inl (by decide) | exact Or.inr rfl | exact rfl | exact ⟨rfl, rfl⟩ | exact Or.inr ⟨rfl, rfl, rfl⟩ | exact Or.inr ⟨rfl, rfl⟩ | exact Or.inr ⟨rfl, rfl, rfl, rfl⟩ | skip)

theorem fallback_keeps (k : ℕ) (refused : ℕ) (s : State) (hm₀ : Part.among [.ports, .bureau, .bot, .pins, .sent] K = true) (h₀ : Keeps K s₀ s) :
    Keeps K s₀ (fallback k refused s) := by
  refine Keeps.after ?_ hm₀ h₀
  clear hm₀ h₀
  unfold fallback
  repeat' first
    | (extract_lets +onlyGivenNames t
       first
         | (refine Keeps.cut (t := t) ?_ (fun ht => ?_)
            on_goal 2 => clear_value t
            subst t)
         | skip)
    | with_reducible exact Keeps.refl _ _
    | with_reducible assumption
    | (with_reducible apply bootFailed_keeps; decide)
    | (with_reducible apply verifyFail_keeps; decide)
    | (with_reducible apply startImage_keeps; decide)
    | (with_reducible apply log_keeps; decide)
    | split
    | (with_reducible apply Keeps.upd
       all_goals with_reducible first | exact Or.inl (by decide) | exact Or.inr rfl | exact rfl | exact ⟨rfl, rfl⟩ | exact Or.inr ⟨rfl, rfl, rfl⟩ | exact Or.inr ⟨rfl, rfl⟩ | exact Or.inr ⟨rfl, rfl, rfl, rfl⟩ | skip)

theorem romBoot_keeps (s : State) (hm₀ : Part.among [.ports, .bureau, .bot, .pins, .sent] K = true) (h₀ : Keeps K s₀ s) :
    Keeps K s₀ (romBoot s) := by
  refine Keeps.after ?_ hm₀ h₀
  clear hm₀ h₀
  unfold romBoot
  repeat' first
    | (extract_lets +onlyGivenNames t
       first
         | (refine Keeps.cut (t := t) ?_ (fun ht => ?_)
            on_goal 2 => clear_value t
            subst t)
         | skip)
    | with_reducible exact Keeps.refl _ _
    | with_reducible assumption
    | with_reducible refine Keeps.ite ?_ ?_
    | with_reducible refine Keeps.elim ?_ (fun a => ?_)
    | (with_reducible apply fallback_keeps; decide)
    | (with_reducible apply startImage_keeps; decide)
    | (with_reducible apply verifyFail_keeps; decide)
    | split
    | (with_reducible apply Keeps.upd
       all_goals with_reducible first | exact Or.inl (by decide) | exact Or.inr rfl | exact rfl | exact ⟨rfl, rfl⟩ | exact Or.inr ⟨rfl, rfl, rfl⟩ | exact Or.inr ⟨rfl, rfl⟩ | exact Or.inr ⟨rfl, rfl, rfl, rfl⟩ | skip)

theorem stopQueue_keeps (q : ℕ) (s : State) (hm₀ : Part.among [.dmc, .dram, .ports, .queues, .bureau, .pins, .sent] K = true) (h₀ : Keeps K s₀ s) :
    Keeps K s₀ (stopQueue q s) := by
  refine Keeps.after ?_ hm₀ h₀
  clear hm₀ h₀
  unfold stopQueue
  repeat' first
    | (extract_lets +onlyGivenNames t
       first
         | (refine Keeps.cut (t := t) ?_ (fun ht => ?_)
            on_goal 2 => clear_value t
            subst t)
         | skip)
    | with_reducible exact Keeps.refl _ _
    | with_reducible assumption
    | with_reducible refine Keeps.ite ?_ ?_
    | with_reducible refine Keeps.ifEvent ?_ ?_
    | with_reducible refine Keeps.foldl (fun t x => ?_) ?_
    | (with_reducible apply complete_keeps; decide)
    | (with_reducible apply setQueue_keeps; decide)
    | split
    | (with_reducible apply Keeps.upd
       all_goals with_reducible first | exact Or.inl (by decide) | exact Or.inr rfl | exact rfl | exact ⟨rfl, rfl⟩ | exact Or.inr ⟨rfl, rfl, rfl⟩ | exact Or.inr ⟨rfl, rfl⟩ | exact Or.inr ⟨rfl, rfl, rfl, rfl⟩ | skip)

theorem stopQueues_keeps (s : State) (hm₀ : Part.among [.dmc, .dram, .ports, .queues, .bureau, .pins, .sent] K = true) (h₀ : Keeps K s₀ s) :
    Keeps K s₀ (stopQueues s) := by
  refine Keeps.after ?_ hm₀ h₀
  clear hm₀ h₀
  unfold stopQueues
  repeat' first
    | with_reducible exact Keeps.refl _ _
    | with_reducible assumption
    | with_reducible refine Keeps.ite ?_ ?_
    | with_reducible refine Keeps.ifEvent ?_ ?_
    | with_reducible refine Keeps.foldl (fun t x => ?_) ?_
    | (with_reducible apply stopQueue_keeps; decide)
    | split
    | (with_reducible apply Keeps.upd
       all_goals with_reducible first | exact Or.inl (by decide) | exact Or.inr rfl | exact rfl | exact ⟨rfl, rfl⟩ | exact Or.inr ⟨rfl, rfl, rfl⟩ | exact Or.inr ⟨rfl, rfl⟩ | exact Or.inr ⟨rfl, rfl, rfl, rfl⟩ | skip)

theorem setWalec_keeps (w : WalecState) (s : State) (hm₀ : Part.among [.ports, .health] K = true) (h₀ : Keeps K s₀ s) :
    Keeps K s₀ (setWalec w s) := by
  refine Keeps.after ?_ hm₀ h₀
  clear hm₀ h₀
  unfold setWalec
  repeat' first
    | (extract_lets +onlyGivenNames t
       first
         | (refine Keeps.cut (t := t) ?_ (fun ht => ?_)
            on_goal 2 => clear_value t
            subst t)
         | skip)
    | with_reducible exact Keeps.refl _ _
    | with_reducible assumption
    | with_reducible refine Keeps.ite ?_ ?_
    | split
    | (with_reducible apply Keeps.upd
       all_goals with_reducible first | exact Or.inl (by decide) | exact Or.inr rfl | exact rfl | exact ⟨rfl, rfl⟩ | exact Or.inr ⟨rfl, rfl, rfl⟩ | exact Or.inr ⟨rfl, rfl⟩ | exact Or.inr ⟨rfl, rfl, rfl, rfl⟩ | skip)

theorem stopDrawer_keeps (p : Port) (n : ℕ) (s : State) (hm₀ : Part.among [.ports, .drawers, .sent] K = true) (h₀ : Keeps K s₀ s) :
    Keeps K s₀ (stopDrawer p n s) := by
  refine Keeps.after ?_ hm₀ h₀
  clear hm₀ h₀
  unfold stopDrawer
  repeat' first
    | (extract_lets +onlyGivenNames t
       first
         | (refine Keeps.cut (t := t) ?_ (fun ht => ?_)
            on_goal 2 => clear_value t
            subst t)
         | skip)
    | with_reducible exact Keeps.refl _ _
    | with_reducible assumption
    | (with_reducible apply respond_keeps; decide)
    | (with_reducible apply setDrawer_keeps; decide)
    | split
    | (with_reducible apply Keeps.upd
       all_goals with_reducible first | exact Or.inl (by decide) | exact Or.inr rfl | exact rfl | exact ⟨rfl, rfl⟩ | exact Or.inr ⟨rfl, rfl, rfl⟩ | exact Or.inr ⟨rfl, rfl⟩ | exact Or.inr ⟨rfl, rfl, rfl, rfl⟩ | skip)

theorem stopDrawers_keeps (s : State) (hm₀ : Part.among [.ports, .drawers, .sent] K = true) (h₀ : Keeps K s₀ s) :
    Keeps K s₀ (stopDrawers s) := by
  refine Keeps.after ?_ hm₀ h₀
  clear hm₀ h₀
  unfold stopDrawers
  repeat' first
    | with_reducible exact Keeps.refl _ _
    | with_reducible refine Keeps.foldl (fun t x => ?_) ?_
    | (with_reducible apply stopDrawer_keeps; decide)

theorem haltWalec_keeps (code : ℕ) (s : State) (hm₀ : Part.among [.geom, .eth, .out, .dmc, .dram, .ports, .drawers, .queues, .health, .walec, .bureau, .bot, .pins, .sent, .drawn] K = true) (h₀ : Keeps K s₀ s) :
    Keeps K s₀ (haltWalec code s) := by
  refine Keeps.after ?_ hm₀ h₀
  clear hm₀ h₀
  unfold haltWalec
  repeat' first
    | (extract_lets +onlyGivenNames t
       first
         | (refine Keeps.cut (t := t) ?_ (fun ht => ?_)
            on_goal 2 => clear_value t
            subst t)
         | skip)
    | with_reducible exact Keeps.refl _ _
    | with_reducible assumption
    | with_reducible refine Keeps.ite ?_ ?_
    | with_reducible refine Keeps.ifEvent ?_ ?_
    | (with_reducible apply cutLoad_keeps; decide)
    | (with_reducible apply stopQueues_keeps; decide)
    | (with_reducible apply stopDrawers_keeps; decide)
    | (with_reducible apply setWalec_keeps; decide)
    | (with_reducible apply log_keeps; decide)
    | (with_reducible apply raiseBoth_keeps; decide)
    | split
    | (with_reducible apply Keeps.upd
       all_goals with_reducible first | exact Or.inl (by decide) | exact Or.inr rfl | exact rfl | exact ⟨rfl, rfl⟩ | exact Or.inr ⟨rfl, rfl, rfl⟩ | exact Or.inr ⟨rfl, rfl⟩ | exact Or.inr ⟨rfl, rfl, rfl, rfl⟩ | skip)

theorem stopWalec_keeps (code : ℕ) (s : State) (hm₀ : Part.among [.geom, .eth, .out, .dmc, .dram, .ports, .drawers, .queues, .health, .walec, .bureau, .bot, .pins, .sent, .drawn] K = true) (h₀ : Keeps K s₀ s) :
    Keeps K s₀ (stopWalec code s) := by
  refine Keeps.after ?_ hm₀ h₀
  clear hm₀ h₀
  unfold stopWalec
  repeat' first
    | with_reducible exact Keeps.refl _ _
    | with_reducible assumption
    | with_reducible refine Keeps.ite ?_ ?_
    | with_reducible refine Keeps.ifEvent ?_ ?_
    | (with_reducible apply haltWalec_keeps; decide)
    | (with_reducible apply romBoot_keeps; decide)
    | split
    | (with_reducible apply Keeps.upd
       all_goals with_reducible first | exact Or.inl (by decide) | exact Or.inr rfl | exact rfl | exact ⟨rfl, rfl⟩ | exact Or.inr ⟨rfl, rfl, rfl⟩ | exact Or.inr ⟨rfl, rfl⟩ | exact Or.inr ⟨rfl, rfl, rfl, rfl⟩ | skip)

theorem setCpu_keeps (m : CpuMode) (code : ℕ) (core : ℕ) (s : State) (hm₀ : Part.among [.bureau, .spr] K = true) (h₀ : Keeps K s₀ s) :
    Keeps K s₀ (setCpu m code core s) := by
  refine Keeps.after ?_ hm₀ h₀
  clear hm₀ h₀
  unfold setCpu
  repeat' first
    | with_reducible exact Keeps.refl _ _
    | (with_reducible apply log_keeps; decide)
    | split
    | (with_reducible apply Keeps.upd
       all_goals with_reducible first | exact Or.inl (by decide) | exact Or.inr rfl | exact rfl | exact ⟨rfl, rfl⟩ | exact Or.inr ⟨rfl, rfl, rfl⟩ | exact Or.inr ⟨rfl, rfl⟩ | exact Or.inr ⟨rfl, rfl, rfl, rfl⟩ | skip)

theorem joinSpare_keeps (s : State) (hm₀ : Part.among [.bureau, .spr] K = true) (h₀ : Keeps K s₀ s) :
    Keeps K s₀ (joinSpare s) := by
  refine Keeps.after ?_ hm₀ h₀
  clear hm₀ h₀
  unfold joinSpare
  repeat' first
    | with_reducible exact Keeps.refl _ _
    | with_reducible refine Keeps.ite ?_ ?_
    | (with_reducible apply setCpu_keeps; decide)
    | split
    | (with_reducible apply Keeps.upd
       all_goals with_reducible first | exact Or.inl (by decide) | exact Or.inr rfl | exact rfl | exact ⟨rfl, rfl⟩ | exact Or.inr ⟨rfl, rfl, rfl⟩ | exact Or.inr ⟨rfl, rfl⟩ | exact Or.inr ⟨rfl, rfl, rfl, rfl⟩ | skip)

theorem retireUnit_keeps (bitNo : ℕ) (faults : ℕ) (s : State) (hm₀ : Part.among [.bureau, .spr] K = true) (h₀ : Keeps K s₀ s) :
    Keeps K s₀ (retireUnit bitNo faults s) := by
  refine Keeps.after ?_ hm₀ h₀
  clear hm₀ h₀
  unfold retireUnit
  repeat' first
    | with_reducible exact Keeps.refl _ _
    | with_reducible refine Keeps.ite ?_ ?_
    | (with_reducible apply log_keeps; decide)
    | split
    | (with_reducible apply Keeps.upd
       all_goals with_reducible first | exact Or.inl (by decide) | exact Or.inr rfl | exact rfl | exact ⟨rfl, rfl⟩ | exact Or.inr ⟨rfl, rfl, rfl⟩ | exact Or.inr ⟨rfl, rfl⟩ | exact Or.inr ⟨rfl, rfl, rfl, rfl⟩ | skip)

theorem mismatch_keeps (odd : Option ℕ) (s : State) (hm₀ : Part.among [.geom, .eth, .out, .dmc, .dram, .ports, .drawers, .queues, .health, .walec, .bureau, .pwr, .spr, .bot, .pins, .sent, .drawn] K = true) (h₀ : Keeps K s₀ s) :
    Keeps K s₀ (mismatch odd s) := by
  refine Keeps.after ?_ hm₀ h₀
  clear hm₀ h₀
  unfold mismatch
  repeat' first
    | with_reducible exact Keeps.refl _ _
    | with_reducible assumption
    | with_reducible refine Keeps.ite ?_ ?_
    | with_reducible refine Keeps.ifEvent ?_ ?_
    | (with_reducible apply setCpu_keeps; decide)
    | (with_reducible apply retireUnit_keeps; decide)
    | (with_reducible apply exhaust_keeps; decide)
    | (with_reducible apply stopWalec_keeps; decide)
    | (with_reducible apply requestDomain_keeps; decide)
    | split
    | (with_reducible apply Keeps.upd
       all_goals with_reducible first | exact Or.inl (by decide) | exact Or.inr rfl | exact rfl | exact ⟨rfl, rfl⟩ | exact Or.inr ⟨rfl, rfl, rfl⟩ | exact Or.inr ⟨rfl, rfl⟩ | exact Or.inr ⟨rfl, rfl, rfl, rfl⟩ | skip)

theorem watchdogReset_keeps (s : State) (hm₀ : Part.among [.geom, .eth, .out, .dmc, .dram, .ports, .drawers, .queues, .health, .walec, .bureau, .pwr, .bot, .pins, .sent, .drawn] K = true) (h₀ : Keeps K s₀ s) :
    Keeps K s₀ (watchdogReset s) := by
  refine Keeps.after ?_ hm₀ h₀
  clear hm₀ h₀
  unfold watchdogReset
  repeat' first
    | (extract_lets +onlyGivenNames t
       first
         | (refine Keeps.cut (t := t) ?_ (fun ht => ?_)
            on_goal 2 => clear_value t
            subst t)
         | skip)
    | with_reducible exact Keeps.refl _ _
    | with_reducible assumption
    | with_reducible refine Keeps.ite ?_ ?_
    | with_reducible refine Keeps.ifEvent ?_ ?_
    | (with_reducible apply stopWalec_keeps; decide)
    | (with_reducible apply log_keeps; decide)
    | split
    | (with_reducible apply Keeps.upd
       all_goals with_reducible first | exact Or.inl (by decide) | exact Or.inr rfl | exact rfl | exact ⟨rfl, rfl⟩ | exact Or.inr ⟨rfl, rfl, rfl⟩ | exact Or.inr ⟨rfl, rfl⟩ | exact Or.inr ⟨rfl, rfl, rfl, rfl⟩ | skip)

/-! ### Commands -/

theorem execLockstepMismatch_keeps (odd : Option ℕ) (s : State) : Out.Keeps [.geom, .eth, .out, .dmc, .dram, .ports, .drawers, .queues, .health, .walec, .bureau, .pwr, .spr, .bot, .pins, .sent, .drawn] s (execLockstepMismatch odd s) := by
  unfold execLockstepMismatch
  repeat' first
    | (extract_lets +onlyGivenNames t
       first
         | (refine Out.Keeps.cut (t := t) ?_ (fun ht => ?_)
            on_goal 2 => clear_value t
            subst t)
         | (refine Keeps.cut (t := t) ?_ (fun ht => ?_)
            on_goal 2 => clear_value t
            subst t)
         | skip)
    | with_reducible exact Keeps.refl _ _
    | with_reducible assumption
    | with_reducible refine Out.Keeps.done (by decide) ?_
    | with_reducible refine Keeps.ite ?_ ?_
    | with_reducible refine Keeps.ifEvent ?_ ?_
    | with_reducible refine Keeps.foldl (fun t x => ?_) ?_
    | with_reducible refine Keeps.elim ?_ (fun a => ?_)
    | (with_reducible apply mismatch_keeps; decide)
    | split
    | (with_reducible apply Keeps.upd
       all_goals with_reducible first | exact Or.inl (by decide) | exact Or.inr rfl | exact rfl | exact ⟨rfl, rfl⟩ | exact Or.inr ⟨rfl, rfl, rfl⟩ | exact Or.inr ⟨rfl, rfl⟩ | exact Or.inr ⟨rfl, rfl, rfl, rfl⟩ | skip)

theorem execTripleExit_keeps (s : State) : Out.Keeps [.bases, .ports, .bureau, .pwr, .spr, .sent] s (execTripleExit s) := by
  unfold execTripleExit
  repeat' first
    | (extract_lets +onlyGivenNames t
       first
         | (refine Out.Keeps.cut (t := t) ?_ (fun ht => ?_)
            on_goal 2 => clear_value t
            subst t)
         | (refine Keeps.cut (t := t) ?_ (fun ht => ?_)
            on_goal 2 => clear_value t
            subst t)
         | skip)
    | with_reducible exact Keeps.refl _ _
    | with_reducible assumption
    | with_reducible refine Out.Keeps.done (by decide) ?_
    | with_reducible refine Keeps.ite ?_ ?_
    | with_reducible refine Keeps.ifEvent ?_ ?_
    | with_reducible refine Keeps.foldl (fun t x => ?_) ?_
    | with_reducible refine Keeps.elim ?_ (fun a => ?_)
    | (with_reducible apply setCpu_keeps; decide)
    | (with_reducible apply requestDomain_keeps; decide)
    | (with_reducible apply advanceTo0_keeps; decide)
    | split
    | (with_reducible apply Keeps.upd
       all_goals with_reducible first | exact Or.inl (by decide) | exact Or.inr rfl | exact rfl | exact ⟨rfl, rfl⟩ | exact Or.inr ⟨rfl, rfl, rfl⟩ | exact Or.inr ⟨rfl, rfl⟩ | exact Or.inr ⟨rfl, rfl, rfl, rfl⟩ | skip)

theorem execWalecStop_keeps (cause : StopCause) (s : State) : Out.Keeps [.geom, .eth, .out, .dmc, .dram, .ports, .drawers, .queues, .health, .walec, .bureau, .bot, .pins, .sent, .drawn] s (execWalecStop cause s) := by
  unfold execWalecStop
  repeat' first
    | (extract_lets +onlyGivenNames t
       first
         | (refine Out.Keeps.cut (t := t) ?_ (fun ht => ?_)
            on_goal 2 => clear_value t
            subst t)
         | (refine Keeps.cut (t := t) ?_ (fun ht => ?_)
            on_goal 2 => clear_value t
            subst t)
         | skip)
    | with_reducible exact Keeps.refl _ _
    | with_reducible assumption
    | with_reducible refine Out.Keeps.done (by decide) ?_
    | with_reducible refine Keeps.ite ?_ ?_
    | with_reducible refine Keeps.ifEvent ?_ ?_
    | with_reducible refine Keeps.foldl (fun t x => ?_) ?_
    | with_reducible refine Keeps.elim ?_ (fun a => ?_)
    | (with_reducible apply stopWalec_keeps; decide)
    | split
    | (with_reducible apply Keeps.upd
       all_goals with_reducible first | exact Or.inl (by decide) | exact Or.inr rfl | exact rfl | exact ⟨rfl, rfl⟩ | exact Or.inr ⟨rfl, rfl, rfl⟩ | exact Or.inr ⟨rfl, rfl⟩ | exact Or.inr ⟨rfl, rfl, rfl, rfl⟩ | skip)

theorem execWalecTimeout_keeps (s : State) : Out.Keeps [.bases, .ports, .walec, .bureau, .pins, .sent] s (execWalecTimeout s) := by
  unfold execWalecTimeout
  repeat' first
    | (extract_lets +onlyGivenNames t
       first
         | (refine Out.Keeps.cut (t := t) ?_ (fun ht => ?_)
            on_goal 2 => clear_value t
            subst t)
         | (refine Keeps.cut (t := t) ?_ (fun ht => ?_)
            on_goal 2 => clear_value t
            subst t)
         | skip)
    | with_reducible exact Keeps.refl _ _
    | with_reducible assumption
    | with_reducible refine Out.Keeps.done (by decide) ?_
    | with_reducible refine Keeps.ite ?_ ?_
    | with_reducible refine Keeps.ifEvent ?_ ?_
    | with_reducible refine Keeps.foldl (fun t x => ?_) ?_
    | with_reducible refine Keeps.elim ?_ (fun a => ?_)
    | (with_reducible apply advanceTo0_keeps; decide)
    | (with_reducible apply log_keeps; decide)
    | (with_reducible apply assertFault_keeps; decide)
    | split
    | (with_reducible apply Keeps.upd
       all_goals with_reducible first | exact Or.inl (by decide) | exact Or.inr rfl | exact rfl | exact ⟨rfl, rfl⟩ | exact Or.inr ⟨rfl, rfl, rfl⟩ | exact Or.inr ⟨rfl, rfl⟩ | exact Or.inr ⟨rfl, rfl, rfl, rfl⟩ | skip)

theorem execWatchdogExpiry_keeps (s : State) : Out.Keeps [.geom, .eth, .out, .dmc, .dram, .ports, .drawers, .queues, .health, .walec, .bureau, .pwr, .bot, .pins, .sent, .drawn] s (execWatchdogExpiry s) := by
  unfold execWatchdogExpiry
  repeat' first
    | (extract_lets +onlyGivenNames t
       first
         | (refine Out.Keeps.cut (t := t) ?_ (fun ht => ?_)
            on_goal 2 => clear_value t
            subst t)
         | (refine Keeps.cut (t := t) ?_ (fun ht => ?_)
            on_goal 2 => clear_value t
            subst t)
         | skip)
    | with_reducible exact Keeps.refl _ _
    | with_reducible assumption
    | with_reducible refine Out.Keeps.done (by decide) ?_
    | with_reducible refine Keeps.ite ?_ ?_
    | with_reducible refine Keeps.ifEvent ?_ ?_
    | with_reducible refine Keeps.foldl (fun t x => ?_) ?_
    | with_reducible refine Keeps.elim ?_ (fun a => ?_)
    | (with_reducible apply watchdogReset_keeps; decide)
    | split
    | (with_reducible apply Keeps.upd
       all_goals with_reducible first | exact Or.inl (by decide) | exact Or.inr rfl | exact rfl | exact ⟨rfl, rfl⟩ | exact Or.inr ⟨rfl, rfl, rfl⟩ | exact Or.inr ⟨rfl, rfl⟩ | exact Or.inr ⟨rfl, rfl, rfl, rfl⟩ | skip)

end Sys2Proof.Machine
end

