-- ==== Sys2Proof/Laws/KeepsRay.lean ====
section
/-! SUPPORT. What the operations of Machine/Ray.lean may change: one lemma each, which says that the
parts it does not name, the form of the DRAM, the Bureau's chain and the queue are kept. -/

open Host

set_option linter.unusedTactic false
set_option linter.unreachableTactic false
set_option linter.tactic.unusedName false

namespace Sys2Proof.Machine

variable {K : List Part} {s₀ : State}

theorem markRegions_keeps (r : ℕ) (s : State) (hm₀ : Part.among [.sig] K = true) (h₀ : Keeps K s₀ s) :
    Keeps K s₀ (markRegions r s) := by
  refine Keeps.after ?_ hm₀ h₀
  clear hm₀ h₀
  unfold markRegions
  repeat' first
    | with_reducible exact Keeps.refl _ _
    | with_reducible refine Keeps.ite ?_ ?_
    | split
    | (with_reducible apply Keeps.upd
       all_goals with_reducible first | exact Or.inl (by decide) | exact Or.inr rfl | exact rfl | exact ⟨rfl, rfl⟩ | exact Or.inr ⟨rfl, rfl, rfl⟩ | exact Or.inr ⟨rfl, rfl⟩ | exact Or.inr ⟨rfl, rfl, rfl, rfl⟩ | skip)

theorem setRow_keeps (r : ℕ) (x : Row) (s : State) (hm₀ : Part.among [.ray] K = true) (h₀ : Keeps K s₀ s) :
    Keeps K s₀ (setRow r x s) := by
  refine Keeps.after ?_ hm₀ h₀
  clear hm₀ h₀
  unfold setRow
  repeat' first
    | with_reducible exact Keeps.refl _ _
    | (with_reducible apply Keeps.upd
       all_goals with_reducible first | exact Or.inl (by decide) | exact Or.inr rfl | exact rfl | exact ⟨rfl, rfl⟩ | exact Or.inr ⟨rfl, rfl, rfl⟩ | exact Or.inr ⟨rfl, rfl⟩ | exact Or.inr ⟨rfl, rfl, rfl, rfl⟩ | skip)

theorem startBands_keeps (u : State) (r : Nat) (s : State) (hm₀ : Part.among [.ray] K = true) (h₀ : Keeps K s₀ s) :
    Keeps K s₀ (startBands u r s) := setRow_keeps _ _ _ hm₀ h₀

theorem abandon_keeps (r line : Nat) (s : State) (hm₀ : Part.among [.ray, .sig, .out, .dmc] K = true) (h₀ : Keeps K s₀ s) :
    Keeps K s₀ (abandon r line s) := by
  refine Keeps.after ?_ hm₀ h₀
  clear hm₀ h₀
  unfold abandon
  extract_lets t x u
  have ht : Keeps [.ray, .sig, .out, .dmc] s t := flushRow_keeps _ _ _ (by decide) (Keeps.refl _ _)
  clear_value t
  have hu : Keeps [.ray, .sig, .out, .dmc] s u := markRegions_keeps _ _ (by decide) (setRow_keeps _ _ _ (by decide) ht)
  clear_value u
  exact Keeps.ite (startBands_keeps _ _ _ (by decide) hu) hu

theorem setCluster_keeps (c : ℕ) (x : ClusterState) (s : State) (hm₀ : Part.among [.ray] K = true) (h₀ : Keeps K s₀ s) :
    Keeps K s₀ (setCluster c x s) := by
  refine Keeps.after ?_ hm₀ h₀
  clear hm₀ h₀
  unfold setCluster
  repeat' first
    | with_reducible exact Keeps.refl _ _
    | (with_reducible apply Keeps.upd
       all_goals with_reducible first | exact Or.inl (by decide) | exact Or.inr rfl | exact rfl | exact ⟨rfl, rfl⟩ | exact Or.inr ⟨rfl, rfl, rfl⟩ | exact Or.inr ⟨rfl, rfl⟩ | exact Or.inr ⟨rfl, rfl, rfl, rfl⟩ | skip)

theorem startWitness_keeps (s : State) (hm₀ : Part.among [.ray] K = true) (h₀ : Keeps K s₀ s) : Keeps K s₀ (startWitness s) := by
  refine Keeps.after ?_ hm₀ h₀
  clear hm₀ h₀
  unfold startWitness
  extract_lets src c t
  have ht : Keeps [.ray] s t := by
    subst t; clear_value src; cases src
    · exact Keeps.refl _ _
    · exact setCluster_keeps _ _ _ (by decide) (Keeps.refl _ _)
  clear_value t src c
  apply Keeps.upd
  all_goals with_reducible first | exact ht | exact Or.inl (by decide) | exact Or.inr rfl | exact rfl | exact ⟨rfl, rfl⟩ | exact Or.inr ⟨rfl, rfl, rfl⟩ | exact Or.inr ⟨rfl, rfl⟩ | exact Or.inr ⟨rfl, rfl, rfl, rfl⟩

theorem abandonWitness_keeps (c : ℕ) (s : State) (hm₀ : Part.among [.ray] K = true) (h₀ : Keeps K s₀ s) :
    Keeps K s₀ (abandonWitness c s) := by
  refine Keeps.after ?_ hm₀ h₀
  clear hm₀ h₀
  unfold abandonWitness
  repeat' first
    | (extract_lets +onlyGivenNames t
       first
         | (refine Keeps.cut (t := t) ?_ (fun ht => ?_)
            on_goal 2 => clear_value t
            subst t)
         | skip)
    | with_reducible exact Keeps.refl _ _
    | with_reducible assumption
    | with_reducible refine Keeps.ite ?_ ?_
    | with_reducible refine Keeps.elim ?_ (fun a => ?_)
    | (with_reducible apply startWitness_keeps; decide)
    | (with_reducible apply setCluster_keeps; decide)
    | split
    | (with_reducible apply Keeps.upd
       all_goals with_reducible first | exact Or.inl (by decide) | exact Or.inr rfl | exact rfl | exact ⟨rfl, rfl⟩ | exact Or.inr ⟨rfl, rfl, rfl⟩ | exact Or.inr ⟨rfl, rfl⟩ | exact Or.inr ⟨rfl, rfl, rfl, rfl⟩ | skip)

theorem logAbort_keeps (r : ℕ) (line : ℕ) (cause : ℕ) (s : State) (hm₀ : Part.among [.ray, .bureau] K = true) (h₀ : Keeps K s₀ s) :
    Keeps K s₀ (logAbort r line cause s) := by
  refine Keeps.after ?_ hm₀ h₀
  clear hm₀ h₀
  unfold logAbort
  repeat' first
    | (extract_lets +onlyGivenNames t
       first
         | (refine Keeps.cut (t := t) ?_ (fun ht => ?_)
            on_goal 2 => clear_value t
            subst t)
         | skip)
    | with_reducible exact Keeps.refl _ _
    | with_reducible assumption
    | (with_reducible apply log_keeps; decide)
    | (with_reducible apply setRow_keeps; decide)
    | split
    | (with_reducible apply Keeps.upd
       all_goals with_reducible first | exact Or.inl (by decide) | exact Or.inr rfl | exact rfl | exact ⟨rfl, rfl⟩ | exact Or.inr ⟨rfl, rfl, rfl⟩ | exact Or.inr ⟨rfl, rfl⟩ | exact Or.inr ⟨rfl, rfl, rfl, rfl⟩ | skip)

theorem countAbort_keeps (r : ℕ) (line : ℕ) (cause : ℕ) (s : State) (hm₀ : Part.among [.ray, .bureau, .spr] K = true) (h₀ : Keeps K s₀ s) :
    Keeps K s₀ (countAbort r line cause s) := by
  refine Keeps.after ?_ hm₀ h₀
  clear hm₀ h₀
  unfold countAbort
  repeat' first
    | (extract_lets +onlyGivenNames t
       first
         | (refine Keeps.cut (t := t) ?_ (fun ht => ?_)
            on_goal 2 => clear_value t
            subst t)
         | skip)
    | with_reducible exact Keeps.refl _ _
    | with_reducible assumption
    | with_reducible refine Keeps.ite ?_ ?_
    | (with_reducible apply logAbort_keeps; decide)
    | (with_reducible apply setRow_keeps; decide)
    | split
    | (with_reducible apply Keeps.upd
       all_goals with_reducible first | exact Or.inl (by decide) | exact Or.inr rfl | exact rfl | exact ⟨rfl, rfl⟩ | exact Or.inr ⟨rfl, rfl, rfl⟩ | exact Or.inr ⟨rfl, rfl⟩ | exact Or.inr ⟨rfl, rfl, rfl, rfl⟩ | skip)

theorem abortComing_keeps (r : ℕ) (s : State) (hm₀ : Part.among [.ray, .bureau, .spr, .sent] K = true) (h₀ : Keeps K s₀ s) :
    Keeps K s₀ (abortComing r s) := by
  refine Keeps.after ?_ hm₀ h₀
  clear hm₀ h₀
  unfold abortComing
  repeat' first
    | (extract_lets +onlyGivenNames t
       first
         | (refine Keeps.cut (t := t) ?_ (fun ht => ?_)
            on_goal 2 => clear_value t
            subst t)
         | skip)
    | with_reducible exact Keeps.refl _ _
    | with_reducible assumption
    | with_reducible refine Keeps.ite ?_ ?_
    | with_reducible refine Keeps.foldl (fun t x => ?_) ?_
    | (with_reducible apply sendAll_keeps; decide)
    | (with_reducible apply countAbort_keeps; decide)
    | (with_reducible apply setRow_keeps; decide)
    | split
    | (with_reducible apply Keeps.upd
       all_goals with_reducible first | exact Or.inl (by decide) | exact Or.inr rfl | exact rfl | exact ⟨rfl, rfl⟩ | exact Or.inr ⟨rfl, rfl, rfl⟩ | exact Or.inr ⟨rfl, rfl⟩ | exact Or.inr ⟨rfl, rfl, rfl, rfl⟩ | skip)

theorem sendAbort_keeps (r : ℕ) (line : ℕ) (cause : ℕ) (frame : ℕ) (sub : ℕ) (s : State) (hm₀ : Part.among [.tlk, .sent] K = true) (h₀ : Keeps K s₀ s) :
    Keeps K s₀ (sendAbort r line cause frame sub s) := by
  refine Keeps.after ?_ hm₀ h₀
  clear hm₀ h₀
  unfold sendAbort
  repeat' first
    | (extract_lets +onlyGivenNames t
       first
         | (refine Keeps.cut (t := t) ?_ (fun ht => ?_)
            on_goal 2 => clear_value t
            subst t)
         | skip)
    | with_reducible exact Keeps.refl _ _
    | with_reducible assumption
    | with_reducible refine Keeps.ite ?_ ?_
    | with_reducible refine Keeps.foldl (fun t x => ?_) ?_
    | (with_reducible apply sendAll_keeps; decide)
    | (with_reducible apply setLink_keeps; decide)
    | split
    | (with_reducible apply Keeps.upd
       all_goals with_reducible first | exact Or.inl (by decide) | exact Or.inr rfl | exact rfl | exact ⟨rfl, rfl⟩ | exact Or.inr ⟨rfl, rfl, rfl⟩ | exact Or.inr ⟨rfl, rfl⟩ | exact Or.inr ⟨rfl, rfl, rfl, rfl⟩ | skip)

theorem abortRow_keeps (r : ℕ) (line : ℕ) (cause : ℕ) (s : State) (hm₀ : Part.among [.ray, .sig, .out, .tlk, .dmc, .bureau, .spr, .sent] K = true) (h₀ : Keeps K s₀ s) :
    Keeps K s₀ (abortRow r line cause s) := by
  refine Keeps.after ?_ hm₀ h₀
  clear hm₀ h₀
  unfold abortRow
  repeat' first
    | with_reducible exact Keeps.refl _ _
    | with_reducible assumption
    | with_reducible refine Keeps.ite ?_ ?_
    | with_reducible refine Keeps.ifEvent ?_ ?_
    | (with_reducible apply abandon_keeps; decide)
    | (with_reducible apply sendAbort_keeps; decide)
    | (with_reducible apply countAbort_keeps; decide)
    | split
    | (with_reducible apply Keeps.upd
       all_goals with_reducible first | exact Or.inl (by decide) | exact Or.inr rfl | exact rfl | exact ⟨rfl, rfl⟩ | exact Or.inr ⟨rfl, rfl, rfl⟩ | exact Or.inr ⟨rfl, rfl⟩ | exact Or.inr ⟨rfl, rfl, rfl, rfl⟩ | skip)

theorem faultTime_keeps (bitNo : ℕ) (s : State) (hm₀ : Part.among [.spr] K = true) (h₀ : Keeps K s₀ s) :
    Keeps K s₀ (faultTime bitNo s) := by
  refine Keeps.after ?_ hm₀ h₀
  clear hm₀ h₀
  unfold faultTime
  repeat' first
    | with_reducible exact Keeps.refl _ _
    | with_reducible assumption
    | with_reducible refine Keeps.ite ?_ ?_
    | with_reducible refine Keeps.ifEvent ?_ ?_
    | split
    | (with_reducible apply Keeps.upd
       all_goals with_reducible first | exact Or.inl (by decide) | exact Or.inr rfl | exact rfl | exact ⟨rfl, rfl⟩ | exact Or.inr ⟨rfl, rfl, rfl⟩ | exact Or.inr ⟨rfl, rfl⟩ | exact Or.inr ⟨rfl, rfl, rfl, rfl⟩ | skip)

theorem faultedOut_keeps (r : ℕ) (c : ℕ) (k : ℕ) (s : State) (hm₀ : Part.among [.bureau, .pwr] K = true) (h₀ : Keeps K s₀ s) :
    Keeps K s₀ (faultedOut r c k s) := by
  refine Keeps.after ?_ hm₀ h₀
  clear hm₀ h₀
  unfold faultedOut
  repeat' first
    | with_reducible exact Keeps.refl _ _
    | with_reducible assumption
    | with_reducible refine Keeps.ite ?_ ?_
    | with_reducible refine Keeps.ifEvent ?_ ?_
    | (with_reducible apply requestDomain_keeps; decide)
    | (with_reducible apply log_keeps; decide)
    | split
    | (with_reducible apply Keeps.upd
       all_goals with_reducible first | exact Or.inl (by decide) | exact Or.inr rfl | exact rfl | exact ⟨rfl, rfl⟩ | exact Or.inr ⟨rfl, rfl, rfl⟩ | exact Or.inr ⟨rfl, rfl⟩ | exact Or.inr ⟨rfl, rfl, rfl, rfl⟩ | skip)

theorem checkClusters_keeps (s : State) (hm₀ : Part.among [.bureau, .spr] K = true) (h₀ : Keeps K s₀ s) :
    Keeps K s₀ (checkClusters s) := by
  refine Keeps.after ?_ hm₀ h₀
  clear hm₀ h₀
  unfold checkClusters
  repeat' first
    | with_reducible exact Keeps.refl _ _
    | with_reducible refine Keeps.ite ?_ ?_
    | (with_reducible apply exhaust_keeps; decide)
    | split

theorem leavePool_keeps (c : ℕ) (s : State) (hm₀ : Part.among [.ray] K = true) (h₀ : Keeps K s₀ s) :
    Keeps K s₀ (leavePool c s) := by
  refine Keeps.after ?_ hm₀ h₀
  clear hm₀ h₀
  unfold leavePool
  repeat' first
    | with_reducible exact Keeps.refl _ _
    | (with_reducible apply Keeps.upd
       all_goals with_reducible first | exact Or.inl (by decide) | exact Or.inr rfl | exact rfl | exact ⟨rfl, rfl⟩ | exact Or.inr ⟨rfl, rfl, rfl⟩ | exact Or.inr ⟨rfl, rfl⟩ | exact Or.inr ⟨rfl, rfl, rfl, rfl⟩ | skip)

theorem reserveSpare_keeps (r : ℕ) (k : ℕ) (p : ℕ × ℕ) (s : State) (hm₀ : Part.among [.ray] K = true) (h₀ : Keeps K s₀ s) :
    Keeps K s₀ (reserveSpare r k p s) := by
  refine Keeps.after ?_ hm₀ h₀
  clear hm₀ h₀
  unfold reserveSpare
  repeat' first
    | (extract_lets +onlyGivenNames t
       first
         | (refine Keeps.cut (t := t) ?_ (fun ht => ?_)
            on_goal 2 => clear_value t
            subst t)
         | skip)
    | with_reducible exact Keeps.refl _ _
    | with_reducible assumption
    | (with_reducible apply setCluster_keeps; decide)
    | (with_reducible apply abandonWitness_keeps; decide)
    | (with_reducible apply leavePool_keeps; decide)
    | (with_reducible apply setRow_keeps; decide)
    | (with_reducible apply Keeps.upd
       all_goals with_reducible first | exact Or.inl (by decide) | exact Or.inr rfl | exact rfl | exact ⟨rfl, rfl⟩ | exact Or.inr ⟨rfl, rfl, rfl⟩ | exact Or.inr ⟨rfl, rfl⟩ | exact Or.inr ⟨rfl, rfl, rfl, rfl⟩ | skip)

theorem noteFault_keeps (bitNo : ℕ) (s : State) (hm₀ : Part.among [.spr] K = true) (h₀ : Keeps K s₀ s) :
    Keeps K s₀ (noteFault bitNo s) := by
  refine Keeps.after ?_ hm₀ h₀
  clear hm₀ h₀
  unfold noteFault
  repeat' first
    | (extract_lets +onlyGivenNames t
       first
         | (refine Keeps.cut (t := t) ?_ (fun ht => ?_)
            on_goal 2 => clear_value t
            subst t)
         | skip)
    | with_reducible exact Keeps.refl _ _
    | with_reducible assumption
    | with_reducible refine Keeps.ite ?_ ?_
    | with_reducible refine Keeps.ifEvent ?_ ?_
    | (with_reducible apply faultTime_keeps; decide)
    | split
    | (with_reducible apply Keeps.upd
       all_goals with_reducible first | exact Or.inl (by decide) | exact Or.inr rfl | exact rfl | exact ⟨rfl, rfl⟩ | exact Or.inr ⟨rfl, rfl, rfl⟩ | exact Or.inr ⟨rfl, rfl⟩ | exact Or.inr ⟨rfl, rfl, rfl, rfl⟩ | skip)

theorem spareFault_keeps (r : ℕ) (k : ℕ) (p : ℕ × ℕ) (s : State) (hm₀ : Part.among [.ray, .bureau, .spr] K = true) (h₀ : Keeps K s₀ s) :
    Keeps K s₀ (spareFault r k p s) := by
  refine Keeps.after ?_ hm₀ h₀
  clear hm₀ h₀
  unfold spareFault
  repeat' first
    | (extract_lets +onlyGivenNames t
       first
         | (refine Keeps.cut (t := t) ?_ (fun ht => ?_)
            on_goal 2 => clear_value t
            subst t)
         | skip)
    | with_reducible exact Keeps.refl _ _
    | with_reducible assumption
    | with_reducible refine Keeps.ite ?_ ?_
    | with_reducible refine Keeps.ifEvent ?_ ?_
    | (with_reducible apply reserveSpare_keeps; decide)
    | (with_reducible apply leavePool_keeps; decide)
    | (with_reducible apply checkClusters_keeps; decide)
    | (with_reducible apply noteFault_keeps; decide)
    | (with_reducible apply setCluster_keeps; decide)
    | split
    | (with_reducible apply Keeps.upd
       all_goals with_reducible first | exact Or.inl (by decide) | exact Or.inr rfl | exact rfl | exact ⟨rfl, rfl⟩ | exact Or.inr ⟨rfl, rfl, rfl⟩ | exact Or.inr ⟨rfl, rfl⟩ | exact Or.inr ⟨rfl, rfl, rfl, rfl⟩ | skip)

theorem loneFault_keeps (r : ℕ) (s : State) (hm₀ : Part.among [.ray, .ports, .bureau, .pwr, .spr, .pins, .sent] K = true) (h₀ : Keeps K s₀ s) :
    Keeps K s₀ (loneFault r s) := by
  refine Keeps.after ?_ hm₀ h₀
  clear hm₀ h₀
  unfold loneFault
  repeat' first
    | (extract_lets +onlyGivenNames t
       first
         | (refine Keeps.cut (t := t) ?_ (fun ht => ?_)
            on_goal 2 => clear_value t
            subst t)
         | skip)
    | with_reducible exact Keeps.refl _ _
    | with_reducible assumption
    | with_reducible refine Keeps.ite ?_ ?_
    | with_reducible refine Keeps.ifEvent ?_ ?_
    | (with_reducible apply faultedOut_keeps; decide)
    | (with_reducible apply checkClusters_keeps; decide)
    | (with_reducible apply noteFault_keeps; decide)
    | (with_reducible apply faultTime_keeps; decide)
    | (with_reducible apply setCluster_keeps; decide)
    | (with_reducible apply setRow_keeps; decide)
    | (with_reducible apply log_keeps; decide)
    | (with_reducible apply assertFault_keeps; decide)
    | split
    | (with_reducible apply Keeps.upd
       all_goals with_reducible first | exact Or.inl (by decide) | exact Or.inr rfl | exact rfl | exact ⟨rfl, rfl⟩ | exact Or.inr ⟨rfl, rfl, rfl⟩ | exact Or.inr ⟨rfl, rfl⟩ | exact Or.inr ⟨rfl, rfl, rfl, rfl⟩ | skip)

theorem unbind_keeps (r : ℕ) (k : ℕ) (s : State) (hm₀ : Part.among [.ray, .bureau, .pwr] K = true) (h₀ : Keeps K s₀ s) :
    Keeps K s₀ (unbind r k s) := by
  refine Keeps.after ?_ hm₀ h₀
  clear hm₀ h₀
  unfold unbind
  repeat' first
    | (extract_lets +onlyGivenNames t
       first
         | (refine Keeps.cut (t := t) ?_ (fun ht => ?_)
            on_goal 2 => clear_value t
            subst t)
         | skip)
    | with_reducible exact Keeps.refl _ _
    | with_reducible assumption
    | with_reducible refine Keeps.ite ?_ ?_
    | with_reducible refine Keeps.ifEvent ?_ ?_
    | (with_reducible apply faultedOut_keeps; decide)
    | (with_reducible apply setCluster_keeps; decide)
    | (with_reducible apply requestDomains_keeps; decide)
    | (with_reducible apply requestDomain_keeps; decide)
    | split
    | (with_reducible apply Keeps.upd
       all_goals with_reducible first | exact Or.inl (by decide) | exact Or.inr rfl | exact rfl | exact ⟨rfl, rfl⟩ | exact Or.inr ⟨rfl, rfl, rfl⟩ | exact Or.inr ⟨rfl, rfl⟩ | exact Or.inr ⟨rfl, rfl, rfl, rfl⟩ | skip)

theorem nextBand_keeps (r : ℕ) (b : ℕ) (s : State) (hm₀ : Part.among [.ray] K = true) (h₀ : Keeps K s₀ s) :
    Keeps K s₀ (nextBand r b s) := by
  refine Keeps.after ?_ hm₀ h₀
  clear hm₀ h₀
  unfold nextBand
  repeat' first
    | (extract_lets +onlyGivenNames t
       first
         | (refine Keeps.cut (t := t) ?_ (fun ht => ?_)
            on_goal 2 => clear_value t
            subst t)
         | skip)
    | with_reducible exact Keeps.refl _ _
    | with_reducible assumption
    | with_reducible refine Keeps.ite ?_ ?_
    | (with_reducible apply setRow_keeps; decide)
    | split
    | (with_reducible apply Keeps.upd
       all_goals with_reducible first | exact Or.inl (by decide) | exact Or.inr rfl | exact rfl | exact ⟨rfl, rfl⟩ | exact Or.inr ⟨rfl, rfl, rfl⟩ | exact Or.inr ⟨rfl, rfl⟩ | exact Or.inr ⟨rfl, rfl, rfl, rfl⟩ | skip)

theorem countTexels_keeps (as : List ℕ) (s : State) (hm₀ : Part.among [.cmp, .dmc] K = true) (h₀ : Keeps K s₀ s) :
    Keeps K s₀ (countTexels as s) := by
  refine Keeps.after ?_ hm₀ h₀
  clear hm₀ h₀
  unfold countTexels
  repeat' first
    | with_reducible exact Keeps.refl _ _
    | with_reducible assumption
    | with_reducible refine Keeps.ite ?_ ?_
    | with_reducible refine Keeps.ifEvent ?_ ?_
    | (with_reducible apply noteMarks_keeps; decide)
    | split
    | (with_reducible apply Keeps.upd
       all_goals with_reducible first | exact Or.inl (by decide) | exact Or.inr rfl | exact rfl | exact ⟨rfl, rfl⟩ | exact Or.inr ⟨rfl, rfl, rfl⟩ | exact Or.inr ⟨rfl, rfl⟩ | exact Or.inr ⟨rfl, rfl, rfl, rfl⟩ | skip)

theorem composeLine_keeps (obs : LineObs) (sheets : List Sheet) (r : ℕ) (line : ℕ) (s : State) (hm₀ : Part.among [.cmp, .ray, .dmc] K = true) (h₀ : Keeps K s₀ s) :
    Keeps K s₀ (composeLine obs sheets r line s) := by
  refine Keeps.after ?_ hm₀ h₀
  clear hm₀ h₀
  unfold composeLine
  repeat' first
    | (extract_lets +onlyGivenNames t
       first
         | (refine Keeps.cut (t := t) ?_ (fun ht => ?_)
            on_goal 2 => clear_value t
            subst t)
         | skip)
    | with_reducible exact Keeps.refl _ _
    | with_reducible assumption
    | with_reducible refine Keeps.ite ?_ ?_
    | with_reducible refine Keeps.ifEvent ?_ ?_
    | (with_reducible apply countTexels_keeps; decide)
    | (with_reducible apply setRow_keeps; decide)
    | split
    | (with_reducible apply Keeps.upd
       all_goals with_reducible first | exact Or.inl (by decide) | exact Or.inr rfl | exact rfl | exact ⟨rfl, rfl⟩ | exact Or.inr ⟨rfl, rfl, rfl⟩ | exact Or.inr ⟨rfl, rfl⟩ | exact Or.inr ⟨rfl, rfl, rfl, rfl⟩ | skip)

theorem composeTo_keeps (obs : LineObs) (r : ℕ) (d : ℕ) (s : State) (hm₀ : Part.among [.cmp, .ray, .dmc] K = true) (h₀ : Keeps K s₀ s) :
    Keeps K s₀ (composeTo obs r d s) := by
  refine Keeps.after ?_ hm₀ h₀
  clear hm₀ h₀
  unfold composeTo
  repeat' first
    | (extract_lets +onlyGivenNames t
       first
         | (refine Keeps.cut (t := t) ?_ (fun ht => ?_)
            on_goal 2 => clear_value t
            subst t)
         | skip)
    | with_reducible exact Keeps.refl _ _
    | with_reducible assumption
    | with_reducible refine Keeps.ite ?_ ?_
    | with_reducible refine Keeps.ifEvent ?_ ?_
    | with_reducible refine Keeps.foldl (fun t x => ?_) ?_
    | (with_reducible apply composeLine_keeps; decide)
    | (with_reducible apply nextBand_keeps; decide)
    | (with_reducible apply setRow_keeps; decide)
    | split
    | (with_reducible apply Keeps.upd
       all_goals with_reducible first | exact Or.inl (by decide) | exact Or.inr rfl | exact rfl | exact ⟨rfl, rfl⟩ | exact Or.inr ⟨rfl, rfl, rfl⟩ | exact Or.inr ⟨rfl, rfl⟩ | exact Or.inr ⟨rfl, rfl, rfl, rfl⟩ | skip)

theorem faultAbort_keeps (r : ℕ) (line : ℕ) (s : State) (hm₀ : Part.among [.ray, .sig, .out, .tlk, .dmc, .bureau, .spr, .sent] K = true) (h₀ : Keeps K s₀ s) :
    Keeps K s₀ (faultAbort r line s) := by
  refine Keeps.after ?_ hm₀ h₀
  clear hm₀ h₀
  unfold faultAbort
  repeat' first
    | (extract_lets +onlyGivenNames t
       first
         | (refine Keeps.cut (t := t) ?_ (fun ht => ?_)
            on_goal 2 => clear_value t
            subst t)
         | skip)
    | with_reducible exact Keeps.refl _ _
    | with_reducible assumption
    | with_reducible refine Keeps.ite ?_ ?_
    | with_reducible refine Keeps.ifEvent ?_ ?_
    | (with_reducible apply abortComing_keeps; decide)
    | (with_reducible apply abortRow_keeps; decide)
    | split
    | (with_reducible apply Keeps.upd
       all_goals with_reducible first | exact Or.inl (by decide) | exact Or.inr rfl | exact rfl | exact ⟨rfl, rfl⟩ | exact Or.inr ⟨rfl, rfl, rfl⟩ | exact Or.inr ⟨rfl, rfl⟩ | exact Or.inr ⟨rfl, rfl, rfl, rfl⟩ | skip)

theorem faultOff_keeps (c : ℕ) (s : State) (hm₀ : Part.among [.ray, .pwr, .spr] K = true) (h₀ : Keeps K s₀ s) :
    Keeps K s₀ (faultOff c s) := by
  refine Keeps.after ?_ hm₀ h₀
  clear hm₀ h₀
  unfold faultOff
  repeat' first
    | with_reducible exact Keeps.refl _ _
    | (with_reducible apply noteFault_keeps; decide)
    | (with_reducible apply requestDomain_keeps; decide)
    | (with_reducible apply setCluster_keeps; decide)
    | (with_reducible apply leavePool_keeps; decide)

theorem clusterFault_keeps (r : ℕ) (line : ℕ) (s : State) (hm₀ : Part.among [.ray, .sig, .out, .tlk, .dmc, .ports, .bureau, .pwr, .spr, .pins, .sent] K = true) (h₀ : Keeps K s₀ s) :
    Keeps K s₀ (clusterFault r line s) := by
  refine Keeps.after ?_ hm₀ h₀
  clear hm₀ h₀
  unfold clusterFault
  repeat' first
    | (extract_lets +onlyGivenNames t
       first
         | (refine Keeps.cut (t := t) ?_ (fun ht => ?_)
            on_goal 2 => clear_value t
            subst t)
         | skip)
    | with_reducible exact Keeps.refl _ _
    | with_reducible assumption
    | with_reducible refine Keeps.ite ?_ ?_
    | with_reducible refine Keeps.ifEvent ?_ ?_
    | (with_reducible apply loneFault_keeps; decide)
    | (with_reducible apply spareFault_keeps; decide)
    | (with_reducible apply faultAbort_keeps; decide)
    | split
    | (with_reducible apply Keeps.upd
       all_goals with_reducible first | exact Or.inl (by decide) | exact Or.inr rfl | exact rfl | exact ⟨rfl, rfl⟩ | exact Or.inr ⟨rfl, rfl, rfl⟩ | exact Or.inr ⟨rfl, rfl⟩ | exact Or.inr ⟨rfl, rfl, rfl, rfl⟩ | skip)

theorem rowLineStart_keeps (obs : LineObs) (n : ℕ) (r : ℕ) (s : State) (hm₀ : Part.among [.cmp, .ray, .sig, .out, .tlk, .dmc, .ports, .bureau, .pwr, .spr, .pins, .sent] K = true) (h₀ : Keeps K s₀ s) :
    Keeps K s₀ (rowLineStart obs n r s) := by
  refine Keeps.after ?_ hm₀ h₀
  clear hm₀ h₀
  unfold rowLineStart
  repeat' first
    | (extract_lets +onlyGivenNames t
       first
         | (refine Keeps.cut (t := t) ?_ (fun ht => ?_)
            on_goal 2 => clear_value t
            subst t)
         | skip)
    | with_reducible exact Keeps.refl _ _
    | with_reducible assumption
    | with_reducible refine Keeps.ite ?_ ?_
    | with_reducible refine Keeps.ifEvent ?_ ?_
    | (with_reducible apply composeTo_keeps; decide)
    | (with_reducible apply clusterFault_keeps; decide)
    | (with_reducible apply abortRow_keeps; decide)
    | (with_reducible apply setRow_keeps; decide)
    | split
    | (with_reducible apply Keeps.upd
       all_goals with_reducible first | exact Or.inl (by decide) | exact Or.inr rfl | exact rfl | exact ⟨rfl, rfl⟩ | exact Or.inr ⟨rfl, rfl, rfl⟩ | exact Or.inr ⟨rfl, rfl⟩ | exact Or.inr ⟨rfl, rfl, rfl, rfl⟩ | skip)

theorem stopWitness_keeps (s : State) (hm₀ : Part.among [.ray] K = true) (h₀ : Keeps K s₀ s) :
    Keeps K s₀ (stopWitness s) := by
  refine Keeps.after ?_ hm₀ h₀
  clear hm₀ h₀
  unfold stopWitness
  repeat' first
    | (extract_lets +onlyGivenNames t
       first
         | (refine Keeps.cut (t := t) ?_ (fun ht => ?_)
            on_goal 2 => clear_value t
            subst t)
         | skip)
    | with_reducible exact Keeps.refl _ _
    | with_reducible assumption
    | with_reducible refine Keeps.ite ?_ ?_
    | with_reducible refine Keeps.foldl (fun t x => ?_) ?_
    | (with_reducible apply setCluster_keeps; decide)
    | split
    | (with_reducible apply Keeps.upd
       all_goals with_reducible first | exact Or.inl (by decide) | exact Or.inr rfl | exact rfl | exact ⟨rfl, rfl⟩ | exact Or.inr ⟨rfl, rfl, rfl⟩ | exact Or.inr ⟨rfl, rfl⟩ | exact Or.inr ⟨rfl, rfl, rfl, rfl⟩ | skip)

theorem bindSpare_keeps (r : ℕ) (k : ℕ) (s : State) (hm₀ : Part.among [.ray, .bureau, .pwr, .spr] K = true) (h₀ : Keeps K s₀ s) :
    Keeps K s₀ (bindSpare r k s) := by
  refine Keeps.after ?_ hm₀ h₀
  clear hm₀ h₀
  unfold bindSpare
  repeat' first
    | (extract_lets +onlyGivenNames t
       first
         | (refine Keeps.cut (t := t) ?_ (fun ht => ?_)
            on_goal 2 => clear_value t
            subst t)
         | skip)
    | with_reducible exact Keeps.refl _ _
    | with_reducible assumption
    | with_reducible refine Keeps.ite ?_ ?_
    | with_reducible refine Keeps.ifEvent ?_ ?_
    | (with_reducible apply unbind_keeps; decide)
    | (with_reducible apply leavePool_keeps; decide)
    | (with_reducible apply abandonWitness_keeps; decide)
    | (with_reducible apply setCluster_keeps; decide)
    | (with_reducible apply setRow_keeps; decide)
    | split
    | (with_reducible apply Keeps.upd
       all_goals with_reducible first | exact Or.inl (by decide) | exact Or.inr rfl | exact rfl | exact ⟨rfl, rfl⟩ | exact Or.inr ⟨rfl, rfl, rfl⟩ | exact Or.inr ⟨rfl, rfl⟩ | exact Or.inr ⟨rfl, rfl, rfl, rfl⟩ | skip)

theorem clearSuspects_keeps (k : ℕ) (c : ℕ) (s : State) (hm₀ : Part.among [.ray] K = true) (h₀ : Keeps K s₀ s) :
    Keeps K s₀ (clearSuspects k c s) := by
  refine Keeps.after ?_ hm₀ h₀
  clear hm₀ h₀
  unfold clearSuspects
  repeat' first
    | (extract_lets +onlyGivenNames t
       first
         | (refine Keeps.cut (t := t) ?_ (fun ht => ?_)
            on_goal 2 => clear_value t
            subst t)
         | skip)
    | with_reducible exact Keeps.refl _ _
    | with_reducible assumption
    | with_reducible refine Keeps.ite ?_ ?_
    | (with_reducible apply setCluster_keeps; decide)
    | split

theorem renderWitness_keeps (upTo : ℕ) (s : State) (hm₀ : Part.among [.cmp, .ray, .dmc] K = true) (h₀ : Keeps K s₀ s) :
    Keeps K s₀ (renderWitness upTo s) := by
  refine Keeps.after ?_ hm₀ h₀
  clear hm₀ h₀
  unfold renderWitness
  repeat' first
    | (extract_lets +onlyGivenNames t
       first
         | (refine Keeps.cut (t := t) ?_ (fun ht => ?_)
            on_goal 2 => clear_value t
            subst t)
         | skip)
    | with_reducible exact Keeps.refl _ _
    | with_reducible assumption
    | with_reducible refine Keeps.ite ?_ ?_
    | with_reducible refine Keeps.ifEvent ?_ ?_
    | (with_reducible apply countTexels_keeps; decide)
    | split
    | (with_reducible apply Keeps.upd
       all_goals with_reducible first | exact Or.inl (by decide) | exact Or.inr rfl | exact rfl | exact ⟨rfl, rfl⟩ | exact Or.inr ⟨rfl, rfl, rfl⟩ | exact Or.inr ⟨rfl, rfl⟩ | exact Or.inr ⟨rfl, rfl, rfl, rfl⟩ | skip)

theorem writeCaps_keeps (s : State) (hm₀ : Part.among [.ray, .dmc, .dram, .ports, .bureau, .pins, .sent] K = true) (h₀ : Keeps K s₀ s) :
    Keeps K s₀ (writeCaps s) := by
  refine Keeps.after ?_ hm₀ h₀
  clear hm₀ h₀
  unfold writeCaps
  repeat' first
    | (extract_lets +onlyGivenNames t
       first
         | (refine Keeps.cut (t := t) ?_ (fun ht => ?_)
            on_goal 2 => clear_value t
            subst t)
         | skip)
    | with_reducible exact Keeps.refl _ _
    | with_reducible assumption
    | with_reducible refine Keeps.ite ?_ ?_
    | with_reducible refine Keeps.ifEvent ?_ ?_
    | with_reducible refine Keeps.foldl (fun t x => ?_) ?_
    | (with_reducible apply memWrite_keeps; decide)
    | split
    | (with_reducible apply Keeps.upd
       all_goals with_reducible first | exact Or.inl (by decide) | exact Or.inr rfl | exact rfl | exact ⟨rfl, rfl⟩ | exact Or.inr ⟨rfl, rfl, rfl⟩ | exact Or.inr ⟨rfl, rfl⟩ | exact Or.inr ⟨rfl, rfl, rfl, rfl⟩ | skip)

theorem repeatCheck_keeps (spare : ℕ) (row : ℕ) (mine : ℕ) (bound : ℕ) (second : ℕ) (s : State) (hm₀ : Part.among [.ray, .sig, .out, .tlk, .dmc, .ports, .bureau, .pwr, .spr, .pins, .sent] K = true) (h₀ : Keeps K s₀ s) :
    Keeps K s₀ (repeatCheck spare row mine bound second s) := by
  refine Keeps.after ?_ hm₀ h₀
  clear hm₀ h₀
  unfold repeatCheck
  repeat' first
    | (extract_lets +onlyGivenNames t
       first
         | (refine Keeps.cut (t := t) ?_ (fun ht => ?_)
            on_goal 2 => clear_value t
            subst t)
         | skip)
    | with_reducible exact Keeps.refl _ _
    | with_reducible assumption
    | with_reducible refine Keeps.ite ?_ ?_
    | with_reducible refine Keeps.ifEvent ?_ ?_
    | (with_reducible apply clearSuspects_keeps; decide)
    | (with_reducible apply clusterFault_keeps; decide)
    | (with_reducible apply setCluster_keeps; decide)
    | split
    | (with_reducible apply Keeps.upd
       all_goals with_reducible first | exact Or.inl (by decide) | exact Or.inr rfl | exact rfl | exact ⟨rfl, rfl⟩ | exact Or.inr ⟨rfl, rfl, rfl⟩ | exact Or.inr ⟨rfl, rfl⟩ | exact Or.inr ⟨rfl, rfl, rfl, rfl⟩ | skip)

theorem replaceReserved_keeps (c : ℕ) (s : State) (hm₀ : Part.among [.ray, .bureau, .pwr] K = true) (h₀ : Keeps K s₀ s) :
    Keeps K s₀ (replaceReserved c s) := by
  refine Keeps.after ?_ hm₀ h₀
  clear hm₀ h₀
  unfold replaceReserved
  repeat' first
    | (extract_lets +onlyGivenNames t
       first
         | (refine Keeps.cut (t := t) ?_ (fun ht => ?_)
            on_goal 2 => clear_value t
            subst t)
         | skip)
    | with_reducible exact Keeps.refl _ _
    | with_reducible assumption
    | with_reducible refine Keeps.ite ?_ ?_
    | with_reducible refine Keeps.ifEvent ?_ ?_
    | with_reducible refine Keeps.foldl (fun t x => ?_) ?_
    | (with_reducible apply faultedOut_keeps; decide)
    | (with_reducible apply reserveSpare_keeps; decide)
    | (with_reducible apply setRow_keeps; decide)
    | split
    | (with_reducible apply Keeps.upd
       all_goals with_reducible first | exact Or.inl (by decide) | exact Or.inr rfl | exact rfl | exact ⟨rfl, rfl⟩ | exact Or.inr ⟨rfl, rfl, rfl⟩ | exact Or.inr ⟨rfl, rfl⟩ | exact Or.inr ⟨rfl, rfl, rfl, rfl⟩ | skip)

theorem setShadow_keeps (k : ℕ) (x : Shadow) (s : State) (hm₀ : Part.among [.ray] K = true) (h₀ : Keeps K s₀ s) :
    Keeps K s₀ (setShadow k x s) := by
  refine Keeps.after ?_ hm₀ h₀
  clear hm₀ h₀
  unfold setShadow
  repeat' first
    | (extract_lets +onlyGivenNames t
       first
         | (refine Keeps.cut (t := t) ?_ (fun ht => ?_)
            on_goal 2 => clear_value t
            subst t)
         | skip)
    | with_reducible exact Keeps.refl _ _
    | with_reducible assumption
    | with_reducible refine checked_keeps ?_ ?_
    | with_reducible refine refuse_keeps ?_
    | with_reducible refine Keeps.ite ?_ ?_
    | with_reducible refine Keeps.ifEvent ?_ ?_
    | with_reducible refine Keeps.foldl (fun t x => ?_) ?_
    | with_reducible refine Keeps.elim ?_ (fun a => ?_)
    | split
    | (with_reducible apply Keeps.upd
       all_goals with_reducible first | exact Or.inl (by decide) | exact Or.inr rfl | exact rfl | exact ⟨rfl, rfl⟩ | exact Or.inr ⟨rfl, rfl, rfl⟩ | exact Or.inr ⟨rfl, rfl⟩ | exact Or.inr ⟨rfl, rfl, rfl, rfl⟩ | skip)

/-! ### Commands -/

theorem execClusterFault_keeps (row : ℕ) (s : State) : Out.Keeps [.ray, .sig, .out, .tlk, .dmc, .ports, .bureau, .pwr, .spr, .pins, .sent] s (execClusterFault row s) := by
  unfold execClusterFault
  repeat' first
    | (extract_lets +onlyGivenNames t
       first
         | (refine Out.Keeps.cut (t := t) ?_ (fun ht => ?_)
            on_goal 2 => clear_value t
            subst t)
         | (refine Keeps.cut (t := t) ?_ (fun ht => ?_)
            on_goal 2 => clear_value t
            subst t)
         | skip)
    | with_reducible exact Keeps.refl _ _
    | with_reducible assumption
    | with_reducible refine Out.Keeps.done (by decide) ?_
    | with_reducible refine Keeps.ite ?_ ?_
    | with_reducible refine Keeps.ifEvent ?_ ?_
    | with_reducible refine Keeps.foldl (fun t x => ?_) ?_
    | with_reducible refine Keeps.elim ?_ (fun a => ?_)
    | (with_reducible apply clusterFault_keeps; decide)
    | split
    | (with_reducible apply Keeps.upd
       all_goals with_reducible first | exact Or.inl (by decide) | exact Or.inr rfl | exact rfl | exact ⟨rfl, rfl⟩ | exact Or.inr ⟨rfl, rfl, rfl⟩ | exact Or.inr ⟨rfl, rfl⟩ | exact Or.inr ⟨rfl, rfl, rfl, rfl⟩ | skip)

theorem execClusterResetComplete_keeps (row : ℕ) (s : State) : Out.Keeps [.ray, .ports, .sent] s (execClusterResetComplete row s) := by
  unfold execClusterResetComplete
  repeat' first
    | (extract_lets +onlyGivenNames t
       first
         | (refine Out.Keeps.cut (t := t) ?_ (fun ht => ?_)
            on_goal 2 => clear_value t
            subst t)
         | (refine Keeps.cut (t := t) ?_ (fun ht => ?_)
            on_goal 2 => clear_value t
            subst t)
         | skip)
    | with_reducible exact Keeps.refl _ _
    | with_reducible assumption
    | with_reducible refine Out.Keeps.done (by decide) ?_
    | with_reducible refine Keeps.ite ?_ ?_
    | with_reducible refine Keeps.ifEvent ?_ ?_
    | with_reducible refine Keeps.foldl (fun t x => ?_) ?_
    | with_reducible refine Keeps.elim ?_ (fun a => ?_)
    | (with_reducible apply setCluster_keeps; decide)
    | split
    | (with_reducible apply Keeps.upd
       all_goals with_reducible first | exact Or.inl (by decide) | exact Or.inr rfl | exact rfl | exact ⟨rfl, rfl⟩ | exact Or.inr ⟨rfl, rfl, rfl⟩ | exact Or.inr ⟨rfl, rfl⟩ | exact Or.inr ⟨rfl, rfl, rfl, rfl⟩ | skip)

theorem execLaneTimeout_keeps (row : ℕ) (_lane : ℕ) (s : State) : Out.Keeps [.ray, .sig, .out, .tlk, .dmc, .ports, .bureau, .pwr, .spr, .pins, .sent] s (execLaneTimeout row _lane s) := by
  unfold execLaneTimeout
  repeat' first
    | (extract_lets +onlyGivenNames t
       first
         | (refine Out.Keeps.cut (t := t) ?_ (fun ht => ?_)
            on_goal 2 => clear_value t
            subst t)
         | (refine Keeps.cut (t := t) ?_ (fun ht => ?_)
            on_goal 2 => clear_value t
            subst t)
         | skip)
    | with_reducible exact Keeps.refl _ _
    | with_reducible assumption
    | with_reducible refine Out.Keeps.done (by decide) ?_
    | with_reducible refine Keeps.ite ?_ ?_
    | with_reducible refine Keeps.ifEvent ?_ ?_
    | with_reducible refine Keeps.foldl (fun t x => ?_) ?_
    | with_reducible refine Keeps.elim ?_ (fun a => ?_)
    | (with_reducible apply clusterFault_keeps; decide)
    | split
    | (with_reducible apply Keeps.upd
       all_goals with_reducible first | exact Or.inl (by decide) | exact Or.inr rfl | exact rfl | exact ⟨rfl, rfl⟩ | exact Or.inr ⟨rfl, rfl, rfl⟩ | exact Or.inr ⟨rfl, rfl⟩ | exact Or.inr ⟨rfl, rfl, rfl, rfl⟩ | skip)

theorem execShadowCheck_keeps (spare : ℕ) (row : ℕ) (line : ℕ) (mine : ℕ) (bound : ℕ) (second : ℕ) (s : State) : Out.Keeps [.ray, .sig, .out, .tlk, .dmc, .ports, .bureau, .pwr, .spr, .pins, .sent] s (execShadowCheck spare row line mine bound second s) := by
  unfold execShadowCheck
  repeat' first
    | (extract_lets +onlyGivenNames t
       first
         | (refine Out.Keeps.cut (t := t) ?_ (fun ht => ?_)
            on_goal 2 => clear_value t
            subst t)
         | (refine Keeps.cut (t := t) ?_ (fun ht => ?_)
            on_goal 2 => clear_value t
            subst t)
         | skip)
    | with_reducible exact Keeps.refl _ _
    | with_reducible assumption
    | with_reducible refine Out.Keeps.done (by decide) ?_
    | with_reducible refine Keeps.ite ?_ ?_
    | with_reducible refine Keeps.ifEvent ?_ ?_
    | with_reducible refine Keeps.foldl (fun t x => ?_) ?_
    | with_reducible refine Keeps.elim ?_ (fun a => ?_)
    | (with_reducible apply repeatCheck_keeps; decide)
    | (with_reducible apply clearSuspects_keeps; decide)
    | (with_reducible apply setShadow_keeps; decide)
    | split
    | (with_reducible apply Keeps.upd
       all_goals with_reducible first | exact Or.inl (by decide) | exact Or.inr rfl | exact rfl | exact ⟨rfl, rfl⟩ | exact Or.inr ⟨rfl, rfl, rfl⟩ | exact Or.inr ⟨rfl, rfl⟩ | exact Or.inr ⟨rfl, rfl, rfl, rfl⟩ | skip)

theorem execSpareBind_keeps (row : ℕ) (s : State) : Out.Keeps [.ray, .ports, .bureau, .pwr, .spr, .sent] s (execSpareBind row s) := by
  unfold execSpareBind
  repeat' first
    | (extract_lets +onlyGivenNames t
       first
         | (refine Out.Keeps.cut (t := t) ?_ (fun ht => ?_)
            on_goal 2 => clear_value t
            subst t)
         | (refine Keeps.cut (t := t) ?_ (fun ht => ?_)
            on_goal 2 => clear_value t
            subst t)
         | skip)
    | with_reducible exact Keeps.refl _ _
    | with_reducible assumption
    | with_reducible refine Out.Keeps.done (by decide) ?_
    | with_reducible refine Keeps.ite ?_ ?_
    | with_reducible refine Keeps.ifEvent ?_ ?_
    | with_reducible refine Keeps.foldl (fun t x => ?_) ?_
    | with_reducible refine Keeps.elim ?_ (fun a => ?_)
    | (with_reducible apply bindSpare_keeps; decide)
    | split
    | (with_reducible apply Keeps.upd
       all_goals with_reducible first | exact Or.inl (by decide) | exact Or.inr rfl | exact rfl | exact ⟨rfl, rfl⟩ | exact Or.inr ⟨rfl, rfl, rfl⟩ | exact Or.inr ⟨rfl, rfl⟩ | exact Or.inr ⟨rfl, rfl, rfl, rfl⟩ | skip)

theorem execUnboundClusterFault_keeps (cluster : ℕ) (s : State) : Out.Keeps [.ray, .ports, .bureau, .pwr, .spr, .sent] s (execUnboundClusterFault cluster s) := by
  unfold execUnboundClusterFault
  repeat' first
    | (extract_lets +onlyGivenNames t
       first
         | (refine Out.Keeps.cut (t := t) ?_ (fun ht => ?_)
            on_goal 2 => clear_value t
            subst t)
         | (refine Keeps.cut (t := t) ?_ (fun ht => ?_)
            on_goal 2 => clear_value t
            subst t)
         | skip)
    | with_reducible exact Keeps.refl _ _
    | with_reducible assumption
    | with_reducible refine Out.Keeps.done (by decide) ?_
    | with_reducible refine Keeps.ite ?_ ?_
    | with_reducible refine Keeps.ifEvent ?_ ?_
    | with_reducible refine Keeps.foldl (fun t x => ?_) ?_
    | with_reducible refine Keeps.elim ?_ (fun a => ?_)
    | (with_reducible apply faultOff_keeps; decide)
    | (with_reducible apply abandonWitness_keeps; decide)
    | (with_reducible apply leavePool_keeps; decide)
    | (with_reducible apply checkClusters_keeps; decide)
    | (with_reducible apply log_keeps; decide)
    | (with_reducible apply replaceReserved_keeps; decide)
    | split
    | (with_reducible apply Keeps.upd
       all_goals with_reducible first | exact Or.inl (by decide) | exact Or.inr rfl | exact rfl | exact ⟨rfl, rfl⟩ | exact Or.inr ⟨rfl, rfl, rfl⟩ | exact Or.inr ⟨rfl, rfl⟩ | exact Or.inr ⟨rfl, rfl, rfl, rfl⟩ | skip)

theorem execWitnessPictureStart_keeps (s : State) : Out.Keeps [.ray, .ports, .sent] s (execWitnessPictureStart s) := by
  unfold execWitnessPictureStart
  repeat' first
    | (extract_lets +onlyGivenNames t
       first
         | (refine Out.Keeps.cut (t := t) ?_ (fun ht => ?_)
            on_goal 2 => clear_value t
            subst t)
         | (refine Keeps.cut (t := t) ?_ (fun ht => ?_)
            on_goal 2 => clear_value t
            subst t)
         | skip)
    | with_reducible exact Keeps.refl _ _
    | with_reducible assumption
    | with_reducible refine Out.Keeps.done (by decide) ?_
    | with_reducible refine Keeps.ite ?_ ?_
    | with_reducible refine Keeps.ifEvent ?_ ?_
    | with_reducible refine Keeps.foldl (fun t x => ?_) ?_
    | with_reducible refine Keeps.elim ?_ (fun a => ?_)
    | (with_reducible apply startWitness_keeps; decide)
    | split
    | (with_reducible apply Keeps.upd
       all_goals with_reducible first | exact Or.inl (by decide) | exact Or.inr rfl | exact rfl | exact ⟨rfl, rfl⟩ | exact Or.inr ⟨rfl, rfl, rfl⟩ | exact Or.inr ⟨rfl, rfl⟩ | exact Or.inr ⟨rfl, rfl, rfl, rfl⟩ | skip)

end Sys2Proof.Machine
end

