-- ==== Sys2Proof/Laws/KeepsSig.lean ====
section
/-! SUPPORT. What the operations of Machine/Sig.lean may change: one lemma each, which says that the
parts it does not name, the form of the DRAM, the Bureau's chain and the queue are kept. -/

open Host

set_option linter.unusedTactic false
set_option linter.unreachableTactic false
set_option linter.tactic.unusedName false

namespace Sys2Proof.Machine

variable {K : List Part} {s₀ : State}

theorem tapLine_keeps (r : ℕ) (line : ℕ) (sub : ℕ) (row : List Composed) (s : State) (hm₀ : Part.among [.sig] K = true) (h₀ : Keeps K s₀ s) :
    Keeps K s₀ (tapLine r line sub row s) := by
  refine Keeps.after ?_ hm₀ h₀
  clear hm₀ h₀
  unfold tapLine
  repeat' first
    | (extract_lets +onlyGivenNames t
       first
         | (refine Keeps.cut (t := t) ?_ (fun ht => ?_)
            on_goal 2 => clear_value t
            subst t)
         | skip)
    | with_reducible exact Keeps.refl _ _
    | with_reducible assumption
    | with_reducible refine Keeps.ite ?_ ?_
    | split
    | (with_reducible apply Keeps.upd
       all_goals with_reducible first | exact Or.inl (by decide) | exact Or.inr rfl | exact rfl | exact ⟨rfl, rfl⟩ | exact Or.inr ⟨rfl, rfl, rfl⟩ | exact Or.inr ⟨rfl, rfl⟩ | exact Or.inr ⟨rfl, rfl, rfl, rfl⟩ | skip)

theorem setRegion_keeps (n : ℕ) (x : Region) (s : State) (hm₀ : Part.among [.sig] K = true) (h₀ : Keeps K s₀ s) :
    Keeps K s₀ (setRegion n x s) := by
  refine Keeps.after ?_ hm₀ h₀
  clear hm₀ h₀
  unfold setRegion
  repeat' first
    | with_reducible exact Keeps.refl _ _
    | (with_reducible apply Keeps.upd
       all_goals with_reducible first | exact Or.inl (by decide) | exact Or.inr rfl | exact rfl | exact ⟨rfl, rfl⟩ | exact Or.inr ⟨rfl, rfl, rfl⟩ | exact Or.inr ⟨rfl, rfl⟩ | exact Or.inr ⟨rfl, rfl, rfl, rfl⟩ | skip)

theorem applyBlock_keeps (b : SigBlock) (s : State) (hm₀ : Part.among [.sig] K = true) (h₀ : Keeps K s₀ s) :
    Keeps K s₀ (applyBlock b s) := by
  refine Keeps.after ?_ hm₀ h₀
  clear hm₀ h₀
  unfold applyBlock
  repeat' first
    | with_reducible exact Keeps.refl _ _
    | with_reducible refine Keeps.foldl (fun t x => ?_) ?_
    | (with_reducible apply setRegion_keeps; decide)
    | (with_reducible apply Keeps.upd
       all_goals with_reducible first | exact Or.inl (by decide) | exact Or.inr rfl | exact rfl | exact ⟨rfl, rfl⟩ | exact Or.inr ⟨rfl, rfl, rfl⟩ | exact Or.inr ⟨rfl, rfl⟩ | exact Or.inr ⟨rfl, rfl, rfl, rfl⟩ | skip)

theorem noteSubstitutions_keeps (u : State) (s : State) (hm₀ : Part.among [.bureau] K = true) (h₀ : Keeps K s₀ s) :
    Keeps K s₀ (noteSubstitutions u s) := by
  refine Keeps.after ?_ hm₀ h₀
  clear hm₀ h₀
  unfold noteSubstitutions
  repeat' first
    | with_reducible exact Keeps.refl _ _
    | with_reducible assumption
    | with_reducible refine Keeps.ite ?_ ?_
    | with_reducible refine Keeps.ifEvent ?_ ?_
    | with_reducible refine Keeps.foldl (fun t x => ?_) ?_
    | (with_reducible apply log_keeps; decide)
    | split
    | (with_reducible apply Keeps.upd
       all_goals with_reducible first | exact Or.inl (by decide) | exact Or.inr rfl | exact rfl | exact ⟨rfl, rfl⟩ | exact Or.inr ⟨rfl, rfl, rfl⟩ | exact Or.inr ⟨rfl, rfl⟩ | exact Or.inr ⟨rfl, rfl, rfl, rfl⟩ | skip)

theorem forgetReferences_keeps (s : State) (hm₀ : Part.among [.sig] K = true) (h₀ : Keeps K s₀ s) :
    Keeps K s₀ (forgetReferences s) := by
  refine Keeps.after ?_ hm₀ h₀
  clear hm₀ h₀
  unfold forgetReferences
  repeat' first
    | with_reducible exact Keeps.refl _ _
    | (with_reducible apply Keeps.upd
       all_goals with_reducible first | exact Or.inl (by decide) | exact Or.inr rfl | exact rfl | exact ⟨rfl, rfl⟩ | exact Or.inr ⟨rfl, rfl, rfl⟩ | exact Or.inr ⟨rfl, rfl⟩ | exact Or.inr ⟨rfl, rfl, rfl, rfl⟩ | skip)

theorem changeRegion_keeps (n : ℕ) (r : RegionRec) (s : State) (hm₀ : Part.among [.sig] K = true) (h₀ : Keeps K s₀ s) :
    Keeps K s₀ (changeRegion n r s) := by
  refine Keeps.after ?_ hm₀ h₀
  clear hm₀ h₀
  unfold changeRegion
  repeat' first
    | (extract_lets +onlyGivenNames t
       first
         | (refine Keeps.cut (t := t) ?_ (fun ht => ?_)
            on_goal 2 => clear_value t
            subst t)
         | skip)
    | with_reducible exact Keeps.refl _ _
    | with_reducible assumption
    | (with_reducible apply setRegion_keeps; decide)
    | split
    | (with_reducible apply Keeps.upd
       all_goals with_reducible first | exact Or.inl (by decide) | exact Or.inr rfl | exact rfl | exact ⟨rfl, rfl⟩ | exact Or.inr ⟨rfl, rfl, rfl⟩ | exact Or.inr ⟨rfl, rfl⟩ | exact Or.inr ⟨rfl, rfl, rfl, rfl⟩ | skip)

theorem releaseRegion_keeps (n : ℕ) (o : Origin) (s : State) (hm₀ : Part.among [.sig, .bureau] K = true) (h₀ : Keeps K s₀ s) :
    Keeps K s₀ (releaseRegion n o s) := by
  refine Keeps.after ?_ hm₀ h₀
  clear hm₀ h₀
  unfold releaseRegion
  repeat' first
    | (extract_lets +onlyGivenNames t
       first
         | (refine Keeps.cut (t := t) ?_ (fun ht => ?_)
            on_goal 2 => clear_value t
            subst t)
         | skip)
    | with_reducible exact Keeps.refl _ _
    | with_reducible assumption
    | with_reducible refine Keeps.ite ?_ ?_
    | (with_reducible apply log_keeps; decide)
    | (with_reducible apply setRegion_keeps; decide)
    | split

theorem suspendBlock_keeps (b : SigBlock) (s : State) (hm₀ : Part.among [.sig] K = true) (h₀ : Keeps K s₀ s) :
    Keeps K s₀ (suspendBlock b s) := by
  refine Keeps.after ?_ hm₀ h₀
  clear hm₀ h₀
  unfold suspendBlock
  repeat' first
    | with_reducible exact Keeps.refl _ _
    | with_reducible refine Keeps.foldl (fun t x => ?_) ?_
    | (with_reducible apply setRegion_keeps; decide)
    | (with_reducible apply Keeps.upd
       all_goals with_reducible first | exact Or.inl (by decide) | exact Or.inr rfl | exact rfl | exact ⟨rfl, rfl⟩ | exact Or.inr ⟨rfl, rfl, rfl⟩ | exact Or.inr ⟨rfl, rfl⟩ | exact Or.inr ⟨rfl, rfl, rfl, rfl⟩ | skip)

theorem beginSubstitutions_keeps (s : State) (hm₀ : Part.among [.sig, .bureau] K = true) (h₀ : Keeps K s₀ s) :
    Keeps K s₀ (beginSubstitutions s) := by
  refine Keeps.after ?_ hm₀ h₀
  clear hm₀ h₀
  unfold beginSubstitutions
  repeat' first
    | with_reducible exact Keeps.refl _ _
    | with_reducible assumption
    | with_reducible refine Keeps.ite ?_ ?_
    | with_reducible refine Keeps.ifEvent ?_ ?_
    | with_reducible refine Keeps.foldl (fun t x => ?_) ?_
    | (with_reducible apply setRegion_keeps; decide)
    | split
    | (with_reducible apply Keeps.upd
       all_goals with_reducible first | exact Or.inl (by decide) | exact Or.inr rfl | exact rfl | exact ⟨rfl, rfl⟩ | exact Or.inr ⟨rfl, rfl, rfl⟩ | exact Or.inr ⟨rfl, rfl⟩ | exact Or.inr ⟨rfl, rfl, rfl, rfl⟩ | skip)

theorem clearStreams_keeps (s : State) (hm₀ : Part.among [.sig] K = true) (h₀ : Keeps K s₀ s) :
    Keeps K s₀ (clearStreams s) := by
  refine Keeps.after ?_ hm₀ h₀
  clear hm₀ h₀
  unfold clearStreams
  repeat' first
    | with_reducible exact Keeps.refl _ _
    | (with_reducible apply Keeps.upd
       all_goals with_reducible first | exact Or.inl (by decide) | exact Or.inr rfl | exact rfl | exact ⟨rfl, rfl⟩ | exact Or.inr ⟨rfl, rfl, rfl⟩ | exact Or.inr ⟨rfl, rfl⟩ | exact Or.inr ⟨rfl, rfl, rfl, rfl⟩ | skip)

theorem sigMismatch_keeps (n : ℕ) (expected : ℕ) (crc : ℕ) (s : State) (hm₀ : Part.among [.sig, .bureau] K = true) (h₀ : Keeps K s₀ s) :
    Keeps K s₀ (sigMismatch n expected crc s) := by
  refine Keeps.after ?_ hm₀ h₀
  clear hm₀ h₀
  unfold sigMismatch
  repeat' first
    | (extract_lets +onlyGivenNames t
       first
         | (refine Keeps.cut (t := t) ?_ (fun ht => ?_)
            on_goal 2 => clear_value t
            subst t)
         | skip)
    | with_reducible exact Keeps.refl _ _
    | with_reducible assumption
    | with_reducible refine Keeps.ite ?_ ?_
    | (with_reducible apply log_keeps; decide)
    | (with_reducible apply setRegion_keeps; decide)
    | split
    | (with_reducible apply Keeps.upd
       all_goals with_reducible first | exact Or.inl (by decide) | exact Or.inr rfl | exact rfl | exact ⟨rfl, rfl⟩ | exact Or.inr ⟨rfl, rfl, rfl⟩ | exact Or.inr ⟨rfl, rfl⟩ | exact Or.inr ⟨rfl, rfl, rfl, rfl⟩ | skip)

theorem sigCompare_keeps (n : ℕ) (expected : ℕ) (crc : ℕ) (s : State) (hm₀ : Part.among [.sig, .bureau] K = true) (h₀ : Keeps K s₀ s) :
    Keeps K s₀ (sigCompare n expected crc s) := by
  refine Keeps.after ?_ hm₀ h₀
  clear hm₀ h₀
  unfold sigCompare
  repeat' first
    | (extract_lets +onlyGivenNames t
       first
         | (refine Keeps.cut (t := t) ?_ (fun ht => ?_)
            on_goal 2 => clear_value t
            subst t)
         | skip)
    | with_reducible exact Keeps.refl _ _
    | with_reducible assumption
    | with_reducible refine Keeps.ite ?_ ?_
    | (with_reducible apply setRegion_keeps; decide)
    | (with_reducible apply sigMismatch_keeps; decide)
    | split
    | (with_reducible apply Keeps.upd
       all_goals with_reducible first | exact Or.inl (by decide) | exact Or.inr rfl | exact rfl | exact ⟨rfl, rfl⟩ | exact Or.inr ⟨rfl, rfl, rfl⟩ | exact Or.inr ⟨rfl, rfl⟩ | exact Or.inr ⟨rfl, rfl, rfl, rfl⟩ | skip)

theorem sigSelf_keeps (n : ℕ) (crc : ℕ) (s : State) (hm₀ : Part.among [.sig, .bureau] K = true) (h₀ : Keeps K s₀ s) :
    Keeps K s₀ (sigSelf n crc s) := by
  refine Keeps.after ?_ hm₀ h₀
  clear hm₀ h₀
  unfold sigSelf
  repeat' first
    | (extract_lets +onlyGivenNames t
       first
         | (refine Keeps.cut (t := t) ?_ (fun ht => ?_)
            on_goal 2 => clear_value t
            subst t)
         | skip)
    | with_reducible exact Keeps.refl _ _
    | with_reducible assumption
    | with_reducible refine Keeps.ite ?_ ?_
    | (with_reducible apply sigCompare_keeps; decide)
    | (with_reducible apply setRegion_keeps; decide)
    | split
    | (with_reducible apply Keeps.upd
       all_goals with_reducible first | exact Or.inl (by decide) | exact Or.inr rfl | exact rfl | exact ⟨rfl, rfl⟩ | exact Or.inr ⟨rfl, rfl, rfl⟩ | exact Or.inr ⟨rfl, rfl⟩ | exact Or.inr ⟨rfl, rfl, rfl, rfl⟩ | skip)

theorem judgeRegion_keeps (n : ℕ) (s : State) (hm₀ : Part.among [.sig, .bureau] K = true) (h₀ : Keeps K s₀ s) :
    Keeps K s₀ (judgeRegion n s) := by
  refine Keeps.after ?_ hm₀ h₀
  clear hm₀ h₀
  unfold judgeRegion
  repeat' first
    | (extract_lets +onlyGivenNames t
       first
         | (refine Keeps.cut (t := t) ?_ (fun ht => ?_)
            on_goal 2 => clear_value t
            subst t)
         | skip)
    | with_reducible exact Keeps.refl _ _
    | with_reducible assumption
    | with_reducible refine Keeps.ite ?_ ?_
    | with_reducible refine Keeps.ifEvent ?_ ?_
    | (with_reducible apply sigSelf_keeps; decide)
    | (with_reducible apply sigCompare_keeps; decide)
    | (with_reducible apply setRegion_keeps; decide)
    | split
    | (with_reducible apply Keeps.upd
       all_goals with_reducible first | exact Or.inl (by decide) | exact Or.inr rfl | exact rfl | exact ⟨rfl, rfl⟩ | exact Or.inr ⟨rfl, rfl, rfl⟩ | exact Or.inr ⟨rfl, rfl⟩ | exact Or.inr ⟨rfl, rfl, rfl, rfl⟩ | skip)

theorem evaluateRegions_keeps (s : State) (hm₀ : Part.among [.sig, .bureau] K = true) (h₀ : Keeps K s₀ s) :
    Keeps K s₀ (evaluateRegions s) := by
  refine Keeps.after ?_ hm₀ h₀
  clear hm₀ h₀
  unfold evaluateRegions
  repeat' first
    | (extract_lets +onlyGivenNames t
       first
         | (refine Keeps.cut (t := t) ?_ (fun ht => ?_)
            on_goal 2 => clear_value t
            subst t)
         | skip)
    | with_reducible exact Keeps.refl _ _
    | with_reducible assumption
    | with_reducible refine Keeps.foldl (fun t x => ?_) ?_
    | (with_reducible apply judgeRegion_keeps; decide)
    | (with_reducible apply Keeps.upd
       all_goals with_reducible first | exact Or.inl (by decide) | exact Or.inr rfl | exact rfl | exact ⟨rfl, rfl⟩ | exact Or.inr ⟨rfl, rfl, rfl⟩ | exact Or.inr ⟨rfl, rfl⟩ | exact Or.inr ⟨rfl, rfl, rfl, rfl⟩ | skip)

end Sys2Proof.Machine
end

