-- ==== Sys2Proof/Laws/KeepsCommit.lean ====
section
/-! SUPPORT. What the operations of Machine/Commit.lean may change: one lemma each, which says that the
parts it does not name, the form of the DRAM, the Bureau's chain and the queue are kept. -/

open Host

set_option linter.unusedTactic false
set_option linter.unreachableTactic false
set_option linter.tactic.unusedName false

namespace Sys2Proof.Machine

variable {K : List Part} {s₀ : State}

theorem dropBacks_keeps (due : List BacksDue) (s : State) (hm₀ : Part.among [.cmp] K = true) (h₀ : Keeps K s₀ s) :
    Keeps K s₀ (dropBacks due s) := by
  refine Keeps.after ?_ hm₀ h₀
  clear hm₀ h₀
  unfold dropBacks
  repeat' first
    | (extract_lets +onlyGivenNames t
       first
         | (refine Keeps.cut (t := t) ?_ (fun ht => ?_)
            on_goal 2 => clear_value t
            subst t)
         | skip)
    | with_reducible exact Keeps.refl _ _
    | with_reducible assumption
    | with_reducible refine Keeps.ite ?_ ?_
    | with_reducible refine Keeps.ifEvent ?_ ?_
    | split
    | (with_reducible apply Keeps.upd
       all_goals with_reducible first | exact Or.inl (by decide) | exact Or.inr rfl | exact rfl | exact ⟨rfl, rfl⟩ | exact Or.inr ⟨rfl, rfl, rfl⟩ | exact Or.inr ⟨rfl, rfl⟩ | exact Or.inr ⟨rfl, rfl, rfl, rfl⟩ | skip)

theorem startFlatten_keeps (id : ℕ) (p : List ℕ) (ms : List (ℕ × LayerEntry)) (s : State) (hm₀ : Part.among [.cmp, .blt] K = true) (h₀ : Keeps K s₀ s) :
    Keeps K s₀ (startFlatten id p ms s) := by
  refine Keeps.after ?_ hm₀ h₀
  clear hm₀ h₀
  unfold startFlatten
  repeat' first
    | (extract_lets +onlyGivenNames t
       first
         | (refine Keeps.cut (t := t) ?_ (fun ht => ?_)
            on_goal 2 => clear_value t
            subst t)
         | skip)
    | with_reducible exact Keeps.refl _ _
    | with_reducible assumption
    | with_reducible refine Keeps.ite ?_ ?_
    | with_reducible refine Keeps.ifEvent ?_ ?_
    | split
    | (with_reducible apply Keeps.upd
       all_goals with_reducible first | exact Or.inl (by decide) | exact Or.inr rfl | exact rfl | exact ⟨rfl, rfl⟩ | exact Or.inr ⟨rfl, rfl, rfl⟩ | exact Or.inr ⟨rfl, rfl⟩ | exact Or.inr ⟨rfl, rfl, rfl, rfl⟩ | skip)

theorem refreshBacks_keeps (s : State) (hm₀ : Part.among [.cmp, .blt] K = true) (h₀ : Keeps K s₀ s) :
    Keeps K s₀ (refreshBacks s) := by
  refine Keeps.after ?_ hm₀ h₀
  clear hm₀ h₀
  unfold refreshBacks
  repeat' first
    | (extract_lets +onlyGivenNames t
       first
         | (refine Keeps.cut (t := t) ?_ (fun ht => ?_)
            on_goal 2 => clear_value t
            subst t)
         | skip)
    | with_reducible exact Keeps.refl _ _
    | with_reducible assumption
    | with_reducible refine Keeps.ite ?_ ?_
    | with_reducible refine Keeps.ifEvent ?_ ?_
    | with_reducible refine Keeps.foldl (fun t x => ?_) ?_
    | (with_reducible apply dropBacks_keeps; decide)
    | (with_reducible apply startFlatten_keeps; decide)
    | split
    | (with_reducible apply Keeps.upd
       all_goals with_reducible first | exact Or.inl (by decide) | exact Or.inr rfl | exact rfl | exact ⟨rfl, rfl⟩ | exact Or.inr ⟨rfl, rfl, rfl⟩ | exact Or.inr ⟨rfl, rfl⟩ | exact Or.inr ⟨rfl, rfl, rfl, rfl⟩ | skip)

theorem swapSettled_keeps (id : ℕ) (s : State) (hm₀ : Part.among [.cmp] K = true) (h₀ : Keeps K s₀ s) :
    Keeps K s₀ (swapSettled id s) := by
  refine Keeps.after ?_ hm₀ h₀
  clear hm₀ h₀
  unfold swapSettled
  repeat' first
    | (extract_lets +onlyGivenNames t
       first
         | (refine Keeps.cut (t := t) ?_ (fun ht => ?_)
            on_goal 2 => clear_value t
            subst t)
         | skip)
    | with_reducible exact Keeps.refl _ _
    | with_reducible assumption
    | with_reducible refine Keeps.ite ?_ ?_
    | with_reducible refine Keeps.ifEvent ?_ ?_
    | split
    | (with_reducible apply Keeps.upd
       all_goals with_reducible first | exact Or.inl (by decide) | exact Or.inr rfl | exact rfl | exact ⟨rfl, rfl⟩ | exact Or.inr ⟨rfl, rfl, rfl⟩ | exact Or.inr ⟨rfl, rfl⟩ | exact Or.inr ⟨rfl, rfl, rfl, rfl⟩ | skip)

theorem abandonConversions_keeps (s : State) (hm₀ : Part.among [.dec] K = true) (h₀ : Keeps K s₀ s) :
    Keeps K s₀ (abandonConversions s) := by
  refine Keeps.after ?_ hm₀ h₀
  clear hm₀ h₀
  unfold abandonConversions
  repeat' first
    | (extract_lets +onlyGivenNames t
       first
         | (refine Keeps.cut (t := t) ?_ (fun ht => ?_)
            on_goal 2 => clear_value t
            subst t)
         | skip)
    | with_reducible exact Keeps.refl _ _
    | with_reducible assumption
    | with_reducible refine Keeps.ite ?_ ?_
    | split
    | (with_reducible apply Keeps.upd
       all_goals with_reducible first | exact Or.inl (by decide) | exact Or.inr rfl | exact rfl | exact ⟨rfl, rfl⟩ | exact Or.inr ⟨rfl, rfl, rfl⟩ | exact Or.inr ⟨rfl, rfl⟩ | exact Or.inr ⟨rfl, rfl, rfl, rfl⟩ | skip)

theorem acceptCommit_keeps (d : Bytes) (o : Origin) (key : CommitKey) (s : State) (hm₀ : Part.among [.cmp, .blt] K = true) (h₀ : Keeps K s₀ s) :
    Keeps K s₀ (acceptCommit d o key s) := by
  refine Keeps.after ?_ hm₀ h₀
  clear hm₀ h₀
  unfold acceptCommit
  repeat' first
    | (extract_lets +onlyGivenNames t
       first
         | (refine Keeps.cut (t := t) ?_ (fun ht => ?_)
            on_goal 2 => clear_value t
            subst t)
         | skip)
    | with_reducible exact Keeps.refl _ _
    | with_reducible assumption
    | with_reducible refine Keeps.ite ?_ ?_
    | with_reducible refine Keeps.ifEvent ?_ ?_
    | (with_reducible apply refreshBacks_keeps; decide)
    | split
    | (with_reducible apply Keeps.upd
       all_goals with_reducible first | exact Or.inl (by decide) | exact Or.inr rfl | exact rfl | exact ⟨rfl, rfl⟩ | exact Or.inr ⟨rfl, rfl, rfl⟩ | exact Or.inr ⟨rfl, rfl⟩ | exact Or.inr ⟨rfl, rfl, rfl, rfl⟩ | skip)

theorem discardStale_keeps (n : ℕ) (s : State) (hm₀ : Part.among [.cmp, .bureau] K = true) (h₀ : Keeps K s₀ s) :
    Keeps K s₀ (discardStale n s) := by
  refine Keeps.after ?_ hm₀ h₀
  clear hm₀ h₀
  unfold discardStale
  repeat' first
    | (extract_lets +onlyGivenNames t
       first
         | (refine Keeps.cut (t := t) ?_ (fun ht => ?_)
            on_goal 2 => clear_value t
            subst t)
         | skip)
    | with_reducible exact Keeps.refl _ _
    | with_reducible assumption
    | with_reducible refine Keeps.ite ?_ ?_
    | with_reducible refine Keeps.ifEvent ?_ ?_
    | (with_reducible apply swapSettled_keeps; decide)
    | (with_reducible apply setLayerStatus_keeps; decide)
    | (with_reducible apply logEntry_keeps; decide)
    | split
    | (with_reducible apply Keeps.upd
       all_goals with_reducible first | exact Or.inl (by decide) | exact Or.inr rfl | exact rfl | exact ⟨rfl, rfl⟩ | exact Or.inr ⟨rfl, rfl, rfl⟩ | exact Or.inr ⟨rfl, rfl⟩ | exact Or.inr ⟨rfl, rfl, rfl, rfl⟩ | skip)

theorem applyEntry_keeps (n : ℕ) (e : LayerEntry) (s : State) (hm₀ : Part.among [.cmp, .dec] K = true) (h₀ : Keeps K s₀ s) :
    Keeps K s₀ (applyEntry n e s) := by
  refine Keeps.after ?_ hm₀ h₀
  clear hm₀ h₀
  unfold applyEntry
  repeat' first
    | (extract_lets +onlyGivenNames t
       first
         | (refine Keeps.cut (t := t) ?_ (fun ht => ?_)
            on_goal 2 => clear_value t
            subst t)
         | skip)
    | with_reducible exact Keeps.refl _ _
    | with_reducible assumption
    | with_reducible refine Keeps.ite ?_ ?_
    | (with_reducible apply setLayerStatus_keeps; decide)
    | (with_reducible apply setLayer_keeps; decide)
    | split
    | (with_reducible apply Keeps.upd
       all_goals with_reducible first | exact Or.inl (by decide) | exact Or.inr rfl | exact rfl | exact ⟨rfl, rfl⟩ | exact Or.inr ⟨rfl, rfl, rfl⟩ | exact Or.inr ⟨rfl, rfl⟩ | exact Or.inr ⟨rfl, rfl, rfl, rfl⟩ | skip)

theorem applyMember_keeps (before : List Member) (m : Member) (s : State) (hm₀ : Part.among [.cmp, .dec] K = true) (h₀ : Keeps K s₀ s) :
    Keeps K s₀ (applyMember before m s) := by
  refine Keeps.after ?_ hm₀ h₀
  clear hm₀ h₀
  unfold applyMember
  repeat' first
    | (extract_lets +onlyGivenNames t
       first
         | (refine Keeps.cut (t := t) ?_ (fun ht => ?_)
            on_goal 2 => clear_value t
            subst t)
         | skip)
    | with_reducible exact Keeps.refl _ _
    | with_reducible assumption
    | with_reducible refine Keeps.foldl (fun t x => ?_) ?_
    | (with_reducible apply applyEntry_keeps; decide)
    | (with_reducible apply setLayerStatus_keeps; decide)
    | (with_reducible apply Keeps.upd
       all_goals with_reducible first | exact Or.inl (by decide) | exact Or.inr rfl | exact rfl | exact ⟨rfl, rfl⟩ | exact Or.inr ⟨rfl, rfl, rfl⟩ | exact Or.inr ⟨rfl, rfl⟩ | exact Or.inr ⟨rfl, rfl, rfl, rfl⟩ | skip)

theorem becomeStale_keeps (c : Commit) (m : Member) (s : State) (hm₀ : Part.among [.cmp] K = true) (h₀ : Keeps K s₀ s) :
    Keeps K s₀ (becomeStale c m s) := by
  refine Keeps.after ?_ hm₀ h₀
  clear hm₀ h₀
  unfold becomeStale
  repeat' first
    | (extract_lets +onlyGivenNames t
       first
         | (refine Keeps.cut (t := t) ?_ (fun ht => ?_)
            on_goal 2 => clear_value t
            subst t)
         | skip)
    | with_reducible exact Keeps.refl _ _
    | with_reducible assumption
    | with_reducible refine Keeps.ite ?_ ?_
    | (with_reducible apply setLayerStatus_keeps; decide)
    | (with_reducible apply setLayer_keeps; decide)
    | split
    | (with_reducible apply Keeps.upd
       all_goals with_reducible first | exact Or.inl (by decide) | exact Or.inr rfl | exact rfl | exact ⟨rfl, rfl⟩ | exact Or.inr ⟨rfl, rfl, rfl⟩ | exact Or.inr ⟨rfl, rfl⟩ | exact Or.inr ⟨rfl, rfl, rfl, rfl⟩ | skip)

theorem swapGroups_keeps (id : ℕ) (s : State) (hm₀ : Part.among [.cmp] K = true) (h₀ : Keeps K s₀ s) :
    Keeps K s₀ (swapGroups id s) := by
  refine Keeps.after ?_ hm₀ h₀
  clear hm₀ h₀
  unfold swapGroups
  repeat' first
    | with_reducible exact Keeps.refl _ _
    | (with_reducible apply Keeps.upd
       all_goals with_reducible first | exact Or.inl (by decide) | exact Or.inr rfl | exact rfl | exact ⟨rfl, rfl⟩ | exact Or.inr ⟨rfl, rfl, rfl⟩ | exact Or.inr ⟨rfl, rfl⟩ | exact Or.inr ⟨rfl, rfl, rfl, rfl⟩ | skip)

theorem completeCommit_keeps (c : Commit) (x : Completion) (s : State) (hm₀ : Part.among [.cmp, .dmc, .dram, .ports, .queues, .bureau, .pins, .sent] K = true) (h₀ : Keeps K s₀ s) :
    Keeps K s₀ (completeCommit c x s) := by
  refine Keeps.after ?_ hm₀ h₀
  clear hm₀ h₀
  unfold completeCommit
  repeat' first
    | (extract_lets +onlyGivenNames t
       first
         | (refine Keeps.cut (t := t) ?_ (fun ht => ?_)
            on_goal 2 => clear_value t
            subst t)
         | skip)
    | with_reducible exact Keeps.refl _ _
    | with_reducible assumption
    | with_reducible refine Keeps.ite ?_ ?_
    | with_reducible refine Keeps.ifEvent ?_ ?_
    | (with_reducible apply complete_keeps; decide)
    | split
    | (with_reducible apply Keeps.upd
       all_goals with_reducible first | exact Or.inl (by decide) | exact Or.inr rfl | exact rfl | exact ⟨rfl, rfl⟩ | exact Or.inr ⟨rfl, rfl, rfl⟩ | exact Or.inr ⟨rfl, rfl⟩ | exact Or.inr ⟨rfl, rfl, rfl, rfl⟩ | skip)

theorem applyCommit_keeps (c : Commit) (go : List ℕ) (later : List ℕ) (before : List Member) (s : State) (hm₀ : Part.among [.cmp, .sig, .dec, .dmc, .dram, .ports, .queues, .bureau, .pins, .sent] K = true) (h₀ : Keeps K s₀ s) :
    Keeps K s₀ (applyCommit c go later before s) := by
  refine Keeps.after ?_ hm₀ h₀
  clear hm₀ h₀
  unfold applyCommit
  repeat' first
    | (extract_lets +onlyGivenNames t
       first
         | (refine Keeps.cut (t := t) ?_ (fun ht => ?_)
            on_goal 2 => clear_value t
            subst t)
         | skip)
    | with_reducible exact Keeps.refl _ _
    | with_reducible assumption
    | with_reducible refine Keeps.ite ?_ ?_
    | with_reducible refine Keeps.ifEvent ?_ ?_
    | with_reducible refine Keeps.foldl (fun t x => ?_) ?_
    | (with_reducible apply completeCommit_keeps; decide)
    | (with_reducible apply applyMember_keeps; decide)
    | (with_reducible apply becomeStale_keeps; decide)
    | (with_reducible apply discardStale_keeps; decide)
    | (with_reducible apply swapGroups_keeps; decide)
    | (with_reducible apply suspendBlock_keeps; decide)
    | (with_reducible apply applyBlock_keeps; decide)
    | (with_reducible apply logEntry_keeps; decide)
    | split
    | (with_reducible apply Keeps.upd
       all_goals with_reducible first | exact Or.inl (by decide) | exact Or.inr rfl | exact rfl | exact ⟨rfl, rfl⟩ | exact Or.inr ⟨rfl, rfl, rfl⟩ | exact Or.inr ⟨rfl, rfl⟩ | exact Or.inr ⟨rfl, rfl, rfl, rfl⟩ | skip)

theorem applyCommits_keeps (before : List Member) (l : List Commit) (s : State) (hm₀ : Part.among [.cmp, .sig, .dec, .dmc, .dram, .ports, .queues, .bureau, .pins, .sent] K = true) (h₀ : Keeps K s₀ s) :
    Keeps K s₀ (applyCommits before l s) := by
  induction l generalizing s before with
  | nil => exact h₀
  | cons c r ih =>
    unfold applyCommits
    split
    · exact ih _ s h₀
    · exact ih _ _ (applyCommit_keeps _ _ _ _ _ hm₀ h₀)

theorem applyFlips_keeps (touched : List ℕ) (s : State) (hm₀ : Part.among [.cmp, .dec] K = true) (h₀ : Keeps K s₀ s) :
    Keeps K s₀ (applyFlips touched s) := by
  refine Keeps.after ?_ hm₀ h₀
  clear hm₀ h₀
  unfold applyFlips
  repeat' first
    | (extract_lets +onlyGivenNames t
       first
         | (refine Keeps.cut (t := t) ?_ (fun ht => ?_)
            on_goal 2 => clear_value t
            subst t)
         | skip)
    | with_reducible exact Keeps.refl _ _
    | with_reducible assumption
    | with_reducible refine Keeps.ite ?_ ?_
    | with_reducible refine Keeps.foldl (fun t x => ?_) ?_
    | (with_reducible apply setLayerStatus_keeps; decide)
    | (with_reducible apply applyEntry_keeps; decide)
    | split
    | (with_reducible apply Keeps.upd
       all_goals with_reducible first | exact Or.inl (by decide) | exact Or.inr rfl | exact rfl | exact ⟨rfl, rfl⟩ | exact Or.inr ⟨rfl, rfl, rfl⟩ | exact Or.inr ⟨rfl, rfl⟩ | exact Or.inr ⟨rfl, rfl, rfl, rfl⟩ | skip)

theorem applyStale_keeps (n : ℕ) (w : StaleMember) (s : State) (hm₀ : Part.among [.cmp, .sig, .dec, .bureau] K = true) (h₀ : Keeps K s₀ s) :
    Keeps K s₀ (applyStale n w s) := by
  refine Keeps.after ?_ hm₀ h₀
  clear hm₀ h₀
  unfold applyStale
  repeat' first
    | (extract_lets +onlyGivenNames t
       first
         | (refine Keeps.cut (t := t) ?_ (fun ht => ?_)
            on_goal 2 => clear_value t
            subst t)
         | skip)
    | with_reducible exact Keeps.refl _ _
    | with_reducible assumption
    | with_reducible refine Keeps.ite ?_ ?_
    | (with_reducible apply logEntry_keeps; decide)
    | (with_reducible apply applyEntry_keeps; decide)
    | (with_reducible apply setLayerStatus_keeps; decide)
    | (with_reducible apply swapGroups_keeps; decide)
    | (with_reducible apply applyBlock_keeps; decide)
    | split
    | (with_reducible apply Keeps.upd
       all_goals with_reducible first | exact Or.inl (by decide) | exact Or.inr rfl | exact rfl | exact ⟨rfl, rfl⟩ | exact Or.inr ⟨rfl, rfl, rfl⟩ | exact Or.inr ⟨rfl, rfl⟩ | exact Or.inr ⟨rfl, rfl, rfl, rfl⟩ | skip)

theorem countStale_keeps (s : State) (hm₀ : Part.among [.cmp] K = true) (h₀ : Keeps K s₀ s) :
    Keeps K s₀ (countStale s) := by
  refine Keeps.after ?_ hm₀ h₀
  clear hm₀ h₀
  unfold countStale
  repeat' first
    | (extract_lets +onlyGivenNames t
       first
         | (refine Keeps.cut (t := t) ?_ (fun ht => ?_)
            on_goal 2 => clear_value t
            subst t)
         | skip)
    | with_reducible exact Keeps.refl _ _
    | with_reducible assumption
    | with_reducible refine Keeps.foldl (fun t x => ?_) ?_
    | (with_reducible apply setLayerStatus_keeps; decide)
    | (with_reducible apply Keeps.upd
       all_goals with_reducible first | exact Or.inl (by decide) | exact Or.inr rfl | exact rfl | exact ⟨rfl, rfl⟩ | exact Or.inr ⟨rfl, rfl, rfl⟩ | exact Or.inr ⟨rfl, rfl⟩ | exact Or.inr ⟨rfl, rfl, rfl, rfl⟩ | skip)

theorem pruneGroups_keeps (s : State) (hm₀ : Part.among [.cmp] K = true) (h₀ : Keeps K s₀ s) :
    Keeps K s₀ (pruneGroups s) := by
  refine Keeps.after ?_ hm₀ h₀
  clear hm₀ h₀
  unfold pruneGroups
  repeat' first
    | (extract_lets +onlyGivenNames t
       first
         | (refine Keeps.cut (t := t) ?_ (fun ht => ?_)
            on_goal 2 => clear_value t
            subst t)
         | skip)
    | with_reducible exact Keeps.refl _ _
    | with_reducible assumption
    | with_reducible refine Keeps.ite ?_ ?_
    | with_reducible refine Keeps.ifEvent ?_ ?_
    | split
    | (with_reducible apply Keeps.upd
       all_goals with_reducible first | exact Or.inl (by decide) | exact Or.inr rfl | exact rfl | exact ⟨rfl, rfl⟩ | exact Or.inr ⟨rfl, rfl, rfl⟩ | exact Or.inr ⟨rfl, rfl⟩ | exact Or.inr ⟨rfl, rfl, rfl, rfl⟩ | skip)

theorem commitTick_keeps (s : State) (hm₀ : Part.among [.cmp, .sig, .dec, .blt, .dmc, .dram, .ports, .queues, .bureau, .pins, .sent] K = true) (h₀ : Keeps K s₀ s) :
    Keeps K s₀ (commitTick s) := by
  refine Keeps.after ?_ hm₀ h₀
  clear hm₀ h₀
  unfold commitTick
  extract_lets ready go t c u v w
  have ht : Keeps [.cmp, .sig, .dec, .blt, .dmc, .dram, .ports, .queues, .bureau, .pins, .sent] s t := Keeps.foldl (fun t x => applyStale_keeps _ _ _ (by decide) (Keeps.refl _ _)) (Keeps.refl _ _)
  have hu : Keeps [.cmp, .sig, .dec, .blt, .dmc, .dram, .ports, .queues, .bureau, .pins, .sent] s u := Keeps.cmp_set _ (by decide) ht
  clear_value u
  have hv : Keeps [.cmp, .sig, .dec, .blt, .dmc, .dram, .ports, .queues, .bureau, .pins, .sent] s v := applyCommits_keeps _ _ _ (by decide) hu
  clear_value v
  have hw : Keeps [.cmp, .sig, .dec, .blt, .dmc, .dram, .ports, .queues, .bureau, .pins, .sent] s w := applyFlips_keeps _ _ (by decide) hv
  clear_value w
  exact countStale_keeps _ (by decide) (pruneGroups_keeps _ (by decide) (refreshBacks_keeps _ (by decide) (abandonConversions_keeps _ (by decide) hw)))

theorem newlyStale_keeps (before : List Commit) (s : State) (hm₀ : Part.among [.cmp] K = true) (h₀ : Keeps K s₀ s) :
    Keeps K s₀ (newlyStale before s) := by
  refine Keeps.after ?_ hm₀ h₀
  clear hm₀ h₀
  unfold newlyStale
  repeat' first
    | (extract_lets +onlyGivenNames t
       first
         | (refine Keeps.cut (t := t) ?_ (fun ht => ?_)
            on_goal 2 => clear_value t
            subst t)
         | skip)
    | with_reducible exact Keeps.refl _ _
    | with_reducible assumption
    | with_reducible refine Keeps.foldl (fun t x => ?_) ?_
    | (with_reducible apply setLayerStatus_keeps; decide)
    | (with_reducible apply Keeps.upd
       all_goals with_reducible first | exact Or.inl (by decide) | exact Or.inr rfl | exact rfl | exact ⟨rfl, rfl⟩ | exact Or.inr ⟨rfl, rfl, rfl⟩ | exact Or.inr ⟨rfl, rfl⟩ | exact Or.inr ⟨rfl, rfl, rfl, rfl⟩ | skip)

theorem commitLatch_keeps (s : State) (hm₀ : Part.among [.cmp] K = true) (h₀ : Keeps K s₀ s) :
    Keeps K s₀ (commitLatch s) := by
  refine Keeps.after ?_ hm₀ h₀
  clear hm₀ h₀
  unfold commitLatch
  repeat' first
    | (extract_lets +onlyGivenNames t
       first
         | (refine Keeps.cut (t := t) ?_ (fun ht => ?_)
            on_goal 2 => clear_value t
            subst t)
         | skip)
    | with_reducible exact Keeps.refl _ _
    | with_reducible assumption
    | with_reducible refine Keeps.ite ?_ ?_
    | with_reducible refine Keeps.ifEvent ?_ ?_
    | with_reducible refine Keeps.foldl (fun t x => ?_) ?_
    | (with_reducible apply newlyStale_keeps; decide)
    | (with_reducible apply setLayerStatus_keeps; decide)
    | split
    | (with_reducible apply Keeps.upd
       all_goals with_reducible first | exact Or.inl (by decide) | exact Or.inr rfl | exact rfl | exact ⟨rfl, rfl⟩ | exact Or.inr ⟨rfl, rfl, rfl⟩ | exact Or.inr ⟨rfl, rfl⟩ | exact Or.inr ⟨rfl, rfl, rfl, rfl⟩ | skip)

theorem submitCommit_keeps (cls : Nat) (d : Bytes) (o : Origin) (key : CommitKey) (s : State)
    (hm₀ : Part.among [.cmp, .blt] K = true) (h₀ : Keeps K s₀ s) : Keeps K s₀ (submitCommit cls d o key s).2.2.2 := by
  unfold submitCommit
  split
  · exact acceptCommit_keeps _ _ _ _ hm₀ h₀
  · exact h₀

end Sys2Proof.Machine
end

