-- ==== Sys2Proof/Laws/KeepsBlit.lean ====
section
/-! SUPPORT. What the operations of Machine/Blit.lean may change: one lemma each, which says that the
parts it does not name, the form of the DRAM, the Bureau's chain and the queue are kept. -/

open Host

set_option linter.unusedTactic false
set_option linter.unreachableTactic false
set_option linter.tactic.unusedName false

namespace Sys2Proof.Machine

variable {K : List Part} {s₀ : State}

theorem beginJob_keeps (q : ℕ) (s : State) (hm₀ : Part.among [.blt, .queues] K = true) (h₀ : Keeps K s₀ s) :
    Keeps K s₀ (beginJob q s) := by
  refine Keeps.after ?_ hm₀ h₀
  clear hm₀ h₀
  unfold beginJob
  repeat' first
    | (extract_lets +onlyGivenNames t
       first
         | (refine Keeps.cut (t := t) ?_ (fun ht => ?_)
            on_goal 2 => clear_value t
            subst t)
         | skip)
    | with_reducible exact Keeps.refl _ _
    | with_reducible assumption
    | (with_reducible apply setQueue_keeps; decide)
    | split
    | (with_reducible apply Keeps.upd
       all_goals with_reducible first | exact Or.inl (by decide) | exact Or.inr rfl | exact rfl | exact ⟨rfl, rfl⟩ | exact Or.inr ⟨rfl, rfl, rfl⟩ | exact Or.inr ⟨rfl, rfl⟩ | exact Or.inr ⟨rfl, rfl, rfl, rfl⟩ | skip)

theorem completeJob_keeps (id : ℕ) (j : BltJob) (fail : Option (ℕ × ℕ × ℕ)) (s : State) (hm₀ : Part.among [.cmp, .blt, .dmc, .dram, .ports, .queues, .bureau, .pins, .sent] K = true) (h₀ : Keeps K s₀ s) :
    Keeps K s₀ (completeJob id j fail s) := by
  refine Keeps.after ?_ hm₀ h₀
  clear hm₀ h₀
  unfold completeJob
  repeat' first
    | (extract_lets +onlyGivenNames t
       first
         | (refine Keeps.cut (t := t) ?_ (fun ht => ?_)
            on_goal 2 => clear_value t
            subst t)
         | skip)
    | with_reducible exact Keeps.refl _ _
    | with_reducible assumption
    | with_reducible refine Keeps.ite ?_ ?_
    | with_reducible refine Keeps.ifEvent ?_ ?_
    | with_reducible refine Keeps.elim ?_ (fun a => ?_)
    | (with_reducible apply complete_keeps; decide)
    | (with_reducible apply advanceFence_keeps; decide)
    | split
    | (with_reducible apply Keeps.upd
       all_goals with_reducible first | exact Or.inl (by decide) | exact Or.inr rfl | exact rfl | exact ⟨rfl, rfl⟩ | exact Or.inr ⟨rfl, rfl, rfl⟩ | exact Or.inr ⟨rfl, rfl⟩ | exact Or.inr ⟨rfl, rfl, rfl, rfl⟩ | skip)

theorem noteFetch_keeps (j : BltJob) (s : State) (hm₀ : Part.among [.dmc, .bureau] K = true) (h₀ : Keeps K s₀ s) :
    Keeps K s₀ (noteFetch j s) := by
  refine Keeps.after ?_ hm₀ h₀
  clear hm₀ h₀
  unfold noteFetch
  repeat' first
    | with_reducible exact Keeps.refl _ _
    | with_reducible assumption
    | with_reducible refine Keeps.ite ?_ ?_
    | with_reducible refine Keeps.ifEvent ?_ ?_
    | (with_reducible apply noteRead_keeps; decide)
    | split
    | (with_reducible apply Keeps.upd
       all_goals with_reducible first | exact Or.inl (by decide) | exact Or.inr rfl | exact rfl | exact ⟨rfl, rfl⟩ | exact Or.inr ⟨rfl, rfl, rfl⟩ | exact Or.inr ⟨rfl, rfl⟩ | exact Or.inr ⟨rfl, rfl, rfl, rfl⟩ | skip)

theorem releaseFlight_keeps (id : ℕ) (s : State) (hm₀ : Part.among [.blt] K = true) (h₀ : Keeps K s₀ s) :
    Keeps K s₀ (releaseFlight id s) := by
  refine Keeps.after ?_ hm₀ h₀
  clear hm₀ h₀
  unfold releaseFlight
  repeat' first
    | with_reducible exact Keeps.refl _ _
    | (with_reducible apply Keeps.upd
       all_goals with_reducible first | exact Or.inl (by decide) | exact Or.inr rfl | exact rfl | exact ⟨rfl, rfl⟩ | exact Or.inr ⟨rfl, rfl, rfl⟩ | exact Or.inr ⟨rfl, rfl⟩ | exact Or.inr ⟨rfl, rfl, rfl, rfl⟩ | skip)

theorem fillBack_keeps (g : ℕ) (id : ℕ) (s : State) (hm₀ : Part.among [.cmp, .dmc, .bureau] K = true) (h₀ : Keeps K s₀ s) :
    Keeps K s₀ (fillBack g id s) := by
  refine Keeps.after ?_ hm₀ h₀
  clear hm₀ h₀
  unfold fillBack
  repeat' first
    | (extract_lets +onlyGivenNames t
       first
         | (refine Keeps.cut (t := t) ?_ (fun ht => ?_)
            on_goal 2 => clear_value t
            subst t)
         | skip)
    | with_reducible exact Keeps.refl _ _
    | with_reducible assumption
    | with_reducible refine Keeps.ite ?_ ?_
    | with_reducible refine Keeps.ifEvent ?_ ?_
    | (with_reducible apply noteMarks_keeps; decide)
    | (with_reducible apply log_keeps; decide)
    | split
    | (with_reducible apply Keeps.upd
       all_goals with_reducible first | exact Or.inl (by decide) | exact Or.inr rfl | exact rfl | exact ⟨rfl, rfl⟩ | exact Or.inr ⟨rfl, rfl, rfl⟩ | exact Or.inr ⟨rfl, rfl⟩ | exact Or.inr ⟨rfl, rfl, rfl, rfl⟩ | skip)

theorem runCommand_keeps (s : State) (c : Bytes) (n : Nat) (hm₀ : Part.among [.dmc, .dram] K = true) (h₀ : Keeps K s₀ s) :
    Keeps K s₀ (runCommand s c n).1 := by
  refine Keeps.after ?_ hm₀ h₀
  unfold runCommand
  exact Keeps.foldl (fun t w => store_keeps _ _ _ (by decide) (Keeps.refl _ _)) (noteMarks_keeps _ _ _ (by decide) (Keeps.refl _ _))

theorem failOfCommand_keeps (f : Flight) (code : ℕ) (rows : ℕ) (s : State) (hm₀ : Part.among [.cmp, .blt, .dmc, .dram, .ports, .queues, .bureau, .pins, .sent] K = true) (h₀ : Keeps K s₀ s) :
    Keeps K s₀ (failOfCommand f code rows s) := by
  refine Keeps.after ?_ hm₀ h₀
  clear hm₀ h₀
  unfold failOfCommand
  repeat' first
    | with_reducible exact Keeps.refl _ _
    | with_reducible assumption
    | with_reducible refine Keeps.ite ?_ ?_
    | with_reducible refine Keeps.ifEvent ?_ ?_
    | (with_reducible apply completeJob_keeps; decide)
    | split
    | (with_reducible apply Keeps.upd
       all_goals with_reducible first | exact Or.inl (by decide) | exact Or.inr rfl | exact rfl | exact ⟨rfl, rfl⟩ | exact Or.inr ⟨rfl, rfl, rfl⟩ | exact Or.inr ⟨rfl, rfl⟩ | exact Or.inr ⟨rfl, rfl, rfl, rfl⟩ | skip)

theorem endOfCommand_keeps (f : Flight) (s : State) (hm₀ : Part.among [.cmp, .blt, .dmc, .dram, .ports, .queues, .bureau, .pins, .sent] K = true) (h₀ : Keeps K s₀ s) :
    Keeps K s₀ (endOfCommand f s) := by
  refine Keeps.after ?_ hm₀ h₀
  clear hm₀ h₀
  unfold endOfCommand
  repeat' first
    | (extract_lets +onlyGivenNames t
       first
         | (refine Keeps.cut (t := t) ?_ (fun ht => ?_)
            on_goal 2 => clear_value t
            subst t)
         | skip)
    | with_reducible exact Keeps.refl _ _
    | with_reducible assumption
    | with_reducible refine Keeps.ite ?_ ?_
    | with_reducible refine Keeps.ifEvent ?_ ?_
    | (with_reducible apply completeJob_keeps; decide)
    | split
    | (with_reducible apply Keeps.upd
       all_goals with_reducible first | exact Or.inl (by decide) | exact Or.inr rfl | exact rfl | exact ⟨rfl, rfl⟩ | exact Or.inr ⟨rfl, rfl, rfl⟩ | exact Or.inr ⟨rfl, rfl⟩ | exact Or.inr ⟨rfl, rfl, rfl, rfl⟩ | skip)

theorem endCommand_keeps (id : Nat) (f : Flight) (s : State) (hm₀ : Part.among [.cmp, .blt, .dmc, .dram, .ports, .queues, .bureau, .pins, .sent] K = true) (h₀ : Keeps K s₀ s) : Keeps K s₀ (endCommand id f s) := by
  refine Keeps.after ?_ hm₀ h₀
  clear hm₀ h₀
  unfold endCommand
  split
  · exact releaseFlight_keeps _ _ (by decide) (fillBack_keeps _ _ _ (by decide) (Keeps.refl _ _))
  · extract_lets r t
    have ht : Keeps [.cmp, .blt, .dmc, .dram, .ports, .queues, .bureau, .pins, .sent] s t := releaseFlight_keeps _ _ (by decide) (runCommand_keeps _ _ _ (by decide) (Keeps.refl _ _))
    clear_value t r
    refine Keeps.ite (failOfCommand_keeps _ _ _ _ (by decide) ?_) (endOfCommand_keeps _ _ (by decide) ht)
    apply Keeps.upd
    all_goals with_reducible first | exact ht | exact Or.inl (by decide) | exact Or.inr rfl | exact rfl | exact ⟨rfl, rfl⟩ | exact Or.inr ⟨rfl, rfl, rfl⟩ | exact Or.inr ⟨rfl, rfl⟩ | exact Or.inr ⟨rfl, rfl, rfl, rfl⟩

theorem faultCommand_keeps (s : State) (x : Nat × Flight) (hm₀ : Part.among [.cmp, .blt, .dmc, .dram, .ports, .queues, .bureau, .pins, .sent, .drawn] K = true) (h₀ : Keeps K s₀ s) : Keeps K s₀ (faultCommand s x) := by
  refine Keeps.after ?_ hm₀ h₀
  clear hm₀ h₀
  unfold faultCommand
  split
  · exact releaseFlight_keeps _ _ (by decide) (Keeps.refl _ _)
  · exact drew_keeps _ (by decide) (failOfCommand_keeps _ _ _ _ (by decide) (releaseFlight_keeps _ _ (by decide) (runCommand_keeps _ _ _ (by decide) (Keeps.refl _ _))))

theorem supersede_keeps (q : ℕ) (c : Bytes) (s : State) (hm₀ : Part.among [.blt, .drawn] K = true) (h₀ : Keeps K s₀ s) :
    Keeps K s₀ (supersede q c s) := by
  refine Keeps.after ?_ hm₀ h₀
  clear hm₀ h₀
  unfold supersede
  repeat' first
    | (extract_lets +onlyGivenNames t
       first
         | (refine Keeps.cut (t := t) ?_ (fun ht => ?_)
            on_goal 2 => clear_value t
            subst t)
         | skip)
    | with_reducible exact Keeps.refl _ _
    | with_reducible assumption
    | with_reducible refine Keeps.ite ?_ ?_
    | with_reducible refine Keeps.foldl (fun t x => ?_) ?_
    | (with_reducible apply drew_keeps; decide)
    | split
    | (with_reducible apply Keeps.upd
       all_goals with_reducible first | exact Or.inl (by decide) | exact Or.inr rfl | exact rfl | exact ⟨rfl, rfl⟩ | exact Or.inr ⟨rfl, rfl, rfl⟩ | exact Or.inr ⟨rfl, rfl⟩ | exact Or.inr ⟨rfl, rfl, rfl, rfl⟩ | skip)

theorem issueCommand_keeps (id : ℕ) (j : BltJob) (c : Bytes) (s : State) (hm₀ : Part.among [.blt, .drawn] K = true) (h₀ : Keeps K s₀ s) :
    Keeps K s₀ (issueCommand id j c s) := by
  refine Keeps.after ?_ hm₀ h₀
  clear hm₀ h₀
  unfold issueCommand
  repeat' first
    | (extract_lets +onlyGivenNames t
       first
         | (refine Keeps.cut (t := t) ?_ (fun ht => ?_)
            on_goal 2 => clear_value t
            subst t)
         | skip)
    | with_reducible exact Keeps.refl _ _
    | with_reducible assumption
    | with_reducible refine Keeps.ite ?_ ?_
    | (with_reducible apply supersede_keeps; decide)
    | split
    | (with_reducible apply Keeps.upd
       all_goals with_reducible first | exact Or.inl (by decide) | exact Or.inr rfl | exact rfl | exact ⟨rfl, rfl⟩ | exact Or.inr ⟨rfl, rfl, rfl⟩ | exact Or.inr ⟨rfl, rfl⟩ | exact Or.inr ⟨rfl, rfl, rfl, rfl⟩ | skip)

theorem nextCommand_keeps (q : ℕ) (host : Option Bytes) (s : State) (hm₀ : Part.among [.cmp, .blt, .dmc, .dram, .ports, .queues, .bureau, .pins, .sent, .drawn] K = true) (h₀ : Keeps K s₀ s) :
    Keeps K s₀ (nextCommand q host s) := by
  refine Keeps.after ?_ hm₀ h₀
  clear hm₀ h₀
  unfold nextCommand
  repeat' first
    | (extract_lets +onlyGivenNames t
       first
         | (refine Keeps.cut (t := t) ?_ (fun ht => ?_)
            on_goal 2 => clear_value t
            subst t)
         | skip)
    | with_reducible exact Keeps.refl _ _
    | with_reducible assumption
    | with_reducible refine Keeps.ite ?_ ?_
    | with_reducible refine Keeps.ifEvent ?_ ?_
    | (with_reducible apply noteFetch_keeps; decide)
    | (with_reducible apply issueCommand_keeps; decide)
    | (with_reducible apply beginJob_keeps; decide)
    | (with_reducible apply completeJob_keeps; decide)
    | split
    | (with_reducible apply Keeps.upd
       all_goals with_reducible first | exact Or.inl (by decide) | exact Or.inr rfl | exact rfl | exact ⟨rfl, rfl⟩ | exact Or.inr ⟨rfl, rfl, rfl⟩ | exact Or.inr ⟨rfl, rfl⟩ | exact Or.inr ⟨rfl, rfl, rfl, rfl⟩ | skip)

theorem nextFlatten_keeps (s : State) (hm₀ : Part.among [.blt] K = true) (h₀ : Keeps K s₀ s) :
    Keeps K s₀ (nextFlatten s) := by
  refine Keeps.after ?_ hm₀ h₀
  clear hm₀ h₀
  unfold nextFlatten
  repeat' first
    | with_reducible exact Keeps.refl _ _
    | with_reducible assumption
    | with_reducible refine Keeps.ite ?_ ?_
    | with_reducible refine Keeps.ifEvent ?_ ?_
    | split
    | (with_reducible apply Keeps.upd
       all_goals with_reducible first | exact Or.inl (by decide) | exact Or.inr rfl | exact rfl | exact ⟨rfl, rfl⟩ | exact Or.inr ⟨rfl, rfl, rfl⟩ | exact Or.inr ⟨rfl, rfl⟩ | exact Or.inr ⟨rfl, rfl, rfl, rfl⟩ | skip)

/-! ### Commands -/

theorem execBltCommandEnd_keeps (cmd : ℕ) (s : State) : Out.Keeps [.cmp, .blt, .dmc, .dram, .ports, .queues, .bureau, .pins, .sent] s (execBltCommandEnd cmd s) := by
  unfold execBltCommandEnd
  repeat' first
    | (extract_lets +onlyGivenNames t
       first
         | (refine Out.Keeps.cut (t := t) ?_ (fun ht => ?_)
            on_goal 2 => clear_value t
            subst t)
         | (refine Keeps.cut (t := t) ?_ (fun ht => ?_)
            on_goal 2 => clear_value t
            subst t)
         | skip)
    | with_reducible exact Keeps.refl _ _
    | with_reducible assumption
    | with_reducible refine Out.Keeps.done (by decide) ?_
    | with_reducible refine Keeps.ite ?_ ?_
    | with_reducible refine Keeps.ifEvent ?_ ?_
    | with_reducible refine Keeps.foldl (fun t x => ?_) ?_
    | with_reducible refine Keeps.elim ?_ (fun a => ?_)
    | (with_reducible apply endCommand_keeps; decide)
    | split
    | (with_reducible apply Keeps.upd
       all_goals with_reducible first | exact Or.inl (by decide) | exact Or.inr rfl | exact rfl | exact ⟨rfl, rfl⟩ | exact Or.inr ⟨rfl, rfl, rfl⟩ | exact Or.inr ⟨rfl, rfl⟩ | exact Or.inr ⟨rfl, rfl, rfl, rfl⟩ | skip)

theorem execBltCommandIssue_keeps (q : ℕ) (hostCmd : Option Bytes) (s : State) : Out.Keeps [.cmp, .blt, .dmc, .dram, .ports, .queues, .bureau, .pins, .sent, .drawn] s (execBltCommandIssue q hostCmd s) := by
  unfold execBltCommandIssue
  repeat' first
    | (extract_lets +onlyGivenNames t
       first
         | (refine Out.Keeps.cut (t := t) ?_ (fun ht => ?_)
            on_goal 2 => clear_value t
            subst t)
         | (refine Keeps.cut (t := t) ?_ (fun ht => ?_)
            on_goal 2 => clear_value t
            subst t)
         | skip)
    | with_reducible exact Keeps.refl _ _
    | with_reducible assumption
    | with_reducible refine Out.Keeps.done (by decide) ?_
    | with_reducible refine Keeps.ite ?_ ?_
    | with_reducible refine Keeps.ifEvent ?_ ?_
    | with_reducible refine Keeps.foldl (fun t x => ?_) ?_
    | with_reducible refine Keeps.elim ?_ (fun a => ?_)
    | (with_reducible apply nextFlatten_keeps; decide)
    | (with_reducible apply nextCommand_keeps; decide)
    | split
    | (with_reducible apply Keeps.upd
       all_goals with_reducible first | exact Or.inl (by decide) | exact Or.inr rfl | exact rfl | exact ⟨rfl, rfl⟩ | exact Or.inr ⟨rfl, rfl, rfl⟩ | exact Or.inr ⟨rfl, rfl⟩ | exact Or.inr ⟨rfl, rfl, rfl, rfl⟩ | skip)

theorem execBltEngineFault_keeps (s : State) : Out.Keeps [.cmp, .blt, .dmc, .dram, .ports, .queues, .bureau, .pins, .sent, .drawn] s (execBltEngineFault s) := by
  unfold execBltEngineFault
  repeat' first
    | (extract_lets +onlyGivenNames t
       first
         | (refine Out.Keeps.cut (t := t) ?_ (fun ht => ?_)
            on_goal 2 => clear_value t
            subst t)
         | (refine Keeps.cut (t := t) ?_ (fun ht => ?_)
            on_goal 2 => clear_value t
            subst t)
         | skip)
    | with_reducible exact Keeps.refl _ _
    | with_reducible assumption
    | with_reducible refine Out.Keeps.done (by decide) ?_
    | with_reducible refine Keeps.ite ?_ ?_
    | with_reducible refine Keeps.ifEvent ?_ ?_
    | with_reducible refine Keeps.foldl (fun t x => ?_) ?_
    | with_reducible refine Keeps.elim ?_ (fun a => ?_)
    | (with_reducible apply faultCommand_keeps; decide)
    | (with_reducible apply log_keeps; decide)
    | split
    | (with_reducible apply Keeps.upd
       all_goals with_reducible first | exact Or.inl (by decide) | exact Or.inr rfl | exact rfl | exact ⟨rfl, rfl⟩ | exact Or.inr ⟨rfl, rfl, rfl⟩ | exact Or.inr ⟨rfl, rfl⟩ | exact Or.inr ⟨rfl, rfl, rfl, rfl⟩ | skip)

theorem execFlattenRestart_keeps (group : ℕ) (s : State) : Out.Keeps [.blt, .ports, .sent] s (execFlattenRestart group s) := by
  unfold execFlattenRestart
  repeat' first
    | (extract_lets +onlyGivenNames t
       first
         | (refine Out.Keeps.cut (t := t) ?_ (fun ht => ?_)
            on_goal 2 => clear_value t
            subst t)
         | (refine Keeps.cut (t := t) ?_ (fun ht => ?_)
            on_goal 2 => clear_value t
            subst t)
         | skip)
    | with_reducible exact Keeps.refl _ _
    | with_reducible assumption
    | with_reducible refine Out.Keeps.done (by decide) ?_
    | with_reducible refine Keeps.ite ?_ ?_
    | with_reducible refine Keeps.ifEvent ?_ ?_
    | with_reducible refine Keeps.foldl (fun t x => ?_) ?_
    | with_reducible refine Keeps.elim ?_ (fun a => ?_)

    | split
    | (with_reducible apply Keeps.upd
       all_goals with_reducible first | exact Or.inl (by decide) | exact Or.inr rfl | exact rfl | exact ⟨rfl, rfl⟩ | exact Or.inr ⟨rfl, rfl, rfl⟩ | exact Or.inr ⟨rfl, rfl⟩ | exact Or.inr ⟨rfl, rfl, rfl, rfl⟩ | skip)

end Sys2Proof.Machine
end

