-- ==== Sys2Proof/Laws/KeepsDecoder.lean ====
section
/-! SUPPORT. What the operations of Machine/Decoder.lean may change: one lemma each, which says that the
parts it does not name, the form of the DRAM, the Bureau's chain and the queue are kept. -/

open Host

set_option linter.unusedTactic false
set_option linter.unreachableTactic false
set_option linter.tactic.unusedName false

namespace Sys2Proof.Machine

variable {K : List Part} {s₀ : State}

theorem setCtx_keeps (n : ℕ) (x : Ctx) (s : State) (hm₀ : Part.among [.dec] K = true) (h₀ : Keeps K s₀ s) :
    Keeps K s₀ (setCtx n x s) := by
  refine Keeps.after ?_ hm₀ h₀
  clear hm₀ h₀
  unfold setCtx
  repeat' first
    | (extract_lets +onlyGivenNames t
       first
         | (refine Keeps.cut (t := t) ?_ (fun ht => ?_)
            on_goal 2 => clear_value t
            subst t)
         | skip)
    | with_reducible exact Keeps.refl _ _
    | with_reducible assumption
    | with_reducible refine checked_keeps ?_ ?_
    | with_reducible refine refuse_keeps ?_
    | with_reducible refine Keeps.ite ?_ ?_
    | with_reducible refine Keeps.ifEvent ?_ ?_
    | with_reducible refine Keeps.foldl (fun t x => ?_) ?_
    | with_reducible refine Keeps.elim ?_ (fun a => ?_)
    | split
    | (with_reducible apply Keeps.upd
       all_goals with_reducible first | exact Or.inl (by decide) | exact Or.inr rfl | exact rfl | exact ⟨rfl, rfl⟩ | exact Or.inr ⟨rfl, rfl, rfl⟩ | exact Or.inr ⟨rfl, rfl⟩ | exact Or.inr ⟨rfl, rfl, rfl, rfl⟩ | skip)

theorem noteEntryRead_keeps (e : Bytes) (s : State) (hm₀ : Part.among [.dmc, .bureau] K = true) (h₀ : Keeps K s₀ s) :
    Keeps K s₀ (noteEntryRead e s) := by
  refine Keeps.after ?_ hm₀ h₀
  clear hm₀ h₀
  unfold noteEntryRead
  repeat' first
    | with_reducible exact Keeps.refl _ _
    | with_reducible assumption
    | with_reducible refine Keeps.ite ?_ ?_
    | with_reducible refine Keeps.ifEvent ?_ ?_
    | (with_reducible apply noteRead_keeps; decide)
    | split
    | (with_reducible apply Keeps.upd
       all_goals with_reducible first | exact Or.inl (by decide) | exact Or.inr rfl | exact rfl | exact ⟨rfl, rfl⟩ | exact Or.inr ⟨rfl, rfl, rfl⟩ | exact Or.inr ⟨rfl, rfl⟩ | exact Or.inr ⟨rfl, rfl, rfl, rfl⟩ | skip)

theorem abandonPicture_keeps (n : ℕ) (s : State) (hm₀ : Part.among [.dec, .queues] K = true) (h₀ : Keeps K s₀ s) :
    Keeps K s₀ (abandonPicture n s) := by
  refine Keeps.after ?_ hm₀ h₀
  clear hm₀ h₀
  unfold abandonPicture
  repeat' first
    | (extract_lets +onlyGivenNames t
       first
         | (refine Keeps.cut (t := t) ?_ (fun ht => ?_)
            on_goal 2 => clear_value t
            subst t)
         | skip)
    | with_reducible exact Keeps.refl _ _
    | with_reducible assumption
    | (with_reducible apply setQueue_keeps; decide)
    | (with_reducible apply setCtx_keeps; decide)
    | split
    | (with_reducible apply Keeps.upd
       all_goals with_reducible first | exact Or.inl (by decide) | exact Or.inr rfl | exact rfl | exact ⟨rfl, rfl⟩ | exact Or.inr ⟨rfl, rfl, rfl⟩ | exact Or.inr ⟨rfl, rfl⟩ | exact Or.inr ⟨rfl, rfl, rfl, rfl⟩ | skip)

theorem powerCore_keeps (c : ℕ) (s : State) (hm₀ : Part.among [.pwr] K = true) (h₀ : Keeps K s₀ s) :
    Keeps K s₀ (powerCore c s) := by
  refine Keeps.after ?_ hm₀ h₀
  clear hm₀ h₀
  unfold powerCore
  repeat' first
    | with_reducible exact Keeps.refl _ _
    | with_reducible assumption
    | with_reducible refine Keeps.ite ?_ ?_
    | with_reducible refine Keeps.ifEvent ?_ ?_
    | (with_reducible apply requestDomain_keeps; decide)
    | split
    | (with_reducible apply Keeps.upd
       all_goals with_reducible first | exact Or.inl (by decide) | exact Or.inr rfl | exact rfl | exact ⟨rfl, rfl⟩ | exact Or.inr ⟨rfl, rfl, rfl⟩ | exact Or.inr ⟨rfl, rfl⟩ | exact Or.inr ⟨rfl, rfl, rfl, rfl⟩ | skip)

theorem setCore_keeps (c : ℕ) (x : DecCore) (s : State) (hm₀ : Part.among [.dec] K = true) (h₀ : Keeps K s₀ s) :
    Keeps K s₀ (setCore c x s) := by
  refine Keeps.after ?_ hm₀ h₀
  clear hm₀ h₀
  unfold setCore
  repeat' first
    | (extract_lets +onlyGivenNames t
       first
         | (refine Keeps.cut (t := t) ?_ (fun ht => ?_)
            on_goal 2 => clear_value t
            subst t)
         | skip)
    | with_reducible exact Keeps.refl _ _
    | with_reducible assumption
    | with_reducible refine checked_keeps ?_ ?_
    | with_reducible refine refuse_keeps ?_
    | with_reducible refine Keeps.ite ?_ ?_
    | with_reducible refine Keeps.ifEvent ?_ ?_
    | with_reducible refine Keeps.foldl (fun t x => ?_) ?_
    | with_reducible refine Keeps.elim ?_ (fun a => ?_)
    | split
    | (with_reducible apply Keeps.upd
       all_goals with_reducible first | exact Or.inl (by decide) | exact Or.inr rfl | exact rfl | exact ⟨rfl, rfl⟩ | exact Or.inr ⟨rfl, rfl, rfl⟩ | exact Or.inr ⟨rfl, rfl⟩ | exact Or.inr ⟨rfl, rfl, rfl, rfl⟩ | skip)

theorem readyCore_keeps (c : ℕ) (s : State) (hm₀ : Part.among [.dec, .pwr] K = true) (h₀ : Keeps K s₀ s) :
    Keeps K s₀ (readyCore c s) := by
  refine Keeps.after ?_ hm₀ h₀
  clear hm₀ h₀
  unfold readyCore
  repeat' first
    | with_reducible exact Keeps.refl _ _
    | with_reducible assumption
    | with_reducible refine Keeps.ite ?_ ?_
    | with_reducible refine Keeps.ifEvent ?_ ?_
    | (with_reducible apply powerCore_keeps; decide)
    | (with_reducible apply setCore_keeps; decide)
    | split
    | (with_reducible apply Keeps.upd
       all_goals with_reducible first | exact Or.inl (by decide) | exact Or.inr rfl | exact rfl | exact ⟨rfl, rfl⟩ | exact Or.inr ⟨rfl, rfl, rfl⟩ | exact Or.inr ⟨rfl, rfl⟩ | exact Or.inr ⟨rfl, rfl, rfl, rfl⟩ | skip)

theorem abandonTest_keeps (c : ℕ) (s : State) (hm₀ : Part.among [.dec, .spr] K = true) (h₀ : Keeps K s₀ s) :
    Keeps K s₀ (abandonTest c s) := by
  refine Keeps.after ?_ hm₀ h₀
  clear hm₀ h₀
  unfold abandonTest
  repeat' first
    | with_reducible exact Keeps.refl _ _
    | with_reducible assumption
    | with_reducible refine Keeps.ite ?_ ?_
    | with_reducible refine Keeps.ifEvent ?_ ?_
    | (with_reducible apply setCore_keeps; decide)
    | split
    | (with_reducible apply Keeps.upd
       all_goals with_reducible first | exact Or.inl (by decide) | exact Or.inr rfl | exact rfl | exact ⟨rfl, rfl⟩ | exact Or.inr ⟨rfl, rfl, rfl⟩ | exact Or.inr ⟨rfl, rfl⟩ | exact Or.inr ⟨rfl, rfl, rfl, rfl⟩ | skip)

theorem pruneHeld_keeps (n : ℕ) (s : State) (hm₀ : Part.among [.dec] K = true) (h₀ : Keeps K s₀ s) :
    Keeps K s₀ (pruneHeld n s) := by
  refine Keeps.after ?_ hm₀ h₀
  clear hm₀ h₀
  unfold pruneHeld
  repeat' first
    | (extract_lets +onlyGivenNames t
       first
         | (refine Keeps.cut (t := t) ?_ (fun ht => ?_)
            on_goal 2 => clear_value t
            subst t)
         | skip)
    | with_reducible exact Keeps.refl _ _
    | with_reducible assumption
    | (with_reducible apply setCtx_keeps; decide)
    | (with_reducible apply Keeps.upd
       all_goals with_reducible first | exact Or.inl (by decide) | exact Or.inr rfl | exact rfl | exact ⟨rfl, rfl⟩ | exact Or.inr ⟨rfl, rfl, rfl⟩ | exact Or.inr ⟨rfl, rfl⟩ | exact Or.inr ⟨rfl, rfl, rfl, rfl⟩ | skip)

theorem outputPicture_keeps (n : ℕ) (k : ℕ) (s : State) (hm₀ : Part.among [.dec] K = true) (h₀ : Keeps K s₀ s) :
    Keeps K s₀ (outputPicture n k s) := by
  refine Keeps.after ?_ hm₀ h₀
  clear hm₀ h₀
  unfold outputPicture
  repeat' first
    | (extract_lets +onlyGivenNames t
       first
         | (refine Keeps.cut (t := t) ?_ (fun ht => ?_)
            on_goal 2 => clear_value t
            subst t)
         | skip)
    | with_reducible exact Keeps.refl _ _
    | with_reducible assumption
    | (with_reducible apply pruneHeld_keeps; decide)
    | (with_reducible apply setCtx_keeps; decide)
    | (with_reducible apply Keeps.upd
       all_goals with_reducible first | exact Or.inl (by decide) | exact Or.inr rfl | exact rfl | exact ⟨rfl, rfl⟩ | exact Or.inr ⟨rfl, rfl, rfl⟩ | exact Or.inr ⟨rfl, rfl⟩ | exact Or.inr ⟨rfl, rfl, rfl, rfl⟩ | skip)

theorem skipPicture_keeps (n : ℕ) (k : ℕ) (s : State) (hm₀ : Part.among [.dec] K = true) (h₀ : Keeps K s₀ s) :
    Keeps K s₀ (skipPicture n k s) := by
  refine Keeps.after ?_ hm₀ h₀
  clear hm₀ h₀
  unfold skipPicture
  repeat' first
    | (extract_lets +onlyGivenNames t
       first
         | (refine Keeps.cut (t := t) ?_ (fun ht => ?_)
            on_goal 2 => clear_value t
            subst t)
         | skip)
    | with_reducible exact Keeps.refl _ _
    | with_reducible assumption
    | (with_reducible apply outputPicture_keeps; decide)
    | (with_reducible apply setCtx_keeps; decide)
    | (with_reducible apply Keeps.upd
       all_goals with_reducible first | exact Or.inl (by decide) | exact Or.inr rfl | exact rfl | exact ⟨rfl, rfl⟩ | exact Or.inr ⟨rfl, rfl, rfl⟩ | exact Or.inr ⟨rfl, rfl⟩ | exact Or.inr ⟨rfl, rfl, rfl, rfl⟩ | skip)

theorem pullAlpha_keeps (a : ℕ) (p : ℕ) (s : State) (hm₀ : Part.among [.dec] K = true) (h₀ : Keeps K s₀ s) :
    Keeps K s₀ (pullAlpha a p s) := by
  refine Keeps.after ?_ hm₀ h₀
  clear hm₀ h₀
  unfold pullAlpha
  repeat' first
    | with_reducible exact Keeps.refl _ _
    | with_reducible refine Keeps.foldl (fun t x => ?_) ?_
    | (with_reducible apply outputPicture_keeps; decide)

theorem skipPair_keeps (n : ℕ) (k : ℕ) (b : PoolBuffer) (s : State) (hm₀ : Part.among [.dec] K = true) (h₀ : Keeps K s₀ s) :
    Keeps K s₀ (skipPair n k b s) := by
  refine Keeps.after ?_ hm₀ h₀
  clear hm₀ h₀
  unfold skipPair
  repeat' first
    | (extract_lets +onlyGivenNames t
       first
         | (refine Keeps.cut (t := t) ?_ (fun ht => ?_)
            on_goal 2 => clear_value t
            subst t)
         | skip)
    | with_reducible exact Keeps.refl _ _
    | with_reducible assumption
    | with_reducible refine Keeps.elim ?_ (fun a => ?_)
    | (with_reducible apply skipPicture_keeps; decide)
    | (with_reducible apply pullAlpha_keeps; decide)

theorem tryPair_keeps (n : ℕ) (s : State) (hm₀ : Part.among [.dec] K = true) (h₀ : Keeps K s₀ s) :
    Keeps K s₀ (tryPair n s) := by
  refine Keeps.after ?_ hm₀ h₀
  clear hm₀ h₀
  unfold tryPair
  repeat' first
    | (extract_lets +onlyGivenNames t
       first
         | (refine Keeps.cut (t := t) ?_ (fun ht => ?_)
            on_goal 2 => clear_value t
            subst t)
         | skip)
    | with_reducible exact Keeps.refl _ _
    | with_reducible assumption
    | with_reducible refine Keeps.ite ?_ ?_
    | (with_reducible apply pullAlpha_keeps; decide)
    | (with_reducible apply setCtx_keeps; decide)
    | split
    | (with_reducible apply Keeps.upd
       all_goals with_reducible first | exact Or.inl (by decide) | exact Or.inr rfl | exact rfl | exact ⟨rfl, rfl⟩ | exact Or.inr ⟨rfl, rfl, rfl⟩ | exact Or.inr ⟨rfl, rfl⟩ | exact Or.inr ⟨rfl, rfl, rfl, rfl⟩ | skip)

theorem beginConversion_keeps (n : ℕ) (k : ℕ) (b : PoolBuffer) (s : State) (hm₀ : Part.among [.dec] K = true) (h₀ : Keeps K s₀ s) :
    Keeps K s₀ (beginConversion n k b s) := by
  refine Keeps.after ?_ hm₀ h₀
  clear hm₀ h₀
  unfold beginConversion
  repeat' first
    | (extract_lets +onlyGivenNames t
       first
         | (refine Keeps.cut (t := t) ?_ (fun ht => ?_)
            on_goal 2 => clear_value t
            subst t)
         | skip)
    | with_reducible exact Keeps.refl _ _
    | with_reducible assumption
    | with_reducible refine Keeps.ite ?_ ?_
    | (with_reducible apply skipPair_keeps; decide)
    | (with_reducible apply setCtx_keeps; decide)
    | (with_reducible apply tryPair_keeps; decide)
    | split
    | (with_reducible apply Keeps.upd
       all_goals with_reducible first | exact Or.inl (by decide) | exact Or.inr rfl | exact rfl | exact ⟨rfl, rfl⟩ | exact Or.inr ⟨rfl, rfl, rfl⟩ | exact Or.inr ⟨rfl, rfl⟩ | exact Or.inr ⟨rfl, rfl, rfl, rfl⟩ | skip)

theorem displayNext_keeps (n : ℕ) (s : State) (hm₀ : Part.among [.dec] K = true) (h₀ : Keeps K s₀ s) :
    Keeps K s₀ (displayNext n s) := by
  refine Keeps.after ?_ hm₀ h₀
  clear hm₀ h₀
  unfold displayNext
  repeat' first
    | (extract_lets +onlyGivenNames t
       first
         | (refine Keeps.cut (t := t) ?_ (fun ht => ?_)
            on_goal 2 => clear_value t
            subst t)
         | skip)
    | with_reducible exact Keeps.refl _ _
    | with_reducible assumption
    | with_reducible refine Keeps.ite ?_ ?_
    | with_reducible refine Keeps.foldl (fun t x => ?_) ?_
    | (with_reducible apply outputPicture_keeps; decide)
    | (with_reducible apply tryPair_keeps; decide)
    | (with_reducible apply skipPicture_keeps; decide)
    | (with_reducible apply beginConversion_keeps; decide)
    | split
    | (with_reducible apply Keeps.upd
       all_goals with_reducible first | exact Or.inl (by decide) | exact Or.inr rfl | exact rfl | exact ⟨rfl, rfl⟩ | exact Or.inr ⟨rfl, rfl, rfl⟩ | exact Or.inr ⟨rfl, rfl⟩ | exact Or.inr ⟨rfl, rfl, rfl, rfl⟩ | skip)

theorem expirePair_keeps (n : ℕ) (a : ℕ) (v : Conversion) (s : State) (hm₀ : Part.among [.bases, .dec] K = true) (h₀ : Keeps K s₀ s) :
    Keeps K s₀ (expirePair n a v s) := by
  refine Keeps.after ?_ hm₀ h₀
  clear hm₀ h₀
  unfold expirePair
  repeat' first
    | (extract_lets +onlyGivenNames t
       first
         | (refine Keeps.cut (t := t) ?_ (fun ht => ?_)
            on_goal 2 => clear_value t
            subst t)
         | skip)
    | with_reducible exact Keeps.refl _ _
    | with_reducible assumption
    | with_reducible refine Keeps.ite ?_ ?_
    | (with_reducible apply pullAlpha_keeps; decide)
    | (with_reducible apply advanceTo0_keeps; decide)
    | (with_reducible apply setCtx_keeps; decide)
    | split
    | (with_reducible apply Keeps.upd
       all_goals with_reducible first | exact Or.inl (by decide) | exact Or.inr rfl | exact rfl | exact ⟨rfl, rfl⟩ | exact Or.inr ⟨rfl, rfl, rfl⟩ | exact Or.inr ⟨rfl, rfl⟩ | exact Or.inr ⟨rfl, rfl, rfl, rfl⟩ | skip)

theorem faultCore_keeps (c : ℕ) (s : State) (hm₀ : Part.among [.dec, .ports, .queues, .bureau, .pwr, .spr, .pins, .sent] K = true) (h₀ : Keeps K s₀ s) :
    Keeps K s₀ (faultCore c s) := by
  refine Keeps.after ?_ hm₀ h₀
  clear hm₀ h₀
  unfold faultCore
  repeat' first
    | (extract_lets +onlyGivenNames t
       first
         | (refine Keeps.cut (t := t) ?_ (fun ht => ?_)
            on_goal 2 => clear_value t
            subst t)
         | skip)
    | with_reducible exact Keeps.refl _ _
    | with_reducible assumption
    | with_reducible refine Keeps.ite ?_ ?_
    | with_reducible refine Keeps.ifEvent ?_ ?_
    | with_reducible refine Keeps.foldl (fun t x => ?_) ?_
    | (with_reducible apply abandonTest_keeps; decide)
    | (with_reducible apply powerCore_keeps; decide)
    | (with_reducible apply abandonPicture_keeps; decide)
    | (with_reducible apply setCore_keeps; decide)
    | (with_reducible apply setCtx_keeps; decide)
    | (with_reducible apply noteFault_keeps; decide)
    | (with_reducible apply exhaust_keeps; decide)
    | (with_reducible apply requestDomain_keeps; decide)
    | (with_reducible apply log_keeps; decide)
    | (with_reducible apply assertFault_keeps; decide)
    | split
    | (with_reducible apply Keeps.upd
       all_goals with_reducible first | exact Or.inl (by decide) | exact Or.inr rfl | exact rfl | exact ⟨rfl, rfl⟩ | exact Or.inr ⟨rfl, rfl, rfl⟩ | exact Or.inr ⟨rfl, rfl⟩ | exact Or.inr ⟨rfl, rfl, rfl, rfl⟩ | skip)

theorem writeBack_keeps (x : Ctx) (z : AlphaSource) (p : Picture) (d : Desc) (s : State)
    (hm₀ : Part.among [.dmc, .dram, .ports, .bureau, .pins, .sent] K = true) (h₀ : Keeps K s₀ s) : Keeps K s₀ (writeBack x z p d s).1 := by
  refine Keeps.after ?_ hm₀ h₀
  unfold writeBack
  refine Keeps.foldlFst (t := (s, false)) (fun t b => ?_) (Keeps.refl _ _)
  exact memWrite_keeps _ _ _ _ (by decide) (Keeps.refl _ _)

theorem finishConversion_keeps (n : Nat) (v : Conversion) (k : Nat) (b : PoolBuffer) (s : State) (hm₀ : Part.among [.cmp, .dec, .dmc, .dram, .ports, .bureau, .pins, .sent] K = true) (h₀ : Keeps K s₀ s) : Keeps K s₀ (finishConversion n v k b s) := by
  refine Keeps.after ?_ hm₀ h₀
  clear hm₀ h₀
  unfold finishConversion
  extract_lets x z
  have hw := writeBack_keeps (K := [.cmp, .dec, .dmc, .dram, .ports, .bureau, .pins, .sent]) x z b.pic (activeLayer s v.layer).back s (by decide) (Keeps.refl _ s)
  revert hw
  generalize writeBack x z b.pic (activeLayer s v.layer).back s = w
  obtain ⟨t, blocked⟩ := w
  intro hw
  dsimp only at hw ⊢
  refine Keeps.elim ?_ (fun a => pruneHeld_keeps _ _ (by decide) ?_) <;>
  · refine outputPicture_keeps _ _ _ (by decide) (advanceFence_keeps _ _ _ (by decide) (setCtx_keeps _ _ _ (by decide) ?_))
    apply Keeps.upd
    all_goals with_reducible first | exact hw | exact Or.inl (by decide) | exact Or.inr rfl | exact rfl | exact ⟨rfl, rfl⟩ | exact Or.inr ⟨rfl, rfl, rfl⟩ | exact Or.inr ⟨rfl, rfl⟩ | exact Or.inr ⟨rfl, rfl, rfl, rfl⟩

theorem finishPicture_keeps (c : ℕ) (n : ℕ) (p : DecPicture) (s : State) (hm₀ : Part.among [.dec, .dmc, .dram, .ports, .queues, .bureau, .pins, .sent] K = true) (h₀ : Keeps K s₀ s) :
    Keeps K s₀ (finishPicture c n p s) := by
  refine Keeps.after ?_ hm₀ h₀
  clear hm₀ h₀
  unfold finishPicture
  repeat' first
    | (extract_lets +onlyGivenNames t
       first
         | (refine Keeps.cut (t := t) ?_ (fun ht => ?_)
            on_goal 2 => clear_value t
            subst t)
         | skip)
    | with_reducible exact Keeps.refl _ _
    | with_reducible assumption
    | with_reducible refine Keeps.ite ?_ ?_
    | with_reducible refine Keeps.ifEvent ?_ ?_
    | (with_reducible apply setCore_keeps; decide)
    | (with_reducible apply setCtx_keeps; decide)
    | (with_reducible apply complete_keeps; decide)
    | split
    | (with_reducible apply Keeps.upd
       all_goals with_reducible first | exact Or.inl (by decide) | exact Or.inr rfl | exact rfl | exact ⟨rfl, rfl⟩ | exact Or.inr ⟨rfl, rfl, rfl⟩ | exact Or.inr ⟨rfl, rfl⟩ | exact Or.inr ⟨rfl, rfl, rfl, rfl⟩ | skip)

theorem makeRoom_keeps (c : ℕ) (s : State) (hm₀ : Part.among [.dec] K = true) (h₀ : Keeps K s₀ s) :
    Keeps K s₀ (makeRoom c s) := by
  refine Keeps.after ?_ hm₀ h₀
  clear hm₀ h₀
  unfold makeRoom
  repeat' first
    | (extract_lets +onlyGivenNames t
       first
         | (refine Keeps.cut (t := t) ?_ (fun ht => ?_)
            on_goal 2 => clear_value t
            subst t)
         | skip)
    | with_reducible exact Keeps.refl _ _
    | with_reducible assumption
    | with_reducible refine Keeps.ite ?_ ?_
    | with_reducible refine Keeps.ifEvent ?_ ?_
    | with_reducible refine Keeps.foldl (fun t x => ?_) ?_
    | (with_reducible apply setCtx_keeps; decide)
    | split
    | (with_reducible apply Keeps.upd
       all_goals with_reducible first | exact Or.inl (by decide) | exact Or.inr rfl | exact rfl | exact ⟨rfl, rfl⟩ | exact Or.inr ⟨rfl, rfl, rfl⟩ | exact Or.inr ⟨rfl, rfl⟩ | exact Or.inr ⟨rfl, rfl, rfl, rfl⟩ | skip)

theorem setPicture_keeps (n : ℕ) (p : DecPicture) (s : State) (hm₀ : Part.among [.dec] K = true) (h₀ : Keeps K s₀ s) :
    Keeps K s₀ (setPicture n p s) := by
  refine Keeps.after ?_ hm₀ h₀
  clear hm₀ h₀
  unfold setPicture
  repeat' first
    | with_reducible exact Keeps.refl _ _
    | (with_reducible apply setCtx_keeps; decide)
    | (with_reducible apply Keeps.upd
       all_goals with_reducible first | exact Or.inl (by decide) | exact Or.inr rfl | exact rfl | exact ⟨rfl, rfl⟩ | exact Or.inr ⟨rfl, rfl, rfl⟩ | exact Or.inr ⟨rfl, rfl⟩ | exact Or.inr ⟨rfl, rfl, rfl, rfl⟩ | skip)

theorem startPicture_keeps (c : ℕ) (n : ℕ) (f : Fetched) (au : AccessUnit) (s : State) (hm₀ : Part.among [.dec, .dmc, .queues, .bureau] K = true) (h₀ : Keeps K s₀ s) :
    Keeps K s₀ (startPicture c n f au s) := by
  refine Keeps.after ?_ hm₀ h₀
  clear hm₀ h₀
  unfold startPicture
  repeat' first
    | (extract_lets +onlyGivenNames t
       first
         | (refine Keeps.cut (t := t) ?_ (fun ht => ?_)
            on_goal 2 => clear_value t
            subst t)
         | skip)
    | with_reducible exact Keeps.refl _ _
    | with_reducible assumption
    | with_reducible refine Keeps.ite ?_ ?_
    | with_reducible refine Keeps.ifEvent ?_ ?_
    | with_reducible refine Keeps.elim ?_ (fun a => ?_)
    | (with_reducible apply noteEntryRead_keeps; decide)
    | (with_reducible apply setCore_keeps; decide)
    | (with_reducible apply setCtx_keeps; decide)
    | (with_reducible apply setQueue_keeps; decide)
    | split
    | (with_reducible apply Keeps.upd
       all_goals with_reducible first | exact Or.inl (by decide) | exact Or.inr rfl | exact rfl | exact ⟨rfl, rfl⟩ | exact Or.inr ⟨rfl, rfl, rfl⟩ | exact Or.inr ⟨rfl, rfl⟩ | exact Or.inr ⟨rfl, rfl, rfl, rfl⟩ | skip)

/-! ### Commands -/

theorem execContextMoveComplete_keeps (core : ℕ) (s : State) : Out.Keeps [.dec, .ports, .sent] s (execContextMoveComplete core s) := by
  unfold execContextMoveComplete
  repeat' first
    | (extract_lets +onlyGivenNames t
       first
         | (refine Out.Keeps.cut (t := t) ?_ (fun ht => ?_)
            on_goal 2 => clear_value t
            subst t)
         | (refine Keeps.cut (t := t) ?_ (fun ht => ?_)
            on_goal 2 => clear_value t
            subst t)
         | skip)
    | with_reducible exact Keeps.refl _ _
    | with_reducible assumption
    | with_reducible refine Out.Keeps.done (by decide) ?_
    | with_reducible refine Keeps.ite ?_ ?_
    | with_reducible refine Keeps.ifEvent ?_ ?_
    | with_reducible refine Keeps.foldl (fun t x => ?_) ?_
    | with_reducible refine Keeps.elim ?_ (fun a => ?_)
    | (with_reducible apply setCtx_keeps; decide)
    | split
    | (with_reducible apply Keeps.upd
       all_goals with_reducible first | exact Or.inl (by decide) | exact Or.inr rfl | exact rfl | exact ⟨rfl, rfl⟩ | exact Or.inr ⟨rfl, rfl, rfl⟩ | exact Or.inr ⟨rfl, rfl⟩ | exact Or.inr ⟨rfl, rfl, rfl, rfl⟩ | skip)

theorem execConversionComplete_keeps (ctx : ℕ) (s : State) : Out.Keeps [.cmp, .dec, .dmc, .dram, .ports, .bureau, .pins, .sent] s (execConversionComplete ctx s) := by
  unfold execConversionComplete
  repeat' first
    | (extract_lets +onlyGivenNames t
       first
         | (refine Out.Keeps.cut (t := t) ?_ (fun ht => ?_)
            on_goal 2 => clear_value t
            subst t)
         | (refine Keeps.cut (t := t) ?_ (fun ht => ?_)
            on_goal 2 => clear_value t
            subst t)
         | skip)
    | with_reducible exact Keeps.refl _ _
    | with_reducible assumption
    | with_reducible refine Out.Keeps.done (by decide) ?_
    | with_reducible refine Keeps.ite ?_ ?_
    | with_reducible refine Keeps.ifEvent ?_ ?_
    | with_reducible refine Keeps.foldl (fun t x => ?_) ?_
    | with_reducible refine Keeps.elim ?_ (fun a => ?_)
    | (with_reducible apply finishConversion_keeps; decide)
    | split
    | (with_reducible apply Keeps.upd
       all_goals with_reducible first | exact Or.inl (by decide) | exact Or.inr rfl | exact rfl | exact ⟨rfl, rfl⟩ | exact Or.inr ⟨rfl, rfl, rfl⟩ | exact Or.inr ⟨rfl, rfl⟩ | exact Or.inr ⟨rfl, rfl, rfl, rfl⟩ | skip)

theorem execConversionStart_keeps (ctx : ℕ) (s : State) : Out.Keeps [.dec, .ports, .sent] s (execConversionStart ctx s) := by
  unfold execConversionStart
  repeat' first
    | (extract_lets +onlyGivenNames t
       first
         | (refine Out.Keeps.cut (t := t) ?_ (fun ht => ?_)
            on_goal 2 => clear_value t
            subst t)
         | (refine Keeps.cut (t := t) ?_ (fun ht => ?_)
            on_goal 2 => clear_value t
            subst t)
         | skip)
    | with_reducible exact Keeps.refl _ _
    | with_reducible assumption
    | with_reducible refine Out.Keeps.done (by decide) ?_
    | with_reducible refine Keeps.ite ?_ ?_
    | with_reducible refine Keeps.ifEvent ?_ ?_
    | with_reducible refine Keeps.foldl (fun t x => ?_) ?_
    | with_reducible refine Keeps.elim ?_ (fun a => ?_)
    | (with_reducible apply displayNext_keeps; decide)
    | split
    | (with_reducible apply Keeps.upd
       all_goals with_reducible first | exact Or.inl (by decide) | exact Or.inr rfl | exact rfl | exact ⟨rfl, rfl⟩ | exact Or.inr ⟨rfl, rfl, rfl⟩ | exact Or.inr ⟨rfl, rfl⟩ | exact Or.inr ⟨rfl, rfl, rfl, rfl⟩ | skip)

theorem execCoreFault_keeps (core : ℕ) (s : State) : Out.Keeps [.dec, .ports, .queues, .bureau, .pwr, .spr, .pins, .sent] s (execCoreFault core s) := by
  unfold execCoreFault
  repeat' first
    | (extract_lets +onlyGivenNames t
       first
         | (refine Out.Keeps.cut (t := t) ?_ (fun ht => ?_)
            on_goal 2 => clear_value t
            subst t)
         | (refine Keeps.cut (t := t) ?_ (fun ht => ?_)
            on_goal 2 => clear_value t
            subst t)
         | skip)
    | with_reducible exact Keeps.refl _ _
    | with_reducible assumption
    | with_reducible refine Out.Keeps.done (by decide) ?_
    | with_reducible refine Keeps.ite ?_ ?_
    | with_reducible refine Keeps.ifEvent ?_ ?_
    | with_reducible refine Keeps.foldl (fun t x => ?_) ?_
    | with_reducible refine Keeps.elim ?_ (fun a => ?_)
    | (with_reducible apply faultCore_keeps; decide)
    | split
    | (with_reducible apply Keeps.upd
       all_goals with_reducible first | exact Or.inl (by decide) | exact Or.inr rfl | exact rfl | exact ⟨rfl, rfl⟩ | exact Or.inr ⟨rfl, rfl, rfl⟩ | exact Or.inr ⟨rfl, rfl⟩ | exact Or.inr ⟨rfl, rfl, rfl, rfl⟩ | skip)

theorem execCorePictureTimeout_keeps (core : ℕ) (s : State) : Out.Keeps [.bases, .dec, .ports, .queues, .bureau, .pwr, .spr, .pins, .sent] s (execCorePictureTimeout core s) := by
  unfold execCorePictureTimeout
  repeat' first
    | (extract_lets +onlyGivenNames t
       first
         | (refine Out.Keeps.cut (t := t) ?_ (fun ht => ?_)
            on_goal 2 => clear_value t
            subst t)
         | (refine Keeps.cut (t := t) ?_ (fun ht => ?_)
            on_goal 2 => clear_value t
            subst t)
         | skip)
    | with_reducible exact Keeps.refl _ _
    | with_reducible assumption
    | with_reducible refine Out.Keeps.done (by decide) ?_
    | with_reducible refine Keeps.ite ?_ ?_
    | with_reducible refine Keeps.ifEvent ?_ ?_
    | with_reducible refine Keeps.foldl (fun t x => ?_) ?_
    | with_reducible refine Keeps.elim ?_ (fun a => ?_)
    | (with_reducible apply faultCore_keeps; decide)
    | (with_reducible apply advanceTo0_keeps; decide)
    | split
    | (with_reducible apply Keeps.upd
       all_goals with_reducible first | exact Or.inl (by decide) | exact Or.inr rfl | exact rfl | exact ⟨rfl, rfl⟩ | exact Or.inr ⟨rfl, rfl, rfl⟩ | exact Or.inr ⟨rfl, rfl⟩ | exact Or.inr ⟨rfl, rfl, rfl, rfl⟩ | skip)

theorem execDecodePictureStart_keeps (core : ℕ) (au : AccessUnit) (s : State) : Out.Keeps [.dec, .dmc, .ports, .queues, .bureau, .sent] s (execDecodePictureStart core au s) := by
  unfold execDecodePictureStart
  repeat' first
    | (extract_lets +onlyGivenNames t
       first
         | (refine Out.Keeps.cut (t := t) ?_ (fun ht => ?_)
            on_goal 2 => clear_value t
            subst t)
         | (refine Keeps.cut (t := t) ?_ (fun ht => ?_)
            on_goal 2 => clear_value t
            subst t)
         | skip)
    | with_reducible exact Keeps.refl _ _
    | with_reducible assumption
    | with_reducible refine Out.Keeps.done (by decide) ?_
    | with_reducible refine Keeps.ite ?_ ?_
    | with_reducible refine Keeps.ifEvent ?_ ?_
    | with_reducible refine Keeps.foldl (fun t x => ?_) ?_
    | with_reducible refine Keeps.elim ?_ (fun a => ?_)
    | (with_reducible apply makeRoom_keeps; decide)
    | (with_reducible apply startPicture_keeps; decide)
    | split
    | (with_reducible apply Keeps.upd
       all_goals with_reducible first | exact Or.inl (by decide) | exact Or.inr rfl | exact rfl | exact ⟨rfl, rfl⟩ | exact Or.inr ⟨rfl, rfl, rfl⟩ | exact Or.inr ⟨rfl, rfl⟩ | exact Or.inr ⟨rfl, rfl, rfl, rfl⟩ | skip)

theorem execPairWaitExpiry_keeps (ctx : ℕ) (s : State) : Out.Keeps [.bases, .dec, .ports, .sent] s (execPairWaitExpiry ctx s) := by
  unfold execPairWaitExpiry
  repeat' first
    | (extract_lets +onlyGivenNames t
       first
         | (refine Out.Keeps.cut (t := t) ?_ (fun ht => ?_)
            on_goal 2 => clear_value t
            subst t)
         | (refine Keeps.cut (t := t) ?_ (fun ht => ?_)
            on_goal 2 => clear_value t
            subst t)
         | skip)
    | with_reducible exact Keeps.refl _ _
    | with_reducible assumption
    | with_reducible refine Out.Keeps.done (by decide) ?_
    | with_reducible refine Keeps.ite ?_ ?_
    | with_reducible refine Keeps.ifEvent ?_ ?_
    | with_reducible refine Keeps.foldl (fun t x => ?_) ?_
    | with_reducible refine Keeps.elim ?_ (fun a => ?_)
    | (with_reducible apply expirePair_keeps; decide)
    | split
    | (with_reducible apply Keeps.upd
       all_goals with_reducible first | exact Or.inl (by decide) | exact Or.inr rfl | exact rfl | exact ⟨rfl, rfl⟩ | exact Or.inr ⟨rfl, rfl, rfl⟩ | exact Or.inr ⟨rfl, rfl⟩ | exact Or.inr ⟨rfl, rfl, rfl, rfl⟩ | skip)

theorem execPicWatchdog_keeps (core : ℕ) (ctus : List ℕ) (s : State) : Out.Keeps [.bases, .dec, .dmc, .dram, .ports, .queues, .bureau, .pins, .sent] s (execPicWatchdog core ctus s) := by
  unfold execPicWatchdog
  repeat' first
    | (extract_lets +onlyGivenNames t
       first
         | (refine Out.Keeps.cut (t := t) ?_ (fun ht => ?_)
            on_goal 2 => clear_value t
            subst t)
         | (refine Keeps.cut (t := t) ?_ (fun ht => ?_)
            on_goal 2 => clear_value t
            subst t)
         | skip)
    | with_reducible exact Keeps.refl _ _
    | with_reducible assumption
    | with_reducible refine Out.Keeps.done (by decide) ?_
    | with_reducible refine Keeps.ite ?_ ?_
    | with_reducible refine Keeps.ifEvent ?_ ?_
    | with_reducible refine Keeps.foldl (fun t x => ?_) ?_
    | with_reducible refine Keeps.elim ?_ (fun a => ?_)
    | (with_reducible apply finishPicture_keeps; decide)
    | (with_reducible apply setCtx_keeps; decide)
    | (with_reducible apply advanceTo0_keeps; decide)
    | split
    | (with_reducible apply Keeps.upd
       all_goals with_reducible first | exact Or.inl (by decide) | exact Or.inr rfl | exact rfl | exact ⟨rfl, rfl⟩ | exact Or.inr ⟨rfl, rfl, rfl⟩ | exact Or.inr ⟨rfl, rfl⟩ | exact Or.inr ⟨rfl, rfl, rfl, rfl⟩ | skip)

theorem execPictureComplete_keeps (core : ℕ) (s : State) : Out.Keeps [.dec, .dmc, .dram, .ports, .queues, .bureau, .pins, .sent] s (execPictureComplete core s) := by
  unfold execPictureComplete
  repeat' first
    | (extract_lets +onlyGivenNames t
       first
         | (refine Out.Keeps.cut (t := t) ?_ (fun ht => ?_)
            on_goal 2 => clear_value t
            subst t)
         | (refine Keeps.cut (t := t) ?_ (fun ht => ?_)
            on_goal 2 => clear_value t
            subst t)
         | skip)
    | with_reducible exact Keeps.refl _ _
    | with_reducible assumption
    | with_reducible refine Out.Keeps.done (by decide) ?_
    | with_reducible refine Keeps.ite ?_ ?_
    | with_reducible refine Keeps.ifEvent ?_ ?_
    | with_reducible refine Keeps.foldl (fun t x => ?_) ?_
    | with_reducible refine Keeps.elim ?_ (fun a => ?_)
    | (with_reducible apply finishPicture_keeps; decide)
    | split
    | (with_reducible apply Keeps.upd
       all_goals with_reducible first | exact Or.inl (by decide) | exact Or.inr rfl | exact rfl | exact ⟨rfl, rfl⟩ | exact Or.inr ⟨rfl, rfl, rfl⟩ | exact Or.inr ⟨rfl, rfl⟩ | exact Or.inr ⟨rfl, rfl, rfl, rfl⟩ | skip)

theorem execRowBudget_keeps (core : ℕ) (ctus : List ℕ) (s : State) : Out.Keeps [.dec, .ports, .sent] s (execRowBudget core ctus s) := by
  unfold execRowBudget
  repeat' first
    | (extract_lets +onlyGivenNames t
       first
         | (refine Out.Keeps.cut (t := t) ?_ (fun ht => ?_)
            on_goal 2 => clear_value t
            subst t)
         | (refine Keeps.cut (t := t) ?_ (fun ht => ?_)
            on_goal 2 => clear_value t
            subst t)
         | skip)
    | with_reducible exact Keeps.refl _ _
    | with_reducible assumption
    | with_reducible refine Out.Keeps.done (by decide) ?_
    | with_reducible refine Keeps.ite ?_ ?_
    | with_reducible refine Keeps.ifEvent ?_ ?_
    | with_reducible refine Keeps.foldl (fun t x => ?_) ?_
    | with_reducible refine Keeps.elim ?_ (fun a => ?_)
    | (with_reducible apply setPicture_keeps; decide)
    | split
    | (with_reducible apply Keeps.upd
       all_goals with_reducible first | exact Or.inl (by decide) | exact Or.inr rfl | exact rfl | exact ⟨rfl, rfl⟩ | exact Or.inr ⟨rfl, rfl, rfl⟩ | exact Or.inr ⟨rfl, rfl⟩ | exact Or.inr ⟨rfl, rfl, rfl, rfl⟩ | skip)

end Sys2Proof.Machine
end

