-- ==== Sys2Proof/Laws/KeepsModes.lean ====
section
/-! SUPPORT. What the operations of Machine/Modes.lean may change: one lemma each, which says that the
parts it does not name, the form of the DRAM, the Bureau's chain and the queue are kept. -/

open Host

set_option linter.unusedTactic false
set_option linter.unreachableTactic false
set_option linter.tactic.unusedName false

namespace Sys2Proof.Machine

variable {K : List Part} {s₀ : State}

theorem sendLine_keeps (n : ℕ) (sub : ℕ) (line : ℕ) (times : ℕ) (px : List (ℕ × ℕ × ℕ)) (s : State) (hm₀ : Part.among [.out, .tlk, .sent] K = true) (h₀ : Keeps K s₀ s) :
    Keeps K s₀ (sendLine n sub line times px s) := by
  refine Keeps.after ?_ hm₀ h₀
  clear hm₀ h₀
  unfold sendLine
  repeat' first
    | (extract_lets +onlyGivenNames t
       first
         | (refine Keeps.cut (t := t) ?_ (fun ht => ?_)
            on_goal 2 => clear_value t
            subst t)
         | skip)
    | with_reducible exact Keeps.refl _ _
    | with_reducible assumption
    | with_reducible refine Keeps.ite ?_ ?_
    | (with_reducible apply setLink_keeps; decide)
    | (with_reducible apply sumLine_keeps; decide)
    | (with_reducible apply send_keeps; decide)
    | split
    | (with_reducible apply Keeps.upd
       all_goals with_reducible first | exact Or.inl (by decide) | exact Or.inr rfl | exact rfl | exact ⟨rfl, rfl⟩ | exact Or.inr ⟨rfl, rfl, rfl⟩ | exact Or.inr ⟨rfl, rfl⟩ | exact Or.inr ⟨rfl, rfl, rfl, rfl⟩ | skip)

theorem rowTransmit_keeps (obs : LineObs) (sub : ℕ) (line : ℕ) (r : ℕ) (s : State) (hm₀ : Part.among [.ray, .sig, .out, .tlk, .dmc, .sent] K = true) (h₀ : Keeps K s₀ s) :
    Keeps K s₀ (rowTransmit obs sub line r s) := by
  refine Keeps.after ?_ hm₀ h₀
  clear hm₀ h₀
  unfold rowTransmit
  repeat' first
    | (extract_lets +onlyGivenNames t
       first
         | (refine Keeps.cut (t := t) ?_ (fun ht => ?_)
            on_goal 2 => clear_value t
            subst t)
         | skip)
    | with_reducible exact Keeps.refl _ _
    | with_reducible assumption
    | with_reducible refine Keeps.ite ?_ ?_
    | with_reducible refine Keeps.ifEvent ?_ ?_
    | with_reducible refine Keeps.foldl (fun t x => ?_) ?_
    | (with_reducible apply sendLine_keeps; decide)
    | (with_reducible apply tapLine_keeps; decide)
    | (with_reducible apply setRow_keeps; decide)
    | (with_reducible apply flushRow_keeps; decide)
    | split
    | (with_reducible apply Keeps.upd
       all_goals with_reducible first | exact Or.inl (by decide) | exact Or.inr rfl | exact rfl | exact ⟨rfl, rfl⟩ | exact Or.inr ⟨rfl, rfl, rfl⟩ | exact Or.inr ⟨rfl, rfl⟩ | exact Or.inr ⟨rfl, rfl, rfl, rfl⟩ | skip)

theorem countReads_keeps (obs : LineObs) (s : State) (hm₀ : Part.among [.geom, .out] K = true) (h₀ : Keeps K s₀ s) :
    Keeps K s₀ (countReads obs s) := by
  refine Keeps.after ?_ hm₀ h₀
  clear hm₀ h₀
  unfold countReads
  repeat' first
    | (extract_lets +onlyGivenNames t
       first
         | (refine Keeps.cut (t := t) ?_ (fun ht => ?_)
            on_goal 2 => clear_value t
            subst t)
         | skip)
    | with_reducible exact Keeps.refl _ _
    | with_reducible assumption
    | (with_reducible apply countOutPoison_keeps; decide)
    | (with_reducible apply Keeps.upd
       all_goals with_reducible first | exact Or.inl (by decide) | exact Or.inr rfl | exact rfl | exact ⟨rfl, rfl⟩ | exact Or.inr ⟨rfl, rfl, rfl⟩ | exact Or.inr ⟨rfl, rfl⟩ | exact Or.inr ⟨rfl, rfl, rfl, rfl⟩ | skip)

theorem activeLine_keeps (obs : LineObs) (sub : ℕ) (line : ℕ) (s : State) (hm₀ : Part.among [.cmp, .geom, .ray, .sig, .out, .tlk, .dmc, .ports, .bureau, .pwr, .spr, .pins, .sent] K = true) (h₀ : Keeps K s₀ s) :
    Keeps K s₀ (activeLine obs sub line s) := by
  refine Keeps.after ?_ hm₀ h₀
  clear hm₀ h₀
  unfold activeLine
  repeat' first
    | with_reducible exact Keeps.refl _ _
    | with_reducible assumption
    | with_reducible refine Keeps.ite ?_ ?_
    | with_reducible refine Keeps.ifEvent ?_ ?_
    | with_reducible refine Keeps.foldl (fun t x => ?_) ?_
    | (with_reducible apply countReads_keeps; decide)
    | (with_reducible apply rowTransmit_keeps; decide)
    | (with_reducible apply rowLineStart_keeps; decide)
    | split
    | (with_reducible apply Keeps.upd
       all_goals with_reducible first | exact Or.inl (by decide) | exact Or.inr rfl | exact rfl | exact ⟨rfl, rfl⟩ | exact Or.inr ⟨rfl, rfl, rfl⟩ | exact Or.inr ⟨rfl, rfl⟩ | exact Or.inr ⟨rfl, rfl, rfl, rfl⟩ | skip)

theorem benchCpu_keeps (s : State) (hm₀ : Part.among [.bureau, .pwr, .spr] K = true) (h₀ : Keeps K s₀ s) :
    Keeps K s₀ (benchCpu s) := by
  refine Keeps.after ?_ hm₀ h₀
  clear hm₀ h₀
  unfold benchCpu
  repeat' first
    | (extract_lets +onlyGivenNames t
       first
         | (refine Keeps.cut (t := t) ?_ (fun ht => ?_)
            on_goal 2 => clear_value t
            subst t)
         | skip)
    | with_reducible exact Keeps.refl _ _
    | with_reducible assumption
    | with_reducible refine Keeps.ite ?_ ?_
    | with_reducible refine Keeps.ifEvent ?_ ?_
    | (with_reducible apply setCpu_keeps; decide)
    | (with_reducible apply requestDomain_keeps; decide)
    | split
    | (with_reducible apply Keeps.upd
       all_goals with_reducible first | exact Or.inl (by decide) | exact Or.inr rfl | exact rfl | exact ⟨rfl, rfl⟩ | exact Or.inr ⟨rfl, rfl, rfl⟩ | exact Or.inr ⟨rfl, rfl⟩ | exact Or.inr ⟨rfl, rfl, rfl, rfl⟩ | skip)

theorem addBenchDose_keeps (b : Bytes) (n : ℕ) (s : State) (hm₀ : Part.among [.out] K = true) (h₀ : Keeps K s₀ s) :
    Keeps K s₀ (addBenchDose b n s) := by
  refine Keeps.after ?_ hm₀ h₀
  clear hm₀ h₀
  unfold addBenchDose
  repeat' first
    | (extract_lets +onlyGivenNames t
       first
         | (refine Keeps.cut (t := t) ?_ (fun ht => ?_)
            on_goal 2 => clear_value t
            subst t)
         | skip)
    | with_reducible exact Keeps.refl _ _
    | with_reducible assumption
    | with_reducible refine Keeps.ite ?_ ?_
    | split
    | (with_reducible apply Keeps.upd
       all_goals with_reducible first | exact Or.inl (by decide) | exact Or.inr rfl | exact rfl | exact ⟨rfl, rfl⟩ | exact Or.inr ⟨rfl, rfl, rfl⟩ | exact Or.inr ⟨rfl, rfl⟩ | exact Or.inr ⟨rfl, rfl, rfl, rfl⟩ | skip)

theorem swapGeom_keeps (f : ℕ) (o : Origin) (s : State) (hm₀ : Part.among [.geom, .sig, .bureau] K = true) (h₀ : Keeps K s₀ s) :
    Keeps K s₀ (swapGeom f o s) := by
  refine Keeps.after ?_ hm₀ h₀
  clear hm₀ h₀
  unfold swapGeom
  repeat' first
    | (extract_lets +onlyGivenNames t
       first
         | (refine Keeps.cut (t := t) ?_ (fun ht => ?_)
            on_goal 2 => clear_value t
            subst t)
         | skip)
    | with_reducible exact Keeps.refl _ _
    | with_reducible assumption
    | with_reducible refine Keeps.ite ?_ ?_
    | with_reducible refine Keeps.ifEvent ?_ ?_
    | (with_reducible apply forgetReferences_keeps; decide)
    | (with_reducible apply log_keeps; decide)
    | split
    | (with_reducible apply Keeps.upd
       all_goals with_reducible first | exact Or.inl (by decide) | exact Or.inr rfl | exact rfl | exact ⟨rfl, rfl⟩ | exact Or.inr ⟨rfl, rfl, rfl⟩ | exact Or.inr ⟨rfl, rfl⟩ | exact Or.inr ⟨rfl, rfl, rfl, rfl⟩ | skip)

theorem capsToCeiling_keeps (s : State) (hm₀ : Part.among [.ray] K = true) (h₀ : Keeps K s₀ s) :
    Keeps K s₀ (capsToCeiling s) := by
  refine Keeps.after ?_ hm₀ h₀
  clear hm₀ h₀
  unfold capsToCeiling
  repeat' first
    | (extract_lets +onlyGivenNames t
       first
         | (refine Keeps.cut (t := t) ?_ (fun ht => ?_)
            on_goal 2 => clear_value t
            subst t)
         | skip)
    | with_reducible exact Keeps.refl _ _
    | with_reducible assumption
    | with_reducible refine Keeps.ite ?_ ?_
    | with_reducible refine Keeps.ifEvent ?_ ?_
    | split
    | (with_reducible apply Keeps.upd
       all_goals with_reducible first | exact Or.inl (by decide) | exact Or.inr rfl | exact rfl | exact ⟨rfl, rfl⟩ | exact Or.inr ⟨rfl, rfl, rfl⟩ | exact Or.inr ⟨rfl, rfl⟩ | exact Or.inr ⟨rfl, rfl, rfl, rfl⟩ | skip)

theorem takeGenlock_keeps (s : State) (hm₀ : Part.among [.tim] K = true) (h₀ : Keeps K s₀ s) :
    Keeps K s₀ (takeGenlock s) := by
  refine Keeps.after ?_ hm₀ h₀
  clear hm₀ h₀
  unfold takeGenlock
  repeat' first
    | with_reducible exact Keeps.refl _ _
    | (with_reducible apply Keeps.upd
       all_goals with_reducible first | exact Or.inl (by decide) | exact Or.inr rfl | exact rfl | exact ⟨rfl, rfl⟩ | exact Or.inr ⟨rfl, rfl, rfl⟩ | exact Or.inr ⟨rfl, rfl⟩ | exact Or.inr ⟨rfl, rfl, rfl, rfl⟩ | skip)

theorem setSupply_keeps (r : ℕ) (x : Supply) (s : State) (hm₀ : Part.among [.pwr] K = true) (h₀ : Keeps K s₀ s) :
    Keeps K s₀ (setSupply r x s) := by
  refine Keeps.after ?_ hm₀ h₀
  clear hm₀ h₀
  unfold setSupply
  repeat' first
    | (extract_lets +onlyGivenNames t
       first
         | (refine Keeps.cut (t := t) ?_ (fun ht => ?_)
            on_goal 2 => clear_value t
            subst t)
         | skip)
    | with_reducible exact Keeps.refl _ _
    | with_reducible assumption
    | with_reducible refine checked_keeps ?_ ?_
    | with_reducible refine refuse_keeps ?_
    | with_reducible refine Keeps.ite ?_ ?_
    | with_reducible refine Keeps.ifEvent ?_ ?_
    | with_reducible refine Keeps.foldl (fun t x => ?_) ?_
    | with_reducible refine Keeps.elim ?_ (fun a => ?_)
    | split
    | (with_reducible apply Keeps.upd
       all_goals with_reducible first | exact Or.inl (by decide) | exact Or.inr rfl | exact rfl | exact ⟨rfl, rfl⟩ | exact Or.inr ⟨rfl, rfl, rfl⟩ | exact Or.inr ⟨rfl, rfl⟩ | exact Or.inr ⟨rfl, rfl, rfl, rfl⟩ | skip)

theorem supplyOff_keeps (r : ℕ) (s : State) (hm₀ : Part.among [.pwr] K = true) (h₀ : Keeps K s₀ s) :
    Keeps K s₀ (supplyOff r s) := by
  refine Keeps.after ?_ hm₀ h₀
  clear hm₀ h₀
  unfold supplyOff
  repeat' first
    | (extract_lets +onlyGivenNames t
       first
         | (refine Keeps.cut (t := t) ?_ (fun ht => ?_)
            on_goal 2 => clear_value t
            subst t)
         | skip)
    | with_reducible exact Keeps.refl _ _
    | with_reducible assumption
    | with_reducible refine Keeps.ite ?_ ?_
    | (with_reducible apply setSupply_keeps; decide)
    | split
    | (with_reducible apply Keeps.upd
       all_goals with_reducible first | exact Or.inl (by decide) | exact Or.inr rfl | exact rfl | exact ⟨rfl, rfl⟩ | exact Or.inr ⟨rfl, rfl, rfl⟩ | exact Or.inr ⟨rfl, rfl⟩ | exact Or.inr ⟨rfl, rfl, rfl, rfl⟩ | skip)

theorem darkOthers_keeps (s : State) (hm₀ : Part.among [.pwr, .sent] K = true) (h₀ : Keeps K s₀ s) :
    Keeps K s₀ (darkOthers s) := by
  refine Keeps.after ?_ hm₀ h₀
  clear hm₀ h₀
  unfold darkOthers
  repeat' first
    | with_reducible exact Keeps.refl _ _
    | with_reducible refine Keeps.foldl (fun t x => ?_) ?_
    | (with_reducible apply supplyOff_keeps; decide)
    | (with_reducible apply darkRow_keeps; decide)

theorem logBench_keeps (event : ℕ) (o : Origin) (s : State) (hm₀ : Part.among [.bureau] K = true) (h₀ : Keeps K s₀ s) :
    Keeps K s₀ (logBench event o s) := by
  refine Keeps.after ?_ hm₀ h₀
  clear hm₀ h₀
  unfold logBench
  repeat' first
    | with_reducible exact Keeps.refl _ _
    | with_reducible refine Keeps.elim ?_ (fun a => ?_)
    | (with_reducible apply log_keeps; decide)

theorem enterBench_keeps (old : ℕ) (o : Origin) (s : State) (hm₀ : Part.among [.ray, .tim, .dmc, .bureau, .pwr, .spr, .sent] K = true) (h₀ : Keeps K s₀ s) :
    Keeps K s₀ (enterBench old o s) := by
  refine Keeps.after ?_ hm₀ h₀
  clear hm₀ h₀
  unfold enterBench
  repeat' first
    | (extract_lets +onlyGivenNames t
       first
         | (refine Keeps.cut (t := t) ?_ (fun ht => ?_)
            on_goal 2 => clear_value t
            subst t)
         | skip)
    | with_reducible exact Keeps.refl _ _
    | with_reducible assumption
    | with_reducible refine Keeps.ite ?_ ?_
    | with_reducible refine Keeps.ifEvent ?_ ?_
    | (with_reducible apply benchCpu_keeps; decide)
    | (with_reducible apply logBench_keeps; decide)
    | (with_reducible apply darkOthers_keeps; decide)
    | (with_reducible apply stopWitness_keeps; decide)
    | (with_reducible apply beginSelfRefresh_keeps; decide)
    | (with_reducible apply requestDomains_keeps; decide)
    | split
    | (with_reducible apply Keeps.upd
       all_goals with_reducible first | exact Or.inl (by decide) | exact Or.inr rfl | exact rfl | exact ⟨rfl, rfl⟩ | exact Or.inr ⟨rfl, rfl, rfl⟩ | exact Or.inr ⟨rfl, rfl⟩ | exact Or.inr ⟨rfl, rfl, rfl, rfl⟩ | skip)

theorem takeBenchDose_keeps (s : State) (hm₀ : Part.among [.tim, .out] K = true) (h₀ : Keeps K s₀ s) :
    Keeps K s₀ (takeBenchDose s) := by
  refine Keeps.after ?_ hm₀ h₀
  clear hm₀ h₀
  unfold takeBenchDose
  repeat' first
    | (extract_lets +onlyGivenNames t
       first
         | (refine Keeps.cut (t := t) ?_ (fun ht => ?_)
            on_goal 2 => clear_value t
            subst t)
         | skip)
    | with_reducible exact Keeps.refl _ _
    | with_reducible assumption
    | with_reducible refine Keeps.foldl (fun t x => ?_) ?_
    | (with_reducible apply addBenchDose_keeps; decide)
    | split
    | (with_reducible apply Keeps.upd
       all_goals with_reducible first | exact Or.inl (by decide) | exact Or.inr rfl | exact rfl | exact ⟨rfl, rfl⟩ | exact Or.inr ⟨rfl, rfl, rfl⟩ | exact Or.inr ⟨rfl, rfl⟩ | exact Or.inr ⟨rfl, rfl, rfl, rfl⟩ | skip)

theorem exitBench_keeps (o : Origin) (s : State) (hm₀ : Part.among [.tim, .out, .walec, .bureau] K = true) (h₀ : Keeps K s₀ s) :
    Keeps K s₀ (exitBench o s) := by
  refine Keeps.after ?_ hm₀ h₀
  clear hm₀ h₀
  unfold exitBench
  repeat' first
    | (extract_lets +onlyGivenNames t
       first
         | (refine Keeps.cut (t := t) ?_ (fun ht => ?_)
            on_goal 2 => clear_value t
            subst t)
         | skip)
    | with_reducible exact Keeps.refl _ _
    | with_reducible assumption
    | with_reducible refine Keeps.ite ?_ ?_
    | with_reducible refine Keeps.ifEvent ?_ ?_
    | (with_reducible apply takeBenchDose_keeps; decide)
    | (with_reducible apply logBench_keeps; decide)
    | split
    | (with_reducible apply Keeps.upd
       all_goals with_reducible first | exact Or.inl (by decide) | exact Or.inr rfl | exact rfl | exact ⟨rfl, rfl⟩ | exact Or.inr ⟨rfl, rfl, rfl⟩ | exact Or.inr ⟨rfl, rfl⟩ | exact Or.inr ⟨rfl, rfl, rfl, rfl⟩ | skip)

theorem changeMode_keeps (f : ℕ) (code : ℕ) (o : Origin) (s : State) (hm₀ : Part.among [.ray, .sig, .tim, .out, .tlk, .dmc, .walec, .bureau, .pwr, .spr, .sent] K = true) (h₀ : Keeps K s₀ s) :
    Keeps K s₀ (changeMode f code o s) := by
  refine Keeps.after ?_ hm₀ h₀
  clear hm₀ h₀
  unfold changeMode
  repeat' first
    | (extract_lets +onlyGivenNames t
       first
         | (refine Keeps.cut (t := t) ?_ (fun ht => ?_)
            on_goal 2 => clear_value t
            subst t)
         | skip)
    | with_reducible exact Keeps.refl _ _
    | with_reducible assumption
    | with_reducible refine Keeps.ite ?_ ?_
    | with_reducible refine Keeps.ifEvent ?_ ?_
    | (with_reducible apply takeGenlock_keeps; decide)
    | (with_reducible apply capsToCeiling_keeps; decide)
    | (with_reducible apply exitBench_keeps; decide)
    | (with_reducible apply enterBench_keeps; decide)
    | (with_reducible apply forgetReferences_keeps; decide)
    | (with_reducible apply log_keeps; decide)
    | split
    | (with_reducible apply Keeps.upd
       all_goals with_reducible first | exact Or.inl (by decide) | exact Or.inr rfl | exact rfl | exact ⟨rfl, rfl⟩ | exact Or.inr ⟨rfl, rfl, rfl⟩ | exact Or.inr ⟨rfl, rfl⟩ | exact Or.inr ⟨rfl, rfl, rfl, rfl⟩ | skip)

theorem beginRealign_keeps (f : ℕ) (withMode : Bool) (o : Origin) (s : State) (hm₀ : Part.among [.tim, .bases, .bureau, .spr] K = true) (h₀ : Keeps K s₀ s) :
    Keeps K s₀ (beginRealign f withMode o s) := by
  refine Keeps.after ?_ hm₀ h₀
  clear hm₀ h₀
  unfold beginRealign
  repeat' first
    | (extract_lets +onlyGivenNames t
       first
         | (refine Keeps.cut (t := t) ?_ (fun ht => ?_)
            on_goal 2 => clear_value t
            subst t)
         | skip)
    | with_reducible exact Keeps.refl _ _
    | with_reducible assumption
    | with_reducible refine Keeps.ite ?_ ?_
    | with_reducible refine Keeps.ifEvent ?_ ?_
    | (with_reducible apply takeGenlock_keeps; decide)
    | (with_reducible apply stepBase_keeps; decide)
    | (with_reducible apply log_keeps; decide)
    | split
    | (with_reducible apply Keeps.upd
       all_goals with_reducible first | exact Or.inl (by decide) | exact Or.inr rfl | exact rfl | exact ⟨rfl, rfl⟩ | exact Or.inr ⟨rfl, rfl, rfl⟩ | exact Or.inr ⟨rfl, rfl⟩ | exact Or.inr ⟨rfl, rfl, rfl, rfl⟩ | skip)

theorem applyChange_keeps (f : ℕ) (withMode : Bool) (s : State) (p : Pending) (hm₀ : Part.among [.cmp, .geom, .ray, .sig, .tim, .bases, .out, .tlk, .dmc, .walec, .bureau, .pwr, .spr, .sent] K = true) (h₀ : Keeps K s₀ s) :
    Keeps K s₀ (applyChange f withMode s p) := by
  refine Keeps.after ?_ hm₀ h₀
  clear hm₀ h₀
  unfold applyChange
  repeat' first
    | with_reducible exact Keeps.refl _ _
    | with_reducible assumption
    | with_reducible refine Keeps.ite ?_ ?_
    | with_reducible refine Keeps.ifEvent ?_ ?_
    | (with_reducible apply beginRealign_keeps; decide)
    | (with_reducible apply swapGeom_keeps; decide)
    | (with_reducible apply changeMode_keeps; decide)
    | (with_reducible apply releaseRegion_keeps; decide)
    | (with_reducible apply changeRegion_keeps; decide)
    | (with_reducible apply swapMaps_keeps; decide)
    | (with_reducible apply swapCurves_keeps; decide)
    | (with_reducible apply swapStress_keeps; decide)
    | (with_reducible apply swapWorkBank_keeps; decide)
    | split
    | (with_reducible apply Keeps.upd
       all_goals with_reducible first | exact Or.inl (by decide) | exact Or.inr rfl | exact rfl | exact ⟨rfl, rfl⟩ | exact Or.inr ⟨rfl, rfl, rfl⟩ | exact Or.inr ⟨rfl, rfl⟩ | exact Or.inr ⟨rfl, rfl, rfl, rfl⟩ | skip)

theorem applyChanges_keeps (f : ℕ) (s : State) (hm₀ : Part.among [.cmp, .geom, .ray, .sig, .tim, .bases, .out, .tlk, .dmc, .walec, .bureau, .pwr, .spr, .sent] K = true) (h₀ : Keeps K s₀ s) :
    Keeps K s₀ (applyChanges f s) := by
  refine Keeps.after ?_ hm₀ h₀
  clear hm₀ h₀
  unfold applyChanges
  repeat' first
    | (extract_lets +onlyGivenNames t
       first
         | (refine Keeps.cut (t := t) ?_ (fun ht => ?_)
            on_goal 2 => clear_value t
            subst t)
         | skip)
    | with_reducible exact Keeps.refl _ _
    | with_reducible assumption
    | with_reducible refine Keeps.ite ?_ ?_
    | with_reducible refine Keeps.ifEvent ?_ ?_
    | with_reducible refine Keeps.foldl (fun t x => ?_) ?_
    | (with_reducible apply applyChange_keeps; decide)
    | split
    | (with_reducible apply Keeps.upd
       all_goals with_reducible first | exact Or.inl (by decide) | exact Or.inr rfl | exact rfl | exact ⟨rfl, rfl⟩ | exact Or.inr ⟨rfl, rfl, rfl⟩ | exact Or.inr ⟨rfl, rfl⟩ | exact Or.inr ⟨rfl, rfl, rfl, rfl⟩ | skip)

theorem supplyOnAt_keeps (since : ℕ) (r : ℕ) (s : State) (hm₀ : Part.among [.pwr, .sent] K = true) (h₀ : Keeps K s₀ s) :
    Keeps K s₀ (supplyOnAt since r s) := by
  refine Keeps.after ?_ hm₀ h₀
  clear hm₀ h₀
  unfold supplyOnAt
  repeat' first
    | (extract_lets +onlyGivenNames t
       first
         | (refine Keeps.cut (t := t) ?_ (fun ht => ?_)
            on_goal 2 => clear_value t
            subst t)
         | skip)
    | with_reducible exact Keeps.refl _ _
    | with_reducible assumption
    | with_reducible refine Keeps.ite ?_ ?_
    | (with_reducible apply sendAll_keeps; decide)
    | (with_reducible apply setSupply_keeps; decide)
    | split
    | (with_reducible apply Keeps.upd
       all_goals with_reducible first | exact Or.inl (by decide) | exact Or.inr rfl | exact rfl | exact ⟨rfl, rfl⟩ | exact Or.inr ⟨rfl, rfl, rfl⟩ | exact Or.inr ⟨rfl, rfl⟩ | exact Or.inr ⟨rfl, rfl, rfl, rfl⟩ | skip)

theorem supplyOn_keeps (r : ℕ) (s : State) (hm₀ : Part.among [.pwr, .sent] K = true) (h₀ : Keeps K s₀ s) :
    Keeps K s₀ (supplyOn r s) := by
  refine Keeps.after ?_ hm₀ h₀
  clear hm₀ h₀
  unfold supplyOn
  repeat' first
    | (extract_lets +onlyGivenNames t
       first
         | (refine Keeps.cut (t := t) ?_ (fun ht => ?_)
            on_goal 2 => clear_value t
            subst t)
         | skip)
    | with_reducible exact Keeps.refl _ _
    | with_reducible assumption
    | with_reducible refine Keeps.ite ?_ ?_
    | with_reducible refine Keeps.foldl (fun t x => ?_) ?_
    | (with_reducible apply supplyOnAt_keeps; decide)
    | split

theorem beginExit_keeps (code : ℕ) (o : Origin) (s : State) (hm₀ : Part.among [.tim, .pwr, .spr, .sent] K = true) (h₀ : Keeps K s₀ s) :
    Keeps K s₀ (beginExit code o s) := by
  refine Keeps.after ?_ hm₀ h₀
  clear hm₀ h₀
  unfold beginExit
  repeat' first
    | (extract_lets +onlyGivenNames t
       first
         | (refine Keeps.cut (t := t) ?_ (fun ht => ?_)
            on_goal 2 => clear_value t
            subst t)
         | skip)
    | with_reducible exact Keeps.refl _ _
    | with_reducible assumption
    | with_reducible refine Keeps.ite ?_ ?_
    | with_reducible refine Keeps.foldl (fun t x => ?_) ?_
    | (with_reducible apply requestDomains_keeps; decide)
    | (with_reducible apply supplyOn_keeps; decide)
    | split
    | (with_reducible apply Keeps.upd
       all_goals with_reducible first | exact Or.inl (by decide) | exact Or.inr rfl | exact rfl | exact ⟨rfl, rfl⟩ | exact Or.inr ⟨rfl, rfl, rfl⟩ | exact Or.inr ⟨rfl, rfl⟩ | exact Or.inr ⟨rfl, rfl, rfl, rfl⟩ | skip)

theorem flipStamp_keeps (s : State) (hm₀ : Part.among [.tim] K = true) (h₀ : Keeps K s₀ s) :
    Keeps K s₀ (flipStamp s) := by
  refine Keeps.after ?_ hm₀ h₀
  clear hm₀ h₀
  unfold flipStamp
  repeat' first
    | (extract_lets +onlyGivenNames t
       first
         | (refine Keeps.cut (t := t) ?_ (fun ht => ?_)
            on_goal 2 => clear_value t
            subst t)
         | skip)
    | with_reducible exact Keeps.refl _ _
    | with_reducible assumption
    | (with_reducible apply Keeps.upd
       all_goals with_reducible first | exact Or.inl (by decide) | exact Or.inr rfl | exact rfl | exact ⟨rfl, rfl⟩ | exact Or.inr ⟨rfl, rfl, rfl⟩ | exact Or.inr ⟨rfl, rfl⟩ | exact Or.inr ⟨rfl, rfl, rfl, rfl⟩ | skip)

theorem beginFrame_keeps (s : State) (hm₀ : Part.among [.tim, .bases] K = true) (h₀ : Keeps K s₀ s) :
    Keeps K s₀ (beginFrame s) := by
  refine Keeps.after ?_ hm₀ h₀
  clear hm₀ h₀
  unfold beginFrame
  repeat' first
    | (extract_lets +onlyGivenNames t
       first
         | (refine Keeps.cut (t := t) ?_ (fun ht => ?_)
            on_goal 2 => clear_value t
            subst t)
         | skip)
    | with_reducible exact Keeps.refl _ _
    | with_reducible assumption
    | (with_reducible apply flipStamp_keeps; decide)
    | (with_reducible apply advanceTo_keeps; decide)
    | (with_reducible apply Keeps.upd
       all_goals with_reducible first | exact Or.inl (by decide) | exact Or.inr rfl | exact rfl | exact ⟨rfl, rfl⟩ | exact Or.inr ⟨rfl, rfl, rfl⟩ | exact Or.inr ⟨rfl, rfl⟩ | exact Or.inr ⟨rfl, rfl, rfl, rfl⟩ | skip)

theorem benchLine_keeps (sub : ℕ) (line : ℕ) (s : State) (hm₀ : Part.among [.out, .tlk, .sent] K = true) (h₀ : Keeps K s₀ s) :
    Keeps K s₀ (benchLine sub line s) := by
  refine Keeps.after ?_ hm₀ h₀
  clear hm₀ h₀
  unfold benchLine
  repeat' first
    | (extract_lets +onlyGivenNames t
       first
         | (refine Keeps.cut (t := t) ?_ (fun ht => ?_)
            on_goal 2 => clear_value t
            subst t)
         | skip)
    | with_reducible exact Keeps.refl _ _
    | with_reducible assumption
    | with_reducible refine Keeps.ite ?_ ?_
    | with_reducible refine Keeps.foldl (fun t x => ?_) ?_
    | (with_reducible apply sendLine_keeps; decide)
    | split
    | (with_reducible apply Keeps.upd
       all_goals with_reducible first | exact Or.inl (by decide) | exact Or.inr rfl | exact rfl | exact ⟨rfl, rfl⟩ | exact Or.inr ⟨rfl, rfl, rfl⟩ | exact Or.inr ⟨rfl, rfl⟩ | exact Or.inr ⟨rfl, rfl, rfl, rfl⟩ | skip)

theorem modeAccept_keeps (code : ℕ) (t : Target) (o : Origin) (s : State) (hm₀ : Part.among [.tim, .pwr, .spr, .sent] K = true) (h₀ : Keeps K s₀ s) :
    Keeps K s₀ (modeAccept code t o s).2 := by
  refine Keeps.after ?_ hm₀ h₀
  clear hm₀ h₀
  unfold modeAccept
  repeat' first
    | with_reducible exact Keeps.refl _ _
    | with_reducible refine Keeps.ite ?_ ?_
    | (with_reducible apply beginExit_keeps; decide)
    | (with_reducible apply plan_keeps; decide)
    | split
    | dsimp only

theorem modeRequest_keeps (allowed : Bool) (code : ℕ) (t : Target) (o : Origin) (s : State) (hm₀ : Part.among [.tim, .pwr, .spr, .sent] K = true) (h₀ : Keeps K s₀ s) :
    Keeps K s₀ (modeRequest allowed code t o s).2.2 := by
  refine Keeps.after ?_ hm₀ h₀
  clear hm₀ h₀
  unfold modeRequest
  repeat' first
    | (extract_lets +onlyGivenNames t
       first
         | (refine Keeps.cut (t := t) ?_ (fun ht => ?_)
            on_goal 2 => clear_value t
            subst t)
         | skip)
    | with_reducible exact Keeps.refl _ _
    | with_reducible assumption
    | with_reducible refine Keeps.ite ?_ ?_
    | (with_reducible apply modeAccept_keeps; decide)
    | split
    | dsimp only

theorem scheduleRequest_keeps (i : ℕ) (e : ScheduleEntry) (s : State) (hm₀ : Part.among [.tim, .pwr, .spr, .sent] K = true) (h₀ : Keeps K s₀ s) :
    Keeps K s₀ (scheduleRequest i e s).2.2 := by
  refine Keeps.after ?_ hm₀ h₀
  clear hm₀ h₀
  unfold scheduleRequest
  repeat' first
    | with_reducible exact Keeps.refl _ _
    | with_reducible refine Keeps.ite ?_ ?_
    | (with_reducible apply modeRequest_keeps; decide)
    | split
    | dsimp only

theorem rescheduled_keeps (i : ℕ) (e : ScheduleEntry) (s : State) (hm₀ : Part.among [.tim] K = true) (h₀ : Keeps K s₀ s) :
    Keeps K s₀ (rescheduled i e s) := by
  refine Keeps.after ?_ hm₀ h₀
  clear hm₀ h₀
  unfold rescheduled
  repeat' first
    | (extract_lets +onlyGivenNames t
       first
         | (refine Keeps.cut (t := t) ?_ (fun ht => ?_)
            on_goal 2 => clear_value t
            subst t)
         | skip)
    | with_reducible exact Keeps.refl _ _
    | with_reducible assumption
    | with_reducible refine Keeps.ite ?_ ?_
    | split
    | (with_reducible apply Keeps.upd
       all_goals with_reducible first | exact Or.inl (by decide) | exact Or.inr rfl | exact rfl | exact ⟨rfl, rfl⟩ | exact Or.inr ⟨rfl, rfl, rfl⟩ | exact Or.inr ⟨rfl, rfl⟩ | exact Or.inr ⟨rfl, rfl, rfl, rfl⟩ | skip)

theorem missed_keeps (i : ℕ) (e : ScheduleEntry) (s : State) (hm₀ : Part.among [.tim, .bureau] K = true) (h₀ : Keeps K s₀ s) :
    Keeps K s₀ (missed i e s) := by
  refine Keeps.after ?_ hm₀ h₀
  clear hm₀ h₀
  unfold missed
  repeat' first
    | with_reducible exact Keeps.refl _ _
    | (with_reducible apply rescheduled_keeps; decide)
    | (with_reducible apply log_keeps; decide)

theorem scheduleAct_keeps (i : ℕ) (e : ScheduleEntry) (s : State) (hm₀ : Part.among [.tim, .bureau, .pwr, .spr, .sent] K = true) (h₀ : Keeps K s₀ s) :
    Keeps K s₀ (scheduleAct i e s) := by
  refine Keeps.after ?_ hm₀ h₀
  clear hm₀ h₀
  unfold scheduleAct
  repeat' first
    | (extract_lets +onlyGivenNames t
       first
         | (refine Keeps.cut (t := t) ?_ (fun ht => ?_)
            on_goal 2 => clear_value t
            subst t)
         | skip)
    | with_reducible exact Keeps.refl _ _
    | with_reducible assumption
    | with_reducible refine Keeps.ite ?_ ?_
    | with_reducible refine Keeps.ifEvent ?_ ?_
    | (with_reducible apply missed_keeps; decide)
    | (with_reducible apply scheduleRequest_keeps; decide)
    | (with_reducible apply rescheduled_keeps; decide)
    | split
    | (with_reducible apply Keeps.upd
       all_goals with_reducible first | exact Or.inl (by decide) | exact Or.inr rfl | exact rfl | exact ⟨rfl, rfl⟩ | exact Or.inr ⟨rfl, rfl, rfl⟩ | exact Or.inr ⟨rfl, rfl⟩ | exact Or.inr ⟨rfl, rfl, rfl, rfl⟩ | skip)

theorem retrySchedule_keeps (s : State) (hm₀ : Part.among [.tim, .bureau, .pwr, .spr, .sent] K = true) (h₀ : Keeps K s₀ s) :
    Keeps K s₀ (retrySchedule s) := by
  refine Keeps.after ?_ hm₀ h₀
  clear hm₀ h₀
  unfold retrySchedule
  repeat' first
    | with_reducible exact Keeps.refl _ _
    | with_reducible assumption
    | with_reducible refine Keeps.ite ?_ ?_
    | with_reducible refine Keeps.ifEvent ?_ ?_
    | with_reducible refine Keeps.foldl (fun t x => ?_) ?_
    | (with_reducible apply scheduleAct_keeps; decide)
    | split
    | (with_reducible apply Keeps.upd
       all_goals with_reducible first | exact Or.inl (by decide) | exact Or.inr rfl | exact rfl | exact ⟨rfl, rfl⟩ | exact Or.inr ⟨rfl, rfl, rfl⟩ | exact Or.inr ⟨rfl, rfl⟩ | exact Or.inr ⟨rfl, rfl, rfl, rfl⟩ | skip)

theorem comingState_keeps (s : State) (hm₀ : Part.among [.cmp, .geom, .ray, .sig, .tim, .bases, .out, .tlk, .dec, .blt, .dmc, .dram, .ports, .queues, .walec, .bureau, .pwr, .spr, .pins, .sent] K = true) (h₀ : Keeps K s₀ s) :
    Keeps K s₀ (comingState s) := by
  refine Keeps.after ?_ hm₀ h₀
  clear hm₀ h₀
  unfold comingState
  repeat' first
    | (extract_lets +onlyGivenNames t
       first
         | (refine Keeps.cut (t := t) ?_ (fun ht => ?_)
            on_goal 2 => clear_value t
            subst t)
         | skip)
    | with_reducible exact Keeps.refl _ _
    | with_reducible assumption
    | with_reducible refine Keeps.ite ?_ ?_
    | with_reducible refine Keeps.ifEvent ?_ ?_
    | (with_reducible apply beginFrame_keeps; decide)
    | (with_reducible apply applyChanges_keeps; decide)
    | (with_reducible apply commitTick_keeps; decide)
    | (with_reducible apply beginSubstitutions_keeps; decide)
    | split
    | (with_reducible apply Keeps.upd
       all_goals with_reducible first | exact Or.inl (by decide) | exact Or.inr rfl | exact rfl | exact ⟨rfl, rfl⟩ | exact Or.inr ⟨rfl, rfl, rfl⟩ | exact Or.inr ⟨rfl, rfl⟩ | exact Or.inr ⟨rfl, rfl, rfl, rfl⟩ | skip)

theorem sendMode_keeps (n : ℕ) (s : State) (hm₀ : Part.among [.tlk, .sent] K = true) (h₀ : Keeps K s₀ s) :
    Keeps K s₀ (sendMode n s) := by
  refine Keeps.after ?_ hm₀ h₀
  clear hm₀ h₀
  unfold sendMode
  repeat' first
    | (extract_lets +onlyGivenNames t
       first
         | (refine Keeps.cut (t := t) ?_ (fun ht => ?_)
            on_goal 2 => clear_value t
            subst t)
         | skip)
    | with_reducible exact Keeps.refl _ _
    | with_reducible assumption
    | with_reducible refine Keeps.ite ?_ ?_
    | (with_reducible apply send_keeps; decide)
    | (with_reducible apply setLink_keeps; decide)
    | split
    | (with_reducible apply Keeps.upd
       all_goals with_reducible first | exact Or.inl (by decide) | exact Or.inr rfl | exact rfl | exact ⟨rfl, rfl⟩ | exact Or.inr ⟨rfl, rfl, rfl⟩ | exact Or.inr ⟨rfl, rfl⟩ | exact Or.inr ⟨rfl, rfl, rfl, rfl⟩ | skip)

theorem controlWindow_keeps (n : ℕ) (s : State) (hm₀ : Part.among [.tlk, .sent] K = true) (h₀ : Keeps K s₀ s) :
    Keeps K s₀ (controlWindow n s) := by
  refine Keeps.after ?_ hm₀ h₀
  clear hm₀ h₀
  unfold controlWindow
  repeat' first
    | (extract_lets +onlyGivenNames t
       first
         | (refine Keeps.cut (t := t) ?_ (fun ht => ?_)
            on_goal 2 => clear_value t
            subst t)
         | skip)
    | with_reducible exact Keeps.refl _ _
    | with_reducible assumption
    | with_reducible refine Keeps.ite ?_ ?_
    | with_reducible refine Keeps.foldl (fun t x => ?_) ?_
    | (with_reducible apply sendAll_keeps; decide)
    | (with_reducible apply sendMode_keeps; decide)
    | (with_reducible apply setLink_keeps; decide)
    | split
    | (with_reducible apply Keeps.upd
       all_goals with_reducible first | exact Or.inl (by decide) | exact Or.inr rfl | exact rfl | exact ⟨rfl, rfl⟩ | exact Or.inr ⟨rfl, rfl, rfl⟩ | exact Or.inr ⟨rfl, rfl⟩ | exact Or.inr ⟨rfl, rfl, rfl, rfl⟩ | skip)

theorem countBench_keeps (s : State) (hm₀ : Part.among [.tim] K = true) (h₀ : Keeps K s₀ s) :
    Keeps K s₀ (countBench s) := by
  refine Keeps.after ?_ hm₀ h₀
  clear hm₀ h₀
  unfold countBench
  repeat' first
    | (extract_lets +onlyGivenNames t
       first
         | (refine Keeps.cut (t := t) ?_ (fun ht => ?_)
            on_goal 2 => clear_value t
            subst t)
         | skip)
    | with_reducible exact Keeps.refl _ _
    | with_reducible assumption
    | with_reducible refine Keeps.ite ?_ ?_
    | with_reducible refine Keeps.foldl (fun t x => ?_) ?_
    | split
    | (with_reducible apply Keeps.upd
       all_goals with_reducible first | exact Or.inl (by decide) | exact Or.inr rfl | exact rfl | exact ⟨rfl, rfl⟩ | exact Or.inr ⟨rfl, rfl, rfl⟩ | exact Or.inr ⟨rfl, rfl⟩ | exact Or.inr ⟨rfl, rfl, rfl, rfl⟩ | skip)

theorem decideHolds_keeps (s : State) (hm₀ : Part.among [.ray] K = true) (h₀ : Keeps K s₀ s) :
    Keeps K s₀ (decideHolds s) := by
  refine Keeps.after ?_ hm₀ h₀
  clear hm₀ h₀
  unfold decideHolds
  repeat' first
    | with_reducible exact Keeps.refl _ _
    | with_reducible refine Keeps.foldl (fun t x => ?_) ?_
    | (with_reducible apply setRow_keeps; decide)
    | (with_reducible apply Keeps.upd
       all_goals with_reducible first | exact Or.inl (by decide) | exact Or.inr rfl | exact rfl | exact ⟨rfl, rfl⟩ | exact Or.inr ⟨rfl, rfl, rfl⟩ | exact Or.inr ⟨rfl, rfl⟩ | exact Or.inr ⟨rfl, rfl, rfl, rfl⟩ | skip)

theorem fetchFirstBands_keeps (s : State) (hm₀ : Part.among [.cmp, .geom, .ray, .sig, .tim, .bases, .out, .tlk, .dec, .blt, .dmc, .dram, .ports, .queues, .walec, .bureau, .pwr, .spr, .pins, .sent] K = true) (h₀ : Keeps K s₀ s) :
    Keeps K s₀ (fetchFirstBands s) := by
  refine Keeps.after ?_ hm₀ h₀
  clear hm₀ h₀
  unfold fetchFirstBands
  repeat' first
    | (extract_lets +onlyGivenNames t
       first
         | (refine Keeps.cut (t := t) ?_ (fun ht => ?_)
            on_goal 2 => clear_value t
            subst t)
         | skip)
    | with_reducible exact Keeps.refl _ _
    | with_reducible assumption
    | with_reducible refine Keeps.ite ?_ ?_
    | with_reducible refine Keeps.ifEvent ?_ ?_
    | with_reducible refine Keeps.foldl (fun t x => ?_) ?_
    | (with_reducible apply comingState_keeps; decide)
    | (with_reducible apply startBands_keeps; decide)
    | split
    | (with_reducible apply Keeps.upd
       all_goals with_reducible first | exact Or.inl (by decide) | exact Or.inr rfl | exact rfl | exact ⟨rfl, rfl⟩ | exact Or.inr ⟨rfl, rfl, rfl⟩ | exact Or.inr ⟨rfl, rfl⟩ | exact Or.inr ⟨rfl, rfl, rfl, rfl⟩ | skip)

theorem storeErrors_keeps (s : State) (hm₀ : Part.among [.cmp, .geom, .out, .bureau] K = true) (h₀ : Keeps K s₀ s) :
    Keeps K s₀ (storeErrors s) := by
  refine Keeps.after ?_ hm₀ h₀
  clear hm₀ h₀
  unfold storeErrors
  repeat' first
    | (extract_lets +onlyGivenNames t
       first
         | (refine Keeps.cut (t := t) ?_ (fun ht => ?_)
            on_goal 2 => clear_value t
            subst t)
         | skip)
    | with_reducible exact Keeps.refl _ _
    | with_reducible assumption
    | with_reducible refine Keeps.ite ?_ ?_
    | with_reducible refine Keeps.ifEvent ?_ ?_
    | (with_reducible apply log_keeps; decide)
    | split
    | (with_reducible apply Keeps.upd
       all_goals with_reducible first | exact Or.inl (by decide) | exact Or.inr rfl | exact rfl | exact ⟨rfl, rfl⟩ | exact Or.inr ⟨rfl, rfl, rfl⟩ | exact Or.inr ⟨rfl, rfl⟩ | exact Or.inr ⟨rfl, rfl, rfl, rfl⟩ | skip)

theorem transitionStep_keeps (s : State) (hm₀ : Part.among [.tim] K = true) (h₀ : Keeps K s₀ s) :
    Keeps K s₀ (transitionStep s) := by
  refine Keeps.after ?_ hm₀ h₀
  clear hm₀ h₀
  unfold transitionStep
  repeat' first
    | (extract_lets +onlyGivenNames t
       first
         | (refine Keeps.cut (t := t) ?_ (fun ht => ?_)
            on_goal 2 => clear_value t
            subst t)
         | skip)
    | with_reducible exact Keeps.refl _ _
    | with_reducible assumption
    | with_reducible refine Keeps.ite ?_ ?_
    | split
    | (with_reducible apply Keeps.upd
       all_goals with_reducible first | exact Or.inl (by decide) | exact Or.inr rfl | exact rfl | exact ⟨rfl, rfl⟩ | exact Or.inr ⟨rfl, rfl, rfl⟩ | exact Or.inr ⟨rfl, rfl⟩ | exact Or.inr ⟨rfl, rfl, rfl, rfl⟩ | skip)

theorem rowsTick_keeps (s : State) (hm₀ : Part.among [.ray, .spr] K = true) (h₀ : Keeps K s₀ s) :
    Keeps K s₀ (rowsTick s) := by
  refine Keeps.after ?_ hm₀ h₀
  clear hm₀ h₀
  unfold rowsTick
  repeat' first
    | (extract_lets +onlyGivenNames t
       first
         | (refine Keeps.cut (t := t) ?_ (fun ht => ?_)
            on_goal 2 => clear_value t
            subst t)
         | skip)
    | with_reducible exact Keeps.refl _ _
    | with_reducible assumption
    | with_reducible refine Keeps.ite ?_ ?_
    | split
    | (with_reducible apply Keeps.upd
       all_goals with_reducible first | exact Or.inl (by decide) | exact Or.inr rfl | exact rfl | exact ⟨rfl, rfl⟩ | exact Or.inr ⟨rfl, rfl, rfl⟩ | exact Or.inr ⟨rfl, rfl⟩ | exact Or.inr ⟨rfl, rfl, rfl, rfl⟩ | skip)

theorem planTick_keeps (realigned : Bool) (s : State) (hm₀ : Part.among [.tim] K = true) (h₀ : Keeps K s₀ s) :
    Keeps K s₀ (planTick realigned s) := by
  refine Keeps.after ?_ hm₀ h₀
  clear hm₀ h₀
  unfold planTick
  repeat' first
    | (extract_lets +onlyGivenNames t
       first
         | (refine Keeps.cut (t := t) ?_ (fun ht => ?_)
            on_goal 2 => clear_value t
            subst t)
         | skip)
    | with_reducible exact Keeps.refl _ _
    | with_reducible assumption
    | with_reducible refine Keeps.ite ?_ ?_
    | with_reducible refine Keeps.ifEvent ?_ ?_
    | split
    | (with_reducible apply Keeps.upd
       all_goals with_reducible first | exact Or.inl (by decide) | exact Or.inr rfl | exact rfl | exact ⟨rfl, rfl⟩ | exact Or.inr ⟨rfl, rfl, rfl⟩ | exact Or.inr ⟨rfl, rfl⟩ | exact Or.inr ⟨rfl, rfl, rfl, rfl⟩ | skip)

theorem frameStep_keeps (s : State) (hm₀ : Part.among [.cmp, .geom, .ray, .sig, .tim, .bases, .out, .tlk, .dec, .blt, .dmc, .dram, .ports, .queues, .walec, .bureau, .pwr, .spr, .pins, .sent] K = true) (h₀ : Keeps K s₀ s) :
    Keeps K s₀ (frameStep s) := by
  refine Keeps.after ?_ hm₀ h₀
  clear hm₀ h₀
  unfold frameStep
  repeat' first
    | (extract_lets +onlyGivenNames t
       first
         | (refine Keeps.cut (t := t) ?_ (fun ht => ?_)
            on_goal 2 => clear_value t
            subst t)
         | skip)
    | with_reducible exact Keeps.refl _ _
    | with_reducible assumption
    | with_reducible refine Keeps.ite ?_ ?_
    | with_reducible refine Keeps.ifEvent ?_ ?_
    | (with_reducible apply beginFrame_keeps; decide)
    | (with_reducible apply rowsTick_keeps; decide)
    | (with_reducible apply planTick_keeps; decide)
    | (with_reducible apply transitionStep_keeps; decide)
    | (with_reducible apply applyChanges_keeps; decide)
    | (with_reducible apply storeErrors_keeps; decide)
    | (with_reducible apply countBench_keeps; decide)
    | (with_reducible apply commitTick_keeps; decide)
    | (with_reducible apply beginSubstitutions_keeps; decide)
    | (with_reducible apply noteSubstitutions_keeps; decide)
    | (with_reducible apply clearStreams_keeps; decide)
    | (with_reducible apply writeCaps_keeps; decide)
    | (with_reducible apply outputTick_keeps; decide)
    | (with_reducible apply freshHalves_keeps; decide)
    | (with_reducible apply controlTicks_keeps; decide)
    | split
    | (with_reducible apply Keeps.upd
       all_goals with_reducible first | exact Or.inl (by decide) | exact Or.inr rfl | exact rfl | exact ⟨rfl, rfl⟩ | exact Or.inr ⟨rfl, rfl, rfl⟩ | exact Or.inr ⟨rfl, rfl⟩ | exact Or.inr ⟨rfl, rfl, rfl, rfl⟩ | skip)

theorem sendHeaders_keeps (f sub : Nat) (s : State) (hm₀ : Part.among [.ray, .tlk, .sent] K = true) (h₀ : Keeps K s₀ s) :
    Keeps K s₀ (sendHeaders f sub s) := by
  refine Keeps.after ?_ hm₀ h₀
  clear hm₀ h₀
  unfold sendHeaders
  refine Keeps.foldl (fun t n => Keeps.ite ?_ (Keeps.refl _ _)) (decideHolds_keeps _ (by decide) (Keeps.refl _ _))
  extract_lets cause l u
  have hu : Keeps [.ray, .tlk, .sent] t u := send_keeps _ _ (by decide) (setLink_keeps _ _ _ (by decide) (Keeps.refl _ _))
  clear_value cause u
  rcases cause with _ | k
  · exact hu
  · exact sendAll_keeps _ _ (by decide) hu

theorem headerLine_keeps (sub : ℕ) (s : State) (hm₀ : Part.among [.ray, .tlk, .sent] K = true) (h₀ : Keeps K s₀ s) :
    Keeps K s₀ (headerLine sub s) := by
  refine Keeps.after ?_ hm₀ h₀
  clear hm₀ h₀
  unfold headerLine
  repeat' first
    | (extract_lets +onlyGivenNames t
       first
         | (refine Keeps.cut (t := t) ?_ (fun ht => ?_)
            on_goal 2 => clear_value t
            subst t)
         | skip)
    | with_reducible exact Keeps.refl _ _
    | with_reducible assumption
    | with_reducible refine Keeps.ite ?_ ?_
    | (with_reducible apply sendHeaders_keeps; decide)
    | split

theorem latchInstant_keeps (s : State) (hm₀ : Part.among [.cmp, .geom, .ray, .sig, .tim, .bases, .out, .tlk, .dec, .blt, .dmc, .dram, .ports, .queues, .walec, .bureau, .pwr, .spr, .pins, .sent] K = true) (h₀ : Keeps K s₀ s) :
    Keeps K s₀ (latchInstant s) := by
  refine Keeps.after ?_ hm₀ h₀
  clear hm₀ h₀
  unfold latchInstant
  repeat' first
    | (extract_lets +onlyGivenNames t
       first
         | (refine Keeps.cut (t := t) ?_ (fun ht => ?_)
            on_goal 2 => clear_value t
            subst t)
         | skip)
    | with_reducible exact Keeps.refl _ _
    | with_reducible assumption
    | with_reducible refine Keeps.ite ?_ ?_
    | with_reducible refine Keeps.ifEvent ?_ ?_
    | (with_reducible apply fetchFirstBands_keeps; decide)
    | (with_reducible apply retrySchedule_keeps; decide)
    | (with_reducible apply commitLatch_keeps; decide)
    | (with_reducible apply outputLatch_keeps; decide)
    | split
    | (with_reducible apply Keeps.upd
       all_goals with_reducible first | exact Or.inl (by decide) | exact Or.inr rfl | exact rfl | exact ⟨rfl, rfl⟩ | exact Or.inr ⟨rfl, rfl, rfl⟩ | exact Or.inr ⟨rfl, rfl⟩ | exact Or.inr ⟨rfl, rfl, rfl, rfl⟩ | skip)

theorem outputsAt_keeps (sub : ℕ) (line : ℕ) (s : State) (hm₀ : Part.among [.tim] K = true) (h₀ : Keeps K s₀ s) :
    Keeps K s₀ (outputsAt sub line s) := by
  refine Keeps.after ?_ hm₀ h₀
  clear hm₀ h₀
  unfold outputsAt
  repeat' first
    | (extract_lets +onlyGivenNames t
       first
         | (refine Keeps.cut (t := t) ?_ (fun ht => ?_)
            on_goal 2 => clear_value t
            subst t)
         | skip)
    | with_reducible exact Keeps.refl _ _
    | with_reducible assumption
    | with_reducible refine Keeps.ite ?_ ?_
    | split
    | (with_reducible apply Keeps.upd
       all_goals with_reducible first | exact Or.inl (by decide) | exact Or.inr rfl | exact rfl | exact ⟨rfl, rfl⟩ | exact Or.inr ⟨rfl, rfl, rfl⟩ | exact Or.inr ⟨rfl, rfl⟩ | exact Or.inr ⟨rfl, rfl, rfl, rfl⟩ | skip)

theorem rowSubEnd_keeps (sub : ℕ) (r : ℕ) (s : State) (hm₀ : Part.among [.ray] K = true) (h₀ : Keeps K s₀ s) :
    Keeps K s₀ (rowSubEnd sub r s) := by
  refine Keeps.after ?_ hm₀ h₀
  clear hm₀ h₀
  unfold rowSubEnd
  repeat' first
    | (extract_lets +onlyGivenNames t
       first
         | (refine Keeps.cut (t := t) ?_ (fun ht => ?_)
            on_goal 2 => clear_value t
            subst t)
         | skip)
    | with_reducible exact Keeps.refl _ _
    | with_reducible assumption
    | with_reducible refine Keeps.ite ?_ ?_
    | (with_reducible apply setRow_keeps; decide)
    | (with_reducible apply startBands_keeps; decide)
    | split
    | (with_reducible apply Keeps.upd
       all_goals with_reducible first | exact Or.inl (by decide) | exact Or.inr rfl | exact rfl | exact ⟨rfl, rfl⟩ | exact Or.inr ⟨rfl, rfl, rfl⟩ | exact Or.inr ⟨rfl, rfl⟩ | exact Or.inr ⟨rfl, rfl, rfl, rfl⟩ | skip)

theorem sendEnd_keeps (sub : ℕ) (n : ℕ) (s : State) (hm₀ : Part.among [.sent] K = true) (h₀ : Keeps K s₀ s) :
    Keeps K s₀ (sendEnd sub n s) := by
  refine Keeps.after ?_ hm₀ h₀
  clear hm₀ h₀
  unfold sendEnd
  repeat' first
    | (extract_lets +onlyGivenNames t
       first
         | (refine Keeps.cut (t := t) ?_ (fun ht => ?_)
            on_goal 2 => clear_value t
            subst t)
         | skip)
    | with_reducible exact Keeps.refl _ _
    | with_reducible assumption
    | with_reducible refine Keeps.ite ?_ ?_
    | (with_reducible apply send_keeps; decide)
    | split

theorem lineWork_keeps (obs : LineObs) (sub : ℕ) (line : ℕ) (s : State) (hm₀ : Part.among [.cmp, .geom, .ray, .sig, .tim, .bases, .out, .tlk, .dec, .blt, .dmc, .dram, .ports, .queues, .walec, .bureau, .pwr, .spr, .pins, .sent] K = true) (h₀ : Keeps K s₀ s) :
    Keeps K s₀ (lineWork obs sub line s) := by
  refine Keeps.after ?_ hm₀ h₀
  clear hm₀ h₀
  unfold lineWork
  repeat' first
    | (extract_lets +onlyGivenNames t
       first
         | (refine Keeps.cut (t := t) ?_ (fun ht => ?_)
            on_goal 2 => clear_value t
            subst t)
         | skip)
    | with_reducible exact Keeps.refl _ _
    | with_reducible assumption
    | with_reducible refine Keeps.ite ?_ ?_
    | with_reducible refine Keeps.ifEvent ?_ ?_
    | with_reducible refine Keeps.foldl (fun t x => ?_) ?_
    | (with_reducible apply latchInstant_keeps; decide)
    | (with_reducible apply headerLine_keeps; decide)
    | (with_reducible apply controlWindow_keeps; decide)
    | (with_reducible apply sendEnd_keeps; decide)
    | (with_reducible apply rowSubEnd_keeps; decide)
    | (with_reducible apply benchLine_keeps; decide)
    | (with_reducible apply activeLine_keeps; decide)
    | (with_reducible apply evaluateRegions_keeps; decide)
    | (with_reducible apply retrainSteps_keeps; decide)
    | (with_reducible apply trackingSlot_keeps; decide)
    | split
    | (with_reducible apply Keeps.upd
       all_goals with_reducible first | exact Or.inl (by decide) | exact Or.inr rfl | exact rfl | exact ⟨rfl, rfl⟩ | exact Or.inr ⟨rfl, rfl, rfl⟩ | exact Or.inr ⟨rfl, rfl⟩ | exact Or.inr ⟨rfl, rfl, rfl, rfl⟩ | skip)

theorem linkSubStart_keeps (n : ℕ) (s : State) (hm₀ : Part.among [.tlk] K = true) (h₀ : Keeps K s₀ s) :
    Keeps K s₀ (linkSubStart n s) := by
  refine Keeps.after ?_ hm₀ h₀
  clear hm₀ h₀
  unfold linkSubStart
  repeat' first
    | (extract_lets +onlyGivenNames t
       first
         | (refine Keeps.cut (t := t) ?_ (fun ht => ?_)
            on_goal 2 => clear_value t
            subst t)
         | skip)
    | with_reducible exact Keeps.refl _ _
    | with_reducible assumption
    | with_reducible refine Keeps.ite ?_ ?_
    | (with_reducible apply setLink_keeps; decide)
    | split
    | (with_reducible apply Keeps.upd
       all_goals with_reducible first | exact Or.inl (by decide) | exact Or.inr rfl | exact rfl | exact ⟨rfl, rfl⟩ | exact Or.inr ⟨rfl, rfl, rfl⟩ | exact Or.inr ⟨rfl, rfl⟩ | exact Or.inr ⟨rfl, rfl, rfl, rfl⟩ | skip)

theorem rowSubStart_keeps (sub : ℕ) (r : ℕ) (s : State) (hm₀ : Part.among [.ray, .sig, .bureau, .pwr, .spr] K = true) (h₀ : Keeps K s₀ s) :
    Keeps K s₀ (rowSubStart sub r s) := by
  refine Keeps.after ?_ hm₀ h₀
  clear hm₀ h₀
  unfold rowSubStart
  repeat' first
    | (extract_lets +onlyGivenNames t
       first
         | (refine Keeps.cut (t := t) ?_ (fun ht => ?_)
            on_goal 2 => clear_value t
            subst t)
         | skip)
    | with_reducible exact Keeps.refl _ _
    | with_reducible assumption
    | with_reducible refine Keeps.ite ?_ ?_
    | with_reducible refine Keeps.ifEvent ?_ ?_
    | (with_reducible apply bindSpare_keeps; decide)
    | (with_reducible apply markRegions_keeps; decide)
    | (with_reducible apply setRow_keeps; decide)
    | split
    | (with_reducible apply Keeps.upd
       all_goals with_reducible first | exact Or.inl (by decide) | exact Or.inr rfl | exact rfl | exact ⟨rfl, rfl⟩ | exact Or.inr ⟨rfl, rfl, rfl⟩ | exact Or.inr ⟨rfl, rfl⟩ | exact Or.inr ⟨rfl, rfl, rfl, rfl⟩ | skip)

theorem subframeStart_keeps (sub : ℕ) (s : State) (hm₀ : Part.among [.ray, .sig, .out, .tlk, .bureau, .pwr, .thm, .spr] K = true) (h₀ : Keeps K s₀ s) :
    Keeps K s₀ (subframeStart sub s) := by
  refine Keeps.after ?_ hm₀ h₀
  clear hm₀ h₀
  unfold subframeStart
  repeat' first
    | (extract_lets +onlyGivenNames t
       first
         | (refine Keeps.cut (t := t) ?_ (fun ht => ?_)
            on_goal 2 => clear_value t
            subst t)
         | skip)
    | with_reducible exact Keeps.refl _ _
    | with_reducible assumption
    | with_reducible refine Keeps.ite ?_ ?_
    | with_reducible refine Keeps.ifEvent ?_ ?_
    | with_reducible refine Keeps.foldl (fun t x => ?_) ?_
    | (with_reducible apply linkSubStart_keeps; decide)
    | (with_reducible apply rowSubStart_keeps; decide)
    | (with_reducible apply setRow_keeps; decide)
    | split
    | (with_reducible apply Keeps.upd
       all_goals with_reducible first | exact Or.inl (by decide) | exact Or.inr rfl | exact rfl | exact ⟨rfl, rfl⟩ | exact Or.inr ⟨rfl, rfl, rfl⟩ | exact Or.inr ⟨rfl, rfl⟩ | exact Or.inr ⟨rfl, rfl, rfl, rfl⟩ | skip)

theorem lineStep_keeps (sub : ℕ) (line : ℕ) (obs : LineObs) (s : State) (hm₀ : Part.among [.cmp, .geom, .ray, .sig, .tim, .bases, .out, .tlk, .dec, .blt, .dmc, .dram, .ports, .queues, .walec, .bureau, .pwr, .thm, .spr, .pins, .sent] K = true) (h₀ : Keeps K s₀ s) :
    Keeps K s₀ (lineStep sub line obs s) := by
  refine Keeps.after ?_ hm₀ h₀
  clear hm₀ h₀
  unfold lineStep
  repeat' first
    | (extract_lets +onlyGivenNames t
       first
         | (refine Keeps.cut (t := t) ?_ (fun ht => ?_)
            on_goal 2 => clear_value t
            subst t)
         | skip)
    | with_reducible exact Keeps.refl _ _
    | with_reducible assumption
    | with_reducible refine Keeps.ite ?_ ?_
    | with_reducible refine Keeps.ifEvent ?_ ?_
    | (with_reducible apply lineWork_keeps; decide)
    | (with_reducible apply subframeStart_keeps; decide)
    | (with_reducible apply outputsAt_keeps; decide)
    | (with_reducible apply renderWitness_keeps; decide)
    | (with_reducible apply advanceTo_keeps; decide)
    | split
    | (with_reducible apply Keeps.upd
       all_goals with_reducible first | exact Or.inl (by decide) | exact Or.inr rfl | exact rfl | exact ⟨rfl, rfl⟩ | exact Or.inr ⟨rfl, rfl, rfl⟩ | exact Or.inr ⟨rfl, rfl⟩ | exact Or.inr ⟨rfl, rfl, rfl, rfl⟩ | skip)

theorem stayInBench_keeps (s : State) (hm₀ : Part.among [.tim, .dmc, .bureau, .pwr, .spr, .sent] K = true) (h₀ : Keeps K s₀ s) :
    Keeps K s₀ (stayInBench s) := by
  refine Keeps.after ?_ hm₀ h₀
  clear hm₀ h₀
  unfold stayInBench
  repeat' first
    | (extract_lets +onlyGivenNames t
       first
         | (refine Keeps.cut (t := t) ?_ (fun ht => ?_)
            on_goal 2 => clear_value t
            subst t)
         | skip)
    | with_reducible exact Keeps.refl _ _
    | with_reducible assumption
    | with_reducible refine Keeps.ite ?_ ?_
    | with_reducible refine Keeps.ifEvent ?_ ?_
    | (with_reducible apply benchCpu_keeps; decide)
    | (with_reducible apply darkOthers_keeps; decide)
    | (with_reducible apply beginSelfRefresh_keeps; decide)
    | (with_reducible apply requestDomains_keeps; decide)
    | split
    | (with_reducible apply Keeps.upd
       all_goals with_reducible first | exact Or.inl (by decide) | exact Or.inr rfl | exact rfl | exact ⟨rfl, rfl⟩ | exact Or.inr ⟨rfl, rfl, rfl⟩ | exact Or.inr ⟨rfl, rfl⟩ | exact Or.inr ⟨rfl, rfl, rfl, rfl⟩ | skip)

/-! ### Commands -/

theorem execBenchExitReady_keeps (s : State) : Out.Keeps [.tim, .ports, .sent] s (execBenchExitReady s) := by
  unfold execBenchExitReady
  repeat' first
    | (extract_lets +onlyGivenNames t
       first
         | (refine Out.Keeps.cut (t := t) ?_ (fun ht => ?_)
            on_goal 2 => clear_value t
            subst t)
         | (refine Keeps.cut (t := t) ?_ (fun ht => ?_)
            on_goal 2 => clear_value t
            subst t)
         | skip)
    | with_reducible exact Keeps.refl _ _
    | with_reducible assumption
    | with_reducible refine Out.Keeps.done (by decide) ?_
    | with_reducible refine Keeps.ite ?_ ?_
    | with_reducible refine Keeps.ifEvent ?_ ?_
    | with_reducible refine Keeps.foldl (fun t x => ?_) ?_
    | with_reducible refine Keeps.elim ?_ (fun a => ?_)
    | (with_reducible apply plan_keeps; decide)
    | split
    | (with_reducible apply Keeps.upd
       all_goals with_reducible first | exact Or.inl (by decide) | exact Or.inr rfl | exact rfl | exact ⟨rfl, rfl⟩ | exact Or.inr ⟨rfl, rfl, rfl⟩ | exact Or.inr ⟨rfl, rfl⟩ | exact Or.inr ⟨rfl, rfl, rfl, rfl⟩ | skip)

theorem execBenchExitTimeout_keeps (s : State) : Out.Keeps [.tim, .bases, .dmc, .ports, .walec, .bureau, .pwr, .spr, .pins, .sent] s (execBenchExitTimeout s) := by
  unfold execBenchExitTimeout
  repeat' first
    | (extract_lets +onlyGivenNames t
       first
         | (refine Out.Keeps.cut (t := t) ?_ (fun ht => ?_)
            on_goal 2 => clear_value t
            subst t)
         | (refine Keeps.cut (t := t) ?_ (fun ht => ?_)
            on_goal 2 => clear_value t
            subst t)
         | skip)
    | with_reducible exact Keeps.refl _ _
    | with_reducible assumption
    | with_reducible refine Out.Keeps.done (by decide) ?_
    | with_reducible refine Keeps.ite ?_ ?_
    | with_reducible refine Keeps.ifEvent ?_ ?_
    | with_reducible refine Keeps.foldl (fun t x => ?_) ?_
    | with_reducible refine Keeps.elim ?_ (fun a => ?_)
    | (with_reducible apply stayInBench_keeps; decide)
    | (with_reducible apply logBench_keeps; decide)
    | (with_reducible apply assertFault_keeps; decide)
    | (with_reducible apply advanceTo0_keeps; decide)
    | split
    | (with_reducible apply Keeps.upd
       all_goals with_reducible first | exact Or.inl (by decide) | exact Or.inr rfl | exact rfl | exact ⟨rfl, rfl⟩ | exact Or.inr ⟨rfl, rfl, rfl⟩ | exact Or.inr ⟨rfl, rfl⟩ | exact Or.inr ⟨rfl, rfl, rfl, rfl⟩ | skip)

theorem execBenchScheduleAction_keeps (entry : ℕ) (s : State) : Out.Keeps [.tim, .bases, .ports, .bureau, .pwr, .spr, .sent] s (execBenchScheduleAction entry s) := by
  unfold execBenchScheduleAction
  repeat' first
    | (extract_lets +onlyGivenNames t
       first
         | (refine Out.Keeps.cut (t := t) ?_ (fun ht => ?_)
            on_goal 2 => clear_value t
            subst t)
         | (refine Keeps.cut (t := t) ?_ (fun ht => ?_)
            on_goal 2 => clear_value t
            subst t)
         | skip)
    | with_reducible exact Keeps.refl _ _
    | with_reducible assumption
    | with_reducible refine Out.Keeps.done (by decide) ?_
    | with_reducible refine Keeps.ite ?_ ?_
    | with_reducible refine Keeps.ifEvent ?_ ?_
    | with_reducible refine Keeps.foldl (fun t x => ?_) ?_
    | with_reducible refine Keeps.elim ?_ (fun a => ?_)
    | (with_reducible apply scheduleAct_keeps; decide)
    | (with_reducible apply advanceToNs_keeps; decide)
    | split
    | (with_reducible apply Keeps.upd
       all_goals with_reducible first | exact Or.inl (by decide) | exact Or.inr rfl | exact rfl | exact ⟨rfl, rfl⟩ | exact Or.inr ⟨rfl, rfl, rfl⟩ | exact Or.inr ⟨rfl, rfl⟩ | exact Or.inr ⟨rfl, rfl, rfl, rfl⟩ | skip)

theorem execFrameTick_keeps (s : State) : Out.Keeps [.cmp, .geom, .ray, .sig, .tim, .bases, .out, .tlk, .dec, .blt, .dmc, .dram, .ports, .queues, .walec, .bureau, .pwr, .spr, .pins, .sent] s (execFrameTick s) := by
  unfold execFrameTick
  repeat' first
    | (extract_lets +onlyGivenNames t
       first
         | (refine Out.Keeps.cut (t := t) ?_ (fun ht => ?_)
            on_goal 2 => clear_value t
            subst t)
         | (refine Keeps.cut (t := t) ?_ (fun ht => ?_)
            on_goal 2 => clear_value t
            subst t)
         | skip)
    | with_reducible exact Keeps.refl _ _
    | with_reducible assumption
    | with_reducible refine Out.Keeps.done (by decide) ?_
    | with_reducible refine Keeps.ite ?_ ?_
    | with_reducible refine Keeps.ifEvent ?_ ?_
    | with_reducible refine Keeps.foldl (fun t x => ?_) ?_
    | with_reducible refine Keeps.elim ?_ (fun a => ?_)
    | (with_reducible apply frameStep_keeps; decide)
    | split
    | (with_reducible apply Keeps.upd
       all_goals with_reducible first | exact Or.inl (by decide) | exact Or.inr rfl | exact rfl | exact ⟨rfl, rfl⟩ | exact Or.inr ⟨rfl, rfl, rfl⟩ | exact Or.inr ⟨rfl, rfl⟩ | exact Or.inr ⟨rfl, rfl, rfl, rfl⟩ | skip)

theorem execLineStart_keeps (sub : ℕ) (line : ℕ) (obs : LineObs) (s : State) : Out.Keeps [.cmp, .geom, .ray, .sig, .tim, .bases, .out, .tlk, .dec, .blt, .dmc, .dram, .ports, .queues, .walec, .bureau, .pwr, .thm, .spr, .pins, .sent] s (execLineStart sub line obs s) := by
  unfold execLineStart
  repeat' first
    | (extract_lets +onlyGivenNames t
       first
         | (refine Out.Keeps.cut (t := t) ?_ (fun ht => ?_)
            on_goal 2 => clear_value t
            subst t)
         | (refine Keeps.cut (t := t) ?_ (fun ht => ?_)
            on_goal 2 => clear_value t
            subst t)
         | skip)
    | with_reducible exact Keeps.refl _ _
    | with_reducible assumption
    | with_reducible refine Out.Keeps.done (by decide) ?_
    | with_reducible refine Keeps.ite ?_ ?_
    | with_reducible refine Keeps.ifEvent ?_ ?_
    | with_reducible refine Keeps.foldl (fun t x => ?_) ?_
    | with_reducible refine Keeps.elim ?_ (fun a => ?_)
    | (with_reducible apply lineStep_keeps; decide)
    | split
    | (with_reducible apply Keeps.upd
       all_goals with_reducible first | exact Or.inl (by decide) | exact Or.inr rfl | exact rfl | exact ⟨rfl, rfl⟩ | exact Or.inr ⟨rfl, rfl, rfl⟩ | exact Or.inr ⟨rfl, rfl⟩ | exact Or.inr ⟨rfl, rfl, rfl, rfl⟩ | skip)

theorem execScheduleMissed_keeps (entry : ℕ) (s : State) : Out.Keeps [.tim, .bases, .ports, .bureau, .sent] s (execScheduleMissed entry s) := by
  unfold execScheduleMissed
  repeat' first
    | (extract_lets +onlyGivenNames t
       first
         | (refine Out.Keeps.cut (t := t) ?_ (fun ht => ?_)
            on_goal 2 => clear_value t
            subst t)
         | (refine Keeps.cut (t := t) ?_ (fun ht => ?_)
            on_goal 2 => clear_value t
            subst t)
         | skip)
    | with_reducible exact Keeps.refl _ _
    | with_reducible assumption
    | with_reducible refine Out.Keeps.done (by decide) ?_
    | with_reducible refine Keeps.ite ?_ ?_
    | with_reducible refine Keeps.ifEvent ?_ ?_
    | with_reducible refine Keeps.foldl (fun t x => ?_) ?_
    | with_reducible refine Keeps.elim ?_ (fun a => ?_)
    | (with_reducible apply missed_keeps; decide)
    | (with_reducible apply advanceTo0_keeps; decide)
    | split
    | (with_reducible apply Keeps.upd
       all_goals with_reducible first | exact Or.inl (by decide) | exact Or.inr rfl | exact rfl | exact ⟨rfl, rfl⟩ | exact Or.inr ⟨rfl, rfl, rfl⟩ | exact Or.inr ⟨rfl, rfl⟩ | exact Or.inr ⟨rfl, rfl, rfl, rfl⟩ | skip)

theorem execStartLatch_keeps (s : State) : Out.Keeps [.cmp, .geom, .ray, .sig, .tim, .bases, .out, .tlk, .dec, .blt, .dmc, .dram, .ports, .queues, .walec, .bureau, .pwr, .spr, .pins, .sent] s (execStartLatch s) := by
  unfold execStartLatch
  repeat' first
    | (extract_lets +onlyGivenNames t
       first
         | (refine Out.Keeps.cut (t := t) ?_ (fun ht => ?_)
            on_goal 2 => clear_value t
            subst t)
         | (refine Keeps.cut (t := t) ?_ (fun ht => ?_)
            on_goal 2 => clear_value t
            subst t)
         | skip)
    | with_reducible exact Keeps.refl _ _
    | with_reducible assumption
    | with_reducible refine Out.Keeps.done (by decide) ?_
    | with_reducible refine Keeps.ite ?_ ?_
    | with_reducible refine Keeps.ifEvent ?_ ?_
    | with_reducible refine Keeps.foldl (fun t x => ?_) ?_
    | with_reducible refine Keeps.elim ?_ (fun a => ?_)
    | (with_reducible apply latchInstant_keeps; decide)
    | (with_reducible apply sendHeaders_keeps; decide)
    | (with_reducible apply advanceTo_keeps; decide)
    | split
    | (with_reducible apply Keeps.upd
       all_goals with_reducible first | exact Or.inl (by decide) | exact Or.inr rfl | exact rfl | exact ⟨rfl, rfl⟩ | exact Or.inr ⟨rfl, rfl, rfl⟩ | exact Or.inr ⟨rfl, rfl⟩ | exact Or.inr ⟨rfl, rfl, rfl, rfl⟩ | skip)

end Sys2Proof.Machine
end

