-- ==== Sys2Proof/Laws/KeepsResets.lean ====
section
/-! SUPPORT. What the operations of Machine/Resets.lean may change: one lemma each, which says that the
parts it does not name, the form of the DRAM, the Bureau's chain and the queue are kept. -/

open Host

set_option linter.unusedTactic false
set_option linter.unreachableTactic false
set_option linter.tactic.unusedName false

namespace Sys2Proof.Machine

variable {K : List Part} {s₀ : State}

theorem askDomains_keeps (s : State) (hm₀ : Part.among [.pwr, .sent] K = true) (h₀ : Keeps K s₀ s) :
    Keeps K s₀ (askDomains s) := by
  refine Keeps.after ?_ hm₀ h₀
  clear hm₀ h₀
  unfold askDomains
  repeat' first
    | (extract_lets +onlyGivenNames t
       first
         | (refine Keeps.cut (t := t) ?_ (fun ht => ?_)
            on_goal 2 => clear_value t
            subst t)
         | skip)
    | with_reducible exact Keeps.refl _ _
    | with_reducible assumption
    | with_reducible refine Keeps.ite ?_ ?_
    | with_reducible refine Keeps.foldl (fun t x => ?_) ?_
    | (with_reducible apply requestDomains_keeps; decide)
    | (with_reducible apply supplyOff_keeps; decide)
    | (with_reducible apply supplyOn_keeps; decide)
    | split

theorem stopRaster_keeps (s : State) (hm₀ : Part.among [.cmp, .tim, .tlk, .spr] K = true) (h₀ : Keeps K s₀ s) :
    Keeps K s₀ (stopRaster s) := by
  refine Keeps.after ?_ hm₀ h₀
  clear hm₀ h₀
  unfold stopRaster
  repeat' first
    | (extract_lets +onlyGivenNames t
       first
         | (refine Keeps.cut (t := t) ?_ (fun ht => ?_)
            on_goal 2 => clear_value t
            subst t)
         | skip)
    | with_reducible exact Keeps.refl _ _
    | with_reducible assumption
    | split
    | (with_reducible apply Keeps.upd
       all_goals with_reducible first | exact Or.inl (by decide) | exact Or.inr rfl | exact rfl | exact ⟨rfl, rfl⟩ | exact Or.inr ⟨rfl, rfl, rfl⟩ | exact Or.inr ⟨rfl, rfl⟩ | exact Or.inr ⟨rfl, rfl, rfl, rfl⟩ | skip)

theorem countRestart_keeps (s : State) (hm₀ : Part.among [.dmc] K = true) (h₀ : Keeps K s₀ s) :
    Keeps K s₀ (countRestart s) := by
  refine Keeps.after ?_ hm₀ h₀
  clear hm₀ h₀
  unfold countRestart
  repeat' first
    | with_reducible exact Keeps.refl _ _
    | with_reducible assumption
    | with_reducible refine Keeps.ite ?_ ?_
    | with_reducible refine Keeps.ifEvent ?_ ?_
    | split
    | (with_reducible apply Keeps.upd
       all_goals with_reducible first | exact Or.inl (by decide) | exact Or.inr rfl | exact rfl | exact ⟨rfl, rfl⟩ | exact Or.inr ⟨rfl, rfl, rfl⟩ | exact Or.inr ⟨rfl, rfl⟩ | exact Or.inr ⟨rfl, rfl, rfl, rfl⟩ | skip)

theorem beginStop_keeps (r : Port) (s : State) (hm₀ : Part.among [.clk] K = true) (h₀ : Keeps K s₀ s) :
    Keeps K s₀ (beginStop r s) := by
  refine Keeps.after ?_ hm₀ h₀
  clear hm₀ h₀
  unfold beginStop
  repeat' first
    | with_reducible exact Keeps.refl _ _
    | with_reducible refine Keeps.ite ?_ ?_
    | split
    | (with_reducible apply Keeps.upd
       all_goals with_reducible first | exact Or.inl (by decide) | exact Or.inr rfl | exact rfl | exact ⟨rfl, rfl⟩ | exact Or.inr ⟨rfl, rfl, rfl⟩ | exact Or.inr ⟨rfl, rfl⟩ | exact Or.inr ⟨rfl, rfl, rfl, rfl⟩ | skip)

theorem coldBase_keeps (cause : ResetCause) (s : State) (hm₀ : Part.among [.cmp, .geom, .ray, .sig, .tim, .bases, .eth, .out, .tlk, .dec, .enc, .blt, .dfl, .dmc, .dram, .ports, .drawers, .queues, .owners, .health, .walec, .bureau, .clk, .pwr, .thm, .spr, .bot, .pins, .sent, .drawn] K = true) (h₀ : Keeps K s₀ s) :
    Keeps K s₀ (coldBase cause s) := by
  refine Keeps.after (t := s) ⟨fun p hp => ?_, fun _ => rfl, fun _ => rfl, rfl⟩ hm₀ h₀
  cases p <;> first | exact absurd (by decide) hp | rfl

theorem sampleStraps_keeps (s : State) (hm₀ : Part.among [.ray, .tim, .tlk, .clk] K = true) (h₀ : Keeps K s₀ s) :
    Keeps K s₀ (sampleStraps s) := by
  refine Keeps.after ?_ hm₀ h₀
  clear hm₀ h₀
  unfold sampleStraps
  repeat' first
    | (extract_lets +onlyGivenNames t
       first
         | (refine Keeps.cut (t := t) ?_ (fun ht => ?_)
            on_goal 2 => clear_value t
            subst t)
         | skip)
    | with_reducible exact Keeps.refl _ _
    | with_reducible assumption
    | with_reducible refine Keeps.ite ?_ ?_
    | with_reducible refine Keeps.ifEvent ?_ ?_
    | split
    | (with_reducible apply Keeps.upd
       all_goals with_reducible first | exact Or.inl (by decide) | exact Or.inr rfl | exact rfl | exact ⟨rfl, rfl⟩ | exact Or.inr ⟨rfl, rfl, rfl⟩ | exact Or.inr ⟨rfl, rfl⟩ | exact Or.inr ⟨rfl, rfl, rfl, rfl⟩ | skip)

theorem coldState_keeps (cause : ResetCause) (s : State) (hm₀ : Part.among [.cmp, .geom, .ray, .sig, .tim, .bases, .eth, .out, .tlk, .dec, .enc, .blt, .dfl, .dmc, .dram, .ports, .drawers, .queues, .owners, .health, .walec, .bureau, .clk, .pwr, .thm, .spr, .bot, .pins, .sent, .drawn] K = true) (h₀ : Keeps K s₀ s) :
    Keeps K s₀ (coldState cause s) := by
  refine Keeps.after ?_ hm₀ h₀
  clear hm₀ h₀
  unfold coldState
  repeat' first
    | with_reducible exact Keeps.refl _ _
    | with_reducible assumption
    | with_reducible refine Keeps.ite ?_ ?_
    | with_reducible refine Keeps.ifEvent ?_ ?_
    | (with_reducible apply coldBase_keeps; decide)
    | (with_reducible apply sampleStraps_keeps; decide)
    | split
    | (with_reducible apply Keeps.upd
       all_goals with_reducible first | exact Or.inl (by decide) | exact Or.inr rfl | exact rfl | exact ⟨rfl, rfl⟩ | exact Or.inr ⟨rfl, rfl, rfl⟩ | exact Or.inr ⟨rfl, rfl⟩ | exact Or.inr ⟨rfl, rfl, rfl, rfl⟩ | skip)

theorem dropDomains_keeps (s : State) (hm₀ : Part.among [.tim, .bases, .eth, .tlk, .pwr, .sent] K = true) (h₀ : Keeps K s₀ s) :
    Keeps K s₀ (dropDomains s) := by
  refine Keeps.after ?_ hm₀ h₀
  clear hm₀ h₀
  unfold dropDomains
  repeat' first
    | (extract_lets +onlyGivenNames t
       first
         | (refine Keeps.cut (t := t) ?_ (fun ht => ?_)
            on_goal 2 => clear_value t
            subst t)
         | skip)
    | with_reducible exact Keeps.refl _ _
    | with_reducible assumption
    | with_reducible refine Keeps.foldl (fun t x => ?_) ?_
    | (with_reducible apply groupOff_keeps; decide)
    | (with_reducible apply ethDown_keeps; decide)
    | (with_reducible apply Keeps.upd
       all_goals with_reducible first | exact Or.inl (by decide) | exact Or.inr rfl | exact rfl | exact ⟨rfl, rfl⟩ | exact Or.inr ⟨rfl, rfl, rfl⟩ | exact Or.inr ⟨rfl, rfl⟩ | exact Or.inr ⟨rfl, rfl, rfl, rfl⟩ | skip)

theorem openLog_keeps (s : State) (hm₀ : Part.among [.bureau] K = true) (h₀ : Keeps K s₀ s) : Keeps K s₀ (openLog s) := by
  have hb (b : BureauState) (hb : b.chained = true) : Keeps K s₀ { s with bureau := b } := by
    refine Keeps.after (t := s) ⟨fun p hp => ?_, id, fun _ => hb, rfl⟩ hm₀ h₀
    cases p <;> first | exact absurd (by decide) hp | rfl | exact ⟨rfl, rfl⟩ | exact ⟨rfl, rfl, rfl⟩ | exact ⟨rfl, rfl, rfl, rfl⟩
  unfold openLog
  split <;> exact log_keeps _ _ _ _ _ hm₀ (hb _ (by simp [BureauState.chained]))

theorem endPowerOn_keeps (p : Port) (s : State) (hm₀ : Part.among [.ports, .bureau, .clk, .bot, .pins, .sent] K = true) (h₀ : Keeps K s₀ s) :
    Keeps K s₀ (endPowerOn p s) := by
  refine Keeps.after ?_ hm₀ h₀
  clear hm₀ h₀
  unfold endPowerOn
  repeat' first
    | (extract_lets +onlyGivenNames t
       first
         | (refine Keeps.cut (t := t) ?_ (fun ht => ?_)
            on_goal 2 => clear_value t
            subst t)
         | skip)
    | with_reducible exact Keeps.refl _ _
    | with_reducible assumption
    | (with_reducible apply romBoot_keeps; decide)
    | (with_reducible apply openLog_keeps; decide)
    | (with_reducible apply Keeps.upd
       all_goals with_reducible first | exact Or.inl (by decide) | exact Or.inr rfl | exact rfl | exact ⟨rfl, rfl⟩ | exact Or.inr ⟨rfl, rfl, rfl⟩ | exact Or.inr ⟨rfl, rfl⟩ | exact Or.inr ⟨rfl, rfl, rfl, rfl⟩ | skip)

theorem noteWarm_keeps (cause : ResetCause) (s : State) (hm₀ : Part.among [.pwr] K = true) (h₀ : Keeps K s₀ s) :
    Keeps K s₀ (noteWarm cause s) := by
  refine Keeps.after ?_ hm₀ h₀
  clear hm₀ h₀
  unfold noteWarm
  repeat' first
    | (extract_lets +onlyGivenNames t
       first
         | (refine Keeps.cut (t := t) ?_ (fun ht => ?_)
            on_goal 2 => clear_value t
            subst t)
         | skip)
    | with_reducible exact Keeps.refl _ _
    | with_reducible assumption
    | (with_reducible apply Keeps.upd
       all_goals with_reducible first | exact Or.inl (by decide) | exact Or.inr rfl | exact rfl | exact ⟨rfl, rfl⟩ | exact Or.inr ⟨rfl, rfl, rfl⟩ | exact Or.inr ⟨rfl, rfl⟩ | exact Or.inr ⟨rfl, rfl, rfl, rfl⟩ | skip)

theorem stopEngines_keeps (s : State) (hm₀ : Part.among [.dec, .enc, .blt, .dfl, .queues] K = true) (h₀ : Keeps K s₀ s) :
    Keeps K s₀ (stopEngines s) := by
  refine Keeps.after ?_ hm₀ h₀
  clear hm₀ h₀
  unfold stopEngines
  repeat' first
    | (extract_lets +onlyGivenNames t
       first
         | (refine Keeps.cut (t := t) ?_ (fun ht => ?_)
            on_goal 2 => clear_value t
            subst t)
         | skip)
    | with_reducible exact Keeps.refl _ _
    | with_reducible assumption
    | with_reducible refine Keeps.ite ?_ ?_
    | with_reducible refine Keeps.ifEvent ?_ ?_
    | with_reducible refine Keeps.foldl (fun t x => ?_) ?_
    | (with_reducible apply abandonPicture_keeps; decide)
    | split
    | (with_reducible apply Keeps.upd
       all_goals with_reducible first | exact Or.inl (by decide) | exact Or.inr rfl | exact rfl | exact ⟨rfl, rfl⟩ | exact Or.inr ⟨rfl, rfl, rfl⟩ | exact Or.inr ⟨rfl, rfl⟩ | exact Or.inr ⟨rfl, rfl, rfl, rfl⟩ | skip)

theorem resetSets_keeps (s : State) (hm₀ : Part.among [.geom, .out] K = true) (h₀ : Keeps K s₀ s) :
    Keeps K s₀ (resetSets s) := by
  refine Keeps.after ?_ hm₀ h₀
  clear hm₀ h₀
  unfold resetSets
  repeat' first
    | with_reducible exact Keeps.refl _ _
    | (with_reducible apply Keeps.upd
       all_goals with_reducible first | exact Or.inl (by decide) | exact Or.inr rfl | exact rfl | exact ⟨rfl, rfl⟩ | exact Or.inr ⟨rfl, rfl, rfl⟩ | exact Or.inr ⟨rfl, rfl⟩ | exact Or.inr ⟨rfl, rfl, rfl, rfl⟩ | skip)

theorem resetRay_keeps (s : State) (hm₀ : Part.among [.ray] K = true) (h₀ : Keeps K s₀ s) :
    Keeps K s₀ (resetRay s) := by
  refine Keeps.after ?_ hm₀ h₀
  clear hm₀ h₀
  unfold resetRay
  repeat' first
    | (extract_lets +onlyGivenNames t
       first
         | (refine Keeps.cut (t := t) ?_ (fun ht => ?_)
            on_goal 2 => clear_value t
            subst t)
         | skip)
    | with_reducible exact Keeps.refl _ _
    | with_reducible assumption
    | with_reducible refine Keeps.ite ?_ ?_
    | with_reducible refine Keeps.ifEvent ?_ ?_
    | split
    | (with_reducible apply Keeps.upd
       all_goals with_reducible first | exact Or.inl (by decide) | exact Or.inr rfl | exact rfl | exact ⟨rfl, rfl⟩ | exact Or.inr ⟨rfl, rfl, rfl⟩ | exact Or.inr ⟨rfl, rfl⟩ | exact Or.inr ⟨rfl, rfl, rfl, rfl⟩ | skip)

theorem releaseWarm_keeps (s : State) (hm₀ : Part.among [.ports, .health, .bureau, .pwr, .bot, .pins, .sent] K = true) (h₀ : Keeps K s₀ s) :
    Keeps K s₀ (releaseWarm s) := by
  refine Keeps.after ?_ hm₀ h₀
  clear hm₀ h₀
  unfold releaseWarm
  repeat' first
    | with_reducible exact Keeps.refl _ _
    | (with_reducible apply askDomains_keeps; decide)
    | (with_reducible apply romBoot_keeps; decide)
    | (with_reducible apply setWalec_keeps; decide)
    | (with_reducible apply Keeps.upd
       all_goals with_reducible first | exact Or.inl (by decide) | exact Or.inr rfl | exact rfl | exact ⟨rfl, rfl⟩ | exact Or.inr ⟨rfl, rfl, rfl⟩ | exact Or.inr ⟨rfl, rfl⟩ | exact Or.inr ⟨rfl, rfl, rfl, rfl⟩ | skip)

theorem warmReset_keeps (cause : ResetCause) (s : State) (hm₀ : Part.among [.cmp, .geom, .ray, .tim, .bases, .eth, .out, .tlk, .dec, .enc, .blt, .dfl, .dmc, .dram, .ports, .drawers, .queues, .health, .walec, .bureau, .pwr, .spr, .bot, .pins, .sent, .drawn] K = true) (h₀ : Keeps K s₀ s) :
    Keeps K s₀ (warmReset cause s) := by
  refine Keeps.after ?_ hm₀ h₀
  clear hm₀ h₀
  unfold warmReset
  repeat' first
    | (extract_lets +onlyGivenNames t
       first
         | (refine Keeps.cut (t := t) ?_ (fun ht => ?_)
            on_goal 2 => clear_value t
            subst t)
         | skip)
    | with_reducible exact Keeps.refl _ _
    | with_reducible assumption
    | with_reducible refine Keeps.ite ?_ ?_
    | with_reducible refine Keeps.ifEvent ?_ ?_
    | (with_reducible apply countRestart_keeps; decide)
    | (with_reducible apply releaseWarm_keeps; decide)
    | (with_reducible apply noteWarm_keeps; decide)
    | (with_reducible apply dropDomains_keeps; decide)
    | (with_reducible apply stopEngines_keeps; decide)
    | (with_reducible apply resetSets_keeps; decide)
    | (with_reducible apply stopRaster_keeps; decide)
    | (with_reducible apply resetRay_keeps; decide)
    | (with_reducible apply haltWalec_keeps; decide)
    | (with_reducible apply holdSites_keeps; decide)
    | split
    | (with_reducible apply Keeps.upd
       all_goals with_reducible first | exact Or.inl (by decide) | exact Or.inr rfl | exact rfl | exact ⟨rfl, rfl⟩ | exact Or.inr ⟨rfl, rfl, rfl⟩ | exact Or.inr ⟨rfl, rfl⟩ | exact Or.inr ⟨rfl, rfl, rfl, rfl⟩ | skip)

theorem recoverClocks_keeps (r : Port) (s : State) (hm₀ : Part.among [.cmp, .geom, .ray, .tim, .bases, .eth, .out, .tlk, .dec, .enc, .blt, .dfl, .dmc, .dram, .ports, .drawers, .queues, .health, .walec, .bureau, .clk, .pwr, .spr, .bot, .pins, .sent, .drawn] K = true) (h₀ : Keeps K s₀ s) :
    Keeps K s₀ (recoverClocks r s) := by
  refine Keeps.after ?_ hm₀ h₀
  clear hm₀ h₀
  unfold recoverClocks
  repeat' first
    | (extract_lets +onlyGivenNames t
       first
         | (refine Keeps.cut (t := t) ?_ (fun ht => ?_)
            on_goal 2 => clear_value t
            subst t)
         | skip)
    | with_reducible exact Keeps.refl _ _
    | with_reducible assumption
    | with_reducible refine Keeps.ite ?_ ?_
    | with_reducible refine Keeps.ifEvent ?_ ?_
    | (with_reducible apply warmReset_keeps; decide)
    | (with_reducible apply log_keeps; decide)
    | (with_reducible apply drew_keeps; decide)
    | split
    | (with_reducible apply Keeps.upd
       all_goals with_reducible first | exact Or.inl (by decide) | exact Or.inr rfl | exact rfl | exact ⟨rfl, rfl⟩ | exact Or.inr ⟨rfl, rfl, rfl⟩ | exact Or.inr ⟨rfl, rfl⟩ | exact Or.inr ⟨rfl, rfl, rfl, rfl⟩ | skip)

theorem lateSelection_keeps (s : State) (hm₀ : Part.among [.ports, .bureau, .clk, .bot, .pins, .sent] K = true) (h₀ : Keeps K s₀ s) :
    Keeps K s₀ (lateSelection s) := by
  refine Keeps.after ?_ hm₀ h₀
  clear hm₀ h₀
  unfold lateSelection
  repeat' first
    | with_reducible exact Keeps.refl _ _
    | with_reducible refine Keeps.ite ?_ ?_
    | (with_reducible apply endPowerOn_keeps; decide)
    | split

theorem restartClocks_keeps (gapNs : ℕ) (s : State) (hm₀ : Part.among [.tim, .bases, .eth, .tlk, .bureau, .clk, .spr, .sent] K = true) (h₀ : Keeps K s₀ s) :
    Keeps K s₀ (restartClocks gapNs s) := by
  refine Keeps.after ?_ hm₀ h₀
  clear hm₀ h₀
  unfold restartClocks
  repeat' first
    | (extract_lets +onlyGivenNames t
       first
         | (refine Keeps.cut (t := t) ?_ (fun ht => ?_)
            on_goal 2 => clear_value t
            subst t)
         | skip)
    | with_reducible exact Keeps.refl _ _
    | with_reducible assumption
    | with_reducible refine Keeps.ite ?_ ?_
    | (with_reducible apply ethDown_keeps; decide)
    | (with_reducible apply retrainAll_keeps; decide)
    | (with_reducible apply log_keeps; decide)
    | split
    | (with_reducible apply Keeps.upd
       all_goals with_reducible first | exact Or.inl (by decide) | exact Or.inr rfl | exact rfl | exact ⟨rfl, rfl⟩ | exact Or.inr ⟨rfl, rfl, rfl⟩ | exact Or.inr ⟨rfl, rfl⟩ | exact Or.inr ⟨rfl, rfl, rfl, rfl⟩ | skip)

theorem setRef_keeps (r : Port) (x : RefInput) (s : State) (hm₀ : Part.among [.clk] K = true) (h₀ : Keeps K s₀ s) :
    Keeps K s₀ (setRef r x s) := by
  refine Keeps.after ?_ hm₀ h₀
  clear hm₀ h₀
  unfold setRef
  repeat' first
    | with_reducible exact Keeps.refl _ _
    | split
    | (with_reducible apply Keeps.upd
       all_goals with_reducible first | exact Or.inl (by decide) | exact Or.inr rfl | exact rfl | exact ⟨rfl, rfl⟩ | exact Or.inr ⟨rfl, rfl, rfl⟩ | exact Or.inr ⟨rfl, rfl⟩ | exact Or.inr ⟨rfl, rfl, rfl, rfl⟩ | skip)

theorem switchReference_keeps (s : State) (hm₀ : Part.among [.clk] K = true) (h₀ : Keeps K s₀ s) :
    Keeps K s₀ (switchReference s) := by
  refine Keeps.after ?_ hm₀ h₀
  clear hm₀ h₀
  unfold switchReference
  repeat' first
    | with_reducible exact Keeps.refl _ _
    | with_reducible refine Keeps.ite ?_ ?_
    | (with_reducible apply beginStop_keeps; decide)
    | split

theorem tripRef_keeps (r : Port) (x : RefInput) (s : State) (hm₀ : Part.among [.bureau, .clk] K = true) (h₀ : Keeps K s₀ s) :
    Keeps K s₀ (tripRef r x s) := by
  refine Keeps.after ?_ hm₀ h₀
  clear hm₀ h₀
  unfold tripRef
  repeat' first
    | (extract_lets +onlyGivenNames t
       first
         | (refine Keeps.cut (t := t) ?_ (fun ht => ?_)
            on_goal 2 => clear_value t
            subst t)
         | skip)
    | with_reducible exact Keeps.refl _ _
    | with_reducible assumption
    | with_reducible refine Keeps.ite ?_ ?_
    | (with_reducible apply setRef_keeps; decide)
    | (with_reducible apply log_keeps; decide)
    | (with_reducible apply beginStop_keeps; decide)
    | split
    | (with_reducible apply Keeps.upd
       all_goals with_reducible first | exact Or.inl (by decide) | exact Or.inr rfl | exact rfl | exact ⟨rfl, rfl⟩ | exact Or.inr ⟨rfl, rfl, rfl⟩ | exact Or.inr ⟨rfl, rfl⟩ | exact Or.inr ⟨rfl, rfl, rfl, rfl⟩ | skip)

/-! ### Commands -/

theorem execHoldExpiry_keeps (s : State) : Out.Keeps [.dmc, .dram, .ports, .bureau, .clk, .pins, .sent] s (execHoldExpiry s) := by
  unfold execHoldExpiry
  repeat' first
    | (extract_lets +onlyGivenNames t
       first
         | (refine Out.Keeps.cut (t := t) ?_ (fun ht => ?_)
            on_goal 2 => clear_value t
            subst t)
         | (refine Keeps.cut (t := t) ?_ (fun ht => ?_)
            on_goal 2 => clear_value t
            subst t)
         | skip)
    | with_reducible exact Keeps.refl _ _
    | with_reducible assumption
    | with_reducible refine Out.Keeps.done (by decide) ?_
    | with_reducible refine Keeps.ite ?_ ?_
    | with_reducible refine Keeps.ifEvent ?_ ?_
    | with_reducible refine Keeps.foldl (fun t x => ?_) ?_
    | with_reducible refine Keeps.elim ?_ (fun a => ?_)
    | (with_reducible apply holdSites_keeps; decide)
    | (with_reducible apply assertFault_keeps; decide)
    | split
    | (with_reducible apply Keeps.upd
       all_goals with_reducible first | exact Or.inl (by decide) | exact Or.inr rfl | exact rfl | exact ⟨rfl, rfl⟩ | exact Or.inr ⟨rfl, rfl, rfl⟩ | exact Or.inr ⟨rfl, rfl⟩ | exact Or.inr ⟨rfl, rfl, rfl, rfl⟩ | skip)

theorem execMissingPulse_keeps (r : Port) (s : State) : Out.Keeps [.ports, .drawers, .queues, .walec, .bureau, .clk, .sent] s (execMissingPulse r s) := by
  unfold execMissingPulse
  repeat' first
    | (extract_lets +onlyGivenNames t
       first
         | (refine Out.Keeps.cut (t := t) ?_ (fun ht => ?_)
            on_goal 2 => clear_value t
            subst t)
         | (refine Keeps.cut (t := t) ?_ (fun ht => ?_)
            on_goal 2 => clear_value t
            subst t)
         | skip)
    | with_reducible exact Keeps.refl _ _
    | with_reducible assumption
    | with_reducible refine Out.Keeps.done (by decide) ?_
    | with_reducible refine Keeps.ite ?_ ?_
    | with_reducible refine Keeps.ifEvent ?_ ?_
    | with_reducible refine Keeps.foldl (fun t x => ?_) ?_
    | with_reducible refine Keeps.elim ?_ (fun a => ?_)
    | (with_reducible apply tripRef_keeps; decide)
    | (with_reducible apply linkLoss_keeps; decide)
    | split
    | (with_reducible apply Keeps.upd
       all_goals with_reducible first | exact Or.inl (by decide) | exact Or.inr rfl | exact rfl | exact ⟨rfl, rfl⟩ | exact Or.inr ⟨rfl, rfl, rfl⟩ | exact Or.inr ⟨rfl, rfl⟩ | exact Or.inr ⟨rfl, rfl, rfl, rfl⟩ | skip)

theorem execPllLockLoss_keeps (pll : ℕ) (s : State) : Out.Keeps [.ports, .clk, .sent] s (execPllLockLoss pll s) := by
  unfold execPllLockLoss
  repeat' first
    | (extract_lets +onlyGivenNames t
       first
         | (refine Out.Keeps.cut (t := t) ?_ (fun ht => ?_)
            on_goal 2 => clear_value t
            subst t)
         | (refine Keeps.cut (t := t) ?_ (fun ht => ?_)
            on_goal 2 => clear_value t
            subst t)
         | skip)
    | with_reducible exact Keeps.refl _ _
    | with_reducible assumption
    | with_reducible refine Out.Keeps.done (by decide) ?_
    | with_reducible refine Keeps.ite ?_ ?_
    | with_reducible refine Keeps.ifEvent ?_ ?_
    | with_reducible refine Keeps.foldl (fun t x => ?_) ?_
    | with_reducible refine Keeps.elim ?_ (fun a => ?_)

    | split
    | (with_reducible apply Keeps.upd
       all_goals with_reducible first | exact Or.inl (by decide) | exact Or.inr rfl | exact rfl | exact ⟨rfl, rfl⟩ | exact Or.inr ⟨rfl, rfl, rfl⟩ | exact Or.inr ⟨rfl, rfl⟩ | exact Or.inr ⟨rfl, rfl, rfl, rfl⟩ | skip)

theorem execPorstRelease_keeps (tileCfg : ℕ) (refPri : Port) (s : State) : Out.Keeps [.ray, .tim, .tlk, .ports, .bureau, .clk, .pwr, .bot, .pins, .sent] s (execPorstRelease tileCfg refPri s) := by
  unfold execPorstRelease
  repeat' first
    | (extract_lets +onlyGivenNames t
       first
         | (refine Out.Keeps.cut (t := t) ?_ (fun ht => ?_)
            on_goal 2 => clear_value t
            subst t)
         | (refine Keeps.cut (t := t) ?_ (fun ht => ?_)
            on_goal 2 => clear_value t
            subst t)
         | skip)
    | with_reducible exact Keeps.refl _ _
    | with_reducible assumption
    | with_reducible refine Out.Keeps.done (by decide) ?_
    | with_reducible refine Keeps.ite ?_ ?_
    | with_reducible refine Keeps.ifEvent ?_ ?_
    | with_reducible refine Keeps.foldl (fun t x => ?_) ?_
    | with_reducible refine Keeps.elim ?_ (fun a => ?_)
    | (with_reducible apply endPowerOn_keeps; decide)
    | (with_reducible apply sampleStraps_keeps; decide)
    | split
    | (with_reducible apply Keeps.upd
       all_goals with_reducible first | exact Or.inl (by decide) | exact Or.inr rfl | exact rfl | exact ⟨rfl, rfl⟩ | exact Or.inr ⟨rfl, rfl, rfl⟩ | exact Or.inr ⟨rfl, rfl⟩ | exact Or.inr ⟨rfl, rfl, rfl, rfl⟩ | skip)

theorem execPowerOnReset_keeps (cause : ResetCause) (s : State) : Out.Keeps [.cmp, .geom, .ray, .sig, .tim, .bases, .eth, .out, .tlk, .dec, .enc, .blt, .dfl, .dmc, .dram, .ports, .drawers, .queues, .owners, .health, .walec, .bureau, .clk, .pwr, .thm, .spr, .bot, .pins, .sent, .drawn] s (execPowerOnReset cause s) := by
  unfold execPowerOnReset
  repeat' first
    | (extract_lets +onlyGivenNames t
       first
         | (refine Out.Keeps.cut (t := t) ?_ (fun ht => ?_)
            on_goal 2 => clear_value t
            subst t)
         | (refine Keeps.cut (t := t) ?_ (fun ht => ?_)
            on_goal 2 => clear_value t
            subst t)
         | skip)
    | with_reducible exact Keeps.refl _ _
    | with_reducible assumption
    | with_reducible refine Out.Keeps.done (by decide) ?_
    | with_reducible refine Keeps.ite ?_ ?_
    | with_reducible refine Keeps.ifEvent ?_ ?_
    | with_reducible refine Keeps.foldl (fun t x => ?_) ?_
    | with_reducible refine Keeps.elim ?_ (fun a => ?_)
    | (with_reducible apply coldState_keeps; decide)
    | split
    | (with_reducible apply Keeps.upd
       all_goals with_reducible first | exact Or.inl (by decide) | exact Or.inr rfl | exact rfl | exact ⟨rfl, rfl⟩ | exact Or.inr ⟨rfl, rfl, rfl⟩ | exact Or.inr ⟨rfl, rfl⟩ | exact Or.inr ⟨rfl, rfl, rfl, rfl⟩ | skip)

theorem execRefQualified_keeps (r : Port) (s : State) : Out.Keeps [.cmp, .geom, .ray, .tim, .bases, .eth, .out, .tlk, .dec, .enc, .blt, .dfl, .dmc, .dram, .ports, .drawers, .queues, .health, .walec, .bureau, .clk, .pwr, .spr, .bot, .pins, .sent, .drawn] s (execRefQualified r s) := by
  unfold execRefQualified
  repeat' first
    | (extract_lets +onlyGivenNames t
       first
         | (refine Out.Keeps.cut (t := t) ?_ (fun ht => ?_)
            on_goal 2 => clear_value t
            subst t)
         | (refine Keeps.cut (t := t) ?_ (fun ht => ?_)
            on_goal 2 => clear_value t
            subst t)
         | skip)
    | with_reducible exact Keeps.refl _ _
    | with_reducible assumption
    | with_reducible refine Out.Keeps.done (by decide) ?_
    | with_reducible refine Keeps.ite ?_ ?_
    | with_reducible refine Keeps.ifEvent ?_ ?_
    | with_reducible refine Keeps.foldl (fun t x => ?_) ?_
    | with_reducible refine Keeps.elim ?_ (fun a => ?_)
    | (with_reducible apply recoverClocks_keeps; decide)
    | (with_reducible apply setRef_keeps; decide)
    | (with_reducible apply endPowerOn_keeps; decide)
    | (with_reducible apply log_keeps; decide)
    | split
    | (with_reducible apply Keeps.upd
       all_goals with_reducible first | exact Or.inl (by decide) | exact Or.inr rfl | exact rfl | exact ⟨rfl, rfl⟩ | exact Or.inr ⟨rfl, rfl, rfl⟩ | exact Or.inr ⟨rfl, rfl⟩ | exact Or.inr ⟨rfl, rfl, rfl, rfl⟩ | skip)

theorem execRefRestart_keeps (gapNs : ℕ) (s : State) : Out.Keeps [.tim, .bases, .eth, .tlk, .ports, .bureau, .clk, .spr, .sent] s (execRefRestart gapNs s) := by
  unfold execRefRestart
  repeat' first
    | (extract_lets +onlyGivenNames t
       first
         | (refine Out.Keeps.cut (t := t) ?_ (fun ht => ?_)
            on_goal 2 => clear_value t
            subst t)
         | (refine Keeps.cut (t := t) ?_ (fun ht => ?_)
            on_goal 2 => clear_value t
            subst t)
         | skip)
    | with_reducible exact Keeps.refl _ _
    | with_reducible assumption
    | with_reducible refine Out.Keeps.done (by decide) ?_
    | with_reducible refine Keeps.ite ?_ ?_
    | with_reducible refine Keeps.ifEvent ?_ ?_
    | with_reducible refine Keeps.foldl (fun t x => ?_) ?_
    | with_reducible refine Keeps.elim ?_ (fun a => ?_)
    | (with_reducible apply restartClocks_keeps; decide)
    | split
    | (with_reducible apply Keeps.upd
       all_goals with_reducible first | exact Or.inl (by decide) | exact Or.inr rfl | exact rfl | exact ⟨rfl, rfl⟩ | exact Or.inr ⟨rfl, rfl, rfl⟩ | exact Or.inr ⟨rfl, rfl⟩ | exact Or.inr ⟨rfl, rfl, rfl, rfl⟩ | skip)

theorem execSupplyExcursion_keeps (rail : ℕ) (s : State) : Out.Keeps [.cmp, .geom, .ray, .tim, .bases, .eth, .out, .tlk, .dec, .enc, .blt, .dfl, .dmc, .dram, .ports, .drawers, .queues, .health, .walec, .bureau, .pwr, .spr, .bot, .pins, .sent, .drawn] s (execSupplyExcursion rail s) := by
  unfold execSupplyExcursion
  repeat' first
    | (extract_lets +onlyGivenNames t
       first
         | (refine Out.Keeps.cut (t := t) ?_ (fun ht => ?_)
            on_goal 2 => clear_value t
            subst t)
         | (refine Keeps.cut (t := t) ?_ (fun ht => ?_)
            on_goal 2 => clear_value t
            subst t)
         | skip)
    | with_reducible exact Keeps.refl _ _
    | with_reducible assumption
    | with_reducible refine Out.Keeps.done (by decide) ?_
    | with_reducible refine Keeps.ite ?_ ?_
    | with_reducible refine Keeps.ifEvent ?_ ?_
    | with_reducible refine Keeps.foldl (fun t x => ?_) ?_
    | with_reducible refine Keeps.elim ?_ (fun a => ?_)
    | (with_reducible apply warmReset_keeps; decide)
    | (with_reducible apply assertFault_keeps; decide)
    | split
    | (with_reducible apply Keeps.upd
       all_goals with_reducible first | exact Or.inl (by decide) | exact Or.inr rfl | exact rfl | exact ⟨rfl, rfl⟩ | exact Or.inr ⟨rfl, rfl, rfl⟩ | exact Or.inr ⟨rfl, rfl⟩ | exact Or.inr ⟨rfl, rfl, rfl, rfl⟩ | skip)

theorem execSupplyRecovered_keeps (s : State) : Out.Keeps [.ports, .health, .bureau, .pwr, .bot, .pins, .sent] s (execSupplyRecovered s) := by
  unfold execSupplyRecovered
  repeat' first
    | (extract_lets +onlyGivenNames t
       first
         | (refine Out.Keeps.cut (t := t) ?_ (fun ht => ?_)
            on_goal 2 => clear_value t
            subst t)
         | (refine Keeps.cut (t := t) ?_ (fun ht => ?_)
            on_goal 2 => clear_value t
            subst t)
         | skip)
    | with_reducible exact Keeps.refl _ _
    | with_reducible assumption
    | with_reducible refine Out.Keeps.done (by decide) ?_
    | with_reducible refine Keeps.ite ?_ ?_
    | with_reducible refine Keeps.ifEvent ?_ ?_
    | with_reducible refine Keeps.foldl (fun t x => ?_) ?_
    | with_reducible refine Keeps.elim ?_ (fun a => ?_)
    | (with_reducible apply releaseWarm_keeps; decide)
    | split
    | (with_reducible apply Keeps.upd
       all_goals with_reducible first | exact Or.inl (by decide) | exact Or.inr rfl | exact rfl | exact ⟨rfl, rfl⟩ | exact Or.inr ⟨rfl, rfl, rfl⟩ | exact Or.inr ⟨rfl, rfl⟩ | exact Or.inr ⟨rfl, rfl, rfl, rfl⟩ | skip)

theorem execWardrobeReset_keeps (s : State) : Out.Keeps [.cmp, .geom, .ray, .tim, .bases, .eth, .out, .tlk, .dec, .enc, .blt, .dfl, .dmc, .dram, .ports, .drawers, .queues, .health, .walec, .bureau, .pwr, .spr, .bot, .pins, .sent, .drawn] s (execWardrobeReset s) := by
  unfold execWardrobeReset
  repeat' first
    | (extract_lets +onlyGivenNames t
       first
         | (refine Out.Keeps.cut (t := t) ?_ (fun ht => ?_)
            on_goal 2 => clear_value t
            subst t)
         | (refine Keeps.cut (t := t) ?_ (fun ht => ?_)
            on_goal 2 => clear_value t
            subst t)
         | skip)
    | with_reducible exact Keeps.refl _ _
    | with_reducible assumption
    | with_reducible refine Out.Keeps.done (by decide) ?_
    | with_reducible refine Keeps.ite ?_ ?_
    | with_reducible refine Keeps.ifEvent ?_ ?_
    | with_reducible refine Keeps.foldl (fun t x => ?_) ?_
    | with_reducible refine Keeps.elim ?_ (fun a => ?_)
    | (with_reducible apply warmReset_keeps; decide)
    | (with_reducible apply log_keeps; decide)
    | (with_reducible apply advanceTo0_keeps; decide)
    | split
    | (with_reducible apply Keeps.upd
       all_goals with_reducible first | exact Or.inl (by decide) | exact Or.inr rfl | exact rfl | exact ⟨rfl, rfl⟩ | exact Or.inr ⟨rfl, rfl, rfl⟩ | exact Or.inr ⟨rfl, rfl⟩ | exact Or.inr ⟨rfl, rfl, rfl, rfl⟩ | skip)

theorem execWarmReset_keeps (cause : ResetCause) (s : State) : Out.Keeps [.cmp, .geom, .ray, .tim, .bases, .eth, .out, .tlk, .dec, .enc, .blt, .dfl, .dmc, .dram, .ports, .drawers, .queues, .health, .walec, .bureau, .pwr, .spr, .bot, .pins, .sent, .drawn] s (execWarmReset cause s) := by
  unfold execWarmReset
  repeat' first
    | (extract_lets +onlyGivenNames t
       first
         | (refine Out.Keeps.cut (t := t) ?_ (fun ht => ?_)
            on_goal 2 => clear_value t
            subst t)
         | (refine Keeps.cut (t := t) ?_ (fun ht => ?_)
            on_goal 2 => clear_value t
            subst t)
         | skip)
    | with_reducible exact Keeps.refl _ _
    | with_reducible assumption
    | with_reducible refine Out.Keeps.done (by decide) ?_
    | with_reducible refine Keeps.ite ?_ ?_
    | with_reducible refine Keeps.ifEvent ?_ ?_
    | with_reducible refine Keeps.foldl (fun t x => ?_) ?_
    | with_reducible refine Keeps.elim ?_ (fun a => ?_)
    | (with_reducible apply warmReset_keeps; decide)
    | split
    | (with_reducible apply Keeps.upd
       all_goals with_reducible first | exact Or.inl (by decide) | exact Or.inr rfl | exact rfl | exact ⟨rfl, rfl⟩ | exact Or.inr ⟨rfl, rfl, rfl⟩ | exact Or.inr ⟨rfl, rfl⟩ | exact Or.inr ⟨rfl, rfl, rfl, rfl⟩ | skip)

theorem execWindowTrip_keeps (r : Port) (s : State) : Out.Keeps [.ports, .bureau, .clk, .sent] s (execWindowTrip r s) := by
  unfold execWindowTrip
  repeat' first
    | (extract_lets +onlyGivenNames t
       first
         | (refine Out.Keeps.cut (t := t) ?_ (fun ht => ?_)
            on_goal 2 => clear_value t
            subst t)
         | (refine Keeps.cut (t := t) ?_ (fun ht => ?_)
            on_goal 2 => clear_value t
            subst t)
         | skip)
    | with_reducible exact Keeps.refl _ _
    | with_reducible assumption
    | with_reducible refine Out.Keeps.done (by decide) ?_
    | with_reducible refine Keeps.ite ?_ ?_
    | with_reducible refine Keeps.ifEvent ?_ ?_
    | with_reducible refine Keeps.foldl (fun t x => ?_) ?_
    | with_reducible refine Keeps.elim ?_ (fun a => ?_)
    | (with_reducible apply tripRef_keeps; decide)
    | split
    | (with_reducible apply Keeps.upd
       all_goals with_reducible first | exact Or.inl (by decide) | exact Or.inr rfl | exact rfl | exact ⟨rfl, rfl⟩ | exact Or.inr ⟨rfl, rfl, rfl⟩ | exact Or.inr ⟨rfl, rfl⟩ | exact Or.inr ⟨rfl, rfl, rfl, rfl⟩ | skip)

end Sys2Proof.Machine
end

