-- ==== Sys2Proof/Laws/KeepsRegisters.lean ====
section
/-! SUPPORT. What the operations of Machine/Registers.lean may change: one lemma each, which says that the
parts it does not name, the form of the DRAM, the Bureau's chain and the queue are kept. -/

open Host

set_option linter.unusedTactic false
set_option linter.unreachableTactic false
set_option linter.tactic.unusedName false

namespace Sys2Proof.Machine

variable {K : List Part} {s₀ : State}

theorem clearWindow_keeps (k : ℕ) (o : ℕ) (v : ℕ) (s : State) (hm₀ : Part.among [.cmp, .geom, .ray, .sig, .tim, .eth, .out, .tlk, .dec, .enc, .blt, .dfl, .dmc, .clk, .pwr, .thm, .spr, .bot] K = true) (h₀ : Keeps K s₀ s) :
    Keeps K s₀ (clearWindow k o v s) := by
  refine Keeps.after ?_ hm₀ h₀
  clear hm₀ h₀
  unfold clearWindow
  repeat' first
    | with_reducible exact Keeps.refl _ _
    | (with_reducible apply setRow_keeps; decide)
    | (with_reducible apply setLink_keeps; decide)
    | (with_reducible apply setCtx_keeps; decide)
    | (with_reducible apply setCore_keeps; decide)
    | (with_reducible apply setSite_keeps; decide)
    | (with_reducible apply setTempGroup_keeps; decide)
    | (with_reducible apply setSensor_keeps; decide)
    | (with_reducible apply setRegion_keeps; decide)
    | (with_reducible apply setLayerStatus_keeps; decide)
    | split
    | (with_reducible apply Keeps.upd
       all_goals with_reducible first | exact Or.inl (by decide) | exact Or.inr rfl | exact rfl | exact ⟨rfl, rfl⟩ | exact Or.inr ⟨rfl, rfl, rfl⟩ | exact Or.inr ⟨rfl, rfl⟩ | exact Or.inr ⟨rfl, rfl, rfl, rfl⟩ | skip)

theorem bootClasses_keeps (s : State) (hm₀ : Part.among [.drawers] K = true) (h₀ : Keeps K s₀ s) :
    Keeps K s₀ (bootClasses s) := by
  refine Keeps.after ?_ hm₀ h₀
  clear hm₀ h₀
  unfold bootClasses
  repeat' first
    | (extract_lets +onlyGivenNames t
       first
         | (refine Keeps.cut (t := t) ?_ (fun ht => ?_)
            on_goal 2 => clear_value t
            subst t)
         | skip)
    | with_reducible exact Keeps.refl _ _
    | with_reducible assumption
    | with_reducible refine Keeps.ite ?_ ?_
    | with_reducible refine Keeps.ifEvent ?_ ?_
    | with_reducible refine Keeps.foldl (fun t x => ?_) ?_
    | with_reducible refine Keeps.elim ?_ (fun a => ?_)
    | (with_reducible apply setDrawer_keeps; decide)
    | split
    | (with_reducible apply Keeps.upd
       all_goals with_reducible first | exact Or.inl (by decide) | exact Or.inr rfl | exact rfl | exact ⟨rfl, rfl⟩ | exact Or.inr ⟨rfl, rfl, rfl⟩ | exact Or.inr ⟨rfl, rfl⟩ | exact Or.inr ⟨rfl, rfl, rfl, rfl⟩ | skip)

theorem recover_keeps (len : ℕ) (s : State) (hm₀ : Part.among [.ports, .drawers, .health, .bureau, .bot, .sent] K = true) (h₀ : Keeps K s₀ s) :
    Keeps K s₀ (recover len s) := by
  refine Keeps.after ?_ hm₀ h₀
  clear hm₀ h₀
  unfold recover
  repeat' first
    | (extract_lets +onlyGivenNames t
       first
         | (refine Keeps.cut (t := t) ?_ (fun ht => ?_)
            on_goal 2 => clear_value t
            subst t)
         | skip)
    | with_reducible exact Keeps.refl _ _
    | with_reducible assumption
    | with_reducible refine Keeps.ite ?_ ?_
    | with_reducible refine Keeps.ifEvent ?_ ?_
    | (with_reducible apply bootClasses_keeps; decide)
    | (with_reducible apply setWalec_keeps; decide)
    | (with_reducible apply verifyFail_keeps; decide)
    | (with_reducible apply raiseUp_keeps; decide)
    | split
    | (with_reducible apply Keeps.upd
       all_goals with_reducible first | exact Or.inl (by decide) | exact Or.inr rfl | exact rfl | exact ⟨rfl, rfl⟩ | exact Or.inr ⟨rfl, rfl, rfl⟩ | exact Or.inr ⟨rfl, rfl⟩ | exact Or.inr ⟨rfl, rfl, rfl, rfl⟩ | skip)

theorem refuseQueue_keeps (p : Port) (q : ℕ) (s : State) (hm₀ : Part.among [.ports, .queues] K = true) (h₀ : Keeps K s₀ s) :
    Keeps K s₀ (refuseQueue p q s) := by
  refine Keeps.after ?_ hm₀ h₀
  clear hm₀ h₀
  unfold refuseQueue
  repeat' first
    | (extract_lets +onlyGivenNames t
       first
         | (refine Keeps.cut (t := t) ?_ (fun ht => ?_)
            on_goal 2 => clear_value t
            subst t)
         | skip)
    | with_reducible exact Keeps.refl _ _
    | with_reducible assumption
    | (with_reducible apply setQueue_keeps; decide)
    | (with_reducible apply setPort_keeps; decide)
    | (with_reducible apply Keeps.upd
       all_goals with_reducible first | exact Or.inl (by decide) | exact Or.inr rfl | exact rfl | exact ⟨rfl, rfl⟩ | exact Or.inr ⟨rfl, rfl, rfl⟩ | exact Or.inr ⟨rfl, rfl⟩ | exact Or.inr ⟨rfl, rfl, rfl, rfl⟩ | skip)

theorem requestCold_keeps (p : Port) (s : State) (hm₀ : Part.among [.cmp, .geom, .ray, .sig, .tim, .bases, .eth, .out, .tlk, .dec, .enc, .blt, .dfl, .dmc, .dram, .ports, .drawers, .queues, .owners, .health, .walec, .bureau, .clk, .pwr, .thm, .spr, .bot, .pins, .sent, .drawn] K = true) (h₀ : Keeps K s₀ s) :
    Keeps K s₀ (requestCold p s) := by
  refine Keeps.after ?_ hm₀ h₀
  clear hm₀ h₀
  unfold requestCold
  repeat' first
    | (extract_lets +onlyGivenNames t
       first
         | (refine Keeps.cut (t := t) ?_ (fun ht => ?_)
            on_goal 2 => clear_value t
            subst t)
         | skip)
    | with_reducible exact Keeps.refl _ _
    | with_reducible assumption
    | with_reducible refine Keeps.ite ?_ ?_
    | with_reducible refine Keeps.ifEvent ?_ ?_
    | (with_reducible apply coldState_keeps; decide)
    | split
    | (with_reducible apply Keeps.upd
       all_goals with_reducible first | exact Or.inl (by decide) | exact Or.inr rfl | exact rfl | exact ⟨rfl, rfl⟩ | exact Or.inr ⟨rfl, rfl, rfl⟩ | exact Or.inr ⟨rfl, rfl⟩ | exact Or.inr ⟨rfl, rfl, rfl, rfl⟩ | skip)

theorem requestWarm_keeps (p : Port) (s : State) (hm₀ : Part.among [.cmp, .geom, .ray, .tim, .bases, .eth, .out, .tlk, .dec, .enc, .blt, .dfl, .dmc, .dram, .ports, .drawers, .queues, .health, .walec, .bureau, .pwr, .spr, .bot, .pins, .sent, .drawn] K = true) (h₀ : Keeps K s₀ s) :
    Keeps K s₀ (requestWarm p s) := by
  refine Keeps.after ?_ hm₀ h₀
  clear hm₀ h₀
  unfold requestWarm
  repeat' first
    | with_reducible exact Keeps.refl _ _
    | with_reducible assumption
    | with_reducible refine Keeps.ite ?_ ?_
    | with_reducible refine Keeps.ifEvent ?_ ?_
    | (with_reducible apply warmReset_keeps; decide)
    | split
    | (with_reducible apply Keeps.upd
       all_goals with_reducible first | exact Or.inl (by decide) | exact Or.inr rfl | exact rfl | exact ⟨rfl, rfl⟩ | exact Or.inr ⟨rfl, rfl, rfl⟩ | exact Or.inr ⟨rfl, rfl⟩ | exact Or.inr ⟨rfl, rfl, rfl, rfl⟩ | skip)

theorem unmask_keeps (p : Port) (v : ℕ) (s : State) (hm₀ : Part.among [.ports, .sent] K = true) (h₀ : Keeps K s₀ s) :
    Keeps K s₀ (unmask p v s) := by
  refine Keeps.after ?_ hm₀ h₀
  clear hm₀ h₀
  unfold unmask
  repeat' first
    | (extract_lets +onlyGivenNames t
       first
         | (refine Keeps.cut (t := t) ?_ (fun ht => ?_)
            on_goal 2 => clear_value t
            subst t)
         | skip)
    | with_reducible exact Keeps.refl _ _
    | with_reducible assumption
    | with_reducible refine Keeps.ite ?_ ?_
    | (with_reducible apply send_keeps; decide)
    | (with_reducible apply setPort_keeps; decide)
    | split
    | (with_reducible apply Keeps.upd
       all_goals with_reducible first | exact Or.inl (by decide) | exact Or.inr rfl | exact rfl | exact ⟨rfl, rfl⟩ | exact Or.inr ⟨rfl, rfl, rfl⟩ | exact Or.inr ⟨rfl, rfl⟩ | exact Or.inr ⟨rfl, rfl, rfl, rfl⟩ | skip)

theorem writeRequest_keeps (p : Port) (n : ℕ) (i : ℕ) (width : ℕ) (v : ℕ) (s : State) (hm₀ : Part.among [.drawers] K = true) (h₀ : Keeps K s₀ s) :
    Keeps K s₀ (writeRequest p n i width v s) := by
  refine Keeps.after ?_ hm₀ h₀
  clear hm₀ h₀
  unfold writeRequest
  repeat' first
    | (extract_lets +onlyGivenNames t
       first
         | (refine Keeps.cut (t := t) ?_ (fun ht => ?_)
            on_goal 2 => clear_value t
            subst t)
         | skip)
    | with_reducible exact Keeps.refl _ _
    | with_reducible assumption
    | with_reducible refine Keeps.ite ?_ ?_
    | (with_reducible apply setDrawer_keeps; decide)
    | (with_reducible apply refuseDrawer_keeps; decide)
    | split
    | (with_reducible apply Keeps.upd
       all_goals with_reducible first | exact Or.inl (by decide) | exact Or.inr rfl | exact rfl | exact ⟨rfl, rfl⟩ | exact Or.inr ⟨rfl, rfl, rfl⟩ | exact Or.inr ⟨rfl, rfl⟩ | exact Or.inr ⟨rfl, rfl, rfl, rfl⟩ | skip)

theorem writeDrawer_keeps (p : Port) (n : ℕ) (o : ℕ) (off : ℕ) (width : ℕ) (v : ℕ) (s : State) (hm₀ : Part.among [.ports, .drawers, .walec, .sent] K = true) (h₀ : Keeps K s₀ s) :
    Keeps K s₀ (writeDrawer p n o off width v s) := by
  refine Keeps.after ?_ hm₀ h₀
  clear hm₀ h₀
  unfold writeDrawer
  repeat' first
    | (extract_lets +onlyGivenNames t
       first
         | (refine Keeps.cut (t := t) ?_ (fun ht => ?_)
            on_goal 2 => clear_value t
            subst t)
         | skip)
    | with_reducible exact Keeps.refl _ _
    | with_reducible assumption
    | with_reducible refine Keeps.ite ?_ ?_
    | (with_reducible apply drawerDoorbell_keeps; decide)
    | (with_reducible apply refuseDrawer_keeps; decide)
    | (with_reducible apply setDrawer_keeps; decide)
    | (with_reducible apply writeRequest_keeps; decide)
    | split
    | (with_reducible apply Keeps.upd
       all_goals with_reducible first | exact Or.inl (by decide) | exact Or.inr rfl | exact rfl | exact ⟨rfl, rfl⟩ | exact Or.inr ⟨rfl, rfl, rfl⟩ | exact Or.inr ⟨rfl, rfl⟩ | exact Or.inr ⟨rfl, rfl, rfl, rfl⟩ | skip)

theorem writeMsix_keeps (p : Port) (o : ℕ) (off : ℕ) (width : ℕ) (v : ℕ) (s : State) (hm₀ : Part.among [.ports, .sent] K = true) (h₀ : Keeps K s₀ s) :
    Keeps K s₀ (writeMsix p o off width v s) := by
  refine Keeps.after ?_ hm₀ h₀
  clear hm₀ h₀
  unfold writeMsix
  repeat' first
    | (extract_lets +onlyGivenNames t
       first
         | (refine Keeps.cut (t := t) ?_ (fun ht => ?_)
            on_goal 2 => clear_value t
            subst t)
         | skip)
    | with_reducible exact Keeps.refl _ _
    | with_reducible assumption
    | with_reducible refine Keeps.ite ?_ ?_
    | (with_reducible apply unmask_keeps; decide)
    | (with_reducible apply setPort_keeps; decide)
    | split
    | (with_reducible apply Keeps.upd
       all_goals with_reducible first | exact Or.inl (by decide) | exact Or.inr rfl | exact rfl | exact ⟨rfl, rfl⟩ | exact Or.inr ⟨rfl, rfl, rfl⟩ | exact Or.inr ⟨rfl, rfl⟩ | exact Or.inr ⟨rfl, rfl, rfl, rfl⟩ | skip)

theorem writePort_keeps (p : Port) (o : ℕ) (off : ℕ) (width : ℕ) (v : ℕ) (s : State) (hm₀ : Part.among [.ports, .queues, .owners, .bureau, .sent] K = true) (h₀ : Keeps K s₀ s) :
    Keeps K s₀ (writePort p o off width v s) := by
  refine Keeps.after ?_ hm₀ h₀
  clear hm₀ h₀
  unfold writePort
  repeat' first
    | (extract_lets +onlyGivenNames t
       first
         | (refine Keeps.cut (t := t) ?_ (fun ht => ?_)
            on_goal 2 => clear_value t
            subst t)
         | skip)
    | with_reducible exact Keeps.refl _ _
    | with_reducible assumption
    | with_reducible refine Keeps.ite ?_ ?_
    | (with_reducible apply setPort_keeps; decide)
    | (with_reducible apply leaseWrite_keeps; decide)
    | split
    | (with_reducible apply Keeps.upd
       all_goals with_reducible first | exact Or.inl (by decide) | exact Or.inr rfl | exact rfl | exact ⟨rfl, rfl⟩ | exact Or.inr ⟨rfl, rfl, rfl⟩ | exact Or.inr ⟨rfl, rfl⟩ | exact Or.inr ⟨rfl, rfl, rfl, rfl⟩ | skip)

theorem writeReset_keeps (p : Port) (v : ℕ) (s : State) (hm₀ : Part.among [.cmp, .geom, .ray, .sig, .tim, .bases, .eth, .out, .tlk, .dec, .enc, .blt, .dfl, .dmc, .dram, .ports, .drawers, .queues, .owners, .health, .walec, .bureau, .clk, .pwr, .thm, .spr, .bot, .pins, .sent, .drawn] K = true) (h₀ : Keeps K s₀ s) :
    Keeps K s₀ (writeReset p v s) := by
  refine Keeps.after ?_ hm₀ h₀
  clear hm₀ h₀
  unfold writeReset
  repeat' first
    | with_reducible exact Keeps.refl _ _
    | with_reducible assumption
    | with_reducible refine Keeps.ite ?_ ?_
    | with_reducible refine Keeps.ifEvent ?_ ?_
    | (with_reducible apply requestCold_keeps; decide)
    | (with_reducible apply requestWarm_keeps; decide)
    | (with_reducible apply switchReference_keeps; decide)
    | split
    | (with_reducible apply Keeps.upd
       all_goals with_reducible first | exact Or.inl (by decide) | exact Or.inr rfl | exact rfl | exact ⟨rfl, rfl⟩ | exact Or.inr ⟨rfl, rfl, rfl⟩ | exact Or.inr ⟨rfl, rfl⟩ | exact Or.inr ⟨rfl, rfl, rfl, rfl⟩ | skip)

theorem writeWindow_keeps (p : Port) (k : ℕ) (o : ℕ) (w : ℕ) (s : State) (hm₀ : Part.among [.cmp, .geom, .ray, .sig, .tim, .bases, .eth, .out, .tlk, .dec, .enc, .blt, .dfl, .dmc, .dram, .ports, .drawers, .queues, .owners, .health, .walec, .bureau, .clk, .pwr, .thm, .spr, .bot, .pins, .sent, .drawn] K = true) (h₀ : Keeps K s₀ s) :
    Keeps K s₀ (writeWindow p k o w s) := by
  refine Keeps.after ?_ hm₀ h₀
  clear hm₀ h₀
  unfold writeWindow
  repeat' first
    | with_reducible exact Keeps.refl _ _
    | with_reducible assumption
    | with_reducible refine Keeps.ite ?_ ?_
    | with_reducible refine Keeps.ifEvent ?_ ?_
    | (with_reducible apply recover_keeps; decide)
    | (with_reducible apply writeReset_keeps; decide)
    | (with_reducible apply clearWindow_keeps; decide)
    | (with_reducible apply captureAll_keeps; decide)
    | split
    | (with_reducible apply Keeps.upd
       all_goals with_reducible first | exact Or.inl (by decide) | exact Or.inr rfl | exact rfl | exact ⟨rfl, rfl⟩ | exact Or.inr ⟨rfl, rfl, rfl⟩ | exact Or.inr ⟨rfl, rfl⟩ | exact Or.inr ⟨rfl, rfl, rfl, rfl⟩ | skip)

theorem writeRegister_keeps (p : Port) (off : ℕ) (width : ℕ) (v : ℕ) (s : State) (hm₀ : Part.among [.cmp, .geom, .ray, .sig, .tim, .bases, .eth, .out, .tlk, .dec, .enc, .blt, .dfl, .dmc, .dram, .ports, .drawers, .queues, .owners, .health, .walec, .bureau, .clk, .pwr, .thm, .spr, .bot, .pins, .sent, .drawn] K = true) (h₀ : Keeps K s₀ s) :
    Keeps K s₀ (writeRegister p off width v s) := by
  refine Keeps.after ?_ hm₀ h₀
  clear hm₀ h₀
  unfold writeRegister
  repeat' first
    | with_reducible exact Keeps.refl _ _
    | with_reducible assumption
    | with_reducible refine Keeps.ite ?_ ?_
    | with_reducible refine Keeps.ifEvent ?_ ?_
    | (with_reducible apply writeWindow_keeps; decide)
    | (with_reducible apply writePort_keeps; decide)
    | (with_reducible apply writeMsix_keeps; decide)
    | (with_reducible apply refuseQueue_keeps; decide)
    | (with_reducible apply writeDrawer_keeps; decide)
    | (with_reducible apply queueDoorbell_keeps; decide)
    | split
    | (with_reducible apply Keeps.upd
       all_goals with_reducible first | exact Or.inl (by decide) | exact Or.inr rfl | exact rfl | exact ⟨rfl, rfl⟩ | exact Or.inr ⟨rfl, rfl, rfl⟩ | exact Or.inr ⟨rfl, rfl⟩ | exact Or.inr ⟨rfl, rfl, rfl, rfl⟩ | skip)

/-! ### Commands -/

theorem execBotRecoveryWrite_keeps (p : Port) (value : ℕ) (s : State) : Out.Keeps [.ports, .drawers, .health, .bureau, .bot, .sent] s (execBotRecoveryWrite p value s) := by
  unfold execBotRecoveryWrite
  repeat' first
    | (extract_lets +onlyGivenNames t
       first
         | (refine Out.Keeps.cut (t := t) ?_ (fun ht => ?_)
            on_goal 2 => clear_value t
            subst t)
         | (refine Keeps.cut (t := t) ?_ (fun ht => ?_)
            on_goal 2 => clear_value t
            subst t)
         | skip)
    | with_reducible exact Keeps.refl _ _
    | with_reducible assumption
    | with_reducible refine Out.Keeps.done (by decide) ?_
    | with_reducible refine Keeps.ite ?_ ?_
    | with_reducible refine Keeps.ifEvent ?_ ?_
    | with_reducible refine Keeps.foldl (fun t x => ?_) ?_
    | with_reducible refine Keeps.elim ?_ (fun a => ?_)
    | (with_reducible apply recover_keeps; decide)
    | split
    | (with_reducible apply Keeps.upd
       all_goals with_reducible first | exact Or.inl (by decide) | exact Or.inr rfl | exact rfl | exact ⟨rfl, rfl⟩ | exact Or.inr ⟨rfl, rfl, rfl⟩ | exact Or.inr ⟨rfl, rfl⟩ | exact Or.inr ⟨rfl, rfl, rfl, rfl⟩ | skip)

theorem execCold_keeps (p : Port) (value : ℕ) (s : State) : Out.Keeps [.cmp, .geom, .ray, .sig, .tim, .bases, .eth, .out, .tlk, .dec, .enc, .blt, .dfl, .dmc, .dram, .ports, .drawers, .queues, .owners, .health, .walec, .bureau, .clk, .pwr, .thm, .spr, .bot, .pins, .sent, .drawn] s (execCold p value s) := by
  unfold execCold
  repeat' first
    | (extract_lets +onlyGivenNames t
       first
         | (refine Out.Keeps.cut (t := t) ?_ (fun ht => ?_)
            on_goal 2 => clear_value t
            subst t)
         | (refine Keeps.cut (t := t) ?_ (fun ht => ?_)
            on_goal 2 => clear_value t
            subst t)
         | skip)
    | with_reducible exact Keeps.refl _ _
    | with_reducible assumption
    | with_reducible refine Out.Keeps.done (by decide) ?_
    | with_reducible refine Keeps.ite ?_ ?_
    | with_reducible refine Keeps.ifEvent ?_ ?_
    | with_reducible refine Keeps.foldl (fun t x => ?_) ?_
    | with_reducible refine Keeps.elim ?_ (fun a => ?_)
    | (with_reducible apply requestCold_keeps; decide)
    | split
    | (with_reducible apply Keeps.upd
       all_goals with_reducible first | exact Or.inl (by decide) | exact Or.inr rfl | exact rfl | exact ⟨rfl, rfl⟩ | exact Or.inr ⟨rfl, rfl, rfl⟩ | exact Or.inr ⟨rfl, rfl⟩ | exact Or.inr ⟨rfl, rfl, rfl, rfl⟩ | skip)

theorem execRegisterWrite_keeps (p : Port) (off : ℕ) (width : ℕ) (value : ℕ) (s : State) : Out.Keeps [.cmp, .geom, .ray, .sig, .tim, .bases, .eth, .out, .tlk, .dec, .enc, .blt, .dfl, .dmc, .dram, .ports, .drawers, .queues, .owners, .health, .walec, .bureau, .clk, .pwr, .thm, .spr, .bot, .pins, .sent, .drawn] s (execRegisterWrite p off width value s) := by
  unfold execRegisterWrite
  repeat' first
    | (extract_lets +onlyGivenNames t
       first
         | (refine Out.Keeps.cut (t := t) ?_ (fun ht => ?_)
            on_goal 2 => clear_value t
            subst t)
         | (refine Keeps.cut (t := t) ?_ (fun ht => ?_)
            on_goal 2 => clear_value t
            subst t)
         | skip)
    | with_reducible exact Keeps.refl _ _
    | with_reducible assumption
    | with_reducible refine Out.Keeps.done (by decide) ?_
    | with_reducible refine Keeps.ite ?_ ?_
    | with_reducible refine Keeps.ifEvent ?_ ?_
    | with_reducible refine Keeps.foldl (fun t x => ?_) ?_
    | with_reducible refine Keeps.elim ?_ (fun a => ?_)
    | (with_reducible apply writeRegister_keeps; decide)
    | split
    | (with_reducible apply Keeps.upd
       all_goals with_reducible first | exact Or.inl (by decide) | exact Or.inr rfl | exact rfl | exact ⟨rfl, rfl⟩ | exact Or.inr ⟨rfl, rfl, rfl⟩ | exact Or.inr ⟨rfl, rfl⟩ | exact Or.inr ⟨rfl, rfl, rfl, rfl⟩ | skip)

theorem execSwitchRef_keeps (p : Port) (value : ℕ) (s : State) : Out.Keeps [.ports, .clk, .sent] s (execSwitchRef p value s) := by
  unfold execSwitchRef
  repeat' first
    | (extract_lets +onlyGivenNames t
       first
         | (refine Out.Keeps.cut (t := t) ?_ (fun ht => ?_)
            on_goal 2 => clear_value t
            subst t)
         | (refine Keeps.cut (t := t) ?_ (fun ht => ?_)
            on_goal 2 => clear_value t
            subst t)
         | skip)
    | with_reducible exact Keeps.refl _ _
    | with_reducible assumption
    | with_reducible refine Out.Keeps.done (by decide) ?_
    | with_reducible refine Keeps.ite ?_ ?_
    | with_reducible refine Keeps.ifEvent ?_ ?_
    | with_reducible refine Keeps.foldl (fun t x => ?_) ?_
    | with_reducible refine Keeps.elim ?_ (fun a => ?_)
    | (with_reducible apply switchReference_keeps; decide)
    | split
    | (with_reducible apply Keeps.upd
       all_goals with_reducible first | exact Or.inl (by decide) | exact Or.inr rfl | exact rfl | exact ⟨rfl, rfl⟩ | exact Or.inr ⟨rfl, rfl, rfl⟩ | exact Or.inr ⟨rfl, rfl⟩ | exact Or.inr ⟨rfl, rfl, rfl, rfl⟩ | skip)

theorem execWarm_keeps (p : Port) (value : ℕ) (s : State) : Out.Keeps [.cmp, .geom, .ray, .tim, .bases, .eth, .out, .tlk, .dec, .enc, .blt, .dfl, .dmc, .dram, .ports, .drawers, .queues, .health, .walec, .bureau, .pwr, .spr, .bot, .pins, .sent, .drawn] s (execWarm p value s) := by
  unfold execWarm
  repeat' first
    | (extract_lets +onlyGivenNames t
       first
         | (refine Out.Keeps.cut (t := t) ?_ (fun ht => ?_)
            on_goal 2 => clear_value t
            subst t)
         | (refine Keeps.cut (t := t) ?_ (fun ht => ?_)
            on_goal 2 => clear_value t
            subst t)
         | skip)
    | with_reducible exact Keeps.refl _ _
    | with_reducible assumption
    | with_reducible refine Out.Keeps.done (by decide) ?_
    | with_reducible refine Keeps.ite ?_ ?_
    | with_reducible refine Keeps.ifEvent ?_ ?_
    | with_reducible refine Keeps.foldl (fun t x => ?_) ?_
    | with_reducible refine Keeps.elim ?_ (fun a => ?_)
    | (with_reducible apply requestWarm_keeps; decide)
    | split
    | (with_reducible apply Keeps.upd
       all_goals with_reducible first | exact Or.inl (by decide) | exact Or.inr rfl | exact rfl | exact ⟨rfl, rfl⟩ | exact Or.inr ⟨rfl, rfl, rfl⟩ | exact Or.inr ⟨rfl, rfl⟩ | exact Or.inr ⟨rfl, rfl, rfl, rfl⟩ | skip)

end Sys2Proof.Machine
end

