-- ==== Sys2Proof/Laws/KeepsParams.lean ====
section
/-! SUPPORT. What the operations of Machine/Params.lean may change: one lemma each, which says that the
parts it does not name, the form of the DRAM, the Bureau's chain and the queue are kept. -/

open Host

set_option linter.unusedTactic false
set_option linter.unreachableTactic false
set_option linter.tactic.unusedName false

namespace Sys2Proof.Machine

variable {K : List Part} {s₀ : State}

theorem atTick_keeps (c : Change) (o : Origin) (s : State) (hm₀ : Part.among [.tim] K = true) (h₀ : Keeps K s₀ s) :
    Keeps K s₀ (atTick c o s) := by
  refine Keeps.after ?_ hm₀ h₀
  clear hm₀ h₀
  unfold atTick
  repeat' first
    | with_reducible exact Keeps.refl _ _
    | (with_reducible apply plan_keeps; decide)

theorem serviceWrite_keeps (o : Origin) (service : ℕ) (verb : ℕ) (id : ℕ) (ix : ℕ) (old : Bytes) (new : Bytes) (s : State) (hm₀ : Part.among [.bureau] K = true) (h₀ : Keeps K s₀ s) :
    Keeps K s₀ (serviceWrite o service verb id ix old new s) := by
  refine Keeps.after ?_ hm₀ h₀
  clear hm₀ h₀
  unfold serviceWrite
  repeat' first
    | (extract_lets +onlyGivenNames t
       first
         | (refine Keeps.cut (t := t) ?_ (fun ht => ?_)
            on_goal 2 => clear_value t
            subst t)
         | skip)
    | with_reducible exact Keeps.refl _ _
    | with_reducible assumption
    | with_reducible refine Keeps.ite ?_ ?_
    | (with_reducible apply logEntry_keeps; decide)
    | split

theorem retrainGroup_keeps (g : ℕ) (s : State) (hm₀ : Part.among [.tlk] K = true) (h₀ : Keeps K s₀ s) :
    Keeps K s₀ (retrainGroup g s) := by
  refine Keeps.after ?_ hm₀ h₀
  clear hm₀ h₀
  unfold retrainGroup
  repeat' first
    | with_reducible exact Keeps.refl _ _
    | with_reducible refine Keeps.ite ?_ ?_
    | with_reducible refine Keeps.foldl (fun t x => ?_) ?_
    | (with_reducible apply control_keeps; decide)
    | split

theorem setBright_keeps (ch : ℕ) (v : ℕ) (s : State) (hm₀ : Part.among [.out] K = true) (h₀ : Keeps K s₀ s) :
    Keeps K s₀ (setBright ch v s) := by
  refine Keeps.after ?_ hm₀ h₀
  clear hm₀ h₀
  unfold setBright
  repeat' first
    | with_reducible exact Keeps.refl _ _
    | (with_reducible apply Keeps.upd
       all_goals with_reducible first | exact Or.inl (by decide) | exact Or.inr rfl | exact rfl | exact ⟨rfl, rfl⟩ | exact Or.inr ⟨rfl, rfl, rfl⟩ | exact Or.inr ⟨rfl, rfl⟩ | exact Or.inr ⟨rfl, rfl, rfl, rfl⟩ | skip)

theorem setEnc_keeps (f : EncParams → EncParams) (s : State) (hm₀ : Part.among [.enc] K = true) (h₀ : Keeps K s₀ s) :
    Keeps K s₀ (setEnc f s) := Keeps.enc_set _ hm₀ h₀

theorem setLimit_keeps (v : ℕ) (s : State) (hm₀ : Part.among [.out] K = true) (h₀ : Keeps K s₀ s) :
    Keeps K s₀ (setLimit v s) := by
  refine Keeps.after ?_ hm₀ h₀
  clear hm₀ h₀
  unfold setLimit
  repeat' first
    | with_reducible exact Keeps.refl _ _
    | (with_reducible apply Keeps.upd
       all_goals with_reducible first | exact Or.inl (by decide) | exact Or.inr rfl | exact rfl | exact ⟨rfl, rfl⟩ | exact Or.inr ⟨rfl, rfl, rfl⟩ | exact Or.inr ⟨rfl, rfl⟩ | exact Or.inr ⟨rfl, rfl, rfl, rfl⟩ | skip)

theorem unpair_keeps (n : ℕ) (s : State) (hm₀ : Part.among [.thm] K = true) (h₀ : Keeps K s₀ s) :
    Keeps K s₀ (unpair n s) := by
  refine Keeps.after ?_ hm₀ h₀
  clear hm₀ h₀
  unfold unpair
  repeat' first
    | with_reducible exact Keeps.refl _ _
    | (with_reducible apply setSensor_keeps; decide)
    | split
    | (with_reducible apply Keeps.upd
       all_goals with_reducible first | exact Or.inl (by decide) | exact Or.inr rfl | exact rfl | exact ⟨rfl, rfl⟩ | exact Or.inr ⟨rfl, rfl, rfl⟩ | exact Or.inr ⟨rfl, rfl⟩ | exact Or.inr ⟨rfl, rfl, rfl, rfl⟩ | skip)

theorem setPartner_keeps (n : ℕ) (v : ℕ) (s : State) (hm₀ : Part.among [.thm] K = true) (h₀ : Keeps K s₀ s) :
    Keeps K s₀ (setPartner n v s) := by
  refine Keeps.after ?_ hm₀ h₀
  clear hm₀ h₀
  unfold setPartner
  repeat' first
    | (extract_lets +onlyGivenNames t
       first
         | (refine Keeps.cut (t := t) ?_ (fun ht => ?_)
            on_goal 2 => clear_value t
            subst t)
         | skip)
    | with_reducible exact Keeps.refl _ _
    | with_reducible assumption
    | with_reducible refine Keeps.ite ?_ ?_
    | (with_reducible apply unpair_keeps; decide)
    | (with_reducible apply setSensor_keeps; decide)
    | split
    | (with_reducible apply Keeps.upd
       all_goals with_reducible first | exact Or.inl (by decide) | exact Or.inr rfl | exact rfl | exact ⟨rfl, rfl⟩ | exact Or.inr ⟨rfl, rfl, rfl⟩ | exact Or.inr ⟨rfl, rfl⟩ | exact Or.inr ⟨rfl, rfl, rfl, rfl⟩ | skip)

theorem setSelBase_keeps (v : ℕ) (o : Origin) (s : State) (hm₀ : Part.among [.tim] K = true) (h₀ : Keeps K s₀ s) :
    Keeps K s₀ (setSelBase v o s) := by
  refine Keeps.after ?_ hm₀ h₀
  clear hm₀ h₀
  unfold setSelBase
  repeat' first
    | with_reducible exact Keeps.refl _ _
    | with_reducible refine Keeps.ite ?_ ?_
    | (with_reducible apply atTick_keeps; decide)
    | split
    | (with_reducible apply Keeps.upd
       all_goals with_reducible first | exact Or.inl (by decide) | exact Or.inr rfl | exact rfl | exact ⟨rfl, rfl⟩ | exact Or.inr ⟨rfl, rfl, rfl⟩ | exact Or.inr ⟨rfl, rfl⟩ | exact Or.inr ⟨rfl, rfl, rfl, rfl⟩ | skip)

theorem setSpread_keeps (g : ℕ) (spread : ℕ) (rate : ℕ) (s : State) (hm₀ : Part.among [.tlk] K = true) (h₀ : Keeps K s₀ s) :
    Keeps K s₀ (setSpread g spread rate s) := by
  refine Keeps.after ?_ hm₀ h₀
  clear hm₀ h₀
  unfold setSpread
  repeat' first
    | (extract_lets +onlyGivenNames t
       first
         | (refine Keeps.cut (t := t) ?_ (fun ht => ?_)
            on_goal 2 => clear_value t
            subst t)
         | skip)
    | with_reducible exact Keeps.refl _ _
    | with_reducible assumption
    | with_reducible refine Keeps.ite ?_ ?_
    | (with_reducible apply setGroup_keeps; decide)
    | split
    | (with_reducible apply Keeps.upd
       all_goals with_reducible first | exact Or.inl (by decide) | exact Or.inr rfl | exact rfl | exact ⟨rfl, rfl⟩ | exact Or.inr ⟨rfl, rfl, rfl⟩ | exact Or.inr ⟨rfl, rfl⟩ | exact Or.inr ⟨rfl, rfl, rfl, rfl⟩ | skip)

theorem unretire_keeps (k : ℕ) (o : Origin) (s : State) (hm₀ : Part.among [.ray, .dec, .dmc, .bureau, .pwr, .spr] K = true) (h₀ : Keeps K s₀ s) :
    Keeps K s₀ (unretire k o s) := by
  refine Keeps.after ?_ hm₀ h₀
  clear hm₀ h₀
  unfold unretire
  repeat' first
    | (extract_lets +onlyGivenNames t
       first
         | (refine Keeps.cut (t := t) ?_ (fun ht => ?_)
            on_goal 2 => clear_value t
            subst t)
         | skip)
    | with_reducible exact Keeps.refl _ _
    | with_reducible assumption
    | with_reducible refine Keeps.ite ?_ ?_
    | with_reducible refine Keeps.ifEvent ?_ ?_
    | (with_reducible apply returnCluster_keeps; decide)
    | (with_reducible apply replenish_keeps; decide)
    | (with_reducible apply readyCore_keeps; decide)
    | (with_reducible apply setSite_keeps; decide)
    | (with_reducible apply log_keeps; decide)
    | split
    | (with_reducible apply Keeps.upd
       all_goals with_reducible first | exact Or.inl (by decide) | exact Or.inr rfl | exact rfl | exact ⟨rfl, rfl⟩ | exact Or.inr ⟨rfl, rfl, rfl⟩ | exact Or.inr ⟨rfl, rfl⟩ | exact Or.inr ⟨rfl, rfl, rfl, rfl⟩ | skip)

/-- What a parameter of each service may write. -/
def paramParts (service : Nat) : List Part :=
  match service with
  | 0x01 => [.tlk, .blt, .dmc]
  | 0x02 => [.tim]
  | 0x04 => [.tim]
  | 0x06 => [.enc, .walec]
  | 0x07 => [.out]
  | 0x09 => [.out]
  | 0x0B => [.tim, .bases, .eth, .sent]
  | 0x0C => [.out, .thm]
  | 0x0D => [.ray, .dec, .dmc, .bureau, .pwr, .spr]
  | 0x0F => [.owners]
  | _ => []

/-- Setting the parameter keeps everything but these parts. -/
def Param.Keeps (l : List Part) (p : Param) : Prop := ∀ v o t, Machine.Keeps l t (p.put v o t)

theorem deviceParam_keeps {s : State} {id ix : Nat} {p : Param} (h : deviceParam s id ix = some p) : p.Keeps [.tlk, .blt, .dmc] := by
  unfold deviceParam at h
  extract_lets x set at h
  split at h <;> try split at h
  all_goals try (cases h; done)
  all_goals
    cases h
    intro v o t
    dsimp only
    with_reducible first
      | exact setGroup_keeps _ _ _ (by decide) (Keeps.refl _ _)
      | exact setSpread_keeps _ _ _ _ (by decide) (Keeps.refl _ _)
      | exact retrainGroup_keeps _ _ (by decide) (Keeps.refl _ _)
      | exact Keeps.blt_set _ (by decide) (Keeps.refl _ _)
      | exact Keeps.dmc_set _ rfl rfl (by decide) (Keeps.refl _ _)

theorem modeParam_keeps {s : State} {id ix : Nat} {p : Param} (h : modeParam s id ix = some p) : p.Keeps [.tim] := by
  unfold modeParam at h
  split at h <;> cases h
  exact fun v o t => atTick_keeps _ _ _ (by decide) (Keeps.refl _ _)

theorem sceneParam_keeps {s : State} {id ix : Nat} {p : Param} (h : sceneParam s id ix = some p) : p.Keeps [.tim] := by
  unfold sceneParam at h
  split at h <;> cases h
  exact fun v o t => atTick_keeps _ _ _ (by decide) (Keeps.refl _ _)

theorem mapParam_keeps {s : State} {id ix : Nat} {p : Param} (h : mapParam s id ix = some p) : p.Keeps [.out] := by
  unfold mapParam at h
  extract_lets x at h
  split at h <;> cases h
  exact fun v o t => setBright_keeps _ _ _ (by decide) (Keeps.refl _ _)

theorem stressParam_keeps {s : State} {id ix : Nat} {p : Param} (h : stressParam s id ix = some p) : p.Keeps [.out] := by
  unfold stressParam at h
  split at h <;> cases h <;> exact fun v o t => Keeps.out_set _ (by decide) (Keeps.refl _ _)

theorem witnessParam_keeps {s : State} {id ix : Nat} {p : Param} (h : witnessParam s id ix = some p) : p.Keeps [.enc, .walec] := by
  unfold witnessParam encParam at h
  extract_lets q at h
  split at h <;> try split at h
  all_goals try (cases h; done)
  any_goals split at h
  all_goals
    cases h
    try (intro v o t
         dsimp only
         with_reducible first
           | exact Keeps.enc_set _ (by decide) (Keeps.refl _ _)
           | exact Keeps.walec_set _ (by decide) (Keeps.refl _ _)
           | exact setEnc_keeps _ _ (by decide) (Keeps.refl _ _))

theorem timePortParam_keeps {s : State} {id ix : Nat} {p : Param} (h : timePortParam s id ix = some p) : p.Keeps [.tim, .bases, .eth, .sent] := by
  unfold timePortParam portParam at h
  extract_lets x at h
  split at h <;> try split at h
  all_goals
    cases h
    try exact fun v o t => setEth_keeps _ _ _ (by decide) (Keeps.refl _ _)

theorem timeParam_keeps {s : State} {id ix : Nat} {p : Param} (h : timeParam s id ix = some p) : p.Keeps [.tim, .bases, .eth, .sent] := by
  unfold timeParam at h
  extract_lets x y at h
  split at h
  · exact timePortParam_keeps h
  · unfold timParam ptpParam ptpAnew at h
    split at h
    all_goals first
      | exact timePortParam_keeps h
      | (cases h
         intro v o t
         dsimp only
         with_reducible first
           | exact Keeps.tim_set _ rfl (by decide) (Keeps.refl _ _)
           | exact Keeps.eth_set _ (by decide) (Keeps.refl _ _)
           | exact beginPtp_keeps _ (by decide) (Keeps.eth_set _ (by decide) (Keeps.refl _ _))
           | exact setSelBase_keeps _ _ _ (by decide) (Keeps.refl _ _))

theorem thermGroupParam_keeps {s : State} {id ix : Nat} {p : Param} (h : thermGroupParam s id ix = some p) : p.Keeps [.out, .thm] := by
  unfold thermGroupParam groupParam at h
  extract_lets x y at h
  split at h <;> try split at h
  all_goals
    cases h
    try exact fun v o t => setTempGroup_keeps _ _ _ (by decide) (Keeps.refl _ _)

theorem thermParam_keeps {s : State} {id ix : Nat} {p : Param} (h : thermParam s id ix = some p) : p.Keeps [.out, .thm] := by
  unfold thermParam sensorParam at h
  extract_lets x at h
  split at h
  all_goals first
    | exact thermGroupParam_keeps h
    | (try split at h
       all_goals
         cases h
         try (intro v o t
              dsimp only
              with_reducible first
                | exact setLimit_keeps _ _ (by decide) (Keeps.refl _ _)
                | exact setSensor_keeps _ _ _ (by decide) (Keeps.refl _ _)
                | exact setPartner_keeps _ _ _ (by decide) (Keeps.refl _ _)
                | exact Keeps.thm_set _ (by decide) (Keeps.refl _ _)))

theorem spareParam_keeps {s : State} {id ix : Nat} {p : Param} (h : spareParam s id ix = some p) : p.Keeps [.ray, .dec, .dmc, .bureau, .pwr, .spr] := by
  unfold spareParam at h
  extract_lets one at h
  split at h
  all_goals
    try dsimp only [one] at h
    try split at h
    all_goals
      cases h
      try (intro v o t
           dsimp only
           with_reducible first
             | exact Keeps.spr_set _ (by decide) (Keeps.refl _ _)
             | exact Keeps.dmc_set _ rfl rfl (by decide) (Keeps.refl _ _)
             | exact unretire_keeps _ _ _ (by decide) (Keeps.refl _ _))

theorem Keeps.lease_set {K : List Part} {s₀ s : State} (v : Nat) (hm₀ : Part.among [.owners] K = true) (h₀ : Keeps K s₀ s) :
    Keeps K s₀ { s with hif := { s.hif with leaseMs := v } } :=
  Keeps.part (s := s) .owners (fun p hp => by cases p <;> first | exact absurd (by decide) hp | exact rfl | exact ⟨rfl, rfl⟩ | exact ⟨rfl, rfl, rfl⟩ | exact ⟨rfl, rfl, rfl, rfl⟩)
    rfl rfl rfl hm₀ h₀

theorem rightsParam_keeps {s : State} {id ix : Nat} {p : Param} (h : rightsParam s id ix = some p) : p.Keeps [.owners] := by
  unfold rightsParam at h
  split at h <;> try split at h
  all_goals
    cases h
    try (intro v o t
         dsimp only
         with_reducible first
           | exact setOwner_keeps _ _ _ (by decide) (Keeps.refl _ _)
           | exact Keeps.lease_set _ (by decide) (Keeps.refl _ _))

theorem Keeps.more {l m : List Part} {s t : State} (h : Machine.Keeps m s t) (hm : Part.among m l = true) : Machine.Keeps l s t :=
  Keeps.after h hm (Keeps.refl l s)

theorem paramOf_keeps {s : State} {service id ix : Nat} {p : Param} (h : paramOf s service id ix = some p) : p.Keeps (paramParts service) := by
  unfold paramOf at h
  unfold paramParts
  split at h
  · exact deviceParam_keeps h
  · exact modeParam_keeps h
  · exact sceneParam_keeps h
  · exact witnessParam_keeps h
  · exact mapParam_keeps h
  · exact stressParam_keeps h
  · exact timeParam_keeps h
  · exact thermParam_keeps h
  · exact spareParam_keeps h
  · exact rightsParam_keeps h
  · cases h

theorem putParam_keeps (service verb id ix v : Nat) (o : Origin) (s : State) (hm₀ : Part.among (.bureau :: paramParts service) K = true)
    (h₀ : Keeps K s₀ s) : Keeps K s₀ (putParam service verb id ix v o s).2 := by
  unfold putParam
  have hb : Part.among [.bureau] K = true := by simp_all [Part.among]
  have hp : Part.among (paramParts service) K = true := by simp_all [Part.among]
  split
  · exact h₀
  · rename_i p hpar
    repeat' split
    all_goals first | exact h₀ | skip
    exact serviceWrite_keeps _ _ _ _ _ _ _ _ hb (Keeps.after (paramOf_keeps hpar _ _ _) hp h₀)

end Sys2Proof.Machine
end

