-- ==== Sys2Proof/Laws/KeepsStart.lean ====
section
/-! SUPPORT. What the operations of Machine/Start.lean may change: one lemma each, which says that the
parts it does not name, the form of the DRAM, the Bureau's chain and the queue are kept. -/

open Host

set_option linter.unusedTactic false
set_option linter.unreachableTactic false
set_option linter.tactic.unusedName false

namespace Sys2Proof.Machine

variable {K : List Part} {s₀ : State}

theorem bootGeom_keeps (bad : List ℕ) (v : ℕ) (f : Bytes) (s : State) (hm₀ : Part.among [.geom, .tim] K = true) (h₀ : Keeps K s₀ s) :
    Keeps K s₀ (bootGeom bad v f s) := by
  refine Keeps.after ?_ hm₀ h₀
  clear hm₀ h₀
  unfold bootGeom
  repeat' first
    | (extract_lets +onlyGivenNames t
       first
         | (refine Keeps.cut (t := t) ?_ (fun ht => ?_)
            on_goal 2 => clear_value t
            subst t)
         | skip)
    | with_reducible exact Keeps.refl _ _
    | with_reducible assumption
    | with_reducible refine Keeps.ite ?_ ?_
    | with_reducible refine Keeps.ifEvent ?_ ?_
    | (with_reducible apply loadGeomFile_keeps; decide)
    | (with_reducible apply plan_keeps; decide)
    | split
    | (with_reducible apply Keeps.upd
       all_goals with_reducible first | exact Or.inl (by decide) | exact Or.inr rfl | exact rfl | exact ⟨rfl, rfl⟩ | exact Or.inr ⟨rfl, rfl, rfl⟩ | exact Or.inr ⟨rfl, rfl⟩ | exact Or.inr ⟨rfl, rfl, rfl, rfl⟩ | skip)

theorem eraseSlot_keeps (k : ℕ) (s : State) (hm₀ : Part.among [.thm, .drawn] K = true) (h₀ : Keeps K s₀ s) :
    Keeps K s₀ (eraseSlot k s) := by
  refine Keeps.after ?_ hm₀ h₀
  clear hm₀ h₀
  unfold eraseSlot
  repeat' first
    | (extract_lets +onlyGivenNames t
       first
         | (refine Keeps.cut (t := t) ?_ (fun ht => ?_)
            on_goal 2 => clear_value t
            subst t)
         | skip)
    | with_reducible exact Keeps.refl _ _
    | with_reducible assumption
    | with_reducible refine Keeps.ite ?_ ?_
    | with_reducible refine Keeps.ifEvent ?_ ?_
    | (with_reducible apply drew_keeps; decide)
    | split
    | (with_reducible apply Keeps.upd
       all_goals with_reducible first | exact Or.inl (by decide) | exact Or.inr rfl | exact rfl | exact ⟨rfl, rfl⟩ | exact Or.inr ⟨rfl, rfl, rfl⟩ | exact Or.inr ⟨rfl, rfl⟩ | exact Or.inr ⟨rfl, rfl, rfl, rfl⟩ | skip)

theorem foundRecord_keeps (k : ℕ) (b : Bytes) (torn : Bool) (s : State) (hm₀ : Part.among [.bureau, .thm] K = true) (h₀ : Keeps K s₀ s) :
    Keeps K s₀ (foundRecord k b torn s) := by
  refine Keeps.after ?_ hm₀ h₀
  clear hm₀ h₀
  unfold foundRecord
  repeat' first
    | with_reducible exact Keeps.refl _ _
    | with_reducible assumption
    | with_reducible refine Keeps.ite ?_ ?_
    | with_reducible refine Keeps.ifEvent ?_ ?_
    | (with_reducible apply log_keeps; decide)
    | split
    | (with_reducible apply Keeps.upd
       all_goals with_reducible first | exact Or.inl (by decide) | exact Or.inr rfl | exact rfl | exact ⟨rfl, rfl⟩ | exact Or.inr ⟨rfl, rfl, rfl⟩ | exact Or.inr ⟨rfl, rfl⟩ | exact Or.inr ⟨rfl, rfl, rfl, rfl⟩ | skip)

theorem drawPlace_keeps (size : ℕ) (s : State) (hm₀ : Part.among [.drawn] K = true) (h₀ : Keeps K s₀ s) :
    Keeps K s₀ (drawPlace size s).2 := by
  refine Keeps.after ?_ hm₀ h₀
  clear hm₀ h₀
  unfold drawPlace
  repeat' first
    | with_reducible exact Keeps.refl _ _
    | with_reducible assumption
    | with_reducible refine Keeps.ite ?_ ?_
    | with_reducible refine Keeps.ifEvent ?_ ?_
    | (with_reducible apply drew_keeps; decide)
    | split
    | (with_reducible apply Keeps.upd
       all_goals with_reducible first | exact Or.inl (by decide) | exact Or.inr rfl | exact rfl | exact ⟨rfl, rfl⟩ | exact Or.inr ⟨rfl, rfl, rfl⟩ | exact Or.inr ⟨rfl, rfl⟩ | exact Or.inr ⟨rfl, rfl, rfl, rfl⟩ | skip)

theorem placeArea_keeps (k : ℕ) (size : ℕ) (s : State) (hm₀ : Part.among [.dmc, .drawn] K = true) (h₀ : Keeps K s₀ s) :
    Keeps K s₀ (placeArea k size s) := by
  refine Keeps.after ?_ hm₀ h₀
  exact Keeps.dmc_set _ rfl rfl (by decide) (drawPlace_keeps _ _ (by decide) (Keeps.refl _ _))

theorem placeLedger_keeps (copy : ℕ) (site : ℕ) (s : State) (hm₀ : Part.among [.dmc, .drawn] K = true) (h₀ : Keeps K s₀ s) :
    Keeps K s₀ (placeLedger copy site s) := by
  refine Keeps.after ?_ hm₀ h₀
  clear hm₀ h₀
  unfold placeLedger
  repeat' first
    | with_reducible exact Keeps.refl _ _
    | with_reducible assumption
    | with_reducible refine Keeps.ite ?_ ?_
    | with_reducible refine Keeps.ifEvent ?_ ?_
    | (with_reducible apply drew_keeps; decide)
    | split
    | (with_reducible apply Keeps.upd
       all_goals with_reducible first | exact Or.inl (by decide) | exact Or.inr rfl | exact rfl | exact ⟨rfl, rfl⟩ | exact Or.inr ⟨rfl, rfl, rfl⟩ | exact Or.inr ⟨rfl, rfl⟩ | exact Or.inr ⟨rfl, rfl, rfl, rfl⟩ | skip)

theorem placeLedgers_keeps (s : State) (hm₀ : Part.among [.dmc, .drawn] K = true) (h₀ : Keeps K s₀ s) :
    Keeps K s₀ (placeLedgers s) := by
  refine Keeps.after ?_ hm₀ h₀
  clear hm₀ h₀
  unfold placeLedgers
  repeat' first
    | (extract_lets +onlyGivenNames t
       first
         | (refine Keeps.cut (t := t) ?_ (fun ht => ?_)
            on_goal 2 => clear_value t
            subst t)
         | skip)
    | with_reducible exact Keeps.refl _ _
    | with_reducible assumption
    | with_reducible refine Keeps.ite ?_ ?_
    | with_reducible refine Keeps.ifEvent ?_ ?_
    | (with_reducible apply placeLedger_keeps; decide)
    | (with_reducible apply drew_keeps; decide)
    | split
    | (with_reducible apply Keeps.upd
       all_goals with_reducible first | exact Or.inl (by decide) | exact Or.inr rfl | exact rfl | exact ⟨rfl, rfl⟩ | exact Or.inr ⟨rfl, rfl, rfl⟩ | exact Or.inr ⟨rfl, rfl⟩ | exact Or.inr ⟨rfl, rfl, rfl, rfl⟩ | skip)

theorem placeAreas_keeps (s : State) (hm₀ : Part.among [.dmc, .drawn] K = true) (h₀ : Keeps K s₀ s) :
    Keeps K s₀ (placeAreas s) := by
  refine Keeps.after ?_ hm₀ h₀
  clear hm₀ h₀
  unfold placeAreas
  repeat' first
    | (extract_lets +onlyGivenNames t
       first
         | (refine Keeps.cut (t := t) ?_ (fun ht => ?_)
            on_goal 2 => clear_value t
            subst t)
         | skip)
    | with_reducible exact Keeps.refl _ _
    | with_reducible assumption
    | with_reducible refine Keeps.ite ?_ ?_
    | with_reducible refine Keeps.ifEvent ?_ ?_
    | (with_reducible apply placeLedgers_keeps; decide)
    | (with_reducible apply placeArea_keeps; decide)
    | (with_reducible apply drew_keeps; decide)
    | split
    | (with_reducible apply Keeps.upd
       all_goals with_reducible first | exact Or.inl (by decide) | exact Or.inr rfl | exact rfl | exact ⟨rfl, rfl⟩ | exact Or.inr ⟨rfl, rfl, rfl⟩ | exact Or.inr ⟨rfl, rfl⟩ | exact Or.inr ⟨rfl, rfl, rfl, rfl⟩ | skip)

theorem advanceRollback_keeps (s : State) (hm₀ : Part.among [.bureau, .bot] K = true) (h₀ : Keeps K s₀ s) :
    Keeps K s₀ (advanceRollback s) := by
  refine Keeps.after ?_ hm₀ h₀
  clear hm₀ h₀
  unfold advanceRollback
  repeat' first
    | (extract_lets +onlyGivenNames t
       first
         | (refine Keeps.cut (t := t) ?_ (fun ht => ?_)
            on_goal 2 => clear_value t
            subst t)
         | skip)
    | with_reducible exact Keeps.refl _ _
    | with_reducible assumption
    | with_reducible refine Keeps.ite ?_ ?_
    | (with_reducible apply log_keeps; decide)
    | split
    | (with_reducible apply Keeps.upd
       all_goals with_reducible first | exact Or.inl (by decide) | exact Or.inr rfl | exact rfl | exact ⟨rfl, rfl⟩ | exact Or.inr ⟨rfl, rfl, rfl⟩ | exact Or.inr ⟨rfl, rfl⟩ | exact Or.inr ⟨rfl, rfl, rfl, rfl⟩ | skip)

theorem bootEvents_keeps (s : State) (hm₀ : Part.among [.bureau, .bot] K = true) (h₀ : Keeps K s₀ s) :
    Keeps K s₀ (bootEvents s) := by
  refine Keeps.after ?_ hm₀ h₀
  clear hm₀ h₀
  unfold bootEvents
  repeat' first
    | with_reducible exact Keeps.refl _ _
    | with_reducible refine Keeps.ite ?_ ?_
    | with_reducible refine Keeps.foldl (fun t x => ?_) ?_
    | (with_reducible apply log_keeps; decide)
    | split
    | (with_reducible apply Keeps.upd
       all_goals with_reducible first | exact Or.inl (by decide) | exact Or.inr rfl | exact rfl | exact ⟨rfl, rfl⟩ | exact Or.inr ⟨rfl, rfl, rfl⟩ | exact Or.inr ⟨rfl, rfl⟩ | exact Or.inr ⟨rfl, rfl, rfl, rfl⟩ | skip)

theorem bootParam_keeps (s : State) (e : Nat × Nat × Nat × Nat)
    (hm₀ : Part.among [.ray, .tim, .bases, .eth, .out, .tlk, .dec, .enc, .blt, .dmc, .owners, .walec, .bureau, .pwr, .thm, .spr, .sent] K = true)
    (h₀ : Keeps K s₀ s) : Keeps K s₀ (bootParam s e) := by
  unfold bootParam
  split
  · exact h₀
  · rename_i p hpar
    split
    · refine Keeps.after (paramOf_keeps hpar _ _ _) ?_ h₀
      have hsub : Part.among (paramParts e.1) [.ray, .tim, .bases, .eth, .out, .tlk, .dec, .enc, .blt, .dmc, .owners, .walec, .bureau, .pwr, .thm, .spr, .sent] = true := by
        unfold paramParts
        split <;> decide
      simp only [Part.among, List.all_eq_true, decide_eq_true_eq] at hsub hm₀ ⊢
      exact fun q hq => hm₀ q (hsub q hq)
    · exact h₀

theorem bootInstall_keeps (s : State) (hm₀ : Part.among [.ray, .tim, .bases, .eth, .out, .tlk, .dec, .enc, .blt, .dmc, .owners, .walec, .bureau, .pwr, .thm, .spr, .sent] K = true) (h₀ : Keeps K s₀ s) :
    Keeps K s₀ (bootInstall s) := by
  refine Keeps.after ?_ hm₀ h₀
  clear hm₀ h₀
  unfold bootInstall
  repeat' first
    | with_reducible exact Keeps.refl _ _
    | with_reducible refine Keeps.foldl (fun t x => ?_) ?_
    | (with_reducible apply setEth_keeps; decide)
    | (with_reducible apply bootParam_keeps; decide)
    | split
    | (with_reducible apply Keeps.upd
       all_goals with_reducible first | exact Or.inl (by decide) | exact Or.inr rfl | exact rfl | exact ⟨rfl, rfl⟩ | exact Or.inr ⟨rfl, rfl, rfl⟩ | exact Or.inr ⟨rfl, rfl⟩ | exact Or.inr ⟨rfl, rfl, rfl, rfl⟩ | skip)

theorem bootLedger_keeps (s : State) (hm₀ : Part.among [.out, .dfl, .bureau] K = true) (h₀ : Keeps K s₀ s) :
    Keeps K s₀ (bootLedger s) := by
  refine Keeps.after ?_ hm₀ h₀
  clear hm₀ h₀
  unfold bootLedger
  repeat' first
    | (extract_lets +onlyGivenNames t
       first
         | (refine Keeps.cut (t := t) ?_ (fun ht => ?_)
            on_goal 2 => clear_value t
            subst t)
         | skip)
    | with_reducible exact Keeps.refl _ _
    | with_reducible assumption
    | with_reducible refine Keeps.ite ?_ ?_
    | with_reducible refine Keeps.ifEvent ?_ ?_
    | (with_reducible apply internalJob_keeps; decide)
    | (with_reducible apply log_keeps; decide)
    | split
    | (with_reducible apply Keeps.upd
       all_goals with_reducible first | exact Or.inl (by decide) | exact Or.inr rfl | exact rfl | exact ⟨rfl, rfl⟩ | exact Or.inr ⟨rfl, rfl, rfl⟩ | exact Or.inr ⟨rfl, rfl⟩ | exact Or.inr ⟨rfl, rfl, rfl, rfl⟩ | skip)

theorem bootPlaces_keeps (s : State) (hm₀ : Part.among [.ray, .dec, .dfl, .dmc, .drawn] K = true) (h₀ : Keeps K s₀ s) :
    Keeps K s₀ (bootPlaces s) := by
  refine Keeps.after ?_ hm₀ h₀
  clear hm₀ h₀
  unfold bootPlaces
  repeat' first
    | (extract_lets +onlyGivenNames t
       first
         | (refine Keeps.cut (t := t) ?_ (fun ht => ?_)
            on_goal 2 => clear_value t
            subst t)
         | skip)
    | with_reducible exact Keeps.refl _ _
    | with_reducible assumption
    | with_reducible refine Keeps.ite ?_ ?_
    | with_reducible refine Keeps.ifEvent ?_ ?_
    | (with_reducible apply placeAreas_keeps; decide)
    | (with_reducible apply drew_keeps; decide)
    | split
    | (with_reducible apply Keeps.upd
       all_goals with_reducible first | exact Or.inl (by decide) | exact Or.inr rfl | exact rfl | exact ⟨rfl, rfl⟩ | exact Or.inr ⟨rfl, rfl, rfl⟩ | exact Or.inr ⟨rfl, rfl⟩ | exact Or.inr ⟨rfl, rfl, rfl, rfl⟩ | skip)

theorem bootSlot_keeps (k : ℕ) (s : State) (hm₀ : Part.among [.bureau, .thm, .bot, .drawn] K = true) (h₀ : Keeps K s₀ s) :
    Keeps K s₀ (bootSlot k s) := by
  refine Keeps.after ?_ hm₀ h₀
  clear hm₀ h₀
  unfold bootSlot
  repeat' first
    | with_reducible exact Keeps.refl _ _
    | with_reducible assumption
    | with_reducible refine Keeps.ite ?_ ?_
    | with_reducible refine Keeps.ifEvent ?_ ?_
    | (with_reducible apply foundRecord_keeps; decide)
    | (with_reducible apply eraseSlot_keeps; decide)
    | (with_reducible apply log_keeps; decide)
    | (with_reducible apply drew_keeps; decide)
    | split
    | (with_reducible apply Keeps.upd
       all_goals with_reducible first | exact Or.inl (by decide) | exact Or.inr rfl | exact rfl | exact ⟨rfl, rfl⟩ | exact Or.inr ⟨rfl, rfl, rfl⟩ | exact Or.inr ⟨rfl, rfl⟩ | exact Or.inr ⟨rfl, rfl, rfl, rfl⟩ | skip)

theorem coldBoot_keeps (s : State) (hm₀ : Part.among [.ray, .tim, .bases, .eth, .out, .tlk, .dec, .enc, .blt, .dfl, .dmc, .drawers, .owners, .walec, .bureau, .pwr, .thm, .spr, .bot, .sent, .drawn] K = true) (h₀ : Keeps K s₀ s) :
    Keeps K s₀ (coldBoot s) := by
  refine Keeps.after ?_ hm₀ h₀
  clear hm₀ h₀
  unfold coldBoot
  repeat' first
    | (extract_lets +onlyGivenNames t
       first
         | (refine Keeps.cut (t := t) ?_ (fun ht => ?_)
            on_goal 2 => clear_value t
            subst t)
         | skip)
    | with_reducible exact Keeps.refl _ _
    | with_reducible assumption
    | (with_reducible apply bootLedger_keeps; decide)
    | (with_reducible apply bootEvents_keeps; decide)
    | (with_reducible apply bootSlot_keeps; decide)
    | (with_reducible apply bootPlaces_keeps; decide)
    | (with_reducible apply bootInstall_keeps; decide)
    | (with_reducible apply bootClasses_keeps; decide)
    | (with_reducible apply drew_keeps; decide)
    | (with_reducible apply Keeps.upd
       all_goals with_reducible first | exact Or.inl (by decide) | exact Or.inr rfl | exact rfl | exact ⟨rfl, rfl⟩ | exact Or.inr ⟨rfl, rfl, rfl⟩ | exact Or.inr ⟨rfl, rfl⟩ | exact Or.inr ⟨rfl, rfl, rfl, rfl⟩ | skip)

theorem loadDevices_keeps (r : InstallRecord) (s : State) (hm₀ : Part.among [.pwr] K = true) (h₀ : Keeps K s₀ s) :
    Keeps K s₀ (loadDevices r s) := by
  refine Keeps.after ?_ hm₀ h₀
  clear hm₀ h₀
  unfold loadDevices
  repeat' first
    | with_reducible exact Keeps.refl _ _
    | (with_reducible apply Keeps.upd
       all_goals with_reducible first | exact Or.inl (by decide) | exact Or.inr rfl | exact rfl | exact ⟨rfl, rfl⟩ | exact Or.inr ⟨rfl, rfl, rfl⟩ | exact Or.inr ⟨rfl, rfl⟩ | exact Or.inr ⟨rfl, rfl, rfl, rfl⟩ | skip)

theorem confirmWith_keeps (r : InstallRecord) (s : State) (hm₀ : Part.among [.tim, .pwr, .sent] K = true) (h₀ : Keeps K s₀ s) :
    Keeps K s₀ (confirmWith r s) := by
  refine Keeps.after ?_ hm₀ h₀
  clear hm₀ h₀
  unfold confirmWith
  repeat' first
    | (extract_lets +onlyGivenNames t
       first
         | (refine Keeps.cut (t := t) ?_ (fun ht => ?_)
            on_goal 2 => clear_value t
            subst t)
         | skip)
    | with_reducible exact Keeps.refl _ _
    | with_reducible assumption
    | with_reducible refine Keeps.foldl (fun t x => ?_) ?_
    | (with_reducible apply loadDevices_keeps; decide)
    | (with_reducible apply supplyOn_keeps; decide)
    | (with_reducible apply requestDomains_keeps; decide)
    | split
    | (with_reducible apply Keeps.upd
       all_goals with_reducible first | exact Or.inl (by decide) | exact Or.inr rfl | exact rfl | exact ⟨rfl, rfl⟩ | exact Or.inr ⟨rfl, rfl, rfl⟩ | exact Or.inr ⟨rfl, rfl⟩ | exact Or.inr ⟨rfl, rfl, rfl, rfl⟩ | skip)

theorem keepEvent_keeps (code : ℕ) (v : ℕ) (s : State) (hm₀ : Part.among [.bot] K = true) (h₀ : Keeps K s₀ s) :
    Keeps K s₀ (keepEvent code v s) := by
  refine Keeps.after ?_ hm₀ h₀
  clear hm₀ h₀
  unfold keepEvent
  repeat' first
    | with_reducible exact Keeps.refl _ _
    | with_reducible refine Keeps.ite ?_ ?_
    | split
    | (with_reducible apply Keeps.upd
       all_goals with_reducible first | exact Or.inl (by decide) | exact Or.inr rfl | exact rfl | exact ⟨rfl, rfl⟩ | exact Or.inr ⟨rfl, rfl, rfl⟩ | exact Or.inr ⟨rfl, rfl⟩ | exact Or.inr ⟨rfl, rfl, rfl, rfl⟩ | skip)

theorem declareReady_keeps (s : State) (hm₀ : Part.among [.ports, .health, .walec, .bureau, .bot, .sent] K = true) (h₀ : Keeps K s₀ s) :
    Keeps K s₀ (declareReady s) := by
  refine Keeps.after ?_ hm₀ h₀
  clear hm₀ h₀
  unfold declareReady
  repeat' first
    | (extract_lets +onlyGivenNames t
       first
         | (refine Keeps.cut (t := t) ?_ (fun ht => ?_)
            on_goal 2 => clear_value t
            subst t)
         | skip)
    | with_reducible exact Keeps.refl _ _
    | with_reducible assumption
    | with_reducible refine Keeps.ite ?_ ?_
    | with_reducible refine Keeps.ifEvent ?_ ?_
    | with_reducible refine Keeps.elim ?_ (fun a => ?_)
    | (with_reducible apply keepEvent_keeps; decide)
    | (with_reducible apply setWalec_keeps; decide)
    | (with_reducible apply log_keeps; decide)
    | (with_reducible apply raiseUp_keeps; decide)
    | split
    | (with_reducible apply Keeps.upd
       all_goals with_reducible first | exact Or.inl (by decide) | exact Or.inr rfl | exact rfl | exact ⟨rfl, rfl⟩ | exact Or.inr ⟨rfl, rfl, rfl⟩ | exact Or.inr ⟨rfl, rfl⟩ | exact Or.inr ⟨rfl, rfl, rfl, rfl⟩ | skip)

theorem writeHeader_keeps (image : ℕ) (trial : Bool) (s : State) (hm₀ : Part.among [.bot] K = true) (h₀ : Keeps K s₀ s) :
    Keeps K s₀ (writeHeader image trial s) := by
  refine Keeps.after ?_ hm₀ h₀
  clear hm₀ h₀
  unfold writeHeader
  repeat' first
    | (extract_lets +onlyGivenNames t
       first
         | (refine Keeps.cut (t := t) ?_ (fun ht => ?_)
            on_goal 2 => clear_value t
            subst t)
         | skip)
    | with_reducible exact Keeps.refl _ _
    | with_reducible assumption
    | with_reducible refine Keeps.elim ?_ (fun a => ?_)
    | (with_reducible apply Keeps.upd
       all_goals with_reducible first | exact Or.inl (by decide) | exact Or.inr rfl | exact rfl | exact ⟨rfl, rfl⟩ | exact Or.inr ⟨rfl, rfl, rfl⟩ | exact Or.inr ⟨rfl, rfl⟩ | exact Or.inr ⟨rfl, rfl, rfl, rfl⟩ | skip)

theorem resumeCopy_keeps (s : State) (hm₀ : Part.among [.dmc] K = true) (h₀ : Keeps K s₀ s) :
    Keeps K s₀ (resumeCopy s) := by
  refine Keeps.after ?_ hm₀ h₀
  clear hm₀ h₀
  unfold resumeCopy
  repeat' first
    | with_reducible exact Keeps.refl _ _
    | with_reducible refine Keeps.ite ?_ ?_
    | (with_reducible apply startCopy_keeps; decide)
    | split

theorem returnMode_keeps (s : State) (hm₀ : Part.among [.tim] K = true) (h₀ : Keeps K s₀ s) :
    Keeps K s₀ (returnMode s) := by
  refine Keeps.after ?_ hm₀ h₀
  clear hm₀ h₀
  unfold returnMode
  repeat' first
    | (extract_lets +onlyGivenNames t
       first
         | (refine Keeps.cut (t := t) ?_ (fun ht => ?_)
            on_goal 2 => clear_value t
            subst t)
         | skip)
    | with_reducible exact Keeps.refl _ _
    | with_reducible assumption
    | with_reducible refine Keeps.ite ?_ ?_
    | with_reducible refine Keeps.elim ?_ (fun a => ?_)
    | (with_reducible apply plan_keeps; decide)
    | split

theorem replaceRetired_keeps (r : ℕ) (s : State) (hm₀ : Part.among [.ray, .ports, .pins, .sent] K = true) (h₀ : Keeps K s₀ s) :
    Keeps K s₀ (replaceRetired r s) := by
  refine Keeps.after ?_ hm₀ h₀
  clear hm₀ h₀
  unfold replaceRetired
  repeat' first
    | (extract_lets +onlyGivenNames t
       first
         | (refine Keeps.cut (t := t) ?_ (fun ht => ?_)
            on_goal 2 => clear_value t
            subst t)
         | skip)
    | with_reducible exact Keeps.refl _ _
    | with_reducible assumption
    | with_reducible refine Keeps.ite ?_ ?_
    | (with_reducible apply reserveSpare_keeps; decide)
    | (with_reducible apply assertFault_keeps; decide)
    | (with_reducible apply setRow_keeps; decide)
    | split
    | (with_reducible apply Keeps.upd
       all_goals with_reducible first | exact Or.inl (by decide) | exact Or.inr rfl | exact rfl | exact ⟨rfl, rfl⟩ | exact Or.inr ⟨rfl, rfl, rfl⟩ | exact Or.inr ⟨rfl, rfl⟩ | exact Or.inr ⟨rfl, rfl, rfl, rfl⟩ | skip)

theorem startRaster.replaceAll_keeps (s : State) (hm₀ : Part.among [.ray, .ports, .pins, .sent] K = true) (h₀ : Keeps K s₀ s) :
    Keeps K s₀ (startRaster.replaceAll s) := by
  refine Keeps.after ?_ hm₀ h₀
  clear hm₀ h₀
  unfold startRaster.replaceAll
  repeat' first
    | (extract_lets +onlyGivenNames t
       first
         | (refine Keeps.cut (t := t) ?_ (fun ht => ?_)
            on_goal 2 => clear_value t
            subst t)
         | skip)
    | with_reducible exact Keeps.refl _ _
    | with_reducible assumption
    | with_reducible refine checked_keeps ?_ ?_
    | with_reducible refine refuse_keeps ?_
    | with_reducible refine Keeps.ite ?_ ?_
    | with_reducible refine Keeps.ifEvent ?_ ?_
    | with_reducible refine Keeps.foldl (fun t x => ?_) ?_
    | with_reducible refine Keeps.elim ?_ (fun a => ?_)
    | (with_reducible apply replaceRetired_keeps; decide)
    | split
    | (with_reducible apply Keeps.upd
       all_goals with_reducible first | exact Or.inl (by decide) | exact Or.inr rfl | exact rfl | exact ⟨rfl, rfl⟩ | exact Or.inr ⟨rfl, rfl, rfl⟩ | exact Or.inr ⟨rfl, rfl⟩ | exact Or.inr ⟨rfl, rfl, rfl, rfl⟩ | skip)

theorem restoreBrightness_keeps (s : State) (hm₀ : Part.among [.out] K = true) (h₀ : Keeps K s₀ s) :
    Keeps K s₀ (restoreBrightness s) := by
  refine Keeps.after ?_ hm₀ h₀
  clear hm₀ h₀
  unfold restoreBrightness
  repeat' first
    | (extract_lets +onlyGivenNames t
       first
         | (refine Keeps.cut (t := t) ?_ (fun ht => ?_)
            on_goal 2 => clear_value t
            subst t)
         | skip)
    | with_reducible exact Keeps.refl _ _
    | with_reducible assumption
    | with_reducible refine Keeps.elim ?_ (fun a => ?_)
    | (with_reducible apply Keeps.upd
       all_goals with_reducible first | exact Or.inl (by decide) | exact Or.inr rfl | exact rfl | exact ⟨rfl, rfl⟩ | exact Or.inr ⟨rfl, rfl, rfl⟩ | exact Or.inr ⟨rfl, rfl⟩ | exact Or.inr ⟨rfl, rfl, rfl, rfl⟩ | skip)

theorem bootSet_keeps (kind : Nat) (status : State → Bytes → Nat → Status) (active : State → Nat) (take : Nat → Bytes → State → State)
    (s : State) (ht : ∀ v f t, Keeps K t (take v f t)) (h₀ : Keeps K s₀ s) : Keeps K s₀ (bootSet kind status active take s) := by
  unfold bootSet
  split
  · exact h₀
  · split
    · exact Keeps.trans h₀ (ht _ _ _)
    · exact h₀

theorem bootSets_keeps (bad : List Nat) (s : State) (hm₀ : Part.among [.geom, .tim, .out, .dfl] K = true) (h₀ : Keeps K s₀ s) :
    Keeps K s₀ (bootSets bad s) := by
  refine Keeps.after ?_ hm₀ h₀
  clear hm₀ h₀
  unfold bootSets
  extract_lets swap t t1 t2
  have h : Keeps [.geom, .tim, .out, .dfl] s t := bootSet_keeps _ _ _ _ _ (fun v f u => bootGeom_keeps _ _ _ _ (by decide) (Keeps.refl _ _)) (Keeps.refl _ _)
  have h1 : Keeps [.geom, .tim, .out, .dfl] s t1 :=
    bootSet_keeps _ _ _ _ _ (fun v f u => plan_keeps _ _ _ _ (by decide) (loadCurveFile_keeps _ _ (by decide) (Keeps.refl _ _))) h
  have h2 : Keeps [.geom, .tim, .out, .dfl] s t2 := by
    refine Keeps.ite ?_ h1
    exact bootSet_keeps _ _ _ _ _ (fun v f u => plan_keeps _ _ _ _ (by decide) (loadMapFile_keeps _ _ (by decide) (Keeps.refl _ _))) h1
  clear_value t2
  refine Keeps.ite ?_ h2
  exact bootSet_keeps _ _ _ _ _ (fun v f u => takeModel_keeps _ _ _ (by decide) (Keeps.refl _ _)) h2

theorem startRaster_keeps (bad : List ℕ) (mode : ℕ) (s : State) (hm₀ : Part.among [.geom, .ray, .tim, .out, .dfl, .ports, .walec, .bureau, .pwr, .spr, .pins, .sent, .drawn] K = true) (h₀ : Keeps K s₀ s) :
    Keeps K s₀ (startRaster bad mode s) := by
  refine Keeps.after ?_ hm₀ h₀
  clear hm₀ h₀
  unfold startRaster
  repeat' first
    | (extract_lets +onlyGivenNames t
       first
         | (refine Keeps.cut (t := t) ?_ (fun ht => ?_)
            on_goal 2 => clear_value t
            subst t)
         | skip)
    | with_reducible exact Keeps.refl _ _
    | with_reducible assumption
    | with_reducible refine Keeps.ite ?_ ?_
    | with_reducible refine Keeps.ifEvent ?_ ?_
    | with_reducible refine Keeps.foldl (fun t x => ?_) ?_
    | (with_reducible apply startRaster.replaceAll_keeps; decide)
    | (with_reducible apply restoreBrightness_keeps; decide)
    | (with_reducible apply replaceRetired_keeps; decide)
    | (with_reducible apply bootSets_keeps; decide)
    | (with_reducible apply takeGenlock_keeps; decide)
    | (with_reducible apply capsToCeiling_keeps; decide)
    | (with_reducible apply takeBenchDose_keeps; decide)
    | (with_reducible apply benchCpu_keeps; decide)
    | (with_reducible apply log_keeps; decide)
    | (with_reducible apply drew_keeps; decide)
    | split
    | (with_reducible apply Keeps.upd
       all_goals with_reducible first | exact Or.inl (by decide) | exact Or.inr rfl | exact rfl | exact ⟨rfl, rfl⟩ | exact Or.inr ⟨rfl, rfl, rfl⟩ | exact Or.inr ⟨rfl, rfl⟩ | exact Or.inr ⟨rfl, rfl, rfl, rfl⟩ | skip)

theorem rasterStart_keeps (bad : List ℕ) (s : State) (hm₀ : Part.among [.geom, .ray, .tim, .out, .dfl, .dmc, .ports, .walec, .bureau, .pwr, .spr, .pins, .sent, .drawn] K = true) (h₀ : Keeps K s₀ s) :
    Keeps K s₀ (rasterStart bad s) := by
  refine Keeps.after ?_ hm₀ h₀
  clear hm₀ h₀
  unfold rasterStart
  repeat' first
    | with_reducible exact Keeps.refl _ _
    | with_reducible assumption
    | with_reducible refine Keeps.ite ?_ ?_
    | with_reducible refine Keeps.ifEvent ?_ ?_
    | (with_reducible apply resumeCopy_keeps; decide)
    | (with_reducible apply returnMode_keeps; decide)
    | (with_reducible apply startRaster_keeps; decide)
    | (with_reducible apply assertFault_keeps; decide)
    | split
    | (with_reducible apply Keeps.upd
       all_goals with_reducible first | exact Or.inl (by decide) | exact Or.inr rfl | exact rfl | exact ⟨rfl, rfl⟩ | exact Or.inr ⟨rfl, rfl, rfl⟩ | exact Or.inr ⟨rfl, rfl⟩ | exact Or.inr ⟨rfl, rfl, rfl, rfl⟩ | skip)

theorem resetEntry_keeps (s : State) (hm₀ : Part.among [.bureau, .pwr, .bot] K = true) (h₀ : Keeps K s₀ s) :
    Keeps K s₀ (resetEntry s) := by
  refine Keeps.after ?_ hm₀ h₀
  clear hm₀ h₀
  unfold resetEntry
  repeat' first
    | (extract_lets +onlyGivenNames t
       first
         | (refine Keeps.cut (t := t) ?_ (fun ht => ?_)
            on_goal 2 => clear_value t
            subst t)
         | skip)
    | with_reducible exact Keeps.refl _ _
    | with_reducible assumption
    | with_reducible refine Keeps.ite ?_ ?_
    | (with_reducible apply keepEvent_keeps; decide)
    | (with_reducible apply log_keeps; decide)
    | split
    | (with_reducible apply Keeps.upd
       all_goals with_reducible first | exact Or.inl (by decide) | exact Or.inr rfl | exact rfl | exact ⟨rfl, rfl⟩ | exact Or.inr ⟨rfl, rfl, rfl⟩ | exact Or.inr ⟨rfl, rfl⟩ | exact Or.inr ⟨rfl, rfl, rfl, rfl⟩ | skip)

theorem waitTb3_keeps (s : State) (hm₀ : Part.among [.bases] K = true) (h₀ : Keeps K s₀ s) :
    Keeps K s₀ (waitTb3 s) := by
  refine Keeps.after ?_ hm₀ h₀
  clear hm₀ h₀
  unfold waitTb3
  repeat' first
    | with_reducible exact Keeps.refl _ _
    | with_reducible refine Keeps.ite ?_ ?_
    | (with_reducible apply advanceTo0_keeps; decide)
    | split

/-! ### Commands -/

theorem execConfigurationConfirm_keeps (s : State) : Out.Keeps [.ray, .tim, .eth, .out, .tlk, .dec, .enc, .blt, .dmc, .ports, .owners, .walec, .bureau, .pwr, .thm, .spr, .pins, .sent] s (execConfigurationConfirm s) := by
  unfold execConfigurationConfirm
  repeat' first
    | (extract_lets +onlyGivenNames t
       first
         | (refine Out.Keeps.cut (t := t) ?_ (fun ht => ?_)
            on_goal 2 => clear_value t
            subst t)
         | (refine Keeps.cut (t := t) ?_ (fun ht => ?_)
            on_goal 2 => clear_value t
            subst t)
         | skip)
    | with_reducible exact Keeps.refl _ _
    | with_reducible assumption
    | with_reducible refine Out.Keeps.done (by decide) ?_
    | with_reducible refine Keeps.ite ?_ ?_
    | with_reducible refine Keeps.ifEvent ?_ ?_
    | with_reducible refine Keeps.foldl (fun t x => ?_) ?_
    | with_reducible refine Keeps.elim ?_ (fun a => ?_)
    | (with_reducible apply confirmWith_keeps; decide)
    | (with_reducible apply assertFault_keeps; decide)
    | split
    | (with_reducible apply Keeps.upd
       all_goals with_reducible first | exact Or.inl (by decide) | exact Or.inr rfl | exact rfl | exact ⟨rfl, rfl⟩ | exact Or.inr ⟨rfl, rfl, rfl⟩ | exact Or.inr ⟨rfl, rfl⟩ | exact Or.inr ⟨rfl, rfl, rfl, rfl⟩ | skip)

theorem execRasterStart_keeps (s : State) : Out.Keeps [.geom, .ray, .tim, .bases, .out, .dfl, .dmc, .ports, .walec, .bureau, .pwr, .thm, .spr, .pins, .sent, .drawn] s (execRasterStart s) := by
  unfold execRasterStart
  repeat' first
    | (extract_lets +onlyGivenNames t
       first
         | (refine Out.Keeps.cut (t := t) ?_ (fun ht => ?_)
            on_goal 2 => clear_value t
            subst t)
         | (refine Keeps.cut (t := t) ?_ (fun ht => ?_)
            on_goal 2 => clear_value t
            subst t)
         | skip)
    | with_reducible exact Keeps.refl _ _
    | with_reducible assumption
    | with_reducible refine Out.Keeps.done (by decide) ?_
    | with_reducible refine Keeps.ite ?_ ?_
    | with_reducible refine Keeps.ifEvent ?_ ?_
    | with_reducible refine Keeps.foldl (fun t x => ?_) ?_
    | with_reducible refine Keeps.elim ?_ (fun a => ?_)
    | (with_reducible apply waitTb3_keeps; decide)
    | (with_reducible apply rasterStart_keeps; decide)
    | (with_reducible apply drew_keeps; decide)
    | split
    | (with_reducible apply Keeps.upd
       all_goals with_reducible first | exact Or.inl (by decide) | exact Or.inr rfl | exact rfl | exact ⟨rfl, rfl⟩ | exact Or.inr ⟨rfl, rfl, rfl⟩ | exact Or.inr ⟨rfl, rfl⟩ | exact Or.inr ⟨rfl, rfl, rfl, rfl⟩ | skip)

theorem execTrialConfirm_keeps (s : State) : Out.Keeps [.bases, .ports, .bureau, .bot, .sent] s (execTrialConfirm s) := by
  unfold execTrialConfirm
  repeat' first
    | (extract_lets +onlyGivenNames t
       first
         | (refine Out.Keeps.cut (t := t) ?_ (fun ht => ?_)
            on_goal 2 => clear_value t
            subst t)
         | (refine Keeps.cut (t := t) ?_ (fun ht => ?_)
            on_goal 2 => clear_value t
            subst t)
         | skip)
    | with_reducible exact Keeps.refl _ _
    | with_reducible assumption
    | with_reducible refine Out.Keeps.done (by decide) ?_
    | with_reducible refine Keeps.ite ?_ ?_
    | with_reducible refine Keeps.ifEvent ?_ ?_
    | with_reducible refine Keeps.foldl (fun t x => ?_) ?_
    | with_reducible refine Keeps.elim ?_ (fun a => ?_)
    | (with_reducible apply writeHeader_keeps; decide)
    | (with_reducible apply advanceTo0_keeps; decide)
    | (with_reducible apply log_keeps; decide)
    | (with_reducible apply advanceRollback_keeps; decide)
    | split
    | (with_reducible apply Keeps.upd
       all_goals with_reducible first | exact Or.inl (by decide) | exact Or.inr rfl | exact rfl | exact ⟨rfl, rfl⟩ | exact Or.inr ⟨rfl, rfl, rfl⟩ | exact Or.inr ⟨rfl, rfl⟩ | exact Or.inr ⟨rfl, rfl, rfl, rfl⟩ | skip)

theorem execWalecReady_keeps (s : State) : Out.Keeps [.ray, .tim, .bases, .eth, .out, .tlk, .dec, .enc, .blt, .dfl, .dmc, .dram, .ports, .drawers, .owners, .health, .walec, .bureau, .pwr, .thm, .spr, .bot, .sent, .drawn] s (execWalecReady s) := by
  unfold execWalecReady
  repeat' first
    | (extract_lets +onlyGivenNames t
       first
         | (refine Out.Keeps.cut (t := t) ?_ (fun ht => ?_)
            on_goal 2 => clear_value t
            subst t)
         | (refine Keeps.cut (t := t) ?_ (fun ht => ?_)
            on_goal 2 => clear_value t
            subst t)
         | skip)
    | with_reducible exact Keeps.refl _ _
    | with_reducible assumption
    | with_reducible refine Out.Keeps.done (by decide) ?_
    | with_reducible refine Keeps.ite ?_ ?_
    | with_reducible refine Keeps.ifEvent ?_ ?_
    | with_reducible refine Keeps.foldl (fun t x => ?_) ?_
    | with_reducible refine Keeps.elim ?_ (fun a => ?_)
    | (with_reducible apply declareReady_keeps; decide)
    | (with_reducible apply resetEntry_keeps; decide)
    | (with_reducible apply coldBoot_keeps; decide)
    | (with_reducible apply foldNow_keeps; decide)
    | split
    | (with_reducible apply Keeps.upd
       all_goals with_reducible first | exact Or.inl (by decide) | exact Or.inr rfl | exact rfl | exact ⟨rfl, rfl⟩ | exact Or.inr ⟨rfl, rfl, rfl⟩ | exact Or.inr ⟨rfl, rfl⟩ | exact Or.inr ⟨rfl, rfl, rfl, rfl⟩ | skip)

end Sys2Proof.Machine
end

