-- ==== Sys2Proof/Laws/KeepsRequest.lean ====
section
/-! SUPPORT. What the operations of Machine/Request.lean may change: one lemma each, which says that the
parts it does not name, the form of the DRAM, the Bureau's chain and the queue are kept. -/

open Host

set_option linter.unusedTactic false
set_option linter.unreachableTactic false
set_option linter.tactic.unusedName false

namespace Sys2Proof.Machine

variable {K : List Part} {s₀ : State}

theorem afterAnswer_keeps (r : Request) (c : Status) (s : State) (hm₀ : Part.among [.geom, .eth, .out, .dmc, .dram, .ports, .drawers, .queues, .health, .walec, .bureau, .bot, .pins, .sent, .drawn] K = true) (h₀ : Keeps K s₀ s) :
    Keeps K s₀ (afterAnswer r c s) := by
  refine Keeps.after ?_ hm₀ h₀
  clear hm₀ h₀
  unfold afterAnswer
  repeat' first
    | (extract_lets +onlyGivenNames t
       first
         | (refine Keeps.cut (t := t) ?_ (fun ht => ?_)
            on_goal 2 => clear_value t
            subst t)
         | skip)
    | with_reducible exact Keeps.refl _ _
    | with_reducible assumption
    | with_reducible refine Keeps.ite ?_ ?_
    | with_reducible refine Keeps.ifEvent ?_ ?_
    | (with_reducible apply stopWalec_keeps; decide)
    | (with_reducible apply deliver_keeps; decide)
    | split
    | (with_reducible apply Keeps.upd
       all_goals with_reducible first | exact Or.inl (by decide) | exact Or.inr rfl | exact rfl | exact ⟨rfl, rfl⟩ | exact Or.inr ⟨rfl, rfl, rfl⟩ | exact Or.inr ⟨rfl, rfl⟩ | exact Or.inr ⟨rfl, rfl, rfl, rfl⟩ | skip)

theorem writeMessage_keeps (c : Queue) (e : Bytes) (resp : Bytes) (s : State) (hm₀ : Part.among [.dmc, .dram, .ports, .bureau, .pins, .sent] K = true) (h₀ : Keeps K s₀ s) :
    Keeps K s₀ (writeMessage c e resp s) := by
  refine Keeps.after ?_ hm₀ h₀
  clear hm₀ h₀
  unfold writeMessage
  repeat' first
    | (extract_lets +onlyGivenNames t
       first
         | (refine Keeps.cut (t := t) ?_ (fun ht => ?_)
            on_goal 2 => clear_value t
            subst t)
         | skip)
    | with_reducible exact Keeps.refl _ _
    | with_reducible assumption
    | with_reducible refine Keeps.ite ?_ ?_
    | with_reducible refine Keeps.ifEvent ?_ ?_
    | (with_reducible apply memWrite_keeps; decide)
    | (with_reducible apply hostSend_keeps; decide)
    | split
    | (with_reducible apply Keeps.upd
       all_goals with_reducible first | exact Or.inl (by decide) | exact Or.inr rfl | exact rfl | exact ⟨rfl, rfl⟩ | exact Or.inr ⟨rfl, rfl, rfl⟩ | exact Or.inr ⟨rfl, rfl⟩ | exact Or.inr ⟨rfl, rfl, rfl, rfl⟩ | skip)

theorem answerQueue_keeps (q : ℕ) (tagGen : ℕ) (c : Status) (body : Bytes) (s : State) (hm₀ : Part.among [.dmc, .dram, .ports, .queues, .bureau, .pins, .sent] K = true) (h₀ : Keeps K s₀ s) :
    Keeps K s₀ (answerQueue q tagGen c body s) := by
  refine Keeps.after ?_ hm₀ h₀
  clear hm₀ h₀
  unfold answerQueue
  repeat' first
    | (extract_lets +onlyGivenNames t
       first
         | (refine Keeps.cut (t := t) ?_ (fun ht => ?_)
            on_goal 2 => clear_value t
            subst t)
         | skip)
    | with_reducible exact Keeps.refl _ _
    | with_reducible assumption
    | with_reducible refine Keeps.ite ?_ ?_
    | with_reducible refine Keeps.ifEvent ?_ ?_
    | (with_reducible apply writeMessage_keeps; decide)
    | (with_reducible apply complete_keeps; decide)
    | (with_reducible apply setQueue_keeps; decide)
    | split
    | (with_reducible apply Keeps.upd
       all_goals with_reducible first | exact Or.inl (by decide) | exact Or.inr rfl | exact rfl | exact ⟨rfl, rfl⟩ | exact Or.inr ⟨rfl, rfl, rfl⟩ | exact Or.inr ⟨rfl, rfl⟩ | exact Or.inr ⟨rfl, rfl, rfl, rfl⟩ | skip)

theorem answer_keeps (r : Request) (c : Status) (body : Bytes) (s : State) (hm₀ : Part.among [.dmc, .dram, .ports, .queues, .walec, .bureau, .pins, .sent] K = true) (h₀ : Keeps K s₀ s) :
    Keeps K s₀ (answer r c body s) := by
  refine Keeps.after ?_ hm₀ h₀
  clear hm₀ h₀
  unfold answer
  repeat' first
    | with_reducible exact Keeps.refl _ _
    | with_reducible assumption
    | with_reducible refine Keeps.ite ?_ ?_
    | with_reducible refine Keeps.ifEvent ?_ ?_
    | (with_reducible apply answerQueue_keeps; decide)
    | (with_reducible apply send_keeps; decide)
    | split
    | (with_reducible apply Keeps.upd
       all_goals with_reducible first | exact Or.inl (by decide) | exact Or.inr rfl | exact rfl | exact ⟨rfl, rfl⟩ | exact Or.inr ⟨rfl, rfl, rfl⟩ | exact Or.inr ⟨rfl, rfl⟩ | exact Or.inr ⟨rfl, rfl, rfl, rfl⟩ | skip)

theorem noteRefusal_keeps (r : Request) (c : Status) (s : State) (hm₀ : Part.among [.bureau] K = true) (h₀ : Keeps K s₀ s) : Keeps K s₀ (noteRefusal r c s) := by
  unfold noteRefusal
  refine Keeps.ite h₀ ?_
  split
  · exact Keeps.bureau _ _ rfl hm₀ (log_keeps _ _ _ _ _ hm₀ h₀)
  · exact Keeps.bureau _ _ rfl hm₀ h₀

theorem runGet_keeps (z0 : Outside) (r : Request) (s : State) (hm₀ : Part.among [] K = true) (h₀ : Keeps K s₀ s) :
    Keeps K s₀ (runGet z0 r s).2.2 := by
  refine Keeps.after ?_ hm₀ h₀
  clear hm₀ h₀
  unfold runGet
  repeat' first
    | (extract_lets +onlyGivenNames t
       first
         | (refine Keeps.cut (t := t) ?_ (fun ht => ?_)
            on_goal 2 => clear_value t
            subst t)
         | skip)
    | with_reducible exact Keeps.refl _ _
    | with_reducible assumption
    | dsimp only

theorem runPut_keeps (x : Outside) (r : Request) (s : State) (hm₀ : Part.among (.bureau :: paramParts r.service) K = true)
    (h₀ : Keeps K s₀ s) : Keeps K s₀ (runPut x r s).2.2 := by
  unfold runPut
  split
  · exact h₀
  · exact putParam_keeps _ _ _ _ _ _ _ hm₀ h₀

/-- The parts that an answer may write. -/
abbrev replyParts : List Part := [.dmc, .dram, .ports, .queues, .walec, .bureau, .pins, .sent]

/-- A reply that does not switch the image. -/
theorem finish_keeps (r : Request) (x : Reply) (hsw : r.service = 0x10 → r.verb = 0x02 → x.1 = .ok → False)
    (hm₀ : Part.among replyParts K = true) (h₀ : Keeps K s₀ x.2.2) : Keeps K s₀ (finish r x) := by
  have ha : finish r x = answer r (shownStatus r x.1 x.2.2) x.2.1 (noteRefusal r x.1 x.2.2) := by
    unfold finish afterAnswer
    split
    · rename_i h
      simp only [Bool.and_eq_true, decide_eq_true_eq, beq_iff_eq] at h
      exact absurd h.2 (hsw h.1.1 h.1.2)
    · rfl
  rw [ha]
  exact Keeps.after (answer_keeps _ _ _ _ (by decide) (noteRefusal_keeps _ _ _ (by decide) (Keeps.refl _ _))) hm₀ h₀

/-- A refusal changes nothing but the answer and the Bureau. -/
theorem refusal_keeps (r : Request) (c : Status) (s : State) (hc : c ≠ .ok) (hm₀ : Part.among replyParts K = true) (h₀ : Keeps K s₀ s) :
    Keeps K s₀ (finish r (c, [], s)) := finish_keeps _ _ (fun _ _ h => hc h) hm₀ h₀

/-- A verb that does not switch the image, after the general checks. -/
theorem runVerb_keeps (v : Verb) (x : Outside) (m : Message) (r : Request) (s : State) (hsw : ¬(r.service = 0x10 ∧ r.verb = 0x02))
    (hv : Keeps K s (v.run x r s).2.2) (hm₀ : Part.among replyParts K = true) (h₀ : Keeps K s₀ s) : Keeps K s₀ (runVerb v x m r s) := by
  unfold runVerb
  split
  · exact finish_keeps _ _ (fun a b _ => hsw ⟨a, b⟩) hm₀ (Keeps.trans h₀ hv)
  · rename_i c hc
    exact refusal_keeps _ _ _ hc hm₀ h₀

/-- The parts that the row of a verb may write beside what the verb does: an Ethernet session may also end (R506). -/
abbrev serveParts : List Part := [.eth, .dmc, .dram, .ports, .queues, .walec, .bureau, .pins, .sent]

theorem among_trans {l m n : List Part} (h : Part.among l m = true) (k : Part.among m n = true) : Part.among l n = true := by
  simp only [Part.among, List.all_eq_true, decide_eq_true_eq] at *
  exact fun p hp => k p (h p hp)

/-- What the row of a verb does, if its replies and its runs after the general checks keep what they may. -/
theorem serve_cases (service verb : Nat) (v : Verb) (x : Outside) (ch : Channel) (s : State)
    (hfin : ∀ r t, r.service = service → r.verb = verb → Keeps K s₀ t → Keeps K s₀ (finish r (v.run x r t)))
    (hm₀ : Part.among serveParts K = true) (h₀ : Keeps K s₀ s) : Keeps K s₀ (serve service verb v x ch s) := by
  have hr : Part.among replyParts K = true := among_trans (m := serveParts) (by decide) hm₀
  have hw : Part.among [.walec] K = true := among_trans (m := serveParts) (by decide) hm₀
  have he : Part.among [.eth] K = true := among_trans (m := serveParts) (by decide) hm₀
  have htaken (c : Channel) : Keeps K s₀ (serveTaken service verb v x c s) := by
    unfold serveTaken
    split
    · exact h₀
    · extract_lets u t
      have ht : Keeps K s₀ t := Keeps.walec_set _ hw h₀
      clear_value t u
      split
      · rename_i hc
        simp only [Bool.and_eq_true, decide_eq_true_eq] at hc
        split
        · exact refusal_keeps _ _ _ (by decide) hr ht
        · exact hfin _ _ hc.1.1.2 hc.1.2 ht
      · exact h₀
  have hrun (r : Request) (m : Message) (h1 : r.service = service) (h2 : r.verb = verb) : Keeps K s₀ (runVerb v x m r s) := by
    unfold runVerb
    split
    · exact hfin _ _ h1 h2 h₀
    · rename_i c hc
      exact refusal_keeps _ _ _ hc hr h₀
  have heth (k : Nat) (msg : Bytes) : Keeps K s₀ (serveEth service verb v x k msg s) := by
    unfold serveEth
    extract_lets m r
    split
    · exact h₀
    split
    · exact h₀
    · rename_i hm
      split
      · exact Keeps.eth_set _ he h₀
      split
      · exact refusal_keeps _ _ _ (by decide) hr h₀
      · rename_i hk
        have hmv : m.service = service ∧ m.verb = verb := by
          simp only [Bool.and_eq_true, Bool.not_eq_true'] at hk hm
          revert hm hk
          cases known m.service m.verb <;> simp
        split
        · exact hrun r m hmv.1 hmv.2
        · split
          · exact Keeps.walec_set _ hw h₀
          · rename_i c hc
            exact refusal_keeps _ _ _ hc hr h₀
  unfold serve
  split
  · exact heth _ _
  · exact htaken _

/-- The row of a verb that does not switch the image. -/
theorem serve_keeps (service verb : Nat) (v : Verb) (x : Outside) (ch : Channel) (s : State) (hsw : ¬(service = 0x10 ∧ verb = 0x02))
    (hv : ∀ r t, r.service = service → Keeps K t (v.run x r t).2.2) (hm₀ : Part.among serveParts K = true) (h₀ : Keeps K s₀ s) :
    Keeps K s₀ (serve service verb v x ch s) :=
  serve_cases _ _ _ _ _ _ (fun _ _ h1 h2 h => finish_keeps _ _ (fun a b _ => hsw ⟨h1 ▸ a, h2 ▸ b⟩)
    (among_trans (m := serveParts) (by decide) hm₀) (Keeps.trans h (hv _ _ h1))) hm₀ h₀

/-- The parts that a verb's reply may write where it switches the image (R640). -/
abbrev switchParts : List Part := [.geom, .eth, .out, .dmc, .dram, .ports, .drawers, .queues, .health, .walec, .bureau, .bot, .pins, .sent, .drawn]

/-- Any reply. -/
theorem finish_any (r : Request) (x : Reply)
    (hm₀ : Part.among switchParts K = true) (h₀ : Keeps K s₀ x.2.2) :
    Keeps K s₀ (finish r x) := by
  unfold finish
  extract_lets c
  exact afterAnswer_keeps _ _ _ hm₀ (Keeps.after (answer_keeps _ _ _ _ (by decide) (noteRefusal_keeps _ _ _ (by decide) (Keeps.refl _ _)))
    (among_trans (m := switchParts) (l := replyParts) (by decide) hm₀) h₀)

/-- The row of any verb. -/
theorem serve_any (service verb : Nat) (v : Verb) (x : Outside) (ch : Channel) (s : State)
    (hv : ∀ r t, r.service = service → Keeps K t (v.run x r t).2.2) (hm₀ : Part.among switchParts K = true) (h₀ : Keeps K s₀ s) :
    Keeps K s₀ (serve service verb v x ch s) :=
  serve_cases _ _ _ _ _ _ (fun _ _ h1 _ h => finish_any _ _ hm₀ (Keeps.trans h (hv _ _ h1))) (among_trans (m := switchParts) (by decide) hm₀) h₀

theorem putVerb_keeps {K : List Part} (l : List Nat) (x : Outside) (r : Request) (s : State) (hm₀ : Part.among (.bureau :: paramParts r.service) K = true) :
    Keeps K s ((putVerb l).run x r s).2.2 :=
  runPut_keeps x r s hm₀ (Keeps.refl _ _)

theorem refuseObject_keeps (b : Bytes) (c : Status) (s : State) (hm₀ : Part.among [.dmc] K = true) (h₀ : Keeps K s₀ s) :
    Keeps K s₀ (refuseObject b c s).2.2 :=
  Keeps.ite (noteMarks_keeps _ _ _ hm₀ h₀) h₀

end Sys2Proof.Machine
end

