-- ==== Sys2Proof/Laws/KeepsBureau.lean ====
section
/-! SUPPORT. What the operations of Machine/Bureau.lean may change: one lemma each, which says that the
parts it does not name, the form of the DRAM, the Bureau's chain and the queue are kept. -/

open Host

set_option linter.unusedTactic false
set_option linter.unreachableTactic false
set_option linter.tactic.unusedName false

namespace Sys2Proof.Machine

variable {K : List Part} {s₀ : State}

theorem abortSummary_keeps (s : State) (r : ℕ) (hm₀ : Part.among [.ray, .bureau] K = true) (h₀ : Keeps K s₀ s) :
    Keeps K s₀ (abortSummary s r) := by
  refine Keeps.after ?_ hm₀ h₀
  clear hm₀ h₀
  unfold abortSummary
  repeat' first
    | (extract_lets +onlyGivenNames t
       first
         | (refine Keeps.cut (t := t) ?_ (fun ht => ?_)
            on_goal 2 => clear_value t
            subst t)
         | skip)
    | with_reducible exact Keeps.refl _ _
    | with_reducible assumption
    | with_reducible refine Keeps.ite ?_ ?_
    | (with_reducible apply setRow_keeps; decide)
    | (with_reducible apply logEntry_keeps; decide)
    | split
    | (with_reducible apply Keeps.upd
       all_goals with_reducible first | exact Or.inl (by decide) | exact Or.inr rfl | exact rfl | exact ⟨rfl, rfl⟩ | exact Or.inr ⟨rfl, rfl, rfl⟩ | exact Or.inr ⟨rfl, rfl⟩ | exact Or.inr ⟨rfl, rfl, rfl, rfl⟩ | skip)

theorem makeSpace_keeps (need : Nat) (l : List Segment) (s : State) (hm₀ : Part.among [.bureau] K = true) (h₀ : Keeps K s₀ s) :
    Keeps K s₀ (makeSpace need l s) := by
  induction l with
  | nil => exact Keeps.bureau _ s rfl hm₀ h₀
  | cons x l ih =>
    unfold makeSpace
    split
    · exact Keeps.bureau _ s rfl hm₀ h₀
    · exact log_keeps _ _ _ _ _ hm₀ ih

theorem archiveOne_keeps (s : State) (hm₀ : Part.among [.dfl, .bureau] K = true) (h₀ : Keeps K s₀ s) :
    Keeps K s₀ (archiveOne s) := by
  refine Keeps.after ?_ hm₀ h₀
  clear hm₀ h₀
  unfold archiveOne
  split
  · exact Keeps.refl _ _
  · refine Keeps.bureau _ _ rfl (by decide) (internalJob_keeps _ _ _ (by decide) (makeSpace_keeps _ _ _ (by decide) (Keeps.refl _ _)))

theorem archiveAll_keeps (s : State) (hm₀ : Part.among [.dfl, .bureau] K = true) (h₀ : Keeps K s₀ s) :
    Keeps K s₀ (archiveAll s) := by
  refine Keeps.after ?_ hm₀ h₀
  refine Keeps.bureau _ _ rfl (by decide) (Keeps.foldl (fun t _ => ?_) (Keeps.refl _ _))
  exact archiveOne_keeps t (by decide) (Keeps.refl _ t)

theorem clearLog_keeps (o : Origin) (s : State) (hm₀ : Part.among [.bureau] K = true) (h₀ : Keeps K s₀ s) :
    Keeps K s₀ (clearLog o s) := by
  refine log_keeps _ _ _ _ _ hm₀ (Keeps.after (t := s) ⟨fun p hp => ?_, id, fun _ => ?_, rfl⟩ hm₀ h₀)
  · cases p <;> first | exact absurd (by decide) hp | rfl | exact ⟨rfl, rfl⟩ | exact ⟨rfl, rfl, rfl⟩ | exact ⟨rfl, rfl, rfl, rfl⟩
  · simp [BureauChained, BureauState.chained]

theorem runLogRead_keeps (z0 : Outside) (r : Request) (s : State) (hm₀ : Part.among [] K = true) (h₀ : Keeps K s₀ s) :
    Keeps K s₀ (runLogRead z0 r s).2.2 := by
  refine Keeps.after ?_ hm₀ h₀
  clear hm₀ h₀
  unfold runLogRead
  repeat' first
    | (extract_lets +onlyGivenNames t
       first
         | (refine Keeps.cut (t := t) ?_ (fun ht => ?_)
            on_goal 2 => clear_value t
            subst t)
         | skip)
    | with_reducible exact Keeps.refl _ _
    | with_reducible assumption
    | with_reducible refine checked_keeps ?_ ?_
    | with_reducible refine Keeps.elim ?_ (fun a => ?_)
    | split
    | dsimp only

theorem runLogFetch_keeps (z1 : Outside) (r : Request) (s : State) (hm₀ : Part.among [.dmc, .dram, .ports, .bureau, .pins, .sent] K = true) (h₀ : Keeps K s₀ s) :
    Keeps K s₀ (runLogFetch z1 r s).2.2 := by
  refine Keeps.after ?_ hm₀ h₀
  clear hm₀ h₀
  unfold runLogFetch
  extract_lets b a
  split
  · unfold checked
    dsimp only
    split <;> split <;> exact Keeps.refl _ _
  · exact checked_keeps (memWrite_keeps _ _ _ _ (by decide) (Keeps.refl _ _)) (Keeps.refl _ _)

theorem runLogClear_keeps (z1 : Outside) (r : Request) (s : State) (hm₀ : Part.among [.dfl, .bureau] K = true) (h₀ : Keeps K s₀ s) :
    Keeps K s₀ (runLogClear z1 r s).2.2 := by
  refine Keeps.after ?_ hm₀ h₀
  clear hm₀ h₀
  unfold runLogClear
  exact checked_keeps (clearLog_keeps _ _ (by decide) (archiveAll_keeps _ (by decide) (Keeps.refl _ _))) (Keeps.refl _ _)

theorem refusedSummary_keeps (s : State) (x : Refusals) (hm₀ : Part.among [.bureau] K = true) (h₀ : Keeps K s₀ s) :
    Keeps K s₀ (refusedSummary s x) := by
  refine Keeps.after ?_ hm₀ h₀
  clear hm₀ h₀
  unfold refusedSummary
  repeat' first
    | with_reducible exact Keeps.refl _ _
    | with_reducible assumption
    | with_reducible refine Keeps.ite ?_ ?_
    | with_reducible refine Keeps.ifEvent ?_ ?_
    | (with_reducible apply logEntry_keeps; decide)
    | split
    | (with_reducible apply Keeps.upd
       all_goals with_reducible first | exact Or.inl (by decide) | exact Or.inr rfl | exact rfl | exact ⟨rfl, rfl⟩ | exact Or.inr ⟨rfl, rfl, rfl⟩ | exact Or.inr ⟨rfl, rfl⟩ | exact Or.inr ⟨rfl, rfl, rfl, rfl⟩ | skip)

theorem sigSummary_keeps (s : State) (n : ℕ) (hm₀ : Part.among [.sig, .bureau] K = true) (h₀ : Keeps K s₀ s) :
    Keeps K s₀ (sigSummary s n) := by
  refine Keeps.after ?_ hm₀ h₀
  clear hm₀ h₀
  unfold sigSummary
  repeat' first
    | (extract_lets +onlyGivenNames t
       first
         | (refine Keeps.cut (t := t) ?_ (fun ht => ?_)
            on_goal 2 => clear_value t
            subst t)
         | skip)
    | with_reducible exact Keeps.refl _ _
    | with_reducible assumption
    | with_reducible refine Keeps.ite ?_ ?_
    | (with_reducible apply setRegion_keeps; decide)
    | (with_reducible apply logEntry_keeps; decide)
    | split
    | (with_reducible apply Keeps.upd
       all_goals with_reducible first | exact Or.inl (by decide) | exact Or.inr rfl | exact rfl | exact ⟨rfl, rfl⟩ | exact Or.inr ⟨rfl, rfl, rfl⟩ | exact Or.inr ⟨rfl, rfl⟩ | exact Or.inr ⟨rfl, rfl, rfl, rfl⟩ | skip)

theorem secondSummaries_keeps (s : State) (hm₀ : Part.among [.ray, .sig, .bureau] K = true) (h₀ : Keeps K s₀ s) :
    Keeps K s₀ (secondSummaries s) := by
  refine Keeps.after ?_ hm₀ h₀
  clear hm₀ h₀
  unfold secondSummaries
  extract_lets t t1 t2
  have h2 : Keeps [.ray, .sig, .bureau] s t2 := by
    refine Keeps.foldl (fun t x => refusedSummary_keeps _ _ (by decide) (Keeps.refl _ _)) ?_
    refine Keeps.foldl (fun t x => sigSummary_keeps _ _ (by decide) (Keeps.refl _ _)) ?_
    exact Keeps.foldl (fun t x => abortSummary_keeps _ _ (by decide) (Keeps.refl _ _)) (Keeps.refl _ _)
  clear_value t2
  exact Keeps.bureau { t2.bureau with refusals := [] } t2 rfl (by decide) h2

theorem logArchiveVerb_keeps (x : Outside) (r : Request) (s : State) : Keeps [.dfl, .bureau] s (logArchiveVerb.run x r s).2.2 :=
  checked_keeps (archiveAll_keeps _ (by decide) (Keeps.refl _ _)) (Keeps.refl _ _)

/-! ### Commands -/

theorem execArchiveSegment_keeps (s : State) : Out.Keeps [.bases, .dfl, .ports, .bureau, .sent] s (execArchiveSegment s) := by
  unfold execArchiveSegment
  repeat' first
    | (extract_lets +onlyGivenNames t
       first
         | (refine Out.Keeps.cut (t := t) ?_ (fun ht => ?_)
            on_goal 2 => clear_value t
            subst t)
         | (refine Keeps.cut (t := t) ?_ (fun ht => ?_)
            on_goal 2 => clear_value t
            subst t)
         | skip)
    | with_reducible exact Keeps.refl _ _
    | with_reducible assumption
    | with_reducible refine Out.Keeps.done (by decide) ?_
    | with_reducible refine Keeps.ite ?_ ?_
    | with_reducible refine Keeps.ifEvent ?_ ?_
    | with_reducible refine Keeps.foldl (fun t x => ?_) ?_
    | with_reducible refine Keeps.elim ?_ (fun a => ?_)
    | (with_reducible apply archiveAll_keeps; decide)
    | (with_reducible apply advanceTo0_keeps; decide)
    | split
    | (with_reducible apply Keeps.upd
       all_goals with_reducible first | exact Or.inl (by decide) | exact Or.inr rfl | exact rfl | exact ⟨rfl, rfl⟩ | exact Or.inr ⟨rfl, rfl, rfl⟩ | exact Or.inr ⟨rfl, rfl⟩ | exact Or.inr ⟨rfl, rfl, rfl, rfl⟩ | skip)

theorem execBureauSecondSummary_keeps (s : State) : Out.Keeps [.ray, .sig, .bases, .ports, .bureau, .pwr, .spr, .sent] s (execBureauSecondSummary s) := by
  unfold execBureauSecondSummary
  repeat' first
    | (extract_lets +onlyGivenNames t
       first
         | (refine Out.Keeps.cut (t := t) ?_ (fun ht => ?_)
            on_goal 2 => clear_value t
            subst t)
         | (refine Keeps.cut (t := t) ?_ (fun ht => ?_)
            on_goal 2 => clear_value t
            subst t)
         | skip)
    | with_reducible exact Keeps.refl _ _
    | with_reducible assumption
    | with_reducible refine Out.Keeps.done (by decide) ?_
    | with_reducible refine Keeps.ite ?_ ?_
    | with_reducible refine Keeps.ifEvent ?_ ?_
    | with_reducible refine Keeps.foldl (fun t x => ?_) ?_
    | with_reducible refine Keeps.elim ?_ (fun a => ?_)
    | (with_reducible apply secondSummaries_keeps; decide)
    | (with_reducible apply advanceTo0_keeps; decide)
    | (with_reducible apply cycleDomains_keeps; decide)
    | split
    | (with_reducible apply Keeps.upd
       all_goals with_reducible first | exact Or.inl (by decide) | exact Or.inr rfl | exact rfl | exact ⟨rfl, rfl⟩ | exact Or.inr ⟨rfl, rfl, rfl⟩ | exact Or.inr ⟨rfl, rfl⟩ | exact Or.inr ⟨rfl, rfl, rfl, rfl⟩ | skip)

theorem execLogArchive_keeps (ch : Channel) (s : State) : Out.Keeps [.eth, .dfl, .dmc, .dram, .ports, .queues, .walec, .bureau, .pins, .sent] s (execLogArchive ch s) := by
  refine Out.Keeps.done (by decide) ?_
  exact serve_keeps _ _ _ _ _ _ (by decide) (fun r t hr => Keeps.more (logArchiveVerb_keeps _ _ _) (by decide)) (by decide) (Keeps.refl _ _)

theorem execLogClear_keeps (ch : Channel) (s : State) : Out.Keeps [.eth, .dfl, .dmc, .dram, .ports, .queues, .walec, .bureau, .pins, .sent] s (execLogClear ch s) := by
  refine Out.Keeps.done (by decide) ?_
  exact serve_keeps _ _ _ _ _ _ (by decide) (fun r t hr => runLogClear_keeps {} _ _ (by decide) (Keeps.refl _ _)) (by decide) (Keeps.refl _ _)

theorem execLogFetch_keeps (ch : Channel) (s : State) : Out.Keeps [.eth, .dmc, .dram, .ports, .queues, .walec, .bureau, .pins, .sent] s (execLogFetch ch s) := by
  refine Out.Keeps.done (by decide) ?_
  exact serve_keeps _ _ _ _ _ _ (by decide) (fun r t hr => runLogFetch_keeps {} _ _ (by decide) (Keeps.refl _ _)) (by decide) (Keeps.refl _ _)

theorem execLogRead_keeps (ch : Channel) (s : State) : Out.Keeps [.eth, .dmc, .dram, .ports, .queues, .walec, .bureau, .pins, .sent] s (execLogRead ch s) := by
  refine Out.Keeps.done (by decide) ?_
  exact serve_keeps _ _ _ _ _ _ (by decide) (fun r t hr => runLogRead_keeps {} _ _ (by decide) (Keeps.refl _ _)) (by decide) (Keeps.refl _ _)

theorem execLogStatus_keeps (ch : Channel) (s : State) : Out.Keeps [.eth, .dmc, .dram, .ports, .queues, .walec, .bureau, .pins, .sent] s (execLogStatus ch s) := by
  refine Out.Keeps.done (by decide) ?_
  exact serve_keeps _ _ _ _ _ _ (by decide) (fun r t hr => Keeps.refl _ _) (by decide) (Keeps.refl _ _)

end Sys2Proof.Machine
end

