-- ==== Sys2Proof/Laws/KeepsDevice.lean ====
section
/-! SUPPORT. What the operations of Machine/Device.lean may change: one lemma each, which says that the
parts it does not name, the form of the DRAM, the Bureau's chain and the queue are kept. -/

open Host

set_option linter.unusedTactic false
set_option linter.unreachableTactic false
set_option linter.tactic.unusedName false

namespace Sys2Proof.Machine

variable {K : List Part} {s₀ : State}

theorem beginPowerDown_keeps (o : Origin) (s : State) (hm₀ : Part.among [.cmp, .ray, .tim, .tlk, .walec, .bureau, .spr, .sent] K = true) (h₀ : Keeps K s₀ s) :
    Keeps K s₀ (beginPowerDown o s) := by
  refine Keeps.after ?_ hm₀ h₀
  clear hm₀ h₀
  unfold beginPowerDown
  repeat' first
    | (extract_lets +onlyGivenNames t
       first
         | (refine Keeps.cut (t := t) ?_ (fun ht => ?_)
            on_goal 2 => clear_value t
            subst t)
         | skip)
    | with_reducible exact Keeps.refl _ _
    | with_reducible assumption
    | with_reducible refine Keeps.ite ?_ ?_
    | with_reducible refine Keeps.ifEvent ?_ ?_
    | with_reducible refine Keeps.foldl (fun t x => ?_) ?_
    | (with_reducible apply stopRaster_keeps; decide)
    | (with_reducible apply stopWitness_keeps; decide)
    | (with_reducible apply sendDark_keeps; decide)
    | (with_reducible apply log_keeps; decide)
    | split
    | (with_reducible apply Keeps.upd
       all_goals with_reducible first | exact Or.inl (by decide) | exact Or.inr rfl | exact rfl | exact ⟨rfl, rfl⟩ | exact Or.inr ⟨rfl, rfl, rfl⟩ | exact Or.inr ⟨rfl, rfl⟩ | exact Or.inr ⟨rfl, rfl, rfl, rfl⟩ | skip)

theorem bindQueue_keeps (q : ℕ) (kind : ℕ) (slots : List ℕ) (s : State) (hm₀ : Part.among [.blt, .dfl] K = true) (h₀ : Keeps K s₀ s) :
    Keeps K s₀ (bindQueue q kind slots s) := by
  refine Keeps.after ?_ hm₀ h₀
  clear hm₀ h₀
  unfold bindQueue
  repeat' first
    | with_reducible exact Keeps.refl _ _
    | with_reducible refine Keeps.ite ?_ ?_
    | with_reducible refine Keeps.foldl (fun t x => ?_) ?_
    | (with_reducible apply setDflSlot_keeps; decide)
    | split
    | (with_reducible apply Keeps.upd
       all_goals with_reducible first | exact Or.inl (by decide) | exact Or.inr rfl | exact rfl | exact ⟨rfl, rfl⟩ | exact Or.inr ⟨rfl, rfl, rfl⟩ | exact Or.inr ⟨rfl, rfl⟩ | exact Or.inr ⟨rfl, rfl, rfl, rfl⟩ | skip)

theorem deleteQueue_keeps (q : ℕ) (s : State) (hm₀ : Part.among [.blt, .dfl, .queues] K = true) (h₀ : Keeps K s₀ s) :
    Keeps K s₀ (deleteQueue q s) := by
  refine Keeps.after ?_ hm₀ h₀
  clear hm₀ h₀
  unfold deleteQueue
  repeat' first
    | (extract_lets +onlyGivenNames t
       first
         | (refine Keeps.cut (t := t) ?_ (fun ht => ?_)
            on_goal 2 => clear_value t
            subst t)
         | skip)
    | with_reducible exact Keeps.refl _ _
    | with_reducible assumption
    | with_reducible refine Keeps.ite ?_ ?_
    | (with_reducible apply setQueue_keeps; decide)
    | split
    | (with_reducible apply Keeps.upd
       all_goals with_reducible first | exact Or.inl (by decide) | exact Or.inr rfl | exact rfl | exact ⟨rfl, rfl⟩ | exact Or.inr ⟨rfl, rfl, rfl⟩ | exact Or.inr ⟨rfl, rfl⟩ | exact Or.inr ⟨rfl, rfl, rfl, rfl⟩ | skip)

theorem zeroPhases_keeps (c : Queue) (s : State) (hm₀ : Part.among [.dmc, .dram, .ports, .bureau, .pins, .sent] K = true) (h₀ : Keeps K s₀ s) :
    Keeps K s₀ (zeroPhases c s) := by
  refine Keeps.after ?_ hm₀ h₀
  clear hm₀ h₀
  unfold zeroPhases
  repeat' first
    | with_reducible exact Keeps.refl _ _
    | with_reducible assumption
    | with_reducible refine Keeps.ite ?_ ?_
    | with_reducible refine Keeps.ifEvent ?_ ?_
    | with_reducible refine Keeps.foldl (fun t x => ?_) ?_
    | (with_reducible apply ringPut_keeps; decide)
    | split
    | (with_reducible apply Keeps.upd
       all_goals with_reducible first | exact Or.inl (by decide) | exact Or.inr rfl | exact rfl | exact ⟨rfl, rfl⟩ | exact Or.inr ⟨rfl, rfl, rfl⟩ | exact Or.inr ⟨rfl, rfl⟩ | exact Or.inr ⟨rfl, rfl, rfl, rfl⟩ | skip)

theorem createQueue_keeps (q : ℕ) (c : Queue) (slots : List ℕ) (s : State) (hm₀ : Part.among [.blt, .dfl, .dmc, .dram, .ports, .queues, .bureau, .pins, .sent] K = true) (h₀ : Keeps K s₀ s) :
    Keeps K s₀ (createQueue q c slots s) := by
  refine Keeps.after ?_ hm₀ h₀
  clear hm₀ h₀
  unfold createQueue
  repeat' first
    | (extract_lets +onlyGivenNames t
       first
         | (refine Keeps.cut (t := t) ?_ (fun ht => ?_)
            on_goal 2 => clear_value t
            subst t)
         | skip)
    | with_reducible exact Keeps.refl _ _
    | with_reducible assumption
    | with_reducible refine Keeps.ite ?_ ?_
    | with_reducible refine Keeps.ifEvent ?_ ?_
    | (with_reducible apply bindQueue_keeps; decide)
    | (with_reducible apply zeroPhases_keeps; decide)
    | (with_reducible apply setQueue_keeps; decide)
    | split
    | (with_reducible apply Keeps.upd
       all_goals with_reducible first | exact Or.inl (by decide) | exact Or.inr rfl | exact rfl | exact ⟨rfl, rfl⟩ | exact Or.inr ⟨rfl, rfl, rfl⟩ | exact Or.inr ⟨rfl, rfl⟩ | exact Or.inr ⟨rfl, rfl, rfl, rfl⟩ | skip)

theorem endPowerDown_keeps (s : State) (hm₀ : Part.among [.tim, .bases, .tlk, .dmc, .dram, .ports, .health, .bureau, .pwr, .pins, .sent] K = true) (h₀ : Keeps K s₀ s) :
    Keeps K s₀ (endPowerDown s) := by
  refine Keeps.after ?_ hm₀ h₀
  clear hm₀ h₀
  unfold endPowerDown
  repeat' first
    | (extract_lets +onlyGivenNames t
       first
         | (refine Keeps.cut (t := t) ?_ (fun ht => ?_)
            on_goal 2 => clear_value t
            subst t)
         | skip)
    | with_reducible exact Keeps.refl _ _
    | with_reducible assumption
    | with_reducible refine Keeps.ite ?_ ?_
    | with_reducible refine Keeps.ifEvent ?_ ?_
    | with_reducible refine Keeps.foldl (fun t x => ?_) ?_
    | (with_reducible apply supplyGone_keeps; decide)
    | (with_reducible apply supplyOff_keeps; decide)
    | (with_reducible apply holdSites_keeps; decide)
    | (with_reducible apply advanceTo0_keeps; decide)
    | split
    | (with_reducible apply Keeps.upd
       all_goals with_reducible first | exact Or.inl (by decide) | exact Or.inr rfl | exact rfl | exact ⟨rfl, rfl⟩ | exact Or.inr ⟨rfl, rfl, rfl⟩ | exact Or.inr ⟨rfl, rfl⟩ | exact Or.inr ⟨rfl, rfl, rfl, rfl⟩ | skip)

theorem recorded_keeps (r : Request) (ix : ℕ) (old : Bytes) (new : Bytes) (s : State) (hm₀ : Part.among [.bureau] K = true) (h₀ : Keeps K s₀ s) :
    Keeps K s₀ (recorded r ix old new s) := by
  refine Keeps.after ?_ hm₀ h₀
  clear hm₀ h₀
  unfold recorded
  repeat' first
    | with_reducible exact Keeps.refl _ _
    | (with_reducible apply serviceWrite_keeps; decide)

theorem runQueueCreate_keeps (z1 : Outside) (r : Request) (s : State) (hm₀ : Part.among [.blt, .dfl, .dmc, .dram, .ports, .queues, .bureau, .pins, .sent] K = true) (h₀ : Keeps K s₀ s) :
    Keeps K s₀ (runQueueCreate z1 r s).2.2 := by
  refine Keeps.after ?_ hm₀ h₀
  clear hm₀ h₀
  exact checked_keeps (recorded_keeps _ _ _ _ _ (by decide) (createQueue_keeps _ _ _ _ (by decide) (Keeps.refl _ _))) (Keeps.refl _ _)

theorem runQueueReset_keeps (z1 : Outside) (r : Request) (s : State) (hm₀ : Part.among [.dmc, .dram, .ports, .queues, .bureau, .pins, .sent] K = true) (h₀ : Keeps K s₀ s) :
    Keeps K s₀ (runQueueReset z1 r s).2.2 := by
  refine Keeps.after ?_ hm₀ h₀
  clear hm₀ h₀
  exact checked_keeps (recorded_keeps _ _ _ _ _ (by decide)
    (zeroPhases_keeps _ _ (by decide) (setQueue_keeps _ _ _ (by decide) (Keeps.refl _ _)))) (Keeps.refl _ _)

theorem runQueueDelete_keeps (z0 : Outside) (r : Request) (s : State) (hm₀ : Part.among [.blt, .dfl, .queues, .bureau] K = true) (h₀ : Keeps K s₀ s) :
    Keeps K s₀ (runQueueDelete z0 r s).2.2 := by
  refine Keeps.after ?_ hm₀ h₀
  clear hm₀ h₀
  unfold runQueueDelete
  repeat' first
    | (extract_lets +onlyGivenNames t
       first
         | (refine Keeps.cut (t := t) ?_ (fun ht => ?_)
            on_goal 2 => clear_value t
            subst t)
         | skip)
    | with_reducible exact Keeps.refl _ _
    | with_reducible assumption
    | with_reducible refine checked_keeps ?_ ?_
    | (with_reducible apply recorded_keeps; decide)
    | (with_reducible apply deleteQueue_keeps; decide)
    | dsimp only

theorem runQueueAttach_keeps (z1 : Outside) (r : Request) (s : State) (hm₀ : Part.among [.dmc, .dram, .ports, .queues, .bureau, .pins, .sent] K = true) (h₀ : Keeps K s₀ s) :
    Keeps K s₀ (runQueueAttach z1 r s).2.2 := by
  refine Keeps.after ?_ hm₀ h₀
  clear hm₀ h₀
  unfold runQueueAttach
  extract_lets b q c
  split
  · exact Keeps.refl _ _
  · exact checked_keeps (recorded_keeps _ _ _ _ _ (by decide)
      (zeroPhases_keeps _ _ (by decide) (setQueue_keeps _ _ _ (by decide) (Keeps.refl _ _)))) (Keeps.refl _ _)

theorem resumeLink_keeps (n : ℕ) (s : State) (hm₀ : Part.among [.tlk] K = true) (h₀ : Keeps K s₀ s) :
    Keeps K s₀ (resumeLink n s) := by
  refine Keeps.after ?_ hm₀ h₀
  clear hm₀ h₀
  unfold resumeLink
  repeat' first
    | with_reducible exact Keeps.refl _ _
    | (with_reducible apply setLink_keeps; decide)
    | (with_reducible apply Keeps.upd
       all_goals with_reducible first | exact Or.inl (by decide) | exact Or.inr rfl | exact rfl | exact ⟨rfl, rfl⟩ | exact Or.inr ⟨rfl, rfl, rfl⟩ | exact Or.inr ⟨rfl, rfl⟩ | exact Or.inr ⟨rfl, rfl, rfl, rfl⟩ | skip)

theorem runDark_keeps (z0 : Outside) (r : Request) (s : State) (hm₀ : Part.among [.tlk, .bureau, .sent] K = true) (h₀ : Keeps K s₀ s) :
    Keeps K s₀ (runDark z0 r s).2.2 := by
  refine Keeps.after ?_ hm₀ h₀
  clear hm₀ h₀
  unfold runDark
  repeat' first
    | (extract_lets +onlyGivenNames t
       first
         | (refine Keeps.cut (t := t) ?_ (fun ht => ?_)
            on_goal 2 => clear_value t
            subst t)
         | skip)
    | with_reducible exact Keeps.refl _ _
    | with_reducible assumption
    | with_reducible refine checked_keeps ?_ ?_
    | with_reducible refine Keeps.ite ?_ ?_
    | (with_reducible apply recorded_keeps; decide)
    | (with_reducible apply holdDark_keeps; decide)
    | (with_reducible apply resumeLink_keeps; decide)
    | split
    | dsimp only

theorem storeAll_keeps (storesOk : Bool) (s : State) (hm₀ : Part.among [.tim, .out, .dfl, .dram, .bureau] K = true) (h₀ : Keeps K s₀ s) :
    Keeps K s₀ (storeAll storesOk s) := by
  refine Keeps.after ?_ hm₀ h₀
  clear hm₀ h₀
  unfold storeAll
  repeat' first
    | (extract_lets +onlyGivenNames t
       first
         | (refine Keeps.cut (t := t) ?_ (fun ht => ?_)
            on_goal 2 => clear_value t
            subst t)
         | skip)
    | with_reducible exact Keeps.refl _ _
    | with_reducible assumption
    | with_reducible refine Keeps.ite ?_ ?_
    | with_reducible refine Keeps.ifEvent ?_ ?_
    | with_reducible refine Keeps.foldl (fun t x => ?_) ?_
    | (with_reducible apply archiveAll_keeps; decide)
    | (with_reducible apply takeBenchDose_keeps; decide)
    | (with_reducible apply persistLedger_keeps; decide)
    | (with_reducible apply foldNow_keeps; decide)
    | split
    | (with_reducible apply Keeps.upd
       all_goals with_reducible first | exact Or.inl (by decide) | exact Or.inr rfl | exact rfl | exact ⟨rfl, rfl⟩ | exact Or.inr ⟨rfl, rfl, rfl⟩ | exact Or.inr ⟨rfl, rfl⟩ | exact Or.inr ⟨rfl, rfl, rfl, rfl⟩ | skip)

theorem runPowerDown_keeps (x : Outside) (r : Request) (s : State) (hm₀ : Part.among [.cmp, .ray, .tim, .bases, .out, .tlk, .dfl, .dmc, .dram, .ports, .health, .walec, .bureau, .pwr, .spr, .pins, .sent] K = true) (h₀ : Keeps K s₀ s) :
    Keeps K s₀ (runPowerDown x r s).2.2 := by
  refine Keeps.after ?_ hm₀ h₀
  clear hm₀ h₀
  unfold runPowerDown
  repeat' first
    | (extract_lets +onlyGivenNames t
       first
         | (refine Keeps.cut (t := t) ?_ (fun ht => ?_)
            on_goal 2 => clear_value t
            subst t)
         | skip)
    | with_reducible exact Keeps.refl _ _
    | with_reducible assumption
    | with_reducible refine Keeps.ite ?_ ?_
    | with_reducible refine Keeps.ifEvent ?_ ?_
    | (with_reducible apply endPowerDown_keeps; decide)
    | (with_reducible apply storeAll_keeps; decide)
    | (with_reducible apply beginPowerDown_keeps; decide)
    | split
    | (with_reducible apply Keeps.upd
       all_goals with_reducible first | exact Or.inl (by decide) | exact Or.inr rfl | exact rfl | exact ⟨rfl, rfl⟩ | exact Or.inr ⟨rfl, rfl, rfl⟩ | exact Or.inr ⟨rfl, rfl⟩ | exact Or.inr ⟨rfl, rfl, rfl, rfl⟩ | skip)

/-! ### Commands -/

theorem execDeviceDark_keeps (ch : Channel) (s : State) : Out.Keeps [.eth, .tlk, .dmc, .dram, .ports, .queues, .walec, .bureau, .pins, .sent] s (execDeviceDark ch s) := by
  refine Out.Keeps.done (by decide) ?_
  refine Keeps.ifEvent ?_ (Keeps.refl _ _)
  exact serve_keeps _ _ _ _ _ _ (by decide) (fun r t hr => runDark_keeps {} _ _ (by decide) (Keeps.refl _ _)) (by decide) (Keeps.refl _ _)

theorem execDeviceDarkResume_keeps (ch : Channel) (s : State) : Out.Keeps [.eth, .tlk, .dmc, .dram, .ports, .queues, .walec, .bureau, .pins, .sent] s (execDeviceDarkResume ch s) := by
  refine Out.Keeps.done (by decide) ?_
  refine Keeps.ifEvent ?_ (Keeps.refl _ _)
  exact serve_keeps _ _ _ _ _ _ (by decide) (fun r t hr => runDark_keeps {} _ _ (by decide) (Keeps.refl _ _)) (by decide) (Keeps.refl _ _)

theorem execDeviceGet_keeps (ch : Channel) (s : State) : Out.Keeps [.eth, .dmc, .dram, .ports, .queues, .walec, .bureau, .pins, .sent] s (execDeviceGet ch s) := by
  refine Out.Keeps.done (by decide) ?_
  exact serve_keeps _ _ _ _ _ _ (by decide) (fun r t hr => runGet_keeps {} _ _ (by decide) (Keeps.refl _ _)) (by decide) (Keeps.refl _ _)

theorem execDevicePut_keeps (ch : Channel) (s : State) : Out.Keeps [.eth, .tlk, .blt, .dmc, .dram, .ports, .queues, .walec, .bureau, .pins, .sent] s (execDevicePut ch s) := by
  refine Out.Keeps.done (by decide) ?_
  exact serve_keeps _ _ _ _ _ _ (by decide) (fun r t hr => putVerb_keeps _ _ _ _ (by rw [hr]; decide)) (by decide) (Keeps.refl _ _)

theorem execDeviceStatus_keeps (ch : Channel) (s : State) : Out.Keeps [.eth, .dmc, .dram, .ports, .queues, .walec, .bureau, .pins, .sent] s (execDeviceStatus ch s) := by
  refine Out.Keeps.done (by decide) ?_
  refine serve_keeps _ _ _ _ _ _ (by decide) (fun r t hr => ?_) (by decide) (Keeps.refl _ _)
  exact Keeps.more (sendAll_keeps ((deviceCauses t).map (.deviceCause r.ch)) t (by decide) (Keeps.refl [.sent] t)) (by decide)

theorem execPowerDown_keeps (ch : Channel) (storesOk : Bool) (s : State) : Out.Keeps [.cmp, .ray, .tim, .bases, .eth, .out, .tlk, .dfl, .dmc, .dram, .ports, .queues, .health, .walec, .bureau, .pwr, .spr, .pins, .sent] s (execPowerDown ch storesOk s) := by
  refine Out.Keeps.done (by decide) ?_
  exact serve_keeps _ _ _ _ _ _ (by decide) (fun r t hr => runPowerDown_keeps _ _ _ (by decide) (Keeps.refl _ _)) (by decide) (Keeps.refl _ _)

theorem execQueueAttach_keeps (ch : Channel) (s : State) : Out.Keeps [.eth, .dmc, .dram, .ports, .queues, .walec, .bureau, .pins, .sent] s (execQueueAttach ch s) := by
  refine Out.Keeps.done (by decide) ?_
  exact serve_keeps _ _ _ _ _ _ (by decide) (fun r t hr => runQueueAttach_keeps {} _ _ (by decide) (Keeps.refl _ _)) (by decide) (Keeps.refl _ _)

theorem execQueueCreate_keeps (ch : Channel) (s : State) : Out.Keeps [.eth, .blt, .dfl, .dmc, .dram, .ports, .queues, .walec, .bureau, .pins, .sent] s (execQueueCreate ch s) := by
  refine Out.Keeps.done (by decide) ?_
  exact serve_keeps _ _ _ _ _ _ (by decide) (fun r t hr => runQueueCreate_keeps {} _ _ (by decide) (Keeps.refl _ _)) (by decide) (Keeps.refl _ _)

theorem execQueueDelete_keeps (ch : Channel) (s : State) : Out.Keeps [.eth, .blt, .dfl, .dmc, .dram, .ports, .queues, .walec, .bureau, .pins, .sent] s (execQueueDelete ch s) := by
  refine Out.Keeps.done (by decide) ?_
  exact serve_keeps _ _ _ _ _ _ (by decide) (fun r t hr => runQueueDelete_keeps {} _ _ (by decide) (Keeps.refl _ _)) (by decide) (Keeps.refl _ _)

theorem execQueueReset_keeps (ch : Channel) (s : State) : Out.Keeps [.eth, .dmc, .dram, .ports, .queues, .walec, .bureau, .pins, .sent] s (execQueueReset ch s) := by
  refine Out.Keeps.done (by decide) ?_
  exact serve_keeps _ _ _ _ _ _ (by decide) (fun r t hr => runQueueReset_keeps {} _ _ (by decide) (Keeps.refl _ _)) (by decide) (Keeps.refl _ _)

end Sys2Proof.Machine
end

