-- ==== Sys2Proof/Laws/KeepsAdmin.lean ====
section
/-! SUPPORT. What the operations of Machine/Admin.lean may change: one lemma each, which says that the
parts it does not name, the form of the DRAM, the Bureau's chain and the queue are kept. -/

open Host

set_option linter.unusedTactic false
set_option linter.unreachableTactic false
set_option linter.tactic.unusedName false

namespace Sys2Proof.Machine

variable {K : List Part} {s₀ : State}

theorem changeClass_keeps (p : Port) (n : ℕ) (cls : ℕ) (s : State) (hm₀ : Part.among [.drawers, .walec] K = true) (h₀ : Keeps K s₀ s) :
    Keeps K s₀ (changeClass p n cls s) := by
  refine Keeps.after ?_ hm₀ h₀
  clear hm₀ h₀
  unfold changeClass
  repeat' first
    | (extract_lets +onlyGivenNames t
       first
         | (refine Keeps.cut (t := t) ?_ (fun ht => ?_)
            on_goal 2 => clear_value t
            subst t)
         | skip)
    | with_reducible exact Keeps.refl _ _
    | with_reducible assumption
    | with_reducible refine Keeps.ite ?_ ?_
    | (with_reducible apply takeClass_keeps; decide)
    | split
    | (with_reducible apply Keeps.upd
       all_goals with_reducible first | exact Or.inl (by decide) | exact Or.inr rfl | exact rfl | exact ⟨rfl, rfl⟩ | exact Or.inr ⟨rfl, rfl, rfl⟩ | exact Or.inr ⟨rfl, rfl⟩ | exact Or.inr ⟨rfl, rfl, rfl, rfl⟩ | skip)

theorem runDrawerClass_keeps (z0 : Outside) (r : Request) (s : State) (hm₀ : Part.among [.drawers, .walec, .bureau] K = true) (h₀ : Keeps K s₀ s) :
    Keeps K s₀ (runDrawerClass z0 r s).2.2 := by
  refine Keeps.after ?_ hm₀ h₀
  clear hm₀ h₀
  unfold runDrawerClass
  repeat' first
    | (extract_lets +onlyGivenNames t
       first
         | (refine Keeps.cut (t := t) ?_ (fun ht => ?_)
            on_goal 2 => clear_value t
            subst t)
         | skip)
    | with_reducible exact Keeps.refl _ _
    | with_reducible assumption
    | with_reducible refine checked_keeps ?_ ?_
    | with_reducible refine Keeps.ite ?_ ?_
    | (with_reducible apply logEntry_keeps; decide)
    | (with_reducible apply changeClass_keeps; decide)
    | split
    | dsimp only

theorem writeBind_keeps (k : ℕ) (b : ℕ × Bytes) (s : State) (hm₀ : Part.among [.eth] K = true) (h₀ : Keeps K s₀ s) :
    Keeps K s₀ (writeBind k b s) := by
  refine Keeps.after ?_ hm₀ h₀
  clear hm₀ h₀
  unfold writeBind
  repeat' first
    | (extract_lets +onlyGivenNames t
       first
         | (refine Keeps.cut (t := t) ?_ (fun ht => ?_)
            on_goal 2 => clear_value t
            subst t)
         | skip)
    | with_reducible exact Keeps.refl _ _
    | with_reducible assumption
    | with_reducible refine Keeps.ite ?_ ?_
    | with_reducible refine Keeps.ifEvent ?_ ?_
    | split
    | (with_reducible apply Keeps.upd
       all_goals with_reducible first | exact Or.inl (by decide) | exact Or.inr rfl | exact rfl | exact ⟨rfl, rfl⟩ | exact Or.inr ⟨rfl, rfl, rfl⟩ | exact Or.inr ⟨rfl, rfl⟩ | exact Or.inr ⟨rfl, rfl, rfl, rfl⟩ | skip)

theorem runEthBind_keeps (z0 : Outside) (r : Request) (s : State) (hm₀ : Part.among [.eth, .bureau] K = true) (h₀ : Keeps K s₀ s) :
    Keeps K s₀ (runEthBind z0 r s).2.2 := by
  refine Keeps.after ?_ hm₀ h₀
  clear hm₀ h₀
  unfold runEthBind
  repeat' first
    | (extract_lets +onlyGivenNames t
       first
         | (refine Keeps.cut (t := t) ?_ (fun ht => ?_)
            on_goal 2 => clear_value t
            subst t)
         | skip)
    | with_reducible exact Keeps.refl _ _
    | with_reducible assumption
    | with_reducible refine checked_keeps ?_ ?_
    | with_reducible refine Keeps.ite ?_ ?_
    | (with_reducible apply recorded_keeps; decide)
    | (with_reducible apply writeBind_keeps; decide)
    | split
    | dsimp only

theorem openSession_keeps (port : ℕ) (slot : ℕ) (s : State) (hm₀ : Part.among [.eth] K = true) (h₀ : Keeps K s₀ s) :
    Keeps K s₀ (openSession port slot s) := by
  refine Keeps.after ?_ hm₀ h₀
  clear hm₀ h₀
  unfold openSession
  repeat' first
    | with_reducible exact Keeps.refl _ _
    | with_reducible assumption
    | with_reducible refine Keeps.ite ?_ ?_
    | with_reducible refine Keeps.ifEvent ?_ ?_
    | split
    | (with_reducible apply Keeps.upd
       all_goals with_reducible first | exact Or.inl (by decide) | exact Or.inr rfl | exact rfl | exact ⟨rfl, rfl⟩ | exact Or.inr ⟨rfl, rfl, rfl⟩ | exact Or.inr ⟨rfl, rfl⟩ | exact Or.inr ⟨rfl, rfl, rfl, rfl⟩ | skip)

theorem stageImage_keeps (r : Request) (f : Bytes) (s : State) (hm₀ : Part.among [.bureau, .bot] K = true) (h₀ : Keeps K s₀ s) :
    Keeps K s₀ (stageImage r f s).2.2 := by
  refine Keeps.after ?_ hm₀ h₀
  clear hm₀ h₀
  unfold stageImage
  repeat' first
    | (extract_lets +onlyGivenNames t
       first
         | (refine Keeps.cut (t := t) ?_ (fun ht => ?_)
            on_goal 2 => clear_value t
            subst t)
         | skip)
    | with_reducible exact Keeps.refl _ _
    | with_reducible assumption
    | with_reducible refine checked_keeps ?_ ?_
    | (with_reducible apply log_keeps; decide)
    | dsimp only
    | (with_reducible apply Keeps.upd
       all_goals with_reducible first | exact Or.inl (by decide) | exact Or.inr rfl | exact rfl | exact ⟨rfl, rfl⟩ | exact Or.inr ⟨rfl, rfl, rfl⟩ | exact Or.inr ⟨rfl, rfl⟩ | exact Or.inr ⟨rfl, rfl, rfl, rfl⟩ | skip)

theorem stageIndex_keeps (r : Request) (f : Bytes) (s : State) (hm₀ : Part.among [.bureau, .bot] K = true) (h₀ : Keeps K s₀ s) :
    Keeps K s₀ (stageIndex r f s).2.2 := by
  refine Keeps.after ?_ hm₀ h₀
  clear hm₀ h₀
  unfold stageIndex
  repeat' first
    | (extract_lets +onlyGivenNames t
       first
         | (refine Keeps.cut (t := t) ?_ (fun ht => ?_)
            on_goal 2 => clear_value t
            subst t)
         | skip)
    | with_reducible exact Keeps.refl _ _
    | with_reducible assumption
    | with_reducible refine checked_keeps ?_ ?_
    | with_reducible refine Keeps.ite ?_ ?_
    | (with_reducible apply recorded_keeps; decide)
    | split
    | dsimp only
    | (with_reducible apply Keeps.upd
       all_goals with_reducible first | exact Or.inl (by decide) | exact Or.inr rfl | exact rfl | exact ⟨rfl, rfl⟩ | exact Or.inr ⟨rfl, rfl, rfl⟩ | exact Or.inr ⟨rfl, rfl⟩ | exact Or.inr ⟨rfl, rfl, rfl, rfl⟩ | skip)

theorem stageFile_keeps (r : Request) (f : Bytes) (s : State) (hm₀ : Part.among [.bureau, .bot] K = true) (h₀ : Keeps K s₀ s) :
    Keeps K s₀ (stageFile r f s).2.2 := by
  refine Keeps.after ?_ hm₀ h₀
  clear hm₀ h₀
  unfold stageFile
  repeat' first
    | with_reducible exact Keeps.refl _ _
    | with_reducible refine checked_keeps ?_ ?_
    | with_reducible refine refuse_keeps ?_
    | (with_reducible apply refuse_keeps; decide)
    | (with_reducible apply recorded_keeps; decide)
    | split
    | dsimp only
    | (with_reducible apply Keeps.upd
       all_goals with_reducible first | exact Or.inl (by decide) | exact Or.inr rfl | exact rfl | exact ⟨rfl, rfl⟩ | exact Or.inr ⟨rfl, rfl, rfl⟩ | exact Or.inr ⟨rfl, rfl⟩ | exact Or.inr ⟨rfl, rfl, rfl, rfl⟩ | skip)

theorem stageInstall_keeps (r : Request) (f : Bytes) (s : State) (hm₀ : Part.among [.out, .walec, .bureau, .bot] K = true) (h₀ : Keeps K s₀ s) :
    Keeps K s₀ (stageInstall r f s).2.2 := by
  refine Keeps.after ?_ hm₀ h₀
  clear hm₀ h₀
  unfold stageInstall
  repeat' first
    | with_reducible exact Keeps.refl _ _
    | with_reducible refine checked_keeps ?_ ?_
    | (with_reducible apply recorded_keeps; decide)
    | dsimp only
    | (with_reducible apply Keeps.upd
       all_goals with_reducible first | exact Or.inl (by decide) | exact Or.inr rfl | exact rfl | exact ⟨rfl, rfl⟩ | exact Or.inr ⟨rfl, rfl, rfl⟩ | exact Or.inr ⟨rfl, rfl⟩ | exact Or.inr ⟨rfl, rfl, rfl, rfl⟩ | skip)

theorem stageCert_keeps (r : Request) (f : Bytes) (s : State) (hm₀ : Part.among [.bureau, .bot] K = true) (h₀ : Keeps K s₀ s) :
    Keeps K s₀ (stageCert r f s).2.2 := by
  refine Keeps.after ?_ hm₀ h₀
  clear hm₀ h₀
  unfold stageCert
  repeat' first
    | with_reducible exact Keeps.refl _ _
    | with_reducible refine checked_keeps ?_ ?_
    | (with_reducible apply recorded_keeps; decide)
    | split
    | dsimp only
    | (with_reducible apply Keeps.upd
       all_goals with_reducible first | exact Or.inl (by decide) | exact Or.inr rfl | exact rfl | exact ⟨rfl, rfl⟩ | exact Or.inr ⟨rfl, rfl, rfl⟩ | exact Or.inr ⟨rfl, rfl⟩ | exact Or.inr ⟨rfl, rfl, rfl, rfl⟩ | skip)

theorem stageKey_keeps (f : Bytes) (s : State) (hm₀ : Part.among [.bureau, .bot] K = true) (h₀ : Keeps K s₀ s) :
    Keeps K s₀ (stageKey f s).2.2 := by
  refine Keeps.after ?_ hm₀ h₀
  clear hm₀ h₀
  unfold stageKey
  repeat' first
    | (extract_lets +onlyGivenNames t
       first
         | (refine Keeps.cut (t := t) ?_ (fun ht => ?_)
            on_goal 2 => clear_value t
            subst t)
         | skip)
    | with_reducible exact Keeps.refl _ _
    | with_reducible assumption
    | with_reducible refine checked_keeps ?_ ?_
    | with_reducible refine refuse_keeps ?_
    | (with_reducible apply refuse_keeps; decide)
    | (with_reducible apply log_keeps; decide)
    | split
    | dsimp only
    | (with_reducible apply Keeps.upd
       all_goals with_reducible first | exact Or.inl (by decide) | exact Or.inr rfl | exact rfl | exact ⟨rfl, rfl⟩ | exact Or.inr ⟨rfl, rfl, rfl⟩ | exact Or.inr ⟨rfl, rfl⟩ | exact Or.inr ⟨rfl, rfl, rfl, rfl⟩ | skip)

theorem runStage_keeps (x : Outside) (r : Request) (s : State) (hm₀ : Part.among [.out, .dmc, .walec, .bureau, .bot] K = true) (h₀ : Keeps K s₀ s) :
    Keeps K s₀ (runStage x r s).2.2 := by
  refine Keeps.after ?_ hm₀ h₀
  clear hm₀ h₀
  unfold runStage
  extract_lets kind
  split
  · exact Keeps.refl _ _
  · split
    · extract_lets own
      split
      · exact Keeps.refl _ _
      · split
        · exact stageImage_keeps _ _ _ (by decide) (Keeps.refl _ _)
        · split
          · exact stageIndex_keeps _ _ _ (by decide) (Keeps.refl _ _)
          · split
            · exact stageFile_keeps _ _ _ (by decide) (Keeps.refl _ _)
            · split
              · exact stageInstall_keeps _ _ _ (by decide) (Keeps.refl _ _)
              · split
                · exact stageCert_keeps _ _ _ (by decide) (Keeps.refl _ _)
                · exact stageKey_keeps _ _ (by decide) (Keeps.refl _ _)
    · exact refuseObject_keeps _ _ _ (by decide) (Keeps.refl _ _)

theorem switchImage_keeps (k : ℕ) (s : State) (hm₀ : Part.among [.bureau, .bot] K = true) (h₀ : Keeps K s₀ s) :
    Keeps K s₀ (switchImage k s) := by
  refine Keeps.after ?_ hm₀ h₀
  clear hm₀ h₀
  unfold switchImage
  repeat' first
    | (extract_lets +onlyGivenNames t
       first
         | (refine Keeps.cut (t := t) ?_ (fun ht => ?_)
            on_goal 2 => clear_value t
            subst t)
         | skip)
    | with_reducible exact Keeps.refl _ _
    | with_reducible assumption
    | (with_reducible apply writeHeader_keeps; decide)
    | (with_reducible apply log_keeps; decide)
    | (with_reducible apply Keeps.upd
       all_goals with_reducible first | exact Or.inl (by decide) | exact Or.inr rfl | exact rfl | exact ⟨rfl, rfl⟩ | exact Or.inr ⟨rfl, rfl, rfl⟩ | exact Or.inr ⟨rfl, rfl⟩ | exact Or.inr ⟨rfl, rfl, rfl, rfl⟩ | skip)

theorem runSwitch_keeps (z0 : Outside) (r : Request) (s : State) (hm₀ : Part.among [.bureau, .bot] K = true) (h₀ : Keeps K s₀ s) :
    Keeps K s₀ (runSwitch z0 r s).2.2 := by
  refine Keeps.after ?_ hm₀ h₀
  clear hm₀ h₀
  unfold runSwitch
  repeat' first
    | (extract_lets +onlyGivenNames t
       first
         | (refine Keeps.cut (t := t) ?_ (fun ht => ?_)
            on_goal 2 => clear_value t
            subst t)
         | skip)
    | with_reducible exact Keeps.refl _ _
    | with_reducible assumption
    | with_reducible refine checked_keeps ?_ ?_
    | (with_reducible apply switchImage_keeps; decide)
    | split
    | dsimp only

/-! ### Commands -/

theorem execDrawerClass_keeps (ch : Channel) (s : State) : Out.Keeps [.eth, .dmc, .dram, .ports, .drawers, .queues, .walec, .bureau, .pins, .sent] s (execDrawerClass ch s) := by
  refine Out.Keeps.done (by decide) ?_
  exact serve_keeps _ _ _ _ _ _ (by decide) (fun r t hr => runDrawerClass_keeps {} _ _ (by decide) (Keeps.refl _ _)) (by decide) (Keeps.refl _ _)

theorem execEthBind_keeps (ch : Channel) (s : State) : Out.Keeps [.eth, .dmc, .dram, .ports, .queues, .walec, .bureau, .pins, .sent] s (execEthBind ch s) := by
  refine Out.Keeps.done (by decide) ?_
  exact serve_keeps _ _ _ _ _ _ (by decide) (fun r t hr => runEthBind_keeps {} _ _ (by decide) (Keeps.refl _ _)) (by decide) (Keeps.refl _ _)

theorem execEthSessionOpen_keeps (port : ℕ) (certificate : Bytes) (s : State) : Out.Keeps [.eth, .ports, .sent] s (execEthSessionOpen port certificate s) := by
  unfold execEthSessionOpen
  repeat' first
    | (extract_lets +onlyGivenNames t
       first
         | (refine Out.Keeps.cut (t := t) ?_ (fun ht => ?_)
            on_goal 2 => clear_value t
            subst t)
         | (refine Keeps.cut (t := t) ?_ (fun ht => ?_)
            on_goal 2 => clear_value t
            subst t)
         | skip)
    | with_reducible exact Keeps.refl _ _
    | with_reducible assumption
    | with_reducible refine Out.Keeps.done (by decide) ?_
    | with_reducible refine Keeps.ite ?_ ?_
    | with_reducible refine Keeps.ifEvent ?_ ?_
    | with_reducible refine Keeps.foldl (fun t x => ?_) ?_
    | with_reducible refine Keeps.elim ?_ (fun a => ?_)
    | (with_reducible apply openSession_keeps; decide)
    | split
    | (with_reducible apply Keeps.upd
       all_goals with_reducible first | exact Or.inl (by decide) | exact Or.inr rfl | exact rfl | exact ⟨rfl, rfl⟩ | exact Or.inr ⟨rfl, rfl, rfl⟩ | exact Or.inr ⟨rfl, rfl⟩ | exact Or.inr ⟨rfl, rfl, rfl, rfl⟩ | skip)

    | split
    | (with_reducible apply Keeps.upd
       all_goals with_reducible first | exact Or.inl (by decide) | exact Or.inr rfl | exact rfl | exact ⟨rfl, rfl⟩ | exact Or.inr ⟨rfl, rfl, rfl⟩ | exact Or.inr ⟨rfl, rfl⟩ | exact Or.inr ⟨rfl, rfl, rfl, rfl⟩ | skip)

theorem execRightsGet_keeps (ch : Channel) (s : State) : Out.Keeps [.eth, .dmc, .dram, .ports, .queues, .walec, .bureau, .pins, .sent] s (execRightsGet ch s) := by
  refine Out.Keeps.done (by decide) ?_
  exact serve_keeps _ _ _ _ _ _ (by decide) (fun r t hr => runGet_keeps {} _ _ (by decide) (Keeps.refl _ _)) (by decide) (Keeps.refl _ _)

theorem execRightsPut_keeps (ch : Channel) (s : State) : Out.Keeps [.eth, .dmc, .dram, .ports, .queues, .owners, .walec, .bureau, .pins, .sent] s (execRightsPut ch s) := by
  refine Out.Keeps.done (by decide) ?_
  exact serve_keeps _ _ _ _ _ _ (by decide) (fun r t hr => putVerb_keeps _ _ _ _ (by rw [hr]; decide)) (by decide) (Keeps.refl _ _)

theorem execUpdateStage_keeps (ch : Channel) (hostObj : Bytes) (s : State) : Out.Keeps [.eth, .out, .dmc, .dram, .ports, .queues, .walec, .bureau, .bot, .pins, .sent] s (execUpdateStage ch hostObj s) := by
  refine Out.Keeps.done (by decide) ?_
  exact serve_keeps _ _ _ _ _ _ (by decide) (fun r t hr => runStage_keeps _ _ _ (by decide) (Keeps.refl _ _)) (by decide) (Keeps.refl _ _)

theorem execUpdateStatus_keeps (ch : Channel) (s : State) : Out.Keeps [.eth, .dmc, .dram, .ports, .queues, .walec, .bureau, .pins, .sent] s (execUpdateStatus ch s) := by
  refine Out.Keeps.done (by decide) ?_
  exact serve_keeps _ _ _ _ _ _ (by decide) (fun r t hr => Keeps.refl _ _) (by decide) (Keeps.refl _ _)

theorem execUpdateSwitch_keeps (ch : Channel) (s : State) : Out.Keeps [.geom, .eth, .out, .dmc, .dram, .ports, .drawers, .queues, .health, .walec, .bureau, .bot, .pins, .sent, .drawn] s (execUpdateSwitch ch s) := by
  refine Out.Keeps.done (by decide) ?_
  exact serve_any _ _ _ _ _ _ (fun r t _ => runSwitch_keeps {} _ _ (by decide) (Keeps.refl _ _)) (by decide) (Keeps.refl _ _)

end Sys2Proof.Machine
end

