-- ==== Sys2Proof/Laws/KeepsMedia.lean ====
section
/-! SUPPORT. What the operations of Machine/Media.lean may change: one lemma each, which says that the
parts it does not name, the form of the DRAM, the Bureau's chain and the queue are kept. -/

open Host

set_option linter.unusedTactic false
set_option linter.unreachableTactic false
set_option linter.tactic.unusedName false

namespace Sys2Proof.Machine

variable {K : List Part} {s₀ : State}

theorem closeContext_keeps (n : ℕ) (s : State) (hm₀ : Part.among [.dec, .blt, .dfl, .queues, .pwr] K = true) (h₀ : Keeps K s₀ s) :
    Keeps K s₀ (closeContext n s) := by
  refine Keeps.after ?_ hm₀ h₀
  clear hm₀ h₀
  unfold closeContext
  repeat' first
    | (extract_lets +onlyGivenNames t
       first
         | (refine Keeps.cut (t := t) ?_ (fun ht => ?_)
            on_goal 2 => clear_value t
            subst t)
         | skip)
    | with_reducible exact Keeps.refl _ _
    | with_reducible assumption
    | with_reducible refine Keeps.ite ?_ ?_
    | with_reducible refine Keeps.ifEvent ?_ ?_
    | with_reducible refine Keeps.elim ?_ (fun a => ?_)
    | (with_reducible apply deleteQueue_keeps; decide)
    | (with_reducible apply setCore_keeps; decide)
    | (with_reducible apply setCtx_keeps; decide)
    | (with_reducible apply requestDomain_keeps; decide)
    | split
    | (with_reducible apply Keeps.upd
       all_goals with_reducible first | exact Or.inl (by decide) | exact Or.inr rfl | exact rfl | exact ⟨rfl, rfl⟩ | exact Or.inr ⟨rfl, rfl, rfl⟩ | exact Or.inr ⟨rfl, rfl⟩ | exact Or.inr ⟨rfl, rfl, rfl, rfl⟩ | skip)

theorem decodeQueue_keeps (r : Request) (s : State) (hm₀ : Part.among [.drawn] K = true) (h₀ : Keeps K s₀ s) :
    Keeps K s₀ (decodeQueue r s).2.2 := by
  refine Keeps.after ?_ hm₀ h₀
  clear hm₀ h₀
  unfold decodeQueue
  repeat' first
    | (extract_lets +onlyGivenNames t
       first
         | (refine Keeps.cut (t := t) ?_ (fun ht => ?_)
            on_goal 2 => clear_value t
            subst t)
         | skip)
    | with_reducible exact Keeps.refl _ _
    | with_reducible assumption
    | (with_reducible apply drew_keeps; decide)
    | dsimp only

theorem openContext_keeps (n : ℕ) (q : ℕ) (b : Bytes) (s : State) (hm₀ : Part.among [.dec, .pwr] K = true) (h₀ : Keeps K s₀ s) :
    Keeps K s₀ (openContext n q b s) := by
  refine Keeps.after ?_ hm₀ h₀
  clear hm₀ h₀
  unfold openContext
  repeat' first
    | (extract_lets +onlyGivenNames t
       first
         | (refine Keeps.cut (t := t) ?_ (fun ht => ?_)
            on_goal 2 => clear_value t
            subst t)
         | skip)
    | with_reducible exact Keeps.refl _ _
    | with_reducible assumption
    | with_reducible refine Keeps.ite ?_ ?_
    | with_reducible refine Keeps.ifEvent ?_ ?_
    | (with_reducible apply powerCore_keeps; decide)
    | (with_reducible apply setCtx_keeps; decide)
    | split
    | (with_reducible apply Keeps.upd
       all_goals with_reducible first | exact Or.inl (by decide) | exact Or.inr rfl | exact rfl | exact ⟨rfl, rfl⟩ | exact Or.inr ⟨rfl, rfl, rfl⟩ | exact Or.inr ⟨rfl, rfl⟩ | exact Or.inr ⟨rfl, rfl, rfl, rfl⟩ | skip)

theorem runModeSet_keeps (z0 : Outside) (r : Request) (s : State) (hm₀ : Part.among [.tim, .pwr, .spr, .sent] K = true) (h₀ : Keeps K s₀ s) :
    Keeps K s₀ (runModeSet z0 r s).2.2 := by
  refine Keeps.after ?_ hm₀ h₀
  clear hm₀ h₀
  unfold runModeSet
  repeat' first
    | (extract_lets +onlyGivenNames t
       first
         | (refine Keeps.cut (t := t) ?_ (fun ht => ?_)
            on_goal 2 => clear_value t
            subst t)
         | skip)
    | with_reducible exact Keeps.refl _ _
    | with_reducible assumption
    | with_reducible refine refuse_keeps ?_
    | with_reducible refine Keeps.ite ?_ ?_
    | (with_reducible apply refuse_keeps; decide)
    | (with_reducible apply modeRequest_keeps; decide)
    | split
    | dsimp only

theorem runBenchLoad_keeps (x : Outside) (r : Request) (s : State) (hm₀ : Part.among [.tim, .dmc, .bureau, .bot] K = true) (h₀ : Keeps K s₀ s) :
    Keeps K s₀ (runBenchLoad x r s).2.2 := by
  refine Keeps.after ?_ hm₀ h₀
  clear hm₀ h₀
  unfold runBenchLoad
  repeat' first
    | with_reducible exact Keeps.refl _ _
    | with_reducible assumption
    | with_reducible refine Keeps.ite ?_ ?_
    | with_reducible refine Keeps.ifEvent ?_ ?_
    | (with_reducible apply refuseObject_keeps; decide)
    | (with_reducible apply log_keeps; decide)
    | split
    | (with_reducible apply Keeps.upd
       all_goals with_reducible first | exact Or.inl (by decide) | exact Or.inr rfl | exact rfl | exact ⟨rfl, rfl⟩ | exact Or.inr ⟨rfl, rfl, rfl⟩ | exact Or.inr ⟨rfl, rfl⟩ | exact Or.inr ⟨rfl, rfl, rfl, rfl⟩ | skip)

theorem runModeSchedule_keeps (z0 : Outside) (r : Request) (s : State) (hm₀ : Part.among [.tim, .bureau] K = true) (h₀ : Keeps K s₀ s) :
    Keeps K s₀ (runModeSchedule z0 r s).2.2 := by
  refine Keeps.after ?_ hm₀ h₀
  clear hm₀ h₀
  unfold runModeSchedule
  repeat' first
    | (extract_lets +onlyGivenNames t
       first
         | (refine Keeps.cut (t := t) ?_ (fun ht => ?_)
            on_goal 2 => clear_value t
            subst t)
         | skip)
    | with_reducible exact Keeps.refl _ _
    | with_reducible assumption
    | with_reducible refine checked_keeps ?_ ?_
    | with_reducible refine Keeps.elim ?_ (fun a => ?_)
    | (with_reducible apply recorded_keeps; decide)
    | dsimp only
    | (with_reducible apply Keeps.upd
       all_goals with_reducible first | exact Or.inl (by decide) | exact Or.inr rfl | exact rfl | exact ⟨rfl, rfl⟩ | exact Or.inr ⟨rfl, rfl, rfl⟩ | exact Or.inr ⟨rfl, rfl⟩ | exact Or.inr ⟨rfl, rfl, rfl, rfl⟩ | skip)

theorem runLayerResult_keeps (z0 : Outside) (r : Request) (s : State) (hm₀ : Part.among [] K = true) (h₀ : Keeps K s₀ s) :
    Keeps K s₀ (runLayerResult z0 r s).2.2 := by
  refine Keeps.after ?_ hm₀ h₀
  clear hm₀ h₀
  unfold runLayerResult
  repeat' first
    | with_reducible exact Keeps.refl _ _
    | with_reducible refine checked_keeps ?_ ?_
    | dsimp only

theorem runLayerQuery_keeps (z0 : Outside) (r : Request) (s : State) (hm₀ : Part.among [] K = true) (h₀ : Keeps K s₀ s) :
    Keeps K s₀ (runLayerQuery z0 r s).2.2 := by
  refine Keeps.after ?_ hm₀ h₀
  clear hm₀ h₀
  unfold runLayerQuery
  repeat' first
    | (extract_lets +onlyGivenNames t
       first
         | (refine Keeps.cut (t := t) ?_ (fun ht => ?_)
            on_goal 2 => clear_value t
            subst t)
         | skip)
    | with_reducible exact Keeps.refl _ _
    | with_reducible assumption
    | with_reducible refine checked_keeps ?_ ?_
    | dsimp only

theorem runStreamOpen_keeps (z1 : Outside) (r : Request) (s : State) (hm₀ : Part.among [.dec, .blt, .dfl, .dmc, .dram, .ports, .queues, .bureau, .pwr, .pins, .sent, .drawn] K = true) (h₀ : Keeps K s₀ s) :
    Keeps K s₀ (runStreamOpen z1 r s).2.2 := by
  refine Keeps.after ?_ hm₀ h₀
  clear hm₀ h₀
  unfold runStreamOpen
  extract_lets b n
  have hq : Keeps [.blt, .drawn] s (decodeQueue r s).2.2 := decodeQueue_keeps _ _ (by decide) (Keeps.refl _ _)
  generalize decodeQueue r s = w at hq ⊢
  obtain ⟨q, c, t⟩ := w
  refine checked_keeps (recorded_keeps _ _ _ _ _ (by decide)
    (openContext_keeps _ _ _ _ (by decide) (createQueue_keeps _ _ _ _ (by decide) ?_))) (Keeps.refl _ _)
  exact Keeps.more hq (by decide)

theorem runStreamClose_keeps (z0 : Outside) (r : Request) (s : State) (hm₀ : Part.among [.dec, .blt, .dfl, .queues, .bureau, .pwr] K = true) (h₀ : Keeps K s₀ s) :
    Keeps K s₀ (runStreamClose z0 r s).2.2 := by
  refine Keeps.after ?_ hm₀ h₀
  clear hm₀ h₀
  unfold runStreamClose
  repeat' first
    | (extract_lets +onlyGivenNames t
       first
         | (refine Keeps.cut (t := t) ?_ (fun ht => ?_)
            on_goal 2 => clear_value t
            subst t)
         | skip)
    | with_reducible exact Keeps.refl _ _
    | with_reducible assumption
    | with_reducible refine checked_keeps ?_ ?_
    | (with_reducible apply recorded_keeps; decide)
    | (with_reducible apply closeContext_keeps; decide)
    | dsimp only

theorem runLayerCommit_keeps (x : Outside) (r : Request) (s : State) (hm₀ : Part.among [.cmp, .blt, .dmc] K = true) (h₀ : Keeps K s₀ s) :
    Keeps K s₀ (runLayerCommit x r s).2.2 := by
  refine Keeps.after ?_ hm₀ h₀
  clear hm₀ h₀
  unfold runLayerCommit
  split
  · rename_i d hd
    have hw := submitCommit_keeps (K := [.cmp, .blt, .dmc]) r.cls d (reqOrigin r) (requestKey s r) s (by decide) (Keeps.refl _ s)
    generalize submitCommit r.cls d (reqOrigin r) (requestKey s r) s = w at hw
    obtain ⟨c, id, frame, t⟩ := w
    dsimp only at hw ⊢
    split
    · exact hw
    · exact Keeps.refl _ _
  · exact refuseObject_keeps _ _ _ (by decide) (Keeps.refl _ _)

/-! ### Commands -/

theorem execBenchLoad_keeps (ch : Channel) (hostObj : Bytes) (s : State) : Out.Keeps [.tim, .eth, .dmc, .dram, .ports, .queues, .walec, .bureau, .bot, .pins, .sent] s (execBenchLoad ch hostObj s) := by
  refine Out.Keeps.done (by decide) ?_
  exact serve_keeps _ _ _ _ _ _ (by decide) (fun r t hr => runBenchLoad_keeps _ _ _ (by decide) (Keeps.refl _ _)) (by decide) (Keeps.refl _ _)

theorem execLayerCommit_keeps (ch : Channel) (hostObj : Bytes) (s : State) : Out.Keeps [.cmp, .eth, .blt, .dmc, .dram, .ports, .queues, .walec, .bureau, .pins, .sent] s (execLayerCommit ch hostObj s) := by
  refine Out.Keeps.done (by decide) ?_
  exact serve_keeps _ _ _ _ _ _ (by decide) (fun r t hr => runLayerCommit_keeps _ _ _ (by decide) (Keeps.refl _ _)) (by decide) (Keeps.refl _ _)

theorem execLayerQuery_keeps (ch : Channel) (s : State) : Out.Keeps [.eth, .dmc, .dram, .ports, .queues, .walec, .bureau, .pins, .sent] s (execLayerQuery ch s) := by
  refine Out.Keeps.done (by decide) ?_
  exact serve_keeps _ _ _ _ _ _ (by decide) (fun r t hr => runLayerQuery_keeps {} _ _ (by decide) (Keeps.refl _ _)) (by decide) (Keeps.refl _ _)

theorem execLayerResult_keeps (ch : Channel) (s : State) : Out.Keeps [.eth, .dmc, .dram, .ports, .queues, .walec, .bureau, .pins, .sent] s (execLayerResult ch s) := by
  refine Out.Keeps.done (by decide) ?_
  exact serve_keeps _ _ _ _ _ _ (by decide) (fun r t hr => runLayerResult_keeps {} _ _ (by decide) (Keeps.refl _ _)) (by decide) (Keeps.refl _ _)

theorem execModeGet_keeps (ch : Channel) (s : State) : Out.Keeps [.eth, .dmc, .dram, .ports, .queues, .walec, .bureau, .pins, .sent] s (execModeGet ch s) := by
  refine Out.Keeps.done (by decide) ?_
  exact serve_keeps _ _ _ _ _ _ (by decide) (fun r t hr => runGet_keeps {} _ _ (by decide) (Keeps.refl _ _)) (by decide) (Keeps.refl _ _)

theorem execModePut_keeps (ch : Channel) (s : State) : Out.Keeps [.tim, .eth, .dmc, .dram, .ports, .queues, .walec, .bureau, .pins, .sent] s (execModePut ch s) := by
  refine Out.Keeps.done (by decide) ?_
  exact serve_keeps _ _ _ _ _ _ (by decide) (fun r t hr => putVerb_keeps _ _ _ _ (by rw [hr]; decide)) (by decide) (Keeps.refl _ _)

theorem execModeSchedule_keeps (ch : Channel) (s : State) : Out.Keeps [.tim, .eth, .dmc, .dram, .ports, .queues, .walec, .bureau, .pins, .sent] s (execModeSchedule ch s) := by
  refine Out.Keeps.done (by decide) ?_
  exact serve_keeps _ _ _ _ _ _ (by decide) (fun r t hr => runModeSchedule_keeps {} _ _ (by decide) (Keeps.refl _ _)) (by decide) (Keeps.refl _ _)

theorem execModeSet_keeps (ch : Channel) (s : State) : Out.Keeps [.tim, .eth, .dmc, .dram, .ports, .queues, .walec, .bureau, .pwr, .spr, .pins, .sent] s (execModeSet ch s) := by
  refine Out.Keeps.done (by decide) ?_
  exact serve_keeps _ _ _ _ _ _ (by decide) (fun r t hr => runModeSet_keeps {} _ _ (by decide) (Keeps.refl _ _)) (by decide) (Keeps.refl _ _)

theorem execSceneGet_keeps (ch : Channel) (s : State) : Out.Keeps [.eth, .dmc, .dram, .ports, .queues, .walec, .bureau, .pins, .sent] s (execSceneGet ch s) := by
  refine Out.Keeps.done (by decide) ?_
  exact serve_keeps _ _ _ _ _ _ (by decide) (fun r t hr => runGet_keeps {} _ _ (by decide) (Keeps.refl _ _)) (by decide) (Keeps.refl _ _)

theorem execScenePut_keeps (ch : Channel) (s : State) : Out.Keeps [.tim, .eth, .dmc, .dram, .ports, .queues, .walec, .bureau, .pins, .sent] s (execScenePut ch s) := by
  refine Out.Keeps.done (by decide) ?_
  exact serve_keeps _ _ _ _ _ _ (by decide) (fun r t hr => putVerb_keeps _ _ _ _ (by rw [hr]; decide)) (by decide) (Keeps.refl _ _)

theorem execStreamClose_keeps (ch : Channel) (s : State) : Out.Keeps [.eth, .dec, .blt, .dfl, .dmc, .dram, .ports, .queues, .walec, .bureau, .pwr, .pins, .sent] s (execStreamClose ch s) := by
  refine Out.Keeps.done (by decide) ?_
  exact serve_keeps _ _ _ _ _ _ (by decide) (fun r t hr => runStreamClose_keeps {} _ _ (by decide) (Keeps.refl _ _)) (by decide) (Keeps.refl _ _)

theorem execStreamOpen_keeps (ch : Channel) (s : State) : Out.Keeps [.eth, .dec, .blt, .dfl, .dmc, .dram, .ports, .queues, .walec, .bureau, .pwr, .pins, .sent, .drawn] s (execStreamOpen ch s) := by
  refine Out.Keeps.done (by decide) ?_
  exact serve_keeps _ _ _ _ _ _ (by decide) (fun r t hr => runStreamOpen_keeps {} _ _ (by decide) (Keeps.refl _ _)) (by decide) (Keeps.refl _ _)

theorem execWitnessGet_keeps (ch : Channel) (s : State) : Out.Keeps [.eth, .dmc, .dram, .ports, .queues, .walec, .bureau, .pins, .sent] s (execWitnessGet ch s) := by
  refine Out.Keeps.done (by decide) ?_
  exact serve_keeps _ _ _ _ _ _ (by decide) (fun r t hr => runGet_keeps {} _ _ (by decide) (Keeps.refl _ _)) (by decide) (Keeps.refl _ _)

theorem execWitnessPut_keeps (ch : Channel) (s : State) : Out.Keeps [.eth, .enc, .dmc, .dram, .ports, .queues, .walec, .bureau, .pins, .sent] s (execWitnessPut ch s) := by
  refine Out.Keeps.done (by decide) ?_
  exact serve_keeps _ _ _ _ _ _ (by decide) (fun r t hr => putVerb_keeps _ _ _ _ (by rw [hr]; decide)) (by decide) (Keeps.refl _ _)

end Sys2Proof.Machine
end

