-- ==== Sys2Proof/Laws/KeepsSets.lean ====
section
/-! SUPPORT. What the operations of Machine/Sets.lean may change: one lemma each, which says that the
parts it does not name, the form of the DRAM, the Bureau's chain and the queue are kept. -/

open Host

set_option linter.unusedTactic false
set_option linter.unreachableTactic false
set_option linter.tactic.unusedName false

namespace Sys2Proof.Machine

variable {K : List Part} {s₀ : State}

/-- `among` is transitive. -/
theorem Part.among_trans {l m k : List Part} (h : Part.among l m = true) (hm : Part.among m k = true) : Part.among l k = true := by
  simp only [Part.among, List.all_eq_true, decide_eq_true_eq] at *
  exact fun p hp => hm p (h p hp)

theorem runLoad_keeps (busy : State → Bool) (status : Outside → State → Bytes → Nat → Status) (bank : State → Nat)
    (take : Bytes → State → State) (spoil : State → Bytes → Nat → State) (x : Outside) (r : Request) (s : State)
    (ht : ∀ f t, Keeps K t (take f t)) (hp : ∀ t f k, Keeps K t (spoil t f k)) (hm₀ : Part.among [.dmc, .bureau] K = true) (h₀ : Keeps K s₀ s) :
    Keeps K s₀ (runLoad busy status bank take spoil x r s).2.2 := by
  have hb : Part.among [.bureau] K = true := Part.among_trans (by decide) hm₀
  have hd : Part.among [.dmc] K = true := Part.among_trans (by decide) hm₀
  unfold runLoad
  split
  · exact h₀
  · split
    · split
      · exact log_keeps _ _ _ _ _ hb (Keeps.trans h₀ (ht _ _))
      · exact Keeps.trans h₀ (hp _ _ _)
    · exact refuseObject_keeps _ _ _ hd h₀

theorem spoilMap_keeps (s : State) (f : Bytes) (v : ℕ) (hm₀ : Part.among [.out] K = true) (h₀ : Keeps K s₀ s) :
    Keeps K s₀ (spoilMap s f v) := by
  refine Keeps.after ?_ hm₀ h₀
  clear hm₀ h₀
  unfold spoilMap
  repeat' first
    | (extract_lets +onlyGivenNames t
       first
         | (refine Keeps.cut (t := t) ?_ (fun ht => ?_)
            on_goal 2 => clear_value t
            subst t)
         | skip)
    | with_reducible exact Keeps.refl _ _
    | with_reducible assumption
    | with_reducible refine Keeps.ite ?_ ?_
    | split
    | (with_reducible apply Keeps.upd
       all_goals with_reducible first | exact Or.inl (by decide) | exact Or.inr rfl | exact rfl | exact ⟨rfl, rfl⟩ | exact Or.inr ⟨rfl, rfl, rfl⟩ | exact Or.inr ⟨rfl, rfl⟩ | exact Or.inr ⟨rfl, rfl, rfl, rfl⟩ | skip)

theorem runActivate_keeps (pair : State → BankPair) (fits : State → Bool) (change : Nat → Change) (x : Outside) (r : Request)
    (s : State) (hm₀ : Part.among [.tim] K = true) (h₀ : Keeps K s₀ s) : Keeps K s₀ (runActivate pair fits change x r s).2.2 := by
  unfold runActivate
  dsimp only
  split
  · exact h₀
  · exact h₀
  · split
    · exact h₀
    · split
      · exact plan_keeps _ _ _ _ hm₀ h₀
      · exact h₀
  · exact h₀
  · exact h₀

theorem spoilGeom_keeps (s : State) (f : Bytes) (v : ℕ) (hm₀ : Part.among [.geom] K = true) (h₀ : Keeps K s₀ s) :
    Keeps K s₀ (spoilGeom s f v) := by
  refine Keeps.after ?_ hm₀ h₀
  clear hm₀ h₀
  unfold spoilGeom
  repeat' first
    | with_reducible exact Keeps.refl _ _
    | with_reducible refine Keeps.ite ?_ ?_
    | (with_reducible apply loadGeomFile_keeps; decide)
    | split

theorem runStressResolve_keeps (z0 : Outside) (r : Request) (s : State) (hm₀ : Part.among [.out, .bureau] K = true) (h₀ : Keeps K s₀ s) :
    Keeps K s₀ (runStressResolve z0 r s).2.2 := by
  refine Keeps.after ?_ hm₀ h₀
  clear hm₀ h₀
  unfold runStressResolve
  repeat' first
    | (extract_lets +onlyGivenNames t
       first
         | (refine Keeps.cut (t := t) ?_ (fun ht => ?_)
            on_goal 2 => clear_value t
            subst t)
         | skip)
    | with_reducible exact Keeps.refl _ _
    | with_reducible assumption
    | with_reducible refine checked_keeps ?_ ?_
    | (with_reducible apply recorded_keeps; decide)
    | dsimp only
    | (with_reducible apply Keeps.upd
       all_goals with_reducible first | exact Or.inl (by decide) | exact Or.inr rfl | exact rfl | exact ⟨rfl, rfl⟩ | exact Or.inr ⟨rfl, rfl, rfl⟩ | exact Or.inr ⟨rfl, rfl⟩ | exact Or.inr ⟨rfl, rfl, rfl, rfl⟩ | skip)

theorem runSigRegion_keeps (z0 : Outside) (r : Request) (s : State) (hm₀ : Part.among [.tim, .bureau] K = true) (h₀ : Keeps K s₀ s) :
    Keeps K s₀ (runSigRegion z0 r s).2.2 := by
  refine Keeps.after ?_ hm₀ h₀
  clear hm₀ h₀
  unfold runSigRegion
  repeat' first
    | (extract_lets +onlyGivenNames t
       first
         | (refine Keeps.cut (t := t) ?_ (fun ht => ?_)
            on_goal 2 => clear_value t
            subst t)
         | skip)
    | with_reducible exact Keeps.refl _ _
    | with_reducible assumption
    | with_reducible refine checked_keeps ?_ ?_
    | (with_reducible apply recorded_keeps; decide)
    | (with_reducible apply plan_keeps; decide)
    | dsimp only

theorem runSigRelease_keeps (z0 : Outside) (r : Request) (s : State) (hm₀ : Part.among [.tim] K = true) (h₀ : Keeps K s₀ s) :
    Keeps K s₀ (runSigRelease z0 r s).2.2 := by
  refine Keeps.after ?_ hm₀ h₀
  clear hm₀ h₀
  unfold runSigRelease
  repeat' first
    | (extract_lets +onlyGivenNames t
       first
         | (refine Keeps.cut (t := t) ?_ (fun ht => ?_)
            on_goal 2 => clear_value t
            subst t)
         | skip)
    | with_reducible exact Keeps.refl _ _
    | with_reducible assumption
    | with_reducible refine checked_keeps ?_ ?_
    | (with_reducible apply plan_keeps; decide)
    | dsimp only

theorem runSigQuery_keeps (z0 : Outside) (r : Request) (s : State) (hm₀ : Part.among [] K = true) (h₀ : Keeps K s₀ s) :
    Keeps K s₀ (runSigQuery z0 r s).2.2 := by
  refine Keeps.after ?_ hm₀ h₀
  clear hm₀ h₀
  unfold runSigQuery
  repeat' first
    | (extract_lets +onlyGivenNames t
       first
         | (refine Keeps.cut (t := t) ?_ (fun ht => ?_)
            on_goal 2 => clear_value t
            subst t)
         | skip)
    | with_reducible exact Keeps.refl _ _
    | with_reducible assumption
    | with_reducible refine checked_keeps ?_ ?_
    | dsimp only

theorem runModelLoad_keeps (x : Outside) (r : Request) (s : State) (hm₀ : Part.among [.tim, .out, .dmc, .bureau] K = true) (h₀ : Keeps K s₀ s) :
    Keeps K s₀ (runModelLoad x r s).2.2 := by
  refine Keeps.after ?_ hm₀ h₀
  exact runLoad_keeps _ _ _ _ _ _ _ _ (fun f t => takeModel_keeps _ _ _ (by decide) (Keeps.refl _ _)) (fun t f k => Keeps.refl _ _) (by decide) (Keeps.refl _ _)

theorem mapLoadVerb_keeps (x : Outside) (r : Request) (s : State) : Keeps [.geom, .out, .dfl, .dmc, .bureau] s (mapLoadVerb.run x r s).2.2 :=
  runLoad_keeps _ _ _ _ _ _ _ _ (fun _ _ => loadMapFile_keeps _ _ (by decide) (Keeps.refl _ _)) (fun _ _ _ => spoilMap_keeps _ _ _ (by decide) (Keeps.refl _ _)) (by decide) (Keeps.refl _ _)

theorem loadGeomVerb_keeps (x : Outside) (r : Request) (s : State) : Keeps [.geom, .dmc, .bureau] s (loadGeomVerb.run x r s).2.2 :=
  runLoad_keeps _ _ _ _ _ _ _ _ (fun _ _ => loadGeomFile_keeps _ _ _ (by decide) (Keeps.refl _ _)) (fun _ _ _ => spoilGeom_keeps _ _ _ (by decide) (Keeps.refl _ _)) (by decide) (Keeps.refl _ _)

theorem loadCurvesVerb_keeps (x : Outside) (r : Request) (s : State) : Keeps [.geom, .out, .dmc, .bureau] s (loadCurvesVerb.run x r s).2.2 :=
  runLoad_keeps _ _ _ _ _ _ _ _ (fun _ _ => loadCurveFile_keeps _ _ (by decide) (Keeps.refl _ _)) (fun _ _ _ => Keeps.refl _ _) (by decide) (Keeps.refl _ _)

theorem modelLoadVerb_keeps (x : Outside) (r : Request) (s : State) : Keeps [.tim, .out, .dmc, .bureau] s (modelLoadVerb.run x r s).2.2 :=
  runModelLoad_keeps _ _ _ (by decide) (Keeps.refl _ _)

theorem activateVerb_keeps (pair : State → BankPair) (fits : State → Bool) (change : Nat → Change) (x : Outside) (r : Request) (s : State) :
    Keeps [.tim] s (runActivate pair fits change x r s).2.2 := runActivate_keeps _ _ _ _ _ _ (by decide) (Keeps.refl _ _)

/-! ### Commands -/

theorem execActivateCurves_keeps (ch : Channel) (s : State) : Out.Keeps [.tim, .eth, .dmc, .dram, .ports, .queues, .walec, .bureau, .pins, .sent] s (execActivateCurves ch s) := by
  refine Out.Keeps.done (by decide) ?_
  exact serve_keeps _ _ _ _ _ _ (by decide) (fun r t hr => Keeps.more (activateVerb_keeps _ _ _ {} _ _) (by decide)) (by decide) (Keeps.refl _ _)

theorem execActivateGeom_keeps (ch : Channel) (s : State) : Out.Keeps [.tim, .eth, .dmc, .dram, .ports, .queues, .walec, .bureau, .pins, .sent] s (execActivateGeom ch s) := by
  refine Out.Keeps.done (by decide) ?_
  exact serve_keeps _ _ _ _ _ _ (by decide) (fun r t hr => Keeps.more (activateVerb_keeps _ _ _ {} _ _) (by decide)) (by decide) (Keeps.refl _ _)

theorem execLoadCurves_keeps (ch : Channel) (hostObj : Bytes) (s : State) : Out.Keeps [.geom, .eth, .out, .dmc, .dram, .ports, .queues, .walec, .bureau, .pins, .sent] s (execLoadCurves ch hostObj s) := by
  refine Out.Keeps.done (by decide) ?_
  exact serve_keeps _ _ _ _ _ _ (by decide) (fun r t hr => Keeps.more (loadCurvesVerb_keeps _ _ _) (by decide)) (by decide) (Keeps.refl _ _)

theorem execLoadGeom_keeps (ch : Channel) (hostObj : GeomInput) (s : State) : Out.Keeps [.geom, .eth, .dmc, .dram, .ports, .queues, .walec, .bureau, .pins, .sent] s (execLoadGeom ch hostObj s) := by
  refine Out.Keeps.done (by decide) ?_
  exact serve_keeps _ _ _ _ _ _ (by decide) (fun r t hr => Keeps.more (loadGeomVerb_keeps _ _ _) (by decide)) (by decide) (Keeps.refl _ _)

theorem execMapActivate_keeps (ch : Channel) (s : State) : Out.Keeps [.tim, .eth, .dmc, .dram, .ports, .queues, .walec, .bureau, .pins, .sent] s (execMapActivate ch s) := by
  refine Out.Keeps.done (by decide) ?_
  exact serve_keeps _ _ _ _ _ _ (by decide) (fun r t hr => Keeps.more (activateVerb_keeps _ _ _ {} _ _) (by decide)) (by decide) (Keeps.refl _ _)

theorem execMapGet_keeps (ch : Channel) (s : State) : Out.Keeps [.eth, .dmc, .dram, .ports, .queues, .walec, .bureau, .pins, .sent] s (execMapGet ch s) := by
  refine Out.Keeps.done (by decide) ?_
  exact serve_keeps _ _ _ _ _ _ (by decide) (fun r t hr => runGet_keeps {} _ _ (by decide) (Keeps.refl _ _)) (by decide) (Keeps.refl _ _)

theorem execMapLoad_keeps (ch : Channel) (hostObj : Bytes) (s : State) : Out.Keeps [.geom, .eth, .out, .dfl, .dmc, .dram, .ports, .queues, .walec, .bureau, .pins, .sent] s (execMapLoad ch hostObj s) := by
  refine Out.Keeps.done (by decide) ?_
  exact serve_keeps _ _ _ _ _ _ (by decide) (fun r t hr => Keeps.more (mapLoadVerb_keeps _ _ _) (by decide)) (by decide) (Keeps.refl _ _)

theorem execMapPut_keeps (ch : Channel) (s : State) : Out.Keeps [.eth, .out, .dmc, .dram, .ports, .queues, .walec, .bureau, .pins, .sent] s (execMapPut ch s) := by
  refine Out.Keeps.done (by decide) ?_
  exact serve_keeps _ _ _ _ _ _ (by decide) (fun r t hr => putVerb_keeps _ _ _ _ (by rw [hr]; decide)) (by decide) (Keeps.refl _ _)

theorem execModelLoad_keeps (ch : Channel) (hostObj : Bytes) (s : State) : Out.Keeps [.tim, .eth, .out, .dmc, .dram, .ports, .queues, .walec, .bureau, .pins, .sent] s (execModelLoad ch hostObj s) := by
  refine Out.Keeps.done (by decide) ?_
  exact serve_keeps _ _ _ _ _ _ (by decide) (fun r t hr => Keeps.more (modelLoadVerb_keeps _ _ _) (by decide)) (by decide) (Keeps.refl _ _)

theorem execSigQuery_keeps (ch : Channel) (s : State) : Out.Keeps [.eth, .dmc, .dram, .ports, .queues, .walec, .bureau, .pins, .sent] s (execSigQuery ch s) := by
  refine Out.Keeps.done (by decide) ?_
  exact serve_keeps _ _ _ _ _ _ (by decide) (fun r t hr => runSigQuery_keeps {} _ _ (by decide) (Keeps.refl _ _)) (by decide) (Keeps.refl _ _)

theorem execSigRegion_keeps (ch : Channel) (s : State) : Out.Keeps [.tim, .eth, .dmc, .dram, .ports, .queues, .walec, .bureau, .pins, .sent] s (execSigRegion ch s) := by
  refine Out.Keeps.done (by decide) ?_
  exact serve_keeps _ _ _ _ _ _ (by decide) (fun r t hr => runSigRegion_keeps {} _ _ (by decide) (Keeps.refl _ _)) (by decide) (Keeps.refl _ _)

theorem execSigRelease_keeps (ch : Channel) (s : State) : Out.Keeps [.tim, .eth, .dmc, .dram, .ports, .queues, .walec, .bureau, .pins, .sent] s (execSigRelease ch s) := by
  refine Out.Keeps.done (by decide) ?_
  exact serve_keeps _ _ _ _ _ _ (by decide) (fun r t hr => runSigRelease_keeps {} _ _ (by decide) (Keeps.refl _ _)) (by decide) (Keeps.refl _ _)

theorem execStressGet_keeps (ch : Channel) (s : State) : Out.Keeps [.eth, .dmc, .dram, .ports, .queues, .walec, .bureau, .pins, .sent] s (execStressGet ch s) := by
  refine Out.Keeps.done (by decide) ?_
  exact serve_keeps _ _ _ _ _ _ (by decide) (fun r t hr => runGet_keeps {} _ _ (by decide) (Keeps.refl _ _)) (by decide) (Keeps.refl _ _)

theorem execStressPut_keeps (ch : Channel) (s : State) : Out.Keeps [.eth, .out, .dmc, .dram, .ports, .queues, .walec, .bureau, .pins, .sent] s (execStressPut ch s) := by
  refine Out.Keeps.done (by decide) ?_
  exact serve_keeps _ _ _ _ _ _ (by decide) (fun r t hr => putVerb_keeps _ _ _ _ (by rw [hr]; decide)) (by decide) (Keeps.refl _ _)

theorem execStressReport_keeps (ch : Channel) (s : State) : Out.Keeps [.eth, .dmc, .dram, .ports, .queues, .walec, .bureau, .pins, .sent] s (execStressReport ch s) := by
  refine Out.Keeps.done (by decide) ?_
  exact serve_keeps _ _ _ _ _ _ (by decide) (fun r t hr => Keeps.refl _ _) (by decide) (Keeps.refl _ _)

theorem execStressResolve_keeps (ch : Channel) (s : State) : Out.Keeps [.eth, .out, .dmc, .dram, .ports, .queues, .walec, .bureau, .pins, .sent] s (execStressResolve ch s) := by
  refine Out.Keeps.done (by decide) ?_
  exact serve_keeps _ _ _ _ _ _ (by decide) (fun r t hr => runStressResolve_keeps {} _ _ (by decide) (Keeps.refl _ _)) (by decide) (Keeps.refl _ _)

end Sys2Proof.Machine
end

