-- ==== Sys2Proof/Laws/KeepsUpkeep.lean ====
section
/-! SUPPORT. What the operations of Machine/Upkeep.lean may change: one lemma each, which says that the
parts it does not name, the form of the DRAM, the Bureau's chain and the queue are kept. -/

open Host

set_option linter.unusedTactic false
set_option linter.unreachableTactic false
set_option linter.tactic.unusedName false

namespace Sys2Proof.Machine

variable {K : List Part} {s₀ : State}

theorem runTimeEvent_keeps (z0 : Outside) (r : Request) (s : State) (hm₀ : Part.among [.tim, .bureau] K = true) (h₀ : Keeps K s₀ s) :
    Keeps K s₀ (runTimeEvent z0 r s).2.2 := by
  refine Keeps.after ?_ hm₀ h₀
  clear hm₀ h₀
  unfold runTimeEvent
  repeat' first
    | (extract_lets +onlyGivenNames t
       first
         | (refine Keeps.cut (t := t) ?_ (fun ht => ?_)
            on_goal 2 => clear_value t
            subst t)
         | skip)
    | with_reducible exact Keeps.refl _ _
    | with_reducible assumption
    | with_reducible refine checked_keeps ?_ ?_
    | with_reducible refine Keeps.ite ?_ ?_
    | (with_reducible apply recorded_keeps; decide)
    | (with_reducible apply setSlot_keeps; decide)
    | split
    | dsimp only
    | (with_reducible apply Keeps.upd
       all_goals with_reducible first | exact Or.inl (by decide) | exact Or.inr rfl | exact rfl | exact ⟨rfl, rfl⟩ | exact Or.inr ⟨rfl, rfl, rfl⟩ | exact Or.inr ⟨rfl, rfl⟩ | exact Or.inr ⟨rfl, rfl, rfl, rfl⟩ | skip)

theorem runThermAck_keeps (z0 : Outside) (r : Request) (s : State) (hm₀ : Part.among [.bureau, .thm] K = true) (h₀ : Keeps K s₀ s) :
    Keeps K s₀ (runThermAck z0 r s).2.2 := by
  refine Keeps.after ?_ hm₀ h₀
  clear hm₀ h₀
  unfold runThermAck
  repeat' first
    | (extract_lets +onlyGivenNames t
       first
         | (refine Keeps.cut (t := t) ?_ (fun ht => ?_)
            on_goal 2 => clear_value t
            subst t)
         | skip)
    | with_reducible exact Keeps.refl _ _
    | with_reducible assumption
    | with_reducible refine checked_keeps ?_ ?_
    | (with_reducible apply log_keeps; decide)
    | (with_reducible apply setSensor_keeps; decide)
    | dsimp only
    | (with_reducible apply Keeps.upd
       all_goals with_reducible first | exact Or.inl (by decide) | exact Or.inr rfl | exact rfl | exact ⟨rfl, rfl⟩ | exact Or.inr ⟨rfl, rfl, rfl⟩ | exact Or.inr ⟨rfl, rfl⟩ | exact Or.inr ⟨rfl, rfl, rfl, rfl⟩ | skip)

theorem runMigrate_keeps (z0 : Outside) (r : Request) (s : State) (hm₀ : Part.among [.dmc, .bureau, .pwr, .spr] K = true) (h₀ : Keeps K s₀ s) :
    Keeps K s₀ (runMigrate z0 r s).2.2 := by
  refine Keeps.after ?_ hm₀ h₀
  clear hm₀ h₀
  unfold runMigrate
  repeat' first
    | (extract_lets +onlyGivenNames t
       first
         | (refine Keeps.cut (t := t) ?_ (fun ht => ?_)
            on_goal 2 => clear_value t
            subst t)
         | skip)
    | with_reducible exact Keeps.refl _ _
    | with_reducible assumption
    | with_reducible refine checked_keeps ?_ ?_
    | (with_reducible apply startMigration_keeps; decide)
    | dsimp only

theorem runRestoreLink_keeps (z0 : Outside) (r : Request) (s : State) (hm₀ : Part.among [.tlk, .bureau] K = true) (h₀ : Keeps K s₀ s) :
    Keeps K s₀ (runRestoreLink z0 r s).2.2 := by
  refine Keeps.after ?_ hm₀ h₀
  clear hm₀ h₀
  unfold runRestoreLink
  repeat' first
    | (extract_lets +onlyGivenNames t
       first
         | (refine Keeps.cut (t := t) ?_ (fun ht => ?_)
            on_goal 2 => clear_value t
            subst t)
         | skip)
    | with_reducible exact Keeps.refl _ _
    | with_reducible assumption
    | with_reducible refine checked_keeps ?_ ?_
    | with_reducible refine Keeps.ite ?_ ?_
    | (with_reducible apply recorded_keeps; decide)
    | (with_reducible apply restoreAt_keeps; decide)
    | split
    | dsimp only

/-! ### Commands -/

theorem execMigrate_keeps (ch : Channel) (s : State) : Out.Keeps [.eth, .dmc, .dram, .ports, .queues, .walec, .bureau, .pwr, .spr, .pins, .sent] s (execMigrate ch s) := by
  refine Out.Keeps.done (by decide) ?_
  exact serve_keeps _ _ _ _ _ _ (by decide) (fun r t hr => runMigrate_keeps {} _ _ (by decide) (Keeps.refl _ _)) (by decide) (Keeps.refl _ _)

theorem execRestoreLink_keeps (ch : Channel) (s : State) : Out.Keeps [.eth, .tlk, .dmc, .dram, .ports, .queues, .walec, .bureau, .pins, .sent] s (execRestoreLink ch s) := by
  refine Out.Keeps.done (by decide) ?_
  exact serve_keeps _ _ _ _ _ _ (by decide) (fun r t hr => runRestoreLink_keeps {} _ _ (by decide) (Keeps.refl _ _)) (by decide) (Keeps.refl _ _)

theorem execSpareGet_keeps (ch : Channel) (s : State) : Out.Keeps [.eth, .dmc, .dram, .ports, .queues, .walec, .bureau, .pins, .sent] s (execSpareGet ch s) := by
  refine Out.Keeps.done (by decide) ?_
  exact serve_keeps _ _ _ _ _ _ (by decide) (fun r t hr => runGet_keeps {} _ _ (by decide) (Keeps.refl _ _)) (by decide) (Keeps.refl _ _)

theorem execSparePut_keeps (ch : Channel) (s : State) : Out.Keeps [.ray, .eth, .dec, .dmc, .dram, .ports, .queues, .walec, .bureau, .pwr, .spr, .pins, .sent] s (execSparePut ch s) := by
  refine Out.Keeps.done (by decide) ?_
  exact serve_keeps _ _ _ _ _ _ (by decide) (fun r t hr => putVerb_keeps _ _ _ _ (by rw [hr]; decide)) (by decide) (Keeps.refl _ _)

theorem execSpareReport_keeps (ch : Channel) (s : State) : Out.Keeps [.eth, .dmc, .dram, .ports, .queues, .walec, .bureau, .pins, .sent] s (execSpareReport ch s) := by
  refine Out.Keeps.done (by decide) ?_
  exact serve_keeps _ _ _ _ _ _ (by decide) (fun r t hr => Keeps.refl _ _) (by decide) (Keeps.refl _ _)

theorem execThermAck_keeps (ch : Channel) (s : State) : Out.Keeps [.eth, .dmc, .dram, .ports, .queues, .walec, .bureau, .thm, .pins, .sent] s (execThermAck ch s) := by
  refine Out.Keeps.done (by decide) ?_
  exact serve_keeps _ _ _ _ _ _ (by decide) (fun r t hr => runThermAck_keeps {} _ _ (by decide) (Keeps.refl _ _)) (by decide) (Keeps.refl _ _)

theorem execThermGet_keeps (ch : Channel) (s : State) : Out.Keeps [.eth, .dmc, .dram, .ports, .queues, .walec, .bureau, .pins, .sent] s (execThermGet ch s) := by
  refine Out.Keeps.done (by decide) ?_
  exact serve_keeps _ _ _ _ _ _ (by decide) (fun r t hr => runGet_keeps {} _ _ (by decide) (Keeps.refl _ _)) (by decide) (Keeps.refl _ _)

theorem execThermPut_keeps (ch : Channel) (s : State) : Out.Keeps [.eth, .out, .dmc, .dram, .ports, .queues, .walec, .bureau, .thm, .pins, .sent] s (execThermPut ch s) := by
  refine Out.Keeps.done (by decide) ?_
  exact serve_keeps _ _ _ _ _ _ (by decide) (fun r t hr => putVerb_keeps _ _ _ _ (by rw [hr]; decide)) (by decide) (Keeps.refl _ _)

theorem execTimeEventCancel_keeps (ch : Channel) (s : State) : Out.Keeps [.tim, .eth, .dmc, .dram, .ports, .queues, .walec, .bureau, .pins, .sent] s (execTimeEventCancel ch s) := by
  refine Out.Keeps.done (by decide) ?_
  refine Keeps.ifEvent ?_ (Keeps.refl _ _)
  exact serve_keeps _ _ _ _ _ _ (by decide) (fun r t hr => runTimeEvent_keeps {} _ _ (by decide) (Keeps.refl _ _)) (by decide) (Keeps.refl _ _)

theorem execTimeEventQuery_keeps (ch : Channel) (s : State) : Out.Keeps [.tim, .eth, .dmc, .dram, .ports, .queues, .walec, .bureau, .pins, .sent] s (execTimeEventQuery ch s) := by
  refine Out.Keeps.done (by decide) ?_
  refine Keeps.ifEvent ?_ (Keeps.refl _ _)
  exact serve_keeps _ _ _ _ _ _ (by decide) (fun r t hr => runTimeEvent_keeps {} _ _ (by decide) (Keeps.refl _ _)) (by decide) (Keeps.refl _ _)

theorem execTimeEventSet_keeps (ch : Channel) (s : State) : Out.Keeps [.tim, .eth, .dmc, .dram, .ports, .queues, .walec, .bureau, .pins, .sent] s (execTimeEventSet ch s) := by
  refine Out.Keeps.done (by decide) ?_
  refine Keeps.ifEvent ?_ (Keeps.refl _ _)
  exact serve_keeps _ _ _ _ _ _ (by decide) (fun r t hr => runTimeEvent_keeps {} _ _ (by decide) (Keeps.refl _ _)) (by decide) (Keeps.refl _ _)

theorem execTimeGet_keeps (ch : Channel) (s : State) : Out.Keeps [.eth, .dmc, .dram, .ports, .queues, .walec, .bureau, .pins, .sent] s (execTimeGet ch s) := by
  refine Out.Keeps.done (by decide) ?_
  exact serve_keeps _ _ _ _ _ _ (by decide) (fun r t hr => runGet_keeps {} _ _ (by decide) (Keeps.refl _ _)) (by decide) (Keeps.refl _ _)

theorem execTimePut_keeps (ch : Channel) (s : State) : Out.Keeps [.tim, .bases, .eth, .dmc, .dram, .ports, .queues, .walec, .bureau, .pins, .sent] s (execTimePut ch s) := by
  refine Out.Keeps.done (by decide) ?_
  exact serve_keeps _ _ _ _ _ _ (by decide) (fun r t hr => putVerb_keeps _ _ _ _ (by rw [hr]; decide)) (by decide) (Keeps.refl _ _)

end Sys2Proof.Machine
end

