-- ==== Sys2Proof/Laws/KeepsServices.lean ====
section
/-! SUPPORT. What the operations of Machine/Services.lean may change: one lemma each, which says that the
parts it does not name, the form of the DRAM, the Bureau's chain and the queue are kept. -/

open Host

set_option linter.unusedTactic false
set_option linter.unreachableTactic false
set_option linter.tactic.unusedName false

namespace Sys2Proof.Machine

variable {K : List Part} {s₀ : State}

theorem dropEntry_keeps (q : ℕ) (s : State) (hm₀ : Part.among [.queues] K = true) (h₀ : Keeps K s₀ s) :
    Keeps K s₀ (dropEntry q s) := by
  refine Keeps.after ?_ hm₀ h₀
  clear hm₀ h₀
  unfold dropEntry
  repeat' first
    | with_reducible exact Keeps.refl _ _
    | (with_reducible apply setQueue_keeps; decide)
    | (with_reducible apply Keeps.upd
       all_goals with_reducible first | exact Or.inl (by decide) | exact Or.inr rfl | exact rfl | exact ⟨rfl, rfl⟩ | exact Or.inr ⟨rfl, rfl, rfl⟩ | exact Or.inr ⟨rfl, rfl⟩ | exact Or.inr ⟨rfl, rfl, rfl, rfl⟩ | skip)

theorem noteEntry_keeps (e : Bytes) (c : Status) (s : State) (hm₀ : Part.among [.dmc] K = true) (h₀ : Keeps K s₀ s) :
    Keeps K s₀ (noteEntry e c s) := by
  refine Keeps.after ?_ hm₀ h₀
  clear hm₀ h₀
  unfold noteEntry
  repeat' first
    | with_reducible exact Keeps.refl _ _
    | with_reducible assumption
    | with_reducible refine Keeps.ite ?_ ?_
    | with_reducible refine Keeps.ifEvent ?_ ?_
    | (with_reducible apply noteMarks_keeps; decide)
    | split
    | (with_reducible apply Keeps.upd
       all_goals with_reducible first | exact Or.inl (by decide) | exact Or.inr rfl | exact rfl | exact ⟨rfl, rfl⟩ | exact Or.inr ⟨rfl, rfl, rfl⟩ | exact Or.inr ⟨rfl, rfl⟩ | exact Or.inr ⟨rfl, rfl, rfl, rfl⟩ | skip)

theorem acceptRecord_keeps (q : ℕ) (f : Fetched) (c : Status) (id : ℕ) (frame : ℕ) (s : State) (hm₀ : Part.among [.dmc, .dram, .ports, .queues, .bureau, .pins, .sent] K = true) (h₀ : Keeps K s₀ s) :
    Keeps K s₀ (acceptRecord q f c id frame s) := by
  refine Keeps.after ?_ hm₀ h₀
  clear hm₀ h₀
  unfold acceptRecord
  repeat' first
    | with_reducible exact Keeps.refl _ _
    | with_reducible assumption
    | with_reducible refine Keeps.ite ?_ ?_
    | with_reducible refine Keeps.ifEvent ?_ ?_
    | (with_reducible apply dropEntry_keeps; decide)
    | (with_reducible apply complete_keeps; decide)
    | split
    | (with_reducible apply Keeps.upd
       all_goals with_reducible first | exact Or.inl (by decide) | exact Or.inr rfl | exact rfl | exact ⟨rfl, rfl⟩ | exact Or.inr ⟨rfl, rfl, rfl⟩ | exact Or.inr ⟨rfl, rfl⟩ | exact Or.inr ⟨rfl, rfl, rfl, rfl⟩ | skip)

theorem queueCommit_keeps (q : ℕ) (f : Fetched) (host : Option Bytes) (s : State) (hm₀ : Part.among [.cmp, .blt, .dmc, .dram, .ports, .queues, .bureau, .pins, .sent] K = true) (h₀ : Keeps K s₀ s) :
    Keeps K s₀ (queueCommit q f host s) := by
  refine Keeps.after ?_ hm₀ h₀
  clear hm₀ h₀
  unfold queueCommit
  repeat' first
    | (extract_lets +onlyGivenNames t
       first
         | (refine Keeps.cut (t := t) ?_ (fun ht => ?_)
            on_goal 2 => clear_value t
            subst t)
         | skip)
    | with_reducible exact Keeps.refl _ _
    | with_reducible assumption
    | with_reducible refine Keeps.ite ?_ ?_
    | with_reducible refine Keeps.ifEvent ?_ ?_
    | (with_reducible apply acceptRecord_keeps; decide)
    | (with_reducible apply noteEntry_keeps; decide)
    | (with_reducible apply noteRefusal_keeps; decide)
    | (with_reducible apply submitCommit_keeps; decide)
    | split
    | (with_reducible apply Keeps.upd
       all_goals with_reducible first | exact Or.inl (by decide) | exact Or.inr rfl | exact rfl | exact ⟨rfl, rfl⟩ | exact Or.inr ⟨rfl, rfl, rfl⟩ | exact Or.inr ⟨rfl, rfl⟩ | exact Or.inr ⟨rfl, rfl, rfl, rfl⟩ | skip)

theorem refuseEntry_keeps (q : ℕ) (f : Fetched) (c : Status) (s : State) (hm₀ : Part.among [.dmc, .dram, .ports, .queues, .bureau, .pins, .sent] K = true) (h₀ : Keeps K s₀ s) :
    Keeps K s₀ (refuseEntry q f c s) := by
  refine Keeps.after ?_ hm₀ h₀
  clear hm₀ h₀
  unfold refuseEntry
  repeat' first
    | with_reducible exact Keeps.refl _ _
    | with_reducible assumption
    | with_reducible refine Keeps.ite ?_ ?_
    | with_reducible refine Keeps.ifEvent ?_ ?_
    | (with_reducible apply dropEntry_keeps; decide)
    | (with_reducible apply complete_keeps; decide)
    | split
    | (with_reducible apply Keeps.upd
       all_goals with_reducible first | exact Or.inl (by decide) | exact Or.inr rfl | exact rfl | exact ⟨rfl, rfl⟩ | exact Or.inr ⟨rfl, rfl, rfl⟩ | exact Or.inr ⟨rfl, rfl⟩ | exact Or.inr ⟨rfl, rfl, rfl, rfl⟩ | skip)

theorem queueFence_keeps (q : ℕ) (f : Fetched) (s : State) (hm₀ : Part.among [.cmp, .dmc, .dram, .ports, .queues, .bureau, .pins, .sent] K = true) (h₀ : Keeps K s₀ s) :
    Keeps K s₀ (queueFence q f s) := by
  refine Keeps.after ?_ hm₀ h₀
  clear hm₀ h₀
  unfold queueFence
  repeat' first
    | (extract_lets +onlyGivenNames t
       first
         | (refine Keeps.cut (t := t) ?_ (fun ht => ?_)
            on_goal 2 => clear_value t
            subst t)
         | skip)
    | with_reducible exact Keeps.refl _ _
    | with_reducible assumption
    | with_reducible refine Keeps.ite ?_ ?_
    | with_reducible refine Keeps.ifEvent ?_ ?_
    | (with_reducible apply refuseEntry_keeps; decide)
    | (with_reducible apply noteRefusal_keeps; decide)
    | (with_reducible apply advanceFence_keeps; decide)
    | split
    | (with_reducible apply Keeps.upd
       all_goals with_reducible first | exact Or.inl (by decide) | exact Or.inr rfl | exact rfl | exact ⟨rfl, rfl⟩ | exact Or.inr ⟨rfl, rfl, rfl⟩ | exact Or.inr ⟨rfl, rfl⟩ | exact Or.inr ⟨rfl, rfl, rfl, rfl⟩ | skip)

/-- What a verb of the catalogue may write. -/
abbrev verbParts : List Part :=
  [.cmp, .geom, .ray, .tim, .bases, .eth, .out, .tlk, .dec, .enc, .blt, .dfl, .dmc, .dram, .ports, .drawers, .queues, .owners, .health, .walec, .bureau,
   .pwr, .thm, .spr, .bot, .pins, .sent, .drawn]

theorem paramParts_among (service : Nat) : Part.among (.bureau :: paramParts service) verbParts = true := by
  unfold paramParts
  split <;> decide

/-- The verbs of the catalogue. -/
def Verb.Keeps (v : Verb) : Prop := ∀ x r s, Machine.Keeps verbParts s (v.run x r s).2.2

theorem putVerb_all (l : List Nat) : (putVerb l).Keeps := fun x r s => runPut_keeps x r s (paramParts_among _) (Keeps.refl _ _)

theorem readVerb_all {v : Verb} (h : ∀ x r s, (v.run x r s).2.2 = s) : v.Keeps := fun x r s => by rw [h]; exact Keeps.refl _ _

theorem catalogue_keeps (l : List Verb) (hl : l ∈ catalogue) (v : Verb) (hv : v ∈ l) : v.Keeps := by
  unfold catalogue at hl
  have K := @Keeps.refl verbParts
  simp only [List.mem_cons, List.not_mem_nil, or_false] at hl
  rcases hl with h | h | h | h | h | h | h | h | h | h | h | h | h | h | h | h <;> subst h <;>
    simp only [List.mem_cons, List.not_mem_nil, or_false] at hv
  · rcases hv with h | h | h | h | h | h | h | h | h <;> subst h <;> intro x r s
    exacts [sendAll_keeps ((deviceCauses s).map (.deviceCause r.ch)) s (by decide) (K s), putVerb_all _ x r s, K s, runQueueCreate_keeps {} _ _ (by decide) (K s), runQueueReset_keeps {} _ _ (by decide) (K s),
      runQueueDelete_keeps {} _ _ (by decide) (K s), runQueueAttach_keeps {} _ _ (by decide) (K s), runDark_keeps {} _ _ (by decide) (K s),
      runPowerDown_keeps _ _ _ (by decide) (K s)]
  · rcases hv with h | h | h | h | h <;> subst h <;> intro x r s
    exacts [runModeSet_keeps {} _ _ (by decide) (K s), runBenchLoad_keeps _ _ _ (by decide) (K s), runModeSchedule_keeps {} _ _ (by decide) (K s),
      putVerb_all _ x r s, K s]
  · rcases hv with h | h | h <;> subst h <;> intro x r s
    exacts [runLayerCommit_keeps _ _ _ (by decide) (K s), runLayerResult_keeps {} _ _ (by decide) (K s), runLayerQuery_keeps {} _ _ (by decide) (K s)]
  · rcases hv with h | h <;> subst h <;> intro x r s
    exacts [putVerb_all _ x r s, K s]
  · rcases hv with h | h <;> subst h <;> intro x r s
    exacts [runStreamOpen_keeps {} _ _ (by decide) (K s), runStreamClose_keeps {} _ _ (by decide) (K s)]
  · rcases hv with h | h <;> subst h <;> intro x r s
    exacts [putVerb_all _ x r s, K s]
  · rcases hv with h | h | h | h <;> subst h <;> intro x r s
    exacts [Keeps.more (mapLoadVerb_keeps x r s) (by decide), Keeps.more (activateVerb_keeps _ _ _ x r s) (by decide), putVerb_all _ x r s, K s]
  · rcases hv with h | h | h | h <;> subst h <;> intro x r s
    exacts [Keeps.more (loadGeomVerb_keeps x r s) (by decide), Keeps.more (activateVerb_keeps _ _ _ x r s) (by decide),
      Keeps.more (loadCurvesVerb_keeps x r s) (by decide), Keeps.more (activateVerb_keeps _ _ _ x r s) (by decide)]
  · rcases hv with h | h | h | h | h <;> subst h <;> intro x r s
    exacts [K s, runStressResolve_keeps {} _ _ (by decide) (K s), Keeps.more (modelLoadVerb_keeps x r s) (by decide), putVerb_all _ x r s, K s]
  · rcases hv with h | h | h <;> subst h <;> intro x r s
    exacts [runSigRegion_keeps {} _ _ (by decide) (K s), runSigRelease_keeps {} _ _ (by decide) (K s), runSigQuery_keeps {} _ _ (by decide) (K s)]
  · rcases hv with h | h | h <;> subst h <;> intro x r s
    exacts [putVerb_all _ x r s, K s, runTimeEvent_keeps {} _ _ (by decide) (K s)]
  · rcases hv with h | h | h <;> subst h <;> intro x r s
    exacts [putVerb_all _ x r s, K s, runThermAck_keeps {} _ _ (by decide) (K s)]
  · rcases hv with h | h | h | h | h <;> subst h <;> intro x r s
    exacts [runMigrate_keeps {} _ _ (by decide) (K s), runRestoreLink_keeps {} _ _ (by decide) (K s), putVerb_all _ x r s, K s, K s]
  · rcases hv with h | h | h | h | h <;> subst h <;> intro x r s
    exacts [runLogRead_keeps {} _ _ (by decide) (K s), runLogFetch_keeps {} _ _ (by decide) (K s), K s, runLogClear_keeps {} _ _ (by decide) (K s),
      Keeps.more (logArchiveVerb_keeps x r s) (by decide)]
  · rcases hv with h | h | h | h <;> subst h <;> intro x r s
    exacts [runDrawerClass_keeps {} _ _ (by decide) (K s), runEthBind_keeps {} _ _ (by decide) (K s), putVerb_all _ x r s, K s]
  · rcases hv with h | h | h <;> subst h <;> intro x r s
    exacts [runStage_keeps _ _ _ (by decide) (K s), runSwitch_keeps {} _ _ (by decide) (K s), K s]

theorem verbOf_keeps {service verb : Nat} {v : Verb} (h : verbOf service verb = some v) : v.Keeps := by
  unfold verbOf at h
  split at h
  · have hv := List.mem_of_getElem? h
    rw [List.getD_eq_getElem?_getD] at hv
    cases hl : catalogue[service - 1]? with
    | none => rw [hl] at hv; simp at hv
    | some l => rw [hl] at hv; exact catalogue_keeps l (List.mem_of_getElem? hl) v hv
  · cases h

theorem takeRequest_keeps (p : Port) (n : Nat) (s : State)
    (hm₀ : Part.among [.dmc, .dram, .ports, .drawers, .queues, .walec, .bureau, .pins, .sent] K = true)
    (h₀ : Keeps K s₀ s) : Keeps K s₀ (takeRequest p n s) := by
  refine Keeps.after ?_ hm₀ h₀
  clear hm₀ h₀
  unfold takeRequest
  extract_lets d m r t
  have ht : Keeps [.dmc, .dram, .ports, .drawers, .queues, .walec, .bureau, .pins, .sent] s t := setDrawer_keeps _ _ _ _ (by decide) (Keeps.refl _ _)
  clear_value t
  split
  · exact Keeps.walec_set _ (by decide) ht
  · rename_i c hc
    exact refusal_keeps _ _ _ hc (by decide) ht

theorem queueRequest_keeps (q : Nat) (f : Fetched) (host : Option Bytes) (s : State) :
    Keeps verbParts s (queueRequest q f host s) := by
  unfold queueRequest
  extract_lets e
  split
  · extract_lets m r
    split
    · exact refuseEntry_keeps _ _ _ _ (by decide) (Keeps.refl _ _)
    · split
      · rename_i v hg hv
        split
        · exact Keeps.walec_set _ (by decide) (Keeps.refl _ _)
        · exact finish_any _ _ (by decide) (Keeps.more (verbOf_keeps hv _ _ _) (by decide))
      · exact finish_any _ _ (by decide) (Keeps.refl _ _)
  · exact refuseEntry_keeps _ _ _ _ (by decide) (noteEntry_keeps _ _ _ (by decide) (Keeps.refl _ _))

/-! ### Commands -/

theorem execServiceQueueCommit_keeps (q : ℕ) (hostMsg : Option Bytes) (s : State) : Out.Keeps [.cmp, .blt, .dmc, .dram, .ports, .queues, .bureau, .pins, .sent] s (execServiceQueueCommit q hostMsg s) := by
  unfold execServiceQueueCommit
  repeat' first
    | (extract_lets +onlyGivenNames t
       first
         | (refine Out.Keeps.cut (t := t) ?_ (fun ht => ?_)
            on_goal 2 => clear_value t
            subst t)
         | (refine Keeps.cut (t := t) ?_ (fun ht => ?_)
            on_goal 2 => clear_value t
            subst t)
         | skip)
    | with_reducible exact Keeps.refl _ _
    | with_reducible assumption
    | with_reducible refine Out.Keeps.done (by decide) ?_
    | with_reducible refine Keeps.ite ?_ ?_
    | with_reducible refine Keeps.ifEvent ?_ ?_
    | with_reducible refine Keeps.foldl (fun t x => ?_) ?_
    | with_reducible refine Keeps.elim ?_ (fun a => ?_)
    | (with_reducible apply queueCommit_keeps; decide)
    | split
    | (with_reducible apply Keeps.upd
       all_goals with_reducible first | exact Or.inl (by decide) | exact Or.inr rfl | exact rfl | exact ⟨rfl, rfl⟩ | exact Or.inr ⟨rfl, rfl, rfl⟩ | exact Or.inr ⟨rfl, rfl⟩ | exact Or.inr ⟨rfl, rfl, rfl, rfl⟩ | skip)

theorem execServiceQueueFence_keeps (q : ℕ) (s : State) : Out.Keeps [.cmp, .dmc, .dram, .ports, .queues, .bureau, .pins, .sent] s (execServiceQueueFence q s) := by
  unfold execServiceQueueFence
  repeat' first
    | (extract_lets +onlyGivenNames t
       first
         | (refine Out.Keeps.cut (t := t) ?_ (fun ht => ?_)
            on_goal 2 => clear_value t
            subst t)
         | (refine Keeps.cut (t := t) ?_ (fun ht => ?_)
            on_goal 2 => clear_value t
            subst t)
         | skip)
    | with_reducible exact Keeps.refl _ _
    | with_reducible assumption
    | with_reducible refine Out.Keeps.done (by decide) ?_
    | with_reducible refine Keeps.ite ?_ ?_
    | with_reducible refine Keeps.ifEvent ?_ ?_
    | with_reducible refine Keeps.foldl (fun t x => ?_) ?_
    | with_reducible refine Keeps.elim ?_ (fun a => ?_)
    | (with_reducible apply queueFence_keeps; decide)
    | split
    | (with_reducible apply Keeps.upd
       all_goals with_reducible first | exact Or.inl (by decide) | exact Or.inr rfl | exact rfl | exact ⟨rfl, rfl⟩ | exact Or.inr ⟨rfl, rfl, rfl⟩ | exact Or.inr ⟨rfl, rfl⟩ | exact Or.inr ⟨rfl, rfl, rfl, rfl⟩ | skip)

theorem execServiceQueueRequest_keeps (q : ℕ) (hostMsg : Option Bytes) (s : State) : Out.Keeps [.cmp, .geom, .ray, .tim, .bases, .eth, .out, .tlk, .dec, .enc, .blt, .dfl, .dmc, .dram, .ports, .drawers, .queues, .owners, .health, .walec, .bureau, .pwr, .thm, .spr, .bot, .pins, .sent, .drawn] s (execServiceQueueRequest q hostMsg s) := by
  unfold execServiceQueueRequest
  split
  · exact Out.Keeps.done (by decide) (Keeps.refl _ _)
  · refine Out.Keeps.done (by decide) (Keeps.ifEvent ?_ (Keeps.refl _ _))
    exact Keeps.more (queueRequest_keeps _ _ _ _) (by decide)

theorem execWalecTakesRequest_keeps (p : Port) (n : ℕ) (s : State) : Out.Keeps [.geom, .eth, .out, .dmc, .dram, .ports, .drawers, .queues, .health, .walec, .bureau, .bot, .pins, .sent, .drawn] s (execWalecTakesRequest p n s) := by
  exact Out.Keeps.done (by decide) (Keeps.ifEvent (takeRequest_keeps _ _ _ (by decide) (Keeps.refl _ _)) (Keeps.refl _ _))

end Sys2Proof.Machine
end

