-- ==== Sys2Proof/Laws/Services.lean ====
section
/-! SUPPORT. What the row of a verb does with a request that is due, once for all verbs: the verb runs, and the answer goes out on the
request's channel. -/

namespace Sys2Proof.Machine

theorem queueOf_ringWrite (c : Queue) (a : Nat) (b : Bytes) (s : State) (q : Nat) : queueOf (ringWrite c a b s) q = queueOf s q :=
  queueOf_of ((ringWrite_keeps (K := [.dmc, .dram, .ports, .bureau, .pins, .sent]) c a b s (by decide) (Keeps.refl _ _)).same .queues (by decide)) q

theorem complete_fetched (q slot gen record : Nat) (body : Bytes) (release : Nat) (s : State) :
    (queueOf (complete q slot gen record body release s) q).fetched = (queueOf s q).fetched := by
  unfold complete
  dsimp only
  split_ifs <;> simp only [queueOf_setPort, queueOf_message, queueOf_setQueue_self]

theorem writeMessage_queue (c : Queue) (e resp : Bytes) (s : State) (q : Nat) : queueOf (writeMessage c e resp s) q = queueOf s q :=
  queueOf_of ((writeMessage_keeps (K := [.dmc, .dram, .ports, .bureau, .pins, .sent]) c e resp s (by decide) (Keeps.refl _ _)).same .queues (by decide)) q

theorem answerQueue_fetched (q tagGen : Nat) (c : Status) (body : Bytes) (s : State) :
    (queueOf (answerQueue q tagGen c body s) q).fetched = (queueOf s q).fetched.drop 1 := by
  unfold answerQueue
  dsimp only
  split
  · rename_i h; rw [h]; rfl
  · rename_i f rest h; rw [complete_fetched, writeMessage_queue, queueOf_setQueue_self, h]; rfl

/-- An answer changes the parts of its channel alone. -/
theorem answer_channel (r : Request) (c : Status) (body : Bytes) (w : State) : Keeps (answerParts r.ch) w (answer r c body w) := by
  unfold answer
  cases h : r.ch with
  | drawer p n => exact Keeps.walec_set (K := [.walec, .ports, .sent]) _ (by decide) (Keeps.refl _ _)
  | queue q => exact answerQueue_keeps (K := [.queues, .dmc, .dram, .ports, .bureau, .pins, .sent]) _ _ _ _ _ (by decide) (Keeps.refl _ _)
  | eth k msg => exact Keeps.ite (send_keeps (K := [.ports, .sent]) _ _ (by decide) (Keeps.refl _ _)) (Keeps.refl _ _)

theorem answerParts_settle (ch : Channel) : Part.among [.ports, .sent] (answerParts ch) = true := by
  unfold answerParts
  split <;> decide

/-- A reply that is no refusal of R507 and no image switch is answered, and nothing else happens. -/
theorem finish_answers (r : Request) (c : Status) (body : Bytes) (w : State) (hr : c ≠ .rights) (hl : c ≠ .lease)
    (hsw : ¬(r.service = 0x10 ∧ r.verb = 0x02)) :
    SameBut (answerParts r.ch) w (settle (finish r (c, body, w))) ∧
      Answered r (shownStatus r c w) body w (settle (finish r (c, body, w))) := by
  have hn : noteRefusal r c w = w := by simp [noteRefusal, hr, hl]
  have ha : finish r (c, body, w) = answer r (shownStatus r c w) body w := by
    unfold finish afterAnswer
    simp only [hn]
    rw [if_neg]
    simp only [Bool.and_eq_true, decide_eq_true_eq]
    exact fun h => hsw ⟨h.1.1, h.1.2⟩
  rw [ha]
  refine ⟨(settle_keeps _ (answerParts_settle _) (answer_channel r _ body w)).same, ?_⟩
  unfold Answered
  split
  · rename_i h; simp [answer, h]
  · rename_i h; intro ho; apply settle_sent; simp only [answer, h]; rw [if_pos ho]; simp [send]
  · rename_i q h; rw [queueOf_settle]; simp only [answer, h]; exact answerQueue_fetched ..

/-- The row of a verb runs the verb of a request that is due, and finishes it. -/
theorem serve_finish {service verb : Nat} {v : Verb} (x : Outside) {ch : Channel} {r : Request} {s u : State} (hk : known service verb = true)
    (h : Due v service verb ch r s u) : serve service verb v x ch s = finish r (v.run x r u) := by
  obtain ⟨hw, h1, h2, h⟩ := h
  have taken {c : Channel} (h3 : r.ch = c) (rest : List Request) (h4 : s.walec.taken = r :: rest)
      (h5 : notReadyNow v r { s with walec := { s.walec with taken := rest } } = false) :
      serveTaken service verb v x c s = finish r (v.run x r { s with walec := { s.walec with taken := rest } }) := by
    simp [serveTaken, h4, h3, h1, h2, hw, h5]
  cases ch with
  | eth k msg =>
    rcases msg with _ | ⟨b, msg⟩
    · obtain ⟨h3, rest, h4, rfl, h5⟩ := h
      exact taken h3 rest h4 h5
    · obtain ⟨h3, h4, h5, h6, rfl⟩ := h
      have hm : (ethMessage (b :: msg)).service = service ∧ (ethMessage (b :: msg)).verb = verb := by rw [h5] at h1 h2; exact ⟨h1, h2⟩
      simp only [serve, serveEth, h3, hw, h4, hm, hk, runVerb]
      rw [← h5, h6]
      simp
  | drawer p n => obtain ⟨h3, rest, h4, rfl, h5⟩ := h; exact taken h3 rest h4 h5
  | queue k => obtain ⟨h3, rest, h4, rfl, h5⟩ := h; exact taken h3 rest h4 h5

/-- Walec still runs where a request is due. -/
theorem Due.walec {service verb : Nat} {v : Verb} {ch : Channel} {r : Request} {s u : State} (h : Due v service verb ch r s u) : u.hif.walec = .running := by
  obtain ⟨hw, _, _, h⟩ := h
  cases ch with
  | eth k msg =>
    rcases msg with _ | ⟨b, msg⟩
    · obtain ⟨_, _, _, rfl, _⟩ := h; exact hw
    · obtain ⟨_, _, _, _, rfl⟩ := h; exact hw
  | drawer p n => obtain ⟨_, _, _, rfl, _⟩ := h; exact hw
  | queue k => obtain ⟨_, _, _, rfl, _⟩ := h; exact hw

/-- The row of a verb runs a request that is due, and answers it. -/
theorem serve_runs {c : Instr} {service verb : Nat} {v : Verb} {x : Outside} {ch : Channel} {r : Request} {s u w : State} {status : Status} {body : Bytes}
    {q : State → Prop} (hk : known service verb = true) (h : Due v service verb ch r s u) (he : exec c s = done (serve service verb v x ch s)) (hv : v.run x r u = (status, body, w))
    (hsw : ¬(service = 0x10 ∧ verb = 0x02)) (hr : status ≠ .rights) (hl : status ≠ .lease) (hq : q w) : Runs c r s status body q := by
  have hfin := finish_answers r status body w hr hl (by rw [h.2.1, h.2.2.1]; exact hsw)
  exact ⟨_, he, w, hq, by rw [serve_finish x hk h, hv]; exact hfin⟩

end Sys2Proof.Machine
end

