-- ==== Sys2Proof/Tests/Slice0.lean ====
section
/-! SUPPORT. Tests on fixed values: the refusals of WellFormed, worked examples of spec/, and for every statement a state and operands
that meet its hypotheses (each theorem test_<statement>_<clause> repeats the hypotheses of the clause with them filled in). -/

namespace Sys2Proof.Tests
open Sys2Proof.Machine
set_option Elab.async false

/-! ### States -/

/-- The 9610 in operation: both links up, Walec running, DRAM running, every domain ready, the raster stopped. -/
def up : State :=
  { hif := { portA := { linkUp := true, ready := true, perst := false }, portB := { linkUp := true, ready := true, perst := false }, walec := .running }
    pwr := { porst := false, domains := (List.range 44).map fun d => (d, .ready) }
    clk := { chosen := true }
    bot := { mode := .running, emmcReady := true }
    dmc := { mode := .running }
    tim := { confirmed := true, mode := 6 } }

/-- `up` with another part. -/
def hif (f : HifState → HifState) : State := { up with hif := f up.hif }
def tim (f : TimState → TimState) : State := { up with tim := f up.tim }
def dmc (f : DmcState → DmcState) : State := { up with dmc := f up.dmc }
def pwr (f : PwrState → PwrState) : State := { up with pwr := f up.pwr }
def spr (f : SprState → SprState) : State := { up with spr := f up.spr }
def ray (f : RayState → RayState) : State := { up with ray := f up.ray }
def eth (f : EthState → EthState) : State := { up with eth := f up.eth }
def out (f : OutState → OutState) : State := { up with out := f up.out }
def bot (f : BotState → BotState) : State := { up with bot := f up.bot }
def clk (f : ClkState → ClkState) : State := { up with clk := f up.clk }
def thm (f : ThmState → ThmState) : State := { up with thm := f up.thm }
def wal (f : WalecCtl → WalecCtl) : State := { up with walec := f up.walec }
def blt (f : BltState → BltState) : State := { up with blt := f up.blt }
def dfl (f : DflState → DflState) : State := { up with dfl := f up.dfl }
def dec (f : DecState → DecState) : State := { up with dec := f up.dec }
def enc (f : EncState → EncState) : State := { up with enc := f up.enc }
def lnk (n : Nat) (l : Link) : State := { up with tlk := { up.tlk with links := [(n, l)] } }
def que (q : Nat) (c : Queue) : State := hif ({ · with queues := [(q, c)] })
def drw (p : Port) (n : Nat) (d : Drawer) : State := hif ({ · with drawers := [(drawerIx p n, d)] })

/-- 28 bytes of a return-lane frame, given its first bytes; the frame with its CRC-32C; and its code groups (R261, R271). -/
def lane (b : Bytes) : Bytes := padTo 28 b
def laneFrame (b : Bytes) : Bytes := lane b ++ leBytes 4 (crc32c (lane b))
def laneGroups (b : Bytes) : List Nat := frameGroups true (lane b)

/-- The raster in progress in FLAT-60 at line 100, with the clusters of three rows bound and both spares free. -/
def raster : State :=
  { up with
    tim := { up.tim with rasterRun := true, frameCount := 5, line := 100, lineRaised := true, nextTick := 10 ^ 9 * 65536, modeFrame := 1 }
    ray := { up.ray with clusters := [(0, .bound), (1, .bound), (2, .bound), (12, .spare), (13, .spare)] } }
def rayAt (f : RayState → RayState) : State := { raster with ray := f raster.ray }
def timed (f : TimState → TimState) (u : State) : State := { u with tim := f u.tim }
def timAt (f : TimState → TimState) : State := { raster with tim := f raster.tim }

/-- A request on drawer 0 of port A, and the state in which it is the oldest one taken. -/
def req (service verb : Nat) (body : Bytes) (cls : Nat := 0) : Request :=
  { ch := .drawer .a 0, service, verb, tagGen := 0, body, cls, port := some .a }
def asks (r : Request) (u : State) : State := { u with walec := { u.walec with taken := [r] } }
theorem due {v : Verb} {sv vb : Nat} {b : Bytes} {c : Nat} {u : State} (h : u.hif.walec = .running) (ht : u.walec.taken = [])
    (hn : notReadyNow v (req sv vb b c) u = false := by first | decide +kernel | rfl) : Due v sv vb (.drawer .a 0) (req sv vb b c) (asks (req sv vb b c) u) u :=
  ⟨h, rfl, rfl, rfl, [], rfl, by cases u; cases ‹WalecCtl›; simp only at ht; subst ht; rfl, hn⟩

/-- No channel retrains in a state that lists none. -/
theorem quiet {u : State} (h : u.dmc.channels = [] := by rfl) : ∀ c, (dramChannel u c).retraining = false := fun c => by simp [dramChannel, h, Tbl.get, Tbl.find?]

/-- A Bench bitmap of one row and one line whose CRC-32C is right (R212). -/
def bitmap : Bytes :=
  let b := [0x50, 0x47, 0x42, 0x4D, 1, 0, 1, 0] ++ List.replicate 16 0 ++ leBytes 4 578 ++ leBytes 4 0 ++ (List.replicate 144 (leBytes 4 576)).flatten ++ leBytes 2 3071
  b.take 28 ++ leBytes 4 (crc32c (b.take 28 ++ b.drop 32)) ++ b.drop 32
/-- A shutdown at a step of its sequence. -/
def shut (k : ShutStep) : Shutdown :=
  { step := k, origin := 5, cause := 1, source := 0, sensor := 0, flags := 0, reading := 1920, waitUs := 0, frame := 5, tb1 := 0, groups := [] }

/-- A FILL of 2 by 2 pixels of a 16 by 16 RGB565 surface, as the 64 bytes of R357, with another opcode on request. -/
def fill (addr : Nat) (op : Byte := 1) : Bytes :=
  [op, 0, 0, 0, 2, 0, 2, 0] ++ List.replicate 24 0 ++ leBytes 8 addr ++ [16, 0, 16, 0, 1, 0, 1, 0] ++ List.replicate 16 0
/-- A job of `n` commands at 0x1000 of queue 5 (R356), and the 2D engine with it, its first command `c` in DRAM. -/
def job (n : Nat) : BltJob := { queue := 5, entry := leBytes 8 0x1000 ++ leBytes 2 n ++ List.replicate 22 0, slot := 0, gen := 0 }
def bltWith (c : Bytes) (n : Nat := 1) : State := store 0x1000 c (blt ({ · with bound := [5], jobs := [(0, job n)] }))
/-- A command in flight. -/
def flying (j : Nat) (c : Bytes) : Flight := { queue := 5, job := j, index := 0, cmd := c, dst := dstRect c, src := srcRect c }
/-- An INFLATE of the 5 bytes at 0x2000 through slot 3 (R382), its job, and the deflate engine with both. -/
def inflate : Bytes := [1, 0, 1, 3, 0, 0, 0, 0] ++ leBytes 8 0x2000 ++ leBytes 4 5 ++ leBytes 4 64 ++ leBytes 8 0x3000 ++ List.replicate 32 0
def inflateEntry : Bytes := leBytes 8 0x1000 ++ List.replicate 24 0
def inflateJob : DflJob := { queue := 5, entry := inflateEntry, desc := inflate, slot := 0, gen := 0 }
def dflWith (f : DflState → DflState) : State :=
  store 0x1000 inflate (store 0x2000 [1, 0, 0, 255, 255]
    { que 5 { state := .active, kind := 4, cqAddr := 0x8000, cqSize := 16, fetched := [{ bytes := inflateEntry, slot := 0, gen := 0 }] } with
      dfl := f { bound := [5], slots := [(3, { owner := some 5 })] } })
/-- Core 0 with context 1, which decodes a picture. -/
def pictureNow : DecPicture := { entry := {}, au := { luma := [], poc := 0 }, start := 0 }
def decoding : State := dec ({ · with cores := [(0, { state := .running, ctx := some 1 })], ctxs := [(1, { role := 1, core := 0, state := .decoding, current := some pictureNow })] })
def decQ : State :=
  { que 5 { state := .active, kind := 2, fetched := [{ bytes := List.replicate 32 0, slot := 0, gen := 0 }] } with
    dec := { up.dec with cores := [(0, { state := .idle })], ctxs := [(1, { role := 1, core := 0, state := .idle, poolAlloc := 2, queue := some 5 })] } }
/-- A COLOUR context with one picture of 2 by 2 samples that waits for its display. -/
def shown : PoolBuffer := { output := true, released := true, pts := 5, order := 0, pic := { width := 2, height := 2, bitDepth := 8, luma := [1, 2, 3, 4] } }
def colour : Ctx := { role := 1, core := 0, pool := [(0, shown)] }
def layerShows (n : Nat) : LayerEntry := { videoSource := n, flags := 1, back := { addr := 0x4000, width := 2, height := 2, stride64 := 1, format := 5 } }

/-- Port A holds all four leases; queue 5 is a SERVICE queue of class FURNITURE with one entry, and its message at 0x1000. -/
def leased (u : State) : State := { u with hif := { u.hif with own := (List.range 4).map fun k => (k, { holder := some .a }) } }
def served (f : Fetched) (msg : Bytes) : State :=
  store 0x1000 msg (leased (que 5 { state := .active, kind := 1, cls := 2, cqAddr := 0x8000, cqSize := 16, reserved := f.reserved, fetched := [f] }))
/-- The entry of a SERVICE queue for a message of `n` bytes at 0x1000 (R465). -/
def entryFor (op : Byte) (service verb n : Nat) (slots : Nat := 1) : Fetched :=
  { bytes := [op, 0] ++ leBytes 2 service ++ leBytes 2 verb ++ [0, 0] ++ leBytes 8 0x1000 ++ leBytes 4 n ++ leBytes 4 0 ++ leBytes 8 77, slot := 0, gen := 0, reserved := slots }
/-- A message without a body but for `b` (R491). -/
def message (service verb : Nat) (b : Bytes) : Bytes := leBytes 2 service ++ leBytes 2 verb ++ [0, 0] ++ leBytes 2 b.length ++ List.replicate 8 0 ++ b
/-- A commit of one member, a DISABLE of layer 63 at the earliest tick (R102). -/
def disable63 : Bytes := [1, 0, 0, 0, 255, 0, 0, 0] ++ List.replicate 24 0 ++ [63, 2] ++ List.replicate 70 0
/-- A signature region at the last pixel of the panel (R167), and the same with a slate of class SAFETY. -/
def cornerOf (tail : Bytes) : Bytes :=
  [31] ++ List.replicate 15 0 ++ leBytes 2 3071 ++ leBytes 2 (144 * configRows up - 1) ++ leBytes 2 3072 ++ leBytes 2 (144 * configRows up) ++ tail
def corner : Bytes := cornerOf ([1, 0, 15, 0, 1, 0, 0, 0] ++ List.replicate 64 0)
def slated : Bytes := cornerOf ([1, 1, 255, 63, 1, 0, 0, 0] ++ ({ cls := 3, scaleX := 4096, scaleY := 4096 } : LayerEntry).bytes)

/-! ### WellFormed -/

/-- An ill-formed term for every check of WellFormed: none is accepted. -/
def illFormed : List (List Instr) :=
  [[.lineStart 2 0 {}, .lineStart 0 1500 {}, .retrainComplete 36 true, .spareBind 12, .clusterFault 12, .laneTimeout 0 8],
   [.unboundClusterFault 14, .shadowCheck 14 0 0 0 0 0, .shadowCheck 0 0 1440 0 0 0, .clusterResetComplete 12, .trainFrame 96 (List.replicate 33 0), .trainFrame 0 (List.replicate 32 0)],
   [.trainFrame 0 (List.replicate 33 1024), .identFrame 96 (List.replicate 33 0), .identFrame 0 (List.replicate 32 0), .identFrame 0 (List.replicate 33 1024), .statusFrame 96 (List.replicate 33 0), .statusFrame 0 (List.replicate 32 0)],
   [.statusFrame 0 (List.replicate 33 1024), .cwLockLoss 96, .trainingTimeout 96, .failedRetrain 96, .statusStale 96, .rowBudget 2 []],
   [.picWatchdog 2 [], .pictureComplete 2, .coreFault 2, .corePictureTimeout 2, .contextMoveComplete 2, .conversionStart 64],
   [.pairWaitExpiry 64, .conversionComplete 64, .bltCommandIssue 16385 none, .flattenRestart 16, .dflJobStart 16385 none, .dflJobEnd 4],
   [.dramRead 9 0 1 {}, .dramWrite 0 1099511627776 [0] {}, .patrolScrub 0 { corrected := 9 }, .migrationChunk [(0, { corrected := 9 })] none, .refreshTick 36, .refreshIssue 36 true, .selfRefreshRetry 36, .portLinkUp .a 6 4],
   [.portLinkUp .a 1 3, .kick .a 32 0, .abort .a 32 0, .ack .b 0 18446744073709551616, .walecTakesRequest .a 32, .walecResponse .a 32],
   [.sqDoorbell .a 16384 0, .cqDoorbell .a 16384 0, .queueEntryFetch 16384 none, .coalesceTimeout 16384, .renew .a 18446744073709551616, .claim .a 18446744073709551616],
   [.release .a 18446744073709551616, .bar2Read .a 1073741824 1 [], .bar2Write .a 1073741824 [0] [], .bar2Read .a 0 1 [{ corrected := 8, uncorrectable := true }], .registerWrite .a 33554432 8 0, .registerWrite .a 0 2 0, .registerWrite .a 4 8 0],
   [.registerWrite .a 0 4 4294967296, .capture .a 18446744073709551616, .warm .a 18446744073709551616, .cold .a 18446744073709551616, .switchRef .a 18446744073709551616, .botRecoveryWrite .a 18446744073709551616],
   [.serviceQueueRequest 16384 none, .serviceQueueCommit 16384 none, .serviceQueueFence 16384, .deviceStatus (.drawer .a 32), .deviceGet (.queue 16384), .modeSet (.eth 8 [])],
   [.modePut (.eth 8 []), .ethSessionOpen 2 [], .lockstepMismatch (some 3), .unitSelfTest (.cluster 14) true, .unitSelfTest (.core 2) true, .sramRepair 44 0 0],
   [.autoMigrate [8], .autoRestore 96, .benchScheduleAction 16, .scheduleMissed 16, .eventSlotFire 16, .announceReceiptTimeout 2],
   [.syncTransmit 2, .frameRelay 2 0 [] 0 false, .sensorConversion 24 0, .pairDisagree 24, .pllLockLoss 24, .supplyExcursion 0],
   [.domainSwitchOn 44, .domainReady ⟨44, []⟩, .domainReady ⟨15, [2]⟩, .domainSwitchOff 44, .domainFault 0 6, .powerGood 12],
   [.pgoodTimeout 12, .tileSupplyOff 12, .supplyRetry 12, .rowRestored 12, .porstRelease 4 .a, .ethLinkDown 2],
   [.ethLinkUp 2, .ethFrameReceive 2 0 [], .delayReqTransmit 2, .announceTransmit 2, .lineStart 0 0 { rows := [{ row := 12, composed := 0 }] }, .lineStart 0 0 { witnessSlices := 136 }],
   [.shadowCheck 0 12 0 0 0 0, .witnessPictureComplete 14, .geomDedReload ⟨[], [2]⟩, .decodePictureStart 2 { luma := [] }, .dramRead 0 0 0 {}, .dramRead 0 63 2 {}],
   [.dramRead 0 1099511627776 1 {}, .dramWrite 0 0 [] {}, .powerDown (.queue 16384) true, .loadGeom (.drawer .a 0) ⟨[], [2]⟩, .loadGeom (.eth 8 []) ⟨[], []⟩, .sync { port := 2, source := 0, seq := 0 }],
   [.followUp { port := 2, source := 0, seq := 0 }, .delayResp { port := 2, source := 0, seq := 0 }, .pdelayResp { port := 2, source := 0, seq := 0 }, .announce { port := 2, source := 0, seq := 0 }, .delayReq { port := 2, source := 0, seq := 0 }, .benchLoad (.eth 8 []) []],
   [.layerCommit (.eth 8 []) [], .mapLoad (.eth 8 []) [], .loadCurves (.eth 8 []) [], .modelLoad (.eth 8 []) [], .updateStage (.eth 8 []) [], .servoSample 8 0, .servoSample 0 201, .sync { port := 0, source := 0, seq := 0, error := 458753 }]]

/-- The commands of a channel alone. -/
def ofChannel : List (List (Channel → Instr)) :=
  [[.deviceStatus, .devicePut, .deviceGet, .queueCreate, .queueReset, .queueDelete, .queueAttach, .deviceDark, .deviceDarkResume, .modeSet],
   [.modeSchedule, .modePut, .modeGet, .layerResult, .layerQuery, .scenePut, .sceneGet, .streamOpen, .streamClose, .witnessPut],
   [.witnessGet, .mapActivate, .mapPut, .mapGet, .activateGeom, .activateCurves, .stressReport, .stressResolve, .stressPut, .stressGet],
   [.sigRegion, .sigRelease, .sigQuery, .timePut, .timeGet, .timeEventSet, .timeEventCancel, .timeEventQuery, .thermPut, .thermGet],
   [.thermAck, .migrate, .restoreLink, .sparePut, .spareGet, .spareReport, .logRead, .logFetch, .logStatus, .logClear],
   [.logArchive, .drawerClass, .ethBind, .rightsPut, .rightsGet, .updateSwitch, .updateStatus]]

theorem test_ill_formed_refused : (illFormed.all fun l => l.all fun c => !WellFormed c) = true := by decide +kernel

theorem test_channels_refused : (ofChannel.all fun l => l.all fun c => !WellFormed (c (.drawer .b 32)) && !WellFormed (c (.queue 16384)) && !WellFormed (c (.eth 8 []))) = true := by decide +kernel

theorem test_well_formed_accepted : (WellFormed (.lineStart 1 1499 {}) && WellFormed (.kick .b 31 (2 ^ 64 - 1)) && WellFormed (.registerWrite .a 0x1008 8 0) &&
  WellFormed (.deviceStatus (.queue 16383)) && WellFormed (.dramWrite 8 (2 ^ 40 - 1) [0] {}) && WellFormed .walecBeat) = true := by decide +kernel

/-! ### Worked examples of the manual -/

/-- The node and base-direction entries of the worked ray of 02_ray_geometry.md, as raw fields. -/
def exampleBank : GeomBank :=
  { version := 0x213, bd := [(174, ((-1536 : Int) % 65536).toNat, 3072)]
    grid := [(480 * 120 + 198, { du := 820, dv := 65536 - 410, dtx := 96, dty := 65536 - 20 }), (480 * 120 + 199, { du := 836, dv := 65536 - 402, dtx := 104, dty := 65536 - 24 }),
             (480 * 121 + 198, { du := 804, dv := 65536 - 398, dtx := 88, dty := 65536 - 16 }), (480 * 121 + 199, { du := 828, dv := 65536 - 390, dtx := 100, dty := 65536 - 22 })] }
/-- 02_ray_geometry.md: the platform-number ray of pixel (12,754, 7,767) in phase B (R48 to R50). -/
theorem test_worked_ray : rayOf exampleBank [] 1 12754 7767 = { u := 1275, v := 776, du := 825, dv := -394, tsx := -1438, tsy := 3051 } := by decide +kernel
theorem test_worked_ray_sample : (rayOf exampleBank [] 1 12754 7767).sampleAt 7696 = (5182043, 3271871) := by decide +kernel
/-- 03_layers_and_composition.md: the same ray on layer L12 (R75 to R81). -/
def layer12 : LayerEntry := { front := { width := 192, height := 160, stride64 := 12, format := 5 }, originX := 79360, originY := 49920, scaleX := 16384, scaleY := 16384, layerAlpha := 230 }
theorem test_worked_footprint : layer12.footprint (5182043, 3271871) = some { n0 := 100, n1 := 101, m0 := 74, m1 := 75, fx := 23, fy := 176 } := by decide +kernel
theorem test_worked_texels : (layer12.prepare 0xFFFFB000 100 74, layer12.prepare 0x80FFB000 100 75, layer12.prepare 0x40FFB000 101 75) =
    (({ r := 4095, g := 2827, b := 0, a := 4095 } : Chan), ({ r := 2056, g := 1419, b := 0, a := 2056 } : Chan), ({ r := 1028, g := 710, b := 0, a := 1028 } : Chan)) := by decide +kernel
theorem test_worked_sample : (scaleAlpha 230 (blend4 23 176 4095 4095 2056 1028), scaleAlpha 230 (blend4 23 176 2827 2827 1419 710)) = (2372, 1637) := by decide +kernel
/-- 04_ray_engine.md: three layers are accumulated, and the ray ends TERMINATED (R86). -/
theorem test_worked_accumulation :
    accumulate 0 [{ r := 2372, g := 1637, b := 0, a := 2372 }, { r := 0, g := 387, b := 1161, a := 3084 }, { r := 1601, g := 2082, b := 2802, a := 4095 }] {} =
      { t16 := 0, r := 40613, g := 32257, b := 12473, a16 := 65520, used := 3, terminated := true } := by decide +kernel
/-- 05_output_signatures.md: the check value of R173, and two rays packed into nine bytes (R172). -/
theorem test_worked_crc : crc32c [0x31, 0x32, 0x33, 0x34, 0x35, 0x36, 0x37, 0x38, 0x39] = 0xE3069283 := by decide +kernel
theorem test_worked_packing :
    packWords [rayWord { r := 2538, g := 2016, b := 780 }, rayWord { r := 2538, g := 2016, b := 780 }] = [0xEA, 0x09, 0x7E, 0x0C, 0xA3, 0x9E, 0xE0, 0xC7, 0x30] := by decide +kernel
/-- 07_drive_correction_and_stress.md: doses, retentions, targets and the dithered code of cell A (R222, R239, R246, R248). -/
theorem test_worked_doses : (doseOf 204800 160 128, doseOf 10240 160 128) = (8000, 400) := by decide +kernel
theorem test_worked_retention :
    (retainAt 593261 [(0, 32768), (200000, 32440), (500000, 32112), (1000000, 31457)], retainAt 29663 [(0, 32768), (200000, 32440), (500000, 32112), (1000000, 31457)]) =
      ((31990, false), (32719, false)) := by decide +kernel
theorem test_worked_targets : (targetOf 30147 31990, targetOf 30147 32719) = (30880, 30192) := by decide +kernel
theorem test_worked_codes : (driveCode 51200 16384 32768 30880 6, driveCode 51200 16384 32768 30880 5) = (754, 753) := by decide +kernel
/-- 09_video_decoding.md: a pixel of the arrow's soft edge (R316 to R318, R323). -/
theorem test_worked_conversion : toRgb false false (expandSample false 10 502) (expandSample false 10 448) (expandSample false 10 640) = (2969, 1829, 1505) := by decide +kernel
theorem test_worked_stored : (packPixel 7 { r := 2969, g := 1829, b := 1505, a := 4095 }, packPixel 5 { r := 2969, g := 1829, b := 1505, a := alphaSample true 8 200 }) =
    (3 * 2 ^ 30 + 742 * 2 ^ 20 + 457 * 2 ^ 10 + 376, 200 * 2 ^ 24 + 185 * 2 ^ 16 + 114 * 2 ^ 8 + 94) := by decide +kernel
/-- 10_witness_encoder.md: the colour of the worked ray, and the target, threshold and spans of picture 29 (R336, R341, R344, R345). -/
theorem test_worked_witness : (witnessY 2538 2016 780, witnessCb 2538 2016 780, witnessCr 2538 2016 780) = (125, 91, 145) := by decide +kernel
theorem test_worked_span : (spanStart 32 120 29, spanStart 32 120 30, picCap {} 15, skipThreshold 533333 266666 8704) = (108, 112, 266666, 524629) := by decide +kernel
/-- 11_2d_engine.md: BLEND of an amber highlight over a pixel of the departures table (R361 to R364). -/
theorem test_worked_blend : packPixel 5 (blendPixel 0 200 (expandPixel 5 0x80FFB000) (expandPixel 5 0xFF002060)) = 0xFF64593A := by decide +kernel
/-- 12_deflate_engine.md: "ABCABCABC" inflated into a buffer of 5 bytes and then into one of 16, and the stream with a distance too far (R385, R390 to R395). -/
def abc (b4 : Byte) (slot : Slot) : State := store 0x2000 [0x73, 0x74, 0x72, 0x86, b4, 0] (dfl ({ · with slots := [(7, { slot with owner := some 5 })] }))
def abcJob (flags : Byte) (src n dst : Nat) : DflJob :=
  { queue := 5, entry := inflateEntry, slot := 0, gen := 0, desc := [1, 0, flags, 7, 0, 0, 0, 0] ++ leBytes 8 src ++ leBytes 4 n ++ leBytes 4 dst ++ leBytes 8 0x3000 ++ List.replicate 32 0 }
def abcFirst : DflResult := runDfl (abc 0x20 {}) (abcJob 3 0x2000 6 5) (2 ^ 30)
theorem test_worked_inflate : (abcFirst.out, abcFirst.inUsed, abcFirst.slot.state) = ([65, 66, 67, 65, 66], 5, .suspended) := by decide +kernel
theorem test_worked_inflate_rest : (fun r => (r.out, r.inUsed, r.status, r.slot.state)) (runDfl (abc 0x20 abcFirst.slot) (abcJob 2 0x2005 1 16) (2 ^ 30)) = ([67, 65, 66, 67], 1, .ok, .empty) := by
  decide +kernel
theorem test_worked_inflate_far : (fun r => (r.error, r.errBit)) (runDfl (abc 0x60 {}) (abcJob 3 0x2000 6 5) (2 ^ 30)) = (17, 34) := by decide +kernel
/-- 13_dram.md: where address 0x03_1F2C_9A40 lies (R407, R408). -/
theorem test_worked_address : channelOf 0x031F2C9A40 = (11, 6546833) := by decide +kernel
theorem test_worked_place : placeOf ({} : DmcState).masks 6546833 = (14613, 9, 13) := by decide +kernel
/-- 22_register_map.md: what TLK_LINK_STATUS_43 reads after the half-service sequence, and the write that clears DEGRADE_SEEN (R295, R668, R669). -/
def halfLink : State := { lnk 43 { state := .up, enabled := true, half := true, degradeSeen := true, temp := 660, flags := 1 + 2 + 64 } with tim := { up.tim with tileStrap := 3 } }
theorem test_worked_register : readRegister halfLink .a 0x00102158 = 0x02940000000038B5 := by decide +kernel
theorem test_worked_clear : readRegister (writeRegister .b 0x00102158 8 0x80 halfLink) .a 0x00102158 = 0x0294000000003835 := by decide +kernel

/-- 10_witness_encoder.md: what the decoder's syntax finds in the encoder's parameter sets and the head of its IDR slice (R301, R338). -/
def ownStream (o : Config.StreamOpen) (wide : Bool) : Unit' :=
  let p := streamParams wide
  (splitNals 0 none (annexB [vpsNal p o, spsNal p o, ppsNal p o, sliceHead p o true 0 30])).foldl (fun u x => u.take false x) { sps := [], pps := [] }
theorem test_own_stream : (let u := ownStream { spsId := 15, ppsId := 63, pocBits := 12, shortInSps := true, initQp := -5 } true
    (u.sps.map fun x => (x.1, x.2.level, x.2.width, x.2.height, x.2.cropBottom, x.2.ctb)) = [(15, 150, 3840, 2176, 16, 32)] ∧ (u.sps.map fun x => x.2.buffers) = [2] ∧
      u.pps.map (·.1) = [63] ∧ (u.slices.map fun x => (x.type, x.spsId, x.address)) = [(19, 15, 0)] ∧ u.syntaxError = false) := by decide +kernel

/-! ### Witnesses: the machine and its host interface -/

theorem test_reset_attention : AttentionTrue State.reset := by decide
theorem test_IdleStepIsOneClockEdge : ∃ (s : State), s.pending = [] ∧ AttentionTrue s ∧ s.clk.chosen = true :=
  ⟨{ up with clk := { up.clk with refA := { qual := true, lock := true } } }, by decide +kernel⟩
theorem test_StepKeepsAttention : ∃ (s : State) (t : State), step s = .next t :=
  ⟨up, _, rfl⟩
theorem test_BureauEntry : ∃ (s : State), s.bureau.ring.length < 65536 :=
  ⟨up, by decide +kernel⟩
theorem test_MessageOrPendingBit_1 : ∃ (p : Port) (v : Nat) (s : State), portOpen s p ∧ bit (Tbl.get (portOf s p).msix {} v).control 0 = false :=
  ⟨.a, 7, hif ({ · with portA := { up.hif.portA with msix := [(7, { control := 0 })] } }), by decide +kernel⟩
theorem test_MessageOrPendingBit_2 : ∃ (p : Port) (v : Nat) (s : State), ¬(portOpen s p ∧ bit (Tbl.get (portOf s p).msix {} v).control 0 = false) :=
  ⟨.a, 7, up, by decide +kernel⟩
theorem test_CompletionSlot_1_1 : ∃ (q : Nat) (gen : Nat) (s : State), (queueOf s q).state ≠ .off ∧ gen = (queueOf s q).gen :=
  ⟨3, 5, que 3 { kind := 3, state := .active, gen := 5, cqAddr := 4096, cqSize := 4, cqTail := 3, reserved := 1 }, by decide +kernel⟩
theorem test_CompletionSlot_1_2 : ∃ (q : Nat) (gen : Nat) (s : State), (queueOf s q).state ≠ .off ∧ gen = (queueOf s q).gen :=
  ⟨3, 5, que 3 { kind := 3, state := .active, gen := 5, cqAddr := 4096, cqSize := 4, cqTail := 3, reserved := 1 }, by decide +kernel⟩
theorem test_CompletionSlot_1_3 : ∃ (q : Nat) (gen : Nat) (s : State), (queueOf s q).state ≠ .off ∧ gen = (queueOf s q).gen :=
  ⟨3, 5, que 3 { kind := 3, state := .active, gen := 5, cqAddr := 4096, cqSize := 4, cqTail := 3, reserved := 1 }, by decide +kernel⟩
theorem test_CompletionSlot_1_4 : ∃ (q : Nat) (gen : Nat) (s : State), (queueOf s q).state ≠ .off ∧ gen = (queueOf s q).gen ∧ (queueOf s q).hostRing = false ∧ extentOk s 6 ((queueOf s q).cqAddr + 64 * (queueOf s q).cqTail) 64 true = true ∧ s.dmc.mode = .running ∧ (∀ c, (dramChannel s c).retraining = false) :=
  ⟨3, 5, que 3 { kind := 3, state := .active, gen := 5, cqAddr := 4096, cqSize := 4, cqTail := 3, reserved := 1 }, by decide +kernel, by decide +kernel, by decide +kernel, by decide +kernel, by decide +kernel, quiet⟩
theorem test_CompletionSlot_2 : ∃ (q : Nat) (gen : Nat) (s : State), (queueOf s q).state ≠ .off ∧ gen ≠ (queueOf s q).gen :=
  ⟨3, 4, que 3 { kind := 3, state := .active, gen := 5, cqAddr := 4096, cqSize := 4, cqTail := 3, reserved := 1, lateCpl := 255 }, by decide +kernel⟩
theorem test_PortEvents_1 : ∃ (p : _) (s : State), (portOf s p).linkUp :=
  ⟨.a, up, by decide +kernel⟩
theorem test_PortEvents_2 : ∃ (p : _) (s : State), (portOf s p).perst = false :=
  ⟨.b, up, by decide +kernel⟩
theorem test_PortEvents_3 : ∃ (p : _) (s : State), (portOf s p).linkUp :=
  ⟨.a, up, by decide +kernel⟩
theorem test_PortEvents_4 : ∃ (p : _) (s : State), (portOf s p).linkUp :=
  ⟨.b, up, by decide +kernel⟩
theorem test_PortEvents_5 : ∃ (p : _) (s : State), (portOf s p).d3hot :=
  ⟨.a, hif ({ · with portA := { up.hif.portA with d3hot := true } }), by decide +kernel⟩
theorem test_PortEvents_7 : ∃ (p : _) (s : State), s.pwr.porst = false ∧ s.clk.chosen = true ∧ portRef s p = true ∧ (portOf s p).perst = false ∧ (portOf s p).linkUp = false :=
  ⟨.a, hif ({ · with portA := { up.hif.portA with linkUp := false } }), by decide +kernel⟩
theorem test_PortEvents_8 : ∃ (p : Port) (c : Instr) (s : State), s.walec.classNext = [] ∧ (c = .pcieLinkDown p ∧ (portOf s p).linkUp ∨ c = .perst p ∧ (portOf s p).perst = false ∨ c = .functionLevelReset p ∧ (portOf s p).linkUp) :=
  ⟨.a, .pcieLinkDown .a, up, by decide +kernel⟩
theorem test_PortEvents_8_x2 : ∃ (p : Port) (c : Instr) (s : State), s.walec.classNext = [] ∧ (c = .pcieLinkDown p ∧ (portOf s p).linkUp ∨ c = .perst p ∧ (portOf s p).perst = false ∨ c = .functionLevelReset p ∧ (portOf s p).linkUp) :=
  ⟨.b, .perst .b, drw .b 31 { state := .busy, gen := 15 }, by decide +kernel⟩
theorem test_PortEvents_8_x3 : ∃ (p : Port) (c : Instr) (s : State), s.walec.classNext = [] ∧ (c = .pcieLinkDown p ∧ (portOf s p).linkUp ∨ c = .perst p ∧ (portOf s p).perst = false ∨ c = .functionLevelReset p ∧ (portOf s p).linkUp) :=
  ⟨.a, .functionLevelReset .a, que 9 { kind := 3, state := .active, hostRing := true, port := .a }, by decide +kernel⟩
theorem test_Drawers_1_1_1 : ∃ (p : Port) (n : Nat) (v : Nat) (s : State), portOpen s p ∧ n < 32 ∧ bits v 18 16 = 1 ∧ ((drawerOf s p n).state = .idle ∨ (drawerOf s p n).state = .response) ∧ bits v 15 12 = (drawerOf s p n).gen ∧ bits v 15 0 = (drawerOf s p n).tagGen ∧ s.hif.walec = .running :=
  ⟨.a, 31, 2 ^ 16 + 15 * 4096 + 0xABC, drw .a 31 { gen := 15, req := [0, 0, 0, 0, 0xBC, 0xFA] }, by decide +kernel⟩
theorem test_Drawers_1_1_2 : ∃ (p : Port) (n : Nat) (v : Nat) (s : State), portOpen s p ∧ n < 32 ∧ bits v 18 16 = 1 ∧ ((drawerOf s p n).state = .idle ∨ (drawerOf s p n).state = .response) ∧ bits v 15 12 = (drawerOf s p n).gen ∧ bits v 15 0 = (drawerOf s p n).tagGen ∧ s.hif.walec ≠ .running :=
  ⟨.b, 0, 2 ^ 16, { up with hif := { up.hif with walec := .booting } }, by decide +kernel⟩
theorem test_Drawers_1_2 : ∃ (p : Port) (n : Nat) (v : Nat) (s : State), portOpen s p ∧ n < 32 ∧ bits v 18 16 = 1 ∧ (¬(((drawerOf s p n).state = .idle ∨ (drawerOf s p n).state = .response) ∧ bits v 15 12 = (drawerOf s p n).gen ∧ bits v 15 0 = (drawerOf s p n).tagGen)) :=
  ⟨.a, 0, 2 ^ 16 + 4096, up, by decide +kernel⟩
theorem test_Drawers_1_3 : ∃ (p : Port) (n : Nat) (v : Nat) (s : State), portOpen s p ∧ n < 32 ∧ bits v 18 16 = 2 ∧ s.walec.classNext = [] :=
  ⟨.b, 31, 2 * 2 ^ 16, drw .b 31 { state := .busy, gen := 15, aborts := 255 }, by decide +kernel⟩
theorem test_Drawers_1_4 : ∃ (p : Port) (n : Nat) (v : Nat) (s : State), portOpen s p ∧ n < 32 ∧ bits v 18 16 = 4 ∧ (drawerOf s p n).state = .response ∧ bits v 15 12 = (drawerOf s p n).gen ∧ s.walec.classNext = [] :=
  ⟨.a, 5, 4 * 2 ^ 16 + 3 * 4096, drw .a 5 { state := .response, gen := 3 }, by decide +kernel⟩
theorem test_Drawers_1_5 : ∃ (p : Port) (n : Nat) (v : Nat) (s : State), portOpen s p ∧ n < 32 ∧ bits v 18 16 = 4 ∧ ¬((drawerOf s p n).state = .response ∧ bits v 15 12 = (drawerOf s p n).gen) :=
  ⟨.a, 5, 4 * 2 ^ 16 + 2 * 4096, drw .a 5 { state := .response, gen := 3 }, by decide +kernel⟩
theorem test_Drawers_2 : ∃ (p : _) (n : _) (s : State), s.hif.walec = .running ∧ (drawerOf s p n).state = .request :=
  ⟨.a, 5, drw .a 5 { state := .request, req := leBytes 2 1 ++ leBytes 2 1 ++ leBytes 4 0 ++ leBytes 8 0 }, by decide +kernel⟩
theorem test_Drawers_3_1 : ∃ (p : _) (n : _) (a : _) (s : State), (s.walec.answers.find? fun a => a.ch == .drawer p n) = some a ∧ (drawerOf s p n).state = .busy ∧ a.tagGen = (drawerOf s p n).gen * 4096 + (drawerOf s p n).tag :=
  ⟨.a, 5, { ch := .drawer .a 5, tagGen := 3 * 4096 + 7, status := 0, body := [1] }, { up with hif := { up.hif with drawers := [(drawerIx .a 5, { state := .busy, gen := 3, tag := 7 })] }, walec := { answers := [{ ch := .drawer .a 5, tagGen := 3 * 4096 + 7, status := 0, body := [1] }] } }, by decide +kernel⟩
theorem test_Drawers_3_2 : ∃ (p : _) (n : _) (a : _) (s : State), (s.walec.answers.find? fun a => a.ch == .drawer p n) = some a ∧ ¬((drawerOf s p n).state = .busy ∧ a.tagGen = (drawerOf s p n).gen * 4096 + (drawerOf s p n).tag) :=
  ⟨.a, 5, { ch := .drawer .a 5, tagGen := 2 * 4096 + 7, status := 0, body := [1] }, { up with hif := { up.hif with drawers := [(drawerIx .a 5, { state := .busy, gen := 3, tag := 7 })] }, walec := { answers := [{ ch := .drawer .a 5, tagGen := 2 * 4096 + 7, status := 0, body := [1] }] } }, by decide +kernel⟩
theorem test_QueueDoorbells_1_1 : ∃ (p : Port) (q : Nat) (v : Nat) (s : State) (c : Instr), portOpen s p ∧ (c = .sqDoorbell p q v ∨ c = .cqDoorbell p q v) ∧ doorbellOk s p q v = true :=
  ⟨.a, 3, 2 ^ 60 + 2 ^ 32 + 3, que 3 { kind := 3, state := .active, gen := 1, sqSize := 4, cqSize := 4, sqHead := 1, sqTail := 2 }, .sqDoorbell .a 3 (2 ^ 60 + 2 ^ 32 + 3), by decide +kernel⟩
theorem test_QueueDoorbells_1_1_x2 : ∃ (p : Port) (q : Nat) (v : Nat) (s : State) (c : Instr), portOpen s p ∧ (c = .sqDoorbell p q v ∨ c = .cqDoorbell p q v) ∧ doorbellOk s p q v = true :=
  ⟨.a, 3, 2 ^ 60 + 2 ^ 33 + 2 ^ 16, que 3 { kind := 3, state := .active, gen := 1, sqSize := 4, cqSize := 4, cqTail := 1 }, .cqDoorbell .a 3 (2 ^ 60 + 2 ^ 33 + 2 ^ 16), by decide +kernel⟩
theorem test_QueueDoorbells_1_2 : ∃ (p : Port) (q : Nat) (v : Nat) (s : State) (c : Instr), portOpen s p ∧ (c = .sqDoorbell p q v ∨ c = .cqDoorbell p q v) ∧ doorbellOk s p q v = false :=
  ⟨.a, 3, 2 ^ 60 + 2 ^ 32 + 4, que 3 { kind := 3, state := .active, gen := 1, sqSize := 4, cqSize := 4 }, .sqDoorbell .a 3 (2 ^ 60 + 2 ^ 32 + 4), by decide +kernel⟩
theorem test_QueueEntries_1_1 : ∃ (q : Nat) (s : State) (h : _) (e : _), queueState s q = .active ∧ (queueOf s q).sqHead ≠ (queueOf s q).sqTail ∧ (nextEntry s (queueOf s q) h).1 = some e ∧ ((queueOf s q).hostRing = true → portOpen s (queueOf s q).port) ∧ ((queueOf s q).hostRing = false → s.dmc.mode = .running ∧ ∀ c, (dramChannel s c).retraining = false) ∧ ((queueOf s q).kind ≠ 1 ∨ s.hif.walec = .running) ∧ slotsFor (queueOf s q) e ≤ slotsFree (queueOf s q) :=
  ⟨3, que 3 { kind := 3, state := .active, sqSize := 4, cqSize := 2, sqHead := 3, sqTail := 0 }, none, List.replicate 32 0, by decide +kernel, by decide +kernel, by decide +kernel, by decide +kernel, (fun _ => ⟨rfl, quiet⟩), by decide +kernel, by decide +kernel⟩
theorem test_QueueEntries_1_1_x2 : ∃ (q : Nat) (s : State) (h : _) (e : _), queueState s q = .active ∧ (queueOf s q).sqHead ≠ (queueOf s q).sqTail ∧ (nextEntry s (queueOf s q) h).1 = some e ∧ ((queueOf s q).hostRing = true → portOpen s (queueOf s q).port) ∧ ((queueOf s q).hostRing = false → s.dmc.mode = .running ∧ ∀ c, (dramChannel s c).retraining = false) ∧ ((queueOf s q).kind ≠ 1 ∨ s.hif.walec = .running) ∧ slotsFor (queueOf s q) e ≤ slotsFree (queueOf s q) :=
  ⟨3, que 3 { kind := 1, port := .b, hostRing := true, state := .active, sqSize := 4, cqSize := 3, sqTail := 1 }, some [2], padTo 32 [2], by decide +kernel, by decide +kernel, by decide +kernel, by decide +kernel, (fun _ => ⟨rfl, quiet⟩), by decide +kernel, by decide +kernel⟩
theorem test_QueueEntries_1_2 : ∃ (q : Nat) (s : State) (h : _) (e : _), queueState s q = .active ∧ (queueOf s q).sqHead ≠ (queueOf s q).sqTail ∧ (nextEntry s (queueOf s q) h).1 = some e ∧ slotsFree (queueOf s q) < slotsFor (queueOf s q) e :=
  ⟨3, que 3 { kind := 3, state := .active, sqSize := 4, cqSize := 2, sqHead := 3, sqTail := 0, reserved := 1 }, none, List.replicate 32 0, by decide +kernel⟩
theorem test_QueueEntries_1_3 : ∃ (q : Nat) (s : State), queueState s q = .active ∧ (queueOf s q).sqHead ≠ (queueOf s q).sqTail ∧ (queueOf s q).hostRing = true :=
  ⟨3, que 3 { kind := 3, state := .active, hostRing := true, sqSize := 4, cqSize := 4, sqTail := 1 }, by decide +kernel⟩
theorem test_QueueEntries_1_4 : ∃ (q : Nat) (s : State) (h : _), queueState s q = .active ∧ (queueOf s q).sqHead ≠ (queueOf s q).sqTail ∧ (queueOf s q).hostRing = false ∧ s.dmc.mode = .running ∧ (∀ c, (dramChannel s c).retraining = false) ∧ (nextEntry s (queueOf s q) h).1 = none :=
  ⟨3, { que 3 { kind := 3, state := .active, sqSize := 4, cqSize := 4, sqHead := 1, sqTail := 2 } with dmc := { up.dmc with poison := [0] } }, none, by decide +kernel, by decide +kernel, rfl, rfl, quiet, by decide +kernel⟩
theorem test_QueueEntries_2 : ∃ (q : Nat) (t0 : Nat) (s : State), (queueOf s q).since.head? = some t0 ∧ (queueOf s q).coalUs ≠ 0 ∧ 0 < unconsumed (queueOf s q) :=
  ⟨3, 5, que 3 { kind := 3, state := .active, cqSize := 4, cqTail := 1, coalUs := 10, since := [5] }, by decide +kernel⟩
theorem test_LeaseCommands_1 : ∃ (p : _) (v : Nat) (s : State), portOpen s p ∧ bit v 8 = true ∧ bits v 7 0 = 0 ∧ s.hif.walec = .running :=
  ⟨.b, 256, up, by decide +kernel⟩
theorem test_LeaseCommands_2 : ∃ (p : _) (k : _) (s : State), portOpen s p ∧ k < 4 ∧ (ownerOf s k).holder = none ∧ s.hif.walec = .running :=
  ⟨.a, 3, up, by decide +kernel⟩
theorem test_LeaseCommands_3 : ∃ (p : _) (k : _) (s : State), portOpen s p ∧ k < 4 ∧ (ownerOf s k).holder = some p.other ∧ (ownerOf s k).expired = false ∧ (portOf s p.other).lease.isSome :=
  ⟨.a, 0, hif ({ · with portB := { up.hif.portB with lease := some 500 }, own := [(0, { holder := some .b })] }), by decide +kernel⟩
theorem test_LeaseCommands_4 : ∃ (p : _) (k : _) (s : State), portOpen s p ∧ k < 4 ∧ (ownerOf s k).holder = some p :=
  ⟨.b, 3, hif ({ · with own := [(3, { holder := some .b })] }), by decide +kernel⟩
theorem test_LeaseCommands_5 : ∃ (p : _) (u : _) (s : State), (portOf s p).lease = some u ∧ s.hif.walec ≠ .restarting :=
  ⟨.a, 500, hif ({ · with portA := { up.hif.portA with lease := some 500 } }), by decide +kernel⟩
theorem test_Bar2Window_1 : ∃ (p : _) (off : _) (data : Bytes) (s : State), portOpen s p ∧ (∀ c, (dramChannel s c).retraining = false) ∧ windowWriteBad s p off data.length = false :=
  ⟨.a, 2 ^ 30 - 1, [7], up, by decide +kernel, quiet, by decide +kernel⟩
theorem test_Bar2Window_2 : ∃ (p : _) (off : _) (data : Bytes) (s : State), portOpen s p ∧ windowWriteBad s p off data.length = true :=
  ⟨.a, 0, [7], { up with dmc := { up.dmc with ranges := [{ base := 0, size := 4096, reads := [], writes := [] }] } }, by decide +kernel⟩
theorem test_Bar2Window_2_x2 : ∃ (p : _) (off : _) (data : Bytes) (s : State), portOpen s p ∧ windowWriteBad s p off data.length = true :=
  ⟨.b, 0, [7], { up with dmc := { up.dmc with mode := .selfRefresh } }, by decide +kernel⟩
theorem test_Bar2Window_3 : ∃ (p : _) (off : _) (len : _) (s : State), portOpen s p ∧ (∀ c, (dramChannel s c).retraining = false) ∧ windowBad s p off len = false ∧ accessError s 6 (windowAddr s p off) len false = none ∧ poisoned s (windowAddr s p off) len = false ∧ 0 < len :=
  ⟨.a, 2 ^ 30 - 1, 1, up, by decide +kernel, quiet, by decide +kernel, by decide +kernel, by decide +kernel, by decide +kernel⟩
theorem test_Bar2Window_4 : ∃ (p : _) (off : _) (len : _) (s : State), portOpen s p ∧ windowBad s p off len = true :=
  ⟨.b, 0, 64, { up with dmc := { up.dmc with mode := .failed } }, by decide +kernel⟩
theorem test_WalecBeat : ∃ (s : State), s.hif.walec = .running ∧ AttentionTrue s :=
  ⟨up, by decide +kernel⟩

/-! ### Witnesses: DRAM, links, time and Ethernet -/

theorem test_DramAccesses_1 : ∃ (r : _) (a : _) (data : Bytes) (s : State), s.dmc.mode = .running ∧ (∀ c, (dramChannel s c).retraining = false) ∧ accessError s r a data.length true = none :=
  ⟨4, 56 * 2 ^ 30 - 1, [7], up, by decide +kernel, quiet, by decide +kernel⟩
theorem test_DramAccesses_2 : ∃ (r : _) (a : _) (len : _) (s : State), s.dmc.mode = .running ∧ (∀ c, (dramChannel s c).retraining = false) ∧ accessError s r a len false = none ∧ poisoned s a len = false :=
  ⟨4, 56 * 2 ^ 30 - 64, 64, up, by decide +kernel, quiet, by decide +kernel, by decide +kernel⟩
theorem test_DramAccesses_3 : ∃ (r : _) (a : _) (data : Bytes) (k : _) (s : State), s.dmc.mode = .running ∧ (∀ c, (dramChannel s c).retraining = false) ∧ accessError s r a data.length true = some k :=
  ⟨4, 56 * 2 ^ 30, [7], 3, up, by decide +kernel, quiet, by decide +kernel⟩
theorem test_DramAccesses_3_x2 : ∃ (r : _) (a : _) (data : Bytes) (k : _) (s : State), s.dmc.mode = .running ∧ (∀ c, (dramChannel s c).retraining = false) ∧ accessError s r a data.length true = some k :=
  ⟨4, 0, [7], 4, dmc ({ · with ranges := [{ base := 0, size := 64, reads := [4], writes := [] }] }), by decide +kernel, quiet, by decide +kernel⟩
theorem test_DramAccesses_4 : ∃ (r : _) (a : _) (len : _) (k : _) (s : State), s.dmc.mode = .running ∧ (∀ c, (dramChannel s c).retraining = false) ∧ 0 < len ∧ a % 64 + len ≤ 64 ∧ accessError s r a len false = some k ∧ requesterOff s r = false :=
  ⟨4, 56 * 2 ^ 30, 64, 3, up, by decide +kernel, quiet, by decide +kernel, by decide +kernel, by decide +kernel, by decide +kernel⟩
theorem test_DramAccesses_4_x2 : ∃ (r : _) (a : _) (len : _) (k : _) (s : State), s.dmc.mode = .running ∧ (∀ c, (dramChannel s c).retraining = false) ∧ 0 < len ∧ a % 64 + len ≤ 64 ∧ accessError s r a len false = some k ∧ requesterOff s r = false :=
  ⟨5, 63, 1, 4, dmc ({ · with ranges := [{ base := 0, size := 64, reads := [4], writes := [] }] }), by decide +kernel, quiet, by decide +kernel, by decide +kernel, by decide +kernel, by decide +kernel⟩
theorem test_DramAccesses_5 : ∃ (r : _) (a : _) (len : _) (s : State), s.dmc.mode = .running ∧ (∀ c, (dramChannel s c).retraining = false) ∧ 0 < len ∧ a % 64 + len ≤ 64 ∧ accessError s r a len false = none ∧ poisoned s a len = true :=
  ⟨4, 127, 1, dmc ({ · with poison := [1] }), by decide +kernel, quiet, by decide +kernel, by decide +kernel, by decide +kernel, by decide +kernel⟩
theorem test_DramAccesses_6 : ∃ (r : _) (a : _) (len : _) (s : State), s.dmc.mode = .running ∧ 0 < len ∧ a % 64 + len ≤ 64 ∧ (dramChannel s (physChannel s (64 * (a / 64)))).retraining = true ∧ outstanding s r < readLimit s r :=
  ⟨8, 64, 64, dmc ({ · with channels := (List.range 36).map fun k => (k, { retraining := true }) }), by decide +kernel⟩
theorem test_DramAccesses_7_1 : ∃ (a : Nat) (n : Nat), (56 * 2 ^ 30 ≤ a ∨ 56 * 2 ^ 30 ≤ a + n - 1) :=
  ⟨56 * 2 ^ 30 - 1, 2, by decide +kernel⟩
theorem test_DramAccesses_7_2 : ∃ (s : State) (r : Nat) (a : Nat) (n : Nat) (w : Bool), a < 56 * 2 ^ 30 ∧ a + n - 1 < 56 * 2 ^ 30 ∧ r ≠ 8 ∧ (∃ x ∈ s.dmc.ranges, x.base < a + n ∧ a < x.base + x.size ∧ r ∉ (if w then x.writes else x.reads)) :=
  ⟨dmc ({ · with ranges := [{ base := 64, size := 64, reads := [4], writes := [] }] }), 4, 127, 1, true, by decide +kernel⟩
theorem test_DramAccesses_7_3 : ∃ (r : Nat) (a : Nat) (n : Nat), a < 56 * 2 ^ 30 ∧ a + n - 1 < 56 * 2 ^ 30 ∧ r = 8 :=
  ⟨8, 56 * 2 ^ 30 - 1, 1, by decide +kernel⟩
theorem test_DramRefreshAndUpkeep_1 : ∃ (c : _) (s : State), (dramChannel s c).asleep = false ∧ s.dmc.mr4Due = false ∧ s.dmc.mode = .running ∧ (siteOf s (c / 4)).hot = (dramChannel s c).hot :=
  ⟨35, up, by decide +kernel⟩
theorem test_DramRefreshAndUpkeep_2 : ∃ (c : _) (s : State), (dramChannel s c).asleep = false ∧ s.dmc.mr4Due = false ∧ s.dmc.mode = .running ∧ (siteOf s (c / 4)).hot = true ∧ (dramChannel s c).hot = false :=
  ⟨35, dmc ({ · with sites := [(8, { hot := true })], channels := [(35, { debt := 3 })] }), by decide +kernel⟩
theorem test_DramRefreshAndUpkeep_3 : ∃ (c : _) (s : State), (dramChannel s c).asleep = false ∧ s.dmc.mr4Due = false ∧ s.dmc.mode = .running ∧ (siteOf s (c / 4)).hot = false ∧ (dramChannel s c).hot = true :=
  ⟨0, dmc ({ · with channels := [(0, { debt := 3, hot := true })] }), by decide +kernel⟩
theorem test_DramRefreshAndUpkeep_4 : ∃ (c : _) (idle : _) (s : State), (dramChannel s c).asleep = false ∧ s.dmc.mr4Due = false ∧ 0 < (dramChannel s c).debt ∧ (idle = true ∨ debtLimit (dramChannel s c) < (dramChannel s c).debt) :=
  ⟨0, true, dmc ({ · with channels := [(0, { debt := 1 })] }), by decide +kernel⟩
theorem test_DramRefreshAndUpkeep_4_x2 : ∃ (c : _) (idle : _) (s : State), (dramChannel s c).asleep = false ∧ s.dmc.mr4Due = false ∧ 0 < (dramChannel s c).debt ∧ (idle = true ∨ debtLimit (dramChannel s c) < (dramChannel s c).debt) :=
  ⟨0, false, dmc ({ · with channels := [(0, { debt := 5, hot := true })] }), by decide +kernel⟩
theorem test_DramRefreshAndUpkeep_5 : ∃ (line : _) (s : State), s.dmc.mode = .running ∧ (∀ c, (dramChannel s c).retraining = false) ∧ 64 * line < 56 * 2 ^ 30 ∧ poisoned s (64 * line) 64 = false :=
  ⟨56 * 2 ^ 24 - 1, up, by decide +kernel, quiet, by decide +kernel, by decide +kernel⟩
theorem test_DramRefreshAndUpkeep_8 : ∃ (s : State), s.dmc.mode = .running :=
  ⟨up, by decide +kernel⟩
theorem test_DramRefreshAndUpkeep_8_x2 : ∃ (s : State), s.dmc.mode = .running :=
  ⟨dmc ({ · with sites := [(0, { hot := true })] }), by decide +kernel⟩
theorem test_DramRefreshAndUpkeep_9 : ∃ (c : _) (s : State), s.dmc.mode = .running ∧ (dramChannel s c).retraining = true :=
  ⟨35, dmc ({ · with channels := [(35, { retraining := true, marked := true })] }), by decide +kernel⟩
theorem test_DramRefreshAndUpkeep_10 : ∃ (c : _) (s : State), s.dmc.mode = .running ∧ (dramChannel s c).retraining = true ∧ (dramChannel s c).failedOnce = false :=
  ⟨35, dmc ({ · with channels := [(35, { retraining := true, marked := true })] }), by decide +kernel⟩
theorem test_DramRefreshAndUpkeep_11 : ∃ (c : _) (s : State), s.dmc.mode = .running ∧ (dramChannel s c).retraining = true ∧ (dramChannel s c).failedOnce = true :=
  ⟨35, dmc ({ · with channels := [(35, { retraining := true, failedOnce := true })] }), by decide +kernel⟩
theorem test_DramModes_1 : ∃ (s : State), s.dmc.mode = .entering ∧ s.dmc.held = [] :=
  ⟨dmc ({ · with mode := .entering }), by decide +kernel⟩
theorem test_DramModes_2 : ∃ (c : _) (u : _) (s : State), s.dmc.mode = .entering ∧ (dramChannel s c).retryAt = some u :=
  ⟨7, 5, dmc ({ · with mode := .entering, channels := [(7, { retryAt := some 5, debt := 2 })] }), by decide +kernel⟩
theorem test_DramModes_3 : ∃ (s : State), s.dmc.mode = .selfRefresh ∧ (s.tim.bench = .off ∨ s.tim.bench = .leaving) ∧ s.hif.powerDown = false ∧ s.dmc.held = [] ∧ (∀ d ∈ siteDomains s, domainOn s d = true) :=
  ⟨dmc ({ · with mode := .selfRefresh }), by decide +kernel⟩
theorem test_DramModes_4 : ∃ (d : _) (s : State), s.dmc.mode = .selfRefresh ∧ (s.tim.bench = .off ∨ s.tim.bench = .leaving) ∧ s.hif.powerDown = false ∧ d ∈ siteDomains s ∧ domainOn s d = false :=
  ⟨29, { dmc ({ · with mode := .selfRefresh, siteMap := [8, 1, 2, 3, 4, 5, 6, 7] }) with pwr := { porst := false } }, by decide +kernel⟩
theorem test_DramModes_5 : ∃ (s : State), s.dmc.mode = .init ∧ s.pwr.porst = false ∧ s.dmc.held = [] :=
  ⟨dmc ({ · with mode := .init, mem := [(3, 4)] }), by decide +kernel⟩
theorem test_DramModes_5_x2 : ∃ (s : State), s.dmc.mode = .init ∧ s.pwr.porst = false ∧ s.dmc.held = [] :=
  ⟨dmc ({ · with mode := .init }), by decide +kernel⟩
theorem test_DramModes_6 : ∃ (s : State), s.dmc.migrate = .copying ∧ s.dmc.mode = .running ∧ s.dmc.held = [] ∧ s.dmc.moved.length < 7167 :=
  ⟨dmc ({ · with migrate := .copying, migrateFrom := 0, migrateTo := 8, moved := [0, 2] }), by decide +kernel⟩
theorem test_DramModes_7 : ∃ (s : State), s.dmc.migrate = .copying ∧ s.dmc.mode = .running ∧ s.dmc.moved.length < 7168 :=
  ⟨dmc ({ · with migrate := .copying, migrateFrom := 0, migrateTo := 8, moved := [0, 2] }), by decide +kernel⟩
theorem test_TileLinks_1 : ∃ (n : Nat) (gs : List Nat) (b : Bytes) (f : TrainFrame) (s : State), goodFrame 0x03 gs = some b ∧ f = trainOf b ∧ (linkOf s n).state = .training :=
  ⟨95, laneGroups [3, 95, 1, 2, 1, 1], laneFrame [3, 95, 1, 2, 1, 1], trainOf (laneFrame [3, 95, 1, 2, 1, 1]), lnk 95 { state := .training, tapPre := 0, tapMain := -48, tapPost := -32 }, by decide +kernel⟩
theorem test_TileLinks_1_x2 : ∃ (n : Nat) (gs : List Nat) (b : Bytes) (f : TrainFrame) (s : State), goodFrame 0x03 gs = some b ∧ f = trainOf b ∧ (linkOf s n).state = .training :=
  ⟨0, laneGroups [3, 0, 2, 1, 2, 0], laneFrame [3, 0, 2, 1, 2, 0], trainOf (laneFrame [3, 0, 2, 1, 2, 0]), lnk 0 { state := .training, tapPre := -16, tapMain := 48, tapPost := -32 }, by decide +kernel⟩
theorem test_TileLinks_2 : ∃ (n : _) (gs : _) (b : _) (f : _) (s : State), goodFrame 0x02 gs = some b ∧ f = identOf b ∧ (linkOf s n).state = .aligning ∧ f.pos = n ∧ f.caps % 4 = 3 ∧ (linkOf s n).cwLock = true :=
  ⟨95, laneGroups [2, 95, 3, 1, 7], laneFrame [2, 95, 3, 1, 7], identOf (laneFrame [2, 95, 3, 1, 7]), lnk 95 { state := .aligning, cwLock := true }, by decide +kernel⟩
theorem test_TileLinks_3 : ∃ (n : _) (gs : _) (b : _) (f : _) (s : State), goodFrame 0x02 gs = some b ∧ f = identOf b ∧ (linkOf s n).state = .aligning ∧ ¬(f.pos = n ∧ f.caps % 4 = 3) :=
  ⟨95, laneGroups [2, 94, 3, 1, 7], laneFrame [2, 94, 3, 1, 7], identOf (laneFrame [2, 94, 3, 1, 7]), lnk 95 { state := .aligning, cwLock := true }, by decide +kernel⟩
theorem test_TileLinks_4 : ∃ (n : _) (s : State), ((linkOf s n).state = .training ∨ (linkOf s n).state = .aligning) :=
  ⟨95, lnk 95 { state := .aligning }, by decide +kernel⟩
theorem test_TileLinks_4_x2 : ∃ (n : _) (s : State), ((linkOf s n).state = .training ∨ (linkOf s n).state = .aligning) :=
  ⟨0, lnk 0 { state := .training, retried := true }, by decide +kernel⟩
theorem test_TileLinks_5 : ∃ (n : _) (s : State), (linkOf s n).state = .failed :=
  ⟨95, lnk 95 { state := .failed, half := true }, by decide +kernel⟩
theorem test_TileLinks_6 : ∃ (n : _) (u : _) (s : State), (linkOf s n).state = .up ∧ (linkOf s n).lossSince = some u :=
  ⟨95, 9, lnk 95 { state := .up, half := true, lossSince := some 9 }, by decide +kernel⟩
theorem test_TileLinks_7 : ∃ (n : _) (gs : _) (b : _) (f : _) (s : State), goodFrame 0x01 gs = some b ∧ f = statusOf b ∧ (linkOf s n).state = .up :=
  ⟨95, laneGroups [1, 95, 3, 4, 0x2C, 1, 0, 0, 9], laneFrame [1, 95, 3, 4, 0x2C, 1, 0, 0, 9], statusOf (laneFrame [1, 95, 3, 4, 0x2C, 1, 0, 0, 9]), lnk 95 { state := .up }, by decide +kernel⟩
theorem test_TileLinks_8 : ∃ (n : _) (u : _) (s : State), (linkOf s n).lastStatus = some u ∧ (linkOf s n).state = .up ∧ (linkOf s n).stale = false :=
  ⟨95, 9, lnk 95 { state := .up, lastStatus := some 9 }, by decide +kernel⟩
theorem test_CaptureTakesAllBases_1 : ∃ (n : Nat), n < 4 :=
  ⟨3, by decide +kernel⟩
theorem test_CaptureTakesAllBases_2 : ∃ (p : Port) (v : Nat) (s : State), portOpen s p ∧ bit v 0 = true :=
  ⟨.b, 2 ^ 64 - 1, tim ({ · with bases := (List.range 4).map fun k => (k, { acc := (k + 1) * 2 ^ 101 + 5 * 2 ^ 24 }) }), by decide +kernel⟩
theorem test_EventSlots_1 : ∃ (n : Nat) (s : State), (slotOf s n).armed = true ∧ clocked s = true :=
  ⟨15, tim ({ · with slots := [(15, { armed := true, base := 1, target := 5, count := 2 ^ 32 - 1, action := 0 })] }), by decide +kernel⟩
theorem test_EventSlots_1_x2 : ∃ (n : Nat) (s : State), (slotOf s n).armed = true ∧ clocked s = true :=
  ⟨0, tim ({ · with slots := [(0, { armed := true, base := 3, target := 5, period := 1000000, action := 2 })] }), by decide +kernel⟩
theorem test_EventSlots_2 : ∃ (target : Nat) (period : Nat) (now : Nat), 0 < period ∧ target ≤ now ∧ now + period < 2 ^ 63 :=
  ⟨100, 50, 200, by decide +kernel⟩
theorem test_ServoStates_2 : ∃ (b : Base), b.servo = .free :=
  ⟨{ servo := .free }, by decide +kernel⟩
theorem test_ServoStates_3 : ∃ (b : Base), b.servo = .locking :=
  ⟨{ servo := .locking, good := 15 }, by decide +kernel⟩
theorem test_ServoStates_4 : ∃ (b : Base), b.servo = .locked :=
  ⟨{ servo := .locked, bad := 3 }, by decide +kernel⟩
theorem test_ServoStates_5 : ∃ (b : Base), b.servo = .holdover :=
  ⟨{ servo := .holdover }, by decide +kernel⟩
theorem test_TimeSources_1 : ∃ (x : Int) (s : State), s.hif.walec = .running ∧ s.eth.role ≠ 0 ∧ s.eth.parentValid = true ∧ syncOverdue s = false ∧ s.eth.measured = some x :=
  ⟨5, eth ({ · with role := 1, parentValid := true, measured := some 5 }), by decide +kernel⟩
theorem test_TimeSources_2 : ∃ (s : State), s.hif.walec = .running ∧ s.eth.role ≠ 0 ∧ s.eth.parentValid = true ∧ syncOverdue s = false ∧ s.eth.measured = none :=
  ⟨eth ({ · with role := 1, parentValid := true }), by decide +kernel⟩
theorem test_TimeSources_3 : ∃ (s : State), s.hif.walec = .running ∧ s.eth.role ≠ 0 ∧ syncOverdue s = true :=
  ⟨{ up with eth := { up.eth with role := 1, parentValid := true }, tim := { up.tim with bases := [(0, { acc := 10 ^ 12 * 2 ^ 40 }), (1, { servo := .locked })] } }, by decide +kernel⟩
theorem test_TimeSources_4 : ∃ (p : _) (s : State), s.tim.tb2Port = p.num ∧ portOpen s p :=
  ⟨.b, tim ({ · with tb2Port := 1, ptmSent := some 4 }), by decide +kernel⟩
theorem test_TimeSources_5 : ∃ (p : _) (s : State), s.tim.tb2Port = p.num ∧ portOpen s p = false ∧ s.tim.ptmSent = none :=
  ⟨.b, { up with tim := { up.tim with tb2Port := 1 }, hif := { up.hif with portB := {} } }, by decide +kernel⟩
theorem test_TimeSources_6 : ∃ (p : _) (u : _) (s : State), s.tim.ptmSent = some u ∧ s.tim.tb2Port = p.num ∧ portOpen s p :=
  ⟨.a, 4, tim ({ · with tb2Port := 0, ptmSent := some 4 }), by decide +kernel⟩
theorem test_PtpChecks_1 : ∃ (m : PtpMsg) (s : State), ptpOn s m = true ∧ s.eth.parent = some (m.port, m.source) ∧ (∀ q, (ethOf s m.port).lastSync = some q → seqNewer m.seq q = true) ∧ m.twoStep = true :=
  ⟨{ port := 1, source := 7, seq := 6, twoStep := true }, eth ({ · with role := 1, parent := some (1, 7), ports := [(1, { link := true, lastSync := some 5 })] }), by decide +kernel, rfl, (fun q h => by cases h; decide), rfl⟩
theorem test_PtpChecks_2 : ∃ (m : PtpMsg) (s : State), ptpOn s m = true ∧ s.eth.parent = some (m.port, m.source) ∧ (∀ q, (ethOf s m.port).lastSync = some q → seqNewer m.seq q = true) ∧ m.twoStep = false :=
  ⟨{ port := 1, source := 7, seq := 6 }, eth ({ · with role := 1, parent := some (1, 7), ports := [(1, { link := true, lastSync := some 5 })] }), by decide +kernel, rfl, (fun q h => by cases h; decide), rfl⟩
theorem test_PtpChecks_3 : ∃ (m : PtpMsg) (s : State), ptpOn s m = true ∧ (¬(s.eth.parent = some (m.port, m.source) ∧ (∀ q, (ethOf s m.port).lastSync = some q → seqNewer m.seq q = true))) :=
  ⟨{ port := 1, source := 7, seq := 5 }, eth ({ · with role := 1, parent := some (1, 7), ports := [(1, { link := true, lastSync := some 5 })] }), by decide +kernel, fun h => absurd (h.2 5 rfl) (by decide)⟩
theorem test_PtpChecks_4 : ∃ (m : PtpMsg) (s : State) (a : _) (c : _), ptpOn s m = true ∧ s.eth.parent = some (m.port, m.source) ∧ (ethOf s m.port).twoStep = some (m.seq, a, c) :=
  ⟨{ port := 0, source := 7, seq := 5 }, eth ({ · with role := 1, parent := some (0, 7), ports := [(0, { link := true, twoStep := some (5, 9, 2) })] }), 9, 2, by decide +kernel⟩
theorem test_PtpChecks_5 : ∃ (m : PtpMsg) (s : State), ptpOn s m = true ∧ (∀ w, ¬(s.eth.parent = some (m.port, m.source) ∧ (ethOf s m.port).twoStep = some w ∧ w.1 = m.seq)) :=
  ⟨{ port := 0, source := 7, seq := 4 }, eth ({ · with role := 1, parent := some (0, 7), ports := [(0, { link := true, twoStep := some (5, 9, 2) })] }), by decide +kernel, fun w h => by have h1 := h.2.1; cases h1; exact absurd h.2.2 (by decide)⟩
theorem test_PtpChecks_6 : ∃ (m : PtpMsg) (s : State), ptpOn s m = true ∧ m.requesting = m.port ∧ (ethOf s m.port).delayReqSent = some m.seq :=
  ⟨{ port := 1, source := 7, seq := 4, requesting := 1 }, eth ({ · with role := 1, ports := [(1, { link := true, delayReqSent := some 4, syncTimes := some (1, 2, 0) })] }), by decide +kernel⟩
theorem test_PtpChecks_7 : ∃ (m : PtpMsg) (s : State), ptpOn s m = true ∧ ¬(m.requesting = m.port ∧ (ethOf s m.port).delayReqSent = some m.seq) :=
  ⟨{ port := 1, source := 7, seq := 4, requesting := 0 }, eth ({ · with role := 1, ports := [(1, { link := true, delayReqSent := some 4 })] }), by decide +kernel⟩
theorem test_PtpChecks_8 : ∃ (m : PtpMsg) (s : State), ptpOn s m = true ∧ m.requesting = m.port ∧ (ethOf s m.port).pdelayReqSent = some m.seq ∧ m.kind ≠ 10 ∧ m.twoStep = true :=
  ⟨{ port := 1, source := 7, seq := 4, requesting := 1, kind := 3, twoStep := true }, eth ({ · with role := 1, ports := [(1, { link := true, pdelayReqSent := some 4 })] }), by decide +kernel⟩
theorem test_PtpChecks_9 : ∃ (m : PtpMsg) (s : State), ptpOn s m = true ∧ m.requesting = m.port ∧ (ethOf s m.port).pdelayReqSent = some m.seq ∧ m.kind ≠ 10 ∧ m.twoStep = false :=
  ⟨{ port := 1, source := 7, seq := 4, requesting := 1, kind := 3 }, eth ({ · with role := 1, ports := [(1, { link := true, pdelayReqSent := some 4 })] }), by decide +kernel⟩
theorem test_PtpChecks_10 : ∃ (m : PtpMsg) (s : State) (t2 : _) (t4 : _) (c : _), ptpOn s m = true ∧ m.requesting = m.port ∧ (ethOf s m.port).pdelayReqSent = some m.seq ∧ m.kind = 10 ∧ (ethOf s m.port).pdelayResp = some (m.source, t2, t4, c) :=
  ⟨{ port := 1, source := 7, seq := 4, requesting := 1, kind := 10 }, eth ({ · with role := 1, ports := [(1, { link := true, pdelayReqSent := some 4, pdelayResp := some (7, 2, 3, 0) })] }), 2, 3, 0, by decide +kernel⟩
theorem test_PtpChecks_11 : ∃ (m : PtpMsg) (s : State), ptpOn s m = true ∧ (¬(m.requesting = m.port ∧ (ethOf s m.port).pdelayReqSent = some m.seq ∧ (m.kind = 10 → ∃ w, (ethOf s m.port).pdelayResp = some (m.source, w)))) :=
  ⟨{ port := 1, source := 7, seq := 4, requesting := 1, kind := 10 }, eth ({ · with role := 1, ports := [(1, { link := true, pdelayReqSent := some 4 })] }), by decide +kernel, fun h => by obtain ⟨w, hw⟩ := h.2.2 rfl; cases hw⟩
theorem test_PtpChecks_12 : ∃ (m : PtpMsg) (s : State), ptpOn s m = true ∧ (∀ q, Tbl.find? m.source (ethOf s m.port).announces = some q → seqNewer m.seq q = true) :=
  ⟨{ port := 0, source := 7, seq := 4, best := true, gm := 5 }, eth ({ · with role := 1, ports := [(0, { link := true, announces := [(7, 3)] })] }), by decide +kernel, fun q h => by cases h; decide⟩
theorem test_PtpChecks_13 : ∃ (m : PtpMsg) (s : State) (q : _), ptpOn s m = true ∧ Tbl.find? m.source (ethOf s m.port).announces = some q ∧ seqNewer m.seq q = false :=
  ⟨{ port := 0, source := 7, seq := 3 }, eth ({ · with role := 1, ports := [(0, { link := true, announces := [(7, 3)] })] }), 3, by decide +kernel⟩
theorem test_PtpChecks_14 : ∃ (m : PtpMsg) (s : State), ptpOn s m = true ∧ m.kind ≠ 2 ∧ s.eth.profile = 0 ∧ (ethOf s m.port).state = 6 :=
  ⟨{ port := 0, source := 7, seq := 4 }, eth ({ · with role := 1, ports := [(0, { link := true, state := 6 })] }), by decide +kernel⟩
theorem test_PtpChecks_15 : ∃ (m : PtpMsg) (s : State), ptpOn s m = true ∧ m.kind = 2 ∧ s.eth.profile = 1 ∧ (ethOf s m.port).step = 0 :=
  ⟨{ port := 0, source := 7, seq := 4, kind := 2 }, eth ({ · with role := 1, profile := 1, ports := [(0, { link := true })] }), by decide +kernel⟩
theorem test_PtpChecks_16 : ∃ (m : PtpMsg) (s : State), ptpOn s m = true ∧ m.kind = 2 ∧ s.eth.profile = 1 ∧ (ethOf s m.port).step ≠ 0 :=
  ⟨{ port := 0, source := 7, seq := 4, kind := 2 }, eth ({ · with role := 1, profile := 1, ports := [(0, { link := true, step := 1 })] }), by decide +kernel⟩
theorem test_PtpChecks_17 : ∃ (m : PtpMsg) (s : State), ptpOn s m = true ∧ if m.kind = 2 then s.eth.profile ≠ 1 else ¬(s.eth.profile = 0 ∧ (ethOf s m.port).state = 6) :=
  ⟨{ port := 0, source := 7, seq := 4 }, eth ({ · with role := 1, ports := [(0, { link := true, state := 9 })] }), by decide +kernel⟩
theorem test_EthernetPorts_1 : ∃ (p : _) (s : State), mastering s p = true :=
  ⟨1, eth ({ · with ports := [(1, { link := true, state := 6, step := 1, seqSync := 65535 })] }), by decide +kernel⟩
theorem test_EthernetPorts_2 : ∃ (p : _) (s : State), mastering s p = true :=
  ⟨1, eth ({ · with ports := [(1, { link := true, state := 6, seqAnnounce := 65535 })] }), by decide +kernel⟩
theorem test_EthernetPorts_3 : ∃ (p : _) (s : State), asksDelay s p = true :=
  ⟨0, eth ({ · with role := 1, parent := some (0, 7), ports := [(0, { link := true })] }), by decide +kernel⟩
theorem test_EthernetPorts_3_x2 : ∃ (p : _) (s : State), asksDelay s p = true :=
  ⟨1, eth ({ · with role := 1, profile := 1, ports := [(1, { link := true })] }), by decide +kernel⟩
theorem test_EthernetPorts_4 : ∃ (p : _) (f : _) (s : State), s.eth.role = 4 ∧ (ethOf s p).link ∧ (ethOf s (1 - p)).link ∧ frameOk f ∧ toUs s p f = false :=
  ⟨1, List.replicate 60 0, eth ({ · with role := 4, ports := [(0, { link := true }), (1, { link := true, mac := 5 })] }), by decide +kernel⟩
theorem test_EthernetPorts_5 : ∃ (p : _) (f : _) (s : State), s.eth.role = 4 ∧ (ethOf s p).link ∧ (ethOf s (1 - p)).link ∧ frameOk f ∧ toUs s p f = false :=
  ⟨1, List.replicate 60 0, eth ({ · with role := 4, ports := [(0, { link := true }), (1, { link := true, mac := 5 })] }), by decide +kernel⟩
theorem test_EthernetPorts_6 : ∃ (p : _) (s : State), ptpPort s p ∧ (ethOf s p).link ∧ s.hif.walec = .running :=
  ⟨1, eth ({ · with role := 2, parent := some (1, 4), ports := [(1, { link := true })] }), by decide +kernel⟩
theorem test_EthernetPorts_7 : ∃ (p : _) (s : State), (ethOf s p).link :=
  ⟨1, eth ({ · with sessions := [(1, 0), (0, 0)], ports := [(1, { link := true })] }), by decide +kernel⟩
theorem test_EthernetPorts_8 : ∃ (p : _) (s : State), domainOn s 42 ∧ (ethOf s p).speedNext ≠ 0 ∧ (ethOf s p).link = false :=
  ⟨0, eth ({ · with ports := [(0, { speedNext := 2 })] }), by decide +kernel⟩

/-! ### Witnesses: geometry, ray engine, redundancy, Walec and resets -/

theorem test_GeometrySets_1 : ∃ (ch : _) (r : _) (s : State) (u : State), pendingGeom u ≠ none ∧ Due loadGeomVerb 0x08 0x01 ch r s u :=
  ⟨.drawer .a 0, req 0x08 0x01 [9], _, tim ({ · with pending := [{ frame := 7, change := .geomSwap 3 }] }), by decide, due (by decide) (by decide)⟩
theorem test_GeometrySets_2 : ∃ (ch : _) (r : _) (s : State) (u : State), pendingGeom u ≠ none ∧ Due activateGeomVerb 0x08 0x02 ch r s u :=
  ⟨.drawer .a 0, req 0x08 0x02 [9], _, tim ({ · with pending := [{ frame := 7, change := .geomSwap 3 }] }), by decide, due (by decide) (by decide)⟩
theorem test_GeometrySets_3 : ∃ (c : Instr) (s : State), ((∃ k, c = .powerOnReset k) ∨ (∃ k, c = .warmReset k) ∧ s.pwr.porst = false ∧ s.clk.chosen = true ∨ (∃ n, c = .supplyExcursion n) ∧ s.pwr.porst = false ∧ s.clk.chosen = true ∨ c = .wardrobeReset ∧ s.walec.stoppedAt.isSome = true ∧ s.hif.walec = .restarting ∧ s.pwr.supplyHold = none ∨ (∃ p v, c = .warm p v ∧ portOpen s p = true ∧ resetAction s p v 0 = true) ∨ (∃ p v, c = .cold p v ∧ portOpen s p = true ∧ resetAction s p v 1 = true) ∨ (∃ r, c = .refQualified r ∧ (refOf s r).qual = false) ∧ s.clk.chosen = true ∧ s.clk.phase = .expired) :=
  ⟨.warmReset .warmPin, up, .inr (.inl ⟨⟨_, rfl⟩, by decide⟩)⟩
theorem test_GeometrySets_3_x2 : ∃ (c : Instr) (s : State), ((∃ k, c = .powerOnReset k) ∨ (∃ k, c = .warmReset k) ∧ s.pwr.porst = false ∧ s.clk.chosen = true ∨ (∃ n, c = .supplyExcursion n) ∧ s.pwr.porst = false ∧ s.clk.chosen = true ∨ c = .wardrobeReset ∧ s.walec.stoppedAt.isSome = true ∧ s.hif.walec = .restarting ∧ s.pwr.supplyHold = none ∨ (∃ p v, c = .warm p v ∧ portOpen s p = true ∧ resetAction s p v 0 = true) ∨ (∃ p v, c = .cold p v ∧ portOpen s p = true ∧ resetAction s p v 1 = true) ∨ (∃ r, c = .refQualified r ∧ (refOf s r).qual = false) ∧ s.clk.chosen = true ∧ s.clk.phase = .expired) :=
  ⟨.powerOnReset .porst, up, .inl ⟨_, rfl⟩⟩
theorem test_GeometrySets_3_x3 : ∃ (c : Instr) (s : State), ((∃ k, c = .powerOnReset k) ∨ (∃ k, c = .warmReset k) ∧ s.pwr.porst = false ∧ s.clk.chosen = true ∨ (∃ n, c = .supplyExcursion n) ∧ s.pwr.porst = false ∧ s.clk.chosen = true ∨ c = .wardrobeReset ∧ s.walec.stoppedAt.isSome = true ∧ s.hif.walec = .restarting ∧ s.pwr.supplyHold = none ∨ (∃ p v, c = .warm p v ∧ portOpen s p = true ∧ resetAction s p v 0 = true) ∨ (∃ p v, c = .cold p v ∧ portOpen s p = true ∧ resetAction s p v 1 = true) ∨ (∃ r, c = .refQualified r ∧ (refOf s r).qual = false) ∧ s.clk.chosen = true ∧ s.clk.phase = .expired) :=
  ⟨.supplyExcursion 7, up, .inr (.inr (.inl ⟨⟨_, rfl⟩, by decide⟩))⟩
theorem test_GeometrySets_3_x4 : ∃ (c : Instr) (s : State), ((∃ k, c = .powerOnReset k) ∨ (∃ k, c = .warmReset k) ∧ s.pwr.porst = false ∧ s.clk.chosen = true ∨ (∃ n, c = .supplyExcursion n) ∧ s.pwr.porst = false ∧ s.clk.chosen = true ∨ c = .wardrobeReset ∧ s.walec.stoppedAt.isSome = true ∧ s.hif.walec = .restarting ∧ s.pwr.supplyHold = none ∨ (∃ p v, c = .warm p v ∧ portOpen s p = true ∧ resetAction s p v 0 = true) ∨ (∃ p v, c = .cold p v ∧ portOpen s p = true ∧ resetAction s p v 1 = true) ∨ (∃ r, c = .refQualified r ∧ (refOf s r).qual = false) ∧ s.clk.chosen = true ∧ s.clk.phase = .expired) :=
  ⟨.wardrobeReset, { up with hif := { up.hif with walec := .restarting }, walec := { stoppedAt := some 5 } }, .inr (.inr (.inr (.inl ⟨rfl, by decide⟩)))⟩
theorem test_GeometrySets_3_x5 : ∃ (c : Instr) (s : State), ((∃ k, c = .powerOnReset k) ∨ (∃ k, c = .warmReset k) ∧ s.pwr.porst = false ∧ s.clk.chosen = true ∨ (∃ n, c = .supplyExcursion n) ∧ s.pwr.porst = false ∧ s.clk.chosen = true ∨ c = .wardrobeReset ∧ s.walec.stoppedAt.isSome = true ∧ s.hif.walec = .restarting ∧ s.pwr.supplyHold = none ∨ (∃ p v, c = .warm p v ∧ portOpen s p = true ∧ resetAction s p v 0 = true) ∨ (∃ p v, c = .cold p v ∧ portOpen s p = true ∧ resetAction s p v 1 = true) ∨ (∃ r, c = .refQualified r ∧ (refOf s r).qual = false) ∧ s.clk.chosen = true ∧ s.clk.phase = .expired) :=
  ⟨.warm .b 0xA501, hif ({ · with own := [(0, { holder := some .b })] }), .inr (.inr (.inr (.inr (.inl ⟨.b, 0xA501, rfl, by decide⟩))))⟩
theorem test_GeometrySets_3_x6 : ∃ (c : Instr) (s : State), ((∃ k, c = .powerOnReset k) ∨ (∃ k, c = .warmReset k) ∧ s.pwr.porst = false ∧ s.clk.chosen = true ∨ (∃ n, c = .supplyExcursion n) ∧ s.pwr.porst = false ∧ s.clk.chosen = true ∨ c = .wardrobeReset ∧ s.walec.stoppedAt.isSome = true ∧ s.hif.walec = .restarting ∧ s.pwr.supplyHold = none ∨ (∃ p v, c = .warm p v ∧ portOpen s p = true ∧ resetAction s p v 0 = true) ∨ (∃ p v, c = .cold p v ∧ portOpen s p = true ∧ resetAction s p v 1 = true) ∨ (∃ r, c = .refQualified r ∧ (refOf s r).qual = false) ∧ s.clk.chosen = true ∧ s.clk.phase = .expired) :=
  ⟨.cold .b 0xA502, hif ({ · with own := [(0, { holder := some .b })] }), .inr (.inr (.inr (.inr (.inr (.inl ⟨.b, 0xA502, rfl, by decide⟩)))))⟩
theorem test_GeometrySets_3_x7 : ∃ (c : Instr) (s : State), ((∃ k, c = .powerOnReset k) ∨ (∃ k, c = .warmReset k) ∧ s.pwr.porst = false ∧ s.clk.chosen = true ∨ (∃ n, c = .supplyExcursion n) ∧ s.pwr.porst = false ∧ s.clk.chosen = true ∨ c = .wardrobeReset ∧ s.walec.stoppedAt.isSome = true ∧ s.hif.walec = .restarting ∧ s.pwr.supplyHold = none ∨ (∃ p v, c = .warm p v ∧ portOpen s p = true ∧ resetAction s p v 0 = true) ∨ (∃ p v, c = .cold p v ∧ portOpen s p = true ∧ resetAction s p v 1 = true) ∨ (∃ r, c = .refQualified r ∧ (refOf s r).qual = false) ∧ s.clk.chosen = true ∧ s.clk.phase = .expired) :=
  ⟨.refQualified .b, clk ({ · with phase := .expired }), .inr (.inr (.inr (.inr (.inr (.inr ⟨⟨.b, rfl, by decide⟩, by decide⟩)))))⟩
theorem test_ClusterFaults_1 : ∃ (r : Nat) (l : Nat) (s : State) (c : _) (k : _), hasCluster s r = true ∧ c ∈ [Instr.clusterFault r, .laneTimeout r l] ∧ ((rowOf s r).toBind = some k ∨ (rowOf s r).toBind = none ∧ (freeSpares s).head? = some k) ∧ k ≠ (rowOf s r).cluster :=
  ⟨2, 0, raster, .clusterFault 2, 12, by decide +kernel⟩
theorem test_ClusterFaults_1_x2 : ∃ (r : Nat) (l : Nat) (s : State) (c : _) (k : _), hasCluster s r = true ∧ c ∈ [Instr.clusterFault r, .laneTimeout r l] ∧ ((rowOf s r).toBind = some k ∨ (rowOf s r).toBind = none ∧ (freeSpares s).head? = some k) ∧ k ≠ (rowOf s r).cluster :=
  ⟨2, 7, rayAt ({ · with rows := [(2, { cluster := 2, toBind := some 13 })] }), .laneTimeout 2 7, 13, by decide +kernel⟩
theorem test_ClusterFaults_2 : ∃ (r : Nat) (l : Nat) (s : State) (c : _), hasCluster s r = true ∧ c ∈ [Instr.clusterFault r, .laneTimeout r l] ∧ (rowOf s r).toBind = none ∧ freeSpares s = [] ∧ ((rowOf s r).heldFaults.filter fun w => tb0 s < w + 10000000000).length < 2 :=
  ⟨1, 0, rayAt ({ · with spares := [] }), .clusterFault 1, by decide +kernel⟩
theorem test_ClusterFaults_3 : ∃ (r : Nat) (l : Nat) (s : State) (c : _), hasCluster s r = true ∧ c ∈ [Instr.clusterFault r, .laneTimeout r l] ∧ (rowOf s r).toBind = none ∧ freeSpares s = [] ∧ 2 ≤ ((rowOf s r).heldFaults.filter fun w => tb0 s < w + 10000000000).length :=
  ⟨1, 0, rayAt ({ · with spares := [], rows := [(1, { cluster := 1, heldFaults := [0, 0] })] }), .clusterFault 1, by decide +kernel⟩
theorem test_SpareClustersAndWitness_1 : ∃ (c : _) (s : State), (freeSpares s).contains c = true :=
  ⟨13, rayAt ({ · with source := 13, witness := some {} }), by decide +kernel⟩
theorem test_SpareClustersAndWitness_2 : ∃ (r : _) (k : _) (s : State), (rowOf s r).toBind = some k ∧ k ≠ (rowOf s r).cluster ∧ atBoundary s r (rowOf s r).bindAt = true :=
  ⟨1, 12, timed ({ · with latched := true }) (rayAt ({ · with rows := [(1, { cluster := 1, toBind := some 12, bindAt := (5, 0) })] })), by decide +kernel⟩
theorem test_SpareClustersAndWitness_3 : ∃ (r : _) (k : _) (s : State), (rowOf s r).toBind = none ∧ (freeSpares s).head? = some k ∧ (rowOf s r).cluster = 15 ∧ k ≠ 15 ∧ r < configRows s ∧ s.hif.walec = .running ∧ atBoundary s r (comingSub s) = true :=
  ⟨1, 12, timed ({ · with latched := true }) (rayAt ({ · with rows := [(1, { cluster := 15, held := true })] })), by decide +kernel⟩
theorem test_SpareClustersAndWitness_4 : ∃ (k : _) (r : _) (s : State), shadows s k = true ∧ shadowDue s k = none ∧ shadowRow s k = some r :=
  ⟨12, 0, raster, by decide +kernel⟩
theorem test_SpareClustersAndWitness_4_x2 : ∃ (k : _) (r : _) (s : State), shadows s k = true ∧ shadowDue s k = none ∧ shadowRow s k = some r :=
  ⟨13, 2, rayAt ({ · with shadows := [(13, { row := 2, line := 1439 })] }), by decide +kernel⟩
theorem test_SpareClustersAndWitness_5 : ∃ (k : _) (a : _) (v : Nat) (w : Nat) (s : State), shadows s k = true ∧ shadowDue s k = some a ∧ hasCluster s a.row = true ∧ v ≠ w ∧ (freeSpares s).any (· ≠ k) = true :=
  ⟨12, { row := 1, line := 100, frame := 4, phase := 0 }, 5, 6, rayAt ({ · with shadows := [(12, { row := 2, line := 101, again := [{ row := 1, line := 100, frame := 4, phase := 0 }] })] }), by decide +kernel⟩
theorem test_SpareClustersAndWitness_6 : ∃ (k : _) (a : _) (v : Nat) (w : Nat) (s : State), shadows s k = true ∧ shadowDue s k = some a ∧ hasCluster s a.row = true ∧ v ≠ w ∧ (freeSpares s).any (· ≠ k) = false :=
  ⟨12, { row := 1, line := 100, frame := 4, phase := 0 }, 5, 6, rayAt ({ · with spares := [12], shadows := [(12, { row := 2, line := 101, again := [{ row := 1, line := 100, frame := 4, phase := 0 }] })] }), by decide +kernel⟩
theorem test_SpareClustersAndWitness_7 : ∃ (r : _) (s : State), r < configRows s ∧ clusterOf s (rowOf s r).cluster = .resetting :=
  ⟨2, rayAt ({ · with clusters := [(2, .resetting)] }), by decide +kernel⟩
theorem test_SpareClustersAndWitness_8 : ∃ (s : State), s.tim.rasterRun = true ∧ s.tim.bench = .off ∧ s.ray.witness = none :=
  ⟨raster, by decide +kernel⟩
theorem test_SpareClustersAndWitness_8_x2 : ∃ (s : State), s.tim.rasterRun = true ∧ s.tim.bench = .off ∧ s.ray.witness = none :=
  ⟨rayAt ({ · with spares := [] }), by decide +kernel⟩
theorem test_SpareClustersAndWitness_9 : ∃ (w : WitnessPicture) (s : State), s.ray.witness = some w ∧ witnessTurn s = true ∧ w.rows.length ≤ (witnessSize w.wide).2 :=
  ⟨{ wide := false, rate := 5, firstFrame := 3 }, rayAt ({ · with source := 12, witness := some { wide := false, rate := 5, firstFrame := 3 } }), by decide +kernel⟩
theorem test_Redundancy_1 : ∃ (u : _) (s : State), s.spr.toTest.contains (unitBit u) = true ∧ testable s u = true ∧ s.hif.walec = .running ∧ s.tim.bench = .off :=
  ⟨.cluster 13, { up with spr := { up.spr with toTest := [13] }, ray := { up.ray with spares := [12] } }, by decide +kernel⟩
theorem test_Redundancy_1_x2 : ∃ (u : _) (s : State), s.spr.toTest.contains (unitBit u) = true ∧ testable s u = true ∧ s.hif.walec = .running ∧ s.tim.bench = .off :=
  ⟨.core 1, { spr ({ · with toTest := [17] }) with pwr := { porst := false } }, by decide +kernel⟩
theorem test_Redundancy_2 : ∃ (d : _) (s : State), d < 44 ∧ s.spr.repairThreshold ≤ 1 ∧ s.hif.walec = .running ∧ (repairsOf s d).length < 64 :=
  ⟨43, spr ({ · with repairThreshold := 1 }), by decide +kernel⟩
theorem test_Redundancy_3 : ∃ (d : _) (s : State), d < 44 ∧ s.hif.walec ≠ .running :=
  ⟨43, hif ({ · with walec := .booting }), by decide +kernel⟩
theorem test_Redundancy_4 : ∃ (sites : List Nat) (l : _) (s : State), ((List.range 8).find? fun l => sites.contains l && (siteOf s (s.dmc.siteMap.getD l 15)).degraded) = some l ∧ s.spr.migrateAuto = 1 ∧ s.hif.walec = .running ∧ s.tim.bench = .off ∧ spareSitePresent s = true ∧ migrationRuns s = false ∧ s.dmc.mode = .running :=
  ⟨[7], 7, dmc ({ · with sites := [(7, { degraded := true, state := .active }), (8, { state := .spare })] }), by decide +kernel⟩
theorem test_Redundancy_5 : ∃ (n : _) (t0 : _) (s : State), (linkOf s n).halfSince = some t0 ∧ s.spr.linkAutoRestore = 1 ∧ s.hif.walec = .running ∧ configured s n = true ∧ (linkOf s n).half = true ∧ (linkOf s n).state = .up ∧ s.tim.rasterRun = true ∧ (linkOf s n).has 4 = false ∧ Tbl.find? n s.spr.autoRestored = none ∧ s.spr.noAuto.contains n = false :=
  ⟨23, 5, { raster with tlk := { raster.tlk with links := [(23, { state := .up, half := true, halfSince := some 5 })] }, spr := { up.spr with linkAutoRestore := 1 } }, by decide +kernel⟩
theorem test_Redundancy_6 : ∃ (s : State), clocked s = true :=
  ⟨up, by decide +kernel⟩
theorem test_Redundancy_6_x2 : ∃ (s : State), clocked s = true :=
  ⟨raster, by decide +kernel⟩
theorem test_Redundancy_7 : ∃ (s : State), clocked s = true ∧ s.hif.walec = .running :=
  ⟨spr ({ · with outageHour := 5, daily := [1] }), by decide +kernel⟩
theorem test_WalecStopsAndLockstep_1 : ∃ (s : State), s.hif.walec = .running :=
  ⟨up, by decide +kernel⟩
theorem test_WalecStopsAndLockstep_2 : ∃ (s : State), s.hif.walec = .running :=
  ⟨up, by decide +kernel⟩
theorem test_WalecStopsAndLockstep_3 : ∃ (u : _) (s : State), s.hif.walec = .restarting ∧ s.walec.stoppedAt = some u ∧ s.walec.timeoutSeen = false :=
  ⟨5, { up with hif := { up.hif with walec := .restarting }, walec := { stoppedAt := some 5 } }, by decide +kernel⟩
theorem test_WalecStopsAndLockstep_4 : ∃ (s : State), s.hif.walec = .running ∧ s.spr.standby = false ∧ s.spr.cpu = .triple :=
  ⟨spr ({ · with cpu := .triple }), by decide +kernel⟩
theorem test_WalecStopsAndLockstep_5 : ∃ (s : State), s.hif.walec = .running ∧ s.spr.standby = false ∧ s.spr.cpu = .triple :=
  ⟨spr ({ · with cpu := .triple }), by decide +kernel⟩
theorem test_WalecStopsAndLockstep_6 : ∃ (s : State), s.hif.walec = .running ∧ s.spr.standby = false ∧ s.spr.cpu = .pair :=
  ⟨up, by decide +kernel⟩
theorem test_WalecStopsAndLockstep_7 : ∃ (s : State), s.hif.walec = .running ∧ s.spr.standby = false ∧ s.spr.cpu = .joined :=
  ⟨spr ({ · with cpu := .joined }), by decide +kernel⟩
theorem test_WalecStopsAndLockstep_8 : ∃ (s : State), s.spr.cpu = .triple ∧ s.tim.bench = .off :=
  ⟨spr ({ · with cpu := .triple }), by decide +kernel⟩
theorem test_PowerOnAndWarmReset_2 : ∃ (s : State), s.pwr.porst = true :=
  ⟨{ State.reset with clk := { State.reset.clk with refB := { qual := true, lock := true } } }, by decide +kernel⟩
theorem test_PowerOnAndWarmReset_3 : ∃ (s : State), s.pwr.porst = false ∧ s.clk.chosen = true :=
  ⟨raster, by decide +kernel⟩
theorem test_PowerOnAndWarmReset_4 : ∃ (s : State), s.pwr.porst = false ∧ s.clk.chosen = true :=
  ⟨raster, by decide +kernel⟩
theorem test_PowerOnAndWarmReset_5 : ∃ (n : _) (s : State), s.pwr.supplyHold = some n :=
  ⟨3, { up with pwr := { up.pwr with supplyHold := some 3 }, hif := { up.hif with walec := .restarting } }, by decide +kernel⟩
theorem test_PowerOnAndWarmReset_6 : ∃ (u : _) (s : State), s.walec.stoppedAt = some u ∧ s.hif.walec = .restarting ∧ s.pwr.supplyHold = none :=
  ⟨5, { up with hif := { up.hif with walec := .restarting }, walec := { stoppedAt := some 5 } }, by decide +kernel⟩
theorem test_ReferenceInputs_3 : ∃ (r : _) (c : Instr) (s : State), (c = .missingPulse r ∨ c = .windowTrip r) ∧ s.clk.chosen = true ∧ s.clk.phase = .running ∧ s.clk.selected = r :=
  ⟨.a, .missingPulse .a, clk ({ · with refA := { qual := true, lock := true }, refB := { qual := true, lock := true } }), by decide +kernel⟩
theorem test_ReferenceInputs_3_x2 : ∃ (r : _) (c : Instr) (s : State), (c = .missingPulse r ∨ c = .windowTrip r) ∧ s.clk.chosen = true ∧ s.clk.phase = .running ∧ s.clk.selected = r :=
  ⟨.b, .windowTrip .b, clk ({ · with selected := .b, refB := { qual := true, lock := true } }), by decide +kernel⟩
theorem test_ReferenceInputs_4 : ∃ (r : _) (s : State), (refOf s r).qual = false ∧ s.clk.chosen = true ∧ s.clk.phase ≠ .expired :=
  ⟨.b, clk ({ · with phase := .holding }), by decide +kernel⟩
theorem test_ReferenceInputs_5 : ∃ (s : State), s.clk.phase = .switching :=
  ⟨clk ({ · with phase := .switching, dest := .b }), by decide +kernel⟩
theorem test_ReferenceInputs_6 : ∃ (s : State), s.clk.phase = .holding :=
  ⟨clk ({ · with phase := .holding }), by decide +kernel⟩
theorem test_ReferenceInputs_7 : ∃ (k : _) (s : State), s.clk.phase = .running ∧ s.clk.locks.contains k = true :=
  ⟨23, clk ({ · with locks := [3, 23] }), by decide +kernel⟩
theorem test_Registers_1_1 : ∃ (p : Port) (s : State), portOpen s p = true :=
  ⟨.b, up, by decide +kernel⟩
theorem test_Registers_1_5 : ∃ (p : Port) (s : State) (off : _), portOpen s p = true ∧ (placeOfReg off = .reserved ∨ (∃ q, placeOfReg off = .qstat q) ∨ (∃ k, placeOfReg off = .pba k)) :=
  ⟨.a, up, 0x220008, by decide, .inr (.inl ⟨1, by decide⟩)⟩
theorem test_Registers_1_6 : ∃ (p : Port) (s : State) (off : _) (q : _), portOpen s p = true ∧ placeOfReg off = .qdb q :=
  ⟨.a, up, 0x21FFF8, 16383, by decide +kernel⟩
theorem test_Registers_1_7 : ∃ (p : Port) (s : State) (off : _) (q : _), portOpen s p = true ∧ placeOfReg off = .qdb q :=
  ⟨.a, up, 0x200000, 0, by decide +kernel⟩
theorem test_Registers_1_8 : ∃ (p : Port) (s : State) (n : _) (i : _) (w : Nat), portOpen s p = true ∧ n < 32 ∧ 0x40 ≤ i ∧ i < 0x400 ∧ (w = 4 ∨ w = 8) ∧ i % w = 0 ∧ ((drawerOf s p n).state = .idle ∨ (drawerOf s p n).state = .response) :=
  ⟨.a, up, 31, 0x3FC, 4, by decide +kernel⟩
theorem test_Registers_1_8_x2 : ∃ (p : Port) (s : State) (n : _) (i : _) (w : Nat), portOpen s p = true ∧ n < 32 ∧ 0x40 ≤ i ∧ i < 0x400 ∧ (w = 4 ∨ w = 8) ∧ i % w = 0 ∧ ((drawerOf s p n).state = .idle ∨ (drawerOf s p n).state = .response) :=
  ⟨.b, drw .b 0 { state := .response }, 0, 0x40, 8, by decide +kernel⟩
theorem test_Registers_1_9 : ∃ (p : Port) (s : State) (n : _) (i : _) (w : Nat), portOpen s p = true ∧ n < 32 ∧ 0x40 ≤ i ∧ i < 0x400 ∧ (w = 4 ∨ w = 8) ∧ i % w = 0 ∧ ((drawerOf s p n).state = .request ∨ (drawerOf s p n).state = .busy) :=
  ⟨.b, drw .b 0 { state := .busy }, 0, 0x40, 8, by decide +kernel⟩
theorem test_Registers_2 : ∃ (p : Port) (s : State), portOpen s p = true :=
  ⟨.a, hif ({ · with own := [(0, { holder := some .a })] }), by decide +kernel⟩
theorem test_ResetRequestsAndRecovery_1_1 : ∃ (p : Port) (v : Nat) (s : State), portOpen s p = true ∧ resetAction s p v 0 = true :=
  ⟨.b, 0xA501, hif ({ · with own := [(0, { holder := some .b })] }), by decide +kernel⟩
theorem test_ResetRequestsAndRecovery_1_2 : ∃ (p : Port) (v : Nat) (s : State), portOpen s p = true ∧ resetAction s p v 1 = true :=
  ⟨.a, 0xA502, hif ({ · with own := [(0, { holder := some .a })] }), by decide +kernel⟩
theorem test_ResetRequestsAndRecovery_1_3 : ∃ (p : Port) (v : Nat) (s : State), portOpen s p = true ∧ resetAction s p v 2 = true ∧ s.clk.phase = .running ∧ s.clk.chosen = true ∧ (refOf s s.clk.selected.other).qual = true :=
  ⟨.a, 0xA504, { up with hif := { up.hif with own := [(0, { holder := some .a })] }, clk := { up.clk with refB := { qual := true } } }, by decide +kernel⟩
theorem test_ResetRequestsAndRecovery_2_2 : ∃ (v : Nat) (s : State) (c : _), portOpen s .a = true ∧ s.bot.mode = .failed ∧ imageCheck s (load s 0 (bits v 31 0)) = some c :=
  ⟨31, bot ({ · with mode := .failed }), 0, by decide +kernel⟩

/-! ### Witnesses: the start, the raster, power and heat -/

theorem test_StartOfTheMachine_1 : ∃ (r : _) (s : State), s.bot.install = some r ∧ walecWorks s = true ∧ clocked s = true ∧ s.tim.confirmed = false ∧ r.tileCfg = s.tim.tileStrap :=
  ⟨{ tileCfg := 3 }, { up with bot := { up.bot with install := some { tileCfg := 3 } }, tim := { up.tim with confirmed := false, tileStrap := 3 } }, by decide +kernel⟩
theorem test_StartOfTheMachine_2 : ∃ (r : _) (s : State), s.bot.install = some r ∧ walecWorks s = true ∧ clocked s = true ∧ s.tim.confirmed = false ∧ r.tileCfg ≠ s.tim.tileStrap :=
  ⟨{ tileCfg := 3 }, { up with bot := { up.bot with install := some { tileCfg := 3 } }, tim := { up.tim with confirmed := false } }, by decide +kernel⟩
theorem test_StartOfTheMachine_3 : ∃ (s : State), s.bot.mode = .loading ∧ s.hif.walec ≠ .running ∧ clocked s = true :=
  ⟨{ up with bot := { up.bot with mode := .loading }, hif := { up.hif with walec := .booting } }, by decide +kernel⟩
theorem test_StartOfTheMachine_4_1 : ∃ (s : State), s.hif.walec = .running ∧ s.bot.mode = .running ∧ s.tim.confirmed = true ∧ s.tim.rasterRun = false ∧ s.walec.powerDown = false ∧ clocked s = true ∧ clustersSettled s = true ∧ dramForStart s = true ∧ s.tim.frameCount = 0 ∧ tooHot s = true :=
  ⟨thm ({ · with groups := [(0, { kind := 1, reading := 1900 })] }), by decide +kernel⟩
theorem test_StartOfTheMachine_4_2 : ∃ (s : State), s.hif.walec = .running ∧ s.bot.mode = .running ∧ s.tim.confirmed = true ∧ s.tim.rasterRun = false ∧ s.walec.powerDown = false ∧ clocked s = true ∧ clustersSettled s = true ∧ dramForStart s = true ∧ ¬(s.tim.frameCount = 0 ∧ tooHot s = true) ∧ s.tim.restartBench = false :=
  ⟨up, by decide +kernel⟩
theorem test_StartOfTheMachine_4_2_x2 : ∃ (s : State), s.hif.walec = .running ∧ s.bot.mode = .running ∧ s.tim.confirmed = true ∧ s.tim.rasterRun = false ∧ s.walec.powerDown = false ∧ clocked s = true ∧ clustersSettled s = true ∧ dramForStart s = true ∧ ¬(s.tim.frameCount = 0 ∧ tooHot s = true) ∧ s.tim.restartBench = false :=
  ⟨{ up with thm := { groups := [(0, { kind := 1, reading := 1900 })] }, tim := { up.tim with frameCount := 1 } }, by decide +kernel⟩
set_option maxRecDepth 100000 in
theorem test_StartOfTheMachine_4_3 : ∃ (s : State) (b : _), s.hif.walec = .running ∧ s.bot.mode = .running ∧ s.tim.confirmed = true ∧ s.tim.rasterRun = false ∧ s.walec.powerDown = false ∧ clocked s = true ∧ clustersSettled s = true ∧ dramForStart s = true ∧ ¬(s.tim.frameCount = 0 ∧ tooHot s = true) ∧ s.tim.restartBench = true ∧ validBitmap (waitTb3 s) = some b :=
  ⟨tim ({ · with restartBench := true, bitmap := some bitmap }), bitmap, by decide +kernel⟩
theorem test_StartOfTheMachine_4_4 : ∃ (s : State), s.hif.walec = .running ∧ s.bot.mode = .running ∧ s.tim.confirmed = true ∧ s.tim.rasterRun = false ∧ s.walec.powerDown = false ∧ clocked s = true ∧ clustersSettled s = true ∧ dramForStart s = true ∧ ¬(s.tim.frameCount = 0 ∧ tooHot s = true) ∧ s.tim.restartBench = true ∧ validBitmap (waitTb3 s) = none :=
  ⟨tim ({ · with restartBench := true }), by decide +kernel⟩
theorem test_StartOfTheMachine_5 : ∃ (s : State), s.dmc.mode = .failed ∧ s.tim.rasterRun = false :=
  ⟨dmc ({ · with mode := .failed }), by decide +kernel⟩
theorem test_StartOfTheMachine_6 : ∃ (u : _) (s : State), s.bot.trialSince = some u ∧ s.bot.trial = true ∧ s.bot.mode = .running ∧ s.hif.walec = .running :=
  ⟨4, bot ({ · with trial := true, trialSince := some 4, attempted := some 1 }), by decide +kernel⟩
theorem test_Raster_1 : ∃ (sub : _) (line : _) (s : State), lineDue s sub line = true :=
  ⟨0, 101, raster, by decide +kernel⟩
theorem test_Raster_1_x2 : ∃ (sub : _) (line : _) (s : State), lineDue s sub line = true :=
  ⟨0, 0, timAt ({ · with line := 0, lineRaised := false }), by decide +kernel⟩
theorem test_Raster_1_x3 : ∃ (sub : _) (line : _) (s : State), lineDue s sub line = true :=
  ⟨1, 0, timAt ({ · with mode := 1, line := 1499 }), by decide +kernel⟩
theorem test_Raster_1_x4 : ∃ (sub : _) (line : _) (s : State), lineDue s sub line = true :=
  ⟨0, 1440, timAt ({ · with mode := 1, line := 1439, lensPh := false }), by decide +kernel⟩
theorem test_Raster_1_x5 : ∃ (sub : _) (line : _) (s : State), lineDue s sub line = true :=
  ⟨0, 1499, timAt ({ · with line := 1498, panelSync := true, syncLeft := 1 }), by decide +kernel⟩
theorem test_Raster_2 : ∃ (s : State), s.tim.rasterRun = true ∧ s.tim.starting = true ∧ s.tim.latched = false :=
  ⟨timAt ({ · with starting := true, lineRaised := false, line := 0 }), by decide +kernel⟩
theorem test_Raster_3 : ∃ (s : State), s.tim.rasterRun = true ∧ (s.tim.starting = true ∧ s.tim.latched = true ∨ s.tim.starting = false ∧ s.tim.lineRaised = true ∧ s.tim.line = 1499 ∧ subframes s.tim.mode ≤ s.tim.sub + 1) :=
  ⟨timAt ({ · with starting := true, latched := true, lineRaised := false, line := 0 }), by decide +kernel⟩
theorem test_Raster_3_x2 : ∃ (s : State), s.tim.rasterRun = true ∧ (s.tim.starting = true ∧ s.tim.latched = true ∨ s.tim.starting = false ∧ s.tim.lineRaised = true ∧ s.tim.line = 1499 ∧ subframes s.tim.mode ≤ s.tim.sub + 1) :=
  ⟨timAt ({ · with line := 1499 }), by decide +kernel⟩
theorem test_Raster_3_x3 : ∃ (s : State), s.tim.rasterRun = true ∧ (s.tim.starting = true ∧ s.tim.latched = true ∨ s.tim.starting = false ∧ s.tim.lineRaised = true ∧ s.tim.line = 1499 ∧ subframes s.tim.mode ≤ s.tim.sub + 1) :=
  ⟨timAt ({ · with mode := 1, sub := 1, line := 1499, frameCount := 2 ^ 64 - 1 }), by decide +kernel⟩
theorem test_BenchAndSchedule_1 : ∃ (s : State), s.tim.bench = .leaving ∧ exitReady s = true ∧ pendingMode s = none ∧ s.tim.latched = true :=
  ⟨{ up with tim := { up.tim with bench := .leaving, latched := true, mode := 0x10, benchReturn := 6 }, tlk := { up.tlk with links := (List.range 24).map fun k => (k, { state := .up }) } }, by decide +kernel⟩
theorem test_BenchAndSchedule_2 : ∃ (u : _) (s : State), s.tim.leaveSince = some u ∧ s.tim.bench = .leaving ∧ pendingMode s = none :=
  ⟨9, { raster with tim := { raster.tim with bench := .leaving, leaveSince := some 9, mode := 0x10 } }, by decide +kernel⟩
theorem test_BenchAndSchedule_3_1 : ∃ (i : _) (e : _) (s : State) (u : _) (r : _), s.hif.walec = .running ∧ scheduleOf s i = some e ∧ e.retrySince = none ∧ u = advanceToNs e.base e.first s ∧ r = scheduleRequest i e u ∧ r.1 = .ok :=
  ⟨15, { first := 1000, period := 60, action := 1, mode := 6, base := 1 }, { raster with tim := { raster.tim with schedule := [(15, { first := 1000, period := 60, action := 1, mode := 6, base := 1 })] } }, advanceToNs 1 1000 { raster with tim := { raster.tim with schedule := [(15, { first := 1000, period := 60, action := 1, mode := 6, base := 1 })] } }, scheduleRequest 15 { first := 1000, period := 60, action := 1, mode := 6, base := 1 } (advanceToNs 1 1000 { raster with tim := { raster.tim with schedule := [(15, { first := 1000, period := 60, action := 1, mode := 6, base := 1 })] } }), by decide +kernel⟩
theorem test_BenchAndSchedule_3_2 : ∃ (i : _) (e : _) (s : State) (u : _) (r : _), s.hif.walec = .running ∧ scheduleOf s i = some e ∧ e.retrySince = none ∧ u = advanceToNs e.base e.first s ∧ r = scheduleRequest i e u ∧ r.1 = .busy :=
  ⟨0, { first := 1000, period := 0, action := 1, mode := 6, base := 1 }, { raster with tim := { raster.tim with pending := [{ frame := 9, change := .mode 1 }], schedule := [(0, { first := 1000, period := 0, action := 1, mode := 6, base := 1 })] } }, advanceToNs 1 1000 { raster with tim := { raster.tim with pending := [{ frame := 9, change := .mode 1 }], schedule := [(0, { first := 1000, period := 0, action := 1, mode := 6, base := 1 })] } }, scheduleRequest 0 { first := 1000, period := 0, action := 1, mode := 6, base := 1 } (advanceToNs 1 1000 { raster with tim := { raster.tim with pending := [{ frame := 9, change := .mode 1 }], schedule := [(0, { first := 1000, period := 0, action := 1, mode := 6, base := 1 })] } }), by decide +kernel⟩
theorem test_BenchAndSchedule_3_3 : ∃ (i : _) (e : _) (s : State) (u : _) (r : _), s.hif.walec = .running ∧ scheduleOf s i = some e ∧ e.retrySince = none ∧ u = advanceToNs e.base e.first s ∧ r = scheduleRequest i e u ∧ r.1 ≠ .ok ∧ r.1 ≠ .busy :=
  ⟨0, { first := 1000, period := 0, action := 1, mode := 99, base := 1 }, { raster with tim := { raster.tim with schedule := [(0, { first := 1000, period := 0, action := 1, mode := 99, base := 1 })] } }, advanceToNs 1 1000 { raster with tim := { raster.tim with schedule := [(0, { first := 1000, period := 0, action := 1, mode := 99, base := 1 })] } }, scheduleRequest 0 { first := 1000, period := 0, action := 1, mode := 99, base := 1 } (advanceToNs 1 1000 { raster with tim := { raster.tim with schedule := [(0, { first := 1000, period := 0, action := 1, mode := 99, base := 1 })] } }), by decide +kernel⟩
theorem test_BenchAndSchedule_4 : ∃ (i : _) (e : _) (w : Nat) (s : State), scheduleOf s i = some e ∧ e.retrySince = some w :=
  ⟨3, { first := 1000, period := 3600, action := 0, mode := 0, base := 3, retrySince := some 7 }, 7, tim ({ · with schedule := [(3, { first := 1000, period := 3600, action := 0, mode := 0, base := 3, retrySince := some 7 })] }), by decide +kernel⟩
theorem test_PowerDomainsAndPmbus_1 : ∃ (d : _) (s : State), sequencerHead s = some (true, d) :=
  ⟨19, { up with pwr := { up.pwr with domains := [], queue := [(true, 19), (false, 3)] } }, by decide +kernel⟩
theorem test_PowerDomainsAndPmbus_1_x2 : ∃ (d : _) (s : State), sequencerHead s = some (true, d) :=
  ⟨13, { up with pwr := { up.pwr with domains := [], queue := [(true, 13)] }, spr := { up.spr with retired := [13] } }, by decide +kernel⟩
theorem test_PowerDomainsAndPmbus_2 : ∃ (d : _) (s : State), domainOf s d = .coming :=
  ⟨17, pwr ({ · with domains := [(17, .coming)], failedMarks := [17] }), by decide +kernel⟩
theorem test_PowerDomainsAndPmbus_2_x2 : ∃ (d : _) (s : State), domainOf s d = .coming :=
  ⟨2, { raster with pwr := { up.pwr with domains := [(2, .coming)] } }, by decide +kernel⟩
theorem test_PowerDomainsAndPmbus_2_x3 : ∃ (d : _) (s : State), domainOf s d = .coming :=
  ⟨20, pwr ({ · with domains := [(20, .coming)] }), by decide +kernel⟩
theorem test_PowerDomainsAndPmbus_2_x4 : ∃ (d : _) (s : State), domainOf s d = .coming :=
  ⟨15, pwr ({ · with domains := [(15, .coming)] }), by decide +kernel⟩
theorem test_PowerDomainsAndPmbus_3 : ∃ (d : _) (s : State), sequencerHead s = some (false, d) ∧ blockIdle s d = true :=
  ⟨13, { raster with pwr := { up.pwr with queue := [(false, 13)] } }, by decide +kernel⟩
theorem test_PowerDomainsAndPmbus_3_x2 : ∃ (d : _) (s : State), sequencerHead s = some (false, d) ∧ blockIdle s d = true :=
  ⟨0, { raster with pwr := { up.pwr with queue := [(false, 0)] }, ray := { raster.ray with clusters := [(0, .faulted)] } }, by decide +kernel⟩
theorem test_PowerDomainsAndPmbus_3_x3 : ∃ (d : _) (s : State), sequencerHead s = some (false, d) ∧ blockIdle s d = true :=
  ⟨42, { up with pwr := { up.pwr with queue := [(false, 42)] }, clk := { up.clk with locks := List.range 24 } }, by decide +kernel⟩
theorem test_PowerDomainsAndPmbus_4 : ∃ (d : _) (s : State), domainOf s d = .coming :=
  ⟨30, pwr ({ · with domains := [(30, .coming)] }), by decide +kernel⟩
theorem test_PowerDomainsAndPmbus_4_x2 : ∃ (d : _) (s : State), domainOf s d = .coming :=
  ⟨3, { raster with pwr := { up.pwr with domains := [(3, .coming)], queue := [(true, 9)] } }, by decide +kernel⟩
theorem test_PowerDomainsAndPmbus_4_x3 : ∃ (d : _) (s : State), domainOf s d = .coming :=
  ⟨43, pwr ({ · with domains := [(43, .coming)] }), by decide +kernel⟩
theorem test_PowerDomainsAndPmbus_5 : ∃ (s : State), clocked s = true :=
  ⟨pwr ({ · with devices := [(0, { role := 1, counts := true }), (1, { role := 2, counts := true, ioutMax := 5 })] }), by decide +kernel⟩
theorem test_PowerDomainsAndPmbus_6 : ∃ (s : State), clocked s = true :=
  ⟨up, by decide +kernel⟩
theorem test_PowerDomainsAndPmbus_7 : ∃ (s : State), clocked s = true :=
  ⟨up, by decide +kernel⟩
theorem test_PowerDomainsAndPmbus_8 : ∃ (s : State), clocked s = true :=
  ⟨up, by decide +kernel⟩
theorem test_PowerDomainsAndPmbus_9 : ∃ (s : State), clocked s = true :=
  ⟨up, by decide +kernel⟩
theorem test_PowerDomainsAndPmbus_10 : ∃ (s : State), s.pwr.porst = false :=
  ⟨up, by decide +kernel⟩
theorem test_PowerDomainsAndPmbus_11 : ∃ (n : _) (s : State), s.pwr.porst = false ∧ (deviceOf s n).role ≠ 0 :=
  ⟨1, pwr ({ · with devices := [(0, { role := 1, addr := 0x41 }), (1, { role := 2, addr := 0x42 })] }), by decide +kernel⟩
theorem test_PowerDomainsAndPmbus_12 : ∃ (s : State), s.pwr.alertStuck = true :=
  ⟨pwr ({ · with alertStuck := true }), by decide +kernel⟩
theorem test_RowSupplies_1 : ∃ (r : _) (s : State), (supplyOf s r).state = .waiting ∧ rowWanted s r = true :=
  ⟨2, pwr ({ · with supplies := [(2, { state := .waiting })] }), by decide +kernel⟩
theorem test_RowSupplies_2 : ∃ (r : _) (s : State), (supplyOf s r).state = .waiting :=
  ⟨2, pwr ({ · with supplies := [(2, { state := .waiting, failures := [0] })] }), by decide +kernel⟩
theorem test_RowSupplies_3 : ∃ (r : _) (s : State), (supplyOf s r).state = .goingOff :=
  ⟨11, pwr ({ · with supplies := [(11, { state := .goingOff, failed := true })] }), by decide +kernel⟩
theorem test_RowSupplies_4 : ∃ (r : _) (s : State), (supplyOf s r).failed = true ∧ (supplyOf s r).state = .off ∧ (supplyOf s r).barred = false ∧ rowWanted s r = true :=
  ⟨2, pwr ({ · with supplies := [(2, { failed := true, failures := [0] })] }), by decide +kernel⟩
theorem test_RowSupplies_5 : ∃ (u : _) (r : _) (s : State), shedTime s = some u ∧ heaviestRow (advanceTo0 u s) = some r :=
  ⟨10000000000, 0, pwr ({ · with floorSince := some 0, supplies := [(0, { state := .on }), (1, { state := .on })] }), by decide +kernel⟩
theorem test_RowSupplies_6 : ∃ (r : _) (u : _) (s : State), s.pwr.lowSince = some u ∧ (supplyOf s r).shed = true ∧ (supplyOf s r).state = .off ∧ (supplyOf s r).barred = false ∧ rowWanted s r = true :=
  ⟨1, 0, pwr ({ · with lowSince := some 0, supplies := [(1, { shed := true, sheds := [0] })] }), by decide +kernel⟩
theorem test_SensorsAndStepper_1 : ∃ (n : _) (raw : _) (v : Int) (b : _) (s : State), clocked s = true ∧ enabledSensor n (sensorOf s n) = true ∧ convertRaw n (sensorOf s n) raw = (some v, b) ∧ sampleValid (sensorOf s n) v b = true :=
  ⟨15, 2 ^ 16 - 16, -16, true, thm ({ · with sensors := [(15, { state := .valid, badRun := 2, group := some 0 })] }), by decide +kernel⟩
theorem test_SensorsAndStepper_2 : ∃ (n : _) (raw : _) (v : Int) (b : _) (s : State), clocked s = true ∧ enabledSensor n (sensorOf s n) = true ∧ convertRaw n (sensorOf s n) raw = (some v, b) ∧ sampleValid (sensorOf s n) v b = false :=
  ⟨0, 3000, 3000, true, thm ({ · with sensors := [(0, { state := .valid, badRun := 2, value := 300, lastValid := some 300, group := some 0 })] }), by decide +kernel⟩
theorem test_SensorsAndStepper_2_x2 : ∃ (n : _) (raw : _) (v : Int) (b : _) (s : State), clocked s = true ∧ enabledSensor n (sensorOf s n) = true ∧ convertRaw n (sensorOf s n) raw = (some v, b) ∧ sampleValid (sensorOf s n) v b = false :=
  ⟨0, 3000, 3000, true, thm ({ · with sensors := [(0, { state := .valid, badRun := 1, value := 300, lastValid := some 300 })] }), by decide +kernel⟩
theorem test_SensorsAndStepper_2_x3 : ∃ (n : _) (raw : _) (v : Int) (b : _) (s : State), clocked s = true ∧ enabledSensor n (sensorOf s n) = true ∧ convertRaw n (sensorOf s n) raw = (some v, b) ∧ sampleValid (sensorOf s n) v b = false :=
  ⟨0, 3000, 3000, true, thm ({ · with sensors := [(0, { state := .valid, badRun := 2, partner := some 1 }), (1, { state := .valid, partner := some 0 })] }), by decide +kernel⟩
theorem test_SensorsAndStepper_3 : ∃ (n : _) (k : _) (u : _) (s : State), (sensorOf s n).differSince = some u ∧ (sensorOf s n).partner = some k ∧ pairDiffers s n = true ∧ (sensorOf s n).disagree = false :=
  ⟨2, 3, 7, thm ({ · with sensors := [(2, { state := .valid, value := 129, partner := some 3, differSince := some 7 }), (3, { state := .valid, value := 0, partner := some 2 })] }), by decide +kernel⟩
theorem test_SensorsAndStepper_4 : ∃ (s : State), clocked s = true :=
  ⟨thm ({ · with groups := [(1, { kind := 2, reading := 1200 })], sensors := [(0, { state := .valid, value := 1200, group := some 1 })] }), by decide +kernel⟩
theorem test_ThermalShutdown_1 : ∃ (us : _) (x : Shutdown) (k : _) (s : State), s.thm.shutdown = some x ∧ clocked s = true ∧ x.step = .waitNor ∧ us ≤ s.thm.norProgMax ∧ readySlot s = some k :=
  ⟨3000, shut .waitNor, 1, thm ({ · with shutdown := some (shut .waitNor), slotReady := [1] }), by decide +kernel⟩
theorem test_ThermalShutdown_2 : ∃ (us : _) (x : Shutdown) (s : State), s.thm.shutdown = some x ∧ clocked s = true ∧ x.step = .waitNor ∧ us ≤ s.thm.norProgMax ∧ readySlot s = none :=
  ⟨0, shut .waitNor, thm ({ · with shutdown := some (shut .waitNor) }), by decide +kernel⟩
theorem test_ThermalShutdown_3 : ∃ (x : Shutdown) (k : _) (s : State), s.thm.shutdown = some x ∧ clocked s = true ∧ x.step = .waitNor ∧ readySlot s = some k :=
  ⟨shut .waitNor, 0, thm ({ · with shutdown := some (shut .waitNor), slotReady := [1, 0] }), by decide +kernel⟩
theorem test_ThermalShutdown_4 : ∃ (x : Shutdown) (k : _) (s : State), s.thm.shutdown = some x ∧ clocked s = true ∧ x.step = .writing ∧ readySlot s = some k :=
  ⟨shut .writing, 0, thm ({ · with shutdown := some (shut .writing), slotReady := [1, 0] }), by decide +kernel⟩
theorem test_ThermalShutdown_5 : ∃ (x : Shutdown) (s : State), s.thm.shutdown = some x ∧ clocked s = true :=
  ⟨shut .writing, thm ({ · with shutdown := some (shut .writing) }), by decide +kernel⟩

/-! ### Witnesses: the engines -/

theorem test_StressLedger_1 : ∃ (s : State), s.hif.walec = .running ∧ s.tim.bench = .off ∧ s.out.updateStep = none :=
  ⟨up, by decide +kernel⟩
theorem test_StressLedger_2 : ∃ (k : _) (s : State), s.hif.walec = .running ∧ s.tim.bench = .off ∧ s.out.updateStep = some k ∧ (s.tim.pending.any (·.change == .workBank)) = false :=
  ⟨1, out ({ · with updateStep := some 1 }), by decide +kernel⟩
theorem test_StressLedger_3 : ∃ (s : State), s.hif.walec = .running ∧ s.bot.emmcReady = true ∧ s.out.disagree = false ∧ s.tim.bench = .off :=
  ⟨up, by decide +kernel⟩
theorem test_StressLedger_4_2 : ∃ (f : _) (s : State), s.geom.dedSeen = true ∧ s.hif.walec = .running ∧ pendingGeom s = none ∧ s.bot.emmcReady = true ∧ (∀ b < 2, s.geom.badCopies.contains (2 + b) = false) ∧ geomFileStatus s f (activeGeom s).version ≠ .ok :=
  ⟨[], { bot ({ · with emmcReady := true }) with geom := { up.geom with dedSeen := true } }, by decide +kernel⟩
theorem test_Blitter_1 : ∃ (g : _) (r : _) (s : State), bltRuns s = true ∧ s.blt.internal = g :: r ∧ flattenWaits s = false :=
  ⟨(2, 7), [], { blt ({ · with internal := [(2, 7)] }) with cmp := { up.cmp with groups := [(2, { originX := 0, originY := 0, disparity := 0, scaleX := 4096, scaleY := 4096 })] } }, by decide +kernel⟩
theorem test_Blitter_2 : ∃ (s : State), flattenWaits s = true :=
  ⟨blt ({ · with internal := [(2, 7)], flight := (List.range 32).map fun k => (k, flying 0 (fill (0x10000 * k))) }), by decide +kernel⟩
theorem test_Blitter_3_1 : ∃ (q : _) (h : _) (id : _) (j : _) (c : _) (s : State), q ≠ 16384 ∧ bltRuns s = true ∧ flattenReady s = false ∧ inTurn s.blt.last (bltReady s) = some q ∧ issuingJob s q = some (id, j) ∧ (s.blt.jobs.any fun j => j.2.queue == q && !bltEntryOk j.2.entry) = false ∧ Tbl.find? q s.blt.waiting = none ∧ fetchCommand s j h = some c ∧ cmdError s c = 0 ∧ bit (u8 c 1) 0 = false ∧ s.blt.flight.length < 32 ∧ conflicts s (dstRect c) (srcRect c).toList = false :=
  ⟨5, none, 0, job 1, fill 0x4000, bltWith (fill 0x4000), by decide +kernel⟩
theorem test_Blitter_4_1 : ∃ (k : Nat) (f : Flight) (s : State), Tbl.find? k s.blt.flight = some f ∧ domainOn s 19 = true :=
  ⟨3, flying 0 (fill 0x4000), blt ({ · with flight := [(3, flying 0 (fill 0x4000))], jobs := [(0, { job 1 with next := 1 })] }), by decide +kernel⟩
theorem test_Blitter_3_2 : ∃ (q : _) (h : _) (id : _) (j : _) (c : _) (s : State), q ≠ 16384 ∧ bltRuns s = true ∧ flattenReady s = false ∧ inTurn s.blt.last (bltReady s) = some q ∧ issuingJob s q = some (id, j) ∧ (s.blt.jobs.any fun j => j.2.queue == q && !bltEntryOk j.2.entry) = false ∧ Tbl.find? q s.blt.waiting = none ∧ fetchCommand s j h = some c ∧ cmdError s c = 0 ∧ bit (u8 c 1) 0 = false ∧ (32 ≤ s.blt.flight.length ∨ conflicts s (dstRect c) (srcRect c).toList = true) :=
  ⟨5, none, 0, job 1, fill 0x4000, { bltWith (fill 0x4000) with blt := { (bltWith (fill 0x4000)).blt with flight := [(9, flying 7 (fill 0x4000))] } }, by decide +kernel⟩
theorem test_Blitter_3_3 : ∃ (q : _) (h : _) (id : _) (j : _) (c : _) (s : State), q ≠ 16384 ∧ bltRuns s = true ∧ flattenReady s = false ∧ inTurn s.blt.last (bltReady s) = some q ∧ issuingJob s q = some (id, j) ∧ (s.blt.jobs.any fun j => j.2.queue == q && !bltEntryOk j.2.entry) = false ∧ Tbl.find? q s.blt.waiting = none ∧ fetchCommand s j h = some c ∧ cmdError s c ≠ 0 :=
  ⟨5, none, 0, job 1, fill 0x4000 7, bltWith (fill 0x4000 7), by decide +kernel⟩
theorem test_Blitter_4_2 : ∃ (k : Nat) (f : Flight) (s : State) (j : _), Tbl.find? k s.blt.flight = some f ∧ domainOn s 19 = true ∧ f.group = none ∧ Tbl.find? f.job s.blt.jobs = some j ∧ j.ended + 1 ≠ j.count ∧ f.cancelled = none ∧ f.dst = dstRect f.cmd ∧ (∀ b < f.dst.h, rowPoisoned s f.cmd b = false) :=
  ⟨3, flying 0 (fill 0x4000), blt ({ · with flight := [(3, flying 0 (fill 0x4000))], jobs := [(0, { job 2 with next := 1 })] }), { job 2 with next := 1 }, by decide +kernel⟩
theorem test_Blitter_5 : ∃ (s : State), domainOn s 19 = true :=
  ⟨blt ({ · with flight := [(3, flying 0 (fill 0x4000))], jobs := [(0, { job 1 with next := 1 })] }), by decide +kernel⟩
theorem test_Blitter_6 : ∃ (s : State), bltRuns s = true :=
  ⟨up, by decide +kernel⟩
theorem test_Deflate_1_1 : ∃ (q : _) (h : _) (f : _) (lane : _) (s : State) (d : _), (queueOf s q).fetched.head? = some f ∧ ((List.range 4).find? fun l => (Tbl.find? l s.dfl.lanes).isNone) = some lane ∧ dflRuns s = true ∧ inTurn s.dfl.last (dflReady s) = some q ∧ dflDesc s q f.bytes h = some d ∧ (dflEarly s q f.bytes (some d) = 0 ∨ dflEarly s q f.bytes (some d) = 6) ∧ slotBusy s (u8 d 3) = true :=
  ⟨5, none, { bytes := inflateEntry, slot := 0, gen := 0 }, 1, dflWith ({ · with lanes := [(0, inflateJob)] }), inflate, by decide +kernel⟩
theorem test_Deflate_1_2 : ∃ (q : _) (h : _) (f : _) (lane : _) (s : State) (d : _), (queueOf s q).fetched.head? = some f ∧ ((List.range 4).find? fun l => (Tbl.find? l s.dfl.lanes).isNone) = some lane ∧ dflRuns s = true ∧ inTurn s.dfl.last (dflReady s) = some q ∧ dflDesc s q f.bytes h = some d ∧ slotBusy s (u8 d 3) = false :=
  ⟨5, none, { bytes := inflateEntry, slot := 0, gen := 0 }, 0, dflWith id, inflate, by decide +kernel⟩
theorem test_Deflate_2 : ∃ (lane : _) (j : _) (r : _) (s : State), Tbl.find? lane s.dfl.lanes = some j ∧ (s.dfl.lanes.all fun l => l.2.queue ≠ j.queue || j.order ≤ l.2.order) = true ∧ r = runDfl s j (2 ^ 30) ∧ completes s j.queue j.gen = true :=
  ⟨0, inflateJob, runDfl (dflWith ({ · with lanes := [(0, inflateJob)] })) inflateJob (2 ^ 30), dflWith ({ · with lanes := [(0, inflateJob)] }), by decide +kernel⟩
theorem test_Deflate_3 : ∃ (s : State), domainOn s 20 = true :=
  ⟨dflWith ({ · with lanes := [(0, inflateJob)] }), by decide +kernel⟩
theorem test_Deflate_4 : ∃ (j : DflJob), j.early ≠ 0 :=
  ⟨{ inflateJob with early := 3 }, by decide +kernel⟩
theorem test_Decoder_1 : ∃ (c : _) (n : _) (f : _) (u : _) (s : State), decodes s = true ∧ domainOn s (16 + c) = true ∧ (coreOf s c).state = .idle ∧ u = makeRoom c s ∧ nextContext u c = some n ∧ headEntry u (ctxOf u n) = some f :=
  ⟨0, 1, { bytes := List.replicate 32 0, slot := 0, gen := 0 }, makeRoom 0 decQ, decQ, by decide +kernel⟩
theorem test_Decoder_2 : ∃ (c : _) (n : _) (p : _) (s : State), pictureOf s c = some (n, p) :=
  ⟨0, 1, pictureNow, decoding, by decide +kernel⟩
theorem test_Decoder_3 : ∃ (c : _) (n : _) (p : _) (s : State), pictureOf s c = some (n, p) :=
  ⟨0, 1, pictureNow, decoding, by decide +kernel⟩
theorem test_Decoder_4 : ∃ (c : _) (n : _) (p : _) (s : State), pictureOf s c = some (n, p) :=
  ⟨0, 1, pictureNow, decoding, by decide +kernel⟩
theorem test_Decoder_5 : ∃ (c : _) (s : State), coreUsable s c = true ∧ domainOn s (16 + c) = true :=
  ⟨0, decoding, by decide +kernel⟩
theorem test_Decoder_6 : ∃ (c : _) (n : _) (p : _) (s : State), pictureOf s c = some (n, p) :=
  ⟨0, 1, pictureNow, decoding, by decide +kernel⟩
theorem test_Decoder_7 : ∃ (c : _) (k : _) (s : State), ([1 - c, c].find? fun c => coreUsable s c && domainOn s (16 + c)) = some k :=
  ⟨0, 1, dec ({ · with cores := [(0, { state := .faulted }), (1, { state := .idle })], ctxs := [(1, { role := 1, core := 0, state := .moving })] }), by decide +kernel⟩
theorem test_DisplayOutput_1 : ∃ (n : _) (k : _) (b : _) (l : _) (r : _) (s : State), decodes s = true ∧ (ctxOf s n).role = 1 ∧ (ctxOf s n).conversion = none ∧ (ctxOf s n).waiting = (k, b) :: r ∧ stalePictures (convert s 3 (ctxOf s n).base (s.tim.nextTick / 65536)) (ctxOf s n).waiting = [] ∧ pairOf s n = none ∧ sinkOf s n = some l ∧ Tbl.find? l s.cmp.backReady = none ∧ suits (activeLayer s l).back b.pic = true :=
  ⟨1, 0, shown, 4, [], { dec ({ · with ctxs := [(1, colour)] }) with cmp := { up.cmp with layers := [(4, layerShows 1)] } }, by decide +kernel⟩
theorem test_DisplayOutput_2 : ∃ (n : _) (k : _) (b : _) (r : _) (s : State), decodes s = true ∧ (ctxOf s n).role = 1 ∧ (ctxOf s n).conversion = none ∧ (ctxOf s n).waiting = (k, b) :: r ∧ stalePictures (convert s 3 (ctxOf s n).base (s.tim.nextTick / 65536)) (ctxOf s n).waiting = [] ∧ sinkOf s n = none :=
  ⟨1, 0, shown, [], dec ({ · with ctxs := [(1, colour)] }), by decide +kernel⟩
theorem test_DisplayOutput_3 : ∃ (n : _) (v : Conversion) (a : _) (s : State), (ctxOf s n).conversion = some v ∧ pairOf s n = some a ∧ decodes s = true ∧ v.running = false :=
  ⟨1, { order := 0, pts := 5, layer := 4, selected := 0 }, 2, dec ({ · with ctxs := [(1, { colour with desc := [0, 0, 0, 2], conversion := some { order := 0, pts := 5, layer := 4, selected := 0 } }), (2, { role := 2 })] }), by decide +kernel⟩
theorem test_DisplayOutput_4 : ∃ (n : _) (v : Conversion) (k : _) (b : _) (s : State), (ctxOf s n).conversion = some v ∧ v.running = true ∧ ((ctxOf s n).waiting.find? fun b => b.2.order = v.order) = some (k, b) :=
  ⟨1, { order := 0, pts := 5, layer := 4, selected := 0, running := true }, 0, shown, { dec ({ · with ctxs := [(1, { colour with conversion := some { order := 0, pts := 5, layer := 4, selected := 0, running := true } })] }) with cmp := { up.cmp with layers := [(4, layerShows 1)] } }, by decide +kernel⟩
theorem test_EncoderPictures_1 : ∃ (w : WitnessPicture) (s : State), s.enc.waiting = some w ∧ domainOn s 18 = true ∧ s.enc.picture = none ∧ 0 < w.rate :=
  ⟨{}, enc ({ · with waiting := some {} }), by decide +kernel⟩
theorem test_EncoderPictures_2 : ∃ (c : CodedPicture) (p : _) (s : State), s.enc.picture = some p ∧ refsOk s.enc p c = true ∧ s.enc.inForce.dest ≠ 2 :=
  ⟨{ ctuBits := [], slice := [] }, { source := {} }, enc ({ · with picture := some { source := {} } }), by decide +kernel⟩
theorem test_EncoderPictures_4 : ∃ (u : _) (s : State), s.enc.lastReport = some u ∧ s.enc.inForce.dest < 2 ∧ s.enc.mode = .running :=
  ⟨0, enc ({ · with lastReport := some 0, mode := .running }), by decide +kernel⟩
theorem test_EncoderPictures_5 : ∃ (s : State), domainOn s 18 = true :=
  ⟨up, by decide +kernel⟩

/-! ### Witnesses: the verbs -/

theorem test_DeviceVerbs_1 : ∃ (ch : _) (r : _) (s : State) (u : State), Due deviceStatusVerb 0x01 0x01 ch r s u :=
  ⟨.drawer .a 0, req 0x01 0x01 [], asks (req 0x01 0x01 []) (up), up, due (by decide) (by decide)⟩
theorem test_DeviceVerbs_2 : ∃ (ch : _) (r : _) (s : State) (u : State) (q : _) (c : _), Due queueCreateVerb 0x01 0x04 ch r s u ∧ q = leAt r.body 0 2 ∧ c = queueOfBody r.body ∧ c.kind ∈ [1, 3, 4, 5] ∧ c.cls ≤ 6 ∧ u8 r.body 4 ≤ 1 ∧ u8 r.body 5 ≤ 1 ∧ u8 r.body 33 = 0 ∧ ringsOk c = true ∧ (c.kind ≠ 4 → zeroAt r.body 36 4 = true) ∧ kindAllows c.kind c.cls = true ∧ (queueOf u q).state = .off ∧ (∀ k ∈ bodySlots r.body, k < 240 ∧ (dflSlot u k).owner = none) ∧ boundFull u c.kind = false ∧ q ≤ 16383 ∧ c.vector ≤ 2047 ∧ c.coalUs ≤ 1023 ∧ ringsPlaced u c = true :=
  ⟨.drawer .a 0, req 0x01 0x04 (leBytes 2 700 ++ [1, 1, 0, 0, 3, 0] ++ leBytes 8 0x10000 ++ leBytes 8 0x20000 ++ leBytes 4 16 ++ leBytes 4 16 ++ [0, 0, 0, 0] ++ leBytes 2 0 ++ leBytes 2 0), asks (req 0x01 0x04 (leBytes 2 700 ++ [1, 1, 0, 0, 3, 0] ++ leBytes 8 0x10000 ++ leBytes 8 0x20000 ++ leBytes 4 16 ++ leBytes 4 16 ++ [0, 0, 0, 0] ++ leBytes 2 0 ++ leBytes 2 0)) (up), up, 700, queueOfBody (leBytes 2 700 ++ [1, 1, 0, 0, 3, 0] ++ leBytes 8 0x10000 ++ leBytes 8 0x20000 ++ leBytes 4 16 ++ leBytes 4 16 ++ [0, 0, 0, 0] ++ leBytes 2 0 ++ leBytes 2 0), due (by decide) (by decide), by decide +kernel⟩
theorem test_DeviceVerbs_2_x2 : ∃ (ch : _) (r : _) (s : State) (u : State) (q : _) (c : _), Due queueCreateVerb 0x01 0x04 ch r s u ∧ q = leAt r.body 0 2 ∧ c = queueOfBody r.body ∧ c.kind ∈ [1, 3, 4, 5] ∧ c.cls ≤ 6 ∧ u8 r.body 4 ≤ 1 ∧ u8 r.body 5 ≤ 1 ∧ u8 r.body 33 = 0 ∧ ringsOk c = true ∧ (c.kind ≠ 4 → zeroAt r.body 36 4 = true) ∧ kindAllows c.kind c.cls = true ∧ (queueOf u q).state = .off ∧ (∀ k ∈ bodySlots r.body, k < 240 ∧ (dflSlot u k).owner = none) ∧ boundFull u c.kind = false ∧ q ≤ 16383 ∧ c.vector ≤ 2047 ∧ c.coalUs ≤ 1023 ∧ ringsPlaced u c = true :=
  ⟨.drawer .a 0, req 0x01 0x04 (leBytes 2 700 ++ [3, 2, 0, 0, 3, 0] ++ leBytes 8 0x10000 ++ leBytes 8 0x20000 ++ leBytes 4 16 ++ leBytes 4 16 ++ [0, 0, 0, 0] ++ leBytes 2 0 ++ leBytes 2 0), asks (req 0x01 0x04 (leBytes 2 700 ++ [3, 2, 0, 0, 3, 0] ++ leBytes 8 0x10000 ++ leBytes 8 0x20000 ++ leBytes 4 16 ++ leBytes 4 16 ++ [0, 0, 0, 0] ++ leBytes 2 0 ++ leBytes 2 0)) (up), up, 700, queueOfBody (leBytes 2 700 ++ [3, 2, 0, 0, 3, 0] ++ leBytes 8 0x10000 ++ leBytes 8 0x20000 ++ leBytes 4 16 ++ leBytes 4 16 ++ [0, 0, 0, 0] ++ leBytes 2 0 ++ leBytes 2 0), due (by decide) (by decide), by decide +kernel⟩
theorem test_DeviceVerbs_2_x3 : ∃ (ch : _) (r : _) (s : State) (u : State) (q : _) (c : _), Due queueCreateVerb 0x01 0x04 ch r s u ∧ q = leAt r.body 0 2 ∧ c = queueOfBody r.body ∧ c.kind ∈ [1, 3, 4, 5] ∧ c.cls ≤ 6 ∧ u8 r.body 4 ≤ 1 ∧ u8 r.body 5 ≤ 1 ∧ u8 r.body 33 = 0 ∧ ringsOk c = true ∧ (c.kind ≠ 4 → zeroAt r.body 36 4 = true) ∧ kindAllows c.kind c.cls = true ∧ (queueOf u q).state = .off ∧ (∀ k ∈ bodySlots r.body, k < 240 ∧ (dflSlot u k).owner = none) ∧ boundFull u c.kind = false ∧ q ≤ 16383 ∧ c.vector ≤ 2047 ∧ c.coalUs ≤ 1023 ∧ ringsPlaced u c = true :=
  ⟨.drawer .a 0, req 0x01 0x04 (leBytes 2 700 ++ [4, 2, 0, 0, 3, 0] ++ leBytes 8 0x10000 ++ leBytes 8 0x20000 ++ leBytes 4 16 ++ leBytes 4 16 ++ [0, 0, 0, 0] ++ leBytes 2 5 ++ leBytes 2 2), asks (req 0x01 0x04 (leBytes 2 700 ++ [4, 2, 0, 0, 3, 0] ++ leBytes 8 0x10000 ++ leBytes 8 0x20000 ++ leBytes 4 16 ++ leBytes 4 16 ++ [0, 0, 0, 0] ++ leBytes 2 5 ++ leBytes 2 2)) (up), up, 700, queueOfBody (leBytes 2 700 ++ [4, 2, 0, 0, 3, 0] ++ leBytes 8 0x10000 ++ leBytes 8 0x20000 ++ leBytes 4 16 ++ leBytes 4 16 ++ [0, 0, 0, 0] ++ leBytes 2 5 ++ leBytes 2 2), due (by decide) (by decide), by decide +kernel⟩
theorem test_DeviceVerbs_2_x4 : ∃ (ch : _) (r : _) (s : State) (u : State) (q : _) (c : _), Due queueCreateVerb 0x01 0x04 ch r s u ∧ q = leAt r.body 0 2 ∧ c = queueOfBody r.body ∧ c.kind ∈ [1, 3, 4, 5] ∧ c.cls ≤ 6 ∧ u8 r.body 4 ≤ 1 ∧ u8 r.body 5 ≤ 1 ∧ u8 r.body 33 = 0 ∧ ringsOk c = true ∧ (c.kind ≠ 4 → zeroAt r.body 36 4 = true) ∧ kindAllows c.kind c.cls = true ∧ (queueOf u q).state = .off ∧ (∀ k ∈ bodySlots r.body, k < 240 ∧ (dflSlot u k).owner = none) ∧ boundFull u c.kind = false ∧ q ≤ 16383 ∧ c.vector ≤ 2047 ∧ c.coalUs ≤ 1023 ∧ ringsPlaced u c = true :=
  ⟨.drawer .a 0, req 0x01 0x04 (leBytes 2 700 ++ [5, 6, 0, 0, 3, 0] ++ leBytes 8 0x10000 ++ leBytes 8 0x20000 ++ leBytes 4 0 ++ leBytes 4 16 ++ [0, 0, 0, 0] ++ leBytes 2 0 ++ leBytes 2 0), asks (req 0x01 0x04 (leBytes 2 700 ++ [5, 6, 0, 0, 3, 0] ++ leBytes 8 0x10000 ++ leBytes 8 0x20000 ++ leBytes 4 0 ++ leBytes 4 16 ++ [0, 0, 0, 0] ++ leBytes 2 0 ++ leBytes 2 0)) (up), up, 700, queueOfBody (leBytes 2 700 ++ [5, 6, 0, 0, 3, 0] ++ leBytes 8 0x10000 ++ leBytes 8 0x20000 ++ leBytes 4 0 ++ leBytes 4 16 ++ [0, 0, 0, 0] ++ leBytes 2 0 ++ leBytes 2 0), due (by decide) (by decide), by decide +kernel⟩
theorem test_DeviceVerbs_3 : ∃ (ch : _) (r : _) (s : State) (u : State) (q : _), Due queueResetVerb 0x01 0x05 ch r s u ∧ q = leAt r.body 0 2 ∧ q ≤ 16383 ∧ (queueOf u q).state ≠ .off ∧ (queueOf u q).state ≠ .detached :=
  ⟨.drawer .a 0, req 0x01 0x05 (leBytes 2 700), asks (req 0x01 0x05 (leBytes 2 700)) (que 700 { state := .active, kind := 1, cqSize := 16, cqAddr := 0x20000, fetched := [{ bytes := [], slot := 0, gen := 0 }] }), que 700 { state := .active, kind := 1, cqSize := 16, cqAddr := 0x20000, fetched := [{ bytes := [], slot := 0, gen := 0 }] }, 700, due (by decide) (by decide), by decide +kernel⟩
theorem test_DeviceVerbs_4 : ∃ (ch : _) (r : _) (s : State) (u : State) (q : _), Due queueDeleteVerb 0x01 0x06 ch r s u ∧ q = leAt r.body 0 2 ∧ q ≤ 16383 ∧ (queueOf u q).state ≠ .off ∧ (queueOf u q).kind ≠ 2 :=
  ⟨.drawer .a 0, req 0x01 0x06 (leBytes 2 16383), asks (req 0x01 0x06 (leBytes 2 16383)) (que 16383 { state := .active, kind := 1 }), que 16383 { state := .active, kind := 1 }, 16383, due (by decide) (by decide), by decide +kernel⟩
theorem test_DeviceVerbs_5 : ∃ (ch : _) (r : _) (s : State) (u : State) (q : _) (p : _), Due queueAttachVerb 0x01 0x07 ch r s u ∧ q = leAt r.body 0 2 ∧ r.port = some p ∧ zeroAt r.body 2 6 = true ∧ zeroAt r.body 32 8 = true ∧ ringsOk ((queueOf u q).attach p r.body) = true ∧ (queueOf u q).state = .detached ∧ q ≤ 16383 ∧ ringsPlaced u ((queueOf u q).attach p r.body) = true :=
  ⟨.drawer .a 0, req 0x01 0x07 (leBytes 2 700 ++ List.replicate 6 0 ++ leBytes 8 0x10000 ++ leBytes 8 0x20000 ++ leBytes 4 16 ++ leBytes 4 16 ++ List.replicate 8 0), asks (req 0x01 0x07 (leBytes 2 700 ++ List.replicate 6 0 ++ leBytes 8 0x10000 ++ leBytes 8 0x20000 ++ leBytes 4 16 ++ leBytes 4 16 ++ List.replicate 8 0)) (que 700 { state := .detached, kind := 1 }), que 700 { state := .detached, kind := 1 }, 700, .a, due (by decide) (by decide), by decide +kernel⟩
theorem test_DeviceVerbs_6 : ∃ (ch : _) (r : _) (s : State) (u : State) (n : _), Due deviceDarkVerb 0x01 0x08 ch r s u ∧ n = u8 r.body 0 ∧ asksResume ch s = false ∧ u8 r.body 1 = 0 ∧ n < 96 ∧ configured u n = true :=
  ⟨.drawer .a 0, req 0x01 0x08 [23, 0], asks (req 0x01 0x08 [23, 0]) (lnk 23 { state := .up }), lnk 23 { state := .up }, 23, due (by decide) (by decide), by decide +kernel⟩
theorem test_DeviceVerbs_7 : ∃ (ch : _) (r : _) (s : State) (u : State) (n : _), Due deviceDarkVerb 0x01 0x08 ch r s u ∧ n = u8 r.body 0 ∧ asksResume ch s = true ∧ u8 r.body 1 = 1 ∧ n < 96 ∧ configured u n = true :=
  ⟨.drawer .a 0, req 0x01 0x08 [23, 1], asks (req 0x01 0x08 [23, 1]) (lnk 23 { state := .off, darkCmd := true }), lnk 23 { state := .off, darkCmd := true }, 23, due (by decide) (by decide), by decide +kernel⟩
theorem test_DeviceVerbs_8 : ∃ (ch : _) (r : _) (s : State) (u : State), Due powerDownVerb 0x01 0x09 ch r s u :=
  ⟨.drawer .a 0, req 0x01 0x09 [], asks (req 0x01 0x09 []) (raster), raster, due (by decide) (by decide)⟩
theorem test_PutAndGet_1 : ∃ (ch : _) (c : _) (service : _) (verb : _) (v : Verb) (p : _) (r : _) (s : State) (u : State), (c, service, verb, v) ∈ putRows ch ∧ Due v service verb ch r s u ∧ zeroAt r.body 4 4 = true ∧ paramOf u service (leAt r.body 0 2) (leAt r.body 2 2) = some p ∧ (service = 0x0B → ptpUnavailable u (leAt r.body 0 2) (leAt r.body 8 16) = false) ∧ p.ok (leAt r.body 8 16) = true :=
  ⟨.drawer .a 0, .stressPut (.drawer .a 0), 0x09, 0x04, stressPutVerb, (paramOf (up) 0x09 1 0).get rfl, req 0x09 0x04 (leBytes 2 1 ++ leBytes 2 0 ++ [0, 0, 0, 0] ++ leBytes 16 600), asks (req 0x09 0x04 (leBytes 2 1 ++ leBytes 2 0 ++ [0, 0, 0, 0] ++ leBytes 16 600)) (up), up, by simp [putRows], due (by decide) (by decide), by decide, rfl, by decide, by decide⟩
theorem test_PutAndGet_1_x2 : ∃ (ch : _) (c : _) (service : _) (verb : _) (v : Verb) (p : _) (r : _) (s : State) (u : State), (c, service, verb, v) ∈ putRows ch ∧ Due v service verb ch r s u ∧ zeroAt r.body 4 4 = true ∧ paramOf u service (leAt r.body 0 2) (leAt r.body 2 2) = some p ∧ (service = 0x0B → ptpUnavailable u (leAt r.body 0 2) (leAt r.body 8 16) = false) ∧ p.ok (leAt r.body 8 16) = true :=
  ⟨.drawer .a 0, .devicePut (.drawer .a 0), 0x01, 0x02, devicePutVerb, (paramOf (raster) 0x01 2 11).get rfl, req 0x01 0x02 (leBytes 2 2 ++ leBytes 2 11 ++ [0, 0, 0, 0] ++ leBytes 16 0), asks (req 0x01 0x02 (leBytes 2 2 ++ leBytes 2 11 ++ [0, 0, 0, 0] ++ leBytes 16 0)) (raster), raster, by simp [putRows], due (by decide) (by decide), by decide, rfl, by decide, by decide⟩
theorem test_PutAndGet_1_x3 : ∃ (ch : _) (c : _) (service : _) (verb : _) (v : Verb) (p : _) (r : _) (s : State) (u : State), (c, service, verb, v) ∈ putRows ch ∧ Due v service verb ch r s u ∧ zeroAt r.body 4 4 = true ∧ paramOf u service (leAt r.body 0 2) (leAt r.body 2 2) = some p ∧ (service = 0x0B → ptpUnavailable u (leAt r.body 0 2) (leAt r.body 8 16) = false) ∧ p.ok (leAt r.body 8 16) = true :=
  ⟨.drawer .a 0, .timePut (.drawer .a 0), 0x0B, 0x01, timePutVerb, (paramOf (up) 0x0B 33 0).get rfl, req 0x0B 0x01 (leBytes 2 33 ++ leBytes 2 0 ++ [0, 0, 0, 0] ++ leBytes 16 1), asks (req 0x0B 0x01 (leBytes 2 33 ++ leBytes 2 0 ++ [0, 0, 0, 0] ++ leBytes 16 1)) (up), up, by simp [putRows], due (by decide) (by decide), by decide, rfl, by decide, by decide⟩
theorem test_PutAndGet_1_x4 : ∃ (ch : _) (c : _) (service : _) (verb : _) (v : Verb) (p : _) (r : _) (s : State) (u : State), (c, service, verb, v) ∈ putRows ch ∧ Due v service verb ch r s u ∧ zeroAt r.body 4 4 = true ∧ paramOf u service (leAt r.body 0 2) (leAt r.body 2 2) = some p ∧ (service = 0x0B → ptpUnavailable u (leAt r.body 0 2) (leAt r.body 8 16) = false) ∧ p.ok (leAt r.body 8 16) = true :=
  ⟨.drawer .a 0, .scenePut (.drawer .a 0), 0x04, 0x01, scenePutVerb, (paramOf (up) 0x04 1 0).get rfl, req 0x04 0x01 (leBytes 2 1 ++ leBytes 2 0 ++ [0, 0, 0, 0] ++ leBytes 16 0), asks (req 0x04 0x01 (leBytes 2 1 ++ leBytes 2 0 ++ [0, 0, 0, 0] ++ leBytes 16 0)) (up), up, by simp [putRows], due (by decide) (by decide), by decide, rfl, by decide, by decide⟩
theorem test_PutAndGet_2 : ∃ (ch : _) (c : _) (service : _) (verb : _) (p : _) (r : _) (s : State) (u : State), (c, service, verb) ∈ getRows ch ∧ Due getVerb service verb ch r s u ∧ paramOf u service (leAt r.body 0 2) (leAt r.body 2 2) = some p :=
  ⟨.drawer .a 0, .stressGet (.drawer .a 0), 0x09, 0x05, (paramOf (up) 0x09 2 0).get rfl, req 0x09 0x05 (leBytes 2 2 ++ leBytes 2 0), asks (req 0x09 0x05 (leBytes 2 2 ++ leBytes 2 0)) (up), up, by simp [getRows], due (by decide) (by decide), rfl⟩
theorem test_PutAndGet_2_x2 : ∃ (ch : _) (c : _) (service : _) (verb : _) (p : _) (r : _) (s : State) (u : State), (c, service, verb) ∈ getRows ch ∧ Due getVerb service verb ch r s u ∧ paramOf u service (leAt r.body 0 2) (leAt r.body 2 2) = some p :=
  ⟨.drawer .a 0, .spareGet (.drawer .a 0), 0x0D, 0x04, (paramOf (up) 0x0D 5 0).get rfl, req 0x0D 0x04 (leBytes 2 5 ++ leBytes 2 0), asks (req 0x0D 0x04 (leBytes 2 5 ++ leBytes 2 0)) (up), up, by simp [getRows], due (by decide) (by decide), rfl⟩
theorem test_PutAndGet_3 : ∃ (ch : _) (c : _) (service : _) (verb : _) (r : _) (s : State) (u : State), (c, service, verb) ∈ getRows ch ∧ Due getVerb service verb ch r s u ∧ paramOf u service (leAt r.body 0 2) (leAt r.body 2 2) = none :=
  ⟨.drawer .a 0, .modeGet (.drawer .a 0), 0x02, 0x05, req 0x02 0x05 (leBytes 2 2 ++ leBytes 2 0), asks (req 0x02 0x05 (leBytes 2 2 ++ leBytes 2 0)) (up), up, by simp [getRows], due (by decide) (by decide), rfl⟩
theorem test_PutAndGet_3_x2 : ∃ (ch : _) (c : _) (service : _) (verb : _) (r : _) (s : State) (u : State), (c, service, verb) ∈ getRows ch ∧ Due getVerb service verb ch r s u ∧ paramOf u service (leAt r.body 0 2) (leAt r.body 2 2) = none :=
  ⟨.drawer .a 0, .rightsGet (.drawer .a 0), 0x0F, 0x04, req 0x0F 0x04 (leBytes 2 2 ++ leBytes 2 4), asks (req 0x0F 0x04 (leBytes 2 2 ++ leBytes 2 4)) (up), up, by simp [getRows], due (by decide) (by decide), rfl⟩
theorem test_ModeAndLayerVerbs_1 : ∃ (ch : _) (r : _) (s : State) (u : State) (m : _) (t : Target), Due modeSetVerb 0x02 0x01 ch r s u ∧ m = u8 r.body 0 ∧ t = { kind := u8 r.body 1, base := u8 r.body 2, value := leAt r.body 8 8, mustHit := bit (u8 r.body 3) 0 } ∧ u8 r.body 3 ≤ 1 ∧ zeroAt r.body 4 4 = true ∧ modeStatus u true m t = .ok ∧ m ≠ u.tim.mode ∧ u.tim.mode ≠ 0x10 :=
  ⟨.drawer .a 0, req 0x02 0x01 ([3, 0, 0, 0, 0, 0, 0, 0] ++ leBytes 8 0), asks (req 0x02 0x01 ([3, 0, 0, 0, 0, 0, 0, 0] ++ leBytes 8 0)) ({ raster with geom := { up.geom with banks := [(0, { valid := true, version := 1 })] } }), { raster with geom := { up.geom with banks := [(0, { valid := true, version := 1 })] } }, 3, { kind := 0, base := 0, value := 0, mustHit := false }, due (by decide) (by decide), by decide +kernel⟩
set_option maxRecDepth 100000 in
theorem test_ModeAndLayerVerbs_2 : ∃ (ch : _) (h : _) (r : _) (s : State) (u : State) (f : _), Due benchLoadVerb 0x02 0x02 ch r s u ∧ plainObject { obj := h } r r.body u = (.ok, f) ∧ bitmapStatus u f = .ok :=
  ⟨.drawer .a 0, bitmap, req 0x02 0x02 ([1, 0, 0, 0] ++ leBytes 4 bitmap.length ++ leBytes 8 0x1000 ++ leBytes 4 0 ++ leBytes 4 0), asks (req 0x02 0x02 ([1, 0, 0, 0] ++ leBytes 4 bitmap.length ++ leBytes 8 0x1000 ++ leBytes 4 0 ++ leBytes 4 0)) (up), up, bitmap, due (by decide) (by decide), by decide +kernel⟩
theorem test_ModeAndLayerVerbs_3 : ∃ (ch : _) (h : _) (r : _) (s : State) (u : State) (f : _), Due benchLoadVerb 0x02 0x02 ch r s u ∧ plainObject { obj := h } r r.body u = (.ok, f) ∧ bitmapStatus u f ≠ .ok :=
  ⟨.drawer .a 0, List.replicate 32 0, req 0x02 0x02 ([1, 0, 0, 0] ++ leBytes 4 32 ++ leBytes 8 0x1000 ++ leBytes 4 0 ++ leBytes 4 0), asks (req 0x02 0x02 ([1, 0, 0, 0] ++ leBytes 4 32 ++ leBytes 8 0x1000 ++ leBytes 4 0 ++ leBytes 4 0)) (up), up, List.replicate 32 0, due (by decide) (by decide), by decide +kernel⟩
theorem test_ModeAndLayerVerbs_4 : ∃ (ch : _) (r : _) (s : State) (u : State) (e : _), Due modeScheduleVerb 0x02 0x03 ch r s u ∧ e = scheduleEntryOf (r.body.drop 8) ∧ zeroAt r.body 1 7 = true ∧ u8 r.body 23 = 0 ∧ e.action ≤ 1 ∧ e.base ≤ 3 ∧ (e.mode = 0 ∨ modeOk e.mode = true) ∧ u8 r.body 0 ≤ 15 ∧ e.period ≤ 604800 :=
  ⟨.drawer .a 0, req 0x02 0x03 ([15, 0, 0, 0, 0, 0, 0, 0] ++ leBytes 8 1000 ++ leBytes 4 604800 ++ [1, 0x10, 3, 0]), asks (req 0x02 0x03 ([15, 0, 0, 0, 0, 0, 0, 0] ++ leBytes 8 1000 ++ leBytes 4 604800 ++ [1, 0x10, 3, 0])) (up), up, { first := 1000, period := 604800, action := 1, mode := 0x10, base := 3 }, due (by decide) (by decide), by decide +kernel⟩
theorem test_ModeAndLayerVerbs_5 : ∃ (ch : _) (h : _) (r : _) (s : State) (u : State) (d : _), Due layerCommitVerb 0x03 0x01 ch r s u ∧ plainObject { obj := h } r r.body u = (.ok, d) ∧ commitStatus u r.cls d = .ok :=
  ⟨.drawer .a 0, disable63, req 0x03 0x01 ([1, 0, 0, 0] ++ leBytes 4 disable63.length ++ leBytes 8 0x1000 ++ leBytes 4 0 ++ leBytes 4 0) 2, asks (req 0x03 0x01 ([1, 0, 0, 0] ++ leBytes 4 disable63.length ++ leBytes 8 0x1000 ++ leBytes 4 0 ++ leBytes 4 0) 2) (raster), raster, disable63, due (by decide) (by decide), by decide +kernel⟩
theorem test_ModeAndLayerVerbs_6 : ∃ (ch : _) (r : _) (s : State) (u : State), Due layerResultVerb 0x03 0x02 ch r s u ∧ u8 r.body 0 ≤ 1 ∧ u8 r.body 1 / 32 % 4 = 0 :=
  ⟨.drawer .a 0, req 0x03 0x02 ([0, 0, 0, 0] ++ leBytes 4 9), asks (req 0x03 0x02 ([0, 0, 0, 0] ++ leBytes 4 9)) (up), up, due (by decide) (by decide), by decide +kernel⟩
theorem test_ModeAndLayerVerbs_7 : ∃ (ch : _) (r : _) (s : State) (u : State), Due layerQueryVerb 0x03 0x03 ch r s u ∧ u8 r.body 0 ≤ 63 :=
  ⟨.drawer .a 0, req 0x03 0x03 [63], asks (req 0x03 0x03 [63]) (up), up, due (by decide) (by decide), by decide +kernel⟩
theorem test_StreamAndCalibrationVerbs_2 : ∃ (ch : _) (r : _) (s : State) (u : State) (n : _), Due streamCloseVerb 0x05 0x02 ch r s u ∧ n = u8 r.body 0 ∧ n ≤ 63 ∧ (ctxOf u n).role ≠ 0 ∧ ((ctxOf u n).role = 2 → colourOf u n = none) :=
  ⟨.drawer .a 0, req 0x05 0x02 [63], asks (req 0x05 0x02 [63]) ({ que 5 { state := .active, kind := 2 } with dec := { up.dec with ctxs := [(63, { role := 1, core := 0, state := .idle, queue := some 5 })] } }), { que 5 { state := .active, kind := 2 } with dec := { up.dec with ctxs := [(63, { role := 1, core := 0, state := .idle, queue := some 5 })] } }, 63, due (by decide) (by decide), by decide +kernel⟩
theorem test_StressAndSignatureVerbs_1 : ∃ (ch : _) (r : _) (s : State) (u : State), Due stressReportVerb 0x09 0x01 ch r s u :=
  ⟨.drawer .a 0, req 0x09 0x01 [], asks (req 0x09 0x01 []) (up), up, due (by decide) (by decide)⟩
theorem test_StressAndSignatureVerbs_2 : ∃ (ch : _) (r : _) (s : State) (u : State), Due stressResolveVerb 0x09 0x02 ch r s u ∧ u8 r.body 0 ≤ 1 ∧ u.out.disagree = true :=
  ⟨.drawer .a 0, req 0x09 0x02 [1], asks (req 0x09 0x02 [1]) (out ({ · with disagree := true })), out ({ · with disagree := true }), due (by decide) (by decide), by decide +kernel⟩
theorem test_StressAndSignatureVerbs_4 : ∃ (ch : _) (r : _) (s : State) (u : State) (n : _) (x : RegionRec), Due sigRegionVerb 0x0A 0x01 ch r s u ∧ n = u8 r.body 0 ∧ x = regionRecOf (r.body.drop 16) ∧ zeroAt r.body 1 15 = true ∧ regionFormatOk u n (r.body.drop 16) = true ∧ n ≤ 31 ∧ regionRangeOk u x = true ∧ (x.slates = true → slateLimit u n x = false ∧ slateBusy u x.slateLayer = false) :=
  ⟨.drawer .a 0, req 0x0A 0x01 (corner), asks (req 0x0A 0x01 (corner)) (up), up, 31, regionRecOf (corner.drop 16), due (by decide) (by decide), by decide +kernel⟩
theorem test_StressAndSignatureVerbs_4_x2 : ∃ (ch : _) (r : _) (s : State) (u : State) (n : _) (x : RegionRec), Due sigRegionVerb 0x0A 0x01 ch r s u ∧ n = u8 r.body 0 ∧ x = regionRecOf (r.body.drop 16) ∧ zeroAt r.body 1 15 = true ∧ regionFormatOk u n (r.body.drop 16) = true ∧ n ≤ 31 ∧ regionRangeOk u x = true ∧ (x.slates = true → slateLimit u n x = false ∧ slateBusy u x.slateLayer = false) :=
  ⟨.drawer .a 0, req 0x0A 0x01 (slated), asks (req 0x0A 0x01 (slated)) (up), up, 31, regionRecOf (slated.drop 16), due (by decide) (by decide), by decide +kernel⟩
theorem test_StressAndSignatureVerbs_5 : ∃ (ch : _) (r : _) (s : State) (u : State), Due sigReleaseVerb 0x0A 0x02 ch r s u ∧ u8 r.body 0 ≤ 31 :=
  ⟨.drawer .a 0, req 0x0A 0x02 [31], asks (req 0x0A 0x02 [31]) (up), up, due (by decide) (by decide), by decide +kernel⟩
theorem test_StressAndSignatureVerbs_6 : ∃ (ch : _) (r : _) (s : State) (u : State) (n : _), Due sigQueryVerb 0x0A 0x03 ch r s u ∧ n = u8 r.body 0 ∧ n ≤ 31 :=
  ⟨.drawer .a 0, req 0x0A 0x03 [31], asks (req 0x0A 0x03 [31]) (up), up, 31, due (by decide) (by decide), by decide +kernel⟩
theorem test_TimeAndSpareVerbs_1 : ∃ (ch : _) (r : _) (s : State) (u : State) (n : _) (x : EventSlot), Due timeEventVerb 0x0B 0x03 ch r s u ∧ n = u8 r.body 0 ∧ x = eventSlotOf r.body ∧ eventOp ch s = 0 ∧ u8 r.body 1 = 0 ∧ n ≤ 15 ∧ x.base ≤ 3 ∧ x.action ≤ 3 ∧ (x.period = 0 ∨ within 1000000 (2 ^ 62) x.period = true) ∧ tooFar u x.base x.target = false :=
  ⟨.drawer .a 0, req 0x0B 0x03 ([15, 0, 3, 3] ++ [0, 0, 0, 0] ++ leBytes 8 100000 ++ leBytes 8 1000000 ++ leBytes 8 7), asks (req 0x0B 0x03 ([15, 0, 3, 3] ++ [0, 0, 0, 0] ++ leBytes 8 100000 ++ leBytes 8 1000000 ++ leBytes 8 7)) (up), up, 15, eventSlotOf ([15, 0, 3, 3] ++ [0, 0, 0, 0] ++ leBytes 8 100000 ++ leBytes 8 1000000 ++ leBytes 8 7), due (by decide) (by decide), by decide +kernel⟩
theorem test_TimeAndSpareVerbs_2 : ∃ (ch : _) (r : _) (s : State) (u : State) (n : _), Due timeEventVerb 0x0B 0x03 ch r s u ∧ n = u8 r.body 0 ∧ eventOp ch s = 1 ∧ u8 r.body 1 = 1 ∧ n ≤ 15 ∧ u8 r.body 2 ≤ 3 ∧ u8 r.body 3 ≤ 3 :=
  ⟨.drawer .a 0, req 0x0B 0x03 ([15, 1, 3, 3] ++ [0, 0, 0, 0] ++ leBytes 8 100000 ++ leBytes 8 0 ++ leBytes 8 7), asks (req 0x0B 0x03 ([15, 1, 3, 3] ++ [0, 0, 0, 0] ++ leBytes 8 100000 ++ leBytes 8 0 ++ leBytes 8 7)) (tim ({ · with slots := [(15, { armed := true, base := 3, action := 3, target := 7, period := 0, user := 0 })] })), tim ({ · with slots := [(15, { armed := true, base := 3, action := 3, target := 7, period := 0, user := 0 })] }), 15, due (by decide) (by decide), by decide +kernel⟩
theorem test_TimeAndSpareVerbs_3 : ∃ (ch : _) (r : _) (s : State) (u : State) (n : _), Due timeEventVerb 0x0B 0x03 ch r s u ∧ n = u8 r.body 0 ∧ eventOp ch s = 2 ∧ u8 r.body 1 = 2 ∧ n ≤ 15 ∧ u8 r.body 2 ≤ 3 ∧ u8 r.body 3 ≤ 3 :=
  ⟨.drawer .a 0, req 0x0B 0x03 ([15, 2, 3, 3] ++ [0, 0, 0, 0] ++ leBytes 8 100000 ++ leBytes 8 0 ++ leBytes 8 7), asks (req 0x0B 0x03 ([15, 2, 3, 3] ++ [0, 0, 0, 0] ++ leBytes 8 100000 ++ leBytes 8 0 ++ leBytes 8 7)) (up), up, 15, due (by decide) (by decide), by decide +kernel⟩
theorem test_TimeAndSpareVerbs_4 : ∃ (ch : _) (r : _) (s : State) (u : State) (n : _), Due thermAckVerb 0x0C 0x03 ch r s u ∧ n = u8 r.body 0 ∧ n ≤ 23 ∧ (sensorOf u n).state = .held :=
  ⟨.drawer .a 0, req 0x0C 0x03 [23], asks (req 0x0C 0x03 [23]) (thm ({ · with sensors := [(23, { state := .held })] })), thm ({ · with sensors := [(23, { state := .held })] }), 23, due (by decide) (by decide), by decide +kernel⟩
theorem test_TimeAndSpareVerbs_5 : ∃ (ch : _) (r : _) (s : State) (u : State) (l : _), Due migrateVerb 0x0D 0x01 ch r s u ∧ l = u8 r.body 0 ∧ l ≤ 7 ∧ migrationRuns u = false ∧ spareSitePresent u = true ∧ u.dmc.mode = .running ∧ u.tim.bench = .off :=
  ⟨.drawer .a 0, req 0x0D 0x01 [7], asks (req 0x0D 0x01 [7]) (dmc ({ · with sites := [(8, { state := .spare })] })), dmc ({ · with sites := [(8, { state := .spare })] }), 7, due (by decide) (by decide), by decide +kernel⟩
theorem test_TimeAndSpareVerbs_6 : ∃ (ch : _) (r : _) (s : State) (u : State) (n : _) (f : _), Due restoreLinkVerb 0x0D 0x02 ch r s u ∧ n = u8 r.body 0 ∧ f = (if u8 r.body 4 = 1 then max (rateFrame u) (leAt r.body 8 8) else rateFrame u) ∧ zeroAt r.body 1 3 = true ∧ u8 r.body 4 ≤ 1 ∧ zeroAt r.body 5 3 = true ∧ n ≤ 95 ∧ configured u n = true ∧ u.tim.rasterRun = true ∧ (linkOf u n).state = .up ∧ (linkOf u n).half = true ∧ (linkOf u n).has 4 = false :=
  ⟨.drawer .a 0, req 0x0D 0x02 ([23, 0, 0, 0, 1, 0, 0, 0] ++ leBytes 8 100), asks (req 0x0D 0x02 ([23, 0, 0, 0, 1, 0, 0, 0] ++ leBytes 8 100)) ({ raster with tlk := { raster.tlk with links := [(23, { state := .up, half := true })] } }), { raster with tlk := { raster.tlk with links := [(23, { state := .up, half := true })] } }, 23, 100, due (by decide) (by decide), by decide +kernel⟩
theorem test_TimeAndSpareVerbs_7 : ∃ (ch : _) (r : _) (s : State) (u : State), Due spareReportVerb 0x0D 0x05 ch r s u :=
  ⟨.drawer .a 0, req 0x0D 0x05 [], asks (req 0x0D 0x05 []) (up), up, due (by decide) (by decide)⟩
theorem test_LogAndRightsVerbs_1 : ∃ (ch : _) (r : _) (s : State) (u : State) (es : _), Due logReadVerb 0x0E 0x01 ch r s u ∧ es = (u.bureau.ring.filter fun e => leAt r.body 8 8 ≤ e.seq).take (leAt r.body 2 2) ∧ zeroAt r.body 4 4 = true ∧ 0 < leAt r.body 2 2 ∧ leAt r.body 2 2 ≤ readMax r.ch ∧ leAt r.body 0 2 = u.bureau.epoch ∧ oldestSeq u ≤ leAt r.body 8 8 :=
  ⟨.drawer .a 0, req 0x0E 0x01 ([0, 0] ++ leBytes 2 15 ++ [0, 0, 0, 0] ++ leBytes 8 0), asks (req 0x0E 0x01 ([0, 0] ++ leBytes 2 15 ++ [0, 0, 0, 0] ++ leBytes 8 0)) (up), up, [], due (by decide) (by decide), by decide +kernel⟩
theorem test_LogAndRightsVerbs_3 : ∃ (ch : _) (r : _) (s : State) (u : State), Due logStatusVerb 0x0E 0x03 ch r s u :=
  ⟨.drawer .a 0, req 0x0E 0x03 [], asks (req 0x0E 0x03 []) (up), up, due (by decide) (by decide)⟩
theorem test_LogAndRightsVerbs_4 : ∃ (ch : _) (r : _) (s : State) (u : State), Due logClearVerb 0x0E 0x04 ch r s u ∧ zeroAt r.body 2 6 = true ∧ leAt r.body 0 2 = u.bureau.epoch ∧ leAt r.body 8 8 + 1 = u.bureau.nextSeq ∧ u.bot.emmcReady = true :=
  ⟨.drawer .a 0, req 0x0E 0x04 ([0, 0, 0, 0, 0, 0, 0, 0] ++ leBytes 8 4), asks (req 0x0E 0x04 ([0, 0, 0, 0, 0, 0, 0, 0] ++ leBytes 8 4)) ({ up with bureau := { up.bureau with nextSeq := 5 } }), { up with bureau := { up.bureau with nextSeq := 5 } }, due (by decide) (by decide), by decide +kernel⟩
theorem test_LogAndRightsVerbs_5 : ∃ (ch : _) (r : _) (s : State) (u : State), Due logArchiveVerb 0x0E 0x05 ch r s u ∧ u.bot.emmcReady = true :=
  ⟨.drawer .a 0, req 0x0E 0x05 [], asks (req 0x0E 0x05 []) (up), up, due (by decide) (by decide), by decide +kernel⟩
theorem test_LogAndRightsVerbs_6 : ∃ (ch : _) (r : _) (s : State) (u : State) (p : _) (n : _) (c : _), Due drawerClassVerb 0x0F 0x01 ch r s u ∧ p = portCode (u8 r.body 0) ∧ n = u8 r.body 1 ∧ c = u8 r.body 2 ∧ u8 r.body 0 ≤ 1 ∧ c ≤ 6 ∧ n ≤ 31 ∧ ownerLeft u p n c = true :=
  ⟨.drawer .a 0, req 0x0F 0x01 [1, 31, 6], asks (req 0x0F 0x01 [1, 31, 6]) (hif ({ · with drawers := [(0, { cls := 1 })] })), hif ({ · with drawers := [(0, { cls := 1 })] }), .b, 31, 6, due (by decide) (by decide), by decide +kernel⟩
theorem test_LogAndRightsVerbs_7 : ∃ (ch : _) (r : _) (s : State) (u : State) (k : _) (c : _), Due ethBindVerb 0x0F 0x02 ch r s u ∧ k = u8 r.body 0 ∧ c = u8 r.body 1 ∧ c ∈ [0, 5, 6] ∧ zeroAt r.body 2 14 = true ∧ k ≤ 7 :=
  ⟨.drawer .a 0, req 0x0F 0x02 ([7, 6] ++ List.replicate 14 0 ++ List.replicate 48 9), asks (req 0x0F 0x02 ([7, 6] ++ List.replicate 14 0 ++ List.replicate 48 9)) (up), up, 7, 6, due (by decide) (by decide), by decide +kernel⟩
theorem test_UpdateVerbs_1_4 : ∃ (ch : _) (h : _) (r : _) (s : State) (u : State) (f : _) (v : Nat), Due updateStageVerb 0x10 0x01 ch r s u ∧ zeroAt r.body 1 7 = true ∧ objectOf { obj := h } r (r.body.drop 8) u = (.ok, f, v) ∧ u8 r.body 0 = 4 ∧ v = 0 ∧ f.length ≤ 2 ^ 17 :=
  ⟨.drawer .a 0, [1, 2, 3], req 0x10 0x01 ([4, 0, 0, 0, 0, 0, 0, 0] ++ [1, 0, 0, 0] ++ leBytes 4 3 ++ leBytes 8 0x1000 ++ leBytes 4 0 ++ leBytes 4 0), asks (req 0x10 0x01 ([4, 0, 0, 0, 0, 0, 0, 0] ++ [1, 0, 0, 0] ++ leBytes 4 3 ++ leBytes 8 0x1000 ++ leBytes 4 0 ++ leBytes 4 0)) (up), up, [1, 2, 3], 0, due (by decide) (by decide), by decide +kernel⟩
theorem test_UpdateVerbs_1_6 : ∃ (ch : _) (h : _) (r : _) (s : State) (u : State) (f : _) (v : Nat) (k : _), Due updateStageVerb 0x10 0x01 ch r s u ∧ zeroAt r.body 1 7 = true ∧ objectOf { obj := h } r (r.body.drop 8) u = (.ok, f, v) ∧ u8 r.body 0 = 6 ∧ v = 0 ∧ f.length = 97 ∧ ((List.range 4).find? fun k => (Tbl.find? k u.bot.ikeys).isNone) = some k :=
  ⟨.drawer .a 0, List.replicate 97 4, req 0x10 0x01 ([6, 0, 0, 0, 0, 0, 0, 0] ++ [1, 0, 0, 0] ++ leBytes 4 97 ++ leBytes 8 0x1000 ++ leBytes 4 0 ++ leBytes 4 0), asks (req 0x10 0x01 ([6, 0, 0, 0, 0, 0, 0, 0] ++ [1, 0, 0, 0] ++ leBytes 4 97 ++ leBytes 8 0x1000 ++ leBytes 4 0 ++ leBytes 4 0)) (up), up, List.replicate 97 4, 0, 0, due (by decide) (by decide), by decide +kernel⟩
theorem test_UpdateVerbs_2 : ∃ (ch : _) (r : _) (s : State) (u : State) (k : _), Due updateSwitchVerb 0x10 0x02 ch r s u ∧ k = u8 r.body 0 ∧ k ≤ 1 ∧ u.bot.staged = some k ∧ u.bot.trial = false :=
  ⟨.drawer .a 0, req 0x10 0x02 [1], asks (req 0x10 0x02 [1]) (bot ({ · with staged := some 1 })), bot ({ · with staged := some 1 }), 1, due (by decide) (by decide), by decide +kernel⟩
theorem test_UpdateVerbs_3 : ∃ (ch : _) (r : _) (s : State) (u : State), Due updateStatusVerb 0x10 0x03 ch r s u :=
  ⟨.drawer .a 0, req 0x10 0x03 [], asks (req 0x10 0x03 []) (up), up, due (by decide) (by decide)⟩
theorem test_ServiceQueueEntries_1_2 : ∃ (q : _) (h : _) (f : _) (b : _) (m : _) (v : Verb) (r : _) (s : State) (body : _) (u : _), nextService s q = some f ∧ u8 f.bytes 0 = 1 ∧ entryMessage s q f.bytes h = (.ok, b) ∧ m = messageOf b ∧ leAt f.bytes 2 2 = m.service ∧ leAt f.bytes 4 2 = m.verb ∧ 16 + m.len ≤ leAt f.bytes 16 4 ∧ r = requestOf s (.queue q) m ∧ verbOf m.service m.verb = some v ∧ generalStatus (some v) m r s = .ok ∧ needsOutside r = false ∧ (r.service ≠ 0x10 ∨ r.verb ≠ 0x02) ∧ v.run {} r s = (.ok, body, u) :=
  ⟨5, none, entryFor 1 1 1 (message 1 1 []).length, message 1 1 [], messageOf (message 1 1 []), deviceStatusVerb, requestOf (served (entryFor 1 1 1 (message 1 1 []).length) (message 1 1 [])) (.queue 5) (messageOf (message 1 1 [])), served (entryFor 1 1 1 (message 1 1 []).length) (message 1 1 []), (deviceStatusVerb.run {} (requestOf (served (entryFor 1 1 1 (message 1 1 []).length) (message 1 1 [])) (.queue 5) (messageOf (message 1 1 []))) (served (entryFor 1 1 1 (message 1 1 []).length) (message 1 1 []))).2.1, (deviceStatusVerb.run {} (requestOf (served (entryFor 1 1 1 (message 1 1 []).length) (message 1 1 [])) (.queue 5) (messageOf (message 1 1 []))) (served (entryFor 1 1 1 (message 1 1 []).length) (message 1 1 []))).2.2, by decide +kernel, by decide +kernel, by decide +kernel, rfl, by decide +kernel, by decide +kernel, by decide +kernel, rfl, rfl, by decide +kernel, by decide +kernel, by decide +kernel, rfl⟩
theorem test_ServiceQueueEntries_1_1 : ∃ (q : _) (h : _) (f : _) (b : _) (m : _) (v : Verb) (r : _) (s : State), nextService s q = some f ∧ u8 f.bytes 0 = 1 ∧ entryMessage s q f.bytes h = (.ok, b) ∧ m = messageOf b ∧ leAt f.bytes 2 2 = m.service ∧ leAt f.bytes 4 2 = m.verb ∧ 16 + m.len ≤ leAt f.bytes 16 4 ∧ r = requestOf s (.queue q) m ∧ verbOf m.service m.verb = some v ∧ generalStatus (some v) m r s = .ok ∧ needsOutside r = true :=
  ⟨5, none, entryFor 1 2 2 (message 2 2 (1 :: List.replicate 23 0)).length, message 2 2 (1 :: List.replicate 23 0), messageOf (message 2 2 (1 :: List.replicate 23 0)), benchLoadVerb, requestOf (served (entryFor 1 2 2 (message 2 2 (1 :: List.replicate 23 0)).length) (message 2 2 (1 :: List.replicate 23 0))) (.queue 5) (messageOf (message 2 2 (1 :: List.replicate 23 0))), served (entryFor 1 2 2 (message 2 2 (1 :: List.replicate 23 0)).length) (message 2 2 (1 :: List.replicate 23 0)), by decide +kernel, by decide +kernel, by decide +kernel, rfl, by decide +kernel, by decide +kernel, by decide +kernel, rfl, rfl, by decide +kernel, by decide +kernel⟩
theorem test_ServiceQueueEntries_2 : ∃ (q : _) (h : _) (f : _) (d : _) (id : _) (frame : _) (u : _) (s : State), nextService s q = some f ∧ u8 f.bytes 0 = 2 ∧ commitChecks s q = .ok ∧ entryMessage s q f.bytes h = (.ok, d) ∧ submitCommit (commitRequest s q).cls d (reqOrigin (commitRequest s q)) (.queue q f.slot f.gen (leAt f.bytes 24 8)) s = (.ok, id, frame, u) :=
  ⟨5, none, entryFor 2 3 1 disable63.length 2, disable63, (submitCommit (commitRequest (served (entryFor 2 3 1 disable63.length 2) disable63) 5).cls disable63 (reqOrigin (commitRequest (served (entryFor 2 3 1 disable63.length 2) disable63) 5)) (.queue 5 0 0 77) (served (entryFor 2 3 1 disable63.length 2) disable63)).2.1, (submitCommit (commitRequest (served (entryFor 2 3 1 disable63.length 2) disable63) 5).cls disable63 (reqOrigin (commitRequest (served (entryFor 2 3 1 disable63.length 2) disable63) 5)) (.queue 5 0 0 77) (served (entryFor 2 3 1 disable63.length 2) disable63)).2.2.1, (submitCommit (commitRequest (served (entryFor 2 3 1 disable63.length 2) disable63) 5).cls disable63 (reqOrigin (commitRequest (served (entryFor 2 3 1 disable63.length 2) disable63) 5)) (.queue 5 0 0 77) (served (entryFor 2 3 1 disable63.length 2) disable63)).2.2.2, served (entryFor 2 3 1 disable63.length 2) disable63, by decide +kernel⟩
theorem test_ServiceQueueEntries_3 : ∃ (q : _) (f : _) (n : _) (k : _) (s : State), nextService s q = some f ∧ u8 f.bytes 0 = 3 ∧ fenceStatus s q f.bytes = .ok ∧ n = u8 f.bytes 20 ∧ k = u8 f.bytes 21 :=
  ⟨5, { bytes := [3] ++ List.replicate 19 0 ++ [255, 255, 0, 0] ++ leBytes 8 77, slot := 0, gen := 0 }, 255, 255, served { bytes := [3] ++ List.replicate 19 0 ++ [255, 255, 0, 0] ++ leBytes 8 77, slot := 0, gen := 0 } [], by decide +kernel⟩

/-! ### Hypotheses about files, and about what the manual leaves free -/

/-- An object reference to the bytes `f` in host memory (R494). -/
def hostObj (f : Bytes) : Bytes := [1, 0, 0, 0] ++ leBytes 4 f.length ++ leBytes 8 0x1000 ++ leBytes 4 0 ++ leBytes 4 0
/-- `u` with a calibration index that lists the file `f` (R639), for panel 0. -/
def knows (f : Bytes) (u : State) : State :=
  { u with bot := { u.bot with calIndex := some { seq := 1, panelId := 0, entries := [{ kind := 1, flags := 0, version := 1, lba := 7, len := f.length, digest := Config.sha384 f }] } }
           geom := { u.geom with panelId := some 0 } }

theorem leAt_leBytes4 {n : Nat} (h : n < 2 ^ 32) (b : Bytes) : leValue ((leBytes 4 n ++ b).take 4) = n := by
  simp [leBytes, leValue]; omega

theorem objectOf_host {f : Bytes} {r : Request} {u : State} (hf : f.length < 2 ^ 32) (hr : r.port = some .a) (hp : portOpen u .a = true) :
    objectOf { obj := f } r (hostObj f) u = (.ok, f, 0) := by
  have hn : leAt (hostObj f) 4 4 = f.length := leAt_leBytes4 hf _
  have hv : leAt (hostObj f) 16 4 = 0 := rfl
  have h0 : u8 (hostObj f) 0 = 1 := rfl
  have h1 : zeroAt (hostObj f) 1 3 = true := rfl
  have h2 : zeroAt (hostObj f) 20 4 = true := rfl
  unfold objectOf
  simp [hn, hv, h0, h1, h2, hr, hp, padTo]

theorem listed_knows (f : Bytes) (u : State) : listed (knows f u) f = true := by simp [listed, knows]

theorem crcStep_lt {p c : Nat} (hp : p < 2 ^ 32) (hc : c < 2 ^ 32) : crcStep p c < 2 ^ 32 := by
  unfold crcStep; split
  · exact Nat.xor_lt_two_pow (by omega) hp
  · omega
theorem crc32c_lt (b : Bytes) : crc32c b < 2 ^ 32 := by
  have : ∀ (b : Bytes) c, c < 2 ^ 32 → crcUpdate 0x82F63B78 c b < 2 ^ 32 := by
    intro b; induction b with
    | nil => intro c h; exact h
    | cons x r ih =>
      intro c h
      refine ih _ ?_
      have hp : 0x82F63B78 < 2 ^ 32 := by decide
      have h0 : c ^^^ x.toNat < 2 ^ 32 := Nat.xor_lt_two_pow h (by have := x.isLt; omega)
      exact crcStep_lt hp <| crcStep_lt hp <| crcStep_lt hp <| crcStep_lt hp <| crcStep_lt hp <| crcStep_lt hp <| crcStep_lt hp <| crcStep_lt hp h0
  exact Nat.xor_lt_two_pow (this b _ (by decide)) (by decide)

theorem leValue_zeros (k : Nat) : leValue (List.replicate k (0 : Byte)) = 0 := by
  induction k with
  | zero => rfl
  | succ k ih => rw [List.replicate_succ, leValue, ih]; rfl
theorem leAt_zeros {h : Bytes} {o : Nat} (n k : Nat) (ho : h.length ≤ o) : leAt (h ++ List.replicate n (0 : Byte)) o k = 0 := by
  rw [leAt, List.drop_append, List.drop_eq_nil_of_le ho, List.nil_append, List.drop_replicate, List.take_replicate, leValue_zeros]
theorem leAt_append {h t : Bytes} {o k : Nat} (ho : o + k ≤ h.length) : leAt (h ++ t) o k = leAt h o k := by
  rw [leAt, leAt, List.drop_append_of_le_length (by omega), List.take_append_of_le_length (by rw [List.length_drop]; omega)]
theorem zeroAt_append {h t : Bytes} {o k : Nat} (ho : o + k ≤ h.length) : zeroAt (h ++ t) o k = zeroAt h o k := by
  rw [zeroAt, zeroAt, List.drop_append_of_le_length (by omega), List.take_append_of_le_length (by rw [List.length_drop]; omega)]
theorem leAt_after {h t : Bytes} {n o : Nat} (ho : h.length = o) (hn : n < 2 ^ 32) : leAt (h ++ (leBytes 4 n ++ t)) o 4 = n := by
  rw [leAt, ← ho, List.drop_left]; exact leAt_leBytes4 hn t

/-- A file of a header of 64 bytes with its two checksums and a payload (R54, R225): `a` stands before PAYLOAD_CRC, `b` between the two. -/
def summed (a b z : Bytes) : Bytes :=
  let h := a ++ leBytes 4 (crc32c z) ++ b
  h ++ leBytes 4 (crc32c h) ++ z
/-- The header of a geometry file, a file with a payload of zeros behind it, and the same for a curve file (R54, R225). -/
def geomHead : Bytes :=
  leBytes 4 0x53474750 ++ leBytes 4 1 ++ leBytes 2 480 ++ leBytes 2 270 ++ leBytes 2 200 ++ leBytes 2 0 ++ List.replicate 16 0 ++ leBytes 4 64 ++ leBytes 4 864 ++ leBytes 4 1037600
def geomFile : Bytes := summed geomHead (List.replicate 12 0) (List.replicate 1037600 0)
def curveHead : Bytes := leBytes 4 0x43444750 ++ leBytes 4 1 ++ leBytes 2 0 ++ leBytes 2 320 ++ leBytes 2 640 ++ leBytes 2 160 ++ List.replicate 40 0
def curveFile : Bytes := summed curveHead [] (List.replicate 98304 0)
/-- An ageing model of two knots for each colour (R245). -/
def modelFile : Bytes :=
  let z := ((List.replicate 3 (leBytes 4 0 ++ leBytes 2 32768 ++ leBytes 2 0 ++ leBytes 4 9 ++ leBytes 2 32768 ++ leBytes 2 0)).flatten)
  let h := leBytes 4 0x4D414750 ++ leBytes 4 1 ++ [2, 5, 0, 0] ++ List.replicate 12 1 ++ List.replicate 32 0 ++ leBytes 4 (crc32c z)
  h ++ leBytes 4 (crc32c h) ++ z

theorem fileStatus_ok {s : State} {f : Bytes} {want : Nat} (hw : want = 0 ∨ want = leAt f 4 4) (hl : listed s f = true) (hp : panelStatus s (leAt f 16 8) = .ok) :
    fileStatus s f true true true (some (leAt f 16 8)) want = .ok := by
  rcases hw with rfl | rfl <;> simp [fileStatus, firstStatus, hl, hp]

theorem summed_head (a b z : Bytes) {o k : Nat} (ho : o + k ≤ a.length) : leAt (summed a b z) o k = leAt a o k := by
  simp only [summed, List.append_assoc]; exact leAt_append ho
theorem summed_length (a b z : Bytes) (h : a.length + b.length = 56) : (summed a b z).length = 64 + z.length := by
  simp only [summed, List.length_append, leBytes, List.length_cons, List.length_nil]; omega
theorem summed_zeros (a b : Bytes) (n k o : Nat) (h : a.length + b.length = 56) (ho : 64 ≤ o) : leAt (summed a b (List.replicate n (0 : Byte))) o k = 0 := by
  unfold summed; exact leAt_zeros n k (by simp only [List.length_append, leBytes, List.length_cons, List.length_nil]; omega)
theorem summed_sums (a b z : Bytes) (h : a.length + b.length = 56) :
    (crc32c ((summed a b z).take 60) = leAt (summed a b z) 60 4 && crc32c ((summed a b z).drop 64) = leAt (summed a b z) a.length 4) = true := by
  have e60 : (a ++ leBytes 4 (crc32c z) ++ b).length = 60 := by simp only [List.length_append, leBytes, List.length_cons, List.length_nil]; omega
  have e64 : ∀ v, ((a ++ leBytes 4 (crc32c z) ++ b) ++ leBytes 4 v).length = 64 := fun v => by rw [List.length_append, e60]; rfl
  have h1 : leAt (summed a b z) 60 4 = crc32c (a ++ leBytes 4 (crc32c z) ++ b) := by
    unfold summed; rw [List.append_assoc _ (leBytes 4 (crc32c _)) z]; exact leAt_after e60 (crc32c_lt _)
  have h2 : leAt (summed a b z) a.length 4 = crc32c z := by
    simp only [summed, List.append_assoc]; exact leAt_after rfl (crc32c_lt _)
  have h3 : (summed a b z).take 60 = a ++ leBytes 4 (crc32c z) ++ b := by
    unfold summed; rw [List.append_assoc _ (leBytes 4 (crc32c _)) z]; exact List.take_left' e60
  have h4 : (summed a b z).drop 64 = z := by unfold summed; exact List.drop_left' (e64 _)
  rw [h1, h2, h3, h4]; simp

theorem geomHeader_ok : geomHeaderOk geomFile = true := by
  have hz : zeroAt geomFile 48 12 = true := by
    have e : ∀ v : Bytes, v.length = 4 → (geomHead ++ v).length = 48 := fun v h => by rw [List.length_append, h]; decide
    unfold geomFile summed zeroAt
    rw [List.append_assoc _ (leBytes 4 (crc32c _)) (List.replicate 1037600 0), List.append_assoc (geomHead ++ _), List.drop_left' (e _ rfl), List.take_left' (by rfl)]; decide
  unfold geomHeaderOk
  rw [hz]; unfold geomFile
  rw [summed_length _ _ _ (by decide), List.length_replicate]
  repeat rw [summed_head _ _ _ (by decide)]
  decide +kernel
theorem curveHeader_ok : curveHeaderOk curveFile = true := by
  have hz : zeroAt curveFile 24 32 = true := by
    unfold curveFile; simp only [summed, List.append_assoc]; rw [zeroAt_append (by decide)]; decide
  unfold curveHeaderOk
  rw [hz]; unfold curveFile
  rw [summed_length _ _ _ (by decide), List.length_replicate]
  repeat rw [summed_head _ _ _ (by decide)]
  decide +kernel
theorem geomEntries_ok : geomEntriesOk geomFile = true := by
  unfold geomEntriesOk geomFile
  rw [List.all_eq_true]
  intro k _
  rw [summed_zeros _ _ _ _ _ (by decide) (by omega), summed_zeros _ _ _ _ _ (by decide) (by omega)]
  rfl
theorem curveEntries_ok : curveEntriesOk curveFile = true := by
  unfold curveEntriesOk curveFile curveEntry
  rw [List.all_eq_true]
  intro k _
  split
  · rw [summed_zeros _ _ _ _ _ (by decide) (by omega)]; rfl
  · rw [summed_zeros _ _ _ _ _ (by decide) (by omega), summed_zeros _ _ _ _ _ (by decide) (by omega)]; rfl
theorem geomFile_length : geomFile.length = 1037664 := by unfold geomFile; rw [summed_length _ _ _ (by decide), List.length_replicate]
theorem curveFile_length : curveFile.length = 98368 := by unfold curveFile; rw [summed_length _ _ _ (by decide), List.length_replicate]
theorem geomFile_word : leAt geomFile 4 4 = 1 ∧ leAt geomFile 16 8 = 0 := by
  unfold geomFile; rw [summed_head _ _ _ (by decide), summed_head _ _ _ (by decide)]; decide
theorem curveFile_word : leAt curveFile 16 8 = 0 := by unfold curveFile; rw [summed_head _ _ _ (by decide)]; decide
theorem geomFile_ok (u : State) {want : Nat} (hw : want ≤ 1) : geomFileStatus (knows geomFile u) geomFile want = .ok := by
  have hs : geomSumsOk geomFile = true := summed_sums geomHead (List.replicate 12 0) _ (by decide)
  unfold geomFileStatus
  rw [geomHeader_ok, hs, geomEntries_ok]
  refine fileStatus_ok ?_ (listed_knows _ _) ?_
  · rw [geomFile_word.1]; omega
  · rw [geomFile_word.2]; simp [panelStatus, knows]
theorem curveFile_ok (u : State) : curveFileStatus (knows curveFile u) curveFile 0 = .ok := by
  have hs : curveSumsOk curveFile = true := summed_sums curveHead [] _ (by decide)
  unfold curveFileStatus
  rw [curveHeader_ok, hs, curveEntries_ok]
  refine fileStatus_ok (.inl rfl) (listed_knows _ _) ?_
  rw [curveFile_word]; simp [panelStatus, knows]
theorem modelFile_ok (u : State) : modelFileStatus (knows modelFile u) modelFile 0 = .ok := by
  have hk : ((List.range 3).all fun ch => (knotsOf modelFile ch).head? == some (0, 32768) && knotsRise (knotsOf modelFile ch)) = true := by decide +kernel
  have hr : ((List.range (3 * modelKnots modelFile)).all fun k => zeroAt modelFile (64 + 8 * k + 6) 2) = true := by decide +kernel
  have hs : (crc32c (modelFile.take 60) = leAt modelFile 60 4 && crc32c (modelFile.drop 64) = leAt modelFile 56 4) = true := by decide +kernel
  have hh : modelHeaderOk modelFile = true := by decide +kernel
  simp only [modelFileStatus, hk, hr, hs, hh, fileStatus, firstStatus, listed_knows]
  rfl

/-- A coded picture without CTUs, and the encoder with a picture in coding for DEST RING, without and with a completion ring (R350). -/
def blank : CodedPicture := { ctuBits := [], slice := [] }
def encNoRing : State := enc ({ · with picture := some { source := {} }, inForce := { dest := 2 } })
def encRing : State :=
  { que 5 { state := .active, kind := 5, cqSize := 16 } with enc := { up.enc with picture := some { source := {} }, inForce := { dest := 2 }, ringQueue := some 5 } }
theorem ringPlace_encRing {n : Nat} (h : n ≤ Config.encoderBuffer.2) : ringPlace encRing n = some 0 := by
  have hs : (encRing.enc.ringQueue.any fun q => decide (0 < slotsFree (queueOf encRing q))) = true := by decide
  have hh : heldUnits encRing = [] := by decide
  have hp : encRing.enc.ringPos = 0 := rfl
  simp [ringPlace, hs, hh, hp, h]

/-- One entry that waits for its archiving, and the state in which ARCHIVE_SEGMENT finds it. -/
def waitingEntry : Entry := { seq := 0, time := 0, base := 0, origin := byWalec, subject := 0, event := 1, frame := 0, detail := 0, epoch := 0, chain := 0 }
def archNow : State := { up with bureau := { up.bureau with nextSeq := 1, ring := [waitingEntry] } }
def archThen : State := if 4096 ≤ unarchived archNow then archNow else advanceTo0 (archNow.bureau.lastArchive + 600000000000) archNow
/-- A stored segment. -/
def storedSegment : Segment := { number := 3, firstSeq := 0, epoch := 0, count := 1, gap := false, prevChain := 0, lastChain := 0, lost := 0, entries := [waitingEntry] }
/-- The body of STREAM.OPEN for context 63 (R302). -/
def openBody : Bytes :=
  [63, 1, 255, 255] ++ leBytes 2 8192 ++ leBytes 2 16 ++ [8, 3, 0, 0, 0, 0, 0, 0] ++ leBytes 8 1000 ++ leBytes 4 0 ++ leBytes 2 1000 ++ leBytes 2 65535
theorem archived_fits (h : 64 + (nextSegmentOf archThen waitingEntry [waitingEntry]).stream.length ≤ 2 ^ 32) :
    archiveUse archThen.bureau.segments + (64 + (nextSegmentOf archThen waitingEntry [waitingEntry]).stream.length) ≤ 2 ^ 32 := by
  have : archiveUse archThen.bureau.segments = 0 := by decide
  omega
theorem admitted_open (h : 3 * Config.poolBuffer 8192 16 8 ≤ 2 ^ 33) : admitted up openBody = true := by
  have h0 : openContexts up = [] := by decide
  have h1 : poolBytes openBody = 3 * Config.poolBuffer 8192 16 8 := rfl
  have h2 : leAt openBody 16 8 = 1000 := by decide
  have h3 : u8 openBody 9 = 3 := by decide
  simp [admitted, h0, h1, h2, h3]; exact h
theorem freeQueues_up : freeQueues up ≠ [] :=
  List.ne_nil_of_mem (List.mem_filter.mpr ⟨List.mem_range.mpr (by decide), by decide⟩ : 0 ∈ freeQueues up)
theorem recovery_loads (f : Bytes) (hl : f.length < 2 ^ 32) : load (store 0 f up) 0 (bits f.length 31 0) = f := by
  have : bits f.length 31 0 = f.length := by simp only [bits]; omega
  rw [this, load_store]

theorem test_StreamAndCalibrationVerbs_4 : ∃ (ch : _) (h : _) (r : _) (s : State) (u : State) (f : _) (v : Nat), Due loadGeomVerb 0x08 0x01 ch r s u ∧ pendingGeom u = none ∧ objectOf { obj := h } r r.body u = (.ok, f, v) ∧ geomFileStatus u f v = .ok :=
  ⟨.drawer .a 0, geomFile, req 0x08 0x01 (hostObj geomFile), asks (req 0x08 0x01 (hostObj geomFile)) (knows geomFile up), knows geomFile up, geomFile, 0, due rfl rfl, rfl, objectOf_host (by rw [geomFile_length]; decide) rfl rfl, geomFile_ok up (by decide)⟩
theorem test_StreamAndCalibrationVerbs_5 : ∃ (ch : _) (h : _) (r : _) (s : State) (u : State) (f : _) (v : Nat), Due loadCurvesVerb 0x08 0x03 ch r s u ∧ curvePending u = false ∧ objectOf { obj := h } r r.body u = (.ok, f, v) ∧ curveFileStatus u f v = .ok :=
  ⟨.drawer .a 0, curveFile, req 0x08 0x03 (hostObj curveFile), asks (req 0x08 0x03 (hostObj curveFile)) (knows curveFile up), knows curveFile up, curveFile, 0, due rfl rfl, rfl, objectOf_host (by rw [curveFile_length]; decide) rfl rfl, curveFile_ok up⟩
theorem test_StressAndSignatureVerbs_3 : ∃ (ch : _) (h : _) (r : _) (s : State) (u : State) (f : _) (v : Nat), Due modelLoadVerb 0x09 0x03 ch r s u ∧ objectOf { obj := h } r r.body u = (.ok, f, v) ∧ modelFileStatus u f v = .ok :=
  ⟨.drawer .a 0, modelFile, req 0x09 0x03 (hostObj modelFile), asks (req 0x09 0x03 (hostObj modelFile)) (knows modelFile up), knows modelFile up, modelFile, 0, due rfl rfl, objectOf_host (by decide) rfl rfl, modelFile_ok up⟩
theorem test_StressLedger_4_1 : ∃ (f : _) (s : State), s.geom.dedSeen = true ∧ s.hif.walec = .running ∧ pendingGeom s = none ∧ s.bot.emmcReady = true ∧ (∀ b < 2, s.geom.badCopies.contains (2 + b) = false) ∧ geomFileStatus s f (activeGeom s).version = .ok ∧ leAt f 4 4 = (activeGeom s).version :=
  ⟨geomFile, knows geomFile { up with geom := { up.geom with dedSeen := true, banks := [(0, { version := 1, valid := true })] } }, rfl, rfl, rfl, rfl, by decide, geomFile_ok _ (by decide), geomFile_word.1⟩
theorem test_StressLedger_5 : ∃ (f : _) (b : _) (s : State), b < 2 ∧ s.hif.walec = .running ∧ s.bot.emmcReady = true ∧ s.geom.dedSeen = false ∧ s.geom.badCopies.contains (2 + b) = true ∧ geomFileStatus s f (geomBank s b).version = .ok ∧ leAt f 4 4 = (geomBank s b).version :=
  ⟨geomFile, 1, knows geomFile { up with geom := { up.geom with badCopies := [3], banks := [(1, { version := 1, valid := true })] } }, by decide, rfl, rfl, rfl, rfl, geomFile_ok _ (by decide), geomFile_word.1⟩
theorem test_StreamAndCalibrationVerbs_6_1 : ∃ (ch : _) (c : Instr) (v : Verb) (verb : _) (r : _) (s : State) (u : State) (pair : BankPair) (fits : Bool) (change : Change), (c, v, verb, pair, fits, change) ∈ [(Instr.mapActivate ch, mapActivateVerb, 0x0702, mapPair u, true, Change.mapSwap (leAt r.body 0 4)), (.activateGeom ch, activateGeomVerb, 0x0802, geomPair u, geomFits u, .geomSwap (leAt r.body 0 4)), (.activateCurves ch, activateCurvesVerb, 0x0804, curvePair u, true, .curveSwap (leAt r.body 0 4))] ∧ Due v (verb / 256) (verb % 256) ch r s u ∧ u8 r.body 4 ≤ 1 ∧ zeroAt r.body 5 3 = true ∧ (u8 r.body 4 = 1 → leAt r.body 8 8 ≤ u.tim.frameCount + 2 ^ 62) ∧ pair.decide (leAt r.body 0 4) = .swap ∧ u.geom.panelMismatch = false ∧ fits = true :=
  ⟨.drawer .a 0, .mapActivate (.drawer .a 0), mapActivateVerb, 0x0702, req (0x0702 / 256) (0x0702 % 256) (leBytes 4 7 ++ [1, 0, 0, 0] ++ leBytes 8 9), asks (req (0x0702 / 256) (0x0702 % 256) (leBytes 4 7 ++ [1, 0, 0, 0] ++ leBytes 8 9)) (out ({ · with maps := [(1, { version := 7, valid := true })] })), (out ({ · with maps := [(1, { version := 7, valid := true })] })), mapPair (out ({ · with maps := [(1, { version := 7, valid := true })] })), true, .mapSwap (leAt (req (0x0702 / 256) (0x0702 % 256) (leBytes 4 7 ++ [1, 0, 0, 0] ++ leBytes 8 9)).body 0 4), .head _, due rfl rfl, by decide +kernel, by decide +kernel, by decide, by decide +kernel, rfl, rfl⟩
theorem test_StreamAndCalibrationVerbs_6_1_x2 : ∃ (ch : _) (c : Instr) (v : Verb) (verb : _) (r : _) (s : State) (u : State) (pair : BankPair) (fits : Bool) (change : Change), (c, v, verb, pair, fits, change) ∈ [(Instr.mapActivate ch, mapActivateVerb, 0x0702, mapPair u, true, Change.mapSwap (leAt r.body 0 4)), (.activateGeom ch, activateGeomVerb, 0x0802, geomPair u, geomFits u, .geomSwap (leAt r.body 0 4)), (.activateCurves ch, activateCurvesVerb, 0x0804, curvePair u, true, .curveSwap (leAt r.body 0 4))] ∧ Due v (verb / 256) (verb % 256) ch r s u ∧ u8 r.body 4 ≤ 1 ∧ zeroAt r.body 5 3 = true ∧ (u8 r.body 4 = 1 → leAt r.body 8 8 ≤ u.tim.frameCount + 2 ^ 62) ∧ pair.decide (leAt r.body 0 4) = .swap ∧ u.geom.panelMismatch = false ∧ fits = true :=
  ⟨.drawer .a 0, .activateGeom (.drawer .a 0), activateGeomVerb, 0x0802, req (0x0802 / 256) (0x0802 % 256) (leBytes 4 7 ++ [1, 0, 0, 0] ++ leBytes 8 9), asks (req (0x0802 / 256) (0x0802 % 256) (leBytes 4 7 ++ [1, 0, 0, 0] ++ leBytes 8 9)) ({ up with geom := { up.geom with banks := [(1, { version := 7, valid := true })] } }), ({ up with geom := { up.geom with banks := [(1, { version := 7, valid := true })] } }), geomPair ({ up with geom := { up.geom with banks := [(1, { version := 7, valid := true })] } }), geomFits ({ up with geom := { up.geom with banks := [(1, { version := 7, valid := true })] } }), .geomSwap (leAt (req (0x0802 / 256) (0x0802 % 256) (leBytes 4 7 ++ [1, 0, 0, 0] ++ leBytes 8 9)).body 0 4), .tail _ (.head _), due rfl rfl, by decide +kernel, by decide +kernel, by decide, by decide +kernel, by decide +kernel, rfl⟩
theorem test_StreamAndCalibrationVerbs_6_1_x3 : ∃ (ch : _) (c : Instr) (v : Verb) (verb : _) (r : _) (s : State) (u : State) (pair : BankPair) (fits : Bool) (change : Change), (c, v, verb, pair, fits, change) ∈ [(Instr.mapActivate ch, mapActivateVerb, 0x0702, mapPair u, true, Change.mapSwap (leAt r.body 0 4)), (.activateGeom ch, activateGeomVerb, 0x0802, geomPair u, geomFits u, .geomSwap (leAt r.body 0 4)), (.activateCurves ch, activateCurvesVerb, 0x0804, curvePair u, true, .curveSwap (leAt r.body 0 4))] ∧ Due v (verb / 256) (verb % 256) ch r s u ∧ u8 r.body 4 ≤ 1 ∧ zeroAt r.body 5 3 = true ∧ (u8 r.body 4 = 1 → leAt r.body 8 8 ≤ u.tim.frameCount + 2 ^ 62) ∧ pair.decide (leAt r.body 0 4) = .swap ∧ u.geom.panelMismatch = false ∧ fits = true :=
  ⟨.drawer .a 0, .activateCurves (.drawer .a 0), activateCurvesVerb, 0x0804, req (0x0804 / 256) (0x0804 % 256) (leBytes 4 7 ++ [1, 0, 0, 0] ++ leBytes 8 9), asks (req (0x0804 / 256) (0x0804 % 256) (leBytes 4 7 ++ [1, 0, 0, 0] ++ leBytes 8 9)) (out ({ · with curves := [(1, { version := 7, valid := true })] })), (out ({ · with curves := [(1, { version := 7, valid := true })] })), curvePair (out ({ · with curves := [(1, { version := 7, valid := true })] })), true, .curveSwap (leAt (req (0x0804 / 256) (0x0804 % 256) (leBytes 4 7 ++ [1, 0, 0, 0] ++ leBytes 8 9)).body 0 4), .tail _ (.tail _ (.head _)), due rfl rfl, by decide +kernel, by decide +kernel, by decide, by decide +kernel, rfl, rfl⟩
theorem test_StreamAndCalibrationVerbs_6_2 : ∃ (ch : _) (c : Instr) (v : Verb) (verb : _) (r : _) (s : State) (u : State) (pair : BankPair) (fits : Bool) (change : Change), (c, v, verb, pair, fits, change) ∈ [(Instr.mapActivate ch, mapActivateVerb, 0x0702, mapPair u, true, Change.mapSwap (leAt r.body 0 4)), (.activateGeom ch, activateGeomVerb, 0x0802, geomPair u, geomFits u, .geomSwap (leAt r.body 0 4)), (.activateCurves ch, activateCurvesVerb, 0x0804, curvePair u, true, .curveSwap (leAt r.body 0 4))] ∧ Due v (verb / 256) (verb % 256) ch r s u ∧ u8 r.body 4 ≤ 1 ∧ zeroAt r.body 5 3 = true ∧ (u8 r.body 4 = 1 → leAt r.body 8 8 ≤ u.tim.frameCount + 2 ^ 62) ∧ pair.decide (leAt r.body 0 4) = .nothing :=
  ⟨.drawer .a 0, .mapActivate (.drawer .a 0), mapActivateVerb, 0x0702, req (0x0702 / 256) (0x0702 % 256) (leBytes 4 7 ++ [1, 0, 0, 0] ++ leBytes 8 9), asks (req (0x0702 / 256) (0x0702 % 256) (leBytes 4 7 ++ [1, 0, 0, 0] ++ leBytes 8 9)) (out ({ · with maps := [(0, { version := 7, valid := true })] })), (out ({ · with maps := [(0, { version := 7, valid := true })] })), mapPair (out ({ · with maps := [(0, { version := 7, valid := true })] })), true, .mapSwap (leAt (req (0x0702 / 256) (0x0702 % 256) (leBytes 4 7 ++ [1, 0, 0, 0] ++ leBytes 8 9)).body 0 4), .head _, due rfl rfl, by decide +kernel, by decide +kernel, by decide, by decide +kernel⟩
theorem test_StreamAndCalibrationVerbs_6_3 : ∃ (ch : _) (c : Instr) (v : Verb) (verb : _) (r : _) (s : State) (u : State) (pair : BankPair) (fits : Bool) (change : Change), (c, v, verb, pair, fits, change) ∈ [(Instr.mapActivate ch, mapActivateVerb, 0x0702, mapPair u, true, Change.mapSwap (leAt r.body 0 4)), (.activateGeom ch, activateGeomVerb, 0x0802, geomPair u, geomFits u, .geomSwap (leAt r.body 0 4)), (.activateCurves ch, activateCurvesVerb, 0x0804, curvePair u, true, .curveSwap (leAt r.body 0 4))] ∧ Due v (verb / 256) (verb % 256) ch r s u ∧ u8 r.body 4 ≤ 1 ∧ zeroAt r.body 5 3 = true ∧ (u8 r.body 4 = 1 → leAt r.body 8 8 ≤ u.tim.frameCount + 2 ^ 62) ∧ pair.decide (leAt r.body 0 4) = .notReady :=
  ⟨.drawer .a 0, .activateCurves (.drawer .a 0), activateCurvesVerb, 0x0804, req (0x0804 / 256) (0x0804 % 256) (leBytes 4 7 ++ [1, 0, 0, 0] ++ leBytes 8 9), asks (req (0x0804 / 256) (0x0804 % 256) (leBytes 4 7 ++ [1, 0, 0, 0] ++ leBytes 8 9)) (up), (up), curvePair (up), true, .curveSwap (leAt (req (0x0804 / 256) (0x0804 % 256) (leBytes 4 7 ++ [1, 0, 0, 0] ++ leBytes 8 9)).body 0 4), .tail _ (.tail _ (.head _)), due rfl rfl, by decide +kernel, by decide +kernel, by decide, by decide +kernel⟩
theorem test_UpdateVerbs_1_1 (f : Bytes) (h : imageCheck up f = none) (hl : f.length ≤ 2 ^ 26) : ∃ (ch : _) (h : _) (r : _) (s : State) (u : State) (f : _) (v : Nat), Due updateStageVerb 0x10 0x01 ch r s u ∧ zeroAt r.body 1 7 = true ∧ objectOf { obj := h } r (r.body.drop 8) u = (.ok, f, v) ∧ u8 r.body 0 = 1 ∧ (v = 0 ∨ v = leAt f 4 4) ∧ imageCheck u f = none ∧ f.length ≤ 2 ^ 26 :=
  ⟨.drawer .a 0, f, req 0x10 0x01 ([1, 0, 0, 0, 0, 0, 0, 0] ++ hostObj f), asks (req 0x10 0x01 ([1, 0, 0, 0, 0, 0, 0, 0] ++ hostObj f)) (up), up, f, 0, due rfl rfl, rfl, objectOf_host (by omega) rfl rfl, rfl, .inl rfl, h, hl⟩
theorem test_UpdateVerbs_1_2 (f : Bytes) (hl : f.length < 2 ^ 32) (h : calIndexOk f = true) (hs : calIndexSigned up f = true) : ∃ (ch : _) (h : _) (r : _) (s : State) (u : State) (f : _) (v : Nat), Due updateStageVerb 0x10 0x01 ch r s u ∧ zeroAt r.body 1 7 = true ∧ objectOf { obj := h } r (r.body.drop 8) u = (.ok, f, v) ∧ u8 r.body 0 = 2 ∧ v = 0 ∧ calIndexOk f = true ∧ calIndexSigned u f = true :=
  ⟨.drawer .a 0, f, req 0x10 0x01 ([2, 0, 0, 0, 0, 0, 0, 0] ++ hostObj f), asks (req 0x10 0x01 ([2, 0, 0, 0, 0, 0, 0, 0] ++ hostObj f)) (up), up, f, 0, due rfl rfl, rfl, objectOf_host (by omega) rfl rfl, rfl, rfl, h, hs⟩
theorem test_UpdateVerbs_1_3 : ∃ (ch : _) (h : _) (r : _) (s : State) (u : State) (f : _) (v : Nat) (e : _), Due updateStageVerb 0x10 0x01 ch r s u ∧ zeroAt r.body 1 7 = true ∧ objectOf { obj := h } r (r.body.drop 8) u = (.ok, f, v) ∧ u8 r.body 0 = 3 ∧ (v = 0 ∨ v = leAt f 4 4) ∧ u.bot.emmcReady = true ∧ (u.bot.calIndex.bind fun x => x.entries.find? fun e => padTo 48 e.digest == padTo 48 (Config.sha384 f)) = some e :=
  ⟨.drawer .a 0, modelFile, req 0x10 0x01 ([3, 0, 0, 0, 0, 0, 0, 0] ++ hostObj modelFile), asks (req 0x10 0x01 ([3, 0, 0, 0, 0, 0, 0, 0] ++ hostObj modelFile)) ((knows modelFile up)), (knows modelFile up), modelFile, 0, { kind := 1, flags := 0, version := 1, lba := 7, len := modelFile.length, digest := Config.sha384 modelFile }, due rfl rfl, rfl, objectOf_host (by decide) rfl rfl, rfl, .inl rfl, rfl, by simp [knows]⟩
theorem test_UpdateVerbs_1_5 : ∃ (ch : _) (h : _) (r : _) (s : State) (u : State) (f : _) (v : Nat), Due updateStageVerb 0x10 0x01 ch r s u ∧ zeroAt r.body 1 7 = true ∧ objectOf { obj := h } r (r.body.drop 8) u = (.ok, f, v) ∧ u8 r.body 0 = 5 ∧ v = 0 ∧ f.length ≤ 2 ^ 16 ∧ Config.certKey f = Config.certKey u.bot.deviceCert :=
  ⟨.drawer .a 0, [], req 0x10 0x01 ([5, 0, 0, 0, 0, 0, 0, 0] ++ hostObj []), asks (req 0x10 0x01 ([5, 0, 0, 0, 0, 0, 0, 0] ++ hostObj [])) (up), up, [], 0, due rfl rfl, rfl, objectOf_host (by decide) rfl rfl, rfl, rfl, by decide, rfl⟩
theorem test_LogAndRightsVerbs_8 : ∃ (p : _) (cert : _) (k : _) (s : State), ((List.range 8).find? fun k => (bindOf s k).1 ≠ 0 && padTo 48 (bindOf s k).2 == padTo 48 (Config.sha384 cert)) = some k ∧ p < 2 ∧ (ethOf s p).link = true ∧ s.hif.walec = .running ∧ s.tim.bench = .off ∧ s.eth.sessions.length < 8 :=
  ⟨0, [1, 2, 3], 7, eth ({ · with ports := [(0, { link := true })], binds := [(7, (5, Config.sha384 [1, 2, 3]))] }), by simp [List.range, List.range.loop, bindOf, eth, Tbl.get, Tbl.find?], by decide, rfl, rfl, rfl, by decide⟩
theorem test_EncoderPictures_3_1 : ∃ (c : CodedPicture) (p : _) (n : _) (s : State), s.enc.picture = some p ∧ refsOk s.enc p c = true ∧ s.enc.inForce.dest = 2 ∧ n = (accessUnit s.enc p c).length ∧ ringPlace s n = none :=
  ⟨blank, { source := {} }, (accessUnit encNoRing.enc { source := {} } blank).length, encNoRing, rfl, by simp [blank, refsOk], rfl, rfl, by simp [ringPlace, encNoRing, enc, up]⟩
theorem test_EncoderPictures_3_2 (h : (accessUnit encRing.enc { source := {} } blank).length ≤ Config.encoderBuffer.2) : ∃ (c : CodedPicture) (p : _) (n : _) (s : State) (k : _), s.enc.picture = some p ∧ refsOk s.enc p c = true ∧ s.enc.inForce.dest = 2 ∧ n = (accessUnit s.enc p c).length ∧ ringPlace s n = some k :=
  ⟨blank, { source := {} }, (accessUnit encRing.enc { source := {} } blank).length, encRing, 0, rfl, by simp [blank, refsOk], rfl, rfl, ringPlace_encRing h⟩
theorem test_BureauArchive_1 (h : 64 + (nextSegmentOf archThen waitingEntry [waitingEntry]).stream.length ≤ 2 ^ 32) : ∃ (u : _) (e : _) (l : _) (s : State), u = (if 4096 ≤ unarchived s then s else advanceTo0 (s.bureau.lastArchive + 600000000000) s) ∧ s.hif.walec = .running ∧ s.bot.emmcReady = true ∧ s.hif.powerDown = false ∧ waitingEntries u = e :: l ∧ 1 ≤ unarchived u ∧ unarchived u ≤ 4096 ∧ archiveUse s.bureau.segments + (64 + (nextSegmentOf u e (e :: l)).stream.length) ≤ 2 ^ 32 :=
  ⟨archThen, waitingEntry, [], archNow, rfl, rfl, rfl, rfl, by decide, by decide, by decide, archived_fits h⟩
theorem test_LogAndRightsVerbs_2 (h : storedSegment.bytes.length ≤ 1000) : ∃ (ch : _) (r : _) (s : State) (u : State) (x : Segment) (a : Nat), Due logFetchVerb 0x0E 0x02 ch r s u ∧ (u.bureau.segments.find? fun x => x.number = leAt r.body 0 4 && x.good) = some x ∧ zeroAt r.body 4 4 = true ∧ u8 r.body 8 = 0 ∧ zeroAt r.body 9 3 = true ∧ zeroAt r.body 28 4 = true ∧ a = leAt r.body 16 8 ∧ x.bytes.length ≤ leAt r.body 12 4 ∧ extentOk u 7 a (leAt r.body 12 4) true = true ∧ u.dmc.mode = .running ∧ (∀ c, (dramChannel u c).retraining = false) :=
  ⟨.drawer .a 0, req 0x0E 0x02 (leBytes 4 3 ++ [0, 0, 0, 0, 0, 0, 0, 0] ++ leBytes 4 1000 ++ leBytes 8 0x4000 ++ [0, 0, 0, 0, 0, 0, 0, 0]), asks (req 0x0E 0x02 (leBytes 4 3 ++ [0, 0, 0, 0, 0, 0, 0, 0] ++ leBytes 4 1000 ++ leBytes 8 0x4000 ++ [0, 0, 0, 0, 0, 0, 0, 0])) ({ up with bureau := { up.bureau with segments := [storedSegment] } }), { up with bureau := { up.bureau with segments := [storedSegment] } }, storedSegment, 0x4000, due rfl rfl, rfl, by decide, by decide, by decide, by decide, by decide, h.trans (by decide), by decide, rfl, quiet⟩
theorem test_StreamAndCalibrationVerbs_1_1 (h : 3 * Config.poolBuffer 8192 16 8 ≤ 2 ^ 33) : ∃ (ch : _) (r : _) (s : State) (u : State) (n : _), Due streamOpenVerb 0x05 0x01 ch r s u ∧ n = u8 r.body 0 ∧ streamOk u r.body = true ∧ (ctxOf u n).role = 0 ∧ admitted u r.body = true ∧ freeQueues u ≠ [] :=
  ⟨.drawer .a 0, req 0x05 0x01 (openBody), asks (req 0x05 0x01 (openBody)) (up), up, 63, due rfl rfl, by decide, by decide, by decide, admitted_open h, freeQueues_up⟩
theorem test_StreamAndCalibrationVerbs_1_2 (h : 3 * Config.poolBuffer 8192 16 8 ≤ 2 ^ 33) : ∃ (ch : _) (r : _) (s : State) (u : State) (n : _), Due streamOpenVerb 0x05 0x01 ch r s u ∧ n = u8 r.body 0 ∧ streamOk u r.body = true ∧ (ctxOf u n).role = 0 ∧ admitted u r.body = true ∧ freeQueues u ≠ [] :=
  ⟨.drawer .a 0, req 0x05 0x01 (openBody), asks (req 0x05 0x01 (openBody)) (up), up, 63, due rfl rfl, by decide, by decide, by decide, admitted_open h, freeQueues_up⟩
theorem test_ResetRequestsAndRecovery_2_1 (f : Bytes) (h : imageCheck up f = none) (hl : f.length < 2 ^ 32) : ∃ (v : Nat) (s : State), portOpen s .a = true ∧ s.bot.mode = .failed ∧ imageCheck s (load s 0 (bits v 31 0)) = none :=
  ⟨f.length, { store 0 f up with bot := { up.bot with mode := .failed } }, rfl, rfl, (congrArg (imageCheck up) (recovery_loads f hl)).trans h⟩

/-! ### A map file: two zlib streams of stored blocks of zeros (R231, R379) -/

theorem readBits_byte (b : Byte) (t : Bytes) (p : Nat) : readBits 8 ⟨bitsOf (b :: t), p⟩ = .ok b.toNat ⟨bitsOf t, p + 8⟩ := by
  have h : ∀ c : Byte, (if c.getLsbD 0 then 1 else 0) + 2 * ((if c.getLsbD 1 then 1 else 0) + 2 * ((if c.getLsbD 2 then 1 else 0) + 2 * ((if c.getLsbD 3 then 1 else 0)
      + 2 * ((if c.getLsbD 4 then 1 else 0) + 2 * ((if c.getLsbD 5 then 1 else 0) + 2 * ((if c.getLsbD 6 then 1 else 0) + 2 * ((if c.getLsbD 7 then 1 else 0) + 2 * 0)))))))
      = c.toNat := by decide +kernel
  rw [← h b]; rfl
theorem readBits_add (m k : Nat) (c : Cur) : readBits (m + k) c = (readBits m c).bind fun v d => (readBits k d).bind fun w e => .ok (v + 2 ^ m * w) e := by
  induction m generalizing c with
  | zero => simp [readBits, Got.bind]; cases readBits k c <;> simp 
  | succ m ih =>
    have st : ∀ n c, readBits (n + 1) c = match c.rest with
        | [] => .need
        | b :: r => (readBits n { rest := r, pos := c.pos + 1 }).bind fun v d => .ok ((if b then 1 else 0) + 2 * v) d := by
      rintro n ⟨_ | ⟨b, r⟩, p⟩
      · rfl
      · simp only [readBits]; cases readBits n ⟨r, p + 1⟩ <;> rfl
    rw [Nat.add_right_comm, st, st]
    split
    · rfl
    · rw [ih]
      cases readBits m _ with
      | ok v d => 
        simp only [Got.bind]
        cases readBits k d
        · simp only [Got.ok.injEq, and_true]; ring
        · rfl
        · rfl
      | need => rfl
      | bad => rfl
theorem readBits_bytes (l : Bytes) (t : Bytes) (p : Nat) : readBits (8 * l.length) ⟨bitsOf (l ++ t), p⟩ = .ok (leValue l) ⟨bitsOf t, p + 8 * l.length⟩ := by
  induction l generalizing p with
  | nil => rfl
  | cons b l ih =>
    rw [List.length_cons, Nat.mul_add, Nat.add_comm, readBits_add, List.cons_append, readBits_byte]
    simp only [Got.bind, ih, leValue]
    simp [Nat.add_assoc]
theorem readBits_lit {n v : Nat} (l : Bytes) (t : Bytes) (p : Nat) (hn : n = 8 * l.length) (hv : leValue l = v) : readBits n ⟨bitsOf (l ++ t), p⟩ = .ok v ⟨bitsOf t, p + n⟩ := by
  subst hn hv; exact readBits_bytes l t p

/-- `q` stored blocks of `k` zeros, none of them the last. -/
def zeroBlocks (k : Nat) : Nat → Bytes
  | 0 => []
  | q + 1 => [0, BitVec.ofNat 8 k, BitVec.ofNat 8 (k / 256), BitVec.ofNat 8 (65535 - k), BitVec.ofNat 8 ((65535 - k) / 256)] ++ (List.replicate k 0 ++ zeroBlocks k q)
/-- The zlib stream of `k * q` zeros. -/
def zeroStream (k q : Nat) : Bytes := [0x78, 0x01] ++ (zeroBlocks k q ++ ([1, 0, 0, 255, 255] ++ (leBytes 4 (adler32 (List.replicate (k * q) 0))).reverse))

theorem adler32_lt (b : Bytes) : adler32 b < 2 ^ 32 := by
  have h : ∀ (b : Bytes) x, x.1 < 65521 → x.2 < 65521 → (b.foldl adlerStep x).1 < 65521 ∧ (b.foldl adlerStep x).2 < 65521 := by
    intro b; induction b with
    | nil => intro x h1 h2; exact ⟨h1, h2⟩
    | cons c r ih => intro x _ _; exact ih _ (Nat.mod_lt _ (by decide)) (Nat.mod_lt _ (by decide))
  have := h b (1, 0) (by decide) (by decide)
  simp only [adler32]; omega

theorem readBlock_stored (f : Bool) (lo hi lo' hi' : Byte) (t : Bytes) (p len : Nat) (hp : p % 8 = 0) (hl : lo.toNat + 256 * hi.toNat = len)
    (hn : lo'.toNat + 256 * hi'.toNat = 65535 - len) (h : len ≤ 65535) :
    readBlock ⟨bitsOf ([if f then 1 else 0, lo, hi, lo', hi'] ++ t), p⟩ = .ok (.stored len f) ⟨bitsOf t, p + 40⟩ := by
  have hd : (8 - (p + 1 + 2) % 8) % 8 = 5 := by omega
  have h1 : readBits 1 ⟨bitsOf ([if f then 1 else 0, lo, hi, lo', hi'] ++ t), p⟩ =
      .ok (if f then 1 else 0) ⟨[false, false, false, false, false, false, false] ++ bitsOf ([lo, hi, lo', hi'] ++ t), p + 1⟩ := by
    cases f <;> rfl
  have h2 : readBits 2 ⟨[false, false, false, false, false, false, false] ++ bitsOf ([lo, hi, lo', hi'] ++ t), p + 1⟩ =
      .ok 0 ⟨[false, false, false, false, false] ++ bitsOf ([lo, hi, lo', hi'] ++ t), p + 1 + 2⟩ := rfl
  have h3 : alignByte ⟨[false, false, false, false, false] ++ bitsOf ([lo, hi, lo', hi'] ++ t), p + 1 + 2⟩ = ⟨bitsOf ([lo, hi] ++ ([lo', hi'] ++ t)), p + 8⟩ := by
    simp only [alignByte, hd]; rfl
  have h4 := readBits_lit (n := 16) (v := len) [lo, hi] ([lo', hi'] ++ t) (p + 8) rfl (by simp only [leValue]; omega)
  have h5 := readBits_lit (n := 16) (v := 65535 - len) [lo', hi'] t (p + 8 + 16) rfl (by simp only [leValue]; omega)
  simp only [readBlock, h1, Got.bind, h2, h3, h4, h5, reduceIte]
  rw [if_neg (by omega)]
  cases f <;> rfl

theorem run_stored (F L fuel k n : Nat) (f : Bool) (out : List Byte) (t : Bytes) (p : Nat) (h : n + k ≤ L) :
    runStream F L (fuel + k) (.stored k f) n out ⟨bitsOf (List.replicate k 0 ++ t), p⟩ =
      runStream F L fuel (.stored 0 f) (n + k) (List.replicate k 0 ++ out) ⟨bitsOf t, p + 8 * k⟩ := by
  induction k generalizing n out p with
  | zero => rfl
  | succ k ih =>
    rw [← Nat.add_assoc fuel, List.replicate_succ, List.cons_append]
    conv_lhs => unfold runStream
    simp only [readBits_byte, Nat.add_one_sub_one]
    rw [if_neg (by omega), if_neg (by omega)]
    have := ih (n + 1) (0 :: out) (p + 8) (by omega)
    have e : List.replicate k (0 : Byte) ++ 0 :: out = 0 :: (List.replicate k 0 ++ out) := by
      rw [← List.singleton_append, ← List.append_assoc, ← List.replicate_succ', List.replicate_succ, List.cons_append]
    rw [e] at this
    rw [show p + 8 * (k + 1) = p + 8 + 8 * k by omega, show n + (k + 1) = n + 1 + k by omega, List.cons_append, ← this]
    rfl

theorem run_block {F L fuel n : Nat} {out : List Byte} {c d : Cur} {ph : Phase} (h : readBlock c = .ok ph d) :
    runStream F L (fuel + 1) .block n out c = runStream F L fuel ph n out d := by rw [runStream, h]
theorem run_end (F L fuel n : Nat) (f : Bool) (out : List Byte) (c : Cur) :
    runStream F L (fuel + 1) (.stored 0 f) n out c = runStream F L fuel (afterBlock f) n out c := by rw [runStream, if_pos rfl]

theorem run_blocks (F L fuel k q n : Nat) (out : List Byte) (t : Bytes) (p : Nat) (hk : k ≤ 65535) (hp : p % 8 = 0) (h : n + k * q ≤ L) :
    runStream F L (fuel + (k + 2) * q) .block n out ⟨bitsOf (zeroBlocks k q ++ t), p⟩ =
      runStream F L fuel .block (n + k * q) (List.replicate (k * q) 0 ++ out) ⟨bitsOf t, p + 8 * (k + 5) * q⟩ := by
  induction q generalizing n out p with
  | zero => rfl
  | succ q ih =>
    have hb := readBlock_stored false (BitVec.ofNat 8 k) (BitVec.ofNat 8 (k / 256)) (BitVec.ofNat 8 (65535 - k)) (BitVec.ofNat 8 ((65535 - k) / 256))
      (List.replicate k 0 ++ (zeroBlocks k q ++ t)) p k hp (by simp only [BitVec.toNat_ofNat]; omega) (by simp only [BitVec.toNat_ofNat]; omega) hk
    rw [Nat.mul_succ] at h
    rw [show fuel + (k + 2) * (q + 1) = fuel + (k + 2) * q + 1 + k + 1 by ring, zeroBlocks, List.append_assoc, List.append_assoc]
    refine (run_block hb).trans ?_
    rw [run_stored _ _ _ _ _ _ _ _ _ (by omega), run_end, show afterBlock false = .block from rfl, ih _ _ _ (by omega) (by omega), ← List.append_assoc, List.replicate_append_replicate]
    rw [show k * q + k = k * (q + 1) by ring, show n + k + k * q = n + k * (q + 1) by ring,
      show p + 40 + 8 * k + 8 * (k + 5) * q = p + 8 * (k + 5) * (q + 1) by ring]
theorem zeroBlocks_length (k q : Nat) : (zeroBlocks k q).length = (k + 5) * q := by
  induction q with
  | zero => rfl
  | succ q ih => simp only [zeroBlocks, List.length_append, List.length_replicate, ih, List.length_cons, List.length_nil]; ring
theorem zeroStream_length (k q : Nat) : (zeroStream k q).length = (k + 5) * q + 11 := by
  simp only [zeroStream, List.length_append, List.length_reverse, zeroBlocks_length, List.length_cons, List.length_nil, leBytes]; omega

theorem swap_bytes {A : Nat} (h : A < 2 ^ 32) : leValue (leBytes 4 A).reverse % 256 * 16777216 + leValue (leBytes 4 A).reverse / 256 % 256 * 65536
    + leValue (leBytes 4 A).reverse / 65536 % 256 * 256 + leValue (leBytes 4 A).reverse / 16777216 = A := by
  obtain ⟨b, c, d, a, rfl, ha, hb, hc, hd⟩ : ∃ b c d a, A = a + 256 * (b + 256 * (c + 256 * d)) ∧ a < 256 ∧ b < 256 ∧ c < 256 ∧ d < 256 :=
    ⟨A / 256 % 256, A / 256 / 256 % 256, A / 256 / 256 / 256, A % 256, by omega, by omega, by omega, by omega, by omega⟩
  have q : ∀ x y : Nat, x < 256 → (x + 256 * y) / 256 = y ∧ (x + 256 * y) % 256 = x := fun x y _ => ⟨by omega, by omega⟩
  have dd : ∀ x : Nat, x / 65536 = x / 256 / 256 ∧ x / 16777216 = x / 256 / 256 / 256 := fun x => ⟨by omega, by omega⟩
  have e : leValue (leBytes 4 (a + 256 * (b + 256 * (c + 256 * d)))).reverse = d + 256 * (c + 256 * (b + 256 * a)) := by
    simp only [leBytes, (q _ _ ha).1, (q _ _ hb).1, (q _ _ hc).1]
    simp [leValue, Nat.mod_eq_of_lt ha, Nat.mod_eq_of_lt hb, Nat.mod_eq_of_lt hc, Nat.mod_eq_of_lt hd]
  rw [e, (dd _).1, (dd _).2, (q _ _ hd).1, (q _ _ hd).2, (q _ _ hc).1, (q _ _ hc).2, (q _ _ hb).1, (q _ _ hb).2]
  omega
theorem zeroStream_inflates (k q L : Nat) (hk : k ≤ 65535) (h : k * q ≤ L) : inflateAll 1 L (zeroStream k q) = some (List.replicate (k * q) 0) := by
  have hh : headerOfFraming 1 (zeroStream k q) = .ok 2 := by
    have hl : ¬ (zeroStream k q).length < 2 := by rw [zeroStream_length]; omega
    have h0 : u8 (zeroStream k q) 0 = 0x78 := rfl
    have h1 : u8 (zeroStream k q) 1 = 1 := rfl
    simp only [headerOfFraming, zlibHeader, hl, h0, h1]; rfl
  obtain ⟨e, he⟩ : ∃ e, 2 * (8 * (zeroStream k q).length + L) + 4 = e + 3 + (k + 2) * q := by
    refine ⟨2 * (8 * (zeroStream k q).length + L) + 1 - (k + 2) * q, ?_⟩
    rw [zeroStream_length, Nat.add_mul, Nat.add_mul]; omega
  have hd : (zeroStream k q).drop 2 = zeroBlocks k q ++ ([1, 0, 0, 255, 255] ++ (leBytes 4 (adler32 (List.replicate (k * q) 0))).reverse) := rfl
  generalize hA : adler32 (List.replicate (k * q) 0) = A at hd
  have hlt : A < 2 ^ 32 := hA ▸ adler32_lt _
  generalize hP : 16 + 8 * (k + 5) * q = P
  have hP8 : P % 8 = 0 := by rw [← hP, Nat.mul_assoc]; omega
  have hr := run_blocks 1 L (e + 3) k q 0 [] ([1, 0, 0, 255, 255] ++ (leBytes 4 A).reverse) 16 hk (by decide) (by omega)
  have hb : readBlock ⟨bitsOf ([1, 0, 0, 255, 255] ++ (leBytes 4 A).reverse), P⟩ = .ok (.stored 0 true) ⟨bitsOf (leBytes 4 A).reverse, P + 40⟩ :=
    readBlock_stored true 0 0 255 255 (leBytes 4 A).reverse P 0 hP8 (by decide) (by decide) (by decide)
  have ht := readBits_lit (n := 32) (v := leValue (leBytes 4 A).reverse) (leBytes 4 A).reverse [] (P + 40) rfl rfl
  have ha : alignByte ⟨bitsOf (leBytes 4 A).reverse, P + 40⟩ = ⟨bitsOf (leBytes 4 A).reverse, P + 40⟩ := by
    simp only [alignByte, show (8 - (P + 40) % 8) % 8 = 0 by omega]; rfl
  rw [List.append_nil] at ht
  have hv : leValue (leBytes 4 A).reverse % 256 * 16777216 + leValue (leBytes 4 A).reverse / 256 % 256 * 65536 + leValue (leBytes 4 A).reverse / 65536 % 256 * 256
      + leValue (leBytes 4 A).reverse / 16777216 = A := swap_bytes hlt
  have hi : Machine.inflate 1 L (zeroStream k q) = { stop := .ended, pos := P + 40 + 32, out := List.replicate (k * q) 0 } := by
    simp only [Machine.inflate, hh, he, hd]
    rw [show 8 * 2 = 16 from rfl, hr, hP, run_block hb, run_end]
    simp only [afterBlock, runStream, reduceIte]
    simp only [runTrailer, ha, ht, hA, hv, List.append_nil, List.reverse_replicate, reduceIte, one_ne_zero]
  simp only [inflateAll, hi, reduceIte, List.reverse_replicate]

theorem leBytes_length (n v : Nat) : (leBytes n v).length = n := by
  induction n generalizing v with
  | zero => rfl
  | succ n ih => rw [leBytes, List.length_cons, ih]
theorem leValue_leBytes (n v : Nat) (h : v < 256 ^ n) : leValue (leBytes n v) = v := by
  induction n generalizing v with
  | zero => rw [Nat.pow_zero] at h; rw [leBytes, leValue]; omega
  | succ n ih =>
    rw [Nat.pow_succ] at h
    rw [leBytes, leValue, ih _ (by omega), BitVec.toNat_ofNat]; omega
theorem leAt_field {h t : Bytes} {n o k : Nat} (ho : h.length = o) (hn : n < 256 ^ k) : leAt (h ++ (leBytes k n ++ t)) o k = n := by
  rw [leAt, ← ho, List.drop_left, List.take_left' (leBytes_length k n), leValue_leBytes k n hn]

/-- A map file with the streams `x` and `y`, whose header gives the CRC-32C of `p` and `q` (R230, R231). -/
def mapHead (x y p q : Bytes) : Bytes :=
  (leBytes 4 0x4D554750 ++ leBytes 4 1 ++ leBytes 8 0) ++ (leBytes 8 x.length ++ (leBytes 8 y.length ++ (leBytes 4 (crc32c p) ++ (leBytes 4 (crc32c q) ++ List.replicate 20 0))))
def mapFile (x y p q : Bytes) : Bytes := mapHead x y p q ++ (leBytes 4 (crc32c (mapHead x y p q)) ++ (x ++ y))

theorem mapHead_length (x y p q : Bytes) : (mapHead x y p q).length = 60 := by simp only [mapHead, List.length_append, leBytes_length, List.length_replicate]
theorem mapFile_length (x y p q : Bytes) : (mapFile x y p q).length = 64 + x.length + y.length := by
  simp only [mapFile, List.length_append, leBytes_length, mapHead_length]; omega
theorem mapFile_fields {x y p q : Bytes} (hx : x.length < 2 ^ 32) (hy : y.length < 2 ^ 32) :
    leAt (mapFile x y p q) 0 4 = 0x4D554750 ∧ leAt (mapFile x y p q) 4 4 = 1 ∧ leAt (mapFile x y p q) 8 8 = 0 ∧ leAt (mapFile x y p q) 16 8 = x.length ∧
    leAt (mapFile x y p q) 24 8 = y.length ∧ leAt (mapFile x y p q) 32 4 = crc32c p ∧ leAt (mapFile x y p q) 36 4 = crc32c q ∧
    zeroAt (mapFile x y p q) 40 20 = true ∧ leAt (mapFile x y p q) 60 4 = crc32c (mapHead x y p q) := by
  have e : ∀ o k, o + k ≤ 60 → leAt (mapFile x y p q) o k = leAt (mapHead x y p q) o k := fun o k h => leAt_append (by rw [mapHead_length]; exact h)
  have z : ∀ o k, o + k ≤ 16 → leAt (mapHead x y p q) o k = leAt (leBytes 4 0x4D554750 ++ leBytes 4 1 ++ leBytes 8 0) o k := fun o k h => leAt_append h
  have c := crc32c_lt
  refine ⟨?_, ?_, ?_, ?_, ?_, ?_, ?_, ?_, ?_⟩
  · rw [e 0 4 (by decide), z 0 4 (by decide)]; decide
  · rw [e 4 4 (by decide), z 4 4 (by decide)]; decide
  · rw [e 8 8 (by decide), z 8 8 (by decide)]; decide
  · rw [e 16 8 (by decide)]; exact leAt_field rfl (by omega)
  · rw [e 24 8 (by decide), mapHead, ← List.append_assoc]; exact leAt_field (by simp [leBytes_length]) (by omega)
  · rw [e 32 4 (by decide), mapHead, ← List.append_assoc, ← List.append_assoc]; exact leAt_field (by simp [leBytes_length]) (c p)
  · rw [e 36 4 (by decide), mapHead, ← List.append_assoc, ← List.append_assoc, ← List.append_assoc]; exact leAt_field (by simp [leBytes_length]) (c q)
  · rw [mapFile, zeroAt_append (by rw [mapHead_length]), mapHead, ← List.append_assoc, ← List.append_assoc, ← List.append_assoc, ← List.append_assoc, zeroAt,
      List.drop_left' (by simp [leBytes_length])]; decide
  · exact leAt_field (mapHead_length ..) (c _)

theorem mapFile_ok (u : State) {x y p q : Bytes} (hx : x.length < 2 ^ 32) (hy : y.length < 2 ^ 32) (hp : inflateAll 1 16588801 x = some p) (hq : inflateAll 1 796262401 y = some q)
    (lp : p.length = 16588800) (lq : q.length = 796262400) : mapFileStatus (knows (mapFile x y p q) u) (mapFile x y p q) 0 = .ok := by
  obtain ⟨f0, f4, f8, f16, f24, f32, f36, z40, f60⟩ := mapFile_fields (p := p) (q := q) hx hy
  have d60 : (mapFile x y p q).take 60 = mapHead x y p q := List.take_left' (mapHead_length ..)
  have d64 : (mapFile x y p q).drop 64 = x ++ y := by
    rw [mapFile, ← List.append_assoc]; exact List.drop_left' (by rw [List.length_append, mapHead_length, leBytes_length])
  have dy : (mapFile x y p q).drop (64 + x.length) = y := by rw [← List.drop_drop, d64, List.drop_left]
  have hm : mapPlanes (mapFile x y p q) = some (p, q) := by
    rw [mapPlanes, d64, f16, dy, List.take_left, hp, hq]; simp [lp, lq]
  have hh : mapHeaderOk (mapFile x y p q) = true := by
    rw [mapHeaderOk, mapFile_length, f0, f4, f16, f24, z40]; simp; omega
  have hs : fileStatus (knows (mapFile x y p q) u) (mapFile x y p q) true true true (some 0) 0 = .ok := by
    have hp : panelStatus (knows (mapFile x y p q) u) 0 = .ok := by simp [panelStatus, knows]
    simp [fileStatus, firstStatus, listed_knows, hp]
  rw [mapFileStatus, hm, hh, d60, f60, f8, f32, f36]
  simp [hs]

theorem test_StreamAndCalibrationVerbs_3 : ∃ (ch : _) (h : _) (r : _) (s : State) (u : State) (f : _) (v : Nat), Due mapLoadVerb 0x07 0x01 ch r s u ∧ mapPending u = false ∧
    objectOf { obj := h } r r.body u = (.ok, f, v) ∧ u.dmc.mode = .running ∧ mapFileStatus u f v = .ok := by
  have hx := zeroStream_inflates 64800 256 16588801 (by decide) (by decide)
  have hy := zeroStream_inflates 64800 12288 796262401 (by decide) (by decide)
  have lx := zeroStream_length 64800 256
  have ly := zeroStream_length 64800 12288
  generalize zeroStream 64800 256 = x at hx lx
  generalize zeroStream 64800 12288 = y at hy ly
  have lp := List.length_replicate (n := 64800 * 256) (a := (0 : Byte))
  have lq := List.length_replicate (n := 64800 * 12288) (a := (0 : Byte))
  generalize List.replicate (64800 * 256) (0 : Byte) = p at hx lp
  generalize List.replicate (64800 * 12288) (0 : Byte) = q at hy lq
  have hf := mapFile_ok up (by omega) (by omega) hx hy lp lq
  have lf := mapFile_length x y p q
  generalize mapFile x y p q = f at hf lf
  exact ⟨.drawer .a 0, f, req 0x07 0x01 (hostObj f), asks (req 0x07 0x01 (hostObj f)) (knows f up), knows f up, f, 0, due rfl rfl, rfl, objectOf_host (by omega) rfl rfl, rfl, hf⟩

/-! ### Witnesses: statements about every command -/

theorem test_EthernetPorts_9 : ∃ (p : _) (k : _) (f : _) (b : _) (r : _) (s : State), k ≠ 5 ∧ inVlan (ethOf s p) f = some b ∧ answerFrame (ethOf s p) k b = some r ∧ (ethOf s p).link ∧ frameOk f :=
  ⟨1, 1, List.replicate 6 255 ++ [2, 0, 0, 0, 0, 9, 8, 6, 0, 1, 8, 0, 6, 4, 0, 1, 2, 0, 0, 0, 0, 9, 10, 0, 0, 9] ++ List.replicate 6 0 ++ [10, 0, 0, 7] ++ List.replicate 18 0, List.replicate 6 255 ++ [2, 0, 0, 0, 0, 9, 8, 6, 0, 1, 8, 0, 6, 4, 0, 1, 2, 0, 0, 0, 0, 9, 10, 0, 0, 9] ++ List.replicate 6 0 ++ [10, 0, 0, 7] ++ List.replicate 18 0, ((answerFrame { link := true, mac := 0x0200_0000_0007, ipv4 := 0x0A000007 } 1 (List.replicate 6 255 ++ [2, 0, 0, 0, 0, 9, 8, 6, 0, 1, 8, 0, 6, 4, 0, 1, 2, 0, 0, 0, 0, 9, 10, 0, 0, 9] ++ List.replicate 6 0 ++ [10, 0, 0, 7] ++ List.replicate 18 0)).get rfl), eth ({ · with ports := [(1, { link := true, mac := 0x0200_0000_0007, ipv4 := 0x0A000007 })] }), by decide +kernel⟩
theorem test_StepKeepsDramCanonical : ∃ (s : State) (t : State), DramCanonical s ∧ step s = .next t :=
  ⟨store 64 [0, 9] up, _, by decide, rfl⟩
theorem test_StepKeepsBureauChain : ∃ (s : State) (t : State), BureauChained s ∧ step s = .next t :=
  ⟨log byWalec 0 1 5 up, _, by decide +kernel, rfl⟩
theorem test_FrameOfEveryCommand : ∃ (c : Instr) (s : State) (t : State), exec c s = .next t :=
  ⟨.d3hotEntry .a, up, _, rfl⟩

end Sys2Proof.Tests
end

section
/-! Proof of O29: a geometry activation that waits refuses every further load and activation (R60), and every reset of the ray engine
leaves the zero set in both banks of both halves (R63). -/

namespace Sys2Proof.Machine

/-! ### An activation that waits (R60) -/

/-- A load meets a pending swap before it looks at its object. -/
theorem runLoad_busy {busy : State → Bool} {u : State} (h : busy u = true) (status : Outside → State → Bytes → Nat → Status) (bank : State → Nat)
    (take : Bytes → State → State) (spoil : State → Bytes → Nat → State) (x : Outside) (r : Request) :
    runLoad busy status bank take spoil x r u = (.busy, [], u) := if_pos h

theorem BankPair.decide_pending {b : BankPair} (h : b.pending = true) (version : Nat) : b.decide version = .busy := if_pos h

/-- An activation meets a pending swap before it looks at the rest of its body. -/
theorem runActivate_busy {pair : State → BankPair} {u : State} (h : (pair u).pending = true) (fits : State → Bool) (change : Nat → Change) (x : Outside) (r : Request) :
    runActivate pair fits change x r u = (.busy, [], u) := by
  unfold runActivate
  dsimp only
  rw [BankPair.decide_pending h]
  rfl

theorem loadGeomVerb_busy {u : State} (h : pendingGeom u ≠ none) (x : Outside) (r : Request) : loadGeomVerb.run x r u = (.busy, [], u) := by
  unfold loadGeomVerb
  dsimp only
  exact runLoad_busy (busy := fun s => (pendingGeom s).isSome) (Option.isSome_iff_ne_none.2 h) ..

theorem activateGeomVerb_busy {u : State} (h : pendingGeom u ≠ none) (x : Outside) (r : Request) : activateGeomVerb.run x r u = (.busy, [], u) :=
  runActivate_busy (pair := geomPair) (Option.isSome_iff_ne_none.2 h) _ _ x r

/-! ### The zero set (R63, R69) -/

/-- The geometry store holds the zero set: no bank of either half is listed, so each reads as the default bank, and bank 0 is active. -/
structure ZeroSets (s : State) : Prop where
  half0 : s.geom.banks = []
  half1 : s.geom.half1 = []
  active : s.geom.active = 0

theorem ZeroSets.kept {l : List Part} {s t : State} (k : Keeps l s t) (hl : Part.geom ∉ l) (h : ZeroSets s) : ZeroSets t := by
  have hg : t.geom = s.geom := k.same.geom_eq hl
  exact ⟨hg ▸ h.half0, hg ▸ h.half1, hg ▸ h.active⟩

theorem ZeroSets.settle {s : State} (h : ZeroSets s) : ZeroSets (settle s) :=
  h.kept (settle_keeps (K := [.ports, .sent]) s (by decide) (Keeps.refl _ _)) (by decide)

theorem ZeroSets.bank_eq {s : State} (h : ZeroSets s) {b : Nat} {g : GeomBank} (hg : g ∈ [geomBank s b, Tbl.get s.geom.half1 {} b]) : g = {} := by
  simpa [geomBank, h.half0, h.half1, Tbl.get, Tbl.find?] using hg

/-- The two lowest bits of RAY_GEOM_STATUS are the valid marks of the banks (R69). -/
theorem bits_regGeom_valid (s : State) : bits (regGeom s) 1 0 = flagOf (geomBank s 0).valid + 2 * flagOf (geomBank s 1).valid := by
  have flag_le (b : Bool) : flagOf b ≤ 1 := by cases b <;> decide
  have h0 := flag_le (geomBank s 0).valid
  have h1 := flag_le (geomBank s 1).valid
  simp only [bits, regGeom, fields, fieldAt, List.map_cons, List.map_nil, List.sum_cons, List.sum_nil]
  omega

theorem ZeroSets.valid_bits {s : State} (h : ZeroSets s) : bits (regGeom s) 1 0 = 3 := by
  rw [bits_regGeom_valid, h.bank_eq (b := 0) (List.mem_cons_self ..), h.bank_eq (b := 1) (List.mem_cons_self ..)]
  rfl

/-! ### Resets of the ray engine -/

theorem coldState_zeroSets (cause : ResetCause) (s : State) : ZeroSets (coldState cause s) := by
  unfold coldState
  split <;> exact ⟨rfl, rfl, rfl⟩

theorem resetSets_zeroSets (s : State) : ZeroSets (resetSets s) := ⟨rfl, rfl, rfl⟩

/-- What a warm reset may still write once the sets are reset: the geometry store is not among it. -/
abbrev afterSetsParts : List Part :=
  [.tim, .bases, .eth, .tlk, .dec, .enc, .blt, .dfl, .dmc, .dram, .ports, .queues, .health, .bureau, .pwr, .bot, .pins, .sent]

theorem quiesce_keeps (s : State) : Keeps afterSetsParts s (countRestart (holdSites (dropDomains (stopEngines s)))) :=
  countRestart_keeps _ (by decide) <| holdSites_keeps _ (by decide) <| dropDomains_keeps _ (by decide) <| stopEngines_keeps _ (by decide) <| Keeps.refl _ _

theorem warmReset_zeroSets (cause : ResetCause) (s : State) : ZeroSets (warmReset cause s) := by
  unfold warmReset
  extract_lets halted noted hif walec spr planned dropped held
  have hheld : Keeps afterSetsParts (resetSets (resetRay (stopRaster planned))) held := quiesce_keeps _
  exact (resetSets_zeroSets _).kept (Keeps.ite hheld (releaseWarm_keeps _ (by decide) hheld)) (by decide)

/-! ### The commands that reset the ray engine -/

theorem Leads.imp {c : Instr} {s : State} {p q : State → Prop} (h : Leads c s p) (hpq : ∀ t, p t → q t) : Leads c s q :=
  let ⟨t, ht, hp⟩ := h
  ⟨t, ht, hpq t hp⟩

/-- A command whose effect leaves the zero set leads to the zero set. -/
theorem leads_zeroSets {c : Instr} {s u : State} (h : exec c s = done u) (hu : ZeroSets u) : Leads c s ZeroSets := leads_done h hu.settle

/-- The same for an event whose condition holds. -/
theorem leads_zeroSets_of_event {c : Instr} {s u : State} {cond : Bool} (h : exec c s = done (ifEvent cond u s)) (hc : cond = true) (hu : ZeroSets u) :
    Leads c s ZeroSets := by
  refine leads_zeroSets h ?_
  rw [hc]
  exact hu

theorem execPowerOnReset_zeroSets (k : ResetCause) (s : State) : Leads (.powerOnReset k) s ZeroSets := leads_zeroSets rfl (coldState_zeroSets k s)

theorem execWarmReset_zeroSets (k : ResetCause) {s : State} (hp : s.pwr.porst = false) (hc : s.clk.chosen = true) : Leads (.warmReset k) s ZeroSets :=
  leads_zeroSets_of_event rfl (by simp [hp, hc]) (warmReset_zeroSets ..)

theorem execSupplyExcursion_zeroSets (rail : Nat) {s : State} (hp : s.pwr.porst = false) (hc : s.clk.chosen = true) : Leads (.supplyExcursion rail) s ZeroSets :=
  leads_zeroSets_of_event rfl (by simp [hp, hc]) (warmReset_zeroSets ..)

theorem execWardrobeReset_zeroSets {s : State} (ht : s.walec.stoppedAt.isSome = true) (hr : s.hif.walec = .restarting) (hh : s.pwr.supplyHold = none) :
    Leads .wardrobeReset s ZeroSets := by
  obtain ⟨t0, ht⟩ := Option.isSome_iff_exists.1 ht
  have he : execWardrobeReset s = done (ifEvent (s.hif.walec == .restarting && s.pwr.supplyHold.isNone)
      (warmReset .wardrobe (log (hw 12) 0 0xD6 10000 (advanceTo0 (t0 + 10000000000) s))) s) := by
    unfold execWardrobeReset
    rw [ht]
  exact leads_zeroSets_of_event he (by simp [hr, hh]) (warmReset_zeroSets ..)

theorem execWarm_zeroSets (p : Port) (v : Nat) {s : State} (hp : portOpen s p = true) (ha : resetAction s p v 0 = true) : Leads (.warm p v) s ZeroSets :=
  leads_zeroSets_of_event rfl (by simp [hp, ha]) (warmReset_zeroSets ..)

theorem requestCold_zeroSets (p : Port) (s : State) : ZeroSets (requestCold p s) := by
  obtain ⟨h0, h1, ha⟩ := coldState_zeroSets .cold { s with pwr := { s.pwr with lastPort := p.num } }
  exact ⟨h0, h1, ha⟩

theorem execCold_zeroSets (p : Port) (v : Nat) {s : State} (hp : portOpen s p = true) (ha : resetAction s p v 1 = true) : Leads (.cold p v) s ZeroSets :=
  leads_zeroSets_of_event rfl (by simp [hp, ha]) (requestCold_zeroSets p s)

theorem recoverClocks_zeroSets (r : Port) (s : State) : ZeroSets (recoverClocks r s) := by
  unfold recoverClocks
  exact warmReset_zeroSets ..

theorem execRefQualified_zeroSets (r : Port) {s : State} (hq : (refOf s r).qual = false) (hc : s.clk.chosen = true) (he : s.clk.phase = .expired) :
    Leads (.refQualified r) s ZeroSets := by
  refine leads_zeroSets (u := recoverClocks r (log (hw 9) r.num 0xB1 1 (setRef r { refOf s r with qual := true, lock := true, stopped := false } s))) ?_
    (recoverClocks_zeroSets ..)
  change execRefQualified r s = _
  simp [execRefQualified, ifEvent, hq, hc, he]

/-! ### The obligation -/

/-- Settles O29: a load and an activation that meet a pending swap are refused before anything else of them is looked at, and the geometry store is
written by no part of a reset after the zero set stands in it. -/
theorem geometrySets : Obligations.GeometrySets := by
  unfold Obligations.GeometrySets
  refine ⟨fun ch h bad r s u hp hd => ?_, fun ch r s u hp hd => ?_, fun c s hc => ?_⟩
  · exact serve_runs (by decide) hd rfl (loadGeomVerb_busy hp ..) (by decide) (by decide) (by decide) rfl
  · exact serve_runs (by decide) hd rfl (activateGeomVerb_busy hp ..) (by decide) (by decide) (by decide) rfl
  · have zero : Leads c s ZeroSets := by
      rcases hc with ⟨k, rfl⟩ | ⟨⟨k, rfl⟩, hp, hc⟩ | ⟨⟨n, rfl⟩, hp, hc⟩ | ⟨rfl, ht, hw, hh⟩ | ⟨p, v, rfl, hp, ha⟩ | ⟨p, v, rfl, hp, ha⟩ | ⟨⟨r, rfl, hq⟩, hc, he⟩
      · exact execPowerOnReset_zeroSets k s
      · exact execWarmReset_zeroSets k hp hc
      · exact execSupplyExcursion_zeroSets n hp hc
      · exact execWardrobeReset_zeroSets ht hw hh
      · exact execWarm_zeroSets p v hp ha
      · exact execCold_zeroSets p v hp ha
      · exact execRefQualified_zeroSets r hq hc he
    refine zero.imp fun t ht => ⟨ht.active, ht.valid_bits, fun b _ g hg => ?_⟩
    rw [ht.bank_eq hg]
    exact ⟨rfl, rfl, rfl, fun _ => rfl, fun _ => ⟨rfl, rfl, rfl, rfl⟩⟩

end Sys2Proof.Machine
end

section
/-! Proof of O14. The doorbell of a queue: which writes R469 refuses, and what a write leaves in the queue's context and in its port (R468, R469). -/

namespace Sys2Proof.Machine

/-! ### Which doorbells are refused -/

/-- A field of a doorbell fails its check when it is marked valid and its index is out of the ring or the move is too far. -/
theorem fieldCheck_eq_false {valid inRing inReach : Bool} :
    (!valid || (inRing && inReach)) = false ↔ valid = true ∧ inRing = false ∨ valid = true ∧ inReach = false := by
  simp only [Bool.or_eq_false_iff, Bool.not_eq_false', Bool.and_eq_false_iff, and_or_left]

/-- The five checks of R469, each refuted: the queue's state, its port, its GEN, SQ_TAIL and CQ_HEAD. -/
theorem doorbellOk_eq_false (p : Port) (q v : Nat) (s : State) :
    doorbellOk s p q v = false ↔
      (((queueState s q ≠ .active ∨ (queueOf s q).port ≠ p) ∨ bits v 63 60 ≠ (queueOf s q).gen) ∨
        (bit v 32 = true ∧ (queueOf s q).sqSize ≤ bits v 15 0 ∨
          bit v 32 = true ∧ (bits v 15 0 + (queueOf s q).sqSize - (queueOf s q).sqHead) % (queueOf s q).sqSize <
            ((queueOf s q).sqTail + (queueOf s q).sqSize - (queueOf s q).sqHead) % (queueOf s q).sqSize)) ∨
      (bit v 33 = true ∧ (queueOf s q).cqSize ≤ bits v 31 16 ∨
        bit v 33 = true ∧ unconsumed (queueOf s q) < (bits v 31 16 + (queueOf s q).cqSize - (queueOf s q).cqHead) % (queueOf s q).cqSize) := by
  simp only [doorbellOk, Bool.and_eq_false_iff, fieldCheck_eq_false, beq_eq_false_iff_ne, decide_eq_false_iff_not, not_lt, not_le]

/-! ### What a doorbell does -/

/-- A doorbell that is accepted takes each field marked valid; of the rest of the context only the coalescing times may move. -/
theorem queueDoorbell_accepted {p : Port} {q v : Nat} {s : State} (h : doorbellOk s p q v = true) :
    ∃ since, queueOf (queueDoorbell p q v s) q =
      { queueOf s q with
        sqTail := if bit v 32 then bits v 15 0 else (queueOf s q).sqTail
        cqHead := if bit v 33 then bits v 31 16 else (queueOf s q).cqHead
        since } := by
  unfold queueDoorbell
  rw [if_pos h]
  cases bit v 32 <;> cases bit v 33 <;> exact ⟨_, queueOf_setQueue_self ..⟩

/-- A doorbell that is refused is counted in the queue and shown in the port. -/
theorem queueDoorbell_refused {p : Port} {q v : Nat} {s : State} (h : doorbellOk s p q v = false) :
    queueOf (queueDoorbell p q v s) q = { queueOf s q with dbRefused := satAdd 8 (queueOf s q).dbRefused 1 } ∧
    (portOf (queueDoorbell p q v s) p).dbRefusedSeen = true := by
  unfold queueDoorbell
  rw [if_neg (by simp [h])]
  exact ⟨by rw [queueOf_setPort, queueOf_setQueue_self], by simp⟩

/-- On an open port both doorbell commands lead to the write's settled effect. -/
theorem leads_doorbell {p : Port} {q v : Nat} {s : State} {c : Instr} {P : State → Prop} (ho : portOpen s p = true)
    (hc : c = .sqDoorbell p q v ∨ c = .cqDoorbell p q v) (hP : P (settle (queueDoorbell p q v s))) : Leads c s P := by
  rcases hc with rfl | rfl <;> exact leads_done (congrArg done (if_pos ho)) hP

/-! ### The obligation -/

/-- Settles O14: both doorbell commands do one write, which R469's checks either let through to the fields marked valid or turn into a count. -/
theorem queueDoorbells : Obligations.QueueDoorbells := by
  unfold Obligations.QueueDoorbells
  refine ⟨fun p q v s c ho hc => ⟨fun hok => ?accepted, fun hok => ?refused⟩, fun p q v s => ?refusals⟩
  case accepted =>
    obtain ⟨since, hq⟩ := queueDoorbell_accepted hok
    exact leads_doorbell ho hc (by simp [hq])
  case refused =>
    obtain ⟨hq, hp⟩ := queueDoorbell_refused hok
    exact leads_doorbell ho hc ⟨by rw [queueOf_settle, hq], by simp [hp]⟩
  case refusals =>
    rw [doorbellOk_eq_false]
    tauto

end Sys2Proof.Machine
end

section
/-! Proof of O23. The registers of the time bases, and what CAPTURE writes into them (R520, R543). -/

namespace Sys2Proof.Tbl

/-- A table listed from a function reads back the function at every listed index. -/
theorem get_map {α : Type} {l : List Nat} {n : Nat} (h : n ∈ l) (f : Nat → α) (d : α) : get (l.map fun k => (k, f k)) d n = f n := by
  induction l with
  | nil => cases h
  | cons k r ih =>
    by_cases hk : k = n
    · simp [get, find?, hk]
    · simpa [get, find?, hk] using ih ((List.mem_cons.1 h).resolve_left (Ne.symm hk))

end Sys2Proof.Tbl

namespace Sys2Proof.Machine

/-! ### A register from its fields -/

theorem fields_nil : fields [] = 0 := rfl

theorem fields_cons (v w l : Nat) (r : List (Nat × Nat × Nat)) : fields ((v, w, l) :: r) = v % 2 ^ w * 2 ^ l + fields r := by
  simp [fields, fieldAt]

/-- Field n of TIM_TB_CAP_FRAC is the fraction of base n. -/
theorem bits_regCapFrac {n : Nat} (h : n < 4) (c : Capture) : bits (regCapFrac c) (16 * n + 15) (16 * n) = Tbl.get c.frac 0 n % 65536 := by
  have listed : regCapFrac c =
      fields [(Tbl.get c.frac 0 0, 16, 0), (Tbl.get c.frac 0 1, 16, 16), (Tbl.get c.frac 0 2, 16, 32), (Tbl.get c.frac 0 3, 16, 48)] := rfl
  simp only [bits, listed, fields_cons, fields_nil]
  interval_cases n <;> omega

/-! ### Which register lies where (R543) -/

theorem readRegister_base {n : Nat} (h : n < 4) (s : State) (p : Port) : readRegister s p (0x108040 + 8 * n) = tbNs s n := by
  interval_cases n <;> rfl

theorem readRegister_capture {n : Nat} (h : n < 4) (s : State) (p : Port) : readRegister s p (0x108070 + 8 * n) = Tbl.get (captureOf s p).ns 0 n := by
  interval_cases n <;> rfl

theorem readRegister_capFrac (s : State) (p : Port) : readRegister s p 0x108068 = regCapFrac (captureOf s p) := by
  have window : windowRead s p 8 0x68 = some (regCapFrac (captureOf s p)) := rfl
  change (windowRead s p 8 0x68).getD 0 = _
  rw [window, Option.getD_some]

/-! ### What a capture leaves in the registers of the two ports -/

@[simp] theorem captureOf_settle (s : State) (p : Port) : captureOf (settle s) p = captureOf s p := by simp [captureOf]

theorem captureOf_captureAll_ns {n : Nat} (h : n < 4) (p : Port) (s : State) : Tbl.get (captureOf (captureAll p s) p).ns 0 n = tbNs s n := by
  simp only [captureOf, captureAll, Tbl.get_set_self, Tbl.get_map (List.mem_range.2 h)]

theorem captureOf_captureAll_frac {n : Nat} (h : n < 4) (p : Port) (s : State) :
    Tbl.get (captureOf (captureAll p s) p).frac 0 n = tbU s n % 65536 := by
  simp only [captureOf, captureAll, Tbl.get_set_self, Tbl.get_map (List.mem_range.2 h)]

theorem captureOf_captureAll_other (p : Port) (s : State) : captureOf (captureAll p s) p.other = captureOf s p.other := by
  have apart : p.other.num ≠ p.num := by cases p <;> decide
  exact Tbl.get_set_ne apart ..

/-- A write of 1 to CAPTURE through an open port leads to the settled capture. -/
theorem leads_capture {p : Port} {v : Nat} {s : State} {P : State → Prop} (ho : portOpen s p = true) (hv : bit v 0 = true)
    (hP : P (settle (captureAll p s))) : Leads (.capture p v) s P :=
  leads_done (congrArg done (if_pos (by simp [ho, hv]))) hP

/-! ### The obligation -/

/-- Settles O23: the registers read the bases and the port's capture, and a capture lists all four bases for the port that writes alone. -/
theorem captureTakesAllBases : Obligations.CaptureTakesAllBases := by
  unfold Obligations.CaptureTakesAllBases
  refine ⟨fun s p n hn => readRegister_base hn s p, fun p v s ho hv => leads_capture ho hv ⟨fun n hn => ⟨?ns, ?frac⟩, fun n hn => ?otherNs, ?otherFrac⟩⟩
  case ns => rw [readRegister_capture hn, captureOf_settle, captureOf_captureAll_ns hn]
  case frac => rw [readRegister_capFrac, bits_regCapFrac hn, captureOf_settle, captureOf_captureAll_frac hn, Nat.mod_mod]
  case otherNs => rw [readRegister_capture hn, readRegister_capture hn, captureOf_settle, captureOf_captureAll_other]
  case otherFrac => rw [readRegister_capFrac, readRegister_capFrac, captureOf_settle, captureOf_captureAll_other]

end Sys2Proof.Machine
end

section
/-! Proofs of O1, O3, O4, O5, O6, O7 and O8: what one step does, and what every step keeps. -/

namespace Sys2Proof.Machine

/-! ### The frame of every command -/

/-- No command writes a part outside its list, and each keeps the form of the DRAM, the Bureau's chain and the queue. -/
theorem exec_keeps (c : Instr) (s : State) : Out.Keeps (mayWrite c) s (exec c s) := by
  cases c with
  | frameTick => exact execFrameTick_keeps s
  | lineStart sub line obs => exact execLineStart_keeps sub line obs s
  | startLatch => exact execStartLatch_keeps s
  | rasterStart => exact execRasterStart_keeps s
  | configurationConfirm => exact execConfigurationConfirm_keeps s
  | retrainComplete channel ok => exact execRetrainComplete_keeps channel ok s
  | spareBind row => exact execSpareBind_keeps row s
  | clusterFault row => exact execClusterFault_keeps row s
  | laneTimeout row lane => exact execLaneTimeout_keeps row lane s
  | unboundClusterFault cluster => exact execUnboundClusterFault_keeps cluster s
  | shadowCheck spare row line mine bound second => exact execShadowCheck_keeps spare row line mine bound second s
  | clusterResetComplete row => exact execClusterResetComplete_keeps row s
  | witnessPictureStart => exact execWitnessPictureStart_keeps s
  | witnessPictureComplete source => exact execWitnessPictureComplete_keeps source s
  | encodeStart => exact execEncodeStart_keeps s
  | encodeComplete coded => exact execEncodeComplete_keeps coded s
  | rtcpSenderReport => exact execRtcpSenderReport_keeps s
  | encoderFault => exact execEncoderFault_keeps s
  | trainFrame link groups => exact execTrainFrame_keeps link groups s
  | identFrame link groups => exact execIdentFrame_keeps link groups s
  | statusFrame link groups => exact execStatusFrame_keeps link groups s
  | cwLockLoss link => exact execCwLockLoss_keeps link s
  | trainingTimeout link => exact execTrainingTimeout_keeps link s
  | failedRetrain link => exact execFailedRetrain_keeps link s
  | statusStale link => exact execStatusStale_keeps link s
  | linkSecond => exact execLinkSecond_keeps s
  | decodePictureStart core au => exact execDecodePictureStart_keeps core au s
  | rowBudget core ctus => exact execRowBudget_keeps core ctus s
  | picWatchdog core ctus => exact execPicWatchdog_keeps core ctus s
  | pictureComplete core => exact execPictureComplete_keeps core s
  | coreFault core => exact execCoreFault_keeps core s
  | corePictureTimeout core => exact execCorePictureTimeout_keeps core s
  | contextMoveComplete core => exact execContextMoveComplete_keeps core s
  | conversionStart ctx => exact execConversionStart_keeps ctx s
  | pairWaitExpiry ctx => exact execPairWaitExpiry_keeps ctx s
  | conversionComplete ctx => exact execConversionComplete_keeps ctx s
  | bltCommandIssue q hostCmd => exact execBltCommandIssue_keeps q hostCmd s
  | bltCommandEnd cmd => exact execBltCommandEnd_keeps cmd s
  | bltEngineFault => exact execBltEngineFault_keeps s
  | flattenRestart group => exact execFlattenRestart_keeps group s
  | dflJobStart q hostDesc => exact execDflJobStart_keeps q hostDesc s
  | dflJobEnd lane => exact execDflJobEnd_keeps lane s
  | dflEngineFault => exact execDflEngineFault_keeps s
  | dramRead requester addr len ecc => exact execDramRead_keeps requester addr len ecc s
  | dramWrite requester addr data ecc => exact execDramWrite_keeps requester addr data ecc s
  | refreshTick channel => exact execRefreshTick_keeps channel s
  | refreshIssue channel pairIdle => exact execRefreshIssue_keeps channel pairIdle s
  | mr4Poll readings => exact execMr4Poll_keeps readings s
  | patrolScrub line ecc => exact execPatrolScrub_keeps line ecc s
  | ceHourEval => exact execCeHourEval_keeps s
  | dramErrorSummary => exact execDramErrorSummary_keeps s
  | selfRefreshEntry busy => exact execSelfRefreshEntry_keeps busy s
  | selfRefreshRetry channel => exact execSelfRefreshRetry_keeps channel s
  | selfRefreshExit => exact execSelfRefreshExit_keeps s
  | dramInit answered good => exact execDramInit_keeps answered good s
  | migrationChunk badLines targetError => exact execMigrationChunk_keeps badLines targetError s
  | pcieLinkDown p => exact execPcieLinkDown_keeps p s
  | perst p => exact execPerst_keeps p s
  | functionLevelReset p => exact execFunctionLevelReset_keeps p s
  | d3hotEntry p => exact execD3hotEntry_keeps p s
  | portLinkUp p speed width => exact execPortLinkUp_keeps p speed width s
  | kick p n value => exact execKick_keeps p n value s
  | abort p n value => exact execAbort_keeps p n value s
  | ack p n value => exact execAck_keeps p n value s
  | walecTakesRequest p n => exact execWalecTakesRequest_keeps p n s
  | walecResponse p n => exact execWalecResponse_keeps p n s
  | sqDoorbell p q value => exact execSqDoorbell_keeps p q value s
  | cqDoorbell p q value => exact execCqDoorbell_keeps p q value s
  | queueEntryFetch q hostEntry => exact execQueueEntryFetch_keeps q hostEntry s
  | coalesceTimeout q => exact execCoalesceTimeout_keeps q s
  | renew p value => exact execRenew_keeps p value s
  | claim p value => exact execClaim_keeps p value s
  | release p value => exact execRelease_keeps p value s
  | leaseExpiry p => exact execLeaseExpiry_keeps p s
  | bar2Read p off len ecc => exact execBar2Read_keeps p off len ecc s
  | bar2Write p off data ecc => exact execBar2Write_keeps p off data ecc s
  | registerWrite p off width value => exact execRegisterWrite_keeps p off width value s
  | capture p value => exact execCapture_keeps p value s
  | warm p value => exact execWarm_keeps p value s
  | cold p value => exact execCold_keeps p value s
  | switchRef p value => exact execSwitchRef_keeps p value s
  | botRecoveryWrite p value => exact execBotRecoveryWrite_keeps p value s
  | serviceQueueRequest q hostMsg => exact execServiceQueueRequest_keeps q hostMsg s
  | serviceQueueCommit q hostMsg => exact execServiceQueueCommit_keeps q hostMsg s
  | serviceQueueFence q => exact execServiceQueueFence_keeps q s
  | deviceStatus ch => exact execDeviceStatus_keeps ch s
  | devicePut ch => exact execDevicePut_keeps ch s
  | deviceGet ch => exact execDeviceGet_keeps ch s
  | queueCreate ch => exact execQueueCreate_keeps ch s
  | queueReset ch => exact execQueueReset_keeps ch s
  | queueDelete ch => exact execQueueDelete_keeps ch s
  | queueAttach ch => exact execQueueAttach_keeps ch s
  | deviceDark ch => exact execDeviceDark_keeps ch s
  | deviceDarkResume ch => exact execDeviceDarkResume_keeps ch s
  | powerDown ch storesOk => exact execPowerDown_keeps ch storesOk s
  | modeSet ch => exact execModeSet_keeps ch s
  | benchLoad ch hostObj => exact execBenchLoad_keeps ch hostObj s
  | modeSchedule ch => exact execModeSchedule_keeps ch s
  | modePut ch => exact execModePut_keeps ch s
  | modeGet ch => exact execModeGet_keeps ch s
  | layerCommit ch hostObj => exact execLayerCommit_keeps ch hostObj s
  | layerResult ch => exact execLayerResult_keeps ch s
  | layerQuery ch => exact execLayerQuery_keeps ch s
  | scenePut ch => exact execScenePut_keeps ch s
  | sceneGet ch => exact execSceneGet_keeps ch s
  | streamOpen ch => exact execStreamOpen_keeps ch s
  | streamClose ch => exact execStreamClose_keeps ch s
  | witnessPut ch => exact execWitnessPut_keeps ch s
  | witnessGet ch => exact execWitnessGet_keeps ch s
  | mapLoad ch hostObj => exact execMapLoad_keeps ch hostObj s
  | mapActivate ch => exact execMapActivate_keeps ch s
  | mapPut ch => exact execMapPut_keeps ch s
  | mapGet ch => exact execMapGet_keeps ch s
  | loadGeom ch hostObj => exact execLoadGeom_keeps ch hostObj s
  | activateGeom ch => exact execActivateGeom_keeps ch s
  | loadCurves ch hostObj => exact execLoadCurves_keeps ch hostObj s
  | activateCurves ch => exact execActivateCurves_keeps ch s
  | stressReport ch => exact execStressReport_keeps ch s
  | stressResolve ch => exact execStressResolve_keeps ch s
  | modelLoad ch hostObj => exact execModelLoad_keeps ch hostObj s
  | stressPut ch => exact execStressPut_keeps ch s
  | stressGet ch => exact execStressGet_keeps ch s
  | sigRegion ch => exact execSigRegion_keeps ch s
  | sigRelease ch => exact execSigRelease_keeps ch s
  | sigQuery ch => exact execSigQuery_keeps ch s
  | timePut ch => exact execTimePut_keeps ch s
  | timeGet ch => exact execTimeGet_keeps ch s
  | timeEventSet ch => exact execTimeEventSet_keeps ch s
  | timeEventCancel ch => exact execTimeEventCancel_keeps ch s
  | timeEventQuery ch => exact execTimeEventQuery_keeps ch s
  | thermPut ch => exact execThermPut_keeps ch s
  | thermGet ch => exact execThermGet_keeps ch s
  | thermAck ch => exact execThermAck_keeps ch s
  | migrate ch => exact execMigrate_keeps ch s
  | restoreLink ch => exact execRestoreLink_keeps ch s
  | sparePut ch => exact execSparePut_keeps ch s
  | spareGet ch => exact execSpareGet_keeps ch s
  | spareReport ch => exact execSpareReport_keeps ch s
  | logRead ch => exact execLogRead_keeps ch s
  | logFetch ch => exact execLogFetch_keeps ch s
  | logStatus ch => exact execLogStatus_keeps ch s
  | logClear ch => exact execLogClear_keeps ch s
  | logArchive ch => exact execLogArchive_keeps ch s
  | drawerClass ch => exact execDrawerClass_keeps ch s
  | ethBind ch => exact execEthBind_keeps ch s
  | rightsPut ch => exact execRightsPut_keeps ch s
  | rightsGet ch => exact execRightsGet_keeps ch s
  | updateStage ch hostObj => exact execUpdateStage_keeps ch hostObj s
  | updateSwitch ch => exact execUpdateSwitch_keeps ch s
  | updateStatus ch => exact execUpdateStatus_keeps ch s
  | ethSessionOpen port certificate => exact execEthSessionOpen_keeps port certificate s
  | walecStop cause => exact execWalecStop_keeps cause s
  | lockstepMismatch odd => exact execLockstepMismatch_keeps odd s
  | watchdogExpiry => exact execWatchdogExpiry_keeps s
  | walecReady => exact execWalecReady_keeps s
  | walecTimeout => exact execWalecTimeout_keeps s
  | wardrobeReset => exact execWardrobeReset_keeps s
  | tripleExit => exact execTripleExit_keeps s
  | walecBeat => exact execWalecBeat_keeps s
  | unitSelfTest u pass => exact execUnitSelfTest_keeps u pass s
  | sramRepair domain row word => exact execSramRepair_keeps domain row word s
  | autoMigrate sites => exact execAutoMigrate_keeps sites s
  | autoRestore link => exact execAutoRestore_keeps link s
  | geomDedReload file => exact execGeomDedReload_keeps file s
  | stressUpdate => exact execStressUpdate_keeps s
  | ledgerPersist => exact execLedgerPersist_keeps s
  | outagePersist => exact execOutagePersist_keeps s
  | archiveSegment => exact execArchiveSegment_keeps s
  | bureauSecondSummary => exact execBureauSecondSummary_keeps s
  | benchScheduleAction entry => exact execBenchScheduleAction_keeps entry s
  | scheduleMissed entry => exact execScheduleMissed_keeps entry s
  | benchExitReady => exact execBenchExitReady_keeps s
  | benchExitTimeout => exact execBenchExitTimeout_keeps s
  | outageMs => exact execOutageMs_keeps s
  | servoSample ptp ptm => exact execServoSample_keeps ptp ptm s
  | ptmDialogue p => exact execPtmDialogue_keeps p s
  | ptmResponsed p masterTime propDelay => exact execPtmResponsed_keeps p masterTime propDelay s
  | eventSlotFire slot => exact execEventSlotFire_keeps slot s
  | sync m => exact execSync_keeps m s
  | followUp m => exact execFollowUp_keeps m s
  | delayResp m => exact execDelayResp_keeps m s
  | pdelayResp m => exact execPdelayResp_keeps m s
  | announce m => exact execAnnounce_keeps m s
  | delayReq m => exact execDelayReq_keeps m s
  | announceReceiptTimeout port => exact execAnnounceReceiptTimeout_keeps port s
  | syncTransmit port => exact execSyncTransmit_keeps port s
  | frameRelay port kind frame residence full => exact execFrameRelay_keeps port kind frame residence full s
  | sensorConversion n raw => exact execSensorConversion_keeps n raw s
  | pairDisagree n => exact execPairDisagree_keeps n s
  | stepperEval => exact execStepperEval_keeps s
  | shutdownNorIdle waitedUs eraseSuspended => exact execShutdownNorIdle_keeps waitedUs eraseSuspended s
  | shutdownNorTimeout => exact execShutdownNorTimeout_keeps s
  | shutdownRecordWritten => exact execShutdownRecordWritten_keeps s
  | shutdownTripTimeout => exact execShutdownTripTimeout_keeps s
  | missingPulse r => exact execMissingPulse_keeps r s
  | windowTrip r => exact execWindowTrip_keeps r s
  | refQualified r => exact execRefQualified_keeps r s
  | refRestart gapNs => exact execRefRestart_keeps gapNs s
  | holdExpiry => exact execHoldExpiry_keeps s
  | pllLockLoss pll => exact execPllLockLoss_keeps pll s
  | powerOnReset cause => exact execPowerOnReset_keeps cause s
  | warmReset cause => exact execWarmReset_keeps cause s
  | supplyExcursion rail => exact execSupplyExcursion_keeps rail s
  | supplyRecovered => exact execSupplyRecovered_keeps s
  | trialConfirm => exact execTrialConfirm_keeps s
  | domainSwitchOn d => exact execDomainSwitchOn_keeps d s
  | domainReady d => exact execDomainReady_keeps d s
  | domainSwitchOff d => exact execDomainSwitchOff_keeps d s
  | domainFault d step => exact execDomainFault_keeps d step s
  | ioutPoll readings => exact execIoutPoll_keeps readings s
  | statusPoll readings => exact execStatusPoll_keeps readings s
  | smbalert response status => exact execSmbalert_keeps response status s
  | alertStuckPoll status => exact execAlertStuckPoll_keeps status s
  | powerGood row => exact execPowerGood_keeps row s
  | pgoodTimeout row => exact execPgoodTimeout_keeps row s
  | tileSupplyOff row => exact execTileSupplyOff_keeps row s
  | supplyRetry row => exact execSupplyRetry_keeps row s
  | rowShed => exact execRowShed_keeps s
  | rowRestored row => exact execRowRestored_keeps row s
  | d3hotExit p => exact execD3hotExit_keeps p s
  | porstRelease tileCfg refPri => exact execPorstRelease_keeps tileCfg refPri s
  | perstRelease p => exact execPerstRelease_keeps p s
  | smbalertRelease => exact execSmbalertRelease_keeps s
  | ethLinkDown port => exact execEthLinkDown_keeps port s
  | ethLinkUp port => exact execEthLinkUp_keeps port s
  | ethFrameReceive port kind frame => exact execEthFrameReceive_keeps port kind frame s
  | delayReqTransmit port => exact execDelayReqTransmit_keeps port s
  | announceTransmit port => exact execAnnounceTransmit_keeps port s

/-- Settles O8: each command's own frame, put together. -/
theorem frameOfEveryCommand : Obligations.FrameOfEveryCommand := by
  unfold Obligations.FrameOfEveryCommand
  exact fun c s t ht => (exec_keeps c s t ht).same

/-- Settles O3: every command is answered by a settled state, and no effect reaches the queue. -/
theorem everyCommandAnswers : Obligations.EveryCommandAnswers := by
  unfold Obligations.EveryCommandAnswers
  intro c s
  obtain ⟨u, hu⟩ := exec_done c s
  exact ⟨settle u, hu, (exec_keeps c s _ hu).queue⟩

/-- Settles O1: the queue's rest is what the command at its front meets. -/
theorem stepRunsFrontCommand : Obligations.StepRunsFrontCommand := by
  unfold Obligations.StepRunsFrontCommand
  exact fun _ _ _ => rfl

/-! ### What a step does -/

/-- A step runs the command at the front of the queue, or is a clock edge. -/
theorem step_cases {s t : State} (h : step s = .next t) :
    (∃ c r, s.pending = c :: r ∧ exec c { s with pending := r } = .next t) ∨
      s.pending = [] ∧ t = settle (lateSelection (clockEdge s)) := by
  unfold step at h
  split at h
  case h_1 empty => exact .inr ⟨empty, by simpa [done] using h.symm⟩
  case h_2 c r front => exact .inl ⟨c, r, front, h⟩

/-- What a step without a command may write: the bases, and what the late selection of a reference writes. -/
abbrev idleParts : List Part := [.bases, .ports, .bureau, .clk, .bot, .pins, .sent]

theorem idle_keeps (s : State) : Keeps idleParts s (settle (lateSelection (clockEdge s))) :=
  settle_keeps _ (by decide) <| lateSelection_keeps _ (by decide) <| clockEdge_keeps _ (by decide) <| Keeps.refl _ _

/-- An invariant that every `Keeps` carries over and that does not read the queue is kept by every step. -/
theorem step_keeps_of {P : State → Prop} (keeps : ∀ {l s t}, Keeps l s t → P s → P t) (queue : ∀ s r, P s → P { s with pending := r })
    {s t : State} (hs : P s) (h : step s = .next t) : P t := by
  obtain ⟨c, r, -, run⟩ | ⟨-, rfl⟩ := step_cases h
  · exact keeps (exec_keeps c _ t run) (queue s r hs)
  · exact keeps (idle_keeps s) hs

/-- Settles O5: no command and no clock edge leaves DRAM out of its canonical form. -/
theorem stepKeepsDramCanonical : Obligations.StepKeepsDramCanonical := by
  unfold Obligations.StepKeepsDramCanonical
  exact fun s t hs h => step_keeps_of (P := DramCanonical) (fun k => k.dram) (fun _ _ hs => hs) hs h

/-- Settles O6: no command and no clock edge breaks the Bureau's chain. -/
theorem stepKeepsBureauChain : Obligations.StepKeepsBureauChain := by
  unfold Obligations.StepKeepsBureauChain
  exact fun s t hs h => step_keeps_of (P := BureauChained) (fun k => k.chain) (fun _ _ hs => hs) hs h

/-! ### ATTENTION (R674) -/

/-- Settling sends messages alone, and no sticky bit is among what it writes. -/
theorem sticky_settle (s : State) (k : Nat) : sticky (settle s) k = sticky s k := by
  unfold sticky
  split <;> simp

theorem attentionTrue_settle (s : State) : AttentionTrue (settle s) := by
  simp only [AttentionTrue, settle_hif, attentionOf, sticky_settle]

/-- Settles O4: every step ends settled. -/
theorem stepKeepsAttention : Obligations.StepKeepsAttention := by
  unfold Obligations.StepKeepsAttention
  intro s t h
  obtain ⟨c, r, -, run⟩ | ⟨-, rfl⟩ := step_cases h
  · obtain ⟨u, hu⟩ := exec_done c { s with pending := r }
    obtain rfl : settle u = t := by simpa [done, hu] using run
    exact attentionTrue_settle u
  · exact attentionTrue_settle _

/-- Settles O7: at reset no sticky bit is set, DRAM is zero and the ring is empty. -/
theorem resetMeetsInvariants : Obligations.ResetMeetsInvariants := by
  unfold Obligations.ResetMeetsInvariants
  exact ⟨by decide, by decide, by decide⟩

/-! ### A step without a command -/

theorem baseOf_advance {n : Nat} (h : n < 4) (k : Nat) (s : State) : baseOf (advance k s) n = (baseOf s n).after k := by
  interval_cases n <;> simp [advance, baseOf_setBase_ne]

theorem baseOf_clockEdge {n : Nat} (h : n < 4) (s : State) :
    baseOf (clockEdge s) n = if clocked s then (baseOf s n).after 1 else baseOf s n := by
  unfold clockEdge
  split
  · exact baseOf_advance h 1 s
  · rfl

/-- The late selection is over once a reference is selected. -/
theorem lateSelection_of_chosen {s : State} (h : s.clk.chosen = true) : lateSelection s = s := by simp [lateSelection, h]

theorem attentionTrue_clockEdge {s : State} (h : AttentionTrue s) : AttentionTrue (clockEdge s) := by
  have sticky_eq (k : Nat) : sticky (clockEdge s) k = sticky s k := by
    unfold clockEdge
    split
    · unfold sticky
      split <;> rfl
    · rfl
  simpa [AttentionTrue, attentionOf, sticky_eq] using h

/-- Settles O2: with ATTENTION true and a reference selected, the clock edge is all that a step does. -/
theorem idleStepIsOneClockEdge : Obligations.IdleStepIsOneClockEdge := by
  unfold Obligations.IdleStepIsOneClockEdge
  intro s empty attention chosen
  have settled : settle (lateSelection (clockEdge s)) = clockEdge s := by
    rw [lateSelection_of_chosen (by simpa using chosen), settle_eq (attentionTrue_clockEdge attention)]
  refine ⟨clockEdge s, ?_, (clockEdge_keeps s (by decide) (Keeps.refl [.bases] s)).same, fun n hn => baseOf_clockEdge hn s⟩
  unfold step
  rw [empty]
  exact congrArg Host.Outcome.next settled

end Sys2Proof.Machine
end

section
/-! SUPPORT. Requests to device DRAM: the bytes that they write and read, and the parts of the state that they leave (R406 to R431). -/

namespace Sys2Proof.Machine

/-! ### Frames -/

theorem SameBut.mono {l m : List Part} {s t : State} (h : SameBut l s t) (hm : Part.among l m = true) : SameBut m s t :=
  fun p hp => h p fun hl => hp (of_decide_eq_true (List.all_eq_true.1 hm p hl))

theorem SameBut.trans {l : List Part} {s t u : State} (h : SameBut l s t) (k : SameBut l t u) : SameBut l s u :=
  fun p hp => Part.same_trans (h p hp) (k p hp)

theorem SameBut.mem_eq {l : List Part} {s t : State} (h : SameBut l s t) (hp : Part.dram ∉ l) : t.dmc.mem = s.dmc.mem := (h .dram hp).1

theorem SameBut.portOf_eq {l : List Part} {s t : State} (h : SameBut l s t) (hp : Part.ports ∉ l) (p : Port) : portOf t p = portOf s p := by
  obtain ⟨ha, hb, -⟩ := h .ports hp
  cases p
  exacts [ha, hb]

theorem SameBut.walec_run {l : List Part} {s t : State} (h : SameBut l s t) (hp : Part.health ∉ l) : t.hif.walec = s.hif.walec := (h .health hp).2.2.1

theorem SameDram.of_mem {s t : State} (h : t.dmc.mem = s.dmc.mem) : SameDram s t := fun a => by rw [h]

theorem SameBut.sameDram {l : List Part} {s t : State} (h : SameBut l s t) (hp : Part.dram ∉ l) : SameDram s t := .of_mem (h.mem_eq hp)

theorem SameDram.trans {s t u : State} (h : SameDram s t) (k : SameDram t u) : SameDram s u := fun a => (k a).trans (h a)

theorem SameDram.settle {s t : State} (h : SameDram s t) : SameDram s (Machine.settle t) := fun a => by rw [show (Machine.settle t).dmc = t.dmc by simp, h a]

theorem SameDramBut.refl (a n : Nat) (s : State) : SameDramBut a n s s := fun _ _ => rfl

theorem SameDramBut.trans {a n : Nat} {s t u : State} (h : SameDramBut a n s t) (k : SameDramBut a n t u) : SameDramBut a n s u :=
  fun c hc => (k c hc).trans (h c hc)

theorem SameDramBut.mono {a b n m : Nat} {s t : State} (h : SameDramBut b m s t) (hb : a ≤ b) (hm : b + m ≤ a + n) : SameDramBut a n s t :=
  fun c hc => h c (by omega)

theorem SameDramBut.of_mem {a n : Nat} {s t : State} (h : t.dmc.mem = s.dmc.mem) : SameDramBut a n s t := fun _ _ => by rw [h]

theorem SameDramBut.settle {a n : Nat} {s t : State} (h : SameDramBut a n s t) : SameDramBut a n s (settle t) :=
  fun c hc => by rw [show (Machine.settle t).dmc = t.dmc by simp, h c hc]

theorem SameDramBut.of_write {a : Nat} {b : Bytes} {s t : State} (h : t.dmc.mem = writeBytes a b s.dmc.mem) : SameDramBut a b.length s t :=
  fun c hc => by rw [h, readByte_writeBytes_outside b a c _ hc]

/-! ### Bytes in pieces -/

theorem readBytes_add (m : List Host.Cell) : ∀ (i a j : Nat), readBytes m a (i + j) = readBytes m a i ++ readBytes m (a + i) j
  | 0, a, j => by simp [readBytes]
  | i + 1, a, j => by rw [Nat.add_right_comm i 1 j, readBytes, readBytes, readBytes_add m i (a + 1) j, List.cons_append, Nat.add_right_comm a 1 i, Nat.add_assoc a i 1]

theorem writeBytes_append : ∀ (x y : Bytes) (a : Nat) (m : List Host.Cell), writeBytes a (x ++ y) m = writeBytes (a + x.length) y (writeBytes a x m)
  | [], y, a, m => by simp [writeBytes]
  | v :: x, y, a, m => by
    rw [List.cons_append, writeBytes, writeBytes_append x y, writeBytes, List.length_cons, Nat.add_right_comm a 1, Nat.add_assoc a]

/-- The part of an extent in line `l`. -/
def linePiece (a n l : Nat) : Nat × Nat := (max a (64 * l), min (a + n) (64 * l + 64) - max a (64 * l))

theorem linePieces_eq (a n : Nat) : linePieces a n = (linesOf a n).map (linePiece a n) := rfl

theorem mem_linesOf {a n l : Nat} : l ∈ linesOf a n ↔ 0 < n ∧ a / 64 ≤ l ∧ l ≤ (a + n - 1) / 64 := by
  unfold linesOf
  split
  · simp; omega
  · simp only [List.mem_range'_1]; omega

/-- A piece is a nonempty part of its extent. -/
theorem linePiece_within {a n l : Nat} (h : l ∈ linesOf a n) :
    a ≤ (linePiece a n l).1 ∧ (linePiece a n l).1 + (linePiece a n l).2 ≤ a + n ∧ 0 < (linePiece a n l).2 := by
  obtain ⟨hn, h1, h2⟩ := mem_linesOf.1 h
  simp only [linePiece]
  omega

/-- A piece lies in its line alone. -/
theorem linesOf_linePiece {a n l : Nat} (h : l ∈ linesOf a n) : linesOf (linePiece a n l).1 (linePiece a n l).2 = [l] := by
  obtain ⟨hn, h1, h2⟩ := mem_linesOf.1 h
  have start : (linePiece a n l).1 / 64 = l := by simp only [linePiece]; omega
  have stop : ((linePiece a n l).1 + (linePiece a n l).2 - 1) / 64 = l := by simp only [linePiece]; omega
  have some : (linePiece a n l).2 ≠ 0 := by have := (linePiece_within h).2.2; omega
  rw [linesOf, if_neg some, start, stop]
  simp

/-- The first `j` lines of an extent end here, as a distance from its start. -/
def linesEnd (a n j : Nat) : Nat := min (a + n) (64 * (a / 64 + j)) - a

theorem linesEnd_succ {a n j : Nat} (h : a / 64 + j ∈ linesOf a n) :
    (linePiece a n (a / 64 + j)).1 = a + linesEnd a n j ∧ linesEnd a n (j + 1) = linesEnd a n j + (linePiece a n (a / 64 + j)).2 := by
  obtain ⟨hn, h1, h2⟩ := mem_linesOf.1 h
  simp only [linePiece, linesEnd]
  omega

theorem mem_linesOf_of_lt {a n i j : Nat} (h : linesOf a n = List.range' (a / 64) j) (hi : i < j) : a / 64 + i ∈ linesOf a n := by
  rw [h]; simp; omega

/-- The lines of an extent, and where the last one ends. -/
theorem linesOf_range (a n : Nat) : ∃ j, linesOf a n = List.range' (a / 64) j ∧ linesEnd a n j = n := by
  unfold linesOf
  split
  · exact ⟨0, rfl, by simp only [linesEnd]; omega⟩
  · exact ⟨_, rfl, by simp only [linesEnd]; omega⟩

/-- Reading an extent piece by piece reads the extent. -/
theorem flatMap_linePieces (m : List Host.Cell) (a n : Nat) : ((linePieces a n).flatMap fun p => readBytes m p.1 p.2) = readBytes m a n := by
  obtain ⟨j, hj, hend⟩ := linesOf_range a n
  have prefixes (i : Nat) (hi : i ≤ j) :
      (((List.range' (a / 64) i).map (linePiece a n)).flatMap fun p => readBytes m p.1 p.2) = readBytes m a (linesEnd a n i) := by
    induction i with
    | zero => simp [linesEnd, readBytes, show min (a + n) (64 * (a / 64)) - a = 0 by omega]
    | succ i ih =>
      obtain ⟨start, stop⟩ := linesEnd_succ (mem_linesOf_of_lt hj hi)
      rw [List.range'_concat, List.map_append, List.flatMap_append, ih (by omega), stop, readBytes_add, ← start]
      simp
  rw [linePieces_eq, hj, prefixes j le_rfl, hend]

/-- The bytes that each line of an extent takes. -/
def lineWrites (a : Nat) (b : Bytes) : List (Nat × Bytes) := (linePieces a b.length).map fun p => (p.1, (b.drop (p.1 - a)).take p.2)

/-- Writing an extent piece by piece writes the extent. -/
theorem foldl_lineWrites (a : Nat) (b : Bytes) (m : List Host.Cell) : (lineWrites a b).foldl (fun m p => writeBytes p.1 p.2 m) m = writeBytes a b m := by
  obtain ⟨j, hj, hend⟩ := linesOf_range a b.length
  have prefixes (i : Nat) (hi : i ≤ j) :
      ((List.range' (a / 64) i).map (linePiece a b.length)).foldl (fun m p => writeBytes p.1 ((b.drop (p.1 - a)).take p.2) m) m =
        writeBytes a (b.take (linesEnd a b.length i)) m := by
    induction i with
    | zero => simp [linesEnd, writeBytes, show min (a + b.length) (64 * (a / 64)) - a = 0 by omega]
    | succ i ih =>
      obtain ⟨start, stop⟩ := linesEnd_succ (mem_linesOf_of_lt hj hi)
      have inside : linesEnd a b.length i ≤ b.length := by simp only [linesEnd]; omega
      rw [List.range'_concat, List.map_append, List.foldl_append, ih (by omega), stop, List.take_add, writeBytes_append]
      simp [start, inside]
  rw [lineWrites, List.foldl_map, linePieces_eq, hj, prefixes j le_rfl, hend, List.take_length]

/-! ### Which accesses are allowed (R406, R419) -/

theorem accessError_of_ranges {s t : State} (h : t.dmc.ranges = s.dmc.ranges) (r a n : Nat) (w : Bool) : accessError t r a n w = accessError s r a n w := by
  unfold accessError protectedFrom
  rw [h]

theorem accessError_eq_none {s : State} {r a n : Nat} {w : Bool} :
    accessError s r a n w = none ↔ populated a = true ∧ populated (a + n - 1) = true ∧ protectedFrom s r a n w = false := by
  unfold accessError
  cases populated a <;> cases populated (a + n - 1) <;> cases protectedFrom s r a n w <;> simp

theorem protectedFrom_part {s : State} {r a n b m : Nat} {w : Bool} (h : protectedFrom s r a n w = false) (hb : a ≤ b) (hm : b + m ≤ a + n) :
    protectedFrom s r b m w = false := by
  rw [Bool.eq_false_iff] at h ⊢
  simp only [protectedFrom, ne_eq, Bool.and_eq_true, List.any_eq_true, decide_eq_true_eq] at h ⊢
  rintro ⟨hr, x, hx, ⟨h1, h2⟩, h3⟩
  exact h ⟨hr, x, hx, ⟨by omega, by omega⟩, h3⟩

/-- A part of an allowed extent is allowed. -/
theorem accessError_part {s : State} {r a n b m : Nat} {w : Bool} (h : accessError s r a n w = none) (hb : a ≤ b) (hm : b + m ≤ a + n) (h0 : 0 < m) :
    accessError s r b m w = none := by
  obtain ⟨h1, h2, h3⟩ := accessError_eq_none.1 h
  simp only [populated, decide_eq_true_eq] at h1 h2
  refine accessError_eq_none.2 ⟨?_, ?_, protectedFrom_part h3 hb hm⟩ <;> simp only [populated, decide_eq_true_eq] <;> omega

theorem accessError_piece {s : State} {r a n : Nat} {w : Bool} (h : accessError s r a n w = none) {p : Nat × Nat} (hp : p ∈ linePieces a n) :
    accessError s r p.1 p.2 w = none := by
  obtain ⟨l, hl, rfl⟩ := List.mem_map.1 hp
  obtain ⟨h1, h2, h3⟩ := linePiece_within hl
  exact accessError_part h h1 h2 h3

theorem accessError_of_extentOk {s : State} {r a n : Nat} {w : Bool} (h : extentOk s r a n w = true) (hn : 0 < n) : accessError s r a n w = none := by
  simp only [extentOk, Bool.and_eq_true, decide_eq_true_eq, Bool.not_eq_true'] at h
  refine accessError_eq_none.2 ⟨?_, ?_, h.2⟩ <;> simp only [populated, decide_eq_true_eq] <;> omega

theorem poisoned_piece {s : State} {a n : Nat} (h : poisoned s a n = false) {p : Nat × Nat} (hp : p ∈ linePieces a n) : poisoned s p.1 p.2 = false := by
  obtain ⟨l, hl, rfl⟩ := List.mem_map.1 hp
  change (linesOf (linePiece a n l).1 (linePiece a n l).2).any s.dmc.poison.contains = false
  rw [linesOf_linePiece hl]
  rw [Bool.eq_false_iff] at h ⊢
  simp only [poisoned, ne_eq, List.any_eq_true, not_exists, not_and] at h ⊢
  intro k hk
  obtain rfl := List.mem_singleton.1 hk
  exact h _ hl

/-! ### The controller serves (R428, R431) -/

/-- The controller runs and no channel is out of service. -/
structure Serving (s : State) : Prop where
  running : s.dmc.mode = .running
  inService : ∀ c, (dramChannel s c).retraining = false

theorem Serving.of_same {l : List Part} {s t : State} (h : Serving s) (k : SameBut l s t) (hl : Part.dmc ∉ l) : Serving t where
  running := (k.dmc_field hl (·.mode) fun _ => rfl).trans h.running
  inService c := by
    rw [dramChannel, k.dmc_field hl (·.channels) fun _ => rfl]
    exact h.inService c

theorem Serving.serves {s : State} (h : Serving s) (a : Nat) : serves s a = true := by simp [Machine.serves, h.running, h.inService]

theorem Serving.servesAll {s : State} (h : Serving s) (r : DramRequest) : servesAll s r = true := List.all_eq_true.2 fun _ _ => h.serves _

theorem abortEntry_running {s : State} (h : s.dmc.mode = .running) (r : DramRequest) : abortEntry r s = s := by simp [abortEntry, h]

theorem Serving.request {s : State} (h : Serving s) (r : DramRequest) : request r s = serveRequest r s := if_pos (h.servesAll r)

/-! ### Writes (R412 to R420) -/

theorem store_dram (a : Nat) (b : Bytes) (s : State) : SameBut [.dram] s (store a b s) := (store_keeps a b s (by decide) (Keeps.refl _ _)).same

theorem countCe_zero (c : Nat) (s : State) : countCe c 0 s = s := rfl

/-- A clean write that is allowed is a store. -/
theorem writeLine_clean {s : State} {r a : Nat} {b : Bytes} (h : accessError s r a b.length true = none) : writeLine r a b {} s = store a b s := by
  simp [writeLine, h, countCe_zero]

theorem Serving.request_write {s : State} (hs : Serving s) {h : DramRequest} {b : Bytes} (hd : h.data = some b) (he : h.ecc.headD {} = {})
    (ha : accessError s h.requester h.addr b.length true = none) : Machine.request h s = store h.addr b s := by
  simp only [hs.request, serveRequest, hd, he, abortEntry_running hs.running, writeLine_clean ha]

/-- Clean writes that are allowed are stores, one after the other. -/
theorem Serving.foldl_request {α : Type} (g : α → DramRequest) (b : α → Bytes) {xs : List α} (hd : ∀ x ∈ xs, (g x).data = some (b x) ∧ (g x).ecc.headD {} = {}) :
    ∀ {s : State}, Serving s → (∀ x ∈ xs, accessError s (g x).requester (g x).addr (b x).length true = none) →
      xs.foldl (fun t x => Machine.request (g x) t) s = xs.foldl (fun t x => store (g x).addr (b x) t) s := by
  induction xs with
  | nil => exact fun _ _ => rfl
  | cons x xs ih =>
    intro s hs ha
    obtain ⟨hx, he⟩ := hd x (List.mem_cons_self ..)
    have same := store_dram (g x).addr (b x) s
    rw [List.foldl_cons, List.foldl_cons, hs.request_write hx he (ha x (List.mem_cons_self ..))]
    refine ih (fun y hy => hd y (List.mem_cons_of_mem _ hy)) (hs.of_same same (by decide)) fun y hy => ?_
    exact (accessError_of_ranges rfl ..).trans (ha y (List.mem_cons_of_mem _ hy))

theorem foldl_store_mem {α : Type} (a : α → Nat) (b : α → Bytes) (xs : List α) (s : State) :
    (xs.foldl (fun t x => store (a x) (b x) t) s).dmc.mem = xs.foldl (fun m x => writeBytes (a x) (b x) m) s.dmc.mem := by
  induction xs generalizing s with
  | nil => rfl
  | cons x xs ih => exact ih _

theorem foldl_store_dram {α : Type} (a : α → Nat) (b : α → Bytes) (xs : List α) (s : State) : SameBut [.dram] s (xs.foldl (fun t x => store (a x) (b x) t) s) := by
  induction xs generalizing s with
  | nil => exact fun p _ => p.same_refl s
  | cons x xs ih => exact SameBut.trans (store_dram _ _ _) (ih _)

theorem length_piece {a : Nat} {b : Bytes} {p : Nat × Nat} (hp : p ∈ linePieces a b.length) : ((b.drop (p.1 - a)).take p.2).length = p.2 := by
  obtain ⟨l, hl, rfl⟩ := List.mem_map.1 hp
  have := linePiece_within hl
  simp only [List.length_take, List.length_drop]
  change min (linePiece a b.length l).2 (b.length - ((linePiece a b.length l).1 - a)) = (linePiece a b.length l).2
  omega

/-- A write of an extent that is allowed, while the controller serves. -/
theorem Serving.memWrite {s : State} (hs : Serving s) {r a : Nat} {b : Bytes} (ha : accessError s r a b.length true = none) :
    (memWrite r a b s).dmc.mem = writeBytes a b s.dmc.mem ∧ SameBut [.dram] s (memWrite r a b s) := by
  have stores : Machine.memWrite r a b s = (linePieces a b.length).foldl (fun t p => store p.1 ((b.drop (p.1 - a)).take p.2) t) s :=
    hs.foldl_request (fun p : Nat × Nat => { requester := r, addr := p.1, data := some ((b.drop (p.1 - a)).take p.2) }) (fun p : Nat × Nat => (b.drop (p.1 - a)).take p.2)
      (fun _ _ => ⟨rfl, rfl⟩) fun p hp => by rw [length_piece hp]; exact accessError_piece ha hp
  rw [stores, foldl_store_mem]
  refine ⟨?_, foldl_store_dram _ _ _ _⟩
  rw [← foldl_lineWrites, lineWrites, List.foldl_map]

/-- Whatever it meets, a write changes no byte outside its extent. -/
theorem writeLine_outside (r a : Nat) (b : Bytes) (e : Ecc) (s : State) : SameDramBut a b.length s (writeLine r a b e s) := by
  have stored : SameDramBut a b.length s (store a b s) := .of_write rfl
  unfold writeLine
  dsimp only
  split
  · exact .of_mem ((commandError_keeps (K := [.dmc, .bureau]) _ _ _ _ (by decide) (Keeps.refl _ _)).same.mem_eq (by decide))
  · have counted : SameDramBut a b.length s (countCe (physChannel s a) e.corrected (store a b s)) :=
      stored.trans (.of_mem ((countCe_keeps (K := [.dmc]) _ _ _ (by decide) (Keeps.refl _ _)).same.mem_eq (by decide)))
    split_ifs
    · exact stored
    · exact counted.trans (.of_mem ((countUe_keeps (K := [.dmc, .ports, .bureau, .pins, .sent]) _ _ _ _ (by decide) (Keeps.refl _ _)).same.mem_eq (by decide)))
    · exact counted

theorem serveRequest_outside {h : DramRequest} {b : Bytes} (hd : h.data = some b) (s : State) : SameDramBut h.addr b.length s (serveRequest h s) := by
  have kept : SameDramBut h.addr b.length s (abortEntry h s) :=
    .of_mem ((abortEntry_keeps (K := [.dmc]) _ _ (by decide) (Keeps.refl _ _)).same.mem_eq (by decide))
  unfold serveRequest
  rw [hd]
  exact kept.trans (writeLine_outside _ _ _ _ _)

theorem request_outside {h : DramRequest} {b : Bytes} (hd : h.data = some b) (s : State) : SameDramBut h.addr b.length s (request h s) := by
  unfold request
  split_ifs
  · exact serveRequest_outside hd s
  · exact .refl _ _ _
  · exact .of_mem rfl

theorem SameDramBut.foldl {α : Type} {a n : Nat} {g : State → α → State} {xs : List α} (hg : ∀ t, ∀ x ∈ xs, SameDramBut a n t (g t x)) :
    ∀ s, SameDramBut a n s (xs.foldl g s) := by
  induction xs with
  | nil => exact fun s => .refl _ _ _
  | cons x xs ih => exact fun s => (hg s x (List.mem_cons_self ..)).trans (ih (fun t y hy => hg t y (List.mem_cons_of_mem _ hy)) _)

theorem memWrite_outside (r a : Nat) (b : Bytes) (s : State) : SameDramBut a b.length s (memWrite r a b s) := by
  refine .foldl (fun t p hp => ?_) s
  have size := length_piece hp
  obtain ⟨l, hl, rfl⟩ := List.mem_map.1 hp
  obtain ⟨h1, h2, -⟩ := linePiece_within hl
  exact (request_outside (h := { requester := r, addr := _, data := some _ }) rfl t).mono h1 (by rw [size]; exact h2)

/-! ### Reads (R415, R416) -/

theorem readLine_clean {s : State} {r a n : Nat} (ha : accessError s r a n false = none) (hp : poisoned s a n = false) : readLine r a n {} s = (s, load s a n, false) := by
  simp [readLine, ha, hp, countCe_zero]

/-- A read of an extent that is allowed and unmarked, with clean check bits, returns its bytes and changes nothing. -/
theorem readOp_clean {s : State} {r a n : Nat} {es : List Ecc} (ha : accessError s r a n false = none) (hp : poisoned s a n = false)
    (he : ∀ i, es.getD i {} = {}) : readOp r a n es s = (s, load s a n, false) := by
  have pieces (ps : List ((Nat × Nat) × Nat)) (hps : ∀ p ∈ ps, p.1 ∈ linePieces a n) (acc : Bytes) :
      ps.foldl (fun t p => (readLine r p.1.1 p.1.2 (es.getD p.2 {}) t.1 |>.1, t.2.1 ++ (readLine r p.1.1 p.1.2 (es.getD p.2 {}) t.1).2.1,
        t.2.2 || (readLine r p.1.1 p.1.2 (es.getD p.2 {}) t.1).2.2)) (s, acc, false) =
        (s, acc ++ ps.flatMap fun p => readBytes s.dmc.mem p.1.1 p.1.2, false) := by
    induction ps generalizing acc with
    | nil => simp
    | cons p ps ih =>
      have hmem := hps p (List.mem_cons_self ..)
      rw [List.foldl_cons, he, readLine_clean (accessError_piece ha hmem) (poisoned_piece hp hmem)]
      refine (ih (fun q hq => hps q (List.mem_cons_of_mem _ hq)) _).trans ?_
      simp [load]
  refine (pieces _ (fun p hp => (List.fst_mem_of_mem_zipIdx hp)) []).trans ?_
  have bytes : ((linePieces a n).zipIdx.flatMap fun p => readBytes s.dmc.mem p.1.1 p.1.2) = load s a n := by
    rw [load, ← flatMap_linePieces]
    conv_rhs => rw [← List.zipIdx_map_fst 0 (linePieces a n), List.flatMap_map]
  rw [List.nil_append, bytes]

/-- A read of a part of one line is one read. -/
theorem linePieces_line {a n : Nat} (h0 : 0 < n) (h : a % 64 + n ≤ 64) : linesOf a n = [a / 64] ∧ linePieces a n = [(a, n)] := by
  have lines : linesOf a n = [a / 64] := by
    rw [linesOf, if_neg (by omega), show (a + n - 1) / 64 = a / 64 by omega]
    simp
  refine ⟨lines, ?_⟩
  have piece : linePiece a n (a / 64) = (a, n) := by simp only [linePiece, Prod.mk.injEq]; omega
  rw [linePieces_eq, lines, List.map_singleton, piece]

end Sys2Proof.Machine
end

section
/-! Proofs of O9, O10, O12, O13 and O18: the Bureau's entries, messages, the events of a port and its drawers (R448, R458, R482, R488, R508). -/

namespace Sys2Proof.Tbl

/-- A table whose values are replaced one by one reads the replaced value. -/
theorem find?_map_val {α : Type} (g : α → α) (k : Nat) (t : Tbl α) : find? k (t.map fun e => (e.1, g e.2)) = (find? k t).map g := by
  induction t with
  | nil => rfl
  | cons e r ih =>
    by_cases h : e.1 = k
    · simp [find?, h]
    · simpa [find?, h] using ih

theorem get_map_val {α : Type} {g : α → α} {d : α} (hd : g d = d) (k : Nat) (t : Tbl α) : get (t.map fun e => (e.1, g e.2)) d k = g (get t d k) := by
  unfold get
  rw [find?_map_val]
  cases find? k t <;> simp [hd]

end Sys2Proof.Tbl

namespace Sys2Proof.Machine

/-- An event whose condition holds leads to its settled effect. -/
theorem leads_event {c : Instr} {s u : State} {cond : Bool} {P : State → Prop} (he : exec c s = done (ifEvent cond u s)) (hc : cond = true)
    (hP : P (settle u)) : Leads c s P := leads_done (by rw [he, hc]; rfl) hP

/-! ### The Bureau and messages -/

/-- Settles O9: the entry that `log` appends, read field by field. -/
theorem bureauEntry : Obligations.BureauEntry := by
  unfold Obligations.BureauEntry
  intro o subject event detail s room
  have notFull : ¬ 65536 ≤ s.bureau.ring.length := by omega
  simp [log, logEntry, logIn, BureauState.append, notFull, chainAfter, Entry.bytes]

/-- Settles O10: the two outcomes of a message. -/
theorem messageOrPendingBit : Obligations.MessageOrPendingBit := by
  unfold Obligations.MessageOrPendingBit
  intro p v s
  refine ⟨fun ⟨opened, unmasked⟩ => ?_, fun shut => ?_⟩
  · simp [message, opened, unmasked, send]
  · have shut : ¬(portOpen s p && !bit (Tbl.get (portOf s p).msix {} v).control 0) = true := by simpa using shut
    have unsent (h : HostPort) : (setPort p h s).sent = s.sent := by simp
    unfold message
    rw [if_neg shut, unsent, portOf_setPort, if_pos rfl]
    refine ⟨?_, rfl⟩
    dsimp only
    split
    case isTrue pending => simpa using pending
    case isFalse => exact List.mem_cons_self ..

theorem attentionTrue_of_sticky {s t : State} (h : AttentionTrue s) (ha : t.hif.attention = s.hif.attention) (hs : ∀ k, sticky t k = sticky s k) :
    AttentionTrue t := by
  simp only [AttentionTrue, attentionOf, ha, hs]
  exact h

/-- Settles O18: no sticky bit depends on BEAT, so the beat leaves ATTENTION true. -/
theorem walecBeat : Obligations.WalecBeat := by
  unfold Obligations.WalecBeat
  intro s running attention
  have same : AttentionTrue { s with hif := { s.hif with beat := wrapAdd 16 s.hif.beat 1 } } :=
    attentionTrue_of_sticky attention rfl fun k => by unfold sticky; split <;> rfl
  have effect : exec .walecBeat s = done { s with hif := { s.hif with beat := wrapAdd 16 s.hif.beat 1 } } := by
    change done (ifEvent (s.hif.walec == .running) _ s) = _
    simp [ifEvent, running]
  rw [effect, done, settle_eq same]

/-! ### Drawers in a port's reset -/

/-- Two drawers with one index are one drawer. -/
theorem drawerIx_inj {p q : Port} {n m : Nat} (hn : n < 32) (hm : m < 32) (h : drawerIx p n = drawerIx q m) : p = q ∧ n = m := by
  cases p <;> cases q <;> simp only [drawerIx, Port.num] at h <;> first | exact ⟨rfl, by omega⟩ | omega

theorem takeClass_of_none {p : Port} {n : Nat} {s : State} (h : s.walec.classNext = []) : takeClass p n s = s := by simp [takeClass, h, Tbl.find?]

/-- While no change of class waits, each of the first `k` drawers of the port is reset, and no other drawer. -/
theorem resetDrawers_prefix (p : Port) (s : State) (h : s.walec.classNext = []) (k : Nat) (hk : k ≤ 32) :
    let t := (List.range k).foldl (fun t n => takeClass p n (setDrawer p n (drawerOf t p n).portReset t)) s
    t.walec = s.walec ∧ ∀ q n, n < 32 → drawerOf t q n = if q = p ∧ n < k then (drawerOf s p n).portReset else drawerOf s q n := by
  induction k with
  | zero => exact ⟨rfl, fun q n _ => by simp⟩
  | succ k ih =>
    obtain ⟨walec, drawers⟩ := ih (by omega)
    rw [List.range_succ, List.foldl_append, List.foldl_cons, List.foldl_nil, takeClass_of_none (by simpa [walec] using h)]
    refine ⟨by simpa using walec, fun q n hn => ?_⟩
    by_cases same : q = p ∧ n = k
    · obtain ⟨rfl, rfl⟩ := same
      simp [drawers q n hn]
    · have apart : drawerIx q n ≠ drawerIx p k := fun e => same (drawerIx_inj hn (by omega) e)
      rw [drawerOf_setDrawer_ne _ apart, drawers q n hn]
      have before : (q = p ∧ n < k + 1) = (q = p ∧ n < k) := by
        refine propext (and_congr_right fun hq => ⟨fun hlt => ?_, by omega⟩)
        exact lt_of_le_of_ne (by omega) fun e => same ⟨hq, e⟩
      simp only [before]

theorem drawerOf_resetDrawers {p q : Port} {s : State} (h : s.walec.classNext = []) {n : Nat} (hn : n < 32) :
    drawerOf (resetDrawers p s) q n = if q = p then (drawerOf s p n).portReset else drawerOf s q n := by
  have := (resetDrawers_prefix p s h 32 le_rfl).2 q n hn
  simpa [hn, resetDrawers] using this

theorem resetDrawers_same (p : Port) (s : State) : SameBut [.drawers, .walec] s (resetDrawers p s) := (resetDrawers_keeps p s (by decide) (.refl _ _)).same

theorem detachHostRings_same (p : Port) (s : State) : SameBut [.queues] s (detachHostRings p s) := (detachHostRings_keeps p s (by decide) (.refl _ _)).same

/-- What a port's reset makes of a queue. -/
def Queue.portReset (p : Port) (c : Queue) : Queue := if c.port = p ∧ c.hostRing = true ∧ c.state = .active then c.detach else c

theorem queueOf_detachHostRings (p : Port) (s : State) (q : Nat) : queueOf (detachHostRings p s) q = (queueOf s q).portReset p := by
  have asMap : (s.hif.queues.map fun e => if e.2.port = p && e.2.hostRing && e.2.state == .active then (e.1, e.2.detach) else e) =
      s.hif.queues.map fun e => (e.1, e.2.portReset p) := by
    refine List.map_congr_left fun e _ => ?_
    by_cases h : e.2.port = p ∧ e.2.hostRing = true ∧ e.2.state = .active
    · simp [Queue.portReset, h]
    · simp only [Queue.portReset, if_neg h]
      rw [if_neg]
      simpa [and_assoc] using h
  simp only [queueOf, detachHostRings, asMap]
  exact Tbl.get_map_val (by simp [Queue.portReset]) ..

/-! ### The reach of a port's reset (R448) -/

theorem portOf_resetPort (p q : Port) (s : State) :
    portOf (resetPort p s) q = if q = p then { portOf s p with resetSeen := true, stalled := [] } else portOf s q := by
  have same (r : Port) : portOf (detachHostRings p (resetDrawers p s)) r = portOf s r := by
    rw [(detachHostRings_same p _).portOf_eq (by decide), (resetDrawers_same p s).portOf_eq (by decide)]
  simp [resetPort, same]

theorem drawerOf_setPort (p q : Port) (h : HostPort) (n : Nat) (s : State) : drawerOf (setPort p h s) q n = drawerOf s q n := by simp [drawerOf]

/-- The reach of a reset of port `p` that begins in `s`, whose port it leaves as it likes: the drawers, the queues, the owners and the leases. -/
structure PortReset (p : Port) (s t : State) : Prop where
  drawers : ∀ n < 32, drawerOf t p n = (drawerOf s p n).portReset
  others : ∀ n < 32, drawerOf t p.other n = drawerOf s p.other n
  queues : ∀ q, queueOf t q = (queueOf s q).portReset p
  own : t.hif.own = s.hif.own
  leases : ∀ r, (portOf t r).lease = (portOf s r).lease

theorem other_ne (p : Port) : p.other ≠ p := by cases p <;> decide

theorem portReset_resetPort {p : Port} {s : State} (h : s.walec.classNext = []) {x : HostPort} (hx : x.lease = (portOf s p).lease) :
    PortReset p s (settle (resetPort p (setPort p x s))) where
  drawers n hn := by
    rw [drawerOf_settle, resetPort, drawerOf_setPort, drawerOf, (detachHostRings_same p _).drawers_eq (by decide), ← drawerOf,
      drawerOf_resetDrawers (by simpa using h) hn, if_pos rfl, drawerOf_setPort]
  others n hn := by
    rw [drawerOf_settle, resetPort, drawerOf_setPort, drawerOf, (detachHostRings_same p _).drawers_eq (by decide), ← drawerOf,
      drawerOf_resetDrawers (by simpa using h) hn, if_neg (other_ne p), drawerOf_setPort]
  queues q := by
    rw [queueOf_settle, resetPort, queueOf_setPort, queueOf_detachHostRings, queueOf, (resetDrawers_same p _).queues_eq (by decide), ← queueOf, queueOf_setPort]
  own := by
    have same : SameBut [.ports, .drawers, .queues, .walec] (setPort p x s) (resetPort p (setPort p x s)) := (resetPort_keeps p _ (by decide) (.refl _ _)).same
    simpa using (same .owners (by decide)).1
  leases r := by
    have kept : (portOf (settle (resetPort p (setPort p x s))) r).lease = (portOf (resetPort p (setPort p x s)) r).lease := by simp
    rw [kept, portOf_resetPort]
    split
    case isTrue hr => simp [hr, hx]
    case isFalse hr => simp [hr]

theorem leads_portReset {p : Port} {c : Instr} {s : State} (hn : s.walec.classNext = [])
    (h : c = .pcieLinkDown p ∧ (portOf s p).linkUp = true ∨ c = .perst p ∧ (portOf s p).perst = false ∨ c = .functionLevelReset p ∧ (portOf s p).linkUp = true) :
    Leads c s (PortReset p s) := by
  rcases h with ⟨rfl, up⟩ | ⟨rfl, released⟩ | ⟨rfl, up⟩
  · exact leads_event rfl up (portReset_resetPort hn rfl)
  · exact leads_event rfl (by simp [released]) (portReset_resetPort hn rfl)
  · exact leads_event rfl up (portReset_resetPort hn rfl)

/-- Sending what waited touches the pending bits and the stalled writes of the port alone. -/
theorem portOf_flushPending (p : Port) (s : State) : ∃ stalled pba, portOf (flushPending p s) p = { portOf s p with stalled, pba } := by
  unfold flushPending
  dsimp only
  split
  · simp only [portOf_sendAll, portOf_setPort, if_true]
    exact ⟨_, _, rfl⟩
  · exact ⟨_, _, rfl⟩

/-- Settles O12: each event sets its own bits of the port, and the three resets share one reach. -/
theorem portEvents : Obligations.PortEvents := by
  unfold Obligations.PortEvents
  refine ⟨fun p s up => ?linkDown, fun p s released => ?perst, fun p s up => ?flr, fun p s up => ?d3hotEntry, fun p s hot => ?d3hotExit, fun p s => ?perstRelease,
    fun p speed width s released chosen ref open_ down => ?linkUp, fun p c s hn h => ?reach⟩
  case linkDown => exact leads_event rfl up (by simp [portOf_resetPort])
  case perst => exact leads_event rfl (by simp [released]) (by simp [assertPerst, portOf_resetPort, HostPort.configReset])
  case flr => exact leads_event rfl up (by simpa [portOf_resetPort, HostPort.configReset] using up)
  case d3hotEntry => exact leads_event rfl up (by simp [portOpen])
  case d3hotExit =>
    obtain ⟨stalled, pba, flushed⟩ := portOf_flushPending p (setPort p { portOf s p with d3hot := false } s)
    exact leads_event rfl hot (by simp [flushed])
  case perstRelease => exact leads_done rfl (by simp)
  case linkUp =>
    obtain ⟨stalled, pba, flushed⟩ := portOf_flushPending p (setPort p { portOf s p with linkUp := true, ready := true, speed, width } s)
    exact leads_event rfl (by simp [released, chosen, ref, open_, down]) (by simp [flushed])
  case reach =>
    refine (leads_portReset hn h).imp fun t r => ⟨fun n hn => ?_, r.others, fun q => ?_, r.own, r.leases⟩
    · exact r.drawers n hn
    · simpa [Queue.portReset] using r.queues q

/-! ### Drawers (R458) -/

theorem drawerOf_takeClass_of_none {p : Port} {n : Nat} {d : Drawer} {s : State} (h : s.walec.classNext = []) :
    drawerOf (settle (takeClass p n (setDrawer p n d s))) p n = d := by
  rw [takeClass_of_none (by simpa using h), drawerOf_settle, drawerOf_setDrawer_self]

theorem drawerOf_refuseDrawer (p : Port) (n : Nat) (s : State) :
    drawerOf (settle (refuseDrawer p n s)) p n = { drawerOf s p n with refused := satAdd 16 (drawerOf s p n).refused 1 } := by
  simp [refuseDrawer]

section Doorbell

variable {p : Port} {n v : Nat} {s : State}

theorem drawerDoorbell_kick (hv : bits v 18 16 = 1) (hs : (drawerOf s p n).state = .idle ∨ (drawerOf s p n).state = .response)
    (hg : bits v 15 12 = (drawerOf s p n).gen) (ht : bits v 15 0 = (drawerOf s p n).tagGen) : drawerDoorbell p n v s = acceptKick p n (bits v 11 0) s := by
  have matched : ((drawerOf s p n).state == .idle || (drawerOf s p n).state == .response) = true := by simpa using hs
  simp [drawerDoorbell, hv, matched, hg, ht]

theorem drawerDoorbell_kick_refused (hv : bits v 18 16 = 1)
    (h : ¬(((drawerOf s p n).state = .idle ∨ (drawerOf s p n).state = .response) ∧ bits v 15 12 = (drawerOf s p n).gen ∧ bits v 15 0 = (drawerOf s p n).tagGen)) :
    drawerDoorbell p n v s = refuseDrawer p n s := by
  unfold drawerDoorbell
  rw [if_pos hv, if_neg]
  simpa [and_assoc] using h

theorem drawerDoorbell_abort (hv : bits v 18 16 = 2) : drawerDoorbell p n v s =
    takeClass p n (setDrawer p n { drawerOf s p n with gen := ((drawerOf s p n).gen + 1) % 16, state := .idle, aborts := satAdd 8 (drawerOf s p n).aborts 1 } s) := by
  simp [drawerDoorbell, hv]

theorem drawerDoorbell_ack (hv : bits v 18 16 = 4) (hs : (drawerOf s p n).state = .response) (hg : bits v 15 12 = (drawerOf s p n).gen) :
    drawerDoorbell p n v s = takeClass p n (setDrawer p n { drawerOf s p n with state := .idle } s) := by
  simp [drawerDoorbell, hv, hs, hg]

theorem drawerDoorbell_ack_refused (hv : bits v 18 16 = 4) (h : ¬((drawerOf s p n).state = .response ∧ bits v 15 12 = (drawerOf s p n).gen)) :
    drawerDoorbell p n v s = refuseDrawer p n s := by
  unfold drawerDoorbell
  rw [if_neg (by omega), if_neg (by omega), if_pos hv, if_neg]
  simpa using h

end Doorbell

/-- Walec takes a request: the drawer is BUSY, and a request that passes the checks of R492 waits for its verb's row. -/
theorem takeRequest_busy (p : Port) (n : Nat) (s : State) : (drawerOf (takeRequest p n s) p n).state = .busy := by
  unfold takeRequest
  extract_lets d m r t
  have busy : (drawerOf t p n).state = .busy := by simp [t]
  split
  case h_1 => exact busy
  case h_2 c hc =>
    have same := (refusal_keeps (K := replyParts) r _ t hc (by decide) (.refl _ _)).same
    rw [drawerOf, same.drawers_eq (by decide)]
    exact busy

theorem takeRequest_taken {p : Port} {n : Nat} {s : State} {m : Message} {r : Request} (hm : m = messageOf (drawerOf s p n).req)
    (hr : r = requestOf s (.drawer p n) m) (h : generalStatus (verbOf m.service m.verb) m r s = .ok) :
    (takeRequest p n s).walec.taken = s.walec.taken ++ [r] := by
  subst hm hr
  unfold takeRequest
  dsimp only
  rw [h]
  rfl

theorem deliver_matched {p : Port} {n : Nat} {a : Answer} {s : State} (h : (drawerOf s p n).state = .busy ∧ a.tagGen = (drawerOf s p n).gen * 4096 + (drawerOf s p n).tag) :
    deliver p n a s = respond p n a.status false false a.tagGen a.body s := by simp [deliver, h]

theorem deliver_stale {p : Port} {n : Nat} {a : Answer} {s : State} (h : ¬((drawerOf s p n).state = .busy ∧ a.tagGen = (drawerOf s p n).gen * 4096 + (drawerOf s p n).tag)) :
    drawerOf (settle (deliver p n a s)) p n = { drawerOf s p n with staleResp := satAdd 16 (drawerOf s p n).staleResp 1 } ∧
      (portOf (settle (deliver p n a s)) p).staleRespSeen = true := by
  unfold deliver
  dsimp only
  rw [if_neg (by simpa using h)]
  exact ⟨by rw [drawerOf_settle, drawerOf_setPort, drawerOf_setDrawer_self], by simp⟩

/-- An answer is taken from those that wait. -/
def dropAnswer (a : Answer) (s : State) : State := { s with walec := { s.walec with answers := s.walec.answers.erase a } }

theorem leads_walecResponse {p : Port} {n : Nat} {a : Answer} {s : State} {P : State → Prop} (h : (s.walec.answers.find? fun a => a.ch == .drawer p n) = some a)
    (hP : P (settle (deliver p n a (dropAnswer a s)))) : Leads (.walecResponse p n) s P := by
  refine leads_done (u := deliver p n a (dropAnswer a s)) ?_ hP
  change execWalecResponse p n s = _
  unfold execWalecResponse
  rw [h]
  rfl

/-- Settles O13: the doorbell's outcomes of R458, the taking of a request and the delivery of its answer. -/
theorem drawers : Obligations.Drawers := by
  unfold Obligations.Drawers
  refine ⟨fun p n v s opened hn => ⟨fun hv hs hg ht => ⟨fun running => ?request, fun stopped => ?restarting⟩, fun hv h => ?kickRefused, fun hv none => ?abort,
    fun hv hs hg none => ?ack, fun hv h => ?ackRefused⟩, fun p n s running hs => ?takes, fun p n a s found => ⟨fun h => ?matched, fun h => ?stale⟩⟩
  case request =>
    refine leads_event rfl opened ?_
    rw [drawerDoorbell_kick hv hs hg ht]
    simp [acceptKick, running]
  case restarting =>
    refine leads_event rfl opened ?_
    rw [drawerDoorbell_kick hv hs hg ht]
    simp [acceptKick, stopped]
  case kickRefused =>
    refine leads_event rfl opened ?_
    rw [drawerDoorbell_kick_refused hv h]
    exact drawerOf_refuseDrawer p n s
  case abort =>
    refine leads_event rfl opened ?_
    rw [drawerDoorbell_abort hv]
    exact drawerOf_takeClass_of_none none
  case ack =>
    refine leads_event rfl opened ?_
    rw [drawerDoorbell_ack hv hs hg]
    exact drawerOf_takeClass_of_none none
  case ackRefused =>
    refine leads_event rfl opened ?_
    rw [drawerDoorbell_ack_refused hv h]
    exact drawerOf_refuseDrawer p n s
  case takes =>
    refine leads_event rfl (by simp [running, hs]) ⟨by simpa using takeRequest_busy p n s, fun ok => ?_⟩
    simpa using takeRequest_taken rfl rfl ok
  case matched =>
    refine leads_walecResponse found ?_
    rw [deliver_matched (s := dropAnswer a s) h]
    simp [dropAnswer]
  case stale => exact leads_walecResponse found (deliver_stale (s := dropAnswer a s) h)

end Sys2Proof.Machine
end

section
/-! Proofs of O11, O15, O16 and O17: completions, queue entries, leases and the BAR2 window (R453, R464, R470 to R477, R483). -/

namespace Sys2Proof.Machine

/-! ### The slot of a completion (R464, R467) -/

theorem length_padTo (n : Nat) (b : Bytes) : (padTo n b).length = n := by
  simp [padTo]
  omega

theorem length_leBytes (n v : Nat) : (leBytes n v).length = n := by
  induction n generalizing v with
  | zero => rfl
  | succ n ih => simp [leBytes, ih]

theorem length_slotImage (body : Bytes) (slot gen record : Nat) (phase : Bool) : (slotImage body slot gen record phase).length = 64 := by
  simp [slotImage, length_padTo, length_leBytes]

theorem ringPut_outside (c : Queue) (a : Nat) (b : Bytes) (s : State) : SameDramBut a b.length s (ringPut c a b s) := by
  unfold ringPut
  split
  · exact .of_mem ((hostSend_keeps (K := [.ports, .sent]) _ _ _ _ (by decide) (Keeps.refl _ _)).same.mem_eq (by decide))
  · exact memWrite_outside _ _ _ _

theorem ringWrite_outside (c : Queue) (a : Nat) {b : Bytes} (hb : b.length = 64) (s : State) : SameDramBut a 64 s (ringWrite c a b s) := by
  have head := ringPut_outside c a (b.take 56) s
  have tail := ringPut_outside c (a + 56) (b.drop 56) (ringPut c a (b.take 56) s)
  exact (head.mono le_rfl (by simp [hb])).trans (tail.mono (by omega) (by simp [hb]))

/-- A slot in device DRAM is written whole while the controller serves. -/
theorem ringWrite_mem {c : Queue} {a : Nat} {b : Bytes} {s : State} (hc : c.hostRing = false) (hb : b.length = 64) (hs : Serving s)
    (ha : accessError s 6 a 64 true = none) : (ringWrite c a b s).dmc.mem = writeBytes a b s.dmc.mem := by
  obtain ⟨head, same⟩ := hs.memWrite (b := b.take 56) (accessError_part ha le_rfl (by simp [hb]) (by simp [hb]))
  have allowed : accessError (memWrite 6 a (b.take 56) s) 6 (a + 56) (b.drop 56).length true = none :=
    (accessError_of_ranges (same.dmc_field (by decide) (·.ranges) fun _ => rfl) _ _ _ _).trans (accessError_part ha (by omega) (by simp [hb]) (by simp [hb]))
  obtain ⟨tail, -⟩ := (hs.of_same same (by decide)).memWrite allowed
  have split : writeBytes a b s.dmc.mem = writeBytes (a + 56) (b.drop 56) (writeBytes a (b.take 56) s.dmc.mem) := by
    conv_lhs => rw [← List.take_append_drop 56 b, writeBytes_append]
    simp [hb]
  simp only [ringWrite, ringPut, hc]
  rw [split, ← head]
  exact tail

/-- The slot that a completion fills. -/
def Queue.slotBytes (c : Queue) (slot gen record : Nat) (body : Bytes) : Bytes := slotImage body (if c.kind = 5 then c.count else slot) gen record c.phase

section Complete

variable {q slot gen record : Nat} {body : Bytes} {release : Nat} {s : State}

/-- A completion whose stamp is the queue's GEN: what it writes, and where its ring stands. -/
theorem complete_current (hs : (queueOf s q).state ≠ .off) (hg : gen = (queueOf s q).gen) :
    (complete q slot gen record body release s).dmc =
        (ringWrite (queueOf s q) ((queueOf s q).cqAddr + 64 * (queueOf s q).cqTail) ((queueOf s q).slotBytes slot gen record body) s).dmc ∧
      (queueOf (complete q slot gen record body release s) q).cqTail =
        (if (queueOf s q).cqTail + 1 = (queueOf s q).cqSize then 0 else (queueOf s q).cqTail + 1) ∧
      (queueOf (complete q slot gen record body release s) q).phase =
        (if (queueOf s q).cqTail + 1 = (queueOf s q).cqSize then !(queueOf s q).phase else (queueOf s q).phase) := by
  have on : ((queueOf s q).state == .off) = false := by simpa using hs
  unfold complete
  simp only [on, hg, ne_eq, not_true_eq_false, if_false]
  split_ifs <;> simp_all [Queue.slotBytes]

theorem complete_stale (hs : (queueOf s q).state ≠ .off) (hg : gen ≠ (queueOf s q).gen) :
    (complete q slot gen record body release s).dmc = s.dmc ∧
      queueOf (complete q slot gen record body release s) q = { queueOf s q with lateCpl := satAdd 8 (queueOf s q).lateCpl 1 } := by
  have on : ((queueOf s q).state == .off) = false := by simpa using hs
  unfold complete
  simp [on, hg, queueOf_setPort]

end Complete

/-- Settles O11: the current stamp writes one slot, the stale one nothing. -/
theorem completionSlot : Obligations.CompletionSlot := by
  unfold Obligations.CompletionSlot
  intro q slot gen record body release s hs
  refine ⟨fun hg => ?_, fun hg => ?_⟩
  · obtain ⟨dmc, tail, phase⟩ := complete_current (slot := slot) (record := record) (body := body) (release := release) hs hg
    have size : ((queueOf s q).slotBytes slot gen record body).length = 64 := length_slotImage ..
    refine ⟨fun a ha => ?_, tail, phase, fun device allowed running inService => ?_⟩
    · rw [dmc]
      exact ringWrite_outside _ _ size s a ha
    · have written := ringWrite_mem (b := (queueOf s q).slotBytes slot gen record body) device size ⟨running, inService⟩ (accessError_of_extentOk allowed (by decide))
      rw [load, dmc, written, ← size]
      exact readBytes_writeBytes ..
  · obtain ⟨dmc, queue⟩ := complete_stale (slot := slot) (record := record) (body := body) (release := release) hs hg
    exact ⟨.of_mem (by rw [dmc]), by rw [queue], by rw [queue]⟩

/-! ### Fetching (R470, R471, R486) -/

theorem nextEntry_same (s : State) (c : Queue) (h : Option Bytes) : SameBut [.dmc, .ports, .bureau, .pins, .sent] s (nextEntry s c h).2 :=
  (nextEntry_keeps s c h (by decide) (.refl _ _)).same

/-- An entry other than a COMMIT that Walec cannot take: the queue's head moves on and the entry waits for its consumer. -/
theorem fetchEntry_waits {q : Nat} {e : Bytes} {s : State} (h : (queueOf s q).kind ≠ 1 ∨ s.hif.walec = .running) :
    fetchEntry q e s = setQueue q { queueOf s q with
      sqHead := ((queueOf s q).sqHead + 1) % (queueOf s q).sqSize, reserved := (queueOf s q).reserved + slotsFor (queueOf s q) e
      fetched := (queueOf s q).fetched ++ [{ bytes := e, slot := (queueOf s q).sqHead, gen := (queueOf s q).gen, reserved := slotsFor (queueOf s q) e }] }
      (setQueue q { queueOf s q with sqHead := ((queueOf s q).sqHead + 1) % (queueOf s q).sqSize, reserved := (queueOf s q).reserved + slotsFor (queueOf s q) e } s) := by
  unfold fetchEntry
  dsimp only
  rw [if_neg]
  · simp
  · rcases h with h | h <;> simp [h]

/-- The effect of a fetch: the queue detaches, or the entry is taken when its slots are free. -/
def fetchEffect (q : Nat) (h : Option Bytes) (s : State) : State :=
  match (nextEntry s (queueOf s q) h).1 with
  | none => setQueue q (queueOf s q).detach (nextEntry s (queueOf s q) h).2
  | some e => if slotsFor (queueOf s q) e ≤ slotsFree (queueOf s q) then fetchEntry q e (nextEntry s (queueOf s q) h).2 else s

section Fetch

variable {q : Nat} {h : Option Bytes} {s : State}

theorem exec_queueEntryFetch (q : Nat) (h : Option Bytes) (s : State) : exec (.queueEntryFetch q h) s =
    done (ifEvent (queueState s q == .active && (queueOf s q).sqHead ≠ (queueOf s q).sqTail && fetches s (queueOf s q) h) (fetchEffect q h s) s) := rfl

theorem leads_fetch {P : State → Prop} (active : queueState s q = .active) (waits : (queueOf s q).sqHead ≠ (queueOf s q).sqTail)
    (can : fetches s (queueOf s q) h = true) (hP : P (settle (fetchEffect q h s))) : Leads (.queueEntryFetch q h) s P :=
  leads_event (exec_queueEntryFetch q h s) (by simp [active, waits, can]) hP

theorem queueOf_nextEntry (r : Nat) : queueOf (nextEntry s (queueOf s q) h).2 r = queueOf s r := queueOf_of ((nextEntry_same s (queueOf s q) h).queues_eq (by decide)) r

theorem fetchEffect_detached (none : (nextEntry s (queueOf s q) h).1 = none) :
    queueOf (settle (fetchEffect q h s)) q = (queueOf s q).detach ∧ SameDram s (settle (fetchEffect q h s)) := by
  have effect : fetchEffect q h s = setQueue q (queueOf s q).detach (nextEntry s (queueOf s q) h).2 := by simp only [fetchEffect, none]
  rw [effect]
  exact ⟨by simp, SameDram.settle (.of_mem ((nextEntry_same s (queueOf s q) h).mem_eq (by decide)))⟩

theorem fetches_of_serving (device : (queueOf s q).hostRing = false) (hs : Serving s) : fetches s (queueOf s q) h = true := by
  simp [fetches, device, hs.running, hs.serves]

end Fetch

/-- Settles O15: what a fetch makes of its queue, and the end of the coalescing timer. -/
theorem queueEntries : Obligations.QueueEntries := by
  unfold Obligations.QueueEntries
  refine ⟨fun q s active waits => ⟨fun h e found openPort serving walec room => ?fetched, fun h e found full => ?full, fun host => ?hostFails, fun h device running inService none => ?poisoned⟩,
    fun q t0 s first timer some => ?coalesce⟩
  case fetched =>
    have can : fetches s (queueOf s q) h = true := by
      cases ring : (queueOf s q).hostRing
      · exact fetches_of_serving ring ⟨(serving ring).1, (serving ring).2⟩
      · simp [fetches, ring, openPort ring]
    refine leads_fetch active waits can ?_
    have same := nextEntry_same s (queueOf s q) h
    have effect : fetchEffect q h s = fetchEntry q e (nextEntry s (queueOf s q) h).2 := by simp only [fetchEffect, found, if_pos room]
    rw [effect, fetchEntry_waits (by rw [queueOf_nextEntry, same.walec_run (by decide)]; exact walec), queueOf_nextEntry]
    exact ⟨by simp, SameDram.settle (.of_mem (same.mem_eq (by decide)))⟩
  case full =>
    have effect : fetchEffect q h s = s := by simp only [fetchEffect, found, if_neg (show ¬ slotsFor (queueOf s q) e ≤ slotsFree (queueOf s q) by omega)]
    refine leads_done (u := s) ((exec_queueEntryFetch q h s).trans ?_) ⟨by simp, SameDram.settle fun _ => rfl⟩
    simp [effect, ifEvent]
  case hostFails => exact leads_fetch active waits (by simp [fetches, host]) (fetchEffect_detached (by simp [nextEntry, host]))
  case poisoned => exact leads_fetch active waits (fetches_of_serving device ⟨running, inService⟩) (fetchEffect_detached none)
  case coalesce =>
    obtain ⟨rest, since⟩ : ∃ rest, (queueOf s q).since = t0 :: rest := List.head?_eq_some_iff.1 first
    have effect : exec (.coalesceTimeout q) s = done (message (queueOf s q).port (queueOf s q).vector
        (setQueue q { queueOf s q with since := [] } (advanceTo0 (t0 + 1000 * (queueOf s q).coalUs + 1) s))) := by
      change execCoalesceTimeout q s = _
      simp [execCoalesceTimeout, since, ifEvent, timer, some]
    refine leads_done effect ⟨by simp, by simp, fun a => by simp, fun opened unmasked => settle_sent _ ?_⟩
    rw [(messageOrPendingBit _ _ _).1]
    · exact List.mem_append_right _ (List.mem_singleton_self _)
    · simp only [portOpen, portOf_setQueue, portOf_of_hif s (show (advanceTo0 _ s).hif = s.hif by simp)]
      exact ⟨opened, unmasked⟩

/-! ### Leases (R473 to R476) -/

@[simp] theorem logLease_hif (k : Nat) (old new : Option Port) (s : State) : (logLease k old new s).hif = s.hif := rfl

theorem portOf_logLease (k : Nat) (old new : Option Port) (s : State) (q : Port) : portOf (logLease k old new s) q = portOf s q :=
  portOf_of_hif s (logLease_hif k old new s) q

theorem ownerOf_of {s t : State} (h : t.hif.own = s.hif.own) (k : Nat) : ownerOf t k = ownerOf s k := by simp [ownerOf, h]

theorem ownerOf_raise (p : Port) (i : Nat) (s : State) (k : Nat) : ownerOf (raise p i s) k = ownerOf s k := ownerOf_of (by simp) k
theorem ownerOf_logLease (j : Nat) (old new : Option Port) (s : State) (k : Nat) : ownerOf (logLease j old new s) k = ownerOf s k := ownerOf_of (by simp) k
theorem ownerOf_startLease (p : Port) (s : State) (k : Nat) : ownerOf (startLease p s) k = ownerOf s k := ownerOf_of (by simp [startLease]) k
theorem portOf_setOwner (k : Nat) (o : Owner) (s : State) (q : Port) : portOf (setOwner k o s) q = portOf s q := by cases q <;> rfl

/-- Writing one bit of the claim field claims its class, of the release field gives it up. -/
theorem leaseWrite_claim {p : Port} {k : Nat} (hk : k < 4) (s : State) : leaseWrite p (2 ^ k) s = claimClass p k s := by
  interval_cases k <;> rfl

theorem leaseWrite_release {p : Port} {k : Nat} (hk : k < 4) (s : State) : leaseWrite p (2 ^ (4 + k)) s = releaseClass p k s := by
  interval_cases k <;> rfl

theorem bit_of_low_byte_zero {v k : Nat} (h : bits v 7 0 = 0) (hk : k ≤ 7) : bit v k = false := by
  have low : v % 256 = 0 := by simpa [bits] using h
  have half : v / 2 ^ k % 2 = 0 := by interval_cases k <;> omega
  simp [bit, half]

theorem leaseWrite_renew {p : Port} {v : Nat} (renew : bit v 8 = true) (rest : bits v 7 0 = 0) (s : State) : leaseWrite p v s = startLease p s := by
  have low (k : Nat) (hk : k ≤ 7) : bit v k = false := bit_of_low_byte_zero rest hk
  simp [leaseWrite, List.range, List.range.loop, low, renew]

theorem startLease_lease {p : Port} {s : State} (walec : s.hif.walec = .running) :
    (portOf (startLease p s) p).lease = some (tb0 s + s.hif.leaseMs * 1000000) := by
  simp [startLease, frozen, walec]

/-- A class that nobody holds passes to the port that claims it. -/
theorem claimClass_free {p : Port} {k : Nat} {s : State} (free : (ownerOf s k).holder = none) :
    claimClass p k s = raise p 2 (logLease k none (some p) (setOwner k { ownerOf s k with holder := some p, expired := false } (startLease p s))) := by
  simp [claimClass, free]

theorem claimClass_held {p : Port} {k : Nat} {s : State} (held : (ownerOf s k).holder = some p.other) (live : (ownerOf s k).expired = false)
    (runs : (portOf s p.other).lease.isSome) : claimClass p k s = setPort p { portOf s p with claimRefused := true } s := by
  simp [claimClass, held, live, runs]

theorem releaseClass_held {p : Port} {k : Nat} {s : State} (held : (ownerOf s k).holder = some p) :
    releaseClass p k s = logLease k (some p) none (setOwner k { ownerOf s k with holder := none, expired := false } s) := by
  simp [releaseClass, held]

/-- The expiry of a class leaves its port's lease timer and its mark. -/
theorem passClass_lease (k : Nat) (old q : Port) (s : State) :
    (portOf (passClass k old s) q).lease = (portOf s q).lease ∧ (portOf (passClass k old s) q).expiredSeen = (portOf s q).expiredSeen := by
  have same : portOf (passQueues k old (logLease k (some old) (some old.other) (setOwner k { ownerOf s k with holder := some old.other, expired := false } s))) q =
      portOf s q := by cases q <;> rfl
  simp [passClass, same]

theorem expireClass_lease (p : Port) (k : Nat) (q : Port) (s : State) :
    (portOf (expireClass p k s) q).lease = (portOf s q).lease ∧ (portOf (expireClass p k s) q).expiredSeen = (portOf s q).expiredSeen := by
  unfold expireClass
  dsimp only
  split_ifs <;> simp [passClass_lease, portOf_logLease, portOf_setOwner]

theorem foldl_expireClass_lease (p q : Port) (ks : List Nat) (s : State) :
    (portOf (ks.foldl (fun t k => expireClass p k t) s) q).lease = (portOf s q).lease ∧
      (portOf (ks.foldl (fun t k => expireClass p k t) s) q).expiredSeen = (portOf s q).expiredSeen := by
  induction ks generalizing s with
  | nil => exact ⟨rfl, rfl⟩
  | cons k ks ih => simpa [expireClass_lease p k q s] using ih (expireClass p k s)

theorem expireLease_lease (p : Port) (s : State) : (portOf (expireLease p s) p).lease = none ∧ (portOf (expireLease p s) p).expiredSeen = true := by
  simp [expireLease, foldl_expireClass_lease]

/-- Settles O16: a write of LEASE_CTRL by the one bit that it sets, and the end of the timer. -/
theorem leaseCommands : Obligations.LeaseCommands := by
  unfold Obligations.LeaseCommands
  refine ⟨fun p v s opened renew rest walec => leads_event rfl opened ?renewed, fun p k s opened hk free walec => leads_event rfl opened ?claimed,
    fun p k s opened hk held live runs => leads_event rfl opened ?refused, fun p k s opened hk held => leads_event rfl opened ?released,
    fun p u s timer runs => ?expired⟩
  case renewed =>
    rw [leaseWrite_renew renew rest]
    exact ⟨by simpa using startLease_lease walec, by simp [startLease]⟩
  case claimed =>
    rw [leaseWrite_claim hk, claimClass_free free]
    refine ⟨by simp [ownerOf_raise, ownerOf_logLease], ?_, fun j hj => ?_⟩
    · simpa [portOf_logLease, portOf_setOwner] using startLease_lease walec
    · simp [ownerOf_raise, ownerOf_logLease, ownerOf_setOwner_ne hj, ownerOf_startLease]
  case refused =>
    rw [leaseWrite_claim hk, claimClass_held held live runs]
    simp
  case released =>
    rw [leaseWrite_release hk, releaseClass_held held]
    exact ⟨by simp [ownerOf_logLease], fun j hj => by simp [ownerOf_logLease, ownerOf_setOwner_ne hj]⟩
  case expired =>
    have effect : exec (.leaseExpiry p) s = done (ifEvent (!frozen s) (expireLease p (advanceTo0 u s)) s) := by
      change execLeaseExpiry p s = _
      simp [execLeaseExpiry, timer]
    exact leads_event effect (by simp [frozen, runs]) (by simpa using expireLease_lease p (advanceTo0 u s))

/-! ### The BAR2 window (R453, R454) -/

theorem assertFault_bar2 (s : State) (q : Port) : (portOf (assertFault s) q).bar2Poisoned = (portOf s q).bar2Poisoned := by
  unfold assertFault
  split_ifs
  · rfl
  · have same : portOf { s with pins := { s.pins with fault := true } } q = portOf s q := portOf_of_hif s rfl q
    simp [same]

theorem migrationStop_bar2 (s : State) (q : Port) : (portOf (migrationStop s) q).bar2Poisoned = (portOf s q).bar2Poisoned := by
  have logged (u : State) (o : Origin) (a b c : Nat) : portOf (log o a b c u) q = portOf u q := portOf_of_hif u rfl q
  rw [migrationStop, logged, assertFault_bar2]
  exact congrArg HostPort.bar2Poisoned (portOf_of_hif s rfl q)

/-- A site with one more uncorrectable error (R421). -/
def Site.withUe (x : Site) : Site :=
  { x with ueCount := satAdd 16 x.ueCount 1, ueSeen := true, ueSecond := some (match x.ueSecond with | none => 0 | some k => k + 1) }

/-- The site of an uncorrectable error, with the error counted (R421). -/
def siteUe (c : Nat) (s : State) : State :=
  let t := setSite (c / 4) (siteOf s (c / 4)).withUe s
  { t with dmc := { t.dmc with ueSeen := true } }

/-- The state in which an uncorrectable error is counted, before it can stop a migration (R421, R438). -/
def ueCounted (a requester c : Nat) (s : State) : State :=
  let t := recordErr a requester 1 (c / 4) (c % 4) s
  let u := siteUe c t
  degradeSite (c / 4) (if (siteOf t (c / 4)).ueSecond.isNone then log (hw 7) (c / 4) 0x70 u.dmc.errLast u else u)

theorem ueCounted_hif (a requester c : Nat) (s : State) : (ueCounted a requester c s).hif = s.hif := by
  have degraded (t : State) : (degradeSite (c / 4) t).hif = t.hif := rfl
  rw [ueCounted, degraded]
  cases (siteOf (recordErr a requester 1 (c / 4) (c % 4) s) (c / 4)).ueSecond.isNone <;> rfl

theorem countUe_eq (a requester c : Nat) (s : State) : countUe a requester c s =
    if s.dmc.migrate == .copying && c / 4 == s.dmc.migrateTo then migrationStop (ueCounted a requester c s) else ueCounted a requester c s := rfl

theorem countUe_bar2 (a requester c : Nat) (s : State) (q : Port) : (portOf (countUe a requester c s) q).bar2Poisoned = (portOf s q).bar2Poisoned := by
  rw [countUe_eq]
  split_ifs
  · rw [migrationStop_bar2, portOf_of_hif s (ueCounted_hif _ _ _ _) q]
  · rw [portOf_of_hif s (ueCounted_hif _ _ _ _) q]

theorem writeLine_bar2 (r a : Nat) (b : Bytes) (e : Ecc) (s : State) (q : Port) :
    (portOf (writeLine r a b e s) q).bar2Poisoned = (portOf s q).bar2Poisoned := by
  have counted (c k : Nat) (u : State) : portOf (countCe c k u) q = portOf u q :=
    (countCe_keeps (K := [.dmc]) _ _ _ (by decide) (Keeps.refl _ _)).same.portOf_eq (by decide) q
  have stored : portOf (store a b s) q = portOf s q := (store_dram a b s).portOf_eq (by decide) q
  unfold writeLine
  dsimp only
  split
  · rw [(commandError_keeps (K := [.dmc, .bureau]) _ _ _ _ (by decide) (Keeps.refl _ _)).same.portOf_eq (by decide) q]
  · split_ifs
    · rw [stored]
    · have marked (l : Nat) (u : State) : portOf (mark l u) q = portOf u q := portOf_of_hif u rfl q
      rw [countUe_bar2, marked, counted, stored]
    · rw [counted, stored]

/-- A write request counts no poisoned access of a port. -/
theorem request_bar2 {h : DramRequest} {b : Bytes} (hd : h.data = some b) (s : State) (q : Port) :
    (portOf (request h s) q).bar2Poisoned = (portOf s q).bar2Poisoned := by
  unfold request
  split_ifs
  · simp only [serveRequest, hd, writeLine_bar2]
    rw [(abortEntry_keeps (K := [.dmc]) _ _ (by decide) (Keeps.refl _ _)).same.portOf_eq (by decide) q]
  · rfl
  · exact congrArg HostPort.bar2Poisoned (portOf_of_hif s rfl q)

theorem foldl_request_bar2 (q : Port) {hs : List DramRequest} (hd : ∀ h ∈ hs, ∃ b, h.data = some b) :
    ∀ s, (portOf (hs.foldl (fun t h => request h t) s) q).bar2Poisoned = (portOf s q).bar2Poisoned := by
  induction hs with
  | nil => exact fun _ => rfl
  | cons h hs ih =>
    intro s
    obtain ⟨b, hb⟩ := hd h (List.mem_cons_self ..)
    rw [List.foldl_cons, ih (fun g hg => hd g (List.mem_cons_of_mem _ hg)), request_bar2 hb]

theorem windowWrites_data (a : Nat) (data : Bytes) (ecc : List Ecc) : ∀ h ∈ windowWrites a data ecc, ∃ b, h.data = some b := by
  intro h hh
  obtain ⟨p, -, rfl⟩ := List.mem_map.1 hh
  exact ⟨_, rfl⟩

/-- With clean check bits a write of the window stores its pieces. -/
theorem foldl_windowWrites {s : State} (hs : Serving s) {a : Nat} {data : Bytes}
    (ha : ∀ p ∈ linePieces a data.length, accessError s 6 p.1 p.2 true = none) :
    (windowWrites a data []).foldl (fun t h => request h t) s = (linePieces a data.length).foldl (fun t p => store p.1 ((data.drop (p.1 - a)).take p.2) t) s := by
  have requests : windowWrites a data [] =
      (linePieces a data.length).map fun p => { requester := 6, addr := p.1, data := some ((data.drop (p.1 - a)).take p.2), ecc := [{}] } := by
    conv_rhs => rw [← List.zipIdx_map_fst 0 (linePieces a data.length), List.map_map]
    rfl
  rw [requests, List.foldl_map]
  exact hs.foldl_request (fun p : Nat × Nat => { requester := 6, addr := p.1, data := some ((data.drop (p.1 - a)).take p.2), ecc := [{}] })
    (fun p : Nat × Nat => (data.drop (p.1 - a)).take p.2) (fun _ _ => ⟨rfl, rfl⟩) fun p hp => by rw [length_piece hp]; exact ha p hp

theorem countPoisoned_bar2 (p : Port) (s : State) : (portOf (countPoisoned p s) p).bar2Poisoned = satAdd 16 (portOf s p).bar2Poisoned 1 ∧
    (portOf (countPoisoned p s) p).bar2Seen = true ∧ (countPoisoned p s).dmc = s.dmc ∧ (countPoisoned p s).sent = s.sent := by
  simp [countPoisoned]

theorem serving_of_window {s : State} {p : Port} {off n : Nat} (h : windowBad s p off n = false) (inService : ∀ c, (dramChannel s c).retraining = false) : Serving s := by
  have bad := Bool.or_eq_false_iff.1 h
  exact ⟨by simpa using bad.1, inService⟩

/-- Settles O17: a write by the stores of its pieces, a read by the one read it makes, and the counts of refused ones. -/
theorem bar2Window : Obligations.Bar2Window := by
  unfold Obligations.Bar2Window
  refine ⟨fun p off data s opened inService good => leads_event rfl opened ?written, fun p off data e s opened bad => leads_event rfl opened ?refused,
    fun p off len s opened inService good allowed clean pos => leads_event rfl opened ?read, fun p off len e s opened bad => leads_event rfl opened ?poisoned⟩
  case written =>
    obtain ⟨inWindow, pieces⟩ := Bool.or_eq_false_iff.1 good
    have allowed : ∀ x ∈ linePieces (windowAddr s p off) data.length, accessError s 6 x.1 x.2 true = none := by
      simpa using pieces
    have mem := foldl_store_mem (fun x : Nat × Nat => x.1) (fun x => (data.drop (x.1 - windowAddr s p off)).take x.2) (linePieces (windowAddr s p off) data.length) s
    rw [← List.foldl_map (f := fun x : Nat × Nat => (x.1, (data.drop (x.1 - windowAddr s p off)).take x.2)) (g := fun m x => writeBytes x.1 x.2 m)] at mem
    rw [good, inWindow, foldl_windowWrites (serving_of_window inWindow inService) allowed]
    have stored := mem.trans (foldl_lineWrites ..)
    have port := (foldl_store_dram (fun x : Nat × Nat => x.1) (fun x => (data.drop (x.1 - windowAddr s p off)).take x.2) (linePieces (windowAddr s p off) data.length) s).portOf_eq (by decide) p
    refine ⟨?_, .settle (.of_write stored), by simp [port]⟩
    simp only [Bool.false_eq_true, if_false, load, settle_frame]
    exact (congrArg (readBytes · _ _) stored).trans (readBytes_writeBytes ..)
  case refused =>
    rw [bad, if_pos rfl]
    have counts := countPoisoned_bar2 p (if windowBad s p off data.length then s else (windowWrites (windowAddr s p off) data e).foldl (fun t h => request h t) s)
    have kept : (portOf (if windowBad s p off data.length then s else (windowWrites (windowAddr s p off) data e).foldl (fun t h => request h t) s) p).bar2Poisoned =
        (portOf s p).bar2Poisoned := by
      split_ifs
      · rfl
      · exact foldl_request_bar2 p (windowWrites_data _ _ _) s
    simpa [counts.2.1, kept] using counts.1
  case read =>
    have hs := serving_of_window good inService
    have quiet : requesterOff s 6 = false := by simp [requesterOff]
    have effect : bar2Read p off len [] s = send (.readReply 6 (windowAddr s p off) (load s (windowAddr s p off) len) false) s := by
      have answered : unanswered s { requester := 6, addr := windowAddr s p off, len, ecc := [], bar2 := some p } = false := by simpa [unanswered, quiet] using opened
      simp only [bar2Read, good, Bool.false_eq_true, if_false, hs.request, serveRequest, abortEntry_running hs.running,
        readOp_clean allowed clean (fun _ => List.getD_nil), answered]
    rw [effect]
    exact ⟨.settle (.of_mem rfl), by simp, settle_sent _ (by simp [send])⟩
  case poisoned =>
    have effect : bar2Read p off len e s = countPoisoned p (send (.readReply 6 (windowAddr s p off) [] true) s) := by simp [bar2Read, bad]
    obtain ⟨count, -, dmc, sent⟩ := countPoisoned_bar2 p (send (.readReply 6 (windowAddr s p off) [] true) s)
    rw [effect]
    exact ⟨.settle (.of_mem (by rw [dmc]; rfl)), by simpa using count, settle_sent _ (by rw [sent]; simp [send])⟩

end Sys2Proof.Machine
end

section
/-! Proofs of O19, O20 and O21: device DRAM (R402 to R444). -/

namespace Sys2Proof.Machine

/-- A fold whose steps each rewrite one entry of a table reads, at each entry, its own step. -/
theorem foldl_pointwise {σ α : Type} {get : σ → Nat → α} {g : σ → Nat → σ} {h : Nat → α → α}
    (own : ∀ t n, get (g t n) n = h n (get t n)) (other : ∀ t n m, m ≠ n → get (g t n) m = get t m) :
    ∀ (ns : List Nat), ns.Nodup → ∀ s m, get (ns.foldl g s) m = if m ∈ ns then h m (get s m) else get s m := by
  intro ns
  induction ns with
  | nil => simp
  | cons n ns ih =>
    intro nodup s m
    obtain ⟨fresh, nodup⟩ := List.nodup_cons.1 nodup
    rw [List.foldl_cons, ih nodup]
    by_cases hm : m = n
    · subst hm
      simp [fresh, own]
    · simp [hm, other _ _ _ hm]

theorem foldl_allChannels {α : Type} {get : State → Nat → α} {g : State → Nat → State} {h : Nat → α → α}
    (own : ∀ t n, get (g t n) n = h n (get t n)) (other : ∀ t n m, m ≠ n → get (g t n) m = get t m) (s : State) {c : Nat} (hc : c < 36) :
    get (allChannels.foldl g s) c = h c (get s c) := by
  rw [foldl_pointwise own other allChannels List.nodup_range s c, if_pos (show c ∈ allChannels from List.mem_range.2 hc)]

theorem foldl_fixed {σ α β : Type} {f : σ → β} {g : σ → α → σ} (hg : ∀ t x, f (g t x) = f t) (xs : List α) (s : σ) : f (xs.foldl g s) = f s := by
  induction xs generalizing s with
  | nil => rfl
  | cons x xs ih => exact (ih _).trans (hg s x)

/-! ### Accesses and their errors (R406, R412 to R420, R444) -/

/-- DMC_ERR_LAST of an access (R444). -/
def errorWord (a requester kind site channel : Nat) : Nat :=
  fieldAt (a / 64 * 64) 40 24 + fieldAt requester 4 20 + fieldAt kind 4 16 + fieldAt site 4 12 + fieldAt channel 2 10

theorem commandError_dmc (a r k : Nat) (s : State) : (commandError a r k s).dmc.mem = s.dmc.mem ∧ (commandError a r k s).dmc.cmdErrSeen = true ∧
    (commandError a r k s).dmc.errValid = true ∧ (commandError a r k s).dmc.errLast = errorWord a r k 15 0 := by
  unfold commandError
  dsimp only
  split <;> exact ⟨rfl, rfl, rfl, rfl⟩

theorem Serving.request_read {s : State} (hs : Serving s) {r a n : Nat} {e : List Ecc} :
    Machine.request { requester := r, addr := a, len := n, ecc := e } s =
      if unanswered s { requester := r, addr := a, len := n, ecc := e } then (readOp r a n e s).1
      else send (.readReply r a (readOp r a n e s).2.1 (readOp r a n e s).2.2) (readOp r a n e s).1 := by
  rw [hs.request]
  simp [serveRequest, abortEntry_running hs.running]

/-- A read whose pieces are all allowed is answered; so is one of a requester whose domain is on. -/
theorem answered_of_allowed {s : State} {r a n : Nat} {e : List Ecc} (ha : accessError s r a n false = none) :
    unanswered s { requester := r, addr := a, len := n, ecc := e } = false := by
  have pieces : ((linePieces a n).any fun p => (accessError s r p.1 p.2 false).isSome) = false := by
    rw [List.any_eq_false]
    intro p hp
    simp [accessError_piece ha hp]
  simp [unanswered, pieces]

theorem answered_of_on {s : State} {r a n : Nat} {e : List Ecc} (on : requesterOff s r = false) :
    unanswered s { requester := r, addr := a, len := n, ecc := e } = false := by simp [unanswered, on]

/-- A read of a part of one line. -/
theorem readOp_line {s : State} {r a n : Nat} {e : Ecc} (h0 : 0 < n) (h : a % 64 + n ≤ 64) : readOp r a n [e] s = readLine r a n e s := by
  simp [readOp, (linePieces_line h0 h).2]

theorem populated_last {a n : Nat} (h : 56 * 2 ^ 30 ≤ a ∨ 56 * 2 ^ 30 ≤ a + n - 1) : (!populated a || !populated (a + n - 1)) = true := by
  simpa [populated] using h

theorem accessError_inside {s : State} {r a n : Nat} {w : Bool} (h : a < 56 * 2 ^ 30) (h' : a + n - 1 < 56 * 2 ^ 30) :
    accessError s r a n w = if protectedFrom s r a n w then some 4 else none := by
  have inside : (!populated a || !populated (a + n - 1)) = false := by simp only [populated, h, h', decide_true]; rfl
  rw [accessError, inside]
  rfl

/-- The controller itself meets no protected range. -/
theorem accessError_controller {s : State} {a n : Nat} {w : Bool} (h : a < 56 * 2 ^ 30) (h' : a + n - 1 < 56 * 2 ^ 30) : accessError s 8 a n w = none := by
  simp [accessError_inside h h', protectedFrom]

theorem accessError_protected {s : State} {r a n : Nat} {w : Bool} (h : a < 56 * 2 ^ 30) (h' : a + n - 1 < 56 * 2 ^ 30) (hr : r ≠ 8)
    (meets : ∃ x ∈ s.dmc.ranges, x.base < a + n ∧ a < x.base + x.size ∧ r ∉ (if w then x.writes else x.reads)) : accessError s r a n w = some 4 := by
  have prot : protectedFrom s r a n w = true := by
    obtain ⟨x, hx, below, above, refused⟩ := meets
    refine Bool.and_eq_true_iff.2 ⟨bne_iff_ne.2 hr, List.any_eq_true.2 ⟨x, hx, ?_⟩⟩
    cases w <;> simp_all
  rw [accessError_inside h h', prot, if_pos rfl]

/-- Settles O19: served accesses by the store or the one read they make, refused ones by their command error. -/
theorem dramAccesses : Obligations.DramAccesses := by
  unfold Obligations.DramAccesses
  refine ⟨fun r a data s running inService allowed => leads_done rfl ?written, fun r a len s running inService allowed clean => leads_done rfl ?read,
    fun r a data e k s running inService refused => leads_done rfl ?writeError, fun r a len e k s running inService pos line refused on => leads_done rfl ?readError,
    fun r a len s running inService pos line allowed marked => leads_done rfl ?poisoned, fun r a len e s running pos line away room => leads_done rfl ?waits,
    fun s r a n w => ⟨fun out => ?outside, fun low high hr meets => accessError_protected low high hr meets, fun low high hr => hr ▸ accessError_controller low high⟩⟩
  case written =>
    have hs : Serving s := ⟨running, inService⟩
    rw [hs.request_write (h := { requester := r, addr := a, data := some data, ecc := [{}] }) (b := data) rfl rfl allowed]
    refine ⟨?_, .settle (.of_write rfl), SameBut.settle (fun p hp => store_dram a data s p (by simp_all)) (by decide) (by decide)⟩
    simpa [load, store] using readBytes_writeBytes data a s.dmc.mem
  case read =>
    have hs : Serving s := ⟨running, inService⟩
    have ecc (i : Nat) : [({} : Ecc)].getD i {} = {} := by cases i <;> simp
    rw [hs.request_read, answered_of_allowed allowed, readOp_clean allowed clean ecc]
    exact ⟨settle_sent _ (by simp [send]), SameBut.settle (send_keeps (K := [.ports, .sent]) _ _ (by decide) (Keeps.refl _ _)).same (by decide) (by decide)⟩
  case writeError =>
    have hs : Serving s := ⟨running, inService⟩
    have effect : request { requester := r, addr := a, data := some data, ecc := [e] } s = commandError a r k s := by
      rw [hs.request]
      simp [serveRequest, abortEntry_running running, writeLine, refused]
    obtain ⟨mem, seen, valid, last⟩ := commandError_dmc a r k s
    rw [effect]
    simp only [settle_frame]
    exact ⟨.settle (.of_mem mem), seen, valid, last⟩
  case readError =>
    have hs : Serving s := ⟨running, inService⟩
    have effect : request { requester := r, addr := a, len := len, ecc := [e] } s = send (.readReply r a (List.replicate len 0) true) (commandError a r k s) := by
      rw [hs.request_read, answered_of_on on, readOp_line pos line]
      simp [readLine, refused]
    obtain ⟨mem, seen, valid, last⟩ := commandError_dmc a r k s
    rw [effect]
    simp only [settle_frame, send]
    exact ⟨.settle (.of_mem mem), seen, valid, settle_sent _ (by simp), last⟩
  case poisoned =>
    have hs : Serving s := ⟨running, inService⟩
    have effect : request { requester := r, addr := a, len := len, ecc := [{}] } s =
        send (.readReply r a (load s a len) true) (recordErr a r 2 (physChannel s a / 4) (physChannel s a % 4) s) := by
      rw [hs.request_read, answered_of_allowed allowed, readOp_line pos line]
      simp [readLine, allowed, marked, countCe_zero, load]
    rw [effect]
    exact ⟨.settle (.of_mem rfl), settle_sent _ (by simp [send]), by simp [send, recordErr]⟩
  case waits =>
    have lines : DramRequest.lines { requester := r, addr := a, len := len, ecc := [e] } = [a / 64] := (linePieces_line pos line).1
    have held : request { requester := r, addr := a, len := len, ecc := [e] } s =
        { s with dmc := { s.dmc with held := s.dmc.held ++ [{ requester := r, addr := a, len := len, ecc := [e] }] } } := by
      simp [request, servesAll, lines, serves, away, running, Nat.not_le.2 room]
    rw [held]
    exact ⟨by simp, .settle (.of_mem rfl)⟩
  case outside => rw [accessError, populated_last out, if_pos rfl]

/-! ### What serving requests leaves of the sites (R429, R433) -/

/-- The controller's mode and channels stay, and no site forgets a failure. -/
structure FailuresStay (s t : State) : Prop where
  mode : t.dmc.mode = s.dmc.mode
  channels : t.dmc.channels = s.dmc.channels
  retrainFail : ∀ n, (siteOf t n).retrainFail = (siteOf s n).retrainFail
  chFail : ∀ n, (siteOf t n).chFail = (siteOf s n).chFail
  degraded : ∀ n, (siteOf s n).degraded = true → (siteOf t n).degraded = true

namespace FailuresStay

variable {s t u : State}

theorem refl (s : State) : FailuresStay s s := ⟨rfl, rfl, fun _ => rfl, fun _ => rfl, fun _ => id⟩

theorem trans (h : FailuresStay s t) (k : FailuresStay t u) : FailuresStay s u where
  mode := k.mode.trans h.mode
  channels := k.channels.trans h.channels
  retrainFail n := (k.retrainFail n).trans (h.retrainFail n)
  chFail n := (k.chFail n).trans (h.chFail n)
  degraded n := k.degraded n ∘ h.degraded n

/-- What writes none of mode, channels and sites. -/
theorem of_sites (mode : t.dmc.mode = s.dmc.mode) (channels : t.dmc.channels = s.dmc.channels) (sites : t.dmc.sites = s.dmc.sites) : FailuresStay s t := by
  have same (n : Nat) : siteOf t n = siteOf s n := by simp [siteOf, sites]
  exact ⟨mode, channels, fun n => by rw [same], fun n => by rw [same], fun n => by rw [same]; exact id⟩

theorem of_dmc (h : t.dmc = s.dmc) : FailuresStay s t := of_sites (by rw [h]) (by rw [h]) (by rw [h])

theorem setSite {n : Nat} {x : Site} (rf : x.retrainFail = (siteOf s n).retrainFail) (cf : x.chFail = (siteOf s n).chFail)
    (dg : (siteOf s n).degraded = true → x.degraded = true) : FailuresStay s (setSite n x s) where
  mode := rfl
  channels := rfl
  retrainFail m := by
    by_cases hm : m = n
    · subst hm; simpa using rf
    · rw [siteOf_setSite_ne hm]
  chFail m := by
    by_cases hm : m = n
    · subst hm; simpa using cf
    · rw [siteOf_setSite_ne hm]
  degraded m := by
    by_cases hm : m = n
    · subst hm; simpa using dg
    · rw [siteOf_setSite_ne hm]; exact id

theorem foldl {α : Type} {g : State → α → State} {R : State → Prop} (keep : ∀ t u, R t → FailuresStay t u → R u) (hg : ∀ t x, R t → FailuresStay t (g t x)) :
    ∀ (xs : List α) s, R s → FailuresStay s (xs.foldl g s)
  | [], s, _ => refl s
  | x :: xs, s, hs => (hg s x hs).trans (foldl keep hg xs _ (keep _ _ hs (hg s x hs)))

theorem degradeSite (n : Nat) (s : State) : FailuresStay s (degradeSite n s) :=
  (setSite (n := n) (x := { siteOf s n with degraded := true }) rfl rfl fun _ => rfl).trans (of_sites rfl rfl rfl)

theorem commandError (a r k : Nat) (s : State) : FailuresStay s (commandError a r k s) := by
  unfold Machine.commandError
  dsimp only
  split <;> exact of_sites rfl rfl rfl

theorem countCe (c k : Nat) (s : State) : FailuresStay s (countCe c k s) := by
  unfold Machine.countCe
  split_ifs
  · exact refl s
  · exact (setSite (n := c / 4) (x := { siteOf s (c / 4) with ceNow := satAdd 16 (siteOf s (c / 4)).ceNow k, ceSeen := true }) rfl rfl id).trans (of_sites rfl rfl rfl)

theorem migrationStop (s : State) : FailuresStay s (migrationStop s) := by
  have dmc : (Machine.migrationStop s).dmc = { s.dmc with migrate := .stopped, norRecord := s.dmc.norRecord.map fun r => (r.1, r.2.1, r.2.2.1, 2) } := by
    simp [Machine.migrationStop]
  exact of_sites (by rw [dmc]) (by rw [dmc]) (by rw [dmc])

theorem countUe (a r c : Nat) (s : State) : FailuresStay s (countUe a r c s) := by
  have recorded : FailuresStay s (recordErr a r 1 (c / 4) (c % 4) s) := of_sites rfl rfl rfl
  have counted (t : State) : FailuresStay t (siteUe c t) := (setSite (n := c / 4) (x := (siteOf t (c / 4)).withUe) rfl rfl id).trans (of_sites rfl rfl rfl)
  have degraded : FailuresStay s (ueCounted a r c s) := by
    refine (recorded.trans (counted _)).trans (.trans ?_ (degradeSite _ _))
    cases (siteOf (recordErr a r 1 (c / 4) (c % 4) s) (c / 4)).ueSecond.isNone
    · exact refl _
    · exact of_sites rfl rfl rfl
  rw [countUe_eq]
  split_ifs
  · exact degraded.trans (migrationStop _)
  · exact degraded

theorem writeLine (r a : Nat) (b : Bytes) (e : Ecc) (s : State) : FailuresStay s (writeLine r a b e s) := by
  have stored : FailuresStay s (store a b s) := of_sites rfl rfl rfl
  unfold Machine.writeLine
  dsimp only
  split
  · exact commandError _ _ _ _
  · split_ifs
    · exact stored
    · have marked (t : State) : FailuresStay t (mark (a / 64) t) := of_sites rfl rfl rfl
      exact ((stored.trans (countCe _ _ _)).trans (marked _)).trans (countUe _ _ _ _)
    · exact stored.trans (countCe _ _ _)

theorem readLine (r a n : Nat) (e : Ecc) (s : State) : FailuresStay s (readLine r a n e s).1 := by
  unfold Machine.readLine
  dsimp only
  split
  · exact commandError _ _ _ _
  · split_ifs
    · exact (countCe _ _ _).trans (of_sites rfl rfl rfl)
    · exact (countCe _ _ _).trans (countUe _ _ _ _)
    · exact countCe _ _ _

theorem readOp (r a n : Nat) (es : List Ecc) (s : State) : FailuresStay s (readOp r a n es s).1 := by
  unfold Machine.readOp
  have pieces (ps : List ((Nat × Nat) × Nat)) (x : State × Bytes × Bool) : FailuresStay x.1 (ps.foldl (fun t p =>
      ((Machine.readLine r p.1.1 p.1.2 (es.getD p.2 {}) t.1).1, t.2.1 ++ (Machine.readLine r p.1.1 p.1.2 (es.getD p.2 {}) t.1).2.1,
        t.2.2 || (Machine.readLine r p.1.1 p.1.2 (es.getD p.2 {}) t.1).2.2)) x).1 := by
    induction ps generalizing x with
    | nil => exact refl _
    | cons p ps ih =>
      rw [List.foldl_cons]
      refine .trans ?_ (ih _)
      exact readLine r p.1.1 p.1.2 (es.getD p.2 {}) x.1
  exact pieces _ (s, [], false)

theorem serveRequest (h : DramRequest) (running : s.dmc.mode = .running) : FailuresStay s (serveRequest h s) := by
  unfold Machine.serveRequest
  rw [abortEntry_running running]
  cases h.data with
  | some b => exact writeLine _ _ _ _ _
  | none =>
    have read := readOp h.requester h.addr h.len h.ecc s
    have answered (c : Bool) (o : Sent) : FailuresStay s (if c then (Machine.readOp h.requester h.addr h.len h.ecc s).1 else send o (Machine.readOp h.requester h.addr h.len h.ecc s).1) := by
      split_ifs
      · exact read
      · exact read.trans (of_dmc rfl)
    have counted (c : Bool) (t : State) (ht : FailuresStay s t) : FailuresStay s (if c then h.bar2.elim t fun p => countPoisoned p t else t) := by
      cases c with
      | false => exact ht
      | true =>
        cases h.bar2 with
        | none => exact ht
        | some p => exact ht.trans (of_dmc (countPoisoned_bar2 p t).2.2.1)
    exact counted _ _ (answered _ _)

theorem releaseHeld (running : s.dmc.mode = .running) : FailuresStay s (releaseHeld s) := by
  have removed : FailuresStay s { s with dmc := { s.dmc with held := s.dmc.held.filter fun h => !servesAll s h } } := of_sites rfl rfl rfl
  exact removed.trans (foldl (R := fun t => t.dmc.mode = .running) (fun _ _ ht h => h.mode.trans ht) (fun _ h ht => serveRequest h ht) _ _ running)

theorem dramChannel (h : FailuresStay s t) (c : Nat) : dramChannel t c = dramChannel s c := by simp [Machine.dramChannel, h.channels]

end FailuresStay

/-- With nothing held nothing is released. -/
theorem releaseHeld_none {s : State} (h : s.dmc.held = []) : releaseHeld s = s := by
  have order : serviceOrder ([] : List DramRequest) = [] := rfl
  simp only [releaseHeld, h, List.filter_nil, order, List.foldl_nil]
  rw [← h]

/-! ### Upkeep (R418 to R429, R433) -/

/-- A site at the end of the hour (R433). -/
def Site.hour (limit : Nat) (x : Site) : Site := { x with ceHour := x.ceNow, ceNow := 0, degraded := x.degraded || decide (limit ≤ x.ceNow) }

def hourStep (limit : Nat) (t : State) (n : Nat) : State :=
  let u := setSite n { siteOf t n with ceHour := (siteOf t n).ceNow, ceNow := 0 } t
  if limit ≤ (siteOf t n).ceNow then degradeSite n u else u

theorem siteOf_degradeSite (n m : Nat) (s : State) : siteOf (degradeSite n s) m = if m = n then { siteOf s n with degraded := true } else siteOf s m := by
  have same (t : State) : siteOf { t with dmc := { t.dmc with degradedSeen := true } } m = siteOf t m := rfl
  rw [degradeSite, same]
  split_ifs with h
  · subst h; simp
  · rw [siteOf_setSite_ne h]

theorem exec_ceHourEval (s : State) : exec .ceHourEval s = done ((List.range 9).foldl (hourStep s.dmc.ceLimit) s) := by
  have step (ns : List Nat) : ∀ t : State, t.dmc.ceLimit = s.dmc.ceLimit → ns.foldl (fun t n =>
      let x := siteOf t n
      let t := setSite n { x with ceHour := x.ceNow, ceNow := 0 } t
      if s.dmc.ceLimit ≤ x.ceNow then degradeSite n t else t) t = ns.foldl (hourStep s.dmc.ceLimit) t := fun _ _ => rfl
  exact congrArg done (step _ s rfl)

theorem siteOf_hourStep (limit n m : Nat) (t : State) : siteOf (hourStep limit t n) m = if m = n then (siteOf t n).hour limit else siteOf t m := by
  unfold hourStep
  dsimp only
  split_ifs with full own own
  · subst own
    simp [siteOf_degradeSite, Site.hour, full]
  · simp [siteOf_degradeSite, own, siteOf_setSite_ne]
  · subst own
    simp [Site.hour, full]
  · exact siteOf_setSite_ne own _ _

/-- A site after the summary of a second (R421). -/
def summaryStep (t : State) (n : Nat) : State :=
  match (siteOf t n).ueSecond with
  | none => t
  | some k => if k = 0 then setSite n { siteOf t n with ueSecond := none } t
    else logEntry (hw 7) n 0x70 (k % 2 ^ 32) [] [] true (setSite n { siteOf t n with ueSecond := none } t)

theorem siteOf_summaryStep (n m : Nat) (t : State) : siteOf (summaryStep t n) m = if m = n then { siteOf t n with ueSecond := none } else siteOf t m := by
  have logged (u : State) (a b c : Nat) : siteOf (logEntry (hw 7) a b c [] [] true u) m = siteOf u m := rfl
  have stored (x : Site) : siteOf (setSite n x t) m = if m = n then x else siteOf t m := by
    split_ifs with h
    · rw [h, siteOf_setSite]
    · exact siteOf_setSite_ne h _ _
  unfold summaryStep
  split
  case h_1 none =>
    split_ifs with h
    · rw [h, ← none]
    · rfl
  case h_2 =>
    split_ifs <;> simp only [logged, stored] <;> simp_all

/-- The summary entries of the requesters (R421). -/
def requesterSummary (t : State) (r : Nat) : State :=
  match Tbl.find? r t.dmc.cmdSecond with
  | none => t
  | some k => if k = 0 then t else logEntry (hw 7) (0x80 + r) 0x70 (k % 2 ^ 32) [] [] true t

theorem requesterSummary_dmc (t : State) (r : Nat) : (requesterSummary t r).dmc = t.dmc := by
  unfold requesterSummary
  split
  · rfl
  · split_ifs <;> rfl

theorem exec_dramErrorSummary (s : State) : exec .dramErrorSummary s =
    done { (List.range 9).foldl requesterSummary ((List.range 9).foldl summaryStep s) with
      dmc := { ((List.range 9).foldl requesterSummary ((List.range 9).foldl summaryStep s)).dmc with cmdSecond := [] } } := by
  change execDramErrorSummary s = _
  unfold execDramErrorSummary
  generalize List.range 9 = ns
  rfl

section Channels

variable {c : Nat} {x : DramChannel} {s : State}

theorem leads_refreshTick {P : State → Prop} (awake : (dramChannel s c).asleep = false) (known : s.dmc.mr4Due = false) (running : s.dmc.mode = .running)
    (hP : P (settle (setChannel c ((dramChannel s c).tick (siteOf s (c / 4)).hot) s))) : Leads (.refreshTick c) s P :=
  leads_event rfl (by simp [awake, known, running]) hP

/-- A channel once its retraining is over: what was held for it is served, which leaves its new state. -/
theorem leads_retrain {P : State → Prop} {ok : Bool} {u : State} (effect : exec (.retrainComplete c ok) s = done (ifEvent (dramChannel s c).retraining (releaseHeld u) s))
    (running : u.dmc.mode = .running) (away : (dramChannel s c).retraining = true) (hP : ∀ t, FailuresStay u t → P t) : Leads (.retrainComplete c ok) s P :=
  leads_event effect away (hP _ ((FailuresStay.releaseHeld running).trans (.of_dmc (by simp))))

end Channels

/-- A second failure in succession, before what was held is served (R429, R433). -/
def channelMarked (c : Nat) (s : State) : State :=
  degradeSite (c / 4) (setSite (c / 4) { siteOf s (c / 4) with
    retrainFail := true, chFail := if (siteOf s (c / 4)).chFail.contains (c % 4) then (siteOf s (c / 4)).chFail else c % 4 :: (siteOf s (c / 4)).chFail }
    (setChannel c { dramChannel s c with retraining := false, marked := true } s))

def channelFails (c : Nat) (s : State) : State :=
  if s.dmc.migrate == .copying && c / 4 == s.dmc.migrateTo then migrationStop (channelMarked c s) else channelMarked c s

theorem failures_channelFails (c : Nat) (s : State) : (channelFails c s).dmc.mode = s.dmc.mode ∧
    dramChannel (channelFails c s) c = { dramChannel s c with retraining := false, marked := true } ∧
    (siteOf (channelFails c s) (c / 4)).retrainFail = true ∧ c % 4 ∈ (siteOf (channelFails c s) (c / 4)).chFail ∧
    (siteOf (channelFails c s) (c / 4)).degraded = true := by
  have stay : FailuresStay (channelMarked c s) (channelFails c s) := by
    unfold channelFails
    split_ifs
    · exact .migrationStop _
    · exact .refl _
  have site : siteOf (channelMarked c s) (c / 4) = { siteOf s (c / 4) with
      retrainFail := true, chFail := (if (siteOf s (c / 4)).chFail.contains (c % 4) then (siteOf s (c / 4)).chFail else c % 4 :: (siteOf s (c / 4)).chFail), degraded := true } := by
    simp [channelMarked, siteOf_degradeSite]
  refine ⟨stay.mode, ?_, ?_, ?_, stay.degraded _ (by rw [site])⟩
  · rw [stay.dramChannel]
    exact dramChannel_setChannel ..
  · rw [stay.retrainFail, site]
  · rw [stay.chFail, site]
    dsimp only
    split_ifs with h
    · simpa using h
    · exact List.mem_cons_self ..

theorem mr4Site_mem (n rate : Nat) (s : State) : (mr4Site n rate s).dmc.mem = s.dmc.mem ∧ (mr4Site n rate s).dmc.mr4Due = s.dmc.mr4Due ∧
    siteOf (mr4Site n rate s) n = { siteOf s n with
      hot := if 8 ≤ rate || (boardSensor s n).any (1360 ≤ ·) then true else if rate ≤ 4 && (boardSensor s n).all (· ≤ 1312) then false else (siteOf s n).hot
      overtemp := 8 < rate } := by
  have shut (u : State) (k : Int) : (drew (beginShutdown 1 n 255 k u)).dmc = u.dmc :=
    (beginShutdown_keeps (K := [.ports, .thm, .pins, .sent]) _ _ _ _ _ (by decide) (Keeps.refl _ _)).same.dmc_eq (by decide) (by decide)
  have seen (u : State) : siteOf { u with dmc := { u.dmc with hotSeen := true } } n = siteOf u n := rfl
  unfold mr4Site
  dsimp only
  split_ifs <;> simp only [shut, siteOf_of (shut _ _), seen, siteOf_setSite, and_true] <;> exact ⟨rfl, rfl⟩

/-- Settles O20: each decision by what it makes of its channel or its site. -/
theorem dramRefreshAndUpkeep : Obligations.DramRefreshAndUpkeep := by
  unfold Obligations.DramRefreshAndUpkeep
  refine ⟨fun c s awake known running same => leads_refreshTick awake known running ?ticks, fun c s awake known running hot cool => leads_refreshTick awake known running ?heats,
    fun c s awake known running hot cool => leads_refreshTick awake known running ?cools, fun c idle s awake known owes due => leads_event rfl ?due ?issues,
    fun line s running inService low clean => ?scrubs, fun s => leads_done (exec_ceHourEval s) ?hour, fun s => leads_done (exec_dramErrorSummary s) ?summary,
    fun n rate s running => leads_event rfl (by simp [running]) ?mr4, fun c s running away => ?trained, fun c s running away first => ?retried,
    fun c s running away second => ?failed⟩
  case ticks =>
    have tick : (dramChannel s c).tick (siteOf s (c / 4)).hot = { dramChannel s c with debt := (dramChannel s c).debt + 1 } := by
      simp [DramChannel.tick, same]
    exact ⟨by simp [tick], fun k hk => by simp [dramChannel_setChannel_ne hk]⟩
  case heats => simp [DramChannel.tick, hot, cool]
  case cools => simp [DramChannel.tick, hot, cool]
  case due => simp_all
  case issues =>
    refine ⟨?_, settle_sent _ (by simp [send]), .settle (.of_mem rfl)⟩
    have same (o : Sent) (u : State) : dramChannel (send o u) c = dramChannel u c := rfl
    rw [dramChannel_settle, same, dramChannel_setChannel]
  case scrubs =>
    have allowed : accessError s 8 (64 * line) 64 false = none := accessError_controller low (by omega)
    refine leads_event rfl ?_ ⟨?_, ?_, ?_⟩
    · simp only [running, (Serving.mk running inService).serves, populated, low, decide_true]; rfl
    · simp
    · exact .settle (.of_mem (by simp [readLine_clean allowed clean]))
    · simp [readLine_clean allowed clean]
  case hour =>
    intro n hn
    have sites := foldl_pointwise (get := siteOf) (g := hourStep s.dmc.ceLimit) (h := fun _ => Site.hour s.dmc.ceLimit)
      (fun t m => by simp [siteOf_hourStep]) (fun t m k hk => by simp [siteOf_hourStep, hk]) (List.range 9) List.nodup_range s n
    rw [siteOf_settle, sites, if_pos (List.mem_range.2 hn)]
    exact ⟨rfl, rfl, rfl⟩
  case summary =>
    refine ⟨by simp, fun n hn => ?_⟩
    have sites := foldl_pointwise (get := siteOf) (g := summaryStep) (h := fun _ x => { x with ueSecond := none })
      (fun t m => by simp [siteOf_summaryStep]) (fun t m k hk => by simp [siteOf_summaryStep, hk]) (List.range 9) List.nodup_range s n
    have dmc := foldl_fixed (f := State.dmc) requesterSummary_dmc (List.range 9) ((List.range 9).foldl summaryStep s)
    have same (u : State) : siteOf { u with dmc := { u.dmc with cmdSecond := [] } } n = siteOf u n := rfl
    rw [siteOf_settle, same, siteOf_of dmc, sites, if_pos (List.mem_range.2 hn)]
  case mr4 =>
    obtain ⟨mem, due, site⟩ := mr4Site_mem n rate { s with dmc := { s.dmc with mr4Due := false } }
    refine ⟨?_, .settle (.of_mem mem), ?_, ?_⟩
    · simpa using due
    · rw [siteOf_settle]
      exact congrArg Site.overtemp site
    · rw [siteOf_settle]
      refine (congrArg Site.hot site).trans ?_
      simp only [Bool.or_eq_true, Bool.and_eq_true, decide_eq_true_eq]
      rfl
  case trained =>
    refine leads_retrain rfl running away fun t stay => ?_
    rw [stay.dramChannel]
    exact dramChannel_setChannel ..
  case retried =>
    refine leads_retrain (u := setChannel c { dramChannel s c with retraining := false, marked := true, failedOnce := true } s)
      ?_ running away fun t stay => ?_
    · change execRetrainComplete c false s = _
      simp [execRetrainComplete, first]
    · rw [stay.dramChannel]
      exact dramChannel_setChannel ..
  case failed =>
    have effect : exec (.retrainComplete c false) s = done (ifEvent (dramChannel s c).retraining (releaseHeld (channelFails c s)) s) := by
      change execRetrainComplete c false s = _
      simp only [execRetrainComplete, second, Bool.false_eq_true, if_false, Bool.not_true, channelFails, channelMarked]
    obtain ⟨mode, channels, retrainFail, chFail, degraded⟩ := failures_channelFails c s
    refine leads_retrain effect (mode.trans running) away fun t stay => ⟨?_, ?_, ?_, stay.degraded _ degraded⟩
    · rw [stay.dramChannel]
      exact channels
    · rw [stay.retrainFail]
      exact retrainFail
    · rw [stay.chFail]
      exact chFail

/-! ### Self-refresh, initialisation and migration (R405, R430 to R438) -/

/-- A channel that has entered self-refresh (R430). -/
def DramChannel.sleep (x : DramChannel) : DramChannel := { x with debt := 0, asleep := true, retryAt := none }

theorem sendAll_dmc (os : List Sent) (s : State) : (sendAll os s).dmc = s.dmc := by simp

theorem sleepChannel_dmc (c : Nat) (s : State) :
    (sleepChannel c s).dmc = { s.dmc with channels := Tbl.set c (dramChannel s c).sleep (Tbl.set c { dramChannel s c with debt := 0 } s.dmc.channels) } := by
  have served : dramChannel (serveDebt c s) c = { dramChannel s c with debt := 0 } := by
    rw [serveDebt, dramChannel_of (sendAll_dmc _ _), dramChannel_setChannel]
  have dmc : (serveDebt c s).dmc = { s.dmc with channels := Tbl.set c { dramChannel s c with debt := 0 } s.dmc.channels } := by
    rw [serveDebt, sendAll_dmc]
    rfl
  have same (o : Sent) (x : DramChannel) (u : State) : (send o (setChannel c x u)).dmc = { u.dmc with channels := Tbl.set c x u.dmc.channels } := rfl
  rw [sleepChannel, same, served, dmc]
  rfl

theorem dramChannel_sleepChannel (c k : Nat) (s : State) : dramChannel (sleepChannel c s) k = if k = c then (dramChannel s c).sleep else dramChannel s k := by
  rw [dramChannel, sleepChannel_dmc]
  split_ifs with h
  · rw [h, Tbl.get_set_self]
  · rw [Tbl.get_set_ne h, Tbl.get_set_ne h, dramChannel]

theorem settleEntry_awake (s : State) : (settleEntry s).dmc.channels = s.dmc.channels ∧ (settleEntry s).dmc.mem = s.dmc.mem := by
  unfold settleEntry
  split_ifs <;> exact ⟨rfl, rfl⟩

theorem settleEntry_asleep {s : State} (h : ∀ c < 36, (dramChannel s c).asleep = true) : (settleEntry s).dmc.mode = .selfRefresh := by
  have all : (allChannels.all fun c => (dramChannel s c).asleep) = true := List.all_eq_true.2 fun c hc => h c (List.mem_range.1 hc)
  rw [settleEntry, if_pos all]

/-- The end of a channel's retraining (R430). -/
def endOne (t : State) (c : Nat) : State := if (dramChannel t c).retraining then setChannel c { dramChannel t c with retraining := false } t else t

theorem endOne_held (t : State) (c : Nat) : (endOne t c).dmc.held = t.dmc.held ∧ (endOne t c).dmc.mem = t.dmc.mem := by
  unfold endOne
  split_ifs <;> exact ⟨rfl, rfl⟩

/-- An entry with nothing held and no channel busy: every channel sleeps, one after the other. -/
theorem enterSelfRefresh_quiet {s : State} (held : s.dmc.held = []) :
    enterSelfRefresh [] s = settleEntry (allChannels.foldl (fun t c => sleepChannel c t) (allChannels.foldl endOne { s with dmc := { s.dmc with mode := .entering } })) := by
  have none : (allChannels.foldl endOne { s with dmc := { s.dmc with mode := .entering } }).dmc.held = [] :=
    (foldl_fixed (f := fun t : State => t.dmc.held) (fun t c => (endOne_held t c).1) allChannels _).trans held
  have ended := releaseHeld_none none
  unfold enterSelfRefresh endRetraining
  generalize allChannels = cs at *
  exact congrArg (fun u => settleEntry (cs.foldl (fun t c => sleepChannel c t) u)) ended

theorem entered_mem (s : State) : (allChannels.foldl (fun t c => sleepChannel c t) (allChannels.foldl endOne s)).dmc.mem = s.dmc.mem := by
  generalize allChannels = cs
  rw [foldl_fixed (f := fun t : State => t.dmc.mem) (g := fun t c => sleepChannel c t) (fun t c => by rw [sleepChannel_dmc]),
    foldl_fixed (f := fun t : State => t.dmc.mem) (fun t c => (endOne_held t c).2)]

/-- A channel that has left self-refresh (R432). -/
def wakeOne (now : Nat) (t : State) (c : Nat) : State :=
  send (.dramCmd (c / 4) (c % 4) 3)
    (setChannel c { dramChannel t c with asleep := false, retryAt := none, marked := false, failedOnce := false, lastTrained := now } t)

theorem wakeOne_held (now : Nat) (t : State) (c : Nat) : (wakeOne now t c).dmc.held = t.dmc.held ∧ (wakeOne now t c).dmc.mem = t.dmc.mem := ⟨rfl, rfl⟩

theorem dramChannel_wakeOne (now c k : Nat) (t : State) : (dramChannel (wakeOne now t c) k).asleep = if k = c then false else (dramChannel t k).asleep := by
  have sent (o : Sent) (u : State) : dramChannel (send o u) k = dramChannel u k := rfl
  rw [wakeOne, sent]
  split_ifs with h
  · rw [h, dramChannel_setChannel]
  · rw [dramChannel_setChannel_ne h]

/-- The controller after an exit (R432, R441). -/
def DmcState.woken (d : DmcState) : DmcState := { d with mode := .running, mr4Due := true, migrate := if d.migrate == .paused then .copying else d.migrate }

theorem dramChannel_woken (s : State) (c : Nat) : dramChannel { s with dmc := s.dmc.woken } c = dramChannel s c := rfl

theorem exitSelfRefresh_quiet {s : State} (held : s.dmc.held = []) :
    exitSelfRefresh s = { allChannels.foldl (wakeOne (tb0 s)) s with dmc := (allChannels.foldl (wakeOne (tb0 s)) s).dmc.woken } := by
  have none : (allChannels.foldl (wakeOne (tb0 s)) s).dmc.held = [] :=
    (foldl_fixed (f := fun t : State => t.dmc.held) (fun t c => (wakeOne_held (tb0 s) t c).1) allChannels s).trans held
  unfold exitSelfRefresh
  generalize allChannels = cs at *
  exact releaseHeld_none none

theorem requestDomains_nil (on : Bool) (s : State) : requestDomains on [] s = s := by simp [requestDomains]

theorem siteDomains_of {s t : State} (h : t.dmc.siteMap = s.dmc.siteMap ∧ t.dmc.migrate = s.dmc.migrate ∧ t.dmc.migrateTo = s.dmc.migrateTo ∧ t.dmc.migrateFrom = s.dmc.migrateFrom) :
    siteDomains t = siteDomains s := by
  obtain ⟨map, migrate, target, source⟩ := h
  simp only [siteDomains, copyOpen, map, migrate, target, source]

/-- The exit that SELF_REFRESH_EXIT begins: the domains that are off are asked for. -/
def exiting (s : State) : State :=
  requestDomains true ((siteDomains s).filter fun d => !domainOn s d) { s with dmc := { s.dmc with mode := .exiting } }

theorem leads_selfRefreshExit {P : State → Prop} {s : State} (asleep : s.dmc.mode = .selfRefresh) (bench : s.tim.bench = .off ∨ s.tim.bench = .leaving)
    (up : s.hif.powerDown = false) (hP : P (settle (settleExit (exiting s)))) : Leads .selfRefreshExit s P :=
  leads_event rfl (by rcases bench with h | h <;> simp [asleep, up, h]) hP

theorem settleExit_eq (s : State) : settleExit (exiting s) = if (siteDomains s).all (domainOn s) then exitSelfRefresh (exiting s) else exiting s := by
  have domains : siteDomains (exiting s) = siteDomains s := siteDomains_of ⟨rfl, rfl, rfl, rfl⟩
  have on : domainOn (exiting s) = domainOn s := rfl
  have mode : (exiting s).dmc.mode = .exiting := rfl
  simp only [settleExit, mode, domains, on]
  rfl

theorem mapSites_held (good : List Nat) (d : DmcState) : (mapSites good d).held = d.held := by
  unfold mapSites
  dsimp only
  repeat' split
  all_goals rfl

/-- The controller once the sites are mapped, before it is known whether they work (R402 to R404). -/
def initBase (answered good : List Nat) (rows : Nat) (install : Option InstallRecord) (d0 : DmcState) : DmcState :=
  { mapSites good d0 with
    mem := [], poison := [], channels := []
    sites := (List.range 9).map fun n => (n, { Tbl.get d0.sites {} n with state := initState (mapSites good d0) answered good n, populated := answered.contains n })
    spareAbsent := !answered.contains 8, spareSite := if good.contains (mapSites good d0).spareSite then (mapSites good d0).spareSite else 15
    rate := match install with | some r => if rows ≤ 6 && r.rate = 1 then 1 else 0 | none => 0
    masks := match install.bind (·.masks) with | some m => m.map (· &&& 0x1FFFE1F) | none => [0x222200, 0x444400, 0x888800, 0x1111000] }

theorem initDmc_eq (answered good : List Nat) (rows : Nat) (install : Option InstallRecord) (d : DmcState) : initDmc answered good rows install d =
    if (initBase answered good rows install d).siteMap.all good.contains then { initBase answered good rows install d with mode := .running }
    else { initBase answered good rows install d with mode := .failed, dramFail := true, held := [] } := rfl

/-- What the initialisation leaves of the controller (R405). -/
theorem initDmc_zero {answered good : List Nat} {rows : Nat} {install : Option InstallRecord} {d e : DmcState} (he : e = initDmc answered good rows install d)
    (held : d.held = []) : e.mem = [] ∧ e.poison = [] ∧ e.held = [] ∧
      if e.siteMap.all good.contains then e.mode = .running else e.mode = .failed ∧ e.dramFail = true := by
  have none : (initBase answered good rows install d).held = [] := (mapSites_held good d).trans held
  rw [initDmc_eq] at he
  split_ifs at he with works
  · subst he
    exact ⟨rfl, rfl, none, by rw [if_pos works]⟩
  · subst he
    exact ⟨rfl, rfl, rfl, by rw [if_neg works]; exact ⟨rfl, rfl⟩⟩

theorem assertFault_fault (s : State) : (assertFault s).pins.fault = true := by
  unfold assertFault
  split_ifs with h
  · exact h
  · simp

/-- After the initialisation FAULT# is set or what waited is served. -/
theorem afterInit {t : State} (held : t.dmc.held = []) :
    (if t.dmc.dramFail then assertFault t else releaseHeld (siteDomainsOn t)).dmc = t.dmc ∧
      (t.dmc.dramFail = true → (if t.dmc.dramFail then assertFault t else releaseHeld (siteDomainsOn t)).pins.fault = true) := by
  cases fails : t.dmc.dramFail with
  | true => exact ⟨by simp, fun _ => assertFault_fault t⟩
  | false =>
    rw [if_neg Bool.false_ne_true, releaseHeld_none (s := siteDomainsOn t) held]
    exact ⟨rfl, fun h => absurd h Bool.false_ne_true⟩

/-- Noting the marks of a chunk writes DMC_ERR_LAST alone. -/
theorem noteMarks_fixed {β : Type} {f : State → β} (hf : ∀ t a r k n c, f (recordErr a r k n c t) = f t) (r : Nat) (ls : List Nat) (s : State) :
    f (noteMarks r ls s) = f s := by
  unfold noteMarks
  exact foldl_fixed (fun t _ => hf t _ _ _ _ _) _ s

/-- An uncorrectable error of the target stops the copy (R438). -/
theorem countUe_stops {s : State} {a r c : Nat} (copying : s.dmc.migrate = .copying) (target : c / 4 = s.dmc.migrateTo) :
    (countUe a r c s).dmc.migrate = .stopped ∧ (countUe a r c s).dmc.moved = s.dmc.moved ∧ (countUe a r c s).pins.fault = true := by
  have moved : (ueCounted a r c s).dmc.moved = s.dmc.moved := by
    have degraded (t : State) : (degradeSite (c / 4) t).dmc.moved = t.dmc.moved := rfl
    rw [ueCounted, degraded]
    cases (siteOf (recordErr a r 1 (c / 4) (c % 4) s) (c / 4)).ueSecond.isNone <;> rfl
  have stop (u : State) : (migrationStop u).dmc.migrate = .stopped ∧ (migrationStop u).dmc.moved = u.dmc.moved ∧ (migrationStop u).pins.fault = true := by
    simp [migrationStop, assertFault_fault]
  rw [countUe_eq, if_pos (by simp [copying, target])]
  obtain ⟨stopped, kept, fault⟩ := stop (ueCounted a r c s)
  exact ⟨stopped, kept.trans moved, fault⟩

/-- Settles O21: the entries and exits channel by channel, the initialisation and the copy by what they write. -/
theorem dramModes : Obligations.DramModes := by
  unfold Obligations.DramModes
  refine ⟨fun s entering held => leads_event rfl (by simp [entering]) ?entry, fun c u s entering retry => ?retry,
    fun s asleep bench up held on => leads_selfRefreshExit asleep bench up ?exit, fun d s asleep bench up used off => leads_selfRefreshExit asleep bench up ?waits,
    fun answered good s initial released held => ?init, fun s copying running held few => ?chunk, fun l s copying running few => ?stops⟩
  case entry =>
    rw [enterSelfRefresh_quiet held]
    have slept {c : Nat} (hc : c < 36) := foldl_allChannels (get := dramChannel) (g := fun t c => sleepChannel c t) (h := fun _ => DramChannel.sleep)
      (fun t c => by simp [dramChannel_sleepChannel]) (fun t c k hk => by simp [dramChannel_sleepChannel, hk])
      (allChannels.foldl endOne { s with dmc := { s.dmc with mode := .entering } }) hc
    have mem := entered_mem { s with dmc := { s.dmc with mode := .entering } }
    obtain ⟨kept, bytes⟩ := settleEntry_awake (allChannels.foldl (fun t c => sleepChannel c t) (allChannels.foldl endOne { s with dmc := { s.dmc with mode := .entering } }))
    generalize allChannels.foldl (fun t c => sleepChannel c t) (allChannels.foldl endOne { s with dmc := { s.dmc with mode := .entering } }) = u at *
    refine ⟨?_, fun c hc => ?_, .settle (.of_mem (bytes.trans mem))⟩
    · simp only [settle_frame]
      exact settleEntry_asleep fun c hc => by rw [slept hc]; rfl
    · rw [dramChannel_settle, dramChannel, kept]
      have asleep := slept hc
      rw [dramChannel] at asleep
      rw [asleep]
      exact ⟨rfl, rfl⟩
  case retry =>
    have effect : exec (.selfRefreshRetry c) s = done (ifEvent (s.dmc.mode == .entering) (settleEntry (sleepChannel c (advanceTo0 u s))) s) := by
      change execSelfRefreshRetry c s = _
      simp [execSelfRefreshRetry, retry]
    obtain ⟨kept, bytes⟩ := settleEntry_awake (sleepChannel c (advanceTo0 u s))
    have slept : dramChannel (settle (settleEntry (sleepChannel c (advanceTo0 u s)))) c = (dramChannel (advanceTo0 u s) c).sleep := by
      rw [dramChannel_settle, dramChannel, kept]
      exact (dramChannel_sleepChannel c c _).trans (if_pos rfl)
    refine leads_event effect (by simp [entering]) ?_
    rw [slept]
    exact ⟨rfl, rfl, rfl, .settle (.of_mem (bytes.trans (by rw [sleepChannel_dmc]; simp)))⟩
  case exit =>
    have all : (siteDomains s).all (domainOn s) = true := List.all_eq_true.2 on
    have held' : (exiting s).dmc.held = [] := held
    have awake {c : Nat} (hc : c < 36) := foldl_allChannels (get := fun t c => (dramChannel t c).asleep) (g := wakeOne (tb0 (exiting s))) (h := fun _ _ => false)
      (fun t c => by simp [dramChannel_wakeOne]) (fun t c k hk => by simp [dramChannel_wakeOne, hk]) (exiting s) hc
    have mem := foldl_fixed (f := fun t : State => t.dmc.mem) (fun t c => (wakeOne_held (tb0 (exiting s)) t c).2) allChannels (exiting s)
    rw [settleExit_eq, if_pos all, exitSelfRefresh_quiet held']
    refine ⟨by simp [DmcState.woken], by simp [DmcState.woken], fun c hc => ?_, .settle (.of_mem mem)⟩
    rw [dramChannel_settle, dramChannel_woken]
    exact awake hc
  case waits =>
    have notAll : ¬ (siteDomains s).all (domainOn s) = true := fun all => by simpa [off] using List.all_eq_true.1 all d used
    rw [settleExit_eq, if_neg notAll]
    refine ⟨by simp [exiting, requestDomains], ?_, .settle (.of_mem rfl)⟩
    simp only [settle_frame]
    refine List.mem_append_right _ (List.mem_map.2 ⟨d, List.mem_filter.2 ⟨used, ?_⟩, rfl⟩)
    simp [off]
  case init =>
    refine leads_event rfl (by simp [initial, released]) ?_
    obtain ⟨mem, poison, none, mode⟩ := initDmc_zero (e := initDmc answered good (configRows s) s.bot.install s.dmc) rfl held
    obtain ⟨dmc, fault⟩ := afterInit (t := { s with dmc := initDmc answered good (configRows s) s.bot.install s.dmc }) none
    simp only [settle_frame, dmc]
    refine ⟨fun a => by rw [mem]; rfl, poison, ?_⟩
    by_cases works : (initDmc answered good (configRows s) s.bot.install s.dmc).siteMap.all good.contains = true
    · rw [if_pos works] at mode ⊢
      exact mode
    · rw [if_neg works] at mode ⊢
      exact ⟨mode.1, mode.2, fault mode.2⟩
  case chunk =>
    have fixed {β : Type} {f : State → β} (hf : ∀ t a r k n c, f (recordErr a r k n c t) = f t) := noteMarks_fixed hf 8 (s.dmc.poison.filter (inChunk s)) s
    have moved : (moveChunk [] s).dmc.moved = s.dmc.moved ++ [nextChunk s.dmc.moved] := rfl
    have held' : (moveChunk [] s).dmc.held = [] := (fixed (f := fun t => t.dmc.held) fun _ _ _ _ _ _ => rfl).trans held
    have goesOn : ¬ (moveChunk [] s).dmc.moved.length = 7168 := by rw [moved]; simp; omega
    have effect : exec (.migrationChunk [] none) s = done (ifEvent (s.dmc.migrate == .copying && s.dmc.mode == .running && s.dmc.moved.length < 7168) (moveChunk [] s) s) := by
      change execMigrationChunk [] none s = _
      simp only [execMigrationChunk, if_neg goesOn, releaseHeld_none held']
    refine leads_event effect ?_ ?_
    · simp [copying, running, Nat.lt_succ_of_lt few]
    · simp only [settle_frame]
      exact ⟨(fixed (f := fun t => t.dmc.migrate) fun _ _ _ _ _ _ => rfl).trans copying, moved, .settle (.of_mem (fixed (f := fun t => t.dmc.mem) fun _ _ _ _ _ _ => rfl)),
        fixed (f := fun t => t.dmc.siteMap) fun _ _ _ _ _ _ => rfl⟩
  case stops =>
    have effect : exec (.migrationChunk [] (some l)) s = done (ifEvent (s.dmc.migrate == .copying && s.dmc.mode == .running && s.dmc.moved.length < 7168)
        (countUe (64 * l) 8 (4 * s.dmc.migrateTo + (channelOf (64 * l)).1 % 4) s) s) := rfl
    have target : (4 * s.dmc.migrateTo + (channelOf (64 * l)).1 % 4) / 4 = s.dmc.migrateTo := by omega
    refine leads_event effect (by simp [copying, running, few]) ?_
    simpa only [settle_frame] using countUe_stops copying target

end Sys2Proof.Machine
end

section
/-! Proof of O22: the tile links (R271 to R291). -/

namespace Sys2Proof.Machine

/-- Of a fold whose steps each write one entry of a table, the step of an entry meets that entry as it was. -/
theorem foldl_meets {σ α : Type} {get : σ → Nat → α} {g : σ → Nat → σ} (other : ∀ t n m, m ≠ n → get (g t n) m = get t m) :
    ∀ {ns : List Nat}, ns.Nodup → ∀ {s n}, n ∈ ns → ∃ t, get t n = get s n ∧ get (ns.foldl g s) n = get (g t n) n := by
  intro ns
  induction ns with
  | nil => simp
  | cons k ns ih =>
    intro nodup s n hn
    obtain ⟨fresh, nodup⟩ := List.nodup_cons.1 nodup
    rw [List.foldl_cons]
    rcases List.mem_cons.1 hn with rfl | hn
    · have last (ms : List Nat) (hms : n ∉ ms) (t : σ) : get (ms.foldl g t) n = get t n := by
        induction ms generalizing t with
        | nil => rfl
        | cons m ms ih => rw [List.foldl_cons, ih (fun h => hms (List.mem_cons_of_mem _ h)), other _ _ _ fun h => hms (by simp [h])]
      exact ⟨s, rfl, last ns fresh _⟩
    · obtain ⟨t, ht, result⟩ := ih nodup (s := g s k) hn
      exact ⟨t, ht.trans (other _ _ _ fun h => fresh (h ▸ hn)), result⟩

section Links

variable {n : Nat} {s : State}

theorem linkOf_send (o : Sent) (k : Nat) : linkOf (send o s) k = linkOf s k := rfl
theorem linkOf_log (o : Origin) (a b c k : Nat) : linkOf (log o a b c s) k = linkOf s k := rfl
theorem linkOf_sendDark (n k : Nat) : linkOf (sendDark n s) k = linkOf s k := by
  unfold sendDark
  split_ifs <;> rfl

/-- A link that leaves UP keeps all but the mark of half service. -/
theorem linkOf_leaveUp : ∃ half, linkOf (leaveUp n s) n = { linkOf s n with halfSeen := half } := by
  simp only [leaveUp]
  split_ifs
  · exact ⟨true, linkOf_setLink ..⟩
  · exact ⟨(linkOf s n).halfSeen, rfl⟩

theorem linkOf_leaveUp_ne {k : Nat} (h : k ≠ n) : linkOf (leaveUp n s) k = linkOf s k := by
  have same : linkOf { s with tim := { s.tim with retrainLinks := s.tim.retrainLinks.filter (· ≠ n) } } k = linkOf s k := rfl
  simp only [leaveUp]
  split_ifs
  · exact (linkOf_setLink_ne h _ _).trans same
  · exact same

theorem linkOf_startTraining (half retried : Bool) : (linkOf (startTraining n half retried s) n).state = .training ∧
    (linkOf (startTraining n half retried s) n).half = half ∧ (linkOf (startTraining n half retried s) n).retried = retried ∧
    (linkOf (startTraining n half retried s) n).lossSince = none := by
  simp [startTraining]

/-- A link that fails keeps what its frames and seconds left. -/
theorem linkOf_failLink : ∃ half since, linkOf (failLink n s) n =
    { linkOf s n with state := .failed, failedAt := since, headerNext := false, headerNow := false, halfSeen := half } := by
  obtain ⟨half, left⟩ := linkOf_leaveUp (n := n) (s := s)
  exact ⟨half, tb0 (leaveUp n s), by rw [failLink, linkOf_send, linkOf_setLink, left]⟩

theorem linkOf_failLink_ne {k : Nat} (h : k ≠ n) : linkOf (failLink n s) k = linkOf s k := by
  rw [failLink, linkOf_send, linkOf_setLink_ne h, linkOf_leaveUp_ne h]

theorem linkOf_takePanel (id k : Nat) : linkOf (takePanel id s) k = linkOf s k := by
  unfold takePanel
  split
  · rfl
  · split_ifs <;> rfl

theorem linkOf_goUp (aligning : (linkOf s n).state = .aligning) (lock : (linkOf s n).cwLock = true) :
    linkOf (goUp n s) n = { linkOf s n with state := .up, retried := false, lossSince := none } := by
  have tiles (u : State) (x : OutState) : linkOf { u with out := x } n = linkOf u n := rfl
  simp only [goUp]
  rw [if_pos (by simp [aligning, lock])]
  split_ifs
  · rw [linkOf_sendDark, tiles, linkOf_setLink]
  · rw [tiles, linkOf_setLink]

/-- What the judgement of a second leaves of a link: its counts and its base. -/
def Link.counts (l : Link) : Nat × Nat × Nat × Option (Nat × Nat) := (l.unc, l.lineErr, l.uncTotal, l.base)

theorem counts_judge (old unc : Nat) : (linkOf (judge n old unc s) n).counts = (linkOf s n).counts := by
  have fault (u : State) : linkOf (assertFault u) n = linkOf u n := linkOf_of (by simp) n
  unfold judge
  dsimp only
  split_ifs
  · rfl
  · obtain ⟨half, since, failed⟩ := linkOf_failLink (n := n) (s := setLink n { linkOf s n with badSeconds := 0 } s)
    rw [linkOf_log, fault, failed, linkOf_setLink]
    rfl
  · rw [linkOf_setLink]
    rfl
  · simp [linkOf_log, control, Link.counts]

theorem linkOf_judge_ne {k : Nat} (h : k ≠ n) (old unc : Nat) : linkOf (judge n old unc s) k = linkOf s k := by
  have fault (u : State) : linkOf (assertFault u) k = linkOf u k := linkOf_of (by simp) k
  unfold judge
  dsimp only
  split_ifs
  · rfl
  · rw [linkOf_log, fault, linkOf_failLink_ne h, linkOf_setLink_ne h]
  · rw [linkOf_setLink_ne h]
  · rw [linkOf_log, linkOf_setLink_ne h, control, linkOf_setLink_ne h, linkOf_setLink_ne h]

theorem linkOf_secondOf_ne {k : Nat} (h : k ≠ n) (stopped : Bool) : linkOf (secondOf stopped n s) k = linkOf s k := by
  unfold secondOf
  dsimp only
  split_ifs <;> simp only [linkOf_judge_ne h, linkOf_setLink_ne h]

theorem counts_secondOf (up : (linkOf s n).state = .up) (stopped : Bool) : (linkOf (secondOf stopped n s) n).counts =
    ((linkOf s n).second.1, (linkOf s n).second.2, satAdd 32 (linkOf s n).uncTotal (linkOf s n).second.1, (linkOf s n).latest) := by
  unfold secondOf
  dsimp only
  rw [up, if_neg (by decide), counts_judge, linkOf_setLink]
  rfl

end Links

theorem leads_linkFrame {P : State → Prop} {c : Instr} {s u : State} (h : exec c s = done (ifEvent true u s)) (hP : P (settle u)) : Leads c s P := leads_event h rfl hP

/-- Settles O22: each frame and each time-out by its step on the link, the second by the step that each link meets. -/
theorem tileLinks : Obligations.TileLinks := by
  unfold Obligations.TileLinks
  refine ⟨fun n gs b f s good hf training => ?train, fun n gs b f s good hf aligning pos caps lock => ?ident, fun n gs b f s good hf aligning bad => ?identFails,
    fun n s trains => leads_event rfl (by rcases trains with h | h <;> simp [h]) ?timeout, fun n s failed => leads_event rfl (by simp [failed]) ?again,
    fun n u s up loss => ?loss, fun n gs b f s good hf up => ?status, fun n u s last up fresh => ?stale, fun s => leads_done rfl ?second⟩
  case train =>
    subst hf
    have effect : exec (.trainFrame n gs) s = done (ifEvent ((linkOf s n).state == .training) (trainStep n (trainOf b) s) s) := by
      change execTrainFrame n gs s = _
      simp only [execTrainFrame, good]
    refine leads_event effect (by simp [training]) ?_
    simp only [linkOf_settle, trainStep, tapStep]
    split_ifs <;> simp only [linkOf_send, linkOf_setLink, training, true_and] <;> exact fun k hk => linkOf_setLink_ne hk _ _
  case ident =>
    subst hf
    have effect : exec (.identFrame n gs) s = done (ifEvent ((linkOf s n).state == .aligning || (linkOf s n).state == .up) (identStep n (identOf b) s) s) := by
      change execIdentFrame n gs s = _
      simp only [execIdentFrame, good]
    refine leads_event effect (by simp [aligning]) ?_
    have step : linkOf (identStep n (identOf b) s) n = { linkOf s n with
        rev := (identOf b).rev, panelId := some (identOf b).panelId, tileSerial := (identOf b).tileSerial, identMismatch := false, state := .up, retried := false, lossSince := none } := by
      simp only [identStep, pos, caps, decide_true, Bool.and_self, if_true]
      rw [linkOf_goUp] <;> rw [linkOf_takePanel, linkOf_setLink]
      · exact aligning
      · exact lock
    rw [linkOf_settle, step]
    exact ⟨rfl, rfl, rfl⟩
  case identFails =>
    subst hf
    have effect : exec (.identFrame n gs) s = done (ifEvent ((linkOf s n).state == .aligning || (linkOf s n).state == .up) (identStep n (identOf b) s) s) := by
      change execIdentFrame n gs s = _
      simp only [execIdentFrame, good]
    refine leads_event effect (by simp [aligning]) ?_
    have wrong : ¬ (decide ((identOf b).pos = n) && decide ((identOf b).caps % 4 = 3)) = true := by simpa using bad
    simp only [linkOf_settle, identStep, if_neg wrong]
    obtain ⟨half, since, failed⟩ := linkOf_failLink (n := n) (s := setLink n { linkOf s n with
      rev := (identOf b).rev, panelId := some (identOf b).panelId, tileSerial := (identOf b).tileSerial, identMismatch := true } s)
    rw [failed, linkOf_setLink]
    exact ⟨rfl, rfl⟩
  case timeout =>
    rw [linkOf_settle]
    cases retried : (linkOf s n).retried
    · obtain ⟨state, -, again, -⟩ := linkOf_startTraining (n := n) (s := advanceTo0 ((linkOf s n).trainStart + 100000000) s) (linkOf s n).half true
      exact ⟨state, fun _ => again⟩
    · obtain ⟨half, since, failed⟩ := linkOf_failLink (n := n) (s := advanceTo0 ((linkOf s n).trainStart + 100000000) s)
      rw [if_pos rfl, failed]
      exact ⟨rfl, fun h => absurd h (by decide)⟩
  case again =>
    obtain ⟨state, half, -, -⟩ := linkOf_startTraining (n := n) (s := advanceTo0 ((linkOf s n).failedAt + 60000000000) s) (linkOf s n).half false
    rw [linkOf_settle]
    exact ⟨state, half⟩
  case loss =>
    have effect : exec (.cwLockLoss n) s = done (ifEvent ((linkOf s n).state == .up) (startTraining n (linkOf s n).half false (advanceTo0 (u + 1000000) s)) s) := by
      change execCwLockLoss n s = _
      simp only [execCwLockLoss, loss]
    obtain ⟨state, half, -, since⟩ := linkOf_startTraining (n := n) (s := advanceTo0 (u + 1000000) s) (linkOf s n).half false
    refine leads_event effect (by simp [up]) ?_
    rw [linkOf_settle]
    exact ⟨state, half, since⟩
  case status =>
    subst hf
    have effect : exec (.statusFrame n gs) s = done (ifEvent ((linkOf s n).state != .off) (statusStep n (statusOf b) s) s) := by
      change execStatusFrame n gs s = _
      simp only [execStatusFrame, good]
    refine leads_event effect (by simp [up]) ?_
    rw [linkOf_settle]
    unfold statusStep
    dsimp only
    split_ifs
    · obtain ⟨half, left⟩ := linkOf_leaveUp (n := n) (s := setLink n ((linkOf s n).status (tb0 s) (statusOf b)) s)
      rw [left, linkOf_setLink]
      exact ⟨rfl, rfl, rfl, rfl, rfl, up⟩
    · rw [linkOf_setLink]
      exact ⟨rfl, rfl, rfl, rfl, rfl, up⟩
  case stale =>
    have effect : exec (.statusStale n) s = done (ifEvent ((linkOf s n).state == .up && !(linkOf s n).stale)
        (log (hw 2) n 0x62 0 (setLink n { linkOf s n with stale := true, staleInSecond := true } (advanceTo0 (u + 100000000) s))) s) := by
      change execStatusStale n s = _
      simp only [execStatusStale, last]
    refine leads_event effect (by simp [up, fresh]) ?_
    rw [linkOf_settle, linkOf_log, linkOf_setLink]
    refine ⟨rfl, ?_⟩
    simp only [settle_frame]
    rfl
  case second =>
    refine ⟨by simp, fun n hn up => ?_⟩
    have other (t : State) (m k : Nat) (h : k ≠ m) : linkOf (secondOf s.tlk.stoppedInSecond m t) k = linkOf t k := linkOf_secondOf_ne h _
    obtain ⟨t, same, met⟩ := foldl_meets other List.nodup_range (s := s) (List.mem_range.2 hn)
    have counts := counts_secondOf (same ▸ up) s.tlk.stoppedInSecond
    rw [same] at counts
    simp only [Link.counts, Prod.mk.injEq] at counts
    obtain ⟨unc, lineErr, total, base⟩ := counts
    have final (u : State) (x : Bool) : linkOf { u with tlk := { u.tlk with stoppedInSecond := x } } n = linkOf u n := rfl
    rw [linkOf_settle, final, met]
    exact ⟨unc, lineErr, total, base⟩

end Sys2Proof.Machine
end

section
/-! Proofs of O24, O25 and O26: event slots, servos and their sources (R519 to R533). -/

namespace Sys2Proof.Machine

/-! ### Event slots (R524, R525) -/

/-- A slot that has fired (R525). -/
def EventSlot.fired (x : EventSlot) (now : Nat) : EventSlot :=
  if x.period = 0 then { x with count := wrapAdd 32 x.count 1, armed := false }
  else { x with count := wrapAdd 32 x.count 1, target := nextTarget x.target x.period now }

/-- The state in which a slot has fired, before its messages. -/
def slotFired (n : Nat) (s : State) : State :=
  let t := setSlot n ((slotOf s n).fired (tbNs s (slotOf s n).base)) s
  { t with tim := { t.tim with fired := if t.tim.fired.contains n then t.tim.fired else n :: t.tim.fired } }

theorem fireSlot_tim (n : Nat) (s : State) : (fireSlot n s).tim = (slotFired n s).tim := by
  have first : (if bit (slotOf s n).action 0 then raise .a 7 (slotFired n s) else slotFired n s).tim = (slotFired n s).tim := by split_ifs <;> simp
  refine Eq.trans ?_ first
  change (if bit (slotOf s n).action 1 then raise .b 7 (if bit (slotOf s n).action 0 then raise .a 7 (slotFired n s) else slotFired n s)
    else if bit (slotOf s n).action 0 then raise .a 7 (slotFired n s) else slotFired n s).tim = _
  generalize (if bit (slotOf s n).action 0 then raise .a 7 (slotFired n s) else slotFired n s) = u
  split_ifs <;> simp

theorem slotOf_fireSlot (n k : Nat) (s : State) : slotOf (fireSlot n s) k = if k = n then (slotOf s n).fired (tbNs s (slotOf s n).base) else slotOf s k := by
  rw [slotOf_of (fireSlot_tim n s)]
  change slotOf (setSlot n _ s) k = _
  split_ifs with h
  · rw [h, slotOf_setSlot]
  · exact slotOf_setSlot_ne h _ _

theorem mem_fired_fireSlot (n : Nat) (s : State) : n ∈ (fireSlot n s).tim.fired := by
  rw [fireSlot_tim]
  change n ∈ if s.tim.fired.contains n then s.tim.fired else n :: s.tim.fired
  split_ifs with h
  · simpa using h
  · exact List.mem_cons_self ..

theorem signed_unsigned_of_lt {n : Nat} (h : n < 2 ^ 63) : signed 64 (unsigned 64 (n : Int)) = n := by
  have value : unsigned 64 (n : Int) = n := by simp only [unsigned]; omega
  rw [value, signed, Nat.mod_eq_of_lt (by omega), if_pos (by omega)]

theorem nextTarget_eq {target period now : Nat} (late : target ≤ now) (bound : now + period < 2 ^ 63) :
    nextTarget target period now = target + ((now - target) / period + 1) * period := by
  have ahead : signed 64 (unsigned 64 ((now : Int) - target)) = ((now - target : Nat) : Int) := by
    rw [← signed_unsigned_of_lt (show now - target < 2 ^ 63 by omega), Nat.cast_sub late]
  have near : (now - target) / period * period ≤ now - target := Nat.div_mul_le_self ..
  rw [nextTarget, ahead]
  simp only [Int.toNat_natCast]
  rw [if_neg (by omega), Nat.mod_eq_of_lt]
  rw [Nat.add_mul]
  omega

/-- Settles O24: a slot's new value, and its next target by division. -/
theorem eventSlots : Obligations.EventSlots := by
  unfold Obligations.EventSlots
  refine ⟨fun n s armed running => leads_event rfl (by simp [armed, running]) ?fires, fun target period now pos late bound => ?next⟩
  case fires =>
    have same (k : Nat) : slotOf (advanceToNs (slotOf s n).base (slotOf s n).target s) k = slotOf s k := by
      have keeps := (advanceToNs_keeps (K := [.bases]) (slotOf s n).base (slotOf s n).target s (by decide) (Keeps.refl _ _)).same
      have slots : (advanceToNs (slotOf s n).base (slotOf s n).target s).tim.slots = s.tim.slots := keeps.tim_field (by decide) (·.slots) fun _ => rfl
      rw [slotOf, slots, slotOf]
    simp only [slotOf_settle, settle_frame, mem_fired_fireSlot, slotOf_fireSlot, if_pos, same, true_and]
    refine ⟨?_, ?_, ?_, fun k hk => by rw [if_neg hk]⟩ <;> unfold EventSlot.fired <;> split_ifs with h <;> simp [h, armed]
  case next =>
    have split := Nat.div_add_mod (now - target) period
    have small := Nat.mod_lt (now - target) pos
    rw [nextTarget_eq late bound, Nat.add_mul, Nat.mul_comm ((now - target) / period)]
    refine ⟨by omega, by omega, ?_⟩
    rw [Nat.add_sub_cancel_left, one_mul, Nat.add_mod_right, Nat.mul_mod_right]

/-! ### Servos (R526) -/

/-- Settles O25: by the servo's state. -/
theorem servoStates : Obligations.ServoStates := by
  unfold Obligations.ServoStates
  intro b valid o
  refine ⟨by simp [Base.sample], fun free => ?_, fun locking => ?_, fun locked => ?_, fun holdover => ?_⟩
  · simp [Base.sample, free]
  · have near : (-200 ≤ o ∧ o ≤ 200 ∧ 15 ≤ b.good) ↔ ¬ (200 < o ∨ o < -200) ∧ 16 ≤ b.good + 1 := by omega
    simp only [near]
    simp only [Base.sample, locking]
    split_ifs <;> simp_all
  · have far : ((o < -1000 ∨ 1000 < o) ∧ 3 ≤ b.bad) ↔ (1000 < o ∨ o < -1000) ∧ 4 ≤ b.bad + 1 := by omega
    simp only [far]
    simp only [Base.sample, locked]
    split_ifs <;> simp_all
  · cases valid <;> simp [Base.sample, holdover]

section Servo

variable {n k : Nat} {configured valid : Bool} {s : State}

theorem baseOf_shiftStamps (d : Int) : baseOf (shiftStamps n d s) k = baseOf s k := by
  unfold shiftStamps
  split_ifs <;> rfl

/-- Everything of the network but its ports stays. -/
def EthBut (s t : State) : Prop := ∃ ports, t.eth = { s.eth with ports := ports }

theorem EthBut.of_eq {s t : State} (h : t.eth = s.eth) : EthBut s t := ⟨s.eth.ports, h⟩

theorem EthBut.trans {s t u : State} (h : EthBut s t) (k : EthBut t u) : EthBut s u := by
  obtain ⟨p, hp⟩ := h
  obtain ⟨q, hq⟩ := k
  exact ⟨q, by rw [hq, hp]⟩

theorem eth_shiftStamps (d : Int) : EthBut s (shiftStamps n d s) := by
  unfold shiftStamps
  split_ifs
  · exact ⟨_, rfl⟩
  · exact .of_eq rfl
  · exact .of_eq rfl

/-- A base that has taken its sample, before its step or its new rate (R526). -/
def sampled (n : Nat) (b : Base) (s : State) : State :=
  if b.servo == .holdover && (baseOf s n).servo != .holdover then { setBase n b s with tim := { (setBase n b s).tim with holdoverSeen := true } } else setBase n b s

theorem sampled_base (b : Base) : baseOf (sampled n b s) n = b ∧ (k ≠ n → baseOf (sampled n b s) k = baseOf s k) ∧ (sampled n b s).eth = s.eth := by
  have seen (u : State) (j : Nat) : baseOf { u with tim := { u.tim with holdoverSeen := true } } j = baseOf u j := rfl
  unfold sampled
  split_ifs
  · exact ⟨by rw [seen, baseOf_setBase], fun h => by rw [seen, baseOf_setBase_ne h], rfl⟩
  · exact ⟨baseOf_setBase .., fun h => baseOf_setBase_ne h _ _, rfl⟩

/-- A servo's sample sets its own base, to the state of the sample, and the stamps held in it. -/
structure Served (n : Nat) (servo : Servo) (s t : State) : Prop where
  own : (baseOf t n).servo = servo
  other : ∀ k, k ≠ n → baseOf t k = baseOf s k
  eth : EthBut s t

theorem served_sampled (b : Base) : Served n b.servo s (sampled n b s) :=
  ⟨by rw [(sampled_base (k := n) b).1], fun _ h => (sampled_base b).2.1 h, .of_eq (sampled_base (k := n) b).2.2⟩

theorem Served.then {v w : Servo} {t u : State} (h : Served n v s t) (k : Served n w t u) : Served n w s u :=
  ⟨k.own, fun j hj => (k.other j hj).trans (h.other j hj), h.eth.trans k.eth⟩

theorem served_setBase {b : Base} : Served n b.servo s (setBase n b s) := ⟨by rw [baseOf_setBase], fun _ h => baseOf_setBase_ne h _ _, .of_eq rfl⟩

theorem served_stepBase (o : Int) : Served n (baseOf s n).servo s (stepBase n o s) := 
  served_setBase (b := { baseOf s n with acc := unsigned 104 (((baseOf s n).acc : Int) - o * 2 ^ 40) })

theorem served_servo12 (o : Int) : Served n ((baseOf s n).sample configured valid o).servo s (servo12 n configured valid o s) := by
  have taken := served_sampled (n := n) (s := s) ((baseOf s n).sample configured valid o)
  have step := served_stepBase (n := n) (s := sampled n ((baseOf s n).sample configured valid o) s) o
  rw [(sampled_base (k := n) _).1] at step
  change Served n _ s (if !(configured && valid) then sampled n ((baseOf s n).sample configured valid o) s
    else if 10000 < o || o < -10000 then shiftStamps n o (stepBase n o (sampled n ((baseOf s n).sample configured valid o) s))
    else drew (setBase n { (baseOf s n).sample configured valid o with inc := freeRate (sampled n ((baseOf s n).sample configured valid o) s) nominalInc 3000 }
      (sampled n ((baseOf s n).sample configured valid o) s)))
  split_ifs
  · exact taken
  · refine taken.then (step.then ⟨?_, fun j _ => baseOf_shiftStamps o, eth_shiftStamps o⟩)
    rw [baseOf_shiftStamps]
    exact step.own
  · have rated := served_setBase (n := n) (s := sampled n ((baseOf s n).sample configured valid o) s)
      (b := { (baseOf s n).sample configured valid o with inc := freeRate (sampled n ((baseOf s n).sample configured valid o) s) nominalInc 3000 })
    exact taken.then (rated.then ⟨rated.own, fun _ _ => rfl, .of_eq rfl⟩)

/-- A servo that measures, or whose source is not valid, takes a sample; one that does neither stays. -/
theorem served_servoStep {x : Int} : Served n ((baseOf s n).sample configured valid x).servo s (servoStep n configured valid (some x) s) := by
  simpa [servoStep] using served_servo12 x

theorem servoStep_quiet : servoStep n true true none s = s := by simp [servoStep]

theorem servoStep_other (m : Option Int) : (∀ k, k ≠ n → baseOf (servoStep n configured valid m s) k = baseOf s k) ∧ EthBut s (servoStep n configured valid m s) := by
  unfold servoStep
  split_ifs
  · exact ⟨fun _ _ => rfl, .of_eq rfl⟩
  · exact ⟨(served_servo12 _).other, (served_servo12 _).eth⟩

theorem baseOf_requestRealign : baseOf (requestRealign s) k = baseOf s k := by
  have bases := (requestRealign_keeps (K := [.tim]) s (by decide) (Keeps.refl _ _)).same.bases_eq (by decide)
  rw [baseOf, bases, baseOf]

theorem servo3_other (o : Int) : (k ≠ 3 → baseOf (servo3 o s) k = baseOf s k) ∧ (servo3 o s).eth = s.eth := by
  refine ⟨fun h => ?_, (servo3_keeps (K := [.tim, .bases, .drawn]) o s (by decide) (Keeps.refl _ _)).same.eth_eq (by decide)⟩
  have drawn (u : State) : baseOf (drew u) k = baseOf u k := rfl
  have seen (u : State) : baseOf { u with tim := { u.tim with holdoverSeen := true } } k = baseOf u k := rfl
  unfold servo3
  simp only [apply_ite (baseOf · k), baseOf_requestRealign, drawn, stepBase, baseOf_setBase_ne h, seen, ite_self]

end Servo

/-! ### Samples and the PTM dialogue (R526, R533) -/

/-- TB1 and the network once TB1's servo has stepped (R526). -/
def tb1Sampled (ptp : Int) (s : State) : State :=
  let u := if syncOverdue s then { s with eth := { s.eth with parentValid := false } } else s
  let t := servoStep 1 (s.eth.role ≠ 0) u.eth.parentValid (s.eth.measured.map (· + ptp)) u
  { t with eth := { t.eth with measured := none, tb1Offset := (s.eth.measured.map (· + ptp)).or t.eth.tb1Offset } }

/-- The rest of a sample: TB2's servo and TB3's (R526). -/
def samplesLeft (ptm : Int) (s t : State) : State :=
  let u := servoStep 2 (s.tim.tb2Port < 2) (ptmSourceValid s) ((ptmOffset s).map (· + ptm)) t
  servo3 (tb3OffsetNow s) { u with tim := { u.tim with ptmNew := false } }

theorem exec_servoSample (ptp ptm : Int) (s : State) : exec (.servoSample ptp ptm) s =
    done (ifEvent (s.hif.walec == .running) (if s.tim.bench != .off then tb1Sampled ptp s else samplesLeft ptm s (tb1Sampled ptp s)) s) := by
  change execServoSample ptp ptm s = _
  unfold execServoSample
  cases s.tim.bench != .off <;> rfl

theorem samplesLeft_other (ptm : Int) (s t : State) : (∀ k, k < 2 → baseOf (samplesLeft ptm s t) k = baseOf t k) ∧ EthBut t (samplesLeft ptm s t) := by
  have timed (u : State) (k : Nat) : baseOf { u with tim := { u.tim with ptmNew := false } } k = baseOf u k := rfl
  have tb2 := servoStep_other (n := 2) (configured := s.tim.tb2Port < 2) (valid := ptmSourceValid s) (s := t) ((ptmOffset s).map (· + ptm))
  refine ⟨fun k hk => ?_, tb2.2.trans (.of_eq ((servo3_other (k := 0) _).2.trans rfl))⟩
  rw [samplesLeft, (servo3_other _).1 (by omega), timed, tb2.1 k (by omega)]

/-- A sample leaves TB0, TB1 and the network as TB1's servo has left them. -/
theorem leads_servoSample {P : State → Prop} {ptp ptm : Int} {s : State} (running : s.hif.walec = .running)
    (hP : ∀ t : State, (∀ k, k < 2 → baseOf t k = baseOf (tb1Sampled ptp s) k) → EthBut (tb1Sampled ptp s) t → P t) : Leads (.servoSample ptp ptm) s P := by
  have settled (u : State) : EthBut u (settle u) := .of_eq (by simp)
  refine leads_event (exec_servoSample ptp ptm s) (by simp [running]) ?_
  cases s.tim.bench != .off
  · obtain ⟨bases, eth⟩ := samplesLeft_other ptm s (tb1Sampled ptp s)
    exact hP _ (fun k hk => (baseOf_settle ..).trans (bases k hk)) (eth.trans (settled _))
  · exact hP _ (fun k _ => baseOf_settle ..) (settled _)

theorem toHoldover_acc (n k : Nat) (s : State) : tbNs (toHoldover n s) k = tbNs s k := by
  have seen (u : State) (j : Nat) : baseOf { u with tim := { u.tim with holdoverSeen := true } } j = baseOf u j := rfl
  unfold toHoldover
  dsimp only
  split_ifs
  · by_cases h : k = n
    · subst h
      rw [tbNs, seen, baseOf_setBase, tbNs]
    · rw [tbNs, seen, baseOf_setBase_ne h, tbNs]
  · rfl

/-- What a base's holdover leaves of the PTM dialogue. -/
theorem toHoldover_ptm (n : Nat) (s : State) : (toHoldover n s).tim.ptmFails = s.tim.ptmFails ∧ (toHoldover n s).tim.ptmValid = s.tim.ptmValid ∧
    (toHoldover n s).tim.ptmSent = s.tim.ptmSent := by
  unfold toHoldover
  dsimp only
  split_ifs <;> exact ⟨rfl, rfl, rfl⟩

/-- A failed dialogue (R526, R533). -/
theorem ptmFailed_tim (s : State) : (ptmFailed s).tim.ptmFails = s.tim.ptmFails + 1 ∧ (ptmFailed s).tim.ptmValid = false ∧ (ptmFailed s).tim.ptmSent = none ∧
    tbNs (ptmFailed s) 2 = tbNs s 2 := by
  unfold ptmFailed
  dsimp only
  split_ifs
  · obtain ⟨fails, valid, sent⟩ := toHoldover_ptm 2 { s with tim := { s.tim with ptmFails := s.tim.ptmFails + 1, ptmValid := false, ptmSent := none } }
    exact ⟨fails, valid, sent, toHoldover_acc ..⟩
  · exact ⟨rfl, rfl, rfl, rfl⟩

/-- Settles O26: TB1 through its servo's step, the dialogue by its stamps. -/
theorem timeSources : Obligations.TimeSources := by
  unfold Obligations.TimeSources
  refine ⟨fun a b x s running role valid inTime measured => leads_servoSample running fun t bases eth => ?measures,
    fun a b s running role valid inTime unmeasured => leads_servoSample running fun t bases eth => ?stands,
    fun a b s running role overdue => leads_servoSample running fun t bases eth => ?overdue, fun p s port opened => leads_event rfl (by simp [port]) ?asks,
    fun p s port closed idle => leads_event rfl (by simp [port]) ?fails, fun p m d u s sent port opened => ?answers⟩
  case measures =>
    have effect : tb1Sampled a s = { servoStep 1 true true (some (x + a)) s with
        eth := { (servoStep 1 true true (some (x + a)) s).eth with measured := none, tb1Offset := some (x + a) } } := by
      simp [tb1Sampled, inTime, role, valid, measured]
    have served := served_servoStep (n := 1) (configured := true) (valid := true) (s := s) (x := x + a)
    obtain ⟨ports, eth⟩ := eth
    have same (k : Nat) : baseOf (tb1Sampled a s) k = baseOf (servoStep 1 true true (some (x + a)) s) k := by rw [effect]; rfl
    refine ⟨?_, by rw [eth, effect], by rw [eth, effect], ?_⟩
    · rw [bases 1 (by decide), same, served.own]
    · rw [bases 0 (by decide), same, served.other 0 (by decide)]
  case stands =>
    have same (k : Nat) : baseOf (tb1Sampled a s) k = baseOf s k := by
      have quiet : servoStep 1 (decide (s.eth.role ≠ 0)) s.eth.parentValid none s = s := by simp [servoStep, role, valid]
      simp only [tb1Sampled, inTime, unmeasured, Option.map_none, Bool.false_eq_true, if_false, quiet]
      rfl
    exact ⟨(bases 1 (by decide)).trans (same 1), (bases 0 (by decide)).trans (same 0)⟩
  case overdue =>
    let u := { s with eth := { s.eth with parentValid := false } }
    have effect : tb1Sampled a s = { servoStep 1 true false (s.eth.measured.map (· + a)) u with
        eth := { (servoStep 1 true false (s.eth.measured.map (· + a)) u).eth with
          measured := none, tb1Offset := (s.eth.measured.map (· + a)).or (servoStep 1 true false (s.eth.measured.map (· + a)) u).eth.tb1Offset } } := by
      simp [tb1Sampled, overdue, role, u]
    have served : Served 1 ((baseOf s 1).sample true false ((s.eth.measured.map (· + a)).getD (baseOf s 1).offset)).servo u (servoStep 1 true false (s.eth.measured.map (· + a)) u) := by
      exact served_servo12 (n := 1) (configured := true) (valid := false) (s := u) _
    obtain ⟨ports, eth⟩ := eth
    obtain ⟨ports', eth'⟩ := served.eth
    refine ⟨by rw [eth, effect]; simp [eth', u], fun locked => ?_⟩
    have own : (baseOf (tb1Sampled a s) 1).servo = _ := (congrArg Base.servo (by rw [effect]; rfl)).trans served.own
    rw [bases 1 (by decide), own, (servoStates _ _ _).2.2.2.1 locked, if_pos rfl]
  case asks =>
    obtain ⟨fails, -, -, time⟩ := ptmFailed_tim s
    rw [if_pos opened]
    refine ⟨?_, settle_sent _ (by simp [send]), ?_⟩ <;> simp only [settle_frame, send] <;> cases s.tim.ptmSent.isSome
    · rfl
    · exact congrArg some time
    · rfl
    · exact fails
  case fails =>
    obtain ⟨fails, valid, sent, -⟩ := ptmFailed_tim s
    have stays : (if s.tim.ptmSent.isSome then ptmFailed s else s) = s := by simp [idle]
    rw [stays, closed, if_neg Bool.false_ne_true]
    simp only [settle_frame]
    exact ⟨sent, valid, fails⟩
  case answers =>
    have effect : exec (.ptmResponsed p m d) s = done (ifEvent (s.tim.tb2Port == p.num && portOpen s p)
        { s with tim := { s.tim with
          ptmSent := none, ptmTrip := some ((tbNs s 2 + 2 ^ 64 - u) % 2 ^ 64)
          ptmHost := some (unsigned 64 ((m : Int) - roundDiv (((s.tim.ptmTrip.getD ((tbNs s 2 + 2 ^ 64 - u) % 2 ^ 64) : Nat) : Int) - d) 2), u)
          ptmNew := true, ptmFails := 0, ptmValid := true } } s) := by
      change execPtmResponsed p m d s = _
      simp only [execPtmResponsed, sent]
    refine leads_event effect (by simp [port, opened]) ?_
    simp

end Sys2Proof.Machine
end

section
/-! Proofs of O27 and O28: PTP and the Ethernet ports (R535 to R545). -/

namespace Sys2Proof.Machine

/-! ### What PTP makes of its ports (R526, R540) -/

theorem discardPtp_eth (s : State) : (discardPtp s).eth.ports = s.eth.ports ∧ (discardPtp s).eth.seqDiscards = satAdd 16 s.eth.seqDiscards 1 ∧
    (discardPtp s).eth.seqDiscardSeen = true := ⟨rfl, rfl, rfl⟩

section Ports

variable {p k : Nat} {x : EthPort} {s : State}

theorem ethOf_setEth_or : ethOf (setEth p x s) k = if k = p then x else ethOf s k := by
  split_ifs with h
  · rw [h, ethOf_setEth]
  · exact ethOf_setEth_ne h _ _

theorem takeSync_eth (w : Nat × Nat × Int) : ethOf (takeSync p w s) k = (if k = p then { ethOf s p with syncTimes := some w } else ethOf s k) ∧
    (takeSync p w s).eth.measured = some ((ethOf s p).offsetOf w) ∧ (takeSync p w s).eth.seqDiscards = s.eth.seqDiscards := by
  have same (u : State) (m : Option Int) : ethOf { u with eth := { u.eth with measured := m } } k = ethOf u k := rfl
  exact ⟨(same _ _).trans ethOf_setEth_or, rfl, rfl⟩

end Ports

/-- A message on a port that takes part (R536). -/
theorem leads_ptp {P : State → Prop} {c : Instr} {m : PtpMsg} {s u : State} (effect : exec c s = done (ifEvent (ptpOn s m) u s)) (on : ptpOn s m = true)
    (hP : P (settle u)) : Leads c s P := leads_event effect on hP

/-- A discarded message counts and leaves the ports. -/
theorem leads_discard {c : Instr} {m : PtpMsg} {s u : State} (effect : exec c s = done (ifEvent (ptpOn s m) u s)) (on : ptpOn s m = true)
    (discards : u = discardPtp s) : Leads c s fun t => t.eth.ports = s.eth.ports ∧ t.eth.seqDiscards = satAdd 16 s.eth.seqDiscards 1 ∧ t.eth.seqDiscardSeen = true := by
  subst discards
  exact leads_event effect on (by simpa only [settle_frame] using discardPtp_eth s)

/-! ### Sync and Follow_Up -/

/-- The check of a Sync (R540). -/
def syncOk (m : PtpMsg) (s : State) : Bool :=
  s.eth.parent == some (m.port, m.source) && (match (ethOf s m.port).lastSync with | none => true | some q => seqNewer m.seq q)

theorem syncOk_iff {m : PtpMsg} {s : State} :
    syncOk m s = true ↔ s.eth.parent = some (m.port, m.source) ∧ ∀ q, (ethOf s m.port).lastSync = some q → seqNewer m.seq q = true := by
  unfold syncOk
  cases (ethOf s m.port).lastSync <;> simp

/-- The port once a Sync is accepted, before a complete one is taken as a measurement. -/
def syncPort (m : PtpMsg) (s : State) : State :=
  setEth m.port { ethOf s m.port with
    lastSync := some m.seq, twoStep := if m.twoStep then some (m.seq, arrivalOf s m, m.correction + (ethOf s m.port).delayAsym) else none } s

def syncTaken (m : PtpMsg) (s : State) : State :=
  let t := if m.twoStep then syncPort m s else takeSync m.port (m.time, arrivalOf s m, m.correction + (ethOf s m.port).delayAsym) (syncPort m s)
  { t with eth := { t.eth with parentValid := true, syncAt := tb0 s } }

theorem exec_sync (m : PtpMsg) (s : State) : exec (.sync m) s = done (ifEvent (ptpOn s m) (if syncOk m s then syncTaken m s else discardPtp s) s) := rfl

theorem exec_followUp (m : PtpMsg) (s : State) : exec (.followUp m) s = done (ifEvent (ptpOn s m) (match (ethOf s m.port).twoStep with
    | some w => if s.eth.parent == some (m.port, m.source) && w.1 == m.seq
        then takeSync m.port (m.time, w.2.1, w.2.2 + m.correction) (setEth m.port { ethOf s m.port with twoStep := none } s) else discardPtp s
    | none => discardPtp s) s) := rfl

/-! ### Delay_Resp and Pdelay_Resp -/

/-- A message that writes its port alone. -/
theorem leads_port {c : Instr} {m : PtpMsg} {x : EthPort} {s : State} {P : State → Prop} (effect : exec c s = done (ifEvent (ptpOn s m) (setEth m.port x s) s))
    (on : ptpOn s m = true) (hP : ∀ t, ethOf t m.port = x → (∀ p, p ≠ m.port → ethOf t p = ethOf s p) → t.eth.seqDiscards = s.eth.seqDiscards → P t) : Leads c s P :=
  leads_event effect on (hP _ (by simp) (fun p hp => by rw [ethOf_settle, ethOf_setEth_ne hp]) (by simp only [settle_frame]; rfl))

/-- The port that a Pdelay_Resp names, or its Follow_Up. -/
def pdelayStep (m : PtpMsg) (s : State) : State :=
  if m.kind ≠ 10 then setEth m.port ((ethOf s m.port).pdelay m (arrivalOf s m)) s
  else match (ethOf s m.port).pdelayResp with
    | some w => if w.1 = m.source then setEth m.port ((ethOf s m.port).pdelayFollow m w) s else discardPtp s
    | none => discardPtp s

theorem exec_pdelayResp (m : PtpMsg) (s : State) : exec (.pdelayResp m) s = done (ifEvent (ptpOn s m)
    (if m.requesting == m.port && (ethOf s m.port).pdelayReqSent == some m.seq then pdelayStep m s else discardPtp s) s) := rfl

theorem exec_pdelayResp_ok {m : PtpMsg} {s : State} (requesting : m.requesting = m.port) (sent : (ethOf s m.port).pdelayReqSent = some m.seq) :
    exec (.pdelayResp m) s = done (ifEvent (ptpOn s m) (pdelayStep m s) s) := by
  rw [exec_pdelayResp, if_pos (by simp [requesting, sent])]

/-! ### Announce -/

theorem leaveParent_eth (p : Nat) (s : State) : (leaveParent p s).eth.seqDiscards = s.eth.seqDiscards ∧ (leaveParent p s).eth.parent = s.eth.parent ∧
    ∀ k, (∀ w, s.eth.parent = some w → w.1 ≠ k ∨ w.1 = p) → ethOf (leaveParent p s) k = ethOf s k := by
  have drawn (u : State) (k : Nat) : ethOf (drew u) k = ethOf u k := rfl
  unfold leaveParent
  cases parent : s.eth.parent with
  | none => exact ⟨rfl, parent, fun _ _ => rfl⟩
  | some w =>
    by_cases same : w.1 = p
    · dsimp only
      rw [if_pos same]
      exact ⟨rfl, parent, fun _ _ => rfl⟩
    · dsimp only
      rw [if_neg same]
      refine ⟨rfl, parent, fun k hk => ?_⟩
      have other : k ≠ w.1 := fun h => (hk w rfl).elim (fun g => g h.symm) same
      rw [drawn, ethOf_setEth_ne other]

/-- The parent's port once the sender is parent. -/
def parentPort (m : PtpMsg) (fresh : Bool) (x : EthPort) : EthPort := { (if fresh then { x.cleared with announces := [(m.source, m.seq)] } else x) with state := 9 }

structure ParentTaken (m : PtpMsg) (s t : State) : Prop where
  port : ethOf t m.port = parentPort m (s.eth.parent ≠ some (m.port, m.source)) (ethOf s m.port)
  other : ∀ p, p ≠ m.port → (∀ w, s.eth.parent = some w → w.1 ≠ p) → ethOf t p = ethOf s p
  parent : t.eth.parent = some (m.port, m.source)
  gm : t.eth.gm = some m.gm
  discards : t.eth.seqDiscards = s.eth.seqDiscards
  fresh : s.eth.parent ≠ some (m.port, m.source) → t.eth.parentValid = true ∧ t.eth.measured = none

/-- The network once the sender is parent, before TB1's servo locks anew. -/
def parentSet (m : PtpMsg) (s : State) : State :=
  let fresh := s.eth.parent ≠ some (m.port, m.source)
  let t := setEth m.port (parentPort m fresh (ethOf s m.port)) (leaveParent m.port s)
  { t with eth := { t.eth with parent := some (m.port, m.source), parentValid := fresh || t.eth.parentValid, gm := some m.gm
                               syncAt := if fresh then tb0 s else t.eth.syncAt, measured := if fresh then none else t.eth.measured
                               stepsRemoved := min (m.stepsRemoved + 1) 255, gmChangeSeen := t.eth.gmChangeSeen || s.eth.gm.any (· ≠ m.gm) } }

theorem takeParent_eth (m : PtpMsg) (s : State) : (takeParent m s).eth = (parentSet m s).eth := by
  have whole : takeParent m s = if s.eth.gm.any (· ≠ m.gm) then setBase 1 { baseOf (parentSet m s) 1 with servo := .locking, good := 0, bad := 0 } (parentSet m s) else parentSet m s := by
    unfold takeParent parentSet parentPort
    simp only [decide_eq_true_eq]
  rw [whole]
  split_ifs <;> rfl

theorem parentTaken (m : PtpMsg) (s : State) : ParentTaken m s (takeParent m s) := by
  have set (k : Nat) : ethOf (takeParent m s) k = if k = m.port then parentPort m (s.eth.parent ≠ some (m.port, m.source)) (ethOf s m.port) else ethOf (leaveParent m.port s) k :=
    (ethOf_of (takeParent_eth m s) k).trans ethOf_setEth_or
  obtain ⟨discards, -, ports⟩ := leaveParent_eth m.port s
  refine ⟨by rw [set, if_pos rfl], fun p hp hw => ?_, ?_, ?_, ?_, fun fresh => ?_⟩
  · rw [set, if_neg hp, ports p fun w h => .inl (hw w h)]
  all_goals rw [takeParent_eth]
  · rfl
  · rfl
  · exact discards
  · simp [parentSet, fresh]

/-- The check of an Announce (R540). -/
def announceOk (m : PtpMsg) (s : State) : Bool := match Tbl.find? m.source (ethOf s m.port).announces with | none => true | some q => seqNewer m.seq q

def announced (m : PtpMsg) (s : State) : State := setEth m.port { ethOf s m.port with announces := Tbl.set m.source m.seq (ethOf s m.port).announces } s

theorem exec_announce (m : PtpMsg) (s : State) : exec (.announce m) s =
    done (ifEvent (ptpOn s m) (if announceOk m s then (if m.best then takeParent m (announced m s) else announced m s) else discardPtp s) s) := rfl

/-! ### Delay_Req -/

/-- Settling sends no PTP message. -/
theorem ptp_of_settle {s : State} {p k q u : Nat} {c : Int} (h : .ptp p k q u c ∈ (settle s).sent) : .ptp p k q u c ∈ s.sent := by
  have sent (p' : Port) (v : Nat) (u' : State) (h : Sent.ptp p k q u c ∈ (message p' v u').sent) : Sent.ptp p k q u c ∈ u'.sent := by
    unfold message at h
    dsimp only at h
    split_ifs at h
    · simpa [send] using h
    · simpa using h
    · simpa using h
  have raised (p' : Port) (i : Nat) (u' : State) (h : Sent.ptp p k q u c ∈ (raise p' i u').sent) : Sent.ptp p k q u c ∈ u'.sent := by
    unfold raise at h
    dsimp only at h
    split_ifs at h
    · exact h
    · simpa using sent _ _ _ h
    · simpa using h
  unfold settle at h
  dsimp only at h
  split_ifs at h
  · have both (u' : State) (h : Sent.ptp p k q u c ∈ (raiseBoth 6 u').sent) : Sent.ptp p k q u c ∈ u'.sent := raised .a 6 _ (raised .b 6 _ h)
    exact both { s with hif := { s.hif with attention := attentionOf s } } h
  · exact h

theorem exec_delayReq (m : PtpMsg) (s : State) : exec (.delayReq m) s = done (ifEvent (ptpOn s m)
    (if m.kind = 2 then ifEvent (s.eth.profile = 1) (pdelayAnswer m s) s
     else ifEvent (s.eth.profile = 0 && (ethOf s m.port).state = 6) (delayAnswer m s) s) s) := rfl

/-- Settles O27: each message by its check, and by the port that it writes. -/
theorem ptpChecks : Obligations.PtpChecks := by
  unfold Obligations.PtpChecks
  intro m s on
  refine ⟨fun parent newer two => leads_ptp (exec_sync m s) on ?syncTwo, fun parent newer one => leads_ptp (exec_sync m s) on ?syncOne,
    fun bad => leads_discard (exec_sync m s) on (if_neg fun ok => bad (syncOk_iff.1 ok)), fun a c parent two => leads_ptp (exec_followUp m s) on ?follow,
    fun bad => ?followBad, fun requesting sent => ?delay, fun bad => ?delayBad, fun requesting sent kind two => ?pdelayTwo,
    fun requesting sent kind one => ?pdelayOne, fun t2 t4 c requesting sent kind waits => ?pdelayFollow, fun bad => ?pdelayBad,
    fun newer => leads_ptp (exec_announce m s) on ?announce, fun q last old => ?announceBad,
    fun kind profile state => leads_ptp (exec_delayReq m s) on ?answer, fun kind profile step => leads_ptp (exec_delayReq m s) on ?pdelayAnswerOne,
    fun kind profile step => leads_ptp (exec_delayReq m s) on ?pdelayAnswerTwo, fun quiet => leads_ptp (exec_delayReq m s) on ?noAnswer⟩
  case syncTwo =>
    rw [if_pos (syncOk_iff.2 ⟨parent, newer⟩)]
    have same (u : State) (v : Bool) (n k : Nat) : ethOf { u with eth := { u.eth with parentValid := v, syncAt := n } } k = ethOf u k := rfl
    simp only [ethOf_settle, settle_frame, syncTaken, two, if_true, same, syncPort, ethOf_setEth]
    exact ⟨trivial, fun p hp => ethOf_setEth_ne hp _ _, trivial, trivial, rfl⟩
  case syncOne =>
    rw [if_pos (syncOk_iff.2 ⟨parent, newer⟩)]
    have same (u : State) (v : Bool) (n k : Nat) : ethOf { u with eth := { u.eth with parentValid := v, syncAt := n } } k = ethOf u k := rfl
    simp only [ethOf_settle, settle_frame, syncTaken, one, Bool.false_eq_true, if_false, same, syncPort, takeSync_eth, ethOf_setEth, if_true]
    exact ⟨trivial, by rw [(takeSync_eth (k := m.port) _).2.1, ethOf_setEth]; rfl, fun p hp => by rw [if_neg hp, ethOf_setEth_ne hp], trivial, trivial, rfl⟩
  case follow =>
    simp only [two, parent, beq_self_eq_true, Bool.and_self, if_true, ethOf_settle, settle_frame, takeSync_eth, ethOf_setEth]
    exact ⟨trivial, by rw [(takeSync_eth (k := m.port) _).2.1, ethOf_setEth]; rfl, fun p hp => by rw [if_neg hp, ethOf_setEth_ne hp], rfl⟩
  case followBad =>
    refine (leads_discard (exec_followUp m s) on ?_).imp fun t h => ⟨h.1, h.2.1⟩
    cases two : (ethOf s m.port).twoStep with
    | none => rfl
    | some w => exact if_neg fun ok => bad w (by simpa [two] using ok)
  case delay =>
    refine leads_port (x := { ethOf s m.port with pathDelay := (ethOf s m.port).meanDelay m }) ?_ on fun t port other discards => ⟨⟨_, port, fun w hw => ?_⟩, other, discards⟩
    · change execDelayResp m s = _
      simp [execDelayResp, requesting, sent]
    · simp [EthPort.meanDelay, hw]
  case delayBad =>
    refine (leads_discard (c := .delayResp m) (m := m) rfl on (if_neg fun ok => bad ?_)).imp fun t h => ⟨h.1, h.2.1⟩
    simpa using ok
  case pdelayTwo =>
    refine leads_port (x := (ethOf s m.port).pdelay m (arrivalOf s m)) ?_ on fun t port other discards => ⟨port.trans ?_, other, discards⟩
    · rw [exec_pdelayResp_ok requesting sent, pdelayStep, if_pos kind]
    · simp [EthPort.pdelay, two]
  case pdelayOne =>
    refine leads_port (x := (ethOf s m.port).pdelay m (arrivalOf s m)) ?_ on fun t port other discards => ⟨port.trans ?_, other, discards⟩
    · rw [exec_pdelayResp_ok requesting sent, pdelayStep, if_pos kind]
    · simp [EthPort.pdelay, one]
  case pdelayFollow =>
    refine leads_port (x := (ethOf s m.port).pdelayFollow m (m.source, t2, t4, c)) ?_ on fun t port other discards => ⟨port, other, discards⟩
    rw [exec_pdelayResp_ok requesting sent, pdelayStep, if_neg (by simp [kind]), waits]
    simp
  case pdelayBad =>
    refine (leads_discard (exec_pdelayResp m s) on ?_).imp fun t h => ⟨h.1, h.2.1⟩
    by_cases ok : m.requesting = m.port ∧ (ethOf s m.port).pdelayReqSent = some m.seq
    · have follow : ¬ (m.kind = 10 → ∃ w, (ethOf s m.port).pdelayResp = some (m.source, w)) := fun h => bad ⟨ok.1, ok.2, h⟩
      obtain ⟨kind, unmatched⟩ := Classical.not_imp.1 follow
      rw [if_pos (by simp [ok]), pdelayStep, if_neg (by simp [kind])]
      cases waits : (ethOf s m.port).pdelayResp with
      | none => rfl
      | some w => exact if_neg fun source => unmatched ⟨w.2, by rw [waits, ← source]⟩
    · exact if_neg (by simpa using ok)
  case announce =>
    have ok : announceOk m s = true := by
      unfold announceOk
      cases last : Tbl.find? m.source (ethOf s m.port).announces with
      | none => rfl
      | some q => exact newer q last
    have listed : Tbl.find? m.source (ethOf (announced m s) m.port).announces = some m.seq := by
      rw [announced, ethOf_setEth]
      exact Tbl.find?_set_self ..
    have others (p : Nat) (hp : p ≠ m.port) : ethOf (announced m s) p = ethOf s p := ethOf_setEth_ne hp _ _
    rw [if_pos ok]
    simp only [settle_frame, ethOf_settle]
    by_cases best : m.best = true
    · have taken := parentTaken m (announced m s)
      rw [if_pos best, if_pos best]
      refine ⟨taken.discards, ?_, fun p hp other => (taken.other p hp (other best)).trans (others p hp), taken.parent, taken.gm, by rw [taken.port]; rfl, taken.fresh⟩
      rw [taken.port, parentPort]
      dsimp only
      split_ifs
      · exact if_pos rfl
      · exact listed
    · rw [if_neg best, if_neg best]
      exact ⟨rfl, listed, fun p hp _ => others p hp, rfl, rfl⟩
  case announceBad =>
    refine (leads_discard (exec_announce m s) on (if_neg ?_)).imp fun t h => ⟨h.1, h.2.1⟩
    simp [announceOk, last, old]
  case answer =>
    simp only [kind, profile, state, if_false, ifEvent, decide_true, Bool.and_self, if_true]
    exact ⟨settle_sent _ (by simp [delayAnswer, send]), by simp [delayAnswer]⟩
  case pdelayAnswerOne =>
    simp only [kind, profile, if_true, ifEvent, decide_true]
    exact ⟨⟨_, settle_sent _ (by rw [pdelayAnswer, if_pos step]; exact List.mem_append_right _ (List.mem_singleton_self _))⟩, by simp [pdelayAnswer, step]⟩
  case pdelayAnswerTwo =>
    simp only [kind, profile, if_true, ifEvent, decide_true]
    refine ⟨settle_sent _ ?_, ⟨stampWith (departureOf s m.port) (freeBelow s (2 ^ 40)), settle_sent _ ?_⟩, by simp [pdelayAnswer, step]⟩
    · rw [pdelayAnswer, if_neg step]
      exact List.mem_append_right _ (List.mem_cons_self ..)
    · rw [pdelayAnswer, if_neg step]
      exact List.mem_append_right _ (List.mem_cons_of_mem _ (List.mem_singleton_self _))
  case noAnswer =>
    have effect : (if m.kind = 2 then ifEvent (s.eth.profile = 1) (pdelayAnswer m s) s
        else ifEvent (s.eth.profile = 0 && (ethOf s m.port).state = 6) (delayAnswer m s) s) = s := by
      split_ifs at quiet ⊢ with kind
      · simp [ifEvent, quiet]
      · simp only [ifEvent, Bool.and_eq_true, decide_eq_true_eq, if_neg quiet]
    rw [effect]
    exact ⟨fun k q u c h => ptp_of_settle h, by simp⟩

/-! ### What a port sends (R535 to R539) -/

theorem ethOf_send (o : Sent) (s : State) (k : Nat) : ethOf (send o s) k = ethOf s k := rfl

theorem ethOf_sendAll (os : List Sent) (s : State) (k : Nat) : ethOf (sendAll os s) k = ethOf s k := ethOf_of (by simp) k

theorem sent_send (o : Sent) (s : State) : o ∈ (settle (send o s)).sent := settle_sent _ (List.mem_append_right _ (List.mem_singleton_self _))

theorem sent_sendAll {o : Sent} {os : List Sent} (h : o ∈ os) (s : State) : o ∈ (settle (sendAll os s)).sent := settle_sent _ (List.mem_append_right _ h)

/-- The loss of the parent leaves every port and every session (R542, R545). -/
theorem dropParent_eth (s : State) : (dropParent s).eth = { s.eth with parent := none, stepsRemoved := 0, parentValid := false, measured := none } :=
  (toHoldover_keeps (K := [.tim, .bases]) 1 _ (by decide) (Keeps.refl _ _)).same.eth_eq (by decide)

theorem ethOf_dropParent (s : State) (k : Nat) : ethOf (dropParent s) k = ethOf s k := by rw [ethOf, dropParent_eth, ethOf]

/-- Settles O28: what each command sends, and the port that it leaves. -/
theorem ethernetPorts : Obligations.EthernetPorts := by
  unfold Obligations.EthernetPorts
  refine ⟨fun p s master => leads_event rfl master ?sync, fun p s master => leads_event rfl master ?announce, fun p s asks => leads_event rfl asks ⟨fun profile => ?delay, fun profile => ?pdelay⟩,
    fun p k f r s role link other ok away => leads_event rfl (by simp [role, link, other, ok, away]) ?drops,
    fun p f r s role link other ok away => leads_event rfl (by simp [role, link, other, ok, away]) ?relays,
    fun p s part link walec => leads_event rfl (by simp [part, link, walec]) ?timeout, fun p s link => leads_event rfl link ?down,
    fun p s domain speed link => leads_event rfl (by simp [domain, speed, link]) ?up, fun p k f b r s other vlan answer link ok => leads_event rfl (by simp [link, ok]) ?answers⟩
  case sync =>
    split_ifs with step
    · exact ⟨by rw [ethOf_settle, ethOf_send, ethOf_setEth], fun _ => sent_send _ _, fun h => absurd step h⟩
    · exact ⟨by rw [ethOf_settle, ethOf_sendAll, ethOf_setEth], fun h => absurd h step, fun _ => ⟨sent_sendAll (by simp) _, sent_sendAll (by simp) _⟩⟩
  case announce => exact ⟨by rw [ethOf_settle, ethOf_send, ethOf_setEth], sent_send _ _⟩
  case delay =>
    rw [if_pos profile, ethOf_settle, ethOf_send, ethOf_setEth]
    exact ⟨rfl, rfl, rfl⟩
  case pdelay =>
    rw [if_neg profile, ethOf_settle, ethOf_send, ethOf_setEth]
    exact ⟨rfl, rfl, rfl⟩
  case drops => simp
  case relays =>
    have effect : relay p 1 f r s = send (.ethFrame (1 - p) (addResidence (ptpTransport s p) r f)) s := by simp [relay]
    rw [if_neg Bool.false_ne_true, effect]
    exact ⟨sent_send _ _, by simp⟩
  case timeout =>
    have port (x : EthPort) : ethOf (if s.eth.parent.any fun w => w.1 == p then dropParent (setEth p x s) else setEth p x s) p = x := by
      split_ifs <;> simp [ethOf_dropParent]
    refine ⟨?_, fun x parent => ?_⟩
    · rw [ethOf_settle, port]
      by_cases h : s.eth.role = 2 ∨ s.eth.role = 3
      · rw [if_pos h, if_pos (by simpa using h)]
      · rw [if_neg h, if_neg (by simpa using h)]
    · simp [parent, dropParent_eth]
  case down =>
    have port : ethOf (ethDown p s) p = { (ethOf s p).cleared with link := false, state := 3 } := by
      have kept (u : State) (l : Tbl (Nat × Nat)) : ethOf { u with eth := { u.eth with sessions := l } } p = ethOf u p := rfl
      unfold ethDown
      dsimp only
      split_ifs <;> simp only [ethOf_dropParent, kept, ethOf_setEth]
    rw [ethOf_settle, port]
    refine ⟨rfl, rfl, ?_⟩
    simp only [settle_frame]
    unfold ethDown
    dsimp only
    split_ifs
    · rw [dropParent_eth]
      rfl
    · rfl
  case up =>
    rw [ethOf_settle, ethOf_sendAll, ethOf_setEth]
    exact ⟨rfl, rfl⟩
  case answers =>
    refine ⟨sent_sendAll ?_ _, by simp⟩
    simp [vlan, other, answer]

end Sys2Proof.Machine
end

section
/-! Proofs of O30 and O31: clusters, spares, shadow checks and the witness view (R120, R121, R154 to R161, R677). -/

namespace Sys2Proof.Machine

/-! ### An abort leaves the binding (R148, R156) -/

/-- What binds a row to its cluster. -/
def Row.binding (x : Row) : Nat × Option Nat × List Nat := (x.cluster, x.toBind, x.heldFaults)

/-- The clusters, the pool and what binds each row stay. -/
structure BindingStays (s t : State) : Prop where
  clusters : t.ray.clusters = s.ray.clusters
  spares : t.ray.spares = s.ray.spares
  rows : ∀ q, (rowOf t q).binding = (rowOf s q).binding

namespace BindingStays

variable {s t u : State} {r : Nat}

theorem refl (s : State) : BindingStays s s := ⟨rfl, rfl, fun _ => rfl⟩

theorem trans (h : BindingStays s t) (k : BindingStays t u) : BindingStays s u :=
  ⟨k.clusters.trans h.clusters, k.spares.trans h.spares, fun q => (k.rows q).trans (h.rows q)⟩

theorem of_ray (h : t.ray = s.ray) : BindingStays s t := ⟨by rw [h], by rw [h], fun q => by rw [rowOf_of h]⟩

theorem setRow {x : Row} (h : x.binding = (rowOf s r).binding) : BindingStays s (setRow r x s) where
  clusters := rfl
  spares := rfl
  rows q := by
    by_cases hq : q = r
    · rw [hq, rowOf_setRow, h]
    · rw [rowOf_setRow_ne hq]

theorem logAbort (line cause : Nat) : BindingStays s (logAbort r line cause s) := by
  unfold Machine.logAbort
  dsimp only
  split
  · exact (setRow (x := { rowOf s r with abortsInSecond := some 0 }) rfl).trans (of_ray rfl)
  · exact setRow rfl

theorem countAbort (line cause : Nat) : BindingStays s (countAbort r line cause s) := by
  have counted (x : Row) (h : x.binding = (rowOf s r).binding) (spr : SprState) : BindingStays s { Machine.setRow r x s with spr := spr } := (setRow h).trans (of_ray rfl)
  unfold Machine.countAbort
  dsimp only
  refine (counted _ ?_ _).trans (logAbort line cause)
  cases decide (cause = 0) <;> split_ifs <;> rfl

theorem startBands (v : State) : BindingStays s (startBands v r s) := setRow rfl

theorem abandon (line : Nat) : BindingStays s (abandon r line s) := by
  have flushed : BindingStays s (flushRow r [] s) := of_ray ((flushRow_keeps (K := [.out, .dmc]) r [] s (by decide) (Keeps.refl _ _)).same.ray_eq (by decide))
  have marked (v : State) : BindingStays v (markRegions r v) := of_ray rfl
  unfold Machine.abandon
  dsimp only
  split_ifs
  · exact ((flushed.trans (setRow (r := r) (by rfl))).trans (marked _)).trans (startBands _)
  · exact (flushed.trans (setRow (r := r) (by rfl))).trans (marked _)

theorem abortRow (line cause : Nat) : BindingStays s (abortRow r line cause s) := by
  have sent (f b : Nat) : BindingStays s (sendAbort r line cause f b s) :=
    of_ray ((sendAbort_keeps (K := [.tlk, .sent]) r line cause f b s (by decide) (Keeps.refl _ _)).same.ray_eq (by decide))
  exact ((sent _ _).trans (abandon _)).trans (countAbort _ _)

theorem foldl_ray {α : Type} {g : State → α → State} (hg : ∀ t x, (g t x).ray = t.ray) (xs : List α) (s : State) : BindingStays s (xs.foldl g s) := by
  induction xs generalizing s with
  | nil => exact refl s
  | cons x xs ih => exact (of_ray (hg s x)).trans (ih _)

/-- The coming subframe's links that have its header abort at once (R156). -/
def headersAborted (r : Nat) (s : State) : State :=
  (List.range 8).foldl (fun t c => if (linkOf t (8 * r + c)).headerNext
    then sendAll [.tile (8 * r + c) (.abort 0 1 (comingSub s).1 (comingSub s).2), .tile (8 * r + c) .hold] t else t) s

theorem abortComing_eq (r : Nat) (s : State) :
    abortComing r s = Machine.countAbort r 0 1 (Machine.setRow r { rowOf (headersAborted r s) r with abortNext := true } (headersAborted r s)) := rfl

theorem abortComing : BindingStays s (abortComing r s) := by
  have headers : BindingStays s (headersAborted r s) := by
    refine foldl_ray (fun t c => ?_) _ s
    split_ifs
    · simp
    · rfl
  rw [abortComing_eq]
  generalize headersAborted r s = t at headers
  exact (headers.trans (setRow (by rfl))).trans (countAbort _ _)

theorem faultAbort (line : Nat) : BindingStays s (faultAbort r line s) := by
  unfold Machine.faultAbort
  dsimp only
  split_ifs
  · exact refl s
  · exact abortRow _ _
  · exact abortComing
  · exact refl s

theorem freeSpares (h : BindingStays s t) : freeSpares t = freeSpares s := by simp [Machine.freeSpares, clusterOf, h.spares, h.clusters]

theorem binding (h : BindingStays s t) (q : Nat) : (rowOf t q).cluster = (rowOf s q).cluster ∧ (rowOf t q).toBind = (rowOf s q).toBind ∧
    (rowOf t q).heldFaults = (rowOf s q).heldFaults := by simpa [Row.binding] using h.rows q

end BindingStays

/-! ### Leaving the pool (R156, R158, R677) -/

theorem find?_erase_of_none {α : Type} {k q : Nat} : ∀ {t : Tbl α}, Tbl.find? q t = none → Tbl.find? q (Tbl.erase k t) = none
  | [], h => h
  | (i, v) :: t, h => by
    have rest : Tbl.find? q t = none ∧ i ≠ q := by
      by_cases hi : i = q <;> simp_all [Tbl.find?]
    unfold Tbl.erase
    split_ifs
    · exact find?_erase_of_none rest.1
    · simp [Tbl.find?, rest.2, find?_erase_of_none rest.1]

section Pool

variable {c k r : Nat} {s : State}

theorem freeSpares_spares (h : k ∈ freeSpares s) : k ∈ s.ray.spares := (List.mem_filter.1 h).1

theorem rowOf_setCluster (x : ClusterState) (q : Nat) : rowOf (setCluster c x s) q = rowOf s q := rfl
theorem clusterOf_setRow (x : Row) (q : Nat) : clusterOf (setRow r x s) q = clusterOf s q := rfl

/-- What the release of a cluster from witness work leaves: the rows, the pool, the shadow checks, the accounts, and every cluster that is not free. -/
structure WitnessMoved (s t : State) : Prop where
  rows : t.ray.rows = s.ray.rows
  spares : t.ray.spares = s.ray.spares
  shadows : t.ray.shadows = s.ray.shadows
  spr : t.spr = s.spr
  clusters : ∀ q, q ∉ s.ray.spares → clusterOf t q = clusterOf s q

theorem WitnessMoved.refl (s : State) : WitnessMoved s s := ⟨rfl, rfl, rfl, rfl, fun _ _ => rfl⟩

theorem witnessMoved_setCluster (hk : k ∈ s.ray.spares) (x : ClusterState) : WitnessMoved s (setCluster k x s) :=
  ⟨rfl, rfl, rfl, rfl, fun q hq => clusterOf_setCluster_ne (fun h : q = k => hq (by rw [h]; exact hk)) _ _⟩

theorem startWitness_moved (s : State) : WitnessMoved s (startWitness s) := by
  unfold startWitness
  cases head : (freeSpares s).head? with
  | none => exact ⟨rfl, rfl, rfl, rfl, fun _ _ => rfl⟩
  | some k =>
    obtain ⟨rows, spares, shadows, spr, clusters⟩ := witnessMoved_setCluster (freeSpares_spares (List.mem_of_head? head)) .witness
    exact ⟨rows, spares, shadows, spr, clusters⟩

theorem abandonWitness_moved (c : Nat) (s : State) : WitnessMoved s (abandonWitness c s) := by
  unfold abandonWitness
  dsimp only
  split_ifs
  · exact .refl s
  · obtain ⟨rows, spares, shadows, spr, clusters⟩ := startWitness_moved { s with ray := { s.ray with witness := none } }
    exact ⟨rows, spares, shadows, spr, clusters⟩
  · cases next : (freeSpares s).find? (· ≠ c) with
    | none => exact ⟨rfl, rfl, rfl, rfl, fun _ _ => rfl⟩
    | some k =>
      obtain ⟨rows, spares, shadows, spr, clusters⟩ := witnessMoved_setCluster (s := { s with ray := { s.ray with source := k } })
        (freeSpares_spares (List.mem_of_find?_eq_some next)) .witness
      exact ⟨rows, spares, shadows, spr, clusters⟩

theorem WitnessMoved.rowOf {t : State} (h : WitnessMoved s t) (q : Nat) : rowOf t q = rowOf s q := by simp [Machine.rowOf, h.rows]

theorem mem_noteFault (c : Nat) (s : State) : c ∈ (noteFault c s).spr.toTest := by
  unfold noteFault faultTime
  dsimp only
  split_ifs with h
  · simpa using h
  · exact List.mem_append_right _ (List.mem_singleton_self _)

/-- Exhausting a class, and its check, leave the ray engine and the units that await a test. -/
theorem checkClusters_ray (s : State) : (checkClusters s).ray = s.ray ∧ (checkClusters s).spr.toTest = s.spr.toTest := by
  unfold checkClusters exhaust
  split_ifs <;> exact ⟨rfl, rfl⟩

end Pool

/-! ### Faults (R154 to R157) -/

section Fault

variable {r k : Nat} {s : State}

/-- The spare kept for a row: it has left the pool, and the row names it. -/
structure Reserved (r k : Nat) (p : Nat × Nat) (s t : State) : Prop where
  toBind : (rowOf t r).toBind = some k
  bindAt : (rowOf t r).bindAt = p
  cluster : (rowOf t r).cluster = (rowOf s r).cluster
  spare : clusterOf t k = .spare
  gone : k ∉ t.ray.spares
  spares : ∀ q, q ∉ s.ray.spares → q ∉ t.ray.spares
  shadows : ∀ q, Tbl.find? q s.ray.shadows = none → Tbl.find? q t.ray.shadows = none
  clusters : ∀ q, q ∉ s.ray.spares → q ≠ k → clusterOf t q = clusterOf s q
  spr : t.spr = s.spr

theorem reserveSpare_reserved (r k : Nat) (p : Nat × Nat) (s : State) : Reserved r k p s (reserveSpare r k p s) := by
  have moved := abandonWitness_moved k (leavePool k s)
  have left : (leavePool k s).ray.spares = s.ray.spares.filter (· ≠ k) := rfl
  unfold reserveSpare
  refine ⟨by rw [rowOf_setRow], by rw [rowOf_setRow], ?_, ?_, ?_, fun q hq => ?_, fun q hq => ?_, fun q hq hk => ?_, moved.spr⟩
  · rw [rowOf_setRow, rowOf_setCluster, moved.rowOf]
    rfl
  · rw [clusterOf_setRow, clusterOf_setCluster]
  · change k ∉ (abandonWitness k (leavePool k s)).ray.spares
    rw [moved.spares, left]
    simp
  · change q ∉ (abandonWitness k (leavePool k s)).ray.spares
    rw [moved.spares, left]
    exact fun h => hq (List.mem_filter.1 h).1
  · change Tbl.find? q (abandonWitness k (leavePool k s)).ray.shadows = none
    rw [moved.shadows]
    exact find?_erase_of_none hq
  · rw [clusterOf_setRow, clusterOf_setCluster_ne hk, moved.clusters q (fun h => hq (List.mem_filter.1 h).1)]
    rfl

/-- A fault that finds a spare (R156). -/
theorem spareFault_spec (p : Nat × Nat) (hk : k ≠ (rowOf s r).cluster) : (rowOf (spareFault r k p s) r).toBind = some k ∧ (rowOf (spareFault r k p s) r).bindAt = p ∧
    (rowOf (spareFault r k p s) r).cluster = (rowOf s r).cluster ∧ clusterOf (spareFault r k p s) k = .spare ∧ k ∉ (spareFault r k p s).ray.spares ∧
    clusterOf (spareFault r k p s) (rowOf s r).cluster = .faulted ∧ (rowOf s r).cluster ∈ (spareFault r k p s).spr.toTest := by
  let u := noteFault (rowOf s r).cluster (setCluster (rowOf s r).cluster .faulted (leavePool (rowOf s r).cluster s))
  have kept := reserveSpare_reserved r k p u
  have gone : (rowOf s r).cluster ∉ u.ray.spares := by simp [u, noteFault, faultTime, setCluster, leavePool]
  have faulted : clusterOf u (rowOf s r).cluster = .faulted := clusterOf_setCluster ..
  obtain ⟨ray, toTest⟩ := checkClusters_ray (reserveSpare r k p u)
  change (rowOf (checkClusters (reserveSpare r k p u)) r).toBind = _ ∧ (rowOf (checkClusters (reserveSpare r k p u)) r).bindAt = _ ∧
    (rowOf (checkClusters (reserveSpare r k p u)) r).cluster = _ ∧ clusterOf (checkClusters (reserveSpare r k p u)) k = _ ∧ k ∉ (checkClusters (reserveSpare r k p u)).ray.spares ∧
    clusterOf (checkClusters (reserveSpare r k p u)) (rowOf s r).cluster = _ ∧ (rowOf s r).cluster ∈ (checkClusters (reserveSpare r k p u)).spr.toTest
  rw [rowOf_of ray, clusterOf_of ray, clusterOf_of ray, ray, toTest]
  refine ⟨kept.toBind, kept.bindAt, kept.cluster, kept.spare, kept.gone, (kept.clusters _ gone hk.symm).trans faulted, ?_⟩
  rw [kept.spr]
  exact mem_noteFault _ _

/-- The times of the faults within 10 s that found no spare (R157). -/
def recentHeld (s : State) (r : Nat) : List Nat := (rowOf s r).heldFaults.filter fun w => tb0 s < w + 10000000000

theorem loneFault_resets (few : (recentHeld s r).length < 2) : clusterOf (loneFault r s) (rowOf s r).cluster = .resetting ∧
    (rowOf (loneFault r s) r).cluster = (rowOf s r).cluster ∧ (rowOf (loneFault r s) r).heldFaults = tb0 s :: recentHeld s r := by
  have effect : loneFault r s = checkClusters (faultTime (rowOf s r).cluster (log (hw 0) r 0x52 ((rowOf s r).cluster + 256 * 0xFF)
      (setCluster (rowOf s r).cluster .resetting (setRow r { rowOf s r with heldFaults := tb0 s :: recentHeld s r } s)))) := by
    refine if_neg ?_
    change ¬ 3 ≤ (tb0 s :: recentHeld s r).length
    simp only [List.length_cons]
    omega
  rw [effect, clusterOf_of (checkClusters_ray _).1, rowOf_of (checkClusters_ray _).1]
  have row (v : State) : rowOf (faultTime (rowOf s r).cluster (log (hw 0) r 0x52 ((rowOf s r).cluster + 256 * 0xFF) (setCluster (rowOf s r).cluster .resetting v))) r = rowOf v r := rfl
  rw [row, rowOf_setRow]
  exact ⟨clusterOf_setCluster .., rfl, rfl⟩

theorem loneFault_unbinds (many : 2 ≤ (recentHeld s r).length) : (rowOf (loneFault r s) r).cluster = 15 ∧ (rowOf (loneFault r s) r).held = true ∧
    clusterOf (loneFault r s) (rowOf s r).cluster = .faulted ∧ (rowOf s r).cluster ∈ (loneFault r s).spr.toTest ∧ (loneFault r s).pins.fault = true := by
  have effect : loneFault r s = assertFault (noteFault (rowOf s r).cluster (faultedOut r (rowOf s r).cluster 0xFF
      (setCluster (rowOf s r).cluster .faulted (setRow r { rowOf s r with heldFaults := [], held := true, cluster := 15 } s)))) := by
    refine if_pos ?_
    change 3 ≤ (tb0 s :: recentHeld s r).length
    simp only [List.length_cons]
    omega
  have row (v : State) : rowOf (noteFault (rowOf s r).cluster (faultedOut r (rowOf s r).cluster 0xFF (setCluster (rowOf s r).cluster .faulted v))) r = rowOf v r := rfl
  have ray (v : State) : (assertFault v).ray = v.ray ∧ (assertFault v).spr = v.spr := by simp
  rw [effect, rowOf_of (ray _).1, clusterOf_of (ray _).1, (ray _).2, row, rowOf_setRow]
  exact ⟨rfl, rfl, clusterOf_setCluster .., mem_noteFault _ _, assertFault_fault _⟩

/-- The fault of a row's cluster once the subframe has aborted. -/
def afterAbort (r : Nat) (s t : State) : State :=
  match (rowOf t r).toBind, (freeSpares t).head? with
  | some k, _ => spareFault r k (bindPoint s r) t
  | none, some k => spareFault r k (bindPoint s r) t
  | none, none => loneFault r t

/-- A cluster fault is the abort, then the fault; the abort leaves what the fault looks at. -/
theorem leads_clusterFault {P : State → Prop} {l : Nat} {c : Instr} (hc : c ∈ [Instr.clusterFault r, .laneTimeout r l]) (has : hasCluster s r = true)
    (hP : ∀ t, BindingStays s t → tb0 t = tb0 s → P (settle (afterAbort r s t))) : Leads c s P := by
  have bound := BindingStays.faultAbort (s := s) (r := r) (s.tim.line + 1)
  have time : tb0 (faultAbort r (s.tim.line + 1) s) = tb0 s := by
    have bases := (faultAbort_keeps (K := [.ray, .sig, .out, .tlk, .dmc, .bureau, .spr, .sent]) r (s.tim.line + 1) s (by decide) (Keeps.refl _ _)).same.bases_eq (by decide)
    rw [tb0, tbNs, baseOf, bases]
    rfl
  have effect : exec c s = done (ifEvent (hasCluster s r) (afterAbort r s (faultAbort r (s.tim.line + 1) s)) s) := by
    simp only [List.mem_cons, List.not_mem_nil, or_false] at hc
    rcases hc with rfl | rfl <;> rfl
  exact leads_event effect has (hP _ bound time)

end Fault

/-- Settles O30: the abort leaves the binding; then the spare's fault, the reset or the loss of the cluster. -/
theorem clusterFaults : Obligations.ClusterFaults := by
  unfold Obligations.ClusterFaults
  intro r l s has c hc
  refine ⟨fun k chosen hk => leads_clusterFault hc has fun t bound time => ?spare, fun none empty few => leads_clusterFault hc has fun t bound time => ?resets,
    fun none empty many => leads_clusterFault hc has fun t bound time => ?unbinds⟩
  all_goals obtain ⟨cluster, toBind, held⟩ := bound.binding r
  case spare =>
    have effect : afterAbort r s t = spareFault r k (bindPoint s r) t := by
      rcases chosen with kept | ⟨none, first⟩
      · simp [afterAbort, toBind, kept]
      · simp [afterAbort, toBind, none, bound.freeSpares, first]
    simp only [effect, rowOf_settle, clusterOf_settle, settle_frame]
    rw [← cluster]
    exact spareFault_spec (bindPoint s r) (by rw [cluster]; exact hk)
  all_goals
    have effect : afterAbort r s t = loneFault r t := by simp [afterAbort, toBind, none, bound.freeSpares, empty]
    have recent : recentHeld t r = (rowOf s r).heldFaults.filter fun w => tb0 s < w + 10000000000 := by rw [recentHeld, held, time]
    simp only [effect, rowOf_settle, clusterOf_settle, settle_frame]
  case resets =>
    rw [← cluster, ← recent, ← time]
    exact loneFault_resets (s := t) (r := r) (recent ▸ few)
  case unbinds =>
    rw [← cluster]
    exact loneFault_unbinds (s := t) (r := r) (recent ▸ many)

/-! ### The pool's own faults, bindings and checks (R121, R155, R157, R677) -/

/-- A cluster that has faulted out of the pool (R677). -/
structure FaultedOut (c : Nat) (s : State) : Prop where
  faulted : clusterOf s c = .faulted
  gone : c ∉ s.ray.spares
  shadow : Tbl.find? c s.ray.shadows = none
  test : c ∈ s.spr.toTest

theorem FaultedOut.of_eq {c : Nat} {s t : State} (h : FaultedOut c s) (clusters : clusterOf t c = clusterOf s c) (spares : t.ray.spares = s.ray.spares)
    (shadows : t.ray.shadows = s.ray.shadows) (test : t.spr.toTest = s.spr.toTest) : FaultedOut c t :=
  ⟨clusters.trans h.faulted, by rw [spares]; exact h.gone, by rw [shadows]; exact h.shadow, by rw [test]; exact h.test⟩

theorem FaultedOut.reserveSpare {c r k : Nat} {p : Nat × Nat} {s : State} (h : FaultedOut c s) (hk : k ∈ freeSpares s) : FaultedOut c (reserveSpare r k p s) := by
  have kept := reserveSpare_reserved r k p s
  have other : c ≠ k := fun same => h.gone (same ▸ freeSpares_spares hk)
  exact ⟨(kept.clusters c h.gone other).trans h.faulted, kept.spares c h.gone, kept.shadows c h.shadow, by rw [kept.spr]; exact h.test⟩

/-- One row of the replacement of a spare that was kept for it. -/
def replaceOne (c : Nat) (t : State) (r : Nat) : State :=
  if (rowOf t r).toBind ≠ some c then t
  else match (freeSpares t).head? with
    | some k => reserveSpare r k (rowOf t r).bindAt t
    | none =>
      if canCompose t r then setRow r { rowOf t r with toBind := none } t
      else faultedOut r (rowOf t r).cluster 0xFF (setRow r { rowOf t r with toBind := none, cluster := 15 } t)

theorem FaultedOut.replaceOne {c r : Nat} {t : State} (h : FaultedOut c t) : FaultedOut c (replaceOne c t r) := by
  unfold Machine.replaceOne
  by_cases other : (rowOf t r).toBind ≠ some c
  · rw [if_pos other]
    exact h
  · rw [if_neg other]
    cases head : (freeSpares t).head? with
    | some k => exact h.reserveSpare (List.mem_of_head? head)
    | none =>
      dsimp only
      split_ifs
      · exact h.of_eq rfl rfl rfl rfl
      · exact h.of_eq rfl rfl rfl rfl

theorem FaultedOut.foldl {c : Nat} (rs : List Nat) {t : State} (h : FaultedOut c t) : FaultedOut c (rs.foldl (Machine.replaceOne c) t) := by
  induction rs generalizing t with
  | nil => exact h
  | cons r rs ih => exact ih h.replaceOne

theorem faultOff_faultedOut {c : Nat} {s : State} : FaultedOut c (faultOff c s) where
  faulted := clusterOf_setCluster ..
  gone := by
    change c ∉ s.ray.spares.filter (· ≠ c)
    simp
  shadow := Tbl.find?_erase_self ..
  test := mem_noteFault _ _

section Bind

variable {c k r : Nat} {s : State}

/-- The state in which a spare has left the pool for a row, before the old cluster is unbound. -/
def spareTaken (r k : Nat) (s : State) : State :=
  let t := setCluster k .bound (abandonWitness k (leavePool k { s with spr := { s.spr with spareUsedSeen := true } }))
  setRow r { rowOf t r with toBind := none } t

theorem spareTaken_spec : (rowOf (spareTaken r k s) r).cluster = (rowOf s r).cluster ∧ (rowOf (spareTaken r k s) r).toBind = none ∧
    clusterOf (spareTaken r k s) k = .bound ∧ k ∉ (spareTaken r k s).ray.spares ∧ (spareTaken r k s).spr.spareUsedSeen = true := by
  have moved := abandonWitness_moved k (leavePool k { s with spr := { s.spr with spareUsedSeen := true } })
  have rows : rowOf (abandonWitness k (leavePool k { s with spr := { s.spr with spareUsedSeen := true } })) r = rowOf s r := moved.rowOf r
  unfold spareTaken
  simp only [rowOf_setRow, rowOf_setCluster, rows, clusterOf_setRow, clusterOf_setCluster]
  refine ⟨trivial, trivial, trivial, ?_, ?_⟩
  · change k ∉ (abandonWitness k (leavePool k { s with spr := { s.spr with spareUsedSeen := true } })).ray.spares
    rw [moved.spares]
    simp [leavePool]
  · change (abandonWitness k (leavePool k { s with spr := { s.spr with spareUsedSeen := true } })).spr.spareUsedSeen = true
    rw [moved.spr]
    rfl

/-- The cluster that a spare replaces leaves the rows and every other cluster. -/
theorem unbind_spec (hk : k ≠ (rowOf s r).cluster) : (unbind r k s).ray.rows = s.ray.rows ∧ clusterOf (unbind r k s) k = clusterOf s k ∧
    (k ∉ s.ray.spares → k ∉ (unbind r k s).ray.spares) ∧ (unbind r k s).spr = s.spr := by
  unfold unbind
  dsimp only
  split_ifs
  · exact ⟨rfl, clusterOf_setCluster_ne hk _ _, fun h => by simp [requestDomains, requestDomain, setCluster, h, hk], rfl⟩
  · exact ⟨rfl, rfl, id, rfl⟩
  · exact ⟨rfl, rfl, id, rfl⟩

theorem bindSpare_spec (hk : k ≠ (rowOf s r).cluster) : (rowOf (bindSpare r k s) r).cluster = k ∧ (rowOf (bindSpare r k s) r).toBind = none ∧
    clusterOf (bindSpare r k s) k = .bound ∧ k ∉ (bindSpare r k s).ray.spares ∧ (bindSpare r k s).spr.spareUsedSeen = true := by
  obtain ⟨cluster, toBind, bound, gone, used⟩ := spareTaken_spec (r := r) (k := k) (s := s)
  obtain ⟨rows, same, spares, spr⟩ := unbind_spec (r := r) (k := k) (s := spareTaken r k s) (by rw [cluster]; exact hk)
  change (rowOf (setRow r { rowOf (unbind r k (spareTaken r k s)) r with cluster := k } (unbind r k (spareTaken r k s))) r).cluster = k ∧
    (rowOf (setRow r { rowOf (unbind r k (spareTaken r k s)) r with cluster := k } (unbind r k (spareTaken r k s))) r).toBind = none ∧
    clusterOf (unbind r k (spareTaken r k s)) k = .bound ∧ k ∉ (unbind r k (spareTaken r k s)).ray.spares ∧ (unbind r k (spareTaken r k s)).spr.spareUsedSeen = true
  have row : rowOf (unbind r k (spareTaken r k s)) r = rowOf (spareTaken r k s) r := by rw [rowOf, rows, rowOf]
  rw [rowOf_setRow, row, same, spr]
  exact ⟨rfl, toBind, bound, spares gone, used⟩

/-- A matching check writes cluster states alone. -/
theorem clearSuspects_ray (k c : Nat) (s : State) : (clearSuspects k c s).ray.rows = s.ray.rows ∧ (clearSuspects k c s).ray.spares = s.ray.spares ∧
    (clearSuspects k c s).ray.shadows = s.ray.shadows := by
  unfold clearSuspects
  dsimp only
  split_ifs <;> exact ⟨rfl, rfl, rfl⟩

theorem shadowOf_setShadow (x : Shadow) : shadowOf (setShadow k x s) k = x := by simp [shadowOf, setShadow]

theorem hasCluster_setShadow (x : Shadow) : hasCluster (setShadow k x s) r = hasCluster s r := rfl

end Bind

/-- A witness picture that is complete has all its rows. -/
theorem renderWitness_spec {w : WitnessPicture} {s : State} (drawn : s.ray.witness = some w) (few : w.rows.length ≤ (witnessSize w.wide).2) :
    (∃ p, (renderWitness (witnessSize w.wide).2 s).ray.witness = some p ∧ p.rows.length = (witnessSize w.wide).2 ∧ p.rows.take w.rows.length = w.rows) ∧
      (renderWitness (witnessSize w.wide).2 s).enc = s.enc ∧ (renderWitness (witnessSize w.wide).2 s).ray.pictures = s.ray.pictures := by
  have counted (as : List Nat) (u : State) : (countTexels as u).ray = u.ray ∧ (countTexels as u).enc = u.enc :=
    ⟨noteMarks_fixed (f := State.ray) (fun _ _ _ _ _ _ => rfl) _ _ _, noteMarks_fixed (f := State.enc) (fun _ _ _ _ _ _ => rfl) _ _ _⟩
  unfold renderWitness
  rw [drawn]
  dsimp only
  rw [(counted _ _).1, (counted _ _).2]
  refine ⟨⟨_, rfl, ?_⟩, rfl, rfl⟩
  generalize hnew : ((List.range' w.rows.length (min (witnessSize w.wide).2 (witnessSize w.wide).2 - w.rows.length)).map fun b =>
    (List.range (witnessSize w.wide).1).map fun a => witnessPixel s (sheetsOf s) a b) = new
  have size : new.length = (witnessSize w.wide).2 - w.rows.length := by simp [← hnew]
  by_cases complete : new.isEmpty = true
  · rw [if_pos complete]
    rw [List.isEmpty_iff.1 complete] at size
    exact ⟨by simp at size; omega, List.take_length⟩
  · rw [if_neg complete]
    refine ⟨?_, List.take_left⟩
    rw [List.length_append]
    omega

/-- Settles O31: each command by the record that it writes. -/
theorem spareClustersAndWitness : Obligations.SpareClustersAndWitness := by
  unfold Obligations.SpareClustersAndWitness
  refine ⟨fun c s free => leads_event rfl (by simp only [free, Bool.true_or]) ?faults, fun r k s kept hk boundary => ?binds, fun r k s none first row hk configured walec boundary => ?walecBinds,
    fun k r v w x s can due row => ?check, fun k a v w s can due has differ other => ?confirmed, fun k a v w x s can due has differ alone => ?suspects,
    fun r s configured resets => leads_event rfl (by simp [resets, configured]) ?resetDone, fun s run bench idle => leads_event rfl (by simp [run, bench, idle]) ?starts,
    fun w s drawn turn few => ?complete⟩
  case faults =>
    have out : FaultedOut c (replaceReserved c (faultOff c (abandonWitness c (leavePool c s)))) := faultOff_faultedOut.foldl _
    obtain ⟨ray, toTest⟩ := checkClusters_ray (log (hw 0) 0xFF 0x52 (c + 256 * 0xFF) (replaceReserved c (faultOff c (abandonWitness c (leavePool c s)))))
    simp only [clusterOf_settle, settle_frame]
    rw [clusterOf_of ray, ray, toTest]
    exact ⟨out.faulted, out.gone, out.shadow, out.test⟩
  case binds =>
    have effect : exec (.spareBind r) s = done (ifEvent (atBoundary s r (rowOf s r).bindAt) (bindSpare r k s) s) := by
      change execSpareBind r s = _
      simp only [execSpareBind, kept]
    refine leads_event effect boundary ?_
    simpa only [rowOf_settle, clusterOf_settle, settle_frame] using bindSpare_spec hk
  case walecBinds =>
    have effect : exec (.spareBind r) s = done (ifEvent (walecBinds s r) (bindSpare r k s) s) := by
      change execSpareBind r s = _
      simp only [execSpareBind, none, first]
    obtain ⟨cluster, -, bound, gone, used⟩ := bindSpare_spec (r := r) (k := k) (s := s) (by rw [row]; exact hk)
    refine leads_event effect (by simp [walecBinds, row, configured, walec, boundary]) ?_
    simp only [rowOf_settle, clusterOf_settle, settle_frame]
    exact ⟨cluster, bound, gone, used⟩
  case check =>
    let y : Shadow := { shadowMade s k with row := (r + 1) % configRows s, line := ((shadowOf s k).line + 1) % 1440 }
    have effect : exec (.shadowCheck k r (shadowOf s k).line v w x) s = done (ifEvent (shadows s k && r = r && (shadowMade s k).line = (shadowOf s k).line)
        (if v = w then clearSuspects k (rowOf s r).cluster (setShadow k y s)
         else setShadow k { y with again := y.again ++ [{ row := r, line := (shadowMade s k).line, frame := s.tim.frameCount, phase := s.tim.sub }] } s) s) := by
      change execShadowCheck k r (shadowOf s k).line v w x s = _
      simp only [execShadowCheck, due, row]
      rfl
    refine leads_event effect (by simp [can, shadowMade]) ?_
    simp only [settle_frame, shadowOf, Tbl.get]
    split_ifs with same
    · obtain ⟨rows, spares, shadows⟩ := clearSuspects_ray k (rowOf s r).cluster (setShadow k y s)
      rw [rows, spares, shadows]
      refine ⟨?_, ?_, rfl, rfl, fun differ => absurd same differ⟩ <;> simp [setShadow, Tbl.find?_set_self, y, shadowOf, Tbl.get]
    · refine ⟨?_, ?_, rfl, rfl, fun _ => ⟨rfl, ?_⟩⟩ <;> simp [setShadow, Tbl.find?_set_self, y, shadowOf, Tbl.get, shadowMade]
  case confirmed =>
    have others : (freeSpares (setShadow k (shadowMade s k) s)).any (· ≠ k) = true := other
    change execShadowCheck k a.row a.line v w v s = execClusterFault a.row (setShadow k (shadowMade s k) s)
    simp only [execShadowCheck, execClusterFault, due, can, repeatCheck, hasCluster_setShadow, has, Bool.not_true, Bool.false_eq_true, if_false, if_neg differ,
      if_pos others, if_true, ifEvent, decide_true, Bool.and_self]
  case suspects =>
    have none : ¬ (freeSpares (setShadow k (shadowMade s k) s)).any (· ≠ k) = true := by
      change ¬ (freeSpares s).any (· ≠ k) = true
      rw [alone]
      exact Bool.false_ne_true
    have effect : exec (.shadowCheck k a.row a.line v w x) s = done (ifEvent (shadows s k && a.row = a.row && a.line = a.line)
        (setCluster k .suspect (setCluster (rowOf s a.row).cluster .suspect (setShadow k (shadowMade s k) s))) s) := by
      change execShadowCheck k a.row a.line v w x s = _
      simp only [execShadowCheck, due, repeatCheck, hasCluster_setShadow, has, Bool.not_true, Bool.false_eq_true, if_false, if_neg differ, if_neg none]
      rfl
    refine leads_event effect (by simp [can]) ?_
    simp only [clusterOf_settle, settle_frame, clusterOf_setCluster]
    refine ⟨trivial, ?_, rfl⟩
    by_cases own : (rowOf s a.row).cluster = k
    · rw [own, clusterOf_setCluster]
    · rw [clusterOf_setCluster_ne own, clusterOf_setCluster]
  case resetDone =>
    simp only [clusterOf_settle, settle_frame]
    exact ⟨clusterOf_setCluster .., rfl⟩
  case starts =>
    simp only [clusterOf_settle, settle_frame]
    unfold startWitness
    cases first : (freeSpares s).head? with
    | none => exact ⟨rfl, rfl, fun k hk => by simp at hk, rfl⟩
    | some j =>
      refine ⟨rfl, rfl, fun k hk => ?_, rfl⟩
      obtain rfl : j = k := by simpa using hk
      exact clusterOf_setCluster ..
  case complete =>
    obtain ⟨⟨p, witness, rows, begun⟩, enc, pictures⟩ := renderWitness_spec drawn few
    have effect : exec (.witnessPictureComplete s.ray.source) s = done (ifEvent (s.ray.source = s.ray.source && witnessTurn s)
        { renderWitness (witnessSize w.wide).2 s with
          ray := { (renderWitness (witnessSize w.wide).2 s).ray with witness := none, pictures := wrapAdd 32 s.ray.pictures 1 }
          enc := { s.enc with waiting := some p, dropped := satAdd 16 s.enc.dropped (if s.enc.waiting.isSome then 1 else 0) } } s) := by
      change execWitnessPictureComplete s.ray.source s = _
      simp only [execWitnessPictureComplete, drawn, witness, enc, pictures]
    refine leads_event effect (by simp [turn]) ?_
    simp only [settle_frame]
    exact ⟨trivial, trivial, ⟨p, rfl, rows, begun⟩, trivial⟩

end Sys2Proof.Machine
end

section
/-! Proofs of O32 and O33: the Wardrobe, Walec's stops and the lockstep (R29, R34, R565, R612 to R627). -/

namespace Sys2Proof.Machine

/-! ### Self-tests (R612) -/

theorem exhaust_mem (k : Nat) (s : State) : k ∈ (exhaust k s).spr.exhausted := by
  unfold exhaust
  split_ifs with h
  · simpa using h
  · exact List.mem_cons_self ..

/-- What exhausting or replenishing a class leaves of the Wardrobe: the units and their tests. -/
structure UnitsStay (s t : State) : Prop where
  retired : t.spr.retired = s.spr.retired
  retireSeen : t.spr.retireSeen = s.spr.retireSeen
  toTest : t.spr.toTest = s.spr.toTest
  ray : t.ray = s.ray

theorem UnitsStay.refl (s : State) : UnitsStay s s := ⟨rfl, rfl, rfl, rfl⟩

theorem exhaust_stays (k : Nat) (s : State) : UnitsStay s (exhaust k s) := by
  unfold exhaust
  split_ifs <;> exact ⟨rfl, rfl, rfl, rfl⟩

theorem checkClusters_stays (s : State) : UnitsStay s (checkClusters s) := by
  unfold checkClusters
  split_ifs
  · exact exhaust_stays 0 s
  · exact .refl s

theorem retireUnit_spr (k n : Nat) (s : State) : k ∈ (retireUnit k n s).spr.retired ∧ (retireUnit k n s).spr.retireSeen = true ∧ (retireUnit k n s).spr.toTest = s.spr.toTest := by
  refine ⟨?_, rfl, rfl⟩
  change k ∈ if s.spr.retired.contains k then s.spr.retired else k :: s.spr.retired
  split_ifs with h
  · simpa using h
  · exact List.mem_cons_self ..

theorem retire_spr (u : FaultUnit) (s : State) : unitBit u ∈ (retire u s).spr.retired ∧ (retire u s).spr.retireSeen = true ∧ (retire u s).spr.toTest = s.spr.toTest := by
  have retired := retireUnit_spr (unitBit u) (recentFaults s (unitBit u)) s
  cases u with
  | cluster c =>
    have stays := checkClusters_stays (setCluster c (if domainOn (retireUnit (unitBit (.cluster c)) (recentFaults s (unitBit (.cluster c))) s) c then .spare else .off)
      (retireUnit (unitBit (.cluster c)) (recentFaults s (unitBit (.cluster c))) s))
    simp only [retire, stays.retired, stays.retireSeen, stays.toTest]
    exact retired
  | core c =>
    have stays := exhaust_stays 3 (retireUnit (unitBit (.core c)) (recentFaults s (unitBit (.core c))) s)
    simp only [retire, stays.retired, stays.retireSeen, stays.toTest]
    exact retired

/-- The pool and the cluster once it returns, before its domain is asked for (R612). -/
def poolReturned (c : Nat) (s : State) : State :=
  let bound := (List.range (configRows s)).any fun r => (rowOf s r).cluster = c
  setCluster c .off { s with ray := { s.ray with spares := if bound || s.ray.spares.contains c then s.ray.spares else s.ray.spares ++ [c] } }

theorem returnCluster_stays (c : Nat) (s : State) : UnitsStay (poolReturned c s) (returnCluster c s) := by
  have replenished : UnitsStay (poolReturned c s) (if (List.range (configRows s)).any fun r => (rowOf s r).cluster = c then poolReturned c s else replenish 0 (poolReturned c s)) := by
    split_ifs <;> exact ⟨rfl, rfl, rfl, rfl⟩
  have asked (u : State) (h : UnitsStay (poolReturned c s) u) : UnitsStay (poolReturned c s) (if inBench s then u else requestDomain true c u) := by
    split_ifs
    · exact h
    · exact ⟨h.retired, h.retireSeen, h.toTest, h.ray⟩
  exact asked _ replenished

theorem poolReturned_spec (c : Nat) (s : State) : clusterOf (poolReturned c s) c = .off ∧ ((∀ r < configRows s, (rowOf s r).cluster ≠ c) → c ∈ (poolReturned c s).ray.spares) := by
  refine ⟨clusterOf_setCluster .., fun free => ?_⟩
  have unbound : ((List.range (configRows s)).any fun r => (rowOf s r).cluster = c) = false := by
    rw [List.any_eq_false]
    exact fun r hr => by simpa using free r (List.mem_range.1 hr)
  change c ∈ if ((List.range (configRows s)).any fun r => (rowOf s r).cluster = c) || s.ray.spares.contains c then s.ray.spares else s.ray.spares ++ [c]
  rw [unbound, Bool.false_or]
  split_ifs with h
  · simpa using h
  · simp

/-- A unit that returns to service (R612). -/
theorem returnUnit_spec (u : FaultUnit) (s : State) : (returnUnit u s).spr.retired = s.spr.retired ∧ (returnUnit u s).spr.toTest = s.spr.toTest ∧
    (∀ c, u = .cluster c → clusterOf (returnUnit u s) c = .off ∧ ((∀ r < configRows s, (rowOf s r).cluster ≠ c) → c ∈ (returnUnit u s).ray.spares)) ∧
    (∀ c, u = .core c → coreOf (returnUnit u s) c = coreOf (readyCore c s) c) := by
  cases u with
  | cluster c =>
    have stays := returnCluster_stays c s
    obtain ⟨off, pool⟩ := poolReturned_spec c s
    refine ⟨stays.retired, stays.toTest, fun d hd => ?_, fun d hd => by simp at hd⟩
    obtain rfl : c = d := by simpa using hd
    exact ⟨(clusterOf_of stays.ray c).trans off, fun free => by
      change c ∈ (returnCluster c s).ray.spares
      rw [stays.ray]
      exact pool free⟩
  | core c =>
    have kept : (readyCore c s).spr = s.spr := (readyCore_keeps (K := [.dec, .pwr]) c s (by decide) (Keeps.refl _ _)).same.spr_eq (by decide)
    refine ⟨.trans (b := (readyCore c s).spr.retired) rfl (by rw [kept]), .trans (b := (readyCore c s).spr.toTest) rfl (by rw [kept]), fun d hd => by simp at hd, fun d hd => ?_⟩
    obtain rfl : c = d := by simpa using hd
    rfl

theorem readyCore_off {c : Nat} {s : State} (off : domainOf s (16 + c) = .off) : (coreOf (readyCore c s) c).state = .off := by
  have on : domainOn s (16 + c) = false := by simp [domainOn, off]
  have power : coreOf (readyCore c s) c = coreOf (setCore c { coreOf s c with state := if domainOn s (16 + c) then .idle else .off } s) c :=
    coreOf_of ((powerCore_keeps (K := [.pwr]) c _ (by decide) (Keeps.refl _ _)).same.dec_eq (by decide)) c
  rw [power, coreOf_setCore, on]
  rfl

/-! ### Repairs, moves and counts (R619 to R627) -/

theorem applyRepair_repairs (d : Nat) (s : State) : (applyRepair d s).spr.repairs = s.spr.repairs := by
  have cycled (u : State) : (cycleDomains u).spr.repairs = u.spr.repairs := by
    unfold cycleDomains
    exact foldl_fixed (f := fun t : State => t.spr.repairs) (g := fun t d => requestDomain true d (requestDomain false d t)) (fun _ _ => rfl) _ _
  have reserved (r k : Nat) (p : Nat × Nat) : (reserveSpare r k p s).spr = s.spr := (reserveSpare_keeps (K := [.ray]) r k p s (by decide) (Keeps.refl _ _)).same.spr_eq (by decide)
  unfold applyRepair
  split_ifs
  · split
    · rw [reserved]
    · rfl
  · exact cycled _
  · rw [cycled]
  · rfl

/-- A row that is added is in its domain's table, while the table has room (R619). -/
theorem mem_addRepair {d row : Nat} {s : State} (room : (repairsOf s d).length < 64) : row ∈ repairsOf (addRepair d row s) d := by
  unfold addRepair
  dsimp only
  split_ifs with full
  · simp only [Bool.or_eq_true, decide_eq_true_eq] at full
    exact full.elim (fun h => absurd h (by omega)) fun h => by simpa using h
  · rw [repairsOf, applyRepair_repairs]
    simp [repairsOf]

/-- A migration once its sites are named (R434). -/
theorem startMigration_spec (l : Nat) (o : Origin) (s : State) : (startMigration l o s).dmc.migrateLogical = l ∧ (startMigration l o s).dmc.migrateTo = s.dmc.spareSite ∧
    (startMigration l o s).spr.spareUsedSeen = true := by
  have exhausted (k : Nat) (u : State) : (exhaust k u).dmc = u.dmc ∧ (exhaust k u).spr.spareUsedSeen = u.spr.spareUsedSeen := by
    unfold exhaust
    split_ifs <;> exact ⟨rfl, rfl⟩
  unfold startMigration
  dsimp only
  rw [(exhausted _ _).1, (exhausted _ _).2]
  split_ifs <;> exact ⟨rfl, rfl, rfl⟩

theorem watchClasses_outage (s : State) : (watchClasses s).spr.outageMs = s.spr.outageMs := by
  have one (t : State) (c : Nat) : (if classEmpty s c then exhaust c t else replenish c t).spr.outageMs = t.spr.outageMs := by
    unfold exhaust
    split_ifs <;> rfl
  exact foldl_fixed (f := fun t : State => t.spr.outageMs) one _ _

/-- Settles O32: each decision of the Wardrobe by what it writes. -/
theorem redundancy : Obligations.Redundancy := by
  unfold Obligations.Redundancy
  refine ⟨fun u pass s waits can running bench => leads_event rfl (by rw [waits, can, running, bench]; rfl) ?selfTest,
    fun d row w s hd threshold running room => leads_event rfl (by simp [hd]) ?repaired, fun d row w s hd stopped => leads_event rfl (by simp [hd]) ?kept,
    fun sites l s lowest auto running bench spare idle run => ?migrates, fun n t0 s since auto running conf half up run none never allowed => ?restores,
    fun s on => leads_event rfl on ?outage, fun s on running => leads_event rfl (by simp [on, running]) ?persists⟩
  case selfTest =>
    have gone : unitBit u ∉ s.spr.toTest.filter (· ≠ unitBit u) := by simp
    simp only [clusterOf_settle, coreOf_settle, settle_frame]
    split_ifs with returns
    · obtain ⟨retired, toTest, cluster, core⟩ := returnUnit_spec u { s with spr := { s.spr with toTest := s.spr.toTest.filter (· ≠ unitBit u) } }
      simp only [Bool.and_eq_true, decide_eq_true_eq] at returns
      refine ⟨by rw [toTest]; exact gone, fun _ _ _ => ⟨retired, cluster, fun c hc => ?_⟩, fun stays => ?_⟩
      · rw [core c hc]
        subst hc
        have off : domainOf s (16 + c) = .off := by simpa [testable] using can
        exact readyCore_off off
      · obtain ⟨⟨passes, allowed⟩, few⟩ := returns
        rcases stays with h | h | h
        · simp [passes] at h
        · exact absurd allowed h
        · omega
    · obtain ⟨retired, seen, toTest⟩ := retire_spr u { s with spr := { s.spr with toTest := s.spr.toTest.filter (· ≠ unitBit u) } }
      refine ⟨by rw [toTest]; exact gone, fun passes allowed few => absurd ?_ returns, fun _ => ⟨retired, seen⟩⟩
      simp [passes, allowed, few]
  case repaired =>
    have counted : s.spr.repairThreshold ≤ (((d, w, tb0 s) :: s.spr.corrections.filter fun c => tb0 s < c.2.2 + 3600000000000).filter fun c => c.1 = d && c.2.1 = w).length := by
      rw [List.filter_cons_of_pos (by simp)]
      simp only [List.length_cons]
      omega
    rw [if_pos (by simpa [running] using counted)]
    simp only [repairsOf, settle_frame]
    exact mem_addRepair room
  case kept =>
    rw [if_neg (by simp [stopped])]
    simp
  case migrates =>
    have effect : exec (.autoMigrate sites) s = done (ifEvent (s.spr.migrateAuto = 1 && s.hif.walec == .running && s.tim.bench == .off && spareSitePresent s &&
        !migrationRuns s && s.dmc.mode == .running) (startMigration l byWalec (log byWalec l 0xD4 0 s)) s) := by
      change execAutoMigrate sites s = _
      simp only [execAutoMigrate, lowest]
    refine leads_event effect (by simp [auto, running, bench, spare, idle, run]) ?_
    simp only [settle_frame]
    exact startMigration_spec l byWalec (log byWalec l 0xD4 0 s)
  case restores =>
    let u := advanceTo0 (t0 + 86400000000000) s
    have effect : exec (.autoRestore n) s = done (ifEvent (s.spr.linkAutoRestore = 1 && s.hif.walec == .running && configured s n && (linkOf s n).half &&
        (linkOf s n).state == .up && s.tim.rasterRun && !(linkOf s n).has 4 && !false && !s.spr.noAuto.contains n)
        (restoreAt n (rateFrame u) (log byWalec n 0xD4 1 { u with spr := { u.spr with autoRestored := Tbl.set n (tb0 u) u.spr.autoRestored } })) s) := by
      change execAutoRestore n s = _
      simp only [execAutoRestore, since, never, Option.any_none, Bool.false_eq_true, if_false]
      rfl
    refine leads_event effect (by simp only [auto, running, conf, half, up, run, none, allowed]; rfl) ?_
    have time : tb0 (settle (restoreAt n (rateFrame u) (log byWalec n 0xD4 1 { u with spr := { u.spr with autoRestored := Tbl.set n (tb0 u) u.spr.autoRestored } }))) = tb0 u := by
      rw [tb0, tbNs, baseOf_settle]
      rfl
    rw [time, linkOf_settle, restoreAt, control, linkOf_setLink]
    simp only [settle_frame]
    exact ⟨by simp [Link.has], Tbl.find?_set_self ..⟩
  case outage =>
    have watched (u : State) (c : Bool) : (if c then watchClasses u else u).spr.outageMs = u.spr.outageMs := by
      split_ifs
      · exact watchClasses_outage u
      · rfl
    simp only [settle_frame]
    rw [watched]
    split_ifs <;> simp
  case persists => simp [persistCounts]

/-! ### Stops of Walec (R29, R497, R565, R615 to R617) -/

theorem romBoot_walec (s : State) : (romBoot s).hif.walec = s.hif.walec ∧ (romBoot s).hif.restarts = s.hif.restarts ∧ (romBoot s).walec = s.walec ∧ (romBoot s).eth = s.eth := by
  have same := (romBoot_keeps (K := [.ports, .bureau, .bot, .pins, .sent]) s (by decide) (Keeps.refl _ _)).same
  exact ⟨same.walec_run (by decide), (same .health (by decide)).2.1, same.walec_eq (by decide), same.eth_eq (by decide)⟩

/-- Walec's records at its stop, before the drawers are answered (R29, R516). -/
def stopRecords (code : Nat) (s : State) : State :=
  let t := stopQueues (setWalec .restarting (cutLoad s))
  { t with hif := { t.hif with restarts := satAdd 16 t.hif.restarts 1 }
           walec := { t.walec with restartCause := code, stoppedAt := some (tb0 s), timeoutSeen := false, taken := [], answers := [] }
           eth := { t.eth with sessions := [] } }

/-- What a stop of Walec leaves (R29, R485, R516). -/
structure Stopped (code : Nat) (s t : State) : Prop where
  walec : t.hif.walec = .restarting
  restarts : t.hif.restarts = satAdd 16 s.hif.restarts 1
  cause : t.walec.restartCause = code
  stoppedAt : t.walec.stoppedAt = some (tb0 s)
  taken : t.walec.taken = []
  answers : t.walec.answers = []
  sessions : t.eth.sessions = []

theorem stopRecords_stopped (code : Nat) (s : State) : Stopped code s (stopRecords code s) := by
  have queues := (stopQueues_keeps (K := [.dmc, .dram, .ports, .queues, .bureau, .pins, .sent]) (setWalec .restarting (cutLoad s)) (by decide) (Keeps.refl _ _)).same
  have cut := (cutLoad_keeps (K := [.geom, .out, .bot, .drawn]) s (by decide) (Keeps.refl _ _)).same
  exact ⟨queues.walec_run (by decide), congrArg (satAdd 16 · 1) ((queues .health (by decide)).2.1.trans (cut .health (by decide)).2.1), rfl, rfl, rfl, rfl, rfl⟩

theorem Stopped.of_same {l : List Part} {code : Nat} {s t u : State} (h : Stopped code s t) (k : SameBut l t u) (health : Part.health ∉ l) (walec : Part.walec ∉ l) (eth : Part.eth ∉ l) :
    Stopped code s u := by
  obtain ⟨run, restarts, cause, stoppedAt, taken, answers, sessions⟩ := h
  exact ⟨(k.walec_run health).trans run, (k .health health).2.1.trans restarts, by rw [k.walec_eq walec]; exact cause, by rw [k.walec_eq walec]; exact stoppedAt,
    by rw [k.walec_eq walec]; exact taken, by rw [k.walec_eq walec]; exact answers, by rw [k.eth_eq eth]; exact sessions⟩

theorem stopWalec_stopped {s : State} (running : s.hif.walec = .running) (code : Nat) : Stopped code s (stopWalec code s) := by
  have rest : Keeps [.ports, .drawers, .bureau, .bot, .pins, .sent] (stopRecords code s) (romBoot (stopDrawers (raiseBoth 1 (log (hw 15) code 0x90 0 (stopRecords code s))))) :=
    romBoot_keeps _ (by decide) (stopDrawers_keeps _ (by decide) (raiseBoth_keeps _ _ (by decide) (log_keeps _ _ _ _ _ (by decide) (Keeps.refl _ _))))
  rw [stopWalec, if_pos (by simp [running])]
  exact (stopRecords_stopped code s).of_same rest.same (by decide) (by decide) (by decide)

theorem Stopped.settle {code : Nat} {s t : State} (h : Stopped code s t) : Stopped code s (settle t) :=
  h.of_same (l := [.ports, .sent]) (SameBut.settle (fun p _ => p.same_refl t) (by decide) (by decide)) (by decide) (by decide) (by decide)

theorem stopWalec_same (code : Nat) (s : State) :
    SameBut [.geom, .eth, .out, .dmc, .dram, .ports, .drawers, .queues, .health, .walec, .bureau, .bot, .pins, .sent, .drawn] s (stopWalec code s) :=
  (stopWalec_keeps code s (by decide) (Keeps.refl _ _)).same

theorem leads_mismatch {P : State → Prop} {o : Option Nat} {s : State} (running : s.hif.walec = .running) (active : s.spr.standby = false) (hP : P (settle (mismatch o s))) :
    Leads (.lockstepMismatch o) s P := leads_event rfl (by simp [running, active]) hP

/-- Settles O33: each stop through the stop's own record. -/
theorem walecStopsAndLockstep : Obligations.WalecStopsAndLockstep := by
  unfold Obligations.WalecStopsAndLockstep
  refine ⟨fun c s running => leads_done rfl ?stop, fun s running => leads_event rfl (by simp [running]) ?watchdog, fun u s restarting stopped first => ?timeout,
    fun k s running active triple => leads_mismatch running active ?outvoted, fun s running active triple => leads_mismatch running active ?split,
    fun o s running active pair => leads_mismatch running active ?pair, fun o s running active joined => leads_mismatch running active ?joined,
    fun s triple bench => leads_event rfl (by simp [triple, bench]) ?exit⟩
  case stop =>
    have h := (stopWalec_stopped running (stopCode c)).settle
    exact ⟨h.walec, h.restarts, h.cause, h.stoppedAt, h.taken, h.answers, h.sessions⟩
  case watchdog =>
    let u := log (hw 10) 7 0xB3 0 { s with pwr := { s.pwr with watchdogCount := satAdd 16 s.pwr.watchdogCount 1, watchdogSeen := true, last := 7 } }
    have h := (stopWalec_stopped (s := u) running 3).settle
    have pwr : (stopWalec 3 u).pwr = u.pwr := (stopWalec_same 3 u).pwr_eq (by decide)
    have settled : (settle (watchdogReset s)).pwr = u.pwr := by rw [← pwr]; simp [watchdogReset, u]
    exact ⟨h.walec, h.cause, by rw [settled]; rfl, by rw [settled]; rfl⟩
  case timeout =>
    let t := advanceTo0 (u + 2000000000) s
    have effect : exec .walecTimeout s = done (ifEvent (s.hif.walec == .restarting && !s.walec.timeoutSeen)
        (log (hw 15) 4 0x92 0 (assertFault { t with walec := { t.walec with restartCause := 4, timeoutSeen := true } })) s) := by
      change execWalecTimeout s = _
      simp only [execWalecTimeout, stopped]
      rfl
    refine leads_event effect (by simp [restarting, first]) ?_
    let v := { t with walec := { t.walec with restartCause := 4, timeoutSeen := true } }
    have walec : (assertFault v).walec = v.walec ∧ (assertFault v).hif.walec = v.hif.walec :=
      ⟨by simp, (assertFault_keeps (K := [.ports, .pins, .sent]) v (by decide) (Keeps.refl _ _)).same.walec_run (by decide)⟩
    have fault := assertFault_fault v
    have run : v.hif.walec = .restarting := (show (advanceTo0 (u + 2000000000) s).hif.walec = s.hif.walec by simp).trans restarting
    simp only [settle_frame, settle_hif]
    exact ⟨walec.2.trans run, congrArg WalecCtl.timeoutSeen walec.1, congrArg WalecCtl.restartCause walec.1, fault⟩
  case outvoted =>
    have effect : mismatch (some k) s = exhaust 2 (setCpu .joined 2 k (retireUnit (24 + k) 1 s)) := by simp only [mismatch, triple]
    have stays := exhaust_stays 2 (setCpu .joined 2 k (retireUnit (24 + k) 1 s))
    obtain ⟨retired, seen, -⟩ := retireUnit_spr (24 + k) 1 s
    have cpu : (exhaust 2 (setCpu .joined 2 k (retireUnit (24 + k) 1 s))).spr.cpu = .joined := by
      unfold exhaust
      split_ifs <;> rfl
    have run : (exhaust 2 (setCpu .joined 2 k (retireUnit (24 + k) 1 s))).hif = s.hif := by
      unfold exhaust
      split_ifs <;> rfl
    simp only [settle_frame, settle_hif, effect, cpu, stays.retired, stays.retireSeen, run]
    exact ⟨running, trivial, retired, seen⟩
  case split =>
    have effect : mismatch none s = stopWalec 2 { s with spr := { s.spr with lastMismatch := tb0 s } } := by simp only [mismatch, triple]
    have h := (stopWalec_stopped (s := { s with spr := { s.spr with lastMismatch := tb0 s } }) running 2).settle
    rw [effect]
    refine ⟨h.walec, h.cause, ?_⟩
    simp only [settle_frame]
    rw [(stopWalec_same 2 { s with spr := { s.spr with lastMismatch := tb0 s } }).spr_eq (by decide)]
  case pair =>
    have effect : mismatch o s = requestDomain true 43 (stopWalec 2 s) := by simp only [mismatch, pair]
    have h := ((stopWalec_stopped running 2).of_same (l := [.pwr]) (u := requestDomain true 43 (stopWalec 2 s))
      (requestDomain_keeps _ _ _ (by decide) (Keeps.refl _ _)).same (by decide) (by decide) (by decide)).settle
    rw [effect]
    refine ⟨h.walec, h.cause, ?_⟩
    simp only [settle_frame]
    exact List.mem_append_right _ (List.mem_singleton_self _)
  case joined =>
    have effect : mismatch o s = exhaust 2 (stopWalec 2 s) := by simp only [mismatch, joined]
    have h := ((stopWalec_stopped running 2).of_same (l := [.bureau, .spr]) (u := exhaust 2 (stopWalec 2 s))
      (exhaust_keeps _ _ (by decide) (Keeps.refl _ _)).same (by decide) (by decide) (by decide)).settle
    rw [effect]
    refine ⟨h.walec, h.cause, ?_⟩
    simp only [settle_frame]
    exact exhaust_mem 2 _
  case exit =>
    simp only [settle_frame]
    exact ⟨rfl, by simp [requestDomain]⟩

end Sys2Proof.Machine
end

section
/-! Proofs of O34 and O35: the resets and the reference inputs (R549 to R568, R581, R582, R618). -/

namespace Sys2Proof.Machine

/-! ### FAULT# once asserted -/

/-- A step that never releases FAULT#. -/
def FaultStays (s t : State) : Prop := s.pins.fault = true → t.pins.fault = true

namespace FaultStays

variable {s t u : State}

theorem refl (s : State) : FaultStays s s := id

theorem trans (h : FaultStays s t) (k : FaultStays t u) : FaultStays s u := k ∘ h

theorem of_pins (h : t.pins = s.pins) : FaultStays s t := fun hs => h ▸ hs

theorem of_same {l : List Part} (h : SameBut l s t) (hp : Part.pins ∉ l) : FaultStays s t := of_pins (h.pins_eq hp)

theorem ite {c : Prop} [Decidable c] (ht : FaultStays s t) (hu : FaultStays s u) : FaultStays s (if c then t else u) := by
  split_ifs
  · exact ht
  · exact hu

theorem foldl {α : Type} {g : State → α → State} (hg : ∀ t x, FaultStays t (g t x)) : ∀ (xs : List α) s, FaultStays s (xs.foldl g s)
  | [], s => refl s
  | x :: xs, s => (hg s x).trans (foldl hg xs _)

theorem assertFault (s : State) : FaultStays s (assertFault s) := fun _ => assertFault_fault s

theorem migrationStop (s : State) : FaultStays s (migrationStop s) := fun _ => by
  rw [Machine.migrationStop, ((log_keeps (K := [.bureau]) _ _ _ _ _ (by decide) (Keeps.refl _ _)).same).pins_eq (by decide), assertFault_fault]

theorem commandError (a r k : Nat) (s : State) : FaultStays s (commandError a r k s) :=
  of_same (commandError_keeps (K := [.dmc, .bureau]) a r k s (by decide) (Keeps.refl _ _)).same (by decide)

theorem countCe (c k : Nat) (s : State) : FaultStays s (countCe c k s) :=
  of_same (countCe_keeps (K := [.dmc]) c k s (by decide) (Keeps.refl _ _)).same (by decide)

theorem countUe (a r c : Nat) (s : State) : FaultStays s (countUe a r c s) := by
  have counted : (ueCounted a r c s).pins = s.pins := by
    have degraded (t : State) : (degradeSite (c / 4) t).pins = t.pins := rfl
    have site (t : State) : (siteUe c t).pins = t.pins := rfl
    rw [ueCounted, degraded]
    split_ifs <;> simp [site, recordErr]
  rw [countUe_eq]
  exact ite ((of_pins counted).trans (migrationStop _)) (of_pins counted)

theorem writeLine (r a : Nat) (b : Bytes) (e : Ecc) (s : State) : FaultStays s (writeLine r a b e s) := by
  have stored : FaultStays s (store a b s) := of_pins rfl
  have marked (t : State) : FaultStays t (mark (a / 64) t) := of_pins rfl
  unfold Machine.writeLine
  split
  · exact commandError _ _ _ _
  · exact ite stored (ite (((stored.trans (countCe _ _ _)).trans (marked _)).trans (countUe _ _ _ _)) (stored.trans (countCe _ _ _)))

theorem readLine (r a n : Nat) (e : Ecc) (s : State) : FaultStays s (readLine r a n e s).1 := by
  unfold Machine.readLine
  dsimp only
  split
  · exact commandError _ _ _ _
  · split_ifs
    · exact (countCe _ _ _).trans (of_pins rfl)
    · exact (countCe _ _ _).trans (countUe _ _ _ _)
    · exact countCe _ _ _

theorem readOp (r a n : Nat) (es : List Ecc) (s : State) : FaultStays s (readOp r a n es s).1 := by
  have pieces (ps : List ((Nat × Nat) × Nat)) (x : State × Bytes × Bool) : FaultStays x.1 (ps.foldl (fun t p =>
      ((Machine.readLine r p.1.1 p.1.2 (es.getD p.2 {}) t.1).1, t.2.1 ++ (Machine.readLine r p.1.1 p.1.2 (es.getD p.2 {}) t.1).2.1,
        t.2.2 || (Machine.readLine r p.1.1 p.1.2 (es.getD p.2 {}) t.1).2.2)) x).1 := by
    induction ps generalizing x with
    | nil => exact refl _
    | cons p ps ih =>
      rw [List.foldl_cons]
      refine .trans ?_ (ih _)
      exact readLine r p.1.1 p.1.2 (es.getD p.2 {}) x.1
  exact pieces _ (s, [], false)

theorem serveRequest (h : DramRequest) (s : State) : FaultStays s (serveRequest h s) := by
  have aborted : FaultStays s (abortEntry h s) := of_same (abortEntry_keeps (K := [.dmc]) h s (by decide) (Keeps.refl _ _)).same (by decide)
  have counted (p : Port) (t : State) : FaultStays t (countPoisoned p t) :=
    of_same (countPoisoned_keeps (K := [.ports]) p t (by decide) (Keeps.refl _ _)).same (by decide)
  unfold Machine.serveRequest
  cases h.data with
  | some b => exact aborted.trans (writeLine _ _ _ _ _)
  | none =>
    have read := aborted.trans (readOp h.requester h.addr h.len h.ecc (abortEntry h s))
    have answered := ite (c := unanswered s h = true) read (read.trans (of_pins (t := send (.readReply h.requester h.addr
      (Machine.readOp h.requester h.addr h.len h.ecc (abortEntry h s)).2.1 (Machine.readOp h.requester h.addr h.len h.ecc (abortEntry h s)).2.2) _) rfl))
    cases h.bar2 with
    | none => exact ite answered answered
    | some p => exact ite (answered.trans (counted p _)) answered

theorem request (h : DramRequest) (s : State) : FaultStays s (request h s) :=
  ite (serveRequest h s) (ite (refl s) (of_pins rfl))

theorem memWrite (r a : Nat) (b : Bytes) (s : State) : FaultStays s (memWrite r a b s) := foldl (fun _ _ => request _ _) _ _

theorem releaseHeld (s : State) : FaultStays s (releaseHeld s) :=
  (of_pins (t := { s with dmc := { s.dmc with held := s.dmc.held.filter fun h => !servesAll s h } }) rfl).trans (foldl (fun _ h => serveRequest h _) _ _)

theorem enterSelfRefresh (busy : List Nat) (s : State) : FaultStays s (enterSelfRefresh busy s) := by
  have asleep (t : State) (c : Nat) : FaultStays t (sleepChannel c t) := of_same (sleepChannel_keeps (K := [.dmc, .sent]) c t (by decide) (Keeps.refl _ _)).same (by decide)
  have settled (t : State) : FaultStays t (settleEntry t) := of_same (settleEntry_keeps (K := [.dmc]) t (by decide) (Keeps.refl _ _)).same (by decide)
  have entering : FaultStays s { s with dmc := { s.dmc with mode := .entering } } := of_pins rfl
  unfold Machine.enterSelfRefresh endRetraining
  generalize allChannels = cs
  refine ((entering.trans (.trans (foldl (fun t c => ?_) cs _) (releaseHeld _))).trans (foldl (fun t c => ?_) cs _)).trans (settled _)
  · exact ite (of_pins rfl) (refl t)
  · exact ite (of_pins rfl) (asleep t c)

theorem holdSites (s : State) : FaultStays s (holdSites s) := by
  unfold Machine.holdSites
  cases s.dmc.mode with
  | running => exact enterSelfRefresh _ _
  | entering => exact enterSelfRefresh _ _
  | _ => exact of_pins rfl

theorem ringWrite (c : Queue) (a : Nat) (b : Bytes) (s : State) : FaultStays s (ringWrite c a b s) := by
  have put (a : Nat) (b : Bytes) (s : State) : FaultStays s (ringPut c a b s) :=
    ite (of_same (hostSend_keeps (K := [.ports, .sent]) c.port a b s (by decide) (Keeps.refl _ _)).same (by decide)) (memWrite _ _ _ _)
  exact (put _ _ _).trans (put _ _ _)

theorem complete (q slot gen record : Nat) (body : Bytes) (release : Nat) (s : State) : FaultStays s (complete q slot gen record body release s) := by
  have message (p : Port) (v : Nat) (t : State) : FaultStays t (message p v t) :=
    of_same (message_keeps (K := [.ports, .sent]) p v t (by decide) (Keeps.refl _ _)).same (by decide)
  have discarded (p : Port) (h : HostPort) (x : Queue) : FaultStays s (setPort p h (setQueue q x s)) := of_pins (by simp)
  have queued (x : Queue) (t : State) : FaultStays t (setQueue q x t) := of_pins rfl
  unfold Machine.complete
  exact ite (refl s) (ite (discarded _ _ _) (ite (((ringWrite _ _ _ s).trans (queued _ _)).trans (message _ _ _)) ((ringWrite _ _ _ s).trans (queued _ _))))

theorem stopQueues (s : State) : FaultStays s (stopQueues s) := by
  refine foldl (fun t q => ?_) _ _
  refine ite ?_ (refl t)
  exact ((of_pins (by rfl)).trans (foldl (fun _ _ => complete _ _ _ _ _ _ _) _ _)).trans (foldl (fun _ _ => complete _ _ _ _ _ _ _) _ _)

end FaultStays

/-! ### A warm reset and its stages (R566, R582) -/

/-- What a warm reset counts and keeps of its cause. -/
def resetMarks (s : State) : Nat × Bool × Nat × Nat × Bool × Bool × Option Nat :=
  (s.pwr.warmCount, s.pwr.warmSeen, s.pwr.last, s.pwr.lastPort, s.pwr.lastWardrobe, s.pwr.supplySeen, s.pwr.supplyHold)

/-- The raster's run and the sticky bit of a gap of TB0. -/
def rasterMarks (s : State) : Bool × Bool := (s.tim.rasterRun, s.tim.tb0GapSeen)

theorem rasterMarks_leaveUp (n : Nat) (s : State) : rasterMarks (leaveUp n s) = rasterMarks s := by
  unfold leaveUp
  split_ifs <;> rfl

theorem rasterMarks_groupOff (g : Nat) (s : State) : rasterMarks (groupOff g s) = rasterMarks s := by
  refine foldl_fixed (f := rasterMarks) (fun t c => ?_) _ s
  have set (n : Nat) (x : Link) (u : State) : rasterMarks (setLink n x u) = rasterMarks u := rfl
  have sent (o : Sent) (u : State) : rasterMarks (send o u) = rasterMarks u := rfl
  rw [set]
  split_ifs
  · rfl
  · rw [sent, rasterMarks_leaveUp]

theorem rasterMarks_ethDown (p : Nat) (s : State) : rasterMarks (ethDown p s) = rasterMarks s := by
  have dropped (u : State) : rasterMarks (dropParent u) = rasterMarks u := by
    unfold dropParent loseParent toHoldover
    dsimp only
    split_ifs <;> rfl
  unfold ethDown
  split_ifs
  · exact (dropped _).trans rfl
  · rfl

theorem dropDomains_marks (s : State) : rasterMarks (dropDomains s) = rasterMarks s ∧ resetMarks (dropDomains s) = resetMarks s := by
  have groups := foldl_fixed (f := rasterMarks) (g := fun t n => groupOff n t) (fun t n => rasterMarks_groupOff n t) (List.range 12) s
  have groupsPwr := foldl_fixed (f := fun t : State => t.pwr) (g := fun t n => groupOff n t)
    (fun t n => ((groupOff_keeps (K := [.tim, .tlk, .sent]) n t (by decide) (Keeps.refl _ _)).same).pwr_eq (by decide)) (List.range 12) s
  unfold dropDomains
  generalize List.range 12 = gs at *
  have down := ((ethDown_keeps (K := [.tim, .bases, .eth]) 1 _ (by decide) (ethDown_keeps 0 (gs.foldl (fun t g => groupOff g t) s) (by decide) (Keeps.refl _ _))).same).pwr_eq (by decide)
  have run : rasterMarks (ethDown 1 (ethDown 0 (gs.foldl (fun t g => groupOff g t) s))) = rasterMarks s := by rw [rasterMarks_ethDown, rasterMarks_ethDown, groups]
  exact ⟨run, by simp only [resetMarks, down, groupsPwr]⟩

theorem askDomains_marks (s : State) : resetMarks (askDomains s) = resetMarks s := by
  have set (r : Nat) (x : Supply) (u : State) : resetMarks (setSupply r x u) = resetMarks u := rfl
  have sent (os : List Sent) (u : State) : resetMarks (sendAll os u) = resetMarks u := by simp [resetMarks]
  have on (t : State) (r : Nat) : resetMarks (supplyOn r t) = resetMarks t := by
    unfold supplyOn supplyOnAt
    dsimp only
    split_ifs
    · rw [sent, set]
    · rfl
  have off (t : State) (r : Nat) : resetMarks (supplyOff r t) = resetMarks t := by
    unfold supplyOff
    dsimp only
    split_ifs <;> rfl
  have asked (b : Bool) (ds : List Nat) : resetMarks (requestDomains b ds s) = resetMarks s := rfl
  have allOn := foldl_fixed (f := resetMarks) (g := fun t r => supplyOn r t) on
  have allOff := foldl_fixed (f := resetMarks) (g := fun t r => supplyOff r t) off
  unfold askDomains
  split_ifs
  · rfl
  · exact (allOn _ _).trans ((allOff _ _).trans (asked _ _))
  · exact (allOn _ _).trans (asked _ _)
  · exact (allOn _ _).trans (asked _ _)

theorem haltWalec_stopped (code : Nat) (s : State) : Stopped code s (haltWalec code s) := by
  have rest : Keeps [.ports, .drawers, .bureau, .sent] (stopRecords code s) (stopDrawers (raiseBoth 1 (log (hw 15) code 0x90 0 (stopRecords code s)))) :=
    stopDrawers_keeps _ (by decide) (raiseBoth_keeps _ _ (by decide) (log_keeps _ _ _ _ _ (by decide) (Keeps.refl _ _)))
  exact (stopRecords_stopped code s).of_same rest.same (by decide) (by decide) (by decide)

theorem FaultStays.haltWalec (code : Nat) (s : State) : FaultStays s (haltWalec code s) := by
  have cut : FaultStays s (setWalec .restarting (cutLoad s)) := .of_same
    (setWalec_keeps (K := [.geom, .out, .ports, .health, .bot, .drawn]) .restarting _ (by decide) (cutLoad_keeps s (by decide) (Keeps.refl _ _))).same (by decide)
  have records : FaultStays s (stopRecords code s) := (cut.trans (.stopQueues _)).trans (.of_pins rfl)
  have rest : Keeps [.ports, .drawers, .bureau, .sent] (stopRecords code s) (stopDrawers (raiseBoth 1 (log (hw 15) code 0x90 0 (stopRecords code s)))) :=
    stopDrawers_keeps _ (by decide) (raiseBoth_keeps _ _ (by decide) (log_keeps _ _ _ _ _ (by decide) (Keeps.refl _ _)))
  exact records.trans (.of_same rest.same (by decide))

/-- What a warm reset leaves (R566, R582). -/
structure WarmedBy (cause : ResetCause) (s t : State) : Prop where
  run : t.tim.rasterRun = false
  clusters : t.ray.clusters = []
  source : t.ray.source = 255
  count : t.pwr.warmCount = satAdd 16 s.pwr.warmCount 1
  seen : t.pwr.warmSeen = true
  last : t.pwr.last = lastCode cause
  port : t.pwr.lastPort = s.pwr.lastPort
  wardrobe : t.pwr.lastWardrobe = (cause == .wardrobe)
  supply : t.pwr.supplySeen = (s.pwr.supplySeen || cause == .supply)
  powerDown : t.hif.powerDown = false
  planned : cause = .warm → t.spr.plannedStop = true

theorem WarmedBy.of_marks {cause : ResetCause} {s t u : State} (h : WarmedBy cause s t) (run : u.tim.rasterRun = t.tim.rasterRun) (ray : u.ray = t.ray)
    (count : u.pwr.warmCount = t.pwr.warmCount) (seen : u.pwr.warmSeen = t.pwr.warmSeen) (last : u.pwr.last = t.pwr.last)
    (port : u.pwr.lastPort = t.pwr.lastPort) (wardrobe : u.pwr.lastWardrobe = t.pwr.lastWardrobe) (supply : u.pwr.supplySeen = t.pwr.supplySeen)
    (down : u.hif.powerDown = t.hif.powerDown) (planned : u.spr.plannedStop = t.spr.plannedStop) : WarmedBy cause s u :=
  ⟨run.trans h.run, by rw [ray]; exact h.clusters, by rw [ray]; exact h.source, count.trans h.count, seen.trans h.seen, last.trans h.last, port.trans h.port,
    wardrobe.trans h.wardrobe, supply.trans h.supply, down.trans h.powerDown, fun warm => planned.trans (h.planned warm)⟩

theorem halted_spec {code : Nat} {s t : State} (h : t = if s.hif.walec == .restarting then s else haltWalec code s) : t.hif.walec = .restarting ∧ t.pwr = s.pwr ∧ FaultStays s t := by
  subst h
  split_ifs with restarting
  · exact ⟨by simpa using restarting, rfl, .refl s⟩
  · exact ⟨(haltWalec_stopped code s).walec, ((haltWalec_keeps (K := [.geom, .eth, .out, .dmc, .dram, .ports, .drawers, .queues, .health, .walec, .bureau, .bot, .pins, .sent, .drawn])
      code s (by decide) (Keeps.refl _ _)).same).pwr_eq (by decide), .haltWalec code s⟩

theorem stoppedRay (s : State) : (resetRay (stopRaster s)).tim.rasterRun = false ∧ ((resetRay (stopRaster s)).ray.clusters = [] ∧ (resetRay (stopRaster s)).ray.source = 255) ∧
    (resetRay (stopRaster s)).pwr = s.pwr ∧ (resetRay (stopRaster s)).hif = s.hif ∧ (resetRay (stopRaster s)).spr.plannedStop = s.spr.plannedStop := ⟨rfl, ⟨rfl, rfl⟩, rfl, rfl, rfl⟩

/-- Everything stops and the domains fall (R566). -/
def stopAll (s : State) : State := countRestart (holdSites (dropDomains (stopEngines (resetSets (resetRay (stopRaster s))))))

theorem stopAll_spec (s : State) : (stopAll s).tim.rasterRun = false ∧ (stopAll s).ray.clusters = [] ∧ (stopAll s).ray.source = 255 ∧
    resetMarks (stopAll s) = resetMarks s ∧ (stopAll s).hif.walec = s.hif.walec ∧ (stopAll s).hif.powerDown = s.hif.powerDown ∧
    (stopAll s).spr.plannedStop = s.spr.plannedStop := by
  obtain ⟨run, ray, pwr, hif, planned⟩ := stoppedRay s
  rw [stopAll]
  generalize resetRay (stopRaster s) = r at *
  have stopped := (stopEngines_keeps (K := [.dec, .enc, .blt, .dfl, .queues, .geom, .out]) _ (by decide) (resetSets_keeps r (by decide) (Keeps.refl _ _))).same
  have dropped := (dropDomains_keeps (K := [.tim, .bases, .eth, .tlk, .pwr, .sent]) (stopEngines (resetSets r)) (by decide) (Keeps.refl _ _)).same
  have held := (countRestart_keeps (K := [.dmc, .dram, .ports, .bureau, .pins, .sent]) _ (by decide)
    (holdSites_keeps (dropDomains (stopEngines (resetSets r))) (by decide) (Keeps.refl _ _))).same
  obtain ⟨marks, kept⟩ := dropDomains_marks (stopEngines (resetSets r))
  simp only [rasterMarks, Prod.mk.injEq] at marks
  have rays := (held.ray_eq (by decide)).trans ((dropped.ray_eq (by decide)).trans (stopped.ray_eq (by decide)))
  refine ⟨?run, by rw [rays]; exact ray.1, by rw [rays]; exact ray.2, ?marks, ?walec, ?down, ?planned⟩
  case run => exact (held.tim_field (by decide) (·.rasterRun) (fun _ => rfl)).trans (marks.1.trans ((stopped.tim_field (by decide) (·.rasterRun) (fun _ => rfl)).trans run))
  case marks =>
    rw [resetMarks, held.pwr_eq (by decide)]
    refine kept.trans ?_
    rw [resetMarks, stopped.pwr_eq (by decide), pwr]
    rfl
  case walec => exact (held.walec_run (by decide)).trans ((dropped.walec_run (by decide)).trans ((stopped.walec_run (by decide)).trans (by rw [hif])))
  case down => exact (held .health (by decide)).2.2.2.trans ((dropped .health (by decide)).2.2.2.trans ((stopped .health (by decide)).2.2.2.trans (by rw [hif])))
  case planned => rw [held.spr_eq (by decide), dropped.spr_eq (by decide), stopped.spr_eq (by decide), planned]

theorem FaultStays.stopAll (s : State) : FaultStays s (stopAll s) := by
  have pins : (resetRay (stopRaster s)).pins = s.pins := rfl
  have ray : FaultStays s (resetRay (stopRaster s)) := .of_pins pins
  rw [Machine.stopAll]
  generalize resetRay (stopRaster s) = r at *
  have dropped : FaultStays r (dropDomains (stopEngines (resetSets r))) := .of_same (dropDomains_keeps (K := [.geom, .out, .tim, .bases, .eth, .tlk, .pwr, .sent, .dec, .enc, .blt, .dfl, .queues]) _
    (by decide) (stopEngines_keeps _ (by decide) (resetSets_keeps r (by decide) (Keeps.refl _ _)))).same (by decide)
  exact ((ray.trans dropped).trans (.holdSites _)).trans (.of_same (countRestart_keeps (K := [.dmc]) _ (by decide) (Keeps.refl _ _)).same (by decide))

theorem releaseWarm_same (s : State) : SameBut [.ports, .health, .bureau, .pwr, .bot, .pins, .sent] s (releaseWarm s) := (releaseWarm_keeps s (by decide) (Keeps.refl _ _)).same

theorem releaseWarm_spec (s : State) : (releaseWarm s).hif.walec = .booting ∧ (releaseWarm s).hif.powerDown = s.hif.powerDown ∧
    resetMarks (releaseWarm s) = resetMarks { s with pwr := { s.pwr with supplyHold := none } } := by
  let t := setWalec .booting { s with pwr := { s.pwr with supplyHold := none } }
  have booted := (romBoot_keeps (K := [.ports, .bureau, .bot, .pins, .sent]) t (by decide) (Keeps.refl _ _)).same
  have asked := (askDomains_keeps (K := [.pwr, .sent]) (romBoot t) (by decide) (Keeps.refl _ _)).same
  refine ⟨(asked.walec_run (by decide)).trans (booted.walec_run (by decide)), (asked .health (by decide)).2.2.2.trans (booted .health (by decide)).2.2.2, ?_⟩
  rw [releaseWarm, askDomains_marks]
  rw [resetMarks, booted.pwr_eq (by decide)]
  rfl

theorem warmReset_spec (cause : ResetCause) (s : State) : WarmedBy cause s (warmReset cause s) ∧
    ((warmReset cause s).hif.walec = if s.pwr.supplyHold.isSome then .restarting else .booting) ∧
    (s.pwr.supplyHold.isSome = true → (warmReset cause s).pwr.supplyHold = s.pwr.supplyHold ∧ FaultStays s (warmReset cause s)) := by
  unfold warmReset
  extract_lets halted noted hif walec spr planned dropped held
  obtain ⟨restarting, pwr, faultHalted⟩ := halted_spec (t := halted) rfl
  have plan : resetMarks planned = (satAdd 16 s.pwr.warmCount 1, true, lastCode cause, s.pwr.lastPort, cause == .wardrobe, s.pwr.supplySeen || cause == .supply, s.pwr.supplyHold) := by
    rw [← pwr]
    rfl
  have run : planned.hif.walec = .restarting := restarting
  have up : planned.hif.powerDown = false := rfl
  have stages : held = stopAll planned := rfl
  have fault : FaultStays s held := stages ▸ (FaultStays.trans (t := planned) (faultHalted.trans (.of_pins rfl)) (.stopAll planned))
  obtain ⟨raster, clusters, source, marks, halt, down, kept⟩ := stages ▸ stopAll_spec planned
  have warm : cause = .warm → planned.spr.plannedStop = true := fun h => by simp [planned, h]
  clear_value planned held
  have whole := marks.trans plan
  simp only [resetMarks, Prod.mk.injEq] at whole
  obtain ⟨count, seen, last, port, wardrobe, supply, hold⟩ := whole
  have warmed : WarmedBy cause s held := ⟨raster, clusters, source, count, seen, last, port, wardrobe, supply, down.trans up, fun h => kept.trans (warm h)⟩
  rw [hold]
  split_ifs with h
  · exact ⟨warmed, halt.trans run, fun _ => ⟨hold, fault⟩⟩
  · obtain ⟨booting, off, after⟩ := releaseWarm_spec held
    simp only [resetMarks, Prod.mk.injEq] at after
    obtain ⟨count, seen, last, port, wardrobe, supply, -⟩ := after
    have same := releaseWarm_same held
    exact ⟨warmed.of_marks (same.tim_field (by decide) (·.rasterRun) (fun _ => rfl)) (same.ray_eq (by decide)) count seen last port wardrobe supply off (by rw [same.spr_eq (by decide)]), booting, fun some => absurd some h⟩

/-! ### The straps (R120, R295, R651) -/

theorem Tbl.find?_map_mem {α : Type} (f : Nat → α) {k : Nat} : ∀ {xs : List Nat}, k ∈ xs → Tbl.find? k (xs.map fun n => (n, f n)) = some (f k)
  | x :: xs, h => by
    by_cases hx : x = k
    · simp [Tbl.find?, hx]
    · simpa [Tbl.find?, hx] using find?_map_mem f ((List.mem_cons.1 h).resolve_left fun e => hx e.symm)

theorem linkOf_sampleStraps {k : Nat} (hk : k < 96) (s : State) : linkOf (sampleStraps s) k = { linkOf s k with enabled := decide (k / 8 < 3 * (s.pins.tileCfg + 1)) } :=
  congrArg (·.getD {}) (Tbl.find?_map_mem (fun n => { linkOf s n with enabled := decide (n / 8 < 3 * (s.pins.tileCfg + 1)) }) (List.mem_range.2 hk))

theorem endPowerOn_same (p : Port) (s : State) : SameBut [.ports, .bureau, .clk, .bot, .pins, .sent] s (endPowerOn p s) := (endPowerOn_keeps p s (by decide) (Keeps.refl _ _)).same

theorem endPowerOn_clk (p : Port) (s : State) : (endPowerOn p s).clk = { s.clk with selected := p, dest := p, chosen := true, phase := .running, locks := [22, 23] } := by
  have same : SameBut [.ports, .bureau, .bot, .pins, .sent] { s with
      clk := { s.clk with selected := p, dest := p, chosen := true, phase := .running, locks := [22, 23] }, pins := { s.pins with fault := false } } (endPowerOn p s) :=
    (romBoot_keeps _ (by decide) (openLog_keeps _ (by decide) (Keeps.refl _ _))).same
  exact same.clk_eq (by decide)

/-- What the release of PORST# leaves of a state whose straps have been sampled. -/
structure Strapped (u t : State) : Prop where
  porst : t.pwr.porst = u.pwr.porst
  tile : t.tim.tileStrap = u.tim.tileStrap
  pri : t.clk.refPri = u.clk.refPri
  selected : t.clk.selected = u.clk.selected
  ray : t.ray = u.ray
  links : t.tlk = u.tlk

theorem strapped_endPowerOn {p : Port} {u : State} (h : u.clk.selected = p) : Strapped u (endPowerOn p u) := by
  have same := endPowerOn_same p u
  exact ⟨by rw [same.pwr_eq (by decide)], same.tim_field (by decide) (·.tileStrap) (fun _ => rfl), by rw [endPowerOn_clk],
    by rw [endPowerOn_clk, h], same.ray_eq (by decide), same.tlk_eq (by decide)⟩

theorem leads_porstRelease {n : Nat} {p : Port} {s : State} (held : s.pwr.porst = true) : Leads (.porstRelease n p) s fun t =>
    Strapped (sampleStraps { s with pins := { s.pins with tileCfg := n % 4, refPri := p }, pwr := { s.pwr with porst := false } }) t ∧
      ((refOf s p).qual = true → t.clk.chosen = true) := by
  let u := sampleStraps { s with pins := { s.pins with tileCfg := n % 4, refPri := p }, pwr := { s.pwr with porst := false } }
  have effect : exec (.porstRelease n p) s = done (ifEvent s.pwr.porst (if (refOf s p).qual then endPowerOn p u else u) s) := by cases p <;> rfl
  have settled {t : State} (h : Strapped u t) : Strapped u (settle t) := by
    obtain ⟨porst, tile, pri, selected, ray, links⟩ := h
    exact ⟨by simpa using porst, by simpa using tile, by simpa using pri, by simpa using selected, by simpa using ray, by simpa using links⟩
  have selected : u.clk.selected = p := rfl
  change Leads _ _ fun t => Strapped u t ∧ ((refOf s p).qual = true → t.clk.chosen = true)
  refine leads_event effect held ?_
  clear_value u
  split_ifs with qualified
  · exact ⟨settled (strapped_endPowerOn selected), fun _ => by simp [endPowerOn_clk]⟩
  · exact ⟨settled ⟨rfl, rfl, rfl, rfl, rfl, rfl⟩, fun h => absurd h qualified⟩

theorem leads_warm {c : Instr} {cause : ResetCause} {u s : State} {b : Bool} {P : State → Prop} (effect : exec c s = done (ifEvent b (warmReset cause u) s)) (hb : b = true)
    (hP : ∀ t, WarmedBy cause u t → t.hif.walec = (if u.pwr.supplyHold.isSome then .restarting else .booting) → (u.pwr.supplyHold.isSome = true → t.pwr.supplyHold = u.pwr.supplyHold ∧ FaultStays u t) → P t) : Leads c s P := by
  obtain ⟨warmed, walec, hold⟩ := warmReset_spec cause u
  refine leads_event effect hb (hP _ ?_ (by simpa using walec) fun some => ⟨by simpa using (hold some).1, (hold some).2.trans (.of_pins (by simp))⟩)
  exact warmed.of_marks (by simp) (by simp) (by simp) (by simp) (by simp) (by simp) (by simp) (by simp) (by simp) (by simp)

/-- What a power-on reset leaves and keeps, whether it samples the straps at its end or not (R564). -/
theorem coldState_kept (c : ResetCause) (s : State) : (coldState c s).dmc.mem = State.reset.dmc.mem ∧ (coldState c s).cmp = State.reset.cmp ∧
    (coldState c s).geom = State.reset.geom ∧ (coldState c s).sig = State.reset.sig ∧ (coldState c s).dec = State.reset.dec ∧ (coldState c s).enc = State.reset.enc ∧
    (coldState c s).blt = State.reset.blt ∧ (coldState c s).dfl = State.reset.dfl ∧ (coldState c s).bureau.ring = [] ∧
    (coldState c s).bureau.segments = s.bureau.segments ∧ (coldState c s).spr.retired = s.spr.retired ∧ (coldState c s).spr.repairs = s.spr.repairs ∧
    (coldState c s).pwr.last = lastCode c ∧ (coldState c s).clk.chosen = false := by
  unfold coldState
  split_ifs <;> exact ⟨rfl, rfl, rfl, rfl, rfl, rfl, rfl, rfl, rfl, rfl, rfl, rfl, rfl, rfl⟩

/-- Settles O34: the cold state field by field, and the warm reset through its stages. -/
theorem powerOnAndWarmReset : Obligations.PowerOnAndWarmReset := by
  unfold Obligations.PowerOnAndWarmReset
  refine ⟨fun c s => leads_done rfl ?cold, fun n p s held => (leads_porstRelease held).imp ?release,
    fun c s up chosen => leads_warm rfl (by simp [up, chosen]) fun t warmed walec _ => ?warm,
    fun n s up chosen => ?supply, fun n s held => leads_event rfl (by simp [held]) ?recovered, fun u s stopped restarting free => ?wardrobe⟩
  case cold =>
    have dram : SameDram State.reset (settle (coldState c s)) := .settle (.of_mem (coldState_kept c s).1)
    obtain ⟨-, hcmp, hgeom, hsig, hdec, henc, hblt, hdfl, ring, segments, retired, repairs, last, chosen⟩ := coldState_kept c s
    simp only [settle_frame]
    refine ⟨hcmp, hgeom, hsig, hdec, henc, hblt, hdfl, dram, ring, segments, retired, repairs, last, chosen, fun warm => ?_, fun cold => ?_⟩
    · rw [coldState, if_neg (by simpa using warm)]
      exact ⟨rfl, rfl, by simpa [coldBase] using warm⟩
    · subst cold
      exact ⟨rfl, rfl, rfl⟩
  case release =>
    rintro t ⟨⟨porst, tile, pri, selected, ray, links⟩, chosen⟩
    refine ⟨porst, tile, pri, selected, chosen, by rw [ray]; rfl, fun k hk => by rw [linkOf_of links, linkOf_sampleStraps hk]⟩
  case warm => exact ⟨warmed.run, warmed.clusters, warmed.source, warmed.count, warmed.seen, warmed.last, walec, warmed.powerDown⟩
  case supply =>
    have pwr : (assertFault { s with pwr := { s.pwr with supplyHold := some n } }).pwr = { s.pwr with supplyHold := some n } := by simp
    have hold : (assertFault { s with pwr := { s.pwr with supplyHold := some n } }).pwr.supplyHold = some n := by rw [pwr]
    have fault := assertFault_fault { s with pwr := { s.pwr with supplyHold := some n } }
    refine leads_warm rfl (by simp [up, chosen]) fun t warmed walec held => ?_
    generalize assertFault { s with pwr := { s.pwr with supplyHold := some n } } = u at *
    rw [hold] at walec
    obtain ⟨kept, faulty⟩ := held (by rw [hold]; rfl)
    exact ⟨kept.trans hold, faulty fault, walec, by rw [warmed.supply]; simp, warmed.run⟩
  case recovered =>
    obtain ⟨booting, -, marks⟩ := releaseWarm_spec s
    simp only [resetMarks, Prod.mk.injEq] at marks
    simp only [settle_frame, settle_hif]
    exact ⟨marks.2.2.2.2.2.2, booting⟩
  case wardrobe =>
    have same : SameBut [.bases, .bureau] s (log (hw 12) 0 0xD6 10000 (advanceTo0 (u + 10000000000) s)) :=
      (log_keeps _ _ _ _ _ (by decide) (advanceTo0_keeps _ s (by decide) (Keeps.refl _ _))).same
    have effect : exec .wardrobeReset s = done (ifEvent (s.hif.walec == .restarting && s.pwr.supplyHold.isNone)
        (warmReset .wardrobe (log (hw 12) 0 0xD6 10000 (advanceTo0 (u + 10000000000) s))) s) := by
      change execWardrobeReset s = _
      simp only [execWardrobeReset, stopped]
    refine leads_warm effect (by simp [restarting, free]) fun t warmed walec _ => ?_
    rw [same.pwr_eq (by decide), free] at walec
    exact ⟨by rw [warmed.wardrobe]; rfl, by rw [warmed.count, same.pwr_eq (by decide)], walec⟩

/-! ### Reference inputs (R549 to R557, R581) -/

theorem refOf_of {s t : State} (h : t.clk = s.clk) (r : Port) : refOf t r = refOf s r := by cases r <;> simp [refOf, h]

theorem refOf_settle (s : State) (r : Port) : refOf (settle s) r = refOf s r := refOf_of (by simp) r

theorem refOf_setRef (r q : Port) (x : RefInput) (s : State) : refOf (setRef r x s) q = if q = r then x else refOf s q := by cases r <;> cases q <;> rfl

theorem refOf_beginStop (r q : Port) (s : State) : refOf (beginStop r s) q = refOf s q := by
  have same (u : State) : refOf { s with clk := { u.clk with refA := s.clk.refA, refB := s.clk.refB } } q = refOf s q := by cases q <;> rfl
  unfold beginStop
  split_ifs <;> cases q <;> rfl

/-- The state after the trip's own record (R551): the input, and the entry of one that was qualified. -/
def tripped (r : Port) (x : RefInput) (s : State) : State :=
  let t := setRef r { x with qual := false } s
  if (refOf s r).qual && s.clk.chosen then log (hw 9) r.num 0xB1 (flagAt x.miss 8 + flagAt x.win 9) t else t

theorem tripped_clk (r : Port) (x : RefInput) (s : State) : (tripped r x s).clk = (setRef r { x with qual := false } s).clk := by
  unfold tripped
  split_ifs <;> simp

theorem refOf_tripRef (r q : Port) (x : RefInput) (s : State) : refOf (tripRef r x s) q = if q = r then { x with qual := false } else refOf s q := by
  have recorded : refOf (tripped r x s) q = if q = r then { x with qual := false } else refOf s q := by
    rw [refOf_of (tripped_clk r x s), refOf_setRef]
  rw [← recorded]
  change refOf (if !s.clk.chosen then tripped r x s else match s.clk.phase with
    | .running => if s.clk.selected = r then beginStop r.other (tripped r x s) else tripped r x s
    | .switching => if s.clk.dest = r then { tripped r x s with clk := { (tripped r x s).clk with phase := .holding, held := true, holdSeen := true } } else tripped r x s
    | _ => tripped r x s) q = _
  cases s.clk.chosen with
  | false => rfl
  | true =>
    cases s.clk.phase with
    | running =>
      by_cases h : s.clk.selected = r
      · simp [h, refOf_beginStop]
      · simp [h]
    | switching =>
      by_cases h : s.clk.dest = r
      · simp only [h, if_true]
        cases q <;> rfl
      · simp [h]
    | holding => rfl
    | expired => rfl

theorem tripRef_running {r : Port} (x : RefInput) {s : State} (chosen : s.clk.chosen = true) (running : s.clk.phase = .running) (selected : s.clk.selected = r) :
    tripRef r x s = beginStop r.other (tripped r x s) := by
  simp [tripRef, tripped, chosen, running, selected]

theorem beginStop_clk (r : Port) (s : State) : (beginStop r s).clk.dest = r ∧ (beginStop r s).clk.phase = (if (refOf s r).qual then .switching else .holding) ∧
    ((refOf s r).qual = false → (beginStop r s).clk.holdSeen = true) := by
  unfold beginStop
  split_ifs with h
  · exact ⟨rfl, rfl, fun n => absurd n (by simp [h])⟩
  · exact ⟨rfl, rfl, fun _ => rfl⟩

theorem linkLoss_clk (p : Port) (s : State) : (linkLoss p s).clk = s.clk :=
  ((linkLoss_keeps (K := [.ports, .drawers, .queues, .walec]) p s (by decide) (Keeps.refl _ _)).same).clk_eq (by decide)

theorem linkLoss_linkUp (p : Port) (s : State) : (portOf (linkLoss p s) p).linkUp = false := by
  unfold linkLoss ifEvent
  split_ifs with h
  · simp [portOf_resetPort]
  · simpa using h

/-- The trip of the selected input begins a stop (R554, R555), whichever trip it is. -/
theorem leads_selectedTrip {c : Instr} {r : Port} {x : RefInput} {u s : State} (effect : exec c s = done u) (clk : u.clk = (tripRef r x s).clk)
    (chosen : s.clk.chosen = true) (running : s.clk.phase = .running) (selected : s.clk.selected = r) : Leads c s fun t =>
    t.clk.dest = r.other ∧ t.clk.phase = (if (refOf s r.other).qual then .switching else .holding) ∧ ((refOf s r.other).qual = false → t.clk.holdSeen = true) := by
  have other : refOf (tripped r x s) r.other = refOf s r.other := by rw [refOf_of (tripped_clk r x s), refOf_setRef, if_neg (other_ne r)]
  have h := beginStop_clk r.other (tripped r x s)
  rw [other, ← tripRef_running x chosen running selected, ← clk] at h
  exact leads_done effect (by simpa using h)

theorem asleep_foldl (s : State) {c : Nat} (hc : c < 36) : (dramChannel (allChannels.foldl (fun t c => sleepChannel c t) s) c).asleep = true := by
  rw [foldl_allChannels (get := dramChannel) (g := fun t c => sleepChannel c t) (h := fun _ => DramChannel.sleep)
    (fun t c => by simp [dramChannel_sleepChannel]) (fun t c k hk => by simp [dramChannel_sleepChannel, hk]) s hc]
  rfl

theorem enterSelfRefresh_mode (s : State) : (enterSelfRefresh [] s).dmc.mode = .selfRefresh := by
  unfold enterSelfRefresh
  simp only [List.contains_nil, Bool.false_eq_true, if_false]
  exact settleEntry_asleep fun c hc => asleep_foldl _ hc

theorem rasterMarks_startTraining (n : Nat) (half retried : Bool) (s : State) : rasterMarks (startTraining n half retried s) = rasterMarks s := by
  have set (n : Nat) (x : Link) (u : State) : rasterMarks (setLink n x u) = rasterMarks u := rfl
  have sent (o : Sent) (u : State) : rasterMarks (send o u) = rasterMarks u := rfl
  rw [startTraining, set, sent, rasterMarks_leaveUp]
  unfold takeSpread
  dsimp only
  split <;> rfl

theorem rasterMarks_retrainAll (s : State) : rasterMarks (retrainAll s) = rasterMarks s := by
  refine foldl_fixed (f := rasterMarks) (fun t n => ?_) _ s
  dsimp only
  split_ifs
  · rfl
  · exact rasterMarks_startTraining _ _ _ _

/-- The restart's own record, before the links train again (R554). -/
theorem restartClocks_marks (g : Nat) (s : State) : (restartClocks g s).tim.tb0GapSeen = true ∧ (restartClocks g s).clk = { s.clk with
    selected := s.clk.dest, phase := .running, gapNs := min g (2 ^ 32 - 1), held := false
    failovers := satAdd 8 s.clk.failovers (if s.clk.dest != s.clk.selected then 1 else 0)
    failoverSeen := s.clk.failoverSeen || s.clk.dest != s.clk.selected } := by
  let moved := s.clk.dest != s.clk.selected
  let t := { s with
    clk := { s.clk with
      selected := s.clk.dest, phase := .running, gapNs := min g (2 ^ 32 - 1), held := false
      failovers := satAdd 8 s.clk.failovers (if moved then 1 else 0), failoverSeen := s.clk.failoverSeen || moved }
    tim := { s.tim with tb0GapSeen := true }
    spr := { s.spr with spareUsedSeen := s.spr.spareUsedSeen || moved } }
  let u := ethDown 1 (ethDown 0 (retrainAll t))
  have marks : rasterMarks u = rasterMarks t := by rw [rasterMarks_ethDown, rasterMarks_ethDown, rasterMarks_retrainAll]
  simp only [rasterMarks, Prod.mk.injEq] at marks
  have gap : u.tim.tb0GapSeen = true := marks.2.trans rfl
  have clk : u.clk = t.clk := ((ethDown_keeps (K := [.tim, .bases, .eth, .tlk, .sent]) 1 _ (by decide) (ethDown_keeps 0 _ (by decide)
    (retrainAll_keeps t (by decide) (Keeps.refl _ _)))).same).clk_eq (by decide)
  change (if moved then log _ _ _ _ u else u).tim.tb0GapSeen = true ∧ (if moved then log _ _ _ _ u else u).clk = t.clk
  clear_value u t
  split_ifs
  · exact ⟨by simpa using gap, by simpa using clk⟩
  · exact ⟨gap, clk⟩

/-- The state in which an input has qualified (R551). -/
def qualified (r : Port) (s : State) : State :=
  log (hw 9) r.num 0xB1 1 (setRef r { refOf s r with qual := true, lock := true, stopped := false } s)

/-- The clocks after a hold has run out, before FAULT# (R557). -/
def expiredHold (s : State) : State :=
  let t := if s.dmc.mode == .running then holdSites s else s
  { t with clk := { t.clk with phase := .expired, holdExpired := true, locks := t.clk.locks.filter (8 < ·) } }

/-- Settles O35: the trips through the input they disqualify and the stop they begin. -/
theorem referenceInputs : Obligations.ReferenceInputs := by
  unfold Obligations.ReferenceInputs
  refine ⟨fun r s => leads_done rfl ?miss, fun r s => leads_done rfl ?window, fun r c s trip chosen running selected => ?stop,
    fun r s unqualified chosen live => ?qualified, fun g s switching => leads_event rfl (by simp [switching]) ?restart, fun s holding => ?expiry,
    fun k s running locked => leads_event rfl (by simp_all) ?lock⟩
  case miss =>
    have same (q : Port) : refOf (settle (linkLoss r (tripRef r { refOf s r with miss := true, lock := false, stopped := true } s))) q =
        if q = r then { refOf s r with miss := true, lock := false, stopped := true, qual := false } else refOf s q := by
      rw [refOf_settle, refOf_of (linkLoss_clk _ _), refOf_tripRef]
    refine ⟨by simp [same], by simp [same], by simp [same], by rw [same, if_neg (other_ne r)], ?_⟩
    simpa using linkLoss_linkUp r _
  case window =>
    have same (q : Port) : refOf (settle (tripRef r { refOf s r with win := true } s)) q = if q = r then { refOf s r with win := true, qual := false } else refOf s q := by
      rw [refOf_settle, refOf_tripRef]
    exact ⟨by simp [same], by simp [same], by rw [same, if_neg (other_ne r)]⟩
  case stop =>
    rcases trip with rfl | rfl
    · exact leads_selectedTrip rfl (linkLoss_clk _ _) chosen running selected
    · exact leads_selectedTrip rfl rfl chosen running selected
  case qualified =>
    have effect : exec (.refQualified r) s = done (ifEvent (!(refOf s r).qual) (match s.clk.phase with
        | .holding => { qualified r s with clk := { (qualified r s).clk with phase := .switching, dest := r } }
        | .expired => recoverClocks r (qualified r s)
        | _ => qualified r s) s) := by
      change execRefQualified r s = _
      simp only [execRefQualified, qualified, chosen]
      rfl
    have input : refOf (qualified r s) r = { refOf s r with qual := true, lock := true, stopped := false } := by
      rw [refOf_of (show (qualified r s).clk = (setRef r { refOf s r with qual := true, lock := true, stopped := false } s).clk by simp [qualified]), refOf_setRef, if_pos rfl]
    have held (u : State) : refOf { u with clk := { u.clk with phase := .switching, dest := r } } r = refOf u r := by cases r <;> rfl
    refine leads_event effect (by simp [unqualified]) ?_
    cases phase : s.clk.phase with
    | expired => exact absurd phase live
    | holding =>
      rw [refOf_settle, held, input]
      exact ⟨rfl, rfl, fun _ => by simp⟩
    | _ =>
      rw [refOf_settle, input]
      exact ⟨rfl, rfl, fun h => nomatch h⟩
  case restart =>
    obtain ⟨gap, clk⟩ := restartClocks_marks g s
    simp only [settle_frame]
    rw [clk]
    exact ⟨rfl, rfl, rfl, gap, fun moved => by simp [moved]⟩
  case expiry =>
    have effect : exec .holdExpiry s = done (ifEvent (s.clk.phase == .holding) (assertFault (expiredHold s)) s) := rfl
    have mode : s.dmc.mode = .running → (expiredHold s).dmc.mode = .selfRefresh := fun running => by
      simp only [expiredHold, running, beq_self_eq_true, if_true, holdSites]
      exact enterSelfRefresh_mode s
    have clk : (expiredHold s).clk.phase = .expired ∧ (expiredHold s).clk.holdExpired = true ∧ ∀ k ∈ (expiredHold s).clk.locks, 8 < k :=
      ⟨rfl, rfl, fun k hk => by simpa using (List.mem_filter.1 hk).2⟩
    have fault := assertFault_fault (expiredHold s)
    refine leads_event effect (by simp [holding]) ?_
    generalize expiredHold s = u at *
    simp only [settle_frame, assertFault_frame]
    exact ⟨clk.1, clk.2.1, fault, clk.2.2, mode⟩
  case lock => simp

end Sys2Proof.Machine
end

section
/-! Proofs of O36 and O37: the registers, the reset requests and the recovery image (R10, R451, R455, R583, R637). -/

namespace Sys2Proof.Machine

/-! ### Places and halves (R450, R451) -/

theorem mergeHalf_whole (old off v : Nat) : mergeHalf old off 8 v = v := if_pos rfl

theorem placed_whole (off v : Nat) : placed off 8 v = v := mergeHalf_whole 0 off v

/-- The register of a drawer that holds an offset of its window. -/
theorem placeOfReg_drawer {n i : Nat} (hn : n < 32) (hi : i < 0x400) : placeOfReg (0x10000 + 0x800 * n + i) = .drawer n (i / 8 * 8) := by
  have below : ¬(0x10000 + 0x800 * n + i) / 8 * 8 < 0x2000 := by omega
  have within : 0x10000 ≤ (0x10000 + 0x800 * n + i) / 8 * 8 ∧ (0x10000 + 0x800 * n + i) / 8 * 8 < 0x20000 := by omega
  have drawer : ((0x10000 + 0x800 * n + i) / 8 * 8 - 0x10000) / 0x800 = n := by omega
  have offset : (0x10000 + 0x800 * n + i) / 8 * 8 % 0x800 = i / 8 * 8 := by omega
  simp only [placeOfReg, if_neg below, within.1, within.2, decide_true, Bool.and_self, if_true, drawer, offset]

theorem writeRegister_request {p : Port} {n i : Nat} (w v : Nat) {s : State} (hn : n < 32) (low : 0x40 ≤ i) (high : i < 0x400) :
    writeRegister p (0x10000 + 0x800 * n + i) w v s = writeRequest p n (i - 0x40) w v s := by
  have offset : (0x10000 + 0x800 * n + i) % 0x800 = i := by omega
  have request : 0x40 ≤ i / 8 * 8 ∧ i / 8 * 8 < 0x400 := by omega
  have notDoorbell : i / 8 * 8 ≠ 0 := by omega
  have notConfig : i / 8 * 8 ≠ 0x10 := by omega
  simp [writeRegister, placeOfReg_drawer hn high, writeDrawer, offset, request, notDoorbell, notConfig]

/-- A write that changes one port alone. -/
theorem setPort_same (p : Port) (h : HostPort) (s : State) : SameBut [.ports, .sent] s (settle (setPort p h s)) :=
  (setPort_keeps (K := [.ports, .sent]) p h s (by decide) (Keeps.refl _ _)).same.settle (by decide) (by decide)

theorem settle_same (s : State) : SameBut [.ports, .sent] s (settle s) := SameBut.settle (fun p _ => p.same_refl s) (by decide) (by decide)

theorem leads_write {p : Port} {off w v : Nat} {s u : State} {P : State → Prop} (opened : portOpen s p = true) (effect : writeRegister p off w v s = u) (hP : P (settle u)) :
    Leads (.registerWrite p off w v) s P := leads_event (u := u) (by rw [← effect]; rfl) opened hP

/-- Two commands with the same effect on an open port. -/
theorem exec_write_eq {p : Port} {off v : Nat} {s : State} {c : Instr} {b : Bool} {u : State} (effect : exec c s = done (ifEvent b u s))
    (written : ifEvent (portOpen s p) (writeRegister p off 8 v s) s = ifEvent b u s) : exec (.registerWrite p off 8 v) s = exec c s := by
  rw [effect, ← written]
  rfl

theorem resetAction_other {s : State} {p : Port} {v j k : Nat} (act : resetAction s p v j = true) (other : j ≠ k) : resetAction s p v k = false := by
  have action : bits v 2 0 = 2 ^ j := by
    simp only [resetAction, Bool.and_eq_true, decide_eq_true_eq] at act
    exact act.1.2
  have differ : bits v 2 0 ≠ 2 ^ k := fun h => other (Nat.pow_right_injective (le_refl 2) (action.symm.trans h))
  simp [resetAction, differ]

theorem nextSeq_log (o : Origin) (subject event detail : Nat) (s : State) : (log o subject event detail s).bureau.nextSeq = s.bureau.nextSeq + 1 := rfl

/-- Settles O36: each place of BAR0 has its write; the write-only registers act as their commands. -/
theorem registers : Obligations.Registers := by
  unfold Obligations.Registers
  refine ⟨fun p v s opened => ⟨?base, ?status, ?vector, ?boot, fun off w place => ?kept, fun off q place => ?narrow, fun off q place => ?wide,
    fun n i w hn low high _ _ free => ?request, fun n i w hn low high _ _ taken => ?refused⟩, fun p v s opened => ⟨?capture, fun act => ?warm, fun act => ?cold, fun act => ?switch, ?recovery⟩⟩
  case base =>
    have effect : writeRegister p 0x1008 8 v s = setPort p { portOf s p with bar2Base := bits v 39 20 } s := rfl
    exact leads_write opened effect ⟨by simp, setPort_same p _ s⟩
  case status =>
    have effect : writeRegister p 0x1000 8 v s = setPort p { portOf s p with
        lateSeen := w1c v 5 (portOf s p).lateSeen, dbRefusedSeen := w1c v 4 (portOf s p).dbRefusedSeen, staleRespSeen := w1c v 3 (portOf s p).staleRespSeen
        bar2Seen := w1c v 2 (portOf s p).bar2Seen, resetSeen := w1c v 1 (portOf s p).resetSeen } s := rfl
    exact leads_write opened effect (by simp)
  case vector =>
    have effect : writeRegister p 0x1030 8 v s = setPort p { portOf s p with intEn := bits v 7 0, intVector := bits v 26 16 } s := rfl
    exact leads_write opened effect (by simp)
  case boot =>
    have effect : writeRegister p 0x110000 8 v s = { s with bot := { s.bot with
        fallbackSeen := w1c v 6 s.bot.fallbackSeen, verifyFailSeen := w1c v 5 s.bot.verifyFailSeen, tornSeen := w1c v 4 s.bot.tornSeen
        emmcErrSeen := w1c v 3 s.bot.emmcErrSeen } } := rfl
    exact leads_write opened effect (by simp)
  case kept =>
    have effect : writeRegister p off w v s = s := by
      rcases place with h | ⟨q, h⟩ | ⟨k, h⟩ <;> simp [writeRegister, h]
    exact leads_write opened effect ⟨settle_same s, rfl⟩
  case narrow =>
    have effect : writeRegister p off 4 v s = refuseQueue p q s := by simp [writeRegister, place]
    exact leads_write opened effect (by simp [refuseQueue, queueOf_setPort])
  case wide => exact exec_write_eq rfl (by simp [writeRegister, place])
  case request =>
    have effect : writeRegister p (0x10000 + 0x800 * n + i) w v s =
        setDrawer p n { drawerOf s p n with req := patchBytes (drawerOf s p n).req (i - 0x40) (leBytes w v) } s := by
      rw [writeRegister_request w v hn low high, writeRequest, if_pos (by simpa using free)]
    exact leads_write opened effect (by simp)
  case refused =>
    have effect : writeRegister p (0x10000 + 0x800 * n + i) w v s = refuseDrawer p n s := by
      rw [writeRegister_request w v hn low high, writeRequest, if_neg]
      rcases taken with h | h <;> simp [h]
    exact leads_write opened effect (by simp [refuseDrawer])
  case capture =>
    refine exec_write_eq rfl ?_
    have effect : writeRegister p 0x108060 8 v s = if bit v 0 then captureAll p s else s := rfl
    cases h : bit v 0 <;> simp [effect, opened, h, ifEvent]
  case warm =>
    refine exec_write_eq rfl ?_
    have effect : writeRegister p 0x10A008 8 v s = writeReset p v s := rfl
    rw [effect, writeReset, if_pos act, opened, act]
    rfl
  case cold =>
    refine exec_write_eq rfl ?_
    have effect : writeRegister p 0x10A008 8 v s = writeReset p v s := rfl
    rw [effect, writeReset, if_neg (by simp [resetAction_other act (by decide : (1 : Nat) ≠ 0)]), if_pos act, opened, act]
    rfl
  case switch =>
    refine exec_write_eq rfl ?_
    have effect : writeRegister p 0x10A008 8 v s = writeReset p v s := rfl
    rw [effect, writeReset, if_neg (by simp [resetAction_other act (by decide : (2 : Nat) ≠ 0)]), if_neg (by simp [resetAction_other act (by decide : (2 : Nat) ≠ 1)]),
      if_pos act, opened, act]
    rfl
  case recovery =>
    refine exec_write_eq rfl ?_
    have effect : writeRegister p 0x110008 8 v s = if p == .a && s.bot.mode == .failed then recover (bits v 31 0) s else s := rfl
    rw [effect, opened]
    rfl

/-! ### Reset requests (R553, R583) and the recovery image (R637) -/

/-- Settles O37: the requests through the resets they begin; the image through its check. -/
theorem resetRequestsAndRecovery : Obligations.ResetRequestsAndRecovery := by
  unfold Obligations.ResetRequestsAndRecovery
  refine ⟨fun p v s opened => ⟨fun act => leads_warm rfl (by simp [opened, act]) fun t warmed _ _ => ?warm, fun act => leads_event rfl (by simp [opened, act]) ?cold,
    fun act running chosen qualified => ?switch⟩, fun v s opened failed => ⟨fun good => ?good, fun c bad => ?bad⟩⟩
  case warm => exact ⟨warmed.last, warmed.port, warmed.seen, warmed.planned rfl, warmed.run⟩
  case cold =>
    let u := coldState .cold { s with pwr := { s.pwr with lastPort := p.num } }
    obtain ⟨mem, hcmp, -, hsig, -, -, -, -, -, -, retired, -, last, chosen⟩ := coldState_kept .cold { s with pwr := { s.pwr with lastPort := p.num } }
    have port : u.pwr.lastPort = p.num := rfl
    have planned : u.spr.plannedStop = true := by simp [u, coldState, coldBase, sampleStraps]
    have tile : u.tim.tileStrap = s.pins.tileCfg := rfl
    have dram : SameDram State.reset (settle (requestCold p s)) := .settle (.of_mem mem)
    refine ⟨?_, ?_, ?_, ?_, ?_, dram, ?_, ?_, ?_, ?_⟩ <;> simp only [settle_frame]
    · exact last
    · exact port
    · rfl
    · exact planned
    · exact chosen
    · exact hsig
    · exact hcmp
    · exact tile
    · exact retired
  case switch =>
    have effect : switchReference s = { s with clk := { s.clk with phase := .switching, dest := s.clk.selected.other } } := by
      rw [switchReference, if_pos (by simp [running, chosen, qualified]), beginStop, if_pos qualified]
    refine leads_event rfl (by simp [opened, act]) ?_
    simp [effect]
  case good =>
    let b := load s 0 (bits v 31 0)
    let u := setWalec .running { s with bot := { s.bot with mode := .recovery, version := imageVersion b, trial := false } }
    have effect : recover (bits v 31 0) s = raiseUp 0 (bootClasses u) := by simp only [recover, good, u, b]
    have same : SameBut [.drawers, .ports, .sent] u (raiseUp 0 (bootClasses u)) := (raiseUp_keeps _ _ (by decide) (bootClasses_keeps u (by decide) (Keeps.refl _ _))).same
    refine leads_event rfl (by simp [opened, failed]) ?_
    rw [effect]
    simp only [settle_frame, settle_hif]
    rw [same.bot_eq (by decide), same.walec_run (by decide), same.tim_eq (by decide) (by decide)]
    exact ⟨rfl, rfl, rfl, rfl⟩
  case bad =>
    have effect : recover (bits v 31 0) s = verifyFail 2 c s := by simp only [recover, bad]
    refine leads_event rfl (by simp [opened, failed]) ?_
    rw [effect]
    simp [verifyFail, failed, nextSeq_log]

end Sys2Proof.Machine
end

section
/-! Proofs of O38 and O39: the start of the machine and its raster (R22, R194 to R200, R217, R405, R602, R641, R675). -/

namespace Sys2Proof.Machine

/-! ### The sets of a boot (R63, R65) -/

theorem bootSet_fixed {α : Type} {f : State → α} {kind : Nat} {status : State → Bytes → Nat → Status} {active : State → Nat} {take : Nat → Bytes → State → State}
    (taken : ∀ v b u, f (take v b u) = f u) (s : State) : f (bootSet kind status active take s) = f s := by
  unfold bootSet
  split
  · rfl
  · split_ifs
    · exact taken _ _ _
    · rfl

theorem bootSets_bitmap (bad : List Nat) (s : State) : (bootSets bad s).tim.bitmap = s.tim.bitmap := by
  have planned (f : Nat) (c : Change) (o : Origin) (u : State) : (plan f c o u).tim.bitmap = u.tim.bitmap := rfl
  have geom (v : Nat) (f : Bytes) (u : State) : (bootGeom bad v f u).tim.bitmap = u.tim.bitmap := by
    have loaded : (loadGeomFile f bad u).tim = u.tim := (loadGeomFile_keeps (K := [.geom]) f bad u (by decide) (Keeps.refl _ _)).same.tim_eq (by decide) (by decide)
    rw [bootGeom]
    split_ifs
    · rw [loaded]
    · rw [planned, loaded]
  have curves (v : Nat) (f : Bytes) (u : State) : (loadCurveFile f u).tim = u.tim :=
    (loadCurveFile_keeps (K := [.geom, .out]) f u (by decide) (Keeps.refl _ _)).same.tim_eq (by decide) (by decide)
  have map (v : Nat) (f : Bytes) (u : State) : (loadMapFile f u).tim = u.tim :=
    (loadMapFile_keeps (K := [.geom, .out, .dfl]) f u (by decide) (Keeps.refl _ _)).same.tim_eq (by decide) (by decide)
  have model (f : Bytes) (o : Origin) (u : State) : (takeModel f o u).tim.bitmap = u.tim.bitmap := planned _ _ _ _
  have first (u : State) := bootSet_fixed (f := fun t : State => t.tim.bitmap) (kind := 1) (status := geomFileStatus) (active := fun s => (activeGeom s).version)
    (take := bootGeom bad) geom u
  have second (u : State) := bootSet_fixed (f := fun t : State => t.tim.bitmap) (kind := 2) (status := curveFileStatus)
    (active := fun s => (curveBank s s.out.curveActive).version) (take := fun v f s => plan (nextFrame (loadCurveFile f s)) (.curveSwap v) byWalec (loadCurveFile f s))
    (fun v f u => by rw [planned, curves v]) u
  have third (u : State) := bootSet_fixed (f := fun t : State => t.tim.bitmap) (kind := 3) (status := mapFileStatus) (active := fun s => (activeMap s).version)
    (take := fun v f s => plan (nextFrame (loadMapFile f s)) (.mapSwap v) byWalec (loadMapFile f s)) (fun v f u => by rw [planned, map v]) u
  have fourth (u : State) := bootSet_fixed (f := fun t : State => t.tim.bitmap) (kind := 4) (status := modelFileStatus) (active := fun _ => 0)
    (take := fun _ f s => takeModel f byWalec s) (fun v f u => model f byWalec u) u
  unfold bootSets
  dsimp only
  split_ifs
  · rw [fourth, third, second, first]
  · rw [third, second, first]
  · rw [fourth, second, first]
  · rw [second, first]

/-! ### The start of the raster (R195, R217, R675) -/

/-- What the start of the raster leaves of Timing. -/
structure Started (mode : Nat) (s t : State) : Prop where
  run : t.tim.rasterRun = true
  starting : t.tim.starting = true
  latched : t.tim.latched = false
  mode_eq : t.tim.mode = mode
  bench : t.tim.bench = if mode = 0x10 then .running else .off
  bitmap : mode = 0x10 → t.tim.bitmap = s.tim.bitmap
  planned : mode ≠ 0x10 → t.spr.plannedStop = false

/-- The state in which the raster has been started, before the processors of Bench. -/
def startState (mode : Nat) (t : State) : State :=
  capsToCeiling { t with
    tim := { t.tim with rasterRun := true, starting := true, latched := false, lineRaised := false, line := 0, sub := 0, transLeft := 0, mode,
                        modeFrame := t.tim.frameCount + 1, nextTick := firstTick mode t, gridK := 0,
                        bench := if mode = 0x10 then .running else .off }
    spr := { t.spr with plannedStop := false, standby := false }
    walec := { t.walec with cause := none } }

theorem startRaster_started (bad : List Nat) (mode : Nat) (s : State) : Started mode s (startRaster bad mode s) := by
  let t := if mode = 0x10 || s.tim.benchCounts.isEmpty then s else takeBenchDose s
  let u := startRaster.replaceAll (restoreBrightness (bootSets bad (takeGenlock t)))
  have effect : startRaster bad mode s = log byWalec mode 0x20 (256 * mode) (drew (if mode = 0x10 then benchCpu (startState mode u) else startState mode u)) := by
    simp only [startRaster, startState, t, u]
  have bitmap : mode = 0x10 → u.tim.bitmap = s.tim.bitmap := fun bench => by
    have replaced := foldl_fixed (f := fun t : State => t.tim) (g := fun t r => replaceRetired r t)
      (fun t r => (replaceRetired_keeps (K := [.ray, .ports, .pins, .sent]) r t (by decide) (Keeps.refl _ _)).same.tim_eq (by decide) (by decide))
    have dose : t = s := if_pos (by simp [bench])
    have bright (v : State) : (restoreBrightness v).tim = v.tim := rfl
    have all : u.tim = (restoreBrightness (bootSets bad (takeGenlock t))).tim := replaced _ _
    rw [all, bright, bootSets_bitmap, dose]
    rfl
  have start : (startState mode u).tim.rasterRun = true ∧ (startState mode u).tim.starting = true ∧ (startState mode u).tim.latched = false ∧
      (startState mode u).tim.mode = mode ∧ (startState mode u).tim.bench = (if mode = 0x10 then .running else .off) ∧
      (startState mode u).tim.bitmap = u.tim.bitmap ∧ (startState mode u).spr.plannedStop = false := ⟨rfl, rfl, rfl, rfl, rfl, rfl, rfl⟩
  generalize startState mode u = v at *
  obtain ⟨run, starting, latched, inMode, bench, kept, planned⟩ := start
  have logged (w : State) : (log byWalec mode 0x20 (256 * mode) (drew w)).tim = w.tim ∧ (log byWalec mode 0x20 (256 * mode) (drew w)).spr = w.spr := by simp [drew]
  have tim : (startRaster bad mode s).tim = v.tim := by
    have cpu : (benchCpu v).tim = v.tim := (benchCpu_keeps (K := [.bureau, .pwr, .spr]) _ (by decide) (Keeps.refl _ _)).same.tim_eq (by decide) (by decide)
    rw [effect, (logged _).1]
    split_ifs
    · exact cpu
    · rfl
  refine ⟨by rw [tim, run], by rw [tim, starting], by rw [tim, latched], by rw [tim, inMode], by rw [tim, bench], fun h => by rw [tim, kept, bitmap h], fun flat => ?_⟩
  rw [effect, if_neg flat, (logged _).2, planned]

theorem Started.followed {mode : Nat} {s t : State} (h : Started mode s t) : Started mode s (resumeCopy (returnMode t)) := by
  have resumed := (resumeCopy_keeps (K := [.dmc]) (returnMode t) (by decide) (Keeps.refl _ _)).same
  have returned : ∃ p, (returnMode t).tim = { t.tim with pending := p } ∧ (returnMode t).spr = t.spr := by
    unfold returnMode
    dsimp only
    split_ifs <;> exact ⟨_, rfl, rfl⟩
  obtain ⟨p, tim, spr⟩ := returned
  have whole : (resumeCopy (returnMode t)).tim = { t.tim with pending := p } := (resumed.tim_eq (by decide) (by decide)).trans tim
  obtain ⟨run, starting, latched, inMode, bench, bitmap, planned⟩ := h
  exact ⟨by rw [whole]; exact run, by rw [whole]; exact starting, by rw [whole]; exact latched, by rw [whole]; exact inMode, by rw [whole]; exact bench,
    fun b => by rw [whole]; exact bitmap b, fun flat => by rw [resumed.spr_eq (by decide), spr]; exact planned flat⟩

theorem Started.settle {mode : Nat} {s t : State} (h : Started mode s t) : Started mode s (settle t) := by
  obtain ⟨run, starting, latched, inMode, bench, bitmap, planned⟩ := h
  exact ⟨by simpa using run, by simpa using starting, by simpa using latched, by simpa using inMode, by simpa using bench, by simpa using bitmap, by simpa using planned⟩

/-- The wait for TB3 changes the bases alone. -/
theorem waitTb3_same (s : State) : SameBut [.bases] s (waitTb3 s) := (waitTb3_keeps s (by decide) (Keeps.refl _ _)).same

/-- What RASTER_START asks for (R195). -/
def goRaster (s : State) : Bool :=
  s.hif.walec == .running && s.bot.mode == .running && s.tim.confirmed && !s.tim.rasterRun && !s.walec.powerDown && clocked s && clustersSettled s && dramForStart s

theorem exec_rasterStart (s : State) : exec .rasterStart s = done (ifEvent (goRaster s)
    (if s.tim.frameCount = 0 && tooHot s then { s with thm := { s.thm with powerupHold := true } } else rasterStart (bootCopies s) (drew (waitTb3 s))) s) := rfl

/-! ### Readiness and the trial (R35, R517, R641) -/

theorem declareReady_ready (s : State) : (declareReady s).hif.walec = .running ∧ (declareReady s).bot.mode = .running ∧ (declareReady s).walec.stoppedAt = none ∧
    (declareReady s).walec.timeoutSeen = false ∧ (declareReady s).pwr = s.pwr := by
  let t := setWalec .running { s with bot := { s.bot with mode := .running, trialSince := if s.bot.trial then some (tb0 s) else none } }
  let u := if s.walec.timeoutSeen then keepEvent 0x92 4 t else t
  have event : u.bot.mode = .running := by
    have kept (c v : Nat) : (keepEvent c v t).bot.mode = t.bot.mode := by
      unfold keepEvent
      split_ifs <;> rfl
    simp only [u]
    split_ifs
    · exact kept _ _
    · rfl
  have same : SameBut [.bot] t u := (Keeps.ite (keepEvent_keeps 0x92 4 t (by decide) (Keeps.refl _ _)) (Keeps.refl _ _)).same
  let v := log byWalec u.walec.restartCause 0x91 (s.walec.stoppedAt.elim 0 fun w => (tb0 s - w) / 1000000) { u with walec := { u.walec with stoppedAt := none, timeoutSeen := false } }
  have raised := (raiseUp_keeps (K := [.ports, .sent]) 0 v (by decide) (Keeps.refl _ _)).same
  have effect : declareReady s = raiseUp 0 v := rfl
  have walec : v.walec.stoppedAt = none ∧ v.walec.timeoutSeen = false := ⟨rfl, rfl⟩
  rw [effect]
  exact ⟨(raised.walec_run (by decide)).trans (same.walec_run (by decide)), by rw [raised.bot_eq (by decide)]; exact event,
    by rw [raised.walec_eq (by decide)]; exact walec.1, by rw [raised.walec_eq (by decide)]; exact walec.2, (raised.pwr_eq (by decide)).trans (same.pwr_eq (by decide))⟩

theorem resetEntry_entered (s : State) : (resetEntry s).pwr.resetEntry = false := by
  unfold resetEntry
  dsimp only
  split_ifs with h
  · have kept (c v : Nat) (u : State) : (keepEvent c v u).pwr = u.pwr := (keepEvent_keeps (K := [.bot]) c v u (by decide) (Keeps.refl _ _)).same.pwr_eq (by decide)
    rw [kept]
    simp
  · simpa using h

/-- Settles O38: each command by the stages of its start. -/
theorem startOfTheMachine : Obligations.StartOfTheMachine := by
  unfold Obligations.StartOfTheMachine
  refine ⟨fun r s install works clock unconfirmed strap => ?confirm, fun r s install works clock unconfirmed strap => ?mismatch,
    fun s loading stopped clock => leads_event rfl (by simp [loading, stopped, clock]) ?ready,
    fun s running mode confirmed stopped up clock clusters dram => ?start, fun s failed stopped => ?failed, fun u s since trial mode running => ?trial⟩
  case confirm =>
    have effect : exec .configurationConfirm s = done (ifEvent (walecWorks s && clocked s && !s.tim.confirmed) (confirmWith r s) s) := by
      change execConfigurationConfirm s = _
      simp only [execConfigurationConfirm, install, if_pos strap]
    let t := loadDevices r { s with tim := { s.tim with confirmed := true, configMismatch := false, confirmedAt := some (tb0 s) } }
    have tim : (confirmWith r s).tim = t.tim := foldl_fixed (f := fun t : State => t.tim) (g := fun t r => supplyOn r t)
      (fun t r => (supplyOn_keeps (K := [.pwr, .sent]) r t (by decide) (Keeps.refl _ _)).same.tim_eq (by decide) (by decide)) _ _
    refine leads_event effect (by simp [works, clock, unconfirmed]) ?_
    simp only [settle_frame, tim]
    exact ⟨rfl, rfl, rfl⟩
  case mismatch =>
    have effect : exec .configurationConfirm s = done (ifEvent (walecWorks s && clocked s && !s.tim.confirmed)
        (assertFault { s with tim := { s.tim with configMismatch := true } }) s) := by
      change execConfigurationConfirm s = _
      simp only [execConfigurationConfirm, install, if_neg strap]
    refine leads_event effect (by simp [works, clock, unconfirmed]) ?_
    simp [unconfirmed, assertFault_fault]
  case ready =>
    have entered (u : State) := resetEntry_entered u
    generalize (if bootIsCold s then coldBoot s else if s.pwr.resetEntry then foldNow s else s) = u
    obtain ⟨run, booted, since, timeout, pwr⟩ := declareReady_ready (resetEntry u)
    simp only [settle_frame, settle_hif]
    exact ⟨run, booted, since, timeout, by rw [pwr]; exact entered u⟩
  case start =>
    have go : goRaster s = true := by simp [goRaster, running, mode, confirmed, stopped, up, clock, clusters, dram]
    have waited := waitTb3_same s
    have restart : (drew (waitTb3 s)).tim.restartBench = s.tim.restartBench := waited.tim_field (by decide) (·.restartBench) (fun _ => rfl)
    have idle : (drew (waitTb3 s)).tim.rasterRun = s.tim.rasterRun := waited.tim_field (by decide) (·.rasterRun) (fun _ => rfl)
    have starts {P : State → Prop} (cool : ¬(s.tim.frameCount = 0 ∧ tooHot s = true)) (hP : P (settle (rasterStart (bootCopies s) (drew (waitTb3 s))))) :
        Leads .rasterStart s P := by
      refine leads_event (exec_rasterStart s) go ?_
      rwa [if_neg (by simpa using cool)]
    have bitmap : validBitmap (waitTb3 s) = validBitmap (drew (waitTb3 s)) := rfl
    rw [bitmap]
    generalize drew (waitTb3 s) = v at *
    refine ⟨fun hot => leads_event (exec_rasterStart s) go ?_, fun cool flat => starts cool ?_, fun b cool bench valid => starts cool ?_, fun cool bench invalid => starts cool ?_⟩
    · rw [if_pos (by simp [hot])]
      simp [stopped]
    · rw [rasterStart, if_pos (by simp [restart, flat])]
      obtain ⟨run, starting, latched, inMode, off, -, planned⟩ := (startRaster_started (bootCopies s) 6 v).followed.settle
      exact ⟨run, starting, latched, inMode, off, planned (by decide)⟩
    · rw [rasterStart, if_neg (by simp [restart, bench])]
      simp only [valid]
      obtain ⟨run, starting, latched, inMode, bench, bitmap, -⟩ := (startRaster_started (bootCopies s) 0x10 { v with tim := { v.tim with bitmap := some b } }).settle
      exact ⟨run, starting, inMode, bench, bitmap rfl⟩
    · rw [rasterStart, if_neg (by simp [restart, bench])]
      simp only [invalid]
      simp [assertFault_fault, idle, stopped]
  case failed =>
    have held : goRaster s = false := by simp [goRaster, dramForStart, failed]
    refine leads_done (u := s) (by rw [exec_rasterStart, held]; rfl) (by simpa using stopped)
  case trial =>
    let t := writeHeader s.bot.image false (advanceTo0 (u + 600000000000) s)
    let v := log (hw 16) t.bot.image 0xD9 t.bot.version { t with bot := { t.bot with trial := false, trialSince := none, attempted := none } }
    have effect : exec .trialConfirm s = done (ifEvent (s.bot.trial && s.bot.mode == .running && s.hif.walec == .running) (advanceRollback v) s) := by
      change execTrialConfirm s = _
      simp only [execTrialConfirm, since]
      rfl
    have bot : (advanceRollback v).bot.trial = v.bot.trial ∧ (advanceRollback v).bot.trialSince = v.bot.trialSince ∧ (advanceRollback v).bot.attempted = v.bot.attempted ∧
        (advanceRollback v).bot.image = v.bot.image := by
      unfold advanceRollback
      dsimp only
      split_ifs
      · simp
      · exact ⟨rfl, rfl, rfl, rfl⟩
    refine leads_event effect (by simp [trial, mode, running]) ?_
    simp only [settle_frame, bot.1, bot.2.1, bot.2.2.1, bot.2.2.2]
    exact ⟨rfl, rfl, rfl, rfl⟩

end Sys2Proof.Machine
end

section
/-! Proof of O39: the raster's lines, its start latch and its ticks (R22, R191, R196 to R200, R675). -/

namespace Sys2Proof.Machine

/-! ### The place in the frame -/

/-- What no change at a tick moves: the place in the frame, its count, its time and the run. -/
def TimState.tickMarks (t : TimState) : Nat × Nat × Nat × Bool × Bool × Bool × Nat × Bool :=
  (t.frameCount, t.line, t.sub, t.lineRaised, t.starting, t.rasterRun, t.flipTb3, t.latched)

/-- What the work of a line does not move: the place, the mode and the outputs to the panel. -/
def TimState.lineMarks (t : TimState) : Nat × Nat × Nat × Bool × Bool × Bool × Nat × Bool × Nat × Bool :=
  (t.frameCount, t.line, t.sub, t.lineRaised, t.starting, t.rasterRun, t.mode, t.panelSync, t.syncLeft, t.lensPh)

def TimState.allMarks (t : TimState) := (t.tickMarks, t.lineMarks)

/-- A reading of Timing is the same in both states. -/
def Stays {α : Type} (f : TimState → α) (s t : State) : Prop := f t.tim = f s.tim

namespace Stays

variable {α : Type} {f : TimState → α} {s t u : State}

theorem refl (f : TimState → α) (s : State) : Stays f s s := rfl

theorem trans (h : Stays f s t) (k : Stays f t u) : Stays f s u := Eq.trans k h

theorem ite {c : Prop} [Decidable c] (ht : Stays f s t) (hu : Stays f s u) : Stays f s (if c then t else u) := by
  split_ifs
  · exact ht
  · exact hu

theorem foldl {β : Type} {g : State → β → State} (hg : ∀ t x, Stays f t (g t x)) (xs : List β) (s : State) : Stays f s (xs.foldl g s) :=
  foldl_fixed (f := fun t : State => f t.tim) hg xs s

theorem all_of_same {l : List Part} (h : SameBut l s t) (tim : Part.tim ∉ l) : Stays TimState.allMarks s t := h.tim_field tim TimState.allMarks fun _ => rfl

theorem tick_of_all (h : Stays TimState.allMarks s t) : Stays TimState.tickMarks s t := congrArg Prod.fst h

theorem line_of_all (h : Stays TimState.allMarks s t) : Stays TimState.lineMarks s t := congrArg Prod.snd h

theorem line_of_same {l : List Part} (h : SameBut l s t) (tim : Part.tim ∉ l) : Stays TimState.lineMarks s t := line_of_all (all_of_same h tim)

theorem tick_of_same {l : List Part} (h : SameBut l s t) (tim : Part.tim ∉ l) : Stays TimState.tickMarks s t := tick_of_all (all_of_same h tim)

theorem supplies {β : Type} {g : State → β → State} (hg : ∀ t x, SameBut [.pwr, .sent] t (g t x)) (xs : List β) (s : State) :
    Stays TimState.allMarks s (xs.foldl g s) := foldl (fun t x => all_of_same (hg t x) (by decide)) xs s

end Stays

/-! ### The latch instant (R24, R675) -/

theorem stays_modeAccept (code : Nat) (t : Target) (o : Origin) (s : State) : Stays TimState.allMarks s (modeAccept code t o s).2 := by
  have exit : Stays TimState.allMarks s (beginExit code o s) := by
    have opened (ds : List Nat) (u : State) : Stays TimState.allMarks u (requestDomains true ds u) := Stays.all_of_same
      (requestDomains_keeps (K := [.pwr]) true ds u (by decide) (Keeps.refl _ _)).same (by decide)
    unfold beginExit
    refine .trans ?_ (Stays.supplies (fun t r => (supplyOn_keeps (K := [.pwr, .sent]) r t (by decide) (Keeps.refl _ _)).same) _ _)
    exact .trans (by rfl) (opened _ _)
  unfold modeAccept
  split_ifs
  · exact .refl _ s
  · exact exit
  · rfl

theorem stays_scheduleAct (i : Nat) (e : ScheduleEntry) (s : State) : Stays TimState.allMarks s (scheduleAct i e s) := by
  have again (u : State) : Stays TimState.allMarks u (rescheduled i e u) := rfl
  have missing : Stays TimState.allMarks s (missed i e s) :=
    (Stays.all_of_same (log_keeps (K := [.bureau]) (bySchedule i) i 0x23 e.action s (by decide) (Keeps.refl _ _)).same (by decide)).trans (again _)
  have requested : Stays TimState.allMarks s (scheduleRequest i e s).2.2 := by
    unfold scheduleRequest modeRequest
    dsimp only
    generalize (if e.action = 0 then 0x10 else e.mode) = code
    split_ifs
    · exact stays_modeAccept _ _ _ _
    · exact .refl _ s
  exact .ite (requested.trans (again _)) (.ite rfl missing)

theorem stays_retrySchedule (s : State) : Stays TimState.allMarks s (retrySchedule s) := by
  refine .ite (.refl _ s) (Stays.foldl (fun t i => ?_) _ s)
  split
  · exact .refl _ t
  · exact .ite (stays_scheduleAct _ _ _) (.refl _ t)

/-- The latch instant takes the latch and leaves the rest (R675). -/
theorem latchInstant_marks (s : State) : (latchInstant s).tim.latched = true ∧ Stays TimState.lineMarks s (latchInstant s) := by
  let u := outputLatch (commitLatch s)
  have decided : Stays TimState.lineMarks s u := .line_of_same
    (outputLatch_keeps (K := [.cmp, .out, .pwr]) _ (by decide) (commitLatch_keeps s (by decide) (Keeps.refl _ _))).same (by decide)
  let v := { u with tim := { u.tim with latched := true } }
  have taken : Stays TimState.lineMarks s v := decided
  have bands : Stays TimState.allMarks v (fetchFirstBands v) := .ite
    (Stays.foldl (fun t r => .all_of_same (startBands_keeps (K := [.ray]) _ r t (by decide) (Keeps.refl _ _)).same (by decide)) _ _) (.refl _ _)
  have after := bands.trans (stays_retrySchedule _)
  have latched : v.tim.latched = true := rfl
  have whole : Stays TimState.allMarks v (latchInstant s) := after
  clear_value v
  exact ⟨(congrArg (fun m : _ => m.1.2.2.2.2.2.2.2) whole).trans latched, taken.trans whole.line_of_all⟩

/-! ### A line (R191, R197, R198) -/

theorem stays_lineWork (obs : LineObs) (sub line : Nat) (s : State) : Stays TimState.lineMarks s (lineWork obs sub line s) := by
  have active := Stays.line_of_same (activeLine_keeps (K := [.cmp, .geom, .ray, .sig, .out, .tlk, .dmc, .ports, .bureau, .pwr, .spr, .pins, .sent]) obs sub line s (by decide) (Keeps.refl _ _)).same (by decide)
  have bench := Stays.line_of_same (benchLine_keeps (K := [.out, .tlk, .sent]) sub line s (by decide) (Keeps.refl _ _)).same (by decide)
  have rows (t : State) (r : Nat) : Stays TimState.lineMarks t (rowSubEnd sub r t) := .line_of_same (rowSubEnd_keeps (K := [.ray]) sub r t (by decide) (Keeps.refl _ _)).same (by decide)
  have slot (t : State) : Stays TimState.lineMarks t (trackingSlot obs.drifted t) := .line_of_same (trackingSlot_keeps (K := [.dmc]) _ t (by decide) (Keeps.refl _ _)).same (by decide)
  have steps (t : State) : Stays TimState.lineMarks t (retrainSteps t) := .line_of_same (retrainSteps_keeps (K := [.dmc, .sent]) t (by decide) (Keeps.refl _ _)).same (by decide)
  have ends (t : State) (n : Nat) : Stays TimState.lineMarks t (sendEnd sub n t) := .line_of_same (sendEnd_keeps (K := [.sent]) sub n t (by decide) (Keeps.refl _ _)).same (by decide)
  have window (t : State) (n : Nat) : Stays TimState.lineMarks t (controlWindow n t) := .line_of_same (controlWindow_keeps (K := [.tlk, .sent]) n t (by decide) (Keeps.refl _ _)).same (by decide)
  have regions := Stays.line_of_same (evaluateRegions_keeps (K := [.sig, .bureau]) s (by decide) (Keeps.refl _ _)).same (by decide)
  have header := Stays.line_of_same (headerLine_keeps (K := [.ray, .tlk, .sent]) sub s (by decide) (Keeps.refl _ _)).same (by decide)
  have idle := Stays.refl TimState.lineMarks s
  have rowsEnd := Stays.ite (c := composing s = true) (Stays.foldl rows (List.range (configRows s)) s) idle
  have tracked (c : Prop) [Decidable c] {t : State} (ht : Stays TimState.lineMarks s t) : Stays TimState.lineMarks s (if c then trackingSlot obs.drifted t else t) := .ite (ht.trans (slot t)) ht
  have stepped (c : Prop) [Decidable c] {t : State} (ht : Stays TimState.lineMarks s t) : Stays TimState.lineMarks s (if c then retrainSteps t else t) := .ite (ht.trans (steps t)) ht
  exact .ite (.ite active (.ite bench idle)) <| .ite (stepped _ (tracked _ rowsEnd)) <| .ite (Stays.foldl ends _ s) <| .ite (Stays.foldl window _ s) <|
    .ite (.ite regions idle) <| .ite (.ite (latchInstant_marks s).2 idle) <| .ite header idle

/-- The line that has begun, before its work. -/
def begunLine (sub line : Nat) (obs : LineObs) (s : State) : State :=
  let s := if witnessTurn s then renderWitness (16 * obs.witnessSlices) s else s
  let t := advanceTo 3 (s.tim.thisTick + lineOffset s.tim.mode sub line) s
  { t with tim := { t.tim with sub, line, lineRaised := true } }

theorem stays_lineStep (sub line : Nat) (obs : LineObs) (s : State) : Stays TimState.lineMarks (outputsAt sub line (begunLine sub line obs s)) (lineStep sub line obs s) := by
  have effect : lineStep sub line obs s = lineWork obs sub line
      (if line = 0 then subframeStart sub (outputsAt sub line (begunLine sub line obs s)) else outputsAt sub line (begunLine sub line obs s)) := rfl
  rw [effect]
  generalize outputsAt sub line (begunLine sub line obs s) = t
  have started := Stays.line_of_same (subframeStart_keeps (K := [.ray, .sig, .out, .tlk, .bureau, .pwr, .thm, .spr]) sub t (by decide) (Keeps.refl _ _)).same (by decide)
  exact .trans (.ite started (.refl _ t)) (stays_lineWork obs sub line _)

theorem begunLine_tim (sub line : Nat) (obs : LineObs) (s : State) :
    ∃ bs, (begunLine sub line obs s).tim = { s.tim with bases := bs, sub, line, lineRaised := true } := by
  let u := if witnessTurn s then renderWitness (16 * obs.witnessSlices) s else s
  have shown : u.tim = s.tim := (Keeps.ite (l := [.cmp, .ray, .dmc]) (renderWitness_keeps _ s (by decide) (Keeps.refl _ _)) (Keeps.refl _ _)).same.tim_eq (by decide) (by decide)
  exact ⟨_, by rw [← shown]; rfl⟩

/-! ### A tick (R22 to R25, R196, R200) -/

theorem stays_bench (old : Nat) (o : Origin) (s : State) : Stays TimState.tickMarks s (enterBench old o s) ∧ Stays TimState.tickMarks s (exitBench o s) := by
  have logged (e : Nat) (t : State) : Stays TimState.tickMarks t (logBench e o t) := .tick_of_same (logBench_keeps (K := [.bureau]) e o t (by decide) (Keeps.refl _ _)).same (by decide)
  constructor
  · let t := { s with tim := { s.tim with bench := .entering, benchReturn := old, benchOrigin := o, benchCounts := [], leaveSince := none } }
    let u := beginSelfRefresh (benchCpu (darkOthers (stopWitness t)))
    have dark : Stays TimState.tickMarks t u := .tick_of_same (beginSelfRefresh_keeps (K := [.ray, .dmc, .bureau, .pwr, .spr, .sent]) _ (by decide)
      (benchCpu_keeps _ (by decide) (darkOthers_keeps _ (by decide) (stopWitness_keeps t (by decide) (Keeps.refl _ _))))).same (by decide)
    have off : Stays TimState.tickMarks u (requestDomains false (benchOff u) u) := .tick_of_same (requestDomains_keeps (K := [.pwr]) _ _ u (by decide) (Keeps.refl _ _)).same (by decide)
    exact .trans (t := t) rfl ((dark.trans off).trans (logged 0x21 _))
  · have dose : Stays TimState.tickMarks s (takeBenchDose s) := by
      have each (t : State) (b : Bytes) (n : Nat) : Stays TimState.tickMarks t (addBenchDose b n t) := .tick_of_same (addBenchDose_keeps (K := [.out]) b n t (by decide) (Keeps.refl _ _)).same (by decide)
      unfold takeBenchDose
      dsimp only
      cases s.tim.bitmap with
      | none => rfl
      | some b => exact .trans (Stays.foldl (fun t n => each t b n) _ s) rfl
    exact (dose.trans (logged 0x22 _)).trans rfl

theorem stays_changeMode (f code : Nat) (o : Origin) (s : State) : Stays TimState.tickMarks s (changeMode f code o s) := by
  obtain ⟨u, taken, effect⟩ : ∃ u, Stays TimState.tickMarks s u ∧ changeMode f code o s =
      (let v := log o code 0x20 (s.tim.mode + 256 * code) (forgetReferences (capsToCeiling (takeGenlock u)))
       if code = 0x10 then enterBench s.tim.mode o v else if s.tim.mode = 0x10 then exitBench o v else v) := by
    refine ⟨_, ?_, rfl⟩
    rfl
  rw [effect]
  have genlock : Stays TimState.tickMarks u (takeGenlock u) := rfl
  have noted : Stays TimState.tickMarks (takeGenlock u) (log o code 0x20 (s.tim.mode + 256 * code) (forgetReferences (capsToCeiling (takeGenlock u)))) :=
    .tick_of_same (log_keeps (K := [.ray, .sig, .bureau]) _ _ _ _ _ (by decide)
      (forgetReferences_keeps _ (by decide) (capsToCeiling_keeps _ (by decide) (Keeps.refl _ _)))).same (by decide)
  have whole := (taken.trans genlock).trans noted
  exact .ite (whole.trans (stays_bench _ o _).1) (.ite (whole.trans (stays_bench 0 o _).2) whole)

theorem stays_beginRealign (f : Nat) (withMode : Bool) (o : Origin) (s : State) : Stays TimState.tickMarks s (beginRealign f withMode o s) := by
  have logged (a b c : Nat) (t : State) : Stays TimState.tickMarks t (log o a b c t) := .tick_of_same (log_keeps (K := [.bureau]) o a b c t (by decide) (Keeps.refl _ _)).same (by decide)
  exact .ite rfl (.trans rfl (logged _ _ _ _))

theorem stays_applyChange (f : Nat) (withMode : Bool) (s : State) (p : Pending) : Stays TimState.tickMarks s (applyChange f withMode s p) := by
  unfold applyChange
  cases p.change with
  | geomSwap v => exact .tick_of_same (swapGeom_keeps (K := [.geom, .sig, .bureau]) f p.origin s (by decide) (Keeps.refl _ _)).same (by decide)
  | curveSwap v => exact .tick_of_same (swapCurves_keeps (K := [.out, .bureau]) p.origin s (by decide) (Keeps.refl _ _)).same (by decide)
  | mapSwap v => exact .tick_of_same (swapMaps_keeps (K := [.out, .bureau]) p.origin s (by decide) (Keeps.refl _ _)).same (by decide)
  | stressSwap v => exact .tick_of_same (swapStress_keeps (K := [.out, .bureau]) v p.origin s (by decide) (Keeps.refl _ _)).same (by decide)
  | workBank => exact .tick_of_same (swapWorkBank_keeps (K := [.out]) s (by decide) (Keeps.refl _ _)).same (by decide)
  | mode code => exact stays_changeMode f code p.origin s
  | realign => exact stays_beginRealign f withMode p.origin s
  | region n r => exact .tick_of_same (changeRegion_keeps (K := [.sig]) n r s (by decide) (Keeps.refl _ _)).same (by decide)
  | sigRelease n => exact .tick_of_same (releaseRegion_keeps (K := [.sig, .bureau]) n p.origin s (by decide) (Keeps.refl _ _)).same (by decide)
  | termT16 _ => rfl
  | lensLead _ => rfl
  | selBase _ => rfl
  | bandWeights _ => rfl

theorem stays_applyChanges (f : Nat) (s : State) : Stays TimState.tickMarks s (applyChanges f s) :=
  .trans (t := { s with tim := { s.tim with pending := s.tim.pending.filter fun p => f < p.frame } }) rfl (Stays.foldl (stays_applyChange f _) _ _)

theorem stays_startTraining (n : Nat) (half retried : Bool) (s : State) : Stays TimState.tickMarks s (startTraining n half retried s) := by
  have left (t : State) : Stays TimState.tickMarks t (leaveUp n t) := .ite rfl rfl
  have spread : Stays TimState.tickMarks s (takeSpread (n / 8) s) := .tick_of_same (takeSpread_keeps (K := [.tlk]) _ s (by decide) (Keeps.refl _ _)).same (by decide)
  exact (spread.trans (left _)).trans rfl

theorem stays_controlTick (f n : Nat) (s : State) : Stays TimState.tickMarks s (controlTick f n s) := by
  have set (l : Link) (t : State) : Stays TimState.tickMarks t (setLink n l t) := rfl
  unfold controlTick
  exact .ite (set _ _) ((set _ _).trans (stays_startTraining _ _ _ _))

theorem stays_controlTicks (f : Nat) (s : State) : Stays TimState.tickMarks s (controlTicks f s) := Stays.foldl (fun t n => stays_controlTick f n t) _ s

theorem stays_countBench (s : State) : Stays TimState.tickMarks s (countBench s) := by
  unfold countBench
  refine .ite (Stays.foldl (fun t n => ?_) _ s) (.refl _ s)
  rfl

theorem stays_planTick (realigned : Bool) (s : State) : Stays TimState.tickMarks s (planTick realigned s) := .ite rfl (.ite rfl rfl)

theorem stays_frameStep (s : State) : ∃ u, u.tim.rasterRun = s.tim.rasterRun ∧ u.tim.nextTick = s.tim.nextTick ∧ u.tim.frameCount = s.tim.frameCount ∧
    Stays TimState.tickMarks (beginFrame u) (frameStep s) := by
  let u := if s.tim.starting then s else storeErrors (writeCaps s)
  have stored : SameBut [.cmp, .geom, .ray, .out, .dmc, .dram, .ports, .bureau, .pins, .sent] s u :=
    (Keeps.ite (Keeps.refl _ _) (storeErrors_keeps _ (by decide) (writeCaps_keeps s (by decide) (Keeps.refl _ _)))).same
  have tim : u.tim = s.tim := stored.tim_eq (by decide) (by decide)
  refine ⟨u, by rw [tim], by rw [tim], by rw [tim], ?_⟩
  unfold frameStep
  extract_lets b f early e r w
  have moved : Stays TimState.tickMarks (beginFrame u) b := rfl
  have commits (t : State) : Stays TimState.tickMarks t (commitTick t) := .tick_of_same
    (commitTick_keeps (K := [.cmp, .sig, .dec, .blt, .dmc, .dram, .ports, .queues, .bureau, .pins, .sent]) t (by decide) (Keeps.refl _ _)).same (by decide)
  have noted : Stays TimState.tickMarks b (noteSubstitutions (commitTick (applyChanges f b)) b) :=
    .tick_of_same (noteSubstitutions_keeps (K := [.bureau]) _ b (by decide) (Keeps.refl _ _)).same (by decide)
  have changed := (noted.trans (stays_applyChanges f _)).trans (commits _)
  have shown (t : State) : Stays TimState.tickMarks t (outputTick (clearStreams (beginSubstitutions t))) := .tick_of_same (outputTick_keeps (K := [.sig, .out, .bureau]) _ (by decide)
    (clearStreams_keeps _ (by decide) (beginSubstitutions_keeps t (by decide) (Keeps.refl _ _)))).same (by decide)
  have links (t : State) : Stays TimState.tickMarks t (freshHalves t) := .tick_of_same (freshHalves_keeps (K := [.tlk]) t (by decide) (Keeps.refl _ _)).same (by decide)
  have rows (t : State) : Stays TimState.tickMarks t (rowsTick t) := .tick_of_same (rowsTick_keeps (K := [.ray, .spr]) t (by decide) (Keeps.refl _ _)).same (by decide)
  have before : Stays TimState.tickMarks (beginFrame u) w := moved.trans (changed.trans (shown _))
  clear_value w f
  exact before.trans <| (stays_controlTicks f w).trans <| (links _).trans <| (stays_planTick r _).trans <| (rows _).trans (stays_countBench _)

/-- Settles O39: the work of a line and the changes of a tick leave the place in the frame. -/
theorem raster : Obligations.Raster := by
  unfold Obligations.Raster
  refine ⟨fun sub line obs s due => leads_event rfl due ?line, fun s run starting waiting => ?latch,
    fun s run ended => leads_event rfl ?atEnd ?tick⟩
  case line =>
    obtain ⟨bs, begun⟩ := begunLine_tim sub line obs s
    have stays := stays_lineStep sub line obs s
    simp only [Stays, TimState.lineMarks, Prod.mk.injEq, outputsAt, begun] at stays
    obtain ⟨count, atLine, atSub, raised, -, run, mode, sync, left, lens⟩ := stays
    simp only [settle_frame]
    refine ⟨atLine, atSub, raised, count, mode, run, fun zero => ?_, fun later => ?_⟩
    · rw [sync, left, lens]
      simp [zero]
    · rw [sync, lens]
      simp [later]
  case latch =>
    let start := advanceTo 3 ((s.tim.nextTick + 2 ^ 80 - linePeriods s.tim.mode 30) % 2 ^ 80) s
    let u := advanceTo 3 (((latchInstant start).tim.nextTick + 2 ^ 80 - linePeriods (latchInstant start).tim.mode 20) % 2 ^ 80) (latchInstant start)
    have began : Stays TimState.lineMarks s start := .line_of_same (advanceTo_keeps (K := [.bases]) 3 _ s (by decide) (Keeps.refl _ _)).same (by decide)
    have waited : Stays TimState.allMarks (latchInstant start) u := .all_of_same (advanceTo_keeps (K := [.bases]) 3 _ _ (by decide) (Keeps.refl _ _)).same (by decide)
    have headers : Stays TimState.allMarks u (if nextTransition u then u else sendHeaders (u.tim.frameCount + 1) 0 u) :=
      .ite (.refl _ u) (.all_of_same (sendHeaders_keeps (K := [.ray, .tlk, .sent]) _ 0 u (by decide) (Keeps.refl _ _)).same (by decide))
    obtain ⟨latched, stays⟩ := latchInstant_marks start
    have effect : exec .startLatch s = done (ifEvent (s.tim.rasterRun && s.tim.starting && !s.tim.latched)
        (if nextTransition u then u else sendHeaders (u.tim.frameCount + 1) 0 u) s) := rfl
    have line := (began.trans stays).trans (waited.trans headers).line_of_all
    have taken := (waited.trans headers).tick_of_all
    refine leads_event effect (by simp [run, starting, waiting]) ?_
    generalize (if nextTransition u then u else sendHeaders (u.tim.frameCount + 1) 0 u) = v at *
    generalize latchInstant start = w at *
    simp only [Stays, TimState.lineMarks, Prod.mk.injEq] at line
    simp only [Stays, TimState.tickMarks, Prod.mk.injEq] at taken
    obtain ⟨count, -, -, -, starts, runs, mode, -⟩ := line
    simp only [settle_frame]
    exact ⟨taken.2.2.2.2.2.2.2.trans latched, starts.trans starting, runs.trans run, count, mode⟩
  case atEnd =>
    rcases ended with ⟨starting, latched⟩ | ⟨going, raised, last, sub⟩
    · simp [run, starting, latched]
    · simp [run, going, raised, last, sub]
  case tick =>
    obtain ⟨u, ran, next, count, stays⟩ := stays_frameStep s
    have begun : (beginFrame u).tim.frameCount = (u.tim.frameCount + 1) % 2 ^ 64 ∧ (beginFrame u).tim.line = 0 ∧ (beginFrame u).tim.sub = 0 ∧
        (beginFrame u).tim.lineRaised = false ∧ (beginFrame u).tim.latched = false ∧ (beginFrame u).tim.starting = false ∧
        (beginFrame u).tim.flipTb3 = u.tim.nextTick % 2 ^ 80 ∧ (beginFrame u).tim.rasterRun = u.tim.rasterRun := by
      have advanced := (advanceTo_keeps (K := [.bases]) 3 u.tim.nextTick u (by decide) (Keeps.refl _ _)).same
      have count := advanced.tim_field (by decide) (·.frameCount) (fun _ => rfl)
      have next := advanced.tim_field (by decide) (·.nextTick) (fun _ => rfl)
      have run := advanced.tim_field (by decide) (·.rasterRun) (fun _ => rfl)
      simp [beginFrame, flipStamp, count, next, run]
    simp only [Stays, TimState.tickMarks, Prod.mk.injEq, begun, ran, next, count, run] at stays
    obtain ⟨count, line, sub, raised, starting, ran, flip, latched⟩ := stays
    simp only [settle_frame]
    exact ⟨count, line, sub, raised, latched, starting, flip, ran⟩

end Sys2Proof.Machine
end

section
/-! Proofs of O40 and O42: the exit from Bench, its schedule (R215 to R218) and the row supplies (R214, R576 to R578). -/

namespace Sys2Proof.Machine

/-! ### Bench (R215 to R218) -/

theorem stayInBench_tim (s : State) : (stayInBench s).tim = { s.tim with bench := .running, leaveSince := none } ∧ (stayInBench s).pins = s.pins ∧ (stayInBench s).walec = s.walec := by
  let t := { s with tim := { s.tim with bench := .running, leaveSince := none } }
  let u := darkOthers (benchCpu t)
  have effect : stayInBench s = requestDomains false (benchOff u) (beginSelfRefresh u) := rfl
  have dark : Keeps [.dmc, .bureau, .pwr, .spr, .sent] t u := darkOthers_keeps (benchCpu t) (by decide) (benchCpu_keeps t (by decide) (Keeps.refl _ t))
  have tim : t.tim = { s.tim with bench := .running, leaveSince := none } ∧ t.pins = s.pins ∧ t.walec = s.walec := ⟨rfl, rfl, rfl⟩
  rw [effect]
  clear_value u t
  have same := (requestDomains_keeps false (benchOff u) (beginSelfRefresh u) (by decide) (beginSelfRefresh_keeps u (by decide) dark)).same
  exact ⟨(same.tim_eq (by decide) (by decide)).trans tim.1, (same.pins_eq (by decide)).trans tim.2.1, (same.walec_eq (by decide)).trans tim.2.2⟩

theorem scheduleOf_settle (s : State) (i : Nat) : scheduleOf (settle s) i = scheduleOf s i := by simp [scheduleOf]

theorem scheduleOf_rescheduled (i : Nat) (e : ScheduleEntry) (s : State) : scheduleOf (rescheduled i e s) i =
    if e.period = 0 then none else some { e with first := (e.first + e.period * 1000000000) % 2 ^ 64, retrySince := none } := by
  unfold rescheduled scheduleOf
  split_ifs <;> simp

theorem missed_entry (i : Nat) (e : ScheduleEntry) (s : State) : (missed i e s).bureau.nextSeq = s.bureau.nextSeq + 1 ∧ (missed i e s).tim.pending = s.tim.pending := ⟨rfl, rfl⟩

theorem exec_benchScheduleAction {i : Nat} {e : ScheduleEntry} {s : State} (entry : scheduleOf s i = some e) : exec (.benchScheduleAction i) s =
    done (ifEvent (s.hif.walec == .running && e.retrySince.isNone) (scheduleAct i e (advanceToNs e.base e.first s)) s) := by
  change execBenchScheduleAction i s = _
  simp only [execBenchScheduleAction, entry]

/-- Settles O40: the exit through the state it stays in, the schedule through the request's status. -/
theorem benchAndSchedule : Obligations.BenchAndSchedule := by
  unfold Obligations.BenchAndSchedule
  refine ⟨fun s leaving ready none latched => leads_event rfl (by simp [leaving, ready, none, latched]) (by simp [plan]), fun u s since leaving none => ?timeout,
    fun i e s u r running entry fresh hu hr => ⟨fun ok => ?ok, fun busy => ?busy, fun notOk notBusy => ?other⟩, fun i e w s entry waiting => ?missed⟩
  case timeout =>
    let t := advanceTo0 (u + 1500000000) s
    let v := logBench 0x22 byWalec { t with walec := { t.walec with cause := some (exitLacks t) } }
    have effect : exec .benchExitTimeout s = done (ifEvent (s.tim.bench == .leaving && (pendingMode s).isNone) (stayInBench (assertFault v)) s) := by
      change execBenchExitTimeout s = _
      simp only [execBenchExitTimeout, since]
      rfl
    obtain ⟨tim, pins, walec⟩ := stayInBench_tim (assertFault v)
    have pending : v.tim.pending = s.tim.pending := (advanceTo0_keeps (K := [.bases]) _ s (by decide) (Keeps.refl _ _)).same.tim_field (by decide) (·.pending) (fun _ => rfl)
    have cause : v.walec.cause = some (exitLacks t) := rfl
    refine leads_event effect (by simp [leaving, none]) ?_
    simp only [settle_frame, tim, pins, walec, assertFault_frame, assertFault_fault]
    exact ⟨trivial, trivial, pending, trivial, cause⟩
  case ok =>
    refine leads_event (exec_benchScheduleAction entry) (by simp [running, fresh]) ?_
    rw [← hu, scheduleAct, ← hr, if_pos ok, scheduleOf_settle, scheduleOf_rescheduled]
  case busy =>
    refine leads_event (exec_benchScheduleAction entry) (by simp [running, fresh]) ?_
    rw [← hu, scheduleAct, ← hr, if_neg (by simp [busy]), if_pos busy, scheduleOf_settle]
    simp [scheduleOf, fresh]
  case other =>
    have bureau : u.bureau = s.bureau := by rw [hu]; exact (advanceToNs_keeps (K := [.bases]) _ _ s (by decide) (Keeps.refl _ _)).same.bureau_eq (by decide)
    refine leads_event (exec_benchScheduleAction entry) (by simp [running, fresh]) ?_
    rw [← hu, scheduleAct, ← hr, if_neg notOk, if_neg notBusy]
    simp only [settle_frame, missed_entry, bureau]
    exact ⟨trivial, trivial⟩
  case missed =>
    have effect : exec (.scheduleMissed i) s = done (missed i e (advanceTo0 (w + 10000000000) s)) := by
      change execScheduleMissed i s = _
      simp only [execScheduleMissed, entry, waiting]
    refine leads_done effect ⟨?_, ?_⟩
    · simp only [settle_frame, missed_entry, advanceTo0_frame]
    · rw [scheduleOf_settle, missed, scheduleOf_rescheduled]

/-! ### Row supplies (R576 to R578) -/

theorem mem_requestDomain (on : Bool) (d : Nat) (s : State) : (on, d) ∈ (requestDomain on d s).pwr.queue := by simp [requestDomain]

theorem SameBut.tb0_eq {l : List Part} {s t : State} (h : SameBut l s t) (bases : Part.bases ∉ l) : tb0 t = tb0 s := by simp [tb0, tbNs, baseOf, h.bases_eq bases]

/-- A supply that is to go off (R576). -/
def Supply.leave (now : Nat) (x : Supply) : Supply := if x.state == .off || x.state == .goingOff then x else { x with state := .goingOff, since := now }

theorem Supply.leave_state (now : Nat) (x : Supply) : ((x.leave now).state = .goingOff ∨ (x.leave now).state = .off) ∧ (x.leave now).shed = x.shed ∧
    (x.leave now).failed = x.failed ∧ (x.leave now).failures = x.failures := by
  unfold leave
  split_ifs with h
  · simp only [Bool.or_eq_true, beq_iff_eq] at h
    exact ⟨h.symm, rfl, rfl, rfl⟩
  · exact ⟨.inl rfl, rfl, rfl, rfl⟩

theorem rowOff_pwr (r : Nat) (s : State) : ∃ xs, (rowOff r s).pwr = { s.pwr with supplies := xs } ∧ Tbl.get xs {} r = (supplyOf s r).leave (tb0 s) := by
  have dark := (darkRow_keeps (K := [.sent]) r s (by decide) (Keeps.refl _ _)).same
  have pwr : (darkRow r s).pwr = s.pwr := dark.pwr_eq (by decide)
  have time : tb0 (darkRow r s) = tb0 s := dark.tb0_eq (by decide)
  unfold rowOff supplyOff Supply.leave
  rw [supplyOf_of pwr, time]
  dsimp only
  split_ifs
  · exact ⟨s.pwr.supplies, pwr, rfl⟩
  · exact ⟨_, by rw [setSupply, pwr], Tbl.get_set_self ..⟩

theorem supplyOf_rowOff (r : Nat) (s : State) : supplyOf (rowOff r s) r = (supplyOf s r).leave (tb0 s) := by
  obtain ⟨xs, pwr, own⟩ := rowOff_pwr r s
  rw [supplyOf, pwr]
  exact own

theorem supplyOf_supplyOnAt {since r : Nat} {s : State} (off : (supplyOf s r).state = .off) (free : (supplyOf s r).barred = false) :
    supplyOf (supplyOnAt since r s) r = { supplyOf s r with state := .waiting, since, failed := false } := by
  have sent (os : List Sent) (u : State) : supplyOf (sendAll os u) r = supplyOf u r := supplyOf_of (by simp) r
  rw [supplyOnAt, if_pos (by simp [off, free]), sent, supplyOf_setSupply]

/-- Settles O42: the supply of the row after each command. -/
theorem rowSupplies : Obligations.RowSupplies := by
  unfold Obligations.RowSupplies
  refine ⟨fun r s waiting wanted => leads_event rfl (by simp [waiting, wanted]) ?good, fun r s waiting => leads_event rfl (by simp [waiting]) ?fails,
    fun r s going => leads_event rfl (by simp [going]) ?gone, fun r s failed off free wanted => leads_event rfl (by simp [failed, off, free, wanted]) ?retry,
    fun u r s due heaviest => ?shed, fun r u s low shed off free wanted => ?restored⟩
  case good =>
    have asked (u : State) : supplyOf (requestDomain true (30 + r) u) r = supplyOf u r := rfl
    refine ⟨?_, by simp [requestDomain]⟩
    rw [supplyOf_settle, asked, supplyOf_setSupply]
  case fails =>
    generalize (List.foldl _ 500 _) = ms
    let v := advanceTo0 ((supplyOf s r).since + 1000000 * ms) s
    have own : supplyOf v r = supplyOf s r := supplyOf_of (by simp [v]) r
    let x : Supply := { supplyOf v r with failed := true, failures := tb0 v :: (supplyOf v r).failures
                                          barred := (supplyOf v r).barred || (supplyOf v r).failures.any fun t => tb0 v < t + 600000000000 }
    have effect : failRow r v = log (hw 10) r 0xB5 v.pwr.iPanel (assertFault (rowOff r (setSupply r x v))) := by
      rw [failRow]
      exact if_neg (by simp [own, waiting])
    have same := (failRow_keeps (K := [.ports, .bureau, .pwr, .pins, .sent]) r v (by decide) (Keeps.refl _ _)).same.settle (by decide) (by decide)
    have supply : supplyOf (settle (failRow r v)) r = x.leave (tb0 (setSupply r x v)) := by
      rw [effect, supplyOf_settle, supplyOf_of (t := log _ _ _ _ _) (s := rowOff r (setSupply r x v)) (by simp), supplyOf_rowOff, supplyOf_setSupply]
    have leaving : x.leave (tb0 (setSupply r x v)) = { x with state := .goingOff, since := tb0 (setSupply r x v) } := if_neg (by simp [x, own, waiting])
    change (supplyOf (settle (failRow r v)) r).state = _ ∧ (supplyOf (settle (failRow r v)) r).failed = _ ∧ (settle (failRow r v)).pins.fault = _ ∧
      (supplyOf (settle (failRow r v)) r).failures = tb0 (settle (failRow r v)) :: _
    rw [supply, leaving, same.tb0_eq (by decide), effect]
    simp only [settle_frame, log_frame, assertFault_fault]
    exact ⟨trivial, rfl, trivial, by rw [← own]⟩
  case gone =>
    let v := advanceTo0 ((supplyOf s r).since + 40000000) s
    have own : supplyOf v r = supplyOf s r := supplyOf_of (by simp [v]) r
    have off : (groupOff r (setSupply r { supplyOf v r with state := .off } v)).pwr = (setSupply r { supplyOf v r with state := .off } v).pwr :=
      (groupOff_keeps (K := [.tim, .tlk, .sent]) r _ (by decide) (Keeps.refl _ _)).same.pwr_eq (by decide)
    have sent (os : List Sent) (u : State) : (sendAll os u).pwr = u.pwr := by simp
    have pwr : (settle (supplyGone r v)).pwr = { (setSupply r { supplyOf v r with state := .off } v).pwr with
        queue := (setSupply r { supplyOf v r with state := .off } v).pwr.queue ++ [(false, 30 + r)] } := by
      simp only [settle_frame, supplyGone, sent, requestDomain, off]
    change (supplyOf (settle (supplyGone r v)) r).state = _ ∧ _ ∈ (settle (supplyGone r v)).pwr.queue ∧ (supplyOf (settle (supplyGone r v)) r).failed = _
    rw [supplyOf, pwr]
    have supply : Tbl.get (setSupply r { supplyOf v r with state := .off } v).pwr.supplies {} r = { supplyOf v r with state := .off } := Tbl.get_set_self ..
    dsimp only
    rw [supply]
    exact ⟨rfl, by simp, by rw [own]⟩
  case retry =>
    have own : supplyOf (advanceTo0 ((supplyOf s r).failures.headD 0 + 1000000000) s) r = supplyOf s r := supplyOf_of (by simp) r
    rw [supplyOf_settle, supplyOf_supplyOnAt (by rw [own, off]) (by rw [own, free]), own]
    exact ⟨rfl, rfl, rfl⟩
  case shed =>
    have effect : exec .rowShed s = done (shedRow r (advanceTo0 u s)) := by
      change execRowShed s = _
      simp only [execRowShed, due, heaviest, Option.elim_some]
    refine leads_done effect ?_
    generalize advanceTo0 u s = v
    have same := (shedRow_keeps (K := [.bureau, .pwr, .sent, .ports]) r v (by decide) (Keeps.refl _ _)).same.settle (by decide) (by decide)
    let x : Supply := { supplyOf v r with shed := true, sheds := tb0 v :: (supplyOf v r).sheds
                                          barred := (supplyOf v r).barred || (supplyOf v r).sheds.any fun t => tb0 v < t + 600000000000 }
    let w := setSupply r x v
    let y := { w with pwr := { w.pwr with shedSeen := true, shedding := some (tb0 v) } }
    obtain ⟨xs, pwr, own⟩ := rowOff_pwr r y
    have own' : supplyOf y r = x := Tbl.get_set_self ..
    obtain ⟨gone, kept, -, -⟩ := x.leave_state (tb0 y)
    have settled : (settle (shedRow r v)).pwr = (rowOff r y).pwr := by
      have effect : shedRow r v = log (hw 10) r 0xB6 y.pwr.iPanel (rowOff r y) := rfl
      rw [effect]
      simp
    have supply : supplyOf (settle (shedRow r v)) r = x.leave (tb0 y) := by
      rw [supplyOf, settled, pwr, ← own']
      exact own
    have seen : y.pwr.shedSeen = true ∧ y.pwr.shedding = some (tb0 v) := ⟨rfl, rfl⟩
    rw [supply, settled, pwr, same.tb0_eq (by decide)]
    exact ⟨kept, gone, seen.1, seen.2⟩
  case restored =>
    let v := advanceTo0 (max ((supplyOf s r).sheds.headD 0 + 60000000000) (u + 10000000000)) s
    let w := setSupply r { supplyOf s r with shed := false } v
    have own : supplyOf w r = { supplyOf s r with shed := false } := Tbl.get_set_self ..
    have effect : exec (.rowRestored r) s = done (ifEvent ((supplyOf s r).shed && (supplyOf s r).state == .off && !(supplyOf s r).barred && rowWanted s r)
        (log (hw 10) r 0xB7 v.pwr.iPanel (supplyOnAt (tb0 v) r w)) s) := by
      change execRowRestored r s = _
      simp only [execRowRestored, low]
      rfl
    refine leads_event effect (by simp [shed, off, free, wanted]) ?_
    rw [supplyOf_settle, supplyOf_of (t := log _ _ _ _ _) (s := supplyOnAt (tb0 v) r w) (by simp), supplyOf_supplyOnAt (by rw [own, off]) (by rw [own, free]), own]
    exact ⟨rfl, rfl⟩

end Sys2Proof.Machine
end

section
/-! Refutation of O41: the clause of a bound cluster reaches past the twelve rows (R120, R570). -/

namespace Sys2Proof.Machine

/-- A state whose tile strap reads 4, beyond the two bits of R193: fifteen rows are configured, of which the ray engine has twelve. The domain of cluster 12,
which the row of that number would be bound to, is coming up. -/
def strapBeyond : State := { State.reset with tim := { State.reset.tim with tileStrap := 4 }, pwr := { State.reset.pwr with domains := [(12, .coming)] } }

/-- The cluster of no row among the twelve comes up as a spare. -/
theorem clusterUp_strapBeyond : ∃ u, exec (.domainReady ⟨12, []⟩) strapBeyond = done u ∧ clusterOf u 12 = .spare := ⟨_, rfl, by decide⟩

/-- Refutes O41: nothing in the statement bounds the tile strap, and `clusterUp` looks for the row of a cluster among the twelve rows alone. With a strap of 4
row 12 is configured and names cluster 12, which comes up as a spare and not bound. (A strap read from its two pins is at most 3.) -/
theorem not_powerDomainsAndPmbus : ¬ Obligations.PowerDomainsAndPmbus := by
  unfold Obligations.PowerDomainsAndPmbus
  rintro ⟨-, ready, -⟩
  obtain ⟨t, ran, -, -, -, -, -, -, bound⟩ := ready 12 [] strapBeyond (by decide)
  obtain ⟨u, effect, spare⟩ := clusterUp_strapBeyond
  have settled : t = settle u := by simpa [done] using ran.symm.trans effect
  have row : clusterOf t 12 = .bound := bound 12 (by decide) (by decide) (by decide)
  rw [settled, clusterOf_settle, spare] at row
  exact absurd row (by decide)

end Sys2Proof.Machine
end

section
/-! Proofs of O43 and O44: sensors, the stepper and the shutdown sequence (R587 to R603). -/

namespace Sys2Proof.Machine

/-! ### Conversions (R587 to R591, R597, R598) -/

/-- What a conversion's later stages leave of sensor n. -/
structure SensorStays (n : Nat) (s t : State) : Prop where
  reading : (sensorOf t n).reading = (sensorOf s n).reading
  lastValid : (sensorOf t n).lastValid = (sensorOf s n).lastValid
  badRun : (sensorOf t n).badRun = (sensorOf s n).badRun
  state : (sensorOf t n).state = (sensorOf s n).state
  value : (sensorOf t n).value = (sensorOf s n).value
  failSeen : (sensorOf t n).failSeen = (sensorOf s n).failSeen
  sensorFailSeen : t.thm.sensorFailSeen = s.thm.sensorFailSeen

namespace SensorStays

variable {n : Nat} {s t u : State}

theorem refl (n : Nat) (s : State) : SensorStays n s s := ⟨rfl, rfl, rfl, rfl, rfl, rfl, rfl⟩

theorem trans (h : SensorStays n s t) (k : SensorStays n t u) : SensorStays n s u :=
  ⟨k.reading.trans h.reading, k.lastValid.trans h.lastValid, k.badRun.trans h.badRun, k.state.trans h.state, k.value.trans h.value, k.failSeen.trans h.failSeen,
    k.sensorFailSeen.trans h.sensorFailSeen⟩

theorem ite {c : Prop} [Decidable c] (ht : SensorStays n s t) (hu : SensorStays n s u) : SensorStays n s (if c then t else u) := by
  split_ifs
  · exact ht
  · exact hu

theorem foldl {α : Type} {g : State → α → State} (hg : ∀ t x, SensorStays n t (g t x)) : ∀ (xs : List α) s, SensorStays n s (xs.foldl g s)
  | [], s => refl n s
  | x :: xs, s => (hg s x).trans (foldl hg xs _)

/-- What leaves the sensors and their failure bit. -/
theorem of_thm (sensors : t.thm.sensors = s.thm.sensors) (seen : t.thm.sensorFailSeen = s.thm.sensorFailSeen) : SensorStays n s t := by
  have same : sensorOf t n = sensorOf s n := by simp [sensorOf, sensors]
  exact ⟨by rw [same], by rw [same], by rw [same], by rw [same], by rw [same], by rw [same], seen⟩

theorem trackPair (n : Nat) (s : State) : SensorStays n s (trackPair n s) := by
  have own (k : Nat) (since : Option Nat) (b c : Bool) : SensorStays n s
      (setSensor k { sensorOf s k with differSince := since, disagree := b } (setSensor n { sensorOf s n with differSince := since, disagree := c } s)) := by
    by_cases h : n = k
    · subst h
      refine ⟨?_, ?_, ?_, ?_, ?_, ?_, rfl⟩ <;> simp
    · refine ⟨?_, ?_, ?_, ?_, ?_, ?_, rfl⟩ <;> simp [sensorOf_setSensor_ne h]
  unfold Machine.trackPair
  cases (sensorOf s n).partner with
  | none => exact refl n s
  | some k =>
    dsimp only
    split_ifs
    · exact own k _ _ _
    · exact own k none false false

theorem evalGroup (g : Nat) (s : State) : SensorStays n s (evalGroup g s) := by
  have set (x : TempGroup) : SensorStays n s (setTempGroup g x s) := of_thm rfl rfl
  have logged (a b c : Nat) (x : TempGroup) : SensorStays n s (log (hw 11) a b c (setTempGroup g x s)) := of_thm (by simp; rfl) (by simp; rfl)
  have faulted (x : TempGroup) : SensorStays n s (assertFault (setTempGroup g x s)) := of_thm (by simp; rfl) (by simp; rfl)
  unfold Machine.evalGroup
  refine ite (refl n s) ?_
  cases groupReading s g with
  | none =>
    cases (tempGroup s g).invalid with
    | false => exact faulted _
    | true => exact set _
  | some r => exact ite (logged _ _ _ _) (ite (logged _ _ _ _) (set _))

theorem crossing (m : Nat) (s : State) : SensorStays n s (crossing m s) := by
  have dark (ns : List Nat) (u : State) : (ns.foldl (fun t n => if (linkOf t n).state == .up then sendDark n t else t) u).thm = u.thm := by
    refine foldl_fixed (f := fun t : State => t.thm) (fun t k => ?_) ns u
    have sent : (sendDark k t).thm = t.thm := by
      unfold sendDark
      split_ifs <;> rfl
    split_ifs
    · exact sent
    · rfl
  have begun (c g k : Nat) (r : Int) : SensorStays n s (beginShutdown c g k r s) := by
    have faulted : SensorStays n s (assertFault s) := of_thm (by simp) (by simp)
    unfold beginShutdown
    generalize List.range 96 = ns
    have darkened : SensorStays n (assertFault s) (ns.foldl (fun t n => if (linkOf t n).state == .up then sendDark n t else t) (assertFault s)) :=
      of_thm (by rw [dark]) (by rw [dark])
    exact ite (refl n s) ((faulted.trans darkened).trans (of_thm rfl rfl))
  unfold Machine.crossing
  dsimp only
  split
  · exact refl n s
  · exact begun _ _ _ _

theorem releaseHold (s : State) : SensorStays n s (releaseHold s) := by
  refine ite (.trans (of_thm (t := { s with thm := { s.thm with powerupHold := false } }) rfl rfl) (foldl (fun t g => ?_) _ _)) (refl n s)
  have set (x : TempGroup) : SensorStays n t (setTempGroup g x t) := of_thm rfl rfl
  exact ite (refl n t) (set _)

end SensorStays

/-- The sample of a conversion, before the groups (R589). -/
def sensorSampled (n : Nat) (v : Int) (b : Bool) (s : State) : State :=
  if sampleValid (sensorOf s n) v b then goodSample n v s else badSample n (some v) s

theorem sampleStep_stays {n raw : Nat} {v : Int} {b : Bool} {s : State} (conversion : convertRaw n (sensorOf s n) raw = (some v, b)) :
    SensorStays n (sensorSampled n v b s) (sampleStep n raw s) := by
  unfold sampleStep
  dsimp only
  rw [conversion]
  dsimp only
  have groups (u : State) : SensorStays n u ((List.range 8).foldl (fun t g => if (groupsOf s n).contains g || memberless s g then evalGroup g t else t) u) :=
    SensorStays.foldl (fun t g => .ite (.evalGroup g t) (.refl n t)) _ u
  have evaluated := (SensorStays.trackPair n (sensorSampled n v b s)).trans (groups _)
  exact .trans (.ite (evaluated.trans (.crossing n _)) evaluated) (.releaseHold _)

theorem goodSample_sensor (n : Nat) (v : Int) (s : State) : (sensorOf (goodSample n v s) n).reading = v ∧ (sensorOf (goodSample n v s) n).lastValid = some v ∧
    (sensorOf (goodSample n v s) n).badRun = 0 ∧ ((sensorOf s n).state = .valid → (sensorOf (goodSample n v s) n).state = .valid ∧ (sensorOf (goodSample n v s) n).value = v) := by
  have logged (a b c : Nat) (u : State) : sensorOf (log (hw 11) a b c u) n = sensorOf u n := sensorOf_of (by simp) n
  unfold goodSample
  dsimp only
  by_cases valid : ((sensorOf s n).state == .off || (sensorOf s n).state == .valid) = true
  · rw [if_pos valid]
    simp
  · have other : (sensorOf s n).state ≠ .valid := fun h => valid (by simp [h])
    rw [if_neg valid]
    by_cases long : 500 ≤ (sensorOf s n).goodRun + 1
    · rw [if_pos long, logged, sensorOf_setSensor]
      exact ⟨rfl, rfl, rfl, fun h => absurd h other⟩
    · rw [if_neg long, sensorOf_setSensor]
      exact ⟨rfl, rfl, rfl, fun h => absurd h other⟩

theorem failSensor_sensor (n : Nat) (s : State) : (sensorOf (failSensor n s) n).badRun = (sensorOf s n).badRun ∧ (sensorOf (failSensor n s) n).lastValid = (sensorOf s n).lastValid ∧
    (sensorOf (failSensor n s) n).failSeen = true ∧ (failSensor n s).thm.sensorFailSeen = true ∧
    (sensorOf (failSensor n s) n).state = if partnerValid s n then .failed else .held := by
  have seen (a b c : Nat) (u : State) : (log (hw 11) a b c u).thm = u.thm := by simp
  have drawn (u : State) : (drew u).thm = u.thm := rfl
  have failed (x : Sensor) (u : State) : (setSensor n x u).thm.sensorFailSeen = u.thm.sensorFailSeen := rfl
  have sensor (a b c : Nat) (u : State) : sensorOf (log (hw 11) a b c u) n = sensorOf u n := sensorOf_of (seen a b c u) n
  have drawnSensor (u : State) : sensorOf (drew u) n = sensorOf u n := rfl
  have partner (u : State) (h : u.thm.sensors = s.thm.sensors) : partnerValid u n = partnerValid s n := by simp [partnerValid, sensorOf, h]
  unfold failSensor
  dsimp only
  rw [partner _ (by simp)]
  by_cases valid : partnerValid s n = true
  · rw [if_pos valid, if_pos valid, failed, seen, sensorOf_setSensor]
    exact ⟨rfl, rfl, rfl, rfl, rfl⟩
  · rw [if_neg valid, if_neg valid]
    cases (sensorOf s n).lastValid with
    | some v =>
      rw [sensor, sensorOf_setSensor, seen, failed, seen]
      exact ⟨rfl, rfl, rfl, rfl, rfl⟩
    | none =>
      rw [sensor, drawnSensor, sensorOf_setSensor, seen, drawn, failed, seen]
      exact ⟨rfl, rfl, rfl, rfl, rfl⟩

theorem badSample_sensor (n : Nat) (v : Int) (s : State) : (sensorOf (badSample n (some v) s) n).badRun = (sensorOf s n).badRun + 1 ∧
    (sensorOf (badSample n (some v) s) n).lastValid = (sensorOf s n).lastValid ∧
    ((sensorOf s n).state = .valid → (sensorOf s n).badRun < 2 → (sensorOf (badSample n (some v) s) n).state = .valid ∧
      (sensorOf (badSample n (some v) s) n).value = (sensorOf s n).value) ∧
    ((sensorOf s n).state = .valid → 2 ≤ (sensorOf s n).badRun → (sensorOf (badSample n (some v) s) n).failSeen = true ∧ (badSample n (some v) s).thm.sensorFailSeen = true ∧
      (sensorOf (badSample n (some v) s) n).state = if partnerValid s n then .failed else .held) := by
  let u := setSensor n { sensorOf s n with reading := v, badRun := (sensorOf s n).badRun + 1, goodRun := 0 } s
  have own : sensorOf u n = { sensorOf s n with reading := v, badRun := (sensorOf s n).badRun + 1, goodRun := 0 } := sensorOf_setSensor ..
  have partner : partnerValid u n = partnerValid s n := by
    unfold partnerValid
    rw [own]
    cases h : (sensorOf s n).partner with
    | none => rfl
    | some k =>
      by_cases hk : k = n
      · subst hk
        dsimp only
        rw [own]
      · simp only [u, sensorOf_setSensor_ne hk]
  obtain ⟨run, valid, seen, failSeen, state⟩ := failSensor_sensor n u
  have effect : badSample n (some v) s = if ((sensorOf s n).state == .off || (sensorOf s n).state == .valid) && 3 ≤ (sensorOf s n).badRun + 1 then failSensor n u else u := rfl
  by_cases fails : (((sensorOf s n).state == .off || (sensorOf s n).state == .valid) && decide (3 ≤ (sensorOf s n).badRun + 1)) = true
  · rw [effect, if_pos fails, run, valid, seen, failSeen, state, own, partner]
    have many : 3 ≤ (sensorOf s n).badRun + 1 := by simpa using (Bool.and_eq_true_iff.1 fails).2
    exact ⟨rfl, rfl, fun _ few => absurd few (by omega), fun _ _ => ⟨rfl, rfl, rfl⟩⟩
  · rw [effect, if_neg fails, own]
    refine ⟨rfl, rfl, fun h _ => ⟨h, rfl⟩, fun h many => absurd ?_ fails⟩
    have enough : 3 ≤ (sensorOf s n).badRun + 1 := by omega
    simp [h, enough]

/-! ### The stepper (R593 to R596) -/

/-- What the step of group g leaves: the sensors, the time and the other groups. -/
structure StepperStays (gs : List Nat) (s t : State) : Prop where
  sensors : t.thm.sensors = s.thm.sensors
  time : tb0 t = tb0 s
  groups : ∀ m, m ∉ gs → tempGroup t m = tempGroup s m

namespace StepperStays

variable {gs : List Nat} {s t u : State}

theorem refl (gs : List Nat) (s : State) : StepperStays gs s s := ⟨rfl, rfl, fun _ _ => rfl⟩

theorem ite {c : Prop} [Decidable c] (ht : StepperStays gs s t) (hu : StepperStays gs s u) : StepperStays gs s (if c then t else u) := by
  split_ifs
  · exact ht
  · exact hu

theorem step (g : Nat) (s : State) : StepperStays [g] s (stepGroup g s) := by
  have logged (a b c : Nat) (x : TempGroup) : StepperStays [g] s (log (hw 11) a b c (setTempGroup g x s)) := by
    refine ⟨by simp; rfl, rfl, fun m hm => ?_⟩
    have same : tempGroup (log (hw 11) a b c (setTempGroup g x s)) m = tempGroup (setTempGroup g x s) m := tempGroup_of (by simp) m
    rw [same, tempGroup_setTempGroup_ne (by simpa using hm)]
  exact ite (refl [g] s) (ite (logged _ _ _ _) (ite (logged _ _ _ _) (refl [g] s)))

theorem steps : ∀ (gs : List Nat) (s : State), StepperStays gs s (gs.foldl (fun t g => stepGroup g t) s)
  | [], s => refl [] s
  | g :: gs, s => by
    obtain ⟨sensors, time, groups⟩ := steps gs (stepGroup g s)
    have own := step g s
    exact ⟨sensors.trans own.sensors, time.trans own.time, fun m hm =>
      (groups m fun h => hm (List.mem_cons_of_mem _ h)).trans (own.groups m fun h => hm (by simp_all))⟩

theorem sensorOf (h : StepperStays gs s t) (n : Nat) : sensorOf t n = sensorOf s n := by simp [Machine.sensorOf, h.sensors]

theorem groupReading (h : StepperStays gs s t) (g : Nat) : groupReading t g = groupReading s g := by
  have members : membersOf t g = membersOf s g := by simp [membersOf, h.sensorOf]
  have part : contribution t = contribution s := funext fun n => by simp [contribution, h.sensorOf]
  have pair : pairValue t = pairValue s := funext fun n => by simp [pairValue, h.sensorOf, part]
  simp [Machine.groupReading, members, pair]

theorem holdBlock (h : StepperStays gs s t) (g : Nat) : holdBlock t g = holdBlock s g := by simp [Machine.holdBlock, membersOf, h.sensorOf]

theorem sinceChange (h : StepperStays gs s t) (x : TempGroup) (ms : Nat) : sinceChange t x ms = sinceChange s x ms := by simp [Machine.sinceChange, h.time]

end StepperStays

/-- The step of one group among the eight: the groups before it have left it and its sensors, the ones after it leave its result. -/
theorem stepper_group {g : Nat} (hg : g < 8) (s : State) : ∃ u hs, StepperStays hs s u ∧ tempGroup u g = tempGroup s g ∧
    tempGroup ((List.range 8).foldl (fun t g => stepGroup g t) s) g = tempGroup (stepGroup g u) g := by
  obtain ⟨before, after, split⟩ := List.append_of_mem (List.mem_range.2 hg)
  have nodup : (before ++ g :: after).Nodup := split ▸ List.nodup_range
  have fresh : g ∉ before := fun h => (List.nodup_append.1 nodup).2.2 g h g (List.mem_cons_self ..) rfl
  have done : g ∉ after := (List.nodup_cons.1 (List.nodup_append.1 nodup).2.1).1
  have first := StepperStays.steps before s
  refine ⟨before.foldl (fun t g => stepGroup g t) s, before, first, first.groups g fresh, ?_⟩
  rw [split, List.foldl_append, List.foldl_cons]
  exact (StepperStays.steps after _).groups g done

/-- The step of a PANEL group with a valid reading (R593). -/
theorem stepGroup_panel {g : Nat} {s : State} {x : TempGroup} (own : tempGroup s g = x) (panel : x.kind = 2) (valid : x.invalid = false) (read : (groupReading s g).isSome = true) :
    tempGroup (stepGroup g s) g = if x.throttleT ≤ x.reading ∧ 6 < x.curStep ∧ sinceChange s x x.downMs = true then x.stepped false true (tb0 s)
      else if x.reading ≤ x.throttleT - x.hystThrottle ∧ x.curStep < 16 ∧ sinceChange s x x.upMs = true ∧ holdBlock s g = false then x.stepped false false (tb0 s) else x := by
  have clock : stepsClock s x = false := by simp [stepsClock, panel]
  have some : (groupReading s g).isNone = false := by simpa using read
  have set (a b c : Nat) (y : TempGroup) : tempGroup (log (hw 11) a b c (setTempGroup g y s)) g = y := by
    rw [tempGroup_of (t := log _ _ _ _ _) (s := setTempGroup g y s) (by simp), tempGroup_setTempGroup]
  unfold stepGroup
  simp only [own, clock, panel, valid, some]
  simp only [apply_ite (fun t => tempGroup t g), set, own]
  simp [and_assoc]

/-- Settles O43. -/
theorem sensorsAndStepper : Obligations.SensorsAndStepper := by
  unfold Obligations.SensorsAndStepper
  refine ⟨fun n raw v b s clock on conversion good => leads_event rfl (by simp [clock, on]) ?good, fun n raw v b s clock on conversion bad => leads_event rfl (by simp [clock, on]) ?bad,
    fun n k u s since partner differs agree => ?pair, fun s clock => leads_event rfl (by simp [clock]) ⟨?clock, ?steps⟩⟩
  case good =>
    have stays := sampleStep_stays conversion
    rw [sensorSampled, if_pos good] at stays
    obtain ⟨reading, last, run, valid⟩ := goodSample_sensor n v s
    rw [sensorOf_settle, stays.reading, stays.lastValid, stays.badRun, stays.state, stays.value]
    exact ⟨reading, last, run, valid⟩
  case bad =>
    have stays := sampleStep_stays conversion
    rw [sensorSampled, if_neg (by simp [bad])] at stays
    have h := badSample_sensor n v s
    simp only [settle_frame]
    rw [sensorOf_settle, stays.lastValid, stays.badRun, stays.state, stays.value, stays.failSeen, stays.sensorFailSeen]
    exact h
  case pair =>
    let t := advanceTo0 (u + 1000000000) s
    have effect : exec (.pairDisagree n) s = done (ifEvent (pairDiffers s n && !(sensorOf s n).disagree)
        (log (hw 11) n 0xC6 (unsigned 16 (sensorOf s n).value + 65536 * unsigned 16 (sensorOf s k).value)
          (setSensor k { sensorOf s k with disagree := true } (setSensor n { sensorOf s n with disagree := true } t))) s) := by
      change execPairDisagree n s = _
      simp only [execPairDisagree, since, partner]
      rfl
    have logged (a b c m : Nat) (v : State) : sensorOf (log (hw 11) a b c v) m = sensorOf v m := sensorOf_of (by simp) m
    refine leads_event effect (by simp [differs, agree]) ?_
    simp only [sensorOf_settle, logged, sensorOf_setSensor, settle_frame, nextSeq_log]
    refine ⟨?_, trivial, by simp [t, setSensor]⟩
    by_cases same : n = k
    · subst same
      simp
    · rw [sensorOf_setSensor_ne same, sensorOf_setSensor]
  case clock =>
    generalize (List.range 8).foldl (fun t g => stepGroup g t) s = w
    have wanted (c : Nat) : clockWanted (settle { w with thm := { w.thm with clkPending := c } }) = clockWanted w := by
      have groups (g : Nat) : tempGroup (settle { w with thm := { w.thm with clkPending := c } }) g = tempGroup w g := by simp [tempGroup]
      simp only [clockWanted, groups]
    rw [wanted]
    simp
  case steps =>
    intro g x hg hx panel valid read
    obtain ⟨u, gs, stays, own, after⟩ := stepper_group hg s
    have step := stepGroup_panel (own.trans hx.symm) panel valid (by rw [stays.groupReading]; exact read)
    rw [stays.sinceChange, stays.sinceChange, stays.holdBlock, stays.time, ← after] at step
    generalize (List.range 8).foldl (fun t g => stepGroup g t) s = w at *
    have same (c : Nat) : tempGroup (settle { w with thm := { w.thm with clkPending := c } }) g = tempGroup w g := by simp [tempGroup]
    rw [same, step]
    refine ⟨fun hot above due => ?_, fun warm cool below due free => ?_, fun above below => ?_⟩
    · rw [if_pos ⟨hot, above, due⟩]
      simp [TempGroup.stepped]
    · rw [if_neg (fun h => absurd h.1 (by omega)), if_pos ⟨cool, below, due, free⟩]
      simp [TempGroup.stepped]
    · rw [if_neg (fun h => absurd h.1 (by omega)), if_neg (fun h => absurd h.1 (by omega)), hx]

/-! ### The shutdown sequence (R601, R603) -/

theorem trip_trips (s : State) : (trip s).pins.thermTrip = true ∧ (trip s).thm = s.thm := by
  unfold trip
  split_ifs with tripped
  · exact ⟨tripped, rfl⟩
  · simp

theorem readySlot_advance (u : Nat) (s : State) : readySlot (advanceTo0 u s) = readySlot s := by simp [readySlot]

theorem writeRecord_slot {x : Shutdown} {k : Nat} {s : State} (ready : readySlot s = some k) : writeRecord x s =
    { s with thm := { s.thm with shutdown := some { x with step := .writing }, slots := Tbl.set k (.torn []) s.thm.slots } } := by
  simp only [writeRecord, ready]

theorem writeRecord_none {x : Shutdown} {s : State} (none : readySlot s = none) : writeRecord x s =
    trip { s with thm := { s.thm with shutdown := some { x with step := .tripped } } } := by
  simp only [writeRecord, none]

/-- Settles O44: the record begins in the ready slot, or the sequence trips. -/
theorem thermalShutdown : Obligations.ThermalShutdown := by
  unfold Obligations.ThermalShutdown
  have idle {us : Nat} {e : Bool} {x : Shutdown} {s : State} (down : s.thm.shutdown = some x) : exec (.shutdownNorIdle us e) s =
      done (ifEvent (clocked s && x.step == .waitNor && us ≤ s.thm.norProgMax)
        (writeRecord { x with waitUs := us, flags := flagAt (0 < us) 0 + flagAt e 1 } (advanceTo0 (x.origin + 1000 * us) s)) s) := by
    change execShutdownNorIdle us e s = _
    simp only [execShutdownNorIdle, down]
  refine ⟨fun us e x k s down clock wait soon ready => leads_event (idle down) (by simp [clock, wait, soon]) ?idle,
    fun us e x s down clock wait soon none => leads_event (idle down) (by simp [clock, wait, soon]) ?noSlot, fun x k s down clock wait ready => ?timeout,
    fun x k s down clock writing ready => ?written, fun x s down clock => ?trips⟩
  case idle =>
    rw [writeRecord_slot (by rw [readySlot_advance, ready])]
    simp
  case noSlot =>
    rw [writeRecord_none (by rw [readySlot_advance, none])]
    simp only [settle_frame, trip_trips]
    simp
  case timeout =>
    have effect : exec .shutdownNorTimeout s = done (ifEvent (clocked s && x.step == .waitNor) (writeRecord { x with waitUs := s.thm.norProgMax + 100, flags := 1 + 4 }
        (advanceTo0 (x.origin + 1000 * (s.thm.norProgMax + 100)) s)) s) := by
      change execShutdownNorTimeout s = _
      simp only [execShutdownNorTimeout, down]
    refine leads_event effect (by simp [clock, wait]) ?_
    rw [writeRecord_slot (by rw [readySlot_advance, ready])]
    simp
  case written =>
    have effect : exec .shutdownRecordWritten s = done (ifEvent (clocked s && x.step == .writing)
        (trip { s with thm := { s.thm with shutdown := some { x with step := .tripped }, slots := Tbl.set k (.valid x.record) s.thm.slots,
                                           slotReady := s.thm.slotReady.filter (· ≠ k) } }) s) := by
      change execShutdownRecordWritten s = _
      simp only [execShutdownRecordWritten, down, ready]
    refine leads_event effect (by simp [clock, writing]) ?_
    simp only [settle_frame, trip_trips]
    simp
  case trips =>
    have effect : exec .shutdownTripTimeout s = done (ifEvent (clocked s) (trip (advanceTo0 (x.origin + 10000000) s)) s) := by
      change execShutdownTripTimeout s = _
      simp only [execShutdownTripTimeout, down]
    refine leads_event effect clock ?_
    simp only [settle_frame, trip_trips]
    simpa using down

end Sys2Proof.Machine
end

section
/-! Proofs of O45, O50 and O51: the stress ledger, the encoder's pictures and the Bureau's archive. -/

namespace Sys2Proof.Machine

/-! ### The stress update and the ledger's slots (R243, R244, R251) -/

/-- What restoring a word leaves of the drive block: the planes, the bank in use and the model. -/
def outMarks (s : State) : Tbl (Tbl Nat) × Nat × Option AgeModel := (s.out.planes, s.out.workBank, s.out.model)

theorem outMarks_restoreWords (s : State) : outMarks (restoreWords s) = outMarks s := by
  refine (foldl_fixed (f := outMarks) ?_ s.out.toRestore { s with out := { s.out with toRestore := [] } })
  exact fun _ _ => rfl

theorem outMarks_foldBank (x : Nat) (s : State) : outMarks (foldBank x s) = outMarks s := outMarks_restoreWords s

/-- The folded bank of both copies is zero. -/
theorem wb_foldBank (x : Nat) (s : State) {copy : Nat} (h : copy < 2) : Tbl.get (foldBank x s).out.wb [] (2 * copy + x) = [] := by
  have both (w : Tbl (Tbl Nat)) : Tbl.get (Tbl.set (2 * 1 + x) [] (Tbl.set (2 * 0 + x) [] w)) [] (2 * copy + x) = [] := by
    rcases (by omega : copy = 0 ∨ copy = 1) with rfl | rfl
    · rw [Tbl.get_set_ne (by omega), Tbl.get_set_self]
    · rw [Tbl.get_set_self]
  exact both _

theorem compareCopies_of_none {s : State} (h : s.out.model = none) : compareCopies s = s := by
  simp only [compareCopies, h]

/-- The ledger's slot persisted with the long bank of copy 0 (R251). -/
theorem persistLedger_slot (s : State) :
    (persistLedger s).out.sincePersist = 0 ∧ (persistLedger s).out.lb = s.out.lb ∧ ∃ k x, k < 2 ∧ Tbl.find? k (persistLedger s).out.slots = some x ∧
      x.bank = longBank s 0 ∧
      x.head = ledgerHead (s.out.model.elim 0 (·.version)) (s.geom.panelId.getD 0) s.tim.frameCount (tbNs s 1) (bankCrc (longBank s 0)) := by
  unfold persistLedger
  generalize longBank s 0 = b
  extract_lets order k bank x
  have out (m n : Nat) (t : State) : (internalJob m n t).out = t.out := (internalJob_keeps (K := [.dfl]) m n t (by decide) (Keeps.refl _ _)).same.out_eq (by decide)
  refine ⟨by rw [out], by rw [out], k, x, by simp only [k]; split <;> omega, by rw [out]; exact Tbl.find?_set_self .., rfl, rfl⟩

/-! ### The copies of a geometry bank in half 1 (R62, R68) -/

theorem repairBank_idle {file : Bytes} {bad : List Nat} {b : Nat} {s : State} (h : s.geom.badCopies.contains (2 + b) = false) : repairBank file bad b s = s := by
  simp only [repairBank, h, Bool.false_and, Bool.false_eq_true, if_false]

theorem repairCopy_idle {file : Bytes} {bad : List Nat} {s : State} (h : ∀ b < 2, s.geom.badCopies.contains (2 + b) = false) : repairCopy file bad s = s := by
  rw [repairCopy, repairBank_idle (h 0 (by omega)), repairBank_idle (h 1 (by omega))]

/-- A repair of bank b leaves the other bank's copy. -/
structure CopyStays (c : Nat) (f : Bytes) (s t : State) : Prop where
  bank : geomBank t c = geomBank s c
  status : geomFileStatus t f (geomBank s c).version = geomFileStatus s f (geomBank s c).version
  bad : t.geom.badCopies.contains (2 + c) = s.geom.badCopies.contains (2 + c)
  half : Tbl.find? c t.geom.half1 = Tbl.find? c s.geom.half1

theorem copyStays_repairBank {b c : Nat} (h : c ≠ b) (f file : Bytes) (bad : List Nat) (s : State) : CopyStays c f s (repairBank file bad b s) := by
  unfold repairBank
  extract_lets v
  split_ifs
  · refine ⟨rfl, rfl, ?_, Tbl.find?_set_ne h ..⟩
    simp [List.contains_eq_mem, List.mem_filter, h]
  · exact ⟨rfl, rfl, rfl, rfl⟩

/-- The copy of bank b that failed is loaded again. -/
theorem repairBank_repaired {file : Bytes} {b : Nat} {s : State} (hb : s.geom.badCopies.contains (2 + b) = true)
    (hf : geomFileStatus s file (geomBank s b).version = .ok) (hv : leAt file 4 4 = (geomBank s b).version) :
    (repairBank file [] b s).geom.badCopies.contains (2 + b) = false ∧ Tbl.find? b (repairBank file [] b s).geom.half1 = some (geomOfFile file) := by
  have fires : repairBank file [] b s = { s with geom := { s.geom with
      half1 := Tbl.set b (geomOfFile file) s.geom.half1, badCopies := s.geom.badCopies.filter (· ≠ 2 + b) } } := by
    have cond : (s.geom.badCopies.contains (2 + b) && geomFileStatus s file (geomBank s b).version == .ok && leAt file 4 4 = (geomBank s b).version &&
        !([] : List Nat).contains 1) = true := by rw [hb]; simp [hf, hv]
    exact if_pos cond
  rw [fires]
  exact ⟨by simp [List.contains_eq_mem, List.mem_filter], Tbl.find?_set_self ..⟩

theorem repairCopy_repaired {file : Bytes} {b : Nat} {s : State} (h2 : b < 2) (hb : s.geom.badCopies.contains (2 + b) = true)
    (hf : geomFileStatus s file (geomBank s b).version = .ok) (hv : leAt file 4 4 = (geomBank s b).version) :
    (repairCopy file [] s).geom.badCopies.contains (2 + b) = false ∧ Tbl.find? b (repairCopy file [] s).geom.half1 = some (geomOfFile file) := by
  unfold repairCopy
  rcases (by omega : b = 0 ∨ b = 1) with rfl | rfl
  · obtain ⟨bad, half⟩ := repairBank_repaired hb hf hv
    obtain ⟨-, -, badStays, halfStays⟩ := copyStays_repairBank (c := 0) (b := 1) (by decide) file file [] (repairBank file [] 0 s)
    exact ⟨badStays.trans bad, halfStays.trans half⟩
  · obtain ⟨bank, status, badStays, -⟩ := copyStays_repairBank (c := 1) (b := 0) (by decide) file file [] s
    exact repairBank_repaired (badStays.trans hb) (by rw [bank, status, hf]) (by rw [bank, hv])

theorem renewSet_active (kind panel : Nat) (s : State) : (renewSet kind panel s).geom.active = s.geom.active := by
  unfold renewSet
  extract_lets l
  split_ifs <;> rfl

theorem loadGeomFile_active (f : Bytes) (bad : List Nat) (s : State) : (loadGeomFile f bad s).geom.active = s.geom.active := by
  unfold loadGeomFile
  extract_lets b ok g t
  split_ifs
  · exact renewSet_active ..
  · rfl

theorem repairCopy_tim (file : Bytes) (bad : List Nat) (s : State) : (repairCopy file bad s).tim = s.tim :=
  (repairCopy_keeps (K := [.geom]) file bad s (by decide) (Keeps.refl _ _)).same.tim_eq (by decide) (by decide)

/-- Settles O45: what the update, the persisting and the reload write is read off their steps; a repair of one bank leaves the other. -/
theorem stressLedger : Obligations.StressLedger := by
  unfold Obligations.StressLedger
  refine ⟨fun s run out idle => ?_, fun k s run out step quiet => ?_, fun s run ready agree out => ?_, fun f s ded run none ready good => ⟨fun ok version => ?_, fun bad status => ?_⟩,
    fun f b s hb run ready ded bad ok version => ?_⟩
  · refine leads_event rfl (by simp [run, out]) ?_
    simp only [idle, Option.isNone_none, if_true, updateStepOf, advanceTo0_frame, settle_frame, plan_frame]
    exact ⟨trivial, trivial, rfl⟩
  · refine leads_event rfl (by simp [run, out]) ?_
    have folded := outMarks_foldBank (1 - s.out.workBank) s
    simp only [outMarks, Prod.mk.injEq] at folded
    obtain ⟨planes, bank, model⟩ := folded
    have tim : (foldBank (1 - s.out.workBank) s).tim = s.tim :=
      (foldBank_keeps (K := [.out, .dram]) (1 - s.out.workBank) s (by decide) (Keeps.refl _ _)).same.tim_eq (by decide) (by decide)
    simp only [step, Option.isNone_some, Bool.false_eq_true, if_false, updateStepOf, quiet, settle_frame, true_and]
    intro hm
    rw [compareCopies_of_none (model.trans hm)]
    exact ⟨tim, planes, bank, fun copy hc => wb_foldBank _ s hc⟩
  · refine leads_event rfl (by simp [run, ready, agree, out]) ?_
    obtain ⟨since, lb, k, x, hk, hx, bank, head⟩ := persistLedger_slot (advanceTo0 ((tb0 s / hourNs + 1) * hourNs) s)
    have tim := (persistLedger_keeps (K := [.out, .dfl]) (advanceTo0 ((tb0 s / hourNs + 1) * hourNs) s) (by decide) (Keeps.refl _ _)).same.tim_eq (by decide) (by decide)
    simp only [settle_frame]
    exact ⟨since, lb, k, x, hk, hx, bank, head.trans (by simp only [tbNs, baseOf_settle, baseOf_of tim]; rfl)⟩
  · refine leads_event rfl (by simp [run, ready]) ?_
    simp only [repairCopy_idle good, ded, none, bne_self_eq_false, Bool.not_false, Bool.true_or, Option.isNone_none, Bool.and_self, if_true]
    have loads : reloadGeom f [] s = plan (nextFrame (loadGeomFile f [] s)) (.geomSwap (leAt f 4 4)) byWalec (loadGeomFile f [] s) := by
      have fails : copyFails [] s = false := by simp [copyFails]
      have tim : (loadGeomFile f [] s).tim = s.tim := (loadGeomFile_keeps (K := [.geom]) f [] s (by decide) (Keeps.refl _ _)).same.tim_eq (by decide) (by decide)
      simp [reloadGeom, ok, version, fails, nextFrame, tim]
    have tim : (loadGeomFile f [] s).tim = s.tim := (loadGeomFile_keeps (K := [.geom]) f [] s (by decide) (Keeps.refl _ _)).same.tim_eq (by decide) (by decide)
    have frame : nextFrame (loadGeomFile f [] s) = nextFrame s := by simp only [nextFrame, tim]
    rw [loads, frame]
    generalize hu : loadGeomFile f [] s = u at tim
    simp only [settle_frame, plan_frame]
    exact ⟨by simp only [plan, tim], hu ▸ loadGeomFile_active f [] s⟩
  · refine leads_event rfl (by simp [run, ready]) ?_
    simp only [repairCopy_idle good, ded, none, bne_self_eq_false, Bool.not_false, Bool.true_or, Option.isNone_none, Bool.and_self, if_true]
    have skips : reloadGeom f bad s = { s with bot := { s.bot with emmcErrSeen := true } } := by simp [reloadGeom, status]
    rw [skips]
    simp only [settle_frame, and_self]
  · refine leads_event rfl (by simp [run, ready]) ?_
    obtain ⟨badGone, half⟩ := repairCopy_repaired hb bad ok version
    have tim := repairCopy_tim f [] s
    simp only [ded, Bool.false_and, Bool.false_eq_true, if_false, settle_frame]
    exact ⟨badGone, half, congrArg TimState.pending tim⟩

/-! ### The encoder's pictures (R338 to R353) -/

/-- The picture that the encoder takes is the waiting one, coded as an IDR where one is needed or the size changes. -/
theorem startEncode_taken (w : WitnessPicture) (s : State) :
    (startEncode w s).enc.waiting = none ∧ (startEncode w s).enc.mode = .running ∧
      ∃ p, (startEncode w s).enc.picture = some p ∧ p.source = w ∧ p.idr = (s.enc.needIdr || s.enc.lastWide != some w.wide) := by
  unfold startEncode
  extract_lets e idr cycle e1 n k steps e2 reserve t cap p e3
  split_ifs
  · exact ⟨rfl, rfl, p, rfl, rfl, rfl⟩
  · simp only [drew_frame]
    exact ⟨rfl, rfl, p, rfl, rfl, rfl⟩

/-- What delivering an access unit leaves of the encoder. -/
def codedMarks (s : State) : Option EncPicture × Bool × Nat × Nat := (s.enc.picture, s.enc.needIdr, s.enc.pictures, s.enc.qp)

theorem codedMarks_deliverRtp (p : EncPicture) (nals : List Bytes) (s : State) : codedMarks (deliverRtp p nals s) = codedMarks s := by
  unfold deliverRtp
  extract_lets e dest ps stamp packets
  split_ifs <;> rfl

/-- An access unit in the output buffer: its writing and its completion leave the encoder. -/
theorem deliverRing_enc (p : EncPicture) (c : CtuRun) (data : Bytes) (k : Nat) (s : State) :
    (deliverRing p c data k s).enc = { s.enc with ringPos := k + data.length, ringHeld := heldUnits s ++ [(k, data.length)] } := by
  unfold deliverRing
  extract_lets e addr t
  have written : t.enc = { s.enc with ringPos := k + data.length, ringHeld := heldUnits s ++ [(k, data.length)] } :=
    (memWrite_keeps (K := [.dmc, .dram, .ports, .bureau, .pins, .sent]) 3 addr data _ (by decide) (Keeps.refl _ _)).same.enc_eq (by decide)
  clear_value t
  split
  · exact written
  · exact ((complete_keeps (K := [.dmc, .dram, .ports, .queues, .bureau, .pins, .sent]) _ _ _ _ _ _ t (by decide) (Keeps.refl _ _)).same.enc_eq (by decide)).trans written

theorem exec_encodeComplete {c : CodedPicture} {p : EncPicture} {s : State} (hp : s.enc.picture = some p) :
    exec (.encodeComplete c) s = done (ifEvent (refsOk s.enc p c) (finishEncode p c s) s) := by
  change execEncodeComplete c s = _
  simp only [execEncodeComplete, hp]

theorem sameDram_deliverRtp (p : EncPicture) (nals : List Bytes) (e : EncState) (s : State) : SameDram s (deliverRtp p nals { s with enc := e }) :=
  (deliverRtp_keeps (K := [.enc, .sent]) p nals { s with enc := e } (by decide) (Keeps.refl _ _)).same.sameDram (by decide)

/-- A picture that goes out by RTP counts as the coded one and writes no DRAM. -/
theorem finishEncode_rtp (p : EncPicture) (c : CodedPicture) {s : State} (h : s.enc.inForce.dest ≠ 2) :
    codedMarks (finishEncode p c s) = (none, false, wrapAdd 32 s.enc.pictures 1, (codeCtus s.enc p c).qp) ∧ SameDram s (finishEncode p c s) := by
  unfold finishEncode
  extract_lets nals data fill q e
  rw [if_neg h]
  exact ⟨codedMarks_deliverRtp .., sameDram_deliverRtp _ _ _ s⟩

/-- Without room in the output buffer the picture is discarded. -/
theorem finishEncode_full {p : EncPicture} {c : CodedPicture} {s : State} (h : s.enc.inForce.dest = 2) (full : ringPlace s (accessUnit s.enc p c).length = none) :
    finishEncode p c s = discardCoded p s := by
  unfold finishEncode
  extract_lets nals data fill q e
  rw [if_pos h, full]

/-- With room it goes to its place there. -/
theorem finishEncode_ring {p : EncPicture} {c : CodedPicture} {s : State} {k : Nat} (h : s.enc.inForce.dest = 2) (place : ringPlace s (accessUnit s.enc p c).length = some k) :
    (finishEncode p c s).enc.picture = none ∧ (finishEncode p c s).enc.pictures = wrapAdd 32 s.enc.pictures 1 ∧
      (finishEncode p c s).enc.ringPos = k + (accessUnit s.enc p c).length := by
  unfold finishEncode
  extract_lets nals data fill q e
  rw [if_pos h, place]
  simp only [deliverRing_enc]
  exact ⟨rfl, rfl, rfl⟩

/-- Settles O50: each event's step writes the encoder once; delivering the access unit leaves what the coded picture counted. -/
theorem encoderPictures : Obligations.EncoderPictures := by
  unfold Obligations.EncoderPictures
  refine ⟨fun w s waits powered idle rate => ?start, fun c p s hp refs dest => ?rtp, fun c p n s hp refs dest hn => ⟨fun full => ?full, fun k place => ?ring⟩,
    fun u s last dest running => ?report, fun s powered => ?fault⟩
  case start =>
    have effect : exec .encodeStart s = done (ifEvent (domainOn s 18 && s.enc.picture.isNone && 0 < w.rate) (startEncode w s) s) := by
      change execEncodeStart s = _
      simp only [execEncodeStart, waits]
    refine leads_event effect (by simp [powered, idle, rate]) ?_
    simpa only [settle_frame] using startEncode_taken w s
  case rtp =>
    refine leads_event (exec_encodeComplete hp) refs ?_
    obtain ⟨marks, dram⟩ := finishEncode_rtp p c dest
    simp only [codedMarks, Prod.mk.injEq] at marks
    obtain ⟨picture, needIdr, pictures, qp⟩ := marks
    simp only [settle_frame]
    exact ⟨picture, needIdr, pictures, qp, dram.settle⟩
  case full =>
    refine leads_event (exec_encodeComplete hp) refs ?_
    rw [finishEncode_full dest (hn ▸ full)]
    simp only [settle_frame]
    exact ⟨rfl, rfl, rfl, rfl, SameDram.settle fun _ => rfl⟩
  case ring =>
    refine leads_event (exec_encodeComplete hp) refs ?_
    simp only [settle_frame, hn]
    exact finishEncode_ring dest (hn ▸ place)
  case report =>
    have effect : exec .rtcpSenderReport s = done (ifEvent (s.enc.inForce.dest < 2 && s.enc.mode == .running)
        (let t := advanceTo0 (u + 5000000000) s
         let v := { t with enc := { t.enc with lastReport := some (u + 5000000000) } }
         if (ethOf s t.enc.inForce.dest).link then send (.rtcp t.enc.inForce.dest (tbNs t 1) t.enc.rtpStamp t.enc.rtpPackets t.enc.rtpBytes) v else v) s) := by
      change execRtcpSenderReport s = _
      simp only [execRtcpSenderReport, last]
    refine leads_event effect (by simp [dest, running]) ?_
    simp only [advanceTo0_frame]
    constructor
    · split_ifs <;> simp only [settle_frame, send]
    · intro up
      rw [if_pos up]
      exact settle_sent _ (List.mem_append_right _ (by simp [tbNs, send, baseOf]))
  case fault =>
    refine leads_event rfl powered ?_
    simp only [settle_frame, log_frame, nextSeq_log]
    exact ⟨trivial, trivial, trivial, trivial, trivial, trivial⟩

/-! ### The Bureau's archive and the end of a second (R151, R186, R507, R513) -/

/-- With room in the archive's area no segment is overwritten. -/
theorem makeSpace_roomy {need : Nat} {s : State} (h : archiveUse s.bureau.segments + need ≤ 2 ^ 32) : makeSpace need s.bureau.segments s = s := by
  obtain ⟨segments, hl⟩ : ∃ l, l = s.bureau.segments := ⟨_, rfl⟩
  rw [← hl] at h ⊢
  cases segments with
  | nil => exact congrArg (fun l => { s with bureau := { s.bureau with segments := l } }) hl
  | cons x l => exact (if_pos h).trans (congrArg (fun l => { s with bureau := { s.bureau with segments := l } }) hl)

/-- One segment written of the entries that wait, while it fits. -/
theorem archiveOne_written {s : State} {e : Entry} {l : List Entry} (he : waitingEntries s = e :: l)
    (fits : archiveUse s.bureau.segments + (64 + (nextSegmentOf s e (e :: l)).stream.length) ≤ 2 ^ 32) :
    (archiveOne s).bureau = { s.bureau with segments := s.bureau.segments ++ [nextSegmentOf s e (e :: l)], nextSegment := wrapAdd 32 s.bureau.nextSegment 1,
                                            archivedSeq := e.seq + (l.length + 1), gap := false } := by
  have bureau (m n : Nat) : (internalJob m n s).bureau = s.bureau := (internalJob_keeps (K := [.dfl]) m n s (by decide) (Keeps.refl _ _)).same.bureau_eq (by decide)
  simp only [archiveOne, he, makeSpace_roomy fits, bureau, List.length_cons]

/-- Up to 4,096 waiting entries make one segment. -/
theorem archiveAll_once {s : State} (some1 : 1 ≤ unarchived s) (most : unarchived s ≤ 4096) :
    archiveAll s = { archiveOne s with bureau := { (archiveOne s).bureau with lastArchive := tb0 s } } := by
  have one : (unarchived s + 4095) / 4096 = 1 := by omega
  simp only [archiveAll, one, List.range_one, List.foldl_cons, List.foldl_nil]

theorem abortsInSecond_abortSummary (s : State) (r : Nat) : (rowOf (abortSummary s r) r).abortsInSecond = none := by
  unfold abortSummary
  split
  · assumption
  · extract_lets row t
    have cleared : rowOf t r = { rowOf s r with abortsInSecond := none } := rowOf_setRow ..
    split_ifs
    · exact congrArg Row.abortsInSecond cleared
    · exact congrArg Row.abortsInSecond ((rowOf_of (by simp) r).trans cleared)

theorem rowOf_abortSummary_ne {r k : Nat} (h : k ≠ r) (s : State) : rowOf (abortSummary s r) k = rowOf s k := by
  unfold abortSummary
  split
  · rfl
  · extract_lets row t
    have others : rowOf t k = rowOf s k := rowOf_setRow_ne h ..
    split_ifs
    · exact others
    · exact (rowOf_of (by simp) k).trans others

theorem inSecond_sigSummary (s : State) (n : Nat) : (regionOf (sigSummary s n) n).inSecond = none := by
  unfold sigSummary
  split
  · assumption
  · extract_lets row t
    have cleared : regionOf t n = { regionOf s n with inSecond := none } := regionOf_setRegion ..
    split_ifs
    · exact congrArg Region.inSecond cleared
    · exact congrArg Region.inSecond ((regionOf_of (by simp) n).trans cleared)

theorem regionOf_sigSummary_ne {n k : Nat} (h : k ≠ n) (s : State) : regionOf (sigSummary s n) k = regionOf s k := by
  unfold sigSummary
  split
  · rfl
  · extract_lets row t
    have others : regionOf t k = regionOf s k := regionOf_setRegion_ne h ..
    split_ifs
    · exact others
    · exact (regionOf_of (by simp) k).trans others

/-- The counts of the second start over. -/
structure CountsOver (s : State) : Prop where
  refusals : s.bureau.refusals = []
  aborts : ∀ r < 12, (rowOf s r).abortsInSecond = none
  results : ∀ n < 32, (regionOf s n).inSecond = none

theorem secondSummaries_over (s : State) : CountsOver (secondSummaries s) := by
  unfold secondSummaries
  extract_lets t1 t2 t3
  have aborts (r : Nat) (h : r < 12) : (rowOf t1 r).abortsInSecond = none :=
    (foldl_pointwise (get := fun t r => (rowOf t r).abortsInSecond) (h := fun _ _ => none) abortsInSecond_abortSummary
      (fun t n m h => congrArg _ (rowOf_abortSummary_ne h t)) (List.range 12) List.nodup_range s r).trans (if_pos (List.mem_range.2 h))
  have results (n : Nat) (h : n < 32) : (regionOf t2 n).inSecond = none :=
    (foldl_pointwise (get := fun t n => (regionOf t n).inSecond) (h := fun _ _ => none) inSecond_sigSummary
      (fun t n m h => congrArg _ (regionOf_sigSummary_ne h t)) (List.range 32) List.nodup_range t1 n).trans (if_pos (List.mem_range.2 h))
  have ray2 : t2.ray = t1.ray := foldl_fixed (f := State.ray) (fun t n => (sigSummary_keeps (K := [.sig, .bureau]) t n (by decide) (Keeps.refl _ _)).same.ray_eq (by decide)) _ _
  have ray3 : t3.ray = t2.ray := foldl_fixed (f := State.ray) (fun t x => (refusedSummary_keeps (K := [.bureau]) t x (by decide) (Keeps.refl _ _)).same.ray_eq (by decide)) _ _
  have sig3 : t3.sig = t2.sig := foldl_fixed (f := State.sig) (fun t x => (refusedSummary_keeps (K := [.bureau]) t x (by decide) (Keeps.refl _ _)).same.sig_eq (by decide)) _ _
  clear_value t3
  exact ⟨rfl, fun r h => congrArg Row.abortsInSecond (rowOf_of (ray3.trans ray2) r) |>.trans (aborts r h),
    fun n h => congrArg Region.inSecond (regionOf_of sig3 n) |>.trans (results n h)⟩

theorem CountsOver.of_eq {s t : State} (h : CountsOver s) (hb : t.bureau = s.bureau) (hr : t.ray = s.ray) (hs : t.sig = s.sig) : CountsOver t :=
  ⟨hb ▸ h.refusals, fun r hr12 => rowOf_of hr r ▸ h.aborts r hr12, fun n hn => regionOf_of hs n ▸ h.results n hn⟩

theorem exec_archiveSegment (s : State) {u : State}
    (hu : u = (if 4096 ≤ unarchived s then s else advanceTo0 (s.bureau.lastArchive + 600000000000) s)) :
    exec .archiveSegment s = done (ifEvent (u.hif.walec == .running && u.bot.emmcReady && !u.hif.powerDown) (archiveAll u) u) := by
  subst hu
  change execArchiveSegment s = _
  unfold execArchiveSegment
  split_ifs <;> rfl

/-- Settles O51: with room the archive takes one segment of the waiting entries; each summary of the second clears its own count. -/
theorem bureauArchive : Obligations.BureauArchive := by
  unfold Obligations.BureauArchive
  refine ⟨fun u e l s hu run ready up waits least most fits => ?_, fun s => ?_⟩
  · have from0 : u.hif = s.hif ∧ u.bot = s.bot ∧ u.bureau = s.bureau := by
      rw [hu]
      split_ifs <;> simp
    obtain ⟨hif, bot, bureau⟩ := from0
    have cond : (u.hif.walec == .running && u.bot.emmcReady && !u.hif.powerDown) = true := by simp [hif, bot, run, ready, up]
    refine leads_done (exec_archiveSegment s hu) ?_
    rw [cond, ← bureau]
    have written := archiveOne_written waits (by rw [bureau]; exact fits)
    have tim : (archiveOne u).tim = u.tim := (archiveOne_keeps (K := [.dfl, .bureau]) u (by decide) (Keeps.refl _ _)).same.tim_eq (by decide) (by decide)
    have base : tb0 (settle (archiveAll u)) = tb0 u := by
      rw [archiveAll_once least most]
      simp only [tb0, tbNs, baseOf_settle]
      exact congrArg (fun b : Base => b.acc / 2 ^ 40 % 2 ^ 64) (baseOf_of tim 0)
    simp only [ifEvent, if_true, base]
    simp only [archiveAll_once least most, settle_frame, written]
    exact ⟨trivial, trivial, trivial, trivial, trivial⟩
  · have counts := secondSummaries_over (advanceTo0 ((tb0 s / 1000000000 + 1) * 1000000000) s)
    refine leads_done rfl ?_
    generalize secondSummaries (advanceTo0 ((tb0 s / 1000000000 + 1) * 1000000000) s) = u at counts
    have settled : CountsOver (settle (if u.hif.walec == .running then cycleDomains u else u)) := by
      split_ifs
      · have same := (cycleDomains_keeps (K := [.pwr, .spr]) u (by decide) (Keeps.refl _ _)).same
        exact counts.of_eq (by simp only [settle_frame]; exact same.bureau_eq (by decide)) (by simp only [settle_frame]; exact same.ray_eq (by decide))
          (by simp only [settle_frame]; exact same.sig_eq (by decide))
      · exact counts.of_eq (by simp only [settle_frame]) (by simp only [settle_frame]) (by simp only [settle_frame])
    exact ⟨settled.refusals, settled.aborts, settled.results⟩

end Sys2Proof.Machine
end

section
/-! Proofs of O46: the commands of the 2D engine (R95, R97, R359 to R377). -/

namespace Sys2Proof.Machine

/-! ### Bytes that no write of a list reaches -/

theorem readByte_foldl_writeBytes {α : Type} {f : α → Nat} {g : α → Bytes} {c : Nat} (xs : List α) (h : ∀ x ∈ xs, c < f x ∨ f x + (g x).length ≤ c) (m : List Host.Cell) :
    readByte (xs.foldl (fun m x => writeBytes (f x) (g x) m) m) c = readByte m c := by
  induction xs generalizing m with
  | nil => rfl
  | cons x xs ih =>
    exact (ih (fun y hy => h y (List.mem_cons_of_mem _ hy)) _).trans (readByte_writeBytes_outside _ _ _ _ (h x (List.mem_cons_self ..)))

/-! ### Running a command (R365, R371, R377) -/

theorem rowsUntilPoison_sub {s : State} {c : Bytes} : ∀ {rows : List Nat} {b : Nat}, b ∈ rowsUntilPoison s c rows → b ∈ rows
  | [], _, h => h
  | r :: rs, b, h => by
    unfold rowsUntilPoison at h
    split_ifs at h
    · rw [List.mem_singleton.1 h]
      exact List.mem_cons_self ..
    · rcases List.mem_cons.1 h with rfl | h
      · exact List.mem_cons_self ..
      · exact List.mem_cons_of_mem _ (rowsUntilPoison_sub h)

theorem mem_rowOrder {c : Bytes} {b : Nat} (h : b ∈ rowOrder c) : b < (dstRect c).h := by
  unfold rowOrder at h
  extract_lets r rows at h
  split_ifs at h
  · exact List.mem_range.1 (List.mem_reverse.1 h)
  · exact List.mem_range.1 h

/-- The rows that a run writes are rows of the rectangle. -/
theorem runRows_lt {s : State} {c : Bytes} {n b : Nat} (h : b ∈ rowsUntilPoison s c ((rowOrder c).take n)) : b < (dstRect c).h :=
  mem_rowOrder (List.mem_of_mem_take (rowsUntilPoison_sub h))

theorem runCommand_same (s : State) (c : Bytes) (n : Nat) : SameBut [.dmc, .dram] s (runCommand s c n).1 :=
  (runCommand_keeps (K := [.dmc, .dram]) s c n (by decide) (Keeps.refl _ _)).same

theorem runCommand_clean {s : State} {c : Bytes} (n : Nat) (h : ∀ b < (dstRect c).h, rowPoisoned s c b = false) : (runCommand s c n).2.2 = false :=
  List.any_eq_false.2 fun b hb => by simp [h b (runRows_lt hb)]

/-- A run writes the pixels of the rectangle's rows and no other byte. -/
theorem readByte_runCommand {s : State} {c : Bytes} (n : Nat) {a : Nat}
    (h : ∀ b < (dstRect c).h, ∀ w ∈ rowWrites s c b, a < w.1 ∨ w.1 + w.2.length ≤ a) : readByte (runCommand s c n).1.dmc.mem a = readByte s.dmc.mem a := by
  unfold runCommand
  extract_lets rows t
  have noted : (noteMarks 4 (rows.flatMap (rowLines c)).eraseDups s).dmc.mem = s.dmc.mem :=
    (noteMarks_keeps (K := [.dmc]) 4 (rows.flatMap (rowLines c)).eraseDups s (by decide) (Keeps.refl _ _)).same.mem_eq (by decide)
  simp only [t, foldl_store_mem, noted]
  refine readByte_foldl_writeBytes _ (fun w hw => ?_) _
  obtain ⟨b, hb, hw⟩ := List.mem_flatMap.1 hw
  exact h b (runRows_lt hb) w hw

/-! ### The end of a job (R370) -/

/-- What completing a job makes of the engine: the completion itself leaves it. -/
theorem completeJob_blt (id : Nat) (j : BltJob) (fail : Option (Nat × Nat × Nat)) (s : State) : (completeJob id j fail s).blt = { s.blt with
    jobs := Tbl.erase id s.blt.jobs, waiting := if j.next = j.count then s.blt.waiting else Tbl.erase j.queue s.blt.waiting
    jobCount := if completes s j.queue j.gen then wrapAdd 32 s.blt.jobCount 1 else s.blt.jobCount
    errorCount := if fail.elim 0 (·.1) = 0 then s.blt.errorCount else satAdd 16 s.blt.errorCount 1
    errorSeen := s.blt.errorSeen || !decide (fail.elim 0 (·.1) = 0) } := by
  unfold completeJob
  extract_lets fence code ok t b u body
  refine ((complete_keeps (K := [.dmc, .dram, .ports, .queues, .bureau, .pins, .sent]) _ _ _ _ _ _ u (by decide) (Keeps.refl _ _)).same.blt_eq (by decide)).trans ?_
  simp only [u, b, ok, code]

/-- A job that fails advances no fence. -/
theorem completeJob_fences {id : Nat} {j : BltJob} {code k r : Nat} (h : code ≠ 0) (s : State) : (completeJob id j (some (code, k, r)) s).cmp = s.cmp := by
  unfold completeJob
  extract_lets fence code' ok t b u body
  refine ((complete_keeps (K := [.dmc, .dram, .ports, .queues, .bureau, .pins, .sent]) _ _ _ _ _ _ u (by decide) (Keeps.refl _ _)).same.cmp_eq (by decide)).trans ?_
  have failed : ¬ ok := h
  simp only [u, t, if_neg failed]

/-- What a command's end leaves of the scoreboard. -/
def boardMarks (s : State) : Tbl Flight × Nat := (s.blt.flight, s.blt.commands)

theorem boardMarks_completeJob (id : Nat) (j : BltJob) (fail : Option (Nat × Nat × Nat)) (s : State) : boardMarks (completeJob id j fail s) = boardMarks s := by
  simp only [boardMarks, completeJob_blt]

theorem boardMarks_endOfCommand (f : Flight) (s : State) : boardMarks (endOfCommand f s) = boardMarks s := by
  unfold endOfCommand
  extract_lets b t
  have cancelled : boardMarks t = boardMarks s := by
    unfold t
    split_ifs <;> rfl
  split
  · exact cancelled
  · extract_lets job u
    split_ifs
    · exact (boardMarks_completeJob ..).trans cancelled
    · exact cancelled

theorem boardMarks_failOfCommand (f : Flight) (code rows : Nat) (s : State) : boardMarks (failOfCommand f code rows s) = boardMarks s := by
  unfold failOfCommand
  split
  · rfl
  · exact boardMarks_completeJob ..

theorem boardMarks_releaseFlight {s t : State} (h : t.blt = s.blt) (id : Nat) :
    boardMarks (releaseFlight id t) = (Tbl.erase id s.blt.flight, wrapAdd 32 s.blt.commands 1) := by
  simp only [boardMarks, releaseFlight, h]

/-- A command that ends leaves the scoreboard and counts. -/
theorem boardMarks_endCommand (id : Nat) (f : Flight) (s : State) : boardMarks (endCommand id f s) = (Tbl.erase id s.blt.flight, wrapAdd 32 s.blt.commands 1) := by
  unfold endCommand
  split
  · exact boardMarks_releaseFlight ((fillBack_keeps (K := [.cmp, .dmc, .bureau]) _ _ s (by decide) (Keeps.refl _ _)).same.blt_eq (by decide)) id
  · extract_lets r t
    have released := boardMarks_releaseFlight (id := id) ((runCommand_same s f.cmd (f.cancelled.getD f.dst.h)).blt_eq (by decide))
    split_ifs
    · exact (boardMarks_failOfCommand ..).trans released
    · exact (boardMarks_endOfCommand ..).trans released

/-- A command of a job that goes on, whose rows read no poison. -/
theorem endCommand_clean {id : Nat} {f : Flight} {s : State} {j : BltJob} (hg : f.group = none) (hj : Tbl.find? f.job s.blt.jobs = some j)
    (more : j.ended + 1 ≠ j.count) (whole : f.cancelled = none) (hd : f.dst = dstRect f.cmd) (clean : ∀ b < f.dst.h, rowPoisoned s f.cmd b = false) :
    endCommand id f s = { releaseFlight id (runCommand s f.cmd f.dst.h).1 with blt :=
      { (releaseFlight id (runCommand s f.cmd f.dst.h).1).blt with jobs := Tbl.set f.job { j with ended := j.ended + 1 } s.blt.jobs } } := by
  have unpoisoned := runCommand_clean f.dst.h (hd ▸ clean)
  have blt := (runCommand_same s f.cmd f.dst.h).blt_eq (by decide)
  have jobs : (releaseFlight id (runCommand s f.cmd f.dst.h).1).blt.jobs = s.blt.jobs := by simp only [releaseFlight, blt]
  have count : ({ j with ended := j.ended + 1 } : BltJob).count = j.count := rfl
  simp only [endCommand, hg, whole, Option.getD_none, unpoisoned, Bool.false_eq_true, if_false, endOfCommand, Option.isSome_none, jobs, hj, Nat.add_zero, count, more]

/-! ### A fault of the engine (R371) -/

theorem flight_faultCommand (s : State) (x : Nat × Flight) : (faultCommand s x).blt.flight = Tbl.erase x.1 s.blt.flight := by
  unfold faultCommand
  split
  · rfl
  · extract_lets r
    have released := boardMarks_releaseFlight (id := x.1) ((runCommand_same s x.2.cmd (freeBelow s (x.2.dst.h + 1))).blt_eq (by decide))
    have marks := (boardMarks_failOfCommand x.2 9 r.2.1 (releaseFlight x.1 r.1)).trans released
    exact congrArg Prod.fst marks

theorem Tbl.mem_keys_of_find? {α : Type} {k : Nat} {v : α} : ∀ {t : Tbl α}, Tbl.find? k t = some v → k ∈ t.map (·.1)
  | e :: r, h => by
    by_cases hk : e.1 = k
    · simp [hk]
    · simp only [Tbl.find?, hk, if_false] at h
      exact List.mem_cons_of_mem _ (Tbl.mem_keys_of_find? h)

/-- After the faults of a list of entries none of its keys is in flight. -/
theorem flight_foldl_faultCommand (k : Nat) : ∀ (xs : List (Nat × Flight)) (s : State), (k ∈ xs.map (·.1) ∨ Tbl.find? k s.blt.flight = none) →
    Tbl.find? k (xs.foldl faultCommand s).blt.flight = none
  | [], s, h => h.resolve_left (List.not_mem_nil)
  | x :: xs, s, h => by
    refine flight_foldl_faultCommand k xs (faultCommand s x) ?_
    rw [flight_faultCommand]
    rcases h with h | h
    · rcases List.mem_cons.1 h with rfl | h
      · exact .inr (Tbl.find?_erase_self ..)
      · exact .inl h
    · exact .inr (find?_erase_of_none h)

theorem flight_allFaulted (s : State) (k : Nat) : Tbl.find? k (s.blt.flight.foldl faultCommand s).blt.flight = none := by
  refine flight_foldl_faultCommand k s.blt.flight s ?_
  cases h : Tbl.find? k s.blt.flight with
  | none => exact .inr rfl
  | some f => exact .inl (Tbl.mem_keys_of_find? h)

/-! ### Issuing (R95, R359, R368, R371) -/

/-- The command that a queue whose entries are well formed comes to: it ends its job with the error of its checks, or is issued. -/
theorem nextCommand_fetched {q id : Nat} {h : Option Bytes} {j : BltJob} {c : Bytes} {s : State} (hj : issuingJob s q = some (id, j))
    (entries : (s.blt.jobs.any fun j => j.2.queue == q && !bltEntryOk j.2.entry) = false) (none1 : Tbl.find? q s.blt.waiting = none)
    (hc : fetchCommand s j h = some c) :
    nextCommand q h s = if cmdError s c ≠ 0 then completeJob id j (some (cmdError s c, j.next, 0)) s else issueCommand id j c s := by
  have formed : List.find? (fun j : Nat × BltJob => j.2.queue = q && !bltEntryOk j.2.entry) s.blt.jobs = none :=
    List.find?_eq_none.2 fun x hx => by simpa using List.any_eq_false.1 entries x hx
  unfold nextCommand
  simp only [hj, Option.isNone_some, Bool.false_eq_true, if_false, formed, none1, Option.orElse_none, hc]

/-- A command without SUPERSEDE that meets no conflict goes into flight; one that must wait is kept. -/
theorem issueCommand_plain {c : Bytes} (h : bit (u8 c 1) 0 = false) (id : Nat) (j : BltJob) (s : State) :
    issueCommand id j c s = if mustWait s c then { s with blt := { s.blt with waiting := Tbl.set j.queue c s.blt.waiting } }
      else { s with blt := { s.blt with
        waiting := Tbl.erase j.queue s.blt.waiting, nextCmd := s.blt.nextCmd + 1, jobs := Tbl.set id { j with next := j.next + 1 } s.blt.jobs
        flight := Tbl.set s.blt.nextCmd { queue := j.queue, job := id, index := j.next, cmd := c, dst := dstRect c, src := srcRect c } s.blt.flight } } := by
  unfold issueCommand
  simp only [h, Bool.false_eq_true, if_false]

/-- The turn passes to queue q. -/
def turnTo (q : Nat) (s : State) : State := { s with blt := { s.blt with last := q } }

theorem cmdError_turnTo (q : Nat) (s : State) (c : Bytes) : cmdError (turnTo q s) c = cmdError s c := rfl

theorem mustWait_turnTo (q : Nat) (s : State) (c : Bytes) : mustWait (turnTo q s) c = mustWait s c := rfl

/-- The issue of the queue in turn. -/
theorem exec_bltCommandIssue {q : Nat} {h : Option Bytes} {s : State} (hq : q ≠ 16384) (runs : bltRuns s = true) (flat : flattenReady s = false)
    (turn : inTurn s.blt.last (bltReady s) = some q) :
    exec (.bltCommandIssue q h) s = done (nextCommand q h (turnTo q s)) := by
  change execBltCommandIssue q h s = _
  simp only [execBltCommandIssue, hq, if_false, runs, flat, turn, Bool.not_false, Bool.and_self, beq_self_eq_true, ifEvent, if_true, turnTo]

/-- The issue of the internal queue. -/
theorem exec_flatten (h : Option Bytes) (s : State) : exec (.bltCommandIssue 16384 h) s = done (ifEvent (bltRuns s) (nextFlatten s) s) := rfl

theorem nextFlatten_waits {s : State} (h : flattenWaits s = true) : nextFlatten s = s := by
  unfold nextFlatten
  split
  · rfl
  · rw [if_pos h]

/-- Settles O46: an issue is read off its step; a command's end writes its rows, leaves the scoreboard and, of a job that goes on,
counts in the job alone. -/
theorem blitter : Obligations.Blitter := by
  unfold Obligations.Blitter
  refine ⟨fun h g r s runs queue free => ?flatten, fun h s waits => ?wait,
    fun q h id j c s hq runs flat turn hj entries none1 hc => ⟨fun ok plain room clear => ?issue, fun ok plain blocked => ?keep, fun bad => ?refuse⟩,
    fun k f s hf powered => ⟨?board, fun j hg hj more whole hd clean => ?rows⟩, fun s powered => ?fault, fun g s runs => ?restart⟩
  case flatten =>
    refine leads_event (exec_flatten h s) runs ?_
    have issued : nextFlatten s = { s with blt := { s.blt with
        internal := r, nextCmd := s.blt.nextCmd + 1, flight := Tbl.set s.blt.nextCmd (flattenFlight s g) s.blt.flight } } := by
      simp only [nextFlatten, queue, free, Bool.false_eq_true, if_false]
    rw [issued]
    simp only [settle_frame]
    exact ⟨trivial, ⟨_, Tbl.find?_set_self .., rfl⟩, trivial, SameDram.settle fun _ => rfl⟩
  case wait =>
    refine leads_done (exec_flatten h s) ?_
    rw [nextFlatten_waits waits, ifEvent, ite_self]
    exact ⟨by simp only [settle_frame], SameDram.settle fun _ => rfl⟩
  case issue =>
    refine leads_done (exec_bltCommandIssue hq runs flat turn) ?_
    have free : mustWait s c = false := by simp [mustWait, room, clear]
    have next := nextCommand_fetched (s := turnTo q s) hj entries none1 hc
    rw [cmdError_turnTo, if_neg (not_not.2 ok), issueCommand_plain plain, mustWait_turnTo, if_neg (by simpa using free)] at next
    rw [next]
    simp only [settle_frame]
    exact ⟨Tbl.find?_set_self .., Tbl.find?_set_self .., rfl, SameDram.settle fun _ => rfl⟩
  case keep =>
    refine leads_done (exec_bltCommandIssue hq runs flat turn) ?_
    have waits : mustWait s c = true := by simpa [mustWait] using blocked
    have next := nextCommand_fetched (s := turnTo q s) hj entries none1 hc
    rw [cmdError_turnTo, if_neg (not_not.2 ok), issueCommand_plain plain, mustWait_turnTo, if_pos waits] at next
    rw [next]
    simp only [settle_frame]
    exact ⟨Tbl.find?_set_self .., rfl, rfl, SameDram.settle fun _ => rfl⟩
  case refuse =>
    refine leads_done (exec_bltCommandIssue hq runs flat turn) ?_
    have next := nextCommand_fetched (s := turnTo q s) hj entries none1 hc
    rw [cmdError_turnTo, if_pos bad] at next
    rw [next]
    simp only [settle_frame, completeJob_blt, completeJob_fences bad, Option.elim_some]
    exact ⟨Tbl.find?_erase_self .., rfl, by simp [bad], rfl, if_neg bad, rfl⟩
  case board =>
    have effect : exec (.bltCommandEnd k) s = done (ifEvent (domainOn s 19) (endCommand k f s) s) := by
      change execBltCommandEnd k s = _
      simp only [execBltCommandEnd, hf]
    refine leads_event effect powered ?_
    have marks := boardMarks_endCommand k f s
    simp only [boardMarks, Prod.mk.injEq] at marks
    simp only [settle_frame, marks]
    exact ⟨Tbl.find?_erase_self .., trivial⟩
  case rows =>
    have effect : exec (.bltCommandEnd k) s = done (ifEvent (domainOn s 19) (endCommand k f s) s) := by
      change execBltCommandEnd k s = _
      simp only [execBltCommandEnd, hf]
    refine leads_event effect powered ?_
    rw [endCommand_clean hg hj more whole hd clean]
    have hif : (runCommand s f.cmd f.dst.h).1.hif.queues = s.hif.queues := (runCommand_same s f.cmd f.dst.h).queues_eq (by decide)
    simp only [settle_frame, settle_hif]
    exact ⟨fun a ha => readByte_runCommand _ (hd ▸ ha), Tbl.find?_set_self .., hif⟩
  case fault =>
    refine leads_event rfl powered ?_
    have gone := flight_allFaulted s
    simp only [settle_frame, log_frame]
    exact ⟨trivial, trivial, gone⟩
  case restart =>
    refine leads_event rfl runs ?_
    simp only [settle_frame]
    exact ⟨trivial, trivial, SameDram.settle fun _ => rfl⟩

end Sys2Proof.Machine
end

section
/-! Proofs of O47: jobs of the deflate engine (R385 to R400). -/

namespace Sys2Proof.Machine

/-! ### The end of a job (R385, R393, R400) -/

/-- The state that a job's completion finds: output, slot, fence and counters are written. -/
structure JobEnded (lane : Nat) (j : DflJob) (r : DflResult) (s u : State) : Prop where
  lanes : u.dfl.lanes = Tbl.erase lane s.dfl.lanes
  jobs : u.dfl.jobs = if completes s j.queue j.gen then wrapAdd 32 s.dfl.jobs 1 else s.dfl.jobs
  inBytes : u.dfl.inBytes = s.dfl.inBytes + r.inUsed
  outBytes : u.dfl.outBytes = s.dfl.outBytes + r.out.length
  slot : j.early = 0 → dflSlot u (u8 j.desc 3) = r.slot
  queue : queueOf u j.queue = queueOf s j.queue
  bytes : ∀ a, (a < leAt j.desc 24 8 ∨ leAt j.desc 24 8 + r.out.length ≤ a) → readByte u.dmc.mem a = readByte s.dmc.mem a

/-- A job's end is its completion on such a state. -/
theorem endDfl_completes (lane : Nat) (j : DflJob) (r : DflResult) (s : State) :
    ∃ u, JobEnded lane j r s u ∧ endDfl lane j r s = complete j.queue j.slot j.gen 0 (dflBody r (u8 j.entry 9) (leAt j.entry 16 8)) 1 u := by
  unfold endDfl
  extract_lets fence d s1 s2 k s3 s4 src u
  refine ⟨u, ?_, rfl⟩
  have out : SameBut [.dram] s s1 := (Keeps.ite (l := [.dram]) (Keeps.refl _ _) (store_keeps _ _ s (by decide) (Keeps.refl _ _))).same
  have written (a : Nat) (h : a < leAt j.desc 24 8 ∨ leAt j.desc 24 8 + r.out.length ≤ a) : readByte s1.dmc.mem a = readByte s.dmc.mem a := by
    unfold s1
    split_ifs
    · rfl
    · exact readByte_writeBytes_outside _ _ _ _ h
  have noted : SameBut [.dmc] s1 s2 := (Keeps.ite (l := [.dmc]) (noteMarks_keeps _ _ s1 (by decide) (Keeps.refl _ _)) (Keeps.refl _ _)).same
  have fenced : SameBut [.cmp] s3 s4 := (Keeps.ite (l := [.cmp]) (advanceFence_keeps _ _ s3 (by decide) (Keeps.refl _ _)) (Keeps.refl _ _)).same
  have dfl2 : s2.dfl = s.dfl := (noted.dfl_eq (by decide)).trans (out.dfl_eq (by decide))
  have queues2 : s2.hif.queues = s.hif.queues := (noted.queues_eq (by decide)).trans (out.queues_eq (by decide))
  have lanes2 : s2.dfl.lanes = s.dfl.lanes := congrArg DflState.lanes dfl2
  have lanes3 : s3.dfl.lanes = s.dfl.lanes ∧ s3.hif.queues = s.hif.queues ∧ s3.dmc.mem = s1.dmc.mem ∧ (j.early = 0 → dflSlot s3 k = r.slot) := by
    unfold s3
    split_ifs with early
    · exact ⟨lanes2, queues2, noted.mem_eq (by decide), fun _ => Tbl.get_set_self ..⟩
    · exact ⟨lanes2, queues2, noted.mem_eq (by decide), fun h => absurd h early⟩
  obtain ⟨lanes, queues, mem, slot⟩ := lanes3
  have queue4 : queueOf s4 j.queue = queueOf s j.queue := queueOf_of ((fenced.queues_eq (by decide)).trans queues) _
  have dfl4 := fenced.dfl_eq (by decide)
  clear_value s4
  refine ⟨?_, ?_, rfl, rfl, fun h => ?_, queue4, fun a h => ?_⟩
  · exact congrArg (Tbl.erase lane) ((congrArg DflState.lanes dfl4).trans lanes)
  · simp only [u, completes, queue4, d]
    rfl
  · exact (congrArg (fun x : DflState => Tbl.get x.slots {} k) dfl4).trans (slot h)
  · exact (congrArg (readByte · a) ((fenced.mem_eq (by decide)).trans mem)).trans (written a h)

/-- The job's bytes are its output and the slot of its completion. -/
theorem endDfl_ended {lane : Nat} {j : DflJob} {s : State} (r : DflResult) (done1 : completes s j.queue j.gen = true) {u : State} (hu : JobEnded lane j r s u)
    (body : Bytes) {a : Nat} (h : a < leAt j.desc 24 8 ∨ leAt j.desc 24 8 + r.out.length ≤ a)
    (hq : a < (queueOf s j.queue).cqAddr + 64 * (queueOf s j.queue).cqTail ∨ (queueOf s j.queue).cqAddr + 64 * (queueOf s j.queue).cqTail + 64 ≤ a) :
    readByte (complete j.queue j.slot j.gen 0 body 1 u).dmc.mem a = readByte s.dmc.mem a := by
  obtain ⟨on, gen⟩ : (queueOf u j.queue).state ≠ .off ∧ j.gen = (queueOf u j.queue).gen := by
    rw [hu.queue]
    simpa [completes] using done1
  obtain ⟨dmc, -, -⟩ := complete_current (slot := j.slot) (record := 0) (body := body) (release := 1) on gen
  rw [dmc]
  rw [← hu.queue] at hq
  exact (ringWrite_outside _ _ (length_slotImage ..) u a hq).trans (hu.bytes a h)

theorem complete_dfl (q sqSlot gen record : Nat) (body : Bytes) (release : Nat) (s : State) : (complete q sqSlot gen record body release s).dfl = s.dfl :=
  (complete_keeps (K := [.dmc, .dram, .ports, .queues, .bureau, .pins, .sent]) q sqSlot gen record body release s (by decide) (Keeps.refl _ _)).same.dfl_eq (by decide)

theorem lanes_endDfl (lane : Nat) (j : DflJob) (r : DflResult) (s : State) : (endDfl lane j r s).dfl.lanes = Tbl.erase lane s.dfl.lanes := by
  obtain ⟨u, ended, completed⟩ := endDfl_completes lane j r s
  rw [completed, complete_dfl, ended.lanes]

/-! ### A fault of the engine (R399) -/

theorem lanes_faultDfl (s : State) (x : Nat × DflJob) : (faultDfl s x).dfl.lanes = Tbl.erase x.1 s.dfl.lanes := lanes_endDfl ..

/-- After the faults of a list of jobs no lane of theirs is in use. -/
theorem lanes_foldl_faultDfl (k : Nat) : ∀ (xs : List (Nat × DflJob)) (s : State), (k ∈ xs.map (·.1) ∨ Tbl.find? k s.dfl.lanes = none) →
    Tbl.find? k (xs.foldl faultDfl s).dfl.lanes = none
  | [], s, h => h.resolve_left (List.not_mem_nil)
  | x :: xs, s, h => by
    refine lanes_foldl_faultDfl k xs (faultDfl s x) ?_
    rw [lanes_faultDfl]
    rcases h with h | h
    · rcases List.mem_cons.1 h with rfl | h
      · exact .inr (Tbl.find?_erase_self ..)
      · exact .inl h
    · exact .inr (find?_erase_of_none h)

/-- A job's place among the others by their order. -/
def insertJob (l : List (Nat × DflJob)) (j : Nat × DflJob) : List (Nat × DflJob) :=
  (l.filter fun k => k.2.order < j.2.order) ++ [j] ++ l.filter fun k => j.2.order ≤ k.2.order

theorem mem_insertJob {l : List (Nat × DflJob)} {j x : Nat × DflJob} : x ∈ insertJob l j ↔ x = j ∨ x ∈ l := by
  simp only [insertJob, List.mem_append, List.mem_filter, List.mem_singleton, decide_eq_true_eq]
  have order := Nat.lt_or_ge x.2.order j.2.order
  tauto

theorem mem_foldl_insertJob {x : Nat × DflJob} : ∀ {js l : List (Nat × DflJob)}, x ∈ js ∨ x ∈ l → x ∈ js.foldl insertJob l
  | [], _, h => h.resolve_left (List.not_mem_nil)
  | j :: js, l, h => by
    refine mem_foldl_insertJob (js := js) ?_
    rw [mem_insertJob]
    rcases h with h | h
    · rcases List.mem_cons.1 h with rfl | h
      · exact .inr (.inl rfl)
      · exact .inl h
    · exact .inr (.inr h)

theorem lanes_allFaulted (s : State) (k : Nat) : Tbl.find? k ((s.dfl.lanes.foldl insertJob []).foldl faultDfl s).dfl.lanes = none := by
  refine lanes_foldl_faultDfl k _ s ?_
  cases h : Tbl.find? k s.dfl.lanes with
  | none => exact .inr rfl
  | some j =>
    obtain ⟨x, hx, key⟩ := List.mem_map.1 (Tbl.mem_keys_of_find? h)
    exact .inl (List.mem_map.2 ⟨x, mem_foldl_insertJob (.inl hx), key⟩)

/-! ### The start of a job (R385, R386, R394) -/

theorem exec_dflJobStart {q lane : Nat} {h : Option Bytes} {f : Fetched} {s : State} (hf : (queueOf s q).fetched.head? = some f)
    (hl : ((List.range 4).find? fun l => (Tbl.find? l s.dfl.lanes).isNone) = some lane) (runs : dflRuns s = true) (turn : inTurn s.dfl.last (dflReady s) = some q) :
    exec (.dflJobStart q h) s = done (startDfl q lane f h { s with dfl := { s.dfl with last := q } }) := by
  change execDflJobStart q h s = _
  simp only [execDflJobStart, hf, hl, runs, turn, Bool.true_and, beq_self_eq_true, ifEvent, if_true]

/-- A job whose slot is busy waits. -/
theorem startDfl_waits {q lane : Nat} {h : Option Bytes} {f : Fetched} {s : State} {d : Bytes} (hd : dflDesc s q f.bytes h = some d)
    (early : dflEarly s q f.bytes (some d) = 0 ∨ dflEarly s q f.bytes (some d) = 6) (busy : slotBusy s (u8 d 3) = true) :
    startDfl q lane f h s = { s with dfl := { s.dfl with waiting := Tbl.set q (u8 d 3) s.dfl.waiting } } := by
  simp [startDfl, hd, early, busy]

/-- One whose slot is free starts on the lane. -/
theorem startDfl_starts {q lane : Nat} {h : Option Bytes} {f : Fetched} {s : State} {d : Bytes} (hd : dflDesc s q f.bytes h = some d) (free : slotBusy s (u8 d 3) = false) :
    (∃ j, Tbl.find? lane (startDfl q lane f h s).dfl.lanes = some j ∧ j.queue = q ∧ j.desc = d ∧ j.early = dflEarly s q f.bytes (some d)) ∧
      (queueOf (startDfl q lane f h s) q).fetched = (queueOf s q).fetched.drop 1 ∧ (startDfl q lane f h s).dmc = s.dmc := by
  unfold startDfl
  simp only [hd, free, Bool.and_false, Option.any_some, Bool.false_eq_true, if_false, Option.isNone_some, Bool.false_and, Option.getD_some]
  exact ⟨⟨_, Tbl.find?_set_self .., rfl, rfl, rfl⟩, congrArg Queue.fetched (queueOf_setQueue_self ..), rfl⟩

/-- Settles O47: a start is read off its step; a job's end is its completion on the state that the job leaves. -/
theorem deflate : Obligations.Deflate := by
  unfold Obligations.Deflate
  refine ⟨fun q h f lane s hf hl runs turn => ⟨fun d hd early busy => ?wait, fun d hd free => ?start⟩, fun lane j r s hj oldest hr done1 => ?finish, fun s powered => ?fault,
    fun s j n early => ?early⟩
  case wait =>
    refine leads_done (exec_dflJobStart hf hl runs turn) ?_
    rw [startDfl_waits (s := { s with dfl := { s.dfl with last := q } }) hd early busy]
    simp only [settle_frame, queueOf_settle]
    exact ⟨Tbl.find?_set_self .., trivial, rfl⟩
  case start =>
    refine leads_done (exec_dflJobStart hf hl runs turn) ?_
    obtain ⟨lanes, fetched, dmc⟩ := startDfl_starts (lane := lane) (s := { s with dfl := { s.dfl with last := q } }) hd free
    simp only [settle_frame, queueOf_settle]
    exact ⟨lanes, fetched, SameDram.settle fun a => by rw [dmc]⟩
  case finish =>
    have effect : exec (.dflJobEnd lane) s = done (ifEvent (s.dfl.lanes.all fun l => l.2.queue ≠ j.queue || j.order ≤ l.2.order) (drew (endDfl lane j (runDfl s j (2 ^ 30)) s)) s) := by
      change execDflJobEnd lane s = _
      simp only [execDflJobEnd, hj]
    refine leads_event effect oldest ?_
    rw [← hr]
    obtain ⟨u, ended, completed⟩ := endDfl_completes lane j r s
    rw [completed]
    have slot (k : Nat) (t : State) : dflSlot (settle (drew t)) k = dflSlot t k := by simp [dflSlot]
    simp only [settle_frame, drew_frame, complete_dfl, ended.lanes, ended.jobs, ended.inBytes, ended.outBytes, slot, done1, if_true]
    refine ⟨Tbl.find?_erase_self .., trivial, trivial, trivial, fun early => ?_, fun a h hq => endDfl_ended r done1 ended _ h hq⟩
    rw [dflSlot, complete_dfl]
    exact ended.slot early
  case fault =>
    refine leads_event rfl powered ?_
    have gone := lanes_allFaulted s
    simp only [settle_frame, drew_frame, log_frame]
    exact ⟨trivial, gone⟩
  case early =>
    have result : runDfl s j n = { status := earlyStatus j.early, error := j.early
                                   check := if 4 ≤ j.early ∧ !bit (u8 j.desc 2) 0 ∧ (dflSlot s (u8 j.desc 3)).state ≠ .empty then slotCheck (dflSlot s (u8 j.desc 3)) else checkOf (u8 j.desc 1) []
                                   errBit := freeBelow s (2 ^ 64), slot := dflSlot s (u8 j.desc 3) } := if_pos early
    have refused (k : Nat) : earlyStatus k ≠ .ok := by
      unfold earlyStatus
      split_ifs <;> decide
    rw [result]
    exact ⟨rfl, rfl, rfl, rfl, refused j.early⟩

end Sys2Proof.Machine
end

section
/-! Proofs of O48: pictures and cores of the video decoder (R300 to R331). -/

namespace Sys2Proof.Machine

/-! ### What changes a context's pool alone (R310, R311, R329) -/

/-- A context with another pool and another count of its outputs. -/
def PoolOnly (x y : Ctx) : Prop := ∃ p o, y = { x with pool := p, outputs := o }

namespace PoolOnly

variable {x y z : Ctx}

theorem refl (x : Ctx) : PoolOnly x x := ⟨x.pool, x.outputs, rfl⟩

theorem trans (h : PoolOnly x y) (k : PoolOnly y z) : PoolOnly x z := by
  obtain ⟨p, o, rfl⟩ := h
  obtain ⟨p', o', rfl⟩ := k
  exact ⟨p', o', rfl⟩

theorem ite {c : Prop} [Decidable c] (hy : PoolOnly x y) (hz : PoolOnly x z) : PoolOnly x (if c then y else z) := by
  split_ifs
  · exact hy
  · exact hz

theorem bump (x : Ctx) : PoolOnly x x.bump := by
  unfold Ctx.bump
  split
  · exact refl x
  · exact ⟨_, _, rfl⟩

theorem bumpWhile (c : Ctx → Bool) : ∀ (n : Nat) (x : Ctx), PoolOnly x (x.bumpWhile c n)
  | 0, x => refl x
  | n + 1, x => ite ((bump x).trans (bumpWhile c n x.bump)) (refl x)

theorem onPool (f : Nat → PoolBuffer → PoolBuffer) (x : Ctx) : PoolOnly x (x.onPool f) := ⟨_, x.outputs, rfl⟩

theorem releaseAll (x : Ctx) : PoolOnly x x.releaseAll := bumpWhile _ _ x

theorem cleared (x : Ctx) : PoolOnly x x.releaseAll.clearRefs := (releaseAll x).trans (onPool _ _)

theorem keepPicture (p : DecPicture) (x : Ctx) : PoolOnly x (x.keepPicture p) := by
  unfold Ctx.keepPicture
  extract_lets pic b x1 x2
  have placed : PoolOnly x1 x2 := by
    unfold x2
    split
    · exact ite (refl _) ⟨_, _, rfl⟩
    · exact refl _
  exact (onPool _ _).trans (placed.trans (bumpWhile _ _ x2))

theorem queue_eq (h : PoolOnly x y) : y.queue = x.queue := by obtain ⟨_, _, rfl⟩ := h; rfl

theorem restState_eq (h : PoolOnly x y) : y.restState = x.restState := by obtain ⟨_, _, rfl⟩ := h; rfl

theorem watchdog_eq (h : PoolOnly x y) : y.watchdog = x.watchdog := by obtain ⟨_, _, rfl⟩ := h; rfl

end PoolOnly

theorem queue_discontinue (x : Ctx) : x.discontinue.queue = x.queue := (PoolOnly.cleared x).queue_eq

/-! ### The start of a picture (R305, R306, R308) -/

/-- Core c has taken the head entry of context n's queue. -/
structure Taken (c n : Nat) (s t : State) : Prop where
  core : coreOf t c = { coreOf s c with state := .running, ctx := some n, last := n }
  state : (ctxOf t n).state = if (ctxOf t n).rejected then .unsupported else .decoding
  current : (ctxOf t n).current.isSome
  fetched : ∀ q, (ctxOf s n).queue = some q → (queueOf t q).fetched = (queueOf s q).fetched.drop 1

theorem taken_of {c n q : Nat} {s u : State} {v : Ctx} (hq : q = (ctxOf s n).queue.getD 0) (hu : u.dec = s.dec)
    (hs : v.state = if v.rejected then .unsupported else .decoding) (hc : v.current.isSome) :
    Taken c n s (setCore c { coreOf (setQueue q { queueOf s q with fetched := (queueOf s q).fetched.drop 1 } u) c with state := .running, ctx := some n, last := n }
      (setCtx n v (setQueue q { queueOf s q with fetched := (queueOf s q).fetched.drop 1 } u))) := by
  generalize ht : setQueue q { queueOf s q with fetched := (queueOf s q).fetched.drop 1 } u = t
  have cores : coreOf t c = coreOf s c := coreOf_of (ht ▸ hu) c
  have fetched : (queueOf t q).fetched = (queueOf s q).fetched.drop 1 := ht ▸ congrArg Queue.fetched (queueOf_setQueue_self ..)
  have ctx (x : DecCore) : ctxOf (setCore c x (setCtx n v t)) n = v := ctxOf_setCtx n v t
  refine ⟨by rw [coreOf_setCore, cores], by rw [ctx, hs], by rw [ctx, hc], fun q' h => ?_⟩
  have same : q = q' := by rw [hq, h, Option.getD_some]
  exact same ▸ fetched

theorem startPicture_taken (c n : Nat) (f : Fetched) (au : AccessUnit) (s : State) : Taken c n s (startPicture c n f au s) := by
  unfold startPicture
  extract_lets x0 x u st z p pic
  have queue : x.queue = (ctxOf s n).queue := by
    unfold x
    split_ifs
    · exact queue_discontinue x0
    · rfl
  have dec : (noteEntryRead f.bytes s).dec = s.dec := (noteEntryRead_keeps (K := [.dmc, .bureau]) f.bytes s (by decide) (Keeps.refl _ _)).same.dec_eq (by decide)
  split
  exact taken_of (congrArg (·.getD 0) queue) dec rfl rfl

/-! ### The end of a picture (R307, R326) -/

/-- The context at its picture's end. -/
theorem endPicture_ended (now : Nat) (p : DecPicture) (x : Ctx) :
    (x.endPicture now p).current = none ∧ (x.endPicture now p).state = x.restState ∧ (x.endPicture now p).watchdog = x.watchdog := by
  unfold Ctx.endPicture
  extract_lets ok concealed x1 x2
  have kept : PoolOnly x x2 := (PoolOnly.ite (c := ok) (PoolOnly.keepPicture p x) (PoolOnly.refl x)).trans (PoolOnly.ite (PoolOnly.releaseAll _) (PoolOnly.refl _))
  exact ⟨rfl, kept.restState_eq, kept.watchdog_eq⟩

theorem complete_dec (q sqSlot gen record : Nat) (body : Bytes) (release : Nat) (s : State) : (complete q sqSlot gen record body release s).dec = s.dec :=
  (complete_keeps (K := [.dmc, .dram, .ports, .queues, .bureau, .pins, .sent]) q sqSlot gen record body release s (by decide) (Keeps.refl _ _)).same.dec_eq (by decide)

/-- Finishing a picture frees its core and leaves its context at rest. -/
theorem finishPicture_finished (c n : Nat) (p : DecPicture) (s : State) :
    ctxOf (finishPicture c n p s) n = (ctxOf s n).endPicture (tb0 s) p ∧ (coreOf (finishPicture c n p s) c).state = .idle ∧
      (coreOf (finishPicture c n p s) c).ctx = none ∧
      (coreOf (finishPicture c n p s) c).pictures = wrapAdd 32 (coreOf s c).pictures (if p.status = 0 then 1 else 0) := by
  unfold finishPicture
  extract_lets ok t k used t'
  have core : coreOf t' c = { k with state := .idle, ctx := none, pictures := wrapAdd 32 k.pictures (if ok then 1 else 0), recent := used } := coreOf_setCore ..
  have ctx : ctxOf t' n = (ctxOf s n).endPicture (tb0 s) p := ctxOf_setCtx n _ s
  clear_value t'
  have kept : ∀ u, u = t' ∨ u.dec = t'.dec → ctxOf u n = (ctxOf s n).endPicture (tb0 s) p ∧ (coreOf u c).state = .idle ∧ (coreOf u c).ctx = none ∧
      (coreOf u c).pictures = wrapAdd 32 (coreOf s c).pictures (if p.status = 0 then 1 else 0) := by
    intro u h
    have dec : u.dec = t'.dec := h.elim (· ▸ rfl) id
    rw [ctxOf_of dec, coreOf_of dec, ctx, core]
    exact ⟨rfl, rfl, rfl, rfl⟩
  split
  · exact kept t' (.inl rfl)
  · exact kept _ (.inr (complete_dec ..))

/-! ### A fault of a core (R331) -/

/-- The role and the core of a context, which an abandoned picture leaves. -/
def homeOf (s : State) (n : Nat) : Nat × Nat := ((ctxOf s n).role, (ctxOf s n).core)

theorem homeOf_abandonPicture (k : Nat) (s : State) (n : Nat) : homeOf (abandonPicture k s) n = homeOf s n := by
  unfold abandonPicture
  extract_lets x
  split
  · extract_lets e c
    by_cases h : n = k
    · subst h
      exact (congrArg (fun x : Ctx => (x.role, x.core)) (ctxOf_setCtx n _ s)).trans rfl
    · exact congrArg (fun x : Ctx => (x.role, x.core)) (ctxOf_setCtx_ne h _ s)
  · rfl

/-- A context of the faulted core waits in MOVING. -/
def moveOut (c : Nat) (t : State) (n : Nat) : State := if (ctxOf t n).role ≠ 0 && (ctxOf t n).core = c then setCtx n { ctxOf t n with state := .moving } t else t

theorem ctxOf_moveOut (c : Nat) (t : State) (n : Nat) :
    ctxOf (moveOut c t n) n = (if (ctxOf t n).role ≠ 0 && (ctxOf t n).core = c then { ctxOf t n with state := .moving } else ctxOf t n) := by
  unfold moveOut
  split_ifs
  · exact ctxOf_setCtx ..
  · rfl

theorem ctxOf_moveOut_ne (c : Nat) (t : State) (n m : Nat) (h : m ≠ n) : ctxOf (moveOut c t n) m = ctxOf t m := by
  unfold moveOut
  split_ifs
  · exact ctxOf_setCtx_ne h ..
  · rfl

theorem coreOf_moveOut (c : Nat) (t : State) (n k : Nat) : coreOf (moveOut c t n) k = coreOf t k := by
  unfold moveOut
  split_ifs <;> rfl

/-- A faulted core: it is off its picture, its domain is to be switched off, its self-test is due and its contexts wait. -/
structure CoreOut (c : Nat) (s t : State) : Prop where
  core : (coreOf t c).state = .faulted ∧ (coreOf t c).ctx = none ∧ (coreOf t c).faultSeen
  switch : (false, 16 + c) ∈ t.pwr.queue
  test : 16 + c ∈ t.spr.toTest
  moving : ∀ n < 64, (ctxOf s n).role ≠ 0 → (ctxOf s n).core = c → (ctxOf t n).state = .moving

theorem CoreOut.of_eq {c : Nat} {s t u : State} (h : CoreOut c s t) (hc : coreOf u c = coreOf t c) (hx : ∀ n, ctxOf u n = ctxOf t n)
    (hq : (false, 16 + c) ∈ u.pwr.queue) (ht : u.spr.toTest = t.spr.toTest) : CoreOut c s u :=
  ⟨hc ▸ h.core, hq, ht ▸ h.test, fun n hn role core => by rw [hx, h.moving n hn role core]⟩

/-- The core and its contexts as the fault leaves them. -/
theorem coreOut_marked (c : Nat) {s u : State} (hu : ∀ n, homeOf u n = homeOf s n) {x : DecCore} (hx : x.state = .faulted ∧ x.ctx = none ∧ x.faultSeen) :
    CoreOut c s (log (hw 3) 3 0xA0 c (exhaust 3 (noteFault (16 + c) (requestDomain false (16 + c) ((List.range 64).foldl (moveOut c) (setCore c x u)))))) := by
  generalize ht : (List.range 64).foldl (moveOut c) (setCore c x u) = t
  have core : coreOf t c = x := by
    rw [← ht]
    exact (foldl_fixed (f := fun t => coreOf t c) (fun t n => coreOf_moveOut c t n c) (List.range 64) (setCore c x u)).trans (coreOf_setCore ..)
  have moving (n : Nat) (hn : n < 64) (role : (ctxOf s n).role ≠ 0) (home : (ctxOf s n).core = c) : (ctxOf t n).state = .moving := by
    obtain ⟨v, same, met⟩ := foldl_meets (get := ctxOf) (fun t n m h => ctxOf_moveOut_ne c t n m h) List.nodup_range (s := setCore c x u) (List.mem_range.2 hn)
    have homes := hu n
    simp only [homeOf, Prod.mk.injEq] at homes
    have here : ctxOf v n = ctxOf u n := same
    rw [← ht, met, ctxOf_moveOut, here, if_pos (by simp [homes, role, home])]
  have dec : (log (hw 3) 3 0xA0 c (exhaust 3 (noteFault (16 + c) (requestDomain false (16 + c) t)))).dec = t.dec :=
    (log_keeps (K := [.bureau, .spr, .pwr]) _ _ _ _ _ (by decide) (exhaust_keeps 3 _ (by decide) (noteFault_keeps (16 + c) _ (by decide)
      (requestDomain_keeps false (16 + c) t (by decide) (Keeps.refl _ _))))).same.dec_eq (by decide)
  have pwr : (log (hw 3) 3 0xA0 c (exhaust 3 (noteFault (16 + c) (requestDomain false (16 + c) t)))).pwr = (requestDomain false (16 + c) t).pwr :=
    (log_keeps (K := [.bureau, .spr]) _ _ _ _ _ (by decide) (exhaust_keeps 3 _ (by decide) (noteFault_keeps (16 + c) _ (by decide) (Keeps.refl _ _)))).same.pwr_eq (by decide)
  have test : (exhaust 3 (noteFault (16 + c) (requestDomain false (16 + c) t))).spr.toTest = (noteFault (16 + c) (requestDomain false (16 + c) t)).spr.toTest := by
    unfold exhaust
    split_ifs <;> rfl
  refine ⟨?_, ?_, ?_, fun n hn role home => ?_⟩
  · rw [coreOf_of dec, core]
    exact hx
  · rw [pwr]
    exact List.mem_append_right _ (List.mem_singleton_self _)
  · simp only [log_frame, test]
    exact mem_noteFault ..
  · rw [ctxOf_of dec, moving n hn role home]

theorem CoreOut.abandonTest {c k : Nat} {s t : State} (h : CoreOut c s t) (hk : k ≠ c) : CoreOut c s (abandonTest k t) := by
  unfold Machine.abandonTest
  split_ifs
  · refine ⟨?_, h.switch, List.mem_filter.2 ⟨h.test, by simpa using fun e => hk (by omega)⟩, h.moving⟩
    have same (x : DecCore) (v : State) : coreOf (setCore k x v) c = coreOf v c := coreOf_setCore_ne hk.symm x v
    rw [same]
    exact h.core
  · exact h

theorem CoreOut.powerCore {c k : Nat} {s t : State} (h : CoreOut c s t) : CoreOut c s (powerCore k t) := by
  unfold Machine.powerCore
  split_ifs
  · exact h.of_eq rfl (fun _ => rfl) (List.mem_append_left _ h.switch) rfl
  · exact h

theorem CoreOut.assertFault {c : Nat} {s t : State} (h : CoreOut c s t) : CoreOut c s (assertFault t) := by
  have same := (assertFault_keeps (K := [.ports, .pins, .sent]) t (by decide) (Keeps.refl _ _)).same
  exact h.of_eq (coreOf_of (same.dec_eq (by decide)) c) (ctxOf_of (same.dec_eq (by decide))) (same.pwr_eq (by decide) ▸ h.switch) (congrArg SprState.toTest (same.spr_eq (by decide)))

theorem CoreOut.settle {c : Nat} {s t : State} (h : CoreOut c s t) : CoreOut c s (settle t) :=
  h.of_eq (coreOf_settle ..) (fun n => ctxOf_settle n t) (by simpa only [settle_frame] using h.switch) (by simp only [settle_frame])

theorem faultCore_out (c : Nat) (s : State) : CoreOut c s (faultCore c s) := by
  unfold faultCore
  extract_lets k t1 core t2 t3 t4 t5
  have homes (n : Nat) : homeOf t1 n = homeOf s n := by
    unfold t1
    split
    · rfl
    · exact homeOf_abandonPicture ..
  have marked : CoreOut c s t4 := coreOut_marked c homes (x := { core with state := .faulted, faultSeen := true, ctx := none }) ⟨rfl, rfl, rfl⟩
  have rest : CoreOut c s t5 := marked.abandonTest (by omega)
  clear_value t5
  split_ifs
  · exact rest.assertFault
  · exact (rest.of_eq (u := { t5 with spr := { t5.spr with spareUsedSeen := true } }) rfl (fun _ => rfl) rest.switch rfl).powerCore

/-! ### The contexts of a core that leave MOVING (R331) -/

/-- A context that waits for core c goes on with core k. -/
def moveOn (c k : Nat) (t : State) (n : Nat) : State :=
  let x := ctxOf t n
  if x.state == .moving && x.core == c then setCtx n { x with state := x.restState, core := k } t else t

theorem ctxOf_moveOn (c k : Nat) (t : State) (n : Nat) :
    ctxOf (moveOn c k t n) n =
      (if (ctxOf t n).state == .moving && (ctxOf t n).core == c then { ctxOf t n with state := (ctxOf t n).restState, core := k } else ctxOf t n) := by
  unfold moveOn
  extract_lets x
  split_ifs
  · exact ctxOf_setCtx ..
  · rfl

theorem ctxOf_moveOn_ne (c k : Nat) (t : State) (n m : Nat) (h : m ≠ n) : ctxOf (moveOn c k t n) m = ctxOf t m := by
  unfold moveOn
  extract_lets x
  split_ifs
  · exact ctxOf_setCtx_ne h ..
  · rfl

theorem exec_contextMoveComplete {c k : Nat} {s : State} (h : ([1 - c, c].find? fun c => coreUsable s c && domainOn s (16 + c)) = some k) :
    exec (.contextMoveComplete c) s = done ((List.range 64).foldl (moveOn c k) s) := by
  change execContextMoveComplete c s = _
  unfold execContextMoveComplete
  rw [h]
  dsimp only
  generalize List.range 64 = ns
  rfl

/-- Settles O48: a picture's start and end and a core's fault are read off their steps; what the context's pool does leaves the rest. -/
theorem decoder : Obligations.Decoder := by
  unfold Obligations.Decoder
  refine ⟨fun c au n f u s runs powered idle hu next head => ?start, fun c ctus n p s hp => ?budget, fun c ctus n p s hp => ?watchdog, fun c n p s hp => ?complete,
    fun c s usable powered => ?fault, fun c n p s hp => ?timeout, fun c k s hk => ?move⟩
  case start =>
    have effect : exec (.decodePictureStart c au) s =
        done (ifEvent (decodes s && domainOn s (16 + c) && (coreOf s c).state == .idle) (startPicture c n f au u) s) := by
      change execDecodePictureStart c au s = _
      simp only [execDecodePictureStart, ← hu, next, head, Option.elim_some]
    refine leads_event effect (by simp [runs, powered, idle]) ?_
    obtain ⟨core, state, current, fetched⟩ := startPicture_taken c n f au u
    simp only [coreOf_settle, ctxOf_settle, queueOf_settle, core]
    exact ⟨trivial, trivial, trivial, state, current, fetched⟩
  case budget =>
    have effect : exec (.rowBudget c ctus) s = done (setPicture n { p with missing := p.missing ++ ctus, rowBudget := true } s) := by
      change execRowBudget c ctus s = _
      simp only [execRowBudget, hp]
    refine leads_done effect ?_
    simp only [ctxOf_settle, setPicture, ctxOf_setCtx]
  case watchdog =>
    have effect : exec (.picWatchdog c ctus) s = done (finishPicture c n { p with missing := p.missing ++ ctus, stopped := true }
        (setCtx n { ctxOf (advanceTo0 (p.start + 1000000 * (ctxOf s n).watchdogMs) s) n with watchdog := true } (advanceTo0 (p.start + 1000000 * (ctxOf s n).watchdogMs) s))) := by
      change execPicWatchdog c ctus s = _
      simp only [execPicWatchdog, hp]
    refine leads_done effect ?_
    generalize advanceTo0 (p.start + 1000000 * (ctxOf s n).watchdogMs) s = v
    obtain ⟨ctx, state, free, -⟩ := finishPicture_finished c n { p with missing := p.missing ++ ctus, stopped := true } (setCtx n { ctxOf v n with watchdog := true } v)
    simp only [ctxOf_settle, coreOf_settle, ctx, ctxOf_setCtx]
    obtain ⟨current, -, watched⟩ := endPicture_ended (tb0 (setCtx n { ctxOf v n with watchdog := true } v)) { p with missing := p.missing ++ ctus, stopped := true } { ctxOf v n with watchdog := true }
    exact ⟨watched, current, state, free⟩
  case complete =>
    have effect : exec (.pictureComplete c) s = done (finishPicture c n p s) := by
      change execPictureComplete c s = _
      simp only [execPictureComplete, hp]
    refine leads_done effect ?_
    obtain ⟨ctx, state, free, pictures⟩ := finishPicture_finished c n p s
    obtain ⟨current, rest, -⟩ := endPicture_ended (tb0 s) p (ctxOf s n)
    simp only [ctxOf_settle, coreOf_settle, ctx]
    exact ⟨current, rest, state, free, pictures⟩
  case fault =>
    refine leads_event rfl (by simp [usable, powered]) ?_
    obtain ⟨⟨state, free, seen⟩, switch, test, moving⟩ := (faultCore_out c s).settle
    exact ⟨state, free, seen, switch, test, moving⟩
  case timeout =>
    have effect : exec (.corePictureTimeout c) s = done (faultCore c (advanceTo0 (p.start + 2000000 * (ctxOf s n).watchdogMs) s)) := by
      change execCorePictureTimeout c s = _
      simp only [execCorePictureTimeout, hp]
    exact leads_done effect (faultCore_out c _).settle.core
  case move =>
    refine leads_done (exec_contextMoveComplete hk) fun n hn moving home => ?_
    obtain ⟨v, same, met⟩ := foldl_meets (get := ctxOf) (fun t n m h => ctxOf_moveOn_ne c k t n m h) List.nodup_range (s := s) (List.mem_range.2 hn)
    rw [ctxOf_settle, met, ctxOf_moveOn, same, if_pos (by simp [moving, home])]
    exact ⟨rfl, rfl⟩

end Sys2Proof.Machine
end

section
/-! Proofs of O49: the conversion of decoded pictures into their sinks (R310 to R322). -/

namespace Sys2Proof.Machine

/-! ### Outputs of pictures: what they leave (R310) -/

namespace PoolOnly

variable {x y : Ctx}

theorem skipped_eq (h : PoolOnly x y) : y.skipped = x.skipped := by obtain ⟨_, _, rfl⟩ := h; rfl

theorem noSink_eq (h : PoolOnly x y) : y.noSink = x.noSink := by obtain ⟨_, _, rfl⟩ := h; rfl

theorem conversion_eq (h : PoolOnly x y) : y.conversion = x.conversion := by obtain ⟨_, _, rfl⟩ := h; rfl

theorem lastConverted_eq (h : PoolOnly x y) : y.lastConverted = x.lastConverted := by obtain ⟨_, _, rfl⟩ := h; rfl

end PoolOnly

/-- The state t differs from s in context a's pool alone. -/
structure PoolMoved (a : Nat) (s t : State) : Prop where
  own : PoolOnly (ctxOf s a) (ctxOf t a)
  others : ∀ n, n ≠ a → ctxOf t n = ctxOf s n
  same : SameBut [.dec] s t

namespace PoolMoved

variable {a : Nat} {s t u : State}

theorem refl (a : Nat) (s : State) : PoolMoved a s s := ⟨.refl _, fun _ _ => rfl, fun p _ => p.same_refl s⟩

theorem trans (h : PoolMoved a s t) (k : PoolMoved a t u) : PoolMoved a s u :=
  ⟨h.own.trans k.own, fun n hn => (k.others n hn).trans (h.others n hn), h.same.trans k.same⟩

theorem setCtx {x : Ctx} (h : PoolOnly (ctxOf s a) x) : PoolMoved a s (setCtx a x s) :=
  ⟨by rw [ctxOf_setCtx]; exact h, fun _ hn => ctxOf_setCtx_ne hn x s, (setCtx_keeps (K := [.dec]) a x s (by decide) (Keeps.refl _ _)).same⟩

theorem pruneHeld (a : Nat) (s : State) : PoolMoved a s (pruneHeld a s) := setCtx (.onPool ..)

theorem outputPicture (a k : Nat) (s : State) : PoolMoved a s (outputPicture a k s) := (setCtx ⟨_, _, rfl⟩).trans (pruneHeld a _)

theorem foldl {α : Type} (f : α → Nat) : ∀ (xs : List α) (s : State), PoolMoved a s (xs.foldl (fun t x => Machine.outputPicture a (f x) t) s)
  | [], s => refl a s
  | _ :: xs, s => (outputPicture a _ s).trans (foldl f xs _)

theorem pullAlpha (a p : Nat) (s : State) : PoolMoved a s (pullAlpha a p s) := foldl _ _ s

end PoolMoved

/-- The pair of a colour context is another context. -/
theorem pairOf_ne {s : State} {n a : Nat} (h : pairOf s n = some a) : a ≠ n := by
  unfold pairOf at h
  extract_lets x at h
  split_ifs at h with c
  rintro rfl
  simp only [Bool.and_eq_true, decide_eq_true_eq] at c
  obtain ⟨⟨role, -⟩, alpha⟩ := c
  rw [Option.some.inj h] at alpha
  exact absurd (role.symm.trans alpha) (by decide)

/-- The pair depends on the roles and on the context's own descriptor. -/
theorem pairOf_setCtx {s : State} {n : Nat} {x : Ctx} (hr : x.role = (ctxOf s n).role) (hd : x.desc = (ctxOf s n).desc) : pairOf (setCtx n x s) n = pairOf s n := by
  have role (m : Nat) : (ctxOf (setCtx n x s) m).role = (ctxOf s m).role := by
    by_cases h : m = n
    · rw [h, ctxOf_setCtx, hr]
    · rw [ctxOf_setCtx_ne h]
  have alpha : x.alpha = (ctxOf s n).alpha := by simp only [Ctx.alpha, hd]
  simp only [pairOf, role, ctxOf_setCtx, alpha]
  rw [hr]

/-! ### An earliest picture (R313 to R315) -/

/-- A picture that is skipped is counted and leaves its context otherwise but for the pool. -/
theorem skipPicture_skipped (n k : Nat) (s : State) : (ctxOf (skipPicture n k s) n).skipped = satAdd 8 (ctxOf s n).skipped 1 ∧
    (ctxOf (skipPicture n k s) n).noSink = (ctxOf s n).noSink ∧ (ctxOf (skipPicture n k s) n).conversion = (ctxOf s n).conversion := by
  have out := (PoolMoved.outputPicture n k s).own
  unfold skipPicture
  extract_lets t
  rw [ctxOf_setCtx]
  exact ⟨congrArg (satAdd 8 · 1) out.skipped_eq, out.noSink_eq, out.conversion_eq⟩

theorem ctxOf_skipPair (n k : Nat) (b : PoolBuffer) (s : State) : ctxOf (skipPair n k b s) n = ctxOf (skipPicture n k s) n := by
  unfold skipPair
  extract_lets t
  cases h : pairOf t n with
  | none => rfl
  | some a => exact (PoolMoved.pullAlpha a b.pts t).others n (pairOf_ne h).symm

/-- The display-output path comes to the earliest picture of a context without a conversion. -/
theorem displayNext_earliest {n k : Nat} {b : PoolBuffer} {r : List (Nat × PoolBuffer)} {s : State} (role : (ctxOf s n).role = 1) (idle : (ctxOf s n).conversion = none)
    (waits : (ctxOf s n).waiting = (k, b) :: r) (fresh : stalePictures (convert s 3 (ctxOf s n).base (s.tim.nextTick / 65536)) (ctxOf s n).waiting = []) :
    displayNext n s = beginConversion n k b s := by
  rw [waits] at fresh
  simp only [displayNext, role, idle, waits, fresh, List.foldl_nil, List.head?_cons]
  rfl

/-! ### Alpha pictures (R322) -/

/-- The buffers with key k that wait for their output. -/
def pendingAt (k : Nat) (l : Tbl PoolBuffer) : Nat := l.countP fun b => b.1 == k && b.2.output

theorem pendingAt_cons (k : Nat) (e : Nat × PoolBuffer) (r : Tbl PoolBuffer) : pendingAt k (e :: r) = pendingAt k r + (if e.1 == k && e.2.output then 1 else 0) :=
  List.countP_cons ..

theorem pendingAt_set (k : Nat) (v : PoolBuffer) (l : Tbl PoolBuffer) : pendingAt k l ≤ pendingAt k (Tbl.set k v l) + 1 := by
  induction l with
  | nil => exact Nat.zero_le _
  | cons e r ih =>
    obtain ⟨k', v'⟩ := e
    unfold Tbl.set
    split_ifs <;> simp only [pendingAt_cons] <;> split_ifs <;> omega

theorem pendingAt_set_ne {j k : Nat} (h : j ≠ k) (v : PoolBuffer) (l : Tbl PoolBuffer) : pendingAt j (Tbl.set k v l) = pendingAt j l := by
  have hk : (k == j) = false := by simpa using h.symm
  induction l with
  | nil => simp [Tbl.set, pendingAt, hk]
  | cons e r ih =>
    obtain ⟨k', v'⟩ := e
    unfold Tbl.set
    split_ifs with h1 h2
    · subst h1
      simp only [pendingAt_cons, hk, Bool.false_and]
    · simp only [pendingAt_cons, hk, Bool.false_and, Bool.false_eq_true, if_false, Nat.add_zero]
    · simp only [pendingAt_cons, ih]

/-- A change of the pool that keeps what waits. -/
theorem pendingAt_onPool {f : Nat → PoolBuffer → PoolBuffer} (h : ∀ k b, (f k b).output = b.output) (j : Nat) (x : Ctx) : pendingAt j (x.onPool f).pool = pendingAt j x.pool := by
  unfold Ctx.onPool pendingAt
  rw [List.countP_filter, List.countP_map]
  refine List.countP_congr fun b _ => ?_
  simp only [Function.comp, PoolBuffer.isFree, h]
  cases b.2.output <;> simp

theorem find?_of_pendingAt {k : Nat} : ∀ {l : Tbl PoolBuffer}, 0 < pendingAt k l → ∃ b, Tbl.find? k l = some b ∧ (k, b) ∈ l
  | (k', v) :: r, h => by
    by_cases hk : k' = k
    · subst hk
      exact ⟨v, by simp [Tbl.find?], List.mem_cons_self ..⟩
    · have rest : 0 < pendingAt k r := by
        rw [pendingAt_cons] at h
        simpa [hk] using h
      obtain ⟨b, found, mem⟩ := find?_of_pendingAt rest
      exact ⟨b, by simp [Tbl.find?, hk, found], List.mem_cons_of_mem _ mem⟩

theorem mem_set {k : Nat} {v : PoolBuffer} {b : Nat × PoolBuffer} : ∀ {l : Tbl PoolBuffer}, b ∈ Tbl.set k v l → b = (k, v) ∨ b ∈ l
  | [], h => .inl (List.mem_singleton.1 h)
  | (k', v') :: r, h => by
    unfold Tbl.set at h
    split_ifs at h
    · rcases List.mem_cons.1 h with h | h
      · exact .inl h
      · exact .inr (List.mem_cons_of_mem _ h)
    · exact List.mem_cons.1 h
    · rcases List.mem_cons.1 h with h | h
      · exact .inr (h ▸ List.mem_cons_self ..)
      · exact (mem_set h).imp_right (List.mem_cons_of_mem _)

/-- The output of a picture that waits: what waits goes down by that one at most, and no buffer takes another PTS. -/
theorem pool_outputPicture {a k p : Nat} {s : State} (hk : 0 < pendingAt k (ctxOf s a).pool) (hp : ∀ b ∈ (ctxOf s a).pool, b.2.pts ≠ p) :
    (∀ j, pendingAt j (ctxOf s a).pool ≤ pendingAt j (ctxOf (outputPicture a k s) a).pool + (if j = k then 1 else 0)) ∧
      ∀ b ∈ (ctxOf (outputPicture a k s) a).pool, b.2.pts ≠ p := by
  obtain ⟨v, found, mem⟩ := find?_of_pendingAt hk
  have value : Tbl.get (ctxOf s a).pool {} k = v := by rw [Tbl.get, found, Option.getD_some]
  unfold outputPicture
  extract_lets x src
  have here : src = v := value
  clear_value src
  subst here
  unfold pruneHeld
  extract_lets y last
  have pool : y.pool = Tbl.set k { src with output := false, held := true } (ctxOf s a).pool := congrArg Ctx.pool (ctxOf_setCtx a _ s)
  rw [ctxOf_setCtx]
  clear_value y
  constructor
  · intro j
    rw [pendingAt_onPool, pool]
    · split_ifs with h
      · exact h ▸ pendingAt_set ..
      · rw [pendingAt_set_ne h]
        exact le_rfl
    · exact fun _ _ => rfl
  · intro b hb
    obtain ⟨c, hc, rfl⟩ := List.mem_map.1 (List.mem_filter.1 hb).1
    rw [pool] at hc
    rcases mem_set hc with rfl | hc
    · have pts := hp (k, src) mem
      exact pts
    · exact hp c hc

/-- So of a list of pictures that wait. -/
theorem pool_outputAll {a p : Nat} : ∀ (bs : List (Nat × PoolBuffer)) (s : State), (∀ k, bs.countP (·.1 == k) ≤ pendingAt k (ctxOf s a).pool) →
    (∀ b ∈ (ctxOf s a).pool, b.2.pts ≠ p) → ∀ b ∈ (ctxOf (bs.foldl (fun t b => outputPicture a b.1 t) s) a).pool, b.2.pts ≠ p
  | [], _, _, hp => hp
  | c :: bs, s, hw, hp => by
    have here := hw c.1
    rw [List.countP_cons, if_pos (beq_self_eq_true _)] at here
    obtain ⟨pending, pts⟩ := pool_outputPicture (k := c.1) (Nat.lt_of_lt_of_le (Nat.succ_pos _) here) hp
    refine pool_outputAll bs (outputPicture a c.1 s) (fun k => ?_) pts
    have before := hw k
    have after := pending k
    rw [List.countP_cons] at before
    by_cases h : k = c.1
    · subst h
      simp only [beq_self_eq_true, if_true] at before after
      omega
    · have differs : (c.1 == k) = false := by simpa using Ne.symm h
      simp only [differs, h, if_false, Bool.false_eq_true] at before after
      omega

theorem countP_byOrder (q : Nat × PoolBuffer → Bool) (m : Nat) (l : List (Nat × PoolBuffer)) :
    (l.filter fun c => c.2.order < m).countP q + (l.filter fun c => m ≤ c.2.order).countP q = l.countP q := by
  induction l with
  | nil => rfl
  | cons c l ih =>
    rcases Nat.lt_or_ge c.2.order m with h | h
    · rw [List.filter_cons_of_pos (by simpa using h), List.filter_cons_of_neg (by simpa using h), List.countP_cons, List.countP_cons]
      omega
    · rw [List.filter_cons_of_neg (by simpa using h), List.filter_cons_of_pos (by simpa using h), List.countP_cons, List.countP_cons]
      omega

/-- The order of outputs lists each picture once. -/
theorem countP_sorted (q : Nat × PoolBuffer → Bool) : ∀ (bs l : List (Nat × PoolBuffer)),
    (bs.foldl (fun l b => (l.filter fun c => c.2.order < b.2.order) ++ [b] ++ l.filter fun c => b.2.order ≤ c.2.order) l).countP q = bs.countP q + l.countP q
  | [], l => by simp
  | b :: bs, l => by
    have split := countP_byOrder q b.2.order l
    rw [List.foldl_cons, countP_sorted q bs, List.countP_append, List.countP_append, List.countP_singleton, List.countP_cons]
    omega

theorem countP_waiting (x : Ctx) (k : Nat) : x.waiting.countP (·.1 == k) ≤ pendingAt k x.pool := by
  unfold Ctx.waiting pendingAt
  rw [countP_sorted, List.countP_nil, Nat.add_zero, List.countP_filter]
  refine List.countP_mono_left fun b _ h => ?_
  simp only [Bool.and_eq_true] at h ⊢
  exact ⟨h.1, h.2.1⟩

/-- The alpha context's outputs give no buffer a PTS that none had. -/
theorem pool_pullAlpha {a p : Nat} {s : State} (u : Nat) (hp : ∀ b ∈ (ctxOf s a).pool, b.2.pts ≠ p) : ∀ b ∈ (ctxOf (pullAlpha a u s) a).pool, b.2.pts ≠ p := by
  refine pool_outputAll _ s (fun k => ?_) hp
  exact (List.filter_sublist.countP_le).trans (countP_waiting _ k)

theorem foldl_some_mem {β : Type} {f : Option β → β → Option β} (hf : ∀ m b c, f m b = some c → c = b ∨ m = some c) {c : β} :
    ∀ (bs : List β) (m : Option β), bs.foldl f m = some c → c ∈ bs ∨ m = some c
  | [], _, h => .inr h
  | b :: bs, m, h => by
    rcases foldl_some_mem hf bs _ h with h | h
    · exact .inl (List.mem_cons_of_mem _ h)
    · exact (hf m b c h).imp (fun h => by rw [h]; exact List.mem_cons_self ..) id

theorem lastHeld_mem {x : Ctx} {c : Nat × PoolBuffer} (h : x.lastHeld = some c) : c ∈ x.pool := by
  refine (foldl_some_mem (fun m b c h => ?_) _ _ h).elim (fun h => (List.mem_filter.1 h).1) nofun
  cases m with
  | none => exact .inl (Option.some.inj h).symm
  | some d =>
    dsimp only at h
    split_ifs at h
    · exact .inl (Option.some.inj h).symm
    · exact .inr h

/-! ### The statements' events -/

/-- A conversion set without a pair runs. -/
theorem tryPair_alone {n : Nat} {v : Conversion} {x : Ctx} {s : State} (hv : x.conversion = some v) (hr : x.role = (ctxOf s n).role) (hd : x.desc = (ctxOf s n).desc)
    (hp : pairOf s n = none) : ctxOf (tryPair n (setCtx n x s)) n = { x with conversion := some { v with running := true } } := by
  have alone : pairOf (setCtx n x s) n = none := (pairOf_setCtx hr hd).trans hp
  simp only [tryPair, ctxOf_setCtx, hv, alone]

/-- The end of a pair's wait starts the conversion; without an alpha picture of its PTS it is a miss. -/
theorem expirePair_starts {n a : Nat} (v : Conversion) {s : State} (h : a ≠ n) :
    (∃ w, (ctxOf (expirePair n a v s) n).conversion = some w ∧ w.running ∧ w.order = v.order ∧ w.pts = v.pts) ∧
      ((∀ b ∈ (ctxOf s a).pool, b.2.pts ≠ v.pts) → (ctxOf (expirePair n a v s) n).pairMiss ∧ (ctxOf (expirePair n a v s) n).misses = (ctxOf s n).misses + 1) := by
  have others (m : Nat) : ctxOf (advanceTo0 (v.selected + 1000000 * (ctxOf s n).pairMs) s) m = ctxOf s m := ctxOf_of (by simp) m
  unfold expirePair
  extract_lets t held hit k x
  have here : x = ctxOf s n := ((PoolMoved.pullAlpha a v.pts _).others n h.symm).trans (others n)
  rw [ctxOf_setCtx]
  refine ⟨⟨_, rfl, rfl, rfl, rfl⟩, fun none1 => ?_⟩
  have missed : hit = false := by
    have pts : ∀ b ∈ (ctxOf t a).pool, b.2.pts ≠ v.pts := pool_pullAlpha v.pts (by rw [others]; exact none1)
    cases hh : held with
    | none => simp [hit, hh]
    | some c => simpa [hit, hh] using pts c (lastHeld_mem hh)
  simp [missed, here]

/-- The output of a converted picture, and of its pair's, leaves what the conversion set. -/
theorem outputConverted_kept (n k : Nat) (w : State) :
    (ctxOf ((pairOf (outputPicture n k w) n).elim (outputPicture n k w) fun a => pruneHeld a (outputPicture n k w)) n).conversion = (ctxOf w n).conversion ∧
      (ctxOf ((pairOf (outputPicture n k w) n).elim (outputPicture n k w) fun a => pruneHeld a (outputPicture n k w)) n).lastConverted = (ctxOf w n).lastConverted ∧
      ((pairOf (outputPicture n k w) n).elim (outputPicture n k w) fun a => pruneHeld a (outputPicture n k w)).cmp = w.cmp := by
  have out := PoolMoved.outputPicture n k w
  generalize outputPicture n k w = u at out
  cases h : pairOf u n with
  | none => exact ⟨out.own.conversion_eq, out.own.lastConverted_eq, out.same.cmp_eq (by decide)⟩
  | some a =>
    have pruned := PoolMoved.pruneHeld a u
    have here : ctxOf (pruneHeld a u) n = ctxOf u n := pruned.others n (pairOf_ne h).symm
    rw [Option.elim_some, here]
    exact ⟨out.own.conversion_eq, out.own.lastConverted_eq, (pruned.same.cmp_eq (by decide)).trans (out.same.cmp_eq (by decide))⟩

theorem backReady_advanceFence (f k : Nat) (s : State) : (advanceFence f k s).cmp.backReady = s.cmp.backReady := by
  unfold advanceFence
  split_ifs <;> rfl

/-- A conversion that completes. -/
theorem finishConversion_finished (n k : Nat) (v : Conversion) (b : PoolBuffer) (s : State) :
    (ctxOf (finishConversion n v k b s) n).conversion = none ∧ (ctxOf (finishConversion n v k b s) n).lastConverted = some v.pts ∧
      Tbl.find? v.layer (finishConversion n v k b s).cmp.backReady = some (v.pts, (ctxOf s n).base) := by
  unfold finishConversion
  extract_lets x z
  generalize writeBack x z b.pic (activeLayer s v.layer).back s = tb
  obtain ⟨t, blocked⟩ := tb
  dsimp only
  have fenced (u : State) : ctxOf (advanceFence x.fence 1 u) n = ctxOf u n := ctxOf_of (by simp) n
  obtain ⟨conversion, last, cmp⟩ := outputConverted_kept n k (advanceFence x.fence 1 (setCtx n
    { x with conversion := none, lastConverted := some v.pts, writeBlocked := x.writeBlocked || blocked, sizeMismatch := x.sizeMismatch || z.differs b.pic }
    { t with cmp := { t.cmp with backReady := Tbl.set v.layer (v.pts, x.base) t.cmp.backReady } }))
  rw [fenced, ctxOf_setCtx] at conversion last
  refine ⟨conversion, last, ?_⟩
  rw [cmp, backReady_advanceFence]
  exact Tbl.find?_set_self ..

/-- Settles O49: a conversion's start, its wait and its end change one context; outputs of pictures leave all but their pool. -/
theorem displayOutput : Obligations.DisplayOutput := by
  unfold Obligations.DisplayOutput
  refine ⟨fun n k b l r s runs role idle waits fresh alone sink free fits => ?start, fun n k b r s runs role idle waits fresh sink => ?skip,
    fun n v a s hv pair runs waits => ?expiry, fun n v k b s hv runs hb => ?complete⟩
  case start =>
    refine leads_event rfl runs ?_
    rw [displayNext_earliest role idle waits fresh]
    have begins : beginConversion n k b s =
        tryPair n (setCtx n { ctxOf s n with noSink := false, conversion := some { order := b.order, pts := b.pts, layer := l, selected := tb0 s } } s) := by
      simp only [beginConversion, sink, free, Option.isSome_none, Bool.false_eq_true, if_false, fits, if_true]
    have begun := tryPair_alone (n := n) (x := { ctxOf s n with noSink := false, conversion := some { order := b.order, pts := b.pts, layer := l, selected := tb0 s } })
      rfl rfl rfl alone
    rw [begins, ctxOf_settle, begun]
    exact ⟨⟨_, rfl, rfl, rfl, rfl, rfl⟩, rfl⟩
  case skip =>
    refine leads_event rfl runs ?_
    rw [displayNext_earliest role idle waits fresh]
    have begins : beginConversion n k b s = skipPair n k b (setCtx n { ctxOf s n with noSink := true } s) := by
      simp only [beginConversion, sink]
    obtain ⟨skipped, noSink, conversion⟩ := skipPicture_skipped n k (setCtx n { ctxOf s n with noSink := true } s)
    rw [begins, ctxOf_settle, ctxOf_skipPair, skipped, noSink, conversion, ctxOf_setCtx]
    exact ⟨rfl, idle, rfl⟩
  case expiry =>
    have effect : exec (.pairWaitExpiry n) s = done (ifEvent (decodes s && !v.running) (expirePair n a v s) s) := by
      change execPairWaitExpiry n s = _
      simp only [execPairWaitExpiry, hv, pair]
    refine leads_event effect (by simp [runs, waits]) ?_
    rw [ctxOf_settle]
    exact expirePair_starts v (pairOf_ne pair)
  case complete =>
    have effect : exec (.conversionComplete n) s = done (ifEvent v.running (finishConversion n v k b s) s) := by
      change execConversionComplete n s = _
      simp only [execConversionComplete, hv, hb]
    refine leads_event effect runs ?_
    simp only [ctxOf_settle, settle_frame]
    exact finishConversion_finished n k v b s

end Sys2Proof.Machine
end

section
/-! Refutation of O52: a queue's reset writes its completion ring, whose place nothing in the clause bounds (R419, R467). -/

namespace Sys2Proof.Machine

/-- An active queue whose completion ring of one slot lies at 64 GiB, outside the populated map (R406). -/
def strayQueue : Queue := { state := .active, cqAddr := 2 ^ 36, cqSize := 1 }

/-- The request of drawer 0 of port A to reset queue 0. -/
def strayRequest : Request := { ch := .drawer .a 0, service := 0x01, verb := 0x05, tagGen := 0, body := [0, 0], cls := 1, port := some .a }

/-- The controller runs, Walec has taken the request, and the queue is the stray one. -/
def strayState : State :=
  { State.reset with
    hif := { State.reset.hif with walec := .running, queues := [(0, strayQueue)] }
    dmc := { State.reset.dmc with mode := .running }
    walec := { State.reset.walec with taken := [strayRequest] } }

/-- The state from which the verb begins. -/
def strayTaken : State := { strayState with walec := { strayState.walec with taken := [] } }

/-- The write of the ring's PHASE byte is a command error, which makes an entry of its own. -/
theorem nextSeq_zeroPhases_stray : (zeroPhases strayQueue.reset (setQueue 0 strayQueue.reset strayTaken)).bureau.nextSeq = strayTaken.bureau.nextSeq + 1 := by
  decide

/-- The reset of the stray queue is answered with two entries made. -/
theorem runQueueReset_stray : ∃ w, runQueueReset {} strayRequest strayTaken = (.ok, leBytes 1 1, w) ∧ w.bureau.nextSeq = strayTaken.bureau.nextSeq + 2 := by
  refine ⟨_, rfl, ?_⟩
  exact congrArg (· + 1) nextSeq_zeroPhases_stray

/-- Refutes O52: the clause of QUEUE_RESET names no condition on the queue's rings. With the completion ring outside the populated map the write of its PHASE
byte is a command error of requester 6, whose entry comes before the verb's own, and NEXT_SEQ moves on by two. (A queue that QUEUE_CREATE made has its rings
in populated memory.) -/
theorem not_deviceVerbs : ¬ Obligations.DeviceVerbs := by
  unfold Obligations.DeviceVerbs
  rintro ⟨-, -, reset, -⟩
  have due : Due queueResetVerb 0x01 0x05 (.drawer .a 0) strayRequest strayState strayTaken := ⟨rfl, rfl, rfl, rfl, [], rfl, rfl, by decide⟩
  obtain ⟨t, ran, w, ⟨-, once⟩, same, -⟩ := reset (.drawer .a 0) strayRequest strayState strayTaken 0 due rfl (by decide) (by decide) (by decide)
  obtain ⟨v, effect, twice⟩ := runQueueReset_stray
  obtain ⟨kept, -⟩ := finish_answers strayRequest .ok (leBytes 1 1) v (by decide) (by decide) (by decide)
  have settled : t = settle (finish strayRequest (.ok, leBytes 1 1, v)) := by
    have served : serve 0x01 0x05 queueResetVerb {} (.drawer .a 0) strayState = finish strayRequest (.ok, leBytes 1 1, v) :=
      (serve_finish {} (by decide) due).trans (congrArg (finish strayRequest) effect)
    have answered : exec (.queueReset (.drawer .a 0)) strayState = done (finish strayRequest (.ok, leBytes 1 1, v)) := congrArg done served
    simpa [done] using ran.symm.trans answered
  have entries : v.bureau.nextSeq = w.bureau.nextSeq := by
    have after := congrArg BureauState.nextSeq (same.bureau_eq (by decide))
    have before := congrArg BureauState.nextSeq (kept.bureau_eq (by decide))
    exact before.symm.trans (settled ▸ after)
  rw [twice, once] at entries
  omega

end Sys2Proof.Machine
end

section
/-! Proof of O53: the PUT and GET rows of every service (R496, R507, R511). -/

namespace Sys2Proof.Machine

/-- A row of PUT serves the PUT of its parameters. -/
theorem putRow_serves {ch : Channel} {c : Instr} {service verb : Nat} {v : Verb} (h : (c, service, verb, v) ∈ putRows ch) :
    known service verb = true ∧ (∀ s, exec c s = done (serve service verb v {} ch s)) ∧ v.run = runPut ∧ service ≠ 0x10 := by
  simp only [putRows, List.mem_cons, List.not_mem_nil, or_false, Prod.mk.injEq] at h
  rcases h with h | h | h | h | h | h | h | h | h | h
  all_goals
    obtain ⟨rfl, rfl, rfl, rfl⟩ := h
    exact ⟨by decide, fun _ => rfl, rfl, by decide⟩

/-- A row of GET serves the GET of its parameters. -/
theorem getRow_serves {ch : Channel} {c : Instr} {service verb : Nat} (h : (c, service, verb) ∈ getRows ch) :
    known service verb = true ∧ (∀ s, exec c s = done (serve service verb getVerb {} ch s)) ∧ service ≠ 0x10 := by
  simp only [getRows, List.mem_cons, List.not_mem_nil, or_false, Prod.mk.injEq] at h
  rcases h with h | h | h | h | h | h | h | h | h | h
  all_goals
    obtain ⟨rfl, rfl, rfl⟩ := h
    exact ⟨by decide, fun _ => rfl, by decide⟩

/-- The verb of a request that is due is the row's. -/
theorem Due.names {v : Verb} {service verb : Nat} {ch : Channel} {r : Request} {s u : State} (h : Due v service verb ch r s u) :
    r.service = service ∧ r.verb = verb := ⟨h.2.1, h.2.2.1⟩

/-- What a PUT of a value in range does. -/
theorem runPut_known {x : Outside} {r : Request} {u : State} {p : Param} (clear : zeroAt r.body 4 4 = true)
    (hp : paramOf u r.service (leAt r.body 0 2) (leAt r.body 2 2) = some p) (ptp : r.service = 0x0B → ptpUnavailable u (leAt r.body 0 2) (leAt r.body 8 16) = false)
    (ok : p.ok (leAt r.body 8 16) = true) :
    runPut x r u = (.ok, [], if p.unset = false ∧ leAt r.body 8 16 = p.set then u
      else serviceWrite (reqOrigin r) r.service r.verb (leAt r.body 0 2) (leAt r.body 2 2) (leBytes 16 p.set) (leBytes 16 (leAt r.body 8 16))
        (p.put (leAt r.body 8 16) (reqOrigin r) u)) := by
  have available : (decide (r.service = 0x0B) && ptpUnavailable u (leAt r.body 0 2) (leAt r.body 8 16)) = false := by
    by_cases h : r.service = 0x0B
    · simp [ptp h]
    · simp [h]
  simp only [runPut, clear, Bool.not_true, Bool.false_eq_true, if_false, putParam, hp, available, ok]
  by_cases same : p.unset = false ∧ leAt r.body 8 16 = p.set
  · rw [if_pos same, if_pos (by simp [same])]
  · rw [if_neg same, if_neg (by simpa using same)]

/-- A SERVICE_WRITE is one entry and nothing else. -/
theorem serviceWrite_entered (o : Origin) (service verb id ix : Nat) (old new : Bytes) (s : State) :
    SameBut [.bureau] s (serviceWrite o service verb id ix old new s) ∧ (serviceWrite o service verb id ix old new s).bureau.nextSeq = s.bureau.nextSeq + 1 ∧
      ∃ e, (serviceWrite o service verb id ix old new s).bureau.ring.getLast? = some e ∧ e.event = 0x0001 ∧ e.subject = ix % 256 ∧ e.origin = o := by
  refine ⟨(logEntry_keeps (K := [.bureau]) _ _ _ _ _ _ _ s (by decide) (Keeps.refl _ _)).same, rfl, ?_⟩
  exact ⟨_, List.getLast?_concat .., rfl, rfl, rfl⟩

/-- Settles O53: every row of PUT and GET serves the same two verbs; a PUT's record is one entry of the Bureau. -/
theorem putAndGet : Obligations.PutAndGet := by
  unfold Obligations.PutAndGet
  refine ⟨fun ch c service verb v p r s u row due clear hp ptp ok => ?_, fun ch c service verb p r s u row due hp => ?_, fun ch c service verb r s u row due hp => ?_⟩
  · obtain ⟨hk, effect, run, other⟩ := putRow_serves row
    obtain ⟨rfl, rfl⟩ := due.names
    refine serve_runs hk due (effect s) (by rw [run]; exact runPut_known clear hp ptp ok) (fun h => other h.1) (by decide) (by decide) ?_
    split_ifs
    · rfl
    · exact serviceWrite_entered ..
  · obtain ⟨hk, effect, other⟩ := getRow_serves row
    obtain ⟨rfl, rfl⟩ := due.names
    exact serve_runs hk due (effect s) (by simp only [getVerb, runGet, getParam, hp]) (fun h => other h.1) (by decide) (by decide) rfl
  · obtain ⟨hk, effect, other⟩ := getRow_serves row
    obtain ⟨rfl, rfl⟩ := due.names
    exact serve_runs hk due (effect s) (by simp only [getVerb, runGet, getParam, hp]) (fun h => other h.1) (by decide) (by decide) rfl

end Sys2Proof.Machine
end

section
/-! Proof of O59: the UPDATE verbs (R632 to R641). -/

namespace Sys2Proof.Machine

/-! ### STAGE by kind (R633, R636, R639, R640) -/

section Stage

variable {x : Outside} {r : Request} {f : Bytes} {v : Nat} {u : State}

/-- An object that is read under a VERSION it meets is staged by its kind. -/
theorem runStage_read (clear : zeroAt r.body 1 7 = true) (hf : objectOf x r (r.body.drop 8) u = (.ok, f, v)) {kind : Nat} (hk : u8 r.body 0 = kind) (hw : within 1 6 kind = true)
    (hv : v = 0 ∨ v = if kind = 1 || kind = 3 then leAt f 4 4 else 0) :
    runStage x r u = if kind = 1 then stageImage r f u else if kind = 2 then stageIndex r f u else if kind = 3 then stageFile r f u
      else if kind = 4 then stageInstall r f u else if kind = 5 then stageCert r f u else stageKey f u := by
  have own : ¬ (v ≠ 0 && v ≠ if kind = 1 || kind = 3 then leAt f 4 4 else 0) = true := by
    rcases hv with h | h
    · simp [h]
    · rw [← h]
      simp
  simp only [runStage, hk, hw, clear, hf, Bool.not_true, Bool.or_self, Bool.false_eq_true, if_false, own]

end Stage

/-! ### SWITCH (R641) -/

/-- The headers, and a staged image that is none, are past what a boot of the ROM changes. -/
def bootMarks (s : State) : Tbl BootHeader × Option Nat := (s.bot.headers, s.bot.staged)

theorem bootMarks_fallback (k refused : Nat) (s : State) : bootMarks (fallback k refused s) = bootMarks s := by
  unfold fallback
  split
  · simp only [bootMarks, bootFailed, assertFault_frame]
    rfl
  · rfl

theorem bootMarks_romBoot (s : State) : bootMarks (romBoot s) = bootMarks s := by
  unfold romBoot
  extract_lets a trial v
  split
  · exact bootMarks_fallback ..
  · split
    · rfl
    · exact bootMarks_fallback ..

theorem cutLoad_boot (s : State) : (cutLoad s).bot.headers = s.bot.headers ∧ (s.bot.staged = none → (cutLoad s).bot.staged = none) := by
  unfold cutLoad
  extract_lets g o b
  split
  · exact ⟨rfl, id⟩
  · extract_lets k
    have cut (r : Request) (t : State) : (cutStage r t).bot.headers = t.bot.headers ∧ (t.bot.staged = none → (cutStage r t).bot.staged = none) := by
      unfold cutStage
      extract_lets b
      split
      · exact ⟨rfl, fun _ => rfl⟩
      · split
        · split
          · exact ⟨rfl, id⟩
          · exact ⟨rfl, id⟩
        · exact ⟨rfl, id⟩
    split
    · exact ⟨rfl, id⟩
    · split
      · exact cut _ (drew s)
      · split
        · exact ⟨rfl, id⟩
        · split
          · exact ⟨rfl, id⟩
          · split
            · exact ⟨rfl, id⟩
            · exact ⟨rfl, id⟩

theorem stopWalec_boot (code : Nat) (s : State) : (stopWalec code s).bot.headers = s.bot.headers ∧ (s.bot.staged = none → (stopWalec code s).bot.staged = none) := by
  unfold stopWalec
  split_ifs
  · have halted : (haltWalec code s).bot = (cutLoad s).bot := by
      have ended (u : State) : (stopDrawers (raiseBoth 1 (log (hw 15) code 0x90 0 u))).bot = u.bot :=
        (stopDrawers_keeps (K := [.ports, .drawers, .bureau, .sent]) _ (by decide) (raiseBoth_keeps 1 _ (by decide)
          (log_keeps (hw 15) code 0x90 0 u (by decide) (Keeps.refl _ _)))).same.bot_eq (by decide)
      exact (ended _).trans
        ((stopQueues_keeps (K := [.dmc, .dram, .ports, .queues, .bureau, .pins, .sent]) (setWalec .restarting (cutLoad s)) (by decide) (Keeps.refl _ _)).same.bot_eq (by decide))
    have marks := bootMarks_romBoot (haltWalec code s)
    simp only [bootMarks, halted, Prod.mk.injEq] at marks
    obtain ⟨headers, staged⟩ := marks
    obtain ⟨cut, none1⟩ := cutLoad_boot s
    exact ⟨headers.trans cut, fun h => staged.trans (none1 h)⟩
  · exact ⟨rfl, id⟩

/-- An image switch is answered, and Walec stops: what the answer leaves of the boot data and of Walec. -/
theorem finish_switch {r : Request} (hs : r.service = 0x10) (hv : r.verb = 0x02) (body : Bytes) (w : State) :
    ∃ v, finish r (.ok, body, w) = stopWalec 1 v ∧ v.bot = w.bot ∧ v.hif.walec = w.hif.walec := by
  have noted : noteRefusal r .ok w = w := rfl
  have answered : SameBut [.dmc, .dram, .ports, .queues, .walec, .bureau, .pins, .sent] w (answer r (shownStatus r .ok w) body w) :=
    (answer_keeps r _ body w (by decide) (Keeps.refl _ _)).same
  have stops (t : State) : afterAnswer r .ok t = stopWalec 1 (match r.ch, t.walec.answers.getLast? with
      | .drawer p n, some a => deliver p n a { t with walec := { t.walec with answers := t.walec.answers.dropLast } }
      | _, _ => t) := by
    simp only [afterAnswer, hs, hv]
    rfl
  refine ⟨_, (congrArg (afterAnswer r .ok) (congrArg (answer r (shownStatus r .ok w) body) noted)).trans (stops _), ?_⟩
  generalize answer r (shownStatus r .ok w) body w = t at answered
  split
  · have delivered (p : Port) (n : Nat) (a : Answer) (u : State) : (deliver p n a u).bot = u.bot ∧ (deliver p n a u).hif.walec = u.hif.walec :=
      have same := (deliver_keeps (K := [.ports, .drawers, .sent]) p n a u (by decide) (Keeps.refl _ _)).same
      ⟨same.bot_eq (by decide), same.walec_run (by decide)⟩
    obtain ⟨bot, run⟩ := delivered _ _ _ _
    exact ⟨bot.trans (answered.bot_eq (by decide)), run.trans (answered.walec_run (by decide))⟩
  · exact ⟨answered.bot_eq (by decide), answered.walec_run (by decide)⟩

/-- The header that a switch writes. -/
theorem switchImage_header (k : Nat) (s : State) : (switchImage k s).bot.staged = none ∧ (switchImage k s).hif = s.hif ∧
    ∃ j h, Tbl.find? j (switchImage k s).bot.headers = some h ∧ h.active = k ∧ h.trial :=
  ⟨rfl, rfl, _, _, Tbl.find?_set_self .., rfl, rfl⟩

/-- Settles O59: each kind of object through its own staging; the switch through the stop that follows its answer. -/
theorem updateVerbs : Obligations.UpdateVerbs := by
  unfold Obligations.UpdateVerbs
  refine ⟨fun ch h r s u f v due clear hf => ⟨fun hk hv pass fits => ?image, fun hk hv form signed => ?index, fun hk hv ready e he => ?file, fun hk hv fits => ?install,
    fun hk hv fits key => ?cert, fun hk hv len k free => ?key⟩, fun ch r s u k due hk named staged final => ?switch,
    fun ch r s u due => serve_runs (by decide) due rfl rfl (by decide) (by decide) (by decide) rfl⟩
  case image =>
    have run : runStage { obj := h } r u = stageImage r f u := runStage_read clear hf hk (by decide) hv
    refine serve_runs (by decide) due rfl (run.trans (checked_ok ?_)) (by decide) (by decide) (by decide) ?_
    · simpa [pass] using fits
    · exact ⟨Tbl.get_set_self .., rfl⟩
  case index =>
    have run : runStage { obj := h } r u = stageIndex r f u := runStage_read clear hf hk (by decide) (.inl hv)
    refine serve_runs (by decide) due rfl (run.trans (checked_ok ?_)) (by decide) (by decide) (by decide) ?_
    · simp [form, signed]
    · by_cases governs : indexGoverns u (calIndexOf f) = true
      · simp only [governs, if_true]
        rfl
      · simp only [governs]
        rfl
  case file =>
    have run : runStage { obj := h } r u = stageFile r f u := runStage_read clear hf hk (by decide) hv
    have found : stageFile r f u = checked [(!u.bot.emmcReady, .fault)] (recorded r 3 [] f { u with bot := { u.bot with files := Tbl.set e.lba f u.bot.files } }) u := by
      simp only [stageFile, he]
    refine serve_runs (by decide) due rfl (run.trans (found.trans (checked_ok ?_))) (by decide) (by decide) (by decide) ?_
    · simp [ready]
    · exact Tbl.find?_set_self ..
  case install =>
    have run : runStage { obj := h } r u = stageInstall r f u := runStage_read clear hf hk (by decide) (.inl hv)
    refine serve_runs (by decide) due rfl (run.trans (checked_ok ?_)) (by decide) (by decide) (by decide) rfl
    simpa using fits
  case cert =>
    have run : runStage { obj := h } r u = stageCert r f u := runStage_read clear hf hk (by decide) (.inl hv)
    refine serve_runs (by decide) due rfl (run.trans (checked_ok ?_)) (by decide) (by decide) (by decide) rfl
    simpa [key] using fits
  case key =>
    have run : runStage { obj := h } r u = stageKey f u := runStage_read clear hf hk (by decide) (.inl hv)
    have found : stageKey f u = checked [(f.length ≠ 97, .format)]
        (log (hw 16) k 0xDE (leAt (padTo 48 (Config.sha384 f)) 0 8) { u with bot := { u.bot with ikeys := Tbl.set k (padTo 48 (Config.sha384 f)) u.bot.ikeys } }) u := by
      simp only [stageKey, free]
    refine serve_runs (by decide) due rfl (run.trans (found.trans (checked_ok ?_))) (by decide) (by decide) (by decide) ?_
    · simp [len]
    · exact Tbl.find?_set_self ..
  case switch =>
    have run : runSwitch {} r u = (.ok, [], switchImage k u) := by
      rw [runSwitch, ← hk]
      exact checked_ok (by simp [Nat.not_lt.2 named, staged, final])
    obtain ⟨service, verb⟩ := due.names
    obtain ⟨v, stops, bot, running⟩ := finish_switch service verb [] (switchImage k u)
    obtain ⟨none1, hif, j, x, found, active, trial⟩ := switchImage_header k u
    have served : exec (.updateSwitch ch) s = done (stopWalec 1 v) := by
      have ran := serve_finish {} (by decide) due
      exact congrArg done (ran.trans ((congrArg (finish r) run).trans stops))
    have stopped := (stopWalec_stopped (running.trans ((congrArg (·.walec) hif).trans due.walec)) 1).settle
    obtain ⟨headers, staged1⟩ := stopWalec_boot 1 v
    refine leads_done served ⟨stopped.walec, stopped.cause, ?_, j, x, ?_, active, trial⟩
    · simp only [settle_frame]
      exact staged1 (bot ▸ none1)
    · simp only [settle_frame]
      rw [headers, bot, found]

end Sys2Proof.Machine
end

section
/-! Proof of O58: the LOG and RIGHTS verbs and Ethernet sessions (R503, R506, R513 to R515). -/

namespace Sys2Proof.Machine

/-! ### The archive and the epoch (R513, R515) -/

theorem epoch_makeSpace (need : Nat) : ∀ (l : List Segment) (s : State), (makeSpace need l s).bureau.epoch = s.bureau.epoch
  | [], _ => rfl
  | x :: l, s => by
    unfold makeSpace
    split_ifs
    · rfl
    · exact epoch_makeSpace need l s

theorem epoch_archiveOne (s : State) : (archiveOne s).bureau.epoch = s.bureau.epoch := by
  unfold archiveOne
  split
  · rfl
  · extract_lets es x t
    have job (m n : Nat) (u : State) : (internalJob m n u).bureau = u.bureau := (internalJob_keeps (K := [.dfl]) m n u (by decide) (Keeps.refl _ _)).same.bureau_eq (by decide)
    have made : t.bureau.epoch = s.bureau.epoch := (congrArg BureauState.epoch (job ..)).trans (epoch_makeSpace ..)
    exact made

theorem epoch_archiveAll (s : State) : (archiveAll s).bureau.epoch = s.bureau.epoch :=
  foldl_fixed (f := fun t : State => t.bureau.epoch) (fun t _ => epoch_archiveOne t) (List.range ((unarchived s + 4095) / 4096)) s

/-- A cleared log holds the entry that opens the next epoch. -/
theorem clearLog_opened (o : Origin) (s : State) : (clearLog o s).bureau.segments = [] ∧ (clearLog o s).bureau.epoch = wrapAdd 16 s.bureau.epoch 1 ∧
    (clearLog o s).bureau.nextSeq = 1 ∧ ∃ e, (clearLog o s).bureau.ring = [e] ∧ e.event = 0xF0 ∧ e.seq = 0 ∧ e.origin = o :=
  ⟨rfl, rfl, rfl, _, rfl, rfl, rfl, rfl⟩

/-- A segment is not empty. -/
theorem bytes_pos (x : Segment) : 0 < x.bytes.length := by
  simp only [Segment.bytes, List.length_append, length_leBytes]
  omega

/-! ### A drawer's class (R503) -/

/-- The change of a drawer's class is recorded, and taken at once by an IDLE drawer. -/
theorem changeClass_changed (p : Port) (n c : Nat) (s : State) : classAhead (changeClass p n c s) p n = c ∧
    Tbl.find? (drawerIx p n) (changeClass p n c s).walec.classRecord = some c ∧ (changeClass p n c s).bureau = s.bureau ∧
      ((drawerOf s p n).state = .idle → (drawerOf (changeClass p n c s) p n).cls = c ∧ (drawerOf (changeClass p n c s) p n).gen = ((drawerOf s p n).gen + 1) % 16) := by
  unfold changeClass
  extract_lets k w t
  have next : Tbl.find? (drawerIx p n) t.walec.classNext = some c := Tbl.find?_set_self ..
  have record : Tbl.find? (drawerIx p n) t.walec.classRecord = some c := Tbl.find?_set_self ..
  have taken : takeClass p n t = setDrawer p n { drawerOf t p n with cls := c, gen := ((drawerOf t p n).gen + 1) % 16 }
      { t with walec := { t.walec with classNext := Tbl.erase (drawerIx p n) t.walec.classNext } } := by
    simp only [takeClass, next]
  by_cases idle : (drawerOf s p n).state = .idle
  · rw [if_pos (by simp [idle]), taken]
    have erased : Tbl.find? (drawerIx p n) (Tbl.erase (drawerIx p n) t.walec.classNext) = none := Tbl.find?_erase_self ..
    have drawer (d : Drawer) (u : State) : drawerOf (setDrawer p n d u) p n = d := drawerOf_setDrawer_self ..
    refine ⟨?_, record, rfl, fun _ => ?_⟩
    · simp only [classAhead, drawer]
      exact congrArg (·.getD c) erased
    · rw [drawer]
      exact ⟨rfl, rfl⟩
  · rw [if_neg (by simpa using idle)]
    exact ⟨by rw [classAhead, next, Option.getD_some], record, rfl, fun h => absurd h idle⟩

/-! ### Sessions (R506) -/

/-- While fewer than 8 sessions are open one of the eight numbers is free. -/
theorem free_number {α : Type} {t : Tbl α} (h : t.length < 8) : ∃ n, ((List.range 8).find? fun n => (Tbl.find? n t).isNone) = some n := by
  cases hf : (List.range 8).find? fun n => (Tbl.find? n t).isNone with
  | some n => exact ⟨n, rfl⟩
  | none =>
    have taken : List.range 8 ⊆ t.map (·.1) := fun n hn => by
      have found := List.find?_eq_none.1 hf n hn
      obtain ⟨v, hv⟩ := Option.ne_none_iff_exists'.1 (by simpa using found)
      exact Tbl.mem_keys_of_find? hv
    have least := (List.subperm_of_subset List.nodup_range taken).length_le
    rw [List.length_range, List.length_map] at least
    omega

/-- A bind slot that changes closes its sessions. -/
theorem writeBind_written (k : Nat) (b : Nat × Bytes) (s : State) : bindOf (writeBind k b s) k = b ∧ (∀ j, j ≠ k → bindOf (writeBind k b s) j = bindOf s j) ∧
    (bindOf (writeBind k b s) k ≠ bindOf s k → ∀ x ∈ (writeBind k b s).eth.sessions, x.2.2 ≠ k) := by
  have own : bindOf (writeBind k b s) k = b := Tbl.get_set_self ..
  refine ⟨own, fun j h => Tbl.get_set_ne h .., fun changed x hx => ?_⟩
  rw [own] at changed
  have kept : (writeBind k b s).eth.sessions = s.eth.sessions.filter (·.2.2 ≠ k) := if_pos changed.symm
  rw [kept] at hx
  simpa using (List.mem_filter.1 hx).2

/-- Settles O58: the reading verbs answer from the state; each change is read off its verb. -/
theorem logAndRightsVerbs : Obligations.LogAndRightsVerbs := by
  unfold Obligations.LogAndRightsVerbs
  refine ⟨fun ch r s u es due hes clear least most epoch oldest => ?read, fun ch r s u x a due found clear space clear1 clear2 ha fits extent mode inService => ?fetch,
    fun ch r s u due => serve_runs (by decide) due rfl rfl (by decide) (by decide) (by decide) rfl, fun ch r s u due clear epoch last ready => ?clear,
    fun ch r s u due ready => ?archive, fun ch r s u p n c due hp hn hc port cls drawer left => ?cls, fun ch r s u k c due hk hc kind clear slot => ?bind,
    fun p cert k s slot port link run bench few => ?opens⟩
  case read =>
    subst hes
    refine serve_runs (by decide) due rfl (checked_ok ?_) (by decide) (by decide) (by decide) rfl
    simp [clear, Nat.ne_of_gt least, Nat.not_lt.2 most, epoch, Nat.not_lt.2 oldest]
  case fetch =>
    have size := bytes_pos x
    have whole := accessError_of_extentOk (ha ▸ extent) (Nat.lt_of_lt_of_le size fits)
    obtain ⟨mem, same⟩ := Serving.memWrite (b := x.bytes) ⟨mode, inService⟩ (accessError_part whole le_rfl (by omega) size)
    have run : runLogFetch {} r u = (.ok, [], memWrite 7 a x.bytes u) := by
      simp only [runLogFetch, found, u8_drop, leAt_drop, zeroAt_drop, ← ha]
      refine checked_ok ?_
      simp [clear, space, clear1, clear2, Nat.not_lt.2 fits, ha, ha ▸ extent, mode]
    exact serve_runs (by decide) due rfl run (by decide) (by decide) (by decide) ⟨by rw [ha]; exact mem, by rw [ha]; exact same⟩
  case clear =>
    refine serve_runs (by decide) due rfl (checked_ok ?_) (by decide) (by decide) (by decide) ?_
    · simp [clear, epoch, last, ready]
    · have opened := clearLog_opened (reqOrigin r) (archiveAll u)
      rwa [epoch_archiveAll] at opened
  case archive => exact serve_runs (by decide) due rfl (checked_ok (by simp [ready])) (by decide) (by decide) (by decide) rfl
  case cls =>
    subst hp hn hc
    refine serve_runs (by decide) due rfl (checked_ok ?_) (by decide) (by decide) (by decide) ?_
    · simp [Nat.not_lt.2 port, Nat.not_lt.2 cls, Nat.not_lt.2 drawer, left]
    · by_cases same : classAhead u (portCode (u8 r.body 0)) (u8 r.body 1) = u8 r.body 2
      · rw [if_pos same]
        exact ⟨same, fun _ => rfl, fun h => absurd same h⟩
      · rw [if_neg same]
        obtain ⟨ahead, record, bureau, idle⟩ := changeClass_changed (portCode (u8 r.body 0)) (u8 r.body 1) (u8 r.body 2) u
        exact ⟨ahead, fun h => absurd h same, fun _ => ⟨record, congrArg (·.nextSeq + 1) bureau, idle⟩⟩
  case bind =>
    subst hk hc
    refine serve_runs (by decide) due rfl (checked_ok ?_) (by decide) (by decide) (by decide) ?_
    · simpa [kind, clear] using slot
    · obtain ⟨own, others, drop⟩ := writeBind_written (u8 r.body 0) (if u8 r.body 1 = 0 then (0, []) else (u8 r.body 1, r.body.drop 16)) u
      exact ⟨own, others, drop, rfl⟩
  case opens =>
    have effect : exec (.ethSessionOpen p cert) s =
        done (ifEvent (p < 2 && (ethOf s p).link && s.hif.walec == .running && s.tim.bench == .off && s.eth.sessions.length < 8) (openSession p k s) s) := by
      change execEthSessionOpen p cert s = _
      simp only [execEthSessionOpen, slot]
    refine leads_event effect (by simp [port, link, run, bench, few]) ?_
    obtain ⟨n, hn⟩ := free_number few
    have opened : openSession p k s = { s with eth := { s.eth with sessions := Tbl.set n (p, k) s.eth.sessions } } := by simp only [openSession, hn]
    refine ⟨n, List.mem_range.1 (List.mem_of_find?_eq_some hn), by simpa using List.find?_some hn, ?_⟩
    rw [opened]
    simp only [settle_frame]

end Sys2Proof.Machine
end

section
/-! Proof of O57: TIME.EVENT, THERM.ACK and the SPARE verbs (R434, R524, R599, R627, R676). -/

namespace Sys2Proof.Machine

/-- A class exhausted makes one entry at most. -/
theorem exhaust_once (k : Nat) (s : State) : (exhaust k s).dmc = s.dmc ∧ (exhaust k s).spr.spareUsedSeen = s.spr.spareUsedSeen ∧ s.bureau.nextSeq ≤ (exhaust k s).bureau.nextSeq := by
  unfold exhaust
  split_ifs
  · exact ⟨rfl, rfl, le_rfl⟩
  · exact ⟨rfl, rfl, Nat.le_succ _⟩

/-- A migration's sites, its record and its entry (R434). -/
theorem startMigration_named (l : Nat) (o : Origin) (s : State) : (startMigration l o s).dmc.migrateFrom = s.dmc.siteMap.getD l 15 ∧
    (startMigration l o s).dmc.norRecord = some (l, s.dmc.siteMap.getD l 15, s.dmc.spareSite, 0) ∧ s.bureau.nextSeq < (startMigration l o s).bureau.nextSeq := by
  unfold startMigration
  extract_lets src dst d sp t1 x y t2 t3
  have logged : t3.bureau.nextSeq = s.bureau.nextSeq + 1 := rfl
  have sites : t3.dmc.migrateFrom = src ∧ t3.dmc.norRecord = some (l, src, dst, 0) := ⟨rfl, rfl⟩
  clear_value t3
  have next (u : State) (hu : u = startCopy t3 ∨ u = requestDomain true (21 + dst) t3) : u.dmc.migrateFrom = src ∧ u.dmc.norRecord = some (l, src, dst, 0) ∧
      u.bureau.nextSeq = s.bureau.nextSeq + 1 := by
    rcases hu with rfl | rfl
    · exact ⟨sites.1, sites.2, logged⟩
    · exact ⟨sites.1, sites.2, logged⟩
  obtain ⟨source, record, entries⟩ := next (if domainOn t3 (21 + dst) then startCopy t3 else requestDomain true (21 + dst) t3) (by split_ifs <;> simp)
  obtain ⟨dmc, -, least⟩ := exhaust_once 1 (if domainOn t3 (21 + dst) then startCopy t3 else requestDomain true (21 + dst) t3)
  exact ⟨by rw [dmc, source], by rw [dmc, record], by omega⟩

/-- The verb on a request of OP 0, 1 or 2 that is in its format and range. -/
theorem runTimeEvent_formed {x : Outside} {r : Request} {u : State} (hn : u8 r.body 0 ≤ 15) (hop : u8 r.body 1 ≤ 2) (hb : u8 r.body 2 ≤ 3) (ha : u8 r.body 3 ≤ 3)
    (range : u8 r.body 1 = 0 → ((eventSlotOf r.body).period = 0 ∨ within 1000000 (2 ^ 62) (eventSlotOf r.body).period = true) ∧
      tooFar u (eventSlotOf r.body).base (eventSlotOf r.body).target = false) {new : EventSlot}
    (hnew : new = if u8 r.body 1 = 0 then eventSlotOf r.body else if u8 r.body 1 = 1 then { slotOf u (u8 r.body 0) with armed := false } else slotOf u (u8 r.body 0)) :
    runTimeEvent x r u = (.ok, new.bytes (u8 r.body 0) (u8 r.body 1),
      if u8 r.body 1 = 0 || (u8 r.body 1 = 1 && (slotOf u (u8 r.body 0)).armed) then
        recorded r (u8 r.body 0) ((slotOf u (u8 r.body 0)).bytes (u8 r.body 0) (u8 r.body 1)) (new.bytes (u8 r.body 0) (u8 r.body 1)) (setSlot (u8 r.body 0) new u) else u) := by
  subst hnew
  refine checked_ok ?_
  simp only [List.forall_mem_cons, List.not_mem_nil, false_implies, implies_true, and_true]
  refine ⟨?_, ?_⟩
  · have base : (eventSlotOf r.body).base = u8 r.body 2 := rfl
    have action : (eventSlotOf r.body).action = u8 r.body 3 := rfl
    simp [base, action, Nat.not_lt.2 hn, Nat.not_lt.2 hop, Nat.not_lt.2 hb, Nat.not_lt.2 ha]
  · by_cases h : u8 r.body 1 = 0
    · obtain ⟨period, near⟩ := range h
      simp [h, near]
      tauto
    · simp [h]

/-- Settles O57: the slot of an event, the sensor, the migration and the link each as its verb leaves it. -/
theorem timeAndSpareVerbs : Obligations.TimeAndSpareVerbs := by
  unfold Obligations.TimeAndSpareVerbs
  refine ⟨fun ch r s u n x due hn hx op hop slot base action period near => ?set, fun ch r s u n due hn op hop slot base action => ?cancel,
    fun ch r s u n due hn op hop slot base action => ?query, fun ch r s u n due hn sensor held => ?ack, fun ch r s u l due hl site idle spare mode bench => ?migrate,
    fun ch r s u n f due hn hf clear flag clear1 link conf raster up half free => ?restore,
    fun ch r s u due => serve_runs (by decide) due rfl rfl (by decide) (by decide) (by decide) rfl⟩
  case set =>
    subst hn hx
    have effect : exec (.timeEventSet ch) s = done (serve 0x0B 0x03 timeEventVerb {} ch s) := by
      change execTimeEventSet ch s = _
      simp [execTimeEventSet, ifEvent, op]
    have run := runTimeEvent_formed (x := {}) (u := u) slot (by omega) base action (fun _ => ⟨period, near⟩) rfl
    rw [hop] at run
    exact serve_runs (by decide) due effect run (by decide) (by decide) (by decide) ⟨Tbl.get_set_self .., rfl⟩
  case cancel =>
    subst hn
    have effect : exec (.timeEventCancel ch) s = done (serve 0x0B 0x03 timeEventVerb {} ch s) := by
      change execTimeEventCancel ch s = _
      simp [execTimeEventCancel, ifEvent, op]
    have run := runTimeEvent_formed (x := {}) (u := u) slot (by omega) base action (fun h => by omega) rfl
    rw [hop] at run
    refine serve_runs (by decide) due effect run (by decide) (by decide) (by decide) ?_
    cases armed : (slotOf u (u8 r.body 0)).armed with
    | false => exact ⟨armed, fun _ => rfl⟩
    | true => exact ⟨congrArg EventSlot.armed (Tbl.get_set_self ..), nofun⟩
  case query =>
    subst hn
    have effect : exec (.timeEventQuery ch) s = done (serve 0x0B 0x03 timeEventVerb {} ch s) := by
      change execTimeEventQuery ch s = _
      simp [execTimeEventQuery, ifEvent, op]
    have run := runTimeEvent_formed (x := {}) (u := u) slot (by omega) base action (fun h => by omega) rfl
    rw [hop] at run
    exact serve_runs (by decide) due effect run (by decide) (by decide) (by decide) rfl
  case ack =>
    subst hn
    refine serve_runs (by decide) due rfl (checked_ok ?_) (by decide) (by decide) (by decide) ⟨Tbl.get_set_self .., rfl⟩
    simp [Nat.not_lt.2 sensor, held]
  case migrate =>
    subst hl
    refine serve_runs (by decide) due rfl (checked_ok ?_) (by decide) (by decide) (by decide) ?_
    · simp [Nat.not_lt.2 site, idle, spare, mode, bench]
    · obtain ⟨source, record, entries⟩ := startMigration_named (u8 r.body 0) (reqOrigin r) u
      obtain ⟨logical, target, used⟩ := startMigration_spec (u8 r.body 0) (reqOrigin r) u
      exact ⟨source, target, logical, record, used, entries⟩
  case restore =>
    subst hn hf
    refine serve_runs (by decide) due rfl (checked_ok ?_) (by decide) (by decide) (by decide) ⟨congrArg Link.controls (Tbl.get_set_self ..), rfl⟩
    simp [clear, clear1, Nat.not_lt.2 flag, Nat.not_lt.2 link, conf, raster, up, half, free]

end Sys2Proof.Machine
end

section
/-! Proof of O56: the STRESS and SIG verbs (R167 to R169, R183, R245, R247, R501). -/

namespace Sys2Proof.Machine

/-- A file that passes its checks is taken and its load entered. -/
theorem runLoad_taken {busy : State → Bool} {status : Outside → State → Bytes → Nat → Status} {bank : State → Nat} {take : Bytes → State → State}
    {spoil : State → Bytes → Nat → State} {x : Outside} {r : Request} {u : State} {f : Bytes} {v : Nat} (free : busy u = false)
    (object : objectOf x r r.body u = (.ok, f, v)) (passes : status x u f v = .ok) :
    runLoad busy status bank take spoil x r u = (.ok, [], log (reqOrigin r) (bank u) 0x0003 (leAt f 4 4) (take f u)) := by
  simp [runLoad, free, object, passes]

/-- Settles O56: each verb's checks pass, and what it enters is one planned change or one entry. -/
theorem stressAndSignatureVerbs : Obligations.StressAndSignatureVerbs := by
  unfold Obligations.StressAndSignatureVerbs
  refine ⟨fun ch r s u due => serve_runs (by decide) due rfl rfl (by decide) (by decide) (by decide) rfl, fun ch r s u due choice disagree => ?resolve,
    fun ch h r s u f v due object passes => ?load, fun ch r s u n x due hn hx zero format region range slates => ?region, fun ch r s u due region => ?release,
    fun ch r s u n due hn region => ?query⟩
  case resolve =>
    refine serve_runs (by decide) due rfl (checked_ok ?_) (by decide) (by decide) (by decide) ⟨rfl, rfl⟩
    simp [Nat.not_lt.2 choice, disagree]
  case load =>
    have run : runModelLoad { obj := h } r u = (.ok, [], log (reqOrigin r) 0 0x0003 (leAt f 4 4) (takeModel f (reqOrigin r) u)) :=
      runLoad_taken (status := fun _ => modelFileStatus) (bank := fun _ => 0) rfl object passes
    exact serve_runs (by decide) due rfl run (by decide) (by decide) (by decide) ⟨rfl, rfl, rfl⟩
  case region =>
    subst hn hx
    refine serve_runs (by decide) due rfl (checked_ok ?_) (by decide) (by decide) (by decide) ⟨rfl, rfl⟩
    cases slate : (regionRecOf (r.body.drop 16)).slates with
    | false => simp [zero, format, range, Nat.not_lt.2 region]
    | true => simp [zero, format, range, slates slate, Nat.not_lt.2 region]
  case release => exact serve_runs (by decide) due rfl (checked_ok (by simp [Nat.not_lt.2 region])) (by decide) (by decide) (by decide) rfl
  case query =>
    subst hn
    exact serve_runs (by decide) due rfl (checked_ok (by simp [Nat.not_lt.2 region])) (by decide) (by decide) (by decide) rfl

end Sys2Proof.Machine
end

section
/-! Proof of O54: the MODE and LAYER verbs (R103 to R105, R203, R212, R218, R501). -/

namespace Sys2Proof.Machine

/-- What a run of checks answers is the status of one of them, or ST_OK. -/
theorem firstStatus_mem (l : List (Bool × Status)) : firstStatus l = .ok ∨ firstStatus l ∈ l.map (·.2) := by
  induction l with
  | nil => exact .inl rfl
  | cons a l ih =>
    obtain ⟨bad, c⟩ := a
    cases bad with
    | true => exact .inr List.mem_cons_self
    | false => exact ih.imp id (List.mem_cons_of_mem _)

/-- A bitmap is refused for its format, its rows, its size or its checksum. -/
theorem bitmapStatus_refuses (s : State) (f : Bytes) : bitmapStatus s f = .ok ∨ bitmapStatus s f ∈ [Status.format, .range, .limit, .checksum] := firstStatus_mem _

/-- A FLATTEN leaves the commits and their numbers. -/
theorem startFlatten_commits (id : Nat) (p : List Nat) (ms : List (Nat × LayerEntry)) (s : State) :
    ((startFlatten id p ms s).cmp.commits, (startFlatten id p ms s).cmp.lastId) = (s.cmp.commits, s.cmp.lastId) := by
  unfold startFlatten
  extract_lets k g b others
  split_ifs <;> rfl

/-- The back buffers that follow the entries change no more of a commit than its groups (R97). -/
theorem refreshBacks_commits (s : State) : ((refreshBacks s).cmp.commits.map fun x => { x with groups := [] }) = (s.cmp.commits.map fun x => { x with groups := [] }) ∧
    (refreshBacks s).cmp.lastId = s.cmp.lastId := by
  unfold refreshBacks
  extract_lets due t groups
  have kept : (t.cmp.commits, t.cmp.lastId) = (s.cmp.commits, s.cmp.lastId) :=
    foldl_fixed (f := fun t : State => (t.cmp.commits, t.cmp.lastId)) (fun t d => foldl_fixed (f := fun t : State => (t.cmp.commits, t.cmp.lastId))
      (fun t x => startFlatten_commits d.1 x.1 x.2 t) _ _) _ _
  obtain ⟨commits, last⟩ := Prod.mk.inj kept
  refine ⟨?_, last⟩
  rw [← commits]
  simp

/-- A commit accepted stands last, with the next number (R103, R104). -/
theorem acceptCommit_appends (d : Bytes) (o : Origin) (key : CommitKey) (s : State) : (acceptCommit d o key s).cmp.lastId = wrapAdd 32 s.cmp.lastId 1 ∧
    (acceptCommit d o key s).bureau = s.bureau ∧
    ((acceptCommit d o key s).cmp.commits.map fun x => { x with groups := [] }) =
      (s.cmp.commits.map fun x => { x with groups := [] }) ++ [{ proposed s d with origin := o, key }] := by
  have bureau := (acceptCommit_keeps (K := [.cmp, .blt]) d o key s (by decide) (Keeps.refl _ _)).same.bureau_eq (by decide)
  refine ⟨?_, bureau, ?_⟩
  · exact (refreshBacks_commits _).2
  · refine (refreshBacks_commits _).1.trans ?_
    rw [List.map_append]
    rfl

/-- The object of a verb that takes it whole, accepted as a commit. -/
theorem runLayerCommit_accepted {x : Outside} {r : Request} {u : State} {d : Bytes} (object : plainObject x r r.body u = (.ok, d)) (passes : commitStatus u r.cls d = .ok) :
    runLayerCommit x r u = (.ok, leBytes 4 (acceptCommit d (reqOrigin r) (requestKey u r) u).cmp.lastId ++ leBytes 4 0 ++ leBytes 8 ((commitTarget d).frame u),
      acceptCommit d (reqOrigin r) (requestKey u r) u) := by
  unfold runLayerCommit submitCommit
  rw [object]
  dsimp only
  rw [passes]
  rfl

/-- A mode that is not in effect, outside Bench, is planned at its frame (R203). -/
theorem runModeSet_plans {x : Outside} {r : Request} {u : State} {t : Target}
    (ht : t = { kind := u8 r.body 1, base := u8 r.body 2, value := leAt r.body 8 8, mustHit := bit (u8 r.body 3) 0 }) (flag : u8 r.body 3 ≤ 1)
    (clear : zeroAt r.body 4 4 = true) (passes : modeStatus u true (u8 r.body 0) t = .ok) (new : u8 r.body 0 ≠ u.tim.mode) (bench : u.tim.mode ≠ 0x10) :
    runModeSet x r u = (.ok, leBytes 8 (modeFrameOf u t), plan (modeFrameOf u t) (.mode (u8 r.body 0)) (reqOrigin r) u) := by
  subst ht
  simp [runModeSet, Nat.not_lt.2 flag, clear, modeRequest, passes, modeAccept, new, bench]

/-- Settles O54: a MODE verb plans, loads or schedules, and LAYER.COMMIT appends its commit. -/
theorem modeAndLayerVerbs : Obligations.ModeAndLayerVerbs := by
  unfold Obligations.ModeAndLayerVerbs
  refine ⟨fun ch r s u m t due hm ht flag clear passes new bench => ?set, fun ch h r s u f due object passes => ?load, fun ch h r s u f due object fails => ?refuse,
    fun ch r s u e due he clear pad action base mode slot period => ?schedule, fun ch h r s u d due object passes => ?commit,
    fun ch r s u due kind drawer => ?result, fun ch r s u due layer => ?query⟩
  case set =>
    subst hm
    exact serve_runs (by decide) due rfl (runModeSet_plans (x := {}) ht flag clear passes new bench) (by decide) (by decide) (by decide) ⟨rfl, rfl⟩
  case load =>
    have run : runBenchLoad { obj := h } r u =
        (.ok, [], log (reqOrigin r) 0 0x0003 0 { u with tim := { u.tim with bitmap := some f }, bot := { u.bot with benchFile := some f } }) := by
      simp [runBenchLoad, object, passes]
    exact serve_runs (by decide) due rfl run (by decide) (by decide) (by decide) ⟨rfl, rfl, rfl⟩
  case refuse =>
    have run : runBenchLoad { obj := h } r u = (bitmapStatus u f, [], { u with tim := { u.tim with bitmap := none } }) := by
      unfold runBenchLoad
      rw [object]
      dsimp only
      split
      · contradiction
      · rfl
    have shown := (bitmapStatus_refuses u f).resolve_left fails
    exact serve_runs (by decide) due rfl run (by decide) (by rintro same; simp [same] at shown) (by rintro same; simp [same] at shown) ⟨rfl, rfl⟩
  case schedule =>
    subst he
    refine serve_runs (by decide) due rfl (checked_ok ?_) (by decide) (by decide) (by decide)
      ⟨Tbl.find?_set_self .., fun k other => Tbl.find?_set_ne other .., rfl⟩
    simp [clear, pad, Nat.not_lt.2 action, Nat.not_lt.2 base, Nat.not_lt.2 slot, Nat.not_lt.2 period]
    exact mode.resolve_left
  case commit =>
    have run := runLayerCommit_accepted object passes
    obtain ⟨last, bureau, commits⟩ := acceptCommit_appends d (reqOrigin r) (requestKey u r) u
    rw [last] at run
    exact serve_runs (by decide) due rfl run (by decide) (by decide) (by decide) ⟨last, bureau, _, commits, last.symm, rfl, rfl, rfl⟩
  case result => exact serve_runs (by decide) due rfl (checked_ok (by simp [Nat.not_lt.2 kind, drawer])) (by decide) (by decide) (by decide) rfl
  case query => exact serve_runs (by decide) due rfl (checked_ok (by simp [Nat.not_lt.2 layer])) (by decide) (by decide) (by decide) rfl

end Sys2Proof.Machine
end

section
/-! Proof of O55: the STREAM verbs and the loading and activation of calibration sets (R55 to R60, R225, R230, R232, R302 to R305, R319). -/

namespace Sys2Proof.Machine

/-! ### STREAM -/

/-- Walec's own choice among the members of a list is one of them. -/
theorem getD_freeBelow_mem {l : List Nat} (h : l ≠ []) (s : State) : l.getD (freeBelow s l.length) 0 ∈ l := by
  have inside : freeBelow s l.length < l.length := Nat.mod_lt _ (List.length_pos_iff.2 h)
  rw [List.getD_eq_getElem _ _ inside]
  exact List.getElem_mem inside

/-- The queue that Walec makes for a context: a DECODE queue of the requester's class on a number that is OFF (R305). -/
theorem decodeQueue_made {r : Request} {s : State} (h : freeQueues s ≠ []) : (decodeQueue r s).1 ∈ freeQueues s ∧ (decodeQueue r s).2.1.kind = 2 ∧
    (decodeQueue r s).2.1.cls = r.cls ∧ (decodeQueue r s).2.1.state = .active ∧ (decodeQueue r s).2.2.dec = s.dec ∧ (decodeQueue r s).2.2.spr = s.spr := by
  have member := getD_freeBelow_mem h s
  unfold decodeQueue
  extract_lets l q t a u c v
  have number : q ∈ freeQueues s := member
  have dec : v.dec = s.dec := rfl
  have spr : v.spr = s.spr := rfl
  clear_value q a c v
  exact ⟨number, rfl, rfl, rfl, dec, spr⟩

theorem queueOf_congr {s t : State} (h : t.hif.queues = s.hif.queues) (q : Nat) : queueOf t q = queueOf s q := congrArg (fun l : Tbl Queue => Tbl.get l {} q) h

/-- A DECODE queue created is in the table as it was given, but for GEN; contexts, cores and spares stay. -/
theorem createQueue_decode {q : Nat} {c : Queue} (kind : c.kind = 2) (slots : List Nat) (s : State) :
    queueOf (createQueue q c slots s) q = { c with gen := ((queueOf s q).gen + 1) % 16 } ∧ (createQueue q c slots s).dec = s.dec ∧
      (createQueue q c slots s).spr = s.spr := by
  have unbound : bindQueue q c.kind slots (setQueue q { c with gen := ((queueOf s q).gen + 1) % 16 } s) = setQueue q { c with gen := ((queueOf s q).gen + 1) % 16 } s := by
    simp [bindQueue, kind]
  have zeroed := (zeroPhases_keeps (K := [.dmc, .dram, .ports, .bureau, .pins, .sent]) { c with gen := ((queueOf s q).gen + 1) % 16 }
    (bindQueue q c.kind slots (setQueue q { c with gen := ((queueOf s q).gen + 1) % 16 } s)) (by decide) (Keeps.refl _ _)).same
  rw [unbound] at zeroed
  have same : createQueue q c slots s = zeroPhases { c with gen := ((queueOf s q).gen + 1) % 16 } (setQueue q { c with gen := ((queueOf s q).gen + 1) % 16 } s) := by
    rw [← unbound]; rfl
  rw [same]
  exact ⟨(queueOf_congr (zeroed.queues_eq (by decide)) q).trans (queueOf_setQueue_self ..), zeroed.dec_eq (by decide), zeroed.spr_eq (by decide)⟩

/-- A context opened, and the queues as they were (R304). -/
theorem openContext_opens (n q : Nat) (b : Bytes) (s : State) : (ctxOf (openContext n q b s) n).role = u8 b 1 ∧ (ctxOf (openContext n q b s) n).desc = b ∧
    (ctxOf (openContext n q b s) n).state = (if coreSound s (coreFor s b) then .idle else .moving) ∧ (ctxOf (openContext n q b s) n).queue = some q ∧
    (ctxOf (openContext n q b s) n).core = coreFor s b ∧ queueOf (openContext n q b s) = queueOf s := by
  have power (c : Nat) (t : State) : (powerCore c t).dec = t.dec := (powerCore_keeps (K := [.pwr]) c t (by decide) (Keeps.refl _ _)).same.dec_eq (by decide)
  have queues := (openContext_keeps (K := [.dec, .pwr]) n q b s (by decide) (Keeps.refl _ _)).same.queues_eq (by decide)
  refine ⟨?_, ?_, ?_, ?_, ?_, funext (queueOf_congr queues)⟩ <;> simp [openContext, ctxOf, power, setCtx, Tbl.get_set_self]

/-- A record leaves the contexts and the queues. -/
theorem recorded_decode (r : Request) (ix : Nat) (old new : Bytes) (s : State) :
    ctxOf (recorded r ix old new s) = ctxOf s ∧ queueOf (recorded r ix old new s) = queueOf s := ⟨rfl, rfl⟩

/-- STREAM.OPEN on a queue of Walec's choice. -/
theorem runStreamOpen_opens {x : Outside} {r : Request} {u : State} (formed : streamOk u r.body = true) (free : (ctxOf u (u8 r.body 0)).role = 0)
    (room : admitted u r.body = true) (queue : freeQueues u ≠ []) : ∃ q c, q ∈ freeQueues u ∧ c.kind = 2 ∧ c.cls = r.cls ∧ c.state = .active ∧
      ∃ t, t.dec = u.dec ∧ t.spr = u.spr ∧ runStreamOpen x r u =
        (.ok, leBytes 2 q ++ leBytes 2 q, recorded r (u8 r.body 0) [] r.body (openContext (u8 r.body 0) q r.body (createQueue q c [] t))) := by
  have made := decodeQueue_made (r := r) queue
  unfold runStreamOpen
  generalize decodeQueue r u = d at made ⊢
  obtain ⟨q, c, t⟩ := d
  obtain ⟨number, kind, cls, state, dec, spr⟩ := made
  refine ⟨q, c, number, kind, cls, state, t, dec, spr, checked_ok ?_⟩
  simp [formed, free, room, queue]

/-- A queue deleted is OFF. -/
theorem queueOf_deleteQueue (q : Nat) (s : State) : (queueOf (deleteQueue q s) q).state = .off :=
  congrArg Queue.state (queueOf_setQueue_self (s := s) q { gen := (queueOf s q).gen })

/-- A context closed, with its queue deleted (R319). -/
theorem closeContext_closes (n : Nat) (s : State) : (ctxOf (closeContext n s) n).role = 0 ∧ (ctxOf (closeContext n s) n).state = .closed ∧
    (ctxOf (closeContext n s) n).queue = none ∧ ∀ q, (ctxOf s n).queue = some q → (queueOf (closeContext n s) q).state = .off := by
  unfold closeContext
  extract_lets x c core t1 t2 t3
  have closed : (ctxOf t3 n).role = 0 ∧ (ctxOf t3 n).state = .closed ∧ (ctxOf t3 n).queue = none := by
    simp only [t3, ctxOf_setCtx, and_self]
  have off (q : Nat) (h : x.queue = some q) : (queueOf t3 q).state = .off := by
    have deleted : t2 = deleteQueue q t1 := by simp only [t2, h, Option.elim_some]
    exact (congrArg (fun t => (queueOf t q).state) deleted).trans (queueOf_deleteQueue q t1)
  clear_value t3
  obtain ⟨role, state, queue⟩ := closed
  split_ifs
  · exact ⟨role, state, queue, off⟩
  · exact ⟨role, state, queue, off⟩

/-! ### Loads and activations -/

/-- Sets renewed leave the banks and the Bureau. -/
theorem renewSet_banks (kind panel : Nat) (s : State) : (renewSet kind panel s).geom.banks = s.geom.banks := by
  unfold renewSet
  extract_lets l
  split_ifs <;> rfl

/-- A map loaded lies in the bank that is not active (R57). -/
theorem loadMapFile_loads (f : Bytes) (s : State) : Tbl.get (loadMapFile f s).out.maps {} (1 - s.out.mapActive) = mapOfFile f ∧
    (loadMapFile f s).out.mapActive = s.out.mapActive ∧ (loadMapFile f s).bureau = s.bureau := by
  have kept := (internalJob_keeps (K := [.dfl, .geom]) (leAt f 24 8) 796262400 _ (by decide) <| internalJob_keeps (leAt f 16 8) 16588800 _ (by decide) <|
    renewSet_keeps 3 (leAt f 8 8) { s with out := { s.out with maps := Tbl.set (1 - s.out.mapActive) (mapOfFile f) s.out.maps, mapLoaded := true } }
      (by decide) (Keeps.refl _ _)).same
  have out := kept.out_eq (by decide)
  have bureau := kept.bureau_eq (by decide)
  change (loadMapFile f s).out = _ at out
  rw [out]
  exact ⟨Tbl.get_set_self .., rfl, bureau⟩

/-- Curves loaded lie in the bank that is not active (R230). -/
theorem loadCurveFile_loads (f : Bytes) (s : State) : curveBank (loadCurveFile f s) (1 - s.out.curveActive) = curvesOfFile f ∧
    (loadCurveFile f s).out.curveActive = s.out.curveActive ∧ (loadCurveFile f s).bureau = s.bureau := by
  have kept := (renewSet_keeps (K := [.geom]) 2 (leAt f 16 8)
    { s with out := { s.out with curves := Tbl.set (1 - s.out.curveActive) (curvesOfFile f) s.out.curves, curveLoaded := true } } (by decide) (Keeps.refl _ _)).same
  have out := kept.out_eq (by decide)
  have bureau := kept.bureau_eq (by decide)
  change (loadCurveFile f s).out = _ at out
  unfold curveBank
  rw [out]
  exact ⟨Tbl.get_set_self .., rfl, bureau⟩

theorem GeomBank.valid_eta {g : GeomBank} (h : g.valid = true) : { g with valid := true } = g := by rw [← h]

/-- A geometry loaded without a bad copy lies in the bank that is not active (R56). -/
theorem loadGeomFile_loads (f : Bytes) (s : State) : geomBank (loadGeomFile f [] s) (1 - s.geom.active) = geomOfFile f ∧
    (loadGeomFile f [] s).geom.active = s.geom.active ∧ (loadGeomFile f [] s).bureau = s.bureau := by
  have bureau := (loadGeomFile_keeps (K := [.geom]) f [] s (by decide) (Keeps.refl _ _)).same.bureau_eq (by decide)
  refine ⟨?_, loadGeomFile_active f [] s, bureau⟩
  have good : copyFails [] s = false := by simp [copyFails]
  unfold loadGeomFile geomBank
  extract_lets b ok file g rest t
  have fine : ok = true := by simp only [ok, good, Bool.not_false]
  have bank : g = geomOfFile f := by
    simp only [g, fine]
    exact GeomBank.valid_eta (g := geomOfFile f) rfl
  have stored : Tbl.get t.geom.banks {} b = g := Tbl.get_set_self ..
  clear_value g t
  rw [if_pos fine, renewSet_banks, stored, bank]

/-- What an activation answers for each decision of its bank pair, its operands in format and range (R58 to R60). -/
theorem runActivate_formed {pair : State → BankPair} {fits : State → Bool} {change : Nat → Change} {x : Outside} {r : Request} {u : State}
    (flag : u8 r.body 4 ≤ 1) (clear : zeroAt r.body 5 3 = true) (near : u8 r.body 4 = 1 → leAt r.body 8 8 ≤ u.tim.frameCount + 2 ^ 62) :
    ((pair u).decide (leAt r.body 0 4) = .swap → u.geom.panelMismatch = false → fits u = true → runActivate pair fits change x r u =
      (.ok, leBytes 8 (activationFrame u r.body), plan (activationFrame u r.body) (change (leAt r.body 0 4)) (reqOrigin r) u)) ∧
    ((pair u).decide (leAt r.body 0 4) = .nothing → runActivate pair fits change x r u = (.ok, leBytes 8 (pair u).frame, u)) ∧
    ((pair u).decide (leAt r.body 0 4) = .notReady → runActivate pair fits change x r u = (.notReady, [], u)) := by
  have formed : firstStatus [(1 < u8 r.body 4 || !zeroAt r.body 5 3, .format), (u8 r.body 4 = 1 && u.tim.frameCount + 2 ^ 62 < leAt r.body 8 8, .range)] = .ok := by
    refine firstStatus_ok _ ?_
    simp only [List.forall_mem_cons, List.not_mem_nil, false_implies, implies_true, and_true]
    refine ⟨by simp [Nat.not_lt.2 flag, clear], ?_⟩
    by_cases named : u8 r.body 4 = 1
    · simpa [named] using near named
    · simp [named]
  unfold runActivate
  dsimp only
  rw [formed]
  refine ⟨fun swap agree fit => ?_, fun nothing => ?_, fun notReady => ?_⟩
  · simp only [swap, agree, fit, Bool.false_eq_true, if_false, if_true]
  · simp only [nothing]
  · simp only [notReady, refuse]

/-- The row of an activation answers as its bank pair decides. -/
theorem activation_runs {c : Instr} {service verb : Nat} {v : Verb} {ch : Channel} {r : Request} {s u : State} {pair : State → BankPair} {fits : State → Bool}
    {change : Nat → Change} (hk : known service verb = true) (hsw : ¬(service = 0x10 ∧ verb = 0x02)) (due : Due v service verb ch r s u)
    (effect : exec c s = done (serve service verb v {} ch s)) (row : v.run = runActivate pair fits change) (flag : u8 r.body 4 ≤ 1)
    (clear : zeroAt r.body 5 3 = true) (near : u8 r.body 4 = 1 → leAt r.body 8 8 ≤ u.tim.frameCount + 2 ^ 62) :
    ((pair u).decide (leAt r.body 0 4) = .swap → u.geom.panelMismatch = false → fits u = true → Runs c r s .ok (leBytes 8 (activationFrame u r.body)) fun w =>
      w = plan (activationFrame u r.body) (change (leAt r.body 0 4)) (reqOrigin r) u) ∧
    ((pair u).decide (leAt r.body 0 4) = .nothing → Runs c r s .ok (leBytes 8 (pair u).frame) fun w => w = u) ∧
    ((pair u).decide (leAt r.body 0 4) = .notReady → Runs c r s .notReady [] fun w => w = u) := by
  obtain ⟨swap, nothing, notReady⟩ := runActivate_formed (pair := pair) (fits := fits) (change := change) (x := {}) flag clear near
  rw [← row] at swap nothing notReady
  exact ⟨fun d agree fit => serve_runs hk due effect (swap d agree fit) hsw (by decide) (by decide) rfl,
    fun d => serve_runs hk due effect (nothing d) hsw (by decide) (by decide) rfl,
    fun d => serve_runs hk due effect (notReady d) hsw (by decide) (by decide) rfl⟩

/-- Settles O55: STREAM.OPEN makes its queue and context, a load fills the bank that is not active, and an activation follows its bank pair. -/
theorem streamAndCalibrationVerbs : Obligations.StreamAndCalibrationVerbs := by
  unfold Obligations.StreamAndCalibrationVerbs
  refine ⟨fun ch r s u n due hn formed free room queue => ?start, fun ch r s u n due hn context set partner => ?close,
    fun ch h r s u f v due idle object awake passes => ?map, fun ch h r s u f v due idle object passes => ?geom, fun ch h r s u f v due idle object passes => ?curves,
    fun ch c v verb r s u pair fits change row => ?activate⟩
  case start =>
    subst hn
    obtain ⟨q, c, number, kind, cls, state, t, dec, spr, run⟩ := runStreamOpen_opens (x := {}) formed free room queue
    refine ⟨q, number, serve_runs (by decide) due rfl run (by decide) (by decide) (by decide) ?_⟩
    obtain ⟨made, decMade, sprMade⟩ := createQueue_decode (q := q) kind [] t
    obtain ⟨role, desc, context, link, core, queues⟩ := openContext_opens (u8 r.body 0) q r.body (createQueue q c [] t)
    have choice : coreFor (createQueue q c [] t) r.body = coreFor u r.body := by simp only [coreFor, sprMade, spr]
    have sound : coreSound (createQueue q c [] t) = coreSound u := by
      funext k
      simp only [coreSound, coreOf, decMade, dec, sprMade, spr]
    rw [choice] at context core
    rw [sound] at context
    have entry : queueOf (openContext (u8 r.body 0) q r.body (createQueue q c [] t)) q = { c with gen := ((queueOf t q).gen + 1) % 16 } := by rw [queues, made]
    obtain ⟨contexts, kept⟩ := recorded_decode r (u8 r.body 0) [] r.body (openContext (u8 r.body 0) q r.body (createQueue q c [] t))
    rw [contexts, kept]
    exact ⟨role, desc, context, link, core, (congrArg Queue.kind entry).trans kind, (congrArg Queue.cls entry).trans cls, (congrArg Queue.state entry).trans state⟩
  case close =>
    subst hn
    refine serve_runs (by decide) due rfl (checked_ok ?_) (by decide) (by decide) (by decide) (closeContext_closes (u8 r.body 0) u)
    by_cases alpha : (ctxOf u (u8 r.body 0)).role = 2
    · simp [Nat.not_lt.2 context, set, partner alpha]
    · simp [Nat.not_lt.2 context, set, alpha]
  case map =>
    obtain ⟨bank, active, bureau⟩ := loadMapFile_loads f u
    have run : mapLoadVerb.run { obj := h } r u = (.ok, [], log (reqOrigin r) (1 - u.out.mapActive) 0x0003 (leAt f 4 4) (loadMapFile f u)) :=
      runLoad_taken (status := fun _ s f v => if s.dmc.mode == .running then mapFileStatus s f v else .notReady) (bank := fun s => 1 - s.out.mapActive) idle object
        (by simp [awake, passes])
    exact serve_runs (by decide) due rfl run (by decide) (by decide) (by decide)
      ⟨bank, active, (nextSeq_log ..).trans (congrArg (·.nextSeq + 1) bureau)⟩
  case geom =>
    obtain ⟨bank, active, bureau⟩ := loadGeomFile_loads f u
    have run : loadGeomVerb.run { obj := h, badCopies := [] } r u = (.ok, [], log (reqOrigin r) (1 - u.geom.active) 0x0003 (leAt f 4 4) (loadGeomFile f [] u)) :=
      runLoad_taken (busy := fun s => (pendingGeom s).isSome) (status := loadGeomStatus) (bank := fun s => 1 - s.geom.active) (take := (loadGeomFile · []))
        (spoil := spoilGeom) (by simp [idle]) object
        (by simp [loadGeomStatus, copyFails, passes])
    exact serve_runs (by decide) due rfl run (by decide) (by decide) (by decide)
      ⟨bank, active, (nextSeq_log ..).trans (congrArg (·.nextSeq + 1) bureau)⟩
  case curves =>
    obtain ⟨bank, active, bureau⟩ := loadCurveFile_loads f u
    have run : loadCurvesVerb.run { obj := h } r u = (.ok, [], log (reqOrigin r) (1 - u.out.curveActive) 0x0003 (leAt f 4 4) (loadCurveFile f u)) :=
      runLoad_taken (status := fun _ => curveFileStatus) (bank := fun s => 1 - s.out.curveActive) (take := loadCurveFile) (spoil := fun s _ _ => s) idle object passes
    exact serve_runs (by decide) due rfl run (by decide) (by decide) (by decide)
      ⟨bank, active, (nextSeq_log ..).trans (congrArg (·.nextSeq + 1) bureau)⟩
  case activate =>
    intro due flag clear near
    simp only [List.mem_cons, List.not_mem_nil, or_false, Prod.mk.injEq] at row
    rcases row with ⟨rfl, rfl, rfl, rfl, rfl, rfl⟩ | ⟨rfl, rfl, rfl, rfl, rfl, rfl⟩ | ⟨rfl, rfl, rfl, rfl, rfl, rfl⟩
    · exact activation_runs (by decide) (by decide) due rfl rfl flag clear near
    · exact activation_runs (by decide) (by decide) due rfl rfl flag clear near
    · exact activation_runs (by decide) (by decide) due rfl rfl flag clear near

end Sys2Proof.Machine
end

section
/-! Refutation of O60: a completion whose slot lies outside populated memory makes an entry of its own (R406, R419). -/

namespace Sys2Proof.Machine

/-- A commit of one member, a DISABLE of layer 63 at the earliest tick (R102). -/
def plainCommit : Bytes := [1, 0, 0, 0, 255, 0, 0, 0] ++ List.replicate 24 0 ++ [63, 2] ++ List.replicate 70 0

/-- Its COMMIT entry, with the message in host memory at 4096 (R465). -/
def commitEntry : Fetched :=
  { bytes := [2, 1, 3, 0, 1, 0, 0, 0] ++ leBytes 8 4096 ++ leBytes 4 plainCommit.length ++ leBytes 4 0 ++ leBytes 8 77, slot := 0, gen := 0, reserved := 2 }

/-- An active SERVICE queue of class 2 whose completion ring lies at 64 GiB, outside the populated map (R406). -/
def strayService : Queue := { state := .active, kind := 1, cls := 2, cqAddr := 2 ^ 36, cqSize := 16, reserved := 2, fetched := [commitEntry] }

/-- Walec and the controller run, port A is open and holds class 2 with a live lease, and queue 0 has fetched the entry. -/
def strayCommit : State :=
  { State.reset with
    hif := { State.reset.hif with
      walec := .running
      queues := [(0, strayService)]
      portA := { linkUp := true, ready := true, perst := false }
      own := [(1, { holder := some .a })] }
    dmc := { State.reset.dmc with mode := .running } }

/-- The entry passes the checks of R492 and of its message, and its commit is accepted. -/
theorem strayCommit_accepted : nextService strayCommit 0 = some commitEntry ∧ u8 commitEntry.bytes 0 = 2 ∧ commitChecks strayCommit 0 = .ok ∧
    entryMessage strayCommit 0 commitEntry.bytes (some plainCommit) = (.ok, plainCommit) ∧
    (submitCommit (commitRequest strayCommit 0).cls plainCommit (reqOrigin (commitRequest strayCommit 0))
      (.queue 0 commitEntry.slot commitEntry.gen (leAt commitEntry.bytes 24 8)) strayCommit).1 = .ok := by
  decide

/-- NEXT_SEQ of the next state of an outcome. -/
def nextSeqOf : Out → Option Nat
  | .next t => some t.bureau.nextSeq
  | _ => none

set_option maxRecDepth 4000 in
/-- The write of the ACCEPTANCE record is a command error, which makes an entry. -/
theorem nextSeqOf_strayCommit : nextSeqOf (exec (.serviceQueueCommit 0 (some plainCommit)) strayCommit) ≠ some strayCommit.bureau.nextSeq := by
  decide

/-- Refutes O60: the clause of a COMMIT entry names no condition on the queue's rings. With the completion ring outside the populated map the write of the
ACCEPTANCE record is a command error of requester 6, which makes an entry, and the Bureau is not as it was. (A queue that QUEUE_CREATE made has its rings in
populated memory.) -/
theorem not_serviceQueueEntries : ¬ Obligations.ServiceQueueEntries := by
  unfold Obligations.ServiceQueueEntries
  rintro ⟨-, commit, -⟩
  obtain ⟨next, op, checks, message, accepted⟩ := strayCommit_accepted
  obtain ⟨t, ran, -, -, bureau, -⟩ := commit 0 (some plainCommit) commitEntry plainCommit _ _ _ strayCommit next op checks message (Prod.ext accepted rfl)
  have entries := nextSeqOf_strayCommit
  rw [ran] at entries
  exact entries (congrArg (fun b : BureauState => some b.nextSeq) bureau)

end Sys2Proof.Machine
end
